-- ==== Sys2Proof/Word.lean ====
section
/-! DEFINITION. Word types, and the sparse list that holds everything keyed by an address or a number. -/

namespace Sys2Proof

/-- One byte. -/
abbrev Byte := BitVec 8

/-- A 32-bit word: an FP32 encoding, a token identifier, a sequence handle. -/
abbrev W32 := BitVec 32

/-- A 64-bit word: a BAR0 register, a crew time, a tick number. -/
abbrev W64 := BitVec 64

/-- A sparse map from numbers, as plain data: pairs in ascending key order, none equal to the map's default value. -/
abbrev Sparse (α : Type) := List (Nat × α)

/-- Bytes keyed by byte address. -/
abbrev Mem := Sparse Byte

end Sys2Proof
end

