-- ==== Sys2Proof/Syntax.lean ====
section
/-! DEFINITION. The commands of the block: one constructor of `Instr` per row of spec/opcode_table.json, and the data
that the commands carry. Operands are what comes from outside the block (pin levels, bus data, messages, sensor readings)
or what the spec leaves to the Forester's free choice; every number is range-checked by `WellFormed`. -/

namespace Sys2Proof

/-- Data the device reads from host memory for a command; `none` is a read that ended in a PCIe error (R605). -/
abbrev HostRead := Option (List Byte)

/-- One evaluation of the temperature and power sensors (R107, R706, R741). Temperatures are tenths of a degree Celsius. -/
structure DieReading where
  junction : List Int   -- the die's junction sensors 0 to 15
  hbm      : List Int   -- the base dies of its four stacks, sensors 16 to 19
  deriving DecidableEq, Repr

/-- All sensors of the module, with the input power in watts (R48, R738). -/
structure SensorReadings where
  dies  : List DieReading
  hub   : Int
  nand  : Int
  face  : Int
  watts : Nat
  deriving DecidableEq, Repr

/-- Where a fetch entry reads from, in the table order of R249. -/
inductive Source where
  | hbmOwn | hbmOther | flash | reduction | otherModule
  deriving DecidableEq, Repr

/-- One item of a prefetch stream: bytes to fetch, with the tasks whose loads consume them and the number of loads of each (R262), or a blaze
naming the producer task (R248, R253). -/
inductive StreamItem where
  | fetch (src : Source) (unit : Nat) (addr dst bytes : Nat) (readers : List (Nat × Nat)) (layer : Option Nat)
  | blaze (task : Nat)
  deriving DecidableEq, Repr

/-- The plan of one prefetch stream of a die (R248, R258). Its buffer is `room` bytes of stage memory from `base`; `rate` is r in bytes per
arithmetic cycle; `start` is the planned start time of its first consuming task, by which streams are numbered; `walk` is the Skidder context that
feeds a key-value stream (R250). -/
structure StreamPlan where
  die   : Nat
  num   : Nat
  rate  : Nat
  base  : Nat
  room  : Nat
  start : Nat
  weight : Bool
  walk  : Option Nat
  items : List StreamItem
  deriving DecidableEq, Repr

/-- What a vector task computes: the passes that need functions (R226), and the rest. -/
inductive VecPass where
  | normalise | softMax | rotary | attention | other
  deriving DecidableEq, Repr

/-- What a planned task runs: a matrix descriptor (operation code and alternative), or a vector pass (R230). -/
inductive TaskKind where
  | matrix (operation alt : Nat)
  | vector (pass : VecPass)
  deriving DecidableEq, Repr

/-- Stage bytes that a producer task writes and a task reads behind that producer's blaze (R253, R255). -/
structure Behind where
  task  : Nat
  addr  : Nat
  bytes : Nat
  deriving DecidableEq, Repr

/-- One task placed in a core's context for the tick (R166, R269); tasks of one core that name one context take it in turn. `fns` are the
micro-program IDs it needs (R226); `behind` is what it reads behind blazes; `part` is the range of level-0 indices of a split task's piece, first and
count (R187); `expect` gives the expected bounds of MEMWORD levels in nest order (R196); `op` numbers the operation of the plan that its task shares
with others, and `rows` is its run of row tiles, first and count (R186, R205); `piece` is the piece of a split task and their number, piece 0 of 1 for a
whole task (R98, R99); `space` is its working space in stage memory, as ranges (R238, R247). -/
structure TaskPlan where
  id     : Nat
  req    : Option Nat
  die    : Nat
  core   : Nat
  ctx    : Nat
  kind   : TaskKind
  tregs  : List W64
  fns    : List Nat
  behind : List Behind
  layer  : Option Nat
  part   : Option (Nat × Nat)
  piece  : Nat × Nat
  expect : List Nat
  op     : Nat
  rows   : Nat × Nat
  space  : List (Nat × Nat)
  deriving DecidableEq, Repr

/-- The Forester's estimate of a vector task, from its measured rates, in 10 ns (R97); matrix tasks are computed from their descriptors (R556). -/
structure TaskEst where
  task : Nat
  est  : Nat
  deriving DecidableEq, Repr

/-- A tail that receives writes in the planned tick: its page, the stack preferred and its flush frame (R307). -/
structure TailPlan where
  seq        : W32
  layer      : Nat
  head       : Nat
  firstPos   : Nat
  stack      : Nat
  flushFrame : Nat
  deriving DecidableEq, Repr

/-- One chunk stream of a collective at this member, for slot grants (R540, R541): its tree level, its interval, and the staged bytes that it holds at
once on stack `stack` of its consuming die if no slots are free (R544, R545). -/
structure CollStream where
  sender  : Nat
  level   : Nat
  first   : Nat
  last    : Nat
  bytes   : Nat
  stack   : Nat
  deriving DecidableEq, Repr

/-- The member that combines chunk `chunk` of an item with the next item at a level of a tree program (R525, R528). -/
structure CombineSite where
  chunk  : Nat
  step   : Nat
  item   : Nat
  member : Nat
  deriving DecidableEq, Repr

/-- A contribution of this member to a collective (R525, R527): its rank, for an ALL_GATHER_RING the segment and for a MULTICAST 0, the tasks whose output it
is, and where it lies in the stage memory of the collective's die. -/
structure OwnPart where
  rank  : Nat
  tasks : List Nat
  addr  : Nat
  bytes : Nat
  deriving DecidableEq, Repr

/-- The plan of one collective (R525, R529): `die` and `core` perform its combines here, for request `req`; a ring program runs on directed ring `ring`
of a `dim`-subcube. Its chunks travel on VC `vc` (R532), and this member passes completed data on to `onward` (R524, R537). Its own contributions are `own`, cut
into chunks of `chunk` bytes. -/
structure CollPlan where
  collId       : Nat
  program      : Nat
  cls          : Nat
  contributors : List Nat
  dests        : List Nat
  die          : Nat
  core         : Nat
  req          : Option Nat
  ring         : Nat
  dim          : Nat
  streams      : List CollStream
  vc           : Nat
  sites        : List CombineSite
  onward       : List Nat
  own          : List OwnPart := []
  chunk        : Nat := 262112
  deriving DecidableEq, Repr

/-- A run copied to another member by migration (R570), or a page promoted from flash (R336): the frames chosen. -/
structure MoveChoice where
  seq  : W32
  v    : Nat
  dst  : Nat
  deriving DecidableEq, Repr

/-- The Forester's free choices of one PLAN (R552, R565): placements, estimates and frames. The rules that bind the
choices are checked and applied by the meaning of `plan`. -/
structure PlanInput where
  tasks    : List TaskPlan
  streams  : List StreamPlan
  ests     : List TaskEst
  tails    : List TailPlan
  colls    : List CollPlan
  fnSets   : List (Nat × List Nat)      -- core number (die x 128 + core) and its micro-programs for the tick
  wakes    : List Nat                   -- stands the plan needs
  promote  : List MoveChoice            -- flash pages to promote and their fresh HBM frames
  spillTo  : List Nat                   -- fresh flash frames for dirty spills
  rebuilt  : List MoveChoice            -- fresh frames of rebuilt pages
  moved    : List MoveChoice            -- fresh frames of pages that migrate to this member
  fresh    : List MoveChoice            -- fresh frames for the pages that scatters and copy-on-write write (R316, R318)
  remote   : List Nat                   -- tasks of other modules that blazes of this tick name (R254)
  resident : List (Nat × Nat × Nat)     -- weight bytes held resident, as (die, address, bytes) (R277)
  logs     : List (W32 × List Nat)      -- members that hold the token-log copies of a sequence (R412)
  units    : List (Nat × Nat)           -- rate of each search unit's reads at its channel, bytes per 65,536 cycles (R455)
  deriving DecidableEq, Repr

/-- An entry of a layout delta (R562). -/
inductive DeltaEntry where
  | seqSet (seq : W32) (base size : Nat)
  | runMove (seq : W32) (first count src dst : Nat)
  | heads (firstLayer layers : Nat) (groups : List (List Nat × List Nat))
  | weightShare (member first count : Nat) (inHbm : Bool)
  | admission (req firstTick lot : Nat)
  | lotUsage (lot hbm flash : Nat)
  | ring (round base k : Nat)
  | rebuild (seq : W32) (run member : Nat)
  | reserved (kind : Nat)
  deriving DecidableEq, Repr

/-- A command record (R78). -/
structure CmdRec where
  entry   : BitVec 512
  coord   : Nat
  qid     : Nat
  arrival : Nat
  deriving DecidableEq, Repr

/-- A check report (R76): its 64-byte header and its sections. -/
structure Report where
  header  : BitVec 512
  fails   : List (BitVec 128)
  cmds    : List CmdRec
  joins   : List (BitVec 128)
  summs   : List (BitVec 512)
  usage   : List (Nat × Nat)
  deriving DecidableEq, Repr

/-- A point where bandwidth is granted (R256). -/
inductive ArbPoint where
  | stack (n : Nat)
  | hubPort (die : Nat)
  | channel (n : Nat)
  deriving DecidableEq, Repr

/-- The parts of a page that a walk fetches (R301). -/
structure WalkParts where
  keys     : Bool
  vals     : Bool
  keyExp   : Bool
  valExp   : Bool
  sketch   : Bool
  deriving DecidableEq, Repr

/-- What a walk asks of each page: its parts, and the tasks that consume them, with their loads (R262, R301). -/
structure WalkAsk where
  parts   : WalkParts
  readers : List (Nat × Nat)
  deriving DecidableEq, Repr

/-- A core by its die and its number there (R26). -/
structure CoreRef where
  die  : Nat
  core : Nat
  deriving DecidableEq, Repr

/-- A token choice: the core that makes it, and its request (R616). -/
structure TokenJob where
  die  : Nat
  core : Nat
  rid  : Nat
  deriving DecidableEq, Repr

/-- What a ring step brings: the member whose rows they are, and its runs (R370 to R372). -/
structure RingPart where
  member : Nat
  runs   : List Nat
  deriving DecidableEq, Repr

/-- A vector pass over one row in stage memory (R230): the stored row with its format and scale, the gains and biases with theirs, the
destination with its format and scale, and the working space of a soft maximum (R124, R238). -/
structure RowJob where
  task  : Nat
  src   : Nat
  dst   : Nat
  len   : Nat
  gain  : Nat
  bias  : Nat
  fmt   : Nat
  sOut  : W32
  srcFmt : Nat
  sIn   : W32
  sGain : W32
  sBias : W32
  work  : Nat
  deriving DecidableEq, Repr

/-- One key-value block to fold (R302, R349, R350): a page, a hole, or a vector block of positions; the numbers say where its rows lie in
stage memory. `staged` values are FP32 (R310). -/
inductive FoldBlock where
  | page (first count : Nat) (keys vals keyExp valExp : Nat)
  | hole (v : Nat)
  | vector (positions : List Nat) (keys keyExp vals : Nat) (staged : Bool)
  deriving DecidableEq, Repr

/-- An attention fold of one block into the running state of a query block (R338, R350), with the scales of the key and value streams
(R124). `fresh` starts the rows' state, `normalise` ends it with R353, and `last` ends the task. -/
structure FoldJob where
  task   : Nat
  seq    : W32
  layer  : Nat
  head   : Nat
  qpos   : List Nat       -- query positions of the block
  q      : Nat            -- stage address of the rotated FP32 queries, one row of d per query row
  state  : Nat            -- stage address of the rows' partial records (R354)
  sK     : W32
  sV     : W32
  block  : FoldBlock
  fresh  : Bool
  normalise : Bool
  last   : Bool
  deriving DecidableEq, Repr

/-- What a module takes from the crew at its admission (R678), and the longest measured tree path, 10 ns units (R61). -/
structure Joining where
  coord    : Nat
  epoch    : W32
  tick     : Nat
  master   : Nat
  members  : List (Nat × W64 × Nat)
  profile  : BitVec 128
  lots     : List (BitVec 128)
  version  : Nat
  handles  : List (W32 × Nat × Nat)     -- live handles that name its coordinate, with L_MAX and lot
  measure  : List Byte
  homes    : List (Nat × Nat)
  treeDelay : Nat
  deriving DecidableEq, Repr

/-- What an index home elsewhere has returned for a command forwarded to it (R434): the bytes are those of the result buffer. -/
structure Returned where
  rid     : Nat
  status  : Nat
  result0 : Nat
  data    : List Byte
  deriving DecidableEq, Repr

/-- What the crew brings to an edge (R434, R673, R676 to R679, R682, R686): this module's admission, the modules admitted, the coordinates departing
at step 4 and 5 and those in DRAIN, results that index homes returned, the weight image copied to this member when its last byte has arrived, layers that
other members' FAIL reports name with CAUSE 0x4 (R401), whether the reports of the attempt include FAIL (R106), and the sequences of which other members
have lost pages (R407). -/
structure EdgeInput where
  joining  : Option Joining
  admitted : List (Nat × W64 × Nat)
  departs  : List Nat
  draining : List Nat
  returned : List Returned
  weights  : Option (List Byte)
  layers   : List Nat
  failed   : Bool
  lostSeqs : List W32
  deriving DecidableEq, Repr

/-- The commands of the block, in the order of spec/opcode_table.json. -/
inductive Instr where
  | standbyPowerUp (vin : BitVec 16)
  | pwrEnAssert (present : Bool)
  | powerGood (compatN : Bool)
  | imageLoad (norResponds : Bool)
  | loadComplete
  | verify
  | trainTimeout
  | pwrEnDeassert
  | undervoltage (vin : BitVec 16)
  | overvoltage (vin : BitVec 16)
  | powerUpHoldoffExpiry
  | hubControlReset (port : Nat) (value : W64)
  | perstAssert (port : Nat)
  | perstDeassert (port : Nat)
  | functionLevelReset (port : Nat)
  | bar0BadAccess (port : Nat) (isWrite : Bool) (offset size : Nat)
  | doorbellSq (port qid : Nat) (value : W32)
  | doorbellCq (port qid : Nat) (value : W32)
  | queueEnable (port qid : Nat) (value : W64)
  | queueDisable (port qid : Nat) (value : W64)
  | hostErrClear (port : Nat) (value : W64)
  | snapHoldSet (port : Nat)
  | snapHoldRelease (port : Nat)
  | tmuxSelWrite (port : Nat) (value : W64)
  | tmuxSwitch (pin : Nat)
  | linkStatusClear (port n : Nat) (value : W64)
  | registerWrite (port offset size : Nat) (value : W64)
  | mailboxRead (port : Nat) (failUnit : Option Nat)
  | mailboxWrite (port : Nat) (data : List Byte) (failUnit badUnit : Option Nat)
  | mailboxRestart (port : Nat)
  | mailboxReservedOp (port : Nat) (op : Byte)
  | mailboxDone
  | smbusRecoveryWrite (code value : Byte) (pec : Option Byte)
  | submissionFetch (port qid : Nat) (entries : List (BitVec 512)) (pcieError : Bool)
  | openSeq (rid : Nat)
  | append (rid : Nat) (data : HostRead)
  | generate (rid : Nat) (drafts : HostRead)
  | fork (rid : Nat)
  | abort (rid : Nat)
  | close (rid : Nat)
  | loadWeights (rid : Nat) (data : HostRead)
  | setQuotaLot (rid : Nat)
  | setQuotaQueueMap (rid : Nat)
  | setProfile (rid : Nat)
  | vecInsert (rid : Nat) (data : HostRead)
  | codebookReload (rid : Nat) (data : HostRead)
  | vecDelete (rid : Nat)
  | vecSearch (rid : Nat) (data : HostRead)
  | readCounters (rid : Nat)
  | attest (rid : Nat) (nonce : HostRead)
  | writeImage (rid : Nat) (data : HostRead)
  | norProgramComplete (mismatch : Bool)
  | drain (rid : Nat)
  | invalidOpcode (rid : Nat)
  | tickEdgeApply (now : W64) (writeErrors : List Nat) (crew : EdgeInput)
  | snapshotTransfer
  | edge (hdr : BitVec 128) (body : BitVec 256)
  | cmdset (hdr : BitVec 128) (recs : List CmdRec)
  | report (child : Nat) (hdr : BitVec 128) (rep : Report) (bodyBytes : Nat) (whole : Bool)
  | repeatMsg (src : Nat) (hdr : BitVec 128) (body : BitVec 128)
  | reportRepeatTimeout (child : Nat)
  | checkAndCommitEntry
  | checkReportSend (now : W64) (busy hotSeq : W32) (hotShare : BitVec 16)
  | masterDecision (now : W64)
  | edgeIssue (now : W64)
  | throttleEvaluation (r : SensorReadings)
  | throttleRaise (r : SensorReadings)
  | thermalShutdown (r : SensorReadings)
  | nandThrottle (celsius10 : Int)
  | plan (p : PlanInput)
  | layoutDelta (entries : List DeltaEntry)
  | deltaReceive (version firstPlan : W64) (entries : List DeltaEntry)
  | taskIssue (die core ctx : Nat)
  | standPortGrant (die stand : Nat)
  | tileLoadComplete (die stand : Nat)
  | contextSwitch (die core : Nat)
  | haloCopy (die core : Nat)
  | tileDrain (die core : Nat)
  | completionMessage (task : Nat)
  | separateChainPass (die core : Nat)
  | normalisation (die core : Nat) (job : RowJob)
  | softMaximum (die core : Nat) (job : RowJob)
  | rotaryRotation (die core : Nat) (task addr rows : Nat) (positions : List Nat)
  | blockFold (die core : Nat) (job : FoldJob)
  | tokenChoice (job : TokenJob) (logits : List (List W32))
  | functionTableFill (die core : Nat)
  | sketchTask (die core : Nat) (seq : W32) (v : Nat) (sK : W32)
  | pageRanking (core : CoreRef) (rid layer head : Nat) (queries : List (List W32))
  | ringStepFold (round ring step : Nat) (part : RingPart)
  | streamGrant (point : ArbPoint)
  | walkRequest (die ctx stream : Nat) (seq : W32) (pages : List Nat) (ask : WalkAsk) (dst : Nat)
  | tailAppend (die core rid : Nat) (seq : W32) (layer head pos : Nat) (key val : List W32) (sK sV : W32)
  | scatter (die core rid : Nat) (seq : W32) (layer head pos : Nat) (key val : List W32) (sK sV : W32) (frame : Nat)
  | pageCopy (src dst : Nat)
  | pageCopyComplete (src dst : Nat)
  | cleaningWrite (frame flashFrame : Nat) (complete : Bool)
  | hbmUncorrectable (frame : Nat)
  | scrub (frame : Nat) (corrected : Bool)
  | refresh (stack row : Nat)
  | readDisturbRefresh (stack row : Nat)
  | flashRead (frame : Nat) (hardOk : Bool) (softRetry : Option Nat)
  | wearLevelling (channel : Nat)
  | readDisturbRelocation (channel block : Nat)
  | programFailure (channel block : Nat)
  | flashReadOnly
  | sramUncorrectable (partKind partNum : Nat)
  | searchAdmission (rid : Nat)
  | recordExpansion (slot : Nat) (readable : Bool)
  | sideScan (slot : Nat) (lostFrames : List Nat)
  | resultAssembly (slot : Nat) (lostNodes : List Nat)
  | mergeFinish (index : Nat)
  | laneLock (port : Nat) (lanes : List Nat) (skewNs : Nat)
  | flitLock (port : Nat)
  | trainRecord (port : Nat) (rec : BitVec 1920) (now : W64)
  | trainRecordSend (port : Nat) (now : W64)
  | trainingStepTimeout (port : Nat)
  | trainingRetry (port : Nat)
  | timestampExchange (port : Nat) (samples : List (Nat × Nat × Nat × Nat))
  | flitReceive (port : Nat) (hdr : BitVec 128) (payload : List Byte)
  | flitSend (port : Nat)
  | nak (port : Nat) (seqs : List Nat)
  | credit (port : Nat) (returns : List (Nat × Nat × Nat))
  | downNotice (port : Nat)
  | laneAlignmentTimeout (port lane : Nat)
  | flitSilenceTimeout (port : Nat)
  | nakRateLimit (port : Nat)
  | laserOffExpiry (port : Nat)
  | linkState (port : Nat) (rec : BitVec 512)
  | crewFormation (members : List (Nat × W64 × Nat)) (measure : Option (List Byte)) (homes : List (Nat × Nat)) (treeDelay : Nat)
  | chunkReceive (sender : Nat) (hdr : BitVec 256) (payload : List Byte) (stack : Nat)
  | combine (coll item step chunk : Nat) (left right : List W32) (residueOk : Bool)
  | extest (tap : Nat)
  | samplePreload (tap : Nat) (pins : List Bool)
  | idcode (tap : Nat)
  | highz (tap : Nat)
  | clamp (tap : Nat)
  | extestPulse (tap : Nat)
  | extestTrain (tap : Nat)
  | bypass (tap : Nat) (opcode : Byte)
  | testLogicReset
  | garbageCollection (channel : Nat)
  | nandThrottleRelease (celsius10 : Int)
  deriving DecidableEq, Repr

end Sys2Proof
end

