-- ==== Sys2Proof/Machine/State.lean ====
section
/-! DEFINITION. The state of one Finbath module, as plain data, with the reasons a step can stop and the state at reset.
Default field values are the reset values; where the spec gives none, the docstring names the assumption-log entry.
Sparse maps list only what differs from the stated default. -/

namespace Sys2Proof.Machine

/-- Ordering variants (R7). -/
inductive Variant where
  | zf2 | zf4 | zf8
  deriving DecidableEq, Repr

/-- Factory constants of the device (R497, R590, R662, R719); no command changes them. Reset values: log 2. -/
structure Ident where
  variant     : Variant := .zf8
  moduleId    : W64 := 1
  romVersion  : W32 := 0
  revHub      : BitVec 4 := 0
  revComp     : BitVec 4 := 0
  jtagMaker   : BitVec 11 := 0
  deriving DecidableEq, Repr

/-- Where the input voltage stands against the limits of R729. -/
inductive Supply where
  | under | inRange | over
  deriving DecidableEq, Repr

/-- The main domain: off, in the soft start and sequencing of R730, or at power good. -/
inductive MainPower where
  | off | starting | on
  deriving DecidableEq, Repr

/-- Supply, power domains and sideband inputs (R726 to R733). Reset: no input power (log 1). -/
structure Power where
  supply   : Supply := .under
  vin      : BitVec 16 := 0        -- VIN of R738, 10 mV units
  standby  : Bool := false
  main     : MainPower := .off
  pwrEn    : Bool := false
  present  : Bool := false         -- MOD_PRSNT_N low
  holdoff  : Bool := false         -- the 200 ms of R733 run
  compatN  : Bool := false         -- COMPAT_N asserted
  deriving DecidableEq, Repr

/-- Power-on states (R627); OFF is not reported by HUB_STATUS. -/
inductive ModState where
  | off | rom | load | verify | train | join | run | fault | drain
  deriving DecidableEq, Repr

/-- Module status, as HUB_STATUS shows it (R591, R592), and ATTN_N's departure condition (R674). -/
structure Sys where
  state        : ModState := .off
  faultClass   : Byte := 0
  faultDetail  : W32 := 0
  progress     : Nat := 0
  compatPin    : Bool := false
  compatBit    : Bool := false
  compat       : Bool := false
  flashRo      : Bool := false
  noIdentity   : Bool := false
  imageWritten : Bool := false
  departed     : Bool := false
  deriving DecidableEq, Repr

/-- A NOR programming operation in progress for WRITE_IMAGE (R620, R665). -/
structure NorWrite where
  rid    : Nat
  offset : Nat
  bytes  : Nat
  deriving DecidableEq, Repr

/-- A directory entry of the loaded image with its measurement (R632, R652). -/
structure Section where
  type   : Nat
  offset : Nat
  len    : Nat
  digest : List Byte
  deriving DecidableEq, Repr

/-- A micro-program record (R214). -/
structure MicroProg where
  id     : Nat := 0
  maelov : Bool := false
  steps  : List W64 := []
  segs   : Nat := 0
  table  : List W32 := []
  deriving DecidableEq, Repr

/-- A loop-descriptor table (R642): operation code and descriptors of 24 words. -/
structure LoopTable where
  operation : Nat
  descs     : List (List W64)
  deriving DecidableEq, Repr

/-- What the loader keeps of the configuration image (R631 to R649). Valid while `loaded`. -/
structure Image where
  loaded      : Bool := false
  bytes       : Nat := 0
  version     : W32 := 0
  sections    : List Section := []
  model       : BitVec 1024 := 0
  profile     : BitVec 320 := 0
  dims        : Nat := 0
  crossed     : Bool := false
  portEn      : BitVec 12 := 0
  coordMap    : List (W64 × Nat) := []
  q0          : Nat := 0
  queueLots   : List Byte := []
  lotRecords  : List (BitVec 128) := []
  sketch      : List (BitVec 16) := []
  indexes     : List (BitVec 128 × List Byte) := []
  test        : W64 := 0
  micro       : List MicroProg := []
  collectives : List Nat := []
  loops       : List LoopTable := []
  fwVersion   : W32 := 0
  crewLevel   : BitVec 16 := 0
  linkLevel   : Byte := 0
  crewDigest  : List Byte := []
  freqs       : List W64 := []
  deriving DecidableEq, Repr

/-- Security block (R658 to R663). -/
structure Security where
  haveKey    : Bool := false
  secretXi   : List Byte := []          -- stands for the private key that ξ generates (R660)
  identityPk : List Byte := []
  idCert     : List Byte := []
  signed     : Nat := 0                 -- reports signed in the current tick (R663)
  deriving DecidableEq, Repr

/-- Recovery mailbox registers (R668). -/
structure Mailbox where
  hostAddr  : W64 := 0
  units     : Nat := 0
  norOffset : Nat := 0
  busy      : Bool := false
  done      : Bool := false
  result    : Byte := 0
  doneUnits : Nat := 0
  nextResult    : Byte := 0             -- outcome of the running operation, reported by MAILBOX_DONE
  nextDoneUnits : Nat := 0
  nextOff       : Nat := 0
  nextData      : List Byte := []
  deriving DecidableEq, Repr

/-- SMBus management target (R629, R737, R738). -/
structure Smbus where
  romHold : Bool := false
  lastAck : Bool := true
  deriving DecidableEq, Repr

/-- A PCIe port's configuration state (R584, R587). -/
inductive PcieState where
  | inReset | retry | answering
  deriving DecidableEq, Repr

/-- One PCIe port's own registers (R595, R596) and its fetch engine's place (R604). -/
structure HostPort where
  link     : PcieState := .inReset
  perstN   : Bool := false               -- level of PERSTn_N; low holds the port in reset, unconnected too (R587, R736)
  rate     : Nat := 0                    -- Link Status: negotiated generation, 1 to 6, and width; 0 while the link is down (R582)
  width    : Nat := 0
  hostErr  : BitVec 6 := 0
  snapHold : Bool := false
  shown    : Option Nat := none          -- the snapshot bank its window shows
  rr       : Nat := 0
  deriving DecidableEq, Repr

/-- One hardware queue (R599, R601). -/
structure Queue where
  sqBase      : BitVec 52 := 0
  cqBase      : BitVec 52 := 0
  enable      : Bool := false
  stopping    : Bool := false            -- ENABLE cleared, completions still owed (R601)
  error       : Bool := false
  progressIrq : Bool := false
  msixVec     : BitVec 11 := 0
  cqSize      : BitVec 16 := 0
  sqSize      : BitVec 16 := 0
  sqHead      : Nat := 0
  cqTail      : Nat := 0
  cqPhase     : Bool := true
  outstanding : Nat := 0
  sqTail      : Nat := 0                 -- last SQ_TAIL rung
  cqHead      : Nat := 0                 -- last CQ_HEAD rung
  deriving DecidableEq, Repr

/-- Host interface (R582 to R605). `mem` holds what the device has written to host memory (log 5). -/
structure HostIf where
  port0       : HostPort := {}
  port1       : HostPort := {}
  queues      : Sparse Queue := []
  queueLot    : Sparse Nat := []
  msixTable   : Sparse (BitVec 128) := []
  msixPba     : Sparse Bool := []
  nextArrival : Nat := 0
  nextRid     : Nat := 0
  mem         : Mem := []
  msix        : List (Nat × Nat) := []   -- messages sent: (port, vector), oldest first
  lastRead    : W64 := 0
  deriving DecidableEq, Repr

/-- Where a command stands between its fetch and its completion (R82, R604, R615, R446). -/
inductive Stage where
  | merge      -- in the merge, for the current tick
  | next       -- arrived in CHECK-AND-COMMIT, held for the edge (R82)
  | staged     -- decoded by its row; applies at the commit
  | held       -- held in the merge (R93, R461, R473, R618, R663)
  | waiting    -- out of the merge, waiting for admission, its handle or a search slot
  | admitted   -- work in plans
  | finishing  -- completes at the commit of the current tick
  | done
  deriving DecidableEq, Repr

/-- One command or request (R606, R609, R625). `owed` is false once its completion has been discarded (R587). -/
structure Req where
  rid        : Nat
  port       : Nat
  qid        : Nat
  coord      : Nat
  cid        : BitVec 16
  opcode     : Byte
  entry      : BitVec 512
  arrival    : Nat
  stage      : Stage := .merge
  handle     : W32 := 0
  lot        : Nat := 0
  data       : List Byte := []
  dataRead   : Bool := false
  status     : BitVec 16 := 0
  result0    : W32 := 0
  result1    : W32 := 0
  tokens     : Nat := 0                  -- tokens or items committed
  newTokens  : List W32 := []            -- tokens of the current attempt
  invalid    : Bool := false
  overflow   : Bool := false
  underflow  : Bool := false
  lossMasked : Bool := false
  aborted    : Bool := false
  endReason  : Nat := 0
  needed     : Nat := 0                  -- APPEND: committed length at which it completes
  pieces     : Nat := 0                  -- pieces left of a split task (R99)
  owed       : Bool := true
  target     : Option Nat := none        -- ABORT: the request matched at its arrival (R624)
  tick       : Nat := 0                  -- the tick whose commit took it out of the merge (R82)
  deriving DecidableEq, Repr

/-- A node of a page list: one frame of the module reserve with 2,048 entries, those not listed INVALID (R291). `bad` marks a node that cannot be
read (R413). -/
structure PageNode where
  live    : Bool := false                -- the frame holds a node
  staged  : Bool := false
  bad     : Bool := false
  entries : Sparse W64 := []
  deriving DecidableEq, Repr

/-- A sequence on this module (R278, R283, R292, R412). Its page list is the tree of `nodes`, by their frames in the module reserve; a root is the
frame of its top node, none before the first page. -/
structure Seq where
  handle     : W32
  lMax       : Nat
  vpages     : Nat                       -- VPAGES (R278)
  levels     : Nat := 1                  -- levels of the tree (R291)
  log        : List W32 := []
  logStaged  : List W32 := []
  kvLen      : Nat := 0                  -- positions whose keys and values have committed
  kvStaged   : Nat := 0
  nodes      : Sparse PageNode := []
  root0      : Option Nat := none
  root1      : Option Nat := none
  cur        : Bool := false
  stageRoot  : Option Nat := none
  stageTick  : Nat := 0
  dropped    : List Nat := []            -- replaced nodes, released at step 2 (R293)
  table      : List Nat := []            -- HBM frames of the sketch table (R363)
  tableLo    : Nat := 0                  -- page of the table's entry 0
  lot        : Nat := 0
  parent     : Option W32 := none
  order      : Nat := 0
  salt       : W64 := 0                  -- KV_SALT when the sequence opened (R320)
  lost       : Bool := false
  closing    : Bool := false
  masked     : List Nat := []            -- pages dropped under KV_LOSS=MASK
  lostPages  : List Nat := []
  node       : Option Nat := none        -- deepest matched prefix node
  matched    : Nat := 0                  -- full runs matched or entered so far
  looked     : Nat := 0                  -- full runs looked up in the tree so far (R324, R326)
  ownRun     : Bool := false             -- a run of its own has entered the tree: later runs do not match (R324)
  copyAt     : List Nat := []            -- members that hold its token-log copies (R412)
  rank       : List Nat := []            -- latest retrieval ranking
  repro      : Bool := false             -- REPRO when the sequence opened (R577)
  lastRead   : Sparse Nat := []          -- page -> tick of last read
  deriving DecidableEq, Repr

/-- A prefix-tree node (R321). -/
structure PrefixNode where
  id         : Nat
  parent     : Option Nat
  hash       : W64
  tokens     : List W32
  fill       : Nat
  full       : Bool
  run        : Nat
  frames     : List (Nat × W64)          -- virtual page offset within the run and its frame entry
  frame      : Nat := 0                  -- the frame of the module reserve that holds the node
  lastLookup : Nat := 0
  deriving DecidableEq, Repr

/-- A frame-table entry (R296). -/
structure FrameEnt where
  refcount : Nat := 0
  tickPin  : Bool := false
  longPins : Nat := 0
  lot      : Nat := 0
  staged   : Bool := false
  inUse    : Bool := false
  deriving DecidableEq, Repr

/-- A copy of a weight block or page that has been found uncorrectable (R396, R397): `weightMirror` is the mirror of this member's own block, `heldMirror`
that of the block of the member whose mirror this one holds (R398). -/
inductive CopyId where
  | hbmFrame (frame : Nat) | flashFrame (frame : Nat)
  | weightHbm (block : Nat) | weightFlash (block : Nat) | weightMirror (block : Nat) | heldMirror (block : Nat)
  deriving DecidableEq, Repr

/-- HBM frame space, sidebands and frame tables (R29, R30, R296), with the base dies' work (R33, R318, R391, R392). `data0` and `side0` are the
content committed at the start of the tick (R34). -/
structure Hbm where
  data      : Mem := []
  side      : Mem := []
  data0     : Mem := []
  side0     : Mem := []
  ftab      : Sparse FrameEnt := []
  retired   : List Nat := []
  suspect   : List Nat := []
  scrubSeen : Sparse Nat := []
  failed    : List CopyId := []
  rowAct    : Sparse Nat := []
  copies    : List (Nat × Nat) := []
  copied    : List Nat := []             -- sources of the page copies of the attempt (R34)
  leaked    : List (Bool × Nat) := []    -- leaked frames, true for HBM (R413)
  decr      : List Nat := []             -- staged decrements of HBM frames
  flashDecr : List Nat := []
  refreshed : Sparse Nat := []           -- refreshes per row
  deriving DecidableEq, Repr

/-- STATE of a Landing slot (R305); `reserved` is the corrupt encoding of R306. -/
inductive SlotState where
  | free | tail | staging | reserved
  deriving DecidableEq, Repr

/-- A Landing slot descriptor (R305). -/
structure Slot where
  flushFrame : Nat := 0
  seq        : W32 := 0
  layer      : Nat := 0
  kvHead     : Nat := 0
  firstPos   : Nat := 0
  fillCommit : Nat := 0
  fill       : Nat := 0
  partner    : Nat := 0x3FF
  partners   : Nat := 0
  state      : SlotState := .free
  deriving DecidableEq, Repr

/-- The Landings of all stacks (R304): slot number = stack x 480 + n; `data` holds 17,408 bytes per slot; `staging` holds FP32 values of
blocked value streams (R310), keyed (slot x 64 + row) x 256 + dimension. -/
structure Landing where
  slots   : Sparse Slot := []
  data    : Mem := []
  staging : Sparse W32 := []
  queue   : Mem := []                    -- the flush queue of each stack, 17,408 bytes: the image that it flushes (R304, R312)
  deriving DecidableEq, Repr

/-- A NAND block (R384, R385, R387). -/
structure NandBlock where
  erases : Nat := 0
  reads  : Nat := 0
  used   : Nat := 0                      -- pages programmed since the last erase (R383)
  live   : List Nat := []                -- flash frames whose current page lies in the block
  dead   : Nat := 0                      -- pages invalidated by rewrites
  bad    : Bool := false
  soft   : Bool := false                 -- a read needed a soft retry
  deriving DecidableEq, Repr

/-- The flash tier (R37 to R41, R383 to R393). Blocks are numbered channel x 65536 + block. -/
structure Flash where
  data     : Mem := []
  side     : Mem := []
  ftab     : Sparse FrameEnt := []
  map      : Sparse Nat := []            -- frame -> block
  page     : Sparse Nat := []            -- frame -> its NAND page within the block, in the order of programming (R383)
  openBlk  : Sparse Nat := []            -- channel -> the block whose erased pages its writes take (R383, R384)
  blocks   : Sparse NandBlock := []
  retired  : Nat := 0                    -- NAND blocks retired (R387)
  worn     : Bool := false               -- good spares below 0.5 % of raw capacity (R389)
  halfRate : Bool := false
  queue    : List (Nat × Nat) := []      -- frames waiting for cleaning: (commit tick, frame)
  cleaning : List (Nat × Nat) := []      -- copies in progress: (HBM frame, flash frame)
  cleaned  : List (Nat × Nat) := []      -- copies whose last byte was written this tick
  spilling : List (Nat × Nat) := []      -- dirty spills of the tick, their sources long-pinned: (HBM frame, flash frame) (R300, R335)
  deriving DecidableEq, Repr

/-- A graph node of an index generation (R442). -/
structure Node where
  entry : Nat
  vecId : W64
  nbrs  : List Nat
  code  : List Byte
  deriving DecidableEq, Repr

/-- A side-list entry (R443). -/
structure SideEnt where
  entry    : Nat
  vecId    : W64
  tick     : Nat
  isInsert : Bool
  code     : List Byte
  slot     : Nat := 0                    -- its place in the side list's frames (R431)
  deriving DecidableEq, Repr

/-- A vector index homed on this module (R428 to R473). -/
structure VIndex where
  record    : BitVec 128
  nodes     : List Node := []
  side      : List SideEnt := []
  staged    : List SideEnt := []         -- edits of the current tick
  live      : List (W64 × Nat) := []     -- ID map: live VEC_ID -> ENTRY
  tombs     : List (Nat × Nat) := []     -- (ENTRY deleted, TICK)
  codebook  : List Byte := []
  idleBook  : Option (List Byte) := none
  entryCtr  : Nat := 0
  offline   : Bool := false
  merge     : Option Nat := none         -- start tick m of a running merge
  lostNodes : List Nat := []
  built     : Option (List Node) := none -- the generation that a finished merge leaves for step 4 (R469)
  base      : Nat := 0                   -- its first flash frame (R431)
  gen       : Nat := 0                   -- generations made so far; its parity names the node area in use (R431, R469)
  bookGen   : Nat := 0                   -- codebook generations made so far (R471)
  frames    : List Nat := []             -- HBM frames of the tombstone set (R463)
  deriving DecidableEq, Repr

/-- A running search with its fixed snapshot (R447, R448). -/
structure Search where
  slot    : Nat
  rid     : Nat
  index   : Nat
  start   : Nat
  k       : Nat
  l       : Nat
  maxHops : Nat
  table   : List (List Nat)
  graph   : List Node
  sideIns : List SideEnt
  deleted : List Nat
  q       : List (Nat × Nat) := []       -- (distance, node), ascending
  x       : List Nat := []
  read    : List Nat := []               -- nodes whose records have been read from flash (R454, R455)
  hops    : Nat := 0
  side    : List (Nat × W64) := []
  damaged : Bool := false
  scanned : Bool := false
  result  : Option (List (Nat × W64)) := none
  gen     : Nat := 0                     -- the generation that it reads (R447)
  deriving DecidableEq, Repr

/-- Weights on this module (R379, R380, R398 to R403, R656, R657, R679). `data` is the authoritative copy by block. -/
structure Weights where
  header    : List Byte := []
  data      : Mem := []
  mirror    : Mem := []                  -- the mirrored share that this member holds, by block: its neighbour's, in a crew of one its own (R379, R398)
  poisoned  : List Nat := []             -- layers poisoned crew-wide (R401)
  modPoison : Bool := false              -- this module's weights (R657)
  written   : List (Nat × Nat) := []     -- (layer, block) written since the layer was poisoned (R403)
  share     : List (Nat × Nat × Bool) := []   -- this member's share: first layer, layers, whether in HBM (R562)
  inHbm     : List Nat := []             -- layers whose clean copy lies in HBM (R565)
  remap     : List (Nat × Nat) := []     -- blocks whose HBM copy was repaired into another frame: (block, frame) (R400)
  mirrorAt  : Option Nat := none         -- the member that holds this module's mirror, none until a rewrite commits (R398, R399)
  rewriting : Option (Nat × Nat) := none -- the rewrite in progress: the new holder and the bytes left (R399)
  loadCount : Nat := 0                   -- LOAD_WEIGHTS commands committed since reset (R320)
  measure   : List Byte := []
  crewMeas  : List Byte := []
  copying   : Bool := false              -- the copy of R679 in progress
  deriving DecidableEq, Repr

/-- A tick-edge message (R62). -/
structure EdgeMsg where
  tickNum  : Nat
  edgeTime : Nat
  epoch    : W32
  lag      : Nat
  period   : Nat
  master   : Nat
  decision : Nat
  hold     : Bool
  attempt  : Nat
  deriving DecidableEq, Repr

/-- Where the tick stands (R67). FETCH, COMPUTE and EXCHANGE overlap, so `work` stands for the three together. -/
inductive Phase where
  | none | work | checkAndCommit
  deriving DecidableEq, Repr

/-- A message this module has sent on the tick tree or the crew (R74, R516, R559). -/
inductive OutMsg where
  | edge (e : EdgeMsg)
  | cmdset (tick attempt : Nat) (recs : List CmdRec)
  | report (rep : Report)
  | repeatReq (what : Nat) (dest : Nat)
  | delta (version firstPlan : Nat) (entries : List DeltaEntry)
  | trainRec (port : Nat) (rec : BitVec 1920)
  | linkState (rec : BitVec 512) (except : Option Nat)
  | downNotice (port : Nat)
  | nak (port : Nat) (seqs : List Nat)
  | chunkForward (round ring step : Nat) (runs : List Nat)
  | chunk (dest vc : Nat) (hdr : BitVec 256) (payload : List Byte)
  | result (coord qid arrival status result0 : Nat) (data : List Byte)
  | creditReturn (port vc cls n : Nat)
  deriving DecidableEq, Repr

/-- Tick controller (R51 to R106). Times are crew time in 10 ns units. -/
structure TickSt where
  crewTime   : Nat := 0
  num        : Nat := 0                  -- tick in flight
  last       : Nat := 0                  -- TICK_NOW
  attempt    : Nat := 0
  failed     : Nat := 0                  -- failed attempts of this tick (R106)
  edgeAt     : Nat := 0                  -- E of R92's procedure
  period     : Nat := 0                  -- P
  nominal    : Nat := 0
  lag        : Nat := 0
  hold       : Bool := false
  phase      : Phase := .none
  pending    : Option EdgeMsg := none
  decided    : Option EdgeMsg := none    -- the master's decision, not yet issued
  decidedAt  : Nat := 0                  -- earliest moment to issue it
  cmdset     : Option (List CmdRec) := none
  children   : Sparse Report := []       -- complete child reports
  partials   : List Nat := []            -- children whose report is held incomplete
  fails      : List (BitVec 128) := []   -- own fail records of the attempt
  blamed     : List (Nat × Nat) := []    -- parts named by FAIL reports of earlier attempts (R105)
  planDone   : Bool := false
  reported   : Bool := false
  sentReport : Option Report := none
  ownReport  : Option Report := none     -- this member's own check report (R68)
  firstArr   : Nat := 0                  -- arrival number of the first command of the tick (R78, R82)
  reportsIn  : Bool := false             -- the master holds every report
  margin     : Nat := 0                  -- delivery margin (R61)
  cHist      : List Nat := []            -- commit latencies, newest first (R555)
  reportAt   : Nat := 0                  -- when the own report was complete (R72)
  deriving DecidableEq, Repr

/-- A crew member as this module knows it. -/
structure Member where
  coord    : Nat
  moduleId : W64
  variant  : Nat
  deriving DecidableEq, Repr

/-- Crew membership (R56, R65, R499, R671 to R678, R689 to R696). -/
structure Crew where
  member     : Bool := false
  coord      : Nat := 0
  claim      : Option Nat := none
  heldCoord  : Option Nat := none        -- coordinate held as a member since reset (R499)
  epoch      : W32 := 0
  master     : Nat := 0
  members    : List Member := []
  n0         : Nat := 0                  -- members at the start of the tick in flight (R689)
  joinSeen   : List (BitVec 128) := []   -- join requests carried by this attempt
  joinRec    : List (BitVec 128) := []   -- recorded at the last commit
  lostNow    : List Nat := []            -- members found lost
  rseq       : Nat := 0
  opened     : Nat := 0                  -- sequences opened since the crew formed (R576)
  homes      : List (Nat × Nat) := []    -- INDEX_ID -> home coordinate (R434)
  draining   : List Nat := []            -- members in state DRAIN, as of the last commit (R56, R684)
  deriving DecidableEq, Repr

/-- A flit (R483, R484): header and 240 payload bytes. -/
structure Flit where
  hdr     : BitVec 128
  payload : List Byte
  deriving DecidableEq, Repr

/-- STATE of a port (R521). -/
inductive PortState where
  | off | training | up | miswired | transit | down | ready
  deriving DecidableEq, Repr

/-- One optical port (R479 to R522). Credits and buffers are indexed VC x 2 + class. -/
structure LinkPort where
  state       : PortState := .off
  dim         : Nat := 0xF
  peerCoord   : Nat := 0
  peerPort    : Nat := 0
  reason      : Nat := 0
  peerVariant : Nat := 0
  mapChanged  : Bool := false
  lost        : Bool := false
  rttNs       : Nat := 0
  step        : Nat := 0                 -- training step, 1 to 5; 0 when not training
  laser       : Bool := false
  echoId      : W64 := 0
  tEcho       : W64 := 0
  dimHint     : Nat := 0xF
  peer        : Option (BitVec 1920) := none
  echoed      : Bool := false            -- own MODULE_ID seen echoed
  delay       : Nat := 0                 -- one-way delay, 39.0625 ps units (R495)
  minor       : Nat := 0                 -- link level minor that the link runs at (R501)
  lseq        : Nat := 0
  rxNext      : Nat := 0
  missing     : List Nat := []
  replay      : List Flit := []          -- oldest first, at most 256
  acked       : Nat := 0
  txq         : List Flit := []          -- flits waiting to be sent
  wire        : List Flit := []          -- flits sent, oldest first
  credits     : List Nat := [256, 256, 1024, 1024, 5120, 5120, 1792, 1792]
  withheld    : List (Nat × Nat) := []   -- (VC, class) whose credits are withheld (R546)
  deriving DecidableEq, Repr

/-- A TICK message that has arrived whole: sender, TKIND, the tick header of its first part, the body, and the tick headers of the further parts (R73,
R75). -/
structure TickMsg where
  src  : Nat
  kind : Nat
  hdr  : BitVec 128
  body : List Byte
  more : List (BitVec 128)
  deriving DecidableEq, Repr

/-- Yarder: routes, link-state records and reassembly (R488, R506, R507, R516). -/
structure Yarder where
  route   : Sparse W64 := []
  idle    : Option (Sparse W64) := none
  stale   : Bool := false                -- a link has been lost or a record has come since the idle table filled (R519)
  records : Sparse (BitVec 512) := []
  placed  : List (Nat × Nat × Nat) := [] -- (SRC, MSG, OFFSET) placed in the attempt
  rx      : List Flit := []
  inbox   : List TickMsg := []           -- TICK messages that are whole (R75)
  msgNext : Nat := 0                     -- MSG of the next message of the attempt (R484)
  sent    : List OutMsg := []
  deriving DecidableEq, Repr

/-- A landed chunk (R532, R542). -/
structure Chunk where
  coll    : Nat
  sender  : Nat
  item    : Nat
  step    : Nat
  num     : Nat
  payload : List Byte
  slot    : Option Nat                   -- reduction slot, or none when staged
  stack   : Nat
  ok      : Bool
  deriving DecidableEq, Repr

/-- A slot grant of a stream (R540): two slots, or staged placement. -/
structure Grant where
  coll   : Nat
  sender : Nat
  level  : Nat
  slots  : List Nat
  deriving DecidableEq, Repr

/-- A chunk that has landed in the attempt: its collective, sender, step and item, and whether it carries final data (R67, R533). -/
structure LandedChunk where
  coll   : Nat
  sender : Nat
  step   : Nat
  item   : Nat
  final  : Bool
  deriving DecidableEq, Repr

/-- Collectives and reduction memory (R523 to R551). -/
structure Coll where
  plan   : List CollPlan := []
  grants : List Grant := []
  busy   : List Nat := []                -- slots in use
  chunks : List Chunk := []
  sums   : Sparse (List W32) := []       -- combined results keyed coll x 2^32 + item x 2^16 + chunk
  landed : List LandedChunk := []        -- chunks that have landed in the attempt (R67)
  begun  : List (Nat × Nat) := []        -- this member's contributions that have gone out, as (collective, rank) (R525)
  deriving DecidableEq, Repr

/-- Stream bytes that have arrived and are not yet released: each task whose loads still consume them with its number of loads, and their weight
layer (R262, R275). -/
structure Arrived where
  addr    : Nat
  bytes   : Nat
  readers : List (Nat × Nat)
  layer   : Option Nat
  deriving DecidableEq, Repr

/-- An item of a stream at run time: bytes granted at the first point of its path, and bytes that have arrived (R249, R256). -/
structure StreamSlot where
  item : StreamItem
  far  : Nat := 0
  got  : Nat := 0
  deriving DecidableEq, Repr

/-- A prefetch stream at run time (R253 to R262). -/
structure Stream where
  rate     : Nat := 0
  base     : Nat := 0                    -- its buffer in stage memory, `size` bytes (R247)
  size     : Nat := 0
  room     : Nat := 0                    -- buffer bytes not yet granted
  buffered : Nat := 0                    -- bytes in the buffer or granted and not yet arrived (R258)
  granted  : Nat := 0
  weight   : Bool := false
  walk     : Option Nat := none          -- the walk context that feeds it (R250)
  items    : List StreamSlot := []
  arrived  : List Arrived := []
  deriving DecidableEq, Repr

/-- A page of a walk as delivered: where it came from (R302). -/
inductive WalkItem where
  | hbm (v frame : Nat) | flash (v frame : Nat) | hole (v : Nat) | tailSlot (v slot : Nat) | lost (v : Nat)
  deriving DecidableEq, Repr

/-- One compute die (R25, R107, R223, R229, R275, R277, R364). `stage` is the 256 MiB stage memory, the function store in its top 1 MiB. -/
structure Die where
  step     : Nat := 0
  stage    : Mem := []
  streams  : Sparse Stream := []
  layers   : List Nat := []              -- weight layers held, oldest first (R275)
  resident : List (Nat × Nat) := []      -- weight bytes held resident, read-only (R252, R277)
  fnGen    : Sparse Nat := []            -- generation number recorded for each core (R229)
  walks    : Sparse (List WalkItem) := []
  placed   : List (W32 × Nat × Nat × Nat) := []        -- parts that walks have placed: sequence, page, part offset (sidebands from 16,384 on), address (R301)
  ranked   : List (Nat × Nat × Nat × List Nat) := []   -- (request, layer, head, pages selected)
  deriving DecidableEq, Repr

/-- A task context (R166, R269). -/
inductive CtxState where
  | empty | loaded | running | suspended | done | faulted
  deriving DecidableEq, Repr

/-- A finished group of live output tiles that waits for its drain: its indices, its problem and its accumulator half (R191, R202). -/
structure TileGroup where
  idx  : List Nat
  prob : Nat
  half : Nat
  deriving DecidableEq, Repr

/-- One of a core's four task contexts: registers, descriptor, and the Bucker's place in the loops (R166, R180, R188, R202). -/
structure Ctx where
  st      : CtxState := .empty
  task    : Nat := 0
  req     : Option Nat := none
  treg    : Sparse W64 := []
  desc    : List W64 := []
  bounds  : List Nat := []
  idx     : List Nat := []
  prob    : Nat := 0
  haveA   : Bool := false                -- the current tile, or the whole resident operand, is in its region
  haveB   : Bool := false
  nextA   : Bool := false                -- the next tile is in the other half of the region (R188, R266)
  nextB   : Bool := false
  halfA   : Bool := false                -- half of the region that holds the current tile
  halfB   : Bool := false
  ended   : Bool := false                -- every reduction tile of the task has been computed
  half    : Nat := 0                     -- accumulator half in which the group in progress accumulates (R202)
  groups  : List TileGroup := []         -- finished groups, oldest first
  rcpOut  : W32 := 0                     -- RN(1 / S_OUT), computed at issue (R126)
  live    : Nat := 1
  drained : Nat := 0                     -- tiles of the oldest group already drained
  stagHalf : Bool := false               -- half of the drain staging that the next fused tile takes (R202)
  haloGot : Bool := false                -- the rows outside its own tile are here (R207)
  haloGave : Bool := false               -- the neighbour has copied its rows (R207)
  staged  : Bool := false                -- drain staging holds FP32 values for a separate pass (R203)
  folds   : List (Nat × Nat × Nat) := [] -- last block folded into each record: its address, class and first position (R349)
  queries : List (Nat × Nat × List (List Nat × List Nat)) := [] -- query blocks converted for the task: address, s_Q, codes and block exponents by row (R346)
  rank    : Nat := 0                     -- place in plan order
  fns     : List Nat := []
  behind  : List Behind := []
  space   : List (Nat × Nat) := []       -- working space in stage memory (R238)
  layer   : Option Nat := none
  work    : Nat := 0                     -- work slots of its task in the attempt (R710)
  deriving DecidableEq, Repr

/-- A special-function bank with its step store: the records it holds, step words and table segments (R224, R228). A core's first banks are
valid and empty, of generation 0 (log 51). -/
structure Bank where
  valid : Bool := true
  gen   : Nat := 0
  progs : List MicroProg := []
  deriving DecidableEq, Repr

/-- One core (R26, R137, R166, R224, R710). -/
structure Core where
  ctxs    : Sparse Ctx := []
  running : Option Nat := none
  buf     : Mem := []                    -- the 2 MiB operand buffer: regions A, B and drain staging (R174)
  acc     : Sparse W32 := []
  todo    : List (Nat × TaskPlan) := []  -- tasks of the tick not yet in a context, with their places in plan order (R269)
  bank0   : Bank := {}
  bank1   : Bank := {}
  curBank : Bool := false
  filled  : Bool := false                -- the idle bank holds the next tick's set (R227)
  want    : List Nat := []               -- micro-programs of the next tick
  gens    : Sparse W64 := []             -- 64 stochastic-rounding generators (R137)
  genSave : Sparse W64 := []             -- checkpoint (R103)
  work    : Nat := 0                     -- pending work slots (R710)
  deriving DecidableEq, Repr

/-- A request of the stand port (R265). -/
structure PortReq where
  core : Nat
  ctx  : Nat
  task : Nat
  isA  : Bool
  halo : Bool
  next : Bool                            -- for the next tile, into the other half (R266)
  deriving DecidableEq, Repr

/-- One stand (R263, R698, R699). -/
structure Stand where
  asleep  : Bool := false
  waking  : Bool := false
  idle    : Nat := 0                     -- consecutive ticks without a planned task
  queue   : List PortReq := []
  granted : Option PortReq := none
  deriving DecidableEq, Repr

/-- A layout delta as held by the Forester (R559 to R561). -/
structure Delta where
  version   : Nat
  firstPlan : Nat
  entries   : List DeltaEntry
  committed : Bool
  deriving DecidableEq, Repr

/-- Forester state (R552 to R578). -/
structure Forester where
  plan      : Option PlanInput := none   -- the plan of the tick in flight
  nextPlan  : Option PlanInput := none   -- the plan completed for the next tick
  planTick  : Nat := 0                   -- the tick that nextPlan is for
  version   : Nat := 0                   -- last delta applied
  deltas    : List Delta := []
  overflow  : List DeltaEntry := []      -- entries deferred beyond 131,072 (R562)
  summaries : List (List (BitVec 512)) := []   -- newest first
  usage     : Sparse (Nat × Nat) := []   -- crew-wide lot usage at the tick's start (R417)
  sums      : Sparse (Nat × Nat) := []   -- the master: lot usage summed from the latest reports (R557)
  migrate   : Nat := 0                   -- unused migration budget in bytes (R423)
  planLots  : Sparse (BitVec 128) := []  -- lot records as they stood when the plan of the tick in flight was completed (R422)
  nextLots  : Sparse (BitVec 128) := []  -- those of nextPlan
  cleared   : List Nat := []             -- tasks whose blazes have cleared in the attempt
  failTasks : List (Nat × BitVec 16) := []     -- tasks cleared as failed (R255)
  sketchQ   : List (W32 × Nat) := []     -- pages whose sketch is due (R330)
  flags     : List (Nat × Nat) := []     -- flags raised in the attempt: (rid, 1 INVALID + 2 OVERFLOW + 4 UNDERFLOW)
  forks     : List (Nat × W32 × Nat × W32) := []   -- forks to build: (rid, parent, position, child)
  qpend     : List (Nat × Nat × Nat × List (BitVec 256)) := []   -- (rid, layer, head, sketch of each query position): R362
  ringStep  : Sparse (List Nat) := []    -- prefill round -> folded (ring, step) codes
  admits    : List Nat := []             -- requests that nextPlan admits
  due       : List (Nat × Option Nat × Nat × Nat) := []   -- split pieces due in the tick in flight: (task, request, piece, pieces) (R99)
  refused   : List (Nat × Nat) := []     -- requests that the plan of the tick in flight refused, with their status (R100)
  nextRefused : List (Nat × Nat) := []   -- those that nextPlan refuses
  seqSets   : List (W32 × Nat × Nat) := []     -- member sets: base and size (R562)
  heads     : List (Nat × Nat × List (List Nat × List Nat)) := []   -- head groups in force: first layer, layers, groups (R358, R562)
  shares    : List (Nat × Nat × Bool) := []    -- this member's weight share from the next tick on: first layer, layers, in HBM (R562)
  ringRuns  : Sparse (List Nat) := []    -- prefill round -> runs folded, in fold order (R372)
  spillNext : List Nat := []             -- frames of lots over quota whose flash copy has just completed (R419)
  replan    : Bool := false              -- the tick in flight is to be planned again (R104)
  steps     : Sparse Nat := []           -- each die's throttle step at the latest commit (R555)
  laid      : List (List Nat) := []      -- directed rings laid for a subcube of each size, as the plan of the tick in flight found the links (R377)
  nextLaid  : List (List Nat) := []      -- those of nextPlan
  held      : List W32 := []             -- sequences of which other members have lost pages, as the last edge said (R407)
  lostNow   : List W32 := []             -- those found lost there in the tick in flight
  layoutTo  : Nat := 0                   -- plans up to this tick follow the layout taken at formation or admission (R564, R678)
  deriving DecidableEq, Repr

/-- A snapshot bank (R596, R713). `free` picks the values of the counters that the model leaves out (log 8, 45). -/
structure Snap where
  tick : Nat
  vals : Sparse W64
  free : Nat := 0
  deriving DecidableEq, Repr

/-- The Tally (R701 to R714). -/
structure Counters where
  live    : Sparse W64 := []
  latched : Option Snap := none
  bank0   : Option Snap := none
  bank1   : Option Snap := none
  bank2   : Option Snap := none
  latest  : Option Nat := none
  reading : Option Nat := none
  pulses  : Sparse Nat := []             -- pulses of each test-multiplexer selection since reset (R717, R718)
  deriving DecidableEq, Repr

/-- A test-multiplexer pin (R716, R718). -/
inductive TmuxPhase where
  | steady | old (sel : Byte) | low
  deriving DecidableEq, Repr

/-- Test multiplexers (R715 to R718). -/
structure Tmux where
  sel  : W64 := 0
  pins : Sparse TmuxPhase := []
  deriving DecidableEq, Repr

/-- The instruction a TAP holds (R720). -/
inductive TapInstr where
  | extest | samplePreload | idcode | highz | clamp | extestPulse | extestTrain | bypass
  deriving DecidableEq, Repr

/-- JTAG chain: hub die and companion die (R719 to R722). -/
structure Jtag where
  hub      : TapInstr := .idcode
  comp     : TapInstr := .idcode
  hubReg   : List Bool := []
  compReg  : List Bool := []
  deriving DecidableEq, Repr

/-- Start-of-attempt copies that a replay restores (R88, R102, R103). -/
structure Checkpoint where
  land     : Landing := {}
  seqs     : List Seq := []
  reqs     : List Req := []
  nodes    : List PrefixNode := []
  ftab     : Sparse FrameEnt := []
  copies   : List (Nat × Nat) := []
  decr     : List Nat := []
  flashTab : Sparse FrameEnt := []
  flashDec : List Nat := []
  queue    : List (Nat × Nat) := []
  cleaning : List (Nat × Nat) := []
  cleaned  : List (Nat × Nat) := []
  searches : List Search := []
  vidx     : List VIndex := []
  dies     : Sparse Die := []
  cores    : Sparse Core := []
  stands   : Sparse Stand := []
  sketches : List (W32 × Nat × BitVec 256) := []
  fore     : Forester := {}
  coll     : Coll := {}
  planned  : List Seq := []              -- the sequences once the attempt's plan has staged its own edits
  ran      : List Nat := []              -- requests with admitted work in the attempt
  deriving DecidableEq, Repr

/-- One Finbath module. -/
structure State where
  ident    : Ident := {}
  pwr      : Power := {}
  sys      : Sys := {}
  smb      : Smbus := {}
  nor      : Mem := []                   -- unlisted bytes read 0xFF (R630)
  norBusy  : List NorWrite := []
  img      : Image := {}
  sec      : Security := {}
  mbx      : Mailbox := {}
  host     : HostIf := {}
  profile  : BitVec 128 := 0
  lots     : Sparse (BitVec 128) := []
  reqs     : List Req := []
  seqs     : List Seq := []
  nodes    : List PrefixNode := []
  hbm      : Hbm := {}
  land     : Landing := {}
  sketches : List (W32 × Nat × BitVec 256) := []
  qsketch  : List (W32 × Nat × Nat × BitVec 256) := []
  flash    : Flash := {}
  vidx     : List VIndex := []
  searches : List Search := []
  wt       : Weights := {}
  tick     : TickSt := {}
  crew     : Crew := {}
  ports    : Sparse LinkPort := []
  yard     : Yarder := {}
  coll     : Coll := {}
  dies     : Sparse Die := []
  cores    : Sparse Core := []
  stands   : Sparse Stand := []
  fore     : Forester := {}
  ctr      : Counters := {}
  therm    : SensorReadings := ⟨[], 0, 0, 0, 0⟩
  tmux     : Tmux := {}
  jtag     : Jtag := {}
  chk      : Checkpoint := {}
  freeIx   : Nat := 0                    -- the model's own: counter of free values (log 8)
  pending  : List Instr := []
  deriving DecidableEq, Repr

/-- Why a step can stop. -/
inductive Fault where
  /-- Raised by a command that names a die, core, stand, stack, port, channel or TAP that the module does not have
  (R22 "and no others"). Safe: no such event exists on the hardware. -/
  | absentPart (kind : String)
  deriving DecidableEq, Repr

/-- Why a command has no meaning. -/
inductive Refusal where
  /-- Raised by an arm of exec whose instruction has no meaning yet. Safe: the run stops. -/
  | notModelled (mnemonic : String)
  deriving DecidableEq, Repr

/-- The module with no input power: every field at the value the spec states, or the log names (log 1, 2). -/
def State.reset : State := {}

end Sys2Proof.Machine
end

