-- ==== Sys2Proof/Machine/Bits.lean ====
section
/-! DEFINITION. Bit fields, byte order (R606, R631, R751) and the sparse list in its one canonical form. -/

namespace Sys2Proof.Machine

/-- Bits lo + len - 1 : lo of a word, as a number. -/
def fld {w : Nat} (x : BitVec w) (lo len : Nat) : Nat := (x.toNat >>> lo) % 2 ^ len

/-- One bit of a word. -/
def bitAt {w : Nat} (x : BitVec w) (i : Nat) : Bool := x.getLsbD i

/-- `x` with bits lo + len - 1 : lo replaced by the low bits of `v`. -/
def putFld {w : Nat} (x : BitVec w) (lo len v : Nat) : BitVec w :=
  let mask : BitVec w := BitVec.ofNat w ((2 ^ len - 1) <<< lo)
  (x &&& ~~~mask) ||| BitVec.ofNat w ((v % 2 ^ len) <<< lo)

/-- A field placed at bit `lo`, for building messages. -/
def place (w lo len v : Nat) : BitVec w := BitVec.ofNat w ((v % 2 ^ len) <<< lo)

/-- A Bool as a one-bit field value. -/
def bit (b : Bool) : Nat := if b then 1 else 0

/-- The low `w` bits of `n` as a signed two's-complement integer. -/
def signed (w n : Nat) : Int :=
  if n % 2 ^ w < 2 ^ (w - 1) then (n % 2 ^ w : Nat) else (n % 2 ^ w : Nat) - (2 ^ w : Nat)

/-- The little-endian value of a byte list. -/
def leNat : List Byte → Nat
  | [] => 0
  | b :: bs => b.toNat + 256 * leNat bs

/-- `n` as `k` little-endian bytes. -/
def leBytes : Nat → Nat → List Byte
  | 0, _ => []
  | k + 1, n => BitVec.ofNat 8 n :: leBytes k (n / 256)

/-- A byte list as little-endian words of `k` bytes each (k above 0). -/
def leWords (k : Nat) (bs : List Byte) : List Nat :=
  (List.range (bs.length / k)).map fun i => leNat ((bs.drop (i * k)).take k)

/-- Bytes `off` to `off + n - 1` of a list. -/
def slice (bs : List Byte) (off n : Nat) : List Byte := (bs.drop off).take n

/-- Every byte is zero. -/
def allZero (bs : List Byte) : Bool := bs.all (· == 0)

/-- The ceiling of a / b. -/
def ceilDiv (a b : Nat) : Nat := (a + b - 1) / b

namespace Sparse

/-- The value at a key; `d` where nothing is listed. -/
def get {α : Type} (d : α) : Sparse α → Nat → α
  | [], _ => d
  | (k, v) :: m, a => if k = a then v else get d m a

/-- Every entry of a key taken out. -/
def erase {α : Type} (m : Sparse α) (a : Nat) : Sparse α := m.filter fun e => e.1 != a

/-- Write one key and keep the canonical form: ascending keys, no entry equal to the default. -/
def set {α : Type} [DecidableEq α] (d : α) : Sparse α → Nat → α → Sparse α
  | [], a, v => if v = d then [] else [(a, v)]
  | (k, x) :: m, a, v =>
    if a < k then (if v = d then (k, x) :: erase m a else (a, v) :: (k, x) :: m)
    else if a = k then (if v = d then erase m a else (a, v) :: m)
    else (k, x) :: set d m a v

/-- Change the value at a key. -/
def upd {α : Type} [DecidableEq α] (d : α) (m : Sparse α) (a : Nat) (f : α → α) : Sparse α :=
  set d m a (f (get d m a))

/-- The canonical form: keys strictly rising, no entry equal to the default. -/
def wf {α : Type} [DecidableEq α] (d : α) (m : Sparse α) : Bool :=
  decide ((m.map Prod.fst).Pairwise (· < ·)) && m.all fun e => !decide (e.2 = d)

/-- Map every listed value, keeping the canonical form. -/
def mapVals {α : Type} [DecidableEq α] (d : α) (f : Nat → α → α) (m : Sparse α) : Sparse α :=
  (m.map fun e => (e.1, f e.1 e.2)).filter fun e => !decide (e.2 = d)

/-- Keep the entries whose key passes. -/
def keep {α : Type} (p : Nat → Bool) (m : Sparse α) : Sparse α := m.filter fun e => p e.1

/-- Write a list of values at consecutive keys. -/
def setList {α : Type} [DecidableEq α] (d : α) (m : Sparse α) (a : Nat) : List α → Sparse α
  | [] => m
  | v :: vs => setList d (set d m a v) (a + 1) vs

/-- Read `n` values at consecutive keys. -/
def getList {α : Type} (d : α) (m : Sparse α) (a n : Nat) : List α :=
  (List.range n).map fun i => get d m (a + i)

end Sparse

/-- Read one byte of a memory whose unlisted bytes are zero. -/
def Mem.read (m : Mem) (a : Nat) : Byte := Sparse.get 0 m a

/-- Write bytes at an address of a memory whose unlisted bytes are zero. -/
def Mem.write (m : Mem) (a : Nat) (bs : List Byte) : Mem := Sparse.setList 0 m a bs

/-- Read `n` bytes from an address. -/
def Mem.bytes (m : Mem) (a n : Nat) : List Byte := Sparse.getList 0 m a n

/-- Read a little-endian number of `k` bytes. -/
def Mem.num (m : Mem) (a k : Nat) : Nat := leNat (Mem.bytes m a k)

/-- The canonical form of a memory whose unlisted bytes are zero. -/
def Mem.wf (m : Mem) : Bool := Sparse.wf 0 m

/-- What an unlisted NOR byte reads as: an erased byte (R630). -/
def norBlank : Byte := 0xFF

/-- Read bytes of the NOR. -/
def norBytes (m : Mem) (a n : Nat) : List Byte := Sparse.getList norBlank m a n

/-- Program bytes of the NOR. -/
def norWrite (m : Mem) (a : Nat) (bs : List Byte) : Mem := Sparse.setList norBlank m a bs

end Sys2Proof.Machine
end

