-- ==== Sys2Proof/Machine/Numeric.lean ====
section
/-! DEFINITION. Number formats, exact values, rounding, conversion and flags (R111 to R148, "Number Formats and
Arithmetic Rules"). A value is held exactly, as a sign, a magnitude and a power of two, and is rounded once. -/

namespace Sys2Proof.Machine

/-- The eight formats (R111). -/
inductive Fp where
  | fp64 | fp32 | f19 | bf16 | fp16 | e4m3 | e5m2 | e2m1
  deriving DecidableEq, Repr

/-- Exponent bits (R111). -/
def Fp.eb : Fp → Nat
  | .fp64 => 11 | .fp32 => 8 | .f19 => 8 | .bf16 => 8 | .fp16 => 5 | .e4m3 => 4 | .e5m2 => 5 | .e2m1 => 2

/-- Fraction bits (R111). -/
def Fp.fb : Fp → Nat
  | .fp64 => 52 | .fp32 => 23 | .f19 => 10 | .bf16 => 7 | .fp16 => 10 | .e4m3 => 3 | .e5m2 => 2 | .e2m1 => 1

/-- Exponent bias (R111). -/
def Fp.bias : Fp → Int
  | .fp64 => 1023 | .fp32 => 127 | .f19 => 127 | .bf16 => 127 | .fp16 => 15 | .e4m3 => 7 | .e5m2 => 15 | .e2m1 => 1

/-- Width in bits (R111). -/
def Fp.width (f : Fp) : Nat := 1 + f.eb + f.fb

/-- The format has infinities (R111). -/
def Fp.hasInf : Fp → Bool
  | .e4m3 => false | .e2m1 => false | _ => true

/-- Encoding of the largest finite magnitude (R113). -/
def Fp.maxCode (f : Fp) : Nat :=
  match f with
  | .e4m3 => 0x7E
  | .e2m1 => 0x7
  | _ => (2 ^ f.eb - 1) * 2 ^ f.fb - 1

/-- Encoding of +infinity (R113), for formats that have it. -/
def Fp.infCode (f : Fp) : Nat := (2 ^ f.eb - 1) * 2 ^ f.fb

/-- The canonical NaN (R113, R115); E2M1 has none and takes +0 (R142). -/
def Fp.nanCode (f : Fp) : Nat :=
  match f with
  | .e4m3 => 0x7F
  | .e2m1 => 0
  | _ => f.infCode + 2 ^ (f.fb - 1)

/-- An exact value: NaN, a signed infinity, or sign × m × 2^e. -/
inductive Num where
  | nan
  | inf (neg : Bool)
  | fin (neg : Bool) (m : Nat) (e : Int)
  deriving DecidableEq, Repr

/-- +0. -/
def Num.zero : Num := .fin false 0 0

/-- The value is a zero of either sign. -/
def Num.isZero : Num → Bool
  | .fin _ m _ => m == 0
  | _ => false

/-- The value is NaN. -/
def Num.isNan : Num → Bool
  | .nan => true
  | _ => false

/-- The value is finite. -/
def Num.isFin : Num → Bool
  | .fin _ _ _ => true
  | _ => false

/-- The sign. -/
def Num.isNeg : Num → Bool
  | .nan => false
  | .inf n => n
  | .fin n _ _ => n

/-- The negation. -/
def Num.neg : Num → Num
  | .nan => .nan
  | .inf n => .inf (!n)
  | .fin n m e => .fin (!n) m e

/-- The magnitude. -/
def Num.abs : Num → Num
  | .nan => .nan
  | .inf _ => .inf false
  | .fin _ m e => .fin false m e

/-- Multiply by a power of two, exactly. -/
def Num.scale (k : Int) : Num → Num
  | .fin n m e => .fin n m (e + k)
  | x => x

/-- The value an encoding stands for inside an operation, the sign of zero kept (R112, R114). -/
def Fp.value (f : Fp) (bits : Nat) : Num :=
  let frac := bits % 2 ^ f.fb
  let ex := (bits >>> f.fb) % 2 ^ f.eb
  let neg := (bits >>> (f.fb + f.eb)) % 2 == 1
  let normal := Num.fin neg (2 ^ f.fb + frac) ((ex : Int) - f.bias - f.fb)
  if ex = 0 then .fin neg frac (1 - f.bias - f.fb)
  else if ex + 1 = 2 ^ f.eb then
    match f with
    | .e4m3 => if frac = 7 then .nan else normal
    | .e2m1 => normal
    | _ => if frac = 0 then .inf neg else .nan
  else normal

/-- The value of an encoding read from memory: an encoded −0 reads as +0 (R146). -/
def Fp.read (f : Fp) (bits : Nat) : Num :=
  let v := f.value bits
  if v.isZero then .zero else v

/-- How often each numeric flag was raised (R148): a core counts every event (R149). -/
structure Flags where
  inv : Nat := 0
  ovf : Nat := 0
  unf : Nat := 0
  deriving DecidableEq, Repr

/-- The flag events of two operations together. -/
def Flags.or (a b : Flags) : Flags := ⟨a.inv + b.inv, a.ovf + b.ovf, a.unf + b.unf⟩

/-- The flags as the bits of a completion: 1 INVALID, 2 OVERFLOW, 4 UNDERFLOW (R609). -/
def Flags.bits (a : Flags) : Nat := bit (a.inv != 0) + 2 * bit (a.ovf != 0) + 4 * bit (a.unf != 0)

/-- How a conversion rounds: to nearest even, toward zero (F19 TRUNC), or stochastically with a 16-bit draw (R132 to R135). -/
inductive Rnd where
  | rne | trunc | sr (r : Nat)
  deriving DecidableEq, Repr

/-- Whether a magnitude with `rem` of `2 ^ sh` below its last bit rounds up. -/
def Rnd.up (md : Rnd) (odd : Bool) (rem sh : Nat) : Bool :=
  match md with
  | .trunc => false
  | .rne => decide (2 * rem > 2 ^ sh) || (decide (2 * rem = 2 ^ sh) && odd)
  | .sr r => decide ((rem * 2 ^ 16) / 2 ^ sh + r ≥ 2 ^ 16)

/-- Sign bit of an encoding. -/
def Fp.sign (f : Fp) (neg : Bool) : Nat := if neg then 2 ^ (f.eb + f.fb) else 0

/-- The encoding of mant × 2^q where mant has at most fb + 1 bits (or is the power of two just above) and q is the
exponent of the last place, at or above the subnormal place. -/
def Fp.encode (f : Fp) (mant : Nat) (q : Int) : Nat :=
  if mant < 2 ^ f.fb then mant
  else if mant < 2 ^ (f.fb + 1) then ((q + f.fb + f.bias).toNat) * 2 ^ f.fb + (mant - 2 ^ f.fb)
  else ((q + 1 + f.fb + f.bias).toNat) * 2 ^ f.fb

/-- Result of an overflow (R140): saturate, or infinity, NaN in E4M3; E2M1 saturates under both. -/
def Fp.over (f : Fp) (ieee neg : Bool) : Nat :=
  if ieee then
    match f with
    | .e4m3 => f.nanCode
    | .e2m1 => f.sign neg + f.maxCode
    | _ => f.sign neg + f.infCode
  else f.sign neg + f.maxCode

/-- Exponent of the last place of a magnitude m × 2^e in the format. -/
def Fp.place (f : Fp) (m : Nat) (e : Int) : Int :=
  max ((Nat.log2 m : Int) + e) (1 - f.bias) - f.fb

/-- m × 2^e lies above 6, the E2M1 threshold that R143 lists for round-to-nearest-even. R143's first sentence alone would let 6 to 7 round
down without overflow; the listed threshold is followed (DEDUCED, log 48). -/
def aboveSix (m : Nat) (e : Int) : Bool :=
  if e < 0 then decide (6 * 2 ^ (-e).toNat < m) else decide (6 < m * 2 ^ e.toNat)

/-- Round an exact finite magnitude to the format: encoding without its sign, whether it overflowed (R143), whether it is inexact. -/
def Fp.roundMag (f : Fp) (md : Rnd) (m : Nat) (e : Int) : Nat × Bool × Bool :=
  let q := f.place m e
  let past (code : Nat) : Bool := decide (code > f.maxCode) || (decide (f = .e2m1 ∧ md = .rne) && aboveSix m e)
  if q ≤ e then
    let code := f.encode (m * 2 ^ (e - q).toNat) q
    (code, past code, false)
  else
    let sh := (q - e).toNat
    let fl := m / 2 ^ sh
    let rem := m % 2 ^ sh
    let mant := if md.up (fl % 2 == 1) rem sh then fl + 1 else fl
    let code := f.encode mant q
    (code, past code, decide (rem ≠ 0))

/-- Round a value to the format (R132, R135, R140 to R143). The sign of a zero result is kept. -/
def Fp.round (f : Fp) (md : Rnd) (ieee : Bool) : Num → Nat × Flags
  | .nan => (f.nanCode, { inv := bit (decide (f = .e2m1)) })
  | .inf neg =>
    match f with
    | .e4m3 => if ieee then (f.nanCode, { inv := 1 }) else (f.sign neg + f.maxCode, {})
    | .e2m1 => (f.sign neg + f.maxCode, {})
    | _ => (f.sign neg + f.infCode, {})
  | .fin neg m e =>
    if m = 0 then (f.sign neg, {})
    else
      let r := f.roundMag md m e
      if r.2.1 then (f.over ieee neg, { ovf := 1 })
      else (f.sign neg + r.1, { unf := bit (r.2.2 && decide (r.1 < 2 ^ f.fb)) })

/-- The device stores −0 as +0 (R146). -/
def Fp.stored (f : Fp) (bits : Nat) : Nat := if bits = 2 ^ (f.eb + f.fb) then 0 else bits

/-- Convert a value and store it (R146). -/
def Fp.convert (f : Fp) (md : Rnd) (ieee : Bool) (x : Num) : Nat × Flags :=
  let r := f.round md ieee x
  (f.stored r.1, r.2)

/-- Exact sum; invalid for ∞ − ∞ (R144). An exact zero sum is +0 unless both terms are −0. -/
def Num.add : Num → Num → Num × Bool
  | .nan, _ => (.nan, false)
  | _, .nan => (.nan, false)
  | .inf a, .inf b => if a = b then (.inf a, false) else (.nan, true)
  | .inf a, _ => (.inf a, false)
  | _, .inf b => (.inf b, false)
  | .fin a m e, .fin b n g =>
    let lo := min e g
    let x : Int := (if a then -1 else 1) * (m * 2 ^ (e - lo).toNat : Nat)
    let y : Int := (if b then -1 else 1) * (n * 2 ^ (g - lo).toNat : Nat)
    let z := x + y
    if z = 0 then (.fin (a && b && decide (m = 0) && decide (n = 0)) 0 0, false)
    else (.fin (decide (z < 0)) z.natAbs lo, false)

/-- Exact product; invalid for 0 × ∞ (R144). -/
def Num.mul : Num → Num → Num × Bool
  | .nan, _ => (.nan, false)
  | _, .nan => (.nan, false)
  | .inf a, .inf b => (.inf (a != b), false)
  | .inf a, .fin b m _ => if m = 0 then (.nan, true) else (.inf (a != b), false)
  | .fin a m _, .inf b => if m = 0 then (.nan, true) else (.inf (a != b), false)
  | .fin a m e, .fin b n g => (.fin (a != b) (m * n) (e + g), false)

/-- Exact a × b + c. A NaN operand gives NaN with no flag, even beside 0 × ∞ (R144, R148). -/
def Num.fma (a b c : Num) : Num × Bool :=
  if a.isNan || b.isNan || c.isNan then (.nan, false)
  else
    let p := a.mul b
    let s := p.1.add c
    (s.1, p.2 || s.2)

/-- Quotient with `k` extra bits and a sticky last bit, enough to round once to any format of at most `k - 4` fraction bits;
0 ÷ 0 and ∞ ÷ ∞ are invalid, a finite non-zero value over zero is an infinity with no flag (R144). -/
def Num.div (k : Nat) : Num → Num → Num × Bool
  | .nan, _ => (.nan, false)
  | _, .nan => (.nan, false)
  | .inf _, .inf _ => (.nan, true)
  | .inf a, .fin b _ _ => (.inf (a != b), false)
  | .fin a _ _, .inf b => (.fin (a != b) 0 0, false)
  | .fin a m e, .fin b n g =>
    if n = 0 then (if m = 0 then (.nan, true) else (.inf (a != b), false))
    else if m = 0 then (.fin (a != b) 0 0, false)
    else
      let s := k + Nat.log2 n + 1
      let num := m * 2 ^ s
      (.fin (a != b) (2 * (num / n) + (if num % n = 0 then 0 else 1)) (e - g - s - 1), false)

/-- Square root with a sticky last bit; invalid below zero (R144). -/
def Num.sqrt (k : Nat) : Num → Num × Bool
  | .nan => (.nan, false)
  | .inf neg => if neg then (.nan, true) else (.inf false, false)
  | .fin neg m e =>
    if m = 0 then (.fin neg 0 0, false)
    else if neg then (.nan, true)
    else
      let s := 2 * k + (if (e - 2 * k) % 2 = 0 then 0 else 1)
      let n := m * 2 ^ s
      let r := Nat.sqrt n
      (.fin false (2 * r + (if r * r = n then 0 else 1)) ((e - s) / 2 - 1), false)

/-- An FP32 or FP64 operation's result with its flags. -/
abbrev Rd := Nat × Flags

/-- Round an operation's exact outcome to a format, to nearest even (R133). -/
def rnd (f : Fp) (ieee : Bool) (x : Num × Bool) : Rd :=
  let r := f.round .rne ieee x.1
  (r.1, { r.2 with inv := r.2.inv + bit x.2 })

/-- FP32 value of an encoding, the sign of zero kept. -/
def v32 (a : Nat) : Num := Fp.fp32.value a

/-- FP32 addition. -/
def add32 (ieee : Bool) (a b : Nat) : Rd := rnd .fp32 ieee ((v32 a).add (v32 b))

/-- FP32 subtraction. -/
def sub32 (ieee : Bool) (a b : Nat) : Rd := rnd .fp32 ieee ((v32 a).add (v32 b).neg)

/-- FP32 multiplication. -/
def mul32 (ieee : Bool) (a b : Nat) : Rd := rnd .fp32 ieee ((v32 a).mul (v32 b))

/-- FP32 fused multiply-add a × b + c, rounded once. -/
def fma32 (ieee : Bool) (a b c : Nat) : Rd := rnd .fp32 ieee ((v32 a).fma (v32 b) (v32 c))

/-- FP32 division, correctly rounded. -/
def div32 (ieee : Bool) (a b : Nat) : Rd := rnd .fp32 ieee ((v32 a).div 30 (v32 b))

/-- FP32 square root, correctly rounded (R210). -/
def sqrt32 (ieee : Bool) (a : Nat) : Rd := rnd .fp32 ieee ((v32 a).sqrt 30)

/-- FP64 operations of the vector unit. -/
def mul64 (ieee : Bool) (a b : Nat) : Rd := rnd .fp64 ieee ((Fp.fp64.value a).mul (Fp.fp64.value b))

/-- FP64 division. -/
def div64 (ieee : Bool) (a b : Nat) : Rd := rnd .fp64 ieee ((Fp.fp64.value a).div 60 (Fp.fp64.value b))

/-- FP64 addition. -/
def add64 (ieee : Bool) (a b : Nat) : Rd := rnd .fp64 ieee ((Fp.fp64.value a).add (Fp.fp64.value b))

/-- FP64 subtraction. -/
def sub64 (ieee : Bool) (a b : Nat) : Rd := rnd .fp64 ieee ((Fp.fp64.value a).add (Fp.fp64.value b).neg)

/-- FP64 fused multiply-add. -/
def fma64 (ieee : Bool) (a b c : Nat) : Rd := rnd .fp64 ieee ((Fp.fp64.value a).fma (Fp.fp64.value b) (Fp.fp64.value c))

/-- FP64 square root, correctly rounded (R210). -/
def sqrt64 (ieee : Bool) (a : Nat) : Rd := rnd .fp64 ieee ((Fp.fp64.value a).sqrt 60)

/-- Ordered comparison of values; false with NaN, the zeros equal (R147). -/
def Num.lt : Num → Num → Bool
  | .nan, _ => false
  | _, .nan => false
  | .inf a, .inf b => a && !b
  | .inf a, _ => a
  | _, .inf b => !b
  | .fin a m e, .fin b n g =>
    let lo := min e g
    decide ((if a then -1 else 1) * ((m * 2 ^ (e - lo).toNat : Nat) : Int) <
      (if b then -1 else 1) * ((n * 2 ^ (g - lo).toNat : Nat) : Int))

/-- At most, false with NaN. -/
def Num.le (a b : Num) : Bool := !a.isNan && !b.isNan && !(b.lt a)

/-- Maximum (R147): canonical NaN with a NaN operand, +0 when both are zeros. -/
def Fp.maxOf (f : Fp) (a b : Nat) : Nat :=
  let x := f.value a
  let y := f.value b
  if x.isNan || y.isNan then f.nanCode
  else if x.isZero && y.isZero then 0
  else if x.lt y then b else a

/-- Minimum (R147). -/
def Fp.minOf (f : Fp) (a b : Nat) : Nat :=
  let x := f.value a
  let y := f.value b
  if x.isNan || y.isNan then f.nanCode
  else if x.isZero && y.isZero then 0
  else if y.lt x then b else a

/-- FP32 maximum. -/
def max32 (a b : Nat) : Nat := Fp.fp32.maxOf a b

/-- FP32 minimum. -/
def min32 (a b : Nat) : Nat := Fp.fp32.minOf a b

/-- Comparisons of the vector unit (R147, R210): less, at most, equal; every ordered one is false with a NaN, and inequality is true. -/
inductive Cmp where
  | lt | le | eq | ne
  deriving DecidableEq, Repr

/-- The outcome of a comparison (R147). -/
def Cmp.holds (c : Cmp) (x y : Num) : Bool :=
  match c with
  | .lt => x.lt y
  | .le => x.le y
  | .eq => x.le y && y.le x
  | .ne => !(x.le y && y.le x)

/-- Select: the first operand where the comparison held, else the second; the encoding is kept (R210). -/
def select (c : Bool) (a b : Nat) : Nat := if c then a else b

/-- Absolute value (R210); a NaN becomes the canonical NaN (R115). -/
def Fp.absOf (f : Fp) (a : Nat) : Nat := if (f.value a).isNan then f.nanCode else a % 2 ^ (f.eb + f.fb)

/-- Negation (R210); a NaN becomes the canonical NaN (R115). -/
def Fp.negOf (f : Fp) (a : Nat) : Nat := if (f.value a).isNan then f.nanCode else (a ^^^ 2 ^ (f.eb + f.fb)) % 2 ^ (f.eb + f.fb + 1)

/-- The 32-bit integer operations of the vector unit (R210). -/
inductive IntOp where
  | add | and | or | xor | shl | shr
  deriving DecidableEq, Repr

/-- An integer operation, modulo 2^32 (R210). A shift moves zeros in, and one by 32 or more gives zero (DEDUCED, log 49). -/
def IntOp.apply (o : IntOp) (a b : W32) : W32 :=
  match o with
  | .add => a + b
  | .and => a &&& b
  | .or => a ||| b
  | .xor => a ^^^ b
  | .shl => a <<< b.toNat
  | .shr => a >>> b.toNat

/-- The nearest integer of a finite value, ties to even. -/
def Num.toInt : Num → Int
  | .fin neg m e =>
    let mag : Nat :=
      if e ≥ 0 then m * 2 ^ e.toNat
      else
        let sh := (-e).toNat
        let fl := m / 2 ^ sh
        if Rnd.up .rne (fl % 2 == 1) (m % 2 ^ sh) sh then fl + 1 else fl
    if neg then -(mag : Int) else mag
  | _ => 0

/-- An integer as an exact value. -/
def Num.ofInt (i : Int) : Num := .fin (decide (i < 0)) i.natAbs 0

/-- FP32 is positive, finite and normal, as a scale must be (R124). -/
def normalPos32 (a : Nat) : Bool := decide (0x0080_0000 ≤ a) && decide (a < 0x7F80_0000)

/-- FMT codes (R118); none for a reserved code. -/
def fmtOf : Nat → Option Fp
  | 0 => some .fp32 | 1 => some .bf16 | 2 => some .fp16 | 3 => some .e4m3 | 4 => some .e5m2 | 5 => some .e2m1
  | 6 => some .fp64 | _ => none

/-- Block length of a BLK code (R118): 0 without blocks; none for the reserved code. -/
def blkOf : Nat → Option Nat
  | 0 => some 0 | 1 => some 16 | 2 => some 32 | _ => none

/-- FP32 to F19 as an operand enters the matrix unit (R121 to R123); overflow follows R140. -/
def toF19 (rne ieee : Bool) (a : Nat) : Nat × Flags :=
  Fp.f19.round (if rne then .rne else .trunc) ieee (Fp.fp32.read a)

/-- e_max of R131 step 2. -/
def Fp.emax : Fp → Int
  | .e4m3 => 8 | .e5m2 => 15 | _ => 2

/-- Compare two magnitudes m × 2^e. -/
def magLt (m : Nat) (e : Int) (n : Nat) (g : Int) : Bool := (Num.fin false m e).lt (.fin false n g)

/-- The largest finite magnitude of a list, as an exact value; +0 when there is none. -/
def maxFinite : List Num → Num
  | [] => .zero
  | x :: xs =>
    let r := maxFinite xs
    if x.isFin && r.lt x.abs then x.abs else r

/-- Block exponent of R131 steps 1 to 4 over the finite elements of a block. -/
def blockExp (f : Fp) (xs : List Num) : Nat :=
  match maxFinite xs with
  | .fin _ m e =>
    if m = 0 then 0
    else
      let x : Int := (Nat.log2 m : Int) + e - f.emax + 127
      let up := (f.roundMag .rne m (e + (127 - x))).2.1
      let x := if up then x + 1 else x
      (max 0 (min x 0xFE)).toNat
  | _ => 0

/-- Convert one block (R131): its exponent, the element codes and the flags. `mds` gives each element's rounding. -/
def convertBlock (f : Fp) (ieee : Bool) (xs : List Num) (mds : List Rnd) : Nat × List Nat × Flags :=
  let x := blockExp f xs
  let rs := (xs.zip mds).map fun p => f.convert p.2 ieee (p.1.scale (127 - (x : Int)))
  let fl := rs.foldl (fun a r => a.or r.2) ({} : Flags)
  let bad := xs.any Num.isNan || (decide (f = .e4m3) && rs.any fun r => decide (r.1 % 0x80 = 0x7F)) ||
    (decide (f = .e5m2) && rs.any fun r => (Fp.e5m2.value r.1).isNan)
  if bad then
    -- a NaN element raises no INVALID of its own in a block form (R142, R148)
    (0xFF, xs.map fun _ => 0, if f = .e2m1 then { fl with inv := 0 } else fl)
  else (x, rs.map Prod.fst, fl)

/-- Value of a stored element under its block exponent (R127); exponent 0xFF makes it NaN. -/
def blockValue (f : Fp) (code x : Nat) : Num :=
  if x = 0xFF then .nan else (f.read code).scale ((x : Int) - 127)

/-- One step of a lane's generator (R138): the new state and the 16-bit draw. -/
def srDraw (st : W64) : W64 × Nat :=
  let a := st ^^^ (st <<< 13)
  let b := a ^^^ (a >>> 7)
  let c := b ^^^ (b <<< 17)
  (c, (c >>> 48).toNat)

/-- Seed of a generator (R138). -/
def srSeed (seed : W64) (die core lane : Nat) : W64 :=
  let z := seed ^^^ (BitVec.ofNat 64 die <<< 40) ^^^ (BitVec.ofNat 64 core <<< 24) ^^^ BitVec.ofNat 64 lane
  let z := z + 0x9E3779B97F4A7C15
  let z := (z ^^^ (z >>> 30)) * 0xBF58476D1CE4E5B9
  let z := (z ^^^ (z >>> 27)) * 0x94D049BB133111EB
  let z := z ^^^ (z >>> 31)
  if z = 0 then 1 else z

end Sys2Proof.Machine
end

