-- ==== Sys2Proof/Machine/Matrix.lean ====
section
/-! DEFINITION. Matrix-unit arithmetic: the fused adder, the pairwise tree and strict mode (R150 to R157). -/

namespace Sys2Proof.Machine

/-- A matrix element: its exact value and whether it lies in a poisoned block (R127). -/
abbrev Elem := Num

/-- Exponent of the 2^0 position of a non-zero product, whose significand lies in [1, 4) (R153 step 3). -/
def prodExp : Num → Num → Int
  | .fin _ m e, .fin _ n g => (Nat.log2 m : Int) + e + ((Nat.log2 n : Int) + g)
  | _, _ => 0

/-- One term of the window (R153 step 4): the signed multiple of 2^(e_max − 38) kept of a product, truncated in magnitude. -/
def windowTerm (emax : Int) : Num → Int
  | .fin neg m e =>
    let q := emax - 38
    let mag : Nat := if q ≤ e then m * 2 ^ (e - q).toNat else m / 2 ^ (q - e).toNat
    if neg then -(mag : Int) else mag
  | _ => 0

/-- The largest product exponent of the non-zero products of a chunk; none when all are zero (R153 step 3, R154). -/
def chunkEmax : List (Num × Num) → Option Int
  | [] => none
  | p :: ps =>
    let r := chunkEmax ps
    if p.1.isFin && p.2.isFin && !p.1.isZero && !p.2.isZero then
      match r with
      | none => some (prodExp p.1 p.2)
      | some x => some (max x (prodExp p.1 p.2))
    else r

/-- A chunk with a product that is not finite (R153): NaN for a NaN product or infinities of both signs, else the infinity. The order of the
products takes no part. INVALID is raised when the NaN has no NaN operand behind it: 0 × ∞, or both infinities (R144, R148); a chunk with a NaN
operand raises none (DEDUCED, log 49). -/
def specialSum (ps : List (Num × Num)) : Num × Bool :=
  let prods := ps.map fun p => p.1.mul p.2
  let pos := prods.any fun p => p.1 == .inf false
  let neg := prods.any fun p => p.1 == .inf true
  if ps.any fun p => p.1.isNan || p.2.isNan then (.nan, false)
  else if prods.any (fun p => p.2) || (pos && neg) then (.nan, true)
  else (.inf neg, false)

/-- One chunk of 32 reduction indices through the fused adder (R153 steps 2 to 5), rounded once to FP32. -/
def fusedChunk (ieee : Bool) (ps : List (Num × Num)) : Rd :=
  let prods := ps.map fun p => p.1.mul p.2
  if prods.all fun p => p.1.isFin then
    match chunkEmax ps with
    | none => (0, {})
    | some emax =>
      let s := prods.foldl (fun a p => a + windowTerm emax p.1) 0
      if s = 0 then (0, {}) else rnd .fp32 ieee (.fin (decide (s < 0)) s.natAbs (emax - 38), false)
  else rnd .fp32 ieee (specialSum ps)

/-- One level of the pairwise tree (R153 step 6): adjacent results combine, an unpaired last one passes up. -/
def pairLevel {α : Type} (f : α → α → α) : List α → List α
  | a :: b :: xs => f a b :: pairLevel f xs
  | xs => xs

/-- The pairwise tree over a list, at most `fuel` levels. -/
def pairTree {α : Type} (f : α → α → α) (d : α) : Nat → List α → α
  | _, [] => d
  | _, [x] => x
  | 0, x :: _ => x
  | n + 1, xs => pairTree f d n (pairLevel f xs)

/-- The pairwise tree with levels enough for the list. -/
def tree {α : Type} (f : α → α → α) (d : α) (xs : List α) : α := pairTree f d xs.length xs

/-- FP32 addition of two results with flags. -/
def addRd (ieee : Bool) (a b : Rd) : Rd :=
  let r := add32 ieee a.1 b.1
  (r.1, (a.2.or b.2).or r.2)

/-- Split a list into chunks of 32 (R153 step 1). -/
def chunks32 {α : Type} (n : Nat) (xs : List α) : List (List α) :=
  (List.range n).map fun i => (xs.drop (32 * i)).take 32

/-- One reduction tile of one output element on the fast path: chunks, tree, then the accumulator (R153). -/
def fastDot (ieee : Bool) (acc : Nat) (ps : List (Num × Num)) : Rd :=
  let cs := (chunks32 (ps.length / 32) ps).map (fusedChunk ieee)
  addRd ieee (acc, {}) (tree (addRd ieee) (0, {}) cs)

/-- One reduction tile of one output element in strict mode: one FMA per index in ascending order (R156). -/
def strictDot (ieee : Bool) (acc : Nat) (ps : List (Num × Num)) : Rd :=
  ps.foldl (fun a p =>
    let r := rnd .fp32 ieee (p.1.fma p.2 (v32 a.1))
    (r.1, a.2.or r.2)) (acc, {})

/-- One output element's reduction tile under NUM (R153, R156). -/
def dot (strict ieee : Bool) (acc : Nat) (ps : List (Num × Num)) : Rd :=
  if strict then strictDot ieee acc ps else fastDot ieee acc ps

/-- Cycles of one reduction tile on the fast path (R168, R169). -/
def tileCycles (f : Fp) (mT nT kT : Nat) : Nat :=
  let g := match f with
    | .fp32 | .f19 | .fp64 => 32
    | .bf16 | .fp16 => 64
    | .e4m3 | .e5m2 => 128
    | .e2m1 => 256
  (mT * nT / g) * (kT / 32)

end Sys2Proof.Machine
end

