-- ==== Sys2Proof/Machine/Micro.lean ====
section
/-! DEFINITION. Special-function micro-programs: their step words and their execution (R214 to R221, R750). -/

namespace Sys2Proof.Machine

/-- Working values of one element (R750). -/
structure Work where
  x : Nat
  q : Nat := 0
  n : Int := 0
  t : Nat := 0
  u : Nat := 0
  p : Nat := 0
  y : Nat := 0
  fixed : Option Nat := none      -- a result fixed by SPECIAL
  fl : Flags := {}
  deriving DecidableEq, Repr

/-- Fields of a step word (R215). -/
def stepOp (w : W64) : Nat := fld w 60 4
/-- MODE (R215). -/
def stepMode (w : W64) : Nat := fld w 57 3
/-- PARM (R215). -/
def stepParm (w : W64) : Nat := fld w 54 3
/-- TOFF (R215). -/
def stepToff (w : W64) : Nat := fld w 46 8
/-- CLASSMAP (R215). -/
def stepClass (w : W64) : Nat := fld w 30 15

/-- Table word k of a program; words beyond the table read +0, and an encoded −0 reads +0 (R146). -/
def tw (tab : List W32) (k : Nat) : Nat := Fp.fp32.stored (tab[k]?.getD 0).toNat

/-- FP32 1.0. -/
def one32 : Nat := 0x3F80_0000

/-- A step's FP32 result: intermediate steps carry infinities and keep only INVALID; the last step rounds under OVF with every
flag (R220). -/
def midRound (last ieee : Bool) (x : Num × Bool) : Rd :=
  if last then rnd .fp32 ieee x
  else
    let r := Fp.fp32.round .rne true x.1
    (r.1, { inv := r.2.inv + bit x.2 })

/-- FMA of a step. -/
def midFma (last ieee : Bool) (a b c : Num) : Rd :=
  midRound last ieee (a.fma b c)

/-- The CLASSMAP code that applies to X: NaN, +∞, −∞, ±0 or negative finite non-zero (R216). -/
def classCode (cm : Nat) (x : Num) : Nat :=
  match x with
  | .nan => (cm >>> 12) % 8
  | .inf false => (cm >>> 9) % 8
  | .inf true => (cm >>> 6) % 8
  | .fin neg m _ => if m = 0 then (cm >>> 3) % 8 else if neg then cm % 8 else 0

/-- SPECIAL (R216, R217): a non-zero code fixes the result. -/
def stepSpecial (cm : Nat) (w : Work) : Work :=
  let x := v32 w.x
  match classCode cm x with
  | 1 => { w with fixed := some 0 }
  | 2 => { w with fixed := some one32 }
  | 3 => { w with fixed := some 0xBF80_0000 }
  | 4 => { w with fixed := some 0x7F80_0000 }
  | 5 => { w with fixed := some 0xFF80_0000 }
  | 6 => { w with fixed := some Fp.fp32.nanCode, fl := { w.fl with inv := w.fl.inv + bit (!x.isNan) } }
  | 7 => { w with fixed := some (if x.isNan then Fp.fp32.nanCode else w.x) }
  | _ => w

/-- N of REDUCE MODE 0 and 1: the exact product rounded to the nearest integer and clamped to ±2^30; no flag (R216). -/
def reduceN (x t : Num) : Int :=
  match (x.mul t).1 with
  | .nan => 0
  | .inf neg => if neg then -(2 ^ 30) else 2 ^ 30
  | v => max (-(2 ^ 30)) (min (2 ^ 30) v.toInt)

/-- REDUCE (R216). -/
def stepReduce (tab : List W32) (mode toff : Nat) (last ieee : Bool) (w : Work) : Work :=
  let x0 := v32 w.x
  if mode ≤ 1 then
    let x := if mode = 1 then x0.neg else x0
    let n := reduceN x (v32 (tw tab toff))
    let a := midFma false ieee (Num.ofInt (-n)) (v32 (tw tab (toff + 1))) x
    let b := midFma last ieee (Num.ofInt (-n)) (v32 (tw tab (toff + 2))) (v32 a.1)
    { w with n := n, q := b.1, fl := (w.fl.or a.2).or b.2 }
  else if mode = 2 then
    match x0 with
    | .fin _ m e =>
      if m = 0 then { w with n := 0, q := 0 }
      else
        let n := (Nat.log2 m : Int) + e
        { w with n := n, q := (Fp.fp32.round .rne true (.fin false m (e - n))).1 }
    | .inf _ => { w with n := 0, q := 0x7F80_0000 }
    | .nan => { w with n := 0, q := Fp.fp32.nanCode }
  else { w with q := w.x }

/-- LOOKUP (R216): MODE 0 indexes by N, MODE 1 by the leading fraction bits of Q. -/
def stepLookup (tab : List W32) (mode ib toff : Nat) (last ieee : Bool) (w : Work) : Work :=
  if mode = 0 then
    let i := (w.n % (2 ^ ib : Nat)).toNat
    { w with t := tw tab (toff + i), n := w.n / (2 ^ ib : Nat) }
  else
    let i := (w.q % 2 ^ 23) >>> (23 - ib)
    let t := tw tab (toff + i)
    let r := midFma last ieee (v32 w.q) (v32 t) (.fin true 1 0)
    { w with t := t, u := tw tab (toff + 2 ^ ib + i), q := r.1, fl := w.fl.or r.2 }

/-- POLY (R216): Horner evaluation in Q, one FMA per degree. -/
def stepPoly (tab : List W32) (deg toff : Nat) (last ieee : Bool) (w : Work) : Work :=
  let r := (List.range deg).foldl (fun (a : Rd) i =>
    let s := midFma (last && decide (i + 1 = deg)) ieee (v32 a.1) (v32 w.q) (v32 (tw tab (toff + i + 1)))
    (s.1, a.2.or s.2)) (tw tab toff, {})
  { w with p := r.1, fl := w.fl.or r.2 }

/-- RECON (R216). -/
def stepRecon (tab : List W32) (mode toff : Nat) (last ieee : Bool) (w : Work) : Work :=
  if mode = 0 then
    let m := (v32 w.p).mul (v32 w.t)
    let a := midRound false ieee m
    let b := midRound last ieee ((v32 a.1).scale w.n, false)
    { w with y := b.1, fl := (w.fl.or a.2).or b.2 }
  else if mode = 1 then
    let a := midFma false ieee (Num.ofInt w.n) (v32 (tw tab toff)) (v32 w.u)
    let b := midRound last ieee ((v32 a.1).add (v32 w.p))
    { w with y := b.1, fl := (w.fl.or a.2).or b.2 }
  else if mode = 2 then
    let b := midRound last ieee ((v32 w.p).mul (v32 w.q))
    { w with y := b.1, fl := w.fl.or b.2 }
  else { w with y := w.p }

/-- ARITH (R216). -/
def stepArith (tab : List W32) (mode toff : Nat) (last ieee : Bool) (w : Work) : Work :=
  let y := v32 w.y
  match mode with
  | 0 => let r := midRound last ieee (y.add (v32 (tw tab toff))); { w with y := r.1, fl := w.fl.or r.2 }
  | 1 => let r := midRound last ieee (y.mul (v32 (tw tab toff))); { w with y := r.1, fl := w.fl.or r.2 }
  | 2 => let r := midRound last ieee (y.mul (v32 w.x)); { w with y := r.1, fl := w.fl.or r.2 }
  | 3 => let r := midRound last ieee ((Num.fin false 1 0).div 30 y); { w with y := r.1, fl := w.fl.or r.2 }
  | 4 => { w with y := w.x }
  | _ => { w with y := (if y.isNan then Fp.fp32.nanCode else w.y ^^^ 0x8000_0000) }

/-- One step word (R216). A result that SPECIAL fixed stays. -/
def microStep (tab : List W32) (last ieee : Bool) (sw : W64) (w : Work) : Work :=
  if w.fixed.isSome then w
  else
    match stepOp sw with
    | 1 => stepSpecial (stepClass sw) w
    | 2 => stepReduce tab (stepMode sw) (stepToff sw) last ieee w
    | 3 => stepLookup tab (stepMode sw) (stepParm sw) (stepToff sw) last ieee w
    | 4 => stepPoly tab (stepParm sw) (stepToff sw) last ieee w
    | 5 => stepRecon tab (stepMode sw) (stepToff sw) last ieee w
    | 6 => stepArith tab (stepMode sw) (stepToff sw) last ieee w
    | _ => w

/-- The steps in order; the last one rounds with OVF and flags. -/
def microSteps (tab : List W32) (ieee : Bool) : List W64 → Work → Work
  | [], w => w
  | [s], w => microStep tab true ieee s w
  | s :: ss, w => microSteps tab ieee ss (microStep tab false ieee s w)

/-- A micro-program on one FP32 element (R221, R750): its result and flags. -/
def runMicro (p : MicroProg) (ieee : Bool) (x : Nat) : Rd :=
  let w := microSteps p.table ieee p.steps { x := x }
  match w.fixed with
  | some r => (r, w.fl)
  | none => ((if (v32 w.y).isNan then Fp.fp32.nanCode else w.y), w.fl)

/-- The form of a function in use: the Maelov form under compatibility when the image holds one, else the Finbath form
(R243, R245). -/
def microFor (ps : List MicroProg) (compat : Bool) (id : Nat) : Option MicroProg :=
  match (if compat then ps.find? (fun p => p.id == id && p.maelov) else none) with
  | some p => some p
  | none => ps.find? (fun p => p.id == id && !p.maelov)

/-! ### The function store (R214, R223) -/

/-- Where the function store begins in a die's stage memory: the top 1 MiB of 256 MiB (R223). -/
def storeBase : Nat := 255 * 2 ^ 20

/-- The header word of a record (R214). -/
def MicroProg.header (p : MicroProg) : W64 :=
  place 64 56 8 p.id ||| place 64 55 1 (bit p.maelov) ||| place 64 51 4 p.steps.length ||| place 64 48 3 p.segs

/-- A record as bytes: header and step words in 128 bytes, then its table (R214). -/
def MicroProg.bytes (p : MicroProg) : List Byte :=
  let head := leBytes 8 p.header.toNat ++ p.steps.flatMap fun w => leBytes 8 w.toNat
  head ++ List.replicate (128 - head.length) 0 ++ p.table.flatMap fun w => leBytes 4 w.toNat

/-- Every die's function store as the loader fills it: the record of ID k and form m in slot 2k + m, 2 KiB to a slot (R223). -/
def functionStore (ps : List MicroProg) : Mem :=
  ps.foldl (fun m p => Mem.write m (storeBase + 2048 * (2 * p.id + bit p.maelov)) p.bytes) []

/-- The record in a slot of a die's function store; none in a slot that holds none, whose header has the reserved ID 0 (R214, R223). -/
def recordAt (stage : Mem) (slot : Nat) : Option MicroProg :=
  let a := storeBase + 2048 * slot
  let h : W64 := BitVec.ofNat 64 (Mem.num stage a 8)
  if fld h 56 8 = 0 then none
  else some { id := fld h 56 8, maelov := bitAt h 55, segs := fld h 48 3
              steps := (leWords 8 (Mem.bytes stage (a + 8) (8 * fld h 51 4))).map (BitVec.ofNat 64)
              table := (leWords 4 (Mem.bytes stage (a + 128) (256 * fld h 48 3))).map (BitVec.ofNat 32) }

/-- A special function of the image applied to an element. An image that passed VERIFY holds every required ID (R218). -/
def special (ps : List MicroProg) (compat ieee : Bool) (id x : Nat) : Rd :=
  match microFor ps compat id with
  | some p => runMicro p ieee x
  | none => (x, {})

end Sys2Proof.Machine
end

