-- ==== Sys2Proof/Machine/Vector.lean ====
section
/-! DEFINITION. Row arithmetic of the vector unit: lanes, normalisation, soft maximum, rotary positions, sketches and
token choice (R210 to R246, R330, R342, R343, R362, R616). -/

namespace Sys2Proof.Machine

/-- What a vector pass runs under: the functions of the image, compatibility and OVF. -/
structure Env where
  micro  : List MicroProg
  compat : Bool
  ieee   : Bool
  deriving DecidableEq, Repr

/-- A special function in an environment. -/
def Env.fn (v : Env) (id x : Nat) : Rd := special v.micro v.compat v.ieee id x

/-- EXP, ID 0x01. -/
def Env.exp (v : Env) (x : Nat) : Rd := v.fn 0x01 x

/-- Elements of lane `i` when element j goes to lane j mod n (R212, R243). -/
def laneOf {α : Type} (n i : Nat) : Nat → List α → List α
  | _, [] => []
  | j, x :: xs => if j % n = i then x :: laneOf n i (j + 1) xs else laneOf n i (j + 1) xs

/-- The n lanes of a row. -/
def lanes {α : Type} (n : Nat) (xs : List α) : List (List α) := (List.range n).map fun i => laneOf n i 0 xs

/-- Combine lanes: the tree of R213, or under compatibility lanes 1 to 31 folded in ascending order into lane 0 (R243). -/
def combineLanes {α : Type} (compat : Bool) (f : α → α → α) (d : α) (ls : List α) : α :=
  if compat then
    match ls with
    | [] => d
    | a :: as => as.foldl f a
  else tree f d ls

/-- Lane count of the row passes that R243 lists. -/
def laneCount (compat : Bool) : Nat := if compat then 32 else 64

/-- Sum of a row: each lane in ascending order from +0, then the lanes (R212, R213). -/
def rowSum (compat ieee : Bool) (xs : List Nat) : Rd :=
  combineLanes compat (addRd ieee) (0, {})
    ((lanes (laneCount compat) xs).map fun l => l.foldl (fun a x => addRd ieee a (x, {})) (0, {}))

/-- −∞ in FP32. -/
def negInf32 : Nat := 0xFF80_0000

/-- Maximum of a row (R147, R239); −∞ is the identity. -/
def rowMax (xs : List Nat) : Nat := tree max32 negInf32 ((lanes 64 xs).map fun l => l.foldl max32 negInf32)

/-- Row statistics for Layer normalisation: count, mean, M2 and flags (R232). -/
structure Stat where
  n  : Nat := 0
  mu : Nat := 0
  m2 : Nat := 0
  fl : Flags := {}
  deriving DecidableEq, Repr

/-- One element of a lane's Layer statistics (R232). -/
def layerStep (ieee : Bool) (s : Stat) (x : Nat) : Stat :=
  let n := s.n + 1
  let d := sub32 ieee x s.mu
  let q := rnd .fp32 ieee ((v32 d.1).div 30 (.fin false n 0))
  let mu := add32 ieee s.mu q.1
  let e := sub32 ieee x mu.1
  let m2 := fma32 ieee d.1 e.1 s.m2
  ⟨n, mu.1, m2.1, ((((s.fl.or d.2).or q.2).or mu.2).or e.2).or m2.2⟩

/-- Merge of two lanes' Layer statistics (R233). -/
def layerMerge (ieee : Bool) (a b : Stat) : Stat :=
  if b.n = 0 then { a with fl := a.fl.or b.fl }
  else if a.n = 0 then { b with fl := a.fl.or b.fl }
  else
    let n := a.n + b.n
    let d := sub32 ieee b.mu a.mu
    let w := rnd .fp32 ieee ((Num.fin false b.n 0).div 30 (.fin false n 0))
    let mu := fma32 ieee d.1 w.1 a.mu
    let dd := mul32 ieee d.1 d.1
    let h := rnd .fp32 ieee ((Num.fin false (a.n * b.n) 0).div 30 (.fin false n 0))
    let t := add32 ieee a.m2 b.m2
    let m2 := fma32 ieee dd.1 h.1 t.1
    ⟨n, mu.1, m2.1, (((((((a.fl.or b.fl).or d.2).or w.2).or mu.2).or dd.2).or h.2).or t.2).or m2.2⟩

/-- A row holds a NaN. -/
def rowNan (xs : List Nat) : Bool := xs.any fun x => (v32 x).isNan

/-- A row of canonical NaNs, with no flag (R236, R240). -/
def nanRow (xs : List Nat) : List Nat × Flags := (xs.map fun _ => Fp.fp32.nanCode, {})

/-- RMS normalisation of a row without a NaN (R232 to R234): FP32 outputs before storage, and flags. -/
def rmsRow (v : Env) (eps : Nat) (xs gs : List Nat) : List Nat × Flags :=
  let per := (lanes (laneCount v.compat) xs).map fun l =>
    l.foldl (fun (a : Rd) x => let r := fma32 v.ieee x x a.1; (r.1, a.2.or r.2)) (0, {})
  let s := combineLanes v.compat (addRd v.ieee) (0, {}) per
  let m := rnd .fp32 v.ieee ((v32 s.1).div 30 (.fin false xs.length 0))
  let e := add32 v.ieee m.1 eps
  let k := v.fn 0x04 e.1
  let ys := (xs.zip gs).map fun p =>
    let a := mul32 v.ieee p.1 k.1
    let b := mul32 v.ieee a.1 p.2
    (b.1, a.2.or b.2)
  (ys.map Prod.fst, ys.foldl (fun a r => a.or r.2) (((s.2.or m.2).or e.2).or k.2))

/-- Layer normalisation of a row without a NaN (R232 to R235). -/
def layerRow (v : Env) (eps : Nat) (xs gs bs : List Nat) : List Nat × Flags :=
  let per := (lanes (laneCount v.compat) xs).map fun l => l.foldl (layerStep v.ieee) {}
  let s := combineLanes v.compat (layerMerge v.ieee) {} per
  let q := rnd .fp32 v.ieee ((v32 s.m2).div 30 (.fin false xs.length 0))
  let var := max32 q.1 0
  let e := add32 v.ieee var eps
  let k := v.fn 0x04 e.1
  let ys := (xs.zip (gs.zip bs)).map fun p =>
    let d := sub32 v.ieee p.1 s.mu
    let a := mul32 v.ieee d.1 k.1
    let b := fma32 v.ieee a.1 p.2.1 p.2.2
    (b.1, (d.2.or a.2).or b.2)
  (ys.map Prod.fst, ys.foldl (fun a r => a.or r.2) (((s.fl.or q.2).or e.2).or k.2))

/-- RMS normalisation of a row (R232 to R234); a NaN in it makes every output NaN, with no flag (R236). -/
def rmsNorm (v : Env) (eps : Nat) (xs gs : List Nat) : List Nat × Flags := if rowNan xs then nanRow xs else rmsRow v eps xs gs

/-- Layer normalisation of a row (R232 to R236). -/
def layerNorm (v : Env) (eps : Nat) (xs gs bs : List Nat) : List Nat × Flags := if rowNan xs then nanRow xs else layerRow v eps xs gs bs

/-- Pass 2 of the soft maximum: EXP(RN(x − m)) of each element (R239). -/
def softExps (v : Env) (m : Nat) (xs : List Nat) : List Rd :=
  xs.map fun x =>
    let d := sub32 v.ieee x m
    let e := v.exp d.1
    (Fp.fp32.stored e.1, d.2.or e.2)

/-- What the working space holds after pass 2 (R238, R239). -/
def softWork (v : Env) (xs : List Nat) : List Nat :=
  if rowNan xs then (nanRow xs).1
  else if rowMax xs = negInf32 then xs.map fun _ => 0 else (softExps v (rowMax xs) xs).map Prod.fst

/-- The standalone soft maximum (R239, R240): FP32 values before storage, and flags. -/
def softmax (v : Env) (xs : List Nat) : List Nat × Flags :=
  let m := rowMax xs
  if rowNan xs then nanRow xs
  else if m = negInf32 then (xs.map fun _ => 0, {})
  else
    let es := softExps v m xs
    let s := rowSum v.compat v.ieee (es.map Prod.fst)
    let ys := es.map fun e => div32 v.ieee e.1 s.1
    (ys.map Prod.fst, ys.foldl (fun a r => a.or r.2) (es.foldl (fun a r => a.or r.2) s.2))

/-- FP64 constants of R342: nearest 2π, nearest 2π − TWO_PI_HI, nearest 1 ÷ 2π. -/
def twoPiHi : Nat := 0x401921FB54442D18
/-- TWO_PI_LO (R342). -/
def twoPiLo : Nat := 0x3CB1A62633145C07
/-- INV_TWO_PI (R342). -/
def invTwoPi : Nat := 0x3FC45F306DC9C883

/-- Bisection for the largest m in [lo, lo + 2^fuel) with `p m`, when p holds at lo and is downward closed. -/
def bisect (p : Nat → Bool) : Nat → Nat → Nat
  | 0, lo => lo
  | n + 1, lo => if p (lo + 2 ^ n) then bisect p n (lo + 2 ^ n) else bisect p n lo

/-- (m × 2^e)^h ≤ 1 ÷ (bm × 2^be)^i, exactly. -/
def powLe (bm : Nat) (be : Int) (i h m : Nat) (e : Int) : Bool :=
  let lhs := m ^ h * bm ^ i
  let ex := e * h + be * i
  if ex ≥ 0 then decide (lhs * 2 ^ ex.toNat ≤ 1) else decide (lhs ≤ 2 ^ (-ex).toNat)

/-- The FP64 value nearest ROPE_BASE^(−2i ÷ d), for a finite base above 1 (R342, R344): x^(d/2) = base^(−i). -/
def ropeTheta (base d i : Nat) : Nat :=
  match Fp.fp64.value base with
  | .fin _ bm be =>
    let h := d / 2
    if i = 0 then 0x3FF0_0000_0000_0000
    else
      -- binary exponent of x: largest k with 2^(-k) >= x, found over 0 .. 2047
      let k := bisect (fun k => !powLe bm be i h 1 (-(k : Int)) || (decide (k = 0))) 11 0
      -- x lies in [2^(-k-1), 2^(-k)); 54 bits find x's floor at half an ulp
      let e : Int := -(k : Int) - 1 - 53
      let m := bisect (fun m => powLe bm be i h m e) 55 0
      -- an exact value has no remainder; otherwise a sticky bit rounds it
      let exact := decide (m ^ h * bm ^ i * 2 ^ (max 0 (e * h + be * i)).toNat = 2 ^ (max 0 (-(e * h + be * i))).toNat)
      (Fp.fp64.round .rne true (.fin false (2 * m + (if exact then 0 else 1)) (e - 1))).1
  | _ => 0

/-- One rotary frequency (R342). -/
def ropeFreq (rule base factor lo hi d i : Nat) : Nat :=
  let theta := ropeTheta base d i
  let scaled := (div64 true theta factor).1
  match rule with
  | 0 => theta
  | 1 => scaled
  | _ =>
    let lam := (div64 true twoPiHi theta).1
    let v := Fp.fp64.value
    if (v lam).le (v lo) then theta
    else if (v hi).le (v lam) then scaled
    else
      let gam := (div64 true (sub64 true hi lam).1 (sub64 true hi lo).1).1
      let one := 0x3FF0_0000_0000_0000
      let a := (div64 true (sub64 true one gam).1 factor).1
      (mul64 true theta (add64 true a gam).1).1

/-- The reduced angle of a position and frequency, in FP32, with the flags of its FP64 operations and of the conversion (R148, R342). -/
def ropeAngle (ieee : Bool) (pos w : Nat) : Rd :=
  let phi := mul64 ieee (Fp.fp64.round .rne true (.fin false pos 0)).1 w
  let t := mul64 ieee phi.1 invTwoPi
  let n := (Fp.fp64.value t.1).toInt
  let negN := (Fp.fp64.round .rne true (Num.ofInt (-n))).1
  let r := fma64 ieee negN twoPiHi phi.1
  let q := fma64 ieee negN twoPiLo r.1
  let a := Fp.fp32.round .rne ieee (Fp.fp64.value q.1)
  (a.1, (((phi.2.or t.2).or r.2).or q.2).or a.2)

/-- Rotation of one row of d FP32 elements at a position (R343): the new row and flags. -/
def rotateRow (v : Env) (freqs : List W64) (pos : Nat) (row : List Nat) : List Nat × Flags :=
  let h := row.length / 2
  let rs := (List.range h).map fun j =>
    let a := ropeAngle v.ieee pos (freqs[j]?.getD 0).toNat
    let c := v.fn 0x08 a.1
    let s := v.fn 0x07 a.1
    let x := row[j]?.getD 0
    let y := row[j + h]?.getD 0
    let xc := mul32 v.ieee x c.1
    let ys := mul32 v.ieee y s.1
    let yc := mul32 v.ieee y c.1
    let xs := mul32 v.ieee x s.1
    let p := sub32 v.ieee xc.1 ys.1
    let q := add32 v.ieee yc.1 xs.1
    (p.1, q.1, (((((((a.2.or c.2).or s.2).or xc.2).or ys.2).or yc.2).or xs.2).or p.2).or q.2)
  (rs.map (fun r => r.1) ++ rs.map (fun r => r.2.1), rs.foldl (fun a r => a.or r.2.2) {})

/-- A 256-bit sketch of an FP32 vector (R330, R362): bit k is the sign of row k of S times the vector, by FMA in ascending j. -/
def sketchOf (ieee : Bool) (s : List (BitVec 16)) (vec : List Nat) : BitVec 256 × Flags :=
  let d := vec.length
  (List.range 256).foldl (fun acc k =>
    let row := (s.drop (k * d)).take d
    let sum := (row.zip vec).foldl (fun (a : Rd) p =>
      let r := rnd .fp32 ieee ((Fp.bf16.read p.1.toNat).fma (v32 p.2) (v32 a.1))
      (r.1, a.2.or r.2)) (0, {})
    (if Num.zero.lt (v32 sum.1) then acc.1 ||| (1#256 <<< k) else acc.1, acc.2.or sum.2)) (0, {})

/-- Sum of FP32 vectors, element by element, in list order (R330, R362). -/
def vecSum (ieee : Bool) (d : Nat) (rows : List (List Nat)) : List Nat × Flags :=
  rows.foldl (fun (a : List Nat × Flags) r =>
    let ys := (a.1.zip r).map fun p => add32 ieee p.1 p.2
    (ys.map Prod.fst, ys.foldl (fun f y => f.or y.2) a.2)) (List.replicate d 0, {})

/-- Count of set bits. -/
def popcount {w : Nat} (x : BitVec w) : Nat := (List.range w).foldl (fun a i => a + bit (x.getLsbD i)) 0

/-! ### Token choice (R616) -/

/-- Ranking of R616: `a` ranks above `b`; a NaN ranks below every number, equal ranks go to the lower identifier. -/
def ranksAbove (a b : Nat × Nat) : Bool :=
  let x := v32 a.2
  let y := v32 b.2
  if x.isNan then y.isNan && decide (a.1 < b.1)
  else if y.isNan then true
  else if y.lt x then true
  else if x.lt y then false
  else decide (a.1 < b.1)

/-- Insert into a list kept in rank order. -/
def rankInsert (a : Nat × Nat) : List (Nat × Nat) → List (Nat × Nat)
  | [] => [a]
  | b :: bs => if ranksAbove a b then a :: b :: bs else b :: rankInsert a bs

/-- Tokens in rank order. -/
def rankSort : List (Nat × Nat) → List (Nat × Nat)
  | [] => []
  | a :: as => rankInsert a (rankSort as)

/-- Tokens kept with their running sums until the sum reaches TOP_P (R616 step 3). -/
def topP (ieee : Bool) (limit : Num) : Nat → List (Nat × Nat) → List (Nat × Nat) × Flags
  | _, [] => ([], {})
  | s, t :: ts =>
    let r := add32 ieee s t.2
    if limit.le (v32 r.1) then ([(t.1, r.1)], r.2)
    else
      let q := topP ieee limit r.1 ts
      ((t.1, r.1) :: q.1, r.2.or q.2)

/-- The token chosen (R616) with the flags of steps 1 to 3. -/
def chooseToken (v : Env) (logits : List Nat) (temp topPw : Nat) (topK seed pos : Nat) : Nat × Flags :=
  let greedy := (v32 temp).isZero
  let ls := if greedy then logits.map fun x => (x, ({} : Flags)) else logits.map fun x => div32 v.ieee x temp
  let fl1 := ls.foldl (fun a r => a.or r.2) ({} : Flags)
  let ids := (List.range ls.length).zip (ls.map Prod.fst)
  let order := rankSort ids
  if greedy then ((order.head?.map Prod.fst).getD 0, {})
  else
    let keep := if topK = 0 ∨ topK ≥ logits.length then order else order.take topK
    let kept := ids.filter fun t => keep.any fun u => u.1 == t.1
    let sm := softmax v (kept.map Prod.snd)
    let probs := rankSort ((kept.map Prod.fst).zip sm.1)
    let tp := topP v.ieee (v32 topPw) 0 probs
    let s := (tp.1.getLast?.map Prod.snd).getD 0
    let g := srSeed (BitVec.ofNat 64 seed ^^^ BitVec.ofNat 64 pos) 0 0 0
    let st := (srDraw g).1
    let u := Num.fin false ((st >>> 40).toNat) (-24)
    let lim := (u.mul (v32 s)).1
    let tok := match tp.1.find? (fun t => lim.lt (v32 t.2)) with
      | some t => t.1
      | none => (tp.1.getLast?.map Prod.fst).getD 0
    (tok, (fl1.or sm.2).or tp.2)

end Sys2Proof.Machine
end

