-- ==== Sys2Proof/Machine/Attention.lean ====
section
/-! DEFINITION. Attention arithmetic: scores, the blockwise fold, partial records and their merge (R345 to R357). -/

namespace Sys2Proof.Machine

/-- A query row's running maximum, sum and output (R349). -/
structure RowState where
  m : Nat := 0xFF80_0000
  l : Nat := 0
  o : List Nat := []
  deriving DecidableEq, Repr

/-- P's format and the exponent of s_P by value stream (R351). -/
def pFormat : Fp → Fp × Int
  | .e4m3 => (.e4m3, -8)
  | .e5m2 => (.e5m2, -15)
  | .e2m1 => (.e2m1, -2)
  | .bf16 => (.bf16, 0)
  | .fp16 => (.fp16, 0)
  | _ => (.fp32, 0)

/-- FP32 encoding of a power of two. -/
def pow2_32 (e : Int) : Nat := (Fp.fp32.round .rne true (.fin false 1 e)).1

/-- The drain of R125: RN(a × RN(s_A × s_B)), a zero of either sign as +0 (R146), so that fused and separate chains see the same value
(R204). -/
def drainScale (ieee : Bool) (a sA sB : Nat) : Rd :=
  let s := mul32 ieee sA sB
  let r := mul32 ieee a s.1
  (Fp.fp32.stored r.1, s.2.or r.2)

/-- A scaled score (R345): the drain followed by the ATT_SCALE chain step. -/
def score (ieee : Bool) (a sQ sK attScale : Nat) : Rd :=
  let d := drainScale ieee a sQ sK
  let r := mul32 ieee d.1 attScale
  (r.1, d.2.or r.2)

/-- Products padded with zeros to whole chunks (R154). -/
def padChunks (ps : List (Num × Num)) : List (Num × Num) := ps ++ List.replicate ((32 - ps.length % 32) % 32) (.zero, .zero)

/-- Dot product of two rows of exact values in reduction tiles of `kT` indices, ascending, into one accumulator (R153 step 7, R154, R156); one tile holds the whole
row where `kT` is 0. -/
def dotRows (strict ieee : Bool) (kT : Nat) (xs ys : List Num) : Rd :=
  let ps := xs.zip ys
  if kT = 0 then dot strict ieee 0 (padChunks ps)
  else
    (List.range (ceilDiv ps.length kT)).foldl (fun (a : Rd) i =>
      let r := dot strict ieee a.1 (padChunks ((ps.drop (i * kT)).take kT))
      (r.1, a.2.or r.2)) (0, {})

/-- Steps 1 to 3 of R350: the new maximum, α and the p_k; none when the block is skipped. -/
def foldWeights (v : Env) (m : Nat) (scores : List Nat) : Option (Nat × Rd × List Rd) :=
  let mb := max32 m (rowMax scores)
  if mb = negInf32 then none
  else
    let d := sub32 v.ieee m mb
    let a := v.exp d.1
    let ps := scores.map fun s =>
      let d := sub32 v.ieee s mb
      let e := v.exp d.1
      (e.1, d.2.or e.2)
    some (mb, (a.1, d.2.or a.2), ps)

/-- Step 6 of R350. -/
def foldUpdate (v : Env) (st : RowState) (mb alpha tb : Nat) (pv : List Nat) : RowState × Flags :=
  let l := fma32 v.ieee st.l alpha tb
  let os := (st.o.zip pv).map fun p => fma32 v.ieee p.1 alpha p.2
  (⟨mb, l.1, os.map Prod.fst⟩, os.foldl (fun a r => a.or r.2) l.2)

/-- Fold a page block into one row (R350, R351): `vals` holds one row of values per dimension, as the matrix unit takes them, and `kT` is the reduction tile of the
value product. -/
def foldPage (v : Env) (strict f19rne : Bool) (kT : Nat) (vf : Fp) (sV : Nat) (st : RowState) (scores : List Nat)
    (vals : List (List Num)) : RowState × Flags :=
  match foldWeights v st.m scores with
  | none => (st, {})
  | some (mb, alpha, ps) =>
    let pf := pFormat vf
    let conv := ps.map fun p => pf.1.convert .rne v.ieee ((v32 p.1).scale (-pf.2))
    let pnum := conv.map fun c => pf.1.read c.1
    let back := pnum.map fun x => (Fp.fp32.round .rne true (x.scale pf.2)).1
    let tb := rowSum false v.ieee back
    -- an FP32 operand pair enters the matrix unit as F19 (R120, R351); strict mode keeps FP32 (R157); `vals` are already so
    let f19 := if pf.1 = .fp32 ∧ ¬strict then pnum.map (Fp.f19.round (if f19rne then .rne else .trunc) v.ieee) else []
    let pop := if pf.1 = .fp32 ∧ ¬strict then f19.map fun r => Fp.f19.value r.1 else pnum
    let pv := vals.map fun row =>
      let a := dotRows strict v.ieee kT pop row
      let r := drainScale v.ieee a.1 (pow2_32 pf.2) sV
      (r.1, a.2.or r.2)
    let u := foldUpdate v st mb alpha.1 tb.1 (pv.map Prod.fst)
    let fl := (alpha.2.or tb.2).or u.2
    let fl := ps.foldl (fun a r => a.or r.2) fl
    let fl := conv.foldl (fun a r => a.or r.2) fl
    let fl := f19.foldl (fun a r => a.or r.2) fl
    (u.1, pv.foldl (fun a r => a.or r.2) fl)

/-- Fold a vector block into one row (R352): FP32 values, positions ascending; `vals` holds one row per position. -/
def foldVector (v : Env) (st : RowState) (scores : List Nat) (vals : List (List Nat)) : RowState × Flags :=
  match foldWeights v st.m scores with
  | none => (st, {})
  | some (mb, alpha, ps) =>
    let tb := ps.foldl (fun (a : Rd) p => addRd v.ieee a p) (0, {})
    let zero : List Rd := st.o.map fun _ => (0, {})
    let pv := (ps.zip vals).foldl (fun (acc : List Rd) pr =>
      (acc.zip pr.2).map fun q =>
        let r := fma32 v.ieee pr.1.1 q.2 q.1.1
        (r.1, q.1.2.or r.2)) zero
    let u := foldUpdate v st mb alpha.1 tb.1 (pv.map Prod.fst)
    (u.1, pv.foldl (fun a r => a.or r.2) ((alpha.2.or tb.2).or u.2))

/-- A dot product of a vector block: one FMA per element in ascending order (R352). -/
def fmaDot (ieee : Bool) (xs ys : List Num) : Rd :=
  (xs.zip ys).foldl (fun (a : Rd) p =>
    let r := rnd .fp32 ieee (p.1.fma p.2 (v32 a.1))
    (r.1, a.2.or r.2)) (0, {})

/-- The output of a row after the last fold (R353): O ÷ l, or +0 for a row with l = +0. -/
def rowOutput (ieee : Bool) (st : RowState) : List Rd :=
  if (v32 st.l).isZero then st.o.map fun _ => (0, {}) else st.o.map fun x => div32 ieee x st.l

/-- A partial record (R354). -/
structure Partial where
  firstPos : Nat
  keys     : Nat
  seq      : Nat
  layer    : Nat
  qhead    : Nat
  qpos     : Nat
  masked   : Bool
  empty    : Bool
  l        : Nat
  m        : Nat
  o        : List Nat
  deriving DecidableEq, Repr

/-- FMA(x, α, RN(y × β)) with its flags (R355). -/
def mergeTerm (ieee : Bool) (x al y be : Nat) : Rd :=
  let t := mul32 ieee y be
  let r := fma32 ieee x al t.1
  (r.1, t.2.or r.2)

/-- Merge of two partials, `a` on the left (R355), with the flags of its arithmetic. The row 'all' of the table is read as taking the other record
whole when one is EMPTY, its LOSS_MASKED too (DEDUCED, log 27). -/
def mergePartial (v : Env) (a b : Partial) : Partial × Flags :=
  if a.empty then (b, {})
  else if b.empty then (a, {})
  else
    let m := max32 a.m b.m
    let da := sub32 v.ieee a.m m
    let db := sub32 v.ieee b.m m
    let al := v.exp da.1
    let be := v.exp db.1
    let l := mergeTerm v.ieee a.l al.1 b.l be.1
    let os := (a.o.zip b.o).map fun p => mergeTerm v.ieee p.1 al.1 p.2 be.1
    ({ a with
       m := m, l := l.1, o := os.map Prod.fst, keys := a.keys + b.keys
       masked := a.masked || b.masked },
     os.foldl (fun f y => f.or y.2) ((((da.2.or db.2).or al.2).or be.2).or l.2))

/-- A partial from its words, 8 header words from bit 255 down and then O (R354). -/
def partialOf (ws : List W32) : Partial :=
  let w := fun (i : Nat) => (ws[i]?.getD (0 : W32))
  -- word i of the record is bytes 4i to 4i + 3, bits 32i + 31 : 32i of the 256-bit header
  let h : BitVec 256 := (List.range 8).foldl (fun acc i => acc ||| (BitVec.ofNat 256 (w i).toNat <<< (32 * i))) 0
  { firstPos := fld h 220 36, keys := fld h 184 36, seq := fld h 152 32, layer := fld h 144 8, qhead := fld h 136 8,
    qpos := fld h 120 16, masked := bitAt h 119, empty := bitAt h 118, l := fld h 32 32, m := fld h 0 32,
    o := (ws.drop 8).map BitVec.toNat }

/-- The words of a partial record; bits 117:64 are written as zero (R354). -/
def Partial.words (p : Partial) : List W32 :=
  let h : BitVec 256 := place 256 220 36 p.firstPos ||| place 256 184 36 p.keys ||| place 256 152 32 p.seq |||
    place 256 144 8 p.layer ||| place 256 136 8 p.qhead ||| place 256 120 16 p.qpos ||| place 256 119 1 (bit p.masked) |||
    place 256 118 1 (bit p.empty) ||| place 256 32 32 p.l ||| place 256 0 32 p.m
  ((List.range 8).map fun i => BitVec.ofNat 32 (fld h (32 * i) 32)) ++ p.o.map (BitVec.ofNat 32)

/-- The record as stage memory holds it: its FP32 values store zeros as +0 (R146). -/
def Partial.stored (p : Partial) : Partial := { p with m := Fp.fp32.stored p.m, l := Fp.fp32.stored p.l, o := p.o.map Fp.fp32.stored }

/-- The residue summary of a chunk (R534): position-weighted sum modulo the largest prime below 2^32. -/
def rsum (hdr : BitVec 256) (payload : List Byte) : Nat :=
  let ws := ((List.range 7).map fun i => fld hdr (224 - 32 * i) 32) ++ leWords 4 payload
  ((List.range ws.length).zip ws).foldl (fun a p => (a + (p.1 + 1) * p.2) % 4294967291) 0

/-- The residue of a number modulo 7, by its 3-bit digit groups (R536). -/
def residue7 (n : Nat) : Nat := n % 7

end Sys2Proof.Machine
end

