-- ==== Sys2Proof/Config.lean ====
section
/-! DEFINITION. What the spec fixes outside itself or leaves open: opaque values, with no body, that no proof can see.
Free values are functions of `State.freeIx`, a counter the step reads and advances (log 8). -/

namespace Sys2Proof.Config

/-- ML-DSA-87 verification under the vendor key in boot ROM with an empty context: message, signature (R638; log 9). -/
opaque vendorVerify : List Byte → List Byte → Bool

/-- The PUF secret K that the security block forms from the power-up pattern and the helper data (R660 step 1; log 9). -/
opaque pufSecret : List Byte → List Byte

/-- The ML-DSA-87 public key generated from ξ by the internal key generation of FIPS 204 (R660 step 4; log 9). -/
opaque mldsaPublicKey : List Byte → List Byte

/-- The ML-DSA-87 signature, with an empty context, by the key that ξ generates (R662; log 9). -/
opaque mldsaSign : List Byte → List Byte → List Byte

/-- Hamiltonian cycles 1 and above of a k-cube, held in the FIRMWARE section (R504; log 10): KIND, k and the cycle's
number to the order of coordinates. -/
opaque firmwareCycle : Bool → Nat → Nat → List Nat

/-- What a sender takes of a value that the spec leaves open, by the counter `State.freeIx` (log 8). -/
opaque freeWord : Nat → BitVec 64

/-- Byte values that the spec leaves open (log 8). -/
opaque freeByte : Nat → Byte

/-- The value that a snapshot holds for a counter whose count the model leaves out (log 8, 45): snapshot, counter address. -/
opaque freeCounter : Nat → Nat → BitVec 64

end Sys2Proof.Config
end

