-- ==== Sys2Proof/Machine/Hash.lean ====
section
/-! DEFINITION. The hash functions and checks that the spec names: SHA3-512 and SHAKE256 (FIPS 202, named by R320, R638,
R659; log 9), CRC-32C (R484) and the SMBus packet error code (R737; log 14). -/

namespace Sys2Proof.Machine

/-- Round constants of Keccak-f[1600] (FIPS 202). -/
def keccakRC : List W64 :=
  [0x0000000000000001, 0x0000000000008082, 0x800000000000808A, 0x8000000080008000, 0x000000000000808B,
   0x0000000080000001, 0x8000000080008081, 0x8000000000008009, 0x000000000000008A, 0x0000000000000088,
   0x0000000080008009, 0x000000008000000A] ++
  [0x000000008000808B, 0x800000000000008B, 0x8000000000008089, 0x8000000000008003, 0x8000000000008002,
   0x8000000000000080, 0x000000000000800A, 0x800000008000000A, 0x8000000080008081, 0x8000000000008080,
   0x0000000080000001, 0x8000000080008008]

/-- Rotation offsets by lane x + 5y (FIPS 202). -/
def keccakRot : List Nat :=
  [0, 1, 62, 28, 27, 36, 44, 6, 55, 20, 3, 10, 43, 25, 39, 41, 45, 15, 21, 8, 18, 2, 61, 56, 14]

/-- Lane x + 5y of the state. -/
def lane (a : List W64) (x y : Nat) : W64 := a[x % 5 + 5 * (y % 5)]?.getD 0

/-- One round: θ, ρ, π, χ and ι. -/
def keccakRound (rc : W64) (a : List W64) : List W64 :=
  let col := (List.range 5).map fun x => lane a x 0 ^^^ lane a x 1 ^^^ lane a x 2 ^^^ lane a x 3 ^^^ lane a x 4
  let cv := fun (k : Nat) => (col[k % 5]?.getD (0 : W64))
  let d := (List.range 5).map fun x => cv (x + 4) ^^^ (cv (x + 1)).rotateLeft 1
  let t := (List.range 25).map fun i => (a[i]?.getD 0) ^^^ (d[i % 5]?.getD 0)
  -- ρ and π: lane (x, y) moves to (y, 2x + 3y)
  let b := (List.range 25).map fun i =>
    let x' := i % 5
    let y' := i / 5
    -- source (x, y) with y = x' and 2x + 3y = y'
    let x := (x' + 3 * y') % 5
    let j := x + 5 * x'
    (t[j]?.getD 0).rotateLeft (keccakRot[j]?.getD 0)
  let e := (List.range 25).map fun i =>
    let x := i % 5
    let y := i / 5
    lane b x y ^^^ (~~~(lane b (x + 1) y) &&& lane b (x + 2) y)
  match e with
  | h :: r => (h ^^^ rc) :: r
  | [] => []

/-- Keccak-f[1600]. -/
def keccakF (a : List W64) : List W64 := keccakRC.foldl (fun s rc => keccakRound rc s) a

/-- Absorb one block of `rate` bytes. -/
def keccakAbsorb (rate : Nat) (s : List W64) (block : List Byte) : List W64 :=
  let ws := (leWords 8 block).map (BitVec.ofNat 64)
  keccakF ((List.range 25).map fun i => (s[i]?.getD 0) ^^^ (if i < rate / 8 then ws[i]?.getD 0 else 0))

/-- The padded message: suffix bits, then 10*1. -/
def keccakPad (rate suffix : Nat) (msg : List Byte) : List Byte :=
  let n := rate - msg.length % rate
  if n = 1 then msg ++ [BitVec.ofNat 8 (suffix + 0x80)]
  else msg ++ BitVec.ofNat 8 suffix :: List.replicate (n - 2) 0 ++ [0x80]

/-- Absorb all blocks. -/
def keccakBlocks (rate : Nat) : Nat → List Byte → List W64 → List W64
  | 0, _, s => s
  | n + 1, m, s => keccakBlocks rate n (m.drop rate) (keccakAbsorb rate s (m.take rate))

/-- The sponge with at most `rate` bytes of output. -/
def sponge (rate suffix out : Nat) (msg : List Byte) : List Byte :=
  let m := keccakPad rate suffix msg
  let s := keccakBlocks rate (m.length / rate) m (List.replicate 25 0)
  ((s.map fun w => leBytes 8 w.toNat).flatten).take out

/-- SHA3-512 (FIPS 202). -/
def sha3_512 (msg : List Byte) : List Byte := sponge 72 0x06 64 msg

/-- The first `n` bytes, at most 136, of SHAKE256 (FIPS 202). -/
def shake256 (n : Nat) (msg : List Byte) : List Byte := sponge 136 0x1F n msg

/-- One byte into a reflected CRC-32C register (R484). -/
def crc32cByte (c : W32) (b : Byte) : W32 :=
  (List.range 8).foldl (fun (r : W32) _ => if r.getLsbD 0 then (r >>> 1) ^^^ 0x82F63B78 else r >>> 1)
    (c ^^^ BitVec.ofNat 32 b.toNat)

/-- CRC-32C: polynomial 0x1EDC_6F41 reflected, initial value and final exclusive-or all ones (R484). -/
def crc32c (bs : List Byte) : W32 := (bs.foldl crc32cByte 0xFFFFFFFF) ^^^ 0xFFFFFFFF

/-- The SMBus packet error code: CRC-8 with polynomial 0x07 over address, command and data (R737; log 14). -/
def smbusPec (bs : List Byte) : Byte :=
  bs.foldl (fun c b =>
    (List.range 8).foldl (fun (r : Byte) _ => if r.getLsbD 7 then (r <<< 1) ^^^ 0x07 else r <<< 1) (c ^^^ b)) 0

end Sys2Proof.Machine
end

