-- ==== Sys2Proof/Machine/Ops.lean ====
section
/-! DEFINITION. The operations that the meanings share: the parts a variant has, counters (R701 to R707), free values,
host memory and queues (R597 to R605, R609, R610), module state, reset and power (R627, R628, R671, R732). -/

namespace Sys2Proof.Machine

/-- What a meaning answers. -/
abbrev Out := Host.Outcome State Fault Refusal

/-- Run `f` when the condition holds; a command whose conditions do not hold is consumed without effect (log 4). -/
def when (c : Bool) (s : State) (f : State) : Out := .next (if c then f else s)

/-- Stop on a part that the module does not have. -/
def needPart (c : Bool) (kind : String) (f : Out) : Out := if c then f else .fault (.absentPart kind)

/-! ### Parts (R7, R22, R25, R26) -/

/-- Compute dies of a variant (R7). -/
def Variant.dies : Variant → Nat
  | .zf2 => 2 | .zf4 => 4 | .zf8 => 8

/-- The two-bit VARIANT code (R590). -/
def Variant.code : Variant → Nat
  | .zf2 => 1 | .zf4 => 2 | .zf8 => 3

/-- Compute dies of this module. -/
def State.nDies (s : State) : Nat := s.ident.variant.dies

/-- HBM stacks of this module, four to a die (R7). -/
def State.nStacks (s : State) : Nat := 4 * s.nDies

/-- The number of core `core` of die `die` among all cores. -/
def coreNo (die core : Nat) : Nat := die * 128 + core

/-- The number of stand `st` of die `die` among all stands. -/
def standNo (die st : Nat) : Nat := die * 16 + st

/-- The module has the die. -/
def State.hasDie (s : State) (die : Nat) : Bool := decide (die < s.nDies)

/-- The module has the core (R165). -/
def State.hasCore (s : State) (die core : Nat) : Bool := s.hasDie die && decide (core < 128)

/-- The module has the HBM stack. -/
def State.hasStack (s : State) (n : Nat) : Bool := decide (n < s.nStacks)

def State.die (s : State) (d : Nat) : Die := Sparse.get {} s.dies d
def State.setDie (s : State) (d : Nat) (x : Die) : State := { s with dies := Sparse.set {} s.dies d x }
def State.core (s : State) (c : Nat) : Core := Sparse.get {} s.cores c
def State.setCore (s : State) (c : Nat) (x : Core) : State := { s with cores := Sparse.set {} s.cores c x }
def State.stand (s : State) (n : Nat) : Stand := Sparse.get {} s.stands n
def State.setStand (s : State) (n : Nat) (x : Stand) : State := { s with stands := Sparse.set {} s.stands n x }
def State.port (s : State) (n : Nat) : LinkPort := Sparse.get {} s.ports n
def State.setPort (s : State) (n : Nat) (x : LinkPort) : State := { s with ports := Sparse.set {} s.ports n x }

/-! ### Counters (R701 to R707) -/

/-- A counter address (R703). -/
def ctrAddr (dom cls index : Nat) : Nat := dom <<< 18 ||| cls <<< 14 ||| index

/-- Add `n` to a counter, modulo 2^64 (R701). -/
def State.count (s : State) (dom cls index : Nat) (n : Nat := 1) : State :=
  { s with ctr := { s.ctr with live := Sparse.upd 0 s.ctr.live (ctrAddr dom cls index) (· + BitVec.ofNat 64 n) } }

/-- A hub counter (DOMAIN 0x8, R703). -/
def State.hubCount (s : State) (cls index : Nat) (n : Nat := 1) : State := s.count 8 cls index n

/-- A CREW counter (R707). -/
def State.crewCount (s : State) (index : Nat) (n : Nat := 1) : State := s.hubCount 4 index n

/-- A PCIE counter (R705). -/
def State.pcieCount (s : State) (port index : Nat) (n : Nat := 1) : State := s.hubCount 2 (port * 128 + index) n

/-- A LINK_PORT counter (R705). -/
def State.linkCount (s : State) (port index : Nat) (n : Nat := 1) : State := s.hubCount 1 (port * 256 + index) n

/-- Bin of a histogram with four bins per octave from base `b` (R703), of `bins` bins. Bin k starts at b × 2^((k − 1) ÷ 4), compared
on fourth powers. -/
def histBin (b bins v : Nat) : Nat :=
  ((List.range bins).filter fun k => decide (k = 0 ∨ b ^ 4 * 2 ^ (k - 1) ≤ v ^ 4)).length - 1

/-- Number of instances, events and stride of a counter class (R704, R705); none for an unlisted one. -/
def ctrClass (hub : Bool) (cls : Nat) : Option (Nat × Nat × Nat) :=
  if hub then
    ([(8, 64, 64), (12, 256, 256), (2, 128, 128), (32, 32, 32), (1, 256, 256)] ++
     [(256, 1, 1), (1, 393, 393), (1, 111, 111), (16, 16, 16), (1, 8, 8)])[cls]?
  else
    ([(128, 16, 16), (128, 96, 128), (256, 32, 32), (128, 16, 16), (128, 80, 128), (64, 16, 16)] ++
     [(16, 32, 32), (4, 208, 256), (512, 4, 4), (3, 64, 64), (1, 261, 261), (1, 1275, 1275)])[cls]?

/-- Whether a 32-bit address holds a counter (R703). -/
def State.hasCounter (s : State) (a : Nat) : Bool :=
  let dom := (a >>> 18) % 16
  let cls := (a >>> 14) % 16
  let index := a % 2 ^ 14
  decide (a < 2 ^ 22) && (dom == 8 || s.hasDie dom) &&
    match ctrClass (dom == 8) cls with
    | none => false
    | some (inst, ev, stride) => decide (index / stride < inst ∧ index % stride < ev)

/-! ### Free values (log 8) -/

/-- A free 64-bit value; the counter advances. -/
def State.freeWord (s : State) : W64 × State := (Config.freeWord s.freeIx, { s with freeIx := s.freeIx + 1 })

/-- `n` free bytes; the counter advances. -/
def State.freeBytes (s : State) (n : Nat) : List Byte × State :=
  ((List.range n).map fun i => Config.freeByte (s.freeIx + i), { s with freeIx := s.freeIx + n })

/-- NOR bytes that a write in progress, or one that failed its read-back, leaves in its range: not stated, so free (R666). -/
def State.norScramble (s : State) (off n : Nat) : State :=
  let r := s.freeBytes n
  { r.2 with nor := norWrite r.2.nor off r.1 }

/-! ### Module status -/

/-- STATE code of HUB_STATUS (R591); OFF is not reported there. -/
def ModState.code : ModState → Nat
  | .rom => 0 | .load => 1 | .verify => 2 | .train => 3 | .join => 4 | .run => 5 | .fault => 6 | .drain => 7 | .off => 0

/-- MEMBER: the module is a crew member in RUN (R590). -/
def State.isMember (s : State) : Bool := s.crew.member && s.sys.state == .run

/-- A member that takes part in ticks. -/
def State.ticking (s : State) : Bool := s.crew.member && (s.sys.state == .run || s.sys.state == .drain) && !s.sys.departed

/-- The mailbox is served in FAULT and in a held ROM (R667). -/
def State.serving (s : State) : Bool := s.sys.state == .fault || (s.sys.state == .rom && s.smb.romHold)

/-- ATTN_N is driven low in FAULT, and in DRAIN after the departure commit (R674). -/
def State.attnLow (s : State) : Bool := s.sys.state == .fault || (s.sys.state == .drain && s.sys.departed)

/-! ### Profile fields (R572) -/

def State.tickPeriod (s : State) : Nat := fld s.profile 107 21
def State.catchup (s : State) : Nat := fld s.profile 102 5
def State.lagLimit (s : State) : Nat := fld s.profile 95 7
def State.wwin (s : State) : Nat := fld s.profile 92 3
def State.num (s : State) : Bool := bitAt s.profile 91
def State.ovf (s : State) : Bool := bitAt s.profile 90
def State.f19Rnd (s : State) : Bool := bitAt s.profile 89
def State.rnd (s : State) : Nat := fld s.profile 87 2
def State.kvLoss (s : State) : Bool := bitAt s.profile 86
def State.repro (s : State) : Bool := bitAt s.profile 85
def State.retMode (s : State) : Bool := bitAt s.profile 84
def State.retTop (s : State) : Nat := fld s.profile 69 15
def State.retWin (s : State) : Nat := fld s.profile 56 13
def State.retSink (s : State) : Nat := fld s.profile 49 7

/-- The short period S (R55), 10 ns units. -/
def State.shortPeriod (s : State) : Nat := s.tickPeriod * (32 - s.catchup) / 32

/-- The commit latency C that the Forester plans with: the largest of the last 16 (R555). -/
def State.latencyC (s : State) : Nat := (s.tick.cHist.take 16).foldl max 0

/-- The work budget S − C (R72). -/
def State.budget (s : State) : Nat := s.shortPeriod - s.latencyC

/-- SR_SEED (R645). -/
def State.srSeedImage (s : State) : W64 := BitVec.ofNat 64 (fld s.img.profile 192 64)

/-! ### Model descriptor fields (R639) -/

def State.layers (s : State) : Nat := fld s.img.model 1008 16
def State.width (s : State) : Nat := fld s.img.model 976 32
def State.qHeads (s : State) : Nat := fld s.img.model 960 16
def State.kvHeads (s : State) : Nat := fld s.img.model 944 16
def State.headDim (s : State) : Nat := fld s.img.model 928 16
def State.group (s : State) : Nat := fld s.img.model 920 8
def State.ffHidden (s : State) : Nat := fld s.img.model 888 32
def State.vocab (s : State) : Nat := fld s.img.model 856 32
def State.normKind (s : State) : Nat := fld s.img.model 848 8
def State.ropeRule (s : State) : Nat := fld s.img.model 840 8
def State.normEps (s : State) : Nat := fld s.img.model 800 32
def State.attScale (s : State) : Nat := fld s.img.model 512 32

/-- The stream byte of stream `i` (R640). -/
def State.streamByte (s : State) (i : Nat) : Nat := fld s.img.model (448 + 8 * i) 8

/-- FMT and BLK of a stream (R118, R640). -/
def State.streamFmt (s : State) (i : Nat) : Nat × Nat := (s.streamByte i / 16, s.streamByte i % 4)

/-- Element width in bits of a format code (R112, R118). -/
def fmtBits (fmt : Nat) : Nat :=
  if fmt = 0 then 32 else if fmt = 1 ∨ fmt = 2 then 16 else if fmt = 3 ∨ fmt = 4 then 8 else if fmt = 5 then 4 else 64

/-- Positions per page P (R279), from the key stream's element width. -/
def State.pagePositions (s : State) : Nat :=
  if s.headDim = 0 then 0 else 16384 * 8 / (2 * s.headDim * fmtBits (s.streamFmt 2).1)

/-- The virtual page of position `pos`, layer and head (R280). -/
def State.pageOf (s : State) (pos layer head : Nat) : Nat :=
  ((pos / s.pagePositions) * s.layers + layer) * s.kvHeads + head

/-- The run, layer and head of a virtual page (R280). -/
def State.runOf (s : State) (v : Nat) : Nat := v / (s.layers * s.kvHeads)
def State.layerOf (s : State) (v : Nat) : Nat := v / s.kvHeads % s.layers
def State.headOf (s : State) (v : Nat) : Nat := v % s.kvHeads

/-- Pages of one run. -/
def State.runPages (s : State) : Nat := s.layers * s.kvHeads

/-! ### Host interface -/

def State.hostPort (s : State) (p : Nat) : HostPort := if p = 0 then s.host.port0 else s.host.port1

def State.setHostPort (s : State) (p : Nat) (x : HostPort) : State :=
  if p = 0 then { s with host := { s.host with port0 := x } } else { s with host := { s.host with port1 := x } }

/-- The port that owns a queue: queues below Q0 belong to port 0 (R590, R597). -/
def State.ownerPort (s : State) (qid : Nat) : Nat := if qid < s.img.q0 then 0 else 1

def State.queue (s : State) (q : Nat) : Queue := Sparse.get {} s.host.queues q

def State.setQueue (s : State) (q : Nat) (x : Queue) : State :=
  { s with host := { s.host with queues := Sparse.set {} s.host.queues q x } }

/-- The lot of a queue (R414). -/
def State.lotOf (s : State) (q : Nat) : Nat := Sparse.get 0 s.host.queueLot q

/-- Set a bit of a port's HOST_ERR and count it (R595, R705 events 17 to 22). -/
def State.hostErr (s : State) (p b : Nat) : State :=
  let hp := s.hostPort p
  (s.setHostPort p { hp with hostErr := putFld hp.hostErr b 1 1 }).pcieCount p (17 + b)

/-- Host memory of a port, keyed port × 2^64 + address (log 5). -/
def hostKey (p a : Nat) : Nat := p * 2 ^ 64 + a % 2 ^ 64

/-- Write bytes to the memory of a port's host. -/
def State.hostWrite (s : State) (p a : Nat) (bs : List Byte) : State :=
  ({ s with host := { s.host with mem := Mem.write s.host.mem (hostKey p a) bs } }).pcieCount p 16 bs.length

/-- Free entries of a completion ring (R603). -/
def Queue.freeEntries (q : Queue) : Nat :=
  let d := q.cqSize.toNat + 1
  q.cqSize.toNat - (q.cqTail + d - q.cqHead % d) % d

/-- Entries waiting in a submission ring (R603). -/
def Queue.waiting (q : Queue) : Nat :=
  let d := q.sqSize.toNat + 1
  (q.sqTail + d - q.sqHead % d) % d

/-- Entries that a queue's next fetch may take (R601, R603, R605). -/
def Queue.fetchable (q : Queue) : Nat :=
  if q.enable && !q.stopping && !q.error then min q.waiting (q.freeEntries - q.outstanding) else 0

/-- A completion entry (R609). -/
def completionEntry (tick : Nat) (r : Req) (q : Queue) : BitVec 256 :=
  place 256 192 64 tick ||| place 256 160 32 r.result0.toNat ||| place 256 128 32 r.result1.toNat |||
  place 256 112 16 q.sqHead ||| place 256 96 13 r.qid ||| place 256 80 16 r.status.toNat ||| place 256 64 16 r.cid.toNat |||
  place 256 4 1 (bit r.lossMasked) ||| place 256 3 1 (bit r.underflow) ||| place 256 2 1 (bit r.overflow) |||
  place 256 1 1 (bit r.invalid) ||| place 256 0 1 (bit q.cqPhase)

/-- The completion that a queue takes for one command: the entry is placed at CQ_TAIL unless its write fails, and OUTSTANDING
falls either way (R605, R609). A queue whose ENABLE was cleared reads 0 after its last one (R601). -/
def Queue.complete (q : Queue) (ok : Bool) : Queue :=
  let last := q.cqTail + 1 > q.cqSize.toNat
  let q := if ok then { q with cqTail := if last then 0 else q.cqTail + 1,
                               cqPhase := if last then !q.cqPhase else q.cqPhase }
           else { q with error := true }
  let q := { q with outstanding := q.outstanding - 1 }
  if q.stopping && q.outstanding == 0 then { q with enable := false, stopping := false } else q

/-- The index of the LOT counter a completion adds to (R704 class 0x2, events 24 to 31). -/
def lotStatusEvent (r : Req) : Nat :=
  let n := r.status.toNat
  if n = 0 then (if r.lossMasked then 30 else 24) else if n = 1 then 25
  else if 0x100 ≤ n ∧ n ≤ 0x106 then 26 else if n = 9 then 27 else if n = 10 then 28
  else if n = 11 then 29 else 31

/-- Write one command's completion (R605, R609). `ok` is false when the write ends in a PCIe error. A completion that the device has
discarded (R587) is not written. -/
def State.writeCompletion (s : State) (tick : Nat) (ok : Bool) (r : Req) : State :=
  if !r.owed then s
  else
    let q := s.queue r.qid
    let a := q.cqBase.toNat * 4096 + 32 * q.cqTail
    let e := completionEntry tick r q
    let s := s.setQueue r.qid (q.complete ok)
    if ok then
      (s.hostWrite r.port a (leBytes 32 e.toNat)).pcieCount r.port 12
    else s.hostErr r.port 4

/-- A pulse of a test-multiplexer selection (R717). -/
def State.pulse (s : State) (sel : Nat) : State :=
  { s with ctr := { s.ctr with pulses := Sparse.set 0 s.ctr.pulses sel (Sparse.get 0 s.ctr.pulses sel + 1) } }

/-- An MSI-X message to a port, subject to the mask bit of its table entry: bit 96 is the vector control mask (R583, R610; log 14). A
masked vector sets its pending bit. -/
def State.sendMsix (s : State) (p v : Nat) : State :=
  let e := Sparse.get (BitVec.ofNat 128 (2 ^ 96)) s.host.msixTable (p * 2048 + v)
  if bitAt e 96 then
    { s with host := { s.host with msixPba := Sparse.set false s.host.msixPba (p * 2048 + v) true } }
  else
    ({ s with host := { s.host with msix := s.host.msix ++ [(p, v)],
                                    msixPba := Sparse.set false s.host.msixPba (p * 2048 + v) false } }).pcieCount p 14 |>.pulse (0x84 + p)

/-- The messages of one commit: each port's vectors once, in ascending number (R610). -/
def State.sendMessages (s : State) (vs : List (Nat × Nat)) : State :=
  let keys := (List.range 2).flatMap fun p => ((List.range 2048).filter fun v => vs.contains (p, v)).map fun v => (p, v)
  keys.foldl (fun s pv => s.sendMsix pv.1 pv.2) s

/-- Disable every queue of a port and discard the completions owed to it (R587): its requests that can be aborted are marked. -/
def State.portReset (s : State) (p : Nat) : State :=
  let s := { s with host := { s.host with queues := Sparse.mapVals {} (fun q x =>
    if s.ownerPort q = p then { x with enable := false, stopping := false, outstanding := 0 } else x) s.host.queues } }
  { s with reqs := s.reqs.map fun r =>
      if r.port = p ∧ r.stage ≠ .done then
        { r with owed := false,
                 aborted := r.aborted || (r.opcode == 2 || r.opcode == 3 || r.opcode == 4 || r.opcode == 0xC) } else r }

/-! ### Requests -/

def State.req (s : State) (rid : Nat) : Option Req := s.reqs.find? fun r => r.rid == rid

def State.updReq (s : State) (rid : Nat) (f : Req → Req) : State :=
  { s with reqs := s.reqs.map fun r => if r.rid = rid then f r else r }

def State.updReqs (s : State) (f : Req → Req) : State := { s with reqs := s.reqs.map f }

/-- An outstanding request: fetched and not completed (R625). -/
def Req.live (r : Req) : Bool := r.stage != .done

/-- The command occupies the merge (R604). -/
def Req.inMerge (r : Req) : Bool := r.stage == .merge || r.stage == .next || r.stage == .staged || r.stage == .held

/-- Requests that an abort may end (R625). -/
def Req.abortable (r : Req) : Bool := r.opcode == 2 || r.opcode == 3 || r.opcode == 4 || r.opcode == 0xC

/-- A request that ends with a status at the commit of the tick in flight. -/
def Req.fail (r : Req) (status : Nat) : Req := { r with stage := .finishing, status := BitVec.ofNat 16 status }

/-- Work commands on a handle: APPEND and GENERATE (R615). -/
def Req.isWork (r : Req) : Bool := r.opcode == 2 || r.opcode == 3

/-! ### Sequences -/

/-- The live sequence of a handle (R613); a sequence whose CLOSE has applied is no longer live. -/
def State.seq (s : State) (h : W32) : Option Seq := s.seqs.find? fun q => q.handle == h && !q.closing

def State.updSeq (s : State) (h : W32) (f : Seq → Seq) : State :=
  { s with seqs := s.seqs.map fun q => if q.handle = h ∧ !q.closing then f q else q }

/-- The value of an absent leaf entry: TIER INVALID, everything else zero (R284). -/
def noEntry : W64 := 0xC000_0000_0000_0000

/-! ### Page-list trees (R291 to R294) -/

/-- TIER and FRAME of an entry (R284). -/
def leafTier (e : W64) : Nat := fld e 62 2
def leafFrame (e : W64) : Nat := fld e 0 40

/-- Index of page `v` in its node at level `n`, 0 being the leaf level (R291). -/
def pageIndex (v n : Nat) : Nat := v / 2048 ^ n % 2048

/-- The least number of levels, 1 to 5, whose tree reaches every page (R291). -/
def pageLevels (vpages : Nat) : Nat := (((List.range 5).find? fun n => decide (vpages ≤ 2048 ^ (n + 1))).getD 4) + 1

/-- A node of the tree. -/
def Seq.pageNode (q : Seq) (f : Nat) : PageNode := Sparse.get {} q.nodes f

/-- The child that an interior entry names (R291). -/
def childOf (e : W64) : Option Nat := if leafTier e = 0 then some (leafFrame e) else none

/-- The root that CUR selects (R292). -/
def Seq.curRoot (q : Seq) : Option Nat := if q.cur then q.root1 else q.root0

/-- The leaf entry of page `v` below a node of level `n`: INVALID where no page exists, or where the node cannot be read. -/
def Seq.descend (q : Seq) (v : Nat) : Nat → Option Nat → W64
  | _, none => noEntry
  | 0, some f => if (q.pageNode f).bad then noEntry else Sparse.get noEntry (q.pageNode f).entries (pageIndex v 0)
  | n + 1, some f =>
    if (q.pageNode f).bad then noEntry
    else q.descend v n (childOf (Sparse.get noEntry (q.pageNode f).entries (pageIndex v (n + 1))))

/-- The entry of a page below a root; a page outside the virtual region has none (R278, R285). -/
def Seq.entryAt (q : Seq) (root : Option Nat) (v : Nat) : W64 := if v < q.vpages then q.descend v (q.levels - 1) root else noEntry

/-- The committed leaf entry of a page (R292). -/
def Seq.entry (q : Seq) (v : Nat) : W64 := q.entryAt q.curRoot v

/-- The way down to page `v` passes the node at frame `f`. -/
def Seq.passes (q : Seq) (f v : Nat) : Nat → Option Nat → Bool
  | _, none => false
  | 0, some g => g == f
  | n + 1, some g => g == f || q.passes f v n (childOf (Sparse.get noEntry (q.pageNode g).entries (pageIndex v (n + 1))))

/-- Leaf entries below a node of level `n` whose pages begin at `base`, in ascending page. -/
def Seq.leavesOf (q : Seq) : Nat → Nat → Option Nat → Sparse W64
  | _, _, none => []
  | 0, base, some f => if (q.pageNode f).bad then [] else (q.pageNode f).entries.map fun e => (base * 2048 + e.1, e.2)
  | n + 1, base, some f =>
    if (q.pageNode f).bad then [] else (q.pageNode f).entries.flatMap fun e => q.leavesOf n (base * 2048 + e.1) (childOf e.2)

/-- The leaf entries of a root's tree, in ascending page. -/
def Seq.leaves (q : Seq) (root : Option Nat) : Sparse W64 := q.leavesOf (q.levels - 1) 0 root

/-- The committed leaf entries (R292). -/
def Seq.root (q : Seq) : Sparse W64 := q.leaves q.curRoot

/-- The root that edits of tick `t` have built, or the committed one (R293). -/
def Seq.rootNow (q : Seq) (t : Nat) : Option Nat := if q.stageTick = t then q.stageRoot.orElse fun _ => q.curRoot else q.curRoot

/-- The staged or committed entry of a page. -/
def Seq.entryNow (q : Seq) (t v : Nat) : W64 := q.entryAt (q.rootNow t) v

/-- Nodes under edit: the store, fresh frames of the reserve, and the nodes replaced. -/
structure PageEdit where
  nodes   : Sparse PageNode
  fresh   : List Nat
  dropped : List Nat

/-- A STAGED node in place of `id`: itself when STAGED, else a copy in a fresh frame, or an empty node where the tree has none (R293). -/
def PageEdit.own (w : PageEdit) (id : Option Nat) : Nat × PageEdit :=
  let g := w.fresh.headD 0
  match id with
  | some f =>
    let n := Sparse.get {} w.nodes f
    if n.staged then (f, w)
    else (g, { nodes := Sparse.set {} w.nodes g { live := true, staged := true, entries := if n.bad then [] else n.entries }
               fresh := w.fresh.drop 1, dropped := w.dropped ++ [f] })
  | none => (g, { w with nodes := Sparse.set {} w.nodes g { live := true, staged := true }, fresh := w.fresh.drop 1 })

/-- Write one entry of a node. -/
def PageEdit.put (w : PageEdit) (f i : Nat) (e : W64) : PageEdit :=
  { w with nodes := Sparse.upd {} w.nodes f fun n => { n with entries := Sparse.set noEntry n.entries i e } }

/-- Set the leaf entry of page `v` below a node of level `n`; the answer is the STAGED node that stands in its place (R293). -/
def PageEdit.down (v : Nat) (e : W64) : Nat → Option Nat → PageEdit → Nat × PageEdit
  | 0, id, w =>
    let r := w.own id
    (r.1, r.2.put r.1 (pageIndex v 0) e)
  | n + 1, id, w =>
    let r := w.own id
    let c := PageEdit.down v e n (childOf (Sparse.get noEntry (Sparse.get {} r.2.nodes r.1).entries (pageIndex v (n + 1)))) r.2
    (r.1, c.2.put r.1 (pageIndex v (n + 1)) (BitVec.ofNat 64 c.1))

/-- Stage one leaf entry in tick `t`, with fresh frames of the reserve for the nodes it copies (R293). A page outside the region is never staged
(R278). -/
def Seq.stageEdit (q : Seq) (t v : Nat) (e : W64) (fresh : List Nat) : Seq :=
  if q.vpages ≤ v then q
  else
    let r := PageEdit.down v e (q.levels - 1) (q.rootNow t) { nodes := q.nodes, fresh := fresh, dropped := if q.stageTick = t then q.dropped else [] }
    { q with nodes := r.2.nodes, stageRoot := some r.1, stageTick := t, dropped := r.2.dropped }

/-- Step 1: the staged root becomes the committed one (R293). -/
def Seq.commitRoot (q : Seq) (t : Nat) : Seq :=
  match q.stageRoot with
  | some r =>
    if q.stageTick = t then
      { q with root0 := if q.cur then some r else q.root0, root1 := if q.cur then q.root1 else some r, cur := !q.cur, stageRoot := none
               nodes := Sparse.mapVals {} (fun _ n => { n with staged := false }) q.nodes }
    else { q with stageRoot := none }
  | none => q

/-- Step 2: the nodes replaced at step 1 return to the reserve (R293). -/
def Seq.releaseNodes (q : Seq) : Seq := { q with nodes := Sparse.keep (fun f => !q.dropped.contains f) q.nodes, dropped := [] }

/-- Discard the stage (R294): the STAGED nodes return to the reserve. -/
def Seq.dropStage (q : Seq) : Seq :=
  { q with nodes := q.nodes.filter (fun e => !e.2.staged), dropped := [], stageRoot := none, logStaged := [], kvStaged := q.kvLen }

/-- Frames of a stack outside the module reserve of 896 MiB (R32), the reserve taken as its highest-numbered ones (log 13). -/
def userFrames : Nat := 2 ^ 22 - 57344

/-- Frame `i` of the module reserve, counted over the stacks in turn (log 12). -/
def State.reserveFrame (s : State) (i : Nat) : Nat := i % s.nStacks * 2 ^ 22 + userFrames + i / s.nStacks

/-- Frames of the reserve that hold a page-list node or a prefix-tree node (R291, R321). -/
def State.reserveUsed (s : State) : List Nat := s.seqs.flatMap (fun q => q.nodes.map Prod.fst) ++ s.nodes.map (·.frame) ++ s.hbm.retired

/-- The first `k` free frames of the reserve (log 12). -/
def State.freshReserve (s : State) (k : Nat) : List Nat :=
  let used := s.reserveUsed
  (((List.range (used.length + k)).map s.reserveFrame).filter fun f => !used.contains f).take k

/-- Stage one leaf entry of a sequence in tick `t` (R293). -/
def State.stageEdit (s : State) (t : Nat) (h : W32) (v : Nat) (e : W64) : State :=
  let fresh := s.freshReserve 5
  s.updSeq h fun q => q.stageEdit t v e fresh

/-- VPAGES of a sequence (R278). -/
def State.vpagesOf (s : State) (lMax : Nat) : Nat :=
  if s.pagePositions = 0 then 0 else (lMax + s.pagePositions - 1) / s.pagePositions * s.runPages

/-! ### Power, reset and leaving a crew -/

/-- A port of which nothing is left but the level of its PERSTn_N. -/
def HostPort.pins (p : HostPort) : HostPort := { perstN := p.perstN }

/-- The rate and width that a port's link negotiates, Gen 1 to 6 and ×8, ×4, ×2 or ×1: free values (R582; log 47). -/
def linkStatus (w : W64) : Nat × Nat := (1 + w.toNat % 6, 2 ^ (w.toNat / 6 % 4))

/-- A port leaves reset when PERSTn_N is high and the main domain is on: it answers configuration requests, at first with retry status, and its Link
Status reports what the link has negotiated (R582, R584, R731). -/
def State.answerPort (s : State) (port : Nat) : State :=
  let p := s.hostPort port
  if s.pwr.main = .on ∧ p.link = .inReset ∧ p.perstN = true then
    let w := s.freeWord
    let l := linkStatus w.1
    w.2.setHostPort port { p with link := if s.sys.state = .rom then .retry else .answering, rate := l.1, width := l.2 }
  else s

/-- Everything that a reset of the main domain clears (R628): SRAM, HBM, Landing, reduction memory, queues and BAR0 registers. Identity,
supply, SMBus registers, the NOR, the flash tier with its weights and indexes, counters and the JTAG chain stay. -/
def State.clearModule (s : State) : State :=
  { ident := s.ident, pwr := s.pwr, smb := s.smb, nor := s.nor,
    flash := { s.flash with halfRate := false, queue := [], cleaning := [], cleaned := [], spilling := [] },
    wt := { header := s.wt.header, data := s.wt.data },
    vidx := s.vidx.map fun x => { x with merge := none, built := none, staged := [], idleBook := none, frames := [] },
    ctr := s.ctr, jtag := s.jtag, therm := s.therm, freeIx := s.freeIx, pending := s.pending,
    host := { mem := s.host.mem, nextRid := s.host.nextRid,
              port0 := { s.host.port0.pins with link := s.host.port0.link, rate := s.host.port0.rate, width := s.host.port0.width, shown := s.ctr.latest },
              port1 := { s.host.port1.pins with link := s.host.port1.link, rate := s.host.port1.rate, width := s.host.port1.width, shown := s.ctr.latest } } }

/-- A module reset by HUB_CONTROL or RESTART (R593, R628): the module enters ROM, and the ports answer again from boot ROM. -/
def State.moduleReset (s : State) : State :=
  let c := s.clearModule
  { c with sys := { state := .rom },
           pwr := { c.pwr with compatN := s.pwr.compatN } }

/-- The main domain powers down (R627, R732): the module is OFF. The counters keep their values until the next power-up (R728). -/
def State.powerDown (s : State) : State :=
  let c := s.clearModule
  { c with sys := { state := .off }, pwr := { c.pwr with main := .off, holdoff := decide (s.pwr.main ≠ .off) || s.pwr.holdoff },
           jtag := {}, host := { c.host with port0 := s.host.port0.pins, port1 := s.host.port1.pins } }

/-- The main domain reaches power good and enters ROM (R627, R701, R728): the counters and snapshot banks clear. -/
def State.powerUp (s : State) (compat : Bool) : State :=
  let c := s.clearModule
  { c with sys := { state := .rom }, pwr := { c.pwr with main := .on, compatN := compat }, ctr := {}, jtag := {},
           host := { c.host with port0 := s.host.port0.pins, port1 := s.host.port1.pins } }

/-- Completions written when a module leaves its crew while still powered (R691): ABORTED, the last committed tick, and RESULT0 the tokens
or items committed. Their vectors receive messages under R610. -/
def State.abortAll (s : State) : State :=
  let live := s.reqs.filter Req.live
  let s' := live.foldl (fun s r =>
    s.writeCompletion s.tick.last true
      { r with status := 1, result0 := BitVec.ofNat 32 r.tokens, result1 := 0 }) s
  let vs := (live.filter (·.owed)).map fun r => (r.port, (s.queue r.qid).msixVec.toNat)
  let s' := s'.sendMessages vs
  { s' with reqs := s'.reqs.map fun r => { r with stage := .done } }

/-- What a module that enters JOIN discards (R681). It keeps weights, indexes, NOR, identity, retired frames and counters, and of the dies and cores
what no rule resets there: the function store, the generators (R139) and which stands sleep. Its function-table banks hold no set. -/
def State.joinDiscard (s : State) : State :=
  { s with
    seqs := [], nodes := [], sketches := [], qsketch := [], land := {}, reqs := [],
    hbm := { retired := s.hbm.retired, failed := s.hbm.failed.filter fun c => match c with
      | .weightFlash _ => true
      | _ => false },
    wt := { s.wt with share := [], inHbm := [], remap := [], mirror := [], mirrorAt := none, rewriting := none },
    flash := { s.flash with data := Sparse.keep (fun a => s.vidx.any fun x => decide (x.base * 16384 ≤ a)) s.flash.data, side := [], ftab := [], queue := [], cleaning := [], cleaned := [], spilling := [] },
    searches := [], fore := {}, coll := {}
    dies := Sparse.mapVals {} (fun _ d =>
      { step := d.step, stage := Sparse.keep (fun a => decide (255 * 2 ^ 20 ≤ a)) d.stage }) s.dies
    cores := Sparse.mapVals {} (fun _ k => { gens := k.gens }) s.cores
    stands := Sparse.mapVals {} (fun _ x => { asleep := x.asleep, waking := x.waking, idle := x.idle }) s.stands
    yard := { records := s.yard.records, sent := s.yard.sent }, chk := {},
    vidx := s.vidx.map fun x => { x with
      merge := none, built := none, staged := [], frames := [], side := x.side.map fun e => { e with tick := 0 },
      tombs := (x.side.filter fun e => !e.isInsert).map fun e => (e.entry, 0) } }

/-- A member that leaves its crew while powered enters JOIN (R681, R690, R691). CREW_EPOCH stays until a reset (R696). -/
def State.leaveToJoin (s : State) : State :=
  let c := s.abortAll.joinDiscard
  { c with sys := { c.sys with state := .join },
           crew := { epoch := s.crew.epoch, heldCoord := some s.crew.coord, claim := s.crew.claim, rseq := s.crew.rseq },
           tick := { crewTime := s.tick.crewTime, last := s.tick.last } }

/-- Enter FAULT (R627): firmware stopped, lasers off, every port OFF; a member leaves its crew (R671, R691). -/
def State.enterFault (s : State) (cls detail : Nat) : State :=
  let c := if s.crew.member then s.abortAll else s
  { c with sys := { c.sys with state := .fault, faultClass := BitVec.ofNat 8 cls, faultDetail := BitVec.ofNat 32 detail, departed := false },
           ports := Sparse.mapVals {} (fun _ p => { lost := p.lost, mapChanged := p.mapChanged }) c.ports,
           crew := { epoch := s.crew.epoch, claim := s.crew.claim, heldCoord := if s.crew.member then some s.crew.coord else s.crew.heldCoord,
                     rseq := s.crew.rseq },
           tick := { crewTime := s.tick.crewTime, last := s.tick.last } }

/-! ### Fail records and reports (R70, R77) -/

/-- A fail record (R77). -/
def failRecord (coord cause partKind partNum layer : Nat) : BitVec 128 :=
  place 128 116 12 coord ||| place 128 112 4 cause ||| place 128 108 4 partKind ||| place 128 96 12 partNum |||
  place 128 87 9 layer

/-- The attempt has failed on this module (R70): one fail record is added. -/
def State.failAttempt (s : State) (cause : Nat) (partKind : Nat := 0) (partNum : Nat := 0) (layer : Nat := 0x1FF) : State :=
  { s with tick := { s.tick with fails := s.tick.fails ++ [failRecord s.crew.coord cause partKind partNum layer] } }

/-- Send a message (R74, R516). -/
def State.send (s : State) (m : OutMsg) : State := { s with yard := { s.yard with sent := s.yard.sent ++ [m] } }

end Sys2Proof.Machine
end

