-- ==== Sys2Proof/Machine/Operands.lean ====
section
/-! DEFINITION. Operand forms: submission entries (R606 to R608), completion results, leaf entries and sidebands (R284, R289), loop
descriptors and task registers (R172 to R184), tick headers and flit headers (R73, R484). -/

namespace Sys2Proof.Machine

/-! ### Submission entries (R606, R608) -/

abbrev Entry := BitVec 512

/-- The submission entry of a request. -/
def Req.e (r : Req) : Entry := r.entry

def Entry.opcode (e : Entry) : Nat := fld e 0 8
def Entry.flags (e : Entry) : Nat := fld e 8 8
def Entry.cid (e : Entry) : Nat := fld e 16 16
def Entry.handle (e : Entry) : W32 := BitVec.ofNat 32 (fld e 32 32)
def Entry.indexId (e : Entry) : Nat := fld e 32 16
/-- Bits 127:64: TOK_ADDR, OUT_ADDR, SRC_ADDR, VEC_ID, QUERY, DEST_ADDR or NONCE_ADDR. -/
def Entry.q1 (e : Entry) : Nat := fld e 64 64
/-- Bits 191:128: DATA_ADDR, RESULT or REPORT_ADDR. -/
def Entry.q2 (e : Entry) : Nat := fld e 128 64
/-- Bits 159:128: TOK_COUNT, MAX_TOKENS, FIRST_BLOCK or FIRST. -/
def Entry.w4 (e : Entry) : Nat := fld e 128 32
/-- Bits 191:160: BLOCKS, COUNT or TEMP. -/
def Entry.w5 (e : Entry) : Nat := fld e 160 32
/-- L_MAX or POSITION, bits 100:64. -/
def Entry.pos (e : Entry) : Nat := fld e 64 37
def Entry.topP (e : Entry) : Nat := fld e 192 32
def Entry.topK (e : Entry) : Nat := fld e 224 20
def Entry.drafts (e : Entry) : Nat := fld e 244 4
def Entry.seed (e : Entry) : Nat := fld e 256 64
def Entry.stop0 (e : Entry) : Option Nat := if bitAt e 8 then some (fld e 320 32) else none
def Entry.stop1 (e : Entry) : Option Nat := if bitAt e 9 then some (fld e 352 32) else none
def Entry.targetQid (e : Entry) : Nat := fld e 64 13
def Entry.targetCid (e : Entry) : Nat := fld e 80 16
def Entry.lot (e : Entry) : Nat := fld e 64 8
def Entry.kind (e : Entry) : Bool := bitAt e 72
def Entry.mapQid (e : Entry) : Nat := fld e 73 13
def Entry.select (e : Entry) : Nat := fld e 86 4
def Entry.record (e : Entry) : BitVec 128 := BitVec.ofNat 128 (fld e 128 128)
def Entry.word (e : Entry) : BitVec 128 := BitVec.ofNat 128 (fld e 64 128)
def Entry.mask (e : Entry) : BitVec 128 := BitVec.ofNat 128 (fld e 192 128)
def Entry.codebook (e : Entry) : Bool := bitAt e 8
def Entry.k (e : Entry) : Nat := fld e 192 16
def Entry.l (e : Entry) : Nat := fld e 208 11
def Entry.maxHops (e : Entry) : Nat := fld e 219 13
def Entry.reportMax (e : Entry) : Nat := fld e 192 16
def Entry.norOffset (e : Entry) : Nat := fld e 128 28
def Entry.length (e : Entry) : Nat := fld e 160 29

/-- Every bit outside the listed fields, the opcode and the CID is zero (R608). -/
def Entry.zeroBut (e : Entry) (rs : List (Nat × Nat)) : Bool :=
  ([(0, 8), (16, 16)] ++ rs).foldl (fun (x : Entry) (r : Nat × Nat) => putFld x r.1 r.2 0) e == 0

/-- Fields of the profile word as (lowest bit, width), R572. -/
def profileFields : List (Nat × Nat) :=
  [(107, 21), (102, 5), (95, 7), (92, 3), (91, 1), (90, 1), (89, 1)] ++
  [(87, 2), (86, 1), (85, 1), (84, 1), (69, 15), (56, 13), (49, 7)]

/-- Whether a profile field's value lies in its range (R51, R160, R161, R274, R359). -/
def profileFieldOk (w : BitVec 128) (lo : Nat) : Bool :=
  if lo = 107 then decide (5000 ≤ fld w 107 21 ∧ fld w 107 21 ≤ 2000000)
  else if lo = 102 then decide (1 ≤ fld w 102 5 ∧ fld w 102 5 ≤ 16)
  else if lo = 95 then decide (1 ≤ fld w 95 7 ∧ fld w 95 7 ≤ 64)
  else if lo = 92 then decide (1 ≤ fld w 92 3 ∧ fld w 92 3 ≤ 6)
  else if lo = 87 then decide (fld w 87 2 ≠ 3)
  else if lo = 69 then decide (fld w 69 15 ≤ 16384)
  else if lo = 56 then decide (1 ≤ fld w 56 13 ∧ fld w 56 13 ≤ 4096)
  else if lo = 49 then decide (fld w 49 7 ≤ 64)
  else true

/-- A SET_PROFILE's word and SELECT keep R573: reserved bits zero, each field selected wholly or not at all, selected values in range. -/
def profileSelectOk (w m : BitVec 128) : Bool :=
  fld w 0 49 == 0 && fld m 0 49 == 0 &&
    profileFields.all fun f =>
      fld m f.1 f.2 == 0 || (fld m f.1 f.2 == 2 ^ f.2 - 1 && profileFieldOk w f.1)

/-- The profile word after a SET_PROFILE (R574). -/
def profileApply (old w m : BitVec 128) : BitVec 128 := (old &&& ~~~m) ||| (w &&& m)

/-- Select the chosen fields of a lot record (R415, R608): bits of SELECT are HBM_QUOTA, FLASH_QUOTA, TICK_SHARE and PRIORITY. -/
def lotApply (old new : BitVec 128) (sel : Nat) : BitVec 128 :=
  let pick (x : BitVec 128) (b lo len : Nat) := if sel.testBit b then putFld x lo len (fld new lo len) else x
  pick (pick (pick (pick old 0 80 48) 1 32 48) 2 16 16) 3 13 3

/-- FP32 encoding of TEMP: zero of either sign, or positive finite (R608). -/
def tempOk (t : Nat) : Bool := t == 0x8000_0000 || decide (t < 0x7F80_0000)

/-- The field rules of R608 that need nothing but the entry, by command. Handles, tokens, indexes and lots are checked where the command
applies. -/
def Entry.fieldsOk (e : Entry) : Bool :=
  match e.opcode with
  | 0x01 => e.zeroBut [(64, 37)] && decide (1 ≤ e.pos ∧ e.pos ≤ 2 ^ 36)
  | 0x02 => e.zeroBut [(32, 32), (64, 64), (128, 32)] && e.q1 % 4 == 0 && decide (1 ≤ e.w4)
  | 0x03 =>
    e.zeroBut ([(32, 32), (8, 2), (64, 64), (128, 32), (160, 32), (192, 32), (224, 20), (244, 4), (256, 64)] ++
      (if bitAt e 8 then [(320, 32)] else []) ++ (if bitAt e 9 then [(352, 32)] else []) ++
      (if e.drafts = 0 then [] else [(384, 64)])) &&
      e.q1 % 16 == 0 && decide (1 ≤ e.w4) && tempOk e.w5 && decide (0 < e.topP ∧ e.topP ≤ 0x3F80_0000) &&
      decide (e.topK ≤ 524288)
  | 0x04 => e.zeroBut [(32, 32), (64, 37)] && decide (e.pos ≤ 2 ^ 36)
  | 0x05 => e.zeroBut [(64, 13), (80, 16)]
  | 0x06 => e.zeroBut [(32, 32)]
  | 0x07 => e.zeroBut [(64, 64), (128, 32), (160, 32)] && e.q1 % 4096 == 0 && decide (1 ≤ e.w5)
  | 0x08 =>
    if e.kind then e.zeroBut [(64, 8), (72, 1), (73, 13)]
    else e.zeroBut [(64, 8), (86, 4), (128, 128)] && fld e.record 0 13 == 0
  | 0x09 => e.zeroBut [(64, 128), (192, 128)] && profileSelectOk e.word e.mask
  | 0x0A => if e.codebook then e.zeroBut [(32, 16), (8, 1), (128, 64)] else e.zeroBut [(32, 16), (64, 64), (128, 64)]
  | 0x0B => e.zeroBut [(32, 16), (64, 64)]
  | 0x0C =>
    e.zeroBut [(32, 16), (64, 64), (128, 64), (192, 16), (208, 11), (219, 13)] &&
      decide (e.l = 0 ∨ (16 ≤ e.l ∧ e.l ≤ 1024)) && decide (e.maxHops ≤ 4096) && decide (1 ≤ e.k)
  | 0x0D =>
    e.zeroBut [(64, 64), (128, 32), (160, 32)] && e.q1 % 8 == 0 && decide (1 ≤ e.w5 ∧ e.w5 ≤ 65536)
  | 0x0E => e.zeroBut [(64, 64), (128, 64), (192, 16)]
  | 0x0F =>
    e.zeroBut [(64, 64), (128, 28), (160, 29)] && e.q1 % 4096 == 0 && e.norOffset % 4096 == 0 && e.length % 4096 == 0 &&
      decide (4096 ≤ e.length ∧ e.length ≤ 2 ^ 28) && decide (e.norOffset + e.length ≤ 2 ^ 28)
  | 0x10 => e.zeroBut []
  | _ => false

/-- Commands that a check report forwards: crew and handle scope, index homes and ABORT (R78, R612). -/
def Entry.forwarded (e : Entry) : Bool :=
  match e.opcode with
  | 0x01 | 0x02 | 0x03 | 0x04 | 0x05 | 0x06 | 0x07 | 0x09 | 0x0A | 0x0B | 0x0C => true
  | 0x08 => !e.kind
  | _ => false

/-! ### Leaf entries (R284 to R288) and sidebands (R289) -/

def leafShared (e : W64) : Bool := bitAt e 61
def leafDirty (e : W64) : Bool := bitAt e 60
def leafPinned (e : W64) : Bool := bitAt e 59
def leafSketchValid (e : W64) : Bool := bitAt e 58

/-- A leaf entry for an HBM frame (TIER 0b00). -/
def leafHbm (frame : Nat) (shared dirty pinned sketch : Bool) : W64 :=
  place 64 61 1 (bit shared) ||| place 64 60 1 (bit dirty) ||| place 64 59 1 (bit pinned) ||| place 64 58 1 (bit sketch) |||
  place 64 0 40 frame

/-- The entry of a page that has moved to flash (TIER 0b01); PINNED and SKETCH_VALID stay. -/
def leafToFlash (e : W64) (frame : Nat) (shared : Bool) : W64 :=
  putFld (putFld (putFld (putFld e 62 2 1) 61 1 (bit shared)) 60 1 0) 0 40 frame

/-- An HBM frame number of this module (R286). -/
def State.hbmFrameOk (s : State) (f : Nat) : Bool := decide (f < 2 ^ 27) && decide (f / 2 ^ 22 < s.nStacks)

/-- A flash frame number (R286). -/
def flashFrameOk (f : Nat) : Bool := decide (f < 3906250000)

/-- A corrupt leaf entry (R288). -/
def State.leafCorrupt (s : State) (e : W64) : Bool :=
  leafTier e == 2 || fld e 40 18 != 0 || (leafTier e == 0 && !s.hbmFrameOk (leafFrame e)) ||
    (leafTier e == 1 && !flashFrameOk (leafFrame e))

/-- A corrupt interior entry: a TIER other than 0b00 and 0b11, a flag or reserved bit set, or a frame the module does not have (R288, R291). -/
def State.interiorCorrupt (s : State) (e : W64) : Bool :=
  leafTier e == 1 || leafTier e == 2 || fld e 40 22 != 0 || (leafTier e == 0 && !s.hbmFrameOk (leafFrame e))

/-- A corrupt interior entry, or a node that cannot be read, stands on the way down to page `v` (R288, R413). -/
def State.lostBelow (s : State) (q : Seq) (v : Nat) : Nat → Option Nat → Bool
  | _, none => false
  | 0, some f => (q.pageNode f).bad
  | n + 1, some f =>
    let e := Sparse.get noEntry (q.pageNode f).entries (pageIndex v (n + 1))
    (q.pageNode f).bad || s.interiorCorrupt e || s.lostBelow q v n (childOf e)

/-- The page is lost with an interior entry of its page list (R288). -/
def State.pathLost (s : State) (q : Seq) (v : Nat) : Bool := decide (v < q.vpages) && s.lostBelow q v (q.levels - 1) q.curRoot

/-- The 1,024-byte sideband of a frame, as one number (R289). -/
def sbFcValid (b : Nat) : Bool := b.testBit 4520
def sbField (b lo len : Nat) : Nat := (b >>> lo) % 2 ^ len
def sbPut (b lo len v : Nat) : Nat :=
  b % 2 ^ lo + (v % 2 ^ len) * 2 ^ lo + (b >>> (lo + len)) * 2 ^ (lo + len)

/-- The sideband of an HBM frame. -/
def State.hbmSide (s : State) (frame : Nat) : Nat := Mem.num s.hbm.side (frame * 1024) 1024

/-- Write bytes of the HBM frame space, byte `a` of frame `f` at f × 16,384 + a (R29). -/
def State.writeHbm (s : State) (a : Nat) (bs : List Byte) : State :=
  { s with hbm := { s.hbm with data := Mem.write s.hbm.data a bs } }

/-- Write bytes of the sidebands of HBM, 1,024 bytes to a frame (R289). -/
def State.writeSide (s : State) (a : Nat) (bs : List Byte) : State :=
  { s with hbm := { s.hbm with side := Mem.write s.hbm.side a bs } }

/-- Write bytes of the Landing, 17,408 to a slot (R304). -/
def State.writeLand (s : State) (a : Nat) (bs : List Byte) : State :=
  { s with land := { s.land with data := Mem.write s.land.data a bs } }

/-- Write bytes of the flash frame space (R39). -/
def State.writeFlash (s : State) (a : Nat) (bs : List Byte) : State :=
  { s with flash := { s.flash with data := Mem.write s.flash.data a bs } }

/-- Write the sideband of an HBM frame. -/
def State.setHbmSide (s : State) (frame b : Nat) : State := s.writeSide (frame * 1024) (leBytes 1024 b)

def State.flashSide (s : State) (frame : Nat) : Nat := Mem.num s.flash.side (frame * 1024) 1024

def State.setFlashSide (s : State) (frame b : Nat) : State :=
  { s with flash := { s.flash with side := Mem.write s.flash.side (frame * 1024) (leBytes 1024 b) } }

/-! ### Loop descriptors (R172 to R179) -/

/-- A level slot of a descriptor (R178). -/
structure Level where
  role : Nat
  pos  : Nat
  src  : Nat
  arg  : Nat
  sA   : Int
  sB   : Int
  sOut : Int
  deriving DecidableEq, Repr

/-- A chain step (R175). -/
structure ChainStep where
  op    : Nat
  arg   : Nat
  param : Nat
  deriving DecidableEq, Repr

/-- Word `i` of a descriptor. -/
def descWord (d : List W64) (i : Nat) : W64 := d[i]?.getD 0

def dKind (d : List W64) : Nat := fld (descWord d 0) 60 4
def dLevels (d : List W64) : Nat := fld (descWord d 0) 57 3
def dFmtA (d : List W64) : Nat := fld (descWord d 0) 53 4
def dBlkA (d : List W64) : Nat := fld (descWord d 0) 51 2
def dFmtB (d : List W64) : Nat := fld (descWord d 0) 47 4
def dBlkB (d : List W64) : Nat := fld (descWord d 0) 45 2
def dFmtOut (d : List W64) : Nat := fld (descWord d 0) 41 4
def dBlkOut (d : List W64) : Nat := fld (descWord d 0) 39 2
def dResident (d : List W64) : Nat := fld (descWord d 0) 37 2
def dResPos (d : List W64) : Nat := fld (descWord d 0) 34 3
def dChainLen (d : List W64) : Nat := fld (descWord d 0) 30 4
def dMT (d : List W64) : Nat := 16 * fld (descWord d 1) 56 8
def dNT (d : List W64) : Nat := 16 * fld (descWord d 1) 48 8
def dKT (d : List W64) : Nat := 32 * fld (descWord d 1) 38 10
def dAUnits (d : List W64) : Nat := fld (descWord d 1) 30 8
def dBUnits (d : List W64) : Nat := fld (descWord d 1) 22 8
def dDrainUnits (d : List W64) : Nat := fld (descWord d 1) 14 8
/-- HALO_SHIFT (R177). -/
def dHalo (d : List W64) : Int := if dKind d = 1 then signed 5 (fld (descWord d 4) 59 5) else 0

/-- Step `i` of the drain chain. -/
def dStep (d : List W64) (i : Nat) : ChainStep :=
  ⟨fld (descWord d 2) (8 * i + 4) 4, fld (descWord d 2) (8 * i) 4, fld (descWord d 3) (8 * i) 8⟩

def dChain (d : List W64) : List ChainStep := (List.range (dChainLen d)).map (dStep d)

/-- Slot `i` of a descriptor. -/
def dSlot (d : List W64) (i : Nat) : Level :=
  let c := descWord d (5 + 3 * i)
  let ab := descWord d (6 + 3 * i)
  let o := descWord d (7 + 3 * i)
  ⟨fld c 62 2, fld c 59 3, fld c 57 2, fld c 0 32, signed 32 (fld ab 32 32), signed 32 (fld ab 0 32), signed 32 (fld o 32 32)⟩

/-- The levels in nest order, outermost first (R180). -/
def dNest (d : List W64) : List Level :=
  let ss := (List.range (dLevels d)).map (dSlot d)
  (List.range (dLevels d)).filterMap fun n => ss.find? fun l => l.pos == n

/-! ### Task registers (R184) -/

def tregAt (t : Sparse W64) (i : Nat) : W64 := Sparse.get 0 t i
def tABase (t : Sparse W64) : Nat := fld (tregAt t 0) 0 28
def tAAlloc (t : Sparse W64) : Nat := fld (tregAt t 0) 32 29
def tBBase (t : Sparse W64) : Nat := fld (tregAt t 1) 0 28
def tBAlloc (t : Sparse W64) : Nat := fld (tregAt t 1) 32 29
def tOutBase (t : Sparse W64) : Nat := fld (tregAt t 2) 0 28
def tOutAlloc (t : Sparse W64) : Nat := fld (tregAt t 2) 32 29
def tAPitch (t : Sparse W64) : Nat := fld (tregAt t 3) 0 28
def tBPitch (t : Sparse W64) : Nat := fld (tregAt t 3) 32 28
def tOutPitch (t : Sparse W64) : Nat := fld (tregAt t 4) 0 28
def tOutExp (t : Sparse W64) : Nat := fld (tregAt t 4) 32 28
def tAExp (t : Sparse W64) : Nat := fld (tregAt t 5) 0 28
def tBExp (t : Sparse W64) : Nat := fld (tregAt t 5) 32 28
def tSA (t : Sparse W64) : Nat := fld (tregAt t 6) 0 32
def tSB (t : Sparse W64) : Nat := fld (tregAt t 6) 32 32
def tSOut (t : Sparse W64) : Nat := fld (tregAt t 7) 0 32
def tProbCount (t : Sparse W64) : Nat := fld (tregAt t 8) 0 16
def tProbA (t : Sparse W64) : Int := signed 32 (fld (tregAt t 9) 32 32)
def tProbB (t : Sparse W64) : Int := signed 32 (fld (tregAt t 9) 0 32)
def tProbOut (t : Sparse W64) : Int := signed 32 (fld (tregAt t 10) 0 32)

/-! ### Tick headers (R73) and flit headers (R484) -/

def thKind (h : BitVec 128) : Nat := fld h 124 4
def thFlits (h : BitVec 128) : Nat := fld h 109 15
def thPart (h : BitVec 128) : Nat := fld h 93 16
def thLast (h : BitVec 128) : Bool := bitAt h 92
def thAttempt (h : BitVec 128) : Nat := fld h 85 7
def thTick (h : BitVec 128) : Nat := fld h 21 64
def thReserved (h : BitVec 128) : Nat := fld h 0 21

def fhType (h : BitVec 128) : Nat := fld h 124 4
def fhVc (h : BitVec 128) : Nat := fld h 122 2
def fhDetour (h : BitVec 128) : Bool := bitAt h 121
def fhHops (h : BitVec 128) : Nat := fld h 117 4
def fhDest (h : BitVec 128) : Nat := fld h 105 12
def fhSrc (h : BitVec 128) : Nat := fld h 93 12
def fhMsg (h : BitVec 128) : Nat := fld h 79 14
def fhOffset (h : BitVec 128) : Nat := fld h 65 14
def fhLen (h : BitVec 128) : Nat := fld h 61 4
def fhTtag (h : BitVec 128) : Nat := fld h 59 2
def fhLseq (h : BitVec 128) : Nat := fld h 47 12
def fhLack (h : BitVec 128) : Nat := fld h 35 12
def fhAckValid (h : BitVec 128) : Bool := bitAt h 34
def fhReserved (h : BitVec 128) : Nat := fld h 32 2
def fhCrc (h : BitVec 128) : Nat := fld h 0 32

/-- The header's bytes: bits 127:120 are byte 0 (R483). -/
def flitHeaderBytes (h : BitVec 128) : List Byte := (leBytes 16 h.toNat).reverse

/-- The CRC of a flit: CRC-32C over bytes 0 to 11 and 16 to 255 (R484). -/
def flitCrc (h : BitVec 128) (payload : List Byte) : Nat := (crc32c ((flitHeaderBytes h).take 12 ++ payload)).toNat

end Sys2Proof.Machine
end

