-- ==== Sys2Proof/Machine/Cube.lean ====
section
/-! DEFINITION. The plain and the crossed cube, their Hamiltonian cycles and rings, and routes (R503 to R511). `kind` is true for the crossed
cube. -/

namespace Sys2Proof.Machine

/-- Invert bit `i`. -/
def flipBit (u i : Nat) : Nat := u ^^^ 2 ^ i

/-- The neighbour of `u` along dimension `l` (R503). -/
def neighbour (kind : Bool) (u l : Nat) : Nat :=
  let v := flipBit u l
  if kind then (List.range (l / 2)).foldl (fun v i => if u.testBit (2 * i) then flipBit v (2 * i + 1) else v) v else v

/-- The dimension in which two coordinates of an `n`-cube are neighbours. -/
def neighbourDim (kind : Bool) (n u v : Nat) : Option Nat := (List.range n).find? fun l => neighbour kind u l == v

/-- The coordinates within `k` hops of those listed. -/
def ball (kind : Bool) (n : Nat) : Nat → List Nat → List Nat
  | 0, us => us
  | k + 1, us => ball kind n k (us ++ us.flatMap fun u => (List.range n).map (neighbour kind u)).eraseDups

/-- Distance of two coordinates in an `n`-cube; `n + 1` beyond it. -/
def cubeDist (kind : Bool) (n u v : Nat) : Nat := ((List.range (n + 1)).find? fun k => (ball kind n k [u]).contains v).getD (n + 1)

/-- Cycle `c` of a k-cube: the order of its coordinates. Cycle 0 is the reflected Gray code; the others are held in FIRMWARE (R504;
log 10). -/
def cycleOrder (kind : Bool) (k c : Nat) : List Nat :=
  if c = 0 then (List.range (2 ^ k)).map fun i => i ^^^ i / 2 else Config.firmwareCycle kind k c

/-- Directed ring `r` of the subcube of dimensions 0 to k − 1 that holds `u`: even rings run their cycle in order, odd ones in reverse
(R504). -/
def ringOrder (kind : Bool) (k r u : Nat) : List Nat :=
  let o := (cycleOrder kind k (r / 2)).map fun x => u / 2 ^ k * 2 ^ k + x
  if r % 2 = 0 then o else o.reverse

/-- Directed rings of a k-cube (R504). -/
def ringCount (k : Nat) : Nat := if k = 1 then 2 else 2 * (k / 2)

/-- The position of `u` in a listed order. -/
def indexIn (o : List Nat) (u : Nat) : Nat := o.findIdx (· == u)

/-- A member's ring position is its index in cycle 0 (R505). -/
def ringPosition (k u : Nat) : Nat := indexIn (cycleOrder false k 0) (u % 2 ^ k)

/-! ### Route tables (R506 to R508) -/

/-- An empty route entry: no next hop, unreachable (R506). -/
def noRoute : W64 := 0xFFFF_F000_0000_0000

/-- The next-hop dimensions of a route entry, in order of choice. -/
def routeChoices (e : W64) : List Nat := [fld e 60 4, fld e 56 4, fld e 52 4, fld e 48 4]

/-- The current route entry of a destination. -/
def State.routeEntry (s : State) (d : Nat) : W64 := Sparse.get noRoute s.yard.route d

/-- UP ports that serve a dimension, ascending. -/
def State.upPorts (s : State) (dim : Nat) : List Nat :=
  (List.range 12).filter fun n => (s.port n).state == .up && (s.port n).dim == dim

/-- Every UP port. -/
def State.allUp (s : State) : List Nat := (List.range 12).filter fun n => (s.port n).state == .up

/-- The port by which a flit leaves, and whether it is not the first choice (R508, R509). The arrival link is chosen only when no other
choice remains. -/
def State.routeOut (s : State) (src dest msg : Nat) (arrival : Option Nat) : Option (Nat × Bool) :=
  let cs := (List.range 4).zip (routeChoices (s.routeEntry dest))
  let ports (d : Nat) := if d < 12 then (s.upPorts d).filter fun n => some n != arrival else []
  let pick (k : Nat) (ps : List Nat) := (ps[(src ^^^ dest ^^^ msg) % ps.length]?).map fun n => (n, decide (k ≠ 0))
  match cs.find? fun c => !(ports c.2).isEmpty with
  | some c => pick c.1 (ports c.2)
  | none =>
    match cs.find? fun c => decide (c.2 < 12) && (match arrival with
        | some a => (s.upPorts c.2).contains a
        | none => false) with
    | some c => arrival.map fun a => (a, decide (c.1 ≠ 0))
    | none => none

end Sys2Proof.Machine
end

