-- ==== Sys2Proof/Machine/TickFlits.lean ====
section
/-! DEFINITION. TICK messages as flits: how a member builds those it sends and assembles those it receives (R62, R73 to R78, R484, R512). Bits of a message
are numbered from bit 0 of its first byte, as in R496 (DEDUCED, log 57). -/

namespace Sys2Proof.Machine

/-! ### Bodies (R62, R74, R76 to R79, R557) -/

/-- The 32 bytes of a tick-edge message (R62). -/
def edgeBits (e : EdgeMsg) : BitVec 256 :=
  place 256 192 64 e.tickNum ||| place 256 128 64 e.edgeTime ||| place 256 96 32 e.epoch.toNat ||| place 256 64 32 e.lag ||| place 256 40 24 e.period |||
    place 256 28 12 e.master ||| place 256 24 4 e.decision ||| place 256 23 1 (bit e.hold) ||| place 256 16 7 e.attempt

/-- The last 16 bytes of a command record: COORD, QID, ARRIVAL, and reserved bits 70:0 zero (R78). -/
def recordTail (r : CmdRec) : BitVec 128 := place 128 116 12 r.coord ||| place 128 103 13 r.qid ||| place 128 71 32 r.arrival

/-- The 80 bytes of a command record (R78). -/
def recordBytes (r : CmdRec) : List Byte := leBytes 64 r.entry.toNat ++ leBytes 16 (recordTail r).toNat

/-- A check report in its parts: header, fail records, command records, join requests, summaries, lot usage (R76, R557). -/
def reportBytes (r : Report) : List Byte :=
  leBytes 64 r.header.toNat ++ r.fails.flatMap (fun x => leBytes 16 x.toNat) ++ r.cmds.flatMap recordBytes ++
    r.joins.flatMap (fun x => leBytes 16 x.toNat) ++ r.summs.flatMap (fun x => leBytes 64 x.toNat) ++
    r.usage.flatMap fun x => leBytes 8 x.1 ++ leBytes 8 x.2

/-- TKIND and body of the messages that travel as TICK flits (R74). -/
def tickBody : OutMsg → Option (Nat × List Byte)
  | .edge e => some (0, leBytes 32 (edgeBits e).toNat)
  | .report r => some (1, reportBytes r)
  | .repeatReq what _ => some (2, leBytes 16 (place 128 124 4 what).toNat)
  | .cmdset _ _ rs => some (3, rs.flatMap recordBytes)
  | _ => none

/-! ### Sending (R73 to R75, R484, R508) -/

/-- Bytes of message body in one flit (R73). -/
def flitBody : Nat := 224

/-- The tick header of a part (R73). -/
def tickHeader (kind flits part : Nat) (last : Bool) (attempt tick : Nat) : BitVec 128 :=
  place 128 124 4 kind ||| place 128 109 15 flits ||| place 128 93 16 part ||| place 128 92 1 (bit last) ||| place 128 85 7 attempt |||
    place 128 21 64 tick

/-- TTAG of the attempt in flight (R484). -/
def State.ttag (s : State) : Nat := (s.tick.num + s.tick.attempt) % 4

/-- Flit `i` of a part, with the part's tick header and its 224 bytes of the body (R73, R484). -/
def State.tickFlit (s : State) (dest msg : Nat) (h : BitVec 128) (body : List Byte) (i : Nat) : Flit :=
  let bs := slice body (flitBody * i) flitBody
  { hdr := place 128 124 4 5 ||| place 128 105 12 dest ||| place 128 93 12 s.crew.coord ||| place 128 79 14 msg ||| place 128 65 14 i |||
      place 128 61 4 (1 + (bs.length + 15) / 16) ||| place 128 59 2 s.ttag
    payload := leBytes 16 h.toNat ++ bs ++ List.replicate (flitBody - bs.length) 0 }

/-- Flits of a body, at least one, and the most that a part has (R73, R75). -/
def bodyFlits (body : List Byte) : Nat := max 1 ((body.length + flitBody - 1) / flitBody)
def partFlits : Nat := 16384

/-- The flits of part `p` of a message. -/
def State.partOut (s : State) (dest msg kind : Nat) (body : List Byte) (p : Nat) : List Flit :=
  let n := bodyFlits body
  let here := min partFlits (n - p * partFlits)
  let h := tickHeader kind here p (decide (n ≤ (p + 1) * partFlits)) s.tick.attempt s.tick.num
  (List.range here).map fun i => s.tickFlit dest msg h (body.drop (flitBody * partFlits * p)) i

/-- Queue a flit for sending at a port. -/
def State.enqueue (s : State) (n : Nat) (f : Flit) : State :=
  let p := s.port n
  s.setPort n { p with txq := p.txq ++ [f] }

/-- Queue a routed flit of this member at the port that its route takes (R508, R509). -/
def State.launch (s : State) (f : Flit) : State :=
  match s.routeOut (fhSrc f.hdr) (fhDest f.hdr) (fhMsg f.hdr) none with
  | some (n, det) => s.enqueue n (if det then { f with hdr := putFld f.hdr 121 1 1 } else f)
  | none => s

/-- The flits of a message to one member, each part with a message number of its own (R75, R484). -/
def State.launchTo (m : OutMsg) (s : State) (dest : Nat) : State :=
  match tickBody m with
  | none => s
  | some (kind, body) =>
    let parts := (bodyFlits body + partFlits - 1) / partFlits
    let fs := (List.range parts).flatMap fun p => s.partOut dest ((s.yard.msgNext + p) % 16384) kind body p
    fs.foldl State.launch { s with yard := { s.yard with msgNext := s.yard.msgNext + parts } }

/-- Send a TICK message to some members, as flits on VC0 (R73, R74, R486). -/
def State.sendTick (s : State) (m : OutMsg) (dests : List Nat) : State := dests.foldl (State.launchTo m) (s.send m)

/-! ### Receiving (R75) -/

/-- The tick header of a TICK flit: payload bytes 0 to 15 (R73). -/
def tickHdrOf (f : Flit) : BitVec 128 := BitVec.ofNat 128 (leNat (f.payload.take 16))

/-- A flit belongs to a TICK message of the kind from a member. -/
def ofTick (src kind : Nat) (f : Flit) : Bool := fhType f.hdr == 5 && fhSrc f.hdr == src && thKind (tickHdrOf f) == kind

/-- Body bytes of a flit: LEN − 1 units of 16 bytes (R75). -/
def flitBytesOf (f : Flit) : List Byte := (f.payload.drop 16).take (16 * (fhLen f.hdr - 1))

/-- The body of a part, once every flit with OFFSET 0 to FLITS − 1 of its MSG is here. -/
def partBody (fs : List Flit) (msg n : Nat) : Option (List Byte) :=
  ((List.range n).mapM fun i => (fs.find? fun f => fhMsg f.hdr == msg && fhOffset f.hdr == i).map flitBytesOf).map List.flatten

/-- The complete parts among the flits of one message: PART, LAST_PART, tick header and body. -/
def partsIn (fs : List Flit) : List (Nat × Bool × BitVec 128 × List Byte) :=
  (fs.filter fun f => fhOffset f.hdr == 0).filterMap fun f =>
    let h := tickHdrOf f
    (partBody fs (fhMsg f.hdr) (thFlits h)).map fun b => (thPart h, thLast h, h, b)

/-- The message, once every flit of every part has arrived: the parts' headers and the whole body (R75). A part sent again replaces the earlier one. -/
def assembled (fs : List Flit) : Option (BitVec 128 × List (BitVec 128) × List Byte) :=
  let ps := (partsIn fs).reverse
  match ps.find? fun p => p.2.1 with
  | none => none
  | some l =>
    match (List.range (l.1 + 1)).mapM fun i => ps.find? fun p => p.1 == i with
    | some all => (all.head?).map fun h => (h.2.2.1, (all.drop 1).map (fun p => p.2.2.1), all.flatMap fun p => p.2.2.2)
    | none => none

/-- A TICK flit for this member joins its message; with its last flit the message is whole (R75). -/
def Yarder.takeTick (y : Yarder) (f : Flit) : Yarder :=
  let src := fhSrc f.hdr
  let kind := thKind (tickHdrOf f)
  let rx := y.rx ++ [f]
  match assembled (rx.filter (ofTick src kind)) with
  | some m => { y with rx := rx.filter fun g => !(ofTick src kind g), inbox := y.inbox ++ [⟨src, kind, m.1, m.2.2, m.2.1⟩] }
  | none => { y with rx := rx }

/-- The first whole message of a kind that has arrived with this header and whose body reads as given, not yet used. -/
def State.received (s : State) (kind : Nat) (hdr : BitVec 128) (reads : List Byte → Bool) : Option TickMsg :=
  s.yard.inbox.find? fun m => m.kind == kind && m.hdr == hdr && reads m.body

/-- The message has been used. -/
def State.useMsg (s : State) (m : TickMsg) : State := { s with yard := { s.yard with inbox := s.yard.inbox.erase m } }

/-- Nothing of a message is left when an attempt begins: flits of another attempt are discarded (R488), and message numbers start again (R484). -/
def Yarder.fresh (y : Yarder) : Yarder := { y with placed := [], rx := [], inbox := [], msgNext := 0 }

/-! ### Reading bodies (R62, R76 to R79, R557) -/

/-- The first `n` bytes of a body as one word. -/
def bodyWord (n : Nat) (body : List Byte) : Nat := leNat (body.take n)

/-- A body cut into records of `n` bytes, at most `k` of them. -/
def bodyRecords (n : Nat) : Nat → List Byte → List (List Byte)
  | 0, _ => []
  | k + 1, body => if (body.take n).length < n then [] else body.take n :: bodyRecords n k (body.drop n)

/-- A command record as its 80 bytes give it; its reserved bits are not part of it (R78). -/
def recordIn (bs : List Byte) : CmdRec :=
  let t := BitVec.ofNat 128 (leNat (bs.drop 64))
  ⟨BitVec.ofNat 512 (bodyWord 64 bs), fld t 116 12, fld t 103 13, fld t 71 32⟩

/-- The command records of a CMDSET body. -/
def recordsIn (body : List Byte) : List CmdRec := (bodyRecords 80 body.length body).map recordIn

/-- The report that a body holds, its sections cut as its header counts them (R76, R557). -/
def reportIn (body : List Byte) : Report :=
  let h := BitVec.ofNat 512 (bodyWord 64 body)
  let b1 := body.drop 64
  let b2 := b1.drop (16 * fld h 395 20)
  let b3 := b2.drop (80 * fld h 367 28)
  let b4 := b3.drop (16 * fld h 354 13)
  let b5 := b4.drop (64 * fld h 341 13)
  { header := h
    fails := (bodyRecords 16 (fld h 395 20) b1).map fun x => BitVec.ofNat 128 (leNat x)
    cmds := (bodyRecords 80 (fld h 367 28) b2).map recordIn
    joins := (bodyRecords 16 (fld h 354 13) b3).map fun x => BitVec.ofNat 128 (leNat x)
    summs := (bodyRecords 64 (fld h 341 13) b4).map fun x => BitVec.ofNat 512 (leNat x)
    usage := (bodyRecords 16 256 b5).map fun x => (bodyWord 8 x, leNat (x.drop 8)) }

end Sys2Proof.Machine
end

