-- ==== Sys2Proof/Machine/Links.lean ====
section
/-! DEFINITION. The optical ports: training, flits, retry and flow control, loss, link-state records and who is lost (R479 to R522, R689). -/

namespace Sys2Proof.Machine

/-! ### TRAIN records (R496, R497) -/

abbrev TrainRec := BitVec 1920

def trDigest (r : TrainRec) : Nat := fld r 640 512
def trEcho (r : TrainRec) : Nat := fld r 576 64
def trEpoch (r : TrainRec) : Nat := fld r 416 32
def trCrewLevel (r : TrainRec) : Nat := fld r 400 16
def trLinkMajor (r : TrainRec) : Nat := fld r 396 4
def trLinkMinor (r : TrainRec) : Nat := fld r 392 4
def trImplied (r : TrainRec) : Option Nat := if bitAt r 379 then some (fld r 380 12) else none
def trMember (r : TrainRec) : Bool := bitAt r 374
def trVariant (r : TrainRec) : Nat := fld r 372 2
def trDims (r : TrainRec) : Nat := fld r 368 4
def trKind (r : TrainRec) : Bool := bitAt r 367
def trClaim (r : TrainRec) : Option Nat := if bitAt r 354 then some (fld r 355 12) else none
def trPort (r : TrainRec) : Nat := fld r 350 4
def trModule (r : TrainRec) : Nat := fld r 0 64

/-- A record that R498 accepts. -/
def trainRecOk (r : TrainRec) : Bool :=
  fld r 1152 768 == 0 && fld r 64 286 == 0 && trVariant r != 0 && decide (trPort r ≤ 11) && decide (trDims r ≤ 12) &&
    trModule r != 0

/-- The claims that MEMBER neighbours imply (R499 rule 3). -/
def State.implied (s : State) : List Nat :=
  let rs := (List.range 12).filterMap fun n => (s.port n).peer
  if rs.any fun r => trMember r && (trImplied r).isSome then (rs.filterMap trImplied).eraseDups else []

/-- The coordinate this module claims (R499). -/
def State.claimNow (s : State) : Option Nat :=
  if s.crew.member then some s.crew.coord
  else
    match s.crew.claim, s.crew.heldCoord, s.implied with
    | some c, _, _ => some c
    | none, some c, _ => some c
    | none, none, [c] => some c
    | _, _, _ => none

/-- The coordinate a member implies for the far end of a port (R499). -/
def State.impliedFor (s : State) (n : Nat) : Option Nat :=
  if !s.crew.member then none
  else
    let p := s.port n
    if p.dimHint ≠ 0xF then some (neighbour s.img.crossed s.crew.coord p.dimHint)
    else
      match (List.range s.img.dims).map (neighbour s.img.crossed s.crew.coord) |>.filter
        (fun c => !(s.crew.members.any fun m => m.coord == c)) with
      | [c] => some c
      | _ => none

/-- This module's TRAIN record for a port. CREW_EPOCH is carried until the next module reset (R496, R696; log 15). -/
def State.trainRec (s : State) (n : Nat) (now : W64) : TrainRec :=
  let p := s.port n
  let claim := s.claimNow
  let imp := s.impliedFor n
  place 1920 640 512 (leNat s.img.crewDigest) ||| place 1920 576 64 p.echoId.toNat ||| place 1920 512 64 p.tEcho.toNat |||
    place 1920 448 64 now.toNat ||| place 1920 416 32 s.crew.epoch.toNat ||| place 1920 400 16 s.img.crewLevel.toNat |||
    place 1920 392 8 s.img.linkLevel.toNat ||| place 1920 380 12 (imp.getD 0) ||| place 1920 379 1 (bit imp.isSome) |||
    place 1920 375 4 p.dimHint ||| place 1920 374 1 (bit s.isMember) ||| place 1920 372 2 s.ident.variant.code |||
    place 1920 368 4 s.img.dims ||| place 1920 367 1 (bit s.img.crossed) ||| place 1920 355 12 (claim.getD 0) |||
    place 1920 354 1 (bit claim.isSome) ||| place 1920 350 4 n ||| place 1920 0 64 s.ident.moduleId.toNat

/-! ### Link-state records (R516 to R518) -/

def lsOrigin (r : BitVec 512) : Nat := fld r 500 12
def lsSeq (r : BitVec 512) : Nat := fld r 468 32
def lsEpoch (r : BitVec 512) : Nat := fld r 436 32
def lsState (r : BitVec 512) (n : Nat) : Nat := fld r (32 * n + 29) 3
def lsDim (r : BitVec 512) (n : Nat) : Nat := fld r (32 * n + 25) 4
def lsPeer (r : BitVec 512) (n : Nat) : Nat := fld r (32 * n + 13) 12

/-- A record that R517 accepts. -/
def linkStateOk (r : BitVec 512) : Bool :=
  fld r 384 52 == 0 && (List.range 12).all fun n =>
    fld r (32 * n) 12 == 0 && lsState r n != 7 && (decide (lsDim r n ≤ 11) || lsDim r n == 0xF)

/-- STATE code of a port (R521). -/
def portCode : PortState → Nat
  | .off => 0 | .training => 1 | .up => 2 | .miswired => 3 | .transit => 4 | .down => 5 | .ready => 6

/-- This member's own record. -/
def State.ownRecord (s : State) : BitVec 512 :=
  (List.range 12).foldl (fun (r : BitVec 512) (n : Nat) =>
    let p := s.port n
    r ||| place 512 (32 * n + 29) 3 (portCode p.state) ||| place 512 (32 * n + 25) 4 p.dim |||
      place 512 (32 * n + 13) 12 p.peerCoord |||
      place 512 (32 * n + 12) 1 (bit (s.crew.members.any fun m => m.coord == p.peerCoord &&
        (p.state == .up || p.state == .ready))))
    (place 512 500 12 s.crew.coord ||| place 512 468 32 s.crew.rseq ||| place 512 436 32 s.crew.epoch.toNat)

/-- The flit that carries a link-state record to a neighbour: VC0, 64 bytes (R486, R517). -/
def State.recordFlit (s : State) (r : BitVec 512) (dest : Nat) : Flit :=
  ⟨place 128 124 4 6 ||| place 128 105 12 dest ||| place 128 93 12 s.crew.coord ||| place 128 61 4 4 ||| place 128 59 2 s.ttag,
   leBytes 64 r.toNat⟩

/-- A record goes out over every UP link but the one on which it came (R516). -/
def State.sendRecord (s : State) (r : BitVec 512) (except : Option Nat) : State :=
  let s := s.send (.linkState r except)
  { s with ports := Sparse.mapVals {} (fun n (p : LinkPort) =>
      if p.state = .up ∧ some n ≠ except then { p with txq := p.txq ++ [s.recordFlit r p.peerCoord] } else p) s.ports }

/-- A member that loses or gains an UP link floods its record (R516). -/
def State.flood (s : State) : State :=
  if !s.crew.member then s
  else
    let s := { s with crew := { s.crew with rseq := s.crew.rseq + 1 } }
    let r := s.ownRecord
    ({ s with yard := { s.yard with records := Sparse.set 0 s.yard.records s.crew.coord r, stale := true } }).sendRecord r none

/-- The record held for a coordinate; this member's own shows its ports as they are. -/
def State.recordOf (s : State) (c : Nat) : Option (BitVec 512) :=
  if c = s.crew.coord then some s.ownRecord
  else (s.yard.records.find? fun e => e.1 == c).map Prod.snd

/-- A record shows an UP link toward a coordinate; a member without a record contradicts nothing. -/
def showsUp (r : Option (BitVec 512)) (c : Nat) : Bool :=
  match r with
  | some r => (List.range 12).any fun n => lsState r n == 2 && lsPeer r n == c
  | none => true

/-- The latest records show an UP link between two members (R518). Of two members without records, cube neighbours count as linked (log 16). -/
def State.linked (s : State) (a b : Nat) : Bool :=
  let ra := s.recordOf a
  let rb := s.recordOf b
  (ra.isSome || rb.isSome || (neighbourDim s.img.crossed s.img.dims a b).isSome) && showsUp ra b && showsUp rb a

/-- Members that UP links join to those listed, within `k` hops. -/
def State.reach (s : State) (ms : List Nat) : Nat → List Nat → List Nat
  | 0, us => us
  | k + 1, us => s.reach ms k (us ++ (ms.filter fun m => !us.contains m && us.any fun u => s.linked u m))

/-- The component of members that holds a coordinate. -/
def State.component (s : State) (c : Nat) : List Nat :=
  let ms := s.crew.members.map (·.coord)
  s.reach ms ms.length [c]

/-- This member's component continues as the crew (R689). -/
def State.continues (s : State) : Bool :=
  let n := (s.component s.crew.coord).length
  decide (s.crew.n0 < 2 * n) || (decide (2 * n = s.crew.n0) && (s.component s.crew.coord).contains s.crew.master)

/-- Members that this one finds lost (R518). -/
def State.lostMembers (s : State) : List Nat :=
  let c := s.component s.crew.coord
  (s.crew.members.map (·.coord)).filter fun m => !c.contains m

/-- A member acts on the latest records: it leaves a crew that does not continue around it (R690), or reports the change of membership (R70)
and waits for the FORM edge; a further loss before it raises the epoch again (R692). -/
def State.assessCrew (s : State) : State :=
  if !s.ticking then s
  else
    let lost := s.lostMembers
    if lost = [] ∨ lost.all s.crew.lostNow.contains then s
    else if !s.continues then s.leaveToJoin
    else
      let again := s.tick.decided.any fun e => e.decision == 2
      let again := again || s.tick.pending.any fun e => e.decision == 2
      ({ s with crew := { s.crew with lostNow := lost, epoch := if again then s.crew.epoch + 1 else s.crew.epoch }
                tick := { s.tick with decided := none, pending := none } }).failAttempt 7

/-! ### The decision at step 5 (R501) -/

/-- The state of a port, its REASON and its dimension. A far claim that another module holds in the crew makes the port MISWIRED where the far
end has the higher MODULE_ID of the two (log 16). Two unclaimed ends outside any crew of a plain cube are READY, since R500 assigns their
coordinates at formation (log 16). -/
def State.decidePort (s : State) (r : TrainRec) : PortState × Nat × Nat :=
  let own := s.claimNow
  let far := trClaim r
  if trLinkMajor r ≠ fld s.img.linkLevel 4 4 then (.down, 0xA, 0xF)
  else if trModule r = s.ident.moduleId.toNat then (.miswired, 7, 0xF)
  else if trCrewLevel r ≠ s.img.crewLevel.toNat then (.transit, 8, 0xF)
  else if trDigest r ≠ leNat s.img.crewDigest then (.transit, 9, 0xF)
  else if s.isMember && trMember r && trEpoch r != s.crew.epoch.toNat then (.miswired, 0xB, 0xF)
  else
    match own, far with
    | some a, some b =>
      if a = b then (.miswired, 6, 0xF)
      else
        match neighbourDim s.img.crossed s.img.dims a b with
        | none => (.miswired, 5, 0xF)
        | some d =>
          if trDims r ≠ s.img.dims ∨ trKind r ≠ s.img.crossed then (.miswired, 5, 0xF)
          else
            match s.crew.members.find? fun m => m.coord == b with
            | some m =>
              if m.moduleId.toNat ≠ trModule r ∧ m.moduleId.toNat < trModule r then (.miswired, 0xB, 0xF) else (.ready, 0, d)
            | none => (.ready, 0, d)
    | none, none =>
      if !s.img.crossed && !s.crew.member && !trMember r then (.ready, 0, 0xF) else (.miswired, 0xE, 0xF)
    | _, _ => (.miswired, 0xE, 0xF)

/-- Step 5 of training: the port takes the decided state, and the link runs at the lower of the two minors (R501, R502). -/
def State.decideAt (s : State) (n : Nat) : State :=
  let p := s.port n
  match p.peer with
  | none => s
  | some r =>
    let d := s.decidePort r
    let changed := d.1 == .ready && d.2.2 != 0xF && p.dimHint != 0xF && p.dimHint != d.2.2
    let s := s.setPort n { p with
      state := d.1, reason := d.2.1, dim := d.2.2, step := 0, peerCoord := (trClaim r).getD 0, peerPort := trPort r,
      peerVariant := trVariant r, mapChanged := p.mapChanged || changed, minor := min (fld s.img.linkLevel 0 4) (trLinkMinor r) }
    if changed then (s.linkCount n 31).crewCount 47 else s

/-! ### Training steps (R494) -/

/-- A port that has left step 1: it carries IDLE and CREDIT flits (R493). -/
def LinkPort.locked (p : LinkPort) : Bool := p.state != .off && p.laser && decide (p.step = 0 ∨ 2 ≤ p.step)

/-- LANE_LOCK: step 1 completes with all ten lanes, in any order, deskewed up to 100 ns (R480, R481). -/
def execLaneLock (port : Nat) (lanes : List Nat) (skewNs : Nat) (s : State) : Out :=
  needPart (port < 12) "optical port"
    (let p := s.port port
     when (p.state == .training && p.step == 1 && p.laser && (List.range 10).all lanes.contains && decide (lanes.length = 10) &&
        decide (skewNs ≤ 100)) s
      (s.setPort port { p with step := 2 }))

/-- FLIT_LOCK: step 2 completes (R494). -/
def execFlitLock (port : Nat) (s : State) : Out :=
  needPart (port < 12) "optical port"
    (let p := s.port port
     when (p.state == .training && p.step == 2) s
      (s.setPort port { p with step := 3, echoId := 0, tEcho := 0, peer := none, echoed := false, lseq := 0, rxNext := 0,
                               missing := [], replay := [], acked := 0, credits := ({} : LinkPort).credits }))

/-- TRAIN_RECORD: a valid record sets ECHO_ID and T_ECHO; step 3 ends once the far end's record has arrived and echoes this module
(R494, R498). -/
def execTrainRecord (port : Nat) (rec : BitVec 1920) (now : W64) (s : State) : Out :=
  needPart (port < 12) "optical port"
    (let p := s.port port
     if !p.locked || p.step == 2 then .next s
     else if !trainRecOk rec then .next (s.linkCount port 48)
     else
       let seen := p.echoed || trEcho rec == s.ident.moduleId.toNat
       let p := { p with echoId := BitVec.ofNat 64 (trModule rec), tEcho := now, peer := some rec, echoed := seen }
       .next (s.setPort port (if p.step = 3 ∧ seen then { p with step := 4 } else p)))

/-- TRAIN_RECORD_SEND: every 1 µs in step 3 (R494). -/
def execTrainRecordSend (port : Nat) (now : W64) (s : State) : Out :=
  needPart (port < 12) "optical port"
    (when ((s.port port).state != .off && (s.port port).step == 3) s (s.send (.trainRec port (s.trainRec port now))))

/-- Training starts again at step 1. -/
def LinkPort.restart (p : LinkPort) (reason : Nat) : LinkPort :=
  { p with state := .training, step := 1, reason := reason, dim := 0xF, echoed := false }

/-- TRAINING_STEP_TIMEOUT: a step has exceeded its limit (R494). REASON names light or lock; steps 3 and 4 leave it (log 16). -/
def execTrainingStepTimeout (port : Nat) (s : State) : Out :=
  needPart (port < 12) "optical port"
    (let p := s.port port
     when (p.state != .off && decide (1 ≤ p.step)) s
      ((s.setPort port (p.restart (if p.step = 1 then 1 else if p.step = 2 then 2 else p.reason))).linkCount port 30))

/-- TRAINING_RETRY: a MISWIRED, TRANSIT or DOWN port repeats steps 3 to 5 (R494). -/
def execTrainingRetry (port : Nat) (s : State) : Out :=
  needPart (port < 12) "optical port"
    (let p := s.port port
     when ((p.state == .miswired || p.state == .transit || p.state == .down) && p.step == 0) s
      (s.setPort port { p with step := 3, echoed := false }))

/-- Insert into an ascending list. -/
def insertAsc (x : Int) : List Int → List Int
  | [] => [x]
  | y :: ys => if x ≤ y then x :: y :: ys else y :: insertAsc x ys

/-- The median of a non-empty list: the lower of the two middle values of an even count (log 16). -/
def median (xs : List Int) : Int := (xs.foldr insertAsc [])[(xs.length - 1) / 2]?.getD 0

/-- The one-way delay of one exchange, in 39.0625 ps units (R494 step 4, R495). -/
def exchangeDelay (x : Nat × Nat × Nat × Nat) : Int := (((x.2.2.2 : Int) - x.1) - ((x.2.2.1 : Int) - x.2.1)) / 2

/-- TIMESTAMP_EXCHANGE: 1,024 exchanges (t1, t2, t3, t4) give the delay and the round trip, and step 5 decides (R494, R495, R501). -/
def execTimestampExchange (port : Nat) (samples : List (Nat × Nat × Nat × Nat)) (s : State) : Out :=
  needPart (port < 12) "optical port"
    (let p := s.port port
     when (p.state != .off && p.step == 4 && decide (samples.length = 1024)) s
      (let d := (median (samples.map exchangeDelay)).toNat
       (s.setPort port { p with delay := d, rttNs := d * 5 / 64 }).decideAt port))

/-! ### Flits (R485 to R493, R508 to R511) -/

/-- Forward distance of link sequence numbers (mod 4,096). -/
def seqDist (a b : Nat) : Nat := (b + 4096 - a % 4096) % 4096

/-- Data was lost in flight at a port: the attempt fails (R515). -/
def State.lostInFlight (s : State) (n : Nat) : State := if s.ticking then s.failAttempt 2 4 n else s

/-- Acknowledge every flit up to LACK (R489). -/
def LinkPort.ack (p : LinkPort) (lack : Nat) : LinkPort :=
  if seqDist p.acked (lack + 1) ≤ seqDist p.acked p.lseq then
    { p with acked := (lack + 1) % 4096,
             replay := p.replay.filter fun f => decide (seqDist p.acked (lack + 1) ≤ seqDist p.acked (fhLseq f.hdr)) }
  else p

/-- Account a sequenced flit's LSEQ; the second value lists the numbers found missing (R489). -/
def LinkPort.account (p : LinkPort) (q : Nat) : LinkPort × List Nat :=
  if p.missing.contains q then ({ p with missing := p.missing.filter (· ≠ q) }, [])
  else
    let d := seqDist p.rxNext q
    if d < 2048 then
      let gap := (List.range d).map fun i => (p.rxNext + i) % 4096
      ({ p with rxNext := (q + 1) % 4096, missing := p.missing ++ gap }, gap)
    else (p, [])

/-- NAKs of up to 32 missing flits each. -/
def State.sendNaks (s : State) (n : Nat) (gap : List Nat) : State :=
  (List.range (ceilDiv gap.length 32)).foldl (fun s i =>
    ((s.send (.nak n ((gap.drop (32 * i)).take 32))).linkCount n 21).pulse (0x30 + n)) s

/-- Forward a routed flit that is not for this member (R508 to R510). -/
def State.forward (s : State) (arrival : Nat) (f : Flit) : State :=
  if 15 < fhHops f.hdr + 1 then (s.linkCount arrival 28).lostInFlight arrival
  else
    match s.routeOut (fhSrc f.hdr) (fhDest f.hdr) (fhMsg f.hdr) (some arrival) with
    | none => s.lostInFlight arrival
    | some (n, det) =>
      let h := putFld f.hdr 117 4 (fhHops f.hdr + 1)
      let h := if det then putFld h 121 1 1 else h
      let s := s.enqueue n { f with hdr := h }
      if det && !fhDetour f.hdr then s.linkCount n 27 else s

/-- The TRANSIT port, not the arrival port, whose peer's claim lies nearest a destination and nearer than this module (R511). -/
def State.transitOut (s : State) (arrival dest : Nat) : Option Nat :=
  let own := s.claimNow.getD 0
  let dist (u : Nat) := cubeDist s.img.crossed s.img.dims u dest
  let dimOf (n : Nat) := (neighbourDim s.img.crossed s.img.dims own (s.port n).peerCoord).getD 0xF
  let cands := (List.range 12).filter fun n =>
    n != arrival && (s.port n).state == .transit && decide (dist (s.port n).peerCoord < dist own)
  cands.foldl (fun (b : Option Nat) (n : Nat) =>
    match b with
    | none => some n
    | some m =>
      let dn := dist (s.port n).peerCoord
      let dm := dist (s.port m).peerCoord
      if dn < dm ∨ (dn = dm ∧ dimOf n < dimOf m) then some n else b) none

/-- Forward a flit of a foreign crew, on VC3 and with one more hop (R486, R510, R511). -/
def State.forwardTransit (s : State) (arrival : Nat) (f : Flit) : State :=
  if 15 < fhHops f.hdr + 1 then ((s.linkCount arrival 28).linkCount arrival 51).lostInFlight arrival
  else
    match s.transitOut arrival (fhDest f.hdr) with
    | some n => (s.enqueue n { f with hdr := putFld (putFld f.hdr 122 2 3) 117 4 (fhHops f.hdr + 1) }).linkCount n 50
    | none => s.linkCount arrival 51

/-- Return one credit of a flit's VC and class to the sender (R492), or keep it while the staged area is full (R546). -/
def State.returnCredit (s : State) (n : Nat) (h : BitVec 128) : State :=
  let p := s.port n
  let v := (fhVc h, bit (fhDetour h))
  if p.withheld.contains v then s.setPort n { p with withheld := p.withheld ++ [v] } else (s.send (.creditReturn n v.1 v.2 1)).linkCount n 60

/-- Return the credits that a port has withheld (R546); the first entry of each VC and class in the list marks the hold. -/
def State.releaseCredits (s : State) (n : Nat) : State :=
  let p := s.port n
  if p.withheld = [] then s
  else
    p.withheld.eraseDups.foldl (fun (s : State) v =>
      if p.withheld.count v ≤ 1 then s else (s.send (.creditReturn n v.1 v.2 (p.withheld.count v - 1))).linkCount n 60)
      (s.setPort n { p with withheld := [] })

/-- A flit that R487 rejects although its CRC passes. -/
def State.flitBad (s : State) (h : BitVec 128) : Bool :=
  decide (9 ≤ fhType h) || fhReserved h != 0 || fhLen h == 0 || decide (2 ^ s.img.dims ≤ fhDest h)

/-- Deliver or forward a routed flit (R488, R508, R511); a TICK flit with a reserved TKIND is discarded and counted (R75). A module that is no member takes TICK flits for itself whatever their TTAG: it has no attempt
(DEDUCED, log 57). -/
def State.deliver (s : State) (n : Nat) (f : Flit) : State :=
  let h := f.hdr
  let s := s.returnCredit n h
  if (s.port n).state = .transit then s.forwardTransit n f
  else if fhTtag h ≠ s.ttag ∧ (s.crew.member ∨ fhType h ≠ 5) then s
  else if s.crew.member ∧ fhDest h ≠ s.crew.coord then s.forward n f
  else if fhType h = 5 then (if 3 < thKind (tickHdrOf f) then s.linkCount n 25 else { s with yard := s.yard.takeTick f })
  else if s.yard.placed.contains (fhSrc h, fhMsg h, fhOffset h) then s.linkCount n 26
  else { s with yard := { s.yard with placed := s.yard.placed ++ [(fhSrc h, fhMsg h, fhOffset h)], rx := s.yard.rx ++ [f] } }

/-- FLIT_RECEIVE (R487 to R489). What link-local and LINK_STATE flits carry comes in rows of its own. -/
def execFlitReceive (port : Nat) (hdr : BitVec 128) (payload : List Byte) (s : State) : Out :=
  needPart (port < 12) "optical port"
    (if !(s.port port).locked then .next s
     else if fhCrc hdr ≠ flitCrc hdr payload then .next ((s.linkCount port 20).pulse (0x30 + port))
     else
       let s := s.linkCount port (36 + fhVc hdr)
       let s := if fhAckValid hdr then s.setPort port ((s.port port).ack (fhLack hdr)) else s
       if s.flitBad hdr then .next (if fhType hdr < 5 then s.linkCount port 25 else (s.linkCount port 25).lostInFlight port)
       else if fhType hdr < 5 then .next s
       else
         let a := (s.port port).account (fhLseq hdr)
         let s := (s.setPort port a.1).sendNaks port a.2
         if fhType hdr = 6 then .next (s.returnCredit port hdr) else .next (s.deliver port ⟨hdr, payload⟩))

/-- The index of a VC and buffer class among the credits. -/
def creditIx (h : BitVec 128) : Nat := 2 * fhVc h + bit (fhDetour h)

/-- Entries of the replay buffer that VC0 and VC1 hold (R490). -/
def LinkPort.heldByAck (p : LinkPort) : Nat := (p.replay.filter fun f => decide (fhVc f.hdr < 2)).length

/-- A waiting flit may be sent: it has a credit, and VC0 and VC1 stall at 192 entries (R490, R492). -/
def LinkPort.sendable (p : LinkPort) (f : Flit) : Bool :=
  decide (0 < p.credits[creditIx f.hdr]?.getD 0) && (decide (2 ≤ fhVc f.hdr) || decide (p.heldByAck < 192))

/-- The flit that the port sends next, by strict VC priority, oldest first within a VC (R486). -/
def LinkPort.nextFlit (p : LinkPort) : Option Flit :=
  ((List.range 4).flatMap fun v => p.txq.filter fun f => fhVc f.hdr == v && p.sendable f).head?

/-- The replay buffer with one more flit: the oldest VC2 or VC3 entry gives way when all 256 are in use (R490). -/
def addReplay (r : List Flit) (f : Flit) : List Flit :=
  if r.length < 256 then r ++ [f] else r.eraseP (fun g => decide (2 ≤ fhVc g.hdr)) ++ [f]

/-- LACK and ACK_VALID of the flits a port sends (R489). -/
def LinkPort.lackNow (p : LinkPort) : Nat × Bool :=
  let next := p.missing.foldl (fun a m => if seqDist m p.rxNext > seqDist a p.rxNext then m else a) p.rxNext
  ((next + 4095) % 4096, decide (next ≠ 0))

/-- A flit with the acknowledgement and the CRC under which the port sends it. -/
def LinkPort.close (p : LinkPort) (f : Flit) : Flit :=
  let h := putFld f.hdr 35 12 p.lackNow.1
  let h := putFld h 34 1 (bit p.lackNow.2)
  let h := putFld (putFld h 32 2 0) 0 32 0
  { f with hdr := putFld h 0 32 (flitCrc h f.payload) }

/-- A sequenced flit as the port sends it (R489). -/
def LinkPort.stamp (p : LinkPort) (f : Flit) : Flit := p.close { f with hdr := putFld f.hdr 47 12 p.lseq }

/-- An IDLE flit: it carries an acknowledgement and no data (R485, R489). LEN is 1, since R487 discards a LEN of 0 (DEDUCED, log 16). -/
def LinkPort.idleFlit (p : LinkPort) : Flit := p.close ⟨place 128 61 4 1, List.replicate 240 0⟩

/-- Event of LINK_PORT that a sent flit's type adds to (R705). -/
def typeEvent (t : Nat) : Nat := if t = 0 then 59 else if t = 1 then 60 else if t = 5 then 61 else if t = 6 then 62 else 63

/-- FLIT_SEND: the next flit of an UP or TRANSIT port goes out; a locked port with no flit ready sends IDLE (R485, R486, R489, R490, R492, R493). -/
def execFlitSend (port : Nat) (s : State) : Out :=
  needPart (port < 12) "optical port"
    (let p := s.port port
     match (if (p.state == .up || p.state == .transit) && p.laser then p.nextFlit else none) with
     | none =>
       when p.locked s (((s.setPort port { p with wire := p.wire ++ [p.idleFlit] }).linkCount port 32).linkCount port 59)
     | some f =>
       let g := p.stamp f
       .next (((s.setPort port { p with
         txq := p.txq.erase f, replay := addReplay p.replay g, wire := p.wire ++ [g], lseq := (p.lseq + 1) % 4096,
         credits := p.credits.modify (creditIx f.hdr) (· - 1) }).linkCount port (32 + fhVc f.hdr)).linkCount port
           (typeEvent (fhType f.hdr))))

/-- NAK: the sender resends each named flit that it still holds; one it no longer holds is lost (R491, R515). -/
def execNak (port : Nat) (seqs : List Nat) (s : State) : Out :=
  needPart (port < 12) "optical port"
    (if !(s.port port).locked then .next s
     else
       .next (seqs.foldl (fun s q =>
         let p := s.port port
         match p.replay.find? fun f => fhLseq f.hdr == q with
         | some f => (s.setPort port { p with wire := p.wire ++ [f] }).linkCount port 23
         | none => (s.linkCount port 24).lostInFlight port) ((s.linkCount port 22).pulse (0x30 + port))))

/-- CREDIT: buffer credits return per VC and class (R492). -/
def execCredit (port : Nat) (returns : List (Nat × Nat × Nat)) (s : State) : Out :=
  needPart (port < 12) "optical port"
    (let p := s.port port
     when p.locked s
      (s.setPort port { p with
        credits := returns.foldl (fun (cs : List Nat) (r : Nat × Nat × Nat) => cs.modify (2 * r.1 + r.2.1) (· + r.2.2)) p.credits }))

/-! ### Losing a link (R513 to R516) -/

/-- A port that can lose its link: past lane lock. -/
def LinkPort.live (p : LinkPort) : Bool := p.state != .off && p.laser && p.step != 1

/-- Send a flit of a lost port again by another route (R514). A routed flit for which no route is left is discarded and lost (R510);
a flooded one is not missed, since the loss floods a new record. -/
def State.reroute (s : State) (lost : Nat) (f : Flit) : State :=
  match s.routeOut (fhSrc f.hdr) (fhDest f.hdr) (fhMsg f.hdr) none with
  | none => if fhType f.hdr = 6 then s else s.lostInFlight lost
  | some (n, det) =>
    let s := s.enqueue n { f with hdr := if det then putFld f.hdr 121 1 1 else f.hdr }
    if det && !fhDetour f.hdr then s.linkCount n 27 else s

/-- Send a foreign crew's flit of a lost TRANSIT port through another one (R511, R514). -/
def State.rerouteTransit (s : State) (n : Nat) (f : Flit) : State :=
  match s.transitOut n (fhDest f.hdr) with
  | some m => s.enqueue m f
  | none => s.linkCount n 51

/-- The link of a port is lost (R513): DOWN_NOTICE, laser off, training from step 1. Held flits take other routes; a flit sent and neither
acknowledged nor held fails the attempt; the loss of an UP link is flooded, and members may be lost with it. -/
def State.loseLink (s : State) (n reason : Nat) : State :=
  let p := s.port n
  let unheld := p.replay.length < seqDist p.acked p.lseq
  let s := s.setPort n { p.restart reason with lost := true, laser := false, replay := [], txq := [], acked := p.lseq, missing := [] }
  let s := (((s.linkCount n 29).linkCount n 30).pulse (0x30 + n)).send (.downNotice n)
  let s := if unheld ∧ (p.state = .up ∨ p.state = .transit) then s.lostInFlight n else s
  if p.state = .up then ((p.replay ++ p.txq).foldl (fun s f => s.reroute n f) s).flood.assessCrew
  else if p.state = .transit then (p.replay ++ p.txq).foldl (fun s f => s.rerouteTransit n f) s
  else s

/-- DOWN_NOTICE received (R513). -/
def execDownNotice (port : Nat) (s : State) : Out :=
  needPart (port < 12) "optical port" (when (s.port port).live s (s.loseLink port 0xD))

/-- LANE_ALIGNMENT_TIMEOUT (R513). -/
def execLaneAlignmentTimeout (port lane : Nat) (s : State) : Out :=
  needPart (port < 12 && lane < 10) "optical port" (when (s.port port).live s (s.loseLink port 1))

/-- FLIT_SILENCE_TIMEOUT (R513). -/
def execFlitSilenceTimeout (port : Nat) (s : State) : Out :=
  needPart (port < 12) "optical port" (when (s.port port).live s (s.loseLink port 3))

/-- NAK_RATE_LIMIT (R513). -/
def execNakRateLimit (port : Nat) (s : State) : Out :=
  needPart (port < 12) "optical port" (when (s.port port).live s (s.loseLink port 4))

/-- LASER_OFF_EXPIRY: the laser returns and training restarts at step 1 (R513). -/
def execLaserOffExpiry (port : Nat) (s : State) : Out :=
  needPart (port < 12) "optical port"
    (let p := s.port port
     when (p.state == .training && !p.laser) s (s.setPort port { p with laser := true, step := 1 }))

/-- LINK_STATE: a newer record replaces the one held and is forwarded; members that it leaves without a path are lost (R516 to R518). -/
def execLinkState (port : Nat) (rec : BitVec 512) (s : State) : Out :=
  needPart (port < 12) "optical port"
    (if (s.port port).state ≠ .up ∨ ¬s.crew.member then .next s
     else if !linkStateOk rec then .next (s.linkCount port 25)
     else
       let newer := match s.yard.records.find? fun e => e.1 == lsOrigin rec with
         | none => true
         | some e => decide (lsEpoch e.2 < lsEpoch rec) || (lsEpoch e.2 == lsEpoch rec && decide (lsSeq e.2 < lsSeq rec))
       when newer s
        ((({ s with yard := { s.yard with records := Sparse.set 0 s.yard.records (lsOrigin rec) rec, stale := true } }).sendRecord rec
          (some port)).assessCrew))

/-! ### Route tables (R506, R507) -/

/-- A record shows a port in one of the listed states toward a coordinate. -/
def showsState (r : Option (BitVec 512)) (codes : List Nat) (c : Nat) : Bool :=
  match r with
  | some r => (List.range 12).any fun n => codes.contains (lsState r n) && lsPeer r n == c
  | none => false

/-- An edge of the graph G of R507: an UP link between members, a READY link that the commit makes UP, or a member's TRANSIT link. -/
def State.routeEdge (s : State) (u v : Nat) : Bool :=
  let m (c : Nat) : Bool := s.crew.members.any fun x => x.coord == c
  let one (a b : Nat) : Bool := m a && showsState (s.recordOf a) (if m b then [6] else [4, 6]) b
  if m u && m v then s.linked u v || (one u v && one v u) else one u v || one v u

/-- Vertices level by level from those in front, `k` levels at most. -/
def levels (edge : Nat → Nat → Bool) (vs : List Nat) : Nat → Nat → List Nat → List (Nat × Nat) → List (Nat × Nat)
  | 0, _, _, acc => acc
  | k + 1, l, front, acc =>
    let new := vs.filter fun v => !(acc.any fun a => a.1 == v) && front.any fun u => edge u v
    if new = [] then acc else levels edge vs k (l + 1) new (acc ++ new.map fun v => (v, l))

/-- Distances from a vertex. -/
def distances (edge : Nat → Nat → Bool) (vs : List Nat) (c : Nat) : List (Nat × Nat) := levels edge vs vs.length 1 [c] [(c, 0)]

/-- The distance of a vertex, if it can be reached. -/
def distOf (ds : List (Nat × Nat)) (c : Nat) : Option Nat := (ds.find? fun e => e.1 == c).map Prod.snd

/-- The neighbours of `u` as (distance, dimension), ranked as R507 ranks them. -/
def rankedHops (kind : Bool) (dims : Nat) (edge : Nat → Nat → Bool) (ds : List (Nat × Nat)) (u : Nat) : List (Nat × Nat) :=
  let cand := (List.range dims).filterMap fun l =>
    let w := neighbour kind u l
    if edge u w then (distOf ds w).map fun k => (k, l) else none
  (List.range (ds.length + 1)).flatMap fun k => cand.filter fun x => x.1 == k

/-- The route entry of a destination (R506, R507). -/
def State.routeRow (s : State) (d : Nat) : W64 :=
  let ds := distances s.routeEdge (List.range (2 ^ s.img.dims)) d
  let hops := rankedHops s.img.crossed s.img.dims s.routeEdge ds s.crew.coord
  let nh (i : Nat) : Nat := (hops[i]?.map Prod.snd).getD 0xF
  place 64 60 4 (nh 0) ||| place 64 56 4 (nh 1) ||| place 64 52 4 (nh 2) ||| place 64 48 4 (nh 3) |||
    place 64 44 4 (min 15 ((distOf ds s.crew.coord).getD 15))

/-- The Forester's route table (R507). -/
def State.buildRoutes (s : State) : Sparse W64 :=
  (List.range (2 ^ s.img.dims)).foldl (fun (m : Sparse W64) d => Sparse.set noRoute m d (s.routeRow d)) []

/-! ### The tick tree (R59, R512) -/

/-- The parent of a member: its next hop toward the master over UP links (R512). -/
def State.parentOf (s : State) (c : Nat) : Option Nat :=
  if c = s.crew.master then none
  else
    let ds := distances s.linked (s.crew.members.map (·.coord)) s.crew.master
    (rankedHops s.img.crossed s.img.dims s.linked ds c).head?.map fun x => neighbour s.img.crossed c x.2

/-- The children of this member, ascending. -/
def State.treeChildren (s : State) : List Nat :=
  (List.range (2 ^ s.img.dims)).filter fun c => (s.crew.members.any fun m => m.coord == c) && s.parentOf c == some s.crew.coord

/-- The children of this member in the tree of a master that a FORM edge names: the members found lost are no part of it (R59, R63, R692). -/
def State.formTree (s : State) (m : Nat) : List Nat :=
  ({ s with crew := { s.crew with master := m, members := s.crew.members.filter fun x => !(s.crew.lostNow.contains x.coord) } }).treeChildren

/-- The UP port toward a member, where a message from it is counted. -/
def State.portTo (s : State) (c : Nat) : Nat := (s.allUp.find? fun n => (s.port n).peerCoord == c).getD 0

end Sys2Proof.Machine
end

