-- ==== Sys2Proof/Machine/Flags.lean ====
section
/-! DEFINITION. Numeric flags: how an operation's flags are counted and reach the completion of a request (R148, R149). -/

namespace Sys2Proof.Machine

/-- The environment of vector arithmetic: micro-programs, effective compatibility and OVF (R140, R243). -/
def State.env (s : State) : Env := ⟨s.img.micro, s.sys.compat, s.ovf⟩

/-- A core counts every flag event: CORE events 17 to 19 (R149, R704). -/
def State.countFlags (s : State) (die core : Nat) (f : Flags) : State :=
  let base := core * 128
  let s := if f.inv = 0 then s else s.count die 1 (base + 17) f.inv
  let s := if f.ovf = 0 then s else s.count die 1 (base + 18) f.ovf
  if f.unf = 0 then s else s.count die 1 (base + 19) f.unf

/-- Record flags for a request in the attempt; a replay drops them (R149). -/
def State.raiseFlags (s : State) (die core : Nat) (rid : Option Nat) (f : Flags) : State :=
  let s := s.countFlags die core f
  match rid with
  | none => s
  | some r => if f.bits = 0 then s else { s with fore := { s.fore with flags := s.fore.flags ++ [(r, f.bits)] } }

/-- The flags of one request in the attempt, ORed. -/
def flagsOf (fs : List (Nat × Nat)) (rid : Nat) : Nat :=
  (fs.filter fun p => p.1 == rid).foldl (fun a p => a ||| p.2) 0

/-- The commit ORs the attempt's flags into the requests (R149). -/
def State.commitFlags (s : State) : State :=
  let fs := s.fore.flags
  { s with
    reqs := s.reqs.map fun r =>
      let b := flagsOf fs r.rid
      { r with invalid := r.invalid || b.testBit 0, overflow := r.overflow || b.testBit 1, underflow := r.underflow || b.testBit 2 }
    fore := { s.fore with flags := [] } }

end Sys2Proof.Machine
end

