-- ==== Sys2Proof/Machine/ImageCheck.lean ====
section
/-! DEFINITION. The checks of the configuration image: layout (R630 to R635) and the VERIFY checks in their order (R651). A failure is a
fault class with its detail (R592). -/

namespace Sys2Proof.Machine

/-- A start-up failure: FAULT_CLASS and FAULT_DETAIL (R592). -/
abbrev StartFault := Option (Nat × Nat)

/-- The first failure of two checks made in order. -/
def orFault (a b : StartFault) : StartFault := if a.isSome then a else b

/-- The first failure of a list of checks. -/
def firstFault (cs : List StartFault) : StartFault := cs.foldl orFault none

/-- A failure when the condition holds. -/
def faultIf (c : Bool) (cls detail : Nat) : StartFault := if c then some (cls, detail) else none

/-- Ceiling to a multiple of 16. -/
def up16 (n : Nat) : Nat := (n + 15) / 16 * 16

/-- A number read from the NOR. -/
def norNum (nor : Mem) (a n : Nat) : Nat := leNat (norBytes nor a n)

/-- A bit field of a number. -/
def bits (x lo len : Nat) : Nat := (x >>> lo) % 2 ^ len

/-! ### Layout (R631 to R634) -/

/-- The 128-byte header as a number (R631). -/
def imgHeader (nor : Mem) : Nat := norNum nor 0 128

def imgSections (h : Nat) : Nat := bits h 960 16
def imgBytes (h : Nat) : Nat := bits h 928 32

/-- Check 1 of R634. -/
def headerBad (h : Nat) : Bool :=
  bits h 992 32 != 0x5A464E42 || bits h 976 16 != 1 || imgSections h == 0 || decide (64 < imgSections h) ||
    decide (268369920 < imgBytes h) || decide (imgBytes h < 128 + 32 * imgSections h) || bits h 512 384 != 0

/-- Directory entry `i` (R632). -/
def dirEntry (nor : Mem) (i : Nat) : Nat := norNum nor (128 + 32 * i) 32

/-- Section types that R633 defines. -/
def sectionTypes : List Nat := [0x01, 0x02, 0x03, 0x10, 0x11, 0x12, 0x13, 0x14, 0x15, 0x16, 0x17]

/-- Most entries of a type (R633). -/
def typeMax (t : Nat) : Nat := if t = 3 then 2 else 1

/-- Fewest entries of a type (R633). -/
def typeMin (t : Nat) : Nat := if t = 3 then 2 else if t = 0x16 ∨ t = 0x17 then 0 else 1

/-- A directory entry's TYPE, OFFSET and LENGTH, without a digest. -/
def sectionOf (e : Nat) : Section := { type := bits e 248 8, offset := bits e 192 32, len := bits e 160 32, digest := [] }

/-- The directory as read. -/
def directory (nor : Mem) (n : Nat) : List Section := (List.range n).map fun i => sectionOf (dirEntry nor i)

/-- The first section of a type. -/
def findSection (ss : List Section) (t : Nat) : Section :=
  (ss.find? fun x => x.type == t).getD { type := 0, offset := 0, len := 0, digest := [] }

/-- Total length of the records of an INDEX section and their number (R649), with fuel. -/
def indexWalk (nor : Mem) (off len : Nat) : Nat → Nat → Nat → Option (Nat × Nat)
  | 0, _, _ => none
  | fuel + 1, at_, n =>
    if at_ = len then some (at_, n)
    else if at_ + 16 > len then none
    else indexWalk nor off len fuel (at_ + 16 + 1024 * bits (norNum nor (off + at_) 16) 106 6) (n + 1)

/-- The defined length of R634's second table. -/
def lengthOk (nor : Mem) (ss : List Section) (x : Section) : Bool :=
  let len := x.len
  if x.type = 0x01 then decide (64 ≤ len)
  else if x.type = 0x02 then len % 16 == 0 && decide (16 ≤ len)
  else if x.type = 0x03 then len == 4656
  else if x.type = 0x10 then len == 128
  else if x.type = 0x11 then decide (16 ≤ len) && decide (16 + 16 * bits (norNum nor x.offset 16) 0 16 ≤ len)
  else if x.type = 0x12 then len == 40
  else if x.type = 0x13 then decide (16 ≤ len) && len == 16 + 16 * bits (norNum nor x.offset 16) 17 13
  else if x.type = 0x14 then len == 12304
  else if x.type = 0x15 then len == 512 * bits (norNum nor (findSection ss 0x10).offset 128) 928 16
  else if x.type = 0x16 then
    match indexWalk nor x.offset len 18 0 0 with
    | some (_, n) => decide (1 ≤ n ∧ n ≤ 16)
    | none => false
  else len == 8

/-- TOPOLOGY breaks R646. -/
def topologyBad (nor : Mem) (x : Section) : Bool :=
  let h := norNum nor x.offset 16
  let n := bits h 17 13
  let es := (List.range n).map fun i => norNum nor (x.offset + 16 + 16 * i) 16
  let ids := es.map fun e => bits e 0 64
  let cs := es.map fun e => bits e 64 12
  decide (12 < bits h 0 4) || decide (4096 < n) || bits h 30 98 != 0 ||
    es.any (fun e => bits e 0 64 == 0 || decide (2 ^ bits h 0 4 ≤ bits e 64 12) || bits e 76 52 != 0) ||
    !decide ids.Nodup || !decide cs.Nodup

/-- Check 8 of R634 for one section. -/
def contentBad (nor : Mem) (x : Section) : Bool :=
  if x.type = 3 then !allZero (norBytes nor (x.offset + 1) 15) || !allZero (norBytes nor (x.offset + 4643) 13)
  else if x.type = 0x13 then topologyBad nor x
  else if x.type = 0x11 then
    let h := norNum nor x.offset 16
    bits h 0 16 == 0 || decide (256 < bits h 0 16) || bits h 16 112 != 0
  else false

/-- The first directory index that fails a test. -/
def firstIndex {α : Type} (p : Nat → α → Bool) (xs : List α) : Option Nat :=
  ((List.range xs.length).zip xs).findSome? fun e => if p e.1 e.2 then some e.1 else none

/-- Byte ranges that overlap. -/
def overlaps (a la b lb : Nat) : Bool := decide (a < b + lb) && decide (b < a + la)

/-- A failure of class 0x02 at the directory entry that fails. -/
def atEntry (o : Option Nat) : StartFault := o.map fun i => (2, (128 + 32 * i) / 16)

/-- The layout checks of R634 in order. -/
def layoutFault (nor : Mem) : StartFault :=
  let h := imgHeader nor
  if headerBad h then some (2, 0)
  else
    let n := imgSections h
    let es := (List.range n).map (dirEntry nor)
    let ss := es.map sectionOf
    let body := norBytes nor 128 (imgBytes h - 128)
    let missing := (sectionTypes.filter fun t => decide ((ss.filter fun x => x.type == t).length < typeMin t))
    firstFault
      [faultIf (leBytes 64 (bits h 0 512) != sha3_512 body) 2 0,
       atEntry (firstIndex (fun _ e => bits e 224 24 != 0 || bits e 0 160 != 0 || !sectionTypes.contains (bits e 248 8) ||
         bits e 192 32 % 16 != 0) es),
       atEntry (firstIndex (fun i x => decide (typeMax x.type ≤ ((ss.take i).filter fun y => y.type == x.type).length)) ss),
       faultIf (!missing.isEmpty) 2 ((128 + 32 * n) / 16),
       atEntry (firstIndex (fun i x => overlaps x.offset x.len 0 (128 + 32 * n) || decide (imgBytes h < x.offset + x.len) ||
         (ss.take i).any fun y => overlaps x.offset x.len y.offset y.len) ss),
       atEntry (firstIndex (fun _ x => !lengthOk nor ss x) ss),
       (firstIndex (fun _ x => contentBad nor x) ss).map fun i => (2, (ss.getD i (findSection ss 0)).offset / 16)]

/-! ### VERIFY step 1: signatures (R638) -/

/-- The signature of a signed section fails (R638). -/
def signatureFault (nor : Mem) (ss : List Section) (t : Nat) : StartFault :=
  let sigs := (ss.filter fun x => x.type == 3).filter fun x => norNum nor x.offset 1 == t
  let n := ((firstIndex (fun _ x => x.type == t) ss).getD 0)
  match sigs with
  | [x] => faultIf (!Config.vendorVerify ((findSection ss t).digest) (norBytes nor (x.offset + 16) 4627)) 1 n
  | _ => some (1, n)

/-! ### VERIFY step 2: micro-programs (R637, R218) and collectives (R523) -/

/-- An entry of MICROPROGRAM (R637): its number, offset of the body, KIND, PROGRAM and body length. -/
structure MpEntry where
  num  : Nat
  body : Nat
  kind : Nat
  prog : Nat
  len  : Nat
  deriving DecidableEq, Repr

/-- FAULT_DETAIL of class 0x05 (R592). -/
def mpDetail (entry id word : Nat) (coll : Bool) : Nat := entry * 65536 + id * 256 + bit coll * 32 + word

/-- Walk the entries; the failure of the first entry that breaks R637, and the entries before it. `off` is relative to the section. -/
def mpWalk (nor : Mem) (base len : Nat) : Nat → Nat → Nat → List MpEntry × StartFault
  | 0, _, _ => ([], none)
  | fuel + 1, off, num =>
    if off + 16 > len then ([], none)
    else
      let h := norNum nor (base + off) 16
      let kind := bits h 120 8
      let prog := bits h 116 4
      let blen := bits h 64 32
      let stop := off + 16 + up16 blen
      let pad := norBytes nor (base + off + 16 + blen) (up16 blen - blen)
      let word0 := norNum nor (base + off + 16) 8
      let haveWord := decide (off + 24 ≤ len)
      let bad := (kind != 1 && kind != 2) || (kind == 1 && prog != 0) || bits h 96 20 != 0 || bits h 0 64 != 0 ||
        decide (len < off + 16 + blen) || !allZero pad || (kind == 1 && blen != 128 + 256 * bits word0 48 3)
      if bad then
        let id := if kind = 2 then prog else if kind = 1 ∧ haveWord then bits word0 56 8 else 0
        ([], some (5, mpDetail num id 0x1F (kind == 2)))
      else
        let r := mpWalk nor base len fuel stop (num + 1)
        (⟨num, base + off + 16, kind, prog, blen⟩ :: r.1, r.2)

/-- Word `i` of a special-function record. -/
def recWord (nor : Mem) (e : MpEntry) (i : Nat) : W64 := BitVec.ofNat 64 (norNum nor (e.body + 8 * i) 8)

/-- A record as the function store keeps it (R214). -/
def microOf (nor : Mem) (e : MpEntry) : MicroProg :=
  let h := recWord nor e 0
  { id := fld h 56 8, maelov := bitAt h 55, segs := fld h 48 3,
    steps := (List.range (fld h 51 4)).map fun i => recWord nor e (i + 1),
    table := (List.range (64 * fld h 48 3)).map fun i => BitVec.ofNat 32 (norNum nor (e.body + 128 + 4 * i) 4) }

/-- Reserved OP, MODE, PARM or reserved bits in a step word (R215, R216). -/
def stepReserved (w : W64) : Bool :=
  let op := stepOp w
  let mode := stepMode w
  let parm := stepParm w
  let modeOk := if op = 1 then mode == 0 else if op = 2 then decide (mode ≤ 3) else if op = 3 then decide (mode ≤ 1)
    else if op = 4 then mode == 0 else if op = 5 then decide (mode ≤ 3) else if op = 6 then decide (mode ≤ 5) else false
  let parmOk := if op = 3 then decide (1 ≤ parm ∧ parm ≤ 6) else if op = 4 then decide (1 ≤ parm) else parm == 0
  !modeOk || !parmOk || fld w 45 1 != 0 || fld w 0 30 != 0 || (op != 1 && stepClass w != 0)

/-- Table words that a step addresses, counted from its first word (R216); 0 for none. -/
def stepReach (w : W64) : Nat :=
  let op := stepOp w
  let mode := stepMode w
  if op = 2 then (if mode ≤ 1 then stepToff w + 3 else 0)
  else if op = 3 then stepToff w + (if mode = 0 then 2 ^ stepParm w else 2 * 2 ^ stepParm w)
  else if op = 4 then stepToff w + stepParm w + 1
  else if op = 5 then (if mode = 1 then stepToff w + 1 else 0)
  else if op = 6 then (if mode ≤ 1 then stepToff w + 1 else 0)
  else 0

/-- The lowest-numbered word of a record that fails a condition on one record (R218). -/
def recordBadWord (h : W64) (ws : List W64) : Option Nat :=
  let steps := fld h 51 4
  let segs := fld h 48 3
  let bad (i : Nat) : Bool :=
    if i = 0 then
      fld h 56 8 == 0 || fld h 56 8 == 0xFF || steps == 0 || decide (8 < steps) || decide (4 < segs) || fld h 0 48 != 0
    else
      let w := ws.getD (i - 1) 0
      if steps < i then w != 0
      else
        stepReserved w || (stepOp w == 1 && i != 1) || (i == steps && stepOp w != 5 && stepOp w != 6) ||
          decide (64 * segs < stepReach w)
  (List.range 16).find? bad

/-- R218 over the special-function records. -/
def recordFault (nor : Mem) (es : List MpEntry) : StartFault :=
  let rs := es.filter fun e => e.kind == 1
  let hid (e : MpEntry) := fld (recWord nor e 0) 56 8
  let hm (e : MpEntry) := bitAt (recWord nor e 0) 55
  let single := rs.findSome? fun e =>
    (recordBadWord (recWord nor e 0) ((List.range 15).map fun i => recWord nor e (i + 1))).map fun w =>
      (5, mpDetail e.num (hid e) w false)
  let dup := ((List.range rs.length).zip rs).findSome? fun p =>
    if (rs.take p.1).any fun o => hid o == hid p.2 && hm o == hm p.2 then some (5, mpDetail p.2.num (hid p.2) 0 false) else none
  let alone := rs.findSome? fun e =>
    if hm e && !(rs.any fun o => hid o == hid e && !hm o) then some (5, mpDetail e.num (hid e) 0 false) else none
  let need := [0x01, 0x04, 0x07, 0x08].find? fun id => !(rs.any fun o => hid o == id && !hm o)
  let segsOf (id : Nat) := ((rs.find? fun o => hid o == id && !hm o).map fun o => fld (recWord nor o 0) 48 3).getD 0
  firstFault
    [single, dup, alone, need.map fun id => (5, mpDetail 0xFFFF id 0 false),
     faultIf (decide (8 < segsOf 7 + segsOf 8)) 5 (mpDetail 0xFFFF 7 0 false)]

/-- R523 over the collective programs. -/
def collectiveFault (es : List MpEntry) : StartFault :=
  let cs := es.filter fun e => e.kind == 2
  let res := cs.findSome? fun e =>
    if e.prog = 0 ∨ 7 < e.prog then some (5, mpDetail e.num e.prog 0 true) else none
  let missing := (List.range 8).find? fun c => decide (1 ≤ c) && !(cs.any fun e => e.prog == c)
  orFault res (missing.map fun c => (5, mpDetail 0xFFFF c 0 true))

/-! ### VERIFY step 3: the model descriptor (R641) -/

/-- An FP64 encoding is finite. -/
def finite64 (x : Nat) : Bool := (Fp.fp64.value x).isFin

/-- Numeric order on FP64 encodings; false with a NaN. -/
def lt64 (a b : Nat) : Bool := (Fp.fp64.value a).lt (Fp.fp64.value b)

/-- 1.0 in FP64. -/
def one64 : Nat := 0x3FF0_0000_0000_0000

/-- A stream byte that R119 rejects, with the key stream's byte for the width condition. -/
def streamBad (s b key : Nat) : Bool :=
  let fmt := b / 16
  let blk := b % 4
  decide (6 < fmt) || blk == 3 || b / 4 % 4 != 0 || fmt == 6 ||
    (blk != 0 && s != 2 && s != 3 && s != 4) || (blk != 0 && fmt != 3 && fmt != 4 && fmt != 5) ||
    ((s == 2 || s == 3) && blk != 0 && !(blk == 2 && (fmt == 3 || fmt == 4))) ||
    (s == 3 && fmtBits fmt != fmtBits (key / 16))

/-- The first failing field of the model descriptor (R14, R15, R231, R344, R119, R641). `finbath` tells which IDs have a Finbath form. -/
def modelFault (m : BitVec 1024) (finbath : Nat → Bool) : StartFault :=
  let rule := fld m 840 8
  let base := fld m 736 64
  let factor := fld m 672 64
  let lo := fld m 608 64
  let hi := fld m 544 64
  let out (x a b : Nat) : Bool := decide (x < a) || decide (b < x)
  let bad := [(1, out (fld m 1008 16) 1 256), (2, out (fld m 976 32) 1 32768), (3, out (fld m 960 16) 1 256),
      (4, out (fld m 944 16) 1 64), (5, !([64, 128, 256].contains (fld m 928 16))), (6, out (fld m 920 8) 1 16)] ++
    [(7, out (fld m 888 32) 1 131072), (8, out (fld m 856 32) 1 524288), (9, decide (1 < fld m 848 8)),
      (10, decide (2 < rule)), (11, !finbath (fld m 832 8)), (12, fld m 960 16 != fld m 944 16 * fld m 920 8)] ++
    [(13, !normalPos32 (fld m 800 32)), (14, !finite64 base || !lt64 one64 base),
      (15, (rule == 1 || rule == 2) && (!finite64 factor || lt64 factor one64)),
      (16, rule == 2 && !lt64 0 lo), (17, rule == 2 && (!finite64 hi || !lt64 lo hi)), (18, !normalPos32 (fld m 512 32))]
  match bad.find? fun p => p.2 with
  | some p => some (3, p.1 * 65536)
  | none =>
    let b (i : Nat) := fld m (448 + 8 * i) 8
    match (List.range 8).find? fun i => streamBad i (b i) (b 2) with
    | some i => some (3, 19 * 65536 + i)
    | none => faultIf (fld m 0 448 != 0) 3 (20 * 65536)

/-! ### VERIFY step 4: profile (R52, R161, R573, R575, R645) -/

/-- Floor of log2. -/
def log2f (n : Nat) : Nat := Nat.log2 n

/-- The failing field of PROFILE whose lowest bit is lowest. -/
def profileFault (p : BitVec 320) (kvHeads : Nat) : StartFault :=
  let w : BitVec 128 := BitVec.ofNat 128 (fld p 0 128)
  let span := fld p 188 4
  let hg := fld p 184 4
  let bad := (if fld p 0 49 != 0 then [0] else []) ++
    ((profileFields.filter fun f => !profileFieldOk w f.1).map Prod.fst) ++
    (if fld p 128 56 != 0 then [128] else []) ++ (if decide (span < hg) || decide (log2f kvHeads < hg) then [184] else []) ++
    (if 12 < span then [188] else []) ++ (if fld p 257 63 != 0 then [257] else [])
  match bad with
  | [] => none
  | b :: bs => some (6, bs.foldl min b)

/-! ### VERIFY step 5: loop descriptors (R183, R225, R644) -/

/-- FAULT_DETAIL of class 0x04 (R592). -/
def loopDetail (table idx word : Nat) : Nat := table * 2 ^ 24 + idx * 32 + word

/-- A chain step's part of word 2 breaks R176. -/
def chainOpBad (c : ChainStep) : Bool := c.op == 0 || decide (6 < c.op) || ((c.op == 3 || c.op == 6) && c.arg != 0)

/-- A chain step's PARAM breaks R176 or R219. -/
def chainParamBad (finbath : Nat → Bool) (c : ChainStep) : Bool :=
  if c.op = 1 ∨ c.op = 2 ∨ c.op = 4 then c.param != 0
  else if c.op = 3 then !finbath c.param
  else if c.op = 5 then decide (2 < c.param)
  else if c.op = 6 then decide (c.param = 0) || decide (5 < c.param)
  else false

/-- The word of slot `s`'s part `k` of a used slot breaks R178 to R183. -/
def slotWordBad (d : List W64) (s k : Nat) : Bool :=
  let l := dSlot d s
  let c := descWord d (5 + 3 * s)
  if k = 0 then
    l.role == 3 || l.src == 3 || fld c 32 25 != 0 || (l.src == 1 && decide (32 ≤ l.arg)) ||
      (l.src == 2 && (l.arg % 4 != 0 || decide (2 ^ 28 ≤ l.arg)))
  else if k = 1 then (l.role == 0 && decide (l.sB ≠ 0)) || (l.role == 1 && decide (l.sA ≠ 0))
  else (l.role == 2 && decide (l.sOut ≠ 0)) || fld (descWord d (7 + 3 * s)) 0 32 != 0

/-- A failing condition of R183 is charged to word `w` of the descriptor. -/
def descWordBad (finbath : Nat → Bool) (d : List W64) (w : Nat) : Bool :=
  let levels := dLevels d
  let used := min levels 6
  let len := dChainLen d
  let all8 := (List.range 8).map (dStep d)
  if w = 0 then
    decide (1 < dKind d) || levels == 0 || levels == 7 || decide (6 < dFmtA d) || decide (6 < dFmtB d) || decide (5 < dFmtOut d) ||
      dBlkA d == 3 || dBlkB d == 3 || dBlkOut d == 3 || dResident d == 3 || decide (8 < len) || fld (descWord d 0) 0 30 != 0 ||
      (dResident d != 0 && decide (levels ≤ dResPos d)) || (dKind d == 1 && dResident d == 1)
  else if w = 1 then
    dMT d == 0 || decide (2048 < dMT d) || dNT d == 0 || decide (2048 < dNT d) || dKT d == 0 || decide (16384 < dKT d) ||
      decide (131072 < dMT d * dNT d) || decide (128 < dAUnits d + dBUnits d + dDrainUnits d) || dAUnits d == 0 ||
      dBUnits d == 0 || dDrainUnits d == 0 || fld (descWord d 1) 0 14 != 0 || (dBlkOut d != 0 && dNT d % 32 != 0)
  else if w = 2 then
    (all8.take len).any chainOpBad || (all8.drop len).any fun c => c.op != 0 || c.arg != 0
  else if w = 3 then
    (all8.take len).any (chainParamBad finbath) || (all8.drop len).any fun c => c.param != 0
  else if w = 4 then
    if dKind d = 1 then
      let h := signed 5 (fld (descWord d 4) 59 5)
      decide (h < -8) || decide (8 < h) || fld (descWord d 4) 0 59 != 0
    else descWord d 4 != 0
  else if w = 23 then descWord d 23 != 0
  else
    let s := (w - 5) / 3
    let k := (w - 5) % 3
    if s < used then
      let poss := (List.range used).map fun i => (dSlot d i).pos
      slotWordBad d s k || (k == 0 && s + 1 == used && !(List.range used).all fun n => poss.contains n)
    else descWord d w != 0

/-- The word that a failing descriptor names (R183). -/
def descBadWord (finbath : Nat → Bool) (d : List W64) : Option Nat := (List.range 24).find? (descWordBad finbath d)

/-- Segments of the distinct ACT programs of a descriptor, Finbath forms or forms under compatibility (R225). -/
def actSegs (ps : List MicroProg) (compat : Bool) (d : List W64) : Nat :=
  let ids := ((dChain d).filter fun c => c.op == 3).map (·.param)
  ids.dedup.foldl (fun a id => a + ((microFor ps compat id).map (·.segs)).getD 0) 0

/-- One descriptor under R183, then R225. -/
def descFault (ps : List MicroProg) (table idx : Nat) (d : List W64) : StartFault :=
  let finbath (id : Nat) := ps.any fun p => p.id == id && !p.maelov
  match descBadWord finbath d with
  | some w => some (4, loopDetail table idx w)
  | none => faultIf (decide (8 < actSegs ps false d) || decide (8 < actSegs ps true d)) 4 (loopDetail table idx 3)

/-- The descriptors of table `t` of LOOP_TABLES at section offset `base`. -/
def tableDescs (nor : Mem) (base t : Nat) : LoopTable :=
  let h := norNum nor (base + 16 + 16 * t) 16
  { operation := bits h 112 16,
    descs := (List.range (bits h 96 16)).map fun i => (List.range 24).map fun k =>
      BitVec.ofNat 64 (norNum nor (base + bits h 64 32 + 192 * i + 8 * k) 8) }

/-- LOOP_TABLES (R644, then every descriptor). An OFFSET that is not a multiple of 16 counts as a header fault (DEDUCED, log 28). -/
def loopFault (nor : Mem) (x : Section) (ps : List MicroProg) : StartFault :=
  let n := bits (norNum nor x.offset 16) 0 16
  let head (t : Nat) := norNum nor (x.offset + 16 + 16 * t) 16
  let op (t : Nat) := bits (head t) 112 16
  let hdrBad (t : Nat) : Bool :=
    op t == 0 || decide (7 < op t) || (List.range t).any (fun u => op u == op t) || bits (head t) 96 16 == 0 ||
      bits (head t) 0 64 != 0 || bits (head t) 64 32 % 16 != 0 ||
      decide (x.len < bits (head t) 64 32 + 192 * bits (head t) 96 16)
  let hdr := ((List.range n).find? hdrBad).map fun t => (4, loopDetail t 0x7FFFF 0x1F)
  let missing := faultIf (!((List.range 7).all fun o => (List.range n).any fun t => op t == o + 1)) 4 (loopDetail 0xFF 0x7FFFF 0x1E)
  let descs := (List.range n).findSome? fun t =>
    let ds := (tableDescs nor x.offset t).descs
    ((List.range ds.length).zip ds).findSome? fun p => descFault ps t p.1 p.2
  firstFault [hdr, missing, descs]

/-! ### VERIFY steps 6 and 7: quota (R647) and indexes (R430, R431) -/

/-- The lot record of lot `l` in QUOTA. -/
def quotaLot (nor : Mem) (x : Section) (l : Nat) : BitVec 128 := BitVec.ofNat 128 (norNum nor (x.offset + 8208 + 16 * l) 16)

def quotaFault (nor : Mem) (x : Section) : StartFault :=
  let h := norNum nor x.offset 16
  let recs := (List.range 256).map (quotaLot nor x)
  firstFault
    [faultIf (decide (8192 < bits h 0 14) || bits h 14 114 != 0) 7 0x101,
     (firstIndex (fun _ r => fld r 0 13 != 0) recs).map fun l => (7, l),
     faultIf (decide (65536 < recs.foldl (fun a r => a + fld r 16 16) 0)) 7 0x100]

/-- Fields of an index record (R429). -/
def ixId (r : BitVec 128) : Nat := fld r 112 16
def ixM (r : BitVec 128) : Nat := fld r 106 6
def ixDegree (r : BitVec 128) : Nat := fld r 99 7
def ixLDefault (r : BitVec 128) : Nat := fld r 88 11
def ixLot (r : BitVec 128) : Nat := fld r 80 8
def ixMaxNodes (r : BitVec 128) : Nat := fld r 48 32
def ixSideMax (r : BitVec 128) : Nat := fld r 24 24
def ixMergeAt (r : BitVec 128) : Nat := fld r 0 24

/-- A record outside R429. -/
def indexRecordBad (r : BitVec 128) : Bool :=
  ixId r == 0xFFFF || decide (ixM r < 8) || decide (32 < ixM r) || decide (ixDegree r < 8) || decide (64 < ixDegree r) ||
    decide (ixLDefault r < 16) || decide (1024 < ixLDefault r) || ixMaxNodes r == 0 || ixMaxNodes r == 0xFFFF_FFFF ||
    decide (ixSideMax r < 1024) || ixMergeAt r == 0 || decide (ixSideMax r < ixMergeAt r)

/-- The index records of an INDEX section with their codebooks, with fuel (R649). -/
def indexRecords (nor : Mem) : Nat → Nat → Nat → List (BitVec 128 × List Byte)
  | 0, _, _ => []
  | fuel + 1, off, stop =>
    if off + 16 > stop then []
    else
      let r : BitVec 128 := BitVec.ofNat 128 (norNum nor off 16)
      (r, norBytes nor (off + 16) (1024 * ixM r)) :: indexRecords nor fuel (off + 16 + 1024 * ixM r) stop

/-- Record slot size S_rec (R441). -/
def recSize (r : BitVec 128) : Nat :=
  let need := 32 + ixDegree r * (4 + ixM r) + ixM r
  if need ≤ 1024 then 1024 else if need ≤ 2048 then 2048 else 4096

/-- Whole frames of 16 KiB. -/
def frames (n : Nat) : Nat := ceilDiv n 16384

/-- Flash frames an index reserves (R431). -/
def indexFrames (r : BitVec 128) : Nat :=
  2 * frames (ixMaxNodes r * recSize r) + frames (64 * ixSideMax r) + frames (16 * (ixMaxNodes r + ixSideMax r)) +
    2 * frames (1024 * ixM r)

/-- The tensors that a model descriptor implies: ROWS, COLS and stream (R655), each with its code and layer. -/
def tensors (m : BitVec 1024) : List (Nat × Nat × Nat × Nat × Nat) :=
  let w := fld m 976 32
  let v := fld m 856 32
  let f := fld m 888 32
  let d := fld m 928 16
  let hq := fld m 960 16 * d
  let hkv := fld m 944 16 * d
  let layer := fld m 848 8 == 1
  let per (l : Nat) := [(0x02, l, 1, w, 7)] ++ (if layer then [(0x03, l, 1, w, 7)] else []) ++
    [(0x04, l, hq, w, 1), (0x05, l, hkv, w, 1), (0x06, l, hkv, w, 1), (0x07, l, w, hq, 1), (0x08, l, 1, w, 7)] ++
    (if layer then [(0x09, l, 1, w, 7)] else []) ++ [(0x0A, l, f, w, 4), (0x0B, l, f, w, 4), (0x0C, l, w, f, 4)]
  [(0x01, 0, v, w, 0)] ++ (List.range (fld m 1008 16)).flatMap per ++ [(0x0D, 0, 1, w, 7)] ++
    (if layer then [(0x0E, 0, 1, w, 7)] else []) ++ [(0x0F, 0, v, w, 5)]

/-- Exponent bytes of a blocked tensor: one for each block of a row (R128, R129). -/
def expBytes (rows cols blk : Nat) : Nat := if blk = 0 then 0 else rows * ceilDiv cols blk

/-- Frames of one full weight copy (R431). -/
def weightFrames (m : BitVec 1024) : Nat :=
  let ts := tensors m
  let one (t : Nat × Nat × Nat × Nat × Nat) : Nat :=
    let b := fld m (448 + 8 * t.2.2.2.2) 8
    frames (ceilDiv (t.2.2.1 * t.2.2.2.1 * fmtBits (b / 16)) 8) + frames (expBytes t.2.2.1 t.2.2.2.1 ((blkOf (b % 4)).getD 0))
  ts.foldl (fun a t => a + one t) 0 + frames (128 + 32 * ts.length)

/-- INDEX (R430), then the flash reservation (R431): the record at which the running total passes the user flash (DEDUCED, log 28). -/
def indexFault (rs : List (BitVec 128)) (m : BitVec 1024) : StartFault :=
  let bad := firstIndex (fun i r => indexRecordBad r || (rs.take i).any fun o => ixId o == ixId r) rs
  let excess := firstIndex (fun i _ =>
    decide (3906250000 < 2 * weightFrames m + ((rs.take (i + 1)).map indexFrames).foldl (· + ·) 0)) rs
  orFault (bad.map fun i => (8, i)) (excess.map fun i => (8, i))

/-! ### The order of VERIFY (R651) -/

/-- The first failure of VERIFY, over the loaded image `g`. -/
def verifyFault (nor : Mem) (g : Image) : StartFault :=
  let mp := findSection g.sections 2
  let walk := mpWalk nor mp.offset mp.len (mp.len / 16 + 1) 0 0
  let finbath (id : Nat) := g.micro.any fun p => p.id == id && !p.maelov
  firstFault
    [signatureFault nor g.sections 1, signatureFault nor g.sections 2, walk.2, recordFault nor walk.1, collectiveFault walk.1,
     modelFault g.model finbath, profileFault g.profile (fld g.model 944 16), loopFault nor (findSection g.sections 0x11) g.micro,
     quotaFault nor (findSection g.sections 0x14), indexFault (g.indexes.map Prod.fst) g.model]

/-! ### Weight headers (R654 to R656, R752) -/

/-- Field of the weight header, numbered over its first 128 bytes (R654). -/
def wh (h : List Byte) (lo len : Nat) : Nat := bits (leNat (h.take 128)) lo len
def whBlocks (h : List Byte) : Nat := wh h 976 16
def whTotal (h : List Byte) : Nat := wh h 944 32
def whTensors (h : List Byte) : Nat := wh h 928 16

/-- Tensor entry `i` of a weight header, as a 256-bit number. -/
def whEntry (h : List Byte) (i : Nat) : Nat := leNat (slice h (128 + 32 * i) 32)

/-- Entry fields: TENSOR, LAYER, STREAM, FIRST_BLOCK, BLOCKS, EXP_FIRST, EXP_BLOCKS, ROWS, COLS (R654). -/
def teTensor (e : Nat) : Nat := bits e 248 8
def teLayer (e : Nat) : Nat := bits e 240 8
def teStream (e : Nat) : Nat := bits e 232 8
def teFirst (e : Nat) : Nat := bits e 160 32
def teBlocks (e : Nat) : Nat := bits e 128 32
def teExpFirst (e : Nat) : Nat := bits e 96 32
def teExpBlocks (e : Nat) : Nat := bits e 64 32
def teRows (e : Nat) : Nat := bits e 32 32
def teCols (e : Nat) : Nat := bits e 0 32

/-- The entries of a weight header. -/
def weightEntries (h : List Byte) : List Nat := (List.range (whTensors h)).map (whEntry h)

/-- An entry agrees with a tensor that the model descriptor implies (R655, R656). -/
def entryMatches (m : BitVec 1024) (e : Nat) (t : Nat × Nat × Nat × Nat × Nat) : Bool :=
  teTensor e == t.1 && teLayer e == t.2.1 && teRows e == t.2.2.1 && teCols e == t.2.2.2.1 &&
    teStream e == fld m (448 + 8 * t.2.2.2.2) 8

/-- A weight header meets R656: the MODEL digest, exactly the implied tensors, ranges within TOTAL_BLOCKS, reserved fields zero. -/
def weightHeaderOk (m : BitVec 1024) (digest : List Byte) (h : List Byte) : Bool :=
  let es := weightEntries h
  let ts := tensors m
  slice h 0 64 == digest && wh h 512 416 == 0 && decide (es.length = ts.length) &&
    (ts.all fun t => decide ((es.filter fun e => entryMatches m e t).length = 1)) &&
    (es.all fun e => bits e 224 8 == 0 && decide (teFirst e + teBlocks e ≤ whTotal h) &&
      decide (teExpFirst e + teExpBlocks e ≤ whTotal h))

/-- The layer a tensor entry belongs to (R752). -/
def entryLayer (layers e : Nat) : Nat :=
  if teTensor e = 1 then 0 else if 0x0D ≤ teTensor e then layers - 1 else teLayer e

/-- The blocks of a layer's tensors, exponent blocks included (R403, R752). -/
def layerBlocks (layers : Nat) (h : List Byte) (l : Nat) : List Nat :=
  (weightEntries h).flatMap fun e =>
    if entryLayer layers e = l then
      (List.range (teBlocks e)).map (teFirst e + ·) ++ (List.range (teExpBlocks e)).map (teExpFirst e + ·)
    else []

end Sys2Proof.Machine
end

