-- ==== Sys2Proof/Machine/Shape.lean ====
section
/-! DEFINITION. The shape of a matrix task: levels, tile addresses, needs and the issue checks in their order (R150, R151, R180 to R194,
R205 to R209). -/

namespace Sys2Proof.Machine

/-- A level's bound as read at issue (R179, R189). -/
def boundOf (stage : Mem) (t : Sparse W64) (l : Level) : Nat :=
  if l.src = 0 then l.arg
  else if l.src = 1 then fld (tregAt t (l.arg % 16)) (32 * (l.arg / 16 % 2)) 32
  else Mem.num stage l.arg 4

/-- A MEMWORD bound is among the levels of a descriptor (R189). -/
def usesMemWord (d : List W64) : Bool := (dNest d).any fun l => l.src == 2

/-- Bound of nest level `n`. -/
def Ctx.bound (c : Ctx) (n : Nat) : Nat := c.bounds[n]?.getD 0

/-- Current index of nest level `n`. -/
def Ctx.ix (c : Ctx) (n : Nat) : Nat := c.idx[n]?.getD 0

/-- Nest position of the outermost reduction level; the level count when there is none (R191). -/
def kPos (d : List W64) : Nat := (dNest d).findIdx (fun l => l.role == 2)

/-- Nest positions of the output levels inside the outermost reduction level (R191). -/
def livePos (d : List W64) : List Nat :=
  (List.range (dLevels d)).filter fun n => decide (kPos d < n) && ((dNest d)[n]?.map (fun l => l.role != 2)).getD false

/-- Product of the bounds at the given positions. -/
def Ctx.prodBounds (c : Ctx) (ps : List Nat) : Nat := (ps.map c.bound).foldl (· * ·) 1

/-- Live tile count L (R191). -/
def Ctx.liveTiles (c : Ctx) : Nat := c.prodBounds (livePos c.desc)

/-- Accumulator footprint F in bytes (R191). -/
def Ctx.footprint (c : Ctx) : Nat := c.liveTiles * dMT c.desc * dNT c.desc * 4

/-- Bytes of `n` elements of a format code. -/
def elemBytes (fmt n : Nat) : Nat := (n * fmtBits fmt + 7) / 8

/-- Block length of a BLK code, 0 without blocks. -/
def blkLen (blk : Nat) : Nat := (blkOf blk).getD 0

/-- Bytes of `rows` rows of `cols` elements with their block exponents (R192). -/
def tileBytes (rows cols fmt blk : Nat) : Nat :=
  elemBytes fmt (rows * cols) + (if blkLen blk = 0 then 0 else rows * cols / blkLen blk)

/-- Rows of an A tile as held, the halo's rows included (R192). -/
def aRows (d : List W64) : Nat := dMT d + (dHalo d).natAbs

def aTileBytes (d : List W64) : Nat := tileBytes (aRows d) (dKT d) (dFmtA d) (dBlkA d)
def bTileBytes (d : List W64) : Nat := tileBytes (dNT d) (dKT d) (dFmtB d) (dBlkB d)

/-- Positions at RES_POS and deeper at which the operand moves (R192). -/
def resLevels (d : List W64) (isA : Bool) : List Nat :=
  (List.range (dLevels d)).filter fun n => decide (dResPos d ≤ n) &&
    ((dNest d)[n]?.map (fun l => decide ((if isA then l.sA else l.sB) ≠ 0))).getD false

/-- The operand is resident (R173). -/
def isRes (d : List W64) (isA : Bool) : Bool := dResident d == (if isA then 1 else 2)

/-- Operand region need (R192). -/
def Ctx.need (c : Ctx) (isA : Bool) : Nat :=
  let b := if isA then aTileBytes c.desc else bTileBytes c.desc
  if isRes c.desc isA then b * c.prodBounds (resLevels c.desc isA) else 2 * b

/-- Drain staging need (R193). -/
def Ctx.drainNeed (c : Ctx) : Nat :=
  let d := c.desc
  let mn := dMT d * dNT d
  let e := tileBytes (dMT d) (dNT d) (dFmtOut d) (dBlkOut d)
  if c.footprint ≤ 262144 then 2 * e else if dChainLen d = 0 then e else 4 * mn

/-- The chain runs fused with the drain (R202, R203). -/
def Ctx.fused (c : Ctx) : Bool := decide (c.footprint ≤ 262144)

/-- Stride of an operand at a level: 0 A, 1 B, 2 output. -/
def Level.stride (l : Level) (o : Nat) : Int := if o = 0 then l.sA else if o = 1 then l.sB else l.sOut

/-- Byte offset of a tile from its base at the given indices (R181). -/
def tileOff (d : List W64) (o : Nat) (idx : List Nat) : Int :=
  (((dNest d).zip idx).map fun p => p.1.stride o * (p.2 : Int)).foldl (· + ·) 0

/-- Step of an operand's base from problem to problem (R185). -/
def probStep (t : Sparse W64) (o : Nat) : Int := if o = 0 then tProbA t else if o = 1 then tProbB t else tProbOut t

/-- Lowest and highest byte offset, from a problem's base, of the first byte of a tile over all levels. -/
def Ctx.tileRange (c : Ctx) (o : Nat) : Int × Int :=
  let steps := ((dNest c.desc).zip c.bounds).map fun p => p.1.stride o * ((p.2 : Int) - 1)
  (steps.foldl (fun a x => a + min 0 x) 0, steps.foldl (fun a x => a + max 0 x) 0)

/-- Lowest and highest offset of a problem's base from problem 0's (R185). -/
def Ctx.probRange (c : Ctx) (o : Nat) : Int × Int :=
  let x := probStep c.treg o * ((tProbCount c.treg : Int) - 1)
  (min 0 x, max 0 x)

/-- Stage memory of a die, in bytes (R25). -/
def stageBytes : Nat := 2 ^ 28

/-- One operand's bytes lie in its allocation, and its exponents in theirs (R194 check 5). `before` and `after` are rows that a halo reads
outside the tile. R184 counts A_ALLOC from A_BASE, and R208 has the rows before the first row tile lie within A_ALLOC, padding included: the
allocation is taken to begin with those rows where a position reads them (DEDUCED, log 50). An allocation of 29 bits can reach past the 256 MiB of stage
memory, and rows before a base can lie below 0, where no byte is: such a byte counts as outside (DESIGN CHOICE, log 50). -/
def Ctx.inAlloc (c : Ctx) (o rows before after pitch rowLen base exps alloc blockLen bits : Nat) : Bool :=
  let r := c.tileRange o
  let p := c.probRange o
  let first : Int := (before * pitch : Nat)
  let lo := r.1 - first
  let hi := r.2 + (rows - 1 + after) * pitch + rowLen
  let bb := blockLen * bits / 8
  decide (0 ≤ p.1 + lo + first) && decide (p.2 + hi + first ≤ alloc) && decide (0 ≤ base + p.1 + lo ∧ base + p.2 + hi ≤ stageBytes) &&
    (bb == 0 || (decide (0 ≤ p.1 / bb + (lo + first) / bb) && decide (p.2 / bb + (hi + first - bb) / bb < alloc / bb) &&
      decide (0 ≤ exps + p.1 / bb + lo / bb ∧ exps + p.2 / bb + (hi - bb) / bb < stageBytes)))

/-- Output row and column of an element at bit offset `o` from OUT_BASE (R176). Division by an OUT_PITCH of 0 is not defined there: row 0 is taken, with
the whole offset as the column's (DESIGN CHOICE, log 50). -/
def outRowCol (pitch bits o : Nat) : Nat × Nat := (o / (pitch * 8), (if pitch = 0 then o else o % (pitch * 8)) / bits)

/-- Index tuples of the nest, outermost first. -/
def tuples : List Nat → List (List Nat)
  | [] => [[]]
  | b :: bs => (List.range b).flatMap fun i => (tuples bs).map fun r => i :: r

/-- Row and column of every element that a problem stores (R176). -/
def Ctx.outCells (c : Ctx) : List (Nat × Nat) :=
  let d := c.desc
  let bits := fmtBits (dFmtOut d)
  let pitch := tOutPitch c.treg
  let moved := (dNest d).zip c.bounds |>.map fun p => if p.1.sOut = 0 then min p.2 1 else p.2
  (tuples moved).flatMap fun ix =>
    let o := (tileOff d 2 ix).toNat * 8
    (List.range (dMT d)).flatMap fun i => (List.range (dNT d)).map fun j => outRowCol pitch bits (o + i * pitch * 8 + j * bits)

/-- Bias vectors and residual tensors lie in the stage memory (R194); a MEMWORD word always does, by the width of its address (R179). -/
def Ctx.chainInStage (c : Ctx) : Bool :=
  (dChain c.desc).all fun st =>
    let r := tregAt c.treg st.arg
    if st.op = 1 then c.outCells.all fun x => decide (fld r 0 28 + 4 * x.1 + 4 ≤ stageBytes)
    else if st.op = 2 then c.outCells.all fun x => decide (fld r 0 28 + 4 * x.2 + 4 ≤ stageBytes)
    else if st.op = 5 then
      c.outCells.all fun x => decide (fld r 0 28 + x.1 * fld r 32 28 + elemBytes (st.param % 16) (x.2 + 1) ≤ stageBytes)
    else true

/-- Check 5, ADDR_RANGE (R194, R208): position 7 of a stand reads the rows after its tiles, position 0 the rows before them. -/
def Ctx.addrOk (c : Ctx) (pos : Nat) : Bool :=
  let d := c.desc
  let t := c.treg
  let h := dHalo d
  let after := if 0 < h ∧ pos = 7 then h.natAbs else 0
  let before := if h < 0 ∧ pos = 0 then h.natAbs else 0
  c.inAlloc 0 (dMT d) before after (tAPitch t) (elemBytes (dFmtA d) (dKT d)) (tABase t) (tAExp t) (tAAlloc t) (blkLen (dBlkA d)) (fmtBits (dFmtA d)) &&
    c.inAlloc 1 (dNT d) 0 0 (tBPitch t) (elemBytes (dFmtB d) (dKT d)) (tBBase t) (tBExp t) (tBAlloc t) (blkLen (dBlkB d)) (fmtBits (dFmtB d)) &&
    c.inAlloc 2 (dMT d) 0 0 (tOutPitch t) (elemBytes (dFmtOut d) (dNT d)) (tOutBase t) (tOutExp t) (tOutAlloc t) (blkLen (dBlkOut d)) (fmtBits (dFmtOut d)) &&
    c.chainInStage

/-- Operand formats agree (R150). -/
def formatsOk (d : List W64) : Bool :=
  dFmtA d == dFmtB d && (dBlkA d == dBlkB d || dBlkA d == 0 || dBlkB d == 0) && dFmtA d != 6

/-- The three scales are positive, finite and normal (R124, R151). -/
def scalesOk (t : Sparse W64) : Bool := normalPos32 (tSA t) && normalPos32 (tSB t) && normalPos32 (tSOut t)

/-- An empty issue (R190). -/
def Ctx.emptyIssue (c : Ctx) : Bool := tProbCount c.treg == 0 || c.bounds.any (· == 0)

/-- The issue checks in order (R151, R194): the fault's STATUS code (R611), or none. An empty issue reads and writes no byte, so it passes
ADDR_RANGE; no rule exempts it from another check (R190). -/
def Ctx.issueFault (c : Ctx) (pos : Nat) : Option Nat :=
  let d := c.desc
  if !formatsOk d then some 0x105
  else if !scalesOk c.treg then some 0x106
  else if fld (descWord d 1) 30 8 * 16384 < c.need true then some 0x100
  else if fld (descWord d 1) 22 8 * 16384 < c.need false then some 0x101
  else if 524288 < c.footprint then some 0x102
  else if fld (descWord d 1) 14 8 * 16384 < c.drainNeed then some 0x103
  else if !c.emptyIssue && !c.addrOk pos then some 0x104
  else none

/-- The bounds as read at issue. -/
def Ctx.readBounds (c : Ctx) (stage : Mem) : Ctx := { c with bounds := (dNest c.desc).map (boundOf stage c.treg) }

/-- Part `i` of `k` contiguous parts of a range: they differ by at most one, the larger first. R98 does not say which parts take the extra iteration
(DESIGN CHOICE, log 60). -/
def pieceRange (bound k i : Nat) : Nat × Nat :=
  let q := bound / k
  let r := bound % k
  (i * q + min i r, q + (if i < r then 1 else 0))

/-- Task registers whose bases have moved `first` indices along a level, exponent bases with them (R182, R187). -/
def advanceBases (d : List W64) (l : Level) (first : Nat) (t : Sparse W64) : Sparse W64 :=
  let adv (r lo : Nat) (by' : Int) (t : Sparse W64) : Sparse W64 :=
    Sparse.set 0 t r (putFld (tregAt t r) lo 28 (((fld (tregAt t r) lo 28 : Int) + by') % 2 ^ 28).toNat)
  let expBy (blk fmt : Nat) (s : Int) : Int :=
    let bb := blkLen blk * fmtBits fmt / 8
    if bb = 0 then 0 else (first : Int) * s / bb
  adv 0 0 (first * l.sA) (adv 1 0 (first * l.sB) (adv 2 0 (first * l.sOut)
    (adv 5 0 (expBy (dBlkA d) (dFmtA d) l.sA) (adv 5 32 (expBy (dBlkB d) (dFmtB d) l.sB)
      (adv 4 32 (expBy (dBlkOut d) (dFmtOut d) l.sOut) t)))))

/-- A piece of a split task (R187): the range becomes the bound of level 0, and each base advances. -/
def Ctx.piece (c : Ctx) (first count : Nat) : Ctx :=
  let d := c.desc
  match (List.range (dLevels d)).find? fun i => (dSlot d i).pos == 0 with
  | none => c
  | some i =>
    let l := dSlot d i
    let w := putFld (putFld (descWord d (5 + 3 * i)) 57 2 0) 0 32 count
    { c with desc := d.set (5 + 3 * i) w, treg := advanceBases d l first c.treg }

end Sys2Proof.Machine
end

