-- ==== Sys2Proof/Machine/Pages.lean ====
section
/-! DEFINITION. Frames and their counts, page-list edits, Landing slots and the prefix tree: what the commit and the key-value commands share
(R278 to R329). -/

namespace Sys2Proof.Machine

/-! ### Frame tables (R296 to R300) -/

def State.hbmEnt (s : State) (f : Nat) : FrameEnt := Sparse.get {} s.hbm.ftab f

def State.setHbmEnt (s : State) (f : Nat) (e : FrameEnt) : State :=
  { s with hbm := { s.hbm with ftab := Sparse.set {} s.hbm.ftab f e } }

def State.flashEnt (s : State) (f : Nat) : FrameEnt := Sparse.get {} s.flash.ftab f

def State.setFlashEnt (s : State) (f : Nat) (e : FrameEnt) : State :=
  { s with flash := { s.flash with ftab := Sparse.set {} s.flash.ftab f e } }

/-- The weight blocks of this member's share that lie in HBM, in ascending layer, then block (R565). -/
def State.hbmBlocks (s : State) : List Nat := (s.wt.inHbm.flatMap (layerBlocks s.layers s.wt.header)).eraseDups

/-- Frames that weights take in each stack (log 52). -/
def State.weightSpan (s : State) : Nat := ceilDiv s.hbmBlocks.length (max 1 s.nStacks)

/-- The HBM frame of a weight block: the blocks take the stacks in turn, the highest-numbered frames below the reserve first, and a repaired block the
frame of its repair (R400; log 52). -/
def State.weightFrame (s : State) (b : Nat) : Nat :=
  match s.wt.remap.find? fun e => e.1 == b with
  | some e => e.2
  | none =>
    let i := s.hbmBlocks.idxOf b
    i % s.nStacks * 2 ^ 22 + (userFrames - 1 - i / s.nStacks)

/-- The weight block that an HBM frame holds. -/
def State.blockAt (s : State) (f : Nat) : Option Nat := s.hbmBlocks.find? fun b => s.weightFrame b == f

/-- An HBM frame that may be allocated: outside the reserve, without weights, unused and not retired (R32, R392, R565). -/
def State.hbmFree (s : State) (f : Nat) : Bool :=
  s.hbmFrameOk f && decide (f % 2 ^ 22 + s.weightSpan < userFrames) && !(s.hbmEnt f).inUse && !s.hbm.retired.contains f &&
    !(s.wt.remap.any fun e => e.2 == f)

/-- Fresh HBM frames that a plan names. -/
def planFrames (p : PlanInput) : List Nat :=
  p.tails.map (·.flushFrame) ++ p.promote.map (·.dst) ++ p.rebuilt.map (·.dst) ++ p.moved.map (·.dst) ++ p.fresh.map (·.dst)

/-- A free frame that the plan completed for the next tick does not name (R337). -/
def State.hbmSpare (s : State) (f : Nat) : Bool := s.hbmFree f && s.fore.nextPlan.all fun p => !((planFrames p).contains f)

/-- References to an HBM frame once the staged decrements have applied. -/
def State.refsLeft (s : State) (f : Nat) : Nat := (s.hbmEnt f).refcount - s.hbm.decr.count f

/-- Flash frames that key-value data may use: those not reserved for two weight shares and the indexes (R431, R432). The reserved frames are
taken as the highest-numbered ones (log 13). -/
def State.flashUser (s : State) : Nat :=
  3906250000 - 2 * weightFrames s.img.model - (s.vidx.map fun x => indexFrames x.record).foldl (· + ·) 0

/-- A flash frame that may be allocated. -/
def State.flashFree (s : State) (f : Nat) : Bool := decide (f < s.flashUser) && !(s.flashEnt f).inUse

/-- The place of an index's frame within its part: the node areas and the side list each start at channel 0 (R441). -/
def VIndex.frameIn (x : VIndex) (f : Nat) : Option Nat :=
  let a := Sys2Proof.Machine.frames (ixMaxNodes x.record * recSize x.record)
  let i := f - x.base
  if f < x.base ∨ x.base + 2 * a + Sys2Proof.Machine.frames (64 * ixSideMax x.record) ≤ f then none
  else if i < a then some i
  else if i < 2 * a then some (i - a)
  else some (i - 2 * a)

/-- The flash channel of a frame (log 18). Frame f of a node area or a side list lies on channel f mod 32 (R441). The authoritative copy of the weights takes the lower half of the channels and the mirror the upper half, so that a crew of
one module keeps the two apart (R398). -/
def State.flashChannel (s : State) (f : Nat) : Nat :=
  let n := weightFrames s.img.model
  if f < s.flashUser then f % 32
  else if s.flashUser + 2 * n ≤ f then (s.vidx.findSome? fun x => x.frameIn f).getD f % 32
  else if f < s.flashUser + n then (f - s.flashUser) % 16
  else 16 + (f - s.flashUser - n) % 16

/-- The die of an HBM frame (R286). -/
def frameDie (f : Nat) : Nat := f / 2 ^ 22 / 4

/-- Count an event of a lot on the die of a frame (R704 class 0x2). -/
def State.lotCount (s : State) (die lot ev : Nat) (n : Nat := 1) : State := s.count die 2 (lot * 32 + ev) n

/-- HBM_QUOTA of a lot as the plan in flight knows it (R415, R422). -/
def State.hbmQuota (s : State) (lot : Nat) : Nat := fld (Sparse.get 0 s.fore.planLots lot) 80 48

/-- HBM frames of a lot at the tick's start (R417). -/
def State.hbmUsage (s : State) (lot : Nat) : Nat := (Sparse.get (0, 0) s.fore.usage lot).1

/-- A lot's HBM usage is at or above its quota; all ones is no limit (R415, R419). -/
def State.lotFull (s : State) (lot : Nat) : Bool := s.hbmQuota lot != 2 ^ 48 - 1 && decide (s.hbmQuota lot ≤ s.hbmUsage lot)

/-- A lot's flash usage is at or above its quota; all ones is no limit (R415, R420). -/
def State.lotFlashFull (s : State) (lot : Nat) : Bool :=
  let q := fld (Sparse.get 0 s.fore.planLots lot) 32 48
  q != 2 ^ 48 - 1 && decide (q ≤ (Sparse.get (0, 0) s.fore.usage lot).2)

/-- A frame that a lot takes beyond a quota counts as overdraw (R420, R704). -/
def State.overdraw (s : State) (beyond : Bool) (die lot : Nat) : State := if beyond then s.lotCount die lot 20 else s

/-- Allocate an HBM frame for a lot: STAGED until the commit, with its sideband at reset (R289, R296). -/
def State.allocHbm (s : State) (f lot : Nat) : State :=
  (((s.setHbmEnt f { inUse := true, staged := true, lot := lot }).setHbmSide f 0).lotCount (frameDie f) lot 4).overdraw (s.lotFull lot) (frameDie f) lot

/-- Allocate a flash frame for a lot. -/
def State.allocFlash (s : State) (f lot : Nat) : State :=
  ((s.setFlashEnt f { inUse := true, staged := true, lot := lot }).lotCount 0 lot 6).overdraw (s.lotFlashFull lot) 0 lot

/-- The frame a leaf entry names: true for HBM. -/
def leafRef (e : W64) : Option (Bool × Nat) :=
  if leafTier e = 0 then some (true, leafFrame e) else if leafTier e = 1 then some (false, leafFrame e) else none

/-- Add references to a frame, which is then no longer STAGED (R299, R312). -/
def State.incRef (s : State) (r : Option (Bool × Nat)) : State :=
  match r with
  | some (true, f) =>
    let e := s.hbmEnt f
    s.setHbmEnt f { e with refcount := e.refcount + 1, staged := false, inUse := true }
  | some (false, f) =>
    let e := s.flashEnt f
    s.setFlashEnt f { e with refcount := e.refcount + 1, staged := false, inUse := true }
  | none => s

/-- Stage the decrement of a reference; it applies at step 2 (R299). -/
def State.decRef (s : State) (r : Option (Bool × Nat)) : State :=
  match r with
  | some (true, f) => { s with hbm := { s.hbm with decr := s.hbm.decr ++ [f] } }
  | some (false, f) => { s with hbm := { s.hbm with flashDecr := s.hbm.flashDecr ++ [f] } }
  | none => s

/-- Long pins of an HBM frame change by one (R300). -/
def State.pinHbm (s : State) (f : Nat) (up : Bool) : State :=
  let e := s.hbmEnt f
  s.setHbmEnt f { e with longPins := if up then e.longPins + 1 else e.longPins - 1 }

/-- The first of `k` numbers from `i` on that has a property. -/
def firstNat (p : Nat → Bool) : Nat → Nat → Option Nat
  | 0, _ => none
  | k + 1, i => if p i then some i else firstNat p k (i + 1)

/-- The lowest free frame of a stack, of those that no completed plan names (R337). -/
def State.lowestFree (s : State) (stack : Nat) : Option Nat := firstNat s.hbmSpare userFrames (stack * 2 ^ 22)

/-- HBM address of a page's entry in its sequence's sketch table, 512 entries of 32 bytes to a frame (R363). -/
def Seq.tableAddr (q : Seq) (v : Nat) : Option Nat :=
  if v < q.tableLo then none else (q.table[(v - q.tableLo) / 512]?).map fun f => f * 16384 + (v - q.tableLo) % 512 * 32

/-- The sketch of a page goes to the sketch table (R363). -/
def State.writeSketch (s : State) (h : W32) (v : Nat) (k : BitVec 256) : State :=
  match (s.seq h).bind fun q => q.tableAddr v with
  | some a => s.writeHbm a (leBytes 32 k.toNat)
  | none => s

/-- A sketch table grows by one frame, charged to its sequence's lot: the lowest free one, which the rule leaves open (R363; DESIGN CHOICE, log 13). -/
def State.growTable (h : W32) (s : State) (lot : Nat) : State :=
  match (List.range s.nStacks).findSome? s.lowestFree with
  | some f => ((s.allocHbm f lot).incRef (some (true, f))).updSeq h fun q => { q with table := q.table ++ [f] }
  | none => s

/-- The sketch table reaches from the lowest page held to the highest, and no further (R363). -/
def State.settleTable (s : State) (h : W32) : State :=
  match s.seq h with
  | none => s
  | some q =>
    let vs := (q.root.filter fun e => decide (leafTier e.2 < 2)).map Prod.fst
    let n := if vs = [] then 0 else ceilDiv (vs.getLastD 0 - vs.headD 0 + 1) 512
    let s := (q.table.drop n).foldl (fun (s : State) f => s.decRef (some (true, f))) s
    let s := s.updSeq h fun q => { q with table := q.table.take n, tableLo := vs.headD 0 }
    let s := (List.replicate (n - q.table.length) q.lot).foldl (State.growTable h) s
    (s.sketches.filter fun x => x.1 == h).foldl (fun (s : State) x => s.writeSketch h x.2.1 x.2.2) s

/-- Copy the 16 KiB of a frame within HBM. -/
def State.copyFrame (s : State) (src dst : Nat) : State :=
  (s.writeHbm (dst * 16384) (Mem.bytes s.hbm.data (src * 16384) 16384)).writeSide (dst * 1024) (Mem.bytes s.hbm.side (src * 1024) 1024)

/-- FILL, FIRST_POS, LAYER, KV_HEAD, TOKEN_HASH and SKETCH of a sideband (R289). -/
def sbFill (b : Nat) : Nat := sbField b 4452 9
def sbFlashCopy (b : Nat) : Nat := sbField b 4480 40
def sbHash (b : Nat) : Nat := sbField b 4352 64
def sbSketch (b : Nat) : Nat := sbField b 4096 256
def sbFirst (b : Nat) : Nat := sbField b 4416 36
def sbLayer (b : Nat) : Nat := sbField b 4467 8
def sbHead (b : Nat) : Nat := sbField b 4461 6

/-! ### Page-list edits (R293) -/

/-- Pages of two lists of leaf entries. -/
def keysOf (a b : Sparse W64) : List Nat := (a.map Prod.fst ++ b.map Prod.fst).eraseDups

/-- The edits of a sequence staged in tick `t`: each page whose entry changes, with its old and new entry (R293). -/
def Seq.edits (q : Seq) (t : Nat) : List (Nat × W64 × W64) :=
  match q.stageRoot with
  | some r =>
    if q.stageTick = t then
      ((keysOf q.root (q.leaves (some r))).map fun v => (v, q.entry v, q.entryNow t v)).filter fun x => x.2.1 != x.2.2
    else []
  | none => []

/-- The flash frame that an HBM frame's FLASH_COPY names, when FC_VALID is set (R289). -/
def State.flashCopyOf (s : State) (f : Nat) : Option Nat :=
  let b := s.hbmSide f
  if sbFcValid b then some (sbFlashCopy b) else none

/-- One page whose entry changes from `old` to `new` at step 1: the new frame gains a reference and the old one is to lose it. In a promotion the
reference of the former flash frame passes to the copy link (R336). -/
def State.applyEdit (s : State) (old new : W64) : State :=
  if leafRef old = leafRef new then s
  else if leafTier old = 1 ∧ leafTier new = 0 ∧ s.flashCopyOf (leafFrame new) = some (leafFrame old) then s.incRef (leafRef new)
  else (s.incRef (leafRef new)).decRef (leafRef old)

/-- Queue the flash copy of a frame committed dirty (R332). -/
def State.queueClean (s : State) (t f : Nat) : State :=
  if s.flash.queue.any fun e => e.2 == f then s
  else { s with flash := { s.flash with queue := s.flash.queue ++ [(t, f)] } }

/-- A frame whose flash copy is due: dirty, not a tail still written in place, and no copy of it under way (R332). -/
def State.cleanDue (s : State) (e : W64) : Bool :=
  let f := leafFrame e
  leafTier e == 0 && leafDirty e && !sbFcValid (s.hbmSide f) && decide (s.pagePositions ≤ sbFill (s.hbmSide f)) &&
    !((s.flash.cleaning ++ s.flash.cleaned ++ s.flash.spilling).any fun c => c.1 == f)

/-- Step 1 for one sequence: the staged list becomes the committed one with its increments and decrements (R86, R299, R312). -/
def State.commitEdits (s : State) (t : Nat) (q : Seq) : State := (q.edits t).foldl (fun s x => s.applyEdit x.2.1 x.2.2) s

/-- The dirty pages of a sequence's committed list whose copy is due are queued: those committed now, and frame tails that have filled in place (R332). -/
def State.queueDue (s : State) (t : Nat) (q : Seq) : State :=
  q.root.foldl (fun (s : State) x => if s.cleanDue x.2 then s.queueClean t (leafFrame x.2) else s) s

/-- The run that holds a sequence's last position (R307). -/
def State.tailRun (s : State) (q : Seq) : Nat := if s.pagePositions = 0 then 0 else (q.kvLen - 1) / s.pagePositions

/-- A lost page of the sequence is to be rebuilt before its requests go on: under REBUILD each, under MASK the tail's (R407, R410, R411). -/
def State.toRebuild (s : State) (q : Seq) (v : Nat) : Bool := !q.masked.contains v && (!s.kvLoss || decide (s.runOf v = s.tailRun q))

/-- Requests on the sequence are held: a page of it is lost here or on another member (R407). -/
def State.seqHeld (s : State) (h : W32) : Bool := s.fore.held.contains h || (s.seq h).any fun q => q.lostPages.any (s.toRebuild q)

/-- A sequence has lost pages here that a plan does not rebuild (R407, R408). -/
def State.leftLost (s : State) (p : PlanInput) (h : W32) : Bool :=
  (s.seq h).any fun q => q.lostPages.any fun v => s.toRebuild q v && !(p.rebuilt.any fun m => m.seq == h && m.v == v)

/-- A page of the sinks, pinned (R287). -/
def State.sinkPage (s : State) (v : Nat) : Bool := decide (s.runOf v < s.retSink)

/-- Count an event of a Landing or frame of a stack. -/
def State.stackCount (s : State) (stack ev : Nat) : State := s.count (stack / 4) 7 (stack % 4 * 256 + ev)

/-! ### Landing slots (R304 to R314) -/

def State.slot (s : State) (n : Nat) : Slot := Sparse.get {} s.land.slots n

def State.setSlot (s : State) (n : Nat) (x : Slot) : State :=
  { s with land := { s.land with slots := Sparse.set {} s.land.slots n x } }

/-- Slots of a stack, in ascending number. -/
def stackSlots (stack : Nat) : List Nat := (List.range 480).map fun i => stack * 480 + i

/-- A free slot of a stack. -/
def State.freeSlot (s : State) (stack : Nat) : Option Nat := (stackSlots stack).find? fun n => (s.slot n).state == .free

/-- The slot that holds the tail of a sequence for a layer, head and run. -/
def State.tailSlot (s : State) (h : W32) (layer head first : Nat) : Option Nat :=
  (s.land.slots.find? fun e =>
    e.2.state == .tail && e.2.seq == h && e.2.layer == layer && e.2.kvHead == head && e.2.firstPos == first).map Prod.fst

/-- The sideband image of a slot. -/
def State.slotSide (s : State) (n : Nat) : Nat := Mem.num s.land.data (n * 17408 + 16384) 1024

def State.setSlotSide (s : State) (n b : Nat) : State :=
  s.writeLand (n * 17408 + 16384) (leBytes 1024 b)

/-- Value-staging slots of a tail whose value stream is blocked (R307). -/
def State.stagingSlots (s : State) : Nat := if blkLen (s.streamFmt 3).2 = 0 then 0 else ceilDiv (31 * s.headDim * 4) 17408

/-- A free slot of a stack and the first of `k` adjacent free staging slots beside it. A Landing with a free slot but without such staging slots counts as having none for
the tail, which R308 does not say (DESIGN CHOICE, log 60). -/
def State.slotRun (s : State) (stack k : Nat) : Option (Nat × Nat) :=
  match s.freeSlot stack with
  | none => none
  | some n =>
    if k = 0 then some (n, 0x3FF)
    else
      ((List.range 480).find? fun i => decide (i + k ≤ 480) && (List.range k).all fun j =>
        let m := stack * 480 + i + j
        m != n && (s.slot m).state == .free).map fun i => (n, i)

/-- Take `k` staging slots of a stack from slot `part` on for a tail (R307). -/
def State.takeStaging (s : State) (stack part k : Nat) (h : W32) (layer head : Nat) : State :=
  (List.range k).foldl (fun (s : State) j =>
    s.setSlot (stack * 480 + part + j) { state := .staging, seq := h, layer := layer, kvHead := head }) s

/-- Free a slot and its staging partners (R312). -/
def State.freeSlots (s : State) (n : Nat) : State :=
  let x := s.slot n
  ((List.range x.partners).foldl (fun s i => s.setSlot (x.partner + n / 480 * 480 + i) {}) s).setSlot n {}

/-- Bytes enter the flush queue of a stack (R304). -/
def State.fillQueue (s : State) (stack : Nat) (bs : List Byte) : State :=
  { s with land := { s.land with queue := Mem.write s.land.queue (stack * 17408) bs } }

/-- The base die writes a slot's page image to its flush frame and its sideband image to the sideband slot, through the stack's flush queue (R304, R312). -/
def State.writeFlush (s : State) (n : Nat) : State :=
  let f := (s.slot n).flushFrame
  let stack := n / 480
  let s := s.fillQueue stack (Mem.bytes s.land.data (n * 17408) 17408)
  let s := (s.writeHbm (f * 16384) (Mem.bytes s.land.queue (stack * 17408) 16384)).writeSide (f * 1024)
    (Mem.bytes s.land.queue (stack * 17408 + 16384) 1024)
  (s.count (stack / 4) 7 (stack % 4 * 256 + 8)).lotCount (stack / 4) (s.hbmEnt f).lot 8

/-- FILL_COMMIT takes FILL in every tail slot (R313). -/
def commitFill (x : Slot) : Slot := if x.state = .tail then { x with fillCommit := x.fill } else x

/-! ### Token hashes and the prefix tree (R320 to R327) -/

/-- KV_SALT (R320). -/
def State.kvSalt (s : State) : W64 :=
  let b := bit s.num + 2 * bit s.ovf + 4 * bit s.f19Rnd + 8 * s.rnd
  let digest := ((s.img.sections.find? fun x => x.type == 0x10).map (·.digest)).getD []
  BitVec.ofNat 64 (leNat (shake256 8 (digest ++ leBytes 8 s.wt.loadCount ++ [BitVec.ofNat 8 b] ++ leBytes 8 s.srSeedImage.toNat)))

/-- Extend a token hash by tokens (R320). -/
def hashTokens (prev : W64) (ts : List W32) : W64 :=
  BitVec.ofNat 64 (leNat (shake256 8 (leBytes 8 prev.toNat ++ ts.flatMap fun t => leBytes 4 t.toNat)))

/-- TOKEN_HASH of run `r` of a token list with `p` positions a run (R320). -/
def runHash (salt : W64) (p : Nat) (log : List W32) : Nat → W64
  | 0 => hashTokens salt (log.take p)
  | r + 1 => hashTokens (runHash salt p log r) ((log.drop ((r + 1) * p)).take p)

/-- The token hash through a partial run's tokens: that of the run before, or the salt, extended by them (R289, R320). -/
def partHash (salt : W64) (p : Nat) (log : List W32) (r fill : Nat) : W64 :=
  hashTokens (if r = 0 then salt else runHash salt p log (r - 1)) ((log.drop (r * p)).take fill)

/-- The tokens of a run. -/
def runTokens (p : Nat) (log : List W32) (r : Nat) : List W32 := (log.drop (r * p)).take p

/-- Children of a tree node; `none` is the root. -/
def State.children (s : State) (parent : Option Nat) : List PrefixNode := s.nodes.filter fun n => n.parent == parent

/-- The full child of a node with the given hash and tokens (R324). -/
def State.matchChild (s : State) (parent : Option Nat) (h : W64) (ts : List W32) : Option PrefixNode :=
  (s.children parent).find? fun n => n.full && n.hash == h && n.tokens == ts

/-- A child has the same hash but other tokens: a prefix hash collision (R326). -/
def State.hashCollides (s : State) (parent : Option Nat) (h : W64) (ts : List W32) : Bool :=
  (s.children parent).any fun n => n.full && n.hash == h && n.tokens != ts

/-- The full node is in the tree; none is the root (R322, R323). -/
def State.nodeStands (s : State) (n : Option Nat) : Bool := n.all fun i => s.nodes.any fun m => m.id == i && m.full

/-- The number of the next tree node: one that no node has and that no sequence keeps from a node removed. -/
def State.nextNode (s : State) : Nat :=
  s.seqs.foldl (fun a q => max a (q.node.map (· + 1) |>.getD 0)) (s.nodes.foldl (fun a n => max a (n.id + 1)) 0)

/-- The pages of a run that this module holds, as (offset within the run, entry). -/
def State.runEntries (s : State) (q : Seq) (r : Nat) : List (Nat × W64) :=
  (List.range s.runPages).filterMap fun i =>
    let e := q.entry (r * s.runPages + i)
    if (leafRef e).isSome then some (i, e) else none

/-- Enter a node below `parent`, with one reference to each frame of the run (R321 to R323). -/
def State.addNode (s : State) (parent : Option Nat) (h : W64) (ts : List W32) (full : Bool) (r t : Nat)
    (fs : List (Nat × W64)) : State × Nat :=
  let id := s.nextNode
  let n : PrefixNode := ⟨id, parent, h, ts, ts.length, full, r, fs, (s.freshReserve 1).headD 0, t⟩
  (fs.foldl (fun s f => s.incRef (leafRef f.2)) { s with nodes := s.nodes ++ [n] }, id)

/-- Enter the runs of a sequence that are complete on this module, in order (R322): those of which it holds pages. -/
def State.enterRuns (s : State) (t : Nat) (h : W32) : Nat → State
  | 0 => s
  | k + 1 =>
    match s.seq h with
    | none => s
    | some q =>
      let p := s.pagePositions
      let r := q.matched
      if p = 0 ∨ q.kvLen < (r + 1) * p ∨ (q.node = none ∧ r ≠ 0) ∨ !(s.nodeStands q.node) ∨ s.runEntries q r = [] then s
      else
        let hash := runHash q.salt p q.log r
        let ts := runTokens p q.log r
        let s := if q.looked ≤ r && s.hashCollides q.node hash ts then s.crewCount 20 else s
        match s.matchChild q.node hash ts with
        | some n => (s.updSeq h fun x => { x with node := some n.id, matched := r + 1, looked := r + 1 }).enterRuns t h k
        | none =>
          let a := s.addNode q.node hash ts true r t (s.runEntries q r)
          (a.1.updSeq h fun x => { x with node := some a.2, matched := r + 1, looked := r + 1, ownRun := true }).enterRuns t h k

/-- A page list names the frame with SKETCH_VALID set: its sideband holds the sketch (R284, R330). -/
def State.sketchHeld (s : State) (r : Option (Bool × Nat)) : Bool :=
  r.isSome && s.seqs.any fun q => q.root.any fun e => decide (leafRef e.2 = r) && leafSketchValid e.2

/-- A leaf entry that shares a frame: SHARED is set, and DIRTY and SKETCH_VALID say how the frame stands now (R284, R287, R324). -/
def State.sharedEntry (s : State) (e : W64) : W64 :=
  let dirty := leafTier e == 0 && !sbFcValid (s.hbmSide (leafFrame e))
  putFld (putFld (putFld e 61 1 1) 60 1 (bit dirty)) 58 1 (bit (leafSketchValid e || s.sketchHeld (leafRef e)))

/-- The sketch that a frame's sideband holds. -/
def State.frameSketch (s : State) (e : W64) : BitVec 256 :=
  BitVec.ofNat 256 (sbSketch (if leafTier e = 0 then s.hbmSide (leafFrame e) else s.flashSide (leafFrame e)))

/-- One page of a node is shared: its entry is staged, with its sketch for the sequence's table where that is valid (R324, R363). -/
def State.sharePage (s : State) (t : Nat) (h : W32) (v : Nat) (e : W64) : State :=
  let e' := s.sharedEntry e
  let s := if leafSketchValid e' then
      { s with sketches := (s.sketches.filter fun (x : W32 × Nat × BitVec 256) => !(x.1 == h && x.2.1 == v)) ++ [(h, v, s.frameSketch e)] }
    else s
  s.stageEdit t h v e'

/-- The slots of a run's tails are free: the run's pages come from a node (R324). -/
def State.freeRunSlots (s : State) (h : W32) (first : Nat) : State :=
  ((s.land.slots.filter fun e => e.2.state == .tail && e.2.seq == h && e.2.firstPos == first).map Prod.fst).foldl State.freeSlots s

/-- Share the frames of a node with a sequence: the edits are staged for tick `t`, and what the sequence's own tails of the run hold goes (R324, R325). R327 does not say what
counts as a lookup of a node: its match here and its creation do, not the hit of R322 on a run that enters (DESIGN CHOICE, log 60). -/
def State.shareNode (s : State) (t : Nat) (h : W32) (n : PrefixNode) (len : Nat) : State :=
  let s := { s with nodes := s.nodes.map fun (m : PrefixNode) => if m.id = n.id then { m with lastLookup := t } else m }
  let s := s.freeRunSlots h (n.run * s.pagePositions)
  let s := n.frames.foldl (fun (s : State) (f : Nat × W64) => s.sharePage t h (n.run * s.runPages + f.1) f.2) s
  (s.updSeq h fun q => { q with kvStaged := len }).lotCount 0 (((s.seq h).map (·.lot)).getD 0) 22

/-- The first partial child, in order of creation, whose tokens equal the sequence's (R325). -/
def State.matchPartial (s : State) (t : Nat) (h : W32) (q : Seq) (r p : Nat) : State :=
  match (s.children q.node).find? fun n => !n.full && decide (0 < n.fill ∧ q.kvStaged < r * p + n.fill) &&
      n.tokens == (q.log.drop (r * p)).take n.fill with
  | some n => s.shareNode t h n (r * p + n.fill)
  | none => s

/-- Look up the next runs of a sequence whose log has reached their ends, each once and while every run before has matched, then the partial children of the last match
(R324, R325); a collision counts in the tick's first attempt (R326). The edits are staged in tick `t`, the tick after the commit (R87). -/
def State.matchRuns (s : State) (t : Nat) (h : W32) : Nat → State
  | 0 => s
  | k + 1 =>
    match s.seq h with
    | none => s
    | some q =>
      let p := s.pagePositions
      let r := q.matched
      if p = 0 ∨ q.kvStaged < r * p ∨ (r + 1) * p ≤ q.kvStaged ∨ q.ownRun ∨ (q.node = none ∧ r ≠ 0) ∨ q.lost ∨ !(s.nodeStands q.node) then s
      else
        let hash := runHash q.salt p q.log r
        let ts := runTokens p q.log r
        if (r + 1) * p ≤ q.log.length ∧ q.looked ≤ r then
          let s := if s.tick.attempt = 0 && s.hashCollides q.node hash ts then s.crewCount 20 else s
          let s := s.updSeq h fun x => { x with looked := r + 1 }
          match s.matchChild q.node hash ts with
          | some n =>
            ((s.shareNode t h n ((r + 1) * p)).updSeq h fun x => { x with node := some n.id, matched := r + 1 }).matchRuns t h k
          | none => s.matchPartial t h q r p
        else s.matchPartial t h q r p

/-! ### Flash writes (R383, R384) -/

/-- The next erased block of a channel: of those without a programmed page, not bad and other than `but`, one of the least erase count (R384), the lowest-numbered of
equals (DESIGN CHOICE, log 18). A block that nothing has used yet is among the first numbers, as many as two more than the blocks listed. -/
def State.erasedBlock (s : State) (channel : Nat) (but : Option Nat) : Nat :=
  let ok (b : Nat) : Bool := let x := Sparse.get {} s.flash.blocks b; x.used == 0 && !x.bad && some b != but
  let worn := s.flash.blocks.filter fun e => e.1 / 65536 == channel && ok e.1
  match (List.range (min 65536 (s.flash.blocks.length + 2))).find? fun i =>
      ok (channel * 65536 + i) && (Sparse.get {} s.flash.blocks (channel * 65536 + i)).erases == 0 with
  | some i => channel * 65536 + i
  | none => ((worn.foldl (fun (a : Option (Nat × NandBlock)) e =>
      match a with
      | some b => if e.2.erases < b.2.erases then some e else a
      | none => some e) none).map Prod.fst).getD (channel * 65536)

/-- A channel fills a block from now on. -/
def State.openBlock (s : State) (channel b : Nat) : State :=
  { s with flash := { s.flash with openBlk := Sparse.set (2 ^ 30) s.flash.openBlk channel b } }

/-- The block that a channel's next write goes to: the one that it is filling, while that has an erased page, which a free value says since the spec does not give the
pages of a block; then the next erased block (R383, R384; log 8, 18). -/
def State.pickBlock (s : State) (channel : Nat) (but : Option Nat) : Nat × State :=
  let r := s.freeWord
  let s := r.2
  match (s.flash.openBlk.find? fun e => e.1 == channel && e.2 / 65536 == channel).map Prod.snd with
  | some b =>
    if r.1.toNat % 2 = 0 ∧ some b ≠ but ∧ !(Sparse.get {} s.flash.blocks b).bad then (b, s)
    else (s.erasedBlock channel but, s.openBlock channel (s.erasedBlock channel but))
  | none => (s.erasedBlock channel but, s.openBlock channel (s.erasedBlock channel but))

/-- Put a frame's current page into the next erased page of a block, whose reads count anew from this program on; the frame's former page becomes invalid
(R383, R385). -/
def State.mapFrame (s : State) (frame block : Nat) : State :=
  let blocks := match s.flash.map.find? fun e => e.1 == frame with
    | some e => Sparse.upd {} s.flash.blocks e.2 fun b => { b with live := b.live.erase frame, dead := b.dead + 1 }
    | none => s.flash.blocks
  { s with flash := { s.flash with
      map := (s.flash.map.filter fun e => e.1 != frame) |> fun m => Sparse.set (2 ^ 30) m frame block
      page := Sparse.set (2 ^ 30) s.flash.page frame (Sparse.get {} blocks block).used
      blocks := Sparse.upd {} blocks block fun b => { b with live := b.live ++ [frame], used := b.used + 1, reads := 0 } } }

/-- Every 16 KiB frame that a write touches goes to an erased page of its channel (R383). -/
def State.programFrame (s : State) (frame : Nat) : State :=
  let ch := s.flashChannel frame
  let p := s.pickBlock ch none
  ((p.2.mapFrame frame p.1).hubCount 3 (ch * 32 + 2)).hubCount 3 (ch * 32 + 3) 16384

/-- The `n` frames from one on are written. -/
def State.programFrames (s : State) (first n : Nat) : State := (List.range n).foldl (fun (s : State) i => s.programFrame (first + i)) s

/-- Write bytes of the flash frame space, each frame through the mapping table (R383). -/
def State.flashPut (s : State) (a : Nat) (bs : List Byte) : State :=
  (s.programFrames (a / 16384) (ceilDiv (a % 16384 + bs.length) 16384)).writeFlash a bs

end Sys2Proof.Machine
end

