-- ==== Sys2Proof/Machine/Tiles.lean ====
section
/-! DEFINITION. A core's matrix work: issue, loads through the stand port, compute, drain, separate chain passes, halo copies and context
switches (R165 to R209, R263 to R273). No clock: each row is one of these happenings, and cycle costs are left out (log 6). -/

namespace Sys2Proof.Machine

/-! ### Contexts -/

def State.ctx (s : State) (core n : Nat) : Ctx := Sparse.get {} (s.core core).ctxs n

def State.setCtx (s : State) (core n : Nat) (x : Ctx) : State :=
  let k := s.core core
  s.setCore core { k with ctxs := Sparse.set {} k.ctxs n x }

/-- Count a CORE event of a context: the core's event and the context's own (R704: 32 + 16c + e). -/
def State.ctxCount (s : State) (core n ev e : Nat) (k : Nat := 1) : State :=
  (s.count (core / 128) 1 (core % 128 * 128 + ev) k).count (core / 128) 1 (core % 128 * 128 + 32 + 16 * n + e) k

/-- Count one of a context's own events. -/
def State.ctxOnly (s : State) (core n e : Nat) (k : Nat := 1) : State :=
  s.count (core / 128) 1 (core % 128 * 128 + 32 + 16 * n + e) k

/-- Count a CORE event. -/
def State.coreCount (s : State) (core ev : Nat) (k : Nat := 1) : State := s.count (core / 128) 1 (core % 128 * 128 + ev) k

/-- A phase in which the module works on the tick in flight (R67). -/
def State.working (s : State) : Bool :=
  s.ticking && s.tick.phase == .work

/-- A task's blaze has cleared, or it ran in an earlier committed tick (R254). `failed` blazes count as cleared (R255). -/
def State.clearBlaze (s : State) (task : Nat) : Bool :=
  s.fore.cleared.contains task ||
    match s.fore.plan with
    | some p => !(p.tasks.any fun t => t.id == task) && !p.remote.contains task
    | none => true

/-- The core's current function bank (R224). -/
def Core.bank (k : Core) : Bank := if k.curBank then k.bank1 else k.bank0

/-- The IDs of a bank's records. -/
def Bank.ids (b : Bank) : List Nat := b.progs.map (·.id)

/-- The core's set for the next tick differs from the set in its current bank, as sets, or the bank is invalid: it fills the idle bank (R227,
R229). -/
def Core.needsFill (k : Core) : Bool := !k.bank.valid || !(k.want.all k.bank.ids.contains) || !(k.bank.ids.all k.want.contains)

/-- The current bank holds the micro-programs `ids` (R226, R229). -/
def Core.hasFns (k : Core) (ids : List Nat) : Bool := ids.all fun i => k.bank.valid && k.bank.ids.contains i

/-- The environment of a core's lookups: the records of its current bank, effective compatibility and OVF (R140, R228, R243). -/
def State.envOf (s : State) (core : Nat) : Env := ⟨(s.core core).bank.progs, s.sys.compat, s.ovf⟩

/-! ### Odometer of the loop nest (R180) -/

/-- Next index tuple, innermost level last; true when all levels wrapped. -/
def stepIdx : List Nat → List Nat → List Nat × Bool
  | b :: bs, i :: is =>
    let r := stepIdx bs is
    if r.2 then (if i + 1 < b then ((i + 1) :: r.1, false) else (0 :: r.1, true)) else (i :: r.1, false)
  | _, is => (is, true)

/-- The levels from the outermost reduction level inward wrap at this reduction tile: the group of live output tiles is complete (R170, R191). -/
def Ctx.lastOfGroup (c : Ctx) : Bool :=
  let k := kPos c.desc
  (stepIdx (c.bounds.drop k) (c.idx.drop k)).2

/-- The context at its next reduction tile: the next index tuple, then the next problem (R180, R185); none after the last. -/
def Ctx.following (c : Ctx) : Option Ctx :=
  let r := stepIdx c.bounds c.idx
  if !r.2 then some { c with idx := r.1 }
  else if c.prob + 1 < tProbCount c.treg then some { c with idx := r.1, prob := c.prob + 1 }
  else none

/-- Mixed-radix number of the current indices at some positions. -/
def Ctx.ordinal (c : Ctx) (ps : List Nat) : Nat := ps.foldl (fun a n => a * c.bound n + c.ix n) 0

/-- The index tuple of live tile `o` of a group that ended at the indices `idx`. -/
def Ctx.liveIdx (c : Ctx) (idx : List Nat) (o : Nat) : List Nat :=
  ((livePos c.desc).foldr (fun n (a : List Nat × Nat) => (a.1.set n (a.2 % c.bound n), a.2 / c.bound n)) (idx, o)).1

/-! ### Operands in stage memory (R181, R182, R192) -/

/-- Where an operand lies: base, exponent base, pitch, format, block code, columns. -/
structure OpSite where
  base  : Int
  exps  : Int
  pitch : Nat
  fmt   : Nat
  blk   : Nat
  cols  : Nat

/-- Operand A or B of the current problem (R185). -/
def Ctx.site (c : Ctx) (isA : Bool) : OpSite :=
  let t := c.treg
  let d := c.desc
  let o := if isA then 0 else 1
  let adv := probStep t o * c.prob
  let fmt := if isA then dFmtA d else dFmtB d
  let blk := if isA then dBlkA d else dBlkB d
  let bb := blkLen blk * fmtBits fmt / 8
  { base := (if isA then tABase t else tBBase t) + adv
    exps := (if isA then tAExp t else tBExp t) + (if bb = 0 then 0 else adv / bb)
    pitch := if isA then tAPitch t else tBPitch t
    fmt := fmt, blk := blk, cols := dKT d }

/-- The byte ranges of one row at byte offset `off` from the base: elements, then exponents. -/
def OpSite.ranges (x : OpSite) (off : Int) : List (Nat × Nat) :=
  let bb := blkLen x.blk * fmtBits x.fmt / 8
  ((x.base + off).toNat, elemBytes x.fmt x.cols) ::
    (if bb = 0 then [] else (List.range (x.cols / blkLen x.blk)).map fun b => ((x.exps + (off + (b * bb : Nat)) / bb).toNat, 1))

/-- The stand's end position that reads the outside rows of a halo tile from stage memory (R208). -/
def haloEnd (h : Int) (pos : Nat) : Bool := (decide (0 < h) && pos == 7) || (decide (h < 0) && pos == 0)

/-- Rows of a tile as (row number, held here): an A tile of a halo task has its outside rows from stage memory only at the stand's end
position (R207, R208). -/
def Ctx.rowsOf (c : Ctx) (isA : Bool) (pos : Nat) : List (Int × Bool) :=
  let d := c.desc
  if isA then
    let h := dHalo d
    (List.range (aRows d)).map fun (i : Nat) =>
      let r : Int := (i : Int) + min h 0
      let own := decide (0 ≤ r ∧ r < dMT d)
      (r, own || haloEnd h pos)
  else (List.range (dNT d)).map fun (i : Nat) => ((i : Int), true)

/-- The index tuples whose tiles one load brings: the current one, or all of a resident operand (R188). -/
def Ctx.loadTuples (c : Ctx) (isA : Bool) : List (List Nat) :=
  if isRes c.desc isA then
    let ps := resLevels c.desc isA
    (tuples (ps.map c.bound)).map fun vs => (ps.zip vs).foldl (fun (a : List Nat) (p : Nat × Nat) => a.set p.1 p.2) c.idx
  else [c.idx]

/-- Byte ranges that the load of an operand for the current indices reads. -/
def Ctx.loadRanges (c : Ctx) (isA : Bool) (pos : Nat) : List (Nat × Nat) :=
  let x := c.site isA
  (c.loadTuples isA).flatMap fun ix =>
    let off := tileOff c.desc (if isA then 0 else 1) ix
    (c.rowsOf isA pos).flatMap fun r => if r.2 then x.ranges (off + r.1 * x.pitch) else []

/-- Byte ranges of a requested load: of the current tile, or of the next one (R266). -/
def Ctx.askRanges (c : Ctx) (isA next : Bool) (pos : Nat) : List (Nat × Nat) :=
  if next then
    match c.following with
    | some f => f.loadRanges isA pos
    | none => []
  else c.loadRanges isA pos

/-- One tile as the operand buffer holds it: the rows' elements, then their exponents. Rows not held here are zero until copied. -/
def Ctx.tileImage (c : Ctx) (stage : Mem) (isA : Bool) (pos : Nat) (ix : List Nat) : List Byte :=
  let x := c.site isA
  let off := tileOff c.desc (if isA then 0 else 1) ix
  let rows := (c.rowsOf isA pos).map fun r =>
    let rs := x.ranges (off + r.1 * x.pitch)
    if r.2 then rs.map fun q => Mem.bytes stage q.1 q.2 else rs.map fun q => List.replicate q.2 0
  (rows.flatMap fun r => r.head?.getD []) ++ rows.flatMap fun r => r.tail.flatten

/-- The bytes that a load brings into the operand's region. -/
def Ctx.loadImage (c : Ctx) (stage : Mem) (isA : Bool) (pos : Nat) : List Byte :=
  (c.loadTuples isA).flatMap (c.tileImage stage isA pos)

/-! ### The operand buffer (R174, R188) -/

/-- One operand-buffer unit (R174). -/
def unitBytes : Nat := 16384

/-- The regions lie in the order A, B, drain staging, from offset 0 (R174). -/
def regionBase (d : List W64) (isA : Bool) : Nat := if isA then 0 else dAUnits d * unitBytes

/-- Offset of the drain staging region. -/
def stagingBase (d : List W64) : Nat := (dAUnits d + dBUnits d) * unitBytes

/-- Offset in the buffer of a half of an operand's region: a resident operand fills its region from the start. -/
def halfBase (d : List W64) (isA half : Bool) : Nat :=
  regionBase d isA + (if half && !isRes d isA then (if isA then dAUnits d else dBUnits d) * unitBytes / 2 else 0)

/-- Offset of the current tile of an operand in the buffer; a tile of a resident operand lies in the order in which the load brought it. -/
def Ctx.tileAt (c : Ctx) (isA : Bool) : Nat :=
  let d := c.desc
  halfBase d isA (if isA then c.halfA else c.halfB) +
    (if isRes d isA then c.ordinal (resLevels d isA) * (if isA then aTileBytes d else bTileBytes d) else 0)

/-- The current tile of the operand has to be loaded. -/
def Ctx.wants (c : Ctx) (isA : Bool) : Bool := !c.ended && !(if isA then c.haveA else c.haveB)

/-- The next tile of a non-resident operand has to be loaded into the other half, while the current one is in use (R188, R266). -/
def Ctx.wantsNext (c : Ctx) (isA : Bool) : Bool :=
  !c.ended && (if isA then c.haveA && !c.nextA else c.haveB && !c.nextB) && !isRes c.desc isA && c.following.isSome

/-- Loads that the context can request, A before B, as (operand A, next tile). -/
def Ctx.asks (c : Ctx) : List (Bool × Bool) :=
  [true, false].flatMap fun isA =>
    if c.wants isA then [(isA, false)] else if c.wantsNext isA then [(isA, true)] else []

/-! ### Stream bytes (R262, R267) -/

/-- Two byte ranges share a byte. -/
def meets (a b : Nat × Nat) : Bool := decide (0 < a.2 ∧ 0 < b.2 ∧ a.1 < b.1 + b.2 ∧ b.1 < a.1 + a.2)

/-- What a range leaves of another: the parts before and after it. -/
def cutRange (a b : Nat × Nat) : List (Nat × Nat) :=
  if meets a b then
    (if a.1 < b.1 then [(a.1, b.1 - a.1)] else []) ++ (if b.1 + b.2 < a.1 + a.2 then [(b.1 + b.2, a.1 + a.2 - (b.1 + b.2))] else [])
  else [a]

/-- Parts of ranges that no range of a list covers. -/
def uncovered (rs by' : List (Nat × Nat)) : List (Nat × Nat) := by'.foldl (fun rs b => rs.flatMap fun a => cutRange a b) rs

/-- The part that two ranges share. -/
def common (a b : Nat × Nat) : Nat × Nat := (max a.1 b.1, min (a.1 + a.2) (b.1 + b.2) - max a.1 b.1)

/-- Loads of the task still owed the piece. -/
def Arrived.owed (a : Arrived) (task : Nat) : Nat := ((a.readers.find? fun r => r.1 == task).map Prod.snd).getD 0

/-- Some byte of the ranges lies in the stream's buffer, which has not yet received it for the task (R267). -/
def Stream.awaits (x : Stream) (task : Nat) (rs : List (Nat × Nat)) : Bool :=
  let inBuf := (rs.filter (meets (x.base, x.size))).map (common (x.base, x.size))
  let here := (x.arrived.filter fun a => decide (0 < a.owed task)).map fun a => (a.addr, a.bytes)
  uncovered inBuf here != []

/-- Some byte of the ranges has yet to arrive for the task. -/
def Die.awaits (d : Die) (task : Nat) (rs : List (Nat × Nat)) : Bool := d.streams.any fun e => e.2.awaits task rs

/-- One load of the task takes the bytes that the ranges share with a piece; the rest of it waits for its own loads. -/
def Arrived.take (task : Nat) (r : Nat × Nat) (a : Arrived) : List Arrived :=
  if meets (a.addr, a.bytes) r && decide (0 < a.owed task) then
    let m := common (a.addr, a.bytes) r
    let rest := (cutRange (a.addr, a.bytes) r).map fun p => { a with addr := p.1, bytes := p.2 }
    { a with addr := m.1, bytes := m.2, readers := a.readers.map fun q => if q.1 = task then (q.1, q.2 - 1) else q } :: rest
  else [a]

/-- A load has consumed the ranges: bytes whose last planned load has completed are released (R262). Ranges of one load that share bytes count
once. -/
def Stream.consume (x : Stream) (task : Nat) (rs : List (Nat × Nat)) : Stream :=
  let once := rs.foldl (fun (acc : List (Nat × Nat)) r => acc ++ uncovered [r] acc) []
  let all := once.foldl (fun as r => as.flatMap (Arrived.take task r)) x.arrived
  let left := all.filter fun a => a.readers.any fun q => decide (0 < q.2)
  let freed := (all.map (·.bytes)).foldl (· + ·) 0 - (left.map (·.bytes)).foldl (· + ·) 0
  { x with arrived := left, room := x.room + freed, buffered := x.buffered - freed }

/-- Some byte of the weight layer has not been released: it is in a buffer, or has still to arrive (R275). -/
def Stream.holdsLayer (x : Stream) (l : Nat) : Bool :=
  x.arrived.any (fun a => a.layer == some l) || x.items.any fun i =>
    match i.item with
    | .fetch _ _ _ _ _ _ lay => lay == some l
    | .blaze _ => false

/-- The weight window slides past its oldest layers once their last bytes are released (R275). -/
def Die.slide (d : Die) : Die := { d with layers := d.layers.dropWhile fun l => !(d.streams.any fun e => e.2.holdsLayer l) }

/-- Release what a load of a task has consumed, with the streams' counters (R262, R704 class 0x3, event 10). -/
def State.consume (s : State) (die task : Nat) (rs : List (Nat × Nat)) : State :=
  let d := s.die die
  let s' := s.setDie die ({ d with streams := d.streams.map fun e => (e.1, e.2.consume task rs) } : Die).slide
  d.streams.foldl (fun s e => s.count die 3 (e.1 * 16 + 10) ((e.2.consume task rs).room - e.2.room)) s'

/-- Some of the ranges lie behind an uncleared blaze (R253, R267). -/
def State.blazed (s : State) (c : Ctx) (rs : List (Nat × Nat)) : Bool :=
  c.behind.any fun b => !s.clearBlaze b.task && rs.any (meets (b.addr, b.bytes))

/-- A load of the context over the ranges must wait (R267). -/
def State.rangesWait (s : State) (die : Nat) (c : Ctx) (rs : List (Nat × Nat)) : Bool := s.blazed c rs || (s.die die).awaits c.task rs

/-- Stage words that hold the MEMWORD bounds of a descriptor (R179). -/
def memWords (d : List W64) : List (Nat × Nat) := (dNest d).filterMap fun l => if l.src = 2 then some (l.arg % 2 ^ 28, 4) else none

/-- The context as it would start: bounds read and indices at zero. -/
def Ctx.opened (c : Ctx) (stage : Mem) : Ctx :=
  if c.st = .loaded then { c.readBounds stage with idx := (dNest c.desc).map fun _ => 0 } else c

/-- The loads that a context needs next wait (R267); a MEMWORD bound waits like a load (R189, R255). -/
def State.loadsWait (s : State) (die pos : Nat) (c : Ctx) : Bool :=
  if c.desc = [] then c.behind.any fun b => !s.clearBlaze b.task
  else
    (decide (c.st = .loaded) && s.blazed c (memWords c.desc)) ||
      [true, false].any fun isA => c.wants isA && s.rangesWait die c (c.loadRanges isA pos)

/-! ### Requests at the stand port (R265) -/

/-- Request the loads that the running context needs and has not asked for. -/
def State.askLoads (s : State) (core n : Nat) : State :=
  let c := s.ctx core n
  let st := s.stand (core / 8)
  let rs := (c.asks.map fun a => (⟨core, n, c.task, a.1, decide (dKind c.desc = 1), a.2⟩ : PortReq)).filter fun r =>
    !(st.queue.contains r) && st.granted != some r
  s.setStand (core / 8) { st with queue := st.queue ++ rs }

/-- Drop a core's requests that have not been granted. -/
def State.dropAsks (s : State) (core : Nat) : State :=
  let st := s.stand (core / 8)
  s.setStand (core / 8) { st with queue := st.queue.filter fun r => r.core != core }

/-- A core's requests for the next tile are for the current one once the tile before it has been computed (R266). -/
def State.promoteAsks (s : State) (core : Nat) : State :=
  let st := s.stand (core / 8)
  let f (r : PortReq) : PortReq := if r.core = core then { r with next := false } else r
  s.setStand (core / 8) { st with queue := st.queue.map f, granted := st.granted.map f }

/-- A suspended context runs again, with nothing loaded and empty accumulators (R272). -/
def State.resume (s : State) (core n : Nat) : State :=
  let c := s.ctx core n
  if c.st = .suspended then ((s.setCore core { s.core core with acc := [] }).setCtx core n { c with st := .running }).askLoads core n else s

/-- The context that runs next on a core: the first in plan order that still has work (R269); a suspended one resumes (R272). -/
def State.nextCtx (s : State) (core : Nat) : State :=
  let k := s.core core
  let open' := ((List.range 4).map fun n => (n, s.ctx core n)).filter fun e => e.2.st == .loaded || e.2.st == .suspended
  match open'.foldl (fun (a : Option (Nat × Ctx)) e =>
      match a with
      | some b => if e.2.rank < b.2.rank then some e else a
      | none => some e) none with
  | none => s.setCore core { k with running := none }
  | some (n, _) => (s.setCore core { k with running := some n }).resume core n

/-! ### Placing tasks in contexts (R166, R269) -/

/-- The descriptor of a task kind: an alternative of the image's table of the operation, none for a vector pass. -/
def State.descOf (s : State) (k : TaskKind) : List W64 :=
  match k with
  | .matrix operation alt =>
    match s.img.loops.find? fun t => t.operation == operation with
    | some t => t.descs[alt]?.getD []
    | none => []
  | .vector _ => []

/-- The context that a planned task fills (R166, R187). -/
def State.planCtx (s : State) (rank : Nat) (t : TaskPlan) : Ctx :=
  let c : Ctx := { st := .loaded, task := t.id, req := t.req,
                   treg := ((List.range t.tregs.length).zip t.tregs).foldl (fun m p => Sparse.set 0 m p.1 p.2) [],
                   desc := s.descOf t.kind, rank := rank, fns := t.fns, behind := t.behind, layer := t.layer, space := t.space }
  match t.part with
  | some p => if c.desc = [] then c else c.piece p.1 p.2
  | none => c

/-- A context is free for another task. -/
def Ctx.free (c : Ctx) : Bool := c.st == .empty || c.st == .done || c.st == .faulted

/-- The Forester places the next of a core's tasks for a context once it is free (R269). -/
def State.placeTask (s : State) (core n : Nat) : State :=
  let k := s.core core
  match k.todo.find? fun x => x.2.ctx == n with
  | some x => if (s.ctx core n).free then (s.setCore core { k with todo := k.todo.erase x }).setCtx core n (s.planCtx x.1 x.2) else s
  | none => s

/-! ### Ending a task (R195, R254, R255) -/

/-- Some context of the module still has the task to run, or a core has yet to place it. -/
def State.taskOpen (s : State) (task : Nat) : Bool :=
  s.cores.any fun e => e.2.todo.any (fun x => x.2.id == task) || e.2.ctxs.any fun c =>
    c.2.task == task && (c.2.st == .loaded || c.2.st == .running || c.2.st == .suspended)

/-- A context has finished: its blaze clears with the last of the task's contexts (R254), and its core goes on with its list. -/
def State.finishCtx (s : State) (core n : Nat) : State :=
  let c := s.ctx core n
  let s := (s.setCtx core n { c with st := .done, haveA := false, haveB := false }).ctxCount core n 28 1
  let s := if s.taskOpen c.task then s else { s with fore := { s.fore with cleared := s.fore.cleared ++ [c.task] } }
  (s.placeTask core n).nextCtx core

/-- A request ends with an issue fault at the commit; its outputs of the tick are discarded there (R195). -/
def State.faultReq (s : State) (r : Option Nat) (code : Nat) : State :=
  match r with
  | some rid => s.updReq rid fun r => if r.stage = .finishing then r else r.fail code
  | none => s

/-- A stream entry without the tasks that will not run; one that no other task reads goes. -/
def itemWithout (gone : Nat → Bool) (i : StreamItem) : Option StreamItem :=
  match i with
  | .fetch src unit addr dst bytes rs layer =>
    let left := rs.filter fun q => !gone q.1
    if left = [] ∧ rs ≠ [] then none else some (.fetch src unit addr dst bytes left layer)
  | .blaze t => some (.blaze t)

/-- A piece in a buffer without a task that will not read it; one that no other task is to read is released. -/
def Arrived.without (task : Nat) (a : Arrived) : Option Arrived :=
  let left := a.readers.filter fun q => q.1 != task
  if left = a.readers ∨ left.any (fun q => decide (0 < q.2)) then some { a with readers := left } else none

/-- A stream whose buffer and entries no longer wait for a discarded task: the bytes that it alone was to read are released, and those not yet granted are not asked for
(R255, R262; DEDUCED, log 60). -/
def Stream.forget (task : Nat) (x : Stream) : Stream :=
  let items := x.items.filterMap fun y => (itemWithout (· == task) y.item).map fun i => { y with item := i }
  let arrived := x.arrived.filterMap (Arrived.without task)
  let out := (x.items.filter fun y => (itemWithout (· == task) y.item).isNone).map fun y => y.far - y.got
  let freed := (x.arrived.map (·.bytes)).foldl (· + ·) 0 - (arrived.map (·.bytes)).foldl (· + ·) 0 + out.foldl (· + ·) 0
  { x with items := items, arrived := arrived, room := x.room + freed, buffered := x.buffered - freed }

/-- A die's streams forget a discarded task. -/
def Die.forget (task : Nat) (d : Die) : Die := ({ d with streams := d.streams.map fun e => (e.1, e.2.forget task) } : Die).slide

/-- The streams of every die forget a discarded task, with their counters (R255, R262, R704 class 0x3, event 10). -/
def State.forget (s : State) (task : Nat) : State :=
  s.dies.foldl (fun (s : State) d => d.2.streams.foldl (fun (s : State) e =>
    s.count d.1 3 (e.1 * 16 + 10) ((e.2.forget task).room - e.2.room)) s) { s with dies := Sparse.mapVals {} (fun _ (d : Die) => d.forget task) s.dies }

/-- A context's task ends without running: the blaze clears as failed, and the streams no longer wait for its loads (R195, R255). -/
def State.failOne (code : Nat) (s : State) (e : Nat × Nat) : State :=
  let c := s.ctx e.1 e.2
  let s := s.setCtx e.1 e.2 { c with st := .faulted }
  let s := { s with fore := { s.fore with cleared := s.fore.cleared ++ [c.task],
                                          failTasks := s.fore.failTasks ++ [(c.task, BitVec.ofNat 16 code)] } }
  let s := ((s.forget c.task).faultReq c.req code).placeTask e.1 e.2
  if (s.core e.1).running = some e.2 then (s.dropAsks e.1).nextCtx e.1 else s

/-- Contexts, as (core, context), that have a task to run and read behind one of the tasks, or run one of them: a stand task falls on all its cores
(R205). -/
def State.readersOf (s : State) (tasks : List Nat) : List (Nat × Nat) :=
  s.cores.flatMap fun e => (e.2.ctxs.filter fun c =>
    (c.2.st == .loaded || c.2.st == .running || c.2.st == .suspended) &&
      (tasks.contains c.2.task || c.2.behind.any fun b => tasks.contains b.task)).map fun c => (e.1, c.1)

/-- Contexts that fall with a failed task, step by step: those that read behind it, those that read behind them, and so on (R255). A consumer that falls clears
its own blaze as failed, with the first producer's code, and one that already runs falls too (DESIGN CHOICE, log 60). -/
def State.failWave (code : Nat) : Nat → List Nat → State → State
  | 0, _, s => s
  | n + 1, tasks, s =>
    match s.readersOf tasks with
    | [] => s
    | es => State.failWave code n (es.map fun e => (s.ctx e.1 e.2).task) (es.foldl (State.failOne code) s)

/-- A context's task fails, with every task that reads behind it (R195, R255); at most four tasks stand in the contexts of each core. -/
def State.failCtx (s : State) (core n code : Nat) : State :=
  State.failWave code (4 * s.cores.length) [(s.ctx core n).task] (s.failOne code (core, n))

/-- Contexts fail together, in the order given, with every task that reads behind them (R209, R255). -/
def State.failSet (s : State) (set : List (Nat × Nat)) (code : Nat) : State :=
  State.failWave code (4 * s.cores.length) ((set.map fun e => (s.ctx e.1 e.2).task).eraseDups) (set.foldl (State.failOne code) s)

/-- The fault of the context's own task on another core, or of a producer that it reads behind (R205, R255). -/
def State.producerFault (s : State) (c : Ctx) : Option Nat :=
  (s.fore.failTasks.find? fun f => f.1 == c.task || c.behind.any fun b => b.task == f.1).map fun f => f.2.toNat

/-! ### Compute (R153, R156, R168 to R170) -/

/-- Element codes of a byte list; of two 4-bit elements in a byte the lower index is in bits 3:0 (R117). -/
def codesOf (fmt : Nat) (bs : List Byte) : List Nat :=
  if fmt = 5 then bs.flatMap fun b => [b.toNat % 16, b.toNat / 16] else leWords (fmtBits fmt / 8) bs

/-- Bytes of a list of element codes. -/
def packCodes (fmt : Nat) : List Nat → List Byte
  | a :: b :: cs => if fmt = 5 then BitVec.ofNat 8 (a + 16 * b) :: packCodes fmt cs
    else leBytes (fmtBits fmt / 8) a ++ (leBytes (fmtBits fmt / 8) b ++ packCodes fmt cs)
  | [a] => if fmt = 5 then [BitVec.ofNat 8 a] else leBytes (fmtBits fmt / 8) a
  | [] => []

/-- The values of stored elements under their block exponents (R117, R127, R146). -/
def storedValues (fmt blk : Nat) (elems exps : List Byte) : List Num :=
  let f := (fmtOf fmt).getD .fp32
  let n := blkLen blk
  let cs := codesOf fmt elems
  ((List.range cs.length).zip cs).map fun p =>
    if n = 0 then f.read p.2 else blockValue f p.2 (exps[p.1 / n]?.getD 0).toNat

/-- FP32 values as the matrix unit takes them: F19 on the fast path, whole in strict mode (R120, R121, R157). -/
def toOperand (strict f19rne ieee : Bool) (xs : List Num) : List Num × List Flags :=
  if strict then (xs, [])
  else
    let rs := xs.map (Fp.f19.round (if f19rne then .rne else .trunc) ieee)
    (rs.map fun r => Fp.f19.value r.1, (rs.map Prod.snd).filter fun f => f.bits != 0)

/-- The values of a row in the operand buffer, with the flags of F19 conversions. -/
def State.rowValues (s : State) (fmt blk : Nat) (elems exps : List Byte) : List Num × List Flags :=
  let vs := storedValues fmt blk elems exps
  if fmt = 0 then toOperand s.num s.f19Rnd s.ovf vs else (vs, [])

/-- The rows of a buffered tile image that the matrix unit takes. -/
def State.tileRows (s : State) (buf : Mem) (at' rows first take fmt blk cols : Nat) : List (List Num × List Flags) :=
  let w := elemBytes fmt cols
  let x := if blkLen blk = 0 then 0 else cols / blkLen blk
  (List.range take).map fun i =>
    s.rowValues fmt blk (Mem.bytes buf (at' + (first + i) * w) w) (Mem.bytes buf (at' + rows * w + (first + i) * x) x)

/-- Accumulators of one footprint half (R26, R202). -/
def halfAccs : Nat := 65536

/-- First accumulator of a half; a footprint above 256 KiB has the whole memory (R202, R203). -/
def Ctx.accBase (c : Ctx) (half : Nat) : Nat := if c.fused then half * halfAccs else 0

/-- One reduction tile: every element of the output tile takes its dot product (R153, R156, R170). -/
def State.computeTile (s : State) (c : Ctx) (k : Core) : Sparse W32 × List Flags :=
  let d := c.desc
  -- output row i takes A row i + h (R206): the first row held is row min(h, 0)
  let ar := s.tileRows k.buf (c.tileAt true) (aRows d) (dHalo d - min (dHalo d) 0).toNat (dMT d) (dFmtA d) (dBlkA d) (dKT d)
  let br := s.tileRows k.buf (c.tileAt false) (dNT d) 0 (dNT d) (dFmtB d) (dBlkB d) (dKT d)
  let base := c.accBase c.half + c.ordinal (livePos d) * dMT d * dNT d
  let cells := (List.range (dMT d * dNT d)).map fun e =>
    let a := (ar[e / dNT d]?.map Prod.fst).getD []
    let b := (br[e % dNT d]?.map Prod.fst).getD []
    let r := dot s.num s.ovf (Sparse.get 0 k.acc (base + e)).toNat (a.zip b)
    (Fp.fp32.stored r.1, r.2)
  (Sparse.setList 0 k.acc base (cells.map fun r => BitVec.ofNat 32 r.1),
    (ar.flatMap Prod.snd) ++ (br.flatMap Prod.snd) ++ (cells.map Prod.snd).filter fun f => f.bits != 0)

/-- Raise a list of flag events for a request. -/
def State.raiseAll (s : State) (core : Nat) (rid : Option Nat) (fs : List Flags) : State :=
  fs.foldl (fun s f => s.raiseFlags (core / 128) (core % 128) rid f) s

/-- Work slots of a core and of its context's task (R710). -/
def State.addWork (s : State) (core n slots : Nat) : State :=
  let c := s.ctx core n
  let s := s.setCtx core n { c with work := c.work + slots }
  let k := s.core core
  s.setCore core { k with work := k.work + slots }

/-- CORE event of matrix busy cycles: 32-, 16-, 8- and 4-bit class, or strict mode (R704). -/
def busyEvent (strict : Bool) (fmt : Nat) : Nat :=
  if strict then 5 else if fmt = 0 then 1 else if fmt = 1 ∨ fmt = 2 then 2 else if fmt = 5 then 4 else 3

/-- Cycles of one reduction tile of a descriptor (R158, R169). -/
def descTileCycles (strict : Bool) (d : List W64) : Nat :=
  if strict then dMT d * dNT d * dKT d / 64 else tileCycles ((fmtOf (dFmtA d)).getD .fp32) (dMT d) (dNT d) (dKT d)

/-- The accumulator memory can take the group in progress: it holds two footprints of at most 256 KiB, or one (R202, R203). -/
def Ctx.accFree (c : Ctx) : Bool := decide (c.groups.length < if c.fused then 2 else 1)

/-- Everything that the running context needs for its next reduction tile is here, and its neighbour has copied what it takes (R207). -/
def Ctx.canCompute (c : Ctx) (pos : Nat) : Bool :=
  let h := dHalo c.desc
  let taker := (decide (0 < h) && decide (0 < pos)) || (decide (h < 0) && decide (pos < 7))
  c.st == .running && !c.ended && c.haveA && c.haveB && c.accFree && decide (c.desc ≠ []) &&
    (h == 0 || haloEnd h pos || c.haloGot) && (!taker || c.haloGave)

/-- The operand is still there for the next reduction tile: its next tile has been loaded, or it is resident and stays (R188). -/
def Ctx.keeps (c f : Ctx) (isA : Bool) : Bool :=
  if isRes c.desc isA then f.prob == c.prob && !((f.idx.drop (dResPos c.desc)).all (· == 0)) else if isA then c.nextA else c.nextB

/-- The context after a reduction tile has been computed (R170, R180, R185, R188). -/
def Ctx.advance (c : Ctx) : Ctx :=
  let g := c.lastOfGroup
  let c1 := { c with groups := if g then c.groups ++ [({ idx := c.idx, prob := c.prob, half := c.half } : TileGroup)] else c.groups
                     half := if g && c.fused then 1 - c.half else c.half
                     haloGot := false, haloGave := false }
  match c.following with
  | none => { c1 with ended := true, haveA := false, haveB := false, nextA := false, nextB := false }
  | some f => { c1 with idx := f.idx, prob := f.prob, haveA := c.keeps f true, haveB := c.keeps f false, nextA := false, nextB := false,
                        halfA := if isRes c.desc true then false else !c.halfA, halfB := if isRes c.desc false then false else !c.halfB }

/-- Compute the next reduction tile when it can be, and ask for the loads that may follow. While a load of the core has the stand port its buffer takes data
and the matrix unit waits (R264, R266). -/
def State.tryCompute (s : State) (core : Nat) : State :=
  let k := s.core core
  match k.running with
  | none => s
  | some n =>
    let c := s.ctx core n
    if !c.canCompute (core % 8) || ((s.stand (core / 8)).granted.any fun r => r.core == core) then s
    else
      let r := s.computeTile c k
      let cyc := descTileCycles s.num c.desc
      let s := ((s.setCore core { k with acc := r.1 }).setCtx core n c.advance).promoteAsks core
      let s := ((s.raiseAll core c.req r.2).addWork core n cyc).coreCount core (busyEvent s.num (dFmtA c.desc)) cyc
      (s.ctxCount core n 29 2).askLoads core n

/-- Compute as far as the loaded tiles go: the current one, and the next one when it is there. -/
def State.compute (s : State) (core : Nat) : State := (s.tryCompute core).tryCompute core

/-! ### Drain (R176, R201 to R204) -/

/-- Draws and flags of a drain, with the stage memory that its chain reads. -/
structure Drain where
  gens  : Sparse W64
  draws : Nat := 0
  fls   : List Flags := []
  stage : Mem
  deriving DecidableEq, Repr

/-- The rounding of one conversion: a draw from the lane's generator when stochastic (R134, R137, R138). -/
def Drain.mode (g : Drain) (seed : W64) (core lane : Nat) (stoch : Bool) : Rnd × Drain :=
  if stoch then
    let st := Sparse.get (srSeed seed (core / 128) (core % 128) lane) g.gens lane
    let d := srDraw st
    (.sr d.2, { g with gens := Sparse.set 0 g.gens lane d.1, draws := g.draws + 1 })
  else (.rne, g)

def Drain.flag (g : Drain) (f : Flags) : Drain := if f.bits = 0 then g else { g with fls := g.fls ++ [f] }

/-- One chain step on an element (R176). -/
def State.chainStep (s : State) (core lane row col : Nat) (t : Sparse W64) (st : ChainStep) (v : Nat) (g : Drain) : Nat × Drain :=
  let r := tregAt t st.arg
  let rd (a : Nat) : Num := Fp.fp32.read (Mem.num g.stage a 4)
  let add (x : Num) : Nat × Drain := let y := Sys2Proof.Machine.rnd .fp32 s.ovf ((v32 v).add x); (y.1, g.flag y.2)
  if st.op = 1 then add (rd (fld r 0 28 + 4 * row))
  else if st.op = 2 then add (rd (fld r 0 28 + 4 * col))
  else if st.op = 3 then
    let y := (s.envOf core).fn st.param v
    (y.1, g.flag y.2)
  else if st.op = 4 then
    let y := mul32 s.ovf v (fld r 0 32)
    (y.1, g.flag y.2)
  else if st.op = 5 then
    let f := (fmtOf (st.param % 16)).getD .fp32
    add (f.read (Mem.num g.stage (fld r 0 28 + row * fld r 32 28 + elemBytes (st.param % 16) col) (elemBytes (st.param % 16) 1)))
  else if st.op = 6 then
    let f := (fmtOf (st.param % 16)).getD .bf16
    let m := g.mode s.srSeedImage core lane (s.rnd == 2)
    let y := f.convert m.1 s.ovf (v32 v)
    ((Fp.fp32.round .rne true (f.value y.1)).1, m.2.flag y.2)
  else (v, g)

/-- The chain steps on an element, in order. -/
def State.runChain (s : State) (core lane row col : Nat) (t : Sparse W64) (chain : List ChainStep) (v : Nat) (g : Drain) : Nat × Drain :=
  chain.foldl (fun (a : Nat × Drain) st => s.chainStep core lane row col t st a.1 a.2) (v, g)

/-- Where a block's elements go. -/
structure OutSite where
  base  : Int
  exps  : Int
  pitch : Nat
  fmt   : Nat
  blk   : Nat
  cols  : Nat

/-- The output of a problem (R185). -/
def Ctx.outSite (c : Ctx) (prob : Nat) : OutSite :=
  let d := c.desc
  let adv := tProbOut c.treg * prob
  let bb := blkLen (dBlkOut d) * fmtBits (dFmtOut d) / 8
  { base := tOutBase c.treg + adv, exps := tOutExp c.treg + (if bb = 0 then 0 else adv / bb)
    pitch := tOutPitch c.treg, fmt := dFmtOut d, blk := dBlkOut d, cols := dNT d }

/-- Convert consecutive elements of one row or block (R131 to R137): codes, the block exponent when blocked, and the drain state. Element i belongs to
lane `lane i`. Every element of a conversion that R134 selects takes a draw, NaN, infinite or exact though it may be (R137; DEDUCED, log 26). -/
def State.convertNums (s : State) (core fmt : Nat) (blocked stoch : Bool) (lane : Nat → Nat) (xs : List Num) (g : Drain) :
    List Nat × Nat × Drain :=
  let f := (fmtOf fmt).getD .fp32
  let r := ((List.range xs.length).zip xs).foldl (fun (a : List (Num × Rnd) × Drain) p =>
    let m := a.2.mode s.srSeedImage core (lane p.1) (stoch && fmt != 0)
    (a.1 ++ [(p.2, m.1)], m.2)) ([], g)
  if blocked then
    let b := convertBlock f s.ovf (r.1.map Prod.fst) (r.1.map Prod.snd)
    (b.2.1, b.1, r.2.flag b.2.2)
  else
    let cs := r.1.map fun p => f.convert p.2 s.ovf p.1
    (cs.map Prod.fst, 0, cs.foldl (fun g c => g.flag c.2) r.2)

/-- Scale FP32 values by RN(1 ÷ s_out) and convert them (R126). -/
def State.convertRun (s : State) (core fmt : Nat) (blocked stoch : Bool) (rcp : Nat) (lane : Nat → Nat) (vs : List Nat) (g : Drain) :
    List Nat × Nat × Drain :=
  let ys := vs.map fun v => mul32 s.ovf v rcp
  s.convertNums core fmt blocked stoch lane (ys.map fun y => v32 y.1) (ys.foldl (fun g y => g.flag y.2) g)

/-- Lane of element `i` of a run that starts at column `first`: the column within the tile or row, modulo 64 (R137). -/
def colLane (first i : Nat) : Nat := (first + i) % 64

/-- One row of an output tile, chained and converted: element codes, block exponents and the drain state. The tile is at byte offset `off` from
OUT_BASE. -/
def State.drainRow (s : State) (core : Nat) (c : Ctx) (x : OutSite) (chain : List ChainStep) (off : Int) (i : Nat) (vs : List Nat) (g : Drain) :
    List Nat × List Nat × Drain :=
  let bits := fmtBits x.fmt
  let n := if blkLen x.blk = 0 then 1 else blkLen x.blk
  let rowOff := off + (i * x.pitch : Nat)
  (List.range (x.cols / n)).foldl (fun (a : List Nat × List Nat × Drain) b =>
    let ch := (List.range n).foldl (fun (q : List Nat × Drain) j =>
      let col := b * n + j
      let rc := outRowCol x.pitch bits (rowOff.toNat * 8 + col * bits)
      let e := s.runChain core (col % 64) rc.1 rc.2 c.treg chain (vs[col]?.getD 0) q.2
      (q.1 ++ [e.1], e.2)) ([], a.2.2)
    let cv := s.convertRun core x.fmt (decide (blkLen x.blk ≠ 0)) (s.rnd == 2) c.rcpOut.toNat (colLane (b * n)) ch.1 ch.2
    (a.1 ++ cv.1, if blkLen x.blk = 0 then a.2.1 else a.2.1 ++ [cv.2.1], cv.2.2)) ([], [], g)

/-- One converted row goes out to stage memory, elements and exponents (R181, R182). -/
def OutSite.writeRow (x : OutSite) (stage : Mem) (rowOff : Int) (codes exps : List Nat) : Mem :=
  let bb := blkLen x.blk * fmtBits x.fmt / 8
  let st := Mem.write stage (x.base + rowOff).toNat (packCodes x.fmt codes)
  ((List.range exps.length).zip exps).foldl (fun st p =>
    Mem.write st (x.exps + (rowOff + (p.1 * bb : Nat)) / bb).toNat [BitVec.ofNat 8 p.2]) st

/-- Where the converted elements of a fused tile collect in drain staging: one of its two halves; a tile above 256 KiB has the whole (R193, R202,
R203). -/
def Ctx.stagingAt (c : Ctx) : Nat :=
  stagingBase c.desc + (if c.fused && c.stagHalf then tileBytes (dMT c.desc) (dNT c.desc) (dFmtOut c.desc) (dBlkOut c.desc) else 0)

/-- Chain and store of one output tile of the oldest group, its FP32 values given in row order: the rows convert in ascending order, collect in
drain staging, elements first and then exponents (log 50), and are written out from there (R201, R202). -/
def State.storeTile (s : State) (core n : Nat) (chain : List ChainStep) (vals : List Nat) : State :=
  let c := s.ctx core n
  let die := core / 128
  let g : TileGroup := c.groups.headD { idx := c.idx, prob := c.prob, half := 0 }
  let x := c.outSite g.prob
  let off := tileOff c.desc 2 (c.liveIdx g.idx c.drained)
  let nT := dNT c.desc
  let r := (List.range (dMT c.desc)).foldl (fun (a : List (List Nat × List Nat) × Drain) i =>
    let y := s.drainRow core c x chain off i ((vals.drop (i * nT)).take nT) a.2
    (a.1 ++ [(y.1, y.2.1)], y.2.2)) ([], ({ gens := (s.core core).gens, stage := (s.die die).stage } : Drain))
  let held := (r.1.flatMap fun y => packCodes x.fmt y.1) ++ r.1.flatMap fun y => y.2.map (BitVec.ofNat 8)
  let stage := ((List.range r.1.length).zip r.1).foldl (fun st p => x.writeRow st (off + (p.1 * x.pitch : Nat)) p.2.1 p.2.2) (s.die die).stage
  let s := s.setDie die { s.die die with stage := stage }
  let k := s.core core
  let s := s.setCore core { k with gens := r.2.gens, buf := Mem.write k.buf c.stagingAt held }
  ((s.raiseAll core c.req r.2.fls).coreCount core 20 r.2.draws).ctxOnly core n 11

/-- The scaled accumulators of the tile that drains next (R125, R201), with their flags. -/
def State.scaledTile (s : State) (core : Nat) (c : Ctx) : List Nat × List Flags :=
  let mn := dMT c.desc * dNT c.desc
  let half := (c.groups.head?.map (·.half)).getD 0
  let rs := (Sparse.getList 0 (s.core core).acc (c.accBase half + c.drained * mn) mn).map fun a =>
    drainScale s.ovf a.toNat (tSA c.treg) (tSB c.treg)
  (rs.map Prod.fst, (rs.map Prod.snd).filter fun f => f.bits != 0)

/-- After a tile has been stored: the next live tile of the group, or the next group with these accumulators empty; the task ends with its last
group (R170, R202, R203, R254). -/
def State.afterTile (s : State) (core n : Nat) : State :=
  let c := s.ctx core n
  let c := { c with staged := false, stagHalf := c.fused && !c.stagHalf }
  if c.drained + 1 < c.liveTiles then s.setCtx core n { c with drained := c.drained + 1 }
  else
    let k := s.core core
    let half := (c.groups.head?.map (·.half)).getD 0
    let s := s.setCore core { k with acc := if c.fused then Sparse.keep (fun a => decide (a / halfAccs ≠ half)) k.acc else [] }
    let s := s.setCtx core n { c with drained := 0, groups := c.groups.drop 1 }
    if c.ended && c.groups.length ≤ 1 then s.finishCtx core n else (s.askLoads core n).compute core

/-! ### The rows -/

/-- The module has the core. -/
def State.onCore (s : State) (die core : Nat) (f : Out) : Out := needPart (s.hasCore die core) "core" f

/-- The running context of a core. -/
def State.runningCtx (s : State) (core : Nat) : Option (Nat × Ctx) :=
  (s.core core).running.map fun n => (n, s.ctx core n)

/-- Start a context that passed its checks: the bounds are read, RN(1 ÷ S_OUT) is formed and the first loads are requested (R126, R189). -/
def State.startCtx (s : State) (core n : Nat) : State :=
  let c := (s.ctx core n).readBounds (s.die (core / 128)).stage
  let rcp := div32 s.ovf one32 (tSOut c.treg)
  let c := { c with st := .running, idx := c.bounds.map fun _ => 0, prob := 0, haveA := false, haveB := false, nextA := false, nextB := false,
                    halfA := false, halfB := false, ended := false, half := 0, groups := [], drained := 0, staged := false, stagHalf := false,
                    rcpOut := BitVec.ofNat 32 rcp.1, live := c.liveTiles, haloGot := false, haloGave := false }
  let s := (s.setCtx core n c).ctxCount core n 27 0
  if c.desc = [] then s else ((s.raiseAll core c.req ([rcp.2].filter fun f => f.bits != 0)).setCore core { s.core core with acc := [] }).askLoads core n

/-- The contexts that issue together: of a halo task, the running and loaded contexts of the stand's cores that hold it, in ascending position (R205,
R209); for another task, the context itself. -/
def State.issueSet (s : State) (core n : Nat) : List (Nat × Nat) :=
  let c := s.ctx core n
  if dKind c.desc = 1 then
    (List.range 8).filterMap fun p =>
      let k := core / 8 * 8 + p
      match s.runningCtx k with
      | some (m, x) => if x.task = c.task ∧ x.st = .loaded then some (k, m) else none
      | none => none
  else [(core, n)]

/-- A halo task issues on all eight cores of its stand at once (R205, R209). -/
def State.issueWhole (s : State) (core n : Nat) : Bool :=
  decide (dKind (s.ctx core n).desc ≠ 1) || decide ((s.issueSet core n).length = 8)

/-- The checks of one context at its issue (R151, R194): none for a vector pass. -/
def State.checkCtx (s : State) (core n : Nat) : Option Nat :=
  let c := (s.ctx core n).readBounds (s.die (core / 128)).stage
  if c.desc = [] then none else c.issueFault (core % 8)

/-- An issue that passed: started, or empty (R190). -/
def State.passCtx (s : State) (core n : Nat) : State :=
  let c := (s.ctx core n).readBounds (s.die (core / 128)).stage
  if c.desc ≠ [] ∧ c.emptyIssue then ((s.coreCount core 16).ctxOnly core n 13).finishCtx core n
  else s.startCtx core n

/-- An issue fault is counted on its core (R195). -/
def State.countFault (s : State) (core n code : Nat) : State := (s.coreCount core (9 + (code - 0x100))).ctxOnly core n 12

/-- An issue that faulted on its core (R195). -/
def State.faultCtx (s : State) (core n code : Nat) : State := (s.countFault core n code).failCtx core n code

/-- The generation of the core's current bank is the one that its die records (R229). -/
def State.bankCurrent (s : State) (core : Nat) : Bool :=
  let b := (s.core core).bank
  b.valid && Sparse.get 0 (s.die (core / 128)).fnGen core == b.gen

/-- TASK_ISSUE: the running context's task starts (R151, R189 to R195, R209, R255). A MEMWORD bound waits for its producer's blaze. Where several positions of a
halo task fault, R209 names the lowest for the task's fault and does not say which cores count one: the lowest alone counts it (DESIGN CHOICE, log 60). -/
def execTaskIssue (die core ctx : Nat) (s : State) : Out :=
  s.onCore die core <|
    let k := coreNo die core
    let c := s.ctx k ctx
    when (s.working && (s.core k).running == some ctx && c.st == .loaded && (s.core k).hasFns c.fns && s.bankCurrent k &&
        (s.issueWhole k ctx || (s.producerFault c).isSome) && !(s.blazed c (memWords c.desc))) s <|
      let set := s.issueSet k ctx
      match s.producerFault c with
      | some code => s.failSet set code
      | none =>
        match set.findSome? fun e => (s.checkCtx e.1 e.2).map fun code => (e, code) with
        | some (e, code) => (s.countFault e.1 e.2 code).failSet set code
        | none =>
          let s := if dKind c.desc = 1 then s.count die 6 (core / 8 * 32 + 22) else s
          set.foldl (fun s e => s.passCtx e.1 e.2) s

/-- A request at the port whose load need not wait (R265, R267). -/
def State.grantable (s : State) (r : PortReq) : Bool :=
  let c := s.ctx r.core r.ctx
  !(s.rangesWait (r.core / 128) c (c.askRanges r.isA r.next (r.core % 8)))

/-- STAND_PORT_GRANT: the earliest request whose bytes are present takes the port (R265, R267). A request whose load waits under R267 does not hold back those
behind it: the port passes over it (DESIGN CHOICE, log 17). -/
def execStandPortGrant (die stand : Nat) (s : State) : Out :=
  needPart (s.hasDie die && decide (stand < 16)) "stand" <|
    let n := standNo die stand
    let st := s.stand n
    match st.queue.find? s.grantable with
    | some r =>
      when (s.working && st.granted.isNone) s <|
        ((s.setStand n { st with granted := some r, queue := st.queue.erase r }).count die 6 (stand * 32 + 17))
    | none => .next s

/-- The context that a load serves: at its current reduction tile, or at the next one (R266). -/
def Ctx.loading (c : Ctx) (next : Bool) : Ctx := if next then c.following.getD c else c

/-- The context once a load of its current or its next tile has completed. -/
def Ctx.loaded (c : Ctx) (isA next : Bool) : Ctx :=
  if next then (if isA then { c with nextA := true } else { c with nextB := true })
  else if isA then { c with haveA := true } else { c with haveB := true }

/-- The half of its region that a load fills: the current tile's, or the other one (R266). -/
def Ctx.loadHalf (c : Ctx) (isA next : Bool) : Bool := (if isA then c.halfA else c.halfB) != next

/-- The bytes of a granted load enter the operand's region (R188, R207, R208, R266). -/
def State.loadOperand (s : State) (r : PortReq) : State :=
  let c := s.ctx r.core r.ctx
  let die := r.core / 128
  let pos := r.core % 8
  let bs := (c.loading r.next).loadImage (s.die die).stage r.isA pos
  let k := s.core r.core
  let s := s.setCore r.core { k with buf := Mem.write k.buf (halfBase c.desc r.isA (c.loadHalf r.isA r.next)) bs }
  let h := dHalo c.desc
  let s := s.setCtx r.core r.ctx (c.loaded r.isA r.next)
  let s := if r.isA && haloEnd h pos then s.count die 6 (r.core % 128 / 8 * 32 + 31) h.natAbs else s
  let s := s.ctxCount r.core r.ctx 30 3 bs.length
  if isRes c.desc r.isA then s.ctxCount r.core r.ctx 31 4 else s

/-- The load still serves the task for which it was requested. -/
def State.loadStands (s : State) (r : PortReq) : Bool := (s.ctx r.core r.ctx).task == r.task && (s.ctx r.core r.ctx).st == .running

/-- TILE_LOAD_COMPLETE: the load ends, stream bytes are released, and the core computes when it has what it needs (R262, R266). -/
def execTileLoadComplete (die stand : Nat) (s : State) : Out :=
  needPart (s.hasDie die && decide (stand < 16)) "stand" <|
    let n := standNo die stand
    let st := s.stand n
    match st.granted with
    | some r =>
      when s.working s <|
        let c := s.ctx r.core r.ctx
        let s := s.setStand n { st with granted := none }
        if !(s.loadStands r) then s
        else (((s.loadOperand r).consume die r.task (c.askRanges r.isA r.next (r.core % 8))).askLoads r.core r.ctx).compute r.core
    | none => .next s

/-- At the start of a task, or at the boundary between two groups of live tiles with the drain complete (R270, R271). -/
def Ctx.atBoundary (c : Ctx) : Bool :=
  c.st == .loaded || (c.st == .running && c.groups == [] && (c.idx.drop (kPos c.desc)).all (· == 0) && decide (c.desc ≠ []))

/-- The earliest other context in plan order whose next loads are present (R270, R271). -/
def State.readyCtx (s : State) (core cur : Nat) : Option Nat :=
  let die := core / 128
  let ok (e : Nat × Ctx) : Bool :=
    e.1 != cur && (e.2.st == .loaded || e.2.st == .suspended) && !(s.loadsWait die (core % 8) (e.2.opened (s.die die).stage))
  ((s.core core).ctxs.filter ok).foldl (fun (a : Option (Nat × Nat)) e =>
    match a with
    | some b => if e.2.rank < b.2 then some (e.1, e.2.rank) else a
    | none => some (e.1, e.2.rank)) none |>.map Prod.fst

/-- The outgoing context: what it had loaded is lost, since the operand buffer belongs to the running context (R272). That its neighbour has copied its rows
stays so (R207). -/
def Ctx.suspend (c : Ctx) : Ctx :=
  { c with st := if c.st = .running then .suspended else c.st, haveA := false, haveB := false, nextA := false, nextB := false,
           halfA := false, halfB := false, half := 0 }

/-- CONTEXT_SWITCH (R270 to R273). The 32 cycles are left out. A halo context that holds rows of its neighbour does not leave: it would lose rows that the
neighbour may no longer have, and R207 copies them once (DEDUCED, log 60). -/
def execContextSwitch (die core : Nat) (s : State) : Out :=
  s.onCore die core <|
    let k := coreNo die core
    match s.runningCtx k, s.readyCtx k ((s.core k).running.getD 4) with
    | some (n, c), some m =>
      when (s.working && c.atBoundary && !c.haloGot && s.loadsWait die (core % 8) (c.opened (s.die die).stage) &&
          !((s.stand (k / 8)).granted.any fun r => r.core == k)) s <|
        let s := (s.dropAsks k).setCtx k n c.suspend
        let s := (s.ctxOnly k n 10).ctxOnly k m 9
        (s.setCore k { s.core k with running := some m, acc := [] }).resume k m
    | _, _ => .next s

/-- Bytes `n` at offset `b` of one buffer written at offset `a` of another. -/
def copyBytes (dst : Mem) (a : Nat) (src : Mem) (b n : Nat) : Mem := Mem.write dst a (Mem.bytes src b n)

/-- HALO_COPY: the outside rows come from the neighbour's buffer once it has loaded its tile (R207). Loads that the two cores then ask for at once
queue by core position (R265). -/
def execHaloCopy (die core : Nat) (s : State) : Out :=
  s.onCore die core <|
    let k := coreNo die core
    match s.runningCtx k with
    | none => .next s
    | some (n, c) =>
      let h := dHalo c.desc
      let nb := if 0 < h then k + 1 else k - 1
      let inner := (decide (0 < h) && decide (core % 8 < 7)) || (decide (h < 0) && decide (0 < core % 8))
      match s.runningCtx nb with
      | none => .next s
      | some (m, x) =>
        when (s.working && inner && c.st == .running && c.haveA && !c.haloGot && x.st == .running && x.haveA && x.task == c.task &&
            x.idx == c.idx && x.prob == c.prob && !c.ended && !x.ended) s <|
          let d := c.desc
          let w := elemBytes (dFmtA d) (dKT d)
          let e := if blkLen (dBlkA d) = 0 then 0 else dKT d / blkLen (dBlkA d)
          let rows := aRows d
          let a := h.natAbs
          -- h > 0: the neighbour's rows 0 to h - 1 follow ours; h < 0: its last rows, after its own outside rows, precede ours
          let dst := if 0 < h then dMT d else 0
          let src := if 0 < h then 0 else dMT d
          let own := s.core k
          let oth := s.core nb
          let at' := c.tileAt true
          let from' := x.tileAt true
          let b := copyBytes own.buf (at' + dst * w) oth.buf (from' + src * w) (a * w)
          let b := copyBytes b (at' + rows * w + dst * e) oth.buf (from' + rows * w + src * e) (a * e)
          let s := s.setCore k { own with buf := b }
          let s := ((s.setCtx k n { c with haloGot := true }).setCtx nb m { x with haloGave := true }).coreCount k 23 a
          (s.compute (min k nb)).compute (max k nb)

/-- TILE_DRAIN: an output tile of the oldest finished group is scaled, and chained and stored, or left in FP32 staging for the separate pass (R201 to
R203). -/
def execTileDrain (die core : Nat) (s : State) : Out :=
  s.onCore die core <|
    let k := coreNo die core
    match s.runningCtx k with
    | none => .next s
    | some (n, c) =>
      when (s.working && c.st == .running && c.groups != [] && !c.staged) s <|
        let v := s.scaledTile k c
        let s := s.raiseAll k c.req v.2
        if c.fused || dChainLen c.desc == 0 then
          let s := if c.fused then s.coreCount k 21 else s
          (s.storeTile k n (dChain c.desc) v.1).afterTile k n
        else
          let x := s.core k
          (s.setCore k { x with buf := Mem.write x.buf (stagingBase c.desc) (v.1.flatMap fun y => leBytes 4 y) }).setCtx k n { c with staged := true }

/-- SEPARATE_CHAIN_PASS: the vector unit runs the chain and the store over the staged tile (R203, R204). -/
def execSeparateChainPass (die core : Nat) (s : State) : Out :=
  s.onCore die core <|
    let k := coreNo die core
    match s.runningCtx k with
    | none => .next s
    | some (n, c) =>
      when (s.working && c.st == .running && c.groups != [] && c.staged) s <|
        let vals := leWords 4 (Mem.bytes (s.core k).buf (stagingBase c.desc) (4 * (dMT c.desc * dNT c.desc)))
        ((s.storeTile k n (dChain c.desc) vals).coreCount k 22).afterTile k n

/-- COMPLETION_MESSAGE: a task of another module has stored its last byte (R254). -/
def execCompletionMessage (task : Nat) (s : State) : Out :=
  when s.working s { s with fore := { s.fore with cleared := s.fore.cleared ++ [task] } }

end Sys2Proof.Machine
end

