-- ==== Sys2Proof/Machine/Passes.lean ====
section
/-! DEFINITION. Vector passes and attention on a core: normalisation, soft maximum, rotation, block folds, token choice, sketches, page ranking
and ring folds (R224 to R246, R330, R338 to R378, R616, R617). -/

namespace Sys2Proof.Machine

/-! ### Precedence (R33, R45) -/

/-- Tick messages wait to go out: they pass ahead of every grant, at each point (R45, R261). -/
def State.controlWaits (s : State) : Bool := s.ports.any fun p => p.2.txq.any fun f => fhType f.hdr == 5

/-- What passes ahead of data at a point: of stream grants and of the compute dies' writes: tick messages (R45, R261), and page copies at a stack (R33). -/
def State.held (s : State) : ArbPoint → Bool
  | .stack n => s.controlWaits || s.hbm.copies.any fun c => c.2 / 2 ^ 22 == n
  | .hubPort _ | .channel _ => s.controlWaits

/-! ### Tasks of the vector unit -/

/-- The vector task `task` runs on the core, and its current bank holds the functions it needs (R226, R230). -/
def State.vecCtx (s : State) (core task : Nat) (fns : List Nat) : Option (Nat × Ctx) :=
  match s.runningCtx core with
  | some (n, c) => if c.task = task ∧ c.desc = [] ∧ c.st = .running ∧ (s.core core).hasFns fns then some (n, c) else none
  | none => none

/-- `n` FP32 encodings in a die's stage memory; an encoded −0 reads as +0 (R146). -/
def State.stageWords (s : State) (die addr n : Nat) : List Nat :=
  (leWords 4 (Mem.bytes (s.die die).stage addr (4 * n))).map Fp.fp32.stored

/-- A value times a tensor's scale, in FP32 (R124, R352; log 19). -/
def scaled32 (ieee : Bool) (x : Num) (scale : Nat) : Rd := rnd .fp32 ieee (x.mul (v32 scale))

/-- Write bytes to a die's stage memory. -/
def State.stageWrite (s : State) (die addr : Nat) (bs : List Byte) : State :=
  let d := s.die die
  s.setDie die { d with stage := Mem.write d.stage addr bs }

/-- FP32 results as stored bytes (R146). -/
def f32Bytes (vs : List Nat) : List Byte := vs.flatMap fun v => leBytes 4 (Fp.fp32.stored v)

/-- The drain state of a core. -/
def State.drainOf (s : State) (core : Nat) : Drain := { gens := (s.core core).gens, stage := [] }

/-- Put back a core's generators, with the draws counted and the flags raised for a request. -/
def State.endDrain (s : State) (core : Nat) (rid : Option Nat) (g : Drain) : State :=
  ((s.setCore core { s.core core with gens := g.gens }).raiseAll core rid g.fls).coreCount core 20 g.draws

/-- The flags of a vector pass, for the request of its task. -/
def State.flagVec (s : State) (core : Nat) (rid : Option Nat) (f : Flags) : State := if f.bits = 0 then s else s.raiseAll core rid [f]

/-- Stage memory below the function store, which the Forester gives to tasks and streams (R223, R247). -/
def workBytes : Nat := 255 * 2 ^ 20

/-- A task may write the range: it lies below the function store and holds no resident weight bytes, which are read-only (R223, R252). -/
def State.mayWrite (s : State) (die : Nat) (r : Nat × Nat) : Bool :=
  decide (r.1 + r.2 ≤ workBytes) && !((s.die die).resident.any (meets r))

/-- Element bytes of a row in a format, as a range. -/
def rowRange (addr n fmt : Nat) : Nat × Nat := (addr, elemBytes fmt n)

/-- A stored row as FP32 values: each element times the tensor's scale, rounded once (R124, R132; log 19). -/
def State.rowAt (s : State) (die addr n fmt : Nat) (scale : W32) : List Nat × Flags :=
  let ys := (storedValues fmt 0 (Mem.bytes (s.die die).stage addr (elemBytes fmt n)) []).map fun x => scaled32 s.ovf x scale.toNat
  (ys.map Prod.fst, ys.foldl (fun f y => f.or y.2) {})

/-- Convert and store a row of a vector pass, element j in lane j mod 64, or mod 32 under compatibility (R126, R212, R234, R239, R243). -/
def State.storeRow (s : State) (core n : Nat) (c : Ctx) (job : RowJob) (r : List Nat × Flags) : State :=
  let rcp := div32 s.ovf one32 job.sOut.toNat
  let v := s.convertRun core job.fmt false (s.rnd == 2) rcp.1 (· % laneCount s.sys.compat) r.1 (s.drainOf core)
  let s := (s.flagVec core c.req (rcp.2.or r.2)).endDrain core c.req v.2.2
  (s.stageWrite (core / 128) job.dst (packCodes job.fmt v.1)).finishCtx core n

/-- What every row pass needs: scales that are positive, finite and normal (R124), source bytes present and not behind a blaze (R230, R253, R267), and a
destination that it may write. -/
def State.rowOk (s : State) (die : Nat) (c : Ctx) (job : RowJob) (reads : List (Nat × Nat)) : Bool :=
  normalPos32 job.sOut.toNat && normalPos32 job.sIn.toNat && !(s.rangesWait die c reads) && s.mayWrite die (rowRange job.dst job.len job.fmt)

/-- Ranges that a normalisation reads: the row, the gains, and in Layer mode the biases, in the format of stream 7 (R234, R640). -/
def State.normReads (s : State) (job : RowJob) : List (Nat × Nat) :=
  let f := (s.streamFmt 7).1
  [rowRange job.src job.len job.srcFmt, rowRange job.gain job.len f] ++ (if s.normKind = 0 then [] else [rowRange job.bias job.len f])

/-- NORMALISATION: row statistics and normalised outputs, RMS or Layer as the model says (R232 to R236). It ends its task. -/
def execNormalisation (die core : Nat) (job : RowJob) (s : State) : Out :=
  s.onCore die core <|
    let k := coreNo die core
    match s.vecCtx k job.task [4] with
    | none => .next s
    | some (n, c) =>
      when (s.working && decide (1 ≤ job.len ∧ job.len ≤ 32768) && normalPos32 job.sGain.toNat && (s.normKind == 0 || normalPos32 job.sBias.toNat) &&
          s.rowOk die c job (s.normReads job)) s <|
        let f := (s.streamFmt 7).1
        let xs := s.rowAt die job.src job.len job.srcFmt job.sIn
        let gs := s.rowAt die job.gain job.len f job.sGain
        let bs := if s.normKind = 0 then ([], {}) else s.rowAt die job.bias job.len f job.sBias
        let r := if s.normKind = 0 then rmsNorm (s.envOf k) s.normEps xs.1 gs.1 else layerNorm (s.envOf k) s.normEps xs.1 gs.1 bs.1
        (s.consume die job.task (s.normReads job)).storeRow k n c job (r.1, (((if rowNan xs.1 then {} else xs.2).or gs.2).or bs.2).or r.2)

/-- The working space of a soft maximum lies in what the Forester gave its task: 4 bytes per element (R238). -/
def Ctx.hasSpace (c : Ctx) (addr bytes : Nat) : Bool := c.space.any fun r => decide (r.1 ≤ addr ∧ addr + bytes ≤ r.1 + r.2)

/-- SOFT_MAXIMUM: the standalone soft maximum of a stored row, its exponentials in the working space (R238 to R240). It ends its task. -/
def execSoftMaximum (die core : Nat) (job : RowJob) (s : State) : Out :=
  s.onCore die core <|
    let k := coreNo die core
    match s.vecCtx k job.task [1] with
    | none => .next s
    | some (n, c) =>
      let reads := [rowRange job.src job.len job.srcFmt]
      when (s.working && decide (1 ≤ job.len ∧ job.len ≤ 1048576) && c.hasSpace job.work (4 * job.len) && s.rowOk die c job reads) s <|
        let xs := s.rowAt die job.src job.len job.srcFmt job.sIn
        let r := softmax (s.envOf k) xs.1
        ((s.consume die job.task reads).stageWrite die job.work (f32Bytes (softWork (s.envOf k) xs.1))).storeRow k n c job
          (r.1, (if rowNan xs.1 then {} else xs.2).or r.2)

/-- ROTARY_ROTATION: rows of FP32 elements turn by their positions' angles, in place (R342, R343). It ends its task; bytes of a stream among
them count as read (R262). -/
def execRotaryRotation (die core : Nat) (task addr rows : Nat) (positions : List Nat) (s : State) : Out :=
  s.onCore die core <|
    let k := coreNo die core
    match s.vecCtx k task [7, 8] with
    | none => .next s
    | some (n, c) =>
      let all := (addr, 4 * s.headDim * rows)
      when (s.working && decide (positions.length = rows) && !(s.rangesWait die c [all]) && s.mayWrite die all) s <|
        let d := s.headDim
        ((List.range rows).foldl (fun s i =>
          let a := addr + 4 * d * i
          let r := rotateRow (s.envOf k) s.img.freqs (positions[i]?.getD 0) (s.stageWords die a d)
          (s.stageWrite die a (f32Bytes r.1)).flagVec k c.req r.2) (s.consume die task [all])).finishCtx k n

/-! ### Runs, selections and rings (R340, R359 to R378) -/

/-- Runs of a sequence that this member holds. -/
def State.runsHere (s : State) (h : W32) : List Nat :=
  ((s.seq h).map fun q => (q.root.map fun e => s.runOf e.1).eraseDups).getD []

/-- Pages of a sequence for a layer and head that have a frame, in ascending order. -/
def State.pagesOf (s : State) (q : Seq) (layer head : Nat) : List (Nat × W64) :=
  q.root.filter fun e => decide (s.layerOf e.1 = layer ∧ s.headOf e.1 = head) && decide (leafTier e.2 < 2)

/-- The run lies in the sinks or in the window, which ends with the tail's run: that of the last token of the log, whose position the tick may append (R359,
R365). -/
def State.inSinkOrWindow (s : State) (q : Seq) (run : Nat) : Bool :=
  let tail := if s.pagePositions = 0 then 0 else (max q.kvStaged q.log.length - 1) / s.pagePositions
  decide (run < s.retSink) || (decide (run ≤ tail) && decide (tail < run + s.retWin))

/-- Candidates for ranking (R365). -/
def State.candidates (s : State) (q : Seq) (layer head : Nat) : List (Nat × W64) :=
  (s.pagesOf q layer head).filter fun e => leafSketchValid e.2 && !(s.inSinkOrWindow q (s.runOf e.1))

/-- Pages of a sequence's tails for a layer and head that no committed entry names: in Landing slots, and in frames begun in this tick (R331, R365). -/
def State.openTails (s : State) (q : Seq) (layer head : Nat) : List Nat :=
  let slots := (s.land.slots.filter fun e => e.2.state == .tail && e.2.seq == q.handle && e.2.layer == layer && e.2.kvHead == head).map fun e =>
    s.pageOf e.2.firstPos layer head
  let frames := ((q.leaves (q.rootNow s.tick.num)).filter fun e => decide (s.layerOf e.1 = layer ∧ s.headOf e.1 = head ∧ leafTier e.2 = 0) &&
    decide (2 ≤ leafTier (q.entry e.1))).map Prod.fst
  slots ++ frames

/-- Retrieval applies to the request: SKETCH is in force, and it decodes; prefill attends densely (R361). -/
def State.retrieves (s : State) (r : Req) : Bool := s.retMode && r.opcode == 3

/-- Pages that every selection includes: sinks, the window, pages without a valid sketch and tails; without retrieval all of them (R331, R359, R361, R365). -/
def State.alwaysPages (s : State) (retrieves : Bool) (q : Seq) (layer head : Nat) : List Nat :=
  let ps := ((s.pagesOf q layer head).filter fun e =>
    !retrieves || s.inSinkOrWindow q (s.runOf e.1) || !(leafSketchValid e.2)).map Prod.fst
  ps ++ (s.openTails q layer head).filter fun v => !(ps.contains v)

/-- The ring placement of a round: base coordinate and dimension of its subcube, from the newest delta in force that gives one (R561, R562). -/
def State.ringOf (s : State) (round : Nat) : Option (Nat × Nat) :=
  ((s.fore.deltas.filter fun d => d.committed && decide (d.firstPlan ≤ s.tick.num)).flatMap (·.entries)).reverse.findSome? fun e =>
    match e with
    | .ring r b k => if r = round then some (b, k) else none
    | _ => none

/-- The directed rings of a subcube none of whose links is excluded as the links stand (R371, R377). -/
def State.ringsNow (s : State) (k : Nat) : List Nat :=
  (List.range (ringCount k)).filter fun r =>
    let o := ringOrder s.img.crossed k r s.crew.coord
    (o.zip (o.drop 1 ++ o.take 1)).all fun p => s.linked p.1 p.2

/-- The directed rings laid for a subcube: those that the plan of the tick in flight found whole, so that a replay keeps its layout (R104, R377). -/
def State.ringsLaid (s : State) (k : Nat) : List Nat := (s.fore.laid[k]?).getD (s.ringsNow k)

/-- The rings that serve a round; when none remains, the steps travel by routed paths between the neighbours of ring 0 (R377). -/
def State.ringsUsed (s : State) (k : Nat) : List Nat := if s.ringsLaid k = [] then [0] else s.ringsLaid k

/-- What a delta names a request by: the member, queue and CID of its command, alike on every member (R562, R624). -/
def Req.key (r : Req) : Nat := r.coord * 2 ^ 29 + r.qid * 2 ^ 16 + r.cid.toNat

/-- The outstanding request that a delta names. -/
def State.reqOfKey (s : State) (k : Nat) : Option Req := s.reqs.find? fun r => r.key == k && r.live

/-- The first run and the runs of a prefill round, from the committed length of its sequence to the length at which the APPEND is complete; its last run may
be partial (R370). A round is numbered by the request whose positions it prefills (log 13). -/
def State.roundRuns (s : State) (round : Nat) : Nat × Nat :=
  match s.reqOfKey round with
  | none => (0, 0)
  | some r =>
    let p := max 1 s.pagePositions
    let first := (((s.seq r.handle).map (·.kvLen)).getD 0) / p
    (first, ceilDiv r.needed p - first)

/-- The runs of a round that the member at ring position `i` of `n` holds: chunks i and 2n − 1 − i of its 2n chunks (R370). -/
def zigzag (first runs n i : Nat) : List Nat :=
  let part (j : Nat) : List Nat := let r := pieceRange runs (2 * n) j; (List.range r.2).map (first + r.1 + ·)
  part i ++ part (2 * n - 1 - i)

/-- Of a block's runs in ascending position, those that travel on ring `ring` of the rings used: run u on ring u mod n_r (R372). -/
def onRing (used : List Nat) (ring : Nat) (block : List Nat) : List Nat :=
  (((List.range block.length).zip block).filter fun x => used[x.1 % used.length]? == some ring).map Prod.snd

/-- This member's own block of a round: its committed runs of the sequence and its part of the round, in ascending position (R370, R375). -/
def State.ownBlock (s : State) (round k : Nat) : List Nat :=
  let x := s.roundRuns round
  let mine := zigzag x.1 x.2 (2 ^ k) (ringPosition k s.crew.coord)
  let held := ((s.reqOfKey round).map fun r => s.runsHere r.handle).getD []
  (List.range (x.1 + x.2)).filter fun u => held.contains u || mine.contains u

/-! ### Attention (R345 to R353) -/

/-- The query block in the key stream's format (R346): codes and block exponents of each query row, s_Q, and the drain state. FP32 queries stay as they are.
Zero rows pad the block to a multiple of 16; their flags are dropped, their draws are not (R199, R339). -/
def State.queryRows (s : State) (core : Nat) (rows : List (List Nat)) (g : Drain) : List (List Nat × List Nat) × Nat × Drain :=
  let fb := s.streamFmt 2
  let f := (fmtOf fb.1).getD .fp32
  let n := blkLen fb.2
  if fb.1 = 0 then (rows.map fun r => (r, []), one32, g)
  else
    let e : Int := if n ≠ 0 ∨ fb.1 = 1 ∨ fb.1 = 2 then 127 else blockExp f (rows.flatten.map v32)
    let pad := (16 - rows.length % 16) % 16
    let conv (r : List Nat) (g : Drain) : (List Nat × List Nat) × Drain :=
      if n = 0 then
        let c := s.convertNums core fb.1 false (s.rnd == 2) (colLane 0) (r.map fun x => (v32 x).scale (127 - e)) g
        ((c.1, []), c.2.2)
      else
        (List.range (r.length / n)).foldl (fun (a : (List Nat × List Nat) × Drain) b =>
          let c := s.convertNums core fb.1 true (s.rnd == 2) (colLane (b * n)) (((r.drop (b * n)).take n).map v32) a.2
          ((a.1.1 ++ c.1, a.1.2 ++ [c.2.1]), c.2.2)) (([], []), g)
    let r := rows.foldl (fun (a : List (List Nat × List Nat) × Drain) row => let c := conv row a.2; (a.1 ++ [c.1], c.2)) ([], g)
    let z := (List.range pad).foldl (fun (g : Drain) _ => (conv (List.replicate s.headDim 0) g).2) r.2
    (r.1, pow2_32 (e - 127), { z with fls := r.2.fls })

/-- The values of a converted query row (R127, R346). -/
def State.queryVals (s : State) (x : List Nat × List Nat) : List Num :=
  let fb := s.streamFmt 2
  let f := (fmtOf fb.1).getD .fp32
  let n := blkLen fb.2
  if n = 0 then x.1.map f.read
  else ((List.range x.1.length).zip x.1).map fun y => blockValue f y.2 (x.2[y.1 / n]?.getD 0)

/-- The query block of an address that the task has converted already: it converts once (R346). -/
def Ctx.converted (c : Ctx) (addr rows : Nat) : Option (Nat × List (List Nat × List Nat)) :=
  (c.queries.find? fun x => x.1 == addr && x.2.2.length == rows).map Prod.snd

/-- Values of `n` elements at a stage address under block exponents at another (R117, R127, R282). -/
def State.streamRow (s : State) (die stream addr n expAddr : Nat) : List Num :=
  let fb := s.streamFmt stream
  storedValues fb.1 fb.2 (Mem.bytes (s.die die).stage addr (elemBytes fb.1 n))
    (Mem.bytes (s.die die).stage expAddr (if blkLen fb.2 = 0 then 0 else n / blkLen fb.2))

/-- Rows as the matrix unit takes them: FP32 as F19 on the fast path (R120, R346), with the flags of those conversions. -/
def State.matrixRows (s : State) (fmt : Nat) (rows : List (List Num)) : List (List Num) × Flags :=
  if fmt = 0 then
    let rs := rows.map (toOperand s.num s.f19Rnd s.ovf)
    (rs.map Prod.fst, (rs.flatMap Prod.snd).foldl Flags.or {})
  else (rows, {})

/-- Rows times a scale in FP32, with the flags. -/
def State.scaledRows (s : State) (rows : List (List Num)) (scale : Nat) : List (List Nat) × Flags :=
  let rs := rows.map fun r => r.map fun x => scaled32 s.ovf x scale
  (rs.map fun r => r.map Prod.fst, rs.foldl (fun f r => r.foldl (fun f y => f.or y.2) f) {})

/-- K_T of the attention products: that of the first descriptor for the operation, 5 for scores and 6 for values (R153, R643). Which of several alternatives serves
is not stated; without a descriptor the row is one tile (DESIGN CHOICE, log 60). -/
def State.attTile (s : State) (operation : Nat) : Nat :=
  ((s.img.loops.find? fun x => x.operation == operation).bind fun x => x.descs.head?.map dKT).getD 0

/-- The scores of one row against a page: every column is scored, padding and masked ones too, and a masked score then becomes −∞ (R345, R347). -/
def State.pageScores (s : State) (q : List Num) (sQ sK : Nat) (keys : List (List Num)) (first count p : Nat) : List Rd :=
  ((List.range keys.length).zip keys).map fun e =>
    let a := dotRows s.num s.ovf (s.attTile 5) q e.2
    let r := score s.ovf a.1 sQ sK s.attScale
    (if e.1 < count ∧ first + e.1 ≤ p then r.1 else negInf32, a.2.or r.2)

/-- The scores of one row against a vector block: one FMA per element of the scaled rows (R352; log 19). The vector unit takes FP32 as it is,
whatever NUM says (R155, R159). -/
def State.vectorScores (s : State) (q : List Nat) (keys : List (List Nat)) (positions : List Nat) (p : Nat) : List Rd :=
  (positions.zip keys).map fun e =>
    let a := fmaDot s.ovf (q.map v32) (e.2.map v32)
    let r := mul32 s.ovf a.1 s.attScale
    (if e.1 ≤ p then r.1 else negInf32, a.2.or r.2)

/-- The row's partial record at a stage address (R354). -/
def State.partialAt (s : State) (die addr : Nat) : Partial :=
  partialOf ((s.stageWords die addr (8 + s.headDim)).map (BitVec.ofNat 32))

/-- The empty record of a row: its FIRST_POS is that of the lowest run held, under which the merge ranks it (R354, R531). -/
def State.emptyPartial (s : State) (job : FoldJob) (r : Nat) : Partial :=
  { firstPos := (s.runsHere job.seq).min?.getD 0 * s.pagePositions, keys := 0, seq := job.seq.toNat, layer := job.layer, qhead := job.head * s.group + r % s.group,
    qpos := r / s.group, masked := false, empty := true, l := 0, m := negInf32, o := List.replicate s.headDim 0 }

/-- A block as the folds of all its query rows see it. -/
inductive BlockData where
  | hole (v : Nat)
  | page (first count : Nat) (keys vals : List (List Num))
  | vector (positions : List Nat) (keys vals : List (List Nat))

/-- Ranges of stage memory that hold the block. -/
def State.blockRanges (s : State) (b : FoldBlock) : List (Nat × Nat) :=
  let d := s.headDim
  let pp := s.pagePositions
  let kf := s.streamFmt 2
  let vf := s.streamFmt 3
  let exps (blk addr n : Nat) : List (Nat × Nat) := if blkLen blk = 0 then [] else [(addr, n)]
  match b with
  | .hole _ => []
  | .page _ _ keys vals keyExp valExp =>
    [(keys, pp * elemBytes kf.1 d), (vals, d * elemBytes vf.1 pp)] ++ exps kf.2 keyExp (pp * (d / 32)) ++ exps vf.2 valExp (d * (pp / 32))
  | .vector positions keys keyExp vals staged =>
    let n := positions.length
    [(keys, n * elemBytes kf.1 d), (vals, if staged then 4 * d * n else n * elemBytes vf.1 d)] ++ exps kf.2 keyExp (n * (d / 32))

/-- The block's operands, converted once for all query rows, with the flags (R120, R352). -/
def State.blockData (s : State) (die : Nat) (job : FoldJob) : BlockData × Flags :=
  let d := s.headDim
  let kf := s.streamFmt 2
  let vf := s.streamFmt 3
  match job.block with
  | .hole v => (.hole v, {})
  | .page first count keys vals keyExp valExp =>
    let pp := s.pagePositions
    let ks := s.matrixRows kf.1 ((List.range pp).map fun i => s.streamRow die 2 (keys + i * elemBytes kf.1 d) d (keyExp + i * (d / 32)))
    let vs := s.matrixRows vf.1 ((List.range d).map fun j => s.streamRow die 3 (vals + j * elemBytes vf.1 pp) pp (valExp + j * (pp / 32)))
    (.page first count ks.1 vs.1, ks.2.or vs.2)
  | .vector positions keys keyExp vals staged =>
    let n := positions.length
    let ks := s.scaledRows ((List.range n).map fun i => s.streamRow die 2 (keys + i * elemBytes kf.1 d) d (keyExp + i * (d / 32))) job.sK.toNat
    let vs := if staged then ((List.range n).map fun i => s.stageWords die (vals + 4 * d * i) d, {})
      else s.scaledRows ((List.range n).map fun i => s.streamRow die 3 (vals + i * elemBytes vf.1 d) d 0) job.sV.toNat
    (.vector positions ks.1 vs.1, ks.2.or vs.2)

/-- Fold one block into one row's record (R350 to R352): the record and the flags. A block whose maximum leaves m at −∞ is skipped; KEYS counts its
visible positions (R347, R354). -/
def State.foldRow (s : State) (core : Nat) (job : FoldJob) (b : BlockData) (q : List Num) (sQ r : Nat) (x : Partial) : Partial × Flags :=
  let p := job.qpos[r / s.group]?.getD 0
  let kf := s.streamFmt 2
  let vf := s.streamFmt 3
  let v := s.envOf core
  let take (first seen : Nat) (scores : List Rd) (f : RowState × Flags) : Partial × Flags :=
    let fl := scores.foldl (fun a b => a.or b.2) f.2
    if max32 x.m (rowMax (scores.map Prod.fst)) = negInf32 then (x, fl)
    else ({ x with m := f.1.m, l := f.1.l, o := f.1.o, empty := false, keys := x.keys + seen,
                   firstPos := if x.empty then first else min x.firstPos first }, fl)
  match b with
  | .hole v => (if ((s.seq job.seq).map fun q => q.masked.contains v || q.lostPages.contains v).getD false then { x with masked := true } else x, {})
  | .page first count keys vals =>
    let qm := s.matrixRows kf.1 [q]
    let sc := s.pageScores (qm.1.headD []) sQ job.sK.toNat keys first count p
    let y := take first (min (min count keys.length) (p + 1 - first)) sc (foldPage v s.num s.f19Rnd (s.attTile 6) ((fmtOf vf.1).getD .fp32) job.sV.toNat ⟨x.m, x.l, x.o⟩ (sc.map Prod.fst) vals)
    (y.1, qm.2.or y.2)
  | .vector positions keys vals =>
    let qs := s.scaledRows [q] sQ
    let sc := s.vectorScores (qs.1.headD []) keys positions p
    let y := take (positions.head?.getD 0) (positions.filter fun i => decide (i ≤ p)).length sc (foldVector v ⟨x.m, x.l, x.o⟩ (sc.map Prod.fst) vals)
    (y.1, qs.2.or y.2)

/-- Positions of a page that stand in it now, of those that are the sequence's: what its slot, its own frame or the plan's copy of it holds, or the part of a shared
page that lies below the sequence's length (R298, R303, R325). -/
def State.pageFilled (s : State) (q : Seq) (v : Nat) : Nat :=
  let first := s.runOf v * s.pagePositions
  let mine (n : Nat) : Nat := min n (max q.kvLen q.kvStaged - first)
  match s.tailSlot q.handle (s.layerOf v) (s.headOf v) first with
  | some n => (s.slot n).fill
  | none =>
    let e := q.entryNow s.tick.num v
    let f := leafFrame e
    if leafTier e = 0 then
      (if (s.hbmEnt f).staged || (decide ((s.hbmEnt f).refcount ≤ 1) && decide (leafRef (q.entry v) = leafRef e)) then sbFill (s.hbmSide f)
       else mine (sbFill (s.hbmSide f)))
    else if leafTier e = 1 then mine (sbFill (s.flashSide f))
    else 0

/-- Positions of a page whose values are whole: those of an incomplete value group stand in FP32 staging (R310, R349). -/
def State.wholeValues (s : State) (fill : Nat) : Nat :=
  if blkLen (s.streamFmt 3).2 = 0 ∨ s.pagePositions ≤ fill then fill else fill / 32 * 32

/-- The positions whose values sit in FP32 staging in the tail of a layer and head (R310, R349). -/
def State.isStagedBlock (s : State) (q : Seq) (layer head : Nat) (positions : List Nat) : Bool :=
  let first := positions.headD 0 / max 1 s.pagePositions * s.pagePositions
  let fill := s.pageFilled q (s.pageOf first layer head)
  positions == (List.range (fill - s.wholeValues fill)).map (first + s.wholeValues fill + ·)

/-- Class and place of a block in the order of R349: page blocks in ascending position, in a prefill on rings in the order in which the runs have come (R372); then
positions in FP32 staging, then speculative ones. -/
def State.foldPlace (s : State) (c : Ctx) (job : FoldJob) : Nat × Nat :=
  match job.block with
  | .page first _ _ _ _ _ =>
    match (c.req.bind s.req).filter fun r => (s.ringOf r.key).isSome with
    | some r => (0, indexIn (Sparse.get [] s.fore.ringRuns r.key) (first / max 1 s.pagePositions))
    | none => (0, first)
  | .hole _ => (0, 0)
  | .vector positions _ _ _ _ =>
    (if (s.seq job.seq).any fun q => s.isStagedBlock q job.layer job.head positions then 1 else 2, positions.headD 0)

/-- The block comes in its order after those that its records have folded, and a vector block's positions ascend (R349, R352, R372). -/
def State.foldInOrder (s : State) (c : Ctx) (job : FoldJob) : Bool :=
  let at' := s.foldPlace c job
  let after (x : Nat × Nat × Nat) : Bool :=
    x.1 != job.state || job.fresh || decide (x.2.1 < at'.1) || (x.2.1 == at'.1 && at'.1 == 0 && decide (x.2.2 < at'.2))
  match job.block with
  | .hole _ => true
  | .page _ _ _ _ _ _ => c.folds.all after
  | .vector positions _ _ _ _ => decide (positions.Pairwise (· < ·)) && c.folds.all after

/-- The page lies in the selection of a decode: under retrieval, the pages that its ranking chose, all of them where the candidates do not exceed RET_TOP,
and the tail (R361, R365). -/
def State.selected (s : State) (rid : Nat) (q : Seq) (layer head v : Nat) : Bool :=
  !s.retMode || s.inSinkOrWindow q (s.runOf v) || (s.openTails q layer head).contains v ||
    match ((List.range s.nDies).flatMap fun d => (s.die d).ranked).find? fun x => x.1 == rid && x.2.1 == layer && x.2.2.1 == head with
    | some x => x.2.2.2.contains v
    | none => decide ((s.candidates q layer head).length ≤ s.retTop)

/-- A query block folds pages that its member holds, for a decode those selected; a prefill also folds its own runs and the runs that visit (R340, R347). -/
def State.foldsPage (s : State) (r : Req) (q : Seq) (layer head v : Nat) : Bool :=
  let run := s.runOf v
  let held := decide (leafTier (q.entryNow s.tick.num v) < 2) || (s.tailSlot q.handle layer head (run * s.pagePositions)).isSome
  if r.opcode == 3 then held && s.selected r.rid q layer head v
  else held || (if (s.ringOf r.key).isSome then (Sparse.get [] s.fore.ringRuns r.key).contains run
    else let x := s.roundRuns r.key; decide (x.1 ≤ run ∧ run < x.1 + x.2))

/-- The positions that a page block covers: of a page held here those that stand in it with whole values, of a visiting run those of the round (R347, R349, R370). -/
def State.blockCount (s : State) (r : Req) (q : Seq) (layer head first : Nat) : Nat :=
  let v := s.pageOf first layer head
  if decide (leafTier (q.entryNow s.tick.num v) < 2) || (s.tailSlot q.handle layer head first).isSome then s.wholeValues (s.pageFilled q v)
  else min s.pagePositions (r.needed - first)

/-- The stage bytes of a page held here are those that a walk has placed (R301, R340). -/
def State.blockPlaced (s : State) (die : Nat) (q : Seq) (layer head : Nat) : FoldBlock → Bool
  | .page first _ keys vals keyExp valExp =>
    let v := s.pageOf first layer head
    let held := decide (leafTier (q.entryNow s.tick.num v) < 2) || (s.tailSlot q.handle layer head first).isSome
    let at' (off addr : Nat) : Bool := (s.die die).placed.contains (q.handle, v, off, addr)
    !held || (at' 0 keys && at' 8192 vals && (blkLen (s.streamFmt 2).2 == 0 || at' 16384 keyExp) && (blkLen (s.streamFmt 3).2 == 0 || at' 16640 valExp))
  | _ => true

/-- The positions of a vector block: those whose values sit in FP32 staging, or the request's own speculative positions, which no commit has made the sequence's; the
values of a blocked stream that are not in a page are FP32 (R310, R347, R349, R352). -/
def State.vectorOk (s : State) (r : Req) (q : Seq) (layer head : Nat) (positions : List Nat) (staged : Bool) : Bool :=
  (staged || blkLen (s.streamFmt 3).2 == 0) && positions != [] &&
    ((staged && s.isStagedBlock q layer head positions) ||
      (r.opcode == 3 && positions.all fun p => decide (q.kvLen ≤ p ∧ p < q.log.length + r.e.drafts)))

/-- The block belongs to the task's request, in its order, and a page is one that the request may fold (R338, R340, R347, R349); a hole is a page of the selection
(R368). -/
def State.foldOk (s : State) (die : Nat) (c : Ctx) (job : FoldJob) : Bool :=
  match c.req.bind s.req, s.seq job.seq with
  | some r, some q =>
    r.handle == job.seq && s.foldInOrder c job &&
      match job.block with
      | .page first count _ _ _ _ => first % max 1 s.pagePositions == 0 && s.foldsPage r q job.layer job.head (s.pageOf first job.layer job.head) &&
          count == s.blockCount r q job.layer job.head first && s.blockPlaced die q job.layer job.head job.block
      | .hole v => s.layerOf v == job.layer && s.headOf v == job.head && (r.opcode != 3 || s.selected r.rid q job.layer job.head v)
      | .vector positions _ _ _ staged => s.vectorOk r q job.layer job.head positions staged
  | _, _ => false

/-- The context notes the block folded last into the job's records (R349). -/
def State.noteFold (s : State) (core n : Nat) (job : FoldJob) : State :=
  match job.block with
  | .hole _ => s
  | _ =>
    let c := s.ctx core n
    s.setCtx core n { c with folds := (c.folds.filter fun x => x.1 != job.state) ++ [(job.state, s.foldPlace c job)] }

/-- The query block of a fold: as the task has converted it, or converted now, with its draws and flags (R346). -/
def State.queryBlock (s : State) (die core n : Nat) (c : Ctx) (job : FoldJob) : (Nat × List (List Nat × List Nat)) × State :=
  let d := s.headDim
  let rows := job.qpos.length * s.group
  match c.converted job.q rows with
  | some x => (x, s)
  | none =>
    let r := s.queryRows core ((List.range rows).map fun r => s.stageWords die (job.q + 4 * d * r) d) (s.drainOf core)
    let s := s.endDrain core c.req r.2.2
    let k := s.ctx core n
    ((r.2.1, r.1), s.setCtx core n { k with queries := k.queries ++ [(job.q, r.2.1, r.1)] })

/-- Every row of the block folds, and the records go back to stage memory (R349, R350, R353). -/
def State.foldJob (s : State) (die core n : Nat) (c : Ctx) (job : FoldJob) : State :=
  let d := s.headDim
  let rows := job.qpos.length * s.group
  let qr := s.queryBlock die core n c job
  let b := s.blockData die job
  let s1 := qr.2.flagVec core c.req b.2
  let s2 := (List.range rows).foldl (fun (s : State) r =>
    let at' := job.state + (32 + 4 * d) * r
    let x := if job.fresh then s.emptyPartial job r else s.partialAt die at'
    let f := s.foldRow core job b.1 (s.queryVals (qr.1.2[r]?.getD ([], []))) qr.1.1 r x
    let out := if job.normalise then rowOutput s.ovf ⟨f.1.m, f.1.l, f.1.o⟩ else []
    let rec' := if job.normalise then { f.1 with o := out.map fun (y : Rd) => y.1 } else f.1
    let s := s.stageWrite die at' (rec'.stored.words.flatMap fun w => leBytes 4 w.toNat)
    let s := if rec'.masked then
        match c.req with
        | some rid => s.updReq rid fun q => { q with lossMasked := true }
        | none => s
      else s
    s.flagVec core c.req (out.foldl (fun a y => a.or y.2) f.2)) s1
  if job.last then s2.finishCtx core n else s2.noteFold core n job

/-- The scales of a block that the products take: a bad one faults the issue (R124, R151). -/
def scalesBad (job : FoldJob) : Bool :=
  match job.block with
  | .hole _ => false
  | _ => !(normalPos32 job.sK.toNat && normalPos32 job.sV.toNat)

/-- BLOCK_FOLD: one block folds into every row of the query block (R349 to R353); a scale that is not positive, finite and normal faults its task with SCALE_INVALID
(R151). Query bytes of a stream count as read when they convert (R262, R346). -/
def execBlockFold (die core : Nat) (job : FoldJob) (s : State) : Out :=
  s.onCore die core <|
    let k := coreNo die core
    match s.vecCtx k job.task [1] with
    | none => .next s
    | some (n, c) =>
      let rows := job.qpos.length * s.group
      let reads := (if (c.converted job.q rows).isSome then [] else [(job.q, 4 * s.headDim * rows)]) ++ s.blockRanges job.block
      when (s.working && s.foldOk die c job && !(s.rangesWait die c reads) && s.mayWrite die (job.state, (32 + 4 * s.headDim) * rows)) s <|
        if scalesBad job then s.faultCtx k n 0x106 else (s.foldJob die k n c job).consume die job.task reads

/-! ### Token choice (R616, R617) -/

/-- The tokens of one step: drafts are accepted while each equals the token chosen at its position, then the first that differs or the token
after the last draft (R617). -/
def stepTokens (v : Env) (e : Entry) : List (List W32) → List W32 → Nat → List W32 × Flags
  | [], _, _ => ([], {})
  | l :: ls, drafts, pos =>
    let t := chooseToken v (l.map BitVec.toNat) e.w5 e.topP e.topK e.seed pos
    let tok : W32 := BitVec.ofNat 32 t.1
    match drafts with
    | [] => ([tok], t.2)
    | d :: ds =>
      if tok = d then
        let r := stepTokens v e ls ds (pos + 1)
        (tok :: r.1, t.2.or r.2)
      else ([tok], t.2)

/-- The tokens that the request still takes of a step, and whether it ends there: at a stop token, MAX_TOKENS or L_MAX (R612, R614). -/
def takeTokens (e : Entry) (lMax : Nat) : Nat → Nat → List W32 → List W32 × Option Nat
  | _, _, [] => ([], none)
  | done, len, t :: ts =>
    if some t.toNat = e.stop0 ∨ some t.toNat = e.stop1 then ([t], some 1)
    else if e.w4 ≤ done + 1 then ([t], some 0)
    else if lMax ≤ len + 1 then ([t], some 2)
    else
      let r := takeTokens e lMax (done + 1) (len + 1) ts
      (t :: r.1, r.2)

/-- TOKEN_CHOICE: the logits of the step's positions are ready, the last token of the log and the drafts (R616, R617). The tokens enter the log at
the commit. A request that is held receives none (R407). -/
def execTokenChoice (job : TokenJob) (logits : List (List W32)) (s : State) : Out :=
  s.onCore job.die job.core <|
  match s.req job.rid with
  | some r =>
    match s.seq r.handle with
    | some q =>
      let e := r.e
      let k := coreNo job.die job.core
      let drafts := if e.drafts = 0 then [] else tokensOf r.data
      when (s.working && ((v32 e.w5).isZero || (s.core k).hasFns [1]) && r.opcode == 3 && r.stage == .admitted && r.newTokens == [] && r.dataRead && !q.lost && !s.seqHeld r.handle && r.pieces == 0 &&
          decide (q.log.length ≤ q.kvStaged) && decide (logits.length = drafts.length + 1) &&
          logits.all (fun l => decide (l.length = s.vocab))) s <|
        let t := stepTokens (s.envOf k) e logits drafts q.log.length
        let u := takeTokens e q.lMax r.tokens q.log.length t.1
        let s := s.updSeq r.handle fun q => { q with logStaged := u.1 }
        (s.updReq job.rid fun r => { r with newTokens := u.1, endReason := u.2.getD 3 }).flagVec k (some job.rid) t.2
    | none => .next s
  | none => .next s
where
  /-- Tokens of a byte list. -/
  tokensOf (bs : List Byte) : List W32 := (leWords 4 bs).map (BitVec.ofNat 32)

/-! ### Function tables (R224 to R229) -/

/-- Slot of the function store that a core reads for an ID: the Maelov form under compatibility when the store holds one (R223, R243). -/
def State.storeSlot (s : State) (die id : Nat) : Nat :=
  2 * id + bit (s.sys.compat && (recordAt (s.die die).stage (2 * id + 1)).isSome)

/-- The micro-programs of a set fit one bank and one step store (R226). -/
def State.setFits (s : State) (ids : List Nat) : Bool :=
  decide (ids.dedup.length ≤ 16) &&
    decide ((ids.dedup.foldl (fun a id => a + ((microFor s.img.micro s.sys.compat id).map (·.segs)).getD 0) 0) ≤ 8)

/-- FUNCTION_TABLE_FILL: the idle bank and step store take the next tick's set from the function store when that differs from the current one
(R227, R229). A sleeping core fills nothing, and a set that a bank cannot hold is never filled (R224, R226). -/
def execFunctionTableFill (die core : Nat) (s : State) : Out :=
  s.onCore die core <|
    let k := coreNo die core
    let c := s.core k
    when (s.ticking && !(s.stand (k / 8)).asleep && c.needsFill && !c.filled && s.setFits c.want) s <|
      let b : Bank := { valid := false, gen := 0, progs := c.want.filterMap fun id => recordAt (s.die die).stage (s.storeSlot die id) }
      let c' := if c.curBank then { c with bank0 := b, filled := true } else { c with bank1 := b, filled := true }
      c.want.foldl (fun (t : State) id => t.count die 8 (s.storeSlot die id * 4 + 2)) ((s.setCore k c').coreCount k 26)

/-! ### Sketches (R330, R362, R363) -/

/-- The key sum of a page in HBM (R330): element j times scale and block factor, summed in position order. -/
def State.keySum (s : State) (frame : Nat) (sK : Nat) : List Nat × Flags :=
  let d := s.headDim
  let fb := s.streamFmt 2
  let f := (fmtOf fb.1).getD .fp32
  let n := blkLen fb.2
  let b := s.hbmSide frame
  (List.range (sbFill b)).foldl (fun (acc : List Nat × Flags) i =>
    let cs := codesOf fb.1 (Mem.bytes s.hbm.data (frame * 16384 + i * elemBytes fb.1 d) (elemBytes fb.1 d))
    let ys := ((List.range d).zip acc.1).map fun p =>
      let x := cs[p.1]?.getD 0
      let v := if n = 0 then f.read x else blockValue f x (sbField b (8 * (i * (d / 32) + p.1 / 32)) 8)
      Sys2Proof.Machine.rnd .fp32 s.ovf (v.fma (v32 sK) (v32 p.2))
    (ys.map Prod.fst, ys.foldl (fun f y => f.or y.2) acc.2)) (List.replicate d 0, {})

/-- SKETCH_TASK: the sketch of a page committed in the last tick goes to its sideband and to the sketch table; SKETCH_VALID is staged (R330,
R363). -/
def execSketchTask (die core : Nat) (seq : W32) (v : Nat) (sK : W32) (s : State) : Out :=
  s.onCore die core <|
    match s.seq seq with
    | none => .next s
    | some q =>
      let e := q.entry v
      let f := leafFrame e
      when (s.working && s.fore.sketchQ.contains (seq, v) && leafTier e == 0 && frameDie f == die && normalPos32 sK.toNat && !(s.held (.stack (f / 2 ^ 22)))) s <|
        let sum := s.keySum f sK.toNat
        let sk := sketchOf s.ovf s.img.sketch sum.1
        let k := sk.1
        let s := (s.setHbmSide f (sbPut (s.hbmSide f) 4096 256 k.toNat)).flagVec (coreNo die core) none (sum.2.or sk.2)
        let s := (s.writeSketch seq v k).stageEdit s.tick.num seq v (putFld (q.entryNow s.tick.num v) 58 1 1)
        let s := { s with
          sketches := (s.sketches.filter fun (x : W32 × Nat × BitVec 256) => !(x.1 == seq && x.2.1 == v)) ++ [(seq, v, k)]
          fore := { s.fore with sketchQ := s.fore.sketchQ.erase (seq, v) } }
        s.lotCount die q.lot 15

/-! ### Page ranking (R359 to R368) -/

/-- The sketch recorded of the last committed query position (R362). -/
def State.recordedSketch (s : State) (h : W32) (layer head : Nat) : Option (BitVec 256) :=
  (s.qsketch.find? fun x => x.1 == h && x.2.1 == layer && x.2.2.1 == head).map fun x => x.2.2.2

/-- Differing bits of two sketches (R364). -/
def sketchDist (a b : BitVec 256) : Nat := popcount (a ^^^ b)

/-- Insert a pair (distance, v) in ascending order (R365). -/
def insertPair (x : Nat × Nat) : List (Nat × Nat) → List (Nat × Nat)
  | [] => [x]
  | y :: ys => if x.1 < y.1 ∨ (x.1 = y.1 ∧ x.2 < y.2) then x :: y :: ys else y :: insertPair x ys

/-- Candidates with their distances (R365, R366). -/
def State.rankPairs (s : State) (q : Seq) (layer head : Nat) (k : BitVec 256) : List (Nat × Nat) :=
  (s.candidates q layer head).foldl (fun acc e =>
    let sk := ((s.sketches.find? fun x => x.1 == q.handle && x.2.1 == e.1).map fun x => x.2.2).getD 0
    let against := if leafTier e.2 = 0 then k else (s.recordedSketch q.handle layer head).getD k
    insertPair (sketchDist against sk, e.1) acc) []

/-- PAGE_RANKING: the query sketch is formed, the candidates are ranked, and the selection is kept for the request (R361 to R367). `queries` holds
the rotated query rows, positions ascending, the heads of the group within each. -/
def execPageRanking (core : CoreRef) (rid layer head : Nat) (queries : List (List W32)) (s : State) : Out :=
  s.onCore core.die core.core <|
    match s.req rid with
    | none => .next s
    | some r =>
      match s.seq r.handle with
      | none => .next s
      | some q =>
        when (s.working && r.stage == .admitted && decide (0 < s.group)) s <|
          let d := s.headDim
          let rows := queries.map fun x => x.map BitVec.toNat
          let each := (List.range (rows.length / s.group)).map fun i =>
            let x := vecSum s.ovf d ((rows.drop (i * s.group)).take s.group)
            let y := sketchOf s.ovf s.img.sketch x.1
            (y.1, x.2.or y.2)
          let sum := vecSum s.ovf d rows
          let sk := sketchOf s.ovf s.img.sketch sum.1
          let k := sk.1
          let pairs := s.rankPairs q layer head k
          let best := if s.retrieves r then pairs.take s.retTop else []
          let always := s.alwaysPages (s.retrieves r) q layer head
          let dd := s.die core.die
          let s1 := s.setDie core.die { dd with ranked :=
            (dd.ranked.filter fun x => !(x.1 == rid && x.2.1 == layer && x.2.2.1 == head)) ++
              [(rid, layer, head, always ++ best.map Prod.snd)] }
          let s1 := s1.updSeq r.handle fun q =>
            { q with rank := best.map Prod.snd ++ q.rank.filter fun v => !(decide (s.layerOf v = layer ∧ s.headOf v = head)) }
          let s1 := { s1 with fore := { s1.fore with qpend := s1.fore.qpend ++ [(rid, layer, head, each.map Prod.fst)] } }
          let s1 := each.foldl (fun (s : State) x => s.flagVec (coreNo core.die core.core) (some rid) x.2) s1
          let s1 := s1.flagVec (coreNo core.die core.core) (some rid) (sum.2.or sk.2)
          let s1 := (((s1.count core.die 0xA 0).count core.die 0xA 1 pairs.length).count core.die 0xA 2 (40 * pairs.length)).count core.die 0xA 3 best.length
          best.foldl (fun s p => s.count core.die 0xA (4 + p.1)) s1

/-! ### Prefill rings (R370 to R378) -/

/-- The runs that a step delivers on a ring: of the own block at step 0, and of the member that they come from otherwise, whose committed runs below the round
come with them and are known to that member alone (R370, R372, R375). -/
def State.stepRunsOk (s : State) (round k ring step member : Nat) (runs : List Nat) : Bool :=
  let x := s.roundRuns round
  let used := s.ringsUsed k
  let theirs := zigzag x.1 x.2 (2 ^ k) (ringPosition k member)
  if step = 0 then decide (runs = onRing used ring (s.ownBlock round k))
  else if x.1 = 0 then decide (runs = onRing used ring theirs)
  else decide (runs.Pairwise (· < ·)) && runs.all fun u => decide (u < x.1) || theirs.contains u

/-- Steps of a round that this member has folded in the pass that goes on, and the runs that they brought: a pass ends with its last step, and the next layer's
begins anew (R372, R376). -/
def State.ringPass (s : State) (round k step : Nat) : List Nat × List Nat :=
  let done := Sparse.get [] s.fore.ringStep round
  if step = 0 ∧ (s.ringsUsed k).all (fun r => done.contains ((2 ^ k - 1) * 64 + r)) then ([], [])
  else (done, Sparse.get [] s.fore.ringRuns round)

/-- Every attention task of a round's request that has folded blocks has folded the runs that came before, to the last one (R372, R373). -/
def State.runsFolded (s : State) (round : Nat) : Bool :=
  let runs := Sparse.get [] s.fore.ringRuns round
  match s.reqOfKey round with
  | some r => s.cores.all fun k => k.2.ctxs.all fun c => c.2.req != some r.rid || c.2.folds.all fun x => x.2.1 != 0 || x.2.2 + 1 == runs.length
  | none => true

/-- The round runs on this member: it lies in the subcube of the RING entry, whose members are all in the crew (R371, R378). -/
def State.onRound (s : State) (base k : Nat) : Bool :=
  s.crew.coord / 2 ^ k == base / 2 ^ k && (List.range (2 ^ k)).all fun i => s.crew.members.any fun m => m.coord == base / 2 ^ k * 2 ^ k + i

/-- RING_STEP_FOLD: the runs of the member `step` places behind on the ring have arrived and fold into the rows' running state, in step order and
within a step in ring order; they are forwarded at the next step (R372, R373, R375). The arithmetic of a fold is BLOCK_FOLD's. -/
def execRingStepFold (round ring step : Nat) (part : RingPart) (s : State) : Out :=
  match s.ringOf round with
  | none => .next s
  | some (base, k) =>
    let used := s.ringsUsed k
    let o := ringOrder s.img.crossed k ring s.crew.coord
    let me := indexIn o s.crew.coord
    let from' := o[(me + 2 ^ k - step % 2 ^ k) % 2 ^ k]?.getD s.crew.coord
    let pass := s.ringPass round k step
    let done := pass.1
    let code (r st : Nat) : Nat := st * 64 + r
    when (s.working && s.onRound base k && s.runsFolded round && used.contains ring && decide (step < 2 ^ k) && part.member == from' && s.stepRunsOk round k ring step part.member part.runs &&
        !(done.contains (code ring step)) && (used.filter (fun r => decide (r < ring))).all (fun r => done.contains (code r step)) &&
        (step == 0 || used.all fun r => done.contains (code r (step - 1)))) s <|
      let s := { s with fore := { s.fore with
        ringStep := Sparse.set [] s.fore.ringStep round (done ++ [code ring step])
        ringRuns := Sparse.set [] s.fore.ringRuns round (pass.2 ++ part.runs) } }
      if step + 1 < 2 ^ k then s.send (.chunkForward round ring step part.runs) else s

end Sys2Proof.Machine
end

