-- ==== Sys2Proof/Machine/Collectives.lean ====
section
/-! DEFINITION. Crew formation (R56, R500, R679, R695, R696), chunks landing in reduction memory and their combines (R523 to R551). -/

namespace Sys2Proof.Machine

/-! ### Crew formation -/

/-- The lowest coordinate of a list of members (R56). -/
def lowestCoord (ms : List Member) : Nat := (ms.map (·.coord)).foldl min 4095

/-- The coordinates of R500: a complete plain cube of unclaimed modules, 0 for the lowest MODULE_ID, its neighbours in ascending MODULE_ID. -/
def labelsOk (dims : Nat) (ms : List Member) : Bool :=
  let idAt (c : Nat) : Nat := ((ms.find? fun m => m.coord == c).map fun m => m.moduleId.toNat).getD 0
  decide (ms.length = 2 ^ dims) && ms.all (fun m => decide (idAt 0 ≤ m.moduleId.toNat)) &&
    (List.range (dims - 1)).all fun i => decide (idAt (2 ^ i) < idAt (2 ^ (i + 1)))

/-- The far end of a READY port belongs to the set, has carried CREW_EPOCH 0, and is no member (R696). -/
def portJoins (ms : List Member) (p : LinkPort) : Bool :=
  match p.peer with
  | some r => !trMember r && trEpoch r == 0 &&
      (match ms.find? fun m => m.moduleId.toNat == trModule r with
       | some m => decide (trClaim r = none ∨ trClaim r = some m.coord)
       | none => false)
  | none => false

/-- The set may form a crew with this module at `c` (R500, R696). -/
def State.formationOk (s : State) (ms : List Member) (c : Nat) : Bool :=
  let cs := ms.map (·.coord)
  let ready := (List.range 12).filter fun n => (s.port n).state == .ready
  s.sys.state == .join && !s.crew.member && s.crew.epoch == 0 && decide cs.Nodup && decide (ms.map (·.moduleId)).Nodup &&
    cs.all (fun x => decide (x < 2 ^ s.img.dims)) && ms.all (fun m => decide (1 ≤ m.variant ∧ m.variant ≤ 3)) &&
    (decide (2 ^ s.img.dims < 2 * ms.length) || (decide (2 ^ s.img.dims = 2 * ms.length) && cs.contains 0)) &&
    (match s.claimNow with
     | some a => a == c
     | none => !s.img.crossed && labelsOk s.img.dims ms) &&
    ready.all (fun n => portJoins ms (s.port n)) && (decide (ms.length = 1) || ready != [])

/-- The far end of a READY port, among the modules listed. -/
def farMember (ms : List Member) (p : LinkPort) : Option Member :=
  match p.peer with
  | some r => ms.find? fun m => m.moduleId.toNat == trModule r
  | none => none

/-- READY ports toward the modules listed become UP, serving the dimension of the two coordinates (R502). -/
def State.portsUp (s : State) (ms : List Member) : State :=
  { s with ports := Sparse.mapVals {} (fun _ (p : LinkPort) =>
      match p.state, farMember ms p with
      | .ready, some m =>
        let d := (neighbourDim s.img.crossed s.img.dims s.crew.coord m.coord).getD p.dim
        { p with state := .up, peerCoord := m.coord, dim := d, dimHint := d }
      | _, _ => p) s.ports }

/-- Of two homes of one INDEX_ID, the one with the higher coordinate keeps its copy offline, and the conflict is counted (R435). -/
def State.settleHomes (s : State) (homes : List (Nat × Nat)) (later : Bool) : State :=
  let clash (id : Nat) : Bool := homes.any fun h => h.1 == id && h.2 != s.crew.coord && (later || decide (h.2 < s.crew.coord))
  let n := (s.vidx.filter fun x => homes.any fun h => h.1 == ixId x.record && h.2 != s.crew.coord).length
  let s := { s with crew := { s.crew with homes := homes }, vidx := s.vidx.map fun x => { x with offline := clash (ixId x.record) } }
  if n = 0 then s else s.crewCount 29 n

/-- The crew's weight measurement: a member that differs starts its copy; none at all poisons every layer (R679). -/
def State.takeMeasure (s : State) (measure : Option (List Byte)) : State :=
  match measure with
  | some m => { s with wt := { s.wt with crewMeas := m, copying := s.wt.modPoison || s.wt.measure != m } }
  | none => ({ s with wt := { s.wt with crewMeas := s.wt.measure, poisoned := List.range s.layers, written := [] } }).crewCount 31 s.layers

/-! ### Weight mirrors (R398, R399, R680) -/

/-- The member that holds this member's mirror: that of the next higher coordinate, wrapping to the lowest; in a crew of one, the member itself (R398). -/
def State.nextHolder (s : State) : Nat :=
  let up := s.crew.members.filter fun m => decide (s.crew.coord < m.coord)
  lowestCoord (if up = [] then s.crew.members else up)

/-- After a change of members the mirror is rewritten where its holder has changed; until that rewrite commits the blocks have no mirror (R399, R680). -/
def State.settleMirror (s : State) : State :=
  let h := s.nextHolder
  if s.wt.mirrorAt = some h ∨ s.wt.rewriting.map Prod.fst = some h then s
  else { s with wt := { s.wt with mirrorAt := none, rewriting := some (h, 16384 * whTotal s.wt.header) } }

/-- A commit's part of the rewrite in progress, at the flash write rate of R39, 384 bytes per 10 ns; with its last byte the mirror stands (R399; log 56).
A crew of one holds its own (R398). Nothing is written while the flash tier is read-only (R389). -/
def State.rewriteMirror (s : State) : State :=
  match s.wt.rewriting with
  | none => s
  | some (h, n) =>
    if s.sys.flashRo then s
    else if n ≤ 384 * s.tick.period then
      ({ s with
        wt := { s.wt with mirror := if h = s.crew.coord then s.wt.data else s.wt.mirror, mirrorAt := some h, rewriting := none }
        hbm := { s.hbm with failed := s.hbm.failed.filter fun c => match c with
          | .weightMirror _ => false
          | _ => true } }).crewCount 33
    else { s with wt := { s.wt with rewriting := some (h, n - 384 * s.tick.period) } }

/-- CREW_FORMATION: the set forms a crew with CREW_EPOCH 1 at tick 1; its first edge is a FORM edge (R65, R696). `measure` is the weight measurement
of the lowest member whose weights are not poisoned, and `treeDelay` the longest measured tree path, 10 ns units (R61). -/
def execCrewFormation (members : List (Nat × W64 × Nat)) (measure : Option (List Byte)) (homes : List (Nat × Nat)) (treeDelay : Nat)
    (s : State) : Out :=
  let ms : List Member := members.map fun m => ⟨m.1, m.2.1, m.2.2⟩
  match ms.find? fun m => m.moduleId == s.ident.moduleId with
  | none => .next s
  | some me =>
    when (s.formationOk ms me.coord) s <|
      let s := { s with
        crew := { s.crew with member := true, coord := me.coord, epoch := 1, master := lowestCoord ms, members := ms, n0 := ms.length,
                              opened := 0 }
        tick := { crewTime := s.tick.crewTime, num := 1, phase := .checkAndCommit, margin := treeDelay + 100 } }
      let s := s.portsUp ms
      (({ s with yard := { s.yard with route := s.buildRoutes } }.settleHomes homes false).takeMeasure measure).settleMirror.flood

/-! ### Chunks (R532 to R546) -/

def chColl (h : BitVec 256) : Nat := fld h 240 16
def chProgram (h : BitVec 256) : Nat := fld h 236 4
def chClass (h : BitVec 256) : Nat := fld h 234 2
def chPhase (h : BitVec 256) : Nat := fld h 232 2
def chStep (h : BitVec 256) : Nat := fld h 220 12
def chItem (h : BitVec 256) : Nat := fld h 208 12
def chNum (h : BitVec 256) : Nat := fld h 192 16
def chElem (h : BitVec 256) : Nat := fld h 189 3
def chCount (h : BitVec 256) : Nat := fld h 172 17
def chReserved (h : BitVec 256) : Nat := fld h 32 140
def chRsum (h : BitVec 256) : Nat := fld h 0 32

/-- Bytes of one element under ELEM (R354, R533). -/
def elemSize (e : Nat) : Nat := if e = 1 then 32 + 4 * 64 else if e = 2 then 32 + 4 * 128 else if e = 3 then 32 + 4 * 256 else 4

/-- Header and length keep R532, R533 and R535, the RSUM apart. -/
def State.chunkFormOk (s : State) (h : BitVec 256) (payload : List Byte) : Bool :=
  decide (1 ≤ chProgram h ∧ chProgram h ≤ 7 ∧ chClass h ≠ 3 ∧ chPhase h ≤ 1 ∧ chElem h ≤ 4 ∧ 1 ≤ chCount h ∧ chCount h ≤ 65528) &&
    chReserved h == 0 && decide (payload.length ≤ 262112) && decide (payload.length = chCount h * elemSize (chElem h)) &&
    s.coll.plan.any fun c => c.collId == chColl h

/-- Key of a combined chunk. -/
def sumKey (coll item chunk : Nat) : Nat := coll * 2 ^ 32 + item * 2 ^ 16 + chunk

/-- Words of a payload. -/
def payloadWords (bs : List Byte) : List W32 := (leWords 4 bs).map (BitVec.ofNat 32)

/-- Bytes of the staged area of a stack in use (R544). -/
def State.stagedBytes (s : State) (stack : Nat) : Nat :=
  ((s.coll.chunks.filter fun c => c.slot.isNone && c.stack == stack).map fun c => 32 + c.payload.length).foldl (· + ·) 0

/-- A ring program (R524). -/
def ringProgram (c : CollPlan) : Bool := c.program == 3 || c.program == 4 || c.program == 5

/-- The members of a ring program in ring order (R504, R529). -/
def State.ringMembers (s : State) (c : CollPlan) : List Nat := ringOrder s.img.crossed c.dim c.ring s.crew.coord

/-- This member's position on a collective's ring (R529). -/
def State.ringPlace (s : State) (c : CollPlan) : Nat := indexIn (s.ringMembers c) s.crew.coord

/-- The member after this one on a collective's ring; its position stays as planned where links of the ring are excluded (R529, R550). -/
def State.ringAfter (s : State) (c : CollPlan) : Nat :=
  ((s.ringMembers c)[(s.ringPlace c + 1) % (s.ringMembers c).length]?).getD s.crew.coord

/-- A free slot granted to the chunk's stream: one level of a tree program, the whole round of a ring program (R540, R542). -/
def State.slotFor (s : State) (c : CollPlan) (sender level : Nat) : Option Nat :=
  (s.coll.grants.filter fun g => g.coll == c.collId && g.sender == sender && (ringProgram c || g.level == level)).findSome? fun g =>
    g.slots.find? fun n => !(s.coll.busy.contains n)

/-- A chunk's 32 header bytes and its payload as one message of DATA flits and a DATA_LAST flit (R484, R485, R532; log 57). -/
def State.chunkFlits (s : State) (dest msg vc : Nat) (bytes : List Byte) : List Flit :=
  let n := ceilDiv bytes.length 240
  (List.range n).map fun i =>
    let body := (bytes.drop (240 * i)).take 240
    ⟨place 128 124 4 (if i + 1 = n then 8 else 7) ||| place 128 122 2 vc ||| place 128 105 12 dest ||| place 128 93 12 s.crew.coord |||
      place 128 79 14 msg ||| place 128 65 14 i ||| place 128 61 4 (ceilDiv body.length 16) ||| place 128 59 2 s.ttag,
      body ++ List.replicate (240 - body.length) 0⟩

/-- Send a chunk to a member (R532). -/
def State.sendChunk (vc : Nat) (h : BitVec 256) (payload : List Byte) (s : State) (dest : Nat) : State :=
  let fs := s.chunkFlits dest (s.yard.msgNext % 16384) vc (leBytes 32 h.toNat ++ payload)
  let s := s.send (.chunk dest vc h payload)
  fs.foldl State.launch { s with yard := { s.yard with msgNext := s.yard.msgNext + 1 } }

/-- Where a chunk of final data goes from here: a tree program's completed data to the members that the plan names, a ring program's to the next
member, until the segment has come round to its own position (R524, R529, R537). -/
def State.onwardTo (s : State) (c : CollPlan) (item : Nat) : List Nat :=
  if ringProgram c then
    (if (s.ringPlace c + 1) % (s.ringMembers c).length = item then [] else [s.ringAfter c])
  else c.onward

/-- Bytes of this member's own contribution to an item: the whole contribution, or of a ring program that sums the segment, whose words R529 splits into parts
that differ by one at most (DESIGN CHOICE, log 20). None while its tasks have not ended (R525, R527, R529). -/
def State.ownBytes (s : State) (c : CollPlan) (item : Nat) : Option (List Byte) :=
  let sums := c.program = 3 ∨ c.program = 4
  match c.own.find? fun p => decide sums || p.rank == item with
  | none => none
  | some p =>
    if !(p.tasks.all s.clearBlaze) then none
    else if sums then
      let r := pieceRange (p.bytes / 4) (s.ringMembers c).length item
      some (Mem.bytes (s.die c.die).stage (p.addr + 4 * r.1) (4 * r.2))
    else some (Mem.bytes (s.die c.die).stage p.addr p.bytes)

/-- One chunk's words of this member's own contribution to an item (R527, R532). -/
def State.ownWords (s : State) (c : CollPlan) (item chunk : Nat) : Option (List W32) :=
  match s.ownBytes c item with
  | some bs => if chunk * c.chunk < bs.length then some (payloadWords ((bs.drop (chunk * c.chunk)).take c.chunk)) else none
  | none => none

/-- A chunk that carries final data, distributed, gathered or multicast, is read where it lands and passed on unchanged; its slot is free again
(R537, R543). -/
def State.takeFinal (s : State) (c : CollPlan) (h : BitVec 256) (payload : List Byte) : State :=
  (s.onwardTo c (chItem h)).foldl (State.sendChunk c.vc h payload) { s with coll := { s.coll with
      sums := Sparse.set [] s.coll.sums (sumKey (chColl h) (chItem h) (chNum h)) (payloadWords payload) } }

/-- Credits of a VC, buffer class 0, are withheld from the sender of a chunk that finds no room (R546). -/
def LinkPort.withhold (p : LinkPort) (sender vc : Nat) : LinkPort :=
  if p.state = .up ∧ p.peerCoord = sender ∧ ¬p.withheld.contains (vc, 0) then { p with withheld := p.withheld ++ [(vc, 0)] } else p

/-- A chunk of final data: of the distribute phase, of an ALL_GATHER_RING or of a MULTICAST (R524, R533). -/
def finalChunk (h : BitVec 256) : Bool := decide (chPhase h = 1 ∨ chProgram h = 5 ∨ chProgram h = 7)

/-- Place a sound chunk (R542 to R546); a staged one goes to stack `unit` of the consuming core's die (R545). -/
def State.placeChunk (s : State) (c : CollPlan) (sender : Nat) (h : BitVec 256) (payload : List Byte) (unit : Nat) : State :=
  let final := finalChunk h
  let stack := 4 * c.die + unit % 4
  let mk (slot : Option Nat) : Chunk := ⟨chColl h, sender, chItem h, chStep h, chNum h, payload, slot, stack, true⟩
  let note (s : State) : State := { s with coll := { s.coll with landed := s.coll.landed ++ [⟨chColl h, sender, chStep h, chItem h, final⟩] } }
  match s.slotFor c sender (chStep h) with
  | some n =>
    let s := ((note s).hubCount 6 0).hubCount 6 (9 + n)
    if final then s.takeFinal c h payload
    else { s with coll := { s.coll with busy := s.coll.busy ++ [n], chunks := s.coll.chunks ++ [mk (some n)] } }
  | none =>
    if 2 ^ 24 < s.stagedBytes stack + 32 + payload.length then
      ({ s with ports := Sparse.mapVals {} (fun _ (p : LinkPort) => p.withhold sender c.vc) s.ports }).hubCount 6 3
    else
      let s := (((note s).hubCount 6 1).pulse 0x90).stackCount stack 14
      if final then (s.stackCount stack 15).takeFinal c h payload else { s with coll := { s.coll with chunks := s.coll.chunks ++ [mk none] } }

/-- Place a sound chunk under its collective's plan. -/
def State.landChunk (s : State) (sender : Nat) (h : BitVec 256) (payload : List Byte) (unit : Nat) : State :=
  match s.coll.plan.find? fun c => c.collId == chColl h with
  | none => s
  | some c => s.placeChunk c sender h payload unit

/-- CHUNK_RECEIVE: a corrupt chunk or a failed RSUM makes the attempt FAIL (R535, R537, R539); a sound one lands in a free granted slot, or in the
staged area of a stack of the consuming core's die, the one that `stack` numbers there (R542, R545). -/
def execChunkReceive (sender : Nat) (hdr : BitVec 256) (payload : List Byte) (stack : Nat) (s : State) : Out :=
  needPart (s.hasStack stack) "stack" <|
    when s.working s <|
      if !s.chunkFormOk hdr payload then (s.hubCount 6 5).failAttempt 1
      else if rsum hdr payload ≠ chRsum hdr then (s.hubCount 6 4).failAttempt 1
      else s.landChunk sender hdr payload stack

/-! ### Combines (R527 to R531, R536) -/

/-- Split a list into records of `n` words. -/
def recordsOf (n : Nat) (ws : List W32) : List (List W32) :=
  (List.range (if n = 0 then 0 else ws.length / n)).map fun i => (ws.drop (i * n)).take n

/-- A sum combine: FP32 addition word by word, the left operand first, zeros stored under R146 (R530). -/
def sumWords (ieee : Bool) (l r : List W32) : List W32 × Flags :=
  let ys := (l.zip r).map fun p => add32 ieee p.1.toNat p.2.toNat
  (ys.map fun y => BitVec.ofNat 32 (Fp.fp32.stored y.1), ys.foldl (fun f y => f.or y.2) {})

/-- A merge combine of partial records (R355, R530), its words stored under R146. -/
def mergeWords (v : Env) (d : Nat) (l r : List W32) : List W32 × Flags :=
  let ys := ((recordsOf (8 + d) l).zip (recordsOf (8 + d) r)).map fun p => mergePartial v (partialOf p.1) (partialOf p.2)
  (ys.flatMap fun y => y.1.stored.words, ys.foldl (fun f y => f.or y.2) {})

/-- The combine of a collective's program on a core, whose current bank serves its lookups (R228, R524, R530), with its flags. -/
def State.combineWords (s : State) (core program : Nat) (l r : List W32) : List W32 × Flags :=
  if program = 6 then mergeWords (s.envOf core) s.headDim l r else sumWords s.ovf l r

/-- ELEM of a collective's data (R530, R533): partial records of the model's head dimension, FP32 where a program sums, and raw words where it moves data
unchanged (log 20). -/
def State.elemOf (s : State) (program : Nat) : Nat :=
  if program = 6 then (if s.headDim = 64 then 1 else if s.headDim = 128 then 2 else 3) else if program = 5 ∨ program = 7 then 4 else 0

/-- The header of a chunk that this member produces, with its RSUM (R533, R534, R537). -/
def State.chunkHeader (s : State) (c : CollPlan) (phase step item chunk : Nat) (payload : List Byte) : BitVec 256 :=
  let e := s.elemOf c.program
  let h : BitVec 256 := place 256 240 16 c.collId ||| place 256 236 4 c.program ||| place 256 234 2 c.cls ||| place 256 232 2 phase |||
    place 256 220 12 step ||| place 256 208 12 item ||| place 256 192 16 chunk ||| place 256 189 3 e ||| place 256 172 17 (payload.length / elemSize e)
  h ||| place 256 0 32 (rsum h payload)

/-- The tree level of the next combine that takes in an item after level `k`, and that combine's item; an unpaired last item passes up (R527). -/
def nextLevel (n item : Nat) : Nat → Nat → Option (Nat × Nat)
  | _, 0 => none
  | k, fuel + 1 =>
    let base := item / 2 ^ (k + 1) * 2 ^ (k + 1)
    if n ≤ 2 ^ k then none
    else if base ≠ item then some (k + 1, base)
    else if item + 2 ^ k < n then some (k + 1, item) else nextLevel n item (k + 1) fuel

/-- The member that performs a combine of a tree program (R525, R528). -/
def siteOf (c : CollPlan) (chunk step item : Nat) : Option Nat :=
  (c.sites.find? fun x => x.chunk == chunk && x.step == step && x.item == item).map (·.member)

/-- A held chunk of a collective that is an operand at a step (R527, R529). -/
def State.heldChunk (s : State) (coll step item chunk : Nat) : Option (List W32) :=
  (s.coll.chunks.find? fun x => x.coll == coll && x.step == step && x.item == item && x.num == chunk).map fun x => payloadWords x.payload

/-- An operand of a tree combine at a level: the chunk that has come for it, else the sum formed here, else this member's own contribution, which covers one
rank alone (R527). -/
def State.treeOperand (s : State) (c : CollPlan) (step item chunk : Nat) (ws : List W32) : Bool :=
  match s.heldChunk c.collId step item chunk, Sparse.get [] s.coll.sums (sumKey c.collId item chunk) with
  | some x, _ => x == ws
  | none, [] => c.contributors[item]? == some s.crew.coord && decide (min (item + 2 ^ (step - 1)) c.contributors.length = item + 1) && s.ownWords c item chunk == some ws
  | none, x => x == ws

/-- The records of a merge come in ascending FIRST_POS, the lower on the left (R356, R531). -/
def mergeOrdered (d : Nat) (l r : List W32) : Bool :=
  ((recordsOf (8 + d) l).zip (recordsOf (8 + d) r)).all fun p => decide ((partialOf p.1).firstPos ≤ (partialOf p.2).firstPos)

/-- The combine is one of the collective's, in its place in the order: adjacent items of a tree level at the member that the plan names for it, the lower-ranked one
on the left; or the segment due at this ring position at this step, its own contribution on the right (R525, R527, R529). -/
def State.combineOk (s : State) (c : CollPlan) (item step chunk : Nat) (left right : List W32) : Bool :=
  if ringProgram c then
    let n := (s.ringMembers c).length
    decide (1 ≤ step ∧ step < n ∧ item = (s.ringPlace c + 2 * n - 1 - step) % n) && s.heldChunk c.collId step item chunk == some left && s.ownWords c item chunk == some right
  else
    decide (1 ≤ step ∧ item % 2 ^ step = 0 ∧ item + 2 ^ (step - 1) < c.contributors.length) && siteOf c chunk step item == some s.crew.coord &&
      s.treeOperand c step item chunk left && s.treeOperand c step (item + 2 ^ (step - 1)) chunk right

/-- Where the result of a combine goes next: its members, the phase and the step (R524, R527, R529). -/
def State.sendsTo (s : State) (c : CollPlan) (item step chunk : Nat) : List Nat × Nat × Nat :=
  if ringProgram c then
    if step + 1 < (s.ringMembers c).length then ([s.ringAfter c], 0, step + 1) else (if c.program = 3 then [s.ringAfter c] else [], 1, 1)
  else
    match nextLevel c.contributors.length item step 12 with
    | some (k, i) => ((siteOf c chunk k i).toList.filter fun m => m != s.crew.coord, 0, k)
    | none => (c.onward, 1, step)

/-- The result of a combine goes to the members that need it next, as a chunk with a header of its own (R527, R529, R537). -/
def State.sendResult (s : State) (c : CollPlan) (item step chunk : Nat) (ws : List W32) : State :=
  let next := s.sendsTo c item step chunk
  let payload := ws.flatMap fun w => leBytes 4 w.toNat
  next.1.foldl (State.sendChunk c.vc (s.chunkHeader c next.2.1 next.2.2 item chunk payload) payload) s

/-- Where this member's own contribution goes first (R524, R527, R529): to the member that combines it next, where that is another one; round the ring; or, from
the source of a MULTICAST, to the members that the plan names. -/
def State.ownTo (s : State) (c : CollPlan) (item chunk : Nat) : List Nat × Nat × Nat :=
  let alone := decide ((s.ringMembers c).length ≤ 1)
  if c.program = 7 then (c.onward, 1, 0)
  else if ringProgram c then (if alone then [] else [s.ringAfter c], bit (c.program == 5), 1)
  else
    let d := s.sendsTo c item 0 chunk
    (d.1, d.2.1, max 1 d.2.2)

/-- Send one chunk of this member's own contribution (R532, R537). -/
def State.sendOwnChunk (c : CollPlan) (item : Nat) (s : State) (chunk : Nat) : State :=
  match s.ownWords c item chunk with
  | none => s
  | some ws =>
    let d := s.ownTo c item chunk
    let payload := ws.flatMap fun w => leBytes 4 w.toNat
    d.1.foldl (State.sendChunk c.vc (s.chunkHeader c d.2.1 d.2.2 item chunk payload) payload) s

/-- The item that a contribution goes out as: a ring program that sums starts at position p with segment p − 1 (R529). -/
def State.ownItem (s : State) (c : CollPlan) (p : OwnPart) : Nat :=
  let n := (s.ringMembers c).length
  if c.program = 3 ∨ c.program = 4 then (s.ringPlace c + n - 1) % n else p.rank

/-- A contribution of this member goes out, chunk by chunk (R525, R527, R529, R532). -/
def State.sendOwn (s : State) (c : CollPlan) (p : OwnPart) : State :=
  let item := s.ownItem c p
  let n := ceilDiv ((s.ownBytes c item).getD []).length c.chunk
  (List.range n).foldl (State.sendOwnChunk c item) { s with coll := { s.coll with begun := s.coll.begun ++ [(c.collId, p.rank)] } }

/-- The first contribution of the plan that is complete and has not gone out. -/
def State.ownDue (s : State) : Option (CollPlan × OwnPart) :=
  s.coll.plan.findSome? fun c => (c.own.find? fun p => !(s.coll.begun.contains (c.collId, p.rank)) && p.tasks.all s.clearBlaze).map fun p => (c, p)

/-- What the block does while no command waits: a contribution to a collective goes out once its tasks have ended (R525, R527; DESIGN CHOICE, log 3). -/
def State.idle (s : State) : State :=
  if s.working then
    match s.ownDue with
    | some x => s.sendOwn x.1 x.2
    | none => s
  else s

/-- Chunks that a combine has consumed, those staged read from HBM (R545): their slots are free, and withheld credits return when the staged area has room (R543, R546). -/
def State.consumeChunks (s : State) (coll step chunk : Nat) (items : List Nat) : State :=
  let used := s.coll.chunks.filter fun c => c.coll == coll && c.step == step && c.num == chunk && items.contains c.item
  let slots := used.filterMap (·.slot)
  let s := used.foldl (fun (s : State) c => if c.slot.isNone then s.stackCount c.stack 15 else s) s
  let s := { s with coll := { s.coll with
    busy := s.coll.busy.filter fun n => !(slots.contains n)
    chunks := s.coll.chunks.filter fun c => !(used.contains c) } }
  if used.any fun c => c.slot.isNone then (List.range 12).foldl State.releaseCredits s else s

/-- COMBINE: one combine of a tree or ring program, lower-ranked item on the left, on the cores that the plan names, and its result sent on; a residue mismatch
makes the attempt FAIL (R525, R527 to R531, R536, R537, R539). Which part its fail record names is not stated: none (R77; DESIGN CHOICE, log 54). -/
def execCombine (coll item step chunk : Nat) (left right : List W32) (residueOk : Bool) (s : State) : Out :=
  match s.coll.plan.find? fun c => c.collId == coll with
  | none => .next s
  | some c =>
    when (s.working && decide (left.length = right.length) && (c.program == 1 || c.program == 2 || c.program == 3 || c.program == 4 || c.program == 6) &&
        s.combineOk c item step chunk left right && (c.program != 6 || mergeOrdered s.headDim left right)) s <|
      if !residueOk then (s.hubCount 6 6).failAttempt 1
      else
        let r := s.combineWords (coreNo c.die c.core) c.program left right
        let s := { s with coll := { s.coll with sums := Sparse.set [] s.coll.sums (sumKey coll item chunk) r.1 } }
        ((s.flagVec (coreNo c.die c.core) c.req r.2).consumeChunks coll step chunk [item, item + 2 ^ (step - 1)]).sendResult c item step chunk r.1

end Sys2Proof.Machine
end

