-- ==== Sys2Proof/Machine/Start.lean ====
section
/-! DEFINITION. Power, start-up and identity: the meanings of the commands of R627 to R666 and R726 to R733. -/

namespace Sys2Proof.Machine

/-! ### Identity (R659 to R661) -/

/-- Byte address of the helper region (R630). -/
def helperBase : Nat := 0x0FFF_0000

/-- The identity of R660: the seed ξ of the key pair when every condition of R661 is met, none when the module has no identity. -/
def identityOf (nor : Mem) (moduleId : W64) : Option (List Byte) :=
  let h := norNum nor helperBase 64
  let n := bits h 416 32
  let k := Config.pufSecret (norBytes nor (helperBase + 8192) n)
  let xi := shake256 32 ((2 : Byte) :: (k ++ leBytes 8 moduleId.toNat))
  if bits h 480 32 = 0x5A464850 ∧ bits h 464 16 = 1 ∧ bits h 448 16 = 0 ∧ 1 ≤ n ∧ n ≤ 57344 ∧ bits h 256 96 = 0 ∧
      bits h 352 64 = moduleId.toNat ∧ shake256 32 ((1 : Byte) :: k) = leBytes 32 (bits h 0 256) ∧
      Config.mldsaPublicKey xi = norBytes nor (helperBase + 64) 2592 then some xi
  else none

/-- The security block after ROM has derived the identity. -/
def securityOf (nor : Mem) (moduleId : W64) : Security :=
  match identityOf nor moduleId with
  | some xi => { haveKey := true, secretXi := xi, identityPk := norBytes nor (helperBase + 64) 2592,
                 idCert := norBytes nor (helperBase + 2656) 4627 }
  | none => {}

/-- The work of ROM that later states depend on (R627): COMPAT_N sampled (R664) and the identity derived (R660). -/
def State.romWork (s : State) (compat : Bool) : State :=
  let sec := securityOf s.nor s.ident.moduleId
  let s := { s with pwr := { s.pwr with compatN := compat }, sec := sec,
                    sys := { s.sys with compatPin := compat, compat := compat, noIdentity := !sec.haveKey } }
  let s := s.hubCount 7 5
  if sec.haveKey then s else s.hubCount 7 6

/-! ### Power (R727 to R733) -/

/-- The main domain starts its sequence when PWR_EN and MOD_PRSNT_N allow it and the hold-off has passed (R727, R730, R733). -/
def Power.tryStart (p : Power) : Power :=
  if p.standby && p.pwrEn && p.present && !p.holdoff && p.main == .off && p.supply == .inRange then { p with main := .starting }
  else p

/-- STANDBY_POWER_UP: the input enters 48 V to 57 V; the standby domain powers up and ROM_HOLD clears (R628, R629, R727). -/
def execStandbyPowerUp (vin : BitVec 16) (s : State) : Out :=
  when (s.pwr.supply != .inRange && decide (4800 ≤ vin.toNat) && decide (vin.toNat ≤ 5700)) s
    { s with pwr := ({ s.pwr with supply := .inRange, vin := vin, standby := true }).tryStart,
             smb := if s.pwr.standby then s.smb else {} }

/-- PWR_EN_ASSERT (R730). -/
def execPwrEnAssert (present : Bool) (s : State) : Out :=
  .next { s with pwr := ({ s.pwr with pwrEn := true, present := present }).tryStart }

/-- POWER_GOOD: power good of the main domain, or the ROM entry after a module reset (R627). A port whose PERSTn_N is high already leaves reset now (R731). -/
def execPowerGood (compatN : Bool) (s : State) : Out :=
  if s.pwr.main = .starting then .next ((((s.powerUp compatN).romWork compatN).answerPort 0).answerPort 1)
  else when (s.pwr.main == .on && s.sys.state == .rom) s (s.romWork compatN)

/-- A module reset followed by the work of ROM (R593, R628). The pin keeps its level. -/
def State.resetToRom (s : State) : State := s.moduleReset.romWork s.pwr.compatN

/-- PWR_EN_DEASSERT (R732). -/
def execPwrEnDeassert (s : State) : Out :=
  let s' := { s with pwr := { s.pwr with pwrEn := false } }
  .next (if s.pwr.main = .off then s' else s'.powerDown)

/-- Both domains power down with the input (R732, R733). -/
def State.inputLost (s : State) (sup : Supply) (vin : BitVec 16) : State :=
  let s' := { s with pwr := { s.pwr with supply := sup, vin := vin, standby := false } }
  if s.pwr.main = .off then s' else s'.powerDown

/-- UNDERVOLTAGE: the input falls through the lockout, below 45.5 V (R729, R732). -/
def execUndervoltage (vin : BitVec 16) (s : State) : Out :=
  when (decide (vin.toNat ≤ 4550)) s (s.inputLost .under vin)

/-- OVERVOLTAGE: the input rises through the lockout, above 58.5 V; handled as an undervoltage (R729, R733). -/
def execOvervoltage (vin : BitVec 16) (s : State) : Out :=
  when (decide (5850 ≤ vin.toNat)) s (s.inputLost .over vin)

/-- POWER_UP_HOLDOFF_EXPIRY (R733). -/
def execPowerUpHoldoffExpiry (s : State) : Out :=
  .next { s with pwr := ({ s.pwr with holdoff := false }).tryStart }

/-! ### LOAD (R635) -/

/-- IMAGE_LOAD: the end of ROM, and the reading of the image with the checks of R634. With ROM_HOLD set the module stays in ROM (R627). -/
def execImageLoad (norResponds : Bool) (s : State) : Out :=
  if s.sys.state = .rom ∧ s.pwr.main = .on ∧ ¬s.smb.romHold then
    let up (p : HostPort) : HostPort := if p.link = .retry then { p with link := .answering } else p
    let s := { s with host := { s.host with port0 := up s.host.port0, port1 := up s.host.port1 },
                      sys := { s.sys with state := .load } }
    if !norResponds then .next (s.enterFault 2 0)
    else if headerBad (imgHeader s.nor) then .next (s.enterFault 2 0)
    else
      let s := { s with sys := { s.sys with progress := 100 } }
      match layoutFault s.nor with
      | some (c, d) => .next (s.enterFault c d)
      | none => .next s
  else .next s

/-- A directory section with its measurement (R635, R652). -/
def measured (nor : Mem) (x : Section) : Section := { x with digest := sha3_512 (norBytes nor x.offset x.len) }

/-- CREW_DIGEST (R653). -/
def crewDigestOf (nor : Mem) (ss : List Section) (topo : Nat) (compat : Bool) : List Byte :=
  let dg (t : Nat) := (findSection ss t).digest
  sha3_512 (dg 1 ++ dg 2 ++ dg 0x10 ++ dg 0x11 ++ dg 0x15 ++ norBytes nor ((findSection ss 0x12).offset + 16) 16 ++
    [BitVec.ofNat 8 (bits topo 0 5), BitVec.ofNat 8 (bit compat)])

/-- The rotary frequencies, computed once by the loader (R342). -/
def freqsOf (m : BitVec 1024) : List W64 :=
  let d := fld m 928 16
  (List.range (d / 2)).map fun i =>
    BitVec.ofNat 64 (ropeFreq (fld m 840 8) (fld m 736 64) (fld m 672 64) (fld m 608 64) (fld m 544 64) d i)

/-- What the loader keeps of the image in the NOR (R635). -/
def imageOf (nor : Mem) (compatPin : Bool) : Image :=
  let h := imgHeader nor
  let ss := (directory nor (imgSections h)).map (measured nor)
  let off (t : Nat) := (findSection ss t).offset
  let model : BitVec 1024 := BitVec.ofNat 1024 (norNum nor (off 0x10) 128)
  let profile : BitVec 320 := BitVec.ofNat 320 (norNum nor (off 0x12) 40)
  let topo := norNum nor (off 0x13) 16
  let mp := findSection ss 2
  let es := (mpWalk nor mp.offset mp.len (mp.len / 16 + 1) 0 0).1
  let fw := norNum nor (off 1) 64
  let ix := findSection ss 0x16
  { loaded := true, bytes := imgBytes h, version := BitVec.ofNat 32 (bits h 896 32), sections := ss, model := model,
    profile := profile, dims := bits topo 0 4, crossed := bits topo 4 1 == 1, portEn := BitVec.ofNat 12 (bits topo 5 12),
    coordMap := (List.range (bits topo 17 13)).map fun i =>
      let e := norNum nor (off 0x13 + 16 + 16 * i) 16
      (BitVec.ofNat 64 (bits e 0 64), bits e 64 12),
    q0 := bits (norNum nor (off 0x14) 16) 0 14, queueLots := norBytes nor (off 0x14 + 16) 8192,
    lotRecords := (List.range 256).map (quotaLot nor (findSection ss 0x14)),
    sketch := (leWords 2 (norBytes nor (off 0x15) (512 * fld model 928 16))).map (BitVec.ofNat 16),
    indexes := indexRecords nor 17 ix.offset (ix.offset + ix.len),
    test := if ss.any fun x => x.type == 0x17 then BitVec.ofNat 64 (norNum nor (off 0x17) 8) else 0,
    micro := (es.filter fun e => e.kind == 1).map (microOf nor), collectives := (es.filter fun e => e.kind == 2).map (·.prog),
    loops := (List.range (bits (norNum nor (off 0x11) 16) 0 16)).map (tableDescs nor (off 0x11)),
    fwVersion := BitVec.ofNat 32 (bits fw 480 32), crewLevel := BitVec.ofNat 16 (bits fw 464 16),
    linkLevel := BitVec.ofNat 8 (bits fw 456 8), crewDigest := crewDigestOf nor ss topo (compatPin || fld profile 256 1 == 1),
    freqs := freqsOf model }

/-- Digest of the MODEL section. -/
def Image.modelDigest (g : Image) : List Byte := (findSection g.sections 0x10).digest

/-- A stored index and a record agree in the five fields of R433. -/
def indexMatches (r : BitVec 128) (x : VIndex) : Bool :=
  ixId x.record == ixId r && ixM x.record == ixM r && ixDegree x.record == ixDegree r &&
    ixMaxNodes x.record == ixMaxNodes r && ixSideMax x.record == ixSideMax r

/-- The stored index that a record keeps (R433), or an empty one with the image's codebook. -/
def indexAtLoad (old : List VIndex) (r : BitVec 128) (book : List Byte) : VIndex :=
  match old.find? (indexMatches r) with
  | some x => { x with record := r }
  | none => { record := r, codebook := book }

/-- The flash frames of the indexes: in the order of their records, above all others (R431; log 13). -/
def layIndexes (xs : List VIndex) : List VIndex :=
  ((List.range xs.length).zip xs).map fun p => { p.2 with base := 3906250000 - ((xs.drop p.1).map fun x => indexFrames x.record).foldl (· + ·) 0 }

/-- The weight measurement (R657). -/
def weightMeasure (header : List Byte) : List Byte := if header = [] then List.replicate 64 0 else sha3_512 header

/-- LOAD_COMPLETE: fields with reset "image" take their values (R21), generators are seeded (R139), stores fill (R223), stored weights
and indexes are checked (R433, R657), and the module enters VERIFY. -/
def execLoadComplete (s : State) : Out :=
  if s.sys.state = .load ∧ s.sys.progress = 100 then
    let g := imageOf s.nor s.sys.compatPin
    let cbit := fld g.profile 256 1 == 1
    let wrong := s.wt.header = [] ∨ slice s.wt.header 0 64 ≠ g.modelDigest
    let kept := layIndexes (g.indexes.map fun p => indexAtLoad s.vidx p.1 p.2)
    let discarded := (s.vidx.filter fun x => !(g.indexes.any fun p => indexMatches p.1 x)).length
    let s := { s with
      img := g, profile := BitVec.ofNat 128 (fld g.profile 0 128),
      lots := ((List.range 256).zip g.lotRecords).foldl (fun m p => Sparse.set 0 m p.1 p.2) [],
      host := { s.host with queueLot := ((List.range 8192).zip g.queueLots).foldl (fun m p => Sparse.set 0 m p.1 p.2.toNat) [] },
      tmux := { sel := g.test, pins := [] },
      sys := { s.sys with state := .verify, compatBit := cbit, compat := s.sys.compatPin || cbit,
                          flashRo := s.flash.worn },
      dies := (List.range s.nDies).foldl (fun m d => Sparse.set {} m d { stage := functionStore g.micro }) [],
      wt := { s.wt with modPoison := decide wrong, measure := weightMeasure s.wt.header },
      vidx := kept,
      crew := { s.crew with claim := (g.coordMap.find? fun p => p.1 == s.ident.moduleId).map Prod.snd } }
    .next (if discarded = 0 then s else s.crewCount 28 discarded)
  else .next s

/-! ### VERIFY, TRAIN (R627, R651) -/

/-- The ports at the start of TRAIN: enabled ports train from step 1, disabled ones report OFF with REASON 0xC (R479, R494, R522). -/
def portsAtTrain (en : BitVec 12) : Sparse LinkPort :=
  (List.range 12).foldl (fun m n => Sparse.set {} m n
    (if bitAt en n then { state := .training, step := 1, laser := true } else { reason := 0xC })) []

/-- VERIFY: the checks of R651 in order; TRAIN on success, FAULT at the first failure. -/
def execVerify (s : State) : Out :=
  if s.sys.state = .verify then
    match verifyFault s.nor s.img with
    | some (c, d) =>
      let s := if c = 1 then (s.hubCount 7 0).hubCount 7 1 else s.hubCount 7 0 2
      .next (s.enterFault c d)
    | none => .next { s.hubCount 7 0 2 with sys := { s.sys with state := .train }, ports := portsAtTrain s.img.portEn }
  else .next s

/-- TRAIN_TIMEOUT: TRAIN ends and the module enters JOIN, discarding its key-value state (R627, R681). -/
def execTrainTimeout (s : State) : Out :=
  when (s.sys.state == .train) s { s.joinDiscard with sys := { s.sys with state := .join } }

end Sys2Proof.Machine
end

