-- ==== Sys2Proof/Machine/Host.lean ====
section
/-! DEFINITION. The BAR0 register file (R588 to R605, R668, R715), doorbells, the recovery mailbox, SMBus and PCIe port events. -/

namespace Sys2Proof.Machine

/-! ### Reads of BAR0 (R588) -/

/-- MODULE_INFO (R590). -/
def State.moduleInfo (s : State) (p : Nat) : W64 :=
  let m := s.isMember
  place 64 62 2 s.ident.variant.code ||| place 64 61 1 p ||| place 64 60 1 (bit m) |||
    place 64 48 12 (if m then s.crew.coord else 0) ||| place 64 32 14 s.img.q0 ||| place 64 16 16 s.img.crewLevel.toNat

/-- HUB_STATUS (R591). -/
def State.hubStatus (s : State) : W64 :=
  place 64 60 4 s.sys.state.code ||| place 64 59 1 (bit s.sys.compat) ||| place 64 58 1 (bit s.sys.compatPin) |||
    place 64 57 1 (bit s.sys.compatBit) ||| place 64 56 1 (bit s.sys.flashRo) ||| place 64 55 1 (bit s.sys.noIdentity) |||
    place 64 54 1 (bit s.tick.hold) ||| place 64 53 1 (bit s.sys.imageWritten) ||| place 64 40 7 s.sys.progress |||
    place 64 32 8 s.sys.faultClass.toNat ||| place 64 0 32 s.sys.faultDetail.toNat

/-- CREW_STATUS (R594): zero while MEMBER is 0. -/
def State.crewStatus (s : State) : W64 :=
  if s.isMember then
    place 64 32 32 s.crew.epoch.toNat ||| place 64 19 13 s.crew.members.length ||| place 64 7 12 s.crew.master
  else 0

/-- STATE code of a port (R521). -/
def PortState.code : PortState → Nat
  | .off => 0 | .training => 1 | .up => 2 | .miswired => 3 | .transit => 4 | .down => 5 | .ready => 6

/-- LINK_STATUSn (R520). -/
def LinkPort.status (p : LinkPort) : W64 :=
  place 64 61 3 p.state.code ||| place 64 57 4 p.dim ||| place 64 45 12 p.peerCoord ||| place 64 41 4 p.peerPort |||
    place 64 37 4 p.reason ||| place 64 35 2 p.peerVariant ||| place 64 34 1 (bit p.mapChanged) ||| place 64 33 1 (bit p.lost) |||
    place 64 16 16 (min p.rttNs 65535)

/-- The number of the tick whose snapshot a bank holds, and its values. -/
def Counters.bank (c : Counters) (b : Nat) : Option Snap := if b = 0 then c.bank0 else if b = 1 then c.bank1 else c.bank2

def Counters.setBank (c : Counters) (b : Nat) (x : Option Snap) : Counters :=
  if b = 0 then { c with bank0 := x } else if b = 1 then { c with bank1 := x } else { c with bank2 := x }

/-- Events whose counts the model leaves out: they are times, or depend on timing or on data that the spec does not lay out (log 45). -/
def ctrOpen (hub : Bool) (cls ev : Nat) : Bool :=
  let within (rs : List (Nat × Nat)) : Bool := rs.any fun r => decide (r.1 ≤ ev ∧ ev ≤ r.2)
  if hub then
    match cls with
    | 0 => true
    | 1 => within [(0, 19), (40, 47), (52, 58), (64, 255)]
    | 2 => within [(0, 6), (23, 127)]
    | 3 => within [(18, 31)]
    | 6 => within [(7, 7)]
    | 7 => within [(4, 4), (8, 110)]
    | _ => false
  else
    match cls with
    | 0 => true
    | 1 => within [(6, 8), (24, 24)] || decide (32 ≤ ev) && [5, 6, 7, 8, 14, 15].contains (ev % 16)
    | 2 => within [(0, 3), (21, 21)]
    | 3 => within [(7, 8), (11, 12)]
    | 4 => true
    | 5 => within [(8, 10), (12, 12)]
    | 6 => within [(0, 16), (18, 18), (21, 21), (23, 30)]
    | 7 => within [(0, 1), (16, 207)]
    | 8 => within [(0, 1), (3, 3)]
    | 9 => true
    | _ => false

/-- A snapshot's top-down slots of a core: event of class 0x0, with the sums of R708. -/
def Snap.slot (x : Snap) (die core ev : Nat) : W64 :=
  let one (e : Nat) : W64 := Config.freeCounter x.free (ctrAddr die 0 (core * 16 + e))
  let sum (es : List Nat) : W64 := es.foldl (fun a e => a + one e) 0
  match ev with
  | 1 => sum [13, 14, 15]
  | 2 => sum [4, 5, 6, 7, 8, 9]
  | 3 => sum [10, 11, 12]
  | _ => one ev

/-- The value a snapshot holds for a counter (R712): its count, R711's sum for CYCLES, the rated life used, in millionths of 179.2 PB of user bytes written (R388), or a free
value for a count that the model leaves out. -/
def Snap.value (x : Snap) (a : Nat) : W64 :=
  let dom := (a >>> 18) % 16
  let cls := (a >>> 14) % 16
  let index := a % 2 ^ 14
  let stride := ((ctrClass (dom == 8) cls).map (·.2.2)).getD 1
  let ev := index % stride
  if dom ≠ 8 ∧ cls = 0 then x.slot dom (index / 16) ev
  else if dom ≠ 8 ∧ cls = 1 ∧ ev = 0 then
    ((x.slot dom (index / 128) 0 + x.slot dom (index / 128) 1) + x.slot dom (index / 128) 2) + x.slot dom (index / 128) 3
  else if dom = 8 ∧ cls = 9 ∧ ev = 2 then BitVec.ofNat 64 ((Sparse.get 0 x.vals (a - 2)).toNat * 5 / 896000000000)
  else if ctrOpen (dom == 8) cls ev then Config.freeCounter x.free a
  else Sparse.get 0 x.vals a

/-- The snapshot a port's window shows (R596). -/
def State.window (s : State) (p : Nat) : Option Snap := (s.hostPort p).shown.bind s.ctr.bank

/-- SNAP_CTL (R596). -/
def State.snapCtl (s : State) (p : Nat) : W64 :=
  place 64 63 1 (bit (s.hostPort p).snapHold) ||| place 64 0 63 (((s.window p).map (·.tick)).getD 0)

/-- TMUX_SEL reads 0 until the end of LOAD (R716). -/
def State.tmuxSel (s : State) : W64 := if s.img.loaded then s.tmux.sel else 0

/-- The mailbox registers (R668); zero while it is not served (R667). -/
def State.mailboxWord (s : State) (off : Nat) : W64 :=
  if !s.serving then 0
  else if off = 0x00 then s.mbx.hostAddr
  else if off = 0x08 then place 64 32 17 s.mbx.units ||| place 64 0 28 s.mbx.norOffset
  else if off = 0x18 then
    place 64 63 1 (bit s.mbx.busy) ||| place 64 62 1 (bit s.mbx.done) ||| place 64 48 8 s.mbx.result.toNat ||| place 64 0 17 s.mbx.doneUnits
  else if off = 0x20 then place 64 32 32 s.ident.romVersion.toNat ||| 1
  else 0

/-- Queue registers (R599); they read zero through the other port (R597). -/
def State.queueWord (s : State) (p q off : Nat) : W64 :=
  if s.ownerPort q ≠ p then 0
  else
    let x := s.queue q
    if off = 0 then place 64 12 52 x.sqBase.toNat
    else if off = 8 then place 64 12 52 x.cqBase.toNat
    else if off = 0x10 then
      place 64 63 1 (bit x.enable) ||| place 64 62 1 (bit x.error) ||| place 64 61 1 (bit x.progressIrq) |||
        place 64 48 11 x.msixVec.toNat ||| place 64 32 16 x.cqSize.toNat ||| place 64 16 16 x.sqSize.toNat |||
        place 64 8 8 (s.lotOf q) ||| place 64 7 1 1
    else
      place 64 48 16 x.sqHead ||| place 64 32 16 x.cqTail ||| place 64 31 1 (bit x.cqPhase) ||| place 64 0 16 x.outstanding

/-- The default of an MSI-X table entry: masked (log 14). -/
def msixReset : BitVec 128 := BitVec.ofNat 128 (2 ^ 96)

def State.msixEntry (s : State) (p v : Nat) : BitVec 128 := Sparse.get msixReset s.host.msixTable (p * 2048 + v)

/-- The 8-byte register at an aligned BAR0 offset, as port `p` reads it (R588). -/
def State.bar0Word (s : State) (p off : Nat) : W64 :=
  if off = 0x00 then s.ident.moduleId
  else if off = 0x08 then s.moduleInfo p
  else if off = 0x10 then s.hubStatus
  else if off = 0x20 then s.crewStatus
  else if off = 0x28 then BitVec.ofNat 64 s.tick.last
  else if off = 0x30 then BitVec.ofNat 64 (fld s.profile 0 64)
  else if off = 0x38 then BitVec.ofNat 64 (fld s.profile 64 64)
  else if off = 0x40 then place 64 0 6 (s.hostPort p).hostErr.toNat
  else if off = 0x48 then s.snapCtl p
  else if off = 0x50 then s.tmuxSel
  else if 0x1000 ≤ off ∧ off < 0x1060 then (s.port ((off - 0x1000) / 8)).status
  else if 0x2000 ≤ off ∧ off < 0x3000 then s.mailboxWord (off - 0x2000)
  else if 0x10000 ≤ off ∧ off < 0x18000 then
    BitVec.ofNat 64 (fld (s.msixEntry p ((off - 0x10000) / 16)) (64 * ((off / 8) % 2)) 64)
  else if 0x18000 ≤ off ∧ off < 0x18100 then
    BitVec.ofNat 64 ((List.range 64).foldl (fun a i =>
      a + bit (Sparse.get false s.host.msixPba (p * 2048 + (off - 0x18000) * 8 + i)) * 2 ^ i) 0)
  else if 0x800000 ≤ off ∧ off < 0x840000 then s.queueWord p ((off - 0x800000) / 32) (off % 32)
  else if 0x2000000 ≤ off ∧ off < 0x4000000 then
    let a := (off - 0x2000000) / 8
    if s.hasCounter a then ((s.window p).map (·.value a)).getD 0 else 0
  else 0

/-- A port completes accesses to BAR0: the main domain is on and the port is out of reset (R584, R585). -/
def State.bar0Open (s : State) (p : Nat) : Bool :=
  s.pwr.main == .on && decide (p < 2) && (s.hostPort p).link != .inReset

/-- An access that BAR0 registers accept (R589). -/
def accessOk (off size : Nat) : Bool := (size == 8 && off % 8 == 0) || (size == 4 && off % 4 == 0)

/-- The value read by an accepted access. -/
def State.bar0Read (s : State) (p off size : Nat) : W64 :=
  let w := s.bar0Word p (off / 8 * 8)
  if size = 8 then w else BitVec.ofNat 64 (fld w (8 * (off % 8)) 32)

/-! ### Writes of BAR0 -/

/-- Which bits of the 8-byte register an access writes, and the value in place. -/
def writeMask (off size : Nat) : W64 := if size = 8 then 0xFFFF_FFFF_FFFF_FFFF else place 64 (8 * (off % 8)) 32 0xFFFF_FFFF
def writeVal (off size : Nat) (v : W64) : W64 := if size = 8 then v else place 64 (8 * (off % 8)) 32 (fld v 0 32)

/-- A register's new value under a partial write. -/
def merge64 (old v m : W64) : W64 := (old &&& ~~~m) ||| (v &&& m)

/-- A write to SNAP_CTL changes only SNAP_HOLD; a 0 moves the window to the latest visible snapshot (R596). -/
def State.writeSnapHold (s : State) (p : Nat) (hold : Bool) : State :=
  let hp := s.hostPort p
  s.setHostPort p { hp with snapHold := hold, shown := if hold then hp.shown else s.ctr.latest }

/-- Pin selection `n` of a TMUX_SEL value (R715). -/
def tmuxPin (w : W64) (n : Nat) : Byte := BitVec.ofNat 8 (fld w (8 * n) 8)

/-- A TMUX_SEL write: each changed pin keeps its old selection until the change reaches it (R716). Until the end of LOAD the register
reads 0 and writes have no effect. -/
def State.writeTmux (s : State) (v m : W64) : State :=
  if !s.img.loaded then s
  else
    let new := merge64 s.tmux.sel v m
    let pins := (List.range 8).foldl (fun ps n =>
      if tmuxPin new n = tmuxPin s.tmux.sel n then ps
      else
        match Sparse.get .steady ps n with
        | .steady => Sparse.set .steady ps n (.old (tmuxPin s.tmux.sel n))
        | _ => ps) s.tmux.pins
    { s with tmux := { sel := new, pins := pins } }

/-- A W1C write to LINK_STATUSn (R520). -/
def State.clearLinkStatus (s : State) (n : Nat) (v : W64) : State :=
  let p := s.port n
  s.setPort n { p with mapChanged := p.mapChanged && !bitAt v 34, lost := p.lost && !bitAt v 33 }

/-- A W1C write to HOST_ERR (R595). -/
def State.clearHostErr (s : State) (p : Nat) (v : W64) : State :=
  let hp := s.hostPort p
  s.setHostPort p { hp with hostErr := hp.hostErr &&& ~~~(BitVec.ofNat 6 (fld v 0 6)) }

/-- A write to MB_HOST_ADDR or to the offset register (R668, R670). One to MB_OP that starts an operation is a row of its own, which carries what the
operation moves. -/
def State.writeMailbox (s : State) (p off : Nat) (v m : W64) : State :=
  if !s.serving || !(off == 0x00 || off == 0x08 || (off == 0x10 && s.mbx.busy && bitAt m 0)) then s
  else if s.mbx.busy then s.hostErr p 2
  else
    let w := merge64 (s.mailboxWord off) v m
    if off = 0 then { s with mbx := { s.mbx with hostAddr := putFld w 0 12 0 } }
    else { s with mbx := { s.mbx with units := fld w 32 17, norOffset := fld w 0 28 } }

/-- A write to an MSI-X table entry; unmasking a pending vector sends its message (PCIe; log 14). -/
def State.writeMsix (s : State) (p vec half : Nat) (v m : W64) : State :=
  let old := s.msixEntry p vec
  let w := merge64 (BitVec.ofNat 64 (fld old (64 * half) 64)) v m
  let new := putFld old (64 * half) 64 w.toNat
  let new := putFld new 97 31 0
  let s := { s with host := { s.host with msixTable := Sparse.set msixReset s.host.msixTable (p * 2048 + vec) new } }
  if !bitAt new 96 && Sparse.get false s.host.msixPba (p * 2048 + vec) then s.sendMsix p vec else s

/-- Set ENABLE: a queue that starts (R601). -/
def Queue.start (q : Queue) : Queue :=
  { q with enable := true, stopping := false, error := false, sqHead := 0, cqTail := 0, cqPhase := true, outstanding := 0,
           sqTail := 0, cqHead := 0 }

/-- Clear ENABLE: fetching stops at once; ENABLE reads 0 when nothing is outstanding (R601). -/
def Queue.stop (q : Queue) : Queue :=
  if !q.enable then q else if q.outstanding = 0 then { q with enable := false, stopping := false } else { q with stopping := true }

/-- The queue's control word at +0x10 after a write of its configuration fields, and whether the write was ignored in part (R600). -/
def Queue.configure (q : Queue) (w : W64) : Queue × Bool :=
  let vec := BitVec.ofNat 11 (fld w 48 11)
  let cq := BitVec.ofNat 16 (fld w 32 16)
  let sq := BitVec.ofNat 16 (fld w 16 16)
  let irq := bitAt w 61
  if q.enable then ({ q with progressIrq := irq }, vec != q.msixVec || cq != q.cqSize || sq != q.sqSize)
  else ({ q with progressIrq := irq, msixVec := vec, cqSize := cq, sqSize := sq }, false)

/-- A write to one of a queue's four registers (R597 to R601). -/
def State.writeQueue (s : State) (p qid off : Nat) (v m : W64) : State :=
  if s.ownerPort qid ≠ p ∨ 8192 ≤ qid then s
  else
    let q := s.queue qid
    let w := merge64 (s.queueWord p qid off) v m
    if off = 0 then
      let b := BitVec.ofNat 52 (fld w 12 52)
      if q.enable then (if b = q.sqBase then s else s.hostErr p 5) else s.setQueue qid { q with sqBase := b }
    else if off = 8 then
      let b := BitVec.ofNat 52 (fld w 12 52)
      if q.enable then (if b = q.cqBase then s else s.hostErr p 5) else s.setQueue qid { q with cqBase := b }
    else if off = 0x10 then
      let r := q.configure w
      let q := r.1
      let s := if r.2 then s.hostErr p 5 else s
      if !bitAt m 63 then s.setQueue qid q
      else if bitAt v 63 then
        if (s.sys.state = .run ∨ s.sys.state = .drain) ∧ q.sqSize ≠ 0 ∧ q.cqSize ≠ 0 then
          s.setQueue qid (if q.enable then q else q.start)
        else (s.setQueue qid q).hostErr p 5
      else s.setQueue qid q.stop
    else s

/-- A write to the submission half of a doorbell (R602). -/
def State.ringSq (s : State) (p qid : Nat) (v : W32) : State :=
  let s := (s.pcieCount p 9).pulse (0x82 + p)
  let q := s.queue qid
  if s.ownerPort qid ≠ p then (s.pcieCount p 10).hostErr p 1
  else if !q.enable then s.pcieCount p 10
  else if !bitAt v 16 then s
  else if q.sqSize.toNat < fld v 0 16 then (s.pcieCount p 10).hostErr p 0
  else s.setQueue qid { q with sqTail := fld v 0 16 }

/-- A write to the completion half of a doorbell (R602). -/
def State.ringCq (s : State) (p qid : Nat) (v : W32) : State :=
  let s := (s.pcieCount p 9).pulse (0x82 + p)
  let q := s.queue qid
  if s.ownerPort qid ≠ p then (s.pcieCount p 10).hostErr p 1
  else if !q.enable then s.pcieCount p 10
  else if !bitAt v 16 then s
  else if q.cqSize.toNat < fld v 0 16 then (s.pcieCount p 10).hostErr p 0
  else s.setQueue qid { q with cqHead := fld v 0 16 }

/-- An accepted write to BAR0 (R588). Registers without a case are read-only or reserved and ignore it (R18, R19). -/
def State.bar0Write (s : State) (p off size : Nat) (v : W64) : State :=
  let r := off / 8 * 8
  let m := writeMask off size
  let w := writeVal off size v
  if r = 0x18 then (if bitAt m 0 && fld w 0 8 == 0xA5 then s.resetToRom else s)
  else if r = 0x40 then s.clearHostErr p w
  else if r = 0x48 then (if bitAt m 63 then s.writeSnapHold p (bitAt w 63) else s)
  else if r = 0x50 then s.writeTmux w m
  else if 0x1000 ≤ r ∧ r < 0x1060 then s.clearLinkStatus ((r - 0x1000) / 8) w
  else if 0x2000 ≤ r ∧ r < 0x3000 then s.writeMailbox p (r - 0x2000) w m
  else if 0x10000 ≤ r ∧ r < 0x18000 then s.writeMsix p ((r - 0x10000) / 16) ((r / 8) % 2) w m
  else if 0x800000 ≤ r ∧ r < 0x840000 then s.writeQueue p ((r - 0x800000) / 32) (r % 32) w m
  else if 0x1000000 ≤ r ∧ r < 0x1010000 then
    let q := (r - 0x1000000) / 8
    let s := if bitAt m 0 then s.ringSq p q (BitVec.ofNat 32 (fld w 0 32)) else s
    if bitAt m 32 then s.ringCq p q (BitVec.ofNat 32 (fld w 32 32)) else s
  else s

/-! ### Commands on registers -/

/-- HUB_CONTROL_RESET (R593). -/
def execHubControlReset (port : Nat) (value : W64) (s : State) : Out :=
  when (s.bar0Open port) s (s.bar0Write port 0x18 8 value)

/-- PERST_ASSERT: the port alone is reset (R587). -/
def execPerstAssert (port : Nat) (s : State) : Out :=
  needPart (port < 2) "PCIe port"
    (let s' := (s.portReset port).pcieCount port 8
     .next (s'.setHostPort port { s'.hostPort port with link := .inReset, perstN := false, rate := 0, width := 0 }))

/-- PERST_DEASSERT: the port answers configuration requests, at first with retry status (R584), and its Link Status reports what the link has negotiated
(R582). With the main domain off it does so from power good on (R731). -/
def execPerstDeassert (port : Nat) (s : State) : Out :=
  needPart (port < 2) "PCIe port" (.next ((s.setHostPort port { s.hostPort port with perstN := true }).answerPort port))

/-- FUNCTION_LEVEL_RESET (R587). -/
def execFunctionLevelReset (port : Nat) (s : State) : Out :=
  needPart (port < 2) "PCIe port" (when (s.bar0Open port) s ((s.portReset port).pcieCount port 7))

/-- BAR0_BAD_ACCESS: completes with all ones for a read, ignores a write, and sets HOST_ERR.ACCESS (R589). An access that R589 accepts is
carried out instead. -/
def execBar0BadAccess (port : Nat) (isWrite : Bool) (offset size : Nat) (s : State) : Out :=
  when (s.bar0Open port) s
    (if accessOk offset size then
      (if isWrite then s else { s with host := { s.host with lastRead := s.bar0Read port offset size } })
    else
      let s' := s.hostErr port 2
      if isWrite then s' else { s' with host := { s'.host with lastRead := 0xFFFF_FFFF_FFFF_FFFF } })

/-- DOORBELL_SQ: a 4-byte write to the low half of a doorbell (R602). -/
def execDoorbellSq (port qid : Nat) (value : W32) (s : State) : Out :=
  when (s.bar0Open port && decide (qid < 8192)) s (s.ringSq port qid value)

/-- DOORBELL_CQ: a 4-byte write to the high half of a doorbell (R602). -/
def execDoorbellCq (port qid : Nat) (value : W32) (s : State) : Out :=
  when (s.bar0Open port && decide (qid < 8192)) s (s.ringCq port qid value)

/-- BAR0 offset of a queue's control word. -/
def queueCtl (qid : Nat) : Nat := 0x800000 + 32 * qid + 0x10

/-- QUEUE_ENABLE: a write of the control word with ENABLE = 1 (R600, R601). -/
def execQueueEnable (port qid : Nat) (value : W64) (s : State) : Out :=
  when (s.bar0Open port && decide (qid < 8192)) s (s.bar0Write port (queueCtl qid) 8 (putFld value 63 1 1))

/-- QUEUE_DISABLE: a write of the control word with ENABLE = 0 (R601). -/
def execQueueDisable (port qid : Nat) (value : W64) (s : State) : Out :=
  when (s.bar0Open port && decide (qid < 8192)) s (s.bar0Write port (queueCtl qid) 8 (putFld value 63 1 0))

/-- HOST_ERR_CLEAR (R595). -/
def execHostErrClear (port : Nat) (value : W64) (s : State) : Out :=
  when (s.bar0Open port) s (s.clearHostErr port value)

/-- SNAP_HOLD_SET (R596). -/
def execSnapHoldSet (port : Nat) (s : State) : Out := when (s.bar0Open port) s (s.writeSnapHold port true)

/-- SNAP_HOLD_RELEASE (R596). -/
def execSnapHoldRelease (port : Nat) (s : State) : Out := when (s.bar0Open port) s (s.writeSnapHold port false)

/-- TMUX_SEL_WRITE (R716). -/
def execTmuxSelWrite (port : Nat) (value : W64) (s : State) : Out :=
  when (s.bar0Open port) s (s.writeTmux value 0xFFFF_FFFF_FFFF_FFFF)

/-- TMUX_SWITCH: 40 ns after a change the pin drives low for one interval, and then shows the new selection (R716). -/
def execTmuxSwitch (pin : Nat) (s : State) : Out :=
  needPart (pin < 8) "TMUX pin"
    (match Sparse.get .steady s.tmux.pins pin with
     | .steady => .next s
     | .old _ => .next { s with tmux := { s.tmux with pins := Sparse.set .steady s.tmux.pins pin .low } }
     | .low => .next { s with tmux := { s.tmux with pins := Sparse.set .steady s.tmux.pins pin .steady } })

/-- LINK_STATUS_CLEAR (R520). -/
def execLinkStatusClear (port n : Nat) (value : W64) (s : State) : Out :=
  needPart (n < 12) "optical port" (when (s.bar0Open port) s (s.clearLinkStatus n value))

/-- REGISTER_WRITE: any accepted or refused write to BAR0 (R589, R600). -/
def execRegisterWrite (port offset size : Nat) (value : W64) (s : State) : Out :=
  when (s.bar0Open port) s
    (if accessOk offset size then s.bar0Write port offset size value else s.hostErr port 2)

/-! ### The recovery mailbox (R667 to R670) -/

/-- The range of the operation is within the NOR (R669). -/
def Mailbox.rangeOk (m : Mailbox) : Bool := m.units != 0 && decide (m.norOffset + 4096 * m.units ≤ 2 ^ 28)

/-- Starting an operation clears DONE and MB_DONE_UNITS and sets BUSY (R670). -/
def State.startMailbox (s : State) (result : Byte) (units off : Nat) (data : List Byte) : State :=
  { s.hubCount 7 7 with
    mbx := { s.mbx with busy := true, done := false, doneUnits := 0, nextResult := result, nextDoneUnits := units,
                        nextOff := off, nextData := data } }

/-- A write to MB_OP: ignored while the mailbox is not served, an ACCESS error while BUSY (R667, R670). -/
def State.mailboxOp (s : State) (port : Nat) (f : State) : Out :=
  .next (if !s.bar0Open port || !s.serving then s else if s.mbx.busy then s.hostErr port 2 else f)

/-- MAILBOX_READ: the NOR range goes to the host buffer, up to the first unit whose write ends in a PCIe error (R669). -/
def execMailboxRead (port : Nat) (failUnit : Option Nat) (s : State) : Out :=
  s.mailboxOp port
    (if !s.mbx.rangeOk then s.startMailbox 1 0 0 []
     else
       let n := min s.mbx.units (failUnit.getD s.mbx.units)
       let s' := s.hostWrite port s.mbx.hostAddr.toNat (norBytes s.nor s.mbx.norOffset (4096 * n))
       s'.startMailbox (if n < s.mbx.units then 2 else 0) n 0 [])

/-- MAILBOX_WRITE: the NOR range is erased and programmed from the host buffer with read-back (R669). What stands in the range until the
operation ends, and in units it does not complete, is not stated: free values (log 8). -/
def execMailboxWrite (port : Nat) (data : List Byte) (failUnit badUnit : Option Nat) (s : State) : Out :=
  s.mailboxOp port
    (if !s.mbx.rangeOk then s.startMailbox 1 0 0 []
     else
       let n := min s.mbx.units (failUnit.getD s.mbx.units)
       let k := min n (badUnit.getD n)
       let res : Byte := if k < n then 3 else if n < s.mbx.units then 2 else 0
       (s.norScramble s.mbx.norOffset (4096 * s.mbx.units)).startMailbox res k s.mbx.norOffset
         ((data ++ List.replicate (4096 * k - data.length) 0).take (4096 * k)))

/-- MAILBOX_RESTART: clears ROM_HOLD and resets the module (R629, R669). -/
def execMailboxRestart (port : Nat) (s : State) : Out :=
  s.mailboxOp port (({ s.hubCount 7 7 with smb := { s.smb with romHold := false } }).resetToRom)

/-- MAILBOX_RESERVED_OP: ends with MB_RESULT 0x04 (R669). The operations 0x01 to 0x03 have rows of their own. -/
def execMailboxReservedOp (port : Nat) (op : Byte) (s : State) : Out :=
  s.mailboxOp port
    (if op = 1 ∨ op = 2 ∨ op = 3 then s
     else { s.hubCount 7 7 with mbx := { s.mbx with busy := false, done := true, doneUnits := 0, result := 4 } })

/-- MAILBOX_DONE: the running operation ends (R668, R670). -/
def execMailboxDone (s : State) : Out :=
  when s.mbx.busy s
    { s with nor := norWrite s.nor s.mbx.nextOff s.mbx.nextData,
             mbx := { s.mbx with busy := false, done := true, result := s.mbx.nextResult, doneUnits := s.mbx.nextDoneUnits,
                                 nextOff := 0, nextData := [], nextResult := 0, nextDoneUnits := 0 } }

/-! ### PCIe configuration space (R583) -/

/-- What each port presents in configuration space. -/
structure PcieFunction where
  functions    : Nat
  deviceId     : BitVec 16
  classCode    : BitVec 24
  bar0Bytes    : Nat
  tagBits      : Nat
  maxPayload   : Nat
  maxRead      : Nat
  msixVectors  : Nat
  deriving DecidableEq, Repr

/-- The device ID that a variant's ports present. -/
def Variant.deviceId : Variant → BitVec 16
  | .zf8 => 0x0F08
  | .zf4 => 0x0F04
  | .zf2 => 0x0F02

/-- The capabilities of R583: one physical function with one 64-bit non-prefetchable BAR, 14-bit tags, MSI-X and no MSI or INTx. -/
def Variant.pcieFunction (v : Variant) : PcieFunction :=
  { functions := 1, deviceId := v.deviceId, classCode := 0x120000, bar0Bytes := 2 ^ 26, tagBits := 14, maxPayload := 512, maxRead := 4096,
    msixVectors := 2048 }

/-! ### SMBus (R629, R737, R738) -/

/-- Command codes of registers that are read-only (R738). -/
def smbusReadOnly (code : Byte) : Bool :=
  code == 0 || code == 8 || code == 9 || (0x10 ≤ code && code ≤ 0x12) || (0x20 ≤ code && code ≤ 0x2B)

/-- The highest of a list of readings; 0 where there is none. -/
def hottest : List Int → Int
  | [] => 0
  | t :: ts => ts.foldl max t

/-- A reading in tenths of a degree as a byte of whole degrees (DEDUCED, log 25). -/
def degreeByte (t : Int) : Byte := BitVec.ofInt 8 (t / 10)

/-- The bytes that the management target returns for a command code, least significant first (R738). IIN is a measurement that no row carries: a free
value (log 25). -/
def State.smbusRead (s : State) (code : Byte) : List Byte :=
  let on := s.pwr.main == .on
  let t := s.therm
  if !s.pwr.standby then []
  else if code = 0x00 then leBytes 8 s.ident.moduleId.toNat
  else if code = 0x08 then [BitVec.ofNat 8 s.ident.variant.code]
  else if code = 0x09 then [if on then BitVec.ofNat 8 s.sys.state.code else 0xF]
  else if code = 0x10 then leBytes 2 s.pwr.vin.toNat
  else if code = 0x40 then [BitVec.ofNat 8 (bit s.smb.romHold)]
  else if !on then (if code = 0x11 ∨ code = 0x12 then [0, 0] else [0])
  else if code = 0x11 then leBytes 2 (Config.freeWord s.freeIx).toNat
  else if code = 0x12 then leBytes 2 t.watts
  else if code = 0x20 then [degreeByte t.face]
  else if 0x21 ≤ code ∧ code ≤ 0x28 then [degreeByte (((t.dies[code.toNat - 0x21]?).map fun d => hottest d.junction).getD 0)]
  else if code = 0x29 then [degreeByte t.hub]
  else if code = 0x2A then [degreeByte (hottest (t.dies.flatMap (·.hbm)))]
  else if code = 0x2B then [degreeByte t.nand]
  else [0]

/-- SMBUS_RECOVERY_WRITE: a byte write to the management target; a wrong PEC, and a write to an unlisted code, are NACKed. -/
def execSmbusRecoveryWrite (code value : Byte) (pec : Option Byte) (s : State) : Out :=
  if !s.pwr.standby then .next s
  else
    let good := match pec with
      | none => true
      | some p => p == smbusPec [0xB8, code, value]
    if !good then .next { s with smb := { s.smb with lastAck := false } }
    else if code = 0x40 then .next { s with smb := { romHold := value.getLsbD 0, lastAck := true } }
    else .next { s with smb := { s.smb with lastAck := smbusReadOnly code } }

/-! ### Fetching submission entries (R603 to R605) -/

/-- The queue that the port's fetch engine visits next: the first fetchable one at or after its place, in ascending number, round robin
(R604). -/
def State.nextQueue (s : State) (p : Nat) : Option Nat :=
  let ks := (s.host.queues.filter fun e => decide (s.ownerPort e.1 = p) && decide (0 < e.2.fetchable)).map Prod.fst
  match ks.find? fun k => decide ((s.hostPort p).rr ≤ k) with
  | some k => some k
  | none => ks.head?

/-- Commands in this module's merge (R604). -/
def State.mergeCount (s : State) : Nat := (s.reqs.filter fun r => r.inMerge && r.coord == s.crew.coord).length

/-- One fetched entry becomes a command of the merge (R82, R604). -/
def State.arrive (s : State) (p qid : Nat) (e : Entry) : State :=
  let r : Req := { rid := s.host.nextRid, port := p, qid := qid, coord := s.crew.coord, cid := BitVec.ofNat 16 e.cid,
                   opcode := BitVec.ofNat 8 e.opcode, entry := e, arrival := s.host.nextArrival,
                   stage := if s.tick.phase = .checkAndCommit then .next else .merge,
                   handle := e.handle, lot := s.lotOf qid,
                   target := if e.opcode = 5 then (s.reqs.find? fun q => q.coord == s.crew.coord && q.qid == e.targetQid &&
                     q.cid.toNat == e.targetCid && q.live).map (·.rid) else none }
  let q := s.queue qid
  let s := s.setQueue qid { q with sqHead := if q.sqHead + 1 > q.sqSize.toNat then 0 else q.sqHead + 1,
                                   outstanding := q.outstanding + 1 }
  (({ s with reqs := s.reqs ++ [r],
             host := { s.host with nextRid := s.host.nextRid + 1, nextArrival := s.host.nextArrival + 1 } }).pcieCount p 11).crewCount 42

/-- SUBMISSION_FETCH: the port's engine takes up to 8 entries of the queue it visits (R585, R603, R604), or the read ends in a PCIe error
(R605). -/
def execSubmissionFetch (port qid : Nat) (entries : List (BitVec 512)) (pcieError : Bool) (s : State) : Out :=
  let n := entries.length
  when (s.sys.state == .run && s.crew.member && s.nextQueue port == some qid) s
    (if pcieError then
      (s.setQueue qid { s.queue qid with error := true }).hostErr port 3
    else if 1 ≤ n ∧ n ≤ 8 ∧ n ≤ (s.queue qid).fetchable ∧ s.mergeCount + n ≤ 65536 then
      let s' := entries.foldl (fun s e => s.arrive port qid e) s
      let s' := s'.setHostPort port { s'.hostPort port with rr := qid + 1 }
      s'.pcieCount port 15 (64 * n)
    else s)

/-! ### Snapshots (R596, R713) -/

/-- The bank that takes the next snapshot: held by no port, not being read, and not the one last filled while another is free (R713). -/
def State.freeBank (s : State) : Option Nat :=
  let held (p : Nat) : Option Nat := if (s.hostPort p).snapHold then (s.hostPort p).shown else none
  let free := (List.range 3).filter fun b => held 0 != some b && held 1 != some b && s.ctr.reading != some b
  match free.find? fun b => s.ctr.latest != some b with
  | some b => some b
  | none => free.head?

/-- SNAPSHOT_TRANSFER: the latched counters become the visible snapshot (R712, R713); windows that are not held follow it (R596). -/
def execSnapshotTransfer (s : State) : Out :=
  match s.ctr.latched, s.freeBank with
  | some x, some b =>
    let follow (hp : HostPort) : HostPort := if hp.snapHold then hp else { hp with shown := some b }
    .next { s with ctr := { s.ctr.setBank b (some x) with latched := none, latest := some b },
                   host := { s.host with port0 := follow s.host.port0, port1 := follow s.host.port1 } }
  | _, _ => .next s

end Sys2Proof.Machine
end

