-- ==== Sys2Proof/Machine/VecIndex.lean ====
section
/-! DEFINITION. Vector indexes: codes, distances, liveness, and the edits that inserts and deletes stage (R428 to R463). -/

namespace Sys2Proof.Machine

/-- The index with an INDEX_ID defined on this module, in force. -/
def State.index (s : State) (id : Nat) : Option VIndex := s.vidx.find? fun x => ixId x.record == id

def State.updIndex (s : State) (id : Nat) (f : VIndex → VIndex) : State :=
  { s with vidx := s.vidx.map fun x => if ixId x.record = id then f x else x }

/-- The record number of an index, for its counters (R705 class 0x8). -/
def State.indexCount (s : State) (id ev : Nat) (n : Nat := 1) : State :=
  s.hubCount 8 (s.vidx.findIdx (fun x => ixId x.record == id) * 16 + ev) n

/-- Index bytes written to flash (R388, R462, R705): user bytes, NAND bytes and index bytes. -/
def State.indexBytes (s : State) (n : Nat) : State := ((s.hubCount 9 0 n).hubCount 9 1 n).hubCount 9 7 n

/-- The index is served here: defined, and not offline (R434, R435). -/
def State.homed (s : State) (id : Nat) : Bool := s.vidx.any fun x => ixId x.record == id && !x.offline

/-- The coordinate of an index's home among the members in RUN (R434). -/
def State.homeOf (s : State) (id : Nat) : Option Nat :=
  if s.homed id then some s.crew.coord
  else (s.crew.homes.find? fun h => h.1 == id && h.2 != s.crew.coord && s.crew.members.any fun m => m.coord == h.2).map Prod.snd

/-- Centroid `c` of subspace `m` (R437). -/
def centroid (book : List Byte) (m c : Nat) : Nat := leNat (slice book (4 * (256 * m + c)) 4)

/-- Bits that differ between two 32-bit words. -/
def hamming32 (a b : Nat) : Nat := popcount (BitVec.ofNat 32 (a ^^^ b))

/-- The centroid of subspace `m` nearest a word; ties to the lower index (R438). -/
def nearest (book : List Byte) (m w : Nat) : Nat :=
  ((List.range 256).foldl (fun (b : Nat × Nat) c =>
    let d := hamming32 w (centroid book m c)
    if d < b.1 then (d, c) else b) (33, 0)).2

/-- The code of a sketch of `n` words (R436, R438). -/
def encodeSketch (book sketch : List Byte) (n : Nat) : List Byte :=
  (List.range n).map fun m => BitVec.ofNat 8 (nearest book m (leNat (slice sketch (4 * m) 4)))

/-- The query table T (R439). -/
def queryTable (book query : List Byte) (n : Nat) : List (List Nat) :=
  (List.range n).map fun m => (List.range 256).map fun c => hamming32 (leNat (slice query (4 * m) 4)) (centroid book m c)

/-- The distance of a stored code under a query table (R439). -/
def codeDist (t : List (List Nat)) (code : List Byte) : Nat :=
  ((List.range t.length).map fun m => ((t[m]?.getD [])[(code[m]?.getD 0).toNat]?).getD 0).foldl (· + ·) 0

/-- The distance between two stored codes (R440). -/
def codeDist2 (book : List Byte) (n : Nat) (a b : List Byte) : Nat :=
  ((List.range n).map fun m =>
    hamming32 (centroid book m (a[m]?.getD 0).toNat) (centroid book m (b[m]?.getD 0).toNat)).foldl (· + ·) 0

/-- Entries in the side list, staged ones included. -/
def VIndex.sideCount (x : VIndex) : Nat := x.side.length + x.staged.length

/-- The lowest free slot of the side list (log 42). -/
def VIndex.freeSlot (x : VIndex) : Nat :=
  ((List.range (x.side.length + 1)).find? fun n => !(x.side.any fun e => e.slot == n)).getD 0

/-- The side entry of an insert in tick `t` (R457). -/
def VIndex.newInsert (x : VIndex) (t : Nat) (vec : W64) (code : List Byte) : SideEnt := ⟨x.entryCtr, vec, t, true, code, x.freeSlot⟩

/-- The side entry of a delete of a live entry in tick `t` (R459). -/
def VIndex.newDelete (x : VIndex) (t : Nat) (vec : W64) (entry : Nat) : SideEnt := ⟨entry, vec, t, false, [], x.freeSlot⟩

/-- A side entry takes effect: an insert is live, a delete enters the tombstone set (R457, R459, R463). -/
def VIndex.append (x : VIndex) (e : SideEnt) : VIndex :=
  if e.isInsert then
    { x with side := x.side ++ [e], live := x.live ++ [(e.vecId, e.entry)], entryCtr := (x.entryCtr + 1) % 2 ^ 40 }
  else { x with side := x.side ++ [e], live := x.live.filter (fun l => l.1 ≠ e.vecId), tombs := x.tombs ++ [(e.entry, e.tick)] }

/-! ### Flash and HBM frames of an index (R431, R441 to R443, R463) -/

/-- Flash frames of one node area (R431). -/
def areaFrames (r : BitVec 128) : Nat := frames (ixMaxNodes r * recSize r)

/-- Bytes at a fixed length. -/
def fit (n : Nat) (bs : List Byte) : List Byte := (bs ++ List.replicate (n - bs.length) 0).take n

/-- A node record in its slot of S_rec bytes (R441, R442); the codes at and beyond NDEG and the slot's unused bytes are zero (log 42). -/
def Node.bytes (r : BitVec 128) (g : List Node) (n : Node) : List Byte :=
  let h : BitVec 256 := place 256 216 40 n.entry ||| place 256 152 64 n.vecId.toNat ||| place 256 144 8 n.nbrs.length
  let code (i : Nat) : List Byte := ((n.nbrs[i]?.bind fun k => g[k]?).map (·.code)).getD []
  fit (recSize r) (leBytes 32 h.toNat ++ ((List.range (ixDegree r)).flatMap fun i => leBytes 4 (n.nbrs[i]?.getD 0xFFFF_FFFF)) ++
    ((List.range (ixDegree r)).flatMap fun i => fit (ixM r) (code i)) ++ fit (ixM r) n.code)

/-- A side-list entry (R443). -/
def SideEnt.bytes (e : SideEnt) : List Byte :=
  let h : BitVec 512 := place 512 472 40 e.entry ||| place 512 408 64 e.vecId.toNat ||| place 512 344 64 e.tick |||
    place 512 342 2 (if e.isInsert then 1 else 2) ||| place 512 0 256 (leNat e.code)
  leBytes 64 h.toNat

/-- A side entry is written to its slot (R441, R462). -/
def State.writeEntry (s : State) (id : Nat) (e : SideEnt) : State :=
  match s.index id with
  | some x => s.flashPut ((x.base + 2 * areaFrames x.record) * 16384 + 64 * e.slot) e.bytes
  | none => s

/-- A generation is written to the node area that is idle (R441, R465). -/
def State.writeNodes (s : State) (x : VIndex) : State :=
  match x.built with
  | some g => s.flashPut ((x.base + (x.gen + 1) % 2 * areaFrames x.record) * 16384) (g.flatMap (Node.bytes x.record g))
  | none => s

/-- A codebook is written to the copy that is not current (R431, R471). -/
def State.writeBook (s : State) (x : VIndex) : State :=
  let r := x.record
  let at' := x.base + indexFrames r - 2 * frames (1024 * ixM r) + (x.bookGen + 1) % 2 * frames (1024 * ixM r)
  match x.idleBook with
  | some b => s.flashPut (at' * 16384) b
  | none => s

/-- What the LOT field holds for a frame charged to no lot. -/
def noLot : Nat := 256

/-- A tombstone set grows by one HBM frame, the lowest free one, charged as `lot` says (R463; log 13). -/
def State.growTombs (id : Nat) (s : State) (lot : Nat) : State :=
  match (List.range s.nStacks).findSome? s.lowestFree with
  | some f => (s.setHbmEnt f { inUse := true, refcount := 1, lot := lot }).updIndex id fun x => { x with frames := x.frames ++ [f] }
  | none => s

/-- A tombstone set has the frames that its deletes need, 16 bytes each (R463). -/
def State.settleTombs (s : State) (x : VIndex) : State :=
  let n := ceilDiv x.tombs.length 1024
  let s := (x.frames.drop n).foldl (fun (s : State) f => s.setHbmEnt f {}) s
  let s := s.updIndex (ixId x.record) fun x => { x with frames := x.frames.take n }
  (List.replicate (n - x.frames.length) noLot).foldl (State.growTombs (ixId x.record)) s

end Sys2Proof.Machine
end

