-- ==== Sys2Proof/Machine/Commands.lean ====
section
/-! DEFINITION. The host commands (R606 to R621) as the merge decodes them in their tick: field checks, data read from host memory, and what is
staged for the commit. Their effects at the commit are in Commit.lean. -/

namespace Sys2Proof.Machine

/-! ### Decoding -/

/-- A command of the merge that its row may take: it waits for the current tick, or is held (R604). -/
def Req.takeable (r : Req) : Bool := r.stage == .merge || r.stage == .held

/-- Decode the command `rid` with the given opcode: an entry that breaks R608 completes with INVALID_FIELD, and `f` stages any other. -/
def State.decodeCmd (s : State) (rid : Nat) (op : Byte) (f : Req → State) : Out :=
  match s.req rid with
  | some r =>
    when (s.ticking && r.opcode == op && r.takeable) s
      (if Entry.fieldsOk r.entry then f r else s.updReq rid fun r => r.fail 4)
  | none => .next s

/-- Stage the command for the commit. -/
def State.stageCmd (s : State) (rid : Nat) : State := s.updReq rid fun r => { r with stage := .staged }

/-- The command waits in the merge (R93, R461, R473, R618, R663). -/
def State.holdCmd (s : State) (rid : Nat) : State := s.updReq rid fun r => { r with stage := .held }

/-- A command that arrived earlier, of those that `p` picks, still waits in the merge: they go in arrival order (R461, R620, R663). -/
def State.heldBefore (s : State) (rid : Nat) (p : Req → Bool) : Bool := (s.reqs.takeWhile fun x => x.rid != rid).any fun x => x.stage == .held && p x

/-- Read a command's data: HOST_ACCESS on a PCIe error (R605). -/
def State.readData (s : State) (r : Req) (n : Nat) (data : HostRead) (f : List Byte → State → State) : State :=
  match data with
  | none => s.updReq r.rid fun r => r.fail 0x12
  | some bs =>
    f (fit n bs) ((if r.coord = s.crew.coord then s.pcieCount r.port 15 n else s).updReq r.rid fun r =>
      { r with data := fit n bs, dataRead := true })

/-! ### Sequence commands -/

/-- OPEN_SEQ (R613). -/
def execOpenSeq (rid : Nat) (s : State) : Out := s.decodeCmd rid 0x01 fun _ => s.stageCmd rid

/-- FORK (R328). -/
def execFork (rid : Nat) (s : State) : Out := s.decodeCmd rid 0x04 fun _ => s.stageCmd rid

/-- ABORT (R626). -/
def execAbort (rid : Nat) (s : State) : Out := s.decodeCmd rid 0x05 fun _ => s.stageCmd rid

/-- CLOSE (R619). -/
def execClose (rid : Nat) (s : State) : Out := s.decodeCmd rid 0x06 fun _ => s.stageCmd rid

/-- An admitted work command that has still to read its data. -/
def Req.reading (r : Req) : Bool := r.stage == .admitted && !r.dataRead

/-- Every token identifier lies below the vocabulary size (R615, R617). -/
def State.tokensOk (s : State) (bs : List Byte) : Bool := (leWords 4 bs).all fun t => decide (t < s.vocab)

/-- Tokens of a byte list. -/
def tokensOf (bs : List Byte) : List W32 := (leWords 4 bs).map (BitVec.ofNat 32)

/-- The first tick of an APPEND's admitted work: it reads its tokens, which enter the log at the commit (R615). -/
def State.appendTokens (s : State) (r : Req) (data : HostRead) : State :=
  s.readData r (4 * r.e.w4) data fun bs s =>
    match s.seq r.handle with
    | none => s
    | some q =>
      if !s.tokensOk bs then s.updReq r.rid fun r => r.fail 6
      else if q.lMax < q.log.length + r.e.w4 then s.updReq r.rid fun r => r.fail 8
      else
        (s.updSeq r.handle fun q => { q with logStaged := tokensOf bs }).updReq r.rid fun r =>
          { r with needed := q.log.length + r.e.w4 }

/-- APPEND: decoded in its tick, and read in the first tick of its admitted work (R615). -/
def execAppend (rid : Nat) (data : HostRead) (s : State) : Out :=
  match s.req rid with
  | some r =>
    if r.opcode == 2 && r.reading then when s.ticking s (s.appendTokens r data)
    else s.decodeCmd rid 0x02 fun _ => s.stageCmd rid
  | none => .next s

/-- GENERATE: decoded in its tick; the drafts are read in the first tick of its admitted work (R617). -/
def execGenerate (rid : Nat) (drafts : HostRead) (s : State) : Out :=
  match s.req rid with
  | some r =>
    if r.opcode == 3 && r.reading then
      when s.ticking s
        (if r.e.drafts = 0 then s.updReq rid fun r => { r with dataRead := true }
         else s.readData r (4 * r.e.drafts) drafts fun bs s =>
           if s.tokensOk bs then s else s.updReq rid fun r => r.fail 6)
    else s.decodeCmd rid 0x03 fun _ => s.stageCmd rid
  | none => .next s

/-! ### LOAD_WEIGHTS (R380, R618, R654 to R656) -/

/-- Every block of a layer has been written since it became poisoned (R403). -/
def State.layerHealed (s : State) (l : Nat) : Bool :=
  decide (s.wt.header ≠ []) && (layerBlocks s.layers s.wt.header l).all fun b => s.wt.written.contains (l, b)

/-- A layer is poisoned for the crew (R401, R403, R679). -/
def State.poisoned (s : State) (l : Nat) : Bool := s.wt.poisoned.contains l

/-- The header as it will stand after the load: the blocks of `bs` over what is stored, HDR_BLOCKS long. -/
def newHeader (old bs : List Byte) : List Byte :=
  let h := bs ++ old.drop bs.length
  h.take (16384 * whBlocks h)

/-- Work admitted on this module (R618). -/
def State.hasWork (s : State) : Bool := s.reqs.any fun r => r.isWork && (r.stage == .admitted)

/-- Write the blocks of a LOAD_WEIGHTS to the authoritative copy and to the mirror that this member holds: every member's copies take the same weight image (R380,
R398, R618). -/
def State.writeWeights (s : State) (r : Req) (bs : List Byte) : State :=
  let first := r.e.w4
  let n := r.e.w5
  let s := { s with wt := { s.wt with
    data := Mem.write s.wt.data (first * 16384) bs
    mirror := Mem.write s.wt.mirror (first * 16384) bs
    header := if first = 0 then newHeader s.wt.header bs
              else if first < whBlocks s.wt.header then
                (s.wt.header.take (16384 * first) ++ bs ++ s.wt.header.drop (16384 * (first + n))).take s.wt.header.length
              else s.wt.header } }
  (((s.hubCount 9 6 (2 * n)).hubCount 9 0 (2 * n * 16384)).hubCount 9 1 (2 * n * 16384)).stageCmd r.rid

/-- A LOAD_WEIGHTS whose data has been read: the header and range checks come before anything is written (R656). -/
def State.loadBlocks (s : State) (r : Req) (bs : List Byte) : State :=
  let first := r.e.w4
  let n := r.e.w5
  let h := if first = 0 then newHeader s.wt.header bs else s.wt.header
  if h = [] ∨ whTotal h < first + n ∨ (first = 0 ∧ !weightHeaderOk s.img.model s.img.modelDigest h) then
    s.updReq r.rid fun r => { r with stage := .finishing, status := 4, data := [] }
  else s.writeWeights r bs

/-- LOAD_WEIGHTS: waits in the merge until no admitted APPEND or GENERATE remains, then writes its blocks (R618). One row stands for the
whole transfer, in the tick in which its last flash write completes (R380; log 6). -/
def execLoadWeights (rid : Nat) (data : HostRead) (s : State) : Out :=
  s.decodeCmd rid 0x07 fun r =>
    if s.sys.flashRo then s.updReq rid fun r => r.fail 0xC
    else if s.hasWork then s.holdCmd rid
    else s.readData r (16384 * r.e.w5) data fun bs s => s.loadBlocks r bs

/-! ### Policy commands -/

/-- SET_QUOTA_LOT: KIND 0 (R422). -/
def execSetQuotaLot (rid : Nat) (s : State) : Out :=
  s.decodeCmd rid 0x08 fun r => if r.e.kind then s else s.stageCmd rid

/-- SET_QUOTA_QUEUE_MAP: KIND 1 (R414). -/
def execSetQuotaQueueMap (rid : Nat) (s : State) : Out :=
  s.decodeCmd rid 0x08 fun r => if r.e.kind then s.stageCmd rid else s

/-- SET_PROFILE (R573). -/
def execSetProfile (rid : Nat) (s : State) : Out := s.decodeCmd rid 0x09 fun _ => s.stageCmd rid

/-! ### Index commands (R434, R445, R457 to R461, R471 to R473) -/

/-- A command on an index: INDEX_OFFLINE where no member in RUN holds it; one that another member holds is forwarded; `f` runs here. -/
def State.onIndex (s : State) (r : Req) (f : VIndex → State) : State :=
  match s.homeOf r.e.indexId with
  | none => s.updReq r.rid fun r => r.fail 0xD
  | some c =>
    if c ≠ s.crew.coord then s.stageCmd r.rid
    else
      match s.index r.e.indexId with
      | some x => f x
      | none => s.updReq r.rid fun r => r.fail 0xD

/-- The command inserts into an index or deletes from it. -/
def Req.edits (r : Req) (id : Nat) : Bool := (r.opcode == 0xB || (r.opcode == 0xA && !r.e.codebook)) && r.e.indexId == id

/-- Staged edits of an index in this tick. -/
def State.stagedOn (s : State) (id : Nat) : Nat := (s.reqs.filter fun r => r.stage == .staged && r.edits id).length

/-- An edit of an index waits: its side list is full, or an edit that arrived earlier waits (R461). -/
def State.editWaits (s : State) (rid id : Nat) (x : VIndex) : Bool :=
  decide (ixSideMax x.record ≤ x.side.length + s.stagedOn id) || s.heldBefore rid fun r => r.edits id

/-- VEC_INSERT: the sketch is encoded with the current codebook, and the append is staged (R457). It waits while the side list is full
(R461). -/
def execVecInsert (rid : Nat) (data : HostRead) (s : State) : Out :=
  s.decodeCmd rid 0x0A fun r =>
    if r.e.codebook then s
    else if s.sys.flashRo then s.updReq rid fun r => r.fail 0xC
    else s.onIndex r fun x =>
      if s.editWaits rid r.e.indexId x then s.holdCmd rid
      else
        let m := ixM x.record
        s.readData r (4 * m) data fun bs s =>
          s.updReq rid fun r => { r with data := encodeSketch x.codebook bs m, stage := .staged }

/-- CODEBOOK_RELOAD: fills the idle codebook generation; it waits while a merge of the index runs (R471, R473). -/
def execCodebookReload (rid : Nat) (data : HostRead) (s : State) : Out :=
  s.decodeCmd rid 0x0A fun r =>
    if !r.e.codebook then s
    else if s.sys.flashRo then s.updReq rid fun r => r.fail 0xC
    else s.onIndex r fun x =>
      if x.merge.isSome || s.heldBefore rid (fun q => q.opcode == 0xA && q.e.codebook && q.e.indexId == r.e.indexId) then s.holdCmd rid
      else s.readData r (1024 * ixM x.record) data fun _ s => s.stageCmd rid

/-- VEC_DELETE (R459, R461). -/
def execVecDelete (rid : Nat) (s : State) : Out :=
  s.decodeCmd rid 0x0B fun r =>
    if s.sys.flashRo then s.updReq rid fun r => r.fail 0xC
    else s.onIndex r fun x =>
      if s.editWaits rid r.e.indexId x then s.holdCmd rid else s.stageCmd rid

/-- L of a search: 0 selects L_DEFAULT (R445). -/
def searchL (e : Entry) (x : VIndex) : Nat := if e.l = 0 then ixLDefault x.record else e.l

/-- MAX_HOPS of a search: 0 selects 4 × L, capped at 4,096 (R445). -/
def searchHops (e : Entry) (x : VIndex) : Nat := if e.maxHops = 0 then min 4096 (4 * searchL e x) else e.maxHops

/-- VEC_SEARCH: the query is read, and the search waits for a slot (R445, R446). -/
def execVecSearch (rid : Nat) (data : HostRead) (s : State) : Out :=
  s.decodeCmd rid 0x0C fun r =>
    s.onIndex r fun x =>
      if searchL r.e x < r.e.k then s.updReq rid fun r => r.fail 4
      else
        s.readData r (4 * ixM x.record) data fun _ s => s.updReq rid fun r =>
          { r with stage := if s.tick.hold then .held else .waiting }

/-! ### Module-scope commands -/

/-- The counters of the latest visible snapshot (R713). -/
def State.latestSnap (s : State) : Option Snap := s.ctr.latest.bind s.ctr.bank

/-- READ_COUNTERS: the previous commit's snapshot, taken once its transfer has ended (R612, R713, R714). -/
def execReadCounters (rid : Nat) (s : State) : Out :=
  s.decodeCmd rid 0x0D fun r =>
    let as := (List.range r.e.w5).map (r.e.w4 + ·)
    if !as.all s.hasCounter then s.updReq rid fun r => r.fail 4
    else if s.ctr.latched.isSome then s
    else
      let val (a : Nat) : W64 := (s.latestSnap.map (·.value a)).getD 0
      { s with ctr := { s.ctr with reading := s.ctr.latest }
               reqs := s.reqs.map fun q =>
                 if q.rid = rid then
                   { q with stage := .staged, data := as.flatMap fun a => leBytes 8 (val a).toNat,
                            result0 := BitVec.ofNat 32 r.e.w5 }
                 else q }

/-- One measurement entry of the report (R652, R662). -/
def measureEntry (type len : Nat) (digest : List Byte) : List Byte :=
  [BitVec.ofNat 8 type, 0, 0, 0] ++ leBytes 4 len ++ List.replicate 8 0 ++ digest

/-- REPORT_BYTES (R662). -/
def State.reportBytes (s : State) : Nat := 11990 + 80 * (s.img.sections.length + 1)

/-- The report header (R662). -/
def State.reportHeader (s : State) : BitVec 512 :=
  place 512 496 16 1 ||| place 512 464 32 s.reportBytes ||| place 512 456 8 (s.img.sections.length + 1) |||
    place 512 454 2 s.ident.variant.code ||| place 512 453 1 (bit s.sys.compat) ||| place 512 452 1 (bit s.sys.imageWritten) |||
    place 512 451 1 (bit s.sys.flashRo) ||| place 512 384 64 s.ident.moduleId.toNat ||| place 512 320 64 s.tick.last |||
    place 512 288 32 s.crew.epoch.toNat ||| place 512 256 32 s.ident.romVersion.toNat |||
    place 512 224 32 s.img.fwVersion.toNat ||| place 512 192 32 s.img.version.toNat

/-- The attestation report (R662). -/
def State.attestReport (s : State) (nonce : List Byte) : List Byte :=
  let body := leBytes 64 s.reportHeader.toNat ++ nonce ++ leBytes 16 s.profile.toNat ++
    (s.img.sections.flatMap fun x => measureEntry x.type x.len x.digest) ++
    measureEntry 0x20 (16384 * whBlocks s.wt.header) s.wt.measure ++ s.sec.identityPk ++ s.sec.idCert
  body ++ fit 4627 (Config.mldsaSign s.sec.secretXi (sha3_512 body))

/-- ATTEST: at most 16 reports a tick (R621, R661 to R663). -/
def execAttest (rid : Nat) (nonce : HostRead) (s : State) : Out :=
  s.decodeCmd rid 0x0E fun r =>
    if !s.sec.haveKey then (s.hubCount 7 3).updReq rid fun r => r.fail 0x11
    else if r.e.reportMax < s.reportBytes then
      s.updReq rid fun r => { r.fail 4 with result0 := BitVec.ofNat 32 s.reportBytes }
    else if 16 ≤ s.sec.signed || s.heldBefore rid (fun r => r.opcode == 0xE) then s.holdCmd rid
    else s.readData r 64 nonce fun bs s =>
      let rep := s.attestReport bs
      let s := { (s.hubCount 7 2).crewCount 41 with sec := { s.sec with signed := s.sec.signed + 1 } }
      s.updReq rid fun r => { r with stage := .staged, data := rep, result0 := BitVec.ofNat 32 rep.length }

/-- WRITE_IMAGE: one at a time, in arrival order. Until the operation ends, what its range holds is not stated (R620, R665, R666; log 8). -/
def execWriteImage (rid : Nat) (data : HostRead) (s : State) : Out :=
  s.decodeCmd rid 0x0F fun r =>
    if s.norBusy != [] || s.heldBefore rid (fun r => r.opcode == 0xF) then s.holdCmd rid
    else s.readData r r.e.length data fun _ s =>
      let s := s.norScramble r.e.norOffset r.e.length
      { s with norBusy := [⟨rid, r.e.norOffset, r.e.length⟩]
               reqs := s.reqs.map fun q => if q.rid = rid then { q with stage := .waiting } else q }

/-- NOR_PROGRAM_COMPLETE: the range has been programmed and read back; a mismatch leaves it unstated and completes with NOR_FAIL (R620,
R665). RESULT0 is then not stated: a free value (log 8). -/
def execNorProgramComplete (mismatch : Bool) (s : State) : Out :=
  match s.norBusy with
  | [] => .next s
  | w :: ws =>
    let s := { s with norBusy := ws }
    match s.req w.rid with
    | none => .next s
    | some r =>
      if mismatch then
        let v := (s.norScramble w.offset w.bytes).freeWord
        .next (v.2.updReq w.rid fun r => { r.fail 0x13 with result0 := BitVec.ofNat 32 v.1.toNat, data := [] })
      else
        .next (({ s with nor := norWrite s.nor w.offset r.data }).updReq w.rid fun r =>
          { r with stage := .finishing, result0 := BitVec.ofNat 32 w.bytes, data := [] })

/-- DRAIN (R682, R683). -/
def execDrain (rid : Nat) (s : State) : Out := s.decodeCmd rid 0x10 fun _ => s.stageCmd rid

/-- INVALID_OPCODE: an entry with a reserved OPCODE (R607). -/
def execInvalidOpcode (rid : Nat) (s : State) : Out :=
  match s.req rid with
  | some r =>
    when (s.ticking && r.takeable && (r.opcode == 0 || decide (0x10 < r.opcode.toNat))) s (s.updReq rid fun r => r.fail 3)
  | none => .next s

end Sys2Proof.Machine
end

