-- ==== Sys2Proof/Machine/KvCache.lean ====
section
/-! DEFINITION. Moving bytes: stream grants and walks (R247 to R262, R301 to R303), appends to tails, scatters, page copies and the cleaning
writer (R304 to R319, R332 to R335). -/

namespace Sys2Proof.Machine

/-! ### Paths of fetch entries (R27, R28, R249, R256, R396, R397) -/

/-- The dies at the other ends of a die's two links: the next and the last die of the ring. In a ZF2 both links end on the other die (R27). -/
def State.dieLinks (s : State) (d : Nat) : List Nat := [(d + 1) % s.nDies, (d + s.nDies - 1) % s.nDies]

/-- Two dies are ring neighbours (R28). -/
def State.neighbours (s : State) (a b : Nat) : Bool := (s.dieLinks a).contains b

/-- The points that grant bandwidth on the path of an entry of a die, in order: the stack's queue for HBM, and the die's hub port for whatever comes
through the hub. Traffic between ring neighbours uses their link, which no point arbitrates (R28, R46, R249, R256; log 53). -/
def State.pathOf (s : State) (die : Nat) (src : Source) (unit : Nat) : List ArbPoint :=
  match src with
  | .hbmOwn | .hbmOther =>
    if unit / 4 = die ∨ s.neighbours die (unit / 4) then [.stack unit] else [.stack unit, .hubPort die]
  | .flash => [.channel unit, .hubPort die]
  | .reduction | .otherModule => [.hubPort die]

/-- Where a weight block is read for a die: its HBM copy where its layer is held in HBM, then the own flash copy, then the mirror, by the copies that
have not failed (R396, R397). A crew of one module keeps the mirror in its own flash (R398). -/
def State.weightAt (s : State) (die b layer : Nat) : Source × Nat :=
  let n := weightFrames s.img.model
  if s.wt.inHbm.contains layer && !s.hbm.failed.contains (.weightHbm b) then
    let f := s.weightFrame b
    (if frameDie f = die then .hbmOwn else .hbmOther, f / 2 ^ 22)
  else if !s.hbm.failed.contains (.weightFlash b) then (.flash, s.flashChannel (s.flashUser + b))
  else if s.crew.members.length ≤ 1 then (.flash, s.flashChannel (s.flashUser + n + b))
  else (.otherModule, 0)

/-- Where byte `off` of a fetch entry is read: entries that carry weights name blocks, the others what the plan or the walk resolved (R396). -/
def State.sourceAt (s : State) (die : Nat) (src : Source) (unit addr off : Nat) (layer : Option Nat) : Source × Nat :=
  match layer with
  | some l => s.weightAt die ((addr + off) / 16384) l
  | none => (src, unit)

/-- Address offsets at which sidebands, Landing slots and the FP32 value staging are read as sources. -/
def sideBase : Nat := 2 ^ 60
def landBase : Nat := 2 ^ 61
def stagingSource : Nat := 2 ^ 62

/-- HBM bytes as a read sees them: a frame that the page-copy engine copies in the tick shows its content at the tick's start (R34). -/
def State.hbmBytes (s : State) (addr n : Nat) : List Byte :=
  if sideBase ≤ addr then
    Mem.bytes (if s.hbm.copied.contains ((addr - sideBase) / 1024) then s.hbm.side0 else s.hbm.side) (addr - sideBase) n
  else Mem.bytes (if s.hbm.copied.contains (addr / 16384) then s.hbm.data0 else s.hbm.data) addr n

/-- Bytes that a fetch entry reads. A weight entry names a weight block, whichever copy serves it (R396); what another module sends is not in
this state, so those bytes are free values (log 8). -/
def State.sourceBytes (s : State) (src : Source) (addr n : Nat) (layer : Option Nat) : List Byte × State :=
  if layer.isSome then (Mem.bytes s.wt.data addr n, s)
  else
    match src with
    | .hbmOwn | .hbmOther =>
      if stagingSource ≤ addr then
        ((Sparse.getList 0 s.land.staging ((addr - stagingSource) / 4) (n / 4)).flatMap fun w => leBytes 4 w.toNat, s)
      else if landBase ≤ addr then (Mem.bytes s.land.data (addr - landBase) n, s)
      else (s.hbmBytes addr n, s)
    | .flash => (if sideBase ≤ addr then Mem.bytes s.flash.side (addr - sideBase) n else Mem.bytes s.flash.data addr n, s)
    | .reduction => (slice ((Sparse.get [] s.coll.sums (addr / 2 ^ 16)).flatMap fun w => leBytes 4 w.toNat) (addr % 2 ^ 16) n, s)
    | .otherModule => s.freeBytes n

/-! ### Stream grants (R256 to R262) -/

/-- A request that a stream can make at a point: which of its entries, how many bytes, where they are read, and whether the point is the first and the
last of their path. -/
structure StreamReq where
  slot  : Nat
  off   : Nat
  bytes : Nat
  src   : Source
  first : Bool
  last  : Bool

/-- Bytes of an entry from offset `off` that one grant moves: at most 16 KiB, and within one block of weights (R259, R396). -/
def grantBytes (addr off bytes : Nat) (layer : Option Nat) : Nat :=
  min (if layer.isSome then 16384 - (addr + off) % 16384 else 16384) (bytes - off)

/-- What an entry can ask for at a point: its next bytes where the point is the first of their path, or bytes already granted there where it is the last
(R256). -/
def State.entryReq (s : State) (die : Nat) (p : ArbPoint) (i : Nat) (x : StreamSlot) : Option StreamReq :=
  match x.item with
  | .blaze _ => none
  | .fetch src unit addr _ bytes _ layer =>
    let far := s.sourceAt die src unit addr x.far layer
    let near := s.sourceAt die src unit addr x.got layer
    let path := s.pathOf die far.1 far.2
    if x.far < bytes ∧ path = [p] ∧ x.got = x.far then some ⟨i, x.far, grantBytes addr x.far bytes layer, far.1, true, true⟩
    else if x.far < bytes ∧ path.length = 2 ∧ path.head? = some p then some ⟨i, x.far, grantBytes addr x.far bytes layer, far.1, true, false⟩
    else if x.got < x.far ∧ p = .hubPort die then some ⟨i, x.got, min (grantBytes addr x.got bytes layer) (x.far - x.got), near.1, false, true⟩
    else none

/-- The entries that a stream may request: those before its first uncleared blaze (R253). -/
def State.openSlots (s : State) (xs : List StreamSlot) : List StreamSlot :=
  xs.takeWhile fun x => match x.item with
    | .blaze t => s.clearBlaze t
    | .fetch .. => true

/-- An entry of a layer below `l` has bytes that nothing has requested, and its layer is not in the window. -/
def Die.layerBefore (d : Die) (l : Nat) : Bool :=
  d.streams.any fun e => e.2.items.any fun y =>
    match y.item with
    | .fetch _ _ _ _ bytes _ (some k) => decide (k < l ∧ y.far < bytes) && !(d.layers.contains k)
    | _ => false

/-- The layer's bytes may be requested: it is in the die's window, or the window has room for it and no earlier layer is still to enter it (R275). -/
def State.inWindow (s : State) (die : Nat) (x : StreamSlot) : Bool :=
  let d := s.die die
  match x.item with
  | .fetch _ _ _ _ _ _ (some l) => d.layers.contains l || (decide (d.layers.length < s.wwin) && !(d.layerBefore l))
  | _ => true

/-- The buffer bytes of an entry that have not arrived. -/
def StreamSlot.left (y : StreamSlot) : Nat × Nat :=
  match y.item with
  | .fetch _ _ _ dst bytes _ _ => (dst + y.got, bytes - y.got)
  | .blaze _ => (0, 0)

/-- The buffer has room where the request goes: as many bytes as it takes, and neither bytes that wait for their loads nor bytes that an earlier entry has still
to bring lie there (R257, R262, R276). -/
def Stream.hasRoom (x : Stream) (y : StreamSlot) (r : StreamReq) : Bool :=
  let at' := match y.item with
    | .fetch _ _ _ dst _ _ _ => (dst + r.off, r.bytes)
    | .blaze _ => (0, 0)
  decide (r.bytes ≤ x.room) && !(x.arrived.any fun a => meets (a.addr, a.bytes) at') && !((x.items.take r.slot).any fun z => meets z.left at')

/-- The request that a stream makes at a point: the first of its entries that can ask there, those whose bytes have passed an earlier point among them, and of
the others the first, when its buffer has room (R253, R257, R275). -/
def State.requestAt (s : State) (die : Nat) (x : Stream) (p : ArbPoint) : Option StreamReq :=
  let xs := s.openSlots x.items
  let rs := ((List.range xs.length).zip xs).filterMap fun e => (s.entryReq die p e.1 e.2).map fun r => (r, e.2)
  let new := (rs.find? fun e => e.1.first).map fun e => e.1.slot
  (rs.find? fun e => !e.1.first || (new == some e.1.slot && x.hasRoom e.2 e.1 && s.inWindow die e.2)).map Prod.fst

/-- Run-dry time as a fraction: none is infinite. A stream with r = 0 has an infinite one even when B = 0, for which R258 gives both infinity and 0
(R258, R260; DESIGN CHOICE, log 53). -/
def runDry (x : Stream) (clock : Nat) : Option (Nat × Nat) :=
  if x.rate = 0 then none else some (x.buffered, x.rate * clock)

/-- The first time is strictly the smaller. -/
def dryBefore : Option (Nat × Nat) → Option (Nat × Nat) → Bool
  | some a, some b => decide (a.1 * b.2 < b.1 * a.2)
  | some _, none => true
  | none, _ => false

/-- Dies whose streams meet at a point. -/
def State.diesAt (s : State) : ArbPoint → List Nat
  | .hubPort d => [d]
  | .stack _ | .channel _ => List.range s.nDies

/-- The sixteenths of the full clock at which a die runs (R107): periods compare as their inverses. -/
def State.clockOf (s : State) (die : Nat) : Nat := 16 - (s.die die).step

/-- Eligible streams of a point as (stream number, die), in ascending stream number, then ascending die (R257). -/
def State.eligible (s : State) (p : ArbPoint) : List (Nat × Nat) :=
  (List.range 128).flatMap fun n => (s.diesAt p).filterMap fun d =>
    match (s.die d).streams.find? fun e => e.1 == n with
    | some e => if (s.requestAt d e.2 p).isSome then some (n, d) else none
    | none => none

/-- Run-dry time of a stream at a point; only a channel compares different dies, in nanoseconds (R258, R260). -/
def State.dryAt (s : State) (p : ArbPoint) (e : Nat × Nat) : Option (Nat × Nat) :=
  let x := Sparse.get {} (s.die e.2).streams e.1
  runDry x (match p with | .channel _ => s.clockOf e.2 | _ => 1)

/-- The winner: the smallest run-dry time, the lower stream number between equals (R259). Between equal numbers of two dies the rule gives no order; the
lower die wins (DESIGN CHOICE, log 53). -/
def State.winner (s : State) (p : ArbPoint) : Option (Nat × Nat) :=
  (s.eligible p).foldl (fun (a : Option (Nat × Nat)) e =>
    match a with
    | some b => if dryBefore (s.dryAt p e) (s.dryAt p b) then some e else a
    | none => some e) none

/-- Source number in the order of R249, for STREAM events 1 to 5. -/
def sourceNumber : Source → Nat
  | .hbmOwn => 0 | .hbmOther => 1 | .flash => 2 | .reduction => 3 | .otherModule => 4

/-- A stream once a request has been granted at a point: its bytes count as granted from the first point on, and an entry leaves the list when its
last byte has arrived. Cleared blazes that have come to the head go too. -/
def Stream.take (x : Stream) (r : StreamReq) : Stream :=
  let step (y : StreamSlot) : StreamSlot := { y with far := if r.first then y.far + r.bytes else y.far, got := if r.last then y.got + r.bytes else y.got }
  let whole (y : StreamSlot) : Bool := match y.item with
    | .fetch _ _ _ _ n _ _ => decide (n ≤ y.got)
    | .blaze _ => false
  let items := (x.items.modify r.slot step).filter fun y => !(whole y)
  if r.first then { x with items := items, room := x.room - r.bytes, buffered := x.buffered + r.bytes, granted := x.granted + r.bytes }
  else { x with items := items }

/-- Grant a request at a point: at the last point of the path its bytes reach stage memory (R256, R259). -/
def State.grant (s : State) (die n : Nat) (r : StreamReq) : State :=
  let x := Sparse.get {} (s.die die).streams n
  match x.items[r.slot]?.map StreamSlot.item with
  | some (.fetch _ _ addr dst _ readers layer) =>
    let d := s.die die
    let layers := match layer with
      | some l => if !r.first || d.layers.contains l then d.layers else d.layers ++ [l]
      | none => d.layers
    let ev (s : State) (e : Nat) (k : Nat := 1) : State := s.count die 3 (n * 16 + e) k
    let s := s.setDie die { d with layers := layers, streams := Sparse.set {} d.streams n (x.take r) }
    let s := if r.first && r.off == 0 then ev s 9 else s
    let s := if r.first && decide (r.src = .flash) then ev s 15 else s
    let s := ev s 0
    if !r.last then s
    else
      let b := s.sourceBytes r.src (addr + r.off) r.bytes layer
      let d := b.2.die die
      let y := Sparse.get {} d.streams n
      ev (b.2.setDie die { d with
        stage := Mem.write d.stage (dst + r.off) b.1
        streams := Sparse.set {} d.streams n { y with arrived := y.arrived ++ [⟨dst + r.off, r.bytes, readers, layer⟩] } })
        (1 + sourceNumber r.src) r.bytes
  | _ => s

/-- The module has the arbitration point. -/
def State.hasPoint (s : State) : ArbPoint → Bool
  | .stack n => s.hasStack n
  | .hubPort d => s.hasDie d
  | .channel n => decide (n < 32)

/-! ### Reads of the search units (R454, R455) -/

/-- The index of a search. -/
def State.indexOf (s : State) (x : Search) : Option VIndex := s.vidx.find? fun i => ixId i.record == x.index

/-- The flash channel of a node record, counted from the start of the generation. -/
def recordChannel (i : VIndex) (node : Nat) : Nat := node * recSize i.record / 16384 % 32

/-- Records that a search reads now: those of the best four entries of Q not in X, and of all of them once the traversal has stopped (R451, R454). -/
def Search.wanted (x : Search) : List Nat :=
  let left := (x.q.filter fun e => !(x.x.contains e.2)).map Prod.snd
  (if x.maxHops ≤ x.hops then left else left.take 4).filter fun n => !(x.read.contains n)

/-- The reads that wait at a channel, as (slot, node), the earlier search first (DESIGN CHOICE, log 53). -/
def State.unitReads (s : State) (ch : Nat) : List (Nat × Nat) :=
  (s.searches.filter fun x => decide (x.start ≤ s.tick.num) && x.result.isNone).flatMap fun x =>
    match s.indexOf x with
    | some i => (x.wanted.filter fun n => recordChannel i n == ch).map fun n => (x.slot, n)
    | none => []

/-- Bytes that a unit has read and its searches have not used yet (R258). -/
def State.unitBuffered (s : State) (ch : Nat) : Nat :=
  (s.searches.map fun x => match s.indexOf x with
    | some i => (x.read.filter fun n => recordChannel i n == ch && !(x.x.contains n)).length * recSize i.record
    | none => 0).foldl (· + ·) 0

/-- Run-dry time of a search unit's stream, its rate counted in full clock periods (R258, R260, R455; DESIGN CHOICE, log 53). -/
def State.unitDry (s : State) (ch : Nat) : Option (Nat × Nat) :=
  match (s.fore.plan.map (·.units)).getD [] |>.find? fun u => u.1 == ch with
  | some u => if u.2 = 0 then none else some (s.unitBuffered ch * 65536, u.2 * 16)
  | none => none

/-- The channel and search unit's read that wins at a point: only a channel has one, and a die's stream goes first between equals (R259, R455; DESIGN CHOICE, log 53). -/
def State.unitWins (s : State) (p : ArbPoint) : Option (Nat × Nat × Nat) :=
  match p with
  | .channel ch => ((s.unitReads ch).head?.filter fun _ => (s.winner p).all fun e => dryBefore (s.unitDry ch) (s.dryAt p e)).map fun r => (ch, r)
  | _ => none

/-- A search's record has been read from the unit's channel. -/
def State.readRecord (s : State) (ch : Nat) (r : Nat × Nat) : State :=
  let bytes := (((s.searches.find? fun x => x.slot == r.1).bind s.indexOf).map fun i => recSize i.record).getD 0
  let s := { s with searches := s.searches.map fun (x : Search) => if x.slot = r.1 then { x with read := x.read ++ [r.2] } else x }
  (s.hubCount 3 (ch * 32)).hubCount 3 (ch * 32 + 1) bytes

/-- A grant to the stream that wins at a point, unless requests that come first wait there (R33, R45, R259, R261). -/
def State.grantTo (s : State) (point : ArbPoint) (e : Nat × Nat) : State :=
  if s.held point then (match point with
    | .hubPort _ => s.count e.2 3 (e.1 * 16 + 14)
    | _ => s)
  else
    match s.requestAt e.2 (Sparse.get {} (s.die e.2).streams e.1) point with
    | some r =>
      let tie := (s.eligible point).any fun f => f != e && !(dryBefore (s.dryAt point e) (s.dryAt point f))
      let s := s.grant e.2 e.1 r
      if tie then s.count e.2 3 (e.1 * 16 + 6) else s
    | none => s

/-- STREAM_GRANT: the eligible stream with the smallest run-dry time receives at most 16 KiB (R259), a search unit's record at a channel (R455). -/
def execStreamGrant (point : ArbPoint) (s : State) : Out :=
  needPart (s.hasPoint point) "arbitration point" <|
    when s.working s <|
      match s.unitWins point with
      | some r => if s.held point then s else s.readRecord r.1 r.2
      | none =>
        match s.winner point with
        | some e => s.grantTo point e
        | none => s

/-! ### Lost pages (R288, R405 to R413) -/

/-- A page is lost in every page list that names its frame (R406), and the attempt reports FAIL (R407). -/
def State.losePage (s : State) (r : Option (Bool × Nat)) (stack : Option Nat) : State :=
  let s := { s with seqs := s.seqs.map fun (q : Seq) =>
    let vs := ((q.root.filter fun (e : Nat × W64) => decide (leafRef e.2 = r) && r.isSome).map Prod.fst).filter fun v => !(q.lostPages.contains v)
    if vs = [] then q else { q with lostPages := q.lostPages ++ vs } }
  match stack with
  | some n => s.failAttempt 5 3 n
  | none => s.failAttempt 5

/-- One page of a sequence is lost, and the attempt reports FAIL (R288, R306, R407). -/
def State.loseOne (s : State) (h : W32) (v : Nat) : State :=
  match s.seq h with
  | some q =>
    if q.lostPages.contains v then s
    else (s.updSeq h fun q => { q with lostPages := q.lostPages ++ [v] }).failAttempt 5
  | none => s

/-- A slot descriptor with a reserved value (R306). -/
def Slot.corrupt (x : Slot) : Bool := x.state == .reserved || x.partners == 3

/-- The base die frees a corrupt slot and its partners and counts it; the tail's positions in it are lost key-value data (R306). -/
def State.dropCorrupt (s : State) (n : Nat) : State :=
  let x := s.slot n
  let s := (s.freeSlots n).stackCount (n / 480) 12
  s.loseOne x.seq (s.pageOf x.firstPos x.layer x.kvHead)

/-- The descriptors are read: corrupt ones are dropped (R306). -/
def State.checkSlots (s : State) : State :=
  ((s.land.slots.filter fun e => e.2.corrupt).map Prod.fst).foldl State.dropCorrupt s

/-! ### Walks (R301 to R303) -/

/-- Parts of a page as (in the sideband, offset, bytes), in the order of R301. -/
def partList (p : WalkParts) : List (Bool × Nat × Nat) :=
  (if p.keys then [(false, 0, 8192)] else []) ++ (if p.vals then [(false, 8192, 8192)] else []) ++
    (if p.keyExp then [(true, 0, 256)] else []) ++ (if p.valExp then [(true, 256, 256)] else []) ++
    (if p.sketch then [(true, 512, 32)] else [])

/-- Bytes of a page's parts. -/
def partBytes (p : WalkParts) : Nat := ((partList p).map fun x => x.2.2).foldl (· + ·) 0

/-- Fetch entries for the parts of a page whose data and sideband lie at `data` and `side`. -/
def askItems (w : WalkAsk) (src : Source) (unit data side dst : Nat) : List StreamItem :=
  ((partList w.parts).foldl (fun (a : List StreamItem × Nat) p =>
    (a.1 ++ [.fetch src unit ((if p.1 then side else data) + p.2.1) a.2 p.2.2 w.readers none], a.2 + p.2.2)) ([], dst)).1

/-- Fetch entries for the parts of an HBM or flash frame. -/
def askFrame (w : WalkAsk) (src : Source) (unit frame dst : Nat) : List StreamItem :=
  askItems w src unit (frame * 16384) (sideBase + frame * 1024) dst

/-- Key of the FP32 value staging of a row of a page site (R310). -/
def stagingRow (site row : Nat) : Nat := (site * 64 + row) * 256

/-- Fetch entries for the FP32 rows of a tail's incomplete value group, which stand only in staging (R303, R310). -/
def State.stagedItems (s : State) (w : WalkAsk) (src : Source) (unit site fill dst : Nat) : List StreamItem :=
  if !w.parts.vals || blkLen (s.streamFmt 3).2 = 0 then []
  else (List.range (fill % 32)).map fun i =>
    .fetch src unit (stagingSource + 4 * stagingRow site i) (dst + 4 * s.headDim * i) (4 * s.headDim) w.readers none

/-- Set the read pin of a frame (R302). -/
def State.tickPin (s : State) (r : Bool × Nat) : State :=
  if r.1 then s.setHbmEnt r.2 { s.hbmEnt r.2 with tickPin := true } else s.setFlashEnt r.2 { s.flashEnt r.2 with tickPin := true }

/-- The source class of an HBM stack for a die (R249). -/
def stackSource (die stack : Nat) : Source := if stack / 4 = die then .hbmOwn else .hbmOther

/-- What the walk finds at a page: the item delivered, and the stream entries that fetch its parts. A tail comes from its Landing slot (R303);
a frame in which the tick has begun or copied the tail shows what the tick has written there (R303), and an HBM frame marked failed resolves to its flash copy while
that can be read (R396, R397). A page already found lost is a hole under MASK (R410); a corrupt entry on the
way loses the page (R288). -/
def State.resolvePage (s : State) (die : Nat) (q : Seq) (v : Nat) (w : WalkAsk) (dst : Nat) : WalkItem × List StreamItem :=
  let first := s.runOf v * s.pagePositions
  match s.tailSlot q.handle (s.layerOf v) (s.headOf v) first with
  | some n => (.tailSlot v n, askItems w (stackSource die (n / 480)) (n / 480) (landBase + n * 17408) (landBase + n * 17408 + 16384) dst)
  | none =>
    let now := q.entryNow s.tick.num v
    let e := if leafTier now = 0 ∧ (s.hbmEnt (leafFrame now)).staged ∧ s.tailRun q ≤ s.runOf v then now else q.entry v
    let flash (f : Nat) : WalkItem × List StreamItem := (.flash v f, askFrame w .flash (f % 32) f dst)
    if q.lostPages.contains v then (if s.toRebuild q v then .lost v else .hole v, [])
    else if s.pathLost q v || s.leafCorrupt e then (.lost v, [])
    else if leafTier e = 0 then
      let f := leafFrame e
      if s.hbm.failed.contains (.hbmFrame f) then
        (match (s.flashCopyOf f).filter fun g => !s.hbm.failed.contains (.flashFrame g) with
          | some g => flash g
          | none => (.lost v, []))
      else (.hbm v f, askFrame w (stackSource die (f / 2 ^ 22)) (f / 2 ^ 22) f dst)
    else if leafTier e = 1 then
      (if s.hbm.failed.contains (.flashFrame (leafFrame e)) then (.lost v, []) else flash (leafFrame e))
    else (.hole v, [])

/-- The entries for the FP32 rows of a page that is a tail, slot or frame. -/
def State.tailStaging (s : State) (die : Nat) (w : WalkAsk) (x : WalkItem) (dst : Nat) : List StreamItem :=
  match x with
  | .tailSlot _ n => s.stagedItems w (stackSource die (n / 480)) (n / 480) n (s.slot n).fill dst
  | .hbm _ f =>
    if sbFill (s.hbmSide f) < s.pagePositions then
      s.stagedItems w (stackSource die (f / 2 ^ 22)) (f / 2 ^ 22) (2 ^ 20 + f) (sbFill (s.hbmSide f)) dst
    else []
  | _ => []

/-- Where the parts of a page go, as (offset in the page, sidebands from 16,384 on, address). -/
def partPlaces (p : WalkParts) (dst : Nat) : List (Nat × Nat) :=
  ((partList p).foldl (fun (a : List (Nat × Nat) × Nat) x => (a.1 ++ [(x.2.1 + (if x.1 then 16384 else 0), a.2)], a.2 + x.2.2)) ([], dst)).1

/-- One page of a walk: its parts go to `dst` and FP32 value rows, if any, to `staged`. -/
def State.walkPage (s : State) (die ctx stream : Nat) (q : Seq) (w : WalkAsk) (v dst staged : Nat) : State :=
  let r := s.resolvePage die q v w dst
  let rows := s.tailStaging die w r.1 staged
  let ev (s : State) (e : Nat) (k : Nat := 1) : State := s.count die 5 (ctx * 16 + e) k
  let s := match r.1 with
    | .hbm _ f =>
      let s := ((ev s 1).lotCount die q.lot 12).tickPin (true, f)
      let s := ev s 6
      let s := if frameDie f = die then s else ev s 7
      if 1 < (s.hbmEnt f).refcount then ev s 11 else s
    | .flash _ f => (ev ((ev s 2).lotCount die q.lot 13) 6).tickPin (false, f)
    | .hole _ => (ev s 3).lotCount die q.lot 14
    | .tailSlot _ _ => ev s 5
    | .lost v => (if s.pathLost q v || s.leafCorrupt (q.entry v) then ev s 4 else s).loseOne q.handle v
  let s := if w.parts.sketch then ev s 13 else s
  let s := if w.parts.keyExp || w.parts.valExp then ev s 14 else s
  let d := s.die die
  let x := Sparse.get {} d.streams stream
  let s := s.setDie die { d with
    streams := Sparse.set {} d.streams stream { x with items := x.items ++ (r.2 ++ rows).map fun i => ({ item := i } : StreamSlot) }
    walks := Sparse.set [] d.walks ctx (Sparse.get [] d.walks ctx ++ [r.1])
    placed := if r.2 = [] then d.placed else d.placed ++ (partPlaces w.parts dst).map fun x => (q.handle, v, x.1, x.2) }
  s.updSeq q.handle fun x => { x with lastRead := Sparse.set 0 x.lastRead v s.tick.num }

/-- The stream is the key-value stream that the walk context feeds (R250). -/
def State.feeds (s : State) (die ctx stream : Nat) : Bool :=
  match (s.die die).streams.find? fun e => e.1 == stream with
  | some e => e.2.walk == some ctx && !e.2.weight
  | none => false

/-- One page of a walk: its place in the list, and its number. The parts of the pages go to `dst` in order, staged rows from `after` on. -/
def State.walkNext (die ctx stream : Nat) (seq : W32) (w : WalkAsk) (dst after : Nat) (s : State) (p : Nat × Nat) : State :=
  match s.seq seq with
  | some q => s.walkPage die ctx stream q w p.2 (dst + p.1 * partBytes w.parts) (after + p.1 * (31 * 4 * s.headDim))
  | none => s

/-- A decode walks its selection: of a sequence for which a retrieving request runs, the pages that the request selects (R361, R369). -/
def State.walkChosen (s : State) (q : Seq) (v : Nat) : Bool :=
  s.reqs.all fun r => r.handle != q.handle || r.stage != .admitted || !s.retrieves r || s.selected r.rid q (s.layerOf v) (s.headOf v) v

/-- Bytes that a walk may fill: the parts of its pages, then 31 FP32 rows to a page where values are staged (R301, R303, R310). -/
def State.walkBytes (s : State) (w : WalkAsk) (pages : Nat) : Nat :=
  pages * (partBytes w.parts + if !w.parts.vals || blkLen (s.streamFmt 3).2 = 0 then 0 else 31 * 4 * s.headDim)

/-- What a walk fills lies in the buffer of its stream (R248). -/
def State.walkFits (s : State) (die stream dst bytes : Nat) : Bool :=
  let x := Sparse.get {} (s.die die).streams stream
  decide (x.base ≤ dst ∧ dst + bytes ≤ x.base + x.size)

/-- WALK_REQUEST: the pages resolve in list order, pins are set, and their parts feed the context's stream (R248, R250, R301 to R303); the FP32 rows of
incomplete value groups follow the last page, 31 rows to a tail. A page given up under KV_LOSS=MASK is a hole. -/
def execWalkRequest (die ctx stream : Nat) (seq : W32) (pages : List Nat) (ask : WalkAsk) (dst : Nat) (s : State) : Out :=
  needPart (s.hasDie die && decide (ctx < 64)) "walk context" <|
    match s.seq seq with
    | none => .next s
    | some q =>
      when (s.working && s.feeds die ctx stream && pages.all (s.walkChosen q) && s.walkFits die stream dst (s.walkBytes ask pages.length)) s <|
        let s := (s.count die 5 (ctx * 16)).checkSlots
        let after := dst + pages.length * partBytes ask.parts
        ((List.range pages.length).zip pages).foldl (State.walkNext die ctx stream seq ask dst after) s

/-! ### Writing positions (R281, R282, R309 to R317) -/

/-- Where a page is written: a Landing slot, or an HBM frame. -/
inductive PageSite where
  | slot (n : Nat) | frame (f : Nat)
  deriving DecidableEq, Repr

/-- Number of a site among the rows of the FP32 value staging (R310). Where the rows of a frame tail under a blocked value stream lie is not stated, as no slot is free for
them; they stand in the Landing's staging under the frame's number, without slots (DESIGN CHOICE, log 60). -/
def PageSite.stagingKey : PageSite → Nat
  | .slot n => n | .frame f => 2 ^ 20 + f

/-- The stack of a site. -/
def PageSite.stack : PageSite → Nat
  | .slot n => n / 480 | .frame f => f / 2 ^ 22

def State.readPage (s : State) (x : PageSite) (off n : Nat) : List Byte :=
  match x with
  | .slot k => Mem.bytes s.land.data (k * 17408 + off) n
  | .frame f => Mem.bytes s.hbm.data (f * 16384 + off) n

def State.writePage (s : State) (x : PageSite) (off : Nat) (bs : List Byte) : State :=
  match x with
  | .slot k => s.writeLand (k * 17408 + off) bs
  | .frame f => s.writeHbm (f * 16384 + off) bs

def State.sideOf (s : State) : PageSite → Nat
  | .slot n => s.slotSide n | .frame f => s.hbmSide f

def State.setSideOf (s : State) (x : PageSite) (b : Nat) : State :=
  match x with
  | .slot n => s.setSlotSide n b | .frame f => s.setHbmSide f b

/-- Positions already in the page. -/
def State.fillOf (s : State) : PageSite → Nat
  | .slot n => (s.slot n).fill | .frame f => sbFill (s.hbmSide f)

def State.setFill (s : State) (x : PageSite) (n : Nat) : State :=
  match x with
  | .slot k => s.setSlot k { s.slot k with fill := n } | .frame f => s.setHbmSide f (sbPut (s.hbmSide f) 4452 9 n)

/-- Conversions into the key and value streams round stochastically under RND 0b01 and 0b10 (R134). -/
def State.kvStoch (s : State) : Bool := s.rnd == 1 || s.rnd == 2

/-- Write one element of `bits` bits; a 4-bit element shares its byte (R117). -/
def State.writeElem (s : State) (x : PageSite) (fmt base index code : Nat) : State :=
  if fmt = 5 then
    let a := base + index / 2
    let old := leNat (s.readPage x a 1)
    s.writePage x a [BitVec.ofNat 8 (if index % 2 = 0 then old / 16 * 16 + code else old % 16 + 16 * code)]
  else s.writePage x (base + index * (fmtBits fmt / 8)) (leBytes (fmtBits fmt / 8) code)

/-- Write one sideband byte, a block exponent (R282). -/
def State.writeExp (s : State) (x : PageSite) (byte v : Nat) : State := s.setSideOf x (sbPut (s.sideOf x) (8 * byte) 8 v)

/-- The key row of position `i` of a page (R281, R282, R310). -/
def State.writeKey (s : State) (core : Nat) (x : PageSite) (i : Nat) (key : List Nat) (sK : Nat) (g : Drain) : State × Drain :=
  let fb := s.streamFmt 2
  let d := s.headDim
  let rcp := div32 s.ovf one32 sK
  let n := if blkLen fb.2 = 0 then d else blkLen fb.2
  (List.range (d / n)).foldl (fun (a : State × Drain) b =>
    let c := s.convertRun core fb.1 (decide (blkLen fb.2 ≠ 0)) s.kvStoch rcp.1 (colLane (b * n)) ((key.drop (b * n)).take n) a.2
    let st := a.1.writePage x (i * elemBytes fb.1 d + elemBytes fb.1 (b * n)) (packCodes fb.1 c.1)
    (if blkLen fb.2 = 0 then st else st.writeExp x (i * (d / 32) + b) c.2.1, c.2.2)) (s, g.flag rcp.2)

/-- The rounding modes of a group of `rows` by `cols` elements, drawn in ascending row order, then column order, column j from lane j mod 64 (R134, R137). -/
def State.drawGroup (s : State) (core rows cols : Nat) (stoch : Bool) (g : Drain) : List Rnd × Drain :=
  (List.range (rows * cols)).foldl (fun (a : List Rnd × Drain) i =>
    let m := a.2.mode s.srSeedImage core (i % cols % 64) stoch
    (a.1 ++ [m.1], m.2)) ([], g)

/-- The value elements of position `i`: stored at once, or in FP32 staging until their group of 32 is whole (R281, R282, R310). Of a group, row r is the position and
column j the dimension (R137; log 26). -/
def State.writeVal (s : State) (core : Nat) (x : PageSite) (i : Nat) (val : List Nat) (sV : Nat) (g : Drain) : State × Drain :=
  let fb := s.streamFmt 3
  let d := s.headDim
  let pp := s.pagePositions
  let rcp := div32 s.ovf one32 sV
  let g := g.flag rcp.2
  if blkLen fb.2 = 0 then
    let c := s.convertRun core fb.1 false s.kvStoch rcp.1 (colLane 0) val g
    (((List.range d).zip c.1).foldl (fun st p => st.writeElem x fb.1 (8192 + elemBytes fb.1 (p.1 * pp)) i p.2) s, c.2.2)
  else
    let key (row dim : Nat) : Nat := stagingRow x.stagingKey row + dim
    let s := { s with land := { s.land with
      staging := Sparse.setList 0 s.land.staging (key (i % 32) 0) (val.map fun v => BitVec.ofNat 32 (Fp.fp32.stored v)) } }
    if i % 32 ≠ 31 then (s, g)
    else
      let m := s.drawGroup core 32 d s.kvStoch g
      let r := (List.range d).foldl (fun (a : State × Drain) j =>
        let col := (List.range 32).map fun row => mul32 s.ovf (Sparse.get 0 s.land.staging (key row j)).toNat rcp.1
        let modes := (List.range 32).map fun row => m.1[row * d + j]?.getD .rne
        let c := convertBlock ((fmtOf fb.1).getD .fp32) s.ovf (col.map fun y => v32 y.1) modes
        let st := a.1.writePage x (8192 + elemBytes fb.1 (j * pp + (i - 31))) (packCodes fb.1 c.2.1)
        (st.writeExp x (256 + j * (pp / 32) + i / 32) c.1, (col.foldl (fun (g : Drain) y => g.flag y.2) a.2).flag c.2.2)) (s, m.2)
      let lo := key 0 0
      let r := (r.1.stackCount x.stack 13, r.2)
      ({ r.1 with land := { r.1.land with staging := Sparse.keep (fun k => decide (k < lo ∨ lo + 32 * 256 ≤ k)) r.1.land.staging } }, r.2)

/-- The core that writes a page's last position completes its sideband (R311, R317). -/
def State.sealPage (s : State) (x : PageSite) (q : Seq) (layer head run : Nat) : State :=
  let pp := s.pagePositions
  let b := s.sideOf x
  let b := sbPut b 4352 64 (runHash q.salt pp (q.log ++ q.logStaged) run).toNat
  s.setSideOf x (sbPut (sbPut (sbPut (sbPut b 4416 36 (run * pp)) 4452 9 pp) 4467 8 layer) 4461 6 head)

/-- The fresh frame that the plan gives a page of a sequence (R316, R318). -/
def State.freshFor (s : State) (h : W32) (v : Nat) : Option Nat :=
  (s.fore.plan.bind fun p => p.fresh.find? fun m => m.seq == h && m.v == v).map (·.dst)

/-- The frame that the plan gives a page which the tick writes: fresh, or for its rebuild (R316, R408). -/
def State.plannedFrame (s : State) (h : W32) (v : Nat) : Option Nat :=
  (s.fore.plan.bind fun p => (p.fresh ++ p.rebuilt).find? fun m => m.seq == h && m.v == v).map (·.dst)

/-- The least number of positions in the tails and fresh pages that this module holds for a run; a page that the plan copies counts with its copy. -/
def State.runFill (s : State) (h : W32) (first p : Nat) : Nat :=
  let slots := (s.land.slots.filter fun e => e.2.state == .tail && e.2.seq == h && e.2.firstPos == first).map fun e => e.2.fill
  let pages := ((s.fore.plan.map (·.fresh)).getD []).filterMap fun m =>
    if m.seq = h ∧ s.runOf m.v * s.pagePositions = first then some (sbFill (s.hbmSide m.dst)) else none
  let frames := ((s.seq h).map fun q => ((q.leaves (q.rootNow s.tick.num)).filter fun e =>
    decide (s.runOf e.1 * s.pagePositions = first ∧ leafTier e.2 = 0) && (s.plannedFrame h e.1).isNone).map fun e => sbFill (s.hbmSide (leafFrame e.2))).getD []
  (slots ++ pages ++ frames).foldl min p

/-- One position of keys and values goes into a page that stands at it (R309, R316). -/
def State.writePosition (s : State) (core rid : Nat) (x : PageSite) (q : Seq) (layer head pos : Nat) (key val : List W32)
    (sK sV : W32) : State :=
  let pp := s.pagePositions
  let i := pos % pp
  let a := s.writeKey core x i (key.map BitVec.toNat) sK.toNat (s.drainOf core)
  let b := a.1.writeVal core x i (val.map BitVec.toNat) sV.toNat a.2
  let s := (b.1.endDrain core (some rid) b.2).setFill x (i + 1)
  let s := if i + 1 = pp then s.sealPage x q layer head (pos / pp) else s
  let fill := s.runFill q.handle (pos / pp * pp) (i + 1)
  s.updSeq q.handle fun q => { q with kvStaged := max q.kvStaged (pos / pp * pp + fill) }

/-- Positions of the page of `v` that a sequence has committed (R298). -/
def State.heldIn (s : State) (q : Seq) (v : Nat) : Nat := min s.pagePositions (q.kvLen - s.runOf v * s.pagePositions)

/-- The page may be written in place in its frame: the attempt allocated it, or its one reference is this sequence's committed entry and no tree node's, and it is not
full (R298, R308, R318). -/
def State.inPlace (s : State) (q : Seq) (v : Nat) : Option Nat :=
  let e := q.entryNow s.tick.num v
  let f := leafFrame e
  let mine := (s.hbmEnt f).staged || (decide ((s.hbmEnt f).refcount ≤ 1) && decide (leafRef (q.entry v) = leafRef e))
  if leafTier e = 0 ∧ mine ∧ (s.hbmEnt f).inUse ∧ s.fillOf (.frame f) < s.pagePositions then some f else none

/-- Where a position of a tail goes: its slot; its frame tail; or the fresh frame to which the plan has its page copied first (R298, R308, R318). -/
def State.tailSite (s : State) (q : Seq) (layer head pos : Nat) : Option PageSite :=
  let v := s.pageOf pos layer head
  match s.tailSlot q.handle layer head (pos / s.pagePositions * s.pagePositions) with
  | some n => some (.slot n)
  | none =>
    match s.inPlace q v with
    | some f => some (.frame f)
    | none =>
      match s.freshFor q.handle v with
      | some f => if s.heldIn q v = 0 then none else some (.frame f)
      | none => none

/-- Rows of a position have the head dimension, and the streams' scales are positive, finite and normal (R124). -/
def State.rowsOk (s : State) (key val : List W32) (sK sV : W32) : Bool :=
  decide (key.length = s.headDim ∧ val.length = s.headDim ∧ 0 < s.pagePositions) && normalPos32 sK.toNat && normalPos32 sV.toNat

/-- The frame may take a position: it is the page's frame written in place, or the one that the plan gives the page (R298, R316). -/
def State.frameTakes (s : State) (q : Seq) (v f : Nat) : Bool :=
  s.hbmFrameOk f && (s.inPlace q v == some f || s.plannedFrame q.handle v == some f)

/-- The position is not one whose keys and values a prefix match gave the sequence as the tick began: no prefill of those runs; a lost page is written again
(R324, R408). -/
def State.notMatched (s : State) (q : Seq) (v pos : Nat) : Bool :=
  q.lostPages.contains v || (s.chk.planned.find? fun c => c.handle == q.handle).all fun c => decide (c.kvStaged ≤ pos)

/-- A position written to a site; the entry of a page written to a frame that its list does not name yet is staged, dirty (R312, R316, R318). -/
def State.putPosition (s : State) (core rid : Nat) (x : PageSite) (q : Seq) (layer head pos : Nat) (key val : List W32) (sK sV : W32) : State :=
  let v := s.pageOf pos layer head
  let e := q.entryNow s.tick.num v
  let s := s.writePosition core rid x q layer head pos key val sK sV
  match x with
  | .slot _ => s
  | .frame f => if leafTier e = 0 ∧ leafFrame e = f then s else s.stageEdit s.tick.num q.handle v (leafHbm f false true (s.sinkPage v) false)

/-- A position may go to a site: rows and scales are sound, the site stands at the position, which no match has given, and a frame may be written, when nothing passes
ahead at its stack (R33, R45, R298, R309, R324). A sequence that is held takes no new position (R407). -/
def State.mayPut (s : State) (x : PageSite) (q : Seq) (layer head pos : Nat) (key val : List W32) (sK sV : W32) : Bool :=
  s.rowsOk key val sK sV && s.fillOf x == pos % s.pagePositions && decide (pos < q.lMax) &&
    s.notMatched q (s.pageOf pos layer head) pos && (decide (pos < q.kvLen) || !s.seqHeld q.handle) &&
    match x with
    | .slot _ => true
    | .frame f => s.frameTakes q (s.pageOf pos layer head) f && !(s.held (.stack (f / 2 ^ 22)))

/-- TAIL_APPEND: the next position of a tail, into its slot, its frame tail or the copy of a shared page (R308 to R311, R318). Reading the descriptors drops corrupt slots
whether or not the append goes on (R306). -/
def execTailAppend (die core rid : Nat) (seq : W32) (layer head pos : Nat) (key val : List W32) (sK sV : W32) (s : State) : Out :=
  s.onCore die core <|
    let s' := if s.working then s.checkSlots else s
    match s'.seq seq with
    | none => .next s'
    | some q =>
      match s'.tailSite q layer head pos with
      | none => .next s'
      | some x =>
        when (s.working && s'.mayPut x q layer head pos key val sK sV) s' <|
          let t := s'.putPosition (coreNo die core) rid x q layer head pos key val sK sV
          match x with
          | .slot _ => t
          | .frame f => (t.stackCount (f / 2 ^ 22) 9).lotCount die q.lot 11

/-- SCATTER: a position of a tail goes into its slot or frame tail; any other goes into the fresh frame given at planning, whose edit is staged
(R315 to R317). -/
def execScatter (die core rid : Nat) (seq : W32) (layer head pos : Nat) (key val : List W32) (sK sV : W32) (frame : Nat) (s : State) : Out :=
  s.onCore die core <|
    let s' := if s.working then s.checkSlots else s
    match s'.seq seq with
    | none => .next s'
    | some q =>
      let x := (s'.tailSite q layer head pos).getD (.frame frame)
      when (s.working && s'.mayPut x q layer head pos key val sK sV) s' <|
        (s'.putPosition (coreNo die core) rid x q layer head pos key val sK sV).lotCount die q.lot 9

/-! ### Page copies (R300, R318) -/

/-- Frame numbers at and above this name flash frames as the source of a page copy. -/
def flashSource : Nat := 2 ^ 40

/-- Content of a page-copy source, data and sideband, as committed at the start of the tick (R34, R318). -/
def State.pageImage (s : State) (src : Nat) : List Byte × Nat :=
  if flashSource ≤ src then (Mem.bytes s.flash.data ((src - flashSource) * 16384) 16384, s.flashSide (src - flashSource))
  else (Mem.bytes s.hbm.data0 (src * 16384) 16384, Mem.num s.hbm.side0 (src * 1024) 1024)

/-- Positions that a copy keeps: those that the sequence for which it is made has committed in the page, where the plan names it (R325, R328). -/
def State.copyFill (s : State) (dst fill : Nat) : Nat :=
  match s.fore.plan.bind fun p => p.fresh.find? fun m => m.dst == dst with
  | some m => ((s.seq m.seq).map fun q => min fill (s.heldIn q m.v)).getD fill
  | none => fill

/-- PAGE_COPY: the page-copy engine copies a frame and its sideband to a fresh frame of the same stack, under a long pin; a flash source is read by
the die (R300, R318). The copy has no flash copy of its own. A source with 127 pins waits. FP32 value rows of an incomplete group stay with the source, as the rule names
the frame and its sideband alone (DESIGN CHOICE, log 60). -/
def execPageCopy (src dst : Nat) (s : State) : Out :=
  let fl := decide (flashSource ≤ src)
  let e := if fl then s.flashEnt (src - flashSource) else s.hbmEnt src
  when (s.working && e.inUse && decide (e.longPins < 127) && s.hbmFrameOk dst && ((s.hbmEnt dst).staged || s.hbmSpare dst) &&
      decide ((s.hbmEnt dst).refcount = 0) && (fl || decide (src / 2 ^ 22 = dst / 2 ^ 22)) && !(s.hbm.copies.any fun c => c.2 == dst)) s <|
    let img := s.pageImage src
    let s := if (s.hbmEnt dst).staged then s else s.allocHbm dst e.lot
    let s := s.writeHbm (dst * 16384) img.1
    let s := { s with hbm := { s.hbm with copies := s.hbm.copies ++ [(src, dst)], copied := s.hbm.copied ++ [src] } }
    let s := s.setHbmSide dst (sbPut (sbPut img.2 4480 41 0) 4452 9 (s.copyFill dst (sbFill img.2)))
    let s := if fl then s.setFlashEnt (src - flashSource) { e with longPins := e.longPins + 1 } else s.pinHbm src true
    (s.stackCount (dst / 2 ^ 22) 10).lotCount (frameDie dst) (s.hbmEnt dst).lot 10

/-- PAGE_COPY_COMPLETE: the long pin on the source is released (R300). -/
def execPageCopyComplete (src dst : Nat) (s : State) : Out :=
  when (s.hbm.copies.contains (src, dst)) s <|
    let s := { s with hbm := { s.hbm with copies := s.hbm.copies.erase (src, dst) } }
    if flashSource ≤ src then
      let e := s.flashEnt (src - flashSource)
      s.setFlashEnt (src - flashSource) { e with longPins := e.longPins - 1 }
    else s.pinHbm src false

/-- Write a flash frame and its sideband (R383). -/
def State.flashWrite (s : State) (frame : Nat) (data : List Byte) (side : Nat) : State :=
  let s := (s.setFlashSide frame side).flashPut (frame * 16384) data
  ((s.hubCount 9 0 16384).hubCount 9 1 16384).hubCount 9 5

/-! ### Cleaning (R332, R335) -/

/-- The frame that the cleaning writer takes next: oldest commit first, then the lower number (R332). -/
def nextClean (q : List (Nat × Nat)) : Option (Nat × Nat) :=
  q.foldl (fun (a : Option (Nat × Nat)) e =>
    match a with
    | some b => if e.1 < b.1 ∨ (e.1 = b.1 ∧ e.2 < b.2) then some e else a
    | none => some e) none

/-- A dirty spill waits for the commit, and its frame is no longer queued for cleaning. -/
def State.noteSpill (s : State) (f g : Nat) : State :=
  { s with flash := { s.flash with
    cleaned := s.flash.cleaned ++ [(f, g)], spilling := s.flash.spilling ++ [(f, g)], queue := s.flash.queue.filter fun y => y.2 != f } }

/-- A cleaning copy waits for the commit. -/
def State.noteCleaned (s : State) (f g : Nat) : State :=
  { s with flash := { s.flash with cleaning := s.flash.cleaning.erase (f, g), cleaned := s.flash.cleaned ++ [(f, g)] } }

/-- The last byte of a flash copy has been written (R300, R332). -/
def State.cleanDone (s : State) (f g : Nat) : State :=
  ((s.flashWrite g (Mem.bytes s.hbm.data (f * 16384) 16384) (sbPut (s.hbmSide f) 4480 41 0)).pinHbm f false).noteCleaned f g

/-- CLEANING_WRITE: the copy of a queued dirty frame starts on a fresh flash frame under a long pin; with `complete`, its last byte is written. A
copy in progress completes (R332). Nothing starts while the tier is read-only (R389). -/
def execCleaningWrite (frame flashFrame : Nat) (complete : Bool) (s : State) : Out :=
  if s.flash.cleaning.contains (frame, flashFrame) then
    when (s.ticking && complete) s (s.cleanDone frame flashFrame)
  else
    let e := s.hbmEnt frame
    when (s.ticking && !s.sys.flashRo && s.flashFree flashFrame && decide (e.longPins < 127) &&
        (match nextClean s.flash.queue with
          | some x => decide (x.2 = frame ∧ x.1 < s.tick.num)
          | none => false)) s <|
      let s := (s.allocFlash flashFrame e.lot).pinHbm frame true
      let s := { s with flash := { s.flash with
        queue := s.flash.queue.filter fun x => x.2 != frame
        cleaning := s.flash.cleaning ++ [(frame, flashFrame)] } }
      let s := s.lotCount (frameDie frame) e.lot 16
      if complete then s.cleanDone frame flashFrame else s

end Sys2Proof.Machine
end

