-- ==== Sys2Proof/Machine/FlashTier.lean ====
section
/-! DEFINITION. The memory tiers' own events: HBM errors, scrub and refresh (R33, R390 to R392), flash reads and the flash translation layer (R383 to
R389, R393), SRAM errors (R394). -/

namespace Sys2Proof.Machine

/-! ### HBM (R33, R390 to R392) -/

/-- The stack of a frame. -/
def frameStack (f : Nat) : Nat := f / 2 ^ 22

/-- Mark a copy failed, at once and without staging (R396). -/
def State.markFailed (s : State) (c : CopyId) : State :=
  { s with hbm := { s.hbm with failed := if s.hbm.failed.contains c then s.hbm.failed else s.hbm.failed ++ [c] } }

/-- The layer of a weight block (R77): 0x1FF where no tensor of a layer holds it. -/
def State.layerOfBlock (s : State) (b : Nat) : Nat :=
  ((List.range s.layers).find? fun l => (layerBlocks s.layers s.wt.header l).contains b).getD 0x1FF

/-- The copies that a weight block has: the HBM copy of a layer held there, the own flash copy, and the mirror once its holder has it (R397 to R399). -/
def State.copiesOf (s : State) (b : Nat) : List CopyId :=
  (if s.hbmBlocks.contains b then [CopyId.weightHbm b] else []) ++ [CopyId.weightFlash b] ++
    (if s.wt.mirrorAt.isSome then [CopyId.weightMirror b] else [])

/-- Some copy of the block can be read (R397). -/
def State.blockReadable (s : State) (b : Nat) : Bool := (s.copiesOf b).any fun c => !s.hbm.failed.contains c

/-- A copy of one of this member's weight blocks is unreadable: another serves the replay, or with all of them the layer is lost (R395, R397, R401).
The fail record names the part. -/
def State.failBlock (s : State) (c : CopyId) (b kind num : Nat) : State :=
  let s := s.markFailed c
  if !s.ticking then s
  else if s.blockReadable b then s.failAttempt 3 kind num
  else s.failAttempt 4 kind num (s.layerOfBlock b)

/-- The frames that page lists and tree nodes name, with the names of `but` left out. -/
def State.namedElse (s : State) (r : Option (Bool × Nat)) : Bool :=
  (s.seqs.any fun q => q.root.any fun e => decide (leafRef e.2 = r)) || s.nodes.any fun n => n.frames.any fun e => decide (leafRef e.2 = r)

/-- Of some entries, the frames that nothing names any longer stay allocated, charged to no lot, and are counted as leaked (R413). -/
def State.leak (s : State) (es : List W64) : State :=
  let fs := ((es.filterMap leafRef).eraseDups).filter fun r => !(s.namedElse (some r)) && !s.hbm.leaked.contains r
  if fs = [] then s else ({ s with hbm := { s.hbm with leaked := s.hbm.leaked ++ fs } }).crewCount 27 fs.length

/-- Mark a page-list node unreadable (R413). -/
def Seq.spoil (f : Nat) (q : Seq) : Seq :=
  if q.nodes.any fun e => e.1 == f then { q with nodes := Sparse.upd {} q.nodes f fun n => { n with bad := true } } else q

/-- A frame of the module reserve cannot be read (R288, R413): a prefix-tree node is removed, and a page-list node loses every page below it. The mark
outlasts a replay, as it is made without staging (R396). -/
def State.failReserve (s : State) (f : Nat) : State :=
  let gone := (s.nodes.filter fun n => n.frame == f).flatMap fun n => n.frames.map Prod.snd
  let below (q : Seq) : List (Nat × W64) := q.root.filter fun e => q.passes f e.1 (q.levels - 1) q.curRoot
  let lost := (s.seqs.filter fun q => !q.closing).flatMap fun q => (below q).map fun e => (q.handle, e)
  let s := { s with
    nodes := s.nodes.filter fun n => n.frame != f
    seqs := s.seqs.map (Seq.spoil f)
    chk := { s.chk with nodes := s.chk.nodes.filter (fun n => n.frame != f), seqs := s.chk.seqs.map (Seq.spoil f) } }
  let s := s.leak (gone ++ lost.map fun x => x.2.2)
  lost.foldl (fun (s : State) x => s.loseOne x.1 x.2.1) s

/-- What follows when an HBM frame cannot be read: another copy of its weight block or page serves, or the page is lost where a page list names it (R397,
R405 to R407). -/
def State.failHbm (s : State) (f : Nat) : State :=
  let s := { s with hbm := { s.hbm with suspect := if s.hbm.suspect.contains f then s.hbm.suspect else s.hbm.suspect ++ [f] } }
  if userFrames ≤ f % 2 ^ 22 then (if s.ticking then s.failReserve f else s)
  else
    match s.blockAt f with
    | some b => s.failBlock (.weightHbm b) b 3 (frameStack f)
    | none =>
      let s := s.markFailed (.hbmFrame f)
      let copy := (s.flashCopyOf f).any fun g => !s.hbm.failed.contains (.flashFrame g)
      if !s.ticking then s
      else if copy || (s.hbmEnt f).refcount == 0 then s.failAttempt 3 3 (frameStack f)
      else s.losePage (some (true, f)) (some (frameStack f))

/-- HBM_UNCORRECTABLE: the access is delivered marked, the copy is marked failed at once, the frame is to be retired, and an attempt in flight reports FAIL (R390, R392,
R395, R396). -/
def execHbmUncorrectable (frame : Nat) (s : State) : Out :=
  needPart (s.hbmFrameOk frame) "HBM frame" <|
    when (s.pwr.main == .on) s <|
      (s.stackCount (frameStack frame) 5).failHbm frame

/-- SCRUB: the base die reads a frame and writes back what it corrects; errors corrected on two passes make the frame suspect, once (R391, R392). -/
def execScrub (frame : Nat) (corrected : Bool) (s : State) : Out :=
  needPart (s.hbmFrameOk frame) "HBM frame" <|
    when (s.pwr.main == .on) s <|
      let s := s.stackCount (frameStack frame) 6
      if !corrected then s
      else
        let n := Sparse.get 0 s.hbm.scrubSeen frame + 1
        let s := s.stackCount (frameStack frame) 4
        { s with hbm := { s.hbm with
          scrubSeen := Sparse.set 0 s.hbm.scrubSeen frame n
          suspect := if 2 ≤ n ∧ !(s.hbm.suspect.contains frame) ∧ !(s.hbm.retired.contains frame) then s.hbm.suspect ++ [frame] else s.hbm.suspect } }

/-- Refresh one row: its activation count starts again (R33). -/
def State.refreshRow (s : State) (stack row ev : Nat) : State :=
  let k := stack * 2 ^ 32 + row
  let s := { s with hbm := { s.hbm with
    rowAct := Sparse.set 0 s.hbm.rowAct k 0
    refreshed := Sparse.upd 0 s.hbm.refreshed k (· + 1) } }
  s.stackCount stack ev

/-- REFRESH (R33). -/
def execRefresh (stack row : Nat) (s : State) : Out :=
  needPart (s.hasStack stack) "stack" <| when (s.pwr.main == .on) s (s.refreshRow stack row 2)

/-- READ_DISTURB_REFRESH: the row's activation count has passed the threshold, which the spec does not give (R33; log 18). -/
def execReadDisturbRefresh (stack row : Nat) (s : State) : Out :=
  needPart (s.hasStack stack) "stack" <| when (s.pwr.main == .on) s (s.refreshRow stack row 3)

/-! ### Flash reads (R385, R393, R397) -/

/-- The block that holds a frame. -/
def State.blockOf (s : State) (f : Nat) : Option Nat := (s.flash.map.find? fun e => e.1 == f).map Prod.snd

def State.updBlock (s : State) (b : Nat) (f : NandBlock → NandBlock) : State :=
  { s with flash := { s.flash with blocks := Sparse.upd {} s.flash.blocks b f } }

/-- A flash frame of weights is unreadable: of this member's own copy, of its mirror in a crew of one module, or of the mirror that it holds for another
member, whose own copies serve (R397, R398, R401). -/
def State.failWeight (s : State) (i ch : Nat) : State :=
  let n := weightFrames s.img.model
  let b := i % n
  if i < n then s.failBlock (.weightFlash b) b 5 ch
  else if s.crew.members.length ≤ 1 then s.failBlock (.weightMirror b) b 5 ch
  else
    let s := s.markFailed (.heldMirror b)
    if s.ticking then s.failAttempt 3 5 ch else s

/-- The HBM frame that has failed and is in use, and whose flash copy is the frame: with the copy its page is lost (R397). -/
def State.servedBy (s : State) (g : Nat) : Option Nat :=
  s.hbm.failed.findSome? fun c =>
    match c with
    | .hbmFrame h => if s.flashCopyOf h = some g ∧ 0 < (s.hbmEnt h).refcount then some h else none
    | _ => none

/-- A flash frame that no retry could read: a weight block, an index frame whose loss its search reports (R474, R475), or a key-value page, which is lost
unless its HBM copy serves (R396, R397, R405). -/
def State.failFlash (s : State) (f ch : Nat) : State :=
  if s.flashUser ≤ f then (if f < s.flashUser + 2 * weightFrames s.img.model then s.failWeight (f - s.flashUser) ch else s)
  else
    let s := s.markFailed (CopyId.flashFrame f)
    if !s.ticking then s
    else if s.seqs.any fun q => q.root.any fun e => leafRef e.2 == some (false, f) then
      let s := s.losePage (some (false, f)) none
      { s with tick := { s.tick with fails := s.tick.fails.dropLast ++ [failRecord s.crew.coord 5 5 ch 0x1FF] } }
    else
      match s.servedBy f with
      | some h => s.losePage (some (true, h)) (some (frameStack h))
      | none => s.failAttempt 3 5 ch

/-- FLASH_READ: hard-decision LDPC first; on failure the first of up to four soft retries that decodes, or none (R393). A soft retry marks the
block for relocation (R385). -/
def execFlashRead (frame : Nat) (hardOk : Bool) (softRetry : Option Nat) (s : State) : Out :=
  needPart (flashFrameOk frame) "flash frame" <|
    when s.pwr.standby s <|
      let b := s.blockOf frame
      let ch := (b.map (· / 65536)).getD (s.flashChannel frame)
      let s := (s.hubCount 3 (ch * 32)).hubCount 3 (ch * 32 + 1) 16384
      let s := match b with
        | some b => s.updBlock b fun x => { x with reads := x.reads + 1, soft := x.soft || !hardOk }
        | none => s
      if hardOk then s
      else
        let s := s.hubCount 3 (ch * 32 + 5)
        match softRetry with
        | some n => if 1 ≤ n ∧ n ≤ 4 then s.hubCount 3 (ch * 32 + 5 + n) else s
        | none => (s.hubCount 3 (ch * 32 + 10)).failFlash frame ch

/-! ### The flash translation layer (R383 to R387) -/

/-- The module has the flash channel. -/
def hasChannel (n : Nat) : Bool := decide (n < 32)

/-- Move the valid data of a block to another of the channel, which a free value picks unless one is given (R384 to R387; log 18). -/
def State.moveBlock (s : State) (b : Nat) (dst : Option Nat) (ev : Option Nat) : State :=
  let fs := (Sparse.get {} s.flash.blocks b).live
  let r := match dst with
    | some d => (d, s)
    | none => s.pickBlock (b / 65536) (some b)
  let s := fs.foldl (fun s f => s.mapFrame f r.1) r.2
  let s := match ev with
    | some e => s.hubCount 3 (b / 65536 * 32 + e)
    | none => s
  (s.hubCount 9 1 (16384 * fs.length)).hubCount 9 5 fs.length

/-- Erase a block (R383, R384). -/
def State.eraseBlock (s : State) (b : Nat) : State :=
  (s.updBlock b fun x => { x with erases := x.erases + 1, reads := 0, used := 0, dead := 0, soft := false }).hubCount 3 (b / 65536 * 32 + 4)

/-- Blocks of a channel in use, not bad. -/
def State.blocksOf (s : State) (channel : Nat) : List (Nat × NandBlock) :=
  s.flash.blocks.filter fun e => e.1 / 65536 == channel && !e.2.bad

/-- The block with the lowest, or with `high` the highest, erase count of a channel; the lowest-numbered of equals. -/
def State.extremeBlock (s : State) (channel : Nat) (high : Bool) : Option (Nat × NandBlock) :=
  (s.blocksOf channel).foldl (fun (a : Option (Nat × NandBlock)) e =>
    match a with
    | some b => if (if high then b.2.erases < e.2.erases else e.2.erases < b.2.erases) then some e else a
    | none => some e) none

/-- The lowest erase count of a channel's 65,536 blocks: a block that has never been used has 0 (R384). -/
def State.leastErases (s : State) (channel : Nat) : Nat :=
  if (s.flash.blocks.filter fun e => e.1 / 65536 == channel).length < 65536 then 0
  else ((s.extremeBlock channel false).map fun e => e.2.erases).getD 0

/-- WEAR_LEVELLING: the data of the lowest-count block, of those that have been used, moves to a high-count block when the channel's spread passes 500 (R384). -/
def execWearLevelling (channel : Nat) (s : State) : Out :=
  needPart (hasChannel channel) "channel" <|
    match s.extremeBlock channel false, s.extremeBlock channel true with
    | some lo, some hi =>
      when (s.pwr.standby && lo.1 != hi.1 && decide (s.leastErases channel + 500 < hi.2.erases)) s ((s.moveBlock lo.1 (some hi.1) (some 12)).eraseBlock lo.1)
    | _, _ => .next s

/-- READ_DISTURB_RELOCATION: a block read 50,000 times, or that needed a soft retry, has its valid data moved (R385). -/
def execReadDisturbRelocation (channel block : Nat) (s : State) : Out :=
  needPart (hasChannel channel && decide (block < 65536)) "block" <|
    let b := channel * 65536 + block
    let x := Sparse.get {} s.flash.blocks b
    when (s.pwr.standby && !x.bad && (decide (50000 ≤ x.reads) || x.soft)) s ((s.moveBlock b none (some 11)).eraseBlock b)

/-- PROGRAM_FAILURE: the block is retired, and its data is written again elsewhere (R387). -/
def execProgramFailure (channel block : Nat) (s : State) : Out :=
  needPart (hasChannel channel && decide (block < 65536)) "block" <|
    let b := channel * 65536 + block
    when (s.pwr.standby && !(Sparse.get {} s.flash.blocks b).bad) s <|
      let s := (s.updBlock b fun x => { x with bad := true }).moveBlock b none none
      let s := { s with flash := { s.flash with retired := s.flash.retired + 1 } }
      (s.hubCount 3 (channel * 32 + 14)).hubCount 9 3

/-- GARBAGE_COLLECTION: blocks holding pages that rewrites made invalid are emptied and erased (R383, R386). -/
def execGarbageCollection (channel : Nat) (s : State) : Out :=
  needPart (hasChannel channel) "channel" <|
    when s.pwr.standby s <|
      ((s.blocksOf channel).filter fun e => decide (0 < e.2.dead)).foldl (fun s e => (s.moveBlock e.1 none (some 13)).eraseBlock e.1) s

/-- FLASH_READ_ONLY: good spares have fallen below 0.5 % of raw capacity (R389). -/
def execFlashReadOnly (s : State) : Out :=
  when (s.pwr.standby && !s.sys.flashRo) s <|
    ({ s with sys := { s.sys with flashRo := true }, flash := { s.flash with worn := true } }).hubCount 9 4

/-! ### SRAM (R394) -/

/-- The module has the part that PART_KIND and PART_NUM name (R77). -/
def State.hasPart (s : State) (kind num : Nat) : Bool :=
  if kind = 0 then num == 0
  else if kind = 1 then s.hasDie (num / 128)
  else if kind = 2 then s.hasDie (num / 16)
  else if kind = 3 then s.hasStack num
  else if kind = 4 then decide (num < 12)
  else if kind = 5 then decide (num < 32)
  else kind == 6 && s.hasDie num

/-- SRAM_UNCORRECTABLE: the attempt fails, naming the part (R77, R394). Parts are the kinds of R77. -/
def execSramUncorrectable (partKind partNum : Nat) (s : State) : Out :=
  needPart (s.hasPart partKind partNum) "part" <| when s.ticking s <|
    let s := if partKind = 1 then s.count (partNum / 128) 1 (partNum % 128 * 128 + 25)
      else if partKind = 0 then s.hubCount 6 8 else s
    s.failAttempt 6 partKind partNum

end Sys2Proof.Machine
end

