-- ==== Sys2Proof/Machine/Search.lean ====
section
/-! DEFINITION. Searches and merges of vector indexes (R445 to R456, R464 to R475). -/

namespace Sys2Proof.Machine

/-! ### Searches -/

def State.search (s : State) (slot : Nat) : Option Search := s.searches.find? fun x => x.slot == slot

def State.updSearch (s : State) (slot : Nat) (f : Search → Search) : State :=
  { s with searches := s.searches.map fun x => if x.slot = slot then f x else x }

/-- The lowest free search slot among those that an index of M subspaces allows (R446). -/
def State.freeSearchSlot (s : State) (m : Nat) : Option Nat :=
  if s.searches.length < 8192 / m then (List.range (8192 / m)).find? fun n => !(s.searches.any fun x => x.slot == n) else none

/-- The earliest search that waits (R446). -/
def State.waitingSearch (s : State) : Option Req := s.reqs.find? fun r => r.opcode == 0xC && r.stage == .waiting

/-- The snapshot of a search at the start of its tick (R447). -/
def Search.snapshot (x : Search) (i : VIndex) (query : List Byte) : Search :=
  let del := (i.tombs.filter fun e => decide (e.2 < x.start)).map Prod.fst
  let t := queryTable i.codebook query (ixM i.record)
  { x with table := t, graph := i.nodes, gen := i.gen, deleted := del,
           sideIns := i.side.filter fun e => e.isInsert && decide (e.tick < x.start)
           q := match i.nodes with
             | n :: _ => [(codeDist t n.code, 0)]
             | [] => [] }

/-- SEARCH_ADMISSION: the plan of the next tick takes the earliest waiting search into a free slot; its snapshot is that tick's start (R446,
R447, R93). -/
def execSearchAdmission (rid : Nat) (s : State) : Out :=
  match s.req rid with
  | none => .next s
  | some r =>
    match s.index r.e.indexId, s.waitingSearch with
    | some i, some w =>
      match s.freeSearchSlot (ixM i.record) with
      | some n =>
        when (s.ticking && w.rid == rid && !s.tick.hold && !s.tick.planDone) s <|
          let x : Search := { slot := n, rid := rid, index := r.e.indexId, start := s.tick.num + 1, k := r.e.k, l := searchL r.e i,
                              maxHops := searchHops r.e i, table := [], graph := [], sideIns := [], deleted := [] }
          (({ s with searches := s.searches ++ [x] }).updReq rid fun r => { r with stage := .admitted }).indexCount r.e.indexId 0
      | none => .next s
    | _, _ => .next s

/-- Insert into a list of pairs in ascending order. -/
def insertAscPair (x : Nat × Nat) : List (Nat × Nat) → List (Nat × Nat)
  | [] => [x]
  | y :: ys => if x.1 < y.1 ∨ (x.1 = y.1 ∧ x.2 < y.2) then x :: y :: ys else y :: insertAscPair x ys

/-- One neighbour of an expansion (R448). -/
def offer (l : Nat) (dist : Nat → Nat) (x : List Nat) (q : List (Nat × Nat)) (n : Nat) : List (Nat × Nat) :=
  if x.contains n ∨ q.any (fun e => e.2 == n) then q else (insertAscPair (dist n, n) q).take l

/-- The next candidate to expand: the first of Q not in X (R448). -/
def nextCandidate (q : List (Nat × Nat)) (x : List Nat) : Option Nat := (q.find? fun e => !(x.contains e.2)).map Prod.snd

/-- A node record keeps the rules of R444: its neighbours number at most R and lie in the generation. -/
def nodeOk (r count : Nat) (n : Node) : Bool := decide (n.nbrs.length ≤ r) && n.nbrs.all fun m => decide (m < count)

/-- Code of a node of a generation. -/
def codeAt (g : List Node) (n : Nat) : List Byte := (g[n]?.map (·.code)).getD []

/-- A node of the generation that a search reads is known to be lost: it counts as deleted for every search (R474). -/
def VIndex.lostTo (i : VIndex) (x : Search) (c : Nat) : Bool := i.gen == x.gen && i.lostNodes.contains c

/-- A search has found nodes of its generation lost; they tell on the index while that generation is current (R474). -/
def VIndex.loseNodes (i : VIndex) (x : Search) (cs : List Nat) : VIndex :=
  if i.gen = x.gen then { i with lostNodes := i.lostNodes ++ cs.filter fun c => !(i.lostNodes.contains c) } else i

/-- RECORD_EXPANSION: the record of the first unexpanded candidate has been read (R448, R449, R455). One that cannot be read, or is lost, is not followed
(R444, R474). -/
def execRecordExpansion (slot : Nat) (readable : Bool) (s : State) : Out :=
  match s.search slot with
  | none => .next s
  | some x =>
    match nextCandidate x.q x.x, s.index x.index with
    | some c, some i =>
      when (s.working && decide (x.start ≤ s.tick.num ∧ x.hops < x.maxHops) && x.result.isNone && x.read.contains c) s <|
        let rec' := x.graph[c]?
        let ok := readable && (rec'.map (nodeOk (ixDegree i.record) x.graph.length)).getD false && !(i.lostTo x c)
        let xs := x.x ++ [c]
        let q := if ok then ((rec'.map (·.nbrs)).getD []).foldl (offer x.l (fun n => codeDist x.table (codeAt x.graph n)) xs) x.q else x.q
        let s := s.updSearch slot fun y => { y with x := xs, hops := y.hops + 1, q := q, damaged := y.damaged || !ok
                                                    deleted := if ok then y.deleted else y.deleted ++ (rec'.map (·.entry)).toList }
        let s := if ok then s else s.updIndex x.index fun i => i.loseNodes x [c]
        let ch := recordChannel i c
        let s := (s.hubCount 3 (ch * 32 + 15) (((rec'.map (·.nbrs.length)).getD 0) * ixM i.record)).hubCount 3 (ch * 32 + 16)
        (s.indexCount x.index 1).indexCount x.index 2
    | _, _ => .next s

/-- Insert a result pair in ascending (distance, VEC_ID) order. -/
def insertResult (x : Nat × W64) : List (Nat × W64) → List (Nat × W64)
  | [] => [x]
  | y :: ys => if x.1 < y.1 ∨ (x.1 = y.1 ∧ x.2.toNat < y.2.toNat) then x :: y :: ys else y :: insertResult x ys

/-- The K smallest pairs. -/
def bestPairs (k : Nat) (ps : List (Nat × W64)) : List (Nat × W64) := (ps.foldl (fun a p => insertResult p a) []).take k

/-- Side-list entries of an index that lie in unreadable frames of the list: 256 entries of 64 bytes to a frame (R443, R475). -/
def lostEntries (side : List SideEnt) (frames : List Nat) : List SideEnt := side.filter fun e => frames.contains (e.slot / 256)

/-- The entries of unreadable frames are lost for every search and merge, and their inserts stop being live (R475). -/
def State.loseSide (s : State) (id : Nat) (frames : List Nat) : State :=
  match s.index id with
  | none => s
  | some i =>
    let lost := lostEntries i.side frames
    let gone := (lost.filter (·.isInsert)).map (·.entry)
    let s := s.updIndex id fun i => { i with
      side := i.side.filter fun e => !(lost.contains e)
      live := i.live.filter fun e => !(gone.contains e.2) }
    let s := { s with searches := s.searches.map fun (x : Search) =>
      if x.index = id then { x with sideIns := x.sideIns.filter fun e => !(gone.contains e.entry) } else x }
    if lost = [] then s else s.crewCount 30 lost.length

/-- Each unit counts the side-list entries of its channel that a search scans (R441, R450, R705): frame f of the list, of 256 entries, lies on channel f mod 32. -/
def State.countScan (s : State) (side : List SideEnt) : State :=
  (List.range 32).foldl (fun (s : State) ch => s.hubCount 3 (ch * 32 + 17) (side.filter fun e => e.slot / 256 % 32 == ch).length) s

/-- SIDE_SCAN: in its start tick, a search takes the K smallest pairs of the inserts it sees (R450). -/
def execSideScan (slot : Nat) (lostFrames : List Nat) (s : State) : Out :=
  match s.search slot with
  | none => .next s
  | some x =>
    when (s.working && x.start == s.tick.num && !x.scanned) s <|
      let s := s.loseSide x.index lostFrames
      let s := s.updSearch slot fun y => { y with
        scanned := true
        side := bestPairs y.k ((y.sideIns.filter fun e => !(y.deleted.contains e.entry)).map fun e => (codeDist y.table e.code, e.vecId)) }
      (s.countScan x.sideIns).indexCount x.index 3

/-- The result buffer (R452). -/
def resultBuffer (x : Search) (rs : List (Nat × W64)) : List Byte :=
  let n := rs.length
  let h : BitVec 256 := place 256 192 64 x.start ||| place 256 176 16 n ||| place 256 160 16 x.hops |||
    place 256 159 1 (bit (decide (x.maxHops ≤ x.hops) && (nextCandidate x.q x.x).isSome)) |||
    place 256 158 1 (bit (decide (n < x.k))) ||| place 256 157 1 (bit x.damaged)
  let pad := List.replicate (x.k - n) (leBytes 16 (2 ^ 128 - 2 ^ 48))
  leBytes 32 h.toNat ++ (rs.flatMap fun r => leBytes 16 (r.2.toNat * 2 ^ 64 + r.1 % 2 ^ 16 * 2 ^ 48)) ++ pad.flatten

/-- The node counts as deleted for the search because its record is known to be lost (R474). -/
def State.knownLost (s : State) (x : Search) (c : Nat) : Bool := ((s.index x.index).map fun i => i.lostTo x c).getD false

/-- The result of a search whose nodes `lost` count as deleted (R451, R452): deleted entries drop out, and the K best pairs of graph and side list are the
result. The search completes at the commit (R456). -/
def State.assemble (s : State) (slot : Nat) (x : Search) (lost : List Nat) : State :=
  let x' := { x with damaged := x.damaged || lost != [] }
  let kept := x.q.filterMap fun e =>
    match x.graph[e.2]? with
    | some n => if lost.contains e.2 ∨ x.deleted.contains n.entry then none else some (e.1, n.vecId)
    | none => none
  let rs := bestPairs x.k (kept ++ x.side)
  let s := s.updSearch slot fun _ => { x' with result := some rs }
  let s := if lost = [] then s else s.updIndex x.index fun i => i.loseNodes x lost
  let s := s.updReq x.rid fun r => { r with stage := .finishing, data := resultBuffer x' rs, result0 := BitVec.ofNat 32 rs.length }
  let s := s.indexCount x.index 4
  let s := if decide (x.maxHops ≤ x.hops) && (nextCandidate x.q x.x).isSome then s.indexCount x.index 5 else s
  let s := if rs.length < x.k then s.indexCount x.index 6 else s
  if x'.damaged then s.indexCount x.index 7 else s

/-- RESULT_ASSEMBLY: the traversal has stopped and the records of the rest of Q have been read (R451). `lostNodes` could not be read; they and those lost
before count as deleted (R474). -/
def execResultAssembly (slot : Nat) (lostNodes : List Nat) (s : State) : Out :=
  match s.search slot with
  | none => .next s
  | some x =>
    let left := (x.q.filter fun e => !(x.x.contains e.2)).map Prod.snd
    when (s.working && decide (x.start ≤ s.tick.num) && x.scanned && x.result.isNone &&
        (decide (x.maxHops ≤ x.hops) || (nextCandidate x.q x.x).isNone) && left.all x.read.contains) s
      (s.assemble slot x ((x.q.map Prod.snd).filter fun c => s.knownLost x c || (left.contains c && lostNodes.contains c)))

/-! ### Merges (R465 to R469) -/

/-- A node of the generation being built, with the links it had: old neighbours as entries. -/
structure Draft where
  entry : Nat
  vecId : W64
  code  : List Byte
  old   : Option (List Nat)            -- entries of the old neighbours; none for an inserted node
  deriving DecidableEq, Repr

/-- Insert in ascending ENTRY order. -/
def insertDraft (x : Draft) : List Draft → List Draft
  | [] => [x]
  | y :: ys => if x.entry < y.entry then x :: y :: ys else y :: insertDraft x ys

/-- Entries deleted in a merge's snapshot, nodes lost since included (R465, R474). -/
def VIndex.gone (x : VIndex) (m : Nat) : List Nat :=
  (x.tombs.filter fun e => decide (e.2 < m)).map Prod.fst ++ x.lostNodes.filterMap fun n => (x.nodes[n]?).map (·.entry)

/-- The nodes of the new generation in ascending ENTRY (R465). -/
def VIndex.drafts (x : VIndex) (m : Nat) : List Draft :=
  let gone := x.gone m
  let kept := (x.nodes.filter fun n => !(gone.contains n.entry)).map fun n =>
    (⟨n.entry, n.vecId, n.code, some (n.nbrs.filterMap fun k => (x.nodes[k]?).map (·.entry))⟩ : Draft)
  let ins := (x.side.filter fun e => e.isInsert && decide (e.tick < m) && !(gone.contains e.entry)).map fun e =>
    (⟨e.entry, e.vecId, e.code, none⟩ : Draft)
  (kept ++ ins).foldl (fun a d => insertDraft d a) []

/-- Bitwise majority of codes: a bit is 1 when more than half of them have it. -/
def majorityCode (m : Nat) (cs : List (List Byte)) : List Byte :=
  (List.range m).map fun j => (List.range 8).foldl (fun (b : Byte) k =>
    if cs.length < 2 * (cs.filter fun c => (List.getD c j 0).getLsbD k).length then b ||| (1#8 <<< k) else b) 0

/-- Node 0 is the draft nearest the majority; ties to the lower ENTRY; the others keep their order (R465). -/
def VIndex.order (x : VIndex) (ds : List Draft) : List Draft :=
  let m := ixM x.record
  let maj := majorityCode m (ds.map (·.code))
  match ds.foldl (fun (a : Option (Nat × Draft)) d =>
      let k := codeDist2 x.codebook m d.code maj
      match a with
      | some b => if k < b.1 then some (k, d) else a
      | none => some (k, d)) none with
  | some b => b.2 :: ds.filter fun d => d.entry != b.2.entry
  | none => []

/-- Prune candidates of a node to R (R467). -/
def prune (r : Nat) (dist : Nat → Nat → Nat) (n : Nat) (cs : List Nat) : List Nat :=
  if cs.length ≤ r then cs
  else
    let sorted := cs.foldl (fun a c => insertAscPair (dist n c, c) a) []
    (sorted.foldl (fun (acc : List Nat) c =>
      if acc.length < r ∧ acc.all (fun a => decide (c.1 ≤ dist a c.2)) then acc ++ [c.2] else acc) [])

/-- A traversal over the links made so far (R448, R466): the queue when it stops. -/
def traverse (l : Nat) (dist : Nat → Nat) (links : List (List Nat)) : Nat → List (Nat × Nat) → List Nat → List (Nat × Nat)
  | 0, q, _ => q
  | h + 1, q, x =>
    match nextCandidate q x with
    | none => q
    | some c => traverse l dist links h ((links[c]?.getD []).foldl (offer l dist (x ++ [c])) q) (x ++ [c])

/-- Link one node (R466): its candidates, pruned, and for an inserted node the reverse edges, which go to every candidate (log 42). -/
def linkNode (x : VIndex) (ds : List Draft) (gone : List (Nat × List Nat)) (links : List (List Nat)) (n : Nat) : List (List Nat) :=
  let m := ixM x.record
  let r := ixDegree x.record
  let dist (a b : Nat) : Nat :=
    codeDist2 x.codebook m ((ds[a]?.map (·.code)).getD []) ((ds[b]?.map (·.code)).getD [])
  let num (e : Nat) : Option Nat := ds.findIdx? fun d => d.entry == e
  match ds[n]? with
  | none => links
  | some d =>
    let have' := links[n]?.getD []
    match d.old with
    | some es =>
      let own := es.flatMap fun e =>
        match num e with
        | some k => [k]
        | none => (((gone.find? fun g => g.1 == e).map Prod.snd).getD []).filterMap num
      let cs := ((have' ++ own).filter fun k => k != n).eraseDups
      links.set n (prune r dist n cs)
    | none =>
      let l := ixLDefault x.record
      let q0 := if n = 0 then [] else [(dist n 0, 0)]
      let q := traverse l (dist n) links (min 4096 (4 * l)) q0 []
      let cs := ((have' ++ q.map Prod.snd).filter fun k => k != n).eraseDups
      let acc := prune r dist n cs
      cs.foldl (fun ls c =>
        let other := ls[c]?.getD []
        if other.contains n then ls else ls.set c (prune r dist c (other ++ [n]))) (links.set n acc)

/-- The generation that a merge with start tick `m` builds (R465 to R467). -/
def VIndex.build (x : VIndex) (m : Nat) : List Node :=
  let ds := x.order (x.drafts m)
  let lost := x.gone m
  let gone := (x.nodes.filter fun n => lost.contains n.entry).map fun n =>
    (n.entry, n.nbrs.filterMap fun k => (x.nodes[k]?).map (·.entry))
  let links := (List.range ds.length).foldl (linkNode x ds gone) (ds.map fun _ => [])
  (ds.zip links).map fun p => ⟨p.1.entry, p.1.vecId, p.2, p.1.code⟩

/-- A search still reads the generation before the current one, whose node area is therefore not free (R469). -/
def State.areaBusy (s : State) (x : VIndex) : Bool :=
  s.searches.any fun y => y.index == ixId x.record && decide (y.start ≤ s.tick.num) && y.gen != x.gen

/-- MERGE_FINISH: the running merge has built its generation in the idle node area, which the commit makes current (R468, R469). -/
def execMergeFinish (index : Nat) (s : State) : Out :=
  match s.index index with
  | none => .next s
  | some x =>
    match x.merge with
    | some m =>
      when (s.working && decide (m ≤ s.tick.num) && x.built.isNone && !s.sys.flashRo && !(s.areaBusy x)) s <|
        (s.updIndex index fun x => { x with built := some (x.build m) }).indexBytes (recSize x.record * (x.drafts m).length)
    | none => .next s

end Sys2Proof.Machine
end

