-- ==== Sys2Proof/Machine/Commit.lean ====
section
/-! DEFINITION. The commit actions of R86, one definition per step: aborts, page-list edits, releases, commands, generations, membership, results
and the counter latch. Tick.lean runs them in order at a COMMIT edge. -/

namespace Sys2Proof.Machine

/-! ### Order of commands (R623) -/

/-- One command comes before another at a commit (R623). -/
def Req.before (a b : Req) : Bool := decide (a.coord < b.coord) || (a.coord == b.coord && decide (a.arrival < b.arrival))

/-- Insert a command in the order of R623. -/
def insertReq (x : Req) : List Req → List Req
  | [] => [x]
  | y :: ys => if x.before y then x :: y :: ys else y :: insertReq x ys

/-- Commands in the order of R623. -/
def cmdOrder (rs : List Req) : List Req := rs.foldl (fun a r => insertReq r a) []

/-- The commands staged in the tick, in order. -/
def State.stagedCmds (s : State) : List Req := cmdOrder (s.reqs.filter fun r => r.stage == .staged)

/-! ### Step 0: aborts (R195, R587, R619, R626) -/

/-- The request did work in the tick that commits. -/
def State.ranThisTick (s : State) (rid : Nat) : Bool := s.chk.ran.contains rid

/-- A sequence's staged edits and log entries of the tick are discarded, and its Landing slots return to FILL_COMMIT (R626). -/
def State.undoSeq (s : State) (h : W32) : State :=
  let s := s.updSeq h fun q =>
    match s.chk.planned.find? fun c => c.handle == h && !c.closing with
    | some c => { q with nodes := c.nodes, dropped := c.dropped, stageRoot := c.stageRoot, stageTick := c.stageTick, logStaged := []
                         kvStaged := c.kvStaged }
    | none => q.dropStage
  { s with land := { s.land with slots := Sparse.mapVals {} (fun _ (x : Slot) =>
      if x.seq = h ∧ x.state = .tail then { x with fill := x.fillCommit } else x) s.land.slots } }

/-- Everything that a request did in the tick is discarded (R195, R626). -/
def State.undoReq (s : State) (r : Req) : State :=
  let s := if r.isWork && s.ranThisTick r.rid then s.undoSeq r.handle else s
  let s := if r.opcode = 4 then
      { s with seqs := (s.fore.forks.filter fun f => f.1 == r.rid).foldl (fun (qs : List Seq) f => qs.filter fun q => q.handle != f.2.2.2) s.seqs
               fore := { s.fore with forks := s.fore.forks.filter fun f => f.1 != r.rid } }
    else s
  let s := { s with searches := s.searches.filter fun x => x.rid != r.rid }
  s.updReq r.rid fun r => { r with newTokens := [], data := [] }

/-- The request ends with ABORTED (R626). -/
def State.abortReq (s : State) (r : Req) : State :=
  (s.undoReq r).updReq r.rid fun r =>
    { r with stage := .finishing, status := 1, result0 := BitVec.ofNat 32 r.tokens, result1 := 0, aborted := true }

/-- An ABORT at its place in the order (R626). -/
def State.applyAbort (s : State) (x : Req) : State :=
  match x.target.bind s.req with
  | none => s.updReq x.rid fun r => r.fail 2
  | some r =>
    if r.aborted then s.updReq x.rid fun r => r.fail 2
    else if !r.abortable then s.updReq x.rid fun r => r.fail 4
    else (s.abortReq r).updReq x.rid fun r => r.fail 0

/-- The requests that a CLOSE aborts: outstanding APPEND, GENERATE and FORK on its handle that came before it (R619). -/
def State.closeTargets (s : State) (x : Req) : List Req :=
  s.reqs.filter fun r => (r.isWork || r.opcode == 4) && r.handle == x.handle && r.live && !r.aborted &&
    (if r.stage == .staged || r.stage == .merge || r.stage == .next then r.before x else true)

/-- Step 0 (R86): the aborts of port resets, then those of ABORT and CLOSE in the order of R623; requests that end in a fault keep nothing of the
tick (R195). -/
def State.commitAborts (s : State) : State :=
  let s := (s.reqs.filter fun r => r.aborted && r.live).foldl State.abortReq s
  let s := s.stagedCmds.foldl (fun (s : State) (x : Req) =>
    if x.opcode = 5 then s.applyAbort x
    else if x.opcode = 6 then (s.closeTargets x).foldl State.abortReq s
    else s) s
  (s.reqs.filter fun r => r.stage == .finishing && (decide (0x100 ≤ r.status.toNat) || r.status == 0xA)).foldl State.undoReq s

/-! ### Step 1: page lists (R86, R293, R312 to R314, R328, R332, R405, R410) -/

/-- Slots whose page is full (R312). -/
def State.fullSlots (s : State) : List Nat :=
  (s.land.slots.filter fun e => e.2.state == .tail && decide (0 < s.pagePositions ∧ s.pagePositions ≤ e.2.fill)).map Prod.fst

/-- The leaf entry of a flushed tail is staged (R312). -/
def State.stageFlush (t : Nat) (s : State) (n : Nat) : State :=
  let x := s.slot n
  let v := s.pageOf x.firstPos x.layer x.kvHead
  s.stageEdit t x.seq v (leafHbm x.flushFrame false true (s.sinkPage v) false)

/-- Positions that a page of a sequence holds once its positions have committed. -/
def State.pageFill (s : State) (q : Seq) (v : Nat) : Nat := min s.pagePositions (q.kvLen - s.runOf v * s.pagePositions)

/-- A failed copy that a rebuilt page does not replace. -/
def keepCopy (old : Option (Bool × Nat)) (c : CopyId) : Bool :=
  match old with
  | some (true, f) => c != CopyId.hbmFrame f
  | some (false, f) => c != CopyId.flashFrame f
  | none => true

/-- A rebuilt page whose positions have all been written takes its place in every page list that named the lost frame (R408). -/
def State.stageRebuilt (t : Nat) (s : State) (m : MoveChoice) : State :=
  match s.seq m.seq with
  | none => s
  | some q =>
    let old := leafRef (q.entry m.v)
    if sbFill (s.hbmSide m.dst) < s.pageFill q m.v ∨ ¬q.lostPages.contains m.v then s
    else
      let names := (s.seqs.filter fun x => !x.closing && (x.handle == q.handle || (old.isSome && decide (leafRef (x.entry m.v) = old)))).map (·.handle)
      let s := names.foldl (fun (s : State) h =>
        (s.stageEdit t h m.v (leafHbm m.dst (decide (1 < names.length)) true (s.sinkPage m.v) false)).updSeq h fun x =>
          { x with lostPages := x.lostPages.filter (· ≠ m.v) }) s
      { s with hbm := { s.hbm with failed := s.hbm.failed.filter (keepCopy old) } }

/-- The runs that a commit has completed again: they had lost pages before and have none now (R408, R707 event 26). -/
def State.countRebuilt (s before : State) (ms : List MoveChoice) : State :=
  let lostIn (x : State) (e : W32 × Nat) : Bool := (x.seq e.1).any fun q => q.lostPages.any fun v => x.runOf v == e.2
  let runs := (ms.map fun m => (m.seq, s.runOf m.v)).eraseDups.filter fun e => lostIn before e && !(lostIn s e)
  s.crewCount 26 runs.length

/-- FILL of a frame's sideband as committed at the start of the tick. -/
def State.fillBefore (s : State) (f : Nat) : Nat := sbFill (Mem.num s.hbm.side0 (f * 1024) 1024)

/-- Pages committed full for the first time, whose sketches are due in the next tick (R330): pages of frames that the attempt allocated, and frame tails that have filled
in place. The frame table and the sideband say which they are (R287). -/
def State.newPages (s : State) (t : Nat) : List (W32 × Nat) :=
  s.seqs.flatMap fun q => ((if q.closing then [] else q.leaves (q.rootNow t)).filter fun x =>
    let f := leafFrame x.2
    leafTier x.2 == 0 && !leafSketchValid x.2 && decide (s.pagePositions ≤ sbFill (s.hbmSide f)) &&
      ((s.hbmEnt f).staged || (decide (s.fillBefore f < s.pagePositions) && decide (leafRef (q.entry x.1) = leafRef x.2)))).map fun x => (q.handle, x.1)

/-- The staged generation of a sequence becomes its committed state (R86, R615). -/
def Seq.commit (t : Nat) (q : Seq) : Seq :=
  { q.commitRoot t with kvLen := q.kvStaged, log := q.log ++ q.logStaged, logStaged := [] }

/-- Pages whose entries, with the edits of tick `t`, name a frame: handle, page and entry. -/
def State.namersOf (s : State) (t : Nat) (r : Option (Bool × Nat)) : List (W32 × Nat × W64) :=
  (s.seqs.filter fun q => !q.closing).flatMap fun q =>
    ((q.leaves (q.rootNow t)).filter fun e => decide (leafRef e.2 = r)).map fun e => (q.handle, e.1, e.2)

/-- Of the entries that name a frame, those of the sequence that wrote it: the ones that did not come by sharing; all of them where every one was written as shared, as
those of a page rebuilt or moved here for several sequences are (R332; DEDUCED, log 13). -/
def writers (xs : List (W32 × Nat × W64)) : List (W32 × Nat × W64) :=
  let own := xs.filter fun x => !leafShared x.2.2
  if own = [] then xs else own

/-- A flash copy that was completed in the tick: the sideband names it, DIRTY clears in the entry of the sequence that wrote the frame, and the copy
link holds a reference. The copy of a frame already released goes with it (R332). -/
def State.commitClean (t : Nat) (s : State) (c : Nat × Nat) : State :=
  let e := s.hbmEnt c.1
  if e.refcount = 0 ∧ e.longPins = 0 then s.setFlashEnt c.2 {}
  else
    let s := s.setHbmSide c.1 (sbPut (s.hbmSide c.1) 4480 41 (c.2 + 2 ^ 40))
    let s := (writers (s.namersOf t (some (true, c.1)))).foldl (fun (s : State) x =>
      s.stageEdit t x.1 x.2.1 (putFld x.2.2 60 1 0)) s
    let s := if s.lotFull (s.hbmEnt c.1).lot then { s with fore := { s.fore with spillNext := s.fore.spillNext ++ [c.1] } } else s
    s.incRef (some (false, c.2))

/-- Every page list and tree node that named an HBM frame names its flash copy, which takes over the references and loses its copy link's (R405). The
edits of page lists carry their references with them (R299). -/
def State.moveToFlash (t : Nat) (s : State) (f g : Nat) : State :=
  let r := some (true, f)
  let ns := s.namersOf t r
  let held := (s.nodes.flatMap fun m => m.frames.filter fun p => decide (leafRef p.2 = r)).length
  let shared := decide (1 < ns.length)
  let s := ns.foldl (fun (s : State) x => s.stageEdit t x.1 x.2.1 (leafToFlash x.2.2 g shared)) s
  let mv (x : W64) : W64 := if leafRef x = r then leafToFlash x g (leafShared x) else x
  let s := { s with
    nodes := s.nodes.map fun (m : PrefixNode) => { m with frames := m.frames.map fun (p : Nat × W64) => (p.1, mv p.2) }
    hbm := { s.hbm with failed := s.hbm.failed.filter (· != CopyId.hbmFrame f) } }
  let s := (List.range held).foldl (fun (s : State) _ => (s.incRef (some (false, g))).decRef r) s
  (s.decRef (some (false, g))).setHbmSide f (sbPut (s.hbmSide f) 4480 41 0)

/-- Under MASK a lost page that is no tail becomes a hole for the life of the sequence (R410, R411). -/
def State.maskLost (t : Nat) (s : State) : State :=
  if !s.kvLoss then s
  else
    let gone (q : Seq) : List Nat := q.lostPages.filter fun v => decide (s.runOf v ≠ s.tailRun q) && !q.masked.contains v
    let all := (s.seqs.filter fun q => !q.closing).flatMap fun q => (gone q).map fun v => (q.handle, v)
    let s := all.foldl (fun (s : State) x => (s.stageEdit t x.1 x.2 noEntry).updSeq x.1 fun q => { q with masked := q.masked ++ [x.2] }) s
    if all = [] then s else s.crewCount 36 all.length

/-- A flash copy that failed while its HBM frame is readable: FC_VALID clears and the frame is queued for cleaning again (R405). -/
def State.dropFlashCopy (t g : Nat) (s : State) (f : Nat) : State :=
  if s.flashCopyOf f = some g then
    ((s.setHbmSide f (sbPut (s.hbmSide f) 4480 41 0)).decRef (some (false, g))).queueClean t f
  else s

/-- Failed copies at the commit (R396, R405). -/
def State.commitFailed (s : State) (t : Nat) : State :=
  let s := s.hbm.failed.foldl (fun (s : State) c =>
    match c with
    | .hbmFrame f =>
      match s.flashCopyOf f with
      | some g => s.moveToFlash t f g
      | none => s
    | .flashFrame g => (s.hbm.ftab.map Prod.fst).foldl (State.dropFlashCopy t g) s
    | _ => s) s
  s.maskLost t

/-- Frames found suspect are retired (R392). -/
def State.retireSuspects (s : State) : State :=
  s.hbm.suspect.foldl (fun (s : State) f =>
    if s.hbm.retired.contains f then s
    else (({ s with hbm := { s.hbm with retired := s.hbm.retired ++ [f] } }).stackCount (f / 2 ^ 22) 7).crewCount 37) { s with hbm := { s.hbm with suspect := [] } }

/-- The weight block of a failed copy. -/
def CopyId.block? : CopyId → Option Nat
  | .weightHbm b | .weightFlash b | .weightMirror b => some b
  | _ => none

/-- A block's HBM copy lies in another frame from now on, when there is one. -/
def Weights.remapTo (w : Weights) (b : Nat) (f : Option Nat) : Weights :=
  match f with
  | some f => { w with remap := (w.remap.filter fun e => e.1 != b) ++ [(b, f)] }
  | none => w

/-- A write of a repaired block to a flash frame of this module, with its counters (R400, R705). -/
def State.repairFlash (s : State) (frame : Nat) : State :=
  ((((s.programFrame frame).hubCount 9 0 16384).hubCount 9 1 16384).hubCount 9 5).hubCount 9 6

/-- The flash frame of this module that a failed copy of a weight block has: a mirror is here in a crew of one module, or where this module holds it for another (R398). -/
def State.copyAtFlash (s : State) (c : CopyId) : Option Nat :=
  let n := weightFrames s.img.model
  match c with
  | .weightFlash b => some (s.flashUser + b)
  | .weightMirror b => if s.crew.members.length ≤ 1 then some (s.flashUser + n + b) else none
  | .heldMirror b => some (s.flashUser + n + b)
  | _ => none

/-- A block's HBM copy lies in another frame from now on, when there is one (R400). -/
def State.remapFrame (s : State) (b : Nat) (f : Option Nat) : State := { s with wt := s.wt.remapTo b f }

/-- The flash write of a repair, where the copy lies in this module's flash. -/
def State.repairAt (s : State) (frame : Option Nat) : State :=
  match frame with
  | some f => s.repairFlash f
  | none => s

/-- What a repair writes here: an HBM copy goes to a fresh frame, the lowest free one of its stack (log 13), a flash copy to a fresh page; a mirror on another member is
written there (R400). -/
def State.repairCopy (s : State) (c : CopyId) : State :=
  match c with
  | .weightHbm b => s.remapFrame b (s.lowestFree (s.weightFrame b / 2 ^ 22))
  | _ => s.repairAt (s.copyAtFlash c)

/-- Weight blocks that the plan of the tick has read: every entry of a stream has been fetched by the commit (R400, R50). -/
def State.blocksRead (s : State) : List Nat :=
  (((((s.fore.plan.map (·.streams)).getD []).flatMap (·.items)).flatMap fun i =>
    match i with
    | .fetch _ _ addr _ bytes _ (some _) => (List.range ((addr + bytes - 1) / 16384 + 1 - addr / 16384)).map (addr / 16384 + ·)
    | _ => [])).eraseDups

/-- Failed copies of the weight blocks that the tick read are repaired from the survivor, and a mirror held for another member from that member's copy (R400); none
while the flash tier is read-only (R389). -/
def State.commitRepairs (s : State) : State :=
  let read := s.blocksRead
  let fix := s.hbm.failed.filter fun c =>
    match c with
    | .heldMirror _ => true
    | _ => c.block?.any fun b => read.contains b && s.blockReadable b
  if fix = [] ∨ s.sys.flashRo then s
  else
    let s := { s with hbm := { s.hbm with failed := s.hbm.failed.filter fun c => !(fix.contains c) } }
    (fix.foldl State.repairCopy s).crewCount 32 fix.length

/-- The sideband of a partial page that flushes (R289, R314). -/
def State.sealPartial (s : State) (n : Nat) : State :=
  let x := s.slot n
  let p := s.pagePositions
  let b := sbPut (sbPut (s.slotSide n) 4416 36 x.firstPos) 4452 9 x.fill
  let h := ((s.seqs.find? fun q => q.handle == x.seq).map fun q => (partHash q.salt p q.log (x.firstPos / p) x.fill).toNat).getD 0
  s.setSlotSide n (sbPut (sbPut (sbPut b 4467 8 x.layer) 4461 6 x.kvHead) 4352 64 h)

/-- One partial tail of a closing sequence flushes; the answer adds its page to the run's frames (R314). Positions of an incomplete value group, whose
values stand only in FP32 staging, are flushed without those values and counted in FILL; the rule does not say what becomes of them (DESIGN CHOICE,
log 55). -/
def State.flushPartial (t : Nat) (a : State × List (Nat × W64)) (n : Nat) : State × List (Nat × W64) :=
  let s := (a.1.sealPartial n).writeFlush n
  let x := s.slot n
  let off := x.layer * s.kvHeads + x.kvHead
  let pinned := s.sinkPage (s.pageOf x.firstPos x.layer x.kvHead)
  (s.queueClean t x.flushFrame, a.2 ++ [(off, leafHbm x.flushFrame false true pinned false)])

/-- A partial frame tail of a closing sequence flushes: its sideband is completed and its flash copy is queued (R314, R332). A frame that others name has been completed
before. -/
def State.sealFrame (t : Nat) (q : Seq) (r fill : Nat) (s : State) (x : Nat × W64) : State :=
  let f := leafFrame x.2
  let p := s.pagePositions
  if leafTier x.2 ≠ 0 ∨ 1 < (s.hbmEnt f).refcount then s
  else
    let b := sbPut (sbPut (s.hbmSide f) 4416 36 (r * p)) 4452 9 fill
    let b := sbPut (sbPut b 4467 8 (x.1 / s.kvHeads)) 4461 6 (x.1 % s.kvHeads)
    (s.setHbmSide f (sbPut b 4352 64 (partHash q.salt p q.log r fill).toNat)).queueClean t f

/-- The edits of a sequence closed in the tick before: its partial tails flush and enter the tree as a partial node where their run's parent is in it,
and every reference of its page list goes (R87, R314, R323). -/
def State.finishClose (t : Nat) (s : State) (q : Seq) : State :=
  let p := s.pagePositions
  let ns := (s.land.slots.filter fun e => e.2.state == .tail && e.2.seq == q.handle).map Prod.fst
  let first := (ns.head?.map fun n => (s.slot n).firstPos).getD (s.tailRun q * p)
  let r := if p = 0 then 0 else first / p
  let fill := q.kvLen - first
  let enters := decide (0 < fill ∧ fill < p ∧ q.matched = r) && (r == 0 || (q.node.isSome && s.nodeStands q.node))
  let s := if enters then
      let own := s.runEntries q r
      let a := ns.foldl (State.flushPartial t) (own.foldl (State.sealFrame t q r fill) s, own)
      (a.1.addNode q.node (partHash q.salt p q.log r fill) ((q.log.drop first).take fill) false r t a.2).1
    else s
  let s := ns.foldl State.freeSlots s
  let s := q.root.foldl (fun (s : State) e => s.decRef (leafRef e.2)) s
  let s := q.table.foldl (fun (s : State) f => s.decRef (some (true, f))) s
  { s with seqs := s.seqs.filter (fun x => !(x.handle == q.handle && x.closing))
           sketches := s.sketches.filter fun x => x.1 != q.handle
           qsketch := s.qsketch.filter fun x => x.1 != q.handle }

/-- The FP32 value rows of one page site are copied to another (R310, R329). -/
def State.copyStaging (s : State) (src dst : Nat) : State :=
  { s with land := { s.land with
    staging := Sparse.setList 0 s.land.staging (stagingRow dst 0) (Sparse.getList 0 s.land.staging (stagingRow src 0) (32 * 256)) } }

/-- A slot of a fork's parent is copied to slot `m` of its stack, with staging slots from `part` on and a flush frame of its own (R329). -/
def State.forkToSlot (s : State) (child : W32) (fill n m part frame : Nat) (bytes : List Byte) : State :=
  let x := s.slot n
  let s := (s.allocHbm frame (((s.seq child).map (·.lot)).getD 0)).copyStaging n m
  let s := s.takeStaging (n / 480) part x.partners child x.layer x.kvHead
  let s := s.setSlot m { x with seq := child, fill := fill, fillCommit := fill, partner := part, flushFrame := frame }
  s.writeLand (m * 17408) bytes

/-- A slot of a fork's parent is written to a frame, which becomes the child's frame tail (R329). -/
def State.forkToFrame (t : Nat) (s : State) (child : W32) (fill n frame : Nat) (bytes : List Byte) : State :=
  let x := s.slot n
  let v := s.pageOf x.firstPos x.layer x.kvHead
  let s := (s.allocHbm frame (((s.seq child).map (·.lot)).getD 0)).copyStaging n (2 ^ 20 + frame)
  let s := (s.writeHbm (frame * 16384) (bytes.take 16384)).writeSide (frame * 1024) (bytes.drop 16384)
  let s := s.setHbmSide frame (sbPut (s.hbmSide frame) 4452 9 fill)
  s.stageEdit t child v (leafHbm frame false true (s.sinkPage v) false)

/-- Where the child's copy goes: to a free slot of the parent's stack with a flush frame there, else to a frame of that stack, else to any spare frame. -/
def State.forkWith (t : Nat) (s : State) (child : W32) (fill n : Nat) (bytes : List Byte) (here : Option Nat) (seat : Option (Nat × Nat)) (any : Option Nat) : State :=
  match here, seat, any with
  | some frame, some (m, part), _ => s.forkToSlot child fill n m part frame bytes
  | some frame, none, _ => s.forkToFrame t child fill n frame bytes
  | none, _, some frame => s.forkToFrame t child fill n frame bytes
  | none, _, none => s

/-- The parent's tail slot of a fork is copied for the child: to a free slot of the stack, or to a fresh frame, the lowest free one, as its frame tail
(R329; log 13). FP32 rows of an incomplete value group go with it; of a fork inside a group that the parent has already converted, whatever the parent's staging holds,
since the rule does not say where the child's rows come from (DESIGN CHOICE, log 60). A stack without a spare frame gives no flush frame: the frame tail then takes the lowest
spare frame of the module, and without any the page stays unwritten, which R329 does not provide for. -/
def State.forkSlot (t : Nat) (child : W32) (fill : Nat) (s : State) (n : Nat) : State :=
  s.forkWith t child fill n (Mem.bytes s.land.data (n * 17408) 17408) (s.lowestFree (n / 480)) (s.slotRun (n / 480) (s.slot n).partners)
    ((List.range s.nStacks).findSome? s.lowestFree)

/-- The parent's tail slots that hold position `p` − 1 are copied for the child (R329). -/
def State.copyForks (t p : Nat) (child : W32) (s : State) (ns : List Nat) : State :=
  ns.foldl (fun (s : State) n => s.forkSlot t child (p - (s.slot n).firstPos) n) s

/-- The fork that the tick built completes (R328, R329). -/
def State.commitFork (t : Nat) (s : State) (f : Nat × W32 × Nat × W32) : State :=
  let (rid, parent, p, child) := f
  let ns := (s.land.slots.filter fun e => e.2.state == .tail && e.2.seq == parent &&
    decide (0 < p ∧ e.2.firstPos ≤ p - 1 ∧ p - 1 < e.2.firstPos + e.2.fillCommit)).map Prod.fst
  let s := s.copyForks t p child ns
  s.updReq rid fun r => { r.fail 0 with result0 := child }

/-- The sketch of the last committed query position, by request, layer and head (R362): of a decode that of the last accepted token's query, of a prefill the last of its
block. -/
def State.commitQsketch (s : State) : State :=
  s.fore.qpend.foldl (fun (s : State) x =>
    match s.req x.1 with
    | some r =>
      match (if r.opcode = 3 then x.2.2.2[r.newTokens.length - 1]? else x.2.2.2.getLast?) with
      | some k =>
        if r.stage = .finishing ∧ r.status ≠ 0 then s
        else { s with qsketch := (s.qsketch.filter fun y => !(y.1 == r.handle && y.2.1 == x.2.1 && y.2.2.1 == x.2.2.1)) ++
          [(r.handle, x.2.1, x.2.2.1, k)] }
      | none => s
    | none => s) { s with fore := { s.fore with qpend := [] } }

/-- Pages that the tick has written elsewhere: full tails, rebuilt pages, forks, spills, and cleaned copies. -/
def State.commitWrites (s : State) (t : Nat) : State :=
  let s := s.fullSlots.foldl (State.stageFlush t) s
  let ms := (s.fore.plan.map (·.rebuilt)).getD []
  let s := (ms.foldl (State.stageRebuilt t) s).countRebuilt s ms
  let s := s.fore.forks.foldl (State.commitFork t) s
  let s := s.flash.spilling.foldl (fun (s : State) c => s.pinHbm c.1 false) { s with flash := { s.flash with spilling := [] } }
  s.flash.cleaned.foldl (State.commitClean t) { s with flash := { s.flash with cleaned := [] } }

/-- Runs that committed deltas move in plan `t` from or to this member (R562, R570). -/
def State.movesOf (s : State) (t : Nat) (out : Bool) : List (W32 × Nat × Nat) :=
  (s.fore.deltas.filter fun d => d.committed && d.firstPlan == t).flatMap fun d => d.entries.filterMap fun e =>
    match e with
    | .runMove q first n src dst => if (if out then src else dst) = s.crew.coord then some (q, first, n) else none
    | _ => none

/-- The tails of a run that leaves have gone with it: their slots are free (R570, R684). -/
def State.dropTails (s : State) (m : W32 × Nat × Nat) : State :=
  let p := max 1 s.pagePositions
  ((s.land.slots.filter fun e => e.2.state == .tail && e.2.seq == m.1 && decide (m.2.1 ≤ e.2.firstPos / p ∧ e.2.firstPos / p < m.2.1 + m.2.2)).map
    Prod.fst).foldl State.freeSlots s

/-- The staged edits of every page list form its new generation (R293), the slots of flushed tails are free, and the sketch tables fit the pages held (R363). -/
def State.commitLists (s : State) (t : Nat) (full : List Nat) : State :=
  let due := s.newPages t
  let s := s.seqs.foldl (fun (s : State) q => s.commitEdits t q) s
  let s := { s with seqs := s.seqs.map (Seq.commit t), fore := { s.fore with sketchQ := due, forks := [] } }
  let s := (s.seqs.filter fun q => !q.closing).foldl (fun (s : State) q => s.queueDue t q) s
  let s := (s.movesOf t true).foldl State.dropTails (full.foldl State.freeSlots s)
  let s := (s.seqs.filter fun q => !q.closing).foldl (fun (s : State) q => s.settleTable q.handle) s
  { s with land := { s.land with slots := Sparse.mapVals {} (fun _ x => commitFill x) s.land.slots } }

/-- PINNED bits that a change of RET_SINK sets or clears, as edits of the tick after the change has committed (R287, R360). -/
def State.repin (t : Nat) (s : State) (q : Seq) : State :=
  ((q.leaves (q.rootNow t)).filter fun e => decide (leafTier e.2 < 2) && leafPinned e.2 != s.sinkPage e.1).foldl
    (fun (s : State) e => s.stageEdit t q.handle e.1 (putFld e.2 59 1 (bit (s.sinkPage e.1)))) s

/-- Every page list follows RET_SINK (R360). -/
def State.repinAll (s : State) (t : Nat) : State := (s.seqs.filter fun q => !q.closing).foldl (State.repin t) s

/-- Step 1 (R86): the staged edits of t apply, with Landing flushes, rebuilt pages, forks, the edits of closed sequences, flash copies and failed
frames. -/
def State.commitPages (s : State) (t : Nat) : State :=
  let closing := s.seqs.filter (·.closing)
  let s := ((((s.commitWrites t).commitFailed t).repinAll t).commitLists t s.fullSlots).commitRepairs.rewriteMirror.retireSuspects
  let s := closing.foldl (State.finishClose t) s
  let s := s.seqs.foldl (fun (s : State) q =>
    if q.closing then s else s.enterRuns t q.handle (q.log.length + 1)) s
  s.commitQsketch

/-! ### Step 2: pins, decrements, releases (R299) -/

/-- The frame is kept although nothing counts it: a slot's flush frame, or the target of a copy in progress. -/
def State.hbmKept (s : State) (f : Nat) : Bool :=
  (s.land.slots.any fun e => e.2.state == .tail && e.2.flushFrame == f) || (s.hbm.copies.any fun c => c.2 == f)

/-- Release one HBM frame; a frame with a valid flash copy gives up the copy link's reference (R297, R299). -/
def State.releaseHbm (s : State) (f : Nat) : State :=
  let e := s.hbmEnt f
  let s := (s.setHbmEnt f {}).lotCount (frameDie f) e.lot 5
  let s := { s with hbm := { s.hbm with failed := s.hbm.failed.filter (· != CopyId.hbmFrame f) } }
  let s := { s with flash := { s.flash with queue := s.flash.queue.filter fun x => x.2 != f } }
  match s.flashCopyOf f with
  | some g =>
    let x := s.flashEnt g
    (s.setFlashEnt g { x with refcount := x.refcount - 1 }).setHbmSide f (sbPut (s.hbmSide f) 4480 41 0)
  | none => s

/-- Release one flash frame; what it holds next is another copy, which has not failed (R396). -/
def State.releaseFlash (s : State) (f : Nat) : State :=
  let e := s.flashEnt f
  let s := (s.setFlashEnt f {}).lotCount 0 e.lot 7
  { s with hbm := { s.hbm with failed := s.hbm.failed.filter (· != CopyId.flashFrame f) } }

/-- Step 2 (R86, R299). -/
def State.commitReleases (s : State) : State :=
  let unpin (_ : Nat) (e : FrameEnt) : FrameEnt := { e with tickPin := false }
  let s := { s with
    hbm := { s.hbm with ftab := Sparse.mapVals {} unpin s.hbm.ftab }
    flash := { s.flash with ftab := Sparse.mapVals {} unpin s.flash.ftab } }
  let s := s.hbm.decr.foldl (fun (s : State) f => let e := s.hbmEnt f; s.setHbmEnt f { e with refcount := e.refcount - 1 }) s
  let s := s.hbm.flashDecr.foldl (fun (s : State) f => let e := s.flashEnt f; s.setFlashEnt f { e with refcount := e.refcount - 1 }) s
  let s := { s with hbm := { s.hbm with decr := [], flashDecr := [] }, seqs := s.seqs.map Seq.releaseNodes }
  let dead := (s.hbm.ftab.filter fun e => e.2.inUse && e.2.refcount == 0 && e.2.longPins == 0 && !(s.hbmKept e.1)).map Prod.fst
  let s := dead.foldl State.releaseHbm s
  let deadF := (s.flash.ftab.filter fun e => e.2.inUse && e.2.refcount == 0 && e.2.longPins == 0 &&
    !(s.flash.cleaning.any fun c => c.2 == e.1)).map Prod.fst
  deadF.foldl State.releaseFlash s

/-! ### Step 3: commands (R86, R422, R457 to R463, R571 to R574, R613, R682) -/

/-- The lowest slot of a member whose handle is not live (R613). -/
def State.freeHandle (s : State) (coord : Nat) : Option W32 :=
  let h (i : Nat) : W32 := BitVec.ofNat 32 (coord * 2 ^ 20 + i)
  ((List.range (s.seqs.length + 1)).find? fun i => (s.seq (h i)).isNone && decide (i ≤ 0xFFFFE)).map h

/-- A sequence as it opens, with its virtual region and the REPRO in force (R278, R291, R577, R613). -/
def State.newSeq (s : State) (h : W32) (r : Req) (lMax : Nat) : Seq :=
  { handle := h, lMax := lMax, vpages := s.vpagesOf lMax, levels := pageLevels (s.vpagesOf lMax), lot := r.lot, order := s.crew.opened,
    salt := s.kvSalt, repro := s.repro }

/-- OPEN_SEQ applies (R613). -/
def State.applyOpen (s : State) (r : Req) : State :=
  match s.freeHandle r.coord with
  | none => s.updReq r.rid fun r => r.fail 7
  | some h =>
    ({ s with seqs := s.seqs ++ [s.newSeq h r r.e.pos], crew := { s.crew with opened := s.crew.opened + 1 } }).updReq r.rid fun r =>
      { r.fail 0 with result0 := h }

/-- FORK applies: the child's handle is assigned, and its list is built in the next tick (R87, R328, R613). -/
def State.applyFork (s : State) (r : Req) (q : Seq) : State :=
  if q.log.length < r.e.pos then s.updReq r.rid fun r => r.fail 4
  else
    match s.freeHandle r.coord with
    | none => s.updReq r.rid fun r => r.fail 7
    | some h =>
      let c := { s.newSeq h r q.lMax with log := q.log.take r.e.pos, parent := some q.handle, salt := q.salt,
                                          masked := q.masked.filter fun v => decide (s.runOf v * s.pagePositions < r.e.pos) }
      ({ s with seqs := s.seqs ++ [c], crew := { s.crew with opened := s.crew.opened + 1 }
                fore := { s.fore with forks := s.fore.forks ++ [(r.rid, q.handle, r.e.pos, h)] } }).updReq r.rid fun r =>
        { r with stage := .admitted, result0 := h }

/-- A work command leaves the merge, or stays held there while HOLD is in force (R93, R604). -/
def State.applyWork (s : State) (t : Nat) (r : Req) (hold : Bool) : State :=
  let s := s.updReq r.rid fun r => { r with stage := if hold then .held else .waiting, tick := t }
  if hold then s.crewCount 43 else s

/-- The sequence of a command, or its completion with BAD_HANDLE or SEQ_LOST (R412, R611, R619). -/
def State.onSeq (s : State) (r : Req) (f : Seq → State) : State :=
  match s.seq r.handle with
  | none => s.updReq r.rid fun r => r.fail 5
  | some q => if q.lost then s.updReq r.rid fun r => r.fail 0xB else f q

/-- CLOSE applies: the handle is no longer live; what it frees is staged in the next tick (R87, R619). -/
def State.applyClose (s : State) (r : Req) : State :=
  match s.seq r.handle with
  | none => s.updReq r.rid fun r => r.fail 5
  | some _ => (s.updSeq r.handle fun q => { q with closing := true }).updReq r.rid fun r => r.fail 0

/-- A copy of a weight block that a LOAD_WEIGHTS has written again (R380). -/
def rewritten (first n : Nat) (c : CopyId) : Bool :=
  match c with
  | .weightHbm b | .weightFlash b | .weightMirror b | .heldMirror b => decide (first ≤ b ∧ b < first + n)
  | _ => false

/-- The blocks of a LOAD_WEIGHTS count toward every layer that is poisoned (R403). -/
def State.noteWritten (s : State) (first n : Nat) : State :=
  let ls := if s.wt.modPoison then List.range s.layers else s.wt.poisoned
  { s with hbm := { s.hbm with failed := s.hbm.failed.filter fun c => !(rewritten first n c) }
           wt := { s.wt with written := (s.wt.written ++ ls.flatMap fun l => (List.range n).map fun i => (l, first + i)).eraseDups } }

/-- LOAD_WEIGHTS applies: layers whose blocks have all been written are no longer poisoned; a load of block 0 replaces the crew's measurement (R403,
R618, R679). -/
def State.applyLoad (s : State) (r : Req) : State :=
  let n := weightFrames s.img.model
  let s := ((s.noteWritten r.e.w4 r.e.w5).programFrames (s.flashUser + r.e.w4) r.e.w5).programFrames (s.flashUser + n + r.e.w4) r.e.w5
  let m := if r.e.w4 = 0 then weightMeasure s.wt.header else s.wt.measure
  let sound := !s.wt.modPoison || (List.range s.layers).all s.layerHealed
  let left := s.wt.poisoned.filter fun l => !(s.layerHealed l)
  let s := { s with wt := { s.wt with
    loadCount := s.wt.loadCount + 1, measure := m, crewMeas := if r.e.w4 = 0 then m else s.wt.crewMeas, poisoned := left, modPoison := !sound
    written := s.wt.written.filter fun e => left.contains e.1 || !sound } }
  s.updReq r.rid fun r => { r.fail 0 with result0 := BitVec.ofNat 32 r.e.w5, data := [] }

/-- Sum of TICK_SHARE over the lots (R416). -/
def shareSum (lots : Sparse (BitVec 128)) : Nat := (lots.map fun e => fld e.2 16 16).foldl (· + ·) 0

/-- SET_QUOTA applies (R414, R416, R422). -/
def State.applyQuota (s : State) (r : Req) : State :=
  if r.e.kind then
    ({ s with host := { s.host with queueLot := Sparse.set 0 s.host.queueLot r.e.mapQid r.e.lot } }).updReq r.rid fun r => r.fail 0
  else
    let lots := Sparse.upd 0 s.lots r.e.lot fun x => lotApply x r.e.record r.e.select
    if 65536 < shareSum lots then s.updReq r.rid fun r => r.fail 4
    else ({ s with lots := lots }).updReq r.rid fun r => r.fail 0

/-- A command on an index that another member holds waits for what its home returns (R434). -/
def State.applyRemote (s : State) (r : Req) : State :=
  if r.coord = s.crew.coord then s.updReq r.rid fun r => { r with stage := .admitted } else s.updReq r.rid fun r => r.fail 0

/-- VEC_INSERT and codebook reload at step 3 (R457, R458, R471); a side entry is 64 bytes of flash (R443, R462). -/
def State.applyInsert (s : State) (t : Nat) (r : Req) : State :=
  match s.index r.e.indexId with
  | none => s.applyRemote r
  | some x =>
    let vec := BitVec.ofNat 64 r.e.q1
    if x.offline then s.applyRemote r
    else if r.e.codebook then
      (((s.updIndex r.e.indexId fun x => { x with idleBook := some r.data }).updReq r.rid fun r => { r.fail 0 with data := [] }).indexCount
        r.e.indexId 15).indexBytes (1024 * ixM x.record)
    else if x.live.any fun e => e.1 == vec then (s.updReq r.rid fun r => r.fail 0xE).indexCount r.e.indexId 10
    else if ixMaxNodes x.record ≤ x.live.length then (s.updReq r.rid fun r => r.fail 0xF).indexCount r.e.indexId 12
    else
      let e := x.newInsert t vec r.data
      ((((s.updIndex r.e.indexId fun x => x.append e).writeEntry r.e.indexId e).updReq r.rid fun r => { r.fail 0 with data := [] }).indexCount
        r.e.indexId 8).indexBytes 64

/-- VEC_DELETE at step 3 (R459). -/
def State.applyDelete (s : State) (t : Nat) (r : Req) : State :=
  match s.index r.e.indexId with
  | none => s.applyRemote r
  | some x =>
    let vec := BitVec.ofNat 64 r.e.q1
    if x.offline then s.applyRemote r
    else
      match x.live.find? fun e => e.1 == vec with
      | none => (s.updReq r.rid fun r => r.fail 0x10).indexCount r.e.indexId 11
      | some e =>
        let d := x.newDelete t vec e.2
        ((((s.updIndex r.e.indexId fun x => x.append d).writeEntry r.e.indexId d).updReq r.rid fun r => r.fail 0).indexCount r.e.indexId 9).indexBytes 64

/-- DRAIN applies (R682, R683). -/
def State.applyDrain (s : State) (r : Req) : State :=
  if s.crew.members.length ≤ 1 ∨ s.sys.state = .drain then s.updReq r.rid fun r => r.fail 4
  else ({ s with sys := { s.sys with state := .drain } }).updReq r.rid fun r => { r with stage := .admitted }

/-- One staged command takes effect (R86 step 3). -/
def State.applyCmd (t : Nat) (hold : Bool) (s : State) (x : Req) : State :=
  match s.req x.rid with
  | none => s
  | some r =>
    if r.stage ≠ .staged then s
    else if r.opcode = 0x01 then s.applyOpen r
    else if r.opcode = 0x02 ∨ r.opcode = 0x03 then s.onSeq r fun _ => s.applyWork t r hold
    else if r.opcode = 0x04 then s.onSeq r (s.applyFork r)
    else if r.opcode = 0x06 then s.applyClose r
    else if r.opcode = 0x07 then s.applyLoad r
    else if r.opcode = 0x08 then s.applyQuota r
    else if r.opcode = 0x09 then ({ s with profile := profileApply s.profile r.e.word r.e.mask }).updReq r.rid fun r => r.fail 0
    else if r.opcode = 0x0A then s.applyInsert t r
    else if r.opcode = 0x0B then s.applyDelete t r
    else if r.opcode = 0x0C then s.applyRemote r
    else if r.opcode = 0x10 then s.applyDrain r
    else s.updReq r.rid fun r => { r with stage := .finishing }

/-- Requests that an open loss ends: on a lost sequence, or on an index without a home (R412, R434, R476). -/
def State.endLost (s : State) : State :=
  s.updReqs fun r =>
    if r.stage == .done || r.stage == .finishing then r
    else if (r.isWork || r.opcode == 4) && ((s.seq r.handle).map (·.lost)).getD false then r.fail 0xB
    else if (r.opcode == 0xA || r.opcode == 0xB || r.opcode == 0xC) && r.stage != .merge && r.stage != .next && (s.homeOf r.e.indexId).isNone then
      r.fail 0xD
    else r

/-- Step 3 (R86). -/
def State.commitCmds (s : State) (t : Nat) (hold : Bool) : State := (s.stagedCmds.foldl (State.applyCmd t hold) s).endLost

/-! ### Step 4: generations (R228, R469, R471, R502) -/

/-- A core's filled bank becomes current with its generation number (R227, R228). -/
def Core.swapBank (t : Nat) (k : Core) : Core :=
  if k.filled then
    { k with
      bank0 := if k.curBank then { k.bank0 with valid := true, gen := t } else k.bank0
      bank1 := if k.curBank then k.bank1 else { k.bank1 with valid := true, gen := t }
      curBank := !k.curBank, filled := false }
  else k

/-- Each die records the generation number of the banks that become current (R229). -/
def State.recordGens (s : State) (t : Nat) : State :=
  s.cores.foldl (fun (s : State) (e : Nat × Core) =>
    if e.2.filled then
      let d := s.die (e.1 / 128)
      s.setDie (e.1 / 128) { d with fnGen := Sparse.set 0 d.fnGen e.1 t }
    else s) s

/-- A finished merge's generation becomes current; the nodes lost that it has dropped are no longer live (R469, R474). -/
def VIndex.commitMerge (x : VIndex) : VIndex :=
  match x.merge, x.built with
  | some m, some ns =>
    let lost := (x.lostNodes.filterMap fun n => (x.nodes[n]?).map (·.entry)).filter fun e => !(ns.any fun n => n.entry == e)
    { x with nodes := ns, side := x.side.filter (fun e => decide (m ≤ e.tick)), tombs := x.tombs.filter (fun e => decide (m ≤ e.2)),
             live := x.live.filter (fun e => !(lost.contains e.2)), merge := none, built := none, lostNodes := [], gen := x.gen + 1 }
  | _, _ => x

/-- A reloaded codebook becomes current (R471). -/
def VIndex.commitBook (x : VIndex) : VIndex :=
  match x.idleBook with
  | some b => { x with codebook := b, idleBook := none, bookGen := x.bookGen + 1 }
  | none => x

/-- A LOAD_WEIGHTS is outstanding (R677). -/
def State.loadOutstanding (s : State) : Bool := s.reqs.any fun r => r.opcode == 7 && r.live && r.stage != .finishing

/-- The join requests recorded at the last commit name the module (R676). -/
def State.recorded (s : State) (m : Nat × W64 × Nat) : Bool :=
  s.crew.master != s.crew.coord ||
    s.crew.joinRec.any fun j => fld j 64 64 == m.2.1.toNat && bitAt j 51 && fld j 52 12 == m.1

/-- The modules that this commit admits (R676, R677). -/
def State.admissions (s : State) (ms : List (Nat × W64 × Nat)) : List (Nat × W64 × Nat) :=
  if s.loadOutstanding then [] else ms.filter fun m => s.recorded m && !(s.crew.members.any fun x => x.coord == m.1)

/-- READY ports toward members and toward modules that step 5 admits become UP; a member that gains a link floods its record (R516). -/
def State.raisePorts (s : State) (x : EdgeInput) : State :=
  let s' := s.portsUp (s.crew.members ++ (s.admissions x.admitted).map fun (m : Nat × W64 × Nat) => (⟨m.1, m.2.1, m.2.2⟩ : Member))
  if s'.ports = s.ports then s else s'.flood

/-- Step 4 (R86): READY ports toward members, and toward modules that step 5 admits, become UP with the new route tables (R502, R676),
which leave out every link lost by then (R519). -/
def State.commitTables (s : State) (t : Nat) (x : EdgeInput) : State :=
  let done := s.vidx.filter fun x => x.merge.isSome && x.built.isSome
  let s := (done.foldl (fun (s : State) x => (s.writeNodes x).indexCount (ixId x.record) 14) s).recordGens t
  let s := s.vidx.foldl State.writeBook s
  let s := { s with
    cores := Sparse.mapVals {} (fun _ k => k.swapBank t) s.cores
    vidx := s.vidx.map fun (x : VIndex) => x.commitMerge.commitBook
    yard := { s.yard with route := if s.yard.stale && s.yard.idle.isSome then s.buildRoutes else s.yard.idle.getD s.yard.route, idle := none } }
  s.raisePorts x

/-! ### Step 5: membership (R676 to R680, R686, R687) -/

/-- Rounds on rings start again at step 0, on rings laid for the new crew (R378). -/
def State.restartRounds (s : State) : State := { s with fore := { s.fore with ringStep := [], ringRuns := [] } }

/-- Admissions (R676, R677); the prefill rounds that run begin again without the new members (R378). -/
def State.admitModules (s : State) (ms : List (Nat × W64 × Nat)) : State :=
  let ok := s.admissions ms
  let keep := if s.loadOutstanding then s.crew.joinRec else []
  let s := { s with crew := { s.crew with
    members := s.crew.members ++ ok.map fun m => ⟨m.1, m.2.1, m.2.2⟩
    joinRec := (keep ++ s.crew.joinSeen).eraseDups, joinSeen := [] } }
  if ok = [] then s else s.settleMirror.restartRounds.crewCount 17 ok.length

/-- The head groups of a layer in the layout that this member holds (R358, R562). -/
def Forester.headsAt (f : Forester) (l : Nat) : List (List Nat × List Nat) :=
  ((f.heads.reverse.find? fun x => decide (x.1 ≤ l ∧ l < x.1 + x.2.1)).map (·.2.2)).getD []

/-- The layout gives this member a head group of some layer, or layers of a weight share (R686). -/
def State.inLayout (s : State) : Bool :=
  ((List.range s.layers).any fun l => (s.fore.headsAt l).any fun g => g.2.contains s.crew.coord) || s.fore.shares.any fun x => x.2.1 != 0

/-- What this module must have given up before it departs (R686). -/
def State.mayDepart (s : State) : Bool :=
  s.sys.state == .drain && !s.loadOutstanding && (s.hbm.ftab.all fun e => !e.2.inUse || e.2.lot == noLot) && (s.flash.ftab.all fun e => !e.2.inUse) &&
    (s.land.slots.all fun e => e.2.state != .tail) && (s.seqs.all fun q => !q.copyAt.contains s.crew.coord) &&
    (s.reqs.all fun r => r.opcode == 0x10 || r.coord != s.crew.coord || r.stage == .finishing || r.stage == .done) && !s.inLayout

/-- The module departs: DOWN_NOTICE on every UP port, lasers off, ports OFF, and the DRAIN completes (R686, R687). -/
def State.depart (s : State) : State :=
  let s := s.allUp.foldl (fun (s : State) n => s.send (.downNotice n)) s
  let s := { s with
    ports := Sparse.mapVals {} (fun _ (p : LinkPort) => { lost := p.lost, mapChanged := p.mapChanged }) s.ports
    crew := { s.crew with member := false, heldCoord := some s.crew.coord }
    sys := { s.sys with departed := true } }
  s.updReqs fun r => if r.opcode = 0x10 ∧ r.stage = .admitted then r.fail 0 else r

/-- RING entries of subcubes that have lost a member no longer stand: their rounds run on the rings of later entries (R378). -/
def ringWithout (cs : List Nat) (e : DeltaEntry) : Bool :=
  match e with
  | .ring _ b k => cs.any fun c => c / 2 ^ k == b / 2 ^ k
  | _ => false

/-- A member without some others: its lists of members, index homes and token-log copies follow (R412, R671, R693). -/
def State.dropMembers (s : State) (cs : List Nat) : State :=
  let gone := s.seqs.filter fun (q : Seq) => !q.lost && q.copyAt != [] && q.copyAt.all cs.contains
  let s := { s with
    crew := { s.crew with members := s.crew.members.filter (fun m => !(cs.contains m.coord)), homes := s.crew.homes.filter (fun h => !(cs.contains h.2)), draining := s.crew.draining.filter fun c => !(cs.contains c) }
    seqs := s.seqs.map fun (q : Seq) =>
      let left := q.copyAt.filter fun c => !(cs.contains c)
      { q with copyAt := left, lost := q.lost || (q.copyAt != [] && left == []) }
    reqs := s.reqs.filter fun r => !(cs.contains r.coord) || r.coord == s.crew.coord
    fore := { s.fore with deltas := s.fore.deltas.map fun (d : Delta) => { d with entries := d.entries.filter fun e => !(ringWithout cs e) } } }.settleMirror
  (if cs = [] then s else s.restartRounds).crewCount 35 gone.length

/-- Step 5 (R86). This module departs when it may; as master, only at an edge that names its successor `next` (R673). The crew says at the edge which
members are in DRAIN (log 43). -/
def State.commitCrew (s : State) (x : EdgeInput) (next : Nat) : State :=
  let s := s.admitModules x.admitted
  let others := x.departs.filter fun c => c != s.crew.coord && s.crew.members.any fun m => m.coord == c
  let s := s.dropMembers others
  let s := if others = [] then s else s.crewCount 18 others.length
  let s := if s.mayDepart ∧ (s.crew.master ≠ s.crew.coord ∨ next ≠ s.crew.coord) then (s.crewCount 18).depart else s
  { s with crew := { s.crew with n0 := s.crew.members.length, draining := x.draining } }

/-! ### Step 6: results (R605, R609, R610, R614) -/

/-- A result that an index home has returned (R434). -/
def State.takeReturned (s : State) (x : Returned) : State :=
  s.updReq x.rid fun r =>
    if r.stage = .admitted ∧ (r.opcode = 0xA ∨ r.opcode = 0xB ∨ r.opcode = 0xC) then
      { r.fail x.status with result0 := BitVec.ofNat 32 x.result0, data := x.data }
    else r

/-- Bytes at which APPEND and GENERATE complete: an APPEND when its last position's keys and values have committed and the last piece of its split tasks has run
(R99), a GENERATE at its last token (R612). A request that is held does not complete (R407). -/
def State.settleWork (s : State) : State :=
  s.updReqs fun r =>
    if r.stage ≠ .admitted ∨ s.seqHeld r.handle then r
    else if r.opcode = 2 ∧ r.needed ≠ 0 then
      let kv := ((s.seq r.handle).map (·.kvLen)).getD 0
      let r := { r with tokens := r.e.w4 }
      if r.needed ≤ kv ∧ r.pieces = 0 then { r.fail 0 with result0 := BitVec.ofNat 32 r.e.w4 } else r
    else if r.opcode = 3 ∧ r.newTokens ≠ [] ∧ r.endReason ≠ 3 then
      { r.fail 0 with result0 := BitVec.ofNat 32 (r.tokens + r.newTokens.length), result1 := BitVec.ofNat 32 r.endReason }
    else r

/-- The header of a GENERATE's output buffer (R614). -/
def outHeader (t tokens : Nat) (final : Bool) : BitVec 128 :=
  place 128 0 64 t ||| place 128 64 32 tokens ||| place 128 96 1 (bit final)

/-- A GENERATE's tokens of the commit, then the header (R614). -/
def State.writeOutput (t : Nat) (s : State) (r : Req) : State :=
  let final := r.stage == .finishing
  if r.opcode ≠ 3 ∨ (r.newTokens = [] ∧ !final) then s
  else
    let n := r.tokens + r.newTokens.length
    let s := if r.owed ∧ r.coord = s.crew.coord then
        let s := if r.newTokens = [] then s
          else s.hostWrite r.port (r.e.q1 + 16 + 4 * r.tokens) (r.newTokens.flatMap fun w => leBytes 4 w.toNat)
        (s.hostWrite r.port r.e.q1 (leBytes 16 (outHeader t n final).toNat)).pcieCount r.port 13
      else s
    let s := if r.newTokens = [] then s else s.lotCount 0 r.lot 23 r.newTokens.length
    s.updReq r.rid fun r => { r with tokens := n, newTokens := [], dataRead := r.dataRead && r.e.drafts == 0, data := [] }

/-- The result buffer of a search, counters or report (R452, R612, R621). -/
def State.writeResult (s : State) (r : Req) : State :=
  if r.stage ≠ .finishing ∨ r.status ≠ 0 ∨ !r.owed ∨ r.coord ≠ s.crew.coord ∨ r.data = [] then s
  else if r.opcode = 0xC ∨ r.opcode = 0xE then s.hostWrite r.port r.e.q2 r.data
  else if r.opcode = 0xD then s.hostWrite r.port r.e.q1 r.data
  else s

/-- One completion: written to the queue that submitted the command, or returned to the member that forwarded it (R434, R610). -/
def State.complete (t : Nat) (bad : List Nat) (s : State) (r : Req) : State :=
  if r.coord = s.crew.coord then (s.writeCompletion t (!bad.contains r.rid) r).lotCount 0 r.lot (lotStatusEvent r)
  else if r.opcode = 0xA ∨ r.opcode = 0xB ∨ r.opcode = 0xC then
    if s.homed r.e.indexId then s.send (.result r.coord r.qid r.arrival r.status.toNat r.result0.toNat r.data) else s
  else s

/-- The request goes on after the commit. -/
def Req.lasting (r : Req) : Bool := r.stage != .finishing && r.stage != .done

/-- Step 6 (R86): output buffers, results, completions in arrival order, then MSI-X messages (R610). -/
def State.commitResults (s : State) (t : Nat) (x : EdgeInput) (bad : List Nat) : State :=
  let s := (x.returned.foldl State.takeReturned s.commitFlags).settleWork
  let progress := (s.reqs.filter fun r => r.opcode == 3 && r.owed && r.coord == s.crew.coord && r.newTokens != [] &&
    (s.queue r.qid).progressIrq).map fun r => (r.port, (s.queue r.qid).msixVec.toNat)
  let s := s.reqs.foldl (State.writeOutput t) s
  let fin := cmdOrder (s.reqs.filter fun r => r.stage == .finishing)
  let s := fin.foldl State.writeResult s
  let own := fin.filter fun r => r.owed && r.coord == s.crew.coord
  let done := (own.filter fun r => !bad.contains r.rid).map fun r => (r.port, (s.queue r.qid).msixVec.toNat)
  let s := fin.foldl (State.complete t bad) s
  let reading := if fin.any fun r => r.opcode == 0xD then none else s.ctr.reading
  let s := { s with
    reqs := s.reqs.filter Req.lasting
    searches := s.searches.filter fun x => !(fin.any fun r => r.rid == x.rid)
    ctr := { s.ctr with reading := reading } }
  s.sendMessages (progress ++ done)

/-! ### Step 7 and the accounts of an edge (R707, R710, R712) -/

/-- Work slots of an attempt that commits: RETIRED, or WASTED where the commit discards what they did (R708, R710). `gone` are the requests whose
results are discarded, `spec` the rows rejected and all rows of requests with drafts (R617). -/
def State.retireSlots (gone : List Nat) (spec : List (Nat × Nat × Nat)) (s : State) (core : Nat) : State :=
  let k := s.core core
  let ev (s : State) (e n : Nat) : State := if n = 0 then s else s.count (core / 128) 0 (core % 128 * 16 + e) n
  let of (p : Option Nat → Bool) : Nat := ((k.ctxs.filter fun c => p c.2.req).map fun c => c.2.work).foldl (· + ·) 0
  let lost := of fun r => match r with
    | some r => gone.contains r
    | none => false
  let specs := (k.ctxs.map fun c => match c.2.req.bind fun r => spec.find? fun x => x.1 == r && !gone.contains r with
    | some x => if x.2.2 = 0 then 0 else c.2.work * x.2.1 / x.2.2
    | none => 0).foldl (· + ·) 0
  let wasted := lost + specs
  let s := ev (ev (ev (ev s 15 lost) 14 specs) 1 wasted) 0 (k.work - wasted)
  s.setCore core { k with work := 0, ctxs := Sparse.mapVals {} (fun _ c => { c with work := 0 }) k.ctxs }

/-- Work slots of an attempt that does not commit (R710). -/
def State.wasteSlots (s : State) (core : Nat) : State :=
  let k := s.core core
  if k.work = 0 then s
  else (s.count (core / 128) 0 (core % 128 * 16 + 13) k.work).count (core / 128) 0 (core % 128 * 16 + 1) k.work

/-- Requests whose results the commit discards (R710). -/
def State.discarded (s : State) : List Nat :=
  (s.reqs.filter fun r => r.stage == .finishing && (r.status == 1 || decide (0x100 ≤ r.status.toNat) || r.status == 0xA)).map (·.rid)

/-- Rejected and all rows of each request that checked drafts (R617, R710). -/
def State.specRows (s : State) : List (Nat × Nat × Nat) :=
  (s.reqs.filter fun r => r.opcode == 3 && r.newTokens != [] && r.e.drafts != 0).map fun r =>
    (r.rid, r.e.drafts + 1 - r.newTokens.length, r.e.drafts + 1)

/-- Step 7 (R86, R712): every counter is latched, with the throttle steps that the Forester reads (R555). -/
def State.latchCounters (s : State) (t : Nat) : State :=
  { s with fore := { s.fore with steps := (List.range s.nDies).foldl (fun m d => Sparse.set 0 m d (s.die d).step) [] }, ctr := { s.ctr with latched := some ⟨t, s.ctr.live, s.freeIx⟩ }, freeIx := s.freeIx + 1 }

/-- The commit of tick `t`, steps 0 to 7 (R86). `hold` and `next` are HOLD and MASTER_COORD of the edge. -/
def State.commit (s : State) (t : Nat) (hold : Bool) (x : EdgeInput) (bad : List Nat) (next : Nat) : State :=
  let s := s.commitAborts
  let gone := s.discarded
  let spec := s.specRows
  let s := (s.cores.map Prod.fst).foldl (State.retireSlots gone spec) s
  let s := (s.commitPages t).commitReleases
  let s := ((s.commitCmds t hold).commitTables t x).commitCrew x next
  (s.commitResults t x bad).latchCounters t

end Sys2Proof.Machine
end

