-- ==== Sys2Proof/Machine/Planner.lean ====
section
/-! DEFINITION. What binds the local planner's choices of one plan: slot grants, estimates and splits, alternatives, the division of cores, stage memory
and HBM frames, lots and collectives (R72, R97 to R105, R186, R196, R226, R229, R247, R248, R307, R337, R421, R526, R540, R541, R552 to R556, R565, R566,
R576 to R578). -/

namespace Sys2Proof.Machine

/-! ### Slot grants (R540, R541) -/

/-- Streams in the order of R541. -/
def grantBefore (a b : CollPlan × CollStream) : Bool :=
  let k (x : CollPlan × CollStream) : List Nat := [x.1.cls, x.2.first, x.1.collId, x.2.sender]
  decide (k a < k b)

/-- Insert a stream in the order of R541. -/
def insertStream (x : CollPlan × CollStream) : List (CollPlan × CollStream) → List (CollPlan × CollStream)
  | [] => [x]
  | y :: ys => if grantBefore x y then x :: y :: ys else y :: insertStream x ys

/-- Slots of reduction memory (R540). -/
def reductionSlots : Nat := 384

/-- A stream takes the two lowest slots that no granted interval overlapping its own holds; otherwise it is planned staged (R540, R541). -/
def grantStream (acc : List (Grant × Nat × Nat)) (x : CollPlan × CollStream) : List (Grant × Nat × Nat) :=
  let taken := (acc.filter fun g => decide (g.2.1 ≤ x.2.last ∧ x.2.first ≤ g.2.2)).flatMap fun g => g.1.slots
  let free := (List.range reductionSlots).filter fun n => !(taken.contains n)
  let slots := if 2 ≤ free.length then free.take 2 else []
  acc ++ [(⟨x.1.collId, x.2.sender, x.2.level, slots⟩, x.2.first, x.2.last)]

/-- A plan's streams in the order in which they are granted. -/
def grantOrder (cs : List CollPlan) : List (CollPlan × CollStream) :=
  (cs.flatMap fun c => c.streams.map fun x => (c, x)).foldl (fun a x => insertStream x a) []

/-- The grants of a plan's streams (R541). -/
def grantsOf (cs : List CollPlan) : List Grant := ((grantOrder cs).foldl grantStream []).map fun g => g.1

/-- Planned staged streams take at most half of each staged area at any time (R544). -/
def stagedFits (cs : List CollPlan) : Bool :=
  let st := ((grantOrder cs).zip (grantsOf cs)).filter fun x => x.2.slots == []
  st.all fun x => decide (((st.filter fun y => y.1.1.die == x.1.1.die && y.1.2.stack == x.1.2.stack &&
    decide (y.1.2.first ≤ x.1.2.first ∧ x.1.2.first ≤ y.1.2.last)).map fun y => y.1.2.bytes).foldl (· + ·) 0 ≤ 2 ^ 23)

/-! ### The reproducible profile (R575 to R578) -/

/-- SPAN_LOG2 and HG_LOG2 of the image's REPRO_RULE (R575). -/
def State.spanLog (s : State) : Nat := fld s.img.profile 188 4
def State.groupLog (s : State) : Nat := fld s.img.profile 184 4

/-- The crew is a complete cube of at least 2^SPAN_LOG2 members (R576). -/
def State.wholeCube (s : State) : Bool :=
  decide (s.crew.members.length = 2 ^ s.img.dims ∧ 2 ^ s.spanLog ≤ s.crew.members.length)

/-- The member set of a sequence; the whole crew while no delta has given one. -/
def State.setOf (s : State) (h : W32) : Nat × Nat := ((s.fore.seqSets.find? fun x => x.1 == h).map Prod.snd).getD (0, 2 ^ s.img.dims)

/-- The plan being made follows the rules of R576; a plan under R105 or R551, or of a crew that is no such cube, is made as with REPRO = 0 (R578). -/
def State.reproPlan (s : State) : Bool := s.repro && s.wholeCube && !s.fore.replan

/-- C as the plan takes it: under the reproducible profile the value fixed at the crew's formation, taken as the delivery margin measured then
(R555, R576; log 46). -/
def State.planBudget (s : State) : Nat := if s.reproPlan then s.shortPeriod - s.tick.margin else s.budget

/-! ### Estimates (R97, R158, R169, R187, R196, R556) -/

/-- The bounds that the Forester expects: those that it can read, and the expected values of MEMWORD levels in nest order (R196). -/
def expectBounds (t : Sparse W64) : List Level → List Nat → List Nat
  | [], _ => []
  | l :: ls, e => if l.src = 2 then e.headD 0 :: expectBounds t ls e.tail else boundOf [] t l :: expectBounds t ls e

/-- The whole task of a plan under one alternative, with its expected bounds; no descriptor for a vector pass. -/
def State.expectCtx (s : State) (t : TaskPlan) (alt : Nat) : Ctx :=
  match t.kind with
  | .matrix operation _ =>
    let c := s.planCtx 0 { t with kind := .matrix operation alt, part := none }
    { c with bounds := expectBounds c.treg (dNest c.desc) t.expect }
  | .vector _ => {}

/-- The alternative that a task names. -/
def taskAlt (t : TaskPlan) : Nat :=
  match t.kind with
  | .matrix _ alt => alt
  | .vector _ => 0

/-- Arithmetic cycles of a matrix task: R169 per reduction tile, or the rate of R158 under NUM=STRICT. -/
def State.ctxCycles (s : State) (c : Ctx) : Nat :=
  tProbCount c.treg * c.prodBounds (List.range (dLevels c.desc)) * descTileCycles s.num c.desc

/-- Sixteenths of 2.25 GHz at which the plan takes a die to run: its clock in the Tally snapshot of the latest commit (R555), or the nominal one (R556, R576
rule 6). -/
def State.planClock (s : State) (die : Nat) : Nat := if s.reproPlan then 16 else 16 - Sparse.get 0 s.fore.steps die

/-- A number of cycles in 10 ns units: 22.5 cycles of the full clock pass in each (R556). The spec gives no rounding; a begun unit counts (DESIGN CHOICE,
log 60). -/
def State.cyclesTime (s : State) (die cycles : Nat) : Nat := ceilDiv (cycles * 32) (45 * s.planClock die)

/-- Cycles of a vector pass over a row of `len` elements, of the passes for which a rule counts them: normalisation, statistics with output and conversion (R237),
and the three passes of a soft maximum (R241). -/
def State.passCycles (s : State) (pass : VecPass) (len : Nat) : Nat :=
  match pass with
  | .normalise => (if s.normKind = 0 then 4 else 8) * ceilDiv len 64
  | .softMax => ceilDiv len 64 + 2 * ceilDiv len 16
  | .rotary | .attention | .other => 0

/-- The estimate of a whole task alone (R97): computed for a matrix task under an alternative; of a vector pass the larger of the cycles of its row, whose length
its `expect` gives, and what the Forester has measured. -/
def State.altTime (s : State) (p : PlanInput) (t : TaskPlan) (alt : Nat) : Nat :=
  match t.kind with
  | .matrix _ _ => s.cyclesTime t.die (s.ctxCycles (s.expectCtx t alt))
  | .vector pass => max (s.cyclesTime t.die (s.passCycles pass (t.expect.headD 0))) (((p.ests.find? fun e => e.task == t.id).map (·.est)).getD 0)

def State.taskTime (s : State) (p : PlanInput) (t : TaskPlan) : Nat := s.altTime p t (taskAlt t)

/-- The level-0 bound of a task, and whether level 0 is a reduction level (R100). A vector pass has no level: it is indivisible (log 13). -/
def State.level0 (s : State) (t : TaskPlan) : Nat × Bool :=
  let c := s.expectCtx t (taskAlt t)
  (c.bounds.headD 1, ((dNest c.desc).head?.map fun l => l.role == 2).getD false)

/-! ### Splits and refusals (R98 to R101) -/

/-- A task that cannot be split to fit the budget (R100, R101): its estimate, level-0 bound and whether level 0 is a reduction level. -/
def estRefused (budget est bound0 : Nat) (reduction0 : Bool) : Bool :=
  decide (budget < est) && (decide (bound0 ≤ 1) || reduction0 || decide (budget * bound0 < est))

/-- Pieces of a task (R98). -/
def estPieces (budget est : Nat) : Nat := if est ≤ budget ∨ budget = 0 then 1 else ceilDiv est budget

/-- The task cannot be planned (R100, R101). -/
def State.tooLong (s : State) (p : PlanInput) (t : TaskPlan) : Bool :=
  estRefused s.planBudget (s.taskTime p t) (s.level0 t).1 (s.level0 t).2

/-- Pieces of split tasks that the next plan must carry: (task, request, piece, pieces). They run in consecutive ticks (R99). -/
def dueAfter (p : Option PlanInput) : List (Nat × Option Nat × Nat × Nat) :=
  match p with
  | some p => (p.tasks.filter fun t => decide (t.piece.1 + 1 < t.piece.2)).map fun t => (t.id, t.req, t.piece.1 + 1, t.piece.2)
  | none => []

/-- The task carries the next piece of its split, or the whole of it when it fits the budget (R98, R99). -/
def State.pieceOk (s : State) (p : PlanInput) (due : List (Nat × Option Nat × Nat × Nat)) (t : TaskPlan) : Bool :=
  let k := estPieces s.planBudget (s.taskTime p t)
  (match due.find? fun d => d.1 == t.id with
    | some d => decide (t.piece = d.2.2)
    | none => decide (t.piece = (0, max 1 k))) &&
  decide (t.part = if t.piece.2 ≤ 1 then none else some (pieceRange (s.level0 t).1 t.piece.2 t.piece.1))

/-- The estimate of what the task runs in the tick (R98): its part of the whole by level-0 iterations, rounded up, where the spec gives no formula (DESIGN CHOICE,
log 60). -/
def State.pieceTime (s : State) (p : PlanInput) (t : TaskPlan) : Nat :=
  match t.part with
  | some r => ceilDiv (s.taskTime p t * r.2) (max 1 (s.level0 t).1)
  | none => s.taskTime p t

/-- The pieces that are due are in the plan, as long as their requests go on (R99). -/
def State.duesMet (s : State) (ts : List TaskPlan) (due : List (Nat × Option Nat × Nat × Nat)) : Bool :=
  due.all fun d => (ts.any fun t => t.id == d.1) ||
    d.2.1.any fun r => (s.req r).all fun x => x.stage == .finishing || x.stage == .done || x.aborted

/-! ### Alternatives (R196, R565, R576) -/

/-- The fault that an alternative would raise with the bounds that the Forester expects (R196). -/
def State.altFault (s : State) (t : TaskPlan) (alt : Nat) : Option Nat :=
  match t.kind with
  | .matrix _ _ =>
    let c := s.expectCtx t alt
    if c.desc = [] then some 0x105 else c.issueFault (t.core % 8)
  | .vector _ => none

/-- Alternatives of a task's operation. -/
def State.altCount (s : State) (t : TaskPlan) : Nat :=
  match t.kind with
  | .matrix operation _ => ((s.img.loops.find? fun x => x.operation == operation).map fun x => x.descs.length).getD 0
  | .vector _ => 0

/-- No alternative passes: the request ends with the first one's fault (R196). -/
def State.noAlternative (s : State) (t : TaskPlan) : Option Nat :=
  match t.kind with
  | .matrix _ _ =>
    if (List.range (s.altCount t)).all fun a => (s.altFault t a).isSome then some ((s.altFault t 0).getD 0x105) else none
  | .vector _ => none

/-- The chosen alternative passes R196 and has the shortest estimate of those that do, the earlier between equals (R565); under the reproducible profile it
is the first that passes (R576 rule 4). -/
def State.altOk (s : State) (p : PlanInput) (t : TaskPlan) : Bool :=
  match t.kind with
  | .matrix _ alt =>
    (s.altFault t alt).isNone && (List.range (s.altCount t)).all fun a =>
      (s.altFault t a).isSome ||
        if s.reproPlan then decide (alt ≤ a)
        else decide (s.altTime p t alt < s.altTime p t a) || (s.altTime p t alt == s.altTime p t a && decide (alt ≤ a))
  | .vector _ => true

/-! ### Cores (R105, R186, R205, R226, R229, R566) -/

/-- The micro-programs that a task needs: those of its chain's ACT steps, or of its pass (R175, R226). -/
def State.taskNeeds (s : State) (t : TaskPlan) : List Nat :=
  match t.kind with
  | .matrix _ _ => ((dChain (s.descOf t.kind)).filter fun st => st.op == 3).map (·.param)
  | .vector .normalise => [4]
  | .vector .softMax | .vector .attention => [1]
  | .vector .rotary => [7, 8]
  | .vector .other => []

/-- The dies among whose cores a matrix operation may be split (R566). -/
def State.splitDie (s : State) (d : Nat) : Bool :=
  s.reproPlan || decide (7 * ((List.range s.nDies).map s.planClock).foldl max 0 ≤ 8 * s.planClock d)

/-- The plan goes around the parts named by earlier FAIL reports of the tick (R105). -/
def State.around (s : State) (kind num : Nat) : Bool :=
  s.fore.replan && decide (3 ≤ s.tick.attempt) && s.tick.blamed.contains (kind, num)

/-- A core, its stand or its die has been named (R77, R105). -/
def State.blamedCore (s : State) (die core : Nat) : Bool :=
  s.around 1 (coreNo die core) || s.around 2 (standNo die (core / 8)) || s.around 6 die

/-- The stand of a core takes tasks: awake, and not waking in the tick before (R699). -/
def State.standReady (s : State) (die core : Nat) : Bool :=
  let st := s.stand (standNo die (core / 8))
  !st.asleep && !st.waking

/-- The set of micro-programs that a core holds in the planned tick. -/
def State.planSet (s : State) (p : PlanInput) (k : Nat) : List Nat := ((p.fnSets.find? fun x => x.1 == k).map Prod.snd).getD (s.core k).bank.ids

/-- The core's bank serves the planned tick: it is current already, or a fill for the tick makes it so (R227, R229). -/
def State.bankReady (s : State) (p : PlanInput) (k : Nat) : Bool :=
  (!s.fore.replan && p.fnSets.any fun x => x.1 == k) || s.bankCurrent k

/-- Work for a request: one that is admitted, or that this plan admits; none of a request held or waiting (R93). -/
def State.workFor (s : State) (admits : List Nat) (rid : Nat) : Bool :=
  match s.req rid with
  | some r => !r.isWork || r.stage == .admitted || (r.stage == .waiting && admits.contains rid)
  | none => false

/-- The plan may hold work of the request: not of one that is held, but for the rebuild of its lost pages (R407, R408). -/
def State.servable (s : State) (p : PlanInput) (rid : Nat) : Bool :=
  (s.req rid).all fun r => !r.isWork || !(s.leftLost p r.handle || (s.fore.replan && s.fore.lostNow.contains r.handle))

/-- The sets of a plan fit their cores' banks, and no sleeping core is given one (R224, R226, R229). -/
def State.setsOk (s : State) (p : PlanInput) : Bool :=
  p.fnSets.all fun x => s.setFits x.2 && !(s.stand (x.1 / 8)).asleep

/-- One task of a plan keeps the rules (R93, R166, R196, R226, R229, R407, R566, R699). -/
def State.taskOk (s : State) (p : PlanInput) (admits : List Nat) (t : TaskPlan) : Bool :=
  let k := coreNo t.die t.core
  let set := s.planSet p k
  let split := s.descOf t.kind != [] && decide (1 < (p.tasks.filter fun x => x.op == t.op).length)
  s.hasCore t.die t.core && decide (t.ctx < 4) && decide (t.tregs.length ≤ 16) && s.altOk p t && (s.taskNeeds t).all t.fns.contains &&
    t.fns.all set.contains && s.setFits set && s.bankReady p k && s.standReady t.die t.core &&
    (!split || s.splitDie t.die) && !s.blamedCore t.die t.core && t.req.all (s.workFor admits) && t.req.all (s.servable p)

/-- Row tiles of a task's M range: the product of its M bounds (R171, R186). -/
def State.rowTiles (s : State) (t : TaskPlan) : Nat :=
  let c := s.expectCtx t (taskAlt t)
  c.prodBounds ((List.range (dLevels c.desc)).filter fun n => ((dNest c.desc)[n]?.map fun l => l.role == 0).getD false)

/-- Task registers without the bases, which differ among the tasks of a stand (R205). -/
def baseless (rs : List W64) : List W64 :=
  ((List.range rs.length).zip rs).map fun x =>
    if x.1 < 3 then putFld x.2 0 28 0 else if x.1 = 4 then putFld x.2 32 28 0 else if x.1 = 5 then putFld (putFld x.2 0 28 0) 32 28 0 else x.2

/-- Registers 0 to 10 of R184, without the allocations of operand A and of the output, which follow a task's own rows. -/
def opRegs (t : Sparse W64) : List W64 := (List.range 11).map fun i => if i = 0 ∨ i = 2 then putFld (tregAt t i) 32 29 0 else tregAt t i

/-- Two tasks of one operation differ in their rows alone (R186): the bounds of N and K levels and the registers agree, and the bases stand at the task's first
row tile, counted along the outermost M level from those of the task with row tile 0. -/
def State.sameOp (s : State) (t x : TaskPlan) : Bool :=
  let c0 := s.expectCtx t (taskAlt t)
  let c := s.expectCtx x (taskAlt x)
  let ms := (List.range (dLevels c.desc)).filter fun n => ((dNest c.desc)[n]?.map fun l => l.role == 0).getD false
  let inner := max 1 (c.prodBounds (ms.drop 1))
  (List.range (dLevels c.desc)).all (fun n => ms.head? == some n || c.bound n == c0.bound n) && x.rows.1 % inner == 0 &&
    match ms.head?.bind fun n => (dNest c.desc)[n]? with
    | some l => decide (opRegs c.treg = opRegs (advanceBases c.desc l (x.rows.1 / inner) c0.treg))
    | none => x.rows.1 == 0

/-- The bases of a halo task stand at row tile `q` of the operation (R205, R208): operand A at row q × M_T, the output in equal steps, operand B alike. -/
def State.haloBases (s : State) (ts : List TaskPlan) (x : TaskPlan) : Bool :=
  let c (q : Nat) : Ctx := ((ts.find? fun y => y.rows.1 == q).map fun y => s.expectCtx y (taskAlt y)).getD {}
  let d := (c 0).desc
  let l : Level := { role := 0, pos := 0, src := 0, arg := 0, sA := (dMT d * tAPitch (c 0).treg : Nat), sB := 0
                     sOut := (tOutBase (c 1).treg : Int) - tOutBase (c 0).treg }
  decide (opRegs (c x.rows.1).treg = opRegs (advanceBases d l x.rows.1 (c 0).treg))

/-- The tasks of one operation divide its row tiles (R186): contiguous runs that differ by at most one tile, or, of a halo operation, the tiles of one stand
in turn, tile j at position j mod 8, under one descriptor and one set of registers but for the bases (R205). -/
def State.opOk (s : State) (ts : List TaskPlan) : Bool :=
  match ts with
  | [] => true
  | t :: _ =>
    let d := s.descOf t.kind
    if d = [] then true
    else
      ts.all (fun x => decide (x.kind = t.kind ∧ x.rows.2 = s.rowTiles x)) &&
        if dKind d = 1 then
          decide (ts.length = 8) && (List.range 8).all (fun q => ts.any fun x => x.core % 8 == q && x.rows.1 == q) &&
            ts.all fun x => x.die == t.die && x.core / 8 == t.core / 8 && x.id == t.id && decide (baseless x.tregs = baseless t.tregs) &&
              decide (x.expect = t.expect ∧ x.rows.2 = t.rows.2) && s.haloBases ts x
        else
          decide ((ts.map fun x => coreNo x.die x.core).Nodup) &&
            ts.all (fun x => x.rows.1 == 0 || ts.any fun y => y.rows.1 + y.rows.2 == x.rows.1) &&
            decide ((ts.map fun x => x.rows.1).Nodup) && (ts.all fun x => ts.all fun y => decide (x.rows.2 ≤ y.rows.2 + 1)) &&
            (ts.filter fun x => x.rows.1 == 0).all fun x => ts.all (s.sameOp x)

/-- Every operation of a plan is divided as R186 says. -/
def State.opsOk (s : State) (ts : List TaskPlan) : Bool :=
  ((ts.map (·.op)).eraseDups).all fun n => s.opOk (ts.filter fun t => t.op == n)

/-- The work of every core fits S − C (R72). -/
def State.coresFit (s : State) (p : PlanInput) (ts : List TaskPlan) : Bool :=
  ((ts.map fun t => coreNo t.die t.core).eraseDups).all fun k =>
    decide (((ts.filter fun t => coreNo t.die t.core == k).map (s.pieceTime p)).foldl (· + ·) 0 ≤ s.planBudget)

/-! ### Stage memory (R223, R247, R248, R250, R277) -/

/-- What the plan takes of a die's stage memory: stream buffers, working space, resident weights. -/
def dieSpace (p : PlanInput) (die : Nat) : List (Nat × Nat) :=
  ((p.streams.filter fun x => x.die == die).map fun x => (x.base, x.room)) ++
    (((p.tasks.filter fun t => t.die == die).flatMap (·.space)).eraseDups) ++
    ((p.resident.filter fun x => x.1 == die).map fun x => x.2)

/-- Allocations lie below the function store and apart from each other, so their sum stays within 255 MiB (R247). -/
def spaceOk (rs : List (Nat × Nat)) : Bool :=
  rs.all (fun r => decide (r.1 + r.2 ≤ workBytes)) && decide (rs.Pairwise fun a b => meets a b = false) &&
    decide ((rs.map Prod.snd).foldl (· + ·) 0 ≤ workBytes)

/-- Bytes that a matrix task may store: its output's allocation and, of a blocked output, that of its exponents (R182, R184, R194). -/
def State.outRanges (s : State) (t : TaskPlan) : List (Nat × Nat) :=
  let c := s.expectCtx t (taskAlt t)
  let bb := blkLen (dBlkOut c.desc) * fmtBits (dFmtOut c.desc) / 8
  if c.desc = [] then []
  else (tOutBase c.treg, tOutAlloc c.treg) :: (if bb = 0 then [] else [(tOutExp c.treg, tOutAlloc c.treg / bb)])

/-- What a matrix task may store lies in working space of its die, so outside the function store, stream buffers and resident weights (R223, R247, R252). -/
def State.outsOk (s : State) (p : PlanInput) : Bool :=
  p.tasks.all fun t => (s.outRanges t).all fun r =>
    p.tasks.any fun x => x.die == t.die && x.space.any fun y => decide (y.1 ≤ r.1 ∧ r.1 + r.2 ≤ y.1 + y.2)

/-- The frames in which the bytes of an HBM or flash entry begin and end: of the data, or of the sidebands. -/
def entryFrames (addr bytes : Nat) : Nat × Nat :=
  if addr < sideBase then (addr / 16384, (addr + bytes - 1) / 16384) else ((addr - sideBase) / 1024, (addr - sideBase + bytes - 1) / 1024)

/-- Source and unit of a planned entry say where its address lies (R249): frames of one stack, of the own die or of another, or one flash frame on its
channel. -/
def State.sourceOk (s : State) (die : Nat) (src : Source) (unit addr bytes : Nat) : Bool :=
  let f := entryFrames addr bytes
  match src with
  | .hbmOwn | .hbmOther =>
    s.hasStack unit && decide (addr < landBase ∧ f.1 / 2 ^ 22 = unit ∧ f.2 / 2 ^ 22 = unit) && (decide (src = .hbmOwn) == decide (unit / 4 = die))
  | .flash => decide (addr < landBase ∧ f.1 = f.2 ∧ f.1 % 32 = unit)
  | .reduction | .otherModule => true

/-- The bytes that an item fills lie in its stream's buffer (R248), and they come from where its source says (R249); a weight entry names blocks, whose copy
is found when it is read (R396). -/
def State.itemOk (s : State) (x : StreamPlan) (i : StreamItem) : Bool :=
  match i with
  | .fetch src unit addr dst bytes _ layer =>
    decide (0 < bytes ∧ x.base ≤ dst ∧ dst + bytes ≤ x.base + x.room) && (layer.isSome || s.sourceOk x.die src unit addr bytes)
  | .blaze _ => true

/-- An item carries weights. -/
def isWeight (i : StreamItem) : Bool :=
  match i with
  | .fetch _ _ _ _ _ _ l => l.isSome
  | .blaze _ => false

/-- The streams of one die: numbered by planned start (R248), each walk context feeding at most one, and no key-value walk into a weight stream (R250).
A die that holds its share resident has no weight entries (R277). -/
def State.dieStreamsOk (s : State) (p : PlanInput) (die : Nat) : Bool :=
  let xs := p.streams.filter fun x => x.die == die
  xs.all (fun x => decide (x.num < 128) && x.items.all (s.itemOk x) && !(x.weight && x.walk.isSome)) && decide ((xs.map (·.num)).Nodup) &&
    decide ((xs.filterMap (·.walk)).Nodup) && xs.all (fun x => xs.all fun y => decide (y.num ≤ x.num ∨ x.start ≤ y.start)) &&
    (!(p.resident.any fun r => r.1 == die) || xs.all fun x => !(x.items.any isWeight))

/-- Bytes of the weights of this member's share (R277, R562). -/
def State.shareBytes (s : State) : Nat :=
  16384 * ((s.wt.share.flatMap fun x => (List.range x.2.1).flatMap fun i => layerBlocks s.layers s.wt.header (x.1 + i)).eraseDups).length

/-- Ranges of a die that hold weight bytes for the planned tick: those held resident now, and those that the weight entries of the tick in flight fill (R252,
R277). -/
def State.heldWeights (s : State) (die : Nat) : List (Nat × Nat) :=
  (s.die die).resident ++ (((s.fore.plan.map (·.streams)).getD []).filter fun x => x.die == die).flatMap fun x => x.items.filterMap fun i =>
    match i with
    | .fetch _ _ _ dst bytes _ (some _) => some (dst, bytes)
    | _ => none

/-- What a plan holds resident on a die is its whole share, an equal part of the member's, of bytes that are there (R277). -/
def State.residentOk (s : State) (p : PlanInput) (die : Nat) : Bool :=
  let rs := (p.resident.filter fun x => x.1 == die).map fun x => x.2
  rs == [] || (decide (s.shareBytes ≤ s.nDies * (rs.map Prod.snd).foldl (· + ·) 0) && uncovered rs (s.heldWeights die) == [])

/-- Streams and stage memory of a plan. -/
def State.stageOk (s : State) (p : PlanInput) : Bool :=
  p.streams.all (fun x => s.hasDie x.die) && p.resident.all (fun x => s.hasDie x.1) &&
    s.outsOk p && (List.range s.nDies).all fun d => spaceOk (dieSpace p d) && s.dieStreamsOk p d && s.residentOk p d

/-! ### Frames (R105, R307, R316, R337, R565) -/

/-- Free frames of a stack (R333). -/
def State.freeFrames (s : State) (stack : Nat) : Nat :=
  userFrames - s.weightSpan - (s.hbm.ftab.filter fun e => e.1 / 2 ^ 22 == stack && e.2.inUse).length -
    (s.hbm.retired.filter fun f => f / 2 ^ 22 == stack && !(s.hbmEnt f).inUse).length

/-- The stack of a die with the most free frames once those taken have gone, the lower between equals (R565). -/
def State.bestStack (s : State) (taken : List Nat) (die : Nat) : Nat :=
  let left (n : Nat) : Nat := s.freeFrames n - (taken.filter fun f => f / 2 ^ 22 == n).length
  (List.range 4).foldl (fun b i => if left b < left (die * 4 + i) then die * 4 + i else b) (die * 4)

/-- Each new frame goes to the best stack of its die, the ones before it counted (R565). -/
def State.placedOk (s : State) : List Nat → List Nat → Bool
  | _, [] => true
  | taken, f :: fs => f / 2 ^ 22 == s.bestStack taken (frameDie f) && s.placedOk (taken ++ [f]) fs

/-- The fresh frame of a page that the tick writes lies in the stack of the page's present frame, from which the page-copy engine copies (R316, R318). -/
def State.freshOk (s : State) (m : MoveChoice) : Bool :=
  match s.seq m.seq with
  | some q => if leafTier (q.entry m.v) = 0 then leafFrame (q.entry m.v) / 2 ^ 22 == m.dst / 2 ^ 22 else true
  | none => false

/-- The page has a committed HBM frame. -/
def State.hasFrame (s : State) (m : MoveChoice) : Bool := ((s.seq m.seq).map fun q => leafTier (q.entry m.v) == 0).getD false

/-- The promotions of a sequence are its flash pages in the order of its latest ranking, those not ranked after them (R336, R368). -/
def State.promotesOk (s : State) (p : PlanInput) : Bool :=
  ((p.promote.map (·.seq)).eraseDups).all fun h =>
    match s.seq h with
    | some q =>
      let vs := (p.promote.filter fun m => m.seq == h).map (·.v)
      let ranked := q.rank.filter fun v => leafTier (q.entry v) == 1
      vs.take ranked.length == ranked.take vs.length
    | none => false

/-- Promotions take the free frames above the margin of R333 that the plan's other allocations leave (R336). -/
def State.marginKept (s : State) (p : PlanInput) : Bool :=
  ((p.promote.map fun m => m.dst / 2 ^ 22).eraseDups).all fun n =>
    decide (32768 + ((planFrames p).filter fun f => f / 2 ^ 22 == n).length ≤ s.freeFrames n)

/-- A plan names distinct free frames outside blamed stacks, placed as R565 says; each tail's flush frame lies in the stack named, which is the planner's
choice (R105, R307, R337). -/
def State.framesOk (s : State) (p : PlanInput) : Bool :=
  let fs := planFrames p
  decide fs.Nodup && s.promotesOk p && s.marginKept p && fs.all s.hbmFree && fs.all (fun f => !(s.around 3 (f / 2 ^ 22))) && decide p.spillTo.Nodup && p.spillTo.all s.flashFree &&
    p.tails.all (fun t => decide (t.flushFrame / 2 ^ 22 = t.stack) && s.hasStack t.stack) && p.fresh.all s.freshOk &&
    s.placedOk (p.tails.map (·.flushFrame))
      ((p.promote ++ p.rebuilt ++ p.moved ++ p.fresh.filter fun m => !(s.hasFrame m)).map (·.dst))

/-- Whether every tail of a plan without a slot stands in a stack that has one, unless no Landing has (R308); the tails before it have theirs. -/
def State.seatTail (a : State × Bool) (x : TailPlan) : State × Bool :=
  let s := a.1
  let k := s.stagingSlots
  let v := s.pageOf x.firstPos x.layer x.head
  if (s.tailSlot x.seq x.layer x.head x.firstPos).isSome || s.hasFrame ⟨x.seq, v, 0⟩ then a
  else
    match s.slotRun x.stack k with
    | some (n, part) => ((s.takeStaging x.stack part k x.seq x.layer x.head).setSlot n { state := .tail }, a.2)
    | none => (s, a.2 && (List.range s.nStacks).all fun i => (s.slotRun i k).isNone)

/-- A tail that opens a run in decode lies on the next member in ring order after the one that holds the run before, so not on that one, where the reproducible
profile binds the plan (R576 rule 3). -/
def State.decodeTailOk (s : State) (x : TailPlan) : Bool :=
  let run := x.firstPos / max 1 s.pagePositions
  !s.reproPlan || decide ((s.setOf x.seq).2 ≤ 1) || run == 0 || !((s.runsHere x.seq).contains (run - 1)) ||
    ((s.seq x.seq).map fun q => decide (x.firstPos < q.kvLen)).getD true ||
    !(s.reqs.any fun r => r.opcode == 3 && r.handle == x.seq && r.stage == .admitted)

/-- No position is written to a tail in the tick in which it moves away (R684). -/
def State.tailsStay (s : State) (t : Nat) (p : PlanInput) : Bool :=
  p.tails.all fun x => !((s.movesOf t true).any fun m =>
    let run := x.firstPos / max 1 s.pagePositions
    m.1 == x.seq && decide (m.2.1 ≤ run ∧ run < m.2.1 + m.2.2))

/-- The tails of a plan are seated as R307 and R308 say. -/
def State.tailsOk (s : State) (p : PlanInput) : Bool := (p.tails.foldl State.seatTail (s, true)).2 && p.tails.all s.decodeTailOk

/-! ### Lots (R421) -/

def State.tickShare (s : State) (lot : Nat) : Nat := fld (Sparse.get 0 s.lots lot) 16 16
def State.priority (s : State) (lot : Nat) : Nat := fld (Sparse.get 0 s.lots lot) 13 3

/-- The lot of a task's request. -/
def State.taskLot (s : State) (t : TaskPlan) : Option Nat := (t.req.bind s.req).map (·.lot)

/-- Core time that a plan gives a lot, in 10 ns units, counted over 65,536 parts of the module's S − C. -/
def State.lotTime (s : State) (p : PlanInput) (ts : List TaskPlan) (lot : Nat) : Nat :=
  ((ts.filter fun t => s.taskLot t == some lot).map (s.pieceTime p)).foldl (· + ·) 0 * 65536

/-- TICK_SHARE of the module's work budget, in the same units. -/
def State.lotShare (s : State) (lot : Nat) : Nat := s.tickShare lot * s.planBudget * (128 * s.nDies)

/-- Lots with an admitted request, not held, that the plan gives no task. -/
def State.unserved (s : State) (ts : List TaskPlan) : List Nat :=
  ((s.reqs.filter fun r => r.isWork && r.stage == .admitted && !s.seqHeld r.handle && !(ts.any fun t => t.req == some r.rid)).map (·.lot)).eraseDups

/-- A lot takes unused share before another: higher PRIORITY, then lower number (R421). -/
def State.lotFirst (s : State) (a b : Nat) : Bool := decide (s.priority b < s.priority a) || (s.priority a == s.priority b && decide (a < b))

/-- The plan keeps the shares of R421: a lot goes beyond its share only where no lot with work left out is below its own, or comes first for what is unused;
and work that a lot has newly admitted comes after its rebuilds and its admitted work. -/
def State.sharesOk (s : State) (p : PlanInput) (admits : List Nat) (ts : List TaskPlan) : Bool :=
  let out := s.unserved ts
  let lots := (ts.filterMap s.taskLot).eraseDups
  lots.all (fun m => decide (s.lotTime p ts m ≤ s.lotShare m) ||
    out.all fun l => l == m || (decide (s.lotShare l ≤ s.lotTime p ts l) && !(s.lotFirst l m))) &&
  admits.all fun rid =>
    !(ts.any fun t => t.req == some rid) ||
      match s.req rid with
      | some r => !(out.contains r.lot) && s.seqs.all fun q => q.closing || q.lot != r.lot ||
          q.lostPages.all fun v => q.masked.contains v || p.rebuilt.any fun m => m.seq == q.handle && m.v == v
      | none => true

/-! ### Collectives (R105, R377, R526, R529, R540, R550) -/

/-- The state with the ports down that the plan goes around (R105). -/
def State.withoutPorts (s : State) : State :=
  { s with ports := Sparse.mapVals {} (fun n (p : LinkPort) => if s.around 4 n then { p with state := .down } else p) s.ports }

/-- The member before this one on a collective's ring; its position stays as planned where links of the ring are excluded (R529, R540, R550). -/
def State.ringBefore (s : State) (c : CollPlan) : Nat :=
  let o := s.ringMembers c
  o[(s.ringPlace c + o.length - 1) % o.length]?.getD s.crew.coord

/-- A contribution of this member as the plan gives it: whole words in stage memory, in chunks that fit a slot and hold whole elements, at a rank that is this member's;
a ring program takes one, an ALL_GATHER_RING as the segment of the member's position, and a MULTICAST item 0 (R524, R525, R529, R532, R533). -/
def State.ownOk (s : State) (c : CollPlan) (p : OwnPart) : Bool :=
  let e := elemSize (s.elemOf c.program)
  decide (0 < p.bytes ∧ 0 < c.chunk ∧ c.chunk ≤ 262112 ∧ c.chunk % e = 0 ∧ p.bytes % e = 0 ∧ p.addr + p.bytes ≤ 2 ^ 28 ∧ ceilDiv p.bytes c.chunk ≤ 65536) &&
    (if ringProgram c then c.own.length == 1 && (c.program != 5 || p.rank == s.ringPlace c)
     else if c.program = 7 then p.rank == 0 && c.contributors == [s.crew.coord]
     else c.contributors[p.rank]? == some s.crew.coord)

/-- One collective of a plan: an attention merge uses LSE_MERGE and a head collective ALLREDUCE_TREE (R526); a ring program names a directed ring that R504
lays, ring 0 under the reproducible profile, and receives from its predecessor there (R529, R540); only a CLASS 0b10 may use VC2 (R532). -/
def State.collOk (s : State) (c : CollPlan) : Bool :=
  decide (1 ≤ c.program ∧ c.program ≤ 7) && decide (c.cls ≤ 2) && decide ((c.cls = 0) = (c.program = 6)) && decide (c.cls = 1 → c.program = 1) && (c.vc == 1 || (c.cls == 2 && c.vc == 2)) &&
    c.own.all (s.ownOk c) && decide ((c.own.map (·.rank)).Nodup) && s.hasCore c.die c.core && !(s.blamedCore c.die c.core) && c.streams.all (fun x => !(s.around 3 (4 * c.die + x.stack % 4))) &&
    (!ringProgram c || (decide (1 ≤ c.dim ∧ c.dim ≤ s.img.dims ∧ c.ring < ringCount c.dim) && (!s.reproPlan || c.ring == 0) &&
      c.streams.all fun x => x.sender == s.ringBefore c))

/-! ### Token-log copies (R412) -/

/-- The plan names the copies of a token log: two different members, one where the crew has one alone, with every copy that stands on a member that stays (R412,
R686). -/
def State.logOk (s : State) (x : W32 × List Nat) : Bool :=
  (s.seq x.1).any fun q =>
    decide (x.2.Nodup) && x.2.all (fun c => s.crew.members.any fun m => m.coord == c) && decide (x.2.length = min 2 s.crew.members.length) &&
      ((q.copyAt.filter fun c => !s.crew.draining.contains c).take 2).all x.2.contains

/-! ### The plan -/

/-- Every work request needs every layer, so a poisoned one refuses all of them (R402). -/
def State.anyPoisoned (s : State) : Bool := s.wt.poisoned != []

/-- Requests that the plan refuses as TASK_TOO_LONG; they end at the commit of the tick planned (R100, R101). -/
def State.longRefusals (s : State) (p : PlanInput) : List (Nat × Nat) :=
  ((p.tasks.filter fun t => t.piece.1 == 0 && s.tooLong p t).filterMap fun t => t.req.map fun r => (r, 9)).eraseDups

/-- Requests that end at the commit of the planning tick: with the fault of an operation without an alternative (R196), or WEIGHT_LOST (R402). -/
def State.faultRefusals (s : State) (p : PlanInput) : List (Nat × Nat) :=
  (p.tasks.filterMap fun t => match t.req, s.noAlternative t with
      | some r, some c => some (r, c)
      | _, _ => none) ++
    (if s.anyPoisoned then (s.reqs.filter fun r => r.isWork && (r.stage == .waiting || r.stage == .admitted)).map fun r => (r.rid, 0xA) else [])

/-- Requests that the plan refuses, with their status. -/
def State.refusals (s : State) (p : PlanInput) : List (Nat × Nat) := s.faultRefusals p ++ s.longRefusals p

/-- The tasks of a plan that its refusals leave. -/
def keptTasks (bad : List (Nat × Nat)) (ts : List TaskPlan) : List TaskPlan :=
  ts.filter fun t => t.req.all fun r => !(bad.any fun b => b.1 == r)

/-- A member that lacks the delta for a plan does not complete it (R561). The delta of plan `t` was sent two ticks earlier (R559). -/
def State.hasDelta (s : State) (t : Nat) : Bool :=
  decide (t ≤ s.fore.layoutTo) || s.fore.deltas.any fun d => d.committed && d.firstPlan == t

/-- The pieces due in the tick that is being planned (R99): none of a request that is held, whose work starts anew when it resumes (R407, R408). -/
def State.piecesDue (s : State) : List (Nat × Option Nat × Nat × Nat) :=
  (if s.fore.replan then s.fore.due else dueAfter s.fore.plan).filter fun d => d.2.1.all fun rid => (s.req rid).all fun r => !s.seqHeld r.handle

/-- Tick share of the lots whose queues carry searches. -/
def State.searchShare (s : State) : Nat :=
  (((s.reqs.filter fun r => r.opcode == 0xC && (r.stage == .waiting || r.stage == .admitted)).map (·.lot)).eraseDups.map s.tickShare).foldl (· + ·) 0

/-- A search unit's rate is within the tick share of the lots that search (R455), as a part of its channel's 3.6 GB/s, 36 bytes per 10 ns (R38). -/
def State.unitOk (s : State) (u : Nat × Nat) : Bool := decide (u.1 < 32 ∧ u.2 * 45 ≤ 72 * s.searchShare)

/-- The plan keeps every rule that binds the Forester's choices; `admits` are the requests that it admits. A task of no request cannot be refused with one, so no
plan holds it where it is too long (R100). -/
def State.planOk (s : State) (t : Nat) (p : PlanInput) (admits : List Nat) : Bool :=
  let ts := keptTasks (s.refusals p) p.tasks
  s.hasDelta t && ts.all (s.taskOk p admits) && ts.all (fun t => t.req.isSome || !(s.tooLong p t)) && ts.all (s.pieceOk p s.piecesDue) && s.duesMet ts s.piecesDue && s.opsOk ts && s.coresFit p ts &&
    s.stageOk p && s.framesOk p && s.tailsOk p && s.tailsStay t p && s.sharesOk p admits ts && decide ((p.colls.map (·.collId)).Nodup) && p.colls.all s.collOk && stagedFits p.colls &&
    s.setsOk p && p.logs.all s.logOk && p.units.all s.unitOk && p.wakes.all fun n => decide (n < 16 * s.nDies)

end Sys2Proof.Machine
end

