-- ==== Sys2Proof/Machine/Forester.lean ====
section
/-! DEFINITION. The Forester at work: admission, deltas as plans apply them, and how a completed plan becomes the work of its tick (R67, R93 to R101, R277,
R307, R328, R333 to R337, R402, R408, R419, R420, R423 to R425, R464, R561 to R564, R570, R571, R698, R699). -/

namespace Sys2Proof.Machine

/-! ### Admission (R93, R96, R402, R420, R553, R615, R618) -/

/-- No other work on the request's handle is admitted or came earlier (R615). -/
def State.firstOnHandle (s : State) (r : Req) : Bool :=
  !(s.reqs.any fun x => x.rid != r.rid && x.isWork && x.handle == r.handle && x.live &&
    (x.stage == .admitted || (x.stage == .waiting && (decide (x.tick < r.tick) || (x.tick == r.tick && x.before r)))))

/-- The request may be admitted by a plan: it waits, no hold is in force, no LOAD_WEIGHTS is outstanding, and its sequence is whole (R93, R407, R615,
R618). -/
def State.admissible (s : State) (rid : Nat) : Bool :=
  match s.req rid with
  | some r =>
    r.isWork && r.stage == .waiting && !s.tick.hold && !s.loadOutstanding && s.firstOnHandle r &&
      (match s.seq r.handle with
       | some q => !q.lost && !s.fore.held.contains r.handle && q.lostPages.all fun v => q.masked.contains v
       | none => false)
  | none => false

/-- Admissions that committed deltas give to plans up to `t` (R561), as requests of this member. -/
def State.admitEntries (s : State) (t : Nat) : List Nat :=
  (s.fore.deltas.filter fun d => d.committed && decide (d.firstPlan ≤ t)).flatMap fun d => d.entries.filterMap fun e =>
    match e with
    | .admission k first _ => if first ≤ t then (s.reqOfKey k).map (·.rid) else none
    | _ => none

/-- The requests that the plan of tick `t` admits. -/
def State.admitsFor (s : State) (t : Nat) : List Nat := ((s.admitEntries t).filter s.admissible).eraseDups

/-! ### PLAN (R67) -/

/-- Start the merges that are due in the plan of tick `t` (R464, R478). -/
def State.startMerges (s : State) (t : Nat) : State :=
  s.vidx.foldl (fun (s : State) x =>
    if !x.offline && x.merge.isNone && decide (ixMergeAt x.record ≤ x.side.length) && !s.sys.flashRo then
      (s.updIndex (ixId x.record) fun x => { x with merge := some t, built := none }).indexCount (ixId x.record) 13
    else s) s

/-- The sets of micro-programs that cores fill for the next tick (R227). -/
def State.setWants (s : State) (sets : List (Nat × List Nat)) : State :=
  sets.foldl (fun (s : State) x => s.setCore x.1 { s.core x.1 with want := x.2, filled := (s.core x.1).filled && (s.core x.1).want == x.2 }) s

/-- The idle route table fills, around the ports that the plan avoids (R88, R105, R507). -/
def State.fillRoutes (s : State) : State := { s with yard := { s.yard with idle := some s.withoutPorts.buildRoutes, stale := false } }

/-- A plan around named links takes them out of the routes in use at once, since it is the plan of the tick in flight (R105; DEDUCED, log 60). -/
def State.routeAround (s : State) : State :=
  if (List.range 12).any (s.around 4) then { s with yard := { s.yard with route := s.withoutPorts.buildRoutes } } else s

/-- Lot usage that deltas carry (R417, R562). -/
def State.takeUsage (s : State) (es : List DeltaEntry) : State :=
  es.foldl (fun (s : State) e =>
    match e with
    | .lotUsage l h f => { s with fore := { s.fore with usage := Sparse.set (0, 0) s.fore.usage l (h, f) } }
    | _ => s) s

/-- A REBUILD entry that names this member: the run's pages that its page list lacks are rebuilt here (R408, R693). -/
def State.takeRebuild (s : State) (e : DeltaEntry) : State :=
  match e with
  | .rebuild h run member =>
    if member ≠ s.crew.coord then s
    else
      s.updSeq h fun q =>
        let vs := (List.range s.runPages).map (run * s.runPages + ·)
        let gone := vs.filter fun v => decide (q.entry v = noEntry ∧ run * s.pagePositions < q.kvLen) && !q.lostPages.contains v && !q.masked.contains v
        { q with lostPages := q.lostPages ++ gone }
  | _ => s

/-- Member sets and head groups that a delta entry gives (R562). -/
def Forester.takeLayout (f : Forester) (e : DeltaEntry) : Forester :=
  match e with
  | .seqSet h base size => { f with seqSets := (f.seqSets.filter fun x => x.1 != h) ++ [(h, base, size)] }
  | .heads first n gs => { f with heads := (f.heads.filter fun x => x.1 != first) ++ [(first, n, gs)] }
  | _ => f

/-- The shares of this member that a delta gives: those of one delta replace the ones before (R562). -/
def State.sharesIn (s : State) (es : List DeltaEntry) : List (Nat × Nat × Bool) :=
  es.filterMap fun e =>
    match e with
    | .weightShare m first n hbm => if m = s.crew.coord then some (first, n, hbm) else none
    | _ => none

/-- The deltas that the plan of tick `t` is the first to apply, in VERSION order (R561). -/
def State.applyDeltas (s : State) (t : Nat) : State :=
  let ds := s.fore.deltas.filter fun d => d.committed && decide (d.firstPlan ≤ t ∧ s.fore.version < d.version)
  let es := ds.flatMap (·.entries)
  let s := es.foldl State.takeRebuild (s.takeUsage es)
  let s := { s with fore := es.foldl Forester.takeLayout { s.fore with shares := if s.sharesIn es = [] then s.fore.shares else s.sharesIn es } }
  if ds = [] then s
  else ({ s with fore := { s.fore with version := ds.foldl (fun (a : Nat) (d : Delta) => max a d.version) s.fore.version } }).crewCount 24 ds.length

/-- The layers of the share that HBM holds: in ascending order while their frames are free of pages (R565). -/
def State.layersInHbm (s : State) : List Nat :=
  let want := (List.range s.layers).filter fun l => s.fore.shares.any fun x => x.2.2 && decide (x.1 ≤ l ∧ l < x.1 + x.2.1)
  let fits (n : Nat) : Bool :=
    let span := ({ s with wt := { s.wt with inHbm := want.take n } }).weightSpan
    decide (span ≤ userFrames) && s.hbm.ftab.all fun e => !e.2.inUse || decide (e.1 % 2 ^ 22 + span < userFrames)
  want.take (((List.range (want.length + 1)).reverse.find? fits).getD 0)

/-- The weight share in force from the tick that starts (R562, R565). -/
def State.settleShare (s : State) : State :=
  if s.fore.shares = s.wt.share then s else { s with wt := { s.wt with share := s.fore.shares, inHbm := s.layersInHbm, remap := [] } }

/-- End the refused requests at the commit of this tick (R100, R196, R402). -/
def State.refuse (s : State) (bad : List (Nat × Nat)) : State :=
  bad.foldl (fun (s : State) b => s.updReq b.1 fun r => if r.stage = .finishing then r else r.fail b.2) s

/-! ### A plan becomes its tick's work -/

/-- A page that may spill (R334), other than a tail: its frame's references but those of tree nodes are one, once the staged decrements have applied. -/
def State.maySpill (s : State) (q : Seq) (v : Nat) (e : W64) : Bool :=
  let tree := ((s.nodes.map fun n => (n.frames.filter fun f => decide (leafRef f.2 = leafRef e)).length).foldl (· + ·) 0)
  leafTier e == 0 && !leafPinned e && decide (s.runOf v ≠ s.tailRun q) && decide (s.refsLeft (leafFrame e) - tree = 1) &&
    (s.tailSlot q.handle (s.layerOf v) (s.headOf v) (s.runOf v * s.pagePositions)).isNone

/-- Insert a spill candidate by oldest last read, then lower page (R333). -/
def insertSpill (x : Nat × Nat × W32 × W64) : List (Nat × Nat × W32 × W64) → List (Nat × Nat × W32 × W64)
  | [] => [x]
  | y :: ys => if x.1 < y.1 ∨ (x.1 = y.1 ∧ x.2.1 < y.2.1) then x :: y :: ys else y :: insertSpill x ys

/-- Pages that may spill and pass `p`, as (last read, page, sequence, entry), in the order of R333; none that has already left its frame in tick `t`. -/
def State.spillOrder (s : State) (t : Nat) (p : Nat → Bool) : List (Nat × Nat × W32 × W64) :=
  (s.seqs.filter fun q => !q.closing).foldl (fun acc q =>
    q.root.foldl (fun acc e =>
      if s.maySpill q e.1 e.2 && p (leafFrame e.2) && leafTier (q.entryNow t e.1) == 0 then insertSpill (Sparse.get 0 q.lastRead e.1, e.1, q.handle, e.2) acc else acc) acc) []

/-- A tree node, or one above it, passes. -/
def State.nodeAbove (s : State) (p : PrefixNode → Bool) : Nat → PrefixNode → Bool
  | 0, n => p n
  | k + 1, n => p n || match s.nodes.find? fun m => n.parent == some m.id with
    | some m => s.nodeAbove p k m
    | none => false

/-- The prefix-tree node that goes next of those that pass: a leaf, the least recently looked up (R327, R333). Of two last looked up in one tick the
rules name neither; the one created earlier goes (DESIGN CHOICE, log 13). -/
def State.nextPrune (s : State) (p : PrefixNode → Bool) : Option PrefixNode :=
  (s.nodes.filter fun n => !(s.nodes.any fun m => m.parent == some n.id) && p n).foldl (fun (a : Option PrefixNode) n =>
    match a with
    | some b => if n.lastLookup < b.lastLookup then some n else a
    | none => some n) none

/-- Remove nodes that pass, up to `k` of them; their references drop at step 2 (R327). -/
def State.pruneNodes (p : State → PrefixNode → Bool) : Nat → State → State
  | 0, s => s
  | k + 1, s =>
    match s.nextPrune (p s) with
    | none => s
    | some n =>
      let s := { s with nodes := s.nodes.filter fun m => m.id != n.id }
      State.pruneNodes p k (n.frames.foldl (fun (s : State) f => s.decRef (leafRef f.2)) s)

/-- The tree's references to a frame that spills are removed: the nodes that hold it go, and those below them before them, since only leaves are removed (R327, R334;
DESIGN CHOICE, log 60). -/
def State.pruneFrame (s : State) (f : Nat) : State :=
  State.pruneNodes (fun s n => s.nodeAbove (fun m => m.frames.any fun e => decide (leafRef e.2 = some (true, f))) s.nodes.length n) s.nodes.length s

/-- Spill one page in tick `t` (R335): a clean one needs no write; a dirty one is written to the next given flash frame first, its source under a long pin
until the commit, and it waits while the frame has 127 pins (R300). A page whose cleaning copy is under way spills when that completes. Nothing spills while the tier is
read-only (R389). The rest of the flash frames is the answer's second part. -/
def State.spillPage (t : Nat) (a : State × List Nat) (x : Nat × Nat × W32 × W64) : State × List Nat :=
  let f := leafFrame x.2.2.2
  if a.1.sys.flashRo then a
  else if (a.1.flash.cleaning ++ a.1.flash.cleaned).any fun c => c.1 == f then
    ({ a.1 with fore := { a.1.fore with spillNext := if a.1.fore.spillNext.contains f then a.1.fore.spillNext else a.1.fore.spillNext ++ [f] } }, a.2)
  else
  let s := a.1.pruneFrame f
  let go (s : State) (g : Nat) : State :=
    (s.stageEdit t x.2.2.1 x.2.1 (leafToFlash x.2.2.2 g false)).lotCount (frameDie f) (s.hbmEnt f).lot 17
  match s.flashCopyOf f with
  | some g => (go s g, a.2)
  | none =>
    match a.2 with
    | g :: gs =>
      if 127 ≤ (s.hbmEnt f).longPins then a
      else
        let s := (s.allocFlash g (s.hbmEnt f).lot).flashWrite g (Mem.bytes s.hbm.data (f * 16384) 16384) (sbPut (s.hbmSide f) 4480 41 0)
        (go ((s.pinHbm f true).noteSpill f g) g, gs)
    | [] => a

/-- The node's frames in a stack, of which it has some, have no other reference (R333). -/
def State.onlyTree (s : State) (stack : Nat) (n : PrefixNode) : Bool :=
  let fs := n.frames.filterMap fun f => match leafRef f.2 with
    | some (true, h) => if h / 2 ^ 22 = stack then some h else none
    | _ => none
  fs != [] && fs.all fun h => s.refsLeft h == 1

/-- Space is freed on stacks that fall below the margin of 32,768 free frames: nodes first, then pages (R333). The rule does not say how much is freed: at
most one node and one page go for each frame that the margin lacks (DESIGN CHOICE, log 13). -/
def State.makeSpace (t : Nat) (a : State × List Nat) (stack : Nat) : State × List Nat :=
  let n := 32768 - a.1.freeFrames stack
  if n = 0 then a
  else
    let inStack (f : Nat) : Bool := f / 2 ^ 22 == stack
    let s := State.pruneNodes (fun s x => s.onlyTree stack x) n a.1
    ((s.spillOrder t inStack).take n).foldl (State.spillPage t) (s, a.2)

/-- Pages of a lot whose usage exceeds its quota migrate down, no further than to the quota: tree nodes that hold its frames go first, then the pages that the
unused budget pays for, 16,384 bytes each (R423). -/
def State.migrateLot (t : Nat) (a : State × List Nat) (lot : Nat) : State × List Nat :=
  let excess := a.1.hbmUsage lot - a.1.hbmQuota lot
  let s := State.pruneNodes (fun s x => x.frames.any fun f => leafTier f.2 == 0 && (s.hbmEnt (leafFrame f.2)).lot == lot) excess a.1
  let xs := (s.spillOrder t fun f => (s.hbmEnt f).lot == lot && !s.fore.spillNext.contains f).take (min excess (s.fore.migrate / 16384))
  let b := xs.foldl (State.spillPage t) (s, a.2)
  ({ b.1 with fore := { b.1.fore with migrate := b.1.fore.migrate - 16384 * xs.length } }, b.2)

/-- Pages of lots over their HBM quota whose flash copy has just completed spill, before every other spill (R419). -/
def State.dueSpills (t : Nat) (a : State × List Nat) : State × List Nat := (a.1.spillOrder t a.1.fore.spillNext.contains).foldl (State.spillPage t) a

/-- Pages of lots over their HBM quota migrate within 1/16 of the sustained flash write rate,
24 bytes per 10 ns, unused budget carrying over (R423). -/
def State.quotaSpills (t : Nat) (a : State × List Nat) : State × List Nat :=
  let s := a.1
  let lots := (s.fore.planLots.map Prod.fst).filter fun l => decide (s.hbmQuota l < s.hbmUsage l)
  let s := { a.1 with fore := { a.1.fore with migrate := if lots = [] then 0 else a.1.fore.migrate + 24 * a.1.tick.period } }
  let a := lots.foldl (State.migrateLot t) (s, a.2)
  ({ a.1 with fore := { a.1.fore with spillNext := a.1.fore.spillNext.filter fun f => a.1.flash.cleaning.any fun c => c.1 == f } }, a.2)

/-- Promote a page from flash to a fresh frame (R336). -/
def State.promote (t : Nat) (s : State) (m : MoveChoice) : State :=
  match s.seq m.seq with
  | none => s
  | some q =>
    let e := q.entry m.v
    if leafTier e ≠ 1 then s
    else
      let g := leafFrame e
      let lot := (s.flashEnt g).lot
      let s := s.allocHbm m.dst lot
      let s := s.writeHbm (m.dst * 16384) (Mem.bytes s.flash.data (g * 16384) 16384)
      let s := s.setHbmSide m.dst (sbPut (s.flashSide g) 4480 41 (g + 2 ^ 40))
      (s.stageEdit t m.seq m.v (leafHbm m.dst false false (leafPinned e) (leafSketchValid e))).lotCount (frameDie m.dst) lot 18

/-- A run that leaves: its entries become INVALID at the commit (R570). -/
def State.moveOut (t : Nat) (s : State) (m : W32 × Nat × Nat) : State :=
  match s.seq m.1 with
  | none => s
  | some q =>
    let vs := (q.root.map Prod.fst).filter fun v => decide (m.2.1 ≤ s.runOf v ∧ s.runOf v < m.2.1 + m.2.2)
    let s := vs.foldl (fun (s : State) v => s.stageEdit t m.1 v noEntry) s
    ((s.crewCount 22 m.2.2).crewCount 23 vs.length).lotCount 0 q.lot 19 vs.length

/-- The sideband of a page that has migrated here: what the sequence's log and the page's place fix is known; exponents and sketch came with the page
(R289, R570). -/
def State.movedSide (s : State) (q : Seq) (v : Nat) (free : Nat) : Nat :=
  let p := s.pagePositions
  let b := sbPut free 4480 3712 0
  let fill := min p (q.kvLen - s.runOf v * p)
  let b := sbPut (sbPut b 4352 64 (partHash q.salt p q.log (s.runOf v) fill).toNat) 4416 36 (s.runOf v * p)
  sbPut (sbPut (sbPut (sbPut b 4452 9 fill) 4461 6 (s.headOf v)) 4467 8 (s.layerOf v)) 4475 5 0

/-- The sequences here that need a page that migrates with `q`: their logs agree with its log to the end of the run (R570). -/
def State.needers (s : State) (q : Seq) (v : Nat) : List W32 :=
  let n := (s.runOf v + 1) * s.pagePositions
  (s.seqs.filter fun x => !x.closing && (x.handle == q.handle ||
    (x.log.take n == q.log.take n && decide (n ≤ x.log.length) && leafTier (x.entry v) == 3))).map (·.handle)

/-- A page that migrates here, or a tail, which becomes a frame tail (R684): a fresh frame whose bytes come from the source member and are not in this state, so they are free values. Every page list
that needs the run names it, with the sketch-table entry from its sideband (R363, R570, R571; log 8). -/
def State.moveIn (t : Nat) (s : State) (m : MoveChoice) : State :=
  match s.seq m.seq with
  | none => s
  | some q =>
    if !((s.movesOf t false).any fun x => x.1 == m.seq && decide (x.2.1 ≤ s.runOf m.v ∧ s.runOf m.v < x.2.1 + x.2.2)) then s
    else
      let s := s.allocHbm m.dst q.lot
      let a := s.freeBytes 16384
      let b := a.2.freeBytes 1024
      let s := b.2.writeHbm (m.dst * 16384) a.1
      let side := s.movedSide q m.v (leNat b.1)
      let hs := s.needers q m.v
      let s := s.setHbmSide m.dst side
      hs.foldl (fun (s : State) h =>
        let whole := decide (s.pagePositions ≤ sbFill side)
        let s := if whole then
            { s with sketches := (s.sketches.filter fun (x : W32 × Nat × BitVec 256) => !(x.1 == h && x.2.1 == m.v)) ++ [(h, m.v, BitVec.ofNat 256 (sbSketch side))] }
          else s
        s.stageEdit t h m.v (leafHbm m.dst (decide (1 < hs.length)) true (s.sinkPage m.v) whole)) s

/-- A planned tail takes a slot in its stack, else its flush frame becomes a frame tail (R307, R308). A frame tail that the sequence already has goes on from
its committed positions, and a page that it shares takes no slot: its next write copies it (R318, R325). -/
def State.giveTail (t : Nat) (s : State) (x : TailPlan) : State :=
  match s.seq x.seq with
  | none => s
  | some q =>
    let v := s.pageOf x.firstPos x.layer x.head
    let e := q.entryNow t v
    if (s.tailSlot x.seq x.layer x.head x.firstPos).isSome then s
    else if leafTier e < 2 then
      (if leafTier e = 0 ∧ decide ((s.hbmEnt (leafFrame e)).refcount ≤ 1) ∧ leafRef (q.entry v) = leafRef e ∧ s.heldIn q v < s.pagePositions then
        s.setHbmSide (leafFrame e) (sbPut (s.hbmSide (leafFrame e)) 4452 9 (s.heldIn q v))
      else s)
    else
      let k := s.stagingSlots
      let s := s.allocHbm x.flushFrame q.lot
      match s.slotRun x.stack k with
      | some (n, part) =>
        let s := s.takeStaging x.stack part k x.seq x.layer x.head
        (s.setSlot n { flushFrame := x.flushFrame, seq := x.seq, layer := x.layer, kvHead := x.head, firstPos := x.firstPos,
                       partner := part, partners := k, state := .tail }).stackCount (n / 480) 11
      | none =>
        (s.stageEdit t x.seq v (leafHbm x.flushFrame false true (s.sinkPage v) false)).lotCount (frameDie x.flushFrame) q.lot 11

/-- One stream of the plan (R248, R258). -/
def State.loadStream (s : State) (x : StreamPlan) : State :=
  let d := s.die x.die
  let y : Stream := { rate := x.rate, base := x.base, size := x.room, room := x.room, weight := x.weight, walk := x.walk
                      items := x.items.map fun i => { item := i } }
  s.setDie x.die { d with streams := Sparse.set {} d.streams x.num y }

/-- One task of the plan joins its core's list (R269). -/
def State.loadTask (s : State) (x : Nat × TaskPlan) : State :=
  let k := coreNo x.2.die x.2.core
  s.setCore k { s.core k with todo := (s.core k).todo ++ [x] }

/-- A core's list fills its contexts, and the core starts with its first task in plan order (R166, R269). -/
def State.fillCtxs (s : State) (core : Nat) : State := ((List.range 4).foldl (fun (s : State) n => s.placeTask core n) s).nextCtx core

/-- Weight bytes that the plan holds resident (R277). -/
def State.holdResident (s : State) (x : Nat × Nat × Nat) : State :=
  s.setDie x.1 { s.die x.1 with resident := (s.die x.1).resident ++ [x.2] }

/-- Pieces that each request's split tasks still have to run after this tick (R99). -/
def State.notePieces (s : State) (ts : List TaskPlan) : State :=
  s.updReqs fun r =>
    { r with pieces := ((ts.filter fun t => t.req == some r.rid).map fun t => t.piece.2 - 1 - t.piece.1).foldl max 0 }

/-- Cores and dies as a tick finds them: contexts, streams, walks and rankings of the tick before are gone, and the HBM content is that committed at its
start (R34, R88, R252). -/
def State.clearWork (s : State) : State :=
  { s with
    cores := Sparse.mapVals {} (fun _ (k : Core) => { k with ctxs := [], todo := [], running := none, genSave := k.gens, work := 0 }) s.cores
    dies := Sparse.mapVals {} (fun _ (d : Die) => { d with streams := [], layers := [], resident := [], walks := [], placed := [], ranked := [] }) s.dies
    hbm := { s.hbm with data0 := s.hbm.data, side0 := s.hbm.side, copied := [] }
    stands := Sparse.mapVals {} (fun _ (x : Stand) => { x with queue := [], granted := none }) s.stands
    coll := {} }

/-- A core as its stand's sleep leaves it: both banks are invalid, and its generators are seeded again when it wakes (R139, R229). -/
def asleepCore : Core := { bank0 := { valid := false }, bank1 := { valid := false } }

/-- Sleep and wake of a stand at the start of a tick (R698, R699); a stand that returns has both banks invalid (R229). -/
def State.standTick (p : PlanInput) (s : State) (n : Nat) : State :=
  let x := s.stand n
  let used := p.tasks.any fun t => standNo t.die (t.core / 8) == n
  let forget (s : State) : State := (List.range 8).foldl (fun (s : State) i => s.setCore (n * 8 + i) asleepCore) s
  if x.asleep then
    if p.wakes.contains n then
      (((forget s).setStand n { x with asleep := false, waking := true, idle := 0 }).crewCount 39).count (n / 16) 6 (n % 16 * 32 + 20)
    else s
  else if used then s.setStand n { x with waking := false, idle := 0 }
  else if 64 ≤ x.idle + 1 ∧ !s.repro ∧ !p.wakes.contains n then
    (((forget s).setStand n { asleep := true }).crewCount 38).count (n / 16) 6 (n % 16 * 32 + 19)
  else s.setStand n { x with waking := false, idle := min 64 (x.idle + 1) }

/-- Requests that the plan admits start their work (R96, R615). -/
def State.admitReqs (s : State) (rs : List Nat) : State :=
  rs.foldl (fun (s : State) rid =>
    match s.req rid with
    | some r => if r.stage = .waiting then (s.updReq rid fun r => { r with stage := .admitted }).hubCount 5 r.lot else s
    | none => s) s

/-- The plan of tick `t` becomes its work. -/
def State.loadPlan (s : State) (t : Nat) (p : PlanInput) : State :=
  let s := (List.range (16 * s.nDies)).foldl (State.standTick p) s
  let s := { s with coll := { s.coll with plan := p.colls, grants := grantsOf p.colls } }
  let staged : Nat := (s.coll.grants.filter fun (g : Grant) => g.slots == []).length
  let s := if staged = 0 then s else s.hubCount 6 2 staged
  let s := p.resident.foldl State.holdResident s
  let s := p.streams.foldl State.loadStream s
  let s := (((List.range p.tasks.length).zip p.tasks).foldl State.loadTask s).notePieces p.tasks
  let s := ((p.tasks.map fun t => coreNo t.die t.core).eraseDups).foldl State.fillCtxs s
  let s := p.tails.foldl (State.giveTail t) s
  let s := p.promote.foldl (State.promote t) s
  let s := (s.movesOf t true).foldl (State.moveOut t) s
  let s := p.moved.foldl (State.moveIn t) s
  let s := (p.rebuilt ++ p.fresh).foldl (fun (s : State) m => s.allocHbm m.dst (((s.seq m.seq).map (·.lot)).getD 0)) s
  let a := (List.range s.nStacks).foldl (State.makeSpace t) (State.dueSpills t (s, p.spillTo))
  let s := (State.quotaSpills t a).1
  let s := p.logs.foldl (fun (s : State) x => (s.updSeq x.1 fun q => { q with copyAt := x.2 }).crewCount 34 x.2.length) s
  s.admitReqs s.fore.admits

/-- The child's page list is built from the parent's committed tree (R328). -/
def State.buildFork (t : Nat) (s : State) (f : Nat × W32 × Nat × W32) : State :=
  let (_, parent, p, child) := f
  match s.seq parent with
  | none => s
  | some q =>
    let pp := s.pagePositions
    let keep := q.root.filter fun e => decide (s.runOf e.1 * pp < p)
    let sk := (s.sketches.filter fun x => x.1 == parent && keep.any fun e => e.1 == x.2.1).map fun x => (child, x.2)
    let s := { s with sketches := s.sketches ++ sk }
    let s := keep.foldl (fun (s : State) e => s.stageEdit t child e.1 (s.sharedEntry e.2)) s
    s.updSeq child fun c => { c with kvStaged := min p q.kvLen, node := none, matched := 0 }

/-- A GENERATE on a sequence already at L_MAX ends at once (R612; log 21). -/
def State.endFull (s : State) : State :=
  s.updReqs fun r =>
    if r.opcode = 3 ∧ r.stage = .admitted then
      match s.seq r.handle with
      | some q => if q.lMax ≤ q.log.length then { r.fail 0 with result0 := BitVec.ofNat 32 r.tokens, result1 := 2, endReason := 2 } else r
      | none => r
    else r

/-- A search that starts in the tick takes its snapshot (R447). -/
def State.startSearch (t : Nat) (s : State) (x : Search) : State :=
  if x.start ≠ t then s
  else
    match s.index x.index, s.req x.rid with
    | some i, some r => s.updSearch x.slot fun x => x.snapshot i r.data
    | _, _ => s

/-- Commands that waited at the edge belong to the tick (R82), and work that a hold kept in the merge leaves it when the hold has ended (R95). -/
def State.wakeCmds (s : State) (hold : Bool) : State :=
  s.updReqs fun r =>
    if r.stage = .next then { r with stage := .merge }
    else if r.stage = .held ∧ (r.isWork ∨ r.opcode = 0xC) ∧ !hold then { r with stage := .waiting }
    else r

/-- What a replay of the tick restores (R88, R102, R103): the state at the tick's start, with its plan not yet carried out. -/
def State.snapshot (s : State) : State :=
  { s with chk := {
      land := s.land, seqs := s.seqs, reqs := s.reqs, nodes := s.nodes, ftab := s.hbm.ftab, copies := s.hbm.copies, decr := s.hbm.decr,
      flashTab := s.flash.ftab, flashDec := s.hbm.flashDecr, queue := s.flash.queue, cleaning := s.flash.cleaning,
      cleaned := s.flash.cleaned, searches := s.searches, vidx := s.vidx, dies := s.dies, cores := s.cores, stands := s.stands,
      sketches := s.sketches, fore := s.fore, coll := s.coll } }

/-- The arrival number of the first command of the tick that starts (R78, R82). -/
def State.firstArrival (s : State) : Nat :=
  (s.reqs.filter fun r => r.stage == .next).foldl (fun a r => min a r.arrival) s.host.nextArrival

/-- What the checkpoint keeps of an attempt whose plan has begun. -/
def State.notePlanned (s : State) : State :=
  { s with chk := { s.chk with
    planned := s.seqs, ran := (s.reqs.filter fun r => r.isWork && r.stage == .admitted).map (·.rid) } }

/-- An attempt discards the task: it reads a poisoned layer or belongs to a request that would, since every request needs every layer (R401), or it belongs to a request on
a sequence with lost pages that the plan does not rebuild (R407). -/
def State.discards (s : State) (p : PlanInput) (t : TaskPlan) : Bool :=
  t.layer.any s.wt.poisoned.contains ||
    t.req.any fun rid => (s.req rid).any fun r => r.isWork && (s.anyPoisoned || s.leftLost p r.handle || s.fore.lostNow.contains r.handle)

/-- A plan without tasks that its attempt discards: no stream waits for them. -/
def planWithout (gone : List Nat) (p : PlanInput) : PlanInput :=
  { p with
    tasks := p.tasks.filter fun t => !(gone.contains t.id)
    streams := p.streams.map fun (x : StreamPlan) => { x with items := x.items.filterMap (itemWithout gone.contains) } }

/-- The plan of tick `t` becomes its attempt's work, but for what the attempt discards; no blaze waits for a discarded task (R401, R407). -/
def State.loadKept (s : State) (t : Nat) (p : PlanInput) : State :=
  let gone := (p.tasks.filter (s.discards p)).map (·.id)
  let s := s.loadPlan t (planWithout gone p)
  { s with fore := { s.fore with cleared := s.fore.cleared ++ gone } }

/-- Requests that would reach a poisoned layer end with WEIGHT_LOST at the commit (R401). -/
def State.endPoisoned (s : State) : State :=
  if s.anyPoisoned then s.updReqs fun r => if r.isWork ∧ r.stage = .admitted then r.fail 0xA else r else s

/-- An attempt of tick `t` begins: forks are built, runs that are complete are looked up in the prefix tree, the plan becomes the attempt's work, and searches take their
snapshots. -/
def State.beginAttempt (s : State) (t : Nat) : State :=
  let s := s.fore.forks.foldl (State.buildFork t) s
  let s := s.seqs.foldl (fun (s : State) (q : Seq) => if q.closing then s else s.matchRuns t q.handle (q.log.length + 1)) s
  let s := match s.fore.plan with
    | some p => s.loadKept t p
    | none => (List.range (16 * s.nDies)).foldl (State.standTick ⟨[], [], [], [], [], [], [], [], [], [], [], [], [], [], [], []⟩) s
  let s := (s.refuse s.fore.refused).endPoisoned
  (s.searches.foldl (State.startSearch t) s.endFull).notePlanned

/-- The Forester at the start of tick `t`: the plan completed for the tick becomes its plan, and the deltas held are committed (R561). -/
def Forester.start (f : Forester) (t : Nat) : Forester :=
  { f with plan := if f.planTick = t then f.nextPlan else none,
           laid := if f.planTick = t then f.nextLaid else [], nextLaid := []
           due := dueAfter f.plan, refused := if f.planTick = t then f.nextRefused else [], nextRefused := []
           nextPlan := none, cleared := [], failTasks := [], flags := [], replan := false, lostNow := [],
           deltas := f.deltas.map fun (d : Delta) => { d with committed := true } }

/-- Rounds whose request has ended are forgotten (R376). -/
def State.dropRounds (s : State) : State :=
  { s with fore := { s.fore with
    ringStep := s.fore.ringStep.filter fun e => (s.reqOfKey e.1).isSome
    ringRuns := s.fore.ringRuns.filter fun e => (s.reqOfKey e.1).isSome } }

/-- Step 8 (R86): tick `t` starts with its plan, if one was completed for it. -/
def State.startTick (s : State) (t : Nat) (hold : Bool) : State :=
  let first := s.firstArrival
  let s := (s.settleShare.clearWork.wakeCmds hold).dropRounds
  let s := s.vidx.foldl State.settleTombs s
  let s := { s with
    sec := { s.sec with signed := 0 }
    tick := { s.tick with firstArr := first }
    yard := s.yard.fresh
    fore := { s.fore.start t with planLots := if s.fore.planTick = t then s.fore.nextLots else s.lots, nextLots := [] } }
  s.snapshot.beginAttempt t

/-- The directed rings laid for subcubes of each size as the links stand (R377). -/
def State.ringsAll (s : State) : List (List Nat) := (List.range (s.img.dims + 1)).map s.ringsNow

/-- The tick in flight is planned again (R104, R105): the new plan, with what it refuses, is the one that later attempts repeat. -/
def State.replanned (s : State) (p : PlanInput) (bad : List (Nat × Nat)) : State :=
  let s := { s with
    fore := { s.fore with plan := some p, replan := false, refused := bad, laid := s.ringsAll }
    chk := { s.chk with fore := { s.chk.fore with plan := some p, replan := false, refused := bad, laid := s.ringsAll } } }
  (s.loadPlan s.tick.num p).notePlanned

/-- Counts of a completed plan: its refusals, its split tasks, its kind, and a lapse of the reproducible profile (R578, R707). -/
def State.countPlan (s : State) (p : PlanInput) : State :=
  let split := (p.tasks.filter fun t => decide (t.piece.1 = 0 ∧ 1 < t.piece.2)).length
  let s := (s.crewCount 16 (s.longRefusals p).length).crewCount 7 split
  if s.repro && !s.reproPlan then s.crewCount 21 else s

/-- PLAN: the Forester completes the plan of the next tick, or plans the tick in flight again after a re-forming or under R105, with that tick's admissions (R67, R104). The
choices come in `p`; the rules that bind them are checked and applied. TASK_TOO_LONG ends a request at the commit of the tick planned, the other refusals
at that of the planning tick (R100, R196, R402). -/
def execPlan (p : PlanInput) (s : State) : Out :=
  let bad := s.refusals p
  let p' := { p with tasks := keptTasks bad p.tasks }
  if s.fore.replan then
    when (s.working && s.planOk s.tick.num p s.fore.admits) s (((((s.countPlan p).refuse bad).fillRoutes).routeAround).replanned p' bad)
  else
    let t := s.tick.num + 1
    let admits := (s.admitsFor t).filter fun r => !(bad.any fun b => b.1 == r)
    when (s.ticking && s.tick.phase != .none && !s.tick.planDone && s.ctr.latched.isNone && s.planOk t p admits) s <|
      let kind := if s.reproPlan then 44 else 45
      let s := s.pulse 0x09
      let long := s.longRefusals p
      let s := ((((s.countPlan p).refuse (s.faultRefusals p)).fillRoutes.setWants p.fnSets).startMerges t).applyDeltas t
      ({ s with
        fore := { s.fore with nextPlan := some p', nextLaid := s.ringsAll, nextLots := s.lots, planTick := t, admits := admits, nextRefused := long }
        tick := { s.tick with planDone := true } }).crewCount kind

end Sys2Proof.Machine
end

