-- ==== Sys2Proof/Machine/CrewPlanner.lean ====
section
/-! DEFINITION. The crew planner on the tick master: the layout deltas, and the rules that bind each of its decisions (R95, R358, R370, R374, R420, R421,
R553, R557 to R569, R576 to R578). -/

namespace Sys2Proof.Machine

/-! ### What the members have reported (R557, R558) -/

/-- Members whose parent is `c`, ascending. -/
def State.childrenOf (s : State) (c : Nat) : List Nat :=
  (List.range (2 ^ s.img.dims)).filter fun x => (s.crew.members.any fun m => m.coord == x) && s.parentOf x == some c

/-- The coordinates of the tick tree below `c`, in the order in which a combined report lists their summaries (R80, R557). -/
def State.treeOrder (s : State) : Nat → Nat → List Nat
  | 0, c => [c]
  | n + 1, c => c :: (s.childrenOf c).flatMap (s.treeOrder n)

/-- The summary of a member, `k` ticks before the newest one. -/
def State.summaryOf (s : State) (k c : Nat) : BitVec 512 :=
  let o := s.treeOrder s.crew.members.length s.crew.master
  ((s.fore.summaries[k]?.getD [])[o.idxOf c]?).getD 0

/-- BUSY, HOT_SEQ, HOT_SHARE and FREE_HBM of a summary (R558). -/
def smBusy (x : BitVec 512) : Nat := fld x 416 32
def smFree (x : BitVec 512) : Nat := fld x 384 32
def smHot (x : BitVec 512) : Nat := fld x 320 32
def smShare (x : BitVec 512) : Nat := fld x 304 16

/-- Stacks of the member that a summary describes: four for each die that it names (R7, R558). -/
def smStacks (x : BitVec 512) : Nat := 4 * ((List.range 8).filter fun k => fld x (272 + 4 * k) 4 != 0xF).length

/-! ### Member sets (R565, R576, R577) -/

/-- The members of a subcube. -/
def State.setMembers (s : State) (base size : Nat) : List Nat :=
  ((List.range size).map (base + ·)).filter fun c => s.crew.members.any fun m => m.coord == c

/-- Frames of a sequence's planned prompt: the pages of its waiting APPENDs. -/
def State.promptFrames (s : State) (h : W32) : Nat :=
  let n := ((s.reqs.filter fun r => r.opcode == 2 && r.handle == h && r.stage == .waiting).map fun r => r.e.w4).foldl (· + ·) 0
  ceilDiv n (max 1 s.pagePositions) * s.runPages

/-- Every member of a subcube is there, and its free frames stay above the margin of R333 after its part of the prompt (R565). -/
def State.setFree (s : State) (h : W32) (base size : Nat) : Bool :=
  decide ((s.setMembers base size).length = size) && (s.setMembers base size).all fun c =>
    let x := s.summaryOf 0 c
    decide (32768 * smStacks x < smFree x - ceilDiv (s.promptFrames h) size)

/-- This member's prefix tree holds the sequence's first run (R324). -/
def State.prefixHere (s : State) (q : Seq) : Bool :=
  let p := s.pagePositions
  (s.matchChild none (runHash q.salt p q.log 0) (runTokens p q.log 0)).isSome

/-- A member set keeps R565: a subcube of the least size that has the frames, at the lowest base that has them, unless the prefix tree's match puts it
elsewhere; or the set of R576 rule 1 for a sequence opened under the reproducible profile (R577). -/
def State.seqSetOk (s : State) (h : W32) (base size : Nat) : Bool :=
  match s.seq h with
  | none => false
  | some q =>
    if q.repro && s.wholeCube then
      size == 2 ^ s.spanLog && base == q.order * 2 ^ s.spanLog % s.crew.members.length
    else
      let sizes := (List.range (s.img.dims + 1)).map (2 ^ ·)
      let bases (n : Nat) : List Nat := (List.range (2 ^ s.img.dims / n)).map (n * ·)
      sizes.contains size && base % size == 0 && s.setFree h base size &&
        (sizes.filter (· < size)).all (fun n => (bases n).all fun b => !(s.setFree h b n)) &&
        ((bases size).all (fun b => decide (base ≤ b) || !(s.setFree h b size)) ||
          (s.prefixHere q && (s.setMembers base size).contains s.crew.coord))

/-! ### Prefill rings (R370, R374) -/

/-- Cables on which the laid directed rings of a subcube leave this member: each of its edges carries one ring, the single edge of k = 1 both of its rings (R371, R374,
R504). -/
def State.ringCables (s : State) (k : Nat) : Nat :=
  let ports := ((List.range k).map fun d => (s.upPorts d).length).foldl min 12
  (if k = 1 then min 1 (s.ringsNow k).length else (s.ringsNow k).length) * ports

/-- The least chunk c_min in positions (R374): the FP8 peak is 128 cores a die at 8,192 operations a cycle and 2.25 GHz, the egress that of the UP ports of
the dimensions the laid rings use, 500 GB/s each. The member that the figures are taken of is the master; the other members' ports are known to it only as links
(DESIGN CHOICE, log 60). -/
def State.minChunk (s : State) (k : Nat) : Nat :=
  let p := s.pagePositions
  if s.ringCables k * s.group * p = 0 then 0
  else ceilDiv (s.nDies * 128 * 8192 * 9) (2 * s.group * s.ringCables k * 2000 * p) * p

/-- A subcube's chunks reach c_min (R374). -/
def State.chunksReach (s : State) (round k : Nat) : Bool :=
  decide (1 ≤ k ∧ (s.ringsNow k) ≠ [] ∧ s.minChunk k ≤ (s.roundRuns round).2 / (2 * 2 ^ k) * s.pagePositions)

/-- A prefill ring keeps R374: the largest subcube within the sequence's member set whose chunks reach c_min, or two members or one when none does. -/
def State.ringEntryOk (s : State) (round base k : Nat) : Bool :=
  match s.reqOfKey round with
  | none => false
  | some r =>
    let set := s.setOf r.handle
    let fits (n : Nat) : Bool := decide (2 ^ n ≤ set.2)
    fits k && base % 2 ^ k == 0 && decide (set.1 ≤ base ∧ base + 2 ^ k ≤ set.1 + set.2) &&
      decide ((s.setMembers base (2 ^ k)).length = 2 ^ k) &&
      (s.chunksReach round k || (decide (k ≤ 1) && (List.range (s.img.dims + 1)).all fun n => !(fits n && s.chunksReach round n))) &&
      (List.range (s.img.dims + 1)).all fun n => decide (n ≤ k) || !(fits n && s.chunksReach round n)

/-! ### Head groups and weight shares (R358, R565, R576) -/

/-- The weights of a member are poisoned or being copied, as far as this member knows: its own. The crew planner gives it no share, head group or run (R657,
R679). -/
def State.barred (s : State) (c : Nat) : Bool := c == s.crew.coord && (s.wt.copying || s.wt.modPoison)

/-- Sizes of `n` heads in `g` groups that differ by at most one, the larger first (R576 rule 2). -/
def groupHeads (n g j : Nat) : List Nat :=
  let r := pieceRange n g j
  (List.range r.2).map (r.1 + ·)

/-- Head groups hold whole key-value heads, each once, on disjoint members of the crew (R358); under the reproducible profile they are those of R576 rule 2. -/
def State.headsOk (s : State) (first layers : Nat) (gs : List (List Nat × List Nat)) : Bool :=
  let hs := gs.flatMap Prod.fst
  let ms := gs.flatMap Prod.snd
  decide (first + layers ≤ s.layers ∧ hs.Nodup ∧ ms.Nodup ∧ hs.length = s.kvHeads) && hs.all (fun h => decide (h < s.kvHeads)) &&
    ms.all (fun c => (s.crew.members.any fun m => m.coord == c) && !(s.barred c)) && gs.all (fun g => g.1 != [] && g.2 != []) &&
    (!s.reproPlan || (decide (gs.length = 2 ^ s.groupLog) && ((List.range gs.length).zip gs).all fun x =>
      decide (x.2.1 = groupHeads s.kvHeads (2 ^ s.groupLog) x.1) &&
        x.2.2.all fun c => c % 2 ^ s.spanLog / 2 ^ (s.spanLog - s.groupLog) == x.1))

/-! ### Run migration (R567 to R569) -/

/-- A sequence is hot on a member (R567): in four consecutive summaries it is the member's HOT_SEQ, and the member's BUSY exceeds the mean of the
sequence's member set by more than 1/8. -/
def State.hotOn (s : State) (h : W32) (z : Nat) : Bool :=
  let set := s.setOf h
  let ms := s.setMembers set.1 set.2
  decide (4 ≤ s.fore.summaries.length) && (List.range 4).all fun k =>
    let sum := (ms.map fun c => smBusy (s.summaryOf k c)).foldl (· + ·) 0
    smHot (s.summaryOf k z) == h.toNat && decide (9 * sum < 8 * ms.length * smBusy (s.summaryOf k z))

/-- Insert a member by its BUSY in the newest summary, behind those of no higher one. -/
def State.insertBusy (s : State) (c : Nat) : List Nat → List Nat
  | [] => [c]
  | x :: xs => if smBusy (s.summaryOf 0 c) < smBusy (s.summaryOf 0 x) then c :: x :: xs else x :: s.insertBusy c xs

/-- Members, given in ascending coordinate, by their BUSY (R568). -/
def State.byBusy (s : State) (ms : List Nat) : List Nat := ms.foldl (fun a c => s.insertBusy c a) []

/-- The runs of a sequence that a delta moves from a member with their destinations, the newest first. -/
def movesFrom (es : List DeltaEntry) (h : W32) (src : Nat) : List (Nat × Nat) :=
  (es.flatMap fun e => match e with
    | .runMove x first n z dst => if x = h ∧ z = src then (List.range n).map fun i => (first + i, dst) else []
    | _ => []).foldl (fun a m => place m a) []
where
  /-- Insert by descending run. -/
  place (m : Nat × Nat) : List (Nat × Nat) → List (Nat × Nat)
    | [] => [m]
    | x :: xs => if x.1 < m.1 then m :: x :: xs else x :: place m xs

/-- A run holds the tail of the sequence or of a fork of it (R568). -/
def State.holdsTail (s : State) (h : W32) (r : Nat) : Bool :=
  s.seqs.any fun x => !x.closing && (x.handle == h || x.parent == some h) && s.tailRun x == r

/-- Whether a further run moved from this member leaves an excess above 1/16, `n` runs having gone: each run carries an equal part of the sequence's share
of BUSY (R568; log 13). -/
def State.excessLeft (s : State) (h : W32) (n : Nat) : Bool :=
  let set := s.setOf h
  let ms := s.setMembers set.1 set.2
  let sum := (ms.map fun c => smBusy (s.summaryOf 0 c)).foldl (· + ·) 0
  let x := s.summaryOf 0 s.crew.coord
  let runs := max 1 (s.runsHere h).length
  decide (17 * sum < 16 * ms.length * (smBusy x - smBusy x * smShare x * n / (65536 * runs)))

/-- The sequence's tail run is the last of its runs that stay on this member (R684). -/
def State.tailLast (s : State) (h : W32) (moved : List Nat) : Bool :=
  (s.runsHere h).all fun r => moved.contains r || s.holdsTail h r

/-- A run move keeps R567 and R568: a hot sequence and no run with a tail. Under the reproducible profile none takes place (R576 rule 6). A member in DRAIN sends
its runs to any other member, a run with a tail only where it writes no position and as the last (R684). -/
def State.runMoveOk (s : State) (es : List DeltaEntry) (h : W32) (first n src dst : Nat) : Bool :=
  let tails := (List.range n).any fun i => s.holdsTail h (first + i)
  dst != src && !(s.barred dst) && decide (0 < n) &&
    (if s.crew.draining.contains src then
       !(s.crew.draining.contains dst) && (!tails || src != s.crew.coord || s.tailLast h ((movesFrom es h src).map Prod.fst))
     else !tails && !s.reproPlan && s.hotOn h src)

/-- The moves of a delta from one member, sequence by sequence (R568): the j-th newest run goes to the j-th least busy other member of the set, the members in
turn, and they go no further than the stop; this member's own runs leave newest first. -/
def State.movesOk (s : State) (es : List DeltaEntry) (h : W32) (src : Nat) : Bool :=
  let mv := movesFrom es h src
  let set := s.setOf h
  let ms := s.byBusy ((s.setMembers set.1 set.2).filter fun c => c != src && !(s.barred c))
  let own := src == s.crew.coord
  let newest := (s.runsHere h).all fun r => s.holdsTail h r || mv.any (fun m => m.1 == r) || mv.all fun m => decide (r < m.1)
  decide ((mv.map Prod.fst).Nodup) && (!own || newest) &&
    (s.crew.draining.contains src ||
      (((List.range mv.length).zip mv).all (fun x => ms[x.1 % ms.length]? == some x.2.2) && (!own || s.excessLeft h (mv.length - 1))))

/-- Every sequence that a delta moves keeps R568 and R684. -/
def State.migrationOk (s : State) (es : List DeltaEntry) : Bool :=
  es.all fun e => match e with
    | .runMove h _ _ src _ => s.movesOk es h src
    | _ => true

/-- Bytes of pages that a delta moves from a member: at most 6 TB/s ÷ 16 × S, 3,750 bytes per 10 ns (R569), four times that from one in DRAIN (R685). -/
def State.movesFit (s : State) (es : List DeltaEntry) : Bool :=
  s.crew.members.all fun m =>
    let runs := (es.map fun e => match e with
      | .runMove _ _ n src _ => if src = m.coord then n else 0
      | _ => 0).foldl (· + ·) 0
    decide (runs * s.runPages * 16384 ≤ (if s.crew.draining.contains m.coord then 15000 else 3750) * s.shortPeriod)

/-! ### Admission order (R95, R420, R421, R565) -/

/-- Flash usage of a lot is below its quota (R420). -/
def State.flashRoom (s : State) (lot : Nat) : Bool :=
  let q := fld (Sparse.get 0 s.lots lot) 32 48
  q == 2 ^ 48 - 1 || decide ((Sparse.get (0, 0) s.fore.usage lot).2 < q)

/-- One request is admitted before another: by PRIORITY of its lot, then in the order of R623 within and between ticks (R95, R565). -/
def State.admitFirst (s : State) (a b : Req) : Bool :=
  decide (s.priority b.lot < s.priority a.lot) ||
    (s.priority a.lot == s.priority b.lot && (decide (a.tick < b.tick) || (a.tick == b.tick && a.before b)))

/-- Requests that a delta may admit, and that no delta has admitted yet. -/
def State.waitingWork (s : State) : List Req :=
  let named := s.fore.deltas.flatMap fun d => d.entries.filterMap fun e => match e with
    | .admission k _ _ => some k
    | _ => none
  s.reqs.filter fun r => s.admissible r.rid && s.flashRoom r.lot && !(named.contains r.key)

/-- The admissions of a delta leave out no request that comes before one of them (R95, R565). -/
def State.admitsInOrder (s : State) (es : List DeltaEntry) : Bool :=
  let ks := es.filterMap fun e => match e with
    | .admission k _ _ => some k
    | _ => none
  let ws := s.waitingWork
  ks.all fun k => match ws.find? fun r => r.key == k with
    | some r => ws.all fun x => ks.contains x.key || !(s.admitFirst x r)
    | none => false

/-! ### Layout deltas (R559 to R563) -/

/-- VERSION of the newest delta held. -/
def State.lastVersion (s : State) : Nat := s.fore.deltas.foldl (fun (a : Nat) (d : Delta) => max a d.version) s.fore.version

/-- A delta of this tick has been made or received. -/
def State.deltaDone (s : State) : Bool := s.fore.deltas.any fun d => d.firstPlan == s.tick.num + 2

/-- The entry may stand in a delta of the crew planner, `es` its entries: admissions only without a hold and within the flash quota, lot usage as the latest reports sum it,
and the placement that the rules allow (R93, R358, R374, R420, R557, R561, R565 to R568, R679). -/
def State.entryOk (s : State) (es : List DeltaEntry) (e : DeltaEntry) : Bool :=
  let isMember (c : Nat) : Bool := s.crew.members.any fun m => m.coord == c
  match e with
  | .admission k _ lot => !s.tick.hold && (s.reqOfKey k).any fun r => r.lot == lot && s.flashRoom lot && s.admissible r.rid
  | .lotUsage lot h f => decide (Sparse.get (0, 0) s.fore.sums lot = (h, f))
  | .seqSet h base size => s.seqSetOk h base size
  | .runMove h first n src dst => s.runMoveOk es h first n src dst && isMember src && isMember dst
  | .heads first n gs => s.headsOk first n gs
  | .weightShare m first n _ => isMember m && decide (first + n ≤ s.layers) && !(s.barred m)
  | .ring round base k => s.ringEntryOk round base k
  | .rebuild _ _ m => isMember m
  | .reserved _ => false

/-- Entries of one delta (R562). -/
def deltaMax : Nat := 131072

/-- LAYOUT_DELTA: the crew planner on the master makes the tick's delta for the plans from two ticks on, and multicasts it (R553, R559, R562). -/
def execLayoutDelta (entries : List DeltaEntry) (s : State) : Out :=
  when (s.ticking && s.crew.master == s.crew.coord && s.tick.phase != .none && !s.deltaDone && !s.tick.reported && entries.all (s.entryOk entries) &&
      s.admitsInOrder entries && s.movesFit entries && s.migrationOk entries) s <|
    let all := s.fore.overflow ++ entries
    let v := s.lastVersion + 1
    let now := all.take deltaMax
    let later := all.drop deltaMax
    let s := { s with fore := { s.fore with
      deltas := s.fore.deltas ++ [({ version := v, firstPlan := s.tick.num + 2, entries := now, committed := false } : Delta)], overflow := later } }
    let s := if later = [] then s else s.crewCount 25 later.length
    s.send (.delta v (s.tick.num + 2) now)

/-- A delta with a reserved KIND. -/
def reservedKind (e : DeltaEntry) : Bool :=
  match e with
  | .reserved _ => true
  | _ => false

/-- DELTA_RECEIVE: a sound delta is held for the plans from FIRST_PLAN; a corrupt one makes the attempt FAIL (R560 to R563). Its fail record names no part,
which R77 leaves open (DESIGN CHOICE, log 54). -/
def execDeltaReceive (version firstPlan : W64) (entries : List DeltaEntry) (s : State) : Out :=
  when (s.ticking && s.crew.master != s.crew.coord && s.tick.phase != .none) s <|
    if entries.any reservedKind ∨ version.toNat ≠ s.lastVersion + 1 then (s.hubCount 6 5).failAttempt 1
    else { s with fore := { s.fore with deltas := s.fore.deltas ++ [⟨version.toNat, firstPlan.toNat, entries, false⟩] } }

end Sys2Proof.Machine
end

