-- ==== Sys2Proof/Machine/JtagTest.lean ====
section
/-! DEFINITION. What the test multiplexers show, and the JTAG chain (R715 to R722). TAP 0 is the hub die's, TAP 1 the companion die's. -/

namespace Sys2Proof.Machine

/-! ### Test multiplexers (R715 to R718) -/

/-- The module phase as 0x1 shows it: 1 FETCH, 2 COMPUTE, 3 EXCHANGE, 4 CHECK-AND-COMMIT, the latest that any part has entered in the attempt (R717). A
part has entered COMPUTE once a context has run, and EXCHANGE once a collective has had a chunk or a combine (DEDUCED, log 58). -/
def State.phaseCode (s : State) : Nat :=
  match s.tick.phase with
  | .none => 0
  | .checkAndCommit => 4
  | .work =>
    if s.coll.chunks != [] || s.coll.sums != [] then 3
    else if s.cores.any fun k => k.2.ctxs.any fun c => c.2.st != .empty && c.2.st != .loaded then 2
    else 1

/-- Cores of a die whose context runs. -/
def State.busyCores (s : State) (d : Nat) : Nat := (s.cores.filter fun k => k.1 / 128 == d && k.2.running.isSome).length

/-- A Landing flush is in progress on a stack: a full slot of it has been written out in CHECK-AND-COMMIT and not committed yet (R312). -/
def State.flushing (s : State) (n : Nat) : Bool := s.tick.phase == .checkAndCommit && s.fullSlots.any fun k => k / 480 == n

/-- The level of a selection's signal between its pulses (R717): GROUP in bits 7:4, INST in bits 3:0. Values that the table does not list, and parts that are
absent, are low. -/
def State.tmuxLevel (s : State) (sel : Nat) : Bool :=
  let i := sel % 16
  match sel / 16 with
  | 0 =>
    if i = 1 then true else if i = 5 then s.tick.hold else if i = 6 then s.isMember && s.crew.master == s.crew.coord
    else if i = 7 then s.isMember else false
  | 1 => decide (i < 3) && s.phaseCode.testBit i
  | 2 => decide (i < 12) && (s.port i).state == .up
  | 4 => s.hasDie i && decide (0 < (s.die i).step)
  | 5 => s.hasDie i && decide (64 ≤ s.busyCores i)
  | 6 => s.hasStack i && s.flushing i
  | 7 => s.hasStack (16 + i) && s.flushing (16 + i)
  | 8 => decide (i < 2) && (s.hostPort i).link != .inReset
  | 9 => if i = 1 then s.flash.cleaning != [] || s.flash.spilling != [] || s.wt.rewriting.isSome else decide (i = 2) && s.mbx.busy
  | _ => false

/-- Pulses of a selection since reset; a pin that shows it rises and falls once for each (R717, R718). -/
def State.tmuxPulses (s : State) (sel : Nat) : Nat := Sparse.get 0 s.ctr.pulses sel

/-- The level of pin TMUXn: the selection it shows, or low for the interval of a change (R716). -/
def State.tmuxOut (s : State) (n : Nat) : Bool :=
  match Sparse.get .steady s.tmux.pins n with
  | .steady => s.tmuxLevel (tmuxPin s.tmuxSel n).toNat
  | .old b => s.tmuxLevel b.toNat
  | .low => false

/-! ### The JTAG chain (R719 to R722) -/

/-- The instruction a TAP holds (R720). -/
def Jtag.instr (j : Jtag) (tap : Nat) : TapInstr := if tap = 0 then j.hub else j.comp

/-- The boundary register of a TAP (R721). -/
def Jtag.reg (j : Jtag) (tap : Nat) : List Bool := if tap = 0 then j.hubReg else j.compReg

/-- Load a TAP's instruction register. -/
def Jtag.load (j : Jtag) (tap : Nat) (i : TapInstr) : Jtag :=
  if tap = 0 then { j with hub := i } else { j with comp := i }

/-- Instructions that take the pins while they are permitted (R722). -/
def TapInstr.takesPins : TapInstr → Bool
  | .extest => true | .highz => true | .clamp => true | .extestPulse => true | .extestTrain => true
  | .samplePreload => false | .idcode => false | .bypass => false

/-- Pin-taking instructions act only in FAULT, or in ROM with ROM_HOLD set (R722). -/
def State.testPermitted (s : State) : Bool := s.sys.state == .fault || (s.sys.state == .rom && s.smb.romHold)

/-- The instruction a TAP acts on: a pin-taking one acts as BYPASS where it is not permitted (R722). -/
def State.tapActs (s : State) (tap : Nat) : TapInstr :=
  let i := s.jtag.instr tap
  if i.takesPins && !s.testPermitted then .bypass else i

/-- The boundary pins of a TAP are taken from their functions. -/
def State.pinsTaken (s : State) (tap : Nat) : Bool := (s.tapActs tap).takesPins

/-- The IDCODE register of a TAP (R719). -/
def State.idcodeReg (s : State) (tap : Nat) : W32 :=
  let rev := if tap = 0 then s.ident.revHub else s.ident.revComp
  place 32 28 4 rev.toNat ||| place 32 12 16 (if tap = 0 then 0x5A10 else 0x5A20) ||| place 32 1 11 s.ident.jtagMaker.toNat ||| 1

/-- Load an instruction into a powered TAP. -/
def State.tapLoad (s : State) (tap : Nat) (i : TapInstr) : Out :=
  needPart (tap < 2) "TAP" (when (s.pwr.main == .on) s { s with jtag := s.jtag.load tap i })

/-- EXTEST (R720, R722). -/
def execExtest (tap : Nat) (s : State) : Out := s.tapLoad tap .extest

/-- SAMPLE_PRELOAD: the boundary register takes the pins sampled, or the values shifted in (R720). -/
def execSamplePreload (tap : Nat) (pins : List Bool) (s : State) : Out :=
  needPart (tap < 2) "TAP" (when (s.pwr.main == .on) s
    (let j := s.jtag.load tap .samplePreload
     { s with jtag := if tap = 0 then { j with hubReg := pins } else { j with compReg := pins } }))

/-- IDCODE (R719, R720). -/
def execIdcode (tap : Nat) (s : State) : Out := s.tapLoad tap .idcode

/-- HIGHZ (R720, R722). -/
def execHighz (tap : Nat) (s : State) : Out := s.tapLoad tap .highz

/-- CLAMP (R720, R722). -/
def execClamp (tap : Nat) (s : State) : Out := s.tapLoad tap .clamp

/-- EXTEST_PULSE (R720, R722). -/
def execExtestPulse (tap : Nat) (s : State) : Out := s.tapLoad tap .extestPulse

/-- EXTEST_TRAIN (R720, R722). -/
def execExtestTrain (tap : Nat) (s : State) : Out := s.tapLoad tap .extestTrain

/-- The instruction of an opcode; 0xFF and every unlisted opcode are BYPASS (R720). -/
def tapOpcode (op : Byte) : TapInstr :=
  if op = 0 then .extest else if op = 1 then .samplePreload else if op = 2 then .idcode else if op = 3 then .highz
  else if op = 4 then .clamp else if op = 5 then .extestPulse else if op = 6 then .extestTrain else .bypass

/-- BYPASS: an opcode that R720 does not list, or 0xFF; a listed one selects what it names. -/
def execBypass (tap : Nat) (opcode : Byte) (s : State) : Out := s.tapLoad tap (tapOpcode opcode)

/-- TEST_LOGIC_RESET: IDCODE is selected on both TAPs, so the pins return to their functions; the module stays in its state (R720, R722). -/
def execTestLogicReset (s : State) : Out :=
  when (s.pwr.main == .on) s { s with jtag := { s.jtag with hub := .idcode, comp := .idcode } }

end Sys2Proof.Machine
end

