-- ==== Sys2Proof/Machine/Throttle.lean ====
section
/-! DEFINITION. Throttling and thermal shutdown (R107 to R110, R706, R741, R742). Temperatures are tenths of a degree, power is in watts. -/

namespace Sys2Proof.Machine

/-- The maximum input power (R48). -/
def Variant.maxWatts : Variant → Nat
  | .zf8 => 6600 | .zf4 => 3709 | .zf2 => 2264

/-- The reading of one die; an absent reading has no sensors. -/
def dieReading (r : SensorReadings) (d : Nat) : DieReading := r.dies[d]?.getD ⟨[], []⟩

/-- A throttle condition holds for a die (R107). -/
def State.throttleCondition (s : State) (r : SensorReadings) (d : Nat) : Bool :=
  ((dieReading r d).junction.any fun t => decide (1000 ≤ t)) || ((dieReading r d).hbm.any fun t => decide (950 ≤ t)) ||
    decide (s.ident.variant.maxWatts < r.watts)

/-- The release conditions hold for a die (R108). -/
def State.releaseCondition (s : State) (r : SensorReadings) (d : Nat) : Bool :=
  ((dieReading r d).junction.all fun t => decide (t < 970)) && ((dieReading r d).hbm.all fun t => decide (t < 920)) &&
    decide (r.watts * 100 < s.ident.variant.maxWatts * 97)

/-- The histogram bin of a reading: truncated to the whole degree at or below it (R706). -/
def thermalBin (t : Int) : Nat :=
  let c := t / 10
  if c < 61 then 0 else if 122 ≤ c then 62 else (c - 60).toNat

/-- One evaluation's histogram counts of a die, sensors in order (R706). -/
def State.countSensors (s : State) (d : Nat) (ts : List Int) : State :=
  ((List.range 20).zip ts).foldl (fun s p => s.count d 0xB (15 + 63 * p.1 + thermalBin p.2)) s

/-- The lowest clock, 562.5 MHz, is step 12 (R107). -/
def maxStep : Nat := 12

/-- One die at an evaluation: its counters, and one step down while a condition holds (R108). The 10 µs of the evaluation are 1,000 units of
time at the step in force. -/
def State.evaluateDie (s : State) (r : SensorReadings) (d : Nat) : State :=
  let x := s.die d
  let s := (s.countSensors d ((dieReading r d).junction ++ (dieReading r d).hbm)).count d 0xB x.step 1000
  if s.throttleCondition r d && decide (x.step < maxStep) then
    (s.setDie d { x with step := x.step + 1 }).count d 0xB 13
  else s

/-- One die at a raise: one step up while the release conditions hold (R108). -/
def State.raiseDie (s : State) (r : SensorReadings) (d : Nat) : State :=
  let x := s.die d
  if s.releaseCondition r d && decide (0 < x.step) then
    (s.setDie d { x with step := x.step - 1 }).count d 0xB 14
  else s

/-- The dies are powered: the main domain is on, and no thermal shutdown has powered them off (R742). -/
def State.diesPowered (s : State) : Bool :=
  s.pwr.main == .on && !(s.sys.state == .fault && s.sys.faultClass == 9)

/-- THROTTLE_EVALUATION (R108). -/
def execThrottleEvaluation (r : SensorReadings) (s : State) : Out :=
  when s.diesPowered s
    ((List.range s.nDies).foldl (fun s d => s.evaluateDie r d) { s with therm := r })

/-- THROTTLE_RAISE (R108). -/
def execThrottleRaise (r : SensorReadings) (s : State) : Out :=
  when s.diesPowered s ((List.range s.nDies).foldl (fun s d => s.raiseDie r d) { s with therm := r })

/-- The FAULT_DETAIL values of the parts that have reached a shutdown limit (R109, R742). -/
def State.shutdownParts (s : State) (r : SensorReadings) : List Nat :=
  ((List.range s.nDies).filter fun d =>
    ((dieReading r d).junction.any fun t => decide (1150 ≤ t)) || ((dieReading r d).hbm.any fun t => decide (1050 ≤ t))) ++
    (if 1150 ≤ r.hub then [0xFF] else []) ++ (if 950 ≤ r.nand then [0xFE] else [])

/-- The dies, stacks and flash tier lose power: what they held is gone, except the non-volatile flash (R742). -/
def State.diesOff (s : State) : State :=
  { s with dies := [], cores := [], stands := [], hbm := { retired := s.hbm.retired }, land := {}, sketches := [], qsketch := [], coll := {},
           flash := { s.flash with halfRate := false, queue := [], cleaning := [], cleaned := [], spilling := [] } }

/-- THERMAL_SHUTDOWN (R742): FAULT 0x09. When several parts reach their limits at once the spec does not say which FAULT_DETAIL names: one
of them, by a free value (log 8). -/
def execThermalShutdown (r : SensorReadings) (s : State) : Out :=
  let parts := s.shutdownParts r
  when (s.diesPowered && s.sys.state != .off && decide (parts ≠ [])) s
    (let pick := s.freeWord
     let detail := parts[pick.1.toNat % parts.length]?.getD 0
     (({ (if parts.length = 1 then s else pick.2) with therm := r }).enterFault 9 detail).diesOff)

/-- NAND_THROTTLE: at 85 °C every channel runs at half rate (R741). -/
def execNandThrottle (celsius10 : Int) (s : State) : Out :=
  when (s.diesPowered && decide (850 ≤ celsius10)) s
    { s with flash := { s.flash with halfRate := true }, therm := { s.therm with nand := celsius10 } }

/-- NAND_THROTTLE_RELEASE: below 80 °C every channel runs at full rate (R741). -/
def execNandThrottleRelease (celsius10 : Int) (s : State) : Out :=
  when (s.diesPowered && decide (celsius10 < 800)) s
    { s with flash := { s.flash with halfRate := false }, therm := { s.therm with nand := celsius10 } }

end Sys2Proof.Machine
end

