-- ==== Sys2Proof/Machine/Tick.lean ====
section
/-! DEFINITION. The tick controller: edges, check reports, command sets and repeats, the master's decision, and what an edge does: commit, replay or form
(R51 to R106, R434, R557, R558, R671 to R680, R686, R692, R707). -/

namespace Sys2Proof.Machine

/-! ### Message layouts (R62, R73 to R80) -/


/-- A tick header of the kind given, reserved bits zero (R73, R75). -/
def tickHeaderOk (h : BitVec 128) (kind : Nat) : Bool :=
  thKind h == kind && thReserved h == 0 && decide (1 ≤ thFlits h ∧ thFlits h ≤ 16384)

/-- The message belongs to this module's current attempt (R75). -/
def State.thisAttempt (s : State) (h : BitVec 128) : Bool := thTick h == s.tick.num && thAttempt h == s.tick.attempt

/-- Every part of a message has a sound tick header of this attempt (R75). -/
def State.partsOk (s : State) (m : TickMsg) (kind : Nat) : Bool := (m.hdr :: m.more).all fun h => tickHeaderOk h kind && s.thisAttempt h

/-- The tick-edge message of a body (R62). -/
def edgeOf (b : BitVec 256) : EdgeMsg :=
  { tickNum := fld b 192 64, edgeTime := fld b 128 64, epoch := BitVec.ofNat 32 (fld b 96 32), lag := fld b 64 32, period := fld b 40 24,
    master := fld b 28 12, decision := fld b 24 4, hold := bitAt b 23, attempt := fld b 16 7 }

/-- The message is one flit in one part, its reserved field is zero and its DECISION is not reserved (R63, R64, R74). -/
def edgeFormOk (h : BitVec 128) (b : BitVec 256) : Bool :=
  tickHeaderOk h 0 && thFlits h == 1 && thPart h == 0 && thLast h && fld b 0 16 == 0 && decide (fld b 24 4 ≤ 2)

/-- The member that becomes master of a crew without the members found lost: the lowest coordinate of those in RUN (R56). Where none of them is in RUN the
spec names no master; the lowest coordinate of all of them is then taken (DESIGN CHOICE, log 43). -/
def State.electMaster (s : State) : Nat :=
  let ms := s.crew.members.filter fun m => !(s.crew.lostNow.contains m.coord)
  let run := ms.filter fun m => !(s.crew.draining.contains m.coord) && (m.coord != s.crew.coord || s.sys.state != .drain)
  lowestCoord (if run = [] then ms else run)

/-- The edge continues the attempt in flight as R63 says of its DECISION. -/
def State.edgeFits (s : State) (e : EdgeMsg) : Bool :=
  if e.decision = 0 then e.tickNum == s.tick.num + 1 && e.attempt == 0 && e.epoch == s.crew.epoch
  else if e.decision = 1 then e.tickNum == s.tick.num && e.attempt == (s.tick.attempt + 1) % 128 && e.epoch == s.crew.epoch
  else e.tickNum == s.tick.num && decide (s.crew.epoch.toNat ≤ e.epoch.toNat)

/-- An EDGE that this member takes (R64, R75). -/
def State.edgeOk (s : State) (h : BitVec 128) (b : BitVec 256) : Bool :=
  edgeFormOk h b && (fld b 24 4 == 2 || s.thisAttempt h) && s.edgeFits (edgeOf b)

/-- This module takes ticks, or has formed a crew and waits for its first edge. -/
def State.inCrew (s : State) : Bool := s.ticking || (s.crew.member && s.sys.state == .join)

/-- Pass a message down the tick tree (R59, R74). -/
def State.forwardDown (s : State) (m : OutMsg) : State := if s.treeChildren = [] then s else s.sendTick m s.treeChildren

/-- Pass an edge down the tick tree: that of its master for a FORM edge (R59, R63). -/
def State.passEdge (s : State) (e : EdgeMsg) : State :=
  let kids := if e.decision = 2 then s.formTree e.master else s.treeChildren
  if kids = [] then s else s.sendTick (.edge e) kids

/-- The member from which the next edge comes: the master, or the member that becomes master once this one knows of a loss (R56, R90). -/
def State.edgeSource (s : State) : Nat := if s.crew.lostNow = [] then s.crew.master else s.electMaster

/-- Ask the master for a message again (R64, R75). -/
def State.askMaster (s : State) (what : Nat) : State := s.sendTick (.repeatReq what s.edgeSource) [s.edgeSource]

/-- The port toward the parent. -/
def State.upPort (s : State) : Nat := s.portTo ((s.parentOf s.crew.coord).getD s.crew.master)

/-! ### EDGE and CMDSET (R59, R62 to R64, R81) -/

/-- What a tick-edge message does at a module (R59, R63, R64). -/
def State.takeEdge (s : State) (hdr : BitVec 128) (body : BitVec 256) : State :=
  let e := edgeOf body
  if s.sys.state = .join ∧ ¬s.crew.member then
    if edgeFormOk hdr body && e.decision == 0 then { s with tick := { s.tick with pending := some e } } else s
  else if !s.inCrew ∨ (if e.decision = 2 then e.master else s.crew.master) = s.crew.coord then s
  else if s.edgeOk hdr body then ({ s with tick := { s.tick with pending := some e } }).passEdge e
  else ((s.linkCount s.upPort 49).crewCount 5).askMaster 0

/-- EDGE: a valid tick-edge message waits for its EDGE_TIME and goes on down the tree; any other is discarded, counted, and asked for again (R64). A
module in JOIN keeps the edge that may admit it. The message is one whose flits have arrived (R75). -/
def execEdge (hdr : BitVec 128) (body : BitVec 256) (s : State) : Out :=
  match s.received 0 hdr fun b => bodyWord 32 b == body.toNat with
  | none => .next s
  | some m => .next ((s.useMsg m).takeEdge hdr body)

/-- Command records in the order of R623, each of them once. -/
def recordsOrdered (rs : List CmdRec) : Bool :=
  decide ((rs.map fun r => r.coord * 2 ^ 32 + r.arrival).Pairwise (· < ·))

/-- Host commands that every member applies from their record alone; the others are decoded by their rows when their data has come. -/
def recordAlone (op : Nat) : Bool := decide (1 ≤ op ∧ op ≤ 6) || op == 8 || op == 9

/-- The request of another member's command (R81, R85). It completes on the member that received it, so it owes no completion here. Its arrival counts
within its tick. -/
def State.foreignReq (s : State) (c : CmdRec) : Req :=
  let e : Entry := c.entry
  { rid := s.host.nextRid, port := 0, qid := c.qid, coord := c.coord, cid := BitVec.ofNat 16 e.cid, opcode := BitVec.ofNat 8 e.opcode,
    entry := e, arrival := s.tick.num * 2 ^ 32 + c.arrival, stage := if recordAlone e.opcode then .staged else .merge,
    handle := e.handle, lot := s.lotOf c.qid, owed := false,
    target := if e.opcode = 5 then (s.reqs.find? fun q => q.coord == c.coord && q.qid == e.targetQid &&
      q.cid.toNat == e.targetCid && q.live).map (·.rid) else none }

/-- The record concerns this member (R612): index commands go to the index's home. -/
def State.concerns (s : State) (c : CmdRec) : Bool :=
  let e : Entry := c.entry
  c.coord != s.crew.coord && Entry.fieldsOk c.entry &&
    (if e.opcode = 0xA ∨ e.opcode = 0xB ∨ e.opcode = 0xC then s.homed e.indexId else true)

/-- One record of the CMDSET. -/
def State.takeRecord (s : State) (c : CmdRec) : State :=
  if s.concerns c then { s with reqs := s.reqs ++ [s.foreignReq c], host := { s.host with nextRid := s.host.nextRid + 1 } } else s

/-- The command set of the tick is complete on this member (R81). -/
def State.takeCmdset (s : State) (rs : List CmdRec) : State :=
  let s := rs.foldl State.takeRecord s
  { s with tick := { s.tick with cmdset := some rs } }

/-- CMDSET (R74, R75, R81): the message is one whose flits have arrived, and `recs` are the records of its body. A reserved bit set in one spoils it. -/
def execCmdset (hdr : BitVec 128) (recs : List CmdRec) (s : State) : Out :=
  match s.received 3 hdr fun b => recordsIn b == recs with
  | none => .next s
  | some m =>
    let s := s.useMsg m
    when (s.ticking && s.crew.master != s.crew.coord && s.tick.cmdset.isNone) s <|
      if s.partsOk m 3 && recordsOrdered recs && m.body == recs.flatMap recordBytes then
        (s.takeCmdset recs).forwardDown (.cmdset s.tick.num s.tick.attempt recs)
      else (s.linkCount s.upPort 25).askMaster 2

/-! ### Check reports (R68 to R70, R76 to R80, R557, R558, R675) -/

def rpTick (r : Report) : Nat := fld r.header 448 64
def rpAttempt (r : Report) : Nat := fld r.header 441 7
def rpFail (r : Report) : Bool := bitAt r.header 440
def rpCovered (r : Report) : Nat := fld r.header 427 13
def rpOrigin (r : Report) : Nat := fld r.header 415 12

/-- The header of a report with these sections (R76). -/
def reportHead (tick attempt covered origin : Nat) (r : Report) : BitVec 512 :=
  place 512 448 64 tick ||| place 512 441 7 attempt ||| place 512 440 1 (bit (r.fails != [])) ||| place 512 427 13 covered |||
    place 512 415 12 origin ||| place 512 395 20 r.fails.length ||| place 512 367 28 r.cmds.length ||| place 512 354 13 r.joins.length |||
    place 512 341 13 r.summs.length

/-- Body length that a report's sections give (R76). -/
def reportLen (r : Report) : Nat := 64 + 16 * r.fails.length + 80 * r.cmds.length + 16 * r.joins.length + 64 * r.summs.length + 4096

/-- A fail record without a reserved value (R77). -/
def failRecordOk (f : BitVec 128) : Bool := decide (1 ≤ fld f 112 4 ∧ fld f 112 4 ≤ 7 ∧ fld f 108 4 ≤ 6) && fld f 0 87 == 0

/-- A complete report of a child that this member takes: its sections are as its header counts them and no reserved bit is set (R75 to R79). -/
def State.reportOk (s : State) (child : Nat) (r : Report) (body : List Byte) : Bool :=
  decide (r.header = reportHead s.tick.num s.tick.attempt (rpCovered r) child r) && decide (1 ≤ rpCovered r ∧ rpCovered r ≤ 4096) &&
    decide (body.length = reportLen r) && body == Machine.reportBytes r && r.fails.all failRecordOk && r.joins.all (fun j => fld j 0 37 == 0) &&
    r.summs.all (fun x => fld x 0 264 == 0) && decide (r.usage.length = 256)

/-- Commands whose records go up with the report: crew and handle scope, index commands, and ABORT (R78, R612). -/
def Req.forwarded (r : Req) : Bool :=
  decide (1 ≤ r.e.opcode ∧ r.e.opcode ≤ 7) || (r.e.opcode == 8 && !r.e.kind) || r.e.opcode == 9 || decide (0xA ≤ r.e.opcode ∧ r.e.opcode ≤ 0xC)

/-- The command records of this member's attempt (R78). -/
def State.ownRecords (s : State) : List CmdRec :=
  (s.reqs.filter fun r => r.coord == s.crew.coord && r.stage != .next && decide (s.tick.firstArr ≤ r.arrival) && r.forwarded).map fun r =>
    ⟨r.entry, r.coord, r.qid, r.arrival - s.tick.firstArr⟩

/-- Join requests for the modules that wait behind READY ports (R79, R675). -/
def State.ownJoins (s : State) : List (BitVec 128) :=
  (List.range 12).filterMap fun n =>
    let p := s.port n
    match p.peer with
    | some r =>
      if p.state = .ready ∧ !trMember r ∧ !(s.crew.members.any fun m => m.moduleId.toNat == trModule r) then
        some (place 128 64 64 (trModule r) ||| place 128 52 12 ((trClaim r).getD 0) ||| place 128 51 1 (bit (trClaim r).isSome) |||
          place 128 49 2 (trVariant r) ||| place 128 37 12 s.crew.coord)
      else none
    | none => none

/-- The highest junction temperature in whole degrees (R558). -/
def State.maxJunction (s : State) : Nat := (((s.therm.dies.flatMap (·.junction)).foldl max 0) / 10).toNat

/-- The member summary (R558). Busy time and the hot sequence are measured, and come with the command. -/
def State.summary (s : State) (busy hotSeq : W32) (hotShare : BitVec 16) : BitVec 512 :=
  let freeHbm := ((List.range s.nStacks).map s.freeFrames).foldl (· + ·) 0
  let freeFlash := s.flashUser - (s.flash.ftab.filter fun e => e.2.inUse).length
  (List.range 8).foldl (fun (r : BitVec 512) k => r ||| place 512 (272 + 4 * k) 4 (if s.hasDie k then (s.die k).step else 0xF))
    (place 512 448 64 s.tick.num ||| place 512 416 32 busy.toNat ||| place 512 384 32 freeHbm ||| place 512 352 32 freeFlash |||
      place 512 320 32 hotSeq.toNat ||| place 512 304 16 hotShare.toNat ||| place 512 264 8 s.maxJunction)

/-- Frames in use that are charged to each lot, HBM and flash (R417, R557). -/
def State.lotFrames (s : State) : List (Nat × Nat) :=
  (List.range 256).map fun l =>
    ((s.hbm.ftab.filter fun e => e.2.inUse && e.2.lot == l).length, (s.flash.ftab.filter fun e => e.2.inUse && e.2.lot == l).length)

/-- This member's own report. -/
def State.makeReport (s : State) (busy hotSeq : W32) (hotShare : BitVec 16) : Report :=
  let r : Report := ⟨0, s.tick.fails, s.ownRecords, s.ownJoins, [s.summary busy hotSeq hotShare], s.lotFrames⟩
  { r with header := reportHead s.tick.num s.tick.attempt 1 s.crew.coord r }

/-- Element-wise sum of lot-usage records. -/
def addUsage (a b : List (Nat × Nat)) : List (Nat × Nat) := (a.zip b).map fun x => (x.1.1 + x.2.1, x.1.2 + x.2.2)

/-- The combined report of a parent (R80). -/
def combineReports (tick attempt coord : Nat) (own : Report) (cs : List Report) : Report :=
  let r : Report := ⟨0, own.fails ++ cs.flatMap (·.fails), own.cmds ++ cs.flatMap (·.cmds), own.joins ++ cs.flatMap (·.joins),
    own.summs ++ cs.flatMap (·.summs), (cs.map (·.usage)).foldl addUsage own.usage⟩
  { r with header := reportHead tick attempt ((cs.map rpCovered).foldl (· + ·) 1) coord r }

/-- What the master keeps of the crew's combined report: that it is complete, its join requests, and what the crew planner reads (R553, R557,
R676). -/
def State.masterReport (s : State) (c : Report) : State :=
  { s with
    tick := { s.tick with sentReport := some c, reportsIn := true }
    crew := { s.crew with joinSeen := c.joins.eraseDups }
    fore := { s.fore with summaries := (c.summs :: s.fore.summaries).take 4
                          sums := ((List.range 256).zip c.usage).foldl (fun (m : Sparse (Nat × Nat)) x => Sparse.set (0, 0) m x.1 x.2) [] } }

/-- Once its own report and every child's are here, a member sends the combined report; the master then holds every report (R69). -/
def State.tryForward (s : State) : State :=
  match s.tick.ownReport with
  | none => s
  | some own =>
    let cs := s.treeChildren.filterMap fun c => (s.tick.children.find? fun e => e.1 == c).map Prod.snd
    if cs.length < s.treeChildren.length ∨ s.tick.sentReport.isSome then s
    else
      let c := combineReports s.tick.num s.tick.attempt s.crew.coord own cs
      if s.crew.master = s.crew.coord then s.masterReport c
      else ({ s with tick := { s.tick with sentReport := some c } }).sendTick (.report c) (s.parentOf s.crew.coord).toList

/-- A child's whole report is here. -/
def TickSt.takeChild (k : TickSt) (child : Nat) (rep : Report) : TickSt :=
  { k with children := (k.children.filter fun (e : Nat × Report) => e.1 != child) ++ [(child, rep)]
           partials := k.partials.filter (· ≠ child) }

/-- A flit of a REPORT of a child that is not whole yet has arrived with this tick header. -/
def State.partHere (s : State) (child : Nat) (hdr : BitVec 128) : Bool := s.yard.rx.any fun f => ofTick child 1 f && tickHdrOf f == hdr

/-- A whole report of a child is taken, or discarded and counted (R75). -/
def State.takeReport (s : State) (child : Nat) (rep : Report) (m : TickMsg) : State :=
  if s.ticking && s.tick.phase != .none && s.treeChildren.contains child then
    if s.partsOk m 1 && s.reportOk child rep m.body then ({ s with tick := s.tick.takeChild child rep }).tryForward
    else s.linkCount (s.portTo child) 25
  else s

/-- REPORT: a child's check report arrives, whole or still in part (R69, R75 to R80): its flits are here, and `rep` and `bodyBytes` are what the body
of a whole one holds. -/
def execReport (child : Nat) (hdr : BitVec 128) (rep : Report) (bodyBytes : Nat) (whole : Bool) (s : State) : Out :=
  if whole then
    match (s.received 1 hdr fun b => b.length == bodyBytes && reportIn b == rep).filter fun m => m.src == child with
    | none => .next s
    | some m => .next ((s.useMsg m).takeReport child rep m)
  else
    when (s.ticking && s.tick.phase != .none && s.treeChildren.contains child && s.partHere child hdr) s <|
      if tickHeaderOk hdr 1 && s.thisAttempt hdr then { s with tick := { s.tick with partials := (s.tick.partials ++ [child]).eraseDups } }
      else { s with yard := { s.yard with rx := s.yard.rx.filter fun f => !(ofTick child 1 f && tickHdrOf f == hdr) } }.linkCount (s.portTo child) 25

/-- What a REPEAT asks for goes to the member that asks (R74, R75): an edge from the master that issued it, the new one for a FORM edge (R90). -/
def State.answerRepeat (s : State) (src what : Nat) : State :=
  if what = 1 then
    match s.tick.sentReport with
    | some c => if s.parentOf s.crew.coord = some src then s.sendTick (.report c) [src] else s
    | none => s
  else if what = 0 then
    match s.tick.pending with
    | some e => if s.crew.master = s.crew.coord ∨ (e.decision = 2 ∧ e.master = s.crew.coord) then s.sendTick (.edge e) [src] else s
    | none => s
  else if s.crew.master ≠ s.crew.coord then s
  else
    match s.tick.cmdset with
    | some rs => s.sendTick (.cmdset s.tick.num s.tick.attempt rs) [src]
    | none => s

/-- REPEAT: the master sends its EDGE or CMDSET again, a child its report (R74, R75); the message is one whose flits have arrived. -/
def execRepeatMsg (src : Nat) (hdr : BitVec 128) (body : BitVec 128) (s : State) : Out :=
  match (s.received 2 hdr fun b => bodyWord 16 b == body.toNat).filter fun m => m.src == src with
  | none => .next s
  | some m =>
    let s := s.useMsg m
    when s.inCrew s <|
      if s.partsOk m 2 && fld body 0 124 == 0 && decide (fld body 124 4 ≤ 2) then s.answerRepeat src (fld body 124 4)
      else s.linkCount (s.portTo src) 25

/-- REPORT_REPEAT_TIMEOUT: 10 µs after its first flit a report is still incomplete (R75). -/
def execReportRepeatTimeout (child : Nat) (s : State) : Out :=
  when (s.ticking && s.tick.partials.contains child) s (s.sendTick (.repeatReq 1 child) [child])

/-! ### CHECK-AND-COMMIT (R67, R68, R83, R312) -/

/-- A context that has nothing left to do. -/
def Ctx.idle (c : Ctx) : Bool := c.st == .empty || c.st == .done || c.st == .faulted

/-- A core has no task left: each context has ended, and none waits for one (R269). -/
def Core.finished (k : Core) : Bool := k.todo == [] && k.ctxs.all fun c => c.2.idle

/-- A port still has flits of the tick's collectives and transfers to send (R50, R67, R485). -/
def LinkPort.sendsData (p : LinkPort) : Bool := p.state == .up && p.txq.any fun f => fhType f.hdr == 7 || fhType f.hdr == 8

/-- The chunks that a collective brings here have landed and its combines here are done (R67, R525): a tree program's planned streams and sites; of a ring
program every step of the reduction, and every segment that it gathers (R529). -/
def State.collDone (s : State) (c : CollPlan) : Bool :=
  let has (item chunk : Nat) : Bool := Sparse.get [] s.coll.sums (sumKey c.collId item chunk) != []
  if ringProgram c then
    let n := (s.ringMembers c).length
    (c.program == 5 || (List.range (n - 1)).all fun i => has ((s.ringPlace c + 2 * n - 2 - i) % n) 0) &&
      (c.program == 4 || (List.range n).all fun i => i == s.ringPlace c || s.coll.landed.any fun l => l.coll == c.collId && l.final && l.item == i)
  else
    (c.streams.all fun x => s.coll.landed.any fun l => l.coll == c.collId && l.sender == x.sender && (x.level == 0 || l.step == x.level)) &&
      c.sites.all fun x => x.member != s.crew.coord || has x.item x.chunk

/-- Every collective of the plan has finished on this member, its own contributions sent. In an attempt that has failed here, what a discarded chunk was to feed never comes, and no rule has
the member wait for it (R539; DESIGN CHOICE, log 60). -/
def State.collsDone (s : State) : Bool := s.tick.fails != [] || (s.coll.chunks == [] && s.coll.plan.all s.collDone && s.ownDue.isNone)

/-- No prefill round stands within a step: each step begun has folded on every ring (R376). -/
def State.roundsWhole (s : State) : Bool :=
  s.fore.ringStep.all fun e => e.2.all fun c => ((s.ringOf e.1).map fun x => (s.ringsUsed x.2).all fun r => e.2.contains (c / 64 * 64 + r)).getD true

/-- Sketches that are due and can still be formed (R330). -/
def State.sketchesDue (s : State) : Bool :=
  s.fore.sketchQ.any fun x => (s.seq x.1).any fun q => leafTier (q.entry x.2) == 0

/-- The work of the tick is finished (R50, R67, R68): every task has ended, every stream entry has arrived, the stand ports are free, the planned collectives have
finished, no prefill round stands within a step, the side lists of new searches are scanned, the sketches due are formed, every command of the merge is decoded, no
page copy is in progress, no data waits at a port, and the tick has its plan. -/
def State.workDone (s : State) : Bool :=
  !s.fore.replan && s.hbm.copies == [] && s.collsDone && s.roundsWhole && !s.sketchesDue &&
    (s.searches.all fun x => x.start != s.tick.num || x.scanned || x.result.isSome) && (s.cores.all fun k => k.2.finished) &&
    (s.dies.all fun d => d.2.streams.all fun x => x.2.items == []) && (s.stands.all fun x => x.2.queue == [] && x.2.granted.isNone) &&
    (s.ports.all fun p => !p.2.sendsData) && s.reqs.all fun r => r.coord != s.crew.coord || r.stage != .merge

/-- Every core whose set the next plan changes has its idle bank filled (R227); a sleeping stand's cores fill nothing until they wake (R229, R699). -/
def State.fillsDone (s : State) : Bool := s.cores.all fun k => k.2.filled || !k.2.needsFill || (s.stand (k.1 / 8)).asleep

/-- CHECK_AND_COMMIT_ENTRY: the commit point (R83). Full tail pages flush from the Landing (R312), whose descriptors are read for it (R306). -/
def execCheckAndCommitEntry (s : State) : Out :=
  when (s.working && s.workDone) s <|
    let s := s.checkSlots
    let s := s.fullSlots.foldl State.writeFlush s
    { s with tick := { s.tick with phase := .checkAndCommit } }

/-- CHECK_REPORT_SEND: work is finished, the next plan is complete, and the banks it changes are filled (R68, R227). -/
def execCheckReportSend (now : W64) (busy hotSeq : W32) (hotShare : BitVec 16) (s : State) : Out :=
  when (s.ticking && s.tick.phase == .checkAndCommit && s.tick.planDone && s.tick.ownReport.isNone && s.fillsDone && s.crew.lostNow == []) s <|
    let r := s.makeReport busy hotSeq hotShare
    let s := { s with tick := { s.tick with ownReport := some r, reported := true, reportAt := now.toNat, crewTime := max s.tick.crewTime now.toNat } }
    ((if r.fails = [] then s else s.crewCount 6).pulse 0x08).tryForward

/-! ### The master (R56, R61, R89 to R93, R555) -/

/-- The profile word in force for the tick that starts at a COMMIT edge (R54): the SET_PROFILE commands of the tick apply in order. -/
def State.nextProfile (s : State) : BitVec 128 :=
  (s.stagedCmds.filter fun r => r.opcode == 9).foldl (fun (p : BitVec 128) r => profileApply p r.e.word r.e.mask) s.profile

/-- The period P of R92's procedure, from T, S and the lag. -/
def schedulePeriod (t short lag : Nat) : Nat := if lag = 0 then t else max short (t - lag)

/-- HOLD of R92's procedure. -/
def nextHold (limit t lag : Nat) (hold : Bool) : Bool := if limit * t < lag then true else if 2 * lag < limit * t then false else hold

/-- The edge message of R92's procedure for an edge time. T, S and LAG_LIMIT are those of `prof`. -/
def edgeAt (prof : BitVec 128) (hold : Bool) (decision tick attempt nominal master : Nat) (epoch : W32) (time : Nat) : EdgeMsg :=
  let t := fld prof 107 21
  let lag := time - nominal
  { tickNum := tick, edgeTime := time, epoch := epoch, lag := lag, period := schedulePeriod t (t * (32 - fld prof 102 5) / 32) lag,
    master := master, decision := decision, hold := nextHold (fld prof 95 7) t lag hold, attempt := attempt }

/-- The successor that a departing master names (R673). -/
def State.successor (s : State) : Nat :=
  if s.mayDepart ∧ 1 < s.crew.members.length then lowestCoord (s.crew.members.filter fun m => m.coord != s.crew.coord) else s.crew.coord

/-- The crew has just formed and has had no edge. -/
def State.unstarted (s : State) : Bool := s.tick.period == 0

/-- The edge of a decision at a time: 0 COMMIT, 1 REPLAY, 2 FORM (R63, R92, R692). -/
def State.edgeFor (s : State) (decision time : Nat) : EdgeMsg :=
  let k := s.tick
  if decision = 0 then
    edgeAt s.nextProfile k.hold 0 (k.num + 1) 0 (k.nominal + fld s.nextProfile 107 21) s.successor s.crew.epoch time
  else if decision = 1 then edgeAt s.profile k.hold 1 k.num ((k.attempt + 1) % 128) k.nominal s.crew.coord s.crew.epoch time
  else if s.unstarted then edgeAt s.profile false 2 k.num 0 time s.crew.coord s.crew.epoch time
  else edgeAt s.profile k.hold 2 k.num ((k.attempt + 1) % 128) k.nominal s.crew.coord (s.crew.epoch + 1) time

/-- A FORM edge is due: the crew has formed, or members have been found lost, and this member is the master (R63, R90, R692). -/
def State.formDue (s : State) : Bool := (s.unstarted || s.crew.lostNow != []) && s.electMaster == s.crew.coord

/-- The commit latency C of the attempt (R72) enters its histogram and the planner's memory (R555, R707). -/
def State.measureC (s : State) (c : Nat) : State :=
  ({ s with tick := { s.tick with cHist := (c :: s.tick.cHist).take 16 } }).crewCount (48 + histBin 10 80 c)

/-- C as a member other than the master sees it, at an edge that waited for it: the edge came later than E + P (R72, R90; log 46). -/
def State.noteC (s : State) (e : EdgeMsg) : State :=
  if s.crew.master = s.crew.coord ∨ e.edgeTime ≤ s.tick.edgeAt + s.tick.period ∨ !s.tick.reported then s
  else { s with tick := { s.tick with cHist := ((e.edgeTime - s.tick.reportAt) :: s.tick.cHist).take 16 } }

/-- Insert a command record in the order of R623. -/
def insertRecord (x : CmdRec) : List CmdRec → List CmdRec
  | [] => [x]
  | y :: ys => if x.coord < y.coord ∨ (x.coord = y.coord ∧ x.arrival < y.arrival) then x :: y :: ys else y :: insertRecord x ys

/-- Flits of the tick's command set wait to be sent (R81). -/
def State.cmdsetWaits (s : State) : Bool := s.ports.any fun p => p.2.txq.any fun f => ofTick s.crew.coord 3 f

/-- The command set of the crew's reports, in the order of R623, goes down the tree once (R81). -/
def State.sendCmdset (s : State) (c : Report) : State :=
  if rpFail c || s.tick.cmdset.isSome then s
  else
    let rs := c.cmds.foldl (fun (a : List CmdRec) r => insertRecord r a) []
    (s.takeCmdset rs).forwardDown (.cmdset s.tick.num s.tick.attempt rs)

/-- The decision is taken at `now` for an edge time. -/
def State.takeDecision (s : State) (decision now time : Nat) : State :=
  { s with tick := { s.tick with decided := some (s.edgeFor decision time), decidedAt := now } }

/-- MASTER_DECISION: with every report in, the master decides COMMIT or REPLAY; for a COMMIT it sends the CMDSET first and takes its decision once the last flit of it
has gone, which is then the moment every report has arrived (R81). A new master decides FORM as soon as the full layout is distributed (R90, R92). -/
def execMasterDecision (now : W64) (s : State) : Out :=
  let n := max now.toNat s.tick.crewTime
  let ready := n + s.tick.margin
  when (s.inCrew && s.tick.decided.isNone && s.tick.pending.isNone) s <|
    let s := { s with tick := { s.tick with crewTime := n } }
    if s.formDue then s.takeDecision 2 n ready
    else
      match s.tick.sentReport with
      | none => s
      | some c =>
        if s.crew.master ≠ s.crew.coord ∨ !s.tick.reportsIn ∨ s.crew.lostNow ≠ [] ∨ s.unstarted then s
        else
          let s := s.sendCmdset c
          if s.cmdsetWaits then s
          else (s.measureC (ready - s.tick.reportAt)).takeDecision (if rpFail c then 1 else 0) n (max ready (s.tick.edgeAt + s.tick.period))

/-- EDGE_ISSUE: the master sends its edge; EDGE_TIME lies at least the delivery margin after the message is sent (R61). -/
def execEdgeIssue (now : W64) (s : State) : Out :=
  match s.tick.decided with
  | none => .next s
  | some e =>
    when (s.inCrew && decide (s.tick.decidedAt ≤ now.toNat)) s <|
      let e := if e.edgeTime < now.toNat + s.tick.margin then s.edgeFor e.decision (now.toNat + s.tick.margin) else e
      ({ s with tick := { s.tick with decided := none, pending := some e, crewTime := max s.tick.crewTime now.toNat } }).passEdge e

/-! ### Edges (R86 to R92, R102 to R106, R707) -/

/-- The counts that every edge adds to (R707), and its pulse (R717). -/
def State.edgeCounts (s : State) (e : EdgeMsg) (t : Nat) : State :=
  let s := s.pulse 0x02
  let s := if e.hold then s.crewCount 3 else s
  let s := if e.lag = 0 then s else s.crewCount 4
  let s := if s.unstarted then s else s.crewCount (128 + histBin 100 80 (e.edgeTime - s.tick.edgeAt))
  s.crewCount (208 + if t = 0 then 0 else min 47 (e.lag * 8 / t))

/-- The tick controller at the start of an attempt. -/
def TickSt.begin (k : TickSt) (e : EdgeMsg) (now : Nat) : TickSt :=
  { crewTime := max k.crewTime now, num := e.tickNum, last := k.last, attempt := e.attempt, failed := k.failed, edgeAt := e.edgeTime,
    period := e.period, nominal := e.edgeTime - e.lag, lag := e.lag, hold := e.hold, phase := .work, blamed := k.blamed,
    firstArr := k.firstArr, margin := k.margin, cHist := k.cHist }

/-- A member that copies the crew's weight image has received its last byte (R679). -/
def State.takeCopy (s : State) (x : EdgeInput) : State :=
  match x.weights with
  | none => s
  | some bs =>
    let h := bs.take (16384 * whBlocks bs)
    if s.wt.copying ∧ weightMeasure h = s.wt.crewMeas then
      { s with wt := { s.wt with header := h, data := Mem.write [] 0 bs, measure := s.wt.crewMeas, modPoison := false, copying := false } }
    else s

/-- A COMMIT edge: the commit actions, then the next tick (R86). -/
def State.applyCommit (s : State) (e : EdgeMsg) (now : Nat) (x : EdgeInput) (bad : List Nat) : State :=
  let t := s.tick.num
  let s := ((((s.noteC e).edgeCounts e (fld s.nextProfile 107 21))).pulse 0x03).crewCount 0
  let s := if s.tick.attempt ≤ 7 then s.crewCount (8 + s.tick.attempt) else s
  let s := (s.commit t e.hold x bad e.master).takeCopy x
  if s.sys.departed then { s with tick := { crewTime := max s.tick.crewTime now, last := t } }
  else
    let s := { s with
      tick := { s.tick.begin e now with last := t, failed := 0, blamed := [] }
      crew := { s.crew with master := e.master }
      fore := { s.fore with held := x.lostSeqs } }
    s.startTick e.tickNum e.hold

/-- Fail records that this member knows of the attempt: its own and those of its children's reports. -/
def State.knownFails (s : State) : List (BitVec 128) :=
  ((s.tick.ownReport.map (·.fails)).getD []) ++ s.tick.children.flatMap fun c => c.2.fails

/-- The reports of the attempt include FAIL (R106): one that this member has, or another, as the edge says. -/
def State.failKnown (s : State) (x : EdgeInput) : Bool := s.knownFails != [] || x.failed

/-- Layers named with CAUSE 0x4 (R401). -/
def lostLayers (fs : List (BitVec 128)) : List Nat := ((fs.filter fun f => fld f 112 4 == 4).map fun f => fld f 87 9).eraseDups

/-- Parts of this member named in its FAIL reports (R77, R105). -/
def State.namedParts (s : State) : List (Nat × Nat) :=
  (((s.tick.ownReport.map (·.fails)).getD []).filter fun f => fld f 108 4 != 0).map fun f => (fld f 108 4, fld f 96 12)

/-- A sequence at the start of the tick again; what is known lost stays lost. -/
def backSeq (now : List Seq) (q : Seq) : Seq :=
  match now.find? fun x => x.handle == q.handle && x.closing == q.closing with
  | some x => { q with lostPages := x.lostPages, masked := x.masked, lost := x.lost, copyAt := x.copyAt }
  | none => q

/-- A command of the attempt that fails belongs to the next one (R84). A WRITE_IMAGE goes on (R88). -/
def backReq (old : List Req) (r : Req) : Req :=
  match old.find? fun x => x.rid == r.rid with
  | some x => if r.opcode = 0xF then r else { x with owed := r.owed, aborted := r.aborted }
  | none =>
    if r.opcode = 0xF ∧ (r.stage = .waiting ∨ r.stage = .finishing) then r
    else { r with stage := .merge, data := [], dataRead := false, status := 0, result0 := 0, result1 := 0 }

/-- An index at the start of the tick again; lost records and entries stay lost (R474, R475). -/
def backIndex (now : List VIndex) (x : VIndex) : VIndex :=
  match now.find? fun y => ixId y.record == ixId x.record with
  | some y => { x with lostNodes := y.lostNodes, side := y.side, live := y.live }
  | none => x

/-- A die at the start of the tick again, at its present throttle step. -/
def backDies (now : Sparse Die) (old : Sparse Die) : Sparse Die :=
  ((now.map Prod.fst) ++ old.map Prod.fst).eraseDups.foldl (fun (m : Sparse Die) n =>
    Sparse.set {} m n { Sparse.get {} old n with step := (Sparse.get {} now n).step }) []

/-- A replay restarts the streams of the attempt and ends its walks (R252, R704). -/
def State.countRestarts (s : State) : State :=
  s.dies.foldl (fun (s : State) (d : Nat × Die) =>
    d.2.walks.foldl (fun s w => s.count d.1 5 (w.1 * 16 + 15)) (d.2.streams.foldl (fun s e => s.count d.1 3 (e.1 * 16 + 13)) s)) s

/-- Every part returns to the start state of the tick (R88, R102, R103). Counters, error marks and free values go on. -/
def State.restore (s : State) : State :=
  let s := ((s.cores.map Prod.fst).foldl State.wasteSlots s).countRestarts
  let c := s.chk
  let dropped := (s.fore.deltas.filter fun (d : Delta) => !d.committed).length
  let s := if dropped = 0 then s else s.crewCount 46 dropped
  { s with
    land := c.land, seqs := c.seqs.map (backSeq s.seqs), nodes := c.nodes, sketches := c.sketches, searches := c.searches,
    reqs := (s.reqs.filter fun r => r.coord == s.crew.coord || c.reqs.any fun x => x.rid == r.rid).map (backReq c.reqs),
    hbm := { s.hbm with ftab := c.ftab, copies := c.copies, decr := c.decr, flashDecr := c.flashDec, data := s.hbm.data0, side := s.hbm.side0 },
    flash := { s.flash with ftab := c.flashTab, queue := c.queue, cleaning := c.cleaning, cleaned := c.cleaned, spilling := [] },
    vidx := c.vidx.map (backIndex s.vidx), dies := backDies s.dies c.dies, cores := c.cores, stands := c.stands,
    fore := c.fore, coll := c.coll, yard := { s.yard.fresh with idle := none },
    sec := { s.sec with signed := 0 }, ctr := { s.ctr with reading := none } }

/-- Join requests are dropped and counted (R676). -/
def State.dropJoins (s : State) (all : Bool) : State :=
  let n := s.crew.joinSeen.length + if all then s.crew.joinRec.length else 0
  let s := { s with crew := { s.crew with joinSeen := [], joinRec := if all then [] else s.crew.joinRec } }
  if n = 0 then s else s.crewCount 40 n

/-- Layers that have lost every copy are poisoned from the attempt that follows (R401). -/
def State.poisonLayers (s : State) (ls : List Nat) : State :=
  let new := ls.filter fun l => !(s.wt.poisoned.contains l)
  if new = [] then s else ({ s with wt := { s.wt with poisoned := s.wt.poisoned ++ new } }).crewCount 31 new.length

/-- Layers lost in the attempt, by the reports that this member has and those that the edge tells of (R401). -/
def State.layersLost (s : State) (x : EdgeInput) : List Nat := (lostLayers s.knownFails ++ x.layers).eraseDups

/-- Sequences of which other members have lost pages, as an edge says; those found in the tick in flight stay marked through its replays (R407). -/
def Forester.takeLost (f : Forester) (old : Forester) (x : EdgeInput) : Forester :=
  { f with held := x.lostSeqs, lostNow := (old.lostNow ++ x.lostSeqs.filter fun h => !(old.held.contains h)).eraseDups }

/-- The attempt counts as failed when its reports include FAIL (R106). -/
def State.failCount (s : State) (failed : Bool) : Nat := if failed then s.tick.failed + 1 else s.tick.failed

/-- This member's own report of the attempt is FAIL. -/
def State.ownFail (s : State) : Bool := (s.tick.ownReport.map fun r => r.fails != []).getD false

/-- Replay limits (R106): ATTEMPT would exceed 127, or the failed attempt is an eighth one and this member reported FAIL. -/
def State.replayLimit (s : State) (failed : Bool) : Bool :=
  decide (127 ≤ s.tick.attempt) || (failed && s.ownFail && decide ((s.tick.failed + 1) % 8 = 0))

/-- A REPLAY edge: the tick starts again from its start state (R84, R88, R102 to R106), without the work on lost layers and pages (R401, R407). -/
def State.applyReplay (s : State) (e : EdgeMsg) (now : Nat) (x : EdgeInput) : State :=
  let s := (((s.noteC e).edgeCounts e s.tickPeriod).pulse 0x04).crewCount 1
  if s.replayLimit true then s.enterFault 0xA (s.tick.num % 2 ^ 32)
  else
    let layers := s.layersLost x
    let old := s.fore
    let parts := (s.tick.blamed ++ s.namedParts).eraseDups
    let n := s.failCount true
    let again := decide (3 ≤ s.tick.attempt + 1) && parts != []
    let s := (s.restore.dropJoins false).wakeCmds e.hold
    let s := { s with
      tick := { s.tick.begin e now with attempt := s.tick.attempt + 1, failed := n, blamed := parts }
      fore := { s.fore with replan := again, plan := if again then none else s.fore.plan, refused := if again then [] else s.fore.refused }.takeLost old x }
    (s.poisonLayers layers).beginAttempt e.tickNum

/-- The FORM edge of a new crew: its members enter RUN, and tick 1 starts (R65, R696). -/
def State.startCrew (s : State) (e : EdgeMsg) (now : Nat) : State :=
  let s := (s.edgeCounts e s.tickPeriod).crewCount 2
  let s := { s with
    sys := { s.sys with state := .run }
    crew := { s.crew with epoch := e.epoch, master := e.master, n0 := s.crew.members.length }
    fore := { s.fore with layoutTo := e.tickNum + 1 }
    tick := s.tick.begin e now }
  s.startTick e.tickNum e.hold

/-- The FORM edge of a re-forming: the lost members leave, and the tick in flight replays under a new plan (R57, R102, R104, R401, R671, R692, R693). The attempt
that it ends counts as failed where the reports include FAIL, which the member knows of its own and its children's and the crew says of the others (R106; log 43). -/
def State.reform (s : State) (e : EdgeMsg) (now : Nat) (x : EdgeInput) : State :=
  let s := ((s.edgeCounts e s.tickPeriod).crewCount 2).crewCount 19
  let failed := s.failKnown x
  let parts := (s.tick.blamed ++ s.namedParts).eraseDups
  if s.replayLimit failed then s.enterFault 0xA (s.tick.num % 2 ^ 32)
  else
    let n := s.failCount failed
    let gone := s.crew.lostNow
    let layers := s.layersLost x
    let old := s.fore
    let s := ((s.restore.dropJoins true).dropMembers gone).wakeCmds e.hold
    let s := { s with
      crew := { s.crew with epoch := e.epoch, master := e.master, lostNow := [] }
      tick := { s.tick.begin e now with attempt := s.tick.attempt + 1, failed := n, blamed := parts }
      fore := { s.fore with replan := true, plan := none, refused := [], layoutTo := e.tickNum + 1 }.takeLost old x }
    (s.poisonLayers layers).flood.snapshot.beginAttempt e.tickNum

/-- Lot records in lot order as the table of lots. -/
def lotTable (rs : List (BitVec 128)) : Sparse (BitVec 128) :=
  ((List.range 256).zip rs).foldl (fun (m : Sparse (BitVec 128)) (x : Nat × BitVec 128) => Sparse.set 0 m x.1 x.2) []

/-- A live handle that names the coordinate of a module being admitted (R613, R678): the sequence's data lies on other members. -/
def State.liveHandle (s : State) (h : W32 × Nat × Nat) : Seq :=
  { handle := h.1, lMax := h.2.1, vpages := s.vpagesOf h.2.1, levels := pageLevels (s.vpagesOf h.2.1), lot := h.2.2 }

/-- The members that an admitted module is told of. -/
def crewOf (j : Joining) : List Member := j.members.map fun m => ⟨m.1, m.2.1, m.2.2⟩

/-- What a module takes from the crew at the admitting edge (R678), with the members in DRAIN (R56). -/
def State.takeCrew (s : State) (e : EdgeMsg) (now : Nat) (j : Joining) (draining : List Nat) : State :=
  { s with
    sys := { s.sys with state := .run }
    crew := { s.crew with member := true, coord := j.coord, epoch := j.epoch, master := e.master, members := crewOf j, n0 := (crewOf j).length, draining := draining }
    profile := j.profile
    lots := lotTable j.lots
    seqs := j.handles.map s.liveHandle
    fore := { version := j.version, layoutTo := e.tickNum + 1 }
    tick := { s.tick.begin e now with last := e.tickNum - 1, failed := 0, margin := j.treeDelay + 100 } }

/-- The admitting edge: the module is a member, and runs no task in the tick that starts (R676, R678). -/
def State.enterCrew (s : State) (e : EdgeMsg) (now : Nat) (j : Joining) (draining : List Nat) : State :=
  let s := (s.takeCrew e now j draining).portsUp (crewOf j)
  let s := ({ s with yard := { s.yard with route := s.buildRoutes } }.settleHomes j.homes true).takeMeasure (some j.measure)
  (s.settleMirror.flood.pulse 0x02).startTick e.tickNum e.hold

/-- The crew may admit this module as it says: it is listed under the coordinate that it claims, behind a READY port (R500, R676, R678). -/
def State.mayEnter (s : State) (e : EdgeMsg) (j : Joining) : Bool :=
  s.claimNow == some j.coord && j.epoch != 0 && j.tick == e.tickNum &&
    (j.members.any fun m => m.1 == j.coord && m.2.1 == s.ident.moduleId) && decide (j.lots.length = 256) &&
    (j.handles.all fun h => decide (h.1.toNat / 2 ^ 20 = j.coord)) && decide ((j.handles.map Prod.fst).Nodup) &&
    (List.range 12).any fun n => (s.port n).state == .ready

/-- A record of the tick's CMDSET that its row has still to decode: it takes effect at this commit, so the edge waits for it (R81, R85). -/
def State.recordsWait (s : State) : Bool := s.reqs.any fun r => r.coord != s.crew.coord && r.stage == .merge

/-- TICK_EDGE_APPLY: crew time has reached EDGE_TIME (R59). A COMMIT edge waits for CHECK-AND-COMMIT and for the tick's CMDSET, which is asked for
again when it is missing (R81). `writeErrors` are the requests whose completion writes end in a PCIe error (R605). -/
def execTickEdgeApply (now : W64) (writeErrors : List Nat) (crew : EdgeInput) (s : State) : Out :=
  match s.tick.pending with
  | none => .next s
  | some e =>
    if now.toNat < e.edgeTime then .next s
    else if s.sys.state = .join ∧ ¬s.crew.member then
      match crew.joining with
      | some j => when (s.mayEnter e j) s (s.enterCrew e now.toNat j crew.draining)
      | none => .next { s with tick := { s.tick with pending := none } }
    else if !s.inCrew then .next s
    else if e.decision = 2 then .next (if s.unstarted then s.startCrew e now.toNat else s.reform e now.toNat crew)
    else if s.tick.phase ≠ .checkAndCommit then .next s
    else if e.decision = 1 then .next (s.applyReplay e now.toNat crew)
    else if s.tick.cmdset.isNone then .next (s.askMaster 2)
    else if s.recordsWait then .next s
    else .next (s.applyCommit e now.toNat crew writeErrors)

end Sys2Proof.Machine
end

