-- ==== Sys2Proof/Machine/Dispatch.lean ====
section
/-! DEFINITION. The meaning of a command: one arm per row of the opcode table, each a direct call of its meaning. -/

namespace Sys2Proof.Machine

open Sys2Proof

/-- What a command does to everything but the queue. -/
def exec (i : Instr) (s : State) : Host.Outcome State Fault Refusal :=
  match i with
  | .standbyPowerUp vin => Sys2Proof.Machine.execStandbyPowerUp vin s
  | .pwrEnAssert present => Sys2Proof.Machine.execPwrEnAssert present s
  | .powerGood compatN => Sys2Proof.Machine.execPowerGood compatN s
  | .imageLoad norResponds => Sys2Proof.Machine.execImageLoad norResponds s
  | .loadComplete => Sys2Proof.Machine.execLoadComplete s
  | .verify => Sys2Proof.Machine.execVerify s
  | .trainTimeout => Sys2Proof.Machine.execTrainTimeout s
  | .pwrEnDeassert => Sys2Proof.Machine.execPwrEnDeassert s
  | .undervoltage vin => Sys2Proof.Machine.execUndervoltage vin s
  | .overvoltage vin => Sys2Proof.Machine.execOvervoltage vin s
  | .powerUpHoldoffExpiry => Sys2Proof.Machine.execPowerUpHoldoffExpiry s
  | .hubControlReset port value => Sys2Proof.Machine.execHubControlReset port value s
  | .perstAssert port => Sys2Proof.Machine.execPerstAssert port s
  | .perstDeassert port => Sys2Proof.Machine.execPerstDeassert port s
  | .functionLevelReset port => Sys2Proof.Machine.execFunctionLevelReset port s
  | .bar0BadAccess port isWrite offset size => Sys2Proof.Machine.execBar0BadAccess port isWrite offset size s
  | .doorbellSq port qid value => Sys2Proof.Machine.execDoorbellSq port qid value s
  | .doorbellCq port qid value => Sys2Proof.Machine.execDoorbellCq port qid value s
  | .queueEnable port qid value => Sys2Proof.Machine.execQueueEnable port qid value s
  | .queueDisable port qid value => Sys2Proof.Machine.execQueueDisable port qid value s
  | .hostErrClear port value => Sys2Proof.Machine.execHostErrClear port value s
  | .snapHoldSet port => Sys2Proof.Machine.execSnapHoldSet port s
  | .snapHoldRelease port => Sys2Proof.Machine.execSnapHoldRelease port s
  | .tmuxSelWrite port value => Sys2Proof.Machine.execTmuxSelWrite port value s
  | .tmuxSwitch pin => Sys2Proof.Machine.execTmuxSwitch pin s
  | .linkStatusClear port n value => Sys2Proof.Machine.execLinkStatusClear port n value s
  | .registerWrite port offset size value => Sys2Proof.Machine.execRegisterWrite port offset size value s
  | .mailboxRead port failUnit => Sys2Proof.Machine.execMailboxRead port failUnit s
  | .mailboxWrite port data failUnit badUnit => Sys2Proof.Machine.execMailboxWrite port data failUnit badUnit s
  | .mailboxRestart port => Sys2Proof.Machine.execMailboxRestart port s
  | .mailboxReservedOp port op => Sys2Proof.Machine.execMailboxReservedOp port op s
  | .mailboxDone => Sys2Proof.Machine.execMailboxDone s
  | .smbusRecoveryWrite code value pec => Sys2Proof.Machine.execSmbusRecoveryWrite code value pec s
  | .submissionFetch port qid entries pcieError => Sys2Proof.Machine.execSubmissionFetch port qid entries pcieError s
  | .openSeq rid => Sys2Proof.Machine.execOpenSeq rid s
  | .append rid data => Sys2Proof.Machine.execAppend rid data s
  | .generate rid drafts => Sys2Proof.Machine.execGenerate rid drafts s
  | .fork rid => Sys2Proof.Machine.execFork rid s
  | .abort rid => Sys2Proof.Machine.execAbort rid s
  | .close rid => Sys2Proof.Machine.execClose rid s
  | .loadWeights rid data => Sys2Proof.Machine.execLoadWeights rid data s
  | .setQuotaLot rid => Sys2Proof.Machine.execSetQuotaLot rid s
  | .setQuotaQueueMap rid => Sys2Proof.Machine.execSetQuotaQueueMap rid s
  | .setProfile rid => Sys2Proof.Machine.execSetProfile rid s
  | .vecInsert rid data => Sys2Proof.Machine.execVecInsert rid data s
  | .codebookReload rid data => Sys2Proof.Machine.execCodebookReload rid data s
  | .vecDelete rid => Sys2Proof.Machine.execVecDelete rid s
  | .vecSearch rid data => Sys2Proof.Machine.execVecSearch rid data s
  | .readCounters rid => Sys2Proof.Machine.execReadCounters rid s
  | .attest rid nonce => Sys2Proof.Machine.execAttest rid nonce s
  | .writeImage rid data => Sys2Proof.Machine.execWriteImage rid data s
  | .norProgramComplete mismatch => Sys2Proof.Machine.execNorProgramComplete mismatch s
  | .drain rid => Sys2Proof.Machine.execDrain rid s
  | .invalidOpcode rid => Sys2Proof.Machine.execInvalidOpcode rid s
  | .tickEdgeApply now writeErrors crew => Sys2Proof.Machine.execTickEdgeApply now writeErrors crew s
  | .snapshotTransfer => Sys2Proof.Machine.execSnapshotTransfer s
  | .edge hdr body => Sys2Proof.Machine.execEdge hdr body s
  | .cmdset hdr recs => Sys2Proof.Machine.execCmdset hdr recs s
  | .report child hdr rep bodyBytes whole => Sys2Proof.Machine.execReport child hdr rep bodyBytes whole s
  | .repeatMsg src hdr body => Sys2Proof.Machine.execRepeatMsg src hdr body s
  | .reportRepeatTimeout child => Sys2Proof.Machine.execReportRepeatTimeout child s
  | .checkAndCommitEntry => Sys2Proof.Machine.execCheckAndCommitEntry s
  | .checkReportSend now busy hotSeq hotShare => Sys2Proof.Machine.execCheckReportSend now busy hotSeq hotShare s
  | .masterDecision now => Sys2Proof.Machine.execMasterDecision now s
  | .edgeIssue now => Sys2Proof.Machine.execEdgeIssue now s
  | .throttleEvaluation r => Sys2Proof.Machine.execThrottleEvaluation r s
  | .throttleRaise r => Sys2Proof.Machine.execThrottleRaise r s
  | .thermalShutdown r => Sys2Proof.Machine.execThermalShutdown r s
  | .nandThrottle celsius10 => Sys2Proof.Machine.execNandThrottle celsius10 s
  | .plan p => Sys2Proof.Machine.execPlan p s
  | .layoutDelta entries => Sys2Proof.Machine.execLayoutDelta entries s
  | .deltaReceive version firstPlan entries => Sys2Proof.Machine.execDeltaReceive version firstPlan entries s
  | .taskIssue die core ctx => Sys2Proof.Machine.execTaskIssue die core ctx s
  | .standPortGrant die stand => Sys2Proof.Machine.execStandPortGrant die stand s
  | .tileLoadComplete die stand => Sys2Proof.Machine.execTileLoadComplete die stand s
  | .contextSwitch die core => Sys2Proof.Machine.execContextSwitch die core s
  | .haloCopy die core => Sys2Proof.Machine.execHaloCopy die core s
  | .tileDrain die core => Sys2Proof.Machine.execTileDrain die core s
  | .completionMessage task => Sys2Proof.Machine.execCompletionMessage task s
  | .separateChainPass die core => Sys2Proof.Machine.execSeparateChainPass die core s
  | .normalisation die core job => Sys2Proof.Machine.execNormalisation die core job s
  | .softMaximum die core job => Sys2Proof.Machine.execSoftMaximum die core job s
  | .rotaryRotation die core task addr rows positions => Sys2Proof.Machine.execRotaryRotation die core task addr rows positions s
  | .blockFold die core job => Sys2Proof.Machine.execBlockFold die core job s
  | .tokenChoice job logits => Sys2Proof.Machine.execTokenChoice job logits s
  | .functionTableFill die core => Sys2Proof.Machine.execFunctionTableFill die core s
  | .sketchTask die core seq v sK => Sys2Proof.Machine.execSketchTask die core seq v sK s
  | .pageRanking core rid layer head queries => Sys2Proof.Machine.execPageRanking core rid layer head queries s
  | .ringStepFold round ring step part => Sys2Proof.Machine.execRingStepFold round ring step part s
  | .streamGrant point => Sys2Proof.Machine.execStreamGrant point s
  | .walkRequest die ctx stream seq pages ask dst => Sys2Proof.Machine.execWalkRequest die ctx stream seq pages ask dst s
  | .tailAppend die core rid seq layer head pos key val sK sV => Sys2Proof.Machine.execTailAppend die core rid seq layer head pos key val sK sV s
  | .scatter die core rid seq layer head pos key val sK sV frame => Sys2Proof.Machine.execScatter die core rid seq layer head pos key val sK sV frame s
  | .pageCopy src dst => Sys2Proof.Machine.execPageCopy src dst s
  | .pageCopyComplete src dst => Sys2Proof.Machine.execPageCopyComplete src dst s
  | .cleaningWrite frame flashFrame complete => Sys2Proof.Machine.execCleaningWrite frame flashFrame complete s
  | .hbmUncorrectable frame => Sys2Proof.Machine.execHbmUncorrectable frame s
  | .scrub frame corrected => Sys2Proof.Machine.execScrub frame corrected s
  | .refresh stack row => Sys2Proof.Machine.execRefresh stack row s
  | .readDisturbRefresh stack row => Sys2Proof.Machine.execReadDisturbRefresh stack row s
  | .flashRead frame hardOk softRetry => Sys2Proof.Machine.execFlashRead frame hardOk softRetry s
  | .wearLevelling channel => Sys2Proof.Machine.execWearLevelling channel s
  | .readDisturbRelocation channel block => Sys2Proof.Machine.execReadDisturbRelocation channel block s
  | .programFailure channel block => Sys2Proof.Machine.execProgramFailure channel block s
  | .flashReadOnly => Sys2Proof.Machine.execFlashReadOnly s
  | .sramUncorrectable partKind partNum => Sys2Proof.Machine.execSramUncorrectable partKind partNum s
  | .searchAdmission rid => Sys2Proof.Machine.execSearchAdmission rid s
  | .recordExpansion slot readable => Sys2Proof.Machine.execRecordExpansion slot readable s
  | .sideScan slot lostFrames => Sys2Proof.Machine.execSideScan slot lostFrames s
  | .resultAssembly slot lostNodes => Sys2Proof.Machine.execResultAssembly slot lostNodes s
  | .mergeFinish index => Sys2Proof.Machine.execMergeFinish index s
  | .laneLock port lanes skewNs => Sys2Proof.Machine.execLaneLock port lanes skewNs s
  | .flitLock port => Sys2Proof.Machine.execFlitLock port s
  | .trainRecord port rec now => Sys2Proof.Machine.execTrainRecord port rec now s
  | .trainRecordSend port now => Sys2Proof.Machine.execTrainRecordSend port now s
  | .trainingStepTimeout port => Sys2Proof.Machine.execTrainingStepTimeout port s
  | .trainingRetry port => Sys2Proof.Machine.execTrainingRetry port s
  | .timestampExchange port samples => Sys2Proof.Machine.execTimestampExchange port samples s
  | .flitReceive port hdr payload => Sys2Proof.Machine.execFlitReceive port hdr payload s
  | .flitSend port => Sys2Proof.Machine.execFlitSend port s
  | .nak port seqs => Sys2Proof.Machine.execNak port seqs s
  | .credit port returns => Sys2Proof.Machine.execCredit port returns s
  | .downNotice port => Sys2Proof.Machine.execDownNotice port s
  | .laneAlignmentTimeout port lane => Sys2Proof.Machine.execLaneAlignmentTimeout port lane s
  | .flitSilenceTimeout port => Sys2Proof.Machine.execFlitSilenceTimeout port s
  | .nakRateLimit port => Sys2Proof.Machine.execNakRateLimit port s
  | .laserOffExpiry port => Sys2Proof.Machine.execLaserOffExpiry port s
  | .linkState port rec => Sys2Proof.Machine.execLinkState port rec s
  | .crewFormation members measure homes treeDelay => Sys2Proof.Machine.execCrewFormation members measure homes treeDelay s
  | .chunkReceive sender hdr payload stack => Sys2Proof.Machine.execChunkReceive sender hdr payload stack s
  | .combine coll item step chunk left right residueOk => Sys2Proof.Machine.execCombine coll item step chunk left right residueOk s
  | .extest tap => Sys2Proof.Machine.execExtest tap s
  | .samplePreload tap pins => Sys2Proof.Machine.execSamplePreload tap pins s
  | .idcode tap => Sys2Proof.Machine.execIdcode tap s
  | .highz tap => Sys2Proof.Machine.execHighz tap s
  | .clamp tap => Sys2Proof.Machine.execClamp tap s
  | .extestPulse tap => Sys2Proof.Machine.execExtestPulse tap s
  | .extestTrain tap => Sys2Proof.Machine.execExtestTrain tap s
  | .bypass tap opcode => Sys2Proof.Machine.execBypass tap opcode s
  | .testLogicReset => Sys2Proof.Machine.execTestLogicReset s
  | .garbageCollection channel => Sys2Proof.Machine.execGarbageCollection channel s
  | .nandThrottleRelease celsius10 => Sys2Proof.Machine.execNandThrottleRelease celsius10 s

end Sys2Proof.Machine
end

