-- ==== Sys2Proof/Safety.lean ====
section
/-! DEFINITION. What claims say of a state: the agreement of the power domains, the module status and the membership of a crew, and the
canonical form of every memory outside the dies and of the numbered tables. -/

namespace Sys2Proof.Machine

/-- The power domains, the states of R627 and HUB_STATUS agree: the main domain is on exactly while the module is not OFF, and only with PWR_EN and
the standby domain (R727, R730, R732); the standby domain is on exactly while the input is in range (R727, R729); FAULT_CLASS is zero exactly outside
FAULT (R591); a crew member is in JOIN, RUN or DRAIN (R627); a departed module is in DRAIN and no member (R674, R686). -/
def State.statusOk (s : State) : Prop :=
  (s.pwr.main = .on ↔ s.sys.state ≠ .off) ∧
  (s.pwr.main ≠ .off → s.pwr.pwrEn = true ∧ s.pwr.standby = true) ∧
  (s.pwr.standby = true ↔ s.pwr.supply = .inRange) ∧
  (s.sys.state = .fault ↔ s.sys.faultClass ≠ 0) ∧
  (s.crew.member = true → s.sys.state = .join ∨ s.sys.state = .run ∨ s.sys.state = .drain) ∧
  (s.sys.departed = true → s.sys.state = .drain ∧ s.crew.member = false)

/-- Every memory outside the dies is in canonical form: the NOR, host memory, HBM data and sidebands, the Landings with their flush queues, the flash tier, the weights and
the mirrored share, and the start-of-tick content of the Landings and of the HBM; and so is every table of queues, counters, ports, dies, cores and stands. -/
def State.memsOk (s : State) : Prop :=
  Sparse.wf norBlank s.nor = true ∧ Mem.wf s.host.mem = true ∧ Mem.wf s.hbm.data = true ∧ Mem.wf s.hbm.side = true ∧
  Mem.wf s.land.data = true ∧ Mem.wf s.land.queue = true ∧ Mem.wf s.flash.data = true ∧ Mem.wf s.flash.side = true ∧
  Mem.wf s.wt.data = true ∧ Mem.wf s.wt.mirror = true ∧ Mem.wf s.chk.land.data = true ∧ Mem.wf s.chk.land.queue = true ∧
  Mem.wf s.hbm.data0 = true ∧ Mem.wf s.hbm.side0 = true ∧ Sparse.wf {} s.host.queues = true ∧ Sparse.wf 0 s.ctr.live = true ∧
  Sparse.wf {} s.ports = true ∧ Sparse.wf {} s.dies = true ∧ Sparse.wf {} s.cores = true ∧ Sparse.wf {} s.stands = true ∧
  Sparse.wf {} s.chk.dies = true ∧ Sparse.wf {} s.chk.cores = true ∧ Sparse.wf {} s.chk.stands = true

end Sys2Proof.Machine

namespace Sys2Proof

/-- Commands that program the NOR (R630, R665, R666, R669). -/
def Instr.writesNor : Instr → Bool
  | .writeImage _ _ | .norProgramComplete _ | .mailboxWrite _ _ _ _ | .mailboxDone => true
  | _ => false

/-- Commands that set or clear ROM_HOLD (R629). -/
def Instr.writesRomHold : Instr → Bool
  | .standbyPowerUp _ | .mailboxRestart _ | .smbusRecoveryWrite _ _ _ => true
  | _ => false

/-- Commands that load a TAP, and the power events of the main domain that leave IDCODE in both (R720). -/
def Instr.writesJtag : Instr → Bool
  | .extest _ | .samplePreload _ _ | .idcode _ | .highz _ | .clamp _ | .extestPulse _ | .extestTrain _ | .bypass _ _ | .testLogicReset
  | .powerGood _ | .pwrEnDeassert | .undervoltage _ | .overvoltage _ => true
  | _ => false

/-- Commands that may move the module between the states of R627: start-up, power and resets, a thermal shutdown, the loss of a link, and a tick edge. -/
def Instr.changesState : Instr → Bool
  | .powerGood _ | .imageLoad _ | .loadComplete | .verify | .trainTimeout | .pwrEnDeassert | .undervoltage _ | .overvoltage _
  | .hubControlReset _ _ | .registerWrite _ _ _ _ | .mailboxRestart _ | .thermalShutdown _ | .tickEdgeApply _ _ _ | .downNotice _
  | .laneAlignmentTimeout _ _ | .flitSilenceTimeout _ | .nakRateLimit _ | .linkState _ _ => true
  | _ => false

end Sys2Proof
end

