-- ==== Sys2Proof/Certificates/Slice0/Obligations.lean ====
section
/-! DEFINITION. The statements for the provers. Each docstring says what the statement claims and names the rules of the spec it rests on, or the
assumption-log entry where it rests on a choice of the model. -/

open Sys2Proof Sys2Proof.Machine

/-! ### The queue of commands, reset, and rules over every command -/

/-- A step takes the command at the front of the queue and answers what exec answers with the queue's rest. That on an empty queue the block idles, but for a contribution
to a collective that is due, is the model's choice (log 3). -/
def Obligations.StepRunsFrontCommand : Prop :=
  (∀ (s : State) (c : Instr) (cs : List Instr), s.pending = c :: cs → step s = exec c { s with pending := cs }) ∧
  (∀ s : State, s.pending = [] → s.working = false ∨ s.ownDue = none → step s = .next s)

/-- The machine at reset has no input power: OFF, both domains off, ROM_HOLD clear, every queue disabled, every port OFF, no crew, every counter zero,
every NOR byte erased (R629, R630, R701), and an empty command queue. That reset is the state without input power is log 1. -/
def Obligations.ResetState : Prop :=
  State.reset.sys.state = .off ∧ State.reset.pwr.main = .off ∧ State.reset.pwr.standby = false ∧ State.reset.smb.romHold = false ∧
  State.reset.pending = [] ∧ State.reset.crew.member = false ∧ State.reset.crew.epoch = 0 ∧ State.reset.tick.last = 0 ∧
  (∀ q, (State.reset.queue q).enable = false ∧ (State.reset.queue q).outstanding = 0) ∧
  (∀ n, (State.reset.port n).state = .off) ∧ (∀ a, Sparse.get 0 State.reset.ctr.live a = 0) ∧
  ∀ a, Sparse.get norBlank State.reset.nor a = 0xFF

/-- Every step keeps the module status consistent: power domains, state, FAULT_CLASS, membership and departure (R591, R627, R674, R727, R730, R732). -/
def Obligations.StepKeepsStatus : Prop := ∀ s t : State, s.statusOk → step s = .next t → t.statusOk

/-- The status is consistent at reset. -/
def Sys2Proof.Machine.ResetStatus : Prop := State.reset.statusOk

/-- Every step keeps every memory outside the dies in canonical form (log 11): equal memories are equal data. -/
def Obligations.StepKeepsMemories : Prop := ∀ s t : State, s.memsOk → step s = .next t → t.memsOk

/-- Every memory is in canonical form at reset. -/
def Sys2Proof.Machine.ResetMemories : Prop := State.reset.memsOk

/-- Reset meets both invariants: the status is consistent and every memory is in canonical form. -/
def Obligations.ResetInvariants : Prop := ResetStatus ∧ ResetMemories

/-- Over every command that answers a next state: the module's identity never changes; the NOR changes only by WRITE_IMAGE, NOR_PROGRAM_COMPLETE and the
mailbox WRITE and its end (R630, R665, R666, R669); ROM_HOLD changes only by the SMBus write, RESTART and the standby domain's power-up (R629); the held
JTAG instructions and boundary registers change only by the JTAG commands and by power (R720). -/
def Obligations.BoardWriters : Prop :=
  ∀ (i : Instr) (s t : State), exec i s = .next t →
    t.ident = s.ident ∧ (i.writesNor = false → t.nor = s.nor) ∧ (i.writesRomHold = false → t.smb.romHold = s.smb.romHold) ∧
    (i.writesJtag = false → t.jtag = s.jtag)

/-- Outside the start-up and power commands, the module resets, the thermal shutdown, link losses and records, and tick edges (`Instr.changesState`) no command
changes the module's state, and from a consistent status FAULT is left only by a module reset or by the loss of power (R627). -/
def Obligations.StateChanges : Prop :=
  ∀ (i : Instr) (s t : State), exec i s = .next t →
    (i.changesState = false → t.sys.state = s.sys.state) ∧
    (s.statusOk → s.sys.state = .fault → t.sys.state = .fault ∨ t.sys.state = .rom ∨ t.sys.state = .off)

/-! ### Power (R727 to R733) and start-up (R627) -/

/-- STANDBY_POWER_UP, PWR_EN_ASSERT and POWER_UP_HOLDOFF_EXPIRY: the standby domain is powered while the input lies in range, its power-up clears ROM_HOLD,
and the main domain starts its sequence exactly when PWR_EN and MOD_PRSNT_N allow it and the 200 ms have passed; nothing else changes. -/
def Sys2Proof.Machine.PowerUpInputs : Prop :=
  (∀ (s : State) (vin : BitVec 16), s.pwr.supply ≠ .inRange → 4800 ≤ vin.toNat → vin.toNat ≤ 5700 →
    ∃ t, exec (.standbyPowerUp vin) s = .next t ∧ t = { s with pwr := t.pwr, smb := t.smb } ∧
      t.pwr = { s.pwr with supply := .inRange, vin := vin, standby := true, main := t.pwr.main } ∧
      (t.pwr.main = if s.pwr.main = .off ∧ s.pwr.pwrEn = true ∧ s.pwr.present = true ∧ s.pwr.holdoff = false then .starting else s.pwr.main) ∧ (s.pwr.standby = false → t.smb.romHold = false) ∧ (s.pwr.standby = true → t.smb = s.smb)) ∧
  (∀ (s : State) (present : Bool), ∃ t, exec (.pwrEnAssert present) s = .next t ∧ t = { s with pwr := t.pwr } ∧
    t.pwr = { s.pwr with pwrEn := true, present := present, main := t.pwr.main } ∧
    t.pwr.main = if s.pwr.main = .off ∧ s.pwr.standby = true ∧ present = true ∧ s.pwr.holdoff = false ∧ s.pwr.supply = .inRange then .starting
      else s.pwr.main) ∧
  (∀ s : State, ∃ t, exec .powerUpHoldoffExpiry s = .next t ∧ t = { s with pwr := t.pwr } ∧
    t.pwr = { s.pwr with holdoff := false, main := t.pwr.main } ∧
    t.pwr.main = if s.pwr.main = .off ∧ s.pwr.standby = true ∧ s.pwr.pwrEn = true ∧ s.pwr.present = true ∧ s.pwr.supply = .inRange then .starting
      else s.pwr.main)

/-- What every loss of the main domain leaves (R628, R732, R733): OFF, the hold-off running, SRAM, HBM, Landings, reduction memory, queues and BAR0
registers cleared, the NOR, the flash contents, the stored weights and the counters kept. -/
def Sys2Proof.Machine.mainDomainLost (s t : State) : Prop :=
  t.sys = { state := .off } ∧ t.pwr.main = .off ∧ t.pwr.holdoff = true ∧ t.crew.member = false ∧ t.host.queues = [] ∧ t.reqs = [] ∧
  t.seqs = [] ∧ t.hbm = {} ∧ t.land = {} ∧ t.coll = {} ∧ t.dies = [] ∧ t.cores = [] ∧ t.ports = [] ∧ t.mbx = {} ∧ t.img = {} ∧
  t.nor = s.nor ∧ t.flash.data = s.flash.data ∧ t.flash.side = s.flash.side ∧ t.flash.map = s.flash.map ∧ t.wt.data = s.wt.data ∧
  t.wt.header = s.wt.header ∧ t.ctr = s.ctr ∧ t.ident = s.ident ∧ t.pending = s.pending ∧
  t.host.port0 = { perstN := s.host.port0.perstN } ∧ t.host.port1 = { perstN := s.host.port1.perstN }

/-- PWR_EN_DEASSERT, UNDERVOLTAGE and OVERVOLTAGE: with the main domain powered they power it down; an input out of range powers down the standby domain
too (R729, R732, R733). With the main domain off only the inputs change. -/
def Sys2Proof.Machine.PowerLoss : Prop :=
  (∀ s : State, s.pwr.main ≠ .off → ∃ t, exec .pwrEnDeassert s = .next t ∧ mainDomainLost s t ∧ t.pwr.pwrEn = false ∧ t.smb = s.smb ∧
    t.pwr.standby = s.pwr.standby) ∧
  (∀ s : State, s.pwr.main = .off → exec .pwrEnDeassert s = .next { s with pwr := { s.pwr with pwrEn := false } }) ∧
  (∀ (s : State) (vin : BitVec 16), vin.toNat ≤ 4550 → s.pwr.main ≠ .off → ∃ t, exec (.undervoltage vin) s = .next t ∧
    mainDomainLost s t ∧ t.pwr.standby = false ∧ t.pwr.supply = .under ∧ t.pwr.vin = vin) ∧
  (∀ (s : State) (vin : BitVec 16), 5850 ≤ vin.toNat → s.pwr.main ≠ .off → ∃ t, exec (.overvoltage vin) s = .next t ∧
    mainDomainLost s t ∧ t.pwr.standby = false ∧ t.pwr.supply = .over ∧ t.pwr.vin = vin) ∧
  (∀ (s : State) (vin : BitVec 16), s.pwr.main = .off →
    (vin.toNat ≤ 4550 → exec (.undervoltage vin) s = .next { s with pwr := { s.pwr with supply := .under, vin := vin, standby := false } }) ∧
    (5850 ≤ vin.toNat → exec (.overvoltage vin) s = .next { s with pwr := { s.pwr with supply := .over, vin := vin, standby := false } }))

/-- The supply and PWR_EN commands, up and down (R628, R727 to R733). -/
def Obligations.PowerInputs : Prop := PowerUpInputs ∧ PowerLoss

/-- What ROM entry leaves after a module reset (R628): ROM, the named contents cleared, ROM_HOLD, the NOR, the flash contents, the counters' snapshot banks and
the module's membership of no crew. -/
def Sys2Proof.Machine.moduleWasReset (s t : State) : Prop :=
  t.sys.state = .rom ∧ t.sys.faultClass = 0 ∧ t.pwr = s.pwr ∧ t.crew.member = false ∧ t.crew.epoch = 0 ∧ t.host.queues = [] ∧ t.reqs = [] ∧
  t.seqs = [] ∧ t.hbm = {} ∧ t.land = {} ∧ t.coll = {} ∧ t.img = {} ∧ t.tmux = {} ∧ t.nor = s.nor ∧ t.flash.data = s.flash.data ∧
  t.flash.map = s.flash.map ∧ t.wt.data = s.wt.data ∧ t.ctr.bank0 = s.ctr.bank0 ∧ t.ctr.bank1 = s.ctr.bank1 ∧ t.ctr.bank2 = s.ctr.bank2 ∧
  t.ctr.latest = s.ctr.latest ∧ t.host.port0.shown = s.ctr.latest ∧ t.host.port1.shown = s.ctr.latest

/-- HUB_CONTROL_RESET with 0xA5 and MAILBOX_RESTART reset the module; RESTART also clears ROM_HOLD, and a module reset does not (R593, R628, R629, R669).
A HUB_CONTROL value with another low byte changes nothing. -/
def Sys2Proof.Machine.ModuleReset : Prop :=
  (∀ (s : State) (port : Nat) (value : W64), s.bar0Open port = true → value.toNat % 256 = 0xA5 →
    ∃ t, exec (.hubControlReset port value) s = .next t ∧ moduleWasReset s t ∧ t.smb = s.smb) ∧
  (∀ (s : State) (port : Nat) (value : W64), value.toNat % 256 ≠ 0xA5 → exec (.hubControlReset port value) s = .next s) ∧
  (∀ (s : State) (port : Nat), s.bar0Open port = true → s.serving = true → s.mbx.busy = false →
    ∃ t, exec (.mailboxRestart port) s = .next t ∧ moduleWasReset s t ∧ t.smb.romHold = false)

/-- POWER_GOOD: the main domain's power good enters ROM with the counters and snapshot banks cleared; ROM samples COMPAT_N and derives the identity
(R627, R660, R661, R664, R701, R728). A port whose PERSTn_N is high answers from power good on (R731). -/
def Sys2Proof.Machine.PowerGoodEntersRom : Prop :=
  ∀ (s : State) (compatN : Bool), s.pwr.main = .starting → ∃ t, exec (.powerGood compatN) s = .next t ∧
    t.sys.state = .rom ∧ t.pwr = { s.pwr with main := .on, compatN := compatN } ∧ t.sys.compatPin = compatN ∧ t.sys.compat = compatN ∧
    t.sys.noIdentity = (identityOf s.nor s.ident.moduleId).isNone ∧ t.sec = securityOf s.nor s.ident.moduleId ∧
    t.ctr.latest = none ∧ t.ctr.bank0 = none ∧ t.ctr.bank1 = none ∧ t.ctr.bank2 = none ∧
    (∀ a, a ≠ ctrAddr 8 7 5 → a ≠ ctrAddr 8 7 6 → Sparse.get 0 t.ctr.live a = 0) ∧ t.nor = s.nor ∧ t.smb = s.smb ∧
    t.host.queues = [] ∧ t.crew.member = false ∧
    (∀ p, p < 2 → (t.hostPort p).perstN = (s.hostPort p).perstN ∧ (t.hostPort p).link = if (s.hostPort p).perstN then .retry else .inReset)

/-- The ways into ROM: module resets and the main domain's power good (R593, R627 to R629). -/
def Obligations.RomEntries : Prop := ModuleReset ∧ PowerGoodEntersRom

/-- IMAGE_LOAD and LOAD_COMPLETE (R627, R634, R635): a silent NOR or a bad header enters FAULT 0x02 with detail 0, a layout fault its class and detail;
otherwise LOAD runs, and at its end the registers with reset "image" hold the image's values. With ROM_HOLD set the module stays in ROM. -/
def Sys2Proof.Machine.ImageLoads : Prop :=
  (∀ (s : State) (responds : Bool), s.sys.state = .rom → s.pwr.main = .on → s.smb.romHold = false →
    ∃ t, exec (.imageLoad responds) s = .next t ∧ t.nor = s.nor ∧ t.pwr = s.pwr ∧
      (responds = false ∨ headerBad (imgHeader s.nor) = true → t.sys.state = .fault ∧ t.sys.faultClass = 2 ∧ t.sys.faultDetail = 0) ∧
      (responds = true → headerBad (imgHeader s.nor) = false → match layoutFault s.nor with
        | some (c, d) => t.sys.state = .fault ∧ t.sys.faultClass = BitVec.ofNat 8 c ∧ t.sys.faultDetail = BitVec.ofNat 32 d
        | none => t.sys.state = .load ∧ t.sys.progress = 100)) ∧
  (∀ (s : State) (responds : Bool), s.smb.romHold = true → exec (.imageLoad responds) s = .next s) ∧
  (∀ s : State, s.sys.state = .load → s.sys.progress = 100 → ∃ t, exec .loadComplete s = .next t ∧ t.sys.state = .verify ∧
    t.img = imageOf s.nor s.sys.compatPin ∧ t.profile = BitVec.ofNat 128 (fld t.img.profile 0 128) ∧ t.tmux.sel = t.img.test ∧
    t.sys.compat = (s.sys.compatPin || t.sys.compatBit) ∧ t.sys.compatBit = (fld t.img.profile 256 1 == 1) ∧
    t.crew.claim = (t.img.coordMap.find? fun p => p.1 == s.ident.moduleId).map Prod.snd ∧ t.wt.data = s.wt.data ∧ t.nor = s.nor)

/-- VERIFY and TRAIN_TIMEOUT (R627, R651, R681): a failed check enters FAULT with its class; otherwise TRAIN starts, every enabled port trains from step 1
with its laser on and every other port is OFF with REASON 0xC. At the end of TRAIN the module enters JOIN without its key-value state, keeping its
weights, NOR and counters. -/
def Sys2Proof.Machine.VerifyTrainJoin : Prop :=
  (∀ s : State, s.sys.state = .verify → ∃ t, exec .verify s = .next t ∧ t.nor = s.nor ∧ t.img = s.img ∧ match verifyFault s.nor s.img with
    | some (c, d) => t.sys.state = .fault ∧ t.sys.faultClass = BitVec.ofNat 8 c ∧ t.sys.faultDetail = BitVec.ofNat 32 d
    | none => t.sys.state = .train ∧ ∀ n, n < 12 →
        t.port n = if bitAt s.img.portEn n then { state := .training, step := 1, laser := true } else { reason := 0xC }) ∧
  (∀ s : State, s.sys.state = .train → ∃ t, exec .trainTimeout s = .next t ∧ t.sys = { s.sys with state := .join } ∧ t.seqs = [] ∧ t.nodes = [] ∧
    t.land = {} ∧ t.reqs = [] ∧ (∃ fs, t.hbm = { retired := s.hbm.retired, failed := fs }) ∧ t.flash.data = [] ∧ t.wt.data = s.wt.data ∧ t.wt.header = s.wt.header ∧ t.nor = s.nor ∧ t.ctr = s.ctr ∧
    t.pwr = s.pwr ∧ t.ports = s.ports ∧ t.img = s.img)

/-- ROM to JOIN: IMAGE_LOAD, LOAD_COMPLETE, VERIFY and TRAIN_TIMEOUT (R627). -/
def Obligations.StartUpStates : Prop := ImageLoads ∧ VerifyTrainJoin

/-! ### PCIe ports, BAR0 and the recovery mailbox (R582 to R605, R667 to R670, R715, R737) -/

/-- What a reset of one port leaves (R587): its queues disabled with nothing outstanding, no completion owed to its requests, those that can be aborted marked;
the other port, its queues and the rest of the module as they were, but for the port's counters. -/
def Sys2Proof.Machine.portWasReset (s t : State) (port : Nat) : Prop :=
  t = { s with reqs := t.reqs, ctr := t.ctr, host := { s.host with queues := t.host.queues, port0 := t.host.port0, port1 := t.host.port1 } } ∧
  t.hostPort (1 - port) = s.hostPort (1 - port) ∧
  (∀ q, s.ownerPort q = port → (t.queue q).enable = false ∧ (t.queue q).outstanding = 0) ∧
  (∀ q, s.ownerPort q ≠ port → t.queue q = s.queue q) ∧
  t.reqs = s.reqs.map fun r => if r.port = port ∧ r.stage ≠ .done then { r with owed := false, aborted := r.aborted || r.abortable } else r

/-- PERST_ASSERT, PERST_DEASSERT and FUNCTION_LEVEL_RESET act on their port alone (R584, R587); what a link negotiates is one of the rates and widths of R582, and which one is free (log 47); a port number above 1 names no port. -/
def Obligations.PciePortEvents : Prop :=
  (∀ (s : State) (port : Nat), port < 2 → Sparse.wf {} s.host.queues = true → ∃ t, exec (.perstAssert port) s = .next t ∧
    portWasReset s t port ∧ t.hostPort port = { s.hostPort port with link := .inReset, perstN := false, rate := 0, width := 0 }) ∧
  (∀ (s : State) (port : Nat), s.bar0Open port = true → Sparse.wf {} s.host.queues = true →
    ∃ t, exec (.functionLevelReset port) s = .next t ∧ portWasReset s t port ∧ t.hostPort port = s.hostPort port) ∧
  (∀ (s : State) (port : Nat), port < 2 → s.pwr.main = .on → (s.hostPort port).link = .inReset → ∃ t, exec (.perstDeassert port) s = .next t ∧
    t = { s with host := { s.host with port0 := t.host.port0, port1 := t.host.port1 }, freeIx := t.freeIx } ∧
    t.hostPort (1 - port) = s.hostPort (1 - port) ∧
    t.hostPort port = { s.hostPort port with
      perstN := true, link := if s.sys.state = .rom then .retry else .answering, rate := (t.hostPort port).rate, width := (t.hostPort port).width } ∧
    1 ≤ (t.hostPort port).rate ∧ (t.hostPort port).rate ≤ 6 ∧ (t.hostPort port).width ∈ [8, 4, 2, 1]) ∧
  (∀ (s : State) (port : Nat), port < 2 → s.pwr.main ≠ .on ∨ (s.hostPort port).link ≠ .inReset → ∃ t, exec (.perstDeassert port) s = .next t ∧
    t = { s with host := { s.host with port0 := t.host.port0, port1 := t.host.port1 } } ∧ t.hostPort (1 - port) = s.hostPort (1 - port) ∧
    t.hostPort port = { s.hostPort port with perstN := true }) ∧
  (∀ (s : State) (port : Nat), 2 ≤ port → exec (.perstAssert port) s = .fault (.absentPart "PCIe port"))

/-- The state after one bit of a port's HOST_ERR has been set: nothing but that bit and the port's counters changes (R595). -/
def Sys2Proof.Machine.errorSet (s t : State) (port b : Nat) : Prop :=
  t = { s with ctr := t.ctr, host := { s.host with port0 := t.host.port0, port1 := t.host.port1 } } ∧
  t.hostPort (1 - port) = s.hostPort (1 - port) ∧
  t.hostPort port = { s.hostPort port with hostErr := (s.hostPort port).hostErr ||| BitVec.ofNat 6 (2 ^ b) }

/-- BAR0 registers accept aligned 8-byte accesses and aligned 4-byte accesses to either half (R589): such a read answers the register or its half and sets no error. Any
other access completes, with all ones for a read; a write is ignored; and HOST_ERR.ACCESS of the port it came through is set. -/
def Obligations.BadAccess : Prop :=
  (∀ (s : State) (port offset size : Nat) (v : W64), s.bar0Open port = true → ¬((size = 8 ∧ offset % 8 = 0) ∨ (size = 4 ∧ offset % 4 = 0)) →
    (∃ t, exec (.bar0BadAccess port true offset size) s = .next t ∧ errorSet s t port 2) ∧
    (∃ t, exec (.registerWrite port offset size v) s = .next t ∧ errorSet s t port 2) ∧
    (∃ t u, exec (.bar0BadAccess port false offset size) s = .next t ∧ errorSet s u port 2 ∧
      t = { u with host := { u.host with lastRead := 0xFFFF_FFFF_FFFF_FFFF } })) ∧
  (∀ (s : State) (port offset : Nat) (v : W64), s.bar0Open port = true →
    (offset % 8 = 0 → exec (.bar0BadAccess port false offset 8) s = .next { s with host := { s.host with lastRead := s.bar0Word port offset } } ∧
      exec (.registerWrite port offset 8 v) s = .next (s.bar0Write port offset 8 v)) ∧
    (offset % 8 = 0 → exec (.bar0BadAccess port false offset 4) s =
      .next { s with host := { s.host with lastRead := BitVec.ofNat 64 ((s.bar0Word port offset).toNat % 2 ^ 32) } }) ∧
    (offset % 8 = 4 → exec (.bar0BadAccess port false offset 4) s =
      .next { s with host := { s.host with lastRead := BitVec.ofNat 64 ((s.bar0Word port (offset - 4)).toNat / 2 ^ 32) } }) ∧
    (offset % 4 = 0 → exec (.registerWrite port offset 4 v) s = .next (s.bar0Write port offset 4 v)))

/-- HOST_ERR_CLEAR, LINK_STATUS_CLEAR, SNAP_HOLD_SET and SNAP_HOLD_RELEASE, and the same writes as REGISTER_WRITE: a written 1 clears its bit and a written 0
leaves it; a hold keeps the window, and a release moves it at once to the latest visible snapshot (R520, R595, R596). -/
def Sys2Proof.Machine.StatusWrites : Prop :=
  (∀ (s : State) (port : Nat) (v : W64), s.bar0Open port = true → ∃ t, exec (.hostErrClear port v) s = .next t ∧
    exec (.registerWrite port 0x40 8 v) s = .next t ∧
    t = { s with host := { s.host with port0 := t.host.port0, port1 := t.host.port1 } } ∧ t.hostPort (1 - port) = s.hostPort (1 - port) ∧
    t.hostPort port = { s.hostPort port with hostErr := (s.hostPort port).hostErr &&& ~~~(v.setWidth 6) }) ∧
  (∀ (s : State) (port n : Nat) (v : W64), s.bar0Open port = true → n < 12 →
    exec (.linkStatusClear port n v) s = .next { s with ports := Sparse.set {} s.ports n { s.port n with
      mapChanged := (s.port n).mapChanged && !v.getLsbD 34, lost := (s.port n).lost && !v.getLsbD 33 } } ∧
    exec (.registerWrite port (0x1000 + 8 * n) 8 v) s = exec (.linkStatusClear port n v) s) ∧
  (∀ (s : State) (port : Nat), s.bar0Open port = true → ∃ t, exec (.snapHoldSet port) s = .next t ∧
    t = { s with host := { s.host with port0 := t.host.port0, port1 := t.host.port1 } } ∧ t.hostPort (1 - port) = s.hostPort (1 - port) ∧
    t.hostPort port = { s.hostPort port with snapHold := true } ∧ t.window port = s.window port) ∧
  (∀ (s : State) (port : Nat), s.bar0Open port = true → ∃ t, exec (.snapHoldRelease port) s = .next t ∧
    t = { s with host := { s.host with port0 := t.host.port0, port1 := t.host.port1 } } ∧ t.hostPort (1 - port) = s.hostPort (1 - port) ∧
    t.hostPort port = { s.hostPort port with snapHold := false, shown := s.ctr.latest })

/-- SNAPSHOT_TRANSFER: the latched counters fill a bank that no port holds and no READ_COUNTERS is reading; ports that do not hold show it (R596, R713).
With every bank held or being read the transfer waits. Read as deduced from R713 with two holds and one reader (log 30). -/
def Obligations.SnapshotMoves : Prop :=
  (∀ (s : State) (x : Snap), s.ctr.latched = some x → ∃ t, exec .snapshotTransfer s = .next t ∧
    (∀ b, s.freeBank = some b → t.ctr.bank b = some x ∧ t.ctr.latest = some b ∧ t.ctr.latched = none ∧ t.ctr.live = s.ctr.live ∧
      (∀ c, c < 3 → c ≠ b → t.ctr.bank c = s.ctr.bank c) ∧
      ∀ p, p < 2 → (t.hostPort p).shown = if (s.hostPort p).snapHold then (s.hostPort p).shown else some b) ∧
    (s.freeBank = none → t = s)) ∧
  (∀ (s : State) (b : Nat), s.freeBank = some b → b < 3 ∧ s.ctr.reading ≠ some b ∧
    ∀ p, p < 2 → (s.hostPort p).snapHold = true → (s.hostPort p).shown ≠ some b)

/-- DOORBELL_SQ, DOORBELL_CQ and writes of 8 or 4 bytes to a doorbell: each half updates its own side only; a disabled queue or a clear valid bit changes no queue; a field at or above
the ring's depth is ignored and sets DB_RANGE, and any other field becomes the device's record; the reserved bits are ignored, and reads give zero (R602). The doorbell of a queue that the
port does not own sets DB_FOREIGN and changes no queue (R595, R597). -/
def Obligations.Doorbells : Prop :=
  (∀ (s : State) (port qid : Nat) (v : W32), s.bar0Open port = true → qid < 8192 →
    ∃ t u, exec (.doorbellSq port qid v) s = .next t ∧ exec (.doorbellCq port qid v) s = .next u ∧
      t = { s with ctr := t.ctr, host := { s.host with port0 := t.host.port0, port1 := t.host.port1, queues := t.host.queues } } ∧
      u = { s with ctr := u.ctr, host := { s.host with port0 := u.host.port0, port1 := u.host.port1, queues := u.host.queues } } ∧
      (s.ownerPort qid ≠ port → t.host.queues = s.host.queues ∧ u.host.queues = s.host.queues ∧
        (t.hostPort port).hostErr = (s.hostPort port).hostErr ||| 2 ∧ (u.hostPort port).hostErr = (s.hostPort port).hostErr ||| 2) ∧
      (s.ownerPort qid = port → (s.queue qid).enable = false ∨ v.getLsbD 16 = false → t.host = s.host ∧ u.host = s.host) ∧
      (s.ownerPort qid = port → (s.queue qid).enable = true → v.getLsbD 16 = true →
        ((s.queue qid).sqSize.toNat + 1 ≤ v.toNat % 65536 → t.host.queues = s.host.queues ∧
          (t.hostPort port).hostErr = (s.hostPort port).hostErr ||| 1) ∧
        (v.toNat % 65536 < (s.queue qid).sqSize.toNat + 1 →
          t.host = { s.host with queues := Sparse.set {} s.host.queues qid { s.queue qid with sqTail := v.toNat % 65536 } }) ∧
        ((s.queue qid).cqSize.toNat + 1 ≤ v.toNat % 65536 → u.host.queues = s.host.queues ∧
          (u.hostPort port).hostErr = (s.hostPort port).hostErr ||| 1) ∧
        (v.toNat % 65536 < (s.queue qid).cqSize.toNat + 1 →
          u.host = { s.host with queues := Sparse.set {} s.host.queues qid { s.queue qid with cqHead := v.toNat % 65536 } }))) ∧
  (∀ (s : State) (port qid : Nat) (v : W64), s.bar0Open port = true → qid < 8192 →
    exec (.registerWrite port (0x1000000 + 8 * qid) 4 v) s = exec (.doorbellSq port qid (v.setWidth 32)) s ∧
    exec (.registerWrite port (0x1000000 + 8 * qid + 4) 4 v) s = exec (.doorbellCq port qid (v.setWidth 32)) s ∧
    (∃ t, exec (.doorbellSq port qid (v.setWidth 32)) s = .next t ∧
      exec (.registerWrite port (0x1000000 + 8 * qid) 8 v) s = exec (.doorbellCq port qid (BitVec.ofNat 32 (v.toNat / 2 ^ 32))) t) ∧
    s.bar0Word port (0x1000000 + 8 * qid) = 0)

/-- QUEUE_ENABLE and QUEUE_DISABLE of a queue by its owner: enabling in RUN or DRAIN with both sizes above zero clears SQ_HEAD, CQ_TAIL, OUTSTANDING, ERROR and the
records of the doorbell and sets CQ_PHASE; outside RUN and DRAIN, or with a zero size, it is ignored and sets QCFG_IGNORED. Disabling reads 0 at once when
nothing is outstanding, and otherwise keeps ENABLE while fetching has stopped. A write through the other port changes nothing (R597, R600, R601). That a
write of ENABLE takes the sizes of the same write is log 29. -/
def Obligations.QueueEnables : Prop :=
  (∀ (s : State) (port qid : Nat) (v : W64), s.bar0Open port = true → qid < 8192 → s.ownerPort qid = port → (s.queue qid).enable = false →
    let q : Queue := { s.queue qid with
      progressIrq := v.getLsbD 61, msixVec := BitVec.ofNat 11 (v.toNat / 2 ^ 48), cqSize := BitVec.ofNat 16 (v.toNat / 2 ^ 32),
      sqSize := BitVec.ofNat 16 (v.toNat / 2 ^ 16) }
    ∃ t, exec (.queueEnable port qid v) s = .next t ∧
      ((s.sys.state = .run ∨ s.sys.state = .drain) → q.sqSize ≠ 0 → q.cqSize ≠ 0 →
        t = { s with host := { s.host with queues := Sparse.set {} s.host.queues qid { q with
          enable := true, stopping := false, error := false, sqHead := 0, cqTail := 0, cqPhase := true, outstanding := 0,
          sqTail := 0, cqHead := 0 } } }) ∧
      (¬((s.sys.state = .run ∨ s.sys.state = .drain) ∧ q.sqSize ≠ 0 ∧ q.cqSize ≠ 0) →
        t = { s with ctr := t.ctr, host := { s.host with port0 := t.host.port0, port1 := t.host.port1, queues := t.host.queues } } ∧
        t.host.queues = Sparse.set {} s.host.queues qid q ∧ (t.hostPort port).hostErr = (s.hostPort port).hostErr ||| 0x20)) ∧
  (∀ (s : State) (port qid : Nat) (v : W64), s.bar0Open port = true → qid < 8192 → s.ownerPort qid = port → (s.queue qid).enable = true →
    BitVec.ofNat 11 (v.toNat / 2 ^ 48) = (s.queue qid).msixVec → BitVec.ofNat 16 (v.toNat / 2 ^ 32) = (s.queue qid).cqSize →
    BitVec.ofNat 16 (v.toNat / 2 ^ 16) = (s.queue qid).sqSize →
    let q : Queue := { s.queue qid with progressIrq := v.getLsbD 61 }
    let off : Queue := if q.outstanding = 0 then { q with enable := false, stopping := false } else { q with stopping := true }
    exec (.queueDisable port qid v) s = .next (s.setQueue qid off) ∧
    ((s.sys.state = .run ∨ s.sys.state = .drain) → q.sqSize ≠ 0 → q.cqSize ≠ 0 →
      exec (.queueEnable port qid v) s = .next (s.setQueue qid q))) ∧
  (∀ (s : State) (port qid : Nat) (v : W64), s.ownerPort qid ≠ port →
    exec (.queueEnable port qid v) s = .next s ∧ exec (.queueDisable port qid v) s = .next s)

/-! ### Test multiplexers, the recovery mailbox and SMBus -/

/-- TMUX_SEL_WRITE and TMUX_SWITCH: the register takes the value and each pin whose selection changes keeps showing the old one until the change reaches
it; the switch then drives the pin low for one interval and shows the new selection (R715, R716). Before the end of LOAD a write has no effect
(a reading of R716, log 36). Nothing else changes; a pin number above 7 names no pin. -/
def Sys2Proof.Machine.TestMultiplexers : Prop :=
  (∀ (s : State) (port : Nat) (v : W64), s.bar0Open port = true → s.img.loaded = true → ∃ t, exec (.tmuxSelWrite port v) s = .next t ∧
    exec (.registerWrite port 0x50 8 v) s = .next t ∧ t = { s with tmux := t.tmux } ∧ t.tmux.sel = v ∧
    ∀ n, n < 8 → Sparse.get .steady t.tmux.pins n = if tmuxPin v n = tmuxPin s.tmux.sel n then Sparse.get .steady s.tmux.pins n
      else match Sparse.get .steady s.tmux.pins n with
        | .steady => .old (tmuxPin s.tmux.sel n)
        | p => p) ∧
  (∀ (s : State) (port : Nat) (v : W64), s.img.loaded = false → exec (.tmuxSelWrite port v) s = .next s) ∧
  (∀ (s : State) (pin : Nat), pin < 8 → ∃ t, exec (.tmuxSwitch pin) s = .next t ∧
    match Sparse.get .steady s.tmux.pins pin with
    | .steady => t = s
    | .old _ => t = { s with tmux := { s.tmux with pins := Sparse.set .steady s.tmux.pins pin .low } }
    | .low => t = { s with tmux := { s.tmux with pins := Sparse.set .steady s.tmux.pins pin .steady } }) ∧
  (∀ (s : State) (pin : Nat), 8 ≤ pin → exec (.tmuxSwitch pin) s = .fault (.absentPart "TMUX pin"))

/-- Writes of the status, hold and multiplexer registers (R520, R595, R596, R715, R716). -/
def Obligations.RegisterWrites : Prop := StatusWrites ∧ TestMultiplexers

/-- MAILBOX_READ while the mailbox is served and idle: a range outside the NOR, or of no unit, ends with MB_RESULT 0x01 and touches nothing; any other
copies the NOR range to the host buffer up to the first unit whose write fails, and BUSY is set with DONE and MB_DONE_UNITS clear (R668 to R670).
Every other byte of host memory keeps its value. An operation written while BUSY sets HOST_ERR.ACCESS alone; unserved, it is ignored (R667, R670). -/
def Sys2Proof.Machine.MailboxReads : Prop :=
  (∀ (s : State) (port : Nat) (fail : Option Nat), s.bar0Open port = true → s.serving = true → s.mbx.busy = false →
    s.mbx.units ≠ 0 → s.mbx.norOffset + 4096 * s.mbx.units ≤ 2 ^ 28 →
    let n := min s.mbx.units (fail.getD s.mbx.units)
    let key := hostKey port s.mbx.hostAddr.toNat
    ∃ t, exec (.mailboxRead port fail) s = .next t ∧
      t = { s with mbx := t.mbx, ctr := t.ctr, host := { s.host with mem := t.host.mem } } ∧
      t.mbx = { s.mbx with busy := true, done := false, doneUnits := 0, nextResult := t.mbx.nextResult, nextDoneUnits := n, nextOff := 0, nextData := [] } ∧
      t.mbx.nextResult = (if n < s.mbx.units then 2 else 0) ∧
      (∀ i, i < 4096 * n → Mem.read t.host.mem (key + i) = Sparse.get norBlank s.nor (s.mbx.norOffset + i)) ∧
      ∀ a, a < key ∨ key + 4096 * n ≤ a → Mem.read t.host.mem a = Mem.read s.host.mem a) ∧
  (∀ (s : State) (port : Nat) (fail : Option Nat), s.bar0Open port = true → s.serving = true → s.mbx.busy = false →
    s.mbx.units = 0 ∨ 2 ^ 28 < s.mbx.norOffset + 4096 * s.mbx.units → ∃ t, exec (.mailboxRead port fail) s = .next t ∧
      t = { s with mbx := t.mbx, ctr := t.ctr } ∧
      t.mbx = { s.mbx with busy := true, done := false, doneUnits := 0, nextResult := 1, nextDoneUnits := 0, nextOff := 0, nextData := [] }) ∧
  (∀ (s : State) (port : Nat) (fail : Option Nat), s.bar0Open port = true → s.serving = true → s.mbx.busy = true →
    ∃ t, exec (.mailboxRead port fail) s = .next t ∧ errorSet s t port 2) ∧
  (∀ (s : State) (port : Nat) (fail : Option Nat), s.serving = false → exec (.mailboxRead port fail) s = .next s)

/-- MAILBOX_WRITE while the mailbox is served and idle: the data stands ready for the units that succeed, MB_RESULT tells a read error (0x02) from a unit
that does not read back (0x03), and no NOR byte outside the range changes (R669, R670). What the range holds until the end is a free value (log 8). A range
outside the NOR ends with 0x01 and changes no NOR byte. -/
def Sys2Proof.Machine.MailboxWrites : Prop :=
  (∀ (s : State) (port : Nat) (data : List Byte) (fail bad : Option Nat), s.bar0Open port = true → s.serving = true → s.mbx.busy = false →
    s.mbx.units ≠ 0 → s.mbx.norOffset + 4096 * s.mbx.units ≤ 2 ^ 28 → data.length = 4096 * s.mbx.units →
    let n := min s.mbx.units (fail.getD s.mbx.units)
    let k := min n (bad.getD n)
    ∃ t, exec (.mailboxWrite port data fail bad) s = .next t ∧
      t = { s with mbx := t.mbx, ctr := t.ctr, nor := t.nor, freeIx := t.freeIx } ∧
      t.mbx = { s.mbx with busy := true, done := false, doneUnits := 0, nextResult := t.mbx.nextResult, nextDoneUnits := k, nextOff := s.mbx.norOffset, nextData := data.take (4096 * k) } ∧
      t.mbx.nextResult = (if k < n then 3 else if n < s.mbx.units then 2 else 0) ∧
      ∀ a, a < s.mbx.norOffset ∨ s.mbx.norOffset + 4096 * s.mbx.units ≤ a → Sparse.get norBlank t.nor a = Sparse.get norBlank s.nor a) ∧
  (∀ (s : State) (port : Nat) (data : List Byte) (fail bad : Option Nat), s.bar0Open port = true → s.serving = true → s.mbx.busy = false →
    s.mbx.units = 0 ∨ 2 ^ 28 < s.mbx.norOffset + 4096 * s.mbx.units → ∃ t, exec (.mailboxWrite port data fail bad) s = .next t ∧
      t = { s with mbx := t.mbx, ctr := t.ctr } ∧
      t.mbx = { s.mbx with busy := true, done := false, doneUnits := 0, nextResult := 1, nextDoneUnits := 0, nextOff := 0, nextData := [] }) ∧
  (∀ (s : State) (port : Nat) (data : List Byte) (fail bad : Option Nat), s.serving = false → exec (.mailboxWrite port data fail bad) s = .next s)

/-- MAILBOX_RESERVED_OP and MAILBOX_DONE: a reserved operation is done at once with MB_RESULT 0x04 and no unit; the end of the running operation clears BUSY,
sets DONE, shows its result and units, and programs the bytes that stood ready and no others (R668 to R670). -/
def Sys2Proof.Machine.MailboxEnds : Prop :=
  (∀ (s : State) (port : Nat) (op : Byte), s.bar0Open port = true → s.serving = true → s.mbx.busy = false → op ≠ 1 → op ≠ 2 → op ≠ 3 →
    ∃ t, exec (.mailboxReservedOp port op) s = .next t ∧ t = { s with mbx := t.mbx, ctr := t.ctr } ∧
      t.mbx = { s.mbx with done := true, doneUnits := 0, result := 4 }) ∧
  (∀ s : State, s.mbx.busy = true → ∃ t, exec .mailboxDone s = .next t ∧ t = { s with mbx := t.mbx, nor := t.nor } ∧
    t.mbx = { s.mbx with busy := false, done := true, result := s.mbx.nextResult, doneUnits := s.mbx.nextDoneUnits, nextOff := 0, nextData := [], nextResult := 0, nextDoneUnits := 0 } ∧
    (∀ i b, s.mbx.nextData[i]? = some b → Sparse.get norBlank t.nor (s.mbx.nextOff + i) = b) ∧
    ∀ a, a < s.mbx.nextOff ∨ s.mbx.nextOff + s.mbx.nextData.length ≤ a → Sparse.get norBlank t.nor a = Sparse.get norBlank s.nor a) ∧
  (∀ s : State, s.mbx.busy = false → exec .mailboxDone s = .next s)

/-- SMBUS_RECOVERY_WRITE with standby power: a write to 0x40 with no PEC or a right one loads ROM_HOLD from bit 0 and is acknowledged; a wrong PEC is NACKed
and changes nothing; a listed read-only code is acknowledged and an unlisted one NACKed, neither with any effect (R629, R737, R738). Without standby power
nothing answers. -/
def Sys2Proof.Machine.SmbusWrites : Prop :=
  (∀ (s : State) (value : Byte) (pec : Option Byte), s.pwr.standby = true → pec = none ∨ pec = some (smbusPec [0xB8, 0x40, value]) →
    exec (.smbusRecoveryWrite 0x40 value pec) s = .next { s with smb := { romHold := value.getLsbD 0, lastAck := true } }) ∧
  (∀ (s : State) (code value p : Byte), s.pwr.standby = true → p ≠ smbusPec [0xB8, code, value] →
    exec (.smbusRecoveryWrite code value (some p)) s = .next { s with smb := { s.smb with lastAck := false } }) ∧
  (∀ (s : State) (code value : Byte), s.pwr.standby = true → code ≠ 0x40 →
    exec (.smbusRecoveryWrite code value none) s = .next { s with smb := { s.smb with lastAck := smbusReadOnly code } }) ∧
  (∀ (s : State) (code value : Byte) (pec : Option Byte), s.pwr.standby = false → exec (.smbusRecoveryWrite code value pec) s = .next s)

/-- The recovery mailbox and the SMBus RECOVERY register (R629, R667 to R670, R737). -/
def Obligations.RecoveryAccess : Prop := MailboxReads ∧ MailboxWrites ∧ MailboxEnds ∧ SmbusWrites

/-! ### Fetching and decoding commands (R603 to R608) -/

/-- SUBMISSION_FETCH: the engine of the port takes 1 to 8 entries of the queue that its round robin visits, at most what is waiting and what the completion
ring has room for; each becomes one command in arrival order, SQ_HEAD and OUTSTANDING advance by the entries, and OUTSTANDING never exceeds the free entries
of the completion ring (R585, R603, R604). No other queue and no other command changes. A read that ends in a PCIe error sets ERROR of the queue and
HOST_ERR of the port and takes nothing (R605). -/
def Obligations.SubmissionFetches : Prop :=
  (∀ (s : State) (port qid : Nat) (es : List (BitVec 512)), s.sys.state = .run → s.crew.member = true → port < 2 →
    s.nextQueue port = some qid → 1 ≤ es.length → es.length ≤ 8 → es.length ≤ (s.queue qid).fetchable → s.mergeCount + es.length ≤ 65536 →
    ∃ t, exec (.submissionFetch port qid es false) s = .next t ∧
      t = { s with reqs := t.reqs, host := { s.host with port0 := t.host.port0, port1 := t.host.port1, queues := t.host.queues, nextRid := s.host.nextRid + es.length, nextArrival := s.host.nextArrival + es.length }, ctr := t.ctr } ∧
      t.reqs.length = s.reqs.length + es.length ∧ t.reqs.take s.reqs.length = s.reqs ∧
      (∀ i e, es[i]? = some e → ∃ r, t.reqs[s.reqs.length + i]? = some r ∧ r.entry = e ∧ r.rid = s.host.nextRid + i ∧ r.arrival = s.host.nextArrival + i ∧
        r.port = port ∧ r.qid = qid ∧ r.coord = s.crew.coord ∧ r.owed = true ∧ r.stage = if s.tick.phase = .checkAndCommit then .next else .merge) ∧
      (t.queue qid).outstanding = (s.queue qid).outstanding + es.length ∧ (t.queue qid).outstanding ≤ (t.queue qid).freeEntries ∧
      (t.queue qid).sqHead = (fun h => if (s.queue qid).sqSize.toNat < h + 1 then 0 else h + 1)^[es.length] (s.queue qid).sqHead ∧
      (∀ q, q ≠ qid → t.queue q = s.queue q) ∧ t.hostPort port = { s.hostPort port with rr := qid + 1 } ∧ t.hostPort (1 - port) = s.hostPort (1 - port)) ∧
  (∀ (s : State) (port qid : Nat) (es : List (BitVec 512)), s.sys.state = .run → s.crew.member = true → port < 2 →
    s.nextQueue port = some qid → ∃ t, exec (.submissionFetch port qid es true) s = .next t ∧ errorSet (s.setQueue qid { s.queue qid with error := true }) t port 3)

/-- What the row of a host command does with an entry that breaks a rule of its fields: the command completes with INVALID_FIELD and nothing else
changes. -/
def Sys2Proof.Machine.refusesBadFields (op : Byte) (i : Instr) (rid : Nat) : Prop :=
  ∀ (s : State) (r : Req), s.req rid = some r → s.ticking = true → r.opcode = op → r.takeable = true → Entry.fieldsOk r.entry = false →
    exec i s = .next (s.updReq rid fun q => { q with stage := .finishing, status := 4 })

/-- Every host command with a field that R608 forbids completes with INVALID_FIELD, whatever else it says, and a reserved opcode completes with
INVALID_OPCODE (R607, R608). -/
def Sys2Proof.Machine.FieldChecks : Prop :=
  ∀ (rid : Nat) (d : HostRead),
    refusesBadFields 0x01 (.openSeq rid) rid ∧ refusesBadFields 0x02 (.append rid d) rid ∧ refusesBadFields 0x03 (.generate rid d) rid ∧
    refusesBadFields 0x04 (.fork rid) rid ∧ refusesBadFields 0x05 (.abort rid) rid ∧ refusesBadFields 0x06 (.close rid) rid ∧
    refusesBadFields 0x07 (.loadWeights rid d) rid ∧ refusesBadFields 0x08 (.setQuotaLot rid) rid ∧ refusesBadFields 0x08 (.setQuotaQueueMap rid) rid ∧
    refusesBadFields 0x09 (.setProfile rid) rid ∧ refusesBadFields 0x0A (.vecInsert rid d) rid ∧ refusesBadFields 0x0A (.codebookReload rid d) rid ∧
    refusesBadFields 0x0B (.vecDelete rid) rid ∧ refusesBadFields 0x0C (.vecSearch rid d) rid ∧ refusesBadFields 0x0D (.readCounters rid) rid ∧
    refusesBadFields 0x0E (.attest rid d) rid ∧ refusesBadFields 0x0F (.writeImage rid d) rid ∧ refusesBadFields 0x10 (.drain rid) rid ∧
    ∀ (s : State) (r : Req), s.req rid = some r → s.ticking = true → r.takeable = true → r.opcode = 0 ∨ 0x10 < r.opcode.toNat →
      exec (.invalidOpcode rid) s = .next (s.updReq rid fun q => { q with stage := .finishing, status := 3 })

/-- What the row of a host command does with an entry whose fields are legal: the command stands staged for the commit, and nothing else changes. -/
def Sys2Proof.Machine.stagesEntry (op : Byte) (i : Instr) (rid : Nat) (ok : Entry → Prop) : Prop :=
  ∀ (s : State) (r : Req), s.req rid = some r → s.ticking = true → r.opcode = op → r.takeable = true → Entry.fieldsOk r.entry = true → ok r.entry →
    exec i s = .next (s.updReq rid fun q => { q with stage := .staged })

/-- The commands that are decoded in their tick and take effect at its commit (R82, R328, R414, R422, R573, R613, R615, R617, R619, R626, R682). -/
def Sys2Proof.Machine.CommandsStage : Prop :=
  ∀ (rid : Nat) (d : HostRead),
    stagesEntry 0x01 (.openSeq rid) rid (fun _ => True) ∧ stagesEntry 0x02 (.append rid d) rid (fun _ => True) ∧
    stagesEntry 0x03 (.generate rid d) rid (fun _ => True) ∧ stagesEntry 0x04 (.fork rid) rid (fun _ => True) ∧
    stagesEntry 0x05 (.abort rid) rid (fun _ => True) ∧ stagesEntry 0x06 (.close rid) rid (fun _ => True) ∧
    stagesEntry 0x08 (.setQuotaLot rid) rid (fun e => e.kind = false) ∧ stagesEntry 0x08 (.setQuotaQueueMap rid) rid (fun e => e.kind = true) ∧
    stagesEntry 0x09 (.setProfile rid) rid (fun _ => True) ∧ stagesEntry 0x10 (.drain rid) rid (fun _ => True)

/-- Decoding a host command in its tick (R607, R608). -/
def Obligations.CommandDecoding : Prop := FieldChecks ∧ CommandsStage

/-- APPEND and GENERATE in the first tick of their admitted work: a PCIe error ends the request with HOST_ACCESS, a token at or above the vocabulary size with
BAD_TOKEN, an APPEND beyond L_MAX with LENGTH_EXCEEDED; otherwise the tokens of an APPEND stand staged for its log and a GENERATE keeps its drafts
(R605, R615, R617). No sequence's committed log changes. That BAD_TOKEN is decided before LENGTH_EXCEEDED is log 37. -/
def Obligations.TokensRead : Prop :=
  (∀ (s : State) (rid : Nat) (r : Req) (bs : List Byte) (q : Seq), s.req rid = some r → r.rid = rid → s.ticking = true → r.opcode = 2 →
    r.stage = .admitted → r.dataRead = false → s.seq r.handle = some q → bs.length = 4 * r.e.w4 →
    ∃ t, exec (.append rid (some bs)) s = .next t ∧ t = { s with reqs := t.reqs, seqs := t.seqs, ctr := t.ctr } ∧
      (t.seqs.map fun x => (x.handle, x.log)) = (s.seqs.map fun x => (x.handle, x.log)) ∧
      (s.tokensOk bs = false → t.seqs = s.seqs ∧ ∃ u, t.req rid = some u ∧ u.stage = .finishing ∧ u.status = 6) ∧
      (s.tokensOk bs = true → q.lMax < q.log.length + r.e.w4 → t.seqs = s.seqs ∧ ∃ u, t.req rid = some u ∧ u.stage = .finishing ∧ u.status = 8) ∧
      (s.tokensOk bs = true → q.log.length + r.e.w4 ≤ q.lMax → (∃ x, t.seq r.handle = some x ∧ x = { q with logStaged := tokensOf bs }) ∧
        ∃ u, t.req rid = some u ∧ u = { r with data := bs, dataRead := true, needed := q.log.length + r.e.w4 })) ∧
  (∀ (s : State) (rid : Nat) (r : Req) (bs : List Byte), s.req rid = some r → r.rid = rid → s.ticking = true → r.opcode = 3 →
    r.stage = .admitted → r.dataRead = false → r.e.drafts ≠ 0 → bs.length = 4 * r.e.drafts →
    ∃ t, exec (.generate rid (some bs)) s = .next t ∧ t = { s with reqs := t.reqs, ctr := t.ctr } ∧
      (s.tokensOk bs = true → t.req rid = some { r with data := bs, dataRead := true }) ∧
      (s.tokensOk bs = false → ∃ u, t.req rid = some u ∧ u.stage = .finishing ∧ u.status = 6)) ∧
  (∀ (s : State) (rid : Nat) (r : Req), s.req rid = some r → s.ticking = true → r.opcode = 2 ∨ (r.opcode = 3 ∧ r.e.drafts ≠ 0) →
    r.stage = .admitted → r.dataRead = false →
    exec (if r.opcode = 2 then .append rid none else .generate rid none) s =
      .next (s.updReq r.rid fun q => { q with stage := .finishing, status := 0x12 }))

/-- LOAD_WEIGHTS: with FLASH_RO it completes with FLASH_READ_ONLY; while admitted work remains it is held; a range or header that R656 forbids completes with
INVALID_FIELD and writes nothing; otherwise the blocks are written, to the authoritative copy and to the mirror held here, every byte of both outside them keeps its value, and the command is staged
(R380, R618, R656). -/
def Sys2Proof.Machine.WeightsLoad : Prop :=
  ∀ (s : State) (rid : Nat) (r : Req) (bs : List Byte), s.req rid = some r → r.rid = rid → s.ticking = true → r.opcode = 7 → r.takeable = true →
    Entry.fieldsOk r.entry = true →
    (s.sys.flashRo = true → exec (.loadWeights rid (some bs)) s = .next (s.updReq rid fun q => { q with stage := .finishing, status := 0xC })) ∧
    (s.sys.flashRo = false → s.hasWork = true → exec (.loadWeights rid (some bs)) s = .next (s.updReq rid fun q => { q with stage := .held })) ∧
    (s.sys.flashRo = false → s.hasWork = false → bs.length = 16384 * r.e.w5 →
      let h := if r.e.w4 = 0 then newHeader s.wt.header bs else s.wt.header
      ∃ t, exec (.loadWeights rid (some bs)) s = .next t ∧ t = { s with reqs := t.reqs, ctr := t.ctr, wt := { s.wt with data := t.wt.data, mirror := t.wt.mirror, header := t.wt.header } } ∧
        (h = [] ∨ whTotal h < r.e.w4 + r.e.w5 ∨ (r.e.w4 = 0 ∧ weightHeaderOk s.img.model s.img.modelDigest h = false) →
          t.wt = s.wt ∧ ∃ u, t.req rid = some u ∧ u.stage = .finishing ∧ u.status = 4) ∧
        (h ≠ [] → r.e.w4 + r.e.w5 ≤ whTotal h → (r.e.w4 = 0 → weightHeaderOk s.img.model s.img.modelDigest h = true) →
          (∃ u, t.req rid = some u ∧ u.stage = .staged) ∧ (r.e.w4 = 0 → t.wt.header = h) ∧
          (∀ i b, bs[i]? = some b → Mem.read t.wt.data (16384 * r.e.w4 + i) = b ∧ Mem.read t.wt.mirror (16384 * r.e.w4 + i) = b) ∧
          ∀ a, a < 16384 * r.e.w4 ∨ 16384 * (r.e.w4 + r.e.w5) ≤ a → Mem.read t.wt.data a = Mem.read s.wt.data a ∧ Mem.read t.wt.mirror a = Mem.read s.wt.mirror a))

/-- VEC_INSERT, VEC_DELETE and CODEBOOK_RELOAD on an index that this module homes: an insertion is encoded with the current codebook and staged, a deletion is
staged, a reload is staged; edits are held while the side list is full, a reload while a merge runs, and both behind one that arrived earlier and waits; with FLASH_RO each completes with FLASH_READ_ONLY, and
where no member homes the index with INDEX_OFFLINE (R434, R457, R459, R461, R471, R473). None of them changes the index before the commit. -/
def Obligations.IndexEdits : Prop :=
  ∀ (s : State) (rid : Nat) (r : Req) (x : VIndex) (bs : List Byte), s.req rid = some r → r.rid = rid → s.ticking = true → r.takeable = true →
    Entry.fieldsOk r.entry = true →
    (s.sys.flashRo = true → ∀ i, (i = .vecInsert rid (some bs) ∧ r.opcode = 0xA ∧ r.e.codebook = false) ∨ (i = .vecDelete rid ∧ r.opcode = 0xB) ∨
        (i = .codebookReload rid (some bs) ∧ r.opcode = 0xA ∧ r.e.codebook = true) →
      exec i s = .next (s.updReq rid fun q => { q with stage := .finishing, status := 0xC })) ∧
    (s.sys.flashRo = false → s.homeOf r.e.indexId = none → ∀ i, (i = .vecInsert rid (some bs) ∧ r.opcode = 0xA ∧ r.e.codebook = false) ∨
        (i = .vecDelete rid ∧ r.opcode = 0xB) ∨ (i = .codebookReload rid (some bs) ∧ r.opcode = 0xA ∧ r.e.codebook = true) →
      exec i s = .next (s.updReq rid fun q => { q with stage := .finishing, status := 0xD })) ∧
    (s.editWaits rid r.e.indexId x = true ↔ ixSideMax x.record ≤ x.side.length + s.stagedOn r.e.indexId ∨ s.heldBefore rid (fun q => q.edits r.e.indexId) = true) ∧
    (s.sys.flashRo = false → s.homeOf r.e.indexId = some s.crew.coord → s.index r.e.indexId = some x →
      let early := s.heldBefore rid fun q => q.opcode == 0xA && q.e.codebook && q.e.indexId == r.e.indexId
      (r.opcode = 0xA → r.e.codebook = false → s.editWaits rid r.e.indexId x = false → bs.length = 4 * ixM x.record →
        ∃ t, exec (.vecInsert rid (some bs)) s = .next t ∧ t = { s with reqs := t.reqs, ctr := t.ctr } ∧
          t.req rid = some { r with data := encodeSketch x.codebook bs (ixM x.record), dataRead := true, stage := .staged }) ∧
      (r.opcode = 0xA → r.e.codebook = false → s.editWaits rid r.e.indexId x = true →
        exec (.vecInsert rid (some bs)) s = .next (s.updReq rid fun q => { q with stage := .held })) ∧
      (r.opcode = 0xB → exec (.vecDelete rid) s = .next (s.updReq rid fun q =>
        { q with stage := if s.editWaits rid r.e.indexId x = true then .held else .staged })) ∧
      (r.opcode = 0xA → r.e.codebook = true → x.merge.isSome = true ∨ early = true →
        exec (.codebookReload rid (some bs)) s = .next (s.updReq rid fun q => { q with stage := .held })) ∧
      (r.opcode = 0xA → r.e.codebook = true → x.merge = none → early = false → bs.length = 1024 * ixM x.record →
        ∃ t, exec (.codebookReload rid (some bs)) s = .next t ∧ t = { s with reqs := t.reqs, ctr := t.ctr } ∧
          t.req rid = some { r with data := bs, dataRead := true, stage := .staged }))

/-- READ_COUNTERS and ATTEST: a range with an address that holds no counter completes with INVALID_FIELD, any other takes the values of the latest visible
snapshot, 8 bytes each in address order, once no snapshot is being transferred (R612, R713, R714); an attestation without an identity completes with
NO_IDENTITY, one with too small a buffer with INVALID_FIELD and the bytes needed in RESULT0, the seventeenth of a tick is held, and one behind an earlier one that waits, and any other is signed over
the report (R621, R661 to R663). -/
def Obligations.CountersAndReports : Prop :=
  (∀ (s : State) (rid : Nat) (r : Req), s.req rid = some r → r.rid = rid → s.ticking = true → r.takeable = true → r.opcode = 0xD →
    Entry.fieldsOk r.entry = true →
    ((∃ i, i < r.e.w5 ∧ s.hasCounter (r.e.w4 + i) = false) →
      exec (.readCounters rid) s = .next (s.updReq rid fun q => { q with stage := .finishing, status := 4 })) ∧
    ((∀ i, i < r.e.w5 → s.hasCounter (r.e.w4 + i) = true) → s.ctr.latched = none →
      ∃ t, exec (.readCounters rid) s = .next t ∧ t = { s with reqs := t.reqs, ctr := { s.ctr with reading := s.ctr.latest } } ∧
        ∃ u, t.req rid = some u ∧ u = { r with stage := .staged, result0 := BitVec.ofNat 32 r.e.w5, data := u.data } ∧
          u.data = (List.range r.e.w5).flatMap fun i =>
            leBytes 8 (((s.ctr.latest.bind s.ctr.bank).map fun (x : Snap) => x.value (r.e.w4 + i)).getD 0).toNat)) ∧
  (∀ (s : State) (rid : Nat) (r : Req) (bs : List Byte), s.req rid = some r → r.rid = rid → s.ticking = true → r.takeable = true → r.opcode = 0xE →
    Entry.fieldsOk r.entry = true → bs.length = 64 →
    ∃ t, exec (.attest rid (some bs)) s = .next t ∧ t = { s with reqs := t.reqs, ctr := t.ctr, sec := { s.sec with signed := t.sec.signed } } ∧
      ∃ u, t.req rid = some u ∧
      (s.sec.haveKey = false → u = { r with stage := .finishing, status := 0x11 } ∧ t.sec = s.sec) ∧
      (s.sec.haveKey = true → r.e.reportMax < s.reportBytes →
        u = { r with stage := .finishing, status := 4, result0 := BitVec.ofNat 32 s.reportBytes } ∧ t.sec = s.sec) ∧
      (s.sec.haveKey = true → s.reportBytes ≤ r.e.reportMax → 16 ≤ s.sec.signed ∨ s.heldBefore rid (fun q => q.opcode == 0xE) = true → u = { r with stage := .held } ∧ t.sec = s.sec) ∧
      (s.sec.haveKey = true → s.reportBytes ≤ r.e.reportMax → s.sec.signed < 16 → s.heldBefore rid (fun q => q.opcode == 0xE) = false → t.sec.signed = s.sec.signed + 1 ∧
        u = { r with stage := .staged, dataRead := true, data := u.data, result0 := BitVec.ofNat 32 u.data.length } ∧
        ∃ body, u.data = body ++ fit 4627 (Config.mldsaSign s.sec.secretXi (sha3_512 body)) ∧
          body.take 128 = leBytes 64 s.reportHeader.toNat ++ bs))

/-- WRITE_IMAGE and NOR_PROGRAM_COMPLETE: one write runs at a time, in arrival order, and others are held; while it runs no NOR byte outside its range changes; when it ends
with every byte read back the range holds the data and RESULT0 is its length; a mismatch completes with NOR_FAIL (R620, R665, R666). What the range holds
during and after a failed write, and RESULT0 then, are free values (log 8). -/
def Sys2Proof.Machine.ImageWrites : Prop :=
  (∀ (s : State) (rid : Nat) (r : Req) (bs : List Byte), s.req rid = some r → r.rid = rid → s.ticking = true → r.takeable = true → r.opcode = 0xF →
    Entry.fieldsOk r.entry = true → bs.length = r.e.length →
    let early := s.heldBefore rid fun q => q.opcode == 0xF
    (s.norBusy ≠ [] ∨ early = true → exec (.writeImage rid (some bs)) s = .next (s.updReq rid fun q => { q with stage := .held })) ∧
    (s.norBusy = [] → early = false → ∃ t, exec (.writeImage rid (some bs)) s = .next t ∧
      t = { s with reqs := t.reqs, ctr := t.ctr, nor := t.nor, freeIx := t.freeIx, norBusy := [⟨rid, r.e.norOffset, r.e.length⟩] } ∧
      t.req rid = some { r with data := bs, dataRead := true, stage := .waiting } ∧
      ∀ a, a < r.e.norOffset ∨ r.e.norOffset + r.e.length ≤ a → Sparse.get norBlank t.nor a = Sparse.get norBlank s.nor a)) ∧
  (∀ (s : State) (w : NorWrite) (r : Req), s.norBusy = [w] → s.req w.rid = some r → r.rid = w.rid → r.data.length = w.bytes →
    (∃ t, exec (.norProgramComplete false) s = .next t ∧ t = { s with reqs := t.reqs, nor := t.nor, norBusy := [] } ∧
      t.req w.rid = some { r with stage := .finishing, result0 := BitVec.ofNat 32 w.bytes, data := [] } ∧
      (∀ i b, r.data[i]? = some b → Sparse.get norBlank t.nor (w.offset + i) = b) ∧
      ∀ a, a < w.offset ∨ w.offset + w.bytes ≤ a → Sparse.get norBlank t.nor a = Sparse.get norBlank s.nor a) ∧
    (∃ t, exec (.norProgramComplete true) s = .next t ∧ t = { s with reqs := t.reqs, nor := t.nor, norBusy := [], freeIx := t.freeIx } ∧
      (∃ u, t.req w.rid = some u ∧ u = { r with stage := .finishing, status := 0x13, data := [], result0 := u.result0 }) ∧
      ∀ a, a < w.offset ∨ w.offset + w.bytes ≤ a → Sparse.get norBlank t.nor a = Sparse.get norBlank s.nor a)) ∧
  (∀ (s : State) (mismatch : Bool), s.norBusy = [] → exec (.norProgramComplete mismatch) s = .next s)

/-- Writing the NOR image and the weights (R618, R620, R656, R665, R666). -/
def Obligations.StoredImages : Prop := WeightsLoad ∧ ImageWrites

/-! ### The tick (R51 to R106, R559 to R563) -/

/-- A TICK message leaves: it joins the messages sent, its flits wait at the ports of their routes, and nothing else changes (R73, R74, R508). -/
def Sys2Proof.Machine.messageSent (s t : State) (m : OutMsg) : Prop :=
  t = { s with ports := t.ports, yard := { s.yard with sent := s.yard.sent ++ [m], msgNext := t.yard.msgNext } } ∧
  ∀ n, t.port n = { s.port n with txq := (t.port n).txq }

/-- A TICK message leaves for the members listed, or nothing changes where none is listed. -/
def Sys2Proof.Machine.sentTo (s t : State) (m : OutMsg) (dests : List Nat) : Prop := if dests = [] then t = s else messageSent s t m

/-- EDGE on a member that is not the master: an edge whose flits have come and that fits the attempt waits for its EDGE_TIME and goes on down the tree; any other is
discarded, counted, and asked for again of the member from which the next edge comes, and the pending edge stays as it was (R63, R64, R75). The tick of a COMMIT edge is the next one, of attempt 0 and of this
CREW_EPOCH, that of a REPLAY edge the tick in flight. Without such a message nothing happens. -/
def Sys2Proof.Machine.EdgeArrives : Prop :=
  (∀ (s : State) (hdr : BitVec 128) (body : BitVec 256) (m : TickMsg), s.inCrew = true → s.received 0 hdr (fun b => bodyWord 32 b == body.toNat) = some m →
    let e := edgeOf body
    let u := { s.useMsg m with tick := { s.tick with pending := some e } }
    (if e.decision = 2 then e.master else s.crew.master) ≠ s.crew.coord → s.edgeOk hdr body = true →
    ∃ t, exec (.edge hdr body) s = .next t ∧ sentTo u t (.edge e) (if e.decision = 2 then s.formTree e.master else s.treeChildren) ∧
      (e.decision = 0 → e.tickNum = s.tick.num + 1 ∧ e.attempt = 0 ∧ e.epoch = s.crew.epoch) ∧
      (e.decision = 1 → e.tickNum = s.tick.num ∧ e.attempt = (s.tick.attempt + 1) % 128 ∧ e.epoch = s.crew.epoch)) ∧
  (∀ (s : State) (hdr : BitVec 128) (body : BitVec 256) (m : TickMsg), s.inCrew = true → s.received 0 hdr (fun b => bodyWord 32 b == body.toNat) = some m →
    (if (edgeOf body).decision = 2 then (edgeOf body).master else s.crew.master) ≠ s.crew.coord → s.edgeOk hdr body = false →
    ∃ t, exec (.edge hdr body) s = .next t ∧ messageSent { s.useMsg m with ctr := t.ctr } t (.repeatReq 0 s.edgeSource)) ∧
  (∀ (s : State) (hdr : BitVec 128) (body : BitVec 256), s.received 0 hdr (fun b => bodyWord 32 b == body.toNat) = none →
    exec (.edge hdr body) s = .next s)

/-- CMDSET on a member that is not the master: a sound one of this attempt is the tick's command set, each record that concerns this member becomes one
command in record order, with no completion owed here, and the message goes on down the tree; a corrupt one is counted and asked for again
(R74, R75, R81, R612). Without such a message nothing happens. -/
def Sys2Proof.Machine.CommandSets : Prop :=
  (∀ (s : State) (hdr : BitVec 128) (recs : List CmdRec) (m : TickMsg), s.ticking = true → s.crew.master ≠ s.crew.coord → s.tick.cmdset = none →
    s.received 3 hdr (fun b => recordsIn b == recs) = some m →
    (s.partsOk m 3 = true → recordsOrdered recs = true → m.body = recs.flatMap recordBytes →
      ∃ t rs n, exec (.cmdset hdr recs) s = .next t ∧
        sentTo { s.useMsg m with tick := { s.tick with cmdset := some recs }, reqs := s.reqs ++ rs, host := { s.host with nextRid := n } } t
          (.cmdset s.tick.num s.tick.attempt recs) s.treeChildren ∧
        n = s.host.nextRid + (recs.filter s.concerns).length ∧
        (rs.map fun r => (r.entry, r.coord, r.qid, r.owed)) = ((recs.filter s.concerns).map fun c => (c.entry, c.coord, c.qid, false))) ∧
    (¬(s.partsOk m 3 = true ∧ recordsOrdered recs = true ∧ m.body = recs.flatMap recordBytes) →
      ∃ t, exec (.cmdset hdr recs) s = .next t ∧ messageSent { s.useMsg m with ctr := t.ctr } t (.repeatReq 2 s.edgeSource))) ∧
  (∀ (s : State) (hdr : BitVec 128) (recs : List CmdRec) (m : TickMsg), s.tick.cmdset ≠ none → s.received 3 hdr (fun b => recordsIn b == recs) = some m →
    exec (.cmdset hdr recs) s = .next (s.useMsg m)) ∧
  (∀ (s : State) (hdr : BitVec 128) (recs : List CmdRec), s.received 3 hdr (fun b => recordsIn b == recs) = none → exec (.cmdset hdr recs) s = .next s)

/-- EDGE and CMDSET on a member (R63, R64, R74, R75, R81). -/
def Obligations.TickMessages : Prop := EdgeArrives ∧ CommandSets

/-- REPORT: a child's report of another attempt, or a corrupt one, is discarded and counted, in part or whole; one whose flits have come in part is noted; a whole one is held. Once the own
report and every child's are here the combined report goes up, or, on the master, stands complete (R69, R75 to R80). -/
def Sys2Proof.Machine.ReportsArrive : Prop :=
  ∀ (s : State) (child bytes : Nat) (hdr : BitVec 128) (rep : Report), s.ticking = true → s.tick.phase ≠ .none → child ∈ s.treeChildren →
    (∀ m : TickMsg, ((s.received 1 hdr fun b => b.length == bytes && reportIn b == rep).filter fun m => m.src == child) = some m →
      (¬(s.partsOk m 1 = true ∧ s.reportOk child rep m.body = true) →
        ∃ t, exec (.report child hdr rep bytes true) s = .next t ∧ t = { s.useMsg m with ctr := t.ctr }) ∧
      (s.partsOk m 1 = true → s.reportOk child rep m.body = true →
        let k := s.tick.takeChild child rep
        let cs := s.treeChildren.filterMap fun c => (k.children.find? fun e => e.1 == c).map Prod.snd
        (s.tick.ownReport = none → exec (.report child hdr rep bytes true) s = .next { s.useMsg m with tick := k }) ∧
        (∀ own, s.tick.ownReport = some own → cs.length < s.treeChildren.length → exec (.report child hdr rep bytes true) s = .next { s.useMsg m with tick := k }) ∧
        (∀ own, s.tick.ownReport = some own → s.tick.sentReport = none → cs.length = s.treeChildren.length →
          let c := combineReports s.tick.num s.tick.attempt s.crew.coord own cs
          ∃ t, exec (.report child hdr rep bytes true) s = .next t ∧
            (s.crew.master ≠ s.crew.coord →
              messageSent { s.useMsg m with tick := { k with sentReport := some c } } t (.report c)) ∧
            (s.crew.master = s.crew.coord → t = { s.useMsg m with
              tick := { k with sentReport := some c, reportsIn := true }, crew := { s.crew with joinSeen := c.joins.eraseDups }, fore := t.fore })))) ∧
    (s.partHere child hdr = true → tickHeaderOk hdr 1 = true → s.thisAttempt hdr = true →
      exec (.report child hdr rep bytes false) s = .next { s with tick := { s.tick with partials := (s.tick.partials ++ [child]).eraseDups } }) ∧
    (s.partHere child hdr = true → ¬(tickHeaderOk hdr 1 = true ∧ s.thisAttempt hdr = true) → ∃ t, exec (.report child hdr rep bytes false) s = .next t ∧
      t = { s with yard := { s.yard with rx := s.yard.rx.filter fun f => !(ofTick child 1 f && tickHdrOf f == hdr) }, ctr := t.ctr })

/-- REPEAT and REPORT_REPEAT_TIMEOUT: a repeat request of this attempt is answered with the message asked for, to the member that asks, and changes nothing else: the master
sends its pending edge or its CMDSET, the new one its FORM edge, a child its report to its parent; a corrupt one is counted. 10 µs after its first flit an incomplete report is asked for again
(R74, R75). -/
def Sys2Proof.Machine.Repeats : Prop :=
  (∀ (s : State) (src : Nat) (hdr body : BitVec 128) (m : TickMsg), s.inCrew = true →
    ((s.received 2 hdr fun b => bodyWord 16 b == body.toNat).filter fun m => m.src == src) = some m →
    let u := s.useMsg m
    ((s.partsOk m 2 && decide (body.toNat % 2 ^ 124 = 0 ∧ body.toNat / 2 ^ 124 ≤ 2)) = false →
      ∃ t, exec (.repeatMsg src hdr body) s = .next t ∧ t = { u with ctr := t.ctr }) ∧
    (s.partsOk m 2 = true →
      (∀ c, body = BitVec.ofNat 128 (2 ^ 124) → s.tick.sentReport = some c → s.parentOf s.crew.coord = some src →
        ∃ t, exec (.repeatMsg src hdr body) s = .next t ∧ messageSent u t (.report c)) ∧
      (∀ e, body = 0 → s.crew.master = s.crew.coord ∨ (e.decision = 2 ∧ e.master = s.crew.coord) → s.tick.pending = some e → ∃ t, exec (.repeatMsg src hdr body) s = .next t ∧ messageSent u t (.edge e)) ∧
      (∀ rs, body = BitVec.ofNat 128 (2 ^ 125) → s.crew.master = s.crew.coord → s.tick.cmdset = some rs →
        ∃ t, exec (.repeatMsg src hdr body) s = .next t ∧ messageSent u t (.cmdset s.tick.num s.tick.attempt rs)))) ∧
  (∀ (s : State) (child : Nat), s.ticking = true → child ∈ s.tick.partials →
    ∃ t, exec (.reportRepeatTimeout child) s = .next t ∧ messageSent s t (.repeatReq 1 child))

/-- REPORT, REPEAT and REPORT_REPEAT_TIMEOUT (R69, R74 to R80). -/
def Obligations.CheckReports : Prop := ReportsArrive ∧ Repeats

/-- CHECK_AND_COMMIT_ENTRY: once the tick's work is finished the tick enters CHECK-AND-COMMIT, and every full tail of the Landing is written to its flush frame with
its sideband, through the flush queue of its stack (R67, R83, R304, R312); every other byte of HBM and of the sidebands keeps its value, and nothing else changes but counters and the queues.
Slots whose descriptors read as corrupt are dropped first (R306). Before that it waits. -/
def Obligations.EntersCheckAndCommit : Prop :=
  (∀ s : State, s.working = true → s.workDone = true →
    let c := s.checkSlots
    (s.land.slots.all (fun e => !e.2.corrupt) = true → c = s) ∧ ∃ t, exec .checkAndCommitEntry s = .next t ∧
    t = { c with tick := { c.tick with phase := .checkAndCommit }, hbm := { c.hbm with data := t.hbm.data, side := t.hbm.side }, land := { c.land with queue := t.land.queue }, ctr := t.ctr } ∧
    (∀ n, n ∈ c.fullSlots → (∀ m, m ∈ c.fullSlots → m ≠ n → (c.slot m).flushFrame ≠ (c.slot n).flushFrame) →
      (∀ i, i < 16384 → Mem.read t.hbm.data ((c.slot n).flushFrame * 16384 + i) = Mem.read s.land.data (n * 17408 + i)) ∧
      ∀ i, i < 1024 → Mem.read t.hbm.side ((c.slot n).flushFrame * 1024 + i) = Mem.read s.land.data (n * 17408 + 16384 + i)) ∧
    (∀ a, (∀ n, n ∈ c.fullSlots → a / 16384 ≠ (c.slot n).flushFrame) → Mem.read t.hbm.data a = Mem.read s.hbm.data a) ∧
    ∀ a, (∀ n, n ∈ c.fullSlots → a / 1024 ≠ (c.slot n).flushFrame) → Mem.read t.hbm.side a = Mem.read s.hbm.side a) ∧
  (∀ s : State, s.working = true → s.workDone = false → exec .checkAndCommitEntry s = .next s)

/-- CHECK_REPORT_SEND: with its work finished, its next plan complete and the banks that it changes filled, a member makes its report, which names its own fail records,
command records and join requests; a leaf that is not the master sends it at once (R68, R69, R76, R227). A failed attempt stays in flight. -/
def Obligations.ReportIsMade : Prop :=
  ∀ (s : State) (now : W64) (busy hot : W32) (share : BitVec 16), s.ticking = true → s.tick.phase = .checkAndCommit → s.tick.planDone = true →
    s.tick.ownReport = none → s.fillsDone = true → s.crew.lostNow = [] →
    ∃ t own, exec (.checkReportSend now busy hot share) s = .next t ∧
      t = { s with tick := t.tick, crew := { s.crew with joinSeen := t.crew.joinSeen }, fore := t.fore, ports := t.ports, yard := { s.yard with sent := t.yard.sent, msgNext := t.yard.msgNext }, ctr := t.ctr } ∧
      t.tick = { s.tick with ownReport := some own, reported := true, reportAt := now.toNat, crewTime := max s.tick.crewTime now.toNat, sentReport := t.tick.sentReport, reportsIn := t.tick.reportsIn } ∧
      own = s.makeReport busy hot share ∧ own.fails = s.tick.fails ∧ own.cmds = s.ownRecords ∧ own.joins = s.ownJoins ∧ own.usage = s.lotFrames ∧
      (s.treeChildren = [] → s.crew.master ≠ s.crew.coord → s.tick.sentReport = none →
        ∃ c, t.tick.sentReport = some c ∧ t.yard.sent = s.yard.sent ++ [.report c] ∧ c.fails = own.fails ∧ c.cmds = own.cmds)

/-- MASTER_DECISION: with every report in and no loss found the master decides REPLAY when a report is FAIL and COMMIT otherwise. The edge starts the next attempt or tick at the
earliest moment E + P that the margin allows, its LAG, PERIOD and HOLD are those of R92's procedure, and the command set of a COMMIT is the reports' records in order, which
goes down the tree first: until its last flit has left a port the decision waits (R61, R63, R81, R90, R92). A master that finds members lost, or has just formed its crew, decides FORM (R63, R692). Nothing else changes. -/
def Sys2Proof.Machine.MasterDecides : Prop :=
  (∀ (s : State) (now : W64) (c : Report), s.inCrew = true → s.tick.decided = none → s.tick.pending = none → s.crew.master = s.crew.coord →
    s.tick.sentReport = some c → s.tick.reportsIn = true → s.crew.lostNow = [] → s.unstarted = false →
    let n := max now.toNat s.tick.crewTime
    let time := max (n + s.tick.margin) (s.tick.edgeAt + s.tick.period)
    let rs := c.cmds.foldl (fun (a : List CmdRec) r => insertRecord r a) []
    ∃ t u, exec (.masterDecision now) s = .next t ∧
      (rpFail c = true ∨ s.tick.cmdset ≠ none → u = { s with tick := { s.tick with crewTime := n } }) ∧
      (rpFail c = false → s.tick.cmdset = none →
        u = { s with tick := { s.tick with crewTime := n, cmdset := some rs }, reqs := u.reqs, host := { s.host with nextRid := u.host.nextRid }, ports := u.ports, yard := { s.yard with sent := u.yard.sent, msgNext := u.yard.msgNext } } ∧
        u.reqs.take s.reqs.length = s.reqs ∧ u.yard.sent = s.yard.sent ++ (if s.treeChildren = [] then [] else [.cmdset s.tick.num s.tick.attempt rs])) ∧
      (u.cmdsetWaits = true → t = u) ∧
      (u.cmdsetWaits = false → ∃ e, e.edgeTime = time ∧
        t = { u with tick := { u.tick with decided := some e, decidedAt := n, cHist := ((n + s.tick.margin - s.tick.reportAt) :: s.tick.cHist).take 16 }, ctr := t.ctr } ∧
        (rpFail c = true → e = edgeAt s.profile s.tick.hold 1 s.tick.num ((s.tick.attempt + 1) % 128) s.tick.nominal s.crew.coord s.crew.epoch time) ∧
        (rpFail c = false → e = edgeAt u.nextProfile s.tick.hold 0 (s.tick.num + 1) 0 (s.tick.nominal + fld u.nextProfile 107 21) u.successor s.crew.epoch time))) ∧
  (∀ (s : State) (now : W64), s.inCrew = true → s.tick.decided = none → s.tick.pending = none → s.formDue = true →
    let n := max now.toNat s.tick.crewTime
    ∃ t e, exec (.masterDecision now) s = .next t ∧ t = { s with tick := { s.tick with crewTime := n, decided := some e, decidedAt := n } } ∧
      e.decision = 2 ∧ e.tickNum = s.tick.num ∧ e.edgeTime = n + s.tick.margin ∧ e.master = s.crew.coord ∧
      e.epoch = (if s.unstarted = true then s.crew.epoch else s.crew.epoch + 1))

/-- EDGE_ISSUE: a decided edge is sent down the tree of its master and pends; its EDGE_TIME lies at least the delivery margin after it is sent, whenever that is, and an edge
that would come too soon is made again for the earliest time allowed (R59, R61). Without a decided edge nothing happens. -/
def Sys2Proof.Machine.EdgeIsIssued : Prop :=
  (∀ (s : State) (now : W64) (e : EdgeMsg), s.inCrew = true → s.tick.decided = some e → s.tick.decidedAt ≤ now.toNat →
    ∃ t e', exec (.edgeIssue now) s = .next t ∧
      sentTo { s with tick := { s.tick with decided := none, pending := some e', crewTime := max s.tick.crewTime now.toNat } } t (.edge e')
        (if e'.decision = 2 then s.formTree e'.master else s.treeChildren) ∧
      now.toNat + s.tick.margin ≤ e'.edgeTime ∧ (now.toNat + s.tick.margin ≤ e.edgeTime → e' = e) ∧
      (e.edgeTime < now.toNat + s.tick.margin → e' = s.edgeFor e.decision (now.toNat + s.tick.margin))) ∧
  (∀ (s : State) (now : W64), s.tick.decided = none → exec (.edgeIssue now) s = .next s)

/-- The master's decision and its edge (R61, R90, R92). -/
def Obligations.MasterEdges : Prop := MasterDecides ∧ EdgeIsIssued

/-- TICK_EDGE_APPLY with a COMMIT edge whose EDGE_TIME has come, in CHECK-AND-COMMIT with the tick's command set: the tick commits and the next one starts with the edge's
numbers, the counters of the commit stand latched for it, and the edge names the master (R59, R81, R86, R92, R673, R712); a module that departs at this edge takes no further
tick (R686). Before EDGE_TIME, or outside CHECK-AND-COMMIT, it waits, and so it does while a record of the command set has still to be decoded here (R81, R85); without the command set it asks for it (R81, R83). -/
def Obligations.CommitEdge : Prop :=
  ∀ (s : State) (now : W64) (bad : List Nat) (x : EdgeInput) (e : EdgeMsg), s.ticking = true → s.tick.pending = some e → e.decision = 0 →
    (now.toNat < e.edgeTime → exec (.tickEdgeApply now bad x) s = .next s) ∧
    (s.tick.phase ≠ .checkAndCommit → exec (.tickEdgeApply now bad x) s = .next s) ∧
    (e.edgeTime ≤ now.toNat → s.tick.phase = .checkAndCommit → s.tick.cmdset = none →
      ∃ t, exec (.tickEdgeApply now bad x) s = .next t ∧ messageSent s t (.repeatReq 2 s.edgeSource)) ∧
    (e.edgeTime ≤ now.toNat → s.tick.phase = .checkAndCommit → s.tick.cmdset ≠ none → s.recordsWait = true → exec (.tickEdgeApply now bad x) s = .next s) ∧
    (e.edgeTime ≤ now.toNat → s.tick.phase = .checkAndCommit → s.tick.cmdset ≠ none → s.recordsWait = false →
      ∃ t, exec (.tickEdgeApply now bad x) s = .next t ∧ t.ident = s.ident ∧ t.nor = s.nor ∧ t.pwr = s.pwr ∧ t.smb = s.smb ∧ t.jtag = s.jtag ∧
        t.tick.last = s.tick.num ∧ (t.ctr.latched.map (·.tick)) = some s.tick.num ∧
        (t.sys.departed = true → t.sys.state = .drain ∧ t.crew.member = false ∧ t.tick = { crewTime := max s.tick.crewTime now.toNat, last := s.tick.num }) ∧
        (t.sys.departed = false → t.crew.master = e.master ∧ t.crew.epoch = s.crew.epoch ∧
          t.tick = { crewTime := max s.tick.crewTime now.toNat, num := e.tickNum, last := s.tick.num, attempt := e.attempt, edgeAt := e.edgeTime, period := e.period, nominal := e.edgeTime - e.lag, lag := e.lag, hold := e.hold, phase := .work, firstArr := t.tick.firstArr, margin := s.tick.margin, cHist := (s.noteC e).tick.cHist }))

/-- TICK_EDGE_APPLY with a REPLAY or FORM edge whose EDGE_TIME has come: a replay starts the next attempt of the same tick with its policies as
before, a re-forming also drops the lost members and takes the new CREW_EPOCH; at ATTEMPT 127 both enter FAULT 0x0A instead (R63, R88, R102 to R106, R692). A new crew's FORM
edge brings its members to RUN (R65, R696). -/
def Obligations.ReplayAndFormEdges : Prop :=
  (∀ (s : State) (now : W64) (bad : List Nat) (x : EdgeInput) (e : EdgeMsg), s.ticking = true → s.tick.pending = some e → e.edgeTime ≤ now.toNat →
    s.tick.phase = .checkAndCommit → e.decision = 1 → ∃ t, exec (.tickEdgeApply now bad x) s = .next t ∧ t.nor = s.nor ∧ t.profile = s.profile ∧
      t.lots = s.lots ∧ t.wt.data = s.wt.data ∧ t.tick.last = s.tick.last ∧
      (127 ≤ s.tick.attempt → t.sys.state = .fault ∧ t.sys.faultClass = 0xA) ∧
      (s.replayLimit true = false → t.sys = s.sys ∧ t.tick.num = e.tickNum ∧ t.tick.attempt = s.tick.attempt + 1 ∧ t.tick.failed = s.tick.failed + 1 ∧
        t.tick.phase = .work ∧ t.tick.edgeAt = e.edgeTime ∧ t.tick.cmdset = none ∧ t.tick.fails = [] ∧ t.crew.members = s.crew.members)) ∧
  (∀ (s : State) (now : W64) (bad : List Nat) (x : EdgeInput) (e : EdgeMsg), s.ticking = true → s.tick.pending = some e → e.edgeTime ≤ now.toNat →
    s.unstarted = false → e.decision = 2 → ∃ t, exec (.tickEdgeApply now bad x) s = .next t ∧ t.nor = s.nor ∧ t.profile = s.profile ∧
      (127 ≤ s.tick.attempt → t.sys.state = .fault ∧ t.sys.faultClass = 0xA) ∧
      (s.replayLimit (s.failKnown x) = false → t.sys.state = s.sys.state ∧ t.crew.epoch = e.epoch ∧ t.crew.master = e.master ∧ t.crew.lostNow = [] ∧
        t.crew.members = s.crew.members.filter (fun m => !(s.crew.lostNow.contains m.coord)) ∧ t.tick.num = e.tickNum ∧
        t.tick.attempt = s.tick.attempt + 1 ∧ t.tick.failed = (if s.failKnown x then s.tick.failed + 1 else s.tick.failed))) ∧
  (∀ (s : State) (now : W64) (bad : List Nat) (x : EdgeInput) (e : EdgeMsg), s.crew.member = true → s.sys.state = .join → s.tick.pending = some e →
    e.edgeTime ≤ now.toNat → s.unstarted = true → e.decision = 2 → ∃ t, exec (.tickEdgeApply now bad x) s = .next t ∧ t.nor = s.nor ∧
      t.sys = { s.sys with state := .run } ∧ t.crew.epoch = e.epoch ∧ t.crew.members = s.crew.members ∧ t.tick.num = e.tickNum ∧ t.tick.phase = .work)

/-- PLAN for the next tick: a plan that keeps every rule binding the Forester is held for that tick with the tasks that its refusals leave and the requests it admits, the requests it refuses for want of an
alternative end at the commit and those with a task too long at the next one, and the idle route table fills; planning writes no NOR byte and moves no tick (R67, R88, R96, R100, R196, R402, R507, R561).
A plan that breaks a rule is not taken. -/
def Obligations.PlansComplete : Prop :=
  (∀ (s : State) (p : PlanInput), s.ticking = true → s.fore.replan = false → s.tick.phase ≠ .none → s.tick.planDone = false → s.ctr.latched = none →
    let admits := (s.admitsFor (s.tick.num + 1)).filter fun r => !((s.refusals p).any fun b => b.1 == r)
    s.planOk (s.tick.num + 1) p admits = true → ∃ t, exec (.plan p) s = .next t ∧ t.tick = { s.tick with planDone := true } ∧
      t.fore.nextPlan = some { p with tasks := keptTasks (s.refusals p) p.tasks } ∧ t.fore.planTick = s.tick.num + 1 ∧ t.fore.admits = admits ∧
      t.fore.nextRefused = s.longRefusals p ∧ t.yard.idle = some s.withoutPorts.buildRoutes ∧ t.yard.stale = false ∧
      t.hbm = s.hbm ∧ t.land = s.land ∧ t.flash = s.flash ∧ t.sys = s.sys ∧ t.crew = s.crew ∧ t.profile = s.profile ∧ t.nor = s.nor ∧
      ∀ rid c r, s.faultRefusals p = [(rid, c)] → s.req rid = some r → r.stage ≠ .finishing → ∃ u, t.req rid = some u ∧ u.stage = .finishing ∧ u.status = BitVec.ofNat 16 c) ∧
  (∀ (s : State) (p : PlanInput), s.fore.replan = false →
    s.planOk (s.tick.num + 1) p ((s.admitsFor (s.tick.num + 1)).filter fun r => !((s.refusals p).any fun b => b.1 == r)) = false →
    exec (.plan p) s = .next s)

/-- LAYOUT_DELTA and DELTA_RECEIVE: the master's delta of a tick takes the next VERSION and is for the plans from two ticks on, at most 131,072 entries and the rest deferred;
a member holds a sound delta, and one with a reserved KIND or a VERSION out of turn makes the attempt FAIL (R559 to R563). -/
def Obligations.LayoutDeltas : Prop :=
  (∀ (s : State) (es : List DeltaEntry), s.ticking = true → s.crew.master = s.crew.coord → s.tick.phase ≠ .none → s.deltaDone = false → s.tick.reported = false →
    (∀ e, e ∈ es → s.entryOk es e = true) → s.admitsInOrder es = true → s.movesFit es = true → s.migrationOk es = true →
    let all := s.fore.overflow ++ es
    ∃ t, exec (.layoutDelta es) s = .next t ∧ t = { s with fore := { s.fore with deltas := t.fore.deltas, overflow := t.fore.overflow }, yard := { s.yard with sent := t.yard.sent }, ctr := t.ctr } ∧
      t.fore.deltas = s.fore.deltas ++ [⟨s.lastVersion + 1, s.tick.num + 2, all.take 131072, false⟩] ∧ t.fore.overflow = all.drop 131072 ∧
      t.yard.sent = s.yard.sent ++ [.delta (s.lastVersion + 1) (s.tick.num + 2) (all.take 131072)]) ∧
  (∀ (s : State) (v p : W64) (es : List DeltaEntry), s.ticking = true → s.crew.master ≠ s.crew.coord → s.tick.phase ≠ .none →
    (v.toNat = s.lastVersion + 1 → es.all (fun e => !reservedKind e) = true →
      exec (.deltaReceive v p es) s = .next { s with fore := { s.fore with deltas := s.fore.deltas ++ [⟨v.toNat, p.toNat, es, false⟩] } }) ∧
    (v.toNat ≠ s.lastVersion + 1 ∨ es.any reservedKind = true → ∃ t, exec (.deltaReceive v p es) s = .next t ∧
      t = { s with tick := { s.tick with fails := t.tick.fails }, ctr := t.ctr } ∧ t.tick.fails.length = s.tick.fails.length + 1))

/-! ### Throttling, thermal limits, JTAG (R107 to R110, R719 to R722, R741, R742) -/

/-- THROTTLE_EVALUATION and THROTTLE_RAISE: at an evaluation each die with a throttle condition goes one step down, at a raise each die that meets every release
condition goes one step up, and no die passes a limit of its range; every other die and everything else but the readings and counters stays (R107, R108). -/
def Sys2Proof.Machine.ThrottleSteps : Prop :=
  (∀ (s : State) (r : SensorReadings), s.diesPowered = true → ∃ t, exec (.throttleEvaluation r) s = .next t ∧
    t = { s with therm := r, dies := t.dies, ctr := t.ctr } ∧
    (∀ d, d < s.nDies → t.die d = { s.die d with step := t.die d |>.step } ∧
      (t.die d).step = if s.throttleCondition r d = true ∧ (s.die d).step < 12 then (s.die d).step + 1 else (s.die d).step) ∧
    ∀ d, s.nDies ≤ d → t.die d = s.die d) ∧
  (∀ (s : State) (r : SensorReadings), s.diesPowered = true → ∃ t, exec (.throttleRaise r) s = .next t ∧
    t = { s with therm := r, dies := t.dies, ctr := t.ctr } ∧
    (∀ d, d < s.nDies → t.die d = { s.die d with step := t.die d |>.step } ∧
      (t.die d).step = if s.releaseCondition r d = true ∧ 0 < (s.die d).step then (s.die d).step - 1 else (s.die d).step) ∧
    ∀ d, s.nDies ≤ d → t.die d = s.die d) ∧
  (∀ (s : State) (r : SensorReadings), s.diesPowered = false → exec (.throttleEvaluation r) s = .next s ∧ exec (.throttleRaise r) s = .next s)

/-- THERMAL_SHUTDOWN: a part at its shutdown limit puts the module in FAULT 0x09 with a FAULT_DETAIL that names such a part; the dies, the stacks and the Landings lose
their contents and the flash keeps its own, the NOR and the weights too (R109, R742). Which of several parts it names is free (log 8). Without a part at a limit nothing
happens. -/
def Sys2Proof.Machine.ThermalShutdowns : Prop :=
  (∀ (s : State) (r : SensorReadings), s.diesPowered = true → s.sys.state ≠ .off → s.shutdownParts r ≠ [] → ∃ t, exec (.thermalShutdown r) s = .next t ∧
    t.sys.state = .fault ∧ t.sys.faultClass = 9 ∧ (∃ n, n ∈ s.shutdownParts r ∧ t.sys.faultDetail = BitVec.ofNat 32 n) ∧ t.dies = [] ∧ t.cores = [] ∧
    t.stands = [] ∧ t.hbm = { retired := s.hbm.retired } ∧ t.land = {} ∧ t.coll = {} ∧ t.flash.data = s.flash.data ∧ t.flash.side = s.flash.side ∧
    t.flash.map = s.flash.map ∧ t.nor = s.nor ∧ t.wt = s.wt ∧ t.pwr = s.pwr ∧ t.crew.member = false ∧ (∀ n, (t.port n).state = .off)) ∧
  (∀ (s : State) (r : SensorReadings), s.shutdownParts r = [] → exec (.thermalShutdown r) s = .next s)

/-- NAND_THROTTLE and NAND_THROTTLE_RELEASE: at 85 °C every flash channel runs at half rate, below 80 °C at full rate again, and between them neither changes
anything (R741). -/
def Sys2Proof.Machine.NandThrottles : Prop :=
  ∀ (s : State) (c : Int), s.diesPowered = true →
    (850 ≤ c → exec (.nandThrottle c) s = .next { s with flash := { s.flash with halfRate := true }, therm := { s.therm with nand := c } }) ∧
    (c < 850 → exec (.nandThrottle c) s = .next s) ∧
    (c < 800 → exec (.nandThrottleRelease c) s = .next { s with flash := { s.flash with halfRate := false }, therm := { s.therm with nand := c } }) ∧
    (800 ≤ c → exec (.nandThrottleRelease c) s = .next s)

/-- Throttle steps, thermal shutdown and the NAND throttle (R107 to R109, R741, R742). -/
def Obligations.Throttling : Prop := ThrottleSteps ∧ ThermalShutdowns ∧ NandThrottles

/-- A TAP with power holds the instruction named; the other TAP, both boundary registers and the rest of the module stay. -/
def Sys2Proof.Machine.holdsInstr (i : Instr) (tap : Nat) (x : TapInstr) : Prop :=
  ∀ s : State, s.pwr.main = .on → ∃ t, exec i s = .next t ∧ t = { s with jtag := { s.jtag with hub := t.jtag.hub, comp := t.jtag.comp } } ∧
    t.jtag.instr tap = x ∧ t.jtag.instr (1 - tap) = s.jtag.instr (1 - tap)

/-- The JTAG commands: each instruction is held by its TAP, by name and by opcode, and every unlisted opcode acts as BYPASS (R720); SAMPLE_PRELOAD also loads the boundary register; Test-Logic-Reset holds IDCODE on
both. A pin-taking instruction takes the pins only in FAULT or a held ROM, and acts as BYPASS elsewhere (R719 to R722). TAPs 0 and 1 exist. -/
def Obligations.JtagInstructions : Prop :=
  (∀ tap, tap < 2 → holdsInstr (.extest tap) tap .extest ∧ holdsInstr (.idcode tap) tap .idcode ∧ holdsInstr (.highz tap) tap .highz ∧
    holdsInstr (.clamp tap) tap .clamp ∧ holdsInstr (.extestPulse tap) tap .extestPulse ∧ holdsInstr (.extestTrain tap) tap .extestTrain ∧
    (∀ op : Byte, 6 < op.toNat → holdsInstr (.bypass tap op) tap .bypass) ∧
    holdsInstr (.bypass tap 0) tap .extest ∧ holdsInstr (.bypass tap 1) tap .samplePreload ∧ holdsInstr (.bypass tap 2) tap .idcode ∧
    holdsInstr (.bypass tap 3) tap .highz ∧ holdsInstr (.bypass tap 4) tap .clamp ∧ holdsInstr (.bypass tap 5) tap .extestPulse ∧
    holdsInstr (.bypass tap 6) tap .extestTrain) ∧
  (∀ (s : State) (tap : Nat) (pins : List Bool), tap < 2 → s.pwr.main = .on → ∃ t, exec (.samplePreload tap pins) s = .next t ∧
    t = { s with jtag := t.jtag } ∧ t.jtag.instr tap = .samplePreload ∧ t.jtag.reg tap = pins ∧ t.jtag.instr (1 - tap) = s.jtag.instr (1 - tap) ∧
    t.jtag.reg (1 - tap) = s.jtag.reg (1 - tap)) ∧
  (∀ s : State, s.pwr.main = .on → exec .testLogicReset s = .next { s with jtag := { s.jtag with hub := .idcode, comp := .idcode } }) ∧
  (∀ (s : State) (tap : Nat), s.sys.state ≠ .fault → ¬(s.sys.state = .rom ∧ s.smb.romHold = true) → s.pinsTaken tap = false) ∧
  (∀ (s : State) (tap : Nat), s.sys.state = .fault ∨ (s.sys.state = .rom ∧ s.smb.romHold = true) → s.tapActs tap = s.jtag.instr tap) ∧
  (∀ (s : State) (tap : Nat), 2 ≤ tap → exec (.extest tap) s = .fault (.absentPart "TAP"))

/-! ### Crew formation and collectives (R56, R523 to R551, R696) -/

/-- CREW_FORMATION: a set that may form with this module in it makes it a member of EPOCH 1 at tick 1, under the lowest coordinate as master, in CHECK-AND-COMMIT until the first
FORM edge; its state stays JOIN until then (R56, R65, R696). A set without this module, or one that may not form, changes nothing. -/
def Obligations.CrewForms : Prop :=
  (∀ (s : State) (ms : List (Nat × W64 × Nat)) (meas : Option (List Byte)) (homes : List (Nat × Nat)) (delay c v : Nat), (c, s.ident.moduleId, v) ∈ ms →
    s.formationOk (ms.map fun m => ⟨m.1, m.2.1, m.2.2⟩) c = true → ∃ t, exec (.crewFormation ms meas homes delay) s = .next t ∧
      t.crew.member = true ∧ t.crew.coord = c ∧ t.crew.epoch = 1 ∧ t.crew.master = (ms.map Prod.fst).foldl min 4095 ∧
      t.crew.members = (ms.map fun m => ⟨m.1, m.2.1, m.2.2⟩) ∧ t.sys = s.sys ∧ t.nor = s.nor ∧ t.seqs = s.seqs ∧ t.hbm = s.hbm ∧
      t.tick = { crewTime := s.tick.crewTime, num := 1, phase := .checkAndCommit, margin := delay + 100 } ∧ t.unstarted = true) ∧
  (∀ (s : State) (ms : List (Nat × W64 × Nat)) (meas : Option (List Byte)) (homes : List (Nat × Nat)) (delay : Nat), (∀ m, m ∈ ms → m.2.1 ≠ s.ident.moduleId) →
    exec (.crewFormation ms meas homes delay) s = .next s)

/-- CHUNK_RECEIVE while the module works: a corrupt chunk, or one whose RSUM does not match, makes the attempt FAIL and lands nothing; a sound one takes a free slot granted to its
stream, else the staged area of a stack of its consuming core's die while that has room, and is noted as landed; otherwise the credits of its VC, class 0, are withheld from its sender; a chunk of final
data is passed on unchanged where the plan sends it next (R532 to R546). A stack the module does not have faults. That buffer class 0 is the one withheld is log 20. -/
def Sys2Proof.Machine.ChunksLand : Prop :=
  (∀ (s : State) (sender stack : Nat) (h : BitVec 256) (p : List Byte), s.working = true → s.hasStack stack = true →
    (s.chunkFormOk h p = false ∨ rsum h p ≠ chRsum h → ∃ t, exec (.chunkReceive sender h p stack) s = .next t ∧
      t = { s with tick := { s.tick with fails := t.tick.fails }, ctr := t.ctr } ∧ t.tick.fails.length = s.tick.fails.length + 1) ∧
    (∀ c : CollPlan, s.chunkFormOk h p = true → rsum h p = chRsum h → (s.coll.plan.find? fun c => c.collId == chColl h) = some c →
      let k := 4 * c.die + stack % 4
      let final := chPhase h = 1 ∨ chProgram h = 5 ∨ chProgram h = 7
      ∃ t, exec (.chunkReceive sender h p stack) s = .next t ∧
      t = { s with coll := t.coll, yard := { s.yard with sent := t.yard.sent, msgNext := t.yard.msgNext }, ports := t.ports, ctr := t.ctr } ∧
      (s.slotFor c sender (chStep h) ≠ none ∨ s.stagedBytes k + 32 + p.length ≤ 2 ^ 24 → t.coll.landed = s.coll.landed ++ [⟨chColl h, sender, chStep h, chItem h, decide final⟩]) ∧
      (s.slotFor c sender (chStep h) ≠ none ∨ s.stagedBytes k + 32 + p.length ≤ 2 ^ 24 → final → t.coll.chunks = s.coll.chunks ∧ t.coll.busy = s.coll.busy ∧
        t.coll.sums = Sparse.set [] s.coll.sums (sumKey (chColl h) (chItem h) (chNum h)) (payloadWords p) ∧
        t.yard.sent = s.yard.sent ++ (s.onwardTo c (chItem h)).map fun m => .chunk m c.vc h p) ∧
      (∀ n, s.slotFor c sender (chStep h) = some n → ¬final → t.ports = s.ports ∧ t.coll.busy = s.coll.busy ++ [n] ∧
        t.coll.chunks = s.coll.chunks ++ [⟨chColl h, sender, chItem h, chStep h, chNum h, p, some n, k, true⟩] ∧ t.coll.sums = s.coll.sums ∧ t.yard.sent = s.yard.sent) ∧
      (s.slotFor c sender (chStep h) = none → s.stagedBytes k + 32 + p.length ≤ 2 ^ 24 → ¬final →
        t.ports = s.ports ∧ t.coll = { s.coll with landed := t.coll.landed, chunks := s.coll.chunks ++ [⟨chColl h, sender, chItem h, chStep h, chNum h, p, none, k, true⟩] }) ∧
      (s.slotFor c sender (chStep h) = none → 2 ^ 24 < s.stagedBytes k + 32 + p.length → t.coll = s.coll ∧
        t.ports = Sparse.mapVals {} (fun _ (q : LinkPort) => q.withhold sender c.vc) s.ports))) ∧
  (∀ (s : State) (sender stack : Nat) (h : BitVec 256) (p : List Byte), s.hasStack stack = false →
    exec (.chunkReceive sender h p stack) s = .fault (.absentPart "stack"))

/-- COMBINE of a tree or ring program while the module works: a residue mismatch makes the attempt FAIL; otherwise the result is the FP32 sum word by word, the lower-ranked item on
the left, or the merge of partial records for an attention program; the chunks it consumed leave their slots, and the result goes as a chunk to the members that need it next
(R524, R527 to R531, R536, R537, R539, R543). A combine out of its place in the order, whose operands are not those held for it, or that merges records out of ascending FIRST_POS, changes nothing (R525, R527, R529, R531). Nothing outside
reduction memory, the links, flags and counters changes. Which part the fail record names is log 54; that a member's own contribution is read from stage memory where the plan says is log 20. -/
def Sys2Proof.Machine.Combines : Prop :=
  ∀ (s : State) (coll item step chunk : Nat) (l r : List W32) (c : CollPlan), s.working = true →
    (s.coll.plan.find? fun c => c.collId == coll) = some c → l.length = r.length → c.program = 1 ∨ c.program = 2 ∨ c.program = 3 ∨ c.program = 4 ∨ c.program = 6 →
    (s.combineOk c item step chunk l r = false → ∀ b, exec (.combine coll item step chunk l r b) s = .next s) ∧
    (c.program = 6 → mergeOrdered s.headDim l r = false → ∀ b, exec (.combine coll item step chunk l r b) s = .next s) ∧
    (s.combineOk c item step chunk l r = true → c.program ≠ 6 ∨ mergeOrdered s.headDim l r = true → ∃ t, exec (.combine coll item step chunk l r false) s = .next t ∧
      t = { s with tick := { s.tick with fails := t.tick.fails }, ctr := t.ctr } ∧ t.tick.fails.length = s.tick.fails.length + 1) ∧
    (s.combineOk c item step chunk l r = true → c.program ≠ 6 ∨ mergeOrdered s.headDim l r = true → ∃ t, exec (.combine coll item step chunk l r true) s = .next t ∧
      let ws := (s.combineWords (coreNo c.die c.core) c.program l r).1
      let d := s.sendsTo c item step chunk
      let payload := ws.flatMap fun w => leBytes 4 w.toNat
      (∃ back, (∀ m, m ∈ back → ∃ n v b k, m = .creditReturn n v b k) ∧ t.yard.sent = s.yard.sent ++ back ++ d.1.map fun m => .chunk m c.vc (s.chunkHeader c d.2.1 d.2.2 item chunk payload) payload) ∧
      t = { s with coll := t.coll, ports := t.ports, yard := { s.yard with sent := t.yard.sent, msgNext := t.yard.msgNext }, fore := { s.fore with flags := t.fore.flags }, ctr := t.ctr } ∧ t.coll.plan = s.coll.plan ∧ t.coll.grants = s.coll.grants ∧
      t.coll.sums = Sparse.set [] s.coll.sums (sumKey coll item chunk) ws ∧
      (c.program = 6 → ws = (mergeWords (s.envOf (coreNo c.die c.core)) s.headDim l r).1) ∧
      (c.program ≠ 6 → ws = (l.zip r).map fun p => BitVec.ofNat 32 (Fp.fp32.stored (add32 s.ovf p.1.toNat p.2.toNat).1)) ∧
      t.coll.chunks = s.coll.chunks.filter fun x => !(x.coll == coll && x.step == step && x.num == chunk && (x.item == item || x.item == item + 2 ^ (step - 1))))

/-- A step with no command waiting, while the module works and a contribution of this member is due: its chunks go, in order, to the members that need them first, and nothing else
changes but that it counts as gone (R524, R525, R527, R529, R532, R537). That this happens on an empty queue is log 3. -/
def Sys2Proof.Machine.OwnSent : Prop :=
  ∀ (s : State) (c : CollPlan) (p : OwnPart), s.pending = [] → s.working = true → s.ownDue = some (c, p) →
    let item := s.ownItem c p
    let n := ceilDiv ((s.ownBytes c item).getD []).length c.chunk
    ∃ t, step s = .next t ∧
      t = { s with coll := { s.coll with begun := s.coll.begun ++ [(c.collId, p.rank)] }, ports := t.ports, yard := { s.yard with sent := t.yard.sent, msgNext := t.yard.msgNext } } ∧
      t.yard.sent = s.yard.sent ++ (List.range n).flatMap fun i =>
        match s.ownWords c item i with
        | none => []
        | some ws =>
          let payload := ws.flatMap fun w => leBytes 4 w.toNat
          let d := s.ownTo c item i
          d.1.map fun m => .chunk m c.vc (s.chunkHeader c d.2.1 d.2.2 item i payload) payload

/-- Chunks landing in reduction memory and their combines (R527 to R546). -/
def Obligations.CollectiveChunks : Prop := ChunksLand ∧ Combines ∧ OwnSent

/-! ### Matrix work on a core (R151 to R209, R262 to R273) -/

/-- TASK_ISSUE of a plain task: when its checks pass the context runs from its first tile with RN(1 / S_OUT) formed, and its first loads, A before B, are requested; when a check fails
its task ends as failed with that code, its request ends with it, and the blaze clears (R126, R151, R189 to R195, R255, R265). Another context does not start. -/
def Sys2Proof.Machine.TasksIssue : Prop :=
  ∀ (s : State) (die core n : Nat), s.hasCore die core = true → s.working = true → (s.core (coreNo die core)).running = some n →
    let k := coreNo die core
    let c := s.ctx k n
    let q := (s.stand (k / 8)).queue
    c.st = .loaded → (s.core k).hasFns c.fns = true → s.bankCurrent k = true → s.blazed c (memWords c.desc) = false → s.producerFault c = none →
    dKind c.desc ≠ 1 →
    (s.checkCtx k n = none → (c.desc = [] ∨ (c.readBounds (s.die (k / 128)).stage).emptyIssue = false) → ∃ t, exec (.taskIssue die core n) s = .next t ∧
      t = { s with cores := t.cores, stands := t.stands, fore := { s.fore with flags := t.fore.flags }, ctr := t.ctr } ∧
      (t.ctx k n).st = .running ∧ (t.ctx k n).prob = 0 ∧ (t.ctx k n).groups = [] ∧ (t.ctx k n).haveA = false ∧ (t.ctx k n).haveB = false ∧
      (∀ i, i ∈ (t.ctx k n).idx → i = 0) ∧ (t.ctx k n).rcpOut = BitVec.ofNat 32 (div32 s.ovf one32 (tSOut c.treg)).1 ∧
      (∀ m, m ≠ n → t.ctx k m = s.ctx k m) ∧ (∀ j, j ≠ k → t.core j = s.core j) ∧
      t.stand (k / 8) = { s.stand (k / 8) with queue := q ++ (if c.desc = [] then [] else
        ([⟨k, n, c.task, true, false, false⟩, ⟨k, n, c.task, false, false, false⟩] : List PortReq).filter fun r =>
          !(q.contains r) && (s.stand (k / 8)).granted != some r) }) ∧
    (∀ code, s.checkCtx k n = some code → ∃ t, exec (.taskIssue die core n) s = .next t ∧
      t = { s with cores := t.cores, dies := t.dies, stands := t.stands, ctr := t.ctr, reqs := t.reqs, fore := { s.fore with cleared := t.fore.cleared, failTasks := t.fore.failTasks } } ∧
      c.task ∈ t.fore.cleared ∧ (c.task, BitVec.ofNat 16 code) ∈ t.fore.failTasks ∧
      (s.memsOk → ∀ d, t.die d = { s.die d with streams := (t.die d).streams, layers := (t.die d).layers }) ∧
      (∀ rid r, c.req = some rid → r ∈ t.reqs → r.rid = rid → r.stage = .finishing) ∧
      ((s.core k).todo.find? (fun x => x.2.ctx == n) = none → (t.ctx k n).st = .faulted))

/-- STAND_PORT_GRANT and TILE_LOAD_COMPLETE: the earliest request whose bytes are present takes a free port and no other leaves the queue; the load then fills its half of its operand's
region with the bytes that it reads from stage memory and frees the port; the rest of the operand buffer, the other cores and stage memory keep every byte, and a load whose task is gone only frees the
port (R174, R262, R265 to R267). Ties in the queue order are log 17. -/
def Sys2Proof.Machine.TileLoads : Prop :=
  (∀ (s : State) (die st : Nat) (r : PortReq), s.hasDie die = true → st < 16 → s.working = true → (s.stand (standNo die st)).granted = none →
    (s.stand (standNo die st)).queue.find? s.grantable = some r → ∃ t, exec (.standPortGrant die st) s = .next t ∧
      t = { s with stands := t.stands, ctr := t.ctr } ∧ (∀ n, n ≠ standNo die st → t.stand n = s.stand n) ∧
      t.stand (standNo die st) = { s.stand (standNo die st) with granted := some r, queue := (s.stand (standNo die st)).queue.erase r }) ∧
  (∀ (s : State) (die st : Nat) (r : PortReq), s.hasDie die = true → st < 16 → s.working = true → (s.stand (standNo die st)).granted = some r →
    let c := s.ctx r.core r.ctx
    (s.loadStands r = true → ∃ t, exec (.tileLoadComplete die st) s = .next t ∧
      t = { s with cores := t.cores, stands := t.stands, dies := t.dies, fore := { s.fore with flags := t.fore.flags }, ctr := t.ctr } ∧
      (t.stand (standNo die st)).granted = none ∧ (∀ d, (t.die d).stage = (s.die d).stage) ∧ (∀ j, j ≠ r.core → t.core j = s.core j) ∧
      (t.core r.core).buf = Mem.write (s.core r.core).buf (halfBase c.desc r.isA (c.loadHalf r.isA r.next))
        ((c.loading r.next).loadImage (s.die (r.core / 128)).stage r.isA (r.core % 8))) ∧
    (s.loadStands r = false → exec (.tileLoadComplete die st) s = .next (s.setStand (standNo die st) { s.stand (standNo die st) with granted := none })))

/-- CONTEXT_SWITCH: at a task or group boundary whose loads wait, the earliest context in plan order whose loads are present runs; the context left keeps its place, is suspended if it ran, and
holds no operand (R270 to R273). Stage memory and the other cores stay. The 32 cycles are left out (log 6); that a context that holds rows of its neighbour stays is log 60. -/
def Sys2Proof.Machine.ContextSwitches : Prop :=
  ∀ (s : State) (die core n m : Nat), s.hasCore die core = true → s.working = true → (s.core (coreNo die core)).running = some n →
    let k := coreNo die core
    let c := s.ctx k n
    (c.haloGot = true → exec (.contextSwitch die core) s = .next s) ∧
    (s.readyCtx k n = some m → m ≠ n → c.atBoundary = true → c.haloGot = false → s.loadsWait die (core % 8) (c.opened (s.die die).stage) = true →
    (s.stand (k / 8)).granted.any (fun r => r.core == k) = false →
    ∃ t, exec (.contextSwitch die core) s = .next t ∧ t = { s with cores := t.cores, stands := t.stands, ctr := t.ctr } ∧
      (t.core k).running = some m ∧ (t.core k).acc = [] ∧ (t.core k).buf = (s.core k).buf ∧ (∀ j, j ≠ k → t.core j = s.core j) ∧
      t.ctx k n = { c with st := if c.st = .running then .suspended else c.st, haveA := false, haveB := false, nextA := false, nextB := false, halfA := false, halfB := false, half := 0 } ∧
      t.ctx k m = { s.ctx k m with st := if (s.ctx k m).st = .suspended then .running else (s.ctx k m).st })

/-- Issuing a task and switching contexts (R189 to R195, R270 to R273). -/
def Obligations.ContextRuns : Prop := TasksIssue ∧ ContextSwitches

/-- HALO_COPY: a core that has its own rows takes the rows outside its tile from the operand buffer of its neighbour in the same task and place; the neighbour's buffer, stage memory and
every other core stay (R206, R207). -/
def Sys2Proof.Machine.HaloCopies : Prop :=
  ∀ (s : State) (die core n m : Nat) (c x : Ctx), s.hasCore die core = true → s.working = true →
    let k := coreNo die core
    let h := dHalo c.desc
    let nb := if 0 < h then k + 1 else k - 1
    let rows := aRows c.desc
    let w := elemBytes (dFmtA c.desc) (dKT c.desc)
    let e := if blkLen (dBlkA c.desc) = 0 then 0 else dKT c.desc / blkLen (dBlkA c.desc)
    let dst := if 0 < h then dMT c.desc else 0
    let src := if 0 < h then 0 else dMT c.desc
    let to' := c.tileAt true
    let from' := x.tileAt true
    s.runningCtx k = some (n, c) → s.runningCtx nb = some (m, x) → (0 < h ∧ core % 8 < 7) ∨ (h < 0 ∧ 0 < core % 8) →
    c.st = .running → c.haveA = true → c.haloGot = false → c.ended = false → x.st = .running → x.haveA = true → x.ended = false → x.task = c.task → x.idx = c.idx → x.prob = c.prob →
    ∃ t, exec (.haloCopy die core) s = .next t ∧
      t = { s with cores := t.cores, stands := t.stands, fore := { s.fore with flags := t.fore.flags }, ctr := t.ctr } ∧
      (t.core k).buf = copyBytes (copyBytes (s.core k).buf (to' + dst * w) (s.core nb).buf (from' + src * w) (h.natAbs * w))
        (to' + rows * w + dst * e) (s.core nb).buf (from' + rows * w + src * e) (h.natAbs * e) ∧
      (t.core nb).buf = (s.core nb).buf ∧ ∀ j, j ≠ k → j ≠ nb → t.core j = s.core j

/-- Tile loads through the stand port, and halo copies (R206, R207, R262 to R267). -/
def Obligations.OperandLoads : Prop := TileLoads ∧ HaloCopies

/-- An address that the store of the output tile draining next writes: a byte of one of its rows or one of its block exponents. The tile is that of the oldest group. -/
def Sys2Proof.Machine.storesAt (c : Ctx) (g : TileGroup) (a : Nat) : Prop :=
  let x := c.outSite g.prob
  let off := tileOff c.desc 2 (c.liveIdx g.idx c.drained)
  let n := if blkLen x.blk = 0 then 1 else blkLen x.blk
  let bb := blkLen x.blk * fmtBits x.fmt / 8
  ∃ i, i < dMT c.desc ∧
    (((x.base + (off + (i * x.pitch : Nat))).toNat ≤ a ∧ a < (x.base + (off + (i * x.pitch : Nat))).toNat + elemBytes x.fmt x.cols) ∨
     (bb ≠ 0 ∧ ∃ b, b < x.cols / n ∧ a = (x.exps + ((off + (i * x.pitch : Nat)) + (b * bb : Nat)) / bb).toNat))

/-- What storing an output tile of these FP32 values leaves: its rows, chained and converted, in stage memory, and every other byte of stage memory, the operand regions and the other cores as they
were; after a live tile that is not the group's last, the next one stands to drain. -/
def Sys2Proof.Machine.tileStored (s t : State) (k n : Nat) (c : Ctx) (g : TileGroup) (vals : List Nat) : Prop :=
  t = { s with cores := t.cores, dies := t.dies, stands := t.stands, fore := { s.fore with flags := t.fore.flags, cleared := t.fore.cleared }, ctr := t.ctr } ∧
  (∀ d, d ≠ k / 128 → t.die d = s.die d) ∧ (t.die (k / 128)).stage = ((s.storeTile k n (dChain c.desc) vals).die (k / 128)).stage ∧
  (∀ a, ¬storesAt c g a → Mem.read (t.die (k / 128)).stage a = Mem.read (s.die (k / 128)).stage a) ∧
  (∀ a, a < stagingBase c.desc → Mem.read (t.core k).buf a = Mem.read (s.core k).buf a) ∧ (∀ j, j ≠ k → t.core j = s.core j) ∧
  (c.drained + 1 < c.liveTiles → t.ctx k n = { c with staged := false, stagHalf := c.fused && !c.stagHalf, drained := c.drained + 1 })

/-- TILE_DRAIN and SEPARATE_CHAIN_PASS: a finished tile whose chain is fused or empty is scaled, chained, converted and stored at once; any other is scaled into FP32 staging, from where the vector pass
chains, converts and stores it; a store writes the tile's rows and exponents in its die's stage memory and no other byte, and the operand regions stay (R125, R174, R201 to R204). -/
def Obligations.TilesDrain : Prop :=
  ∀ (s : State) (die core n : Nat) (c : Ctx) (g : TileGroup) (gs : List TileGroup), s.hasCore die core = true → s.working = true →
    let k := coreNo die core
    s.runningCtx k = some (n, c) → c.st = .running → c.groups = g :: gs →
    (c.staged = false → c.fused = false → dChainLen c.desc ≠ 0 → ∃ t, exec (.tileDrain die core) s = .next t ∧
      t = { s with cores := t.cores, fore := { s.fore with flags := t.fore.flags }, ctr := t.ctr } ∧ (∀ j, j ≠ k → t.core j = s.core j) ∧
      t.ctx k n = { c with staged := true } ∧
      (t.core k).buf = Mem.write (s.core k).buf (stagingBase c.desc) ((s.scaledTile k c).1.flatMap fun y => leBytes 4 y)) ∧
    (c.staged = false → c.fused = true ∨ dChainLen c.desc = 0 → ∃ t, exec (.tileDrain die core) s = .next t ∧ tileStored s t k n c g (s.scaledTile k c).1) ∧
    (c.staged = true → ∃ t, exec (.separateChainPass die core) s = .next t ∧
      tileStored s t k n c g (leWords 4 (Mem.bytes (s.core k).buf (stagingBase c.desc) (4 * (dMT c.desc * dNT c.desc)))))

/-- COMPLETION_MESSAGE and FUNCTION_TABLE_FILL: a task of another module counts as ended; a core's idle bank takes from its die's function store the records of the next tick's set when that differs from the
current one, and the current bank stays; a sleeping stand's core fills nothing, nor does a set that a bank cannot hold enter one (R223, R224, R226, R227, R229, R254). -/
def Obligations.MessagesAndTables : Prop :=
  (∀ (s : State) (task : Nat), s.working = true →
    exec (.completionMessage task) s = .next { s with fore := { s.fore with cleared := s.fore.cleared ++ [task] } }) ∧
  (∀ (s : State) (die core : Nat), s.hasCore die core = true → s.ticking = true →
    let k := coreNo die core
    let c := s.core k
    ((s.stand (k / 8)).asleep = true ∨ s.setFits c.want = false → exec (.functionTableFill die core) s = .next s) ∧
    (c.needsFill = true → c.filled = false → (s.stand (k / 8)).asleep = false → s.setFits c.want = true → ∃ t, exec (.functionTableFill die core) s = .next t ∧
      t = { s with cores := t.cores, ctr := t.ctr } ∧ (∀ j, j ≠ k → t.core j = s.core j) ∧ (t.core k).bank = c.bank ∧ (t.core k).filled = true ∧
      (if c.curBank then (t.core k).bank0 else (t.core k).bank1) =
        { valid := false, gen := 0, progs := c.want.filterMap fun id => recordAt (s.die die).stage (s.storeSlot die id) }))

/-! ### Vector passes and attention (R224 to R246, R330, R338 to R378, R616, R617) -/

/-- What a vector pass over one row leaves: its results, scaled by RN(1 / s_out) and converted, at its destination in stage memory as `stage` has it, no other byte of stage memory changed, and its task
ended. -/
def Sys2Proof.Machine.rowPassed (s t : State) (die core n : Nat) (job : RowJob) (stage : Mem) (r : List Nat) : Prop :=
  let k := coreNo die core
  let v := s.convertRun k job.fmt false (s.rnd == 2) (div32 s.ovf one32 job.sOut.toNat).1 (· % laneCount s.sys.compat) r (s.drainOf k)
  t = { s with cores := t.cores, dies := t.dies, stands := t.stands, fore := { s.fore with flags := t.fore.flags, cleared := t.fore.cleared }, ctr := t.ctr } ∧
  (∀ d, d ≠ die → t.die d = s.die d) ∧ (t.die die).stage = Mem.write stage job.dst (packCodes job.fmt v.1) ∧
  ((s.core k).todo.find? (fun x => x.2.ctx == n) = none → (t.ctx k n).st = .done) ∧ ∀ j, j ≠ k → t.core j = s.core j

/-- NORMALISATION and SOFT_MAXIMUM: the row's outputs are RMS or Layer normalisation as the model says, or the soft maximum of the row, of its elements times their tensor's scale, converted with the pass's
output format; the soft maximum leaves its exponentials in its working space (R124, R232 to R240). -/
def Sys2Proof.Machine.RowPasses : Prop :=
  (∀ (s : State) (die core n : Nat) (c : Ctx) (job : RowJob), s.hasCore die core = true → s.working = true → 1 ≤ job.len → job.len ≤ 32768 →
    normalPos32 job.sGain.toNat = true → s.normKind = 0 ∨ normalPos32 job.sBias.toNat = true → s.rowOk die c job (s.normReads job) = true →
    s.vecCtx (coreNo die core) job.task [4] = some (n, c) →
    let v := s.envOf (coreNo die core)
    let f := (s.streamFmt 7).1
    let xs := (s.rowAt die job.src job.len job.srcFmt job.sIn).1
    let gs := (s.rowAt die job.gain job.len f job.sGain).1
    ∃ t, exec (.normalisation die core job) s = .next t ∧
      rowPassed s t die core n job (s.die die).stage (if s.normKind = 0 then (rmsNorm v s.normEps xs gs).1
        else (layerNorm v s.normEps xs gs (s.rowAt die job.bias job.len f job.sBias).1).1)) ∧
  (∀ (s : State) (die core n : Nat) (c : Ctx) (job : RowJob), s.hasCore die core = true → s.working = true → 1 ≤ job.len → job.len ≤ 1048576 →
    c.hasSpace job.work (4 * job.len) = true → s.rowOk die c job [rowRange job.src job.len job.srcFmt] = true →
    s.vecCtx (coreNo die core) job.task [1] = some (n, c) →
    let v := s.envOf (coreNo die core)
    let xs := (s.rowAt die job.src job.len job.srcFmt job.sIn).1
    ∃ t, exec (.softMaximum die core job) s = .next t ∧
      rowPassed s t die core n job (Mem.write (s.die die).stage job.work (f32Bytes (softWork v xs))) (softmax v xs).1)

/-- ROTARY_ROTATION: every row turns in place by the angles of its position, and no other byte of stage memory changes (R342, R343). -/
def Sys2Proof.Machine.Rotations : Prop :=
  ∀ (s : State) (die core n task addr rows : Nat) (ps : List Nat) (c : Ctx), s.hasCore die core = true → s.working = true → ps.length = rows →
    s.vecCtx (coreNo die core) task [7, 8] = some (n, c) → s.rangesWait die c [(addr, 4 * s.headDim * rows)] = false →
    s.mayWrite die (addr, 4 * s.headDim * rows) = true → ∃ t, exec (.rotaryRotation die core task addr rows ps) s = .next t ∧
      t = { s with cores := t.cores, dies := t.dies, stands := t.stands, fore := { s.fore with flags := t.fore.flags, cleared := t.fore.cleared }, ctr := t.ctr } ∧
      (∀ d, d ≠ die → t.die d = s.die d) ∧ ((s.core (coreNo die core)).todo.find? (fun x => x.2.ctx == n) = none → (t.ctx (coreNo die core) n).st = .done) ∧
      (t.die die).stage = (List.range rows).foldl (fun m i => Mem.write m (addr + 4 * s.headDim * i)
        (f32Bytes (rotateRow (s.envOf (coreNo die core)) s.img.freqs (ps[i]?.getD 0)
          ((leWords 4 (Mem.bytes m (addr + 4 * s.headDim * i) (4 * s.headDim))).map Fp.fp32.stored)).1)) (s.die die).stage

/-- Row passes and rotation on the vector unit (R232 to R240, R342, R343). -/
def Obligations.VectorRows : Prop := RowPasses ∧ Rotations

/-- BLOCK_FOLD: one block folds into the partial record of every query row, the records go back to their places in stage memory and no other byte changes; the task ends with its last block
(R338, R349 to R354). The block is one that its request may fold, in its order (R340, R347, R349). A row's record is the fold of the block into the record that stood there, or into the empty one, normalised after the last block; the query block is converted once for a task (R346). A scale that is not positive, finite and normal faults the task with SCALE_INVALID (R151). -/
def Obligations.BlocksFold : Prop :=
  ∀ (s : State) (die core n : Nat) (c : Ctx) (job : FoldJob), s.hasCore die core = true → s.working = true →
    let k := coreNo die core
    let d := s.headDim
    let rows := job.qpos.length * s.group
    let qb : Nat × List (List Nat × List Nat) := match c.converted job.q rows with
      | some x => x
      | none => let x := s.queryRows k ((List.range rows).map fun i => s.stageWords die (job.q + 4 * d * i) d) (s.drainOf k); (x.2.1, x.1)
    let reads := (if c.converted job.q rows = none then [(job.q, 4 * d * rows)] else []) ++ s.blockRanges job.block
    s.vecCtx k job.task [1] = some (n, c) → s.foldOk die c job = true → s.rangesWait die c reads = false → s.mayWrite die (job.state, (32 + 4 * d) * rows) = true →
    (scalesBad job = true → ∃ t, exec (.blockFold die core job) s = .next t ∧
      t = { s with cores := t.cores, dies := t.dies, stands := t.stands, ctr := t.ctr, reqs := t.reqs, fore := { s.fore with cleared := t.fore.cleared, failTasks := t.fore.failTasks } } ∧
      c.task ∈ t.fore.cleared ∧ (c.task, 0x106) ∈ t.fore.failTasks ∧
      (s.memsOk → ∀ d, t.die d = { s.die d with streams := (t.die d).streams, layers := (t.die d).layers })) ∧
    (scalesBad job = false → ∃ t, exec (.blockFold die core job) s = .next t ∧
      t = { s with cores := t.cores, dies := t.dies, stands := t.stands, reqs := t.reqs, fore := { s.fore with flags := t.fore.flags, cleared := t.fore.cleared }, ctr := t.ctr } ∧
      (∀ e, e ≠ die → t.die e = s.die e) ∧
      (job.last = true → (s.core k).todo.find? (fun x => x.2.ctx == n) = none → (t.ctx k n).st = .done) ∧ (job.last = false → (t.ctx k n).st = .running) ∧
      (∀ a, a < job.state ∨ job.state + (32 + 4 * d) * rows ≤ a → Mem.read (t.die die).stage a = Mem.read (s.die die).stage a) ∧
      ∀ r, r < rows →
        let at' := job.state + (32 + 4 * d) * r
        let x := if job.fresh then s.emptyPartial job r else s.partialAt die at'
        let f := (s.foldRow k job (s.blockData die job).1 (s.queryVals (qb.2[r]?.getD ([], []))) qb.1 r x).1
        let p : Partial := if job.normalise then { f with o := (rowOutput s.ovf ⟨f.m, f.l, f.o⟩).map Prod.fst } else f
        Mem.bytes (t.die die).stage at' (32 + 4 * d) = p.stored.words.flatMap fun w => leBytes 4 w.toNat)

/-- TOKEN_CHOICE: drafts are accepted while each equals the token chosen, then the first that differs or the token after the last draft is taken, up to a stop token, MAX_TOKENS or L_MAX; the tokens
stand staged for the log and for the request, and no committed log changes (R612, R614, R616, R617). -/
def Obligations.TokensChosen : Prop :=
  ∀ (s : State) (die core rid : Nat) (logits : List (List W32)) (r : Req) (q : Seq), s.hasCore die core = true → s.working = true →
    s.req rid = some r → s.seq r.handle = some q → r.opcode = 3 →
    r.stage = .admitted → r.newTokens = [] → r.dataRead = true → r.pieces = 0 → q.lost = false → s.seqHeld r.handle = false → q.log.length ≤ q.kvStaged →
    (v32 r.e.w5).isZero = true ∨ (s.core (coreNo die core)).hasFns [1] = true →
    let drafts : List W32 := if r.e.drafts = 0 then [] else tokensOf r.data
    let u := takeTokens r.e q.lMax r.tokens q.log.length (stepTokens (s.envOf (coreNo die core)) r.e logits drafts q.log.length).1
    logits.length = drafts.length + 1 → (∀ l, l ∈ logits → l.length = s.vocab) → ∃ t, exec (.tokenChoice ⟨die, core, rid⟩ logits) s = .next t ∧
      t = { s with reqs := t.reqs, seqs := t.seqs, fore := { s.fore with flags := t.fore.flags }, ctr := t.ctr } ∧
      t.req rid = some { r with newTokens := u.1, endReason := u.2.getD 3 } ∧ t.seq r.handle = some { q with logStaged := u.1 } ∧
      (t.seqs.map fun x => (x.handle, x.log)) = s.seqs.map fun x => (x.handle, x.log)

/-- SKETCH_TASK: a page committed full in the last tick gets the sketch of its key sum in its sideband and in the sketch table, its SKETCH_VALID is staged, and its work is done; HBM data but for the table's entry, every
other sideband and the committed page list stay; page copies of the stack and tick messages go ahead of it (R33, R45, R330, R363). -/
def Sys2Proof.Machine.SketchesWritten : Prop :=
  ∀ (s : State) (die core v : Nat) (h sK : W32) (q : Seq), s.hasCore die core = true → s.working = true → s.seq h = some q → v < q.vpages →
    (h, v) ∈ s.fore.sketchQ → leafTier (q.entry v) = 0 → frameDie (leafFrame (q.entry v)) = die → normalPos32 sK.toNat = true →
    (s.held (.stack (leafFrame (q.entry v) / 2 ^ 22)) = true → exec (.sketchTask die core h v sK) s = .next s) ∧
    (s.held (.stack (leafFrame (q.entry v) / 2 ^ 22)) = false →
    let f := leafFrame (q.entry v)
    let k := (sketchOf s.ovf s.img.sketch (s.keySum f sK.toNat).1).1
    ∃ t, exec (.sketchTask die core h v sK) s = .next t ∧
      t = { s with hbm := { s.hbm with data := t.hbm.data, side := t.hbm.side }, seqs := t.seqs, sketches := t.sketches, fore := { s.fore with sketchQ := s.fore.sketchQ.erase (h, v) }, ctr := t.ctr } ∧
      t.hbm.data = (match q.tableAddr v with | some a => Mem.write s.hbm.data a (leBytes 32 k.toNat) | none => s.hbm.data) ∧
      t.hbm.side = Mem.write s.hbm.side (f * 1024) (leBytes 1024 (sbPut (s.hbmSide f) 4096 256 k.toNat)) ∧ (h, v, k) ∈ t.sketches ∧
      (∃ x, t.seq h = some x ∧ x.root0 = q.root0 ∧ x.root1 = q.root1 ∧ x.cur = q.cur ∧ x.stageTick = s.tick.num))

/-- PAGE_RANKING: under retrieval the best TOP pages by sketch distance join the sinks, the window and the pages without a sketch; without it every page is selected. The ranking is kept for the
sequence, the selection for the request's layer and head, and the sketch of each query position for its commit (R359 to R367). -/
def Sys2Proof.Machine.PagesRanked : Prop :=
  ∀ (s : State) (die core rid layer head : Nat) (qs : List (List W32)) (r : Req) (q : Seq), s.hasCore die core = true → s.working = true → s.req rid = some r → s.seq r.handle = some q →
    r.stage = .admitted → 0 < s.group →
    let rows := qs.map fun x => x.map BitVec.toNat
    let k := (sketchOf s.ovf s.img.sketch (vecSum s.ovf s.headDim rows).1).1
    let best := if s.retrieves r then (s.rankPairs q layer head k).take s.retTop else []
    let per := (List.range (rows.length / s.group)).map fun i => (sketchOf s.ovf s.img.sketch (vecSum s.ovf s.headDim ((rows.drop (i * s.group)).take s.group)).1).1
    ∃ t, exec (.pageRanking ⟨die, core⟩ rid layer head qs) s = .next t ∧
      t = { s with dies := t.dies, seqs := t.seqs, fore := { s.fore with qpend := s.fore.qpend ++ [(rid, layer, head, per)], flags := t.fore.flags }, ctr := t.ctr } ∧
      (∀ d, d ≠ die → t.die d = s.die d) ∧ (t.die die).stage = (s.die die).stage ∧
      (rid, layer, head, s.alwaysPages (s.retrieves r) q layer head ++ best.map Prod.snd) ∈ (t.die die).ranked ∧
      (∃ x, t.seq r.handle = some x ∧ x = { q with rank := x.rank } ∧ x.rank.take best.length = best.map Prod.snd)

/-- Page sketches and page ranking (R330, R359 to R367). -/
def Obligations.SketchesAndRanking : Prop := SketchesWritten ∧ PagesRanked

/-- RING_STEP_FOLD: the runs of the member that lies `step` places behind fold in step order, and within a step in ring order; they are forwarded until the last step. At step 0 they are the member's own
runs of its ring, committed runs among them. After the last step of every ring the next pass begins anew (R376). The round runs where its subcube lies and its members are all in the crew (R371, R378), and what came before has been folded. Nothing else changes (R370, R372, R373, R375). -/
def Obligations.RingSteps : Prop :=
  ∀ (s : State) (round ring step member base k : Nat) (runs : List Nat), s.working = true → s.ringOf round = some (base, k) → s.onRound base k = true → s.runsFolded round = true → ring ∈ s.ringsUsed k → step < 2 ^ k →
    let o := ringOrder s.img.crossed k ring s.crew.coord
    let done := (s.ringPass round k step).1
    member = (o[(indexIn o s.crew.coord + 2 ^ k - step % 2 ^ k) % 2 ^ k]?.getD s.crew.coord) → step * 64 + ring ∉ done →
    (step = 0 → runs = onRing (s.ringsUsed k) ring (s.ownBlock round k)) → s.stepRunsOk round k ring step member runs = true →
    (∀ r, r ∈ s.ringsUsed k → r < ring → step * 64 + r ∈ done) → (step = 0 ∨ ∀ r, r ∈ s.ringsUsed k → (step - 1) * 64 + r ∈ done) →
    ∃ t, exec (.ringStepFold round ring step ⟨member, runs⟩) s = .next t ∧
      t = { s with fore := { s.fore with ringStep := Sparse.set [] s.fore.ringStep round (done ++ [step * 64 + ring]), ringRuns := Sparse.set [] s.fore.ringRuns round ((s.ringPass round k step).2 ++ runs) }, yard := { s.yard with sent := t.yard.sent } } ∧
      t.yard.sent = if step + 1 < 2 ^ k then s.yard.sent ++ [.chunkForward round ring step runs] else s.yard.sent

/-! ### Streams, walks and key-value pages (R247 to R318, R332) -/

/-- STREAM_GRANT: the winner of a point moves on by what it asked for, at most 16 KiB, its buffer paying at the first point of the path; at the last point the bytes reach its die's stage memory at the
entry's place and nowhere else (R256 to R262). A search unit that wins its channel reads its record (R455). Page copies hold a stack, and waiting tick messages every point (R33, R45); with no
eligible stream nothing moves. What another module sends is a free value (log 8); ties that R259 leaves open are log 53. -/
def Obligations.StreamsGranted : Prop :=
  (∀ (s : State) (p : ArbPoint) (n d : Nat) (r : StreamReq), s.hasPoint p = true → s.working = true → s.unitWins p = none → s.winner p = some (n, d) →
    let x := Sparse.get {} (s.die d).streams n
    (s.held p = false → s.requestAt d x p = some r → r.bytes ≤ 16384 ∧ (r.first = true → r.bytes ≤ x.room) ∧
      ∃ src unit addr dst len readers layer y z t, x.items[r.slot]? = some y ∧ y.item = .fetch src unit addr dst len readers layer ∧ exec (.streamGrant p) s = .next t ∧
        t = { s with dies := t.dies, ctr := t.ctr, freeIx := t.freeIx } ∧ (∀ e, e ≠ d → t.die e = s.die e) ∧
        (t.die d).stage = (if r.last then Mem.write (s.die d).stage (dst + r.off) (s.sourceBytes r.src (addr + r.off) r.bytes layer).1 else (s.die d).stage) ∧
        z = Sparse.get {} (t.die d).streams n ∧ z.items = (x.take r).items ∧
        z.buffered = (if r.first then x.buffered + r.bytes else x.buffered) ∧ z.room = (if r.first then x.room - r.bytes else x.room) ∧
        z.arrived = (if r.last then x.arrived ++ [⟨dst + r.off, r.bytes, readers, layer⟩] else x.arrived) ∧
        ∀ m, m ≠ n → Sparse.get {} (t.die d).streams m = Sparse.get {} (s.die d).streams m) ∧
    (s.held p = true → ∃ t, exec (.streamGrant p) s = .next t ∧ t = { s with ctr := t.ctr })) ∧
  (∀ (s : State) (p : ArbPoint) (ch slot node : Nat), s.hasPoint p = true → s.working = true → s.unitWins p = some (ch, slot, node) → ∃ t, exec (.streamGrant p) s = .next t ∧
    (s.held p = true → t = s) ∧ (s.held p = false →
    t = { s with searches := t.searches, ctr := t.ctr } ∧ t.searches = s.searches.map fun x => if x.slot = slot then { x with read := x.read ++ [node] } else x)) ∧
  (∀ (s : State) (p : ArbPoint), s.hasPoint p = true → s.unitWins p = none → s.winner p = none → exec (.streamGrant p) s = .next s)

/-- WALK_REQUEST: every page of the list gives one item of the walk, in list order, and stage memory stays as it is until the entries are granted. An HBM or flash page is pinned for the tick and its
parts join the context's stream; a tail adds the FP32 rows of an incomplete value group; a page that cannot be had is lost and fails the attempt once. HBM, the Landings and flash keep their bytes
(R250, R288, R301 to R303, R310). A corrupt slot is dropped first (R306). A decode walks pages of its selection (R361, R369), and what a walk fills lies in its stream's buffer (R248). -/
def Obligations.WalksResolve : Prop :=
  ∀ (s : State) (die ctx stream dst : Nat) (h : W32) (pages : List Nat) (parts : WalkParts) (readers : List (Nat × Nat)) (q : Seq), s.hasDie die = true → ctx < 64 → s.working = true →
    s.seq h = some q → s.feeds die ctx stream = true → (∀ v, v ∈ pages → s.walkChosen q v = true) → s.walkFits die stream dst (s.walkBytes ⟨parts, readers⟩ pages.length) = true →
    ∃ t, exec (.walkRequest die ctx stream h pages ⟨parts, readers⟩ dst) s = .next t ∧
      t = { s with dies := t.dies, seqs := t.seqs, ctr := t.ctr, land := t.land, tick := { s.tick with fails := t.tick.fails }, hbm := { s.hbm with ftab := t.hbm.ftab }, flash := { s.flash with ftab := t.flash.ftab } } ∧
      t.land.data = s.land.data ∧ t.land.staging = s.land.staging ∧ (∀ d, d ≠ die → t.die d = s.die d) ∧ (t.die die).stage = (s.die die).stage ∧
      (∀ m, m ≠ stream → Sparse.get {} (t.die die).streams m = Sparse.get {} (s.die die).streams m) ∧
      (Sparse.get [] (t.die die).walks ctx).length = (Sparse.get [] (s.die die).walks ctx).length + pages.length ∧
      (s.land.slots.all (fun e => !e.2.corrupt) = true → t.land = s.land ∧ ∀ v, pages = [v] →
        let r := s.resolvePage die q v ⟨parts, readers⟩ dst
        let rows := s.tailStaging die ⟨parts, readers⟩ r.1 (dst + partBytes parts)
        (Sparse.get {} (t.die die).streams stream).items = (Sparse.get {} (s.die die).streams stream).items ++ ((r.2 ++ rows).map fun i => ⟨i, 0, 0⟩) ∧
        Sparse.get [] (t.die die).walks ctx = Sparse.get [] (s.die die).walks ctx ++ [r.1] ∧
        (∀ f, r.1 = .hbm v f → t.hbmEnt f = { s.hbmEnt f with tickPin := true } ∧ t.tick.fails = s.tick.fails) ∧
        (∀ f, r.1 = .flash v f → t.flashEnt f = { s.flashEnt f with tickPin := true } ∧ t.tick.fails = s.tick.fails) ∧
        (r.1 = .lost v → v ∉ q.lostPages → t.tick.fails.length = s.tick.fails.length + 1 ∧ ∃ u, t.seq h = some u ∧ u.lostPages = q.lostPages ++ [v]))

/-- The byte offset within a page where the key row, or a value element or finished value group, of position `i` of the page is stored (R281, R310). -/
def Sys2Proof.Machine.positionByte (s : State) (i a : Nat) : Prop :=
  let kf := s.streamFmt 2
  let vf := s.streamFmt 3
  let d := s.headDim
  let pp := s.pagePositions
  let n := if blkLen kf.2 = 0 then d else blkLen kf.2
  (∃ b, b < d / n ∧ i * elemBytes kf.1 d + elemBytes kf.1 (b * n) ≤ a ∧ a < i * elemBytes kf.1 d + elemBytes kf.1 (b * n) + elemBytes kf.1 n) ∨
  ∃ j, j < d ∧ if blkLen vf.2 = 0 then
      8192 + elemBytes vf.1 (j * pp) + (if vf.1 = 5 then i / 2 else i * (fmtBits vf.1 / 8)) ≤ a ∧
      a < 8192 + elemBytes vf.1 (j * pp) + (if vf.1 = 5 then i / 2 + 1 else i * (fmtBits vf.1 / 8) + fmtBits vf.1 / 8)
    else i % 32 = 31 ∧ 8192 + elemBytes vf.1 (j * pp + (i - 31)) ≤ a ∧ a < 8192 + elemBytes vf.1 (j * pp + (i - 31)) + elemBytes vf.1 32

/-- What writing one position of a sequence into a page site leaves: the page holds the converted key row and value elements (or the FP32 staging of an incomplete group), FILL counts the position, the core's
generators have moved by the draws, and no other byte of HBM or of the Landings changes; the committed log, positions and page list stay, and the staged positions do not fall. A frame that the page
list does not name yet is staged as a dirty leaf. -/
def Sys2Proof.Machine.positionWritten (s t : State) (x : PageSite) (q : Seq) (core layer head pos : Nat) (key val : List W32) (sK sV : W32) : Prop :=
  let i := pos % s.pagePositions
  let v := s.pageOf pos layer head
  let e := q.entryNow s.tick.num v
  let a := s.writeKey core x i (key.map BitVec.toNat) sK.toNat (s.drainOf core)
  let b := a.1.writeVal core x i (val.map BitVec.toNat) sV.toNat a.2
  t = { s with hbm := { s.hbm with data := t.hbm.data, side := t.hbm.side }, land := t.land, seqs := t.seqs, cores := t.cores, fore := { s.fore with flags := t.fore.flags }, ctr := t.ctr } ∧
  t.hbm.data = b.1.hbm.data ∧ t.land = { s.land with data := t.land.data, slots := t.land.slots, staging := b.1.land.staging } ∧
  (t.core core).gens = b.2.gens ∧ (∀ k, k ≠ core → t.core k = s.core k) ∧
  match x with
  | .slot n => t.hbm = s.hbm ∧ (t.slot n).fill = i + 1 ∧ (∀ m, m ≠ n → t.slot m = s.slot m) ∧ (∃ u, t.seq q.handle = some u ∧ u = { q with kvStaged := u.kvStaged } ∧ q.kvStaged ≤ u.kvStaged) ∧
      (∀ c, ¬(n * 17408 + 16384 ≤ c ∧ c < (n + 1) * 17408) → Mem.read t.land.data c = Mem.read b.1.land.data c ∧
        ((∀ a, positionByte s i a → c ≠ n * 17408 + a) → Mem.read t.land.data c = Mem.read s.land.data c))
  | .frame f => t.land.data = s.land.data ∧ t.land.slots = s.land.slots ∧ sbFill (t.hbmSide f) = (i + 1) % 512 ∧
      (∃ u, t.seq q.handle = some u ∧ q.kvStaged ≤ u.kvStaged ∧ u = { (if leafTier e = 0 ∧ leafFrame e = f then q
        else q.stageEdit s.tick.num v (leafHbm f false true (s.sinkPage v) false) (s.freshReserve 5)) with kvStaged := u.kvStaged }) ∧
      (∀ c, (∀ a, positionByte s i a → c ≠ f * 16384 + a) → Mem.read t.hbm.data c = Mem.read s.hbm.data c) ∧
      ∀ c, c / 1024 ≠ f → Mem.read t.hbm.side c = Mem.read s.hbm.side c

/-- TAIL_APPEND and SCATTER: the next position of a page is written into its Landing slot, its HBM frame, or the fresh frame that the plan gives, and no byte of any other position, page or slot changes
(R281, R282, R298, R308 to R318). A position that may not be written (out of turn, beyond L_MAX, given by a prefix match (R324), with a scale that is not positive, finite and normal (R124), into a frame not its own, or while page copies of the stack or tick messages go ahead (R33, R45)) changes
nothing more. Corrupt slots are dropped first, whether or not the write goes on (R306). -/
def Obligations.PositionsWritten : Prop :=
  ∀ (s : State) (die core rid layer head pos frame : Nat) (h sK sV : W32) (key val : List W32) (q : Seq), s.hasCore die core = true →
    let c := s.checkSlots
    (s.land.slots.all (fun e => !e.2.corrupt) = true → c = s) ∧
    (s.working = true → c.seq h = some q →
      (∀ x, c.tailSite q layer head pos = some x → c.mayPut x q layer head pos key val sK sV = true →
        (∃ t, exec (.tailAppend die core rid h layer head pos key val sK sV) s = .next t ∧ positionWritten c t x q (coreNo die core) layer head pos key val sK sV) ∧
        (∃ t, exec (.scatter die core rid h layer head pos key val sK sV frame) s = .next t ∧ positionWritten c t x q (coreNo die core) layer head pos key val sK sV)) ∧
      (c.tailSite q layer head pos = none → exec (.tailAppend die core rid h layer head pos key val sK sV) s = .next c ∧
        (c.mayPut (.frame frame) q layer head pos key val sK sV = true →
          ∃ t, exec (.scatter die core rid h layer head pos key val sK sV frame) s = .next t ∧ positionWritten c t (.frame frame) q (coreNo die core) layer head pos key val sK sV)) ∧
      (∀ x, x = (c.tailSite q layer head pos).getD (.frame frame) → c.mayPut x q layer head pos key val sK sV = false →
        exec (.tailAppend die core rid h layer head pos key val sK sV) s = .next c ∧ exec (.scatter die core rid h layer head pos key val sK sV frame) s = .next c)) ∧
    (∀ x, c.mayPut x q layer head pos key val sK sV = true ↔ (key.length = c.headDim ∧ val.length = c.headDim ∧ 0 < c.pagePositions ∧ normalPos32 sK.toNat = true ∧ normalPos32 sV.toNat = true ∧
      c.fillOf x = pos % c.pagePositions ∧ pos < q.lMax ∧ c.notMatched q (c.pageOf pos layer head) pos = true ∧ (pos < q.kvLen ∨ c.seqHeld q.handle = false) ∧
      match x with
      | .slot _ => True
      | .frame f => c.hbmFrameOk f = true ∧ (c.inPlace q (c.pageOf pos layer head) = some f ∨ c.plannedFrame q.handle (c.pageOf pos layer head) = some f) ∧ c.held (.stack (f / 2 ^ 22)) = false))

/-- PAGE_COPY and PAGE_COPY_COMPLETE: a frame in use is copied as it stood at the tick's start, with its sideband, to a fresh frame of the same stack under one more long pin; the copy has no flash copy of
its own and counts the positions that its sequence has committed, and no other byte of HBM changes; at its end the pin goes (R34, R300, R318, R328). A flash source is read by the die. A source with 127
pins waits. -/
def Sys2Proof.Machine.PagesCopied : Prop :=
  (∀ (s : State) (src dst : Nat), src < flashSource → s.working = true → (s.hbmEnt src).inUse = true → s.hbmFrameOk dst = true →
    (s.hbmEnt dst).staged = true ∨ s.hbmSpare dst = true → (s.hbmEnt dst).refcount = 0 → src / 2 ^ 22 = dst / 2 ^ 22 → s.hbm.copies.any (fun c => c.2 == dst) = false → src ≠ dst →
    let image := Mem.num s.hbm.side0 (src * 1024) 1024
    ((s.hbmEnt src).longPins < 127 → ∃ t, exec (.pageCopy src dst) s = .next t ∧
      t = { s with hbm := { s.hbm with data := t.hbm.data, side := t.hbm.side, ftab := t.hbm.ftab, copies := s.hbm.copies ++ [(src, dst)], copied := s.hbm.copied ++ [src] }, ctr := t.ctr } ∧
      t.hbm.data = Mem.write s.hbm.data (dst * 16384) (Mem.bytes s.hbm.data0 (src * 16384) 16384) ∧
      t.hbmSide dst = sbPut (sbPut image 4480 41 0) 4452 9 (s.copyFill dst (sbFill image)) ∧ (∀ a, a / 1024 ≠ dst → Mem.read t.hbm.side a = Mem.read s.hbm.side a) ∧
      t.hbmEnt src = { s.hbmEnt src with longPins := (s.hbmEnt src).longPins + 1 } ∧ (∀ f, f ≠ src → f ≠ dst → t.hbmEnt f = s.hbmEnt f) ∧
      t.hbmEnt dst = if (s.hbmEnt dst).staged then s.hbmEnt dst else { inUse := true, staged := true, lot := (s.hbmEnt src).lot }) ∧
    (127 ≤ (s.hbmEnt src).longPins → exec (.pageCopy src dst) s = .next s)) ∧
  (∀ (s : State) (f dst : Nat), s.working = true → (s.flashEnt f).inUse = true → (s.flashEnt f).longPins < 127 → s.hbmFrameOk dst = true → (s.hbmEnt dst).staged = true ∨ s.hbmSpare dst = true →
    (s.hbmEnt dst).refcount = 0 → s.hbm.copies.any (fun c => c.2 == dst) = false → ∃ t, exec (.pageCopy (flashSource + f) dst) s = .next t ∧
      t = { s with hbm := { s.hbm with data := t.hbm.data, side := t.hbm.side, ftab := t.hbm.ftab, copies := s.hbm.copies ++ [(flashSource + f, dst)], copied := s.hbm.copied ++ [flashSource + f] }, flash := { s.flash with ftab := t.flash.ftab }, ctr := t.ctr } ∧
      t.hbm.data = Mem.write s.hbm.data (dst * 16384) (Mem.bytes s.flash.data (f * 16384) 16384) ∧ t.hbmSide dst = sbPut (sbPut (s.flashSide f) 4480 41 0) 4452 9 (s.copyFill dst (sbFill (s.flashSide f))) ∧
      (∀ g, g ≠ dst → t.hbmEnt g = s.hbmEnt g) ∧
      t.flashEnt f = { s.flashEnt f with longPins := (s.flashEnt f).longPins + 1 }) ∧
  (∀ (s : State) (src dst : Nat), (src, dst) ∈ s.hbm.copies → ∃ t, exec (.pageCopyComplete src dst) s = .next t ∧ t.hbm.copies = s.hbm.copies.erase (src, dst) ∧
    t = { s with hbm := { s.hbm with copies := t.hbm.copies, ftab := t.hbm.ftab }, flash := { s.flash with ftab := t.flash.ftab } } ∧
    (src < flashSource → t.flash = s.flash ∧ t.hbm.ftab = Sparse.set {} s.hbm.ftab src { s.hbmEnt src with longPins := (s.hbmEnt src).longPins - 1 }) ∧
    (flashSource ≤ src → t.hbm.ftab = s.hbm.ftab ∧
      t.flash.ftab = Sparse.set {} s.flash.ftab (src - flashSource) { s.flashEnt (src - flashSource) with longPins := (s.flashEnt (src - flashSource)).longPins - 1 }))

/-- CLEANING_WRITE: the oldest queued frame starts its copy on a free flash frame under a long pin unless the tier is read-only; when its last byte is written the flash frame holds the page, no other
flash frame changes, and the copy stands for the commit (R300, R332, R389). -/
def Sys2Proof.Machine.CleaningCopies : Prop :=
  (∀ (s : State) (f g t0 : Nat), s.ticking = true → s.sys.flashRo = false → s.flashFree g = true → (s.hbmEnt f).longPins < 127 →
    nextClean s.flash.queue = some (t0, f) → t0 < s.tick.num → (f, g) ∉ s.flash.cleaning → ∃ t, exec (.cleaningWrite f g false) s = .next t ∧
      t = { s with hbm := { s.hbm with ftab := t.hbm.ftab }, flash := { s.flash with ftab := t.flash.ftab, queue := t.flash.queue, cleaning := t.flash.cleaning }, ctr := t.ctr } ∧
      t.flash.queue = (s.flash.queue.filter fun x => x.2 != f) ∧ t.flash.cleaning = s.flash.cleaning ++ [(f, g)] ∧
      t.flashEnt g = { inUse := true, staged := true, lot := (s.hbmEnt f).lot } ∧ t.hbmEnt f = { s.hbmEnt f with longPins := (s.hbmEnt f).longPins + 1 }) ∧
  (∀ (s : State) (f g : Nat), s.ticking = true → (f, g) ∈ s.flash.cleaning → exec (.cleaningWrite f g false) s = .next s ∧ ∃ t, exec (.cleaningWrite f g true) s = .next t ∧
    t = { s with hbm := { s.hbm with ftab := t.hbm.ftab }, flash := { s.flash with data := t.flash.data, side := t.flash.side, map := t.flash.map, page := t.flash.page, openBlk := t.flash.openBlk, blocks := t.flash.blocks, cleaning := t.flash.cleaning, cleaned := t.flash.cleaned }, ctr := t.ctr, freeIx := t.freeIx } ∧
    t.flash.data = Mem.write s.flash.data (g * 16384) (Mem.bytes s.hbm.data (f * 16384) 16384) ∧
    t.flash.side = Mem.write s.flash.side (g * 1024) (leBytes 1024 (sbPut (s.hbmSide f) 4480 41 0)) ∧
    t.hbm.ftab = Sparse.set {} s.hbm.ftab f { s.hbmEnt f with longPins := (s.hbmEnt f).longPins - 1 } ∧
    t.flash.cleaning = s.flash.cleaning.erase (f, g) ∧ t.flash.cleaned = s.flash.cleaned ++ [(f, g)]) ∧
  (∀ (s : State) (f g : Nat) (b : Bool), s.sys.flashRo = true → (f, g) ∉ s.flash.cleaning → exec (.cleaningWrite f g b) s = .next s)

/-- Page copies within HBM and to flash (R300, R318, R332). -/
def Obligations.PageCopies : Prop := PagesCopied ∧ CleaningCopies

/-! ### The memory tiers (R33, R383 to R397) -/

/-- HBM_UNCORRECTABLE, SCRUB, REFRESH and READ_DISTURB_REFRESH: a frame that cannot be read is suspect, its copy is marked failed, and an attempt in flight FAILs with a record that names its stack: a weight block is served by another
copy or its layer is lost; a page with a flash copy that can be read keeps its page lists and one without is lost in every list that names it; a page-list node loses every page below it and a prefix-tree node is
removed. A frame whose scrubs corrected errors twice is suspect, unless it is retired already; a refresh starts the row's activation count again. None of them changes a byte of HBM (R33, R288, R390 to R397, R405, R406, R413). The
read-disturb threshold is not given (log 18). -/
def Sys2Proof.Machine.HbmEvents : Prop :=
  (∀ (s : State) (f : Nat), s.hbmFrameOk f = true → s.pwr.main = .on →
    let copy := (s.flashCopyOf f).any fun g => !s.hbm.failed.contains (.flashFrame g)
    (s.ticking = false → ∃ t, exec (.hbmUncorrectable f) s = .next t ∧ t = { s with hbm := { s.hbm with failed := t.hbm.failed, suspect := t.hbm.suspect }, ctr := t.ctr } ∧
      f ∈ t.hbm.suspect ∧ (userFrames ≤ f % 2 ^ 22 → t.hbm.failed = s.hbm.failed) ∧
      (f % 2 ^ 22 < userFrames → (∀ b, s.blockAt f = some b → CopyId.weightHbm b ∈ t.hbm.failed) ∧ (s.blockAt f = none → CopyId.hbmFrame f ∈ t.hbm.failed))) ∧
    (s.ticking = true → ∃ t, exec (.hbmUncorrectable f) s = .next t ∧
      t = { s with hbm := { s.hbm with failed := t.hbm.failed, suspect := t.hbm.suspect, leaked := t.hbm.leaked }, nodes := t.nodes, seqs := t.seqs, chk := { s.chk with nodes := t.chk.nodes, seqs := t.chk.seqs }, tick := { s.tick with fails := t.tick.fails }, ctr := t.ctr } ∧
      f ∈ t.hbm.suspect ∧
      (userFrames ≤ f % 2 ^ 22 → t.hbm.failed = s.hbm.failed ∧ t.nodes = (s.nodes.filter fun n => n.frame != f) ∧
        ∀ h q v e, s.seq h = some q → (v, e) ∈ q.root → q.passes f v (q.levels - 1) q.curRoot = true → ∃ u, t.seq h = some u ∧ v ∈ u.lostPages) ∧
      (f % 2 ^ 22 < userFrames → t.nodes = s.nodes ∧ t.chk = s.chk ∧ t.hbm.leaked = s.hbm.leaked ∧
        (∀ b, s.blockAt f = some b → CopyId.weightHbm b ∈ t.hbm.failed ∧ t.seqs = s.seqs ∧
          t.tick.fails = s.tick.fails ++ [if t.blockReadable b then failRecord s.crew.coord 3 3 (f / 2 ^ 22) 0x1FF else failRecord s.crew.coord 4 3 (f / 2 ^ 22) (s.layerOfBlock b)]) ∧
        (s.blockAt f = none → CopyId.hbmFrame f ∈ t.hbm.failed ∧
          (copy = true ∨ (s.hbmEnt f).refcount = 0 → t.seqs = s.seqs ∧ t.tick.fails = s.tick.fails ++ [failRecord s.crew.coord 3 3 (f / 2 ^ 22) 0x1FF]) ∧
          (copy = false → (s.hbmEnt f).refcount ≠ 0 → t.tick.fails = s.tick.fails ++ [failRecord s.crew.coord 5 3 (f / 2 ^ 22) 0x1FF] ∧
            ∀ h q v e, s.seq h = some q → (v, e) ∈ q.root → leafRef e = some (true, f) → ∃ u, t.seq h = some u ∧ v ∈ u.lostPages))))) ∧
  (∀ (s : State) (f : Nat) (c : Bool), s.hbmFrameOk f = true → s.pwr.main = .on → ∃ t, exec (.scrub f c) s = .next t ∧
    t = { s with hbm := { s.hbm with scrubSeen := t.hbm.scrubSeen, suspect := t.hbm.suspect }, ctr := t.ctr } ∧
    (c = false → t.hbm = s.hbm) ∧ (c = true → Sparse.get 0 t.hbm.scrubSeen f = Sparse.get 0 s.hbm.scrubSeen f + 1 ∧ (1 ≤ Sparse.get 0 s.hbm.scrubSeen f → f ∈ t.hbm.suspect ∨ f ∈ s.hbm.retired) ∧ (f ∈ s.hbm.retired → t.hbm.suspect = s.hbm.suspect))) ∧
  (∀ (s : State) (stack row : Nat), s.hasStack stack = true → s.pwr.main = .on → ∃ t u, exec (.refresh stack row) s = .next t ∧ exec (.readDisturbRefresh stack row) s = .next u ∧
    t = { s with hbm := { s.hbm with rowAct := t.hbm.rowAct, refreshed := t.hbm.refreshed }, ctr := t.ctr } ∧ u = { t with ctr := u.ctr } ∧
    t.hbm.rowAct = Sparse.set 0 s.hbm.rowAct (stack * 2 ^ 32 + row) 0 ∧
    Sparse.get 0 t.hbm.refreshed (stack * 2 ^ 32 + row) = Sparse.get 0 s.hbm.refreshed (stack * 2 ^ 32 + row) + 1) ∧
  (∀ (s : State) (f stack row : Nat), (s.hbmFrameOk f = false → exec (.hbmUncorrectable f) s = .fault (.absentPart "HBM frame") ∧ ∀ c, exec (.scrub f c) s = .fault (.absentPart "HBM frame")) ∧
    (s.hasStack stack = false → exec (.refresh stack row) s = .fault (.absentPart "stack") ∧ exec (.readDisturbRefresh stack row) s = .fault (.absentPart "stack")))

/-- FLASH_READ: each read counts for its block, and a hard failure marks the block for relocation. A frame that no retry reads FAILs the attempt with a record that names its channel: a key-value frame is
marked failed, and lost where a page list names it, or where it was the copy that stood for a failed HBM frame; a frame of weights fails that copy of its block (R385, R393, R396 to R398, R401, R405). SRAM_UNCORRECTABLE FAILs the attempt, naming its part (R77, R394).
Neither changes stored data. -/
def Sys2Proof.Machine.ReadErrors : Prop :=
  (∀ (s : State) (f : Nat), flashFrameOk f = true → s.pwr.standby = true →
    let ch := ((s.blockOf f).map (· / 65536)).getD (s.flashChannel f)
    let read (ok : Bool) : Sparse NandBlock := match s.blockOf f with
      | some b => Sparse.upd {} s.flash.blocks b fun x => { x with reads := x.reads + 1, soft := x.soft || !ok }
      | none => s.flash.blocks
    let n := weightFrames s.img.model
    let named := s.seqs.any fun q => q.root.any fun e => leafRef e.2 == some (false, f)
    (∀ ok retry, ok = true ∨ retry ≠ none → ∃ t, exec (.flashRead f ok retry) s = .next t ∧ t = { s with flash := { s.flash with blocks := read ok }, ctr := t.ctr }) ∧
    (∃ t, exec (.flashRead f false none) s = .next t ∧
      t = { s with flash := { s.flash with blocks := read false }, hbm := { s.hbm with failed := t.hbm.failed }, seqs := t.seqs, tick := { s.tick with fails := t.tick.fails }, ctr := t.ctr } ∧
      (s.ticking = false → t.seqs = s.seqs ∧ t.tick = s.tick) ∧
      (f < s.flashUser → CopyId.flashFrame f ∈ t.hbm.failed ∧ (s.ticking = true →
        (named = true ∨ s.servedBy f = none → t.tick.fails = s.tick.fails ++ [failRecord s.crew.coord (if named then 5 else 3) 5 ch 0x1FF]) ∧
        (named = false → s.servedBy f = none → t.seqs = s.seqs) ∧
        (∀ g, named = false → s.servedBy f = some g → t.tick.fails = s.tick.fails ++ [failRecord s.crew.coord 5 3 (g / 2 ^ 22) 0x1FF] ∧
          ∀ h q v e, s.seq h = some q → (v, e) ∈ q.root → leafRef e = some (true, g) → ∃ u, t.seq h = some u ∧ v ∈ u.lostPages) ∧
        ∀ h q v e, s.seq h = some q → (v, e) ∈ q.root → leafRef e = some (false, f) → ∃ u, t.seq h = some u ∧ v ∈ u.lostPages)) ∧
      (s.flashUser ≤ f → t.seqs = s.seqs) ∧
      (s.flashUser + 2 * n ≤ f → t.hbm = s.hbm ∧ t.tick = s.tick) ∧
      (∀ b, f = s.flashUser + b → b < n → CopyId.weightFlash b ∈ t.hbm.failed ∧ (s.ticking = true →
        t.tick.fails = s.tick.fails ++ [if t.blockReadable b then failRecord s.crew.coord 3 5 ch 0x1FF else failRecord s.crew.coord 4 5 ch (s.layerOfBlock b)])) ∧
      (∀ b, f = s.flashUser + n + b → b < n → (if s.crew.members.length ≤ 1 then CopyId.weightMirror b else .heldMirror b) ∈ t.hbm.failed))) ∧
  (∀ (s : State) (kind num : Nat), s.hasPart kind num = true → (s.ticking = false → exec (.sramUncorrectable kind num) s = .next s) ∧
    (s.ticking = true → ∃ t, exec (.sramUncorrectable kind num) s = .next t ∧
      t = { s with tick := { s.tick with fails := s.tick.fails ++ [failRecord s.crew.coord 6 kind num 0x1FF] }, ctr := t.ctr }))

/-- Errors, scrub and refresh of the memories (R33, R390 to R397). -/
def Obligations.MemoryErrors : Prop := HbmEvents ∧ ReadErrors

/-- WEAR_LEVELLING, READ_DISTURB_RELOCATION, GARBAGE_COLLECTION and PROGRAM_FAILURE: pages move between blocks of a channel without changing what any flash frame holds; the block emptied is erased once more, the
block that failed is bad and retired (R383 to R387). FLASH_READ_ONLY makes the tier read-only (R389). Whether the block being filled has an erased page is a free value; otherwise the next erased block takes the data (log 18). -/
def Obligations.FlashTranslation : Prop :=
  (∀ (s : State) (ch : Nat) (lo hi : Nat × NandBlock), ch < 32 → s.pwr.standby = true → s.extremeBlock ch false = some lo → s.extremeBlock ch true = some hi →
    (s.leastErases ch + 500 < hi.2.erases → lo.1 ≠ hi.1 → ∃ t, exec (.wearLevelling ch) s = .next t ∧
      t = { s with flash := { s.flash with map := t.flash.map, page := t.flash.page, blocks := t.flash.blocks }, ctr := t.ctr } ∧
      (∀ f, f ∈ (Sparse.get {} s.flash.blocks lo.1).live → t.blockOf f = some hi.1) ∧ (∀ f, f ∉ (Sparse.get {} s.flash.blocks lo.1).live → t.blockOf f = s.blockOf f) ∧
      (Sparse.get {} t.flash.blocks lo.1).erases = (Sparse.get {} s.flash.blocks lo.1).erases + 1 ∧ (Sparse.get {} t.flash.blocks lo.1).reads = 0 ∧ (Sparse.get {} t.flash.blocks lo.1).dead = 0) ∧
    (hi.2.erases ≤ s.leastErases ch + 500 → exec (.wearLevelling ch) s = .next s)) ∧
  (∀ (s : State) (ch b : Nat), ch < 32 → b < 65536 → s.pwr.standby = true → (Sparse.get {} s.flash.blocks (ch * 65536 + b)).bad = false →
    let x := Sparse.get {} s.flash.blocks (ch * 65536 + b)
    (50000 ≤ x.reads ∨ x.soft = true →
      ∃ t, exec (.readDisturbRelocation ch b) s = .next t ∧
        t = { s with flash := { s.flash with map := t.flash.map, page := t.flash.page, openBlk := t.flash.openBlk, blocks := t.flash.blocks }, ctr := t.ctr, freeIx := t.freeIx } ∧
        (∃ d, d / 65536 = ch ∧ ∀ f, f ∈ x.live → t.blockOf f = some d) ∧ (∀ f, f ∉ x.live → t.blockOf f = s.blockOf f) ∧
        (Sparse.get {} t.flash.blocks (ch * 65536 + b)).reads = 0 ∧ (Sparse.get {} t.flash.blocks (ch * 65536 + b)).soft = false ∧
        (Sparse.get {} t.flash.blocks (ch * 65536 + b)).erases = x.erases + 1) ∧
    (x.reads < 50000 → x.soft = false → exec (.readDisturbRelocation ch b) s = .next s) ∧
    (∃ t, exec (.programFailure ch b) s = .next t ∧
      t = { s with flash := { s.flash with map := t.flash.map, page := t.flash.page, openBlk := t.flash.openBlk, blocks := t.flash.blocks, retired := s.flash.retired + 1 }, ctr := t.ctr, freeIx := t.freeIx } ∧
      (∃ d, d / 65536 = ch ∧ ∀ f, f ∈ x.live → t.blockOf f = some d) ∧ (∀ f, f ∉ x.live → t.blockOf f = s.blockOf f) ∧
      (Sparse.get {} t.flash.blocks (ch * 65536 + b)).bad = true)) ∧
  (∀ (s : State) (ch : Nat), ch < 32 → s.pwr.standby = true → ∃ t, exec (.garbageCollection ch) s = .next t ∧
    t = { s with flash := { s.flash with map := t.flash.map, page := t.flash.page, openBlk := t.flash.openBlk, blocks := t.flash.blocks }, ctr := t.ctr, freeIx := t.freeIx } ∧
    (∀ f, t.blockOf f ≠ s.blockOf f → ∃ d, t.blockOf f = some d ∧ d / 65536 = ch) ∧
    ∀ b, b ∈ s.blocksOf ch → 0 < b.2.dead → (Sparse.get {} s.flash.blocks b.1).erases + 1 ≤ (Sparse.get {} t.flash.blocks b.1).erases) ∧
  (∀ s : State, s.pwr.standby = true → (s.sys.flashRo = true → exec .flashReadOnly s = .next s) ∧ (s.sys.flashRo = false → ∃ t, exec .flashReadOnly s = .next t ∧
    t = { s with sys := { s.sys with flashRo := true }, flash := { s.flash with worn := true }, ctr := t.ctr })) ∧
  (∀ (s : State) (ch : Nat), 32 ≤ ch → exec (.wearLevelling ch) s = .fault (.absentPart "channel") ∧ exec (.garbageCollection ch) s = .fault (.absentPart "channel") ∧
    ∀ b, exec (.readDisturbRelocation ch b) s = .fault (.absentPart "block") ∧ exec (.programFailure ch b) s = .fault (.absentPart "block"))

/-! ### Vector searches and merges (R445 to R475) -/

/-- VEC_SEARCH and SEARCH_ADMISSION: a search whose L is below K completes with INVALID_FIELD, any other reads its query and waits; the plan takes the earliest waiting search into the lowest free slot, to start
in the next tick with the L and hop limit that its zeros select (R445 to R447). -/
def Obligations.SearchesStart : Prop :=
  (∀ (s : State) (rid : Nat) (r : Req) (x : VIndex) (bs : List Byte), s.req rid = some r → r.rid = rid → s.ticking = true → r.takeable = true → r.opcode = 0xC →
    Entry.fieldsOk r.entry = true → s.homeOf r.e.indexId = some s.crew.coord → s.index r.e.indexId = some x → bs.length = 4 * ixM x.record →
    (searchL r.e x < r.e.k → exec (.vecSearch rid (some bs)) s = .next (s.updReq rid fun q => { q with stage := .finishing, status := 4 })) ∧
    (r.e.k ≤ searchL r.e x → ∃ t, exec (.vecSearch rid (some bs)) s = .next t ∧ t = { s with reqs := t.reqs, ctr := t.ctr } ∧
      t.req rid = some { r with data := bs, dataRead := true, stage := if s.tick.hold then .held else .waiting })) ∧
  (∀ (s : State) (rid n : Nat) (r : Req) (x : VIndex), s.req rid = some r → r.rid = rid → s.index r.e.indexId = some x → s.waitingSearch = some r → s.freeSearchSlot (ixM x.record) = some n →
    s.ticking = true → s.tick.hold = false → s.tick.planDone = false → ∃ t, exec (.searchAdmission rid) s = .next t ∧
      t = { s with searches := s.searches ++ [⟨n, rid, r.e.indexId, s.tick.num + 1, r.e.k, searchL r.e x, searchHops r.e x, [], [], [], [], [], [], [], 0, [], false, false, none, 0⟩], reqs := t.reqs, ctr := t.ctr } ∧
      t.req rid = some { r with stage := .admitted }) ∧
  (∀ (s : State) (rid : Nat) (w : Req), (s.tick.hold = true → exec (.searchAdmission rid) s = .next s) ∧ (s.tick.planDone = true → exec (.searchAdmission rid) s = .next s) ∧
    (s.waitingSearch = some w → w.rid ≠ rid → exec (.searchAdmission rid) s = .next s))

/-- RECORD_EXPANSION and SIDE_SCAN: the first unexpanded candidate, its record read, joins X and its neighbours are offered to Q, which stays at most L long; a record that cannot be read, or is lost, is
marked and not followed, and is lost to every search of its generation. The side scan keeps the K best pairs of the inserts that the search sees; entries in unreadable frames are lost for it and for the index (R444, R448 to R450, R455, R474, R475). -/
def Sys2Proof.Machine.SearchSteps : Prop :=
  (∀ (s : State) (slot c : Nat) (ok : Bool) (x : Search) (i : VIndex), s.search slot = some x → nextCandidate x.q x.x = some c → s.index x.index = some i →
    s.working = true → x.start ≤ s.tick.num → x.hops < x.maxHops → x.result = none →
    (c ∉ x.read → exec (.recordExpansion slot ok) s = .next s) ∧
    (c ∈ x.read → ∃ t y, exec (.recordExpansion slot ok) s = .next t ∧
      t = { s with searches := t.searches, vidx := t.vidx, ctr := t.ctr } ∧ t.search slot = some y ∧ (x.q.length ≤ x.l → y.q.length ≤ x.l) ∧
      (∀ n, x.graph[c]? = some n → ok = true → nodeOk (ixDegree i.record) x.graph.length n = true → i.lostTo x c = false → t.vidx = s.vidx ∧
        y = { x with x := x.x ++ [c], hops := x.hops + 1, q := n.nbrs.foldl (offer x.l (fun m => codeDist x.table (codeAt x.graph m)) (x.x ++ [c])) x.q }) ∧
      (ok = false ∨ (∀ n, x.graph[c]? = some n → nodeOk (ixDegree i.record) x.graph.length n = false) ∨ i.lostTo x c = true →
        y = { x with x := x.x ++ [c], hops := x.hops + 1, damaged := true, deleted := x.deleted ++ (x.graph[c]?.map Node.entry).toList } ∧
        ∃ j, t.index x.index = some j ∧ j = { i with lostNodes := j.lostNodes } ∧ (i.gen = x.gen → c ∈ j.lostNodes) ∧ (i.gen ≠ x.gen → j = i)))) ∧
  (∀ (s : State) (slot : Nat) (frames : List Nat) (x : Search) (i : VIndex), s.search slot = some x → s.working = true → x.start = s.tick.num → x.scanned = false → s.index x.index = some i →
    let lost := lostEntries i.side frames
    let gone := (lost.filter SideEnt.isInsert).map SideEnt.entry
    let seen := x.sideIns.filter fun e => !(gone.contains e.entry)
    ∃ t, exec (.sideScan slot frames) s = .next t ∧ t = { s with searches := t.searches, vidx := t.vidx, ctr := t.ctr } ∧
      t.search slot = some { x with scanned := true, sideIns := seen, side := bestPairs x.k ((seen.filter fun e => !(x.deleted.contains e.entry)).map fun e => (codeDist x.table e.code, e.vecId)) } ∧
      t.index x.index = some { i with side := i.side.filter (fun e => !(lost.contains e)), live := i.live.filter (fun e => !(gone.contains e.2)) })

/-- RESULT_ASSEMBLY and MERGE_FINISH: once a scanned search has stopped and the records of its remaining candidates are read, its result is the K best pairs of its graph candidates that are neither lost nor
deleted and of its side list, and its request takes the result buffer; a merge that is running holds its built generation for the commit, once no search reads the node area that it fills (R451, R452, R465 to R469, R474). -/
def Sys2Proof.Machine.SearchResults : Prop :=
  (∀ (s : State) (slot : Nat) (lostNodes : List Nat) (x : Search) (r : Req), s.search slot = some x → s.req x.rid = some r → s.working = true → x.start ≤ s.tick.num → x.scanned = true → x.result = none →
    x.maxHops ≤ x.hops ∨ nextCandidate x.q x.x = none →
    let left := (x.q.filter fun e => !(x.x.contains e.2)).map Prod.snd
    let lost := (x.q.map Prod.snd).filter fun c => s.knownLost x c || (left.contains c && lostNodes.contains c)
    let y := { x with damaged := x.damaged || lost != [] }
    let rs := bestPairs x.k ((x.q.filterMap fun e => (x.graph[e.2]?).bind fun n => if lost.contains e.2 ∨ x.deleted.contains n.entry then none else some (e.1, n.vecId)) ++ x.side)
    ((∃ c, c ∈ left ∧ c ∉ x.read) → exec (.resultAssembly slot lostNodes) s = .next s) ∧
    ((∀ c, c ∈ left → c ∈ x.read) → ∃ t, exec (.resultAssembly slot lostNodes) s = .next t ∧ t = { s with searches := t.searches, vidx := t.vidx, reqs := t.reqs, ctr := t.ctr } ∧
      t.search slot = some { y with result := some rs } ∧ t.req x.rid = some { r with stage := .finishing, data := resultBuffer y rs, result0 := BitVec.ofNat 32 rs.length } ∧
      (lost = [] → t.vidx = s.vidx) ∧ ∀ i c, s.index x.index = some i → c ∈ lost → ∃ j, t.index x.index = some j ∧ j = { i with lostNodes := j.lostNodes } ∧ (i.gen = x.gen → c ∈ j.lostNodes))) ∧
  (∀ (s : State) (id m : Nat) (x : VIndex), s.index id = some x → x.merge = some m → s.working = true → m ≤ s.tick.num → x.built = none → s.sys.flashRo = false → s.areaBusy x = false →
    ∃ t, exec (.mergeFinish id) s = .next t ∧ t = { s with vidx := t.vidx, ctr := t.ctr } ∧ t.index id = some { x with built := some (x.build m) })

/-- RECORD_EXPANSION, SIDE_SCAN, RESULT_ASSEMBLY and MERGE_FINISH each complete: a search under its hop limit whose first unexpanded candidate has been read expands it, a new search scans its side
list, a stopped search whose remaining records have been read has its result and its request is finishing, and a running merge holds the generation that it builds (R448, R450, R451, R465). Nothing but
searches, indexes, requests and counters changes. -/
def Obligations.SearchCommandsComplete : Prop :=
  (∀ (s : State) (slot c : Nat) (readable : Bool) (x : Search) (i : VIndex), s.working = true → s.search slot = some x → s.index x.index = some i →
    x.start ≤ s.tick.num → x.result = none → x.hops < x.maxHops → nextCandidate x.q x.x = some c → c ∈ x.read →
    ∃ t, exec (.recordExpansion slot readable) s = .next t ∧ t = { s with searches := t.searches, vidx := t.vidx, ctr := t.ctr } ∧
      (t.search slot).map (fun y => (y.x, y.hops)) = some (x.x ++ [c], x.hops + 1)) ∧
  (∀ (s : State) (slot : Nat) (lostFrames : List Nat) (x : Search), s.working = true → s.search slot = some x → x.start = s.tick.num → x.scanned = false →
    ∃ t, exec (.sideScan slot lostFrames) s = .next t ∧ t = { s with searches := t.searches, vidx := t.vidx, ctr := t.ctr } ∧
      (t.search slot).map (·.scanned) = some true) ∧
  (∀ (s : State) (slot : Nat) (lostNodes : List Nat) (x : Search) (r : Req), s.working = true → s.search slot = some x → s.req x.rid = some r →
    x.start ≤ s.tick.num → x.scanned = true → x.result = none → x.maxHops ≤ x.hops ∨ nextCandidate x.q x.x = none →
    (∀ e, e ∈ x.q → e.2 ∉ x.x → e.2 ∈ x.read) →
    ∃ t, exec (.resultAssembly slot lostNodes) s = .next t ∧ t = { s with searches := t.searches, vidx := t.vidx, reqs := t.reqs, ctr := t.ctr } ∧
      (∃ y rs, t.search slot = some y ∧ y.result = some rs ∧ rs.length ≤ x.k) ∧ (t.req x.rid).map (·.stage) = some .finishing) ∧
  (∀ (s : State) (id m : Nat) (x : VIndex), s.working = true → s.index id = some x → x.merge = some m → m ≤ s.tick.num → x.built = none →
    s.sys.flashRo = false → s.areaBusy x = false →
    ∃ t, exec (.mergeFinish id) s = .next t ∧ t = { s with vidx := t.vidx, ctr := t.ctr } ∧ (t.index id).bind (·.built) = some (x.build m))

/-- The steps, results and merges of vector searches (R444 to R475). -/
def Obligations.SearchProgress : Prop := SearchSteps ∧ SearchResults

/-! ### Optical links (R479 to R522, R689 to R692) -/

/-- The training commands: lanes locked in any order with at most 100 ns of skew end step 1, flit lock ends step 2 and clears the port's link state, a valid record that echoes this module ends step 3, a step past
its limit starts again at step 1, a port that may not join retries from step 3, and the laser returns to step 1 (R480, R481, R494, R498, R513). Only the port named changes, and a port number above 11 names no
port. That steps 3 and 4 leave REASON as it was is log 16. -/
def Obligations.LinkTraining : Prop :=
  (∀ (s : State) (n : Nat), n < 12 →
    let p := s.port n
    (∀ (lanes : List Nat) (skew : Nat), p.state = .training → p.step = 1 → p.laser = true → lanes.length = 10 → (∀ l, l < 10 → l ∈ lanes) →
      (skew ≤ 100 → exec (.laneLock n lanes skew) s = .next (s.setPort n { p with step := 2 })) ∧ (100 < skew → exec (.laneLock n lanes skew) s = .next s)) ∧
    (p.state = .training → p.step = 2 → exec (.flitLock n) s = .next (s.setPort n { p with step := 3, echoId := 0, tEcho := 0, peer := none, echoed := false, lseq := 0, rxNext := 0, missing := [], replay := [], acked := 0, credits := [256, 256, 1024, 1024, 5120, 5120, 1792, 1792] })) ∧
    (∀ (r : BitVec 1920) (now : W64), p.locked = true → p.step ≠ 2 →
      (trainRecOk r = false → ∃ t, exec (.trainRecord n r now) s = .next t ∧ t = { s with ctr := t.ctr }) ∧
      (trainRecOk r = true → exec (.trainRecord n r now) s = .next (s.setPort n { p with echoId := BitVec.ofNat 64 (trModule r), tEcho := now, peer := some r, echoed := p.echoed || trEcho r == s.ident.moduleId.toNat, step := if p.step = 3 ∧ (p.echoed = true ∨ trEcho r = s.ident.moduleId.toNat) then 4 else p.step }))) ∧
    (∀ now : W64, p.state ≠ .off → p.step = 3 → exec (.trainRecordSend n now) s = .next (s.send (.trainRec n (s.trainRec n now)))) ∧
    (p.state ≠ .off → 1 ≤ p.step → ∃ t, exec (.trainingStepTimeout n) s = .next t ∧ t = { s with ports := Sparse.set {} s.ports n { p with state := .training, step := 1, dim := 0xF, echoed := false, reason := if p.step = 1 then 1 else if p.step = 2 then 2 else p.reason }, ctr := t.ctr }) ∧
    (p.state = .miswired ∨ p.state = .transit ∨ p.state = .down → p.step = 0 → exec (.trainingRetry n) s = .next (s.setPort n { p with step := 3, echoed := false })) ∧
    (p.state = .training → p.laser = false → exec (.laserOffExpiry n) s = .next (s.setPort n { p with laser := true, step := 1 }))) ∧
  (∀ (s : State) (n : Nat), 12 ≤ n → exec (.flitLock n) s = .fault (.absentPart "optical port"))

/-- TIMESTAMP_EXCHANGE: 1,024 exchanges give the median delay and the round trip, and step 5 gives the port the state, REASON and dimension that the far end's record decides, the link running at the lower minor; no other port changes
(R494, R495, R501). -/
def Obligations.TimestampExchanges : Prop :=
  ∀ (s : State) (n : Nat) (xs : List (Nat × Nat × Nat × Nat)) (r : BitVec 1920), n < 12 → (s.port n).state ≠ .off → (s.port n).step = 4 →
    xs.length = 1024 → (s.port n).peer = some r →
    let d := (median (xs.map exchangeDelay)).toNat
    ∃ t, exec (.timestampExchange n xs) s = .next t ∧ t = { s with ports := t.ports, ctr := t.ctr } ∧ (∀ m, m ≠ n → t.port m = s.port m) ∧
      t.port n = { s.port n with delay := d, rttNs := d * 5 / 64, step := 0, state := (s.decidePort r).1, reason := (s.decidePort r).2.1, dim := (s.decidePort r).2.2, peerCoord := (trClaim r).getD 0, peerPort := trPort r, peerVariant := trVariant r, mapChanged := (t.port n).mapChanged, minor := min (fld s.img.linkLevel 0 4) (trLinkMinor r) } ∧
      ((s.port n).mapChanged = true → (t.port n).mapChanged = true)

/-- FLIT_RECEIVE: a flit whose CRC fails is dropped and counted and never reaches a client; a routed one that passes its CRC with a reserved value FAILs the attempt; a flit of this attempt for this member is placed
once, and a second copy is dropped; a TICK flit joins its message, which is whole with its last flit, and one with a reserved TKIND is discarded; a flit for another member goes on by its route with one more
hop; a flit of a foreign crew goes on through a TRANSIT port on VC3; a flit of another attempt is discarded (R75, R484, R486 to R489, R508 to R511, R515). That a module outside a crew takes every TICK flit is log 57. -/
def Obligations.FlitsReceived : Prop :=
  ∀ (s : State) (n : Nat) (h : BitVec 128) (pl : List Byte), n < 12 →
    ((s.port n).locked = false → exec (.flitReceive n h pl) s = .next s) ∧
    ((s.port n).locked = true → fhCrc h ≠ flitCrc h pl → ∃ t, exec (.flitReceive n h pl) s = .next t ∧ t = { s with ctr := t.ctr }) ∧
    ((s.port n).locked = true → fhCrc h = flitCrc h pl →
      (s.flitBad h = true → ∃ t, exec (.flitReceive n h pl) s = .next t ∧ t = { s with ports := t.ports, tick := { s.tick with fails := t.tick.fails }, ctr := t.ctr } ∧
        t.tick.fails = if s.ticking = true ∧ 5 ≤ fhType h then s.tick.fails ++ [failRecord s.crew.coord 2 4 n 0x1FF] else s.tick.fails) ∧
      (s.flitBad h = false → fhType h < 5 → ∃ t, exec (.flitReceive n h pl) s = .next t ∧ t = { s with ports := t.ports, ctr := t.ctr }) ∧
      (s.flitBad h = false → fhType h = 6 → ∃ t, exec (.flitReceive n h pl) s = .next t ∧ t = { s with ports := t.ports, yard := { s.yard with sent := t.yard.sent }, ctr := t.ctr }) ∧
      (s.flitBad h = false → fhType h = 5 ∨ fhType h = 7 ∨ fhType h = 8 → (s.port n).state = .transit → ∃ t, exec (.flitReceive n h pl) s = .next t ∧
        t = { s with ports := t.ports, yard := { s.yard with sent := t.yard.sent }, tick := { s.tick with fails := t.tick.fails }, ctr := t.ctr } ∧
        ∀ m, fhHops h < 15 → s.transitOut n (fhDest h) = some m → t.tick = s.tick ∧
          ∃ g, (t.port m).txq = (s.port m).txq ++ [g] ∧ g.payload = pl ∧ fhVc g.hdr = 3 ∧ fhHops g.hdr = fhHops h + 1 ∧ fhDest g.hdr = fhDest h) ∧
      (s.flitBad h = false → fhType h = 5 ∨ fhType h = 7 ∨ fhType h = 8 → (s.port n).state ≠ .transit →
        (fhTtag h = s.ttag ∧ (s.crew.member = true → fhDest h = s.crew.coord) ∨ s.crew.member = false ∧ fhType h = 5 → ∃ t, exec (.flitReceive n h pl) s = .next t ∧
          t = { s with ports := t.ports, yard := { s.yard with rx := t.yard.rx, inbox := t.yard.inbox, placed := t.yard.placed, sent := t.yard.sent }, ctr := t.ctr } ∧ (∀ m, m ≠ n → t.port m = s.port m) ∧
          (fhType h = 5 → t.yard = { (if 3 < thKind (tickHdrOf ⟨h, pl⟩) then s.yard else s.yard.takeTick ⟨h, pl⟩) with sent := t.yard.sent }) ∧
          (fhType h ≠ 5 → (fhSrc h, fhMsg h, fhOffset h) ∈ s.yard.placed → t.yard = { s.yard with sent := t.yard.sent }) ∧
          (fhType h ≠ 5 → (fhSrc h, fhMsg h, fhOffset h) ∉ s.yard.placed →
            t.yard = { s.yard with rx := s.yard.rx ++ [⟨h, pl⟩], placed := s.yard.placed ++ [(fhSrc h, fhMsg h, fhOffset h)], sent := t.yard.sent })) ∧
        (fhTtag h ≠ s.ttag → s.crew.member = true ∨ fhType h ≠ 5 → ∃ t, exec (.flitReceive n h pl) s = .next t ∧ t = { s with ports := t.ports, yard := { s.yard with sent := t.yard.sent }, ctr := t.ctr }) ∧
        (fhTtag h = s.ttag → s.crew.member = true → fhDest h ≠ s.crew.coord → ∃ t, exec (.flitReceive n h pl) s = .next t ∧
          t = { s with ports := t.ports, yard := { s.yard with sent := t.yard.sent }, tick := { s.tick with fails := t.tick.fails }, ctr := t.ctr } ∧
          (fhHops h = 15 ∨ s.routeOut (fhSrc h) (fhDest h) (fhMsg h) (some n) = none → s.ticking = true → t.tick.fails = s.tick.fails ++ [failRecord s.crew.coord 2 4 n 0x1FF]) ∧
          ∀ m b, fhHops h < 15 → s.routeOut (fhSrc h) (fhDest h) (fhMsg h) (some n) = some (m, b) → t.tick = s.tick ∧ (∀ k, k ≠ n → k ≠ m → t.port k = s.port k) ∧
            ∃ g, (t.port m).txq = (s.port m).txq ++ [g] ∧ g.payload = pl ∧ fhHops g.hdr = fhHops h + 1 ∧ fhDest g.hdr = fhDest h)))

/-- FLIT_SEND, NAK and CREDIT: the next flit by VC priority goes out stamped with its sequence number, is kept for replay and spends one credit; a port past lane lock with no flit ready sends IDLE; a flit named missing goes out again if it is still held, and its loss FAILs the
attempt if it is not; returned credits add up (R485, R486, R489 to R493, R515). -/
def Obligations.FlitsSent : Prop :=
  (∀ (s : State) (n : Nat) (f : Flit), n < 12 → (s.port n).state = .up ∨ (s.port n).state = .transit → (s.port n).laser = true → (s.port n).nextFlit = some f →
    let p := s.port n
    ∃ t, exec (.flitSend n) s = .next t ∧ t = { s with ports := Sparse.set {} s.ports n { p with txq := p.txq.erase f, replay := addReplay p.replay (p.stamp f), wire := p.wire ++ [p.stamp f], lseq := (p.lseq + 1) % 4096, credits := p.credits.modify (creditIx f.hdr) (· - 1) }, ctr := t.ctr } ∧
      0 < p.credits[creditIx f.hdr]?.getD 0) ∧
  (∀ (s : State) (n : Nat), n < 12 → (s.port n).nextFlit = none ∨ ((s.port n).state ≠ .up ∧ (s.port n).state ≠ .transit) →
    ((s.port n).locked = true → ∃ t, exec (.flitSend n) s = .next t ∧
      t = { s with ports := Sparse.set {} s.ports n { s.port n with wire := (s.port n).wire ++ [(s.port n).idleFlit] }, ctr := t.ctr } ∧ fhType (s.port n).idleFlit.hdr = 0) ∧
    ((s.port n).locked = false → exec (.flitSend n) s = .next s)) ∧
  (∀ (s : State) (n q : Nat), n < 12 → (s.port n).locked = true →
    (∀ f, (s.port n).replay.find? (fun f => fhLseq f.hdr == q) = some f → ∃ t, exec (.nak n [q]) s = .next t ∧
      t = { s with ports := Sparse.set {} s.ports n { s.port n with wire := (s.port n).wire ++ [f] }, ctr := t.ctr }) ∧
    ((s.port n).replay.find? (fun f => fhLseq f.hdr == q) = none → s.ticking = true → ∃ t, exec (.nak n [q]) s = .next t ∧
      t = { s with tick := { s.tick with fails := s.tick.fails ++ [failRecord s.crew.coord 2 4 n 0x1FF] }, ctr := t.ctr })) ∧
  (∀ (s : State) (n vc cls k : Nat), n < 12 → (s.port n).locked = true →
    exec (.credit n [(vc, cls, k)]) s = .next (s.setPort n { s.port n with credits := (s.port n).credits.modify (2 * vc + cls) (· + k) }))

/-- What the loss of a port's link leaves of the port, whatever it leads to (R513). -/
def Sys2Proof.Machine.linkLost (s t : State) (n reason : Nat) : Prop :=
  (t.port n).state = .training ∧ (t.port n).step = 1 ∧ (t.port n).reason = reason ∧ (t.port n).lost = true ∧ (t.port n).laser = false ∧ (t.port n).replay = [] ∧
  t.nor = s.nor ∧ t.pwr = s.pwr ∧ t.profile = s.profile ∧ t.wt = { s.wt with share := t.wt.share, inHbm := t.wt.inHbm, remap := t.wt.remap, mirror := t.wt.mirror, mirrorAt := t.wt.mirrorAt, rewriting := t.wt.rewriting } ∧ .downNotice n ∈ t.yard.sent ∧
  ((s.port n).state ≠ .up → (s.port n).state ≠ .transit →
    t = { s with ports := t.ports, ctr := t.ctr, yard := { s.yard with sent := s.yard.sent ++ [.downNotice n] } } ∧ ∀ m, m ≠ n → t.port m = s.port m) ∧
  ((s.port n).state = .transit → t = { s with ports := t.ports, ctr := t.ctr, tick := { s.tick with fails := t.tick.fails }, yard := { s.yard with sent := s.yard.sent ++ [.downNotice n] } } ∧
    (s.ticking = true → (s.port n).replay.length < seqDist (s.port n).acked (s.port n).lseq → t.tick.fails = s.tick.fails ++ [failRecord s.crew.coord 2 4 n 0x1FF]))

/-- DOWN_NOTICE, LANE_ALIGNMENT_TIMEOUT, FLIT_SILENCE_TIMEOUT and NAK_RATE_LIMIT: a port that is past lane lock loses its link with the REASON of the cause: LOST is set, the laser goes off, training starts again and
DOWN_NOTICE is sent; a port that is not changes nothing (R513, R522). -/
def Obligations.LinksAreLost : Prop :=
  ∀ (s : State) (n lane : Nat), n < 12 → lane < 10 →
    ((s.port n).live = true →
      (∃ t, exec (.downNotice n) s = .next t ∧ linkLost s t n 0xD) ∧ (∃ t, exec (.laneAlignmentTimeout n lane) s = .next t ∧ linkLost s t n 1) ∧
      (∃ t, exec (.flitSilenceTimeout n) s = .next t ∧ linkLost s t n 3) ∧ (∃ t, exec (.nakRateLimit n) s = .next t ∧ linkLost s t n 4)) ∧
    ((s.port n).live = false → exec (.downNotice n) s = .next s ∧ exec (.laneAlignmentTimeout n lane) s = .next s ∧ exec (.flitSilenceTimeout n) s = .next s ∧
      exec (.nakRateLimit n) s = .next s)

/-- LINK_STATE: a corrupt record is dropped and counted, one no newer than the record held is dropped, and a newer one replaces it and goes on to the other ports; a member that it shows lost is noted and fails the attempt while
this module's component continues, raising the epoch again after a FORM already decided, and otherwise this module leaves for JOIN (R516 to R518, R689, R690, R692). -/
def Obligations.LinkStateRecords : Prop :=
  ∀ (s : State) (n : Nat) (rec : BitVec 512), n < 12 → (s.port n).state = .up → s.crew.member = true →
    let held := s.yard.records.find? fun e => e.1 == lsOrigin rec
    (linkStateOk rec = false → ∃ t, exec (.linkState n rec) s = .next t ∧ t = { s with ctr := t.ctr }) ∧
    (∀ old, linkStateOk rec = true → held = some (lsOrigin rec, old) → lsEpoch rec < lsEpoch old ∨ (lsEpoch rec = lsEpoch old ∧ lsSeq rec ≤ lsSeq old) → exec (.linkState n rec) s = .next s) ∧
    (linkStateOk rec = true → (∀ old, held = some (lsOrigin rec, old) → lsEpoch old < lsEpoch rec ∨ (lsEpoch old = lsEpoch rec ∧ lsSeq old < lsSeq rec)) →
      let u : State := { s with
        yard := { s.yard with records := Sparse.set 0 s.yard.records (lsOrigin rec) rec, stale := true, sent := s.yard.sent ++ [.linkState rec (some n)] }
        ports := Sparse.mapVals {} (fun k (p : LinkPort) => if p.state = .up ∧ k ≠ n then { p with txq := p.txq ++ [s.recordFlit rec p.peerCoord] } else p) s.ports }
      (s.ticking = false ∨ u.lostMembers.all s.crew.lostNow.contains = true → exec (.linkState n rec) s = .next u) ∧
      (s.ticking = true → u.lostMembers.all s.crew.lostNow.contains = false → u.continues = true → ∃ t, exec (.linkState n rec) s = .next t ∧
        t = { u with crew := { s.crew with lostNow := u.lostMembers, epoch := t.crew.epoch }, tick := { s.tick with fails := t.tick.fails, pending := none, decided := none } } ∧
        t.tick.fails = s.tick.fails ++ [failRecord s.crew.coord 7 0 0 0x1FF] ∧
        t.crew.epoch = if s.tick.decided.any (fun e => e.decision == 2) || s.tick.pending.any (fun e => e.decision == 2) then s.crew.epoch + 1 else s.crew.epoch) ∧
      (s.ticking = true → u.lostMembers.all s.crew.lostNow.contains = false → u.continues = false → ∃ t, exec (.linkState n rec) s = .next t ∧ t.sys.state = .join ∧ t.crew.member = false ∧
        t.seqs = [] ∧ t.crew.epoch = s.crew.epoch ∧ t.wt = { s.wt with share := [], inHbm := [], remap := [], mirror := [], mirrorAt := none, rewriting := none } ∧ t.nor = s.nor))
end

