-- ==== Sys2Proof/Laws/Memory.lean ====
section
/-! SUPPORT. The laws of sparse maps and memories: read after write, and every operation keeps the canonical form. -/

namespace Sys2Proof.Machine

namespace Sparse

variable {α : Type}

@[simp] theorem get_nil (d : α) (a : Nat) : get d [] a = d := rfl

theorem get_cons (d : α) (k : Nat) (v : α) (m : Sparse α) (a : Nat) : get d ((k, v) :: m) a = if k = a then v else get d m a := rfl

/-- The canonical form of a map with a first entry. -/
theorem wf_cons [DecidableEq α] (d : α) (k : Nat) (v : α) (m : Sparse α) :
    wf d ((k, v) :: m) = true ↔ (∀ e ∈ m, k < e.1) ∧ v ≠ d ∧ wf d m = true := by
  simp only [wf, List.map_cons, List.pairwise_cons, List.all_cons, Bool.and_eq_true, decide_eq_true_eq, Bool.not_eq_true',
    decide_eq_false_iff_not, List.mem_map, forall_exists_index, and_imp, forall_apply_eq_imp_iff₂]
  tauto

@[simp] theorem wf_nil [DecidableEq α] (d : α) : wf d ([] : Sparse α) = true := by simp [wf]

/-- A key below every listed one reads the default. -/
theorem get_below (d : α) (m : Sparse α) (a : Nat) (h : ∀ e ∈ m, a < e.1) : get d m a = d := by
  induction m with
  | nil => rfl
  | cons e m ih =>
    have h1 := h e (List.mem_cons_self)
    rw [get_cons, if_neg (by omega)]
    exact ih fun x hx => h x (List.mem_cons_of_mem _ hx)

theorem mem_erase (m : Sparse α) (a : Nat) (e : Nat × α) (h : e ∈ erase m a) : e ∈ m := List.mem_of_mem_filter h

/-- A key taken out reads the default. -/
@[simp] theorem get_erase_self (d : α) (m : Sparse α) (a : Nat) : get d (erase m a) a = d := by
  induction m with
  | nil => rfl
  | cons x m ih =>
    obtain ⟨k, y⟩ := x
    by_cases h : k = a
    · subst h; simpa [erase, List.filter_cons] using ih
    · have : erase ((k, y) :: m) a = (k, y) :: erase m a := by simp [erase, h]
      rw [this, get_cons, if_neg h, ih]

/-- Taking a key out leaves every other key alone. -/
theorem get_erase_ne (d : α) (m : Sparse α) (a b : Nat) (hb : b ≠ a) : get d (erase m a) b = get d m b := by
  induction m with
  | nil => rfl
  | cons x m ih =>
    obtain ⟨k, y⟩ := x
    by_cases h : k = a
    · subst h
      have : erase ((k, y) :: m) k = erase m k := by simp [erase]
      rw [this, ih, get_cons, if_neg (Ne.symm hb)]
    · have : erase ((k, y) :: m) a = (k, y) :: erase m a := by simp [erase, h]
      rw [this, get_cons, get_cons, ih]

/-- Keys of an updated map: those it had, and perhaps the one written. -/
theorem mem_set [DecidableEq α] (d : α) (m : Sparse α) (a : Nat) (v : α) (e : Nat × α) (h : e ∈ set d m a v) : e ∈ m ∨ e = (a, v) := by
  induction m with
  | nil => simp only [set] at h; split at h <;> simp_all
  | cons x m ih =>
    simp only [set] at h
    split at h
    · split at h
      · rcases List.mem_cons.mp h with h | h
        · exact Or.inl (by simp [h])
        · exact Or.inl (List.mem_cons_of_mem _ (mem_erase _ _ _ h))
      · simp_all; tauto
    · split at h
      · split at h
        · exact Or.inl (List.mem_cons_of_mem _ (mem_erase _ _ _ h))
        · simp_all; tauto
      · simp only [List.mem_cons] at h ⊢
        rcases h with h | h
        · exact Or.inl (Or.inl h)
        · rcases ih h with h | h <;> simp [h]

/-- Dropping entries keeps the canonical form. -/
@[simp] theorem wf_filter [DecidableEq α] (d : α) (p : Nat × α → Bool) (m : Sparse α) (h : wf d m = true) : wf d (m.filter p) = true := by
  induction m with
  | nil => exact h
  | cons x m ih =>
    obtain ⟨h1, h2, h3⟩ := (wf_cons ..).mp h
    rw [List.filter_cons]
    split
    · exact (wf_cons ..).mpr ⟨fun e he => h1 e (List.mem_of_mem_filter he), h2, ih h3⟩
    · exact ih h3

@[simp] theorem wf_erase [DecidableEq α] (d : α) (m : Sparse α) (a : Nat) (h : wf d m = true) : wf d (erase m a) = true := wf_filter d _ m h

/-- A write keeps the canonical form. -/
@[simp] theorem wf_set [DecidableEq α] (d : α) (m : Sparse α) (a : Nat) (v : α) (h : wf d m = true) : wf d (set d m a v) = true := by
  induction m with
  | nil => simp only [set]; split <;> simp_all [wf_cons]
  | cons x m ih =>
    obtain ⟨k, y⟩ := x
    rw [wf_cons] at h
    obtain ⟨h1, h2, h3⟩ := h
    simp only [set]
    split
    · split
      · exact (wf_cons ..).mpr ⟨fun e he => h1 e (mem_erase _ _ _ he), h2, wf_erase _ _ _ h3⟩
      · refine (wf_cons ..).mpr ⟨fun e he => ?_, ‹_›, (wf_cons ..).mpr ⟨h1, h2, h3⟩⟩
        rcases List.mem_cons.mp he with rfl | he
        · assumption
        · have := h1 e he; omega
    · split
      · split
        · exact wf_erase _ _ _ h3
        · exact (wf_cons ..).mpr ⟨fun e he => by have := h1 e he; omega, ‹_›, h3⟩
      · refine (wf_cons ..).mpr ⟨fun e he => ?_, h2, ih h3⟩
        rcases mem_set d m a v e he with he | rfl
        · exact h1 e he
        · dsimp only; omega

/-- A write to a key reads back. -/
theorem get_set_self [DecidableEq α] (d : α) (m : Sparse α) (a : Nat) (v : α) : get d (set d m a v) a = v := by
  induction m with
  | nil => simp only [set]; split <;> simp_all [get_cons]
  | cons x m ih =>
    obtain ⟨k, y⟩ := x
    simp only [set]
    split
    · split
      · rw [get_cons, if_neg (by omega), get_erase_self]; simp_all
      · simp [get_cons]
    · split
      · split
        · rw [get_erase_self]; simp_all
        · simp [get_cons]
      · rw [get_cons, if_neg (by omega), ih]

/-- A write leaves every other key alone. -/
theorem get_set_ne [DecidableEq α] (d : α) (m : Sparse α) (a b : Nat) (v : α) (h : b ≠ a) : get d (set d m a v) b = get d m b := by
  induction m with
  | nil => simp only [set]; split <;> simp [get_cons, Ne.symm h]
  | cons x m ih =>
    obtain ⟨k, y⟩ := x
    simp only [set]
    split
    · split
      · rw [get_cons, get_cons, get_erase_ne _ _ _ _ h]
      · simp [get_cons, Ne.symm h]
    · split
      · subst_vars
        split
        · rw [get_erase_ne _ _ _ _ h, get_cons, if_neg (Ne.symm h)]
        · simp [get_cons, Ne.symm h]
      · rw [get_cons, get_cons, ih]

/-- A read after a write. -/
theorem get_set [DecidableEq α] (d : α) (m : Sparse α) (a b : Nat) (v : α) :
    get d (set d m a v) b = if b = a then v else get d m b := by
  split
  · subst_vars; exact get_set_self ..
  · exact get_set_ne _ _ _ _ _ ‹_›

@[simp] theorem wf_upd [DecidableEq α] (d : α) (m : Sparse α) (a : Nat) (f : α → α) (h : wf d m = true) : wf d (upd d m a f) = true :=
  wf_set d m a _ h

@[simp] theorem wf_setList [DecidableEq α] (d : α) (vs : List α) (m : Sparse α) (a : Nat) (h : wf d m = true) :
    wf d (setList d m a vs) = true := by
  induction vs generalizing m a with
  | nil => exact h
  | cons v vs ih => exact ih _ _ (wf_set d m a v h)

/-- A write of consecutive values leaves every key outside it alone. -/
theorem get_setList_out [DecidableEq α] (d : α) (vs : List α) (m : Sparse α) (a b : Nat) (h : b < a ∨ a + vs.length ≤ b) :
    get d (setList d m a vs) b = get d m b := by
  induction vs generalizing m a with
  | nil => rfl
  | cons v vs ih =>
    simp only [List.length_cons] at h
    rw [setList, ih _ _ (by omega), get_set_ne d m a b v (by omega)]

/-- A write of consecutive values reads back. -/
theorem get_setList_in [DecidableEq α] (d : α) (vs : List α) (m : Sparse α) (a i : Nat) (hi : i < vs.length) :
    get d (setList d m a vs) (a + i) = vs[i] := by
  induction vs generalizing m a i with
  | nil => simp at hi
  | cons v vs ih =>
    rw [setList]
    cases i with
    | zero => rw [get_setList_out _ _ _ _ _ (by omega)]; exact get_set_self d m a v
    | succ i =>
      have := ih (set d m a v) (a + 1) i (by simpa using hi)
      rw [show a + (i + 1) = a + 1 + i by omega, this]; rfl

@[simp] theorem wf_keep [DecidableEq α] (d : α) (p : Nat → Bool) (m : Sparse α) (h : wf d m = true) : wf d (keep p m) = true :=
  wf_filter d _ m h

@[simp] theorem wf_mapVals [DecidableEq α] (d : α) (f : Nat → α → α) (m : Sparse α) (h : wf d m = true) : wf d (mapVals d f m) = true := by
  induction m with
  | nil => rfl
  | cons x m ih =>
    obtain ⟨h1, -, h3⟩ := (wf_cons ..).mp h
    have := ih h3
    simp only [mapVals, List.map_cons, List.filter_cons] at this ⊢
    split
    · refine (wf_cons ..).mpr ⟨fun e he => ?_, by simp_all, this⟩
      obtain ⟨y, hy, rfl⟩ := List.mem_map.mp (List.mem_of_mem_filter he)
      exact h1 y hy
    · exact this

/-- A read after every value has been mapped, for a map that sends the default to itself. -/
theorem get_mapVals [DecidableEq α] (d : α) (f : Nat → α → α) (m : Sparse α) (a : Nat) (h : wf d m = true) (hf : f a d = d) :
    get d (mapVals d f m) a = f a (get d m a) := by
  induction m with
  | nil => simp [mapVals, hf]
  | cons x m ih =>
    obtain ⟨k, y⟩ := x
    obtain ⟨h1, -, h3⟩ := (wf_cons ..).mp h
    have hm : mapVals d f ((k, y) :: m) = if f k y = d then mapVals d f m else (k, f k y) :: mapVals d f m := by
      by_cases hd : f k y = d <;> simp [mapVals, List.filter_cons, hd]
    have low : k = a → get d m a = d := fun hk => get_below d m a fun e he => hk ▸ h1 e he
    rw [hm]
    by_cases hk : k = a
    · split
      · rw [ih h3, get_cons, if_pos hk, low hk, hf]; simp_all
      · rw [get_cons, if_pos hk, get_cons, if_pos hk, hk]
    · split
      · rw [ih h3, get_cons, if_neg hk]
      · rw [get_cons, if_neg hk, ih h3, get_cons, if_neg hk]

end Sparse

/-- A memory write keeps the canonical form. -/
@[simp] theorem Mem.write_wf (m : Mem) (a : Nat) (bs : List Byte) (h : Mem.wf m = true) : Mem.wf (Mem.write m a bs) = true :=
  Sparse.wf_setList 0 bs m a h

/-- Keeping some bytes keeps the canonical form. -/
@[simp] theorem Mem.keep_wf (m : Mem) (p : Nat → Bool) (h : Mem.wf m = true) : Mem.wf (Sparse.keep p m) = true := Sparse.wf_keep 0 p m h

/-- A memory write leaves every byte outside it alone. -/
theorem Mem.read_write_out (m : Mem) (a b : Nat) (bs : List Byte) (h : b < a ∨ a + bs.length ≤ b) :
    Mem.read (Mem.write m a bs) b = Mem.read m b := Sparse.get_setList_out 0 bs m a b h

/-- A byte written reads back. -/
theorem Mem.read_write_in (m : Mem) (a i : Nat) (bs : List Byte) (hi : i < bs.length) :
    Mem.read (Mem.write m a bs) (a + i) = bs[i] := Sparse.get_setList_in 0 bs m a i hi

/-- Programming keeps the canonical form of the NOR. -/
@[simp] theorem norWrite_wf (m : Mem) (a : Nat) (bs : List Byte) (h : Sparse.wf norBlank m = true) :
    Sparse.wf norBlank (norWrite m a bs) = true := Sparse.wf_setList norBlank bs m a h

/-- Programming leaves every byte outside its range alone. -/
theorem norWrite_out (m : Mem) (a b : Nat) (bs : List Byte) (h : b < a ∨ a + bs.length ≤ b) :
    Sparse.get norBlank (norWrite m a bs) b = Sparse.get norBlank m b := Sparse.get_setList_out norBlank bs m a b h

end Sys2Proof.Machine
end

