-- ==== Sys2Proof/Laws/Frame.lean ====
section
/-! SUPPORT. Frames of the shared operations: what no work of the module touches. `State.board` is what belongs to the board and the
start of the module; `State.status` is the module's status and its membership. -/

namespace Sys2Proof.Machine

/-- Identity, supply, sideband, boot storage, recovery and test access of a module. -/
structure Board where
  ident : Ident
  pwr   : Power
  smb   : Smbus
  nor   : Mem
  mbx   : Mailbox
  jtag  : Jtag
  tmux  : Tmux
  img   : Image

/-- The board part of a state. -/
def State.board (s : State) : Board := ⟨s.ident, s.pwr, s.smb, s.nor, s.mbx, s.jtag, s.tmux, s.img⟩

/-- Module status and membership. -/
def State.status (s : State) : Sys × Bool := (s.sys, s.crew.member)

@[simp] theorem State.mk_board (ident : Ident) (pwr : Power) (sys : Sys) (smb : Smbus) (nor : Mem) (norBusy : List NorWrite) (img : Image)
    (sec : Security) (mbx : Mailbox) (host : HostIf) (profile : BitVec 128) (lots : Sparse (BitVec 128)) (reqs : List Req) (seqs : List
    Seq) (nodes : List PrefixNode) (hbm : Hbm) (land : Landing) (sketches : List (W32 × Nat × BitVec 256)) (qsketch : List (W32 × Nat ×
    Nat × BitVec 256)) (flash : Flash) (vidx : List VIndex) (searches : List Search) (wt : Weights) (tick : TickSt) (crew : Crew) (ports :
    Sparse LinkPort) (yard : Yarder) (coll : Coll) (dies : Sparse Die) (cores : Sparse Core) (stands : Sparse Stand) (fore : Forester)
    (ctr : Counters) (therm : SensorReadings) (tmux : Tmux) (jtag : Jtag) (chk : Checkpoint) (freeIx : Nat) (pending : List Instr) :
    (State.mk ident pwr sys smb nor norBusy img sec mbx host profile lots reqs seqs nodes hbm land sketches qsketch flash vidx searches wt
    tick crew ports yard coll dies cores stands fore ctr therm tmux jtag chk freeIx pending).board = ⟨ident, pwr, smb, nor, mbx, jtag,
    tmux, img⟩ := rfl

@[simp] theorem Board.eta (s : State) : (⟨s.ident, s.pwr, s.smb, s.nor, s.mbx, s.jtag, s.tmux, s.img⟩ : Board) = s.board := rfl

@[simp] theorem State.mk_status (ident : Ident) (pwr : Power) (sys : Sys) (smb : Smbus) (nor : Mem) (norBusy : List NorWrite) (img :
    Image) (sec : Security) (mbx : Mailbox) (host : HostIf) (profile : BitVec 128) (lots : Sparse (BitVec 128)) (reqs : List Req) (seqs :
    List Seq) (nodes : List PrefixNode) (hbm : Hbm) (land : Landing) (sketches : List (W32 × Nat × BitVec 256)) (qsketch : List (W32 × Nat
    × Nat × BitVec 256)) (flash : Flash) (vidx : List VIndex) (searches : List Search) (wt : Weights) (tick : TickSt) (crew : Crew) (ports
    : Sparse LinkPort) (yard : Yarder) (coll : Coll) (dies : Sparse Die) (cores : Sparse Core) (stands : Sparse Stand) (fore : Forester)
    (ctr : Counters) (therm : SensorReadings) (tmux : Tmux) (jtag : Jtag) (chk : Checkpoint) (freeIx : Nat) (pending : List Instr) :
    (State.mk ident pwr sys smb nor norBusy img sec mbx host profile lots reqs seqs nodes hbm land sketches qsketch flash vidx searches wt
    tick crew ports yard coll dies cores stands fore ctr therm tmux jtag chk freeIx pending).status = (sys, crew.member) := rfl

@[simp] theorem status_eta (s : State) : (s.sys, s.crew.member) = s.status := rfl

theorem foldl_keeps {β γ : Type} (g : State → γ) (f : State → β → State) (h : ∀ s b, g (f s b) = g s) (l : List β) (s : State) :
    g (l.foldl f s) = g s := by
  induction l generalizing s with
  | nil => rfl
  | cons b l ih => rw [List.foldl_cons, ih, h]

@[simp] theorem foldl_board {β : Type} (f : State → β → State) (h : ∀ s b, (f s b).board = s.board) (l : List β) (s : State) :
    (l.foldl f s).board = s.board := foldl_keeps _ f h l s

@[simp] theorem foldl_status {β : Type} (f : State → β → State) (h : ∀ s b, (f s b).status = s.status) (l : List β) (s : State) :
    (l.foldl f s).status = s.status := foldl_keeps _ f h l s

@[simp] theorem foldl_hostMem {β : Type} (f : State → β → State) (h : ∀ s b, (f s b).host.mem = s.host.mem) (l : List β) (s : State) :
    (l.foldl f s).host.mem = s.host.mem := foldl_keeps (fun s => s.host.mem) f h l s

theorem foldl_fst_keeps {α β γ : Type} (g : State → γ) (f : State × α → β → State × α) (h : ∀ a b, g (f a b).1 = g a.1) (l : List β)
    (a : State × α) : g (l.foldl f a).1 = g a.1 := by
  induction l generalizing a with
  | nil => rfl
  | cons b l ih => rw [List.foldl_cons, ih, h]

@[simp] theorem foldl_fst_board {α β : Type} (f : State × α → β → State × α) (h : ∀ a b, (f a b).1.board = a.1.board) (l : List β)
    (a : State × α) : (l.foldl f a).1.board = a.1.board := foldl_fst_keeps _ f h l a

@[simp] theorem foldl_fst_status {α β : Type} (f : State × α → β → State × α) (h : ∀ a b, (f a b).1.status = a.1.status) (l : List β)
    (a : State × α) : (l.foldl f a).1.status = a.1.status := foldl_fst_keeps _ f h l a

@[simp] theorem foldl_fst_hostMem {α β : Type} (f : State × α → β → State × α) (h : ∀ a b, (f a b).1.host.mem = a.1.host.mem)
    (l : List β) (a : State × α) : (l.foldl f a).1.host.mem = a.1.host.mem := foldl_fst_keeps (fun s => s.host.mem) f h l a

@[simp] theorem ite_board (c : Prop) [Decidable c] (a b : State) : (if c then a else b).board = if c then a.board else b.board :=
  apply_ite State.board c a b

@[simp] theorem ite_status (c : Prop) [Decidable c] (a b : State) : (if c then a else b).status = if c then a.status else b.status :=
  apply_ite State.status c a b

@[simp] theorem ite_hostMem (c : Prop) [Decidable c] (a b : State) :
    (if c then a else b).host.mem = if c then a.host.mem else b.host.mem := apply_ite (fun s : State => s.host.mem) c a b

/-- A guarded command answers the guarded state. -/
theorem when_next {c : Bool} {s f t : State} : when c s f = .next t ↔ (if c then f else s) = t := by simp [when]

/-- A command on a part answers only where the part exists. -/
theorem needPart_next {c : Bool} {k : String} {o : Out} {t : State} : needPart c k o = .next t ↔ c = true ∧ o = .next t := by
  cases c <;> simp [needPart]

@[simp] theorem State.freeBytes_board (s : State) (n : Nat) : (s.freeBytes n).2.board = s.board := rfl
@[simp] theorem State.freeBytes_status (s : State) (n : Nat) : (s.freeBytes n).2.status = s.status := rfl
@[simp] theorem State.freeBytes_hostMem (s : State) (n : Nat) : (s.freeBytes n).2.host.mem = s.host.mem := rfl
@[simp] theorem State.freeWord_board (s : State) : s.freeWord.2.board = s.board := rfl
@[simp] theorem State.freeWord_status (s : State) : s.freeWord.2.status = s.status := rfl
@[simp] theorem State.freeWord_hostMem (s : State) : s.freeWord.2.host.mem = s.host.mem := rfl

@[simp] theorem State.setDie_board (s : State) (d : Nat) (x : Die) : (State.setDie s d x).board = s.board := by
  simp [State.setDie]

@[simp] theorem State.setDie_status (s : State) (d : Nat) (x : Die) : (State.setDie s d x).status = s.status := by
  simp [State.setDie]

@[simp] theorem State.setDie_hostMem (s : State) (d : Nat) (x : Die) : (State.setDie s d x).host.mem = s.host.mem := by
  simp [State.setDie]

@[simp] theorem State.setCore_board (s : State) (c : Nat) (x : Core) : (State.setCore s c x).board = s.board := by
  simp [State.setCore]

@[simp] theorem State.setCore_status (s : State) (c : Nat) (x : Core) : (State.setCore s c x).status = s.status := by
  simp [State.setCore]

@[simp] theorem State.setCore_hostMem (s : State) (c : Nat) (x : Core) : (State.setCore s c x).host.mem = s.host.mem := by
  simp [State.setCore]

@[simp] theorem State.setStand_board (s : State) (n : Nat) (x : Stand) : (State.setStand s n x).board = s.board := by
  simp [State.setStand]

@[simp] theorem State.setStand_status (s : State) (n : Nat) (x : Stand) : (State.setStand s n x).status = s.status := by
  simp [State.setStand]

@[simp] theorem State.setStand_hostMem (s : State) (n : Nat) (x : Stand) : (State.setStand s n x).host.mem = s.host.mem := by
  simp [State.setStand]

@[simp] theorem State.setPort_board (s : State) (n : Nat) (x : LinkPort) : (State.setPort s n x).board = s.board := by
  simp [State.setPort]

@[simp] theorem State.setPort_status (s : State) (n : Nat) (x : LinkPort) : (State.setPort s n x).status = s.status := by
  simp [State.setPort]

@[simp] theorem State.setPort_hostMem (s : State) (n : Nat) (x : LinkPort) : (State.setPort s n x).host.mem = s.host.mem := by
  simp [State.setPort]

@[simp] theorem State.count_board (s : State) (dom cls index : Nat) (n : Nat) : (State.count s dom cls index n).board = s.board := by
  simp [State.count]

@[simp] theorem State.count_status (s : State) (dom cls index : Nat) (n : Nat) : (State.count s dom cls index n).status = s.status := by
  simp [State.count]

@[simp] theorem State.count_hostMem (s : State) (dom cls index : Nat) (n : Nat) : (State.count s dom cls index n).host.mem = s.host.mem := by
  simp [State.count]

@[simp] theorem State.hubCount_board (s : State) (cls index : Nat) (n : Nat) : (State.hubCount s cls index n).board = s.board := by
  simp [State.hubCount]

@[simp] theorem State.hubCount_status (s : State) (cls index : Nat) (n : Nat) : (State.hubCount s cls index n).status = s.status := by
  simp [State.hubCount]

@[simp] theorem State.hubCount_hostMem (s : State) (cls index : Nat) (n : Nat) : (State.hubCount s cls index n).host.mem = s.host.mem := by
  simp [State.hubCount]

@[simp] theorem State.crewCount_board (s : State) (index : Nat) (n : Nat) : (State.crewCount s index n).board = s.board := by
  simp [State.crewCount]

@[simp] theorem State.crewCount_status (s : State) (index : Nat) (n : Nat) : (State.crewCount s index n).status = s.status := by
  simp [State.crewCount]

@[simp] theorem State.crewCount_hostMem (s : State) (index : Nat) (n : Nat) : (State.crewCount s index n).host.mem = s.host.mem := by
  simp [State.crewCount]

@[simp] theorem State.pcieCount_board (s : State) (port index : Nat) (n : Nat) : (State.pcieCount s port index n).board = s.board := by
  simp [State.pcieCount]

@[simp] theorem State.pcieCount_status (s : State) (port index : Nat) (n : Nat) : (State.pcieCount s port index n).status = s.status := by
  simp [State.pcieCount]

@[simp] theorem State.pcieCount_hostMem (s : State) (port index : Nat) (n : Nat) : (State.pcieCount s port index n).host.mem = s.host.mem := by
  simp [State.pcieCount]

@[simp] theorem State.linkCount_board (s : State) (port index : Nat) (n : Nat) : (State.linkCount s port index n).board = s.board := by
  simp [State.linkCount]

@[simp] theorem State.linkCount_status (s : State) (port index : Nat) (n : Nat) : (State.linkCount s port index n).status = s.status := by
  simp [State.linkCount]

@[simp] theorem State.linkCount_hostMem (s : State) (port index : Nat) (n : Nat) : (State.linkCount s port index n).host.mem = s.host.mem := by
  simp [State.linkCount]

@[simp] theorem State.setHostPort_board (s : State) (p : Nat) (x : HostPort) : (State.setHostPort s p x).board = s.board := by
  simp [State.setHostPort]

@[simp] theorem State.setHostPort_status (s : State) (p : Nat) (x : HostPort) : (State.setHostPort s p x).status = s.status := by
  simp [State.setHostPort]

@[simp] theorem State.setHostPort_hostMem (s : State) (p : Nat) (x : HostPort) : (State.setHostPort s p x).host.mem = s.host.mem := by
  simp [State.setHostPort]

@[simp] theorem State.setQueue_board (s : State) (q : Nat) (x : Queue) : (State.setQueue s q x).board = s.board := by
  simp [State.setQueue]

@[simp] theorem State.setQueue_status (s : State) (q : Nat) (x : Queue) : (State.setQueue s q x).status = s.status := by
  simp [State.setQueue]

@[simp] theorem State.setQueue_hostMem (s : State) (q : Nat) (x : Queue) : (State.setQueue s q x).host.mem = s.host.mem := by
  simp [State.setQueue]

@[simp] theorem State.hostErr_board (s : State) (p b : Nat) : (State.hostErr s p b).board = s.board := by
  simp [State.hostErr]

@[simp] theorem State.hostErr_status (s : State) (p b : Nat) : (State.hostErr s p b).status = s.status := by
  simp [State.hostErr]

@[simp] theorem State.hostErr_hostMem (s : State) (p b : Nat) : (State.hostErr s p b).host.mem = s.host.mem := by
  simp [State.hostErr]

@[simp] theorem State.hostWrite_board (s : State) (p a : Nat) (bs : List Byte) : (State.hostWrite s p a bs).board = s.board := by
  simp [State.hostWrite]

@[simp] theorem State.hostWrite_status (s : State) (p a : Nat) (bs : List Byte) : (State.hostWrite s p a bs).status = s.status := by
  simp [State.hostWrite]

@[simp] theorem State.writeCompletion_board (s : State) (tick : Nat) (ok : Bool) (r : Req) : (State.writeCompletion s tick ok r).board = s.board := by
  simp [State.writeCompletion]

@[simp] theorem State.writeCompletion_status (s : State) (tick : Nat) (ok : Bool) (r : Req) : (State.writeCompletion s tick ok r).status = s.status
    := by
  simp [State.writeCompletion]

@[simp] theorem State.pulse_board (s : State) (sel : Nat) : (State.pulse s sel).board = s.board := by
  simp [State.pulse]

@[simp] theorem State.pulse_status (s : State) (sel : Nat) : (State.pulse s sel).status = s.status := by
  simp [State.pulse]

@[simp] theorem State.pulse_hostMem (s : State) (sel : Nat) : (State.pulse s sel).host.mem = s.host.mem := by
  simp [State.pulse]

@[simp] theorem State.sendMsix_board (s : State) (p v : Nat) : (State.sendMsix s p v).board = s.board := by
  simp [State.sendMsix]

@[simp] theorem State.sendMsix_status (s : State) (p v : Nat) : (State.sendMsix s p v).status = s.status := by
  simp [State.sendMsix]

@[simp] theorem State.sendMsix_hostMem (s : State) (p v : Nat) : (State.sendMsix s p v).host.mem = s.host.mem := by
  simp [State.sendMsix]

@[simp] theorem State.sendMessages_board (s : State) (vs : List (Nat × Nat)) : (State.sendMessages s vs).board = s.board := by
  simp [State.sendMessages]

@[simp] theorem State.sendMessages_status (s : State) (vs : List (Nat × Nat)) : (State.sendMessages s vs).status = s.status := by
  simp [State.sendMessages]

@[simp] theorem State.sendMessages_hostMem (s : State) (vs : List (Nat × Nat)) : (State.sendMessages s vs).host.mem = s.host.mem := by
  simp [State.sendMessages]

@[simp] theorem State.portReset_board (s : State) (p : Nat) : (State.portReset s p).board = s.board := by
  simp [State.portReset]

@[simp] theorem State.portReset_status (s : State) (p : Nat) : (State.portReset s p).status = s.status := by
  simp [State.portReset]

@[simp] theorem State.portReset_hostMem (s : State) (p : Nat) : (State.portReset s p).host.mem = s.host.mem := by
  simp [State.portReset]

@[simp] theorem State.updReq_board (s : State) (rid : Nat) (f : Req → Req) : (State.updReq s rid f).board = s.board := by
  simp [State.updReq]

@[simp] theorem State.updReq_status (s : State) (rid : Nat) (f : Req → Req) : (State.updReq s rid f).status = s.status := by
  simp [State.updReq]

@[simp] theorem State.updReq_hostMem (s : State) (rid : Nat) (f : Req → Req) : (State.updReq s rid f).host.mem = s.host.mem := by
  simp [State.updReq]

@[simp] theorem State.updReqs_board (s : State) (f : Req → Req) : (State.updReqs s f).board = s.board := by
  simp [State.updReqs]

@[simp] theorem State.updReqs_status (s : State) (f : Req → Req) : (State.updReqs s f).status = s.status := by
  simp [State.updReqs]

@[simp] theorem State.updReqs_hostMem (s : State) (f : Req → Req) : (State.updReqs s f).host.mem = s.host.mem := by
  simp [State.updReqs]

@[simp] theorem State.updSeq_board (s : State) (h : W32) (f : Seq → Seq) : (State.updSeq s h f).board = s.board := by
  simp [State.updSeq]

@[simp] theorem State.updSeq_status (s : State) (h : W32) (f : Seq → Seq) : (State.updSeq s h f).status = s.status := by
  simp [State.updSeq]

@[simp] theorem State.updSeq_hostMem (s : State) (h : W32) (f : Seq → Seq) : (State.updSeq s h f).host.mem = s.host.mem := by
  simp [State.updSeq]

@[simp] theorem State.stageEdit_board (s : State) (t : Nat) (h : W32) (v : Nat) (e : W64) : (State.stageEdit s t h v e).board = s.board := by
  simp [State.stageEdit]

@[simp] theorem State.stageEdit_status (s : State) (t : Nat) (h : W32) (v : Nat) (e : W64) : (State.stageEdit s t h v e).status = s.status := by
  simp [State.stageEdit]

@[simp] theorem State.stageEdit_hostMem (s : State) (t : Nat) (h : W32) (v : Nat) (e : W64) : (State.stageEdit s t h v e).host.mem = s.host.mem := by
  simp [State.stageEdit]

@[simp] theorem State.answerPort_board (s : State) (port : Nat) : (State.answerPort s port).board = s.board := by
  simp [State.answerPort]

@[simp] theorem State.answerPort_status (s : State) (port : Nat) : (State.answerPort s port).status = s.status := by
  simp [State.answerPort]

@[simp] theorem State.answerPort_hostMem (s : State) (port : Nat) : (State.answerPort s port).host.mem = s.host.mem := by
  simp [State.answerPort]

@[simp] theorem State.abortAll_board (s : State) : (State.abortAll s).board = s.board := by
  simp [State.abortAll]

@[simp] theorem State.abortAll_status (s : State) : (State.abortAll s).status = s.status := by
  simp [State.abortAll]

@[simp] theorem State.joinDiscard_board (s : State) : (State.joinDiscard s).board = s.board := by
  simp [State.joinDiscard]

@[simp] theorem State.joinDiscard_status (s : State) : (State.joinDiscard s).status = s.status := by
  simp [State.joinDiscard]

@[simp] theorem State.joinDiscard_hostMem (s : State) : (State.joinDiscard s).host.mem = s.host.mem := by
  simp [State.joinDiscard]

@[simp] theorem State.leaveToJoin_board (s : State) : (State.leaveToJoin s).board = s.board := by
  simp [State.leaveToJoin]

@[simp] theorem State.enterFault_board (s : State) (cls detail : Nat) : (State.enterFault s cls detail).board = s.board := by
  simp [State.enterFault]

@[simp] theorem State.failAttempt_board (s : State) (cause : Nat) (partKind : Nat) (partNum : Nat) (layer : Nat) : (State.failAttempt s cause
    partKind partNum layer).board = s.board := by
  simp [State.failAttempt]

@[simp] theorem State.failAttempt_status (s : State) (cause : Nat) (partKind : Nat) (partNum : Nat) (layer : Nat) : (State.failAttempt s cause
    partKind partNum layer).status = s.status := by
  simp [State.failAttempt]

@[simp] theorem State.failAttempt_hostMem (s : State) (cause : Nat) (partKind : Nat) (partNum : Nat) (layer : Nat) : (State.failAttempt s cause
    partKind partNum layer).host.mem = s.host.mem := by
  simp [State.failAttempt]

@[simp] theorem State.send_board (s : State) (m : OutMsg) : (State.send s m).board = s.board := by
  simp [State.send]

@[simp] theorem State.send_status (s : State) (m : OutMsg) : (State.send s m).status = s.status := by
  simp [State.send]

@[simp] theorem State.send_hostMem (s : State) (m : OutMsg) : (State.send s m).host.mem = s.host.mem := by
  simp [State.send]

@[simp] theorem State.writeHbm_board (s : State) (a : Nat) (bs : List Byte) : (State.writeHbm s a bs).board = s.board := by
  simp [State.writeHbm]

@[simp] theorem State.writeHbm_status (s : State) (a : Nat) (bs : List Byte) : (State.writeHbm s a bs).status = s.status := by
  simp [State.writeHbm]

@[simp] theorem State.writeHbm_hostMem (s : State) (a : Nat) (bs : List Byte) : (State.writeHbm s a bs).host.mem = s.host.mem := by
  simp [State.writeHbm]

@[simp] theorem State.writeSide_board (s : State) (a : Nat) (bs : List Byte) : (State.writeSide s a bs).board = s.board := by
  simp [State.writeSide]

@[simp] theorem State.writeSide_status (s : State) (a : Nat) (bs : List Byte) : (State.writeSide s a bs).status = s.status := by
  simp [State.writeSide]

@[simp] theorem State.writeSide_hostMem (s : State) (a : Nat) (bs : List Byte) : (State.writeSide s a bs).host.mem = s.host.mem := by
  simp [State.writeSide]

@[simp] theorem State.writeLand_board (s : State) (a : Nat) (bs : List Byte) : (State.writeLand s a bs).board = s.board := by
  simp [State.writeLand]

@[simp] theorem State.writeLand_status (s : State) (a : Nat) (bs : List Byte) : (State.writeLand s a bs).status = s.status := by
  simp [State.writeLand]

@[simp] theorem State.writeLand_hostMem (s : State) (a : Nat) (bs : List Byte) : (State.writeLand s a bs).host.mem = s.host.mem := by
  simp [State.writeLand]

@[simp] theorem State.writeFlash_board (s : State) (a : Nat) (bs : List Byte) : (State.writeFlash s a bs).board = s.board := by
  simp [State.writeFlash]

@[simp] theorem State.writeFlash_status (s : State) (a : Nat) (bs : List Byte) : (State.writeFlash s a bs).status = s.status := by
  simp [State.writeFlash]

@[simp] theorem State.writeFlash_hostMem (s : State) (a : Nat) (bs : List Byte) : (State.writeFlash s a bs).host.mem = s.host.mem := by
  simp [State.writeFlash]

@[simp] theorem State.setHbmSide_board (s : State) (frame b : Nat) : (State.setHbmSide s frame b).board = s.board := by
  simp [State.setHbmSide]

@[simp] theorem State.setHbmSide_status (s : State) (frame b : Nat) : (State.setHbmSide s frame b).status = s.status := by
  simp [State.setHbmSide]

@[simp] theorem State.setHbmSide_hostMem (s : State) (frame b : Nat) : (State.setHbmSide s frame b).host.mem = s.host.mem := by
  simp [State.setHbmSide]

@[simp] theorem State.setFlashSide_board (s : State) (frame b : Nat) : (State.setFlashSide s frame b).board = s.board := by
  simp [State.setFlashSide]

@[simp] theorem State.setFlashSide_status (s : State) (frame b : Nat) : (State.setFlashSide s frame b).status = s.status := by
  simp [State.setFlashSide]

@[simp] theorem State.setFlashSide_hostMem (s : State) (frame b : Nat) : (State.setFlashSide s frame b).host.mem = s.host.mem := by
  simp [State.setFlashSide]

@[simp] theorem State.countFlags_board (s : State) (die core : Nat) (f : Flags) : (State.countFlags s die core f).board = s.board := by
  simp [State.countFlags]

@[simp] theorem State.countFlags_status (s : State) (die core : Nat) (f : Flags) : (State.countFlags s die core f).status = s.status := by
  simp [State.countFlags]

@[simp] theorem State.countFlags_hostMem (s : State) (die core : Nat) (f : Flags) : (State.countFlags s die core f).host.mem = s.host.mem := by
  simp [State.countFlags]

@[simp] theorem State.raiseFlags_board (s : State) (die core : Nat) (rid : Option Nat) (f : Flags) : (State.raiseFlags s die core rid f).board =
    s.board := by
  unfold State.raiseFlags; split <;> simp

@[simp] theorem State.raiseFlags_status (s : State) (die core : Nat) (rid : Option Nat) (f : Flags) : (State.raiseFlags s die core rid f).status =
    s.status := by
  unfold State.raiseFlags; split <;> simp

@[simp] theorem State.raiseFlags_hostMem (s : State) (die core : Nat) (rid : Option Nat) (f : Flags) : (State.raiseFlags s die core rid f).host.mem
    = s.host.mem := by
  unfold State.raiseFlags; split <;> simp

@[simp] theorem State.commitFlags_board (s : State) : (State.commitFlags s).board = s.board := by
  simp [State.commitFlags]

@[simp] theorem State.commitFlags_status (s : State) : (State.commitFlags s).status = s.status := by
  simp [State.commitFlags]

@[simp] theorem State.commitFlags_hostMem (s : State) : (State.commitFlags s).host.mem = s.host.mem := by
  simp [State.commitFlags]

@[simp] theorem State.setCtx_board (s : State) (core n : Nat) (x : Ctx) : (State.setCtx s core n x).board = s.board := by
  simp [State.setCtx]

@[simp] theorem State.setCtx_status (s : State) (core n : Nat) (x : Ctx) : (State.setCtx s core n x).status = s.status := by
  simp [State.setCtx]

@[simp] theorem State.setCtx_hostMem (s : State) (core n : Nat) (x : Ctx) : (State.setCtx s core n x).host.mem = s.host.mem := by
  simp [State.setCtx]

@[simp] theorem State.ctxCount_board (s : State) (core n ev e : Nat) (k : Nat) : (State.ctxCount s core n ev e k).board = s.board := by
  simp [State.ctxCount]

@[simp] theorem State.ctxCount_status (s : State) (core n ev e : Nat) (k : Nat) : (State.ctxCount s core n ev e k).status = s.status := by
  simp [State.ctxCount]

@[simp] theorem State.ctxCount_hostMem (s : State) (core n ev e : Nat) (k : Nat) : (State.ctxCount s core n ev e k).host.mem = s.host.mem := by
  simp [State.ctxCount]

@[simp] theorem State.ctxOnly_board (s : State) (core n e : Nat) (k : Nat) : (State.ctxOnly s core n e k).board = s.board := by
  simp [State.ctxOnly]

@[simp] theorem State.ctxOnly_status (s : State) (core n e : Nat) (k : Nat) : (State.ctxOnly s core n e k).status = s.status := by
  simp [State.ctxOnly]

@[simp] theorem State.ctxOnly_hostMem (s : State) (core n e : Nat) (k : Nat) : (State.ctxOnly s core n e k).host.mem = s.host.mem := by
  simp [State.ctxOnly]

@[simp] theorem State.coreCount_board (s : State) (core ev : Nat) (k : Nat) : (State.coreCount s core ev k).board = s.board := by
  simp [State.coreCount]

@[simp] theorem State.coreCount_status (s : State) (core ev : Nat) (k : Nat) : (State.coreCount s core ev k).status = s.status := by
  simp [State.coreCount]

@[simp] theorem State.coreCount_hostMem (s : State) (core ev : Nat) (k : Nat) : (State.coreCount s core ev k).host.mem = s.host.mem := by
  simp [State.coreCount]

@[simp] theorem State.consume_board (s : State) (die task : Nat) (rs : List (Nat × Nat)) : (State.consume s die task rs).board = s.board := by
  simp [State.consume]

@[simp] theorem State.consume_status (s : State) (die task : Nat) (rs : List (Nat × Nat)) : (State.consume s die task rs).status = s.status := by
  simp [State.consume]

@[simp] theorem State.consume_hostMem (s : State) (die task : Nat) (rs : List (Nat × Nat)) : (State.consume s die task rs).host.mem = s.host.mem := by
  simp [State.consume]

@[simp] theorem State.askLoads_board (s : State) (core n : Nat) : (State.askLoads s core n).board = s.board := by
  simp [State.askLoads]

@[simp] theorem State.askLoads_status (s : State) (core n : Nat) : (State.askLoads s core n).status = s.status := by
  simp [State.askLoads]

@[simp] theorem State.askLoads_hostMem (s : State) (core n : Nat) : (State.askLoads s core n).host.mem = s.host.mem := by
  simp [State.askLoads]

@[simp] theorem State.dropAsks_board (s : State) (core : Nat) : (State.dropAsks s core).board = s.board := by
  simp [State.dropAsks]

@[simp] theorem State.dropAsks_status (s : State) (core : Nat) : (State.dropAsks s core).status = s.status := by
  simp [State.dropAsks]

@[simp] theorem State.dropAsks_hostMem (s : State) (core : Nat) : (State.dropAsks s core).host.mem = s.host.mem := by
  simp [State.dropAsks]

@[simp] theorem State.promoteAsks_board (s : State) (core : Nat) : (State.promoteAsks s core).board = s.board := by
  simp [State.promoteAsks]

@[simp] theorem State.promoteAsks_status (s : State) (core : Nat) : (State.promoteAsks s core).status = s.status := by
  simp [State.promoteAsks]

@[simp] theorem State.promoteAsks_hostMem (s : State) (core : Nat) : (State.promoteAsks s core).host.mem = s.host.mem := by
  simp [State.promoteAsks]

@[simp] theorem State.resume_board (s : State) (core n : Nat) : (State.resume s core n).board = s.board := by
  simp [State.resume]

@[simp] theorem State.resume_status (s : State) (core n : Nat) : (State.resume s core n).status = s.status := by
  simp [State.resume]

@[simp] theorem State.resume_hostMem (s : State) (core n : Nat) : (State.resume s core n).host.mem = s.host.mem := by
  simp [State.resume]

@[simp] theorem State.nextCtx_board (s : State) (core : Nat) : (State.nextCtx s core).board = s.board := by
  unfold State.nextCtx; dsimp only; (repeat' split) <;> simp

@[simp] theorem State.nextCtx_status (s : State) (core : Nat) : (State.nextCtx s core).status = s.status := by
  unfold State.nextCtx; dsimp only; (repeat' split) <;> simp

@[simp] theorem State.nextCtx_hostMem (s : State) (core : Nat) : (State.nextCtx s core).host.mem = s.host.mem := by
  unfold State.nextCtx; dsimp only; (repeat' split) <;> simp

@[simp] theorem State.placeTask_board (s : State) (core n : Nat) : (State.placeTask s core n).board = s.board := by
  unfold State.placeTask; dsimp only; (repeat' split) <;> simp

@[simp] theorem State.placeTask_status (s : State) (core n : Nat) : (State.placeTask s core n).status = s.status := by
  unfold State.placeTask; dsimp only; (repeat' split) <;> simp

@[simp] theorem State.placeTask_hostMem (s : State) (core n : Nat) : (State.placeTask s core n).host.mem = s.host.mem := by
  unfold State.placeTask; dsimp only; (repeat' split) <;> simp

@[simp] theorem State.finishCtx_board (s : State) (core n : Nat) : (State.finishCtx s core n).board = s.board := by
  simp [State.finishCtx]

@[simp] theorem State.finishCtx_status (s : State) (core n : Nat) : (State.finishCtx s core n).status = s.status := by
  simp [State.finishCtx]

@[simp] theorem State.finishCtx_hostMem (s : State) (core n : Nat) : (State.finishCtx s core n).host.mem = s.host.mem := by
  simp [State.finishCtx]

@[simp] theorem State.faultReq_board (s : State) (r : Option Nat) (code : Nat) : (State.faultReq s r code).board = s.board := by
  unfold State.faultReq; split <;> simp

@[simp] theorem State.faultReq_status (s : State) (r : Option Nat) (code : Nat) : (State.faultReq s r code).status = s.status := by
  unfold State.faultReq; split <;> simp

@[simp] theorem State.faultReq_hostMem (s : State) (r : Option Nat) (code : Nat) : (State.faultReq s r code).host.mem = s.host.mem := by
  unfold State.faultReq; split <;> simp

@[simp] theorem State.forget_board (s : State) (task : Nat) : (State.forget s task).board = s.board := by
  simp [State.forget]

@[simp] theorem State.forget_status (s : State) (task : Nat) : (State.forget s task).status = s.status := by
  simp [State.forget]

@[simp] theorem State.forget_hostMem (s : State) (task : Nat) : (State.forget s task).host.mem = s.host.mem := by
  simp [State.forget]

@[simp] theorem State.failOne_board (code : Nat) (s : State) (e : Nat × Nat) : (State.failOne code s e).board = s.board := by
  simp [State.failOne]

@[simp] theorem State.failOne_status (code : Nat) (s : State) (e : Nat × Nat) : (State.failOne code s e).status = s.status := by
  simp [State.failOne]

@[simp] theorem State.failOne_hostMem (code : Nat) (s : State) (e : Nat × Nat) : (State.failOne code s e).host.mem = s.host.mem := by
  simp [State.failOne]

@[simp] theorem State.failWave_board (code k : Nat) (ts : List Nat) (s : State) : (State.failWave code k ts s).board = s.board := by
  induction k generalizing ts s with
  | zero => rfl
  | succ k ih =>
    unfold State.failWave; split
    · rfl
    · rw [ih]; exact foldl_board _ (fun s e => State.failOne_board code s e) _ _

@[simp] theorem State.failWave_status (code k : Nat) (ts : List Nat) (s : State) : (State.failWave code k ts s).status = s.status := by
  induction k generalizing ts s with
  | zero => rfl
  | succ k ih =>
    unfold State.failWave; split
    · rfl
    · rw [ih]; exact foldl_status _ (fun s e => State.failOne_status code s e) _ _

@[simp] theorem State.failWave_hostMem (code k : Nat) (ts : List Nat) (s : State) : (State.failWave code k ts s).host.mem = s.host.mem := by
  induction k generalizing ts s with
  | zero => rfl
  | succ k ih =>
    unfold State.failWave; split
    · rfl
    · rw [ih]; exact foldl_hostMem _ (fun s e => State.failOne_hostMem code s e) _ _

@[simp] theorem State.failCtx_board (s : State) (core n code : Nat) : (State.failCtx s core n code).board = s.board := by
  simp [State.failCtx]

@[simp] theorem State.failCtx_status (s : State) (core n code : Nat) : (State.failCtx s core n code).status = s.status := by
  simp [State.failCtx]

@[simp] theorem State.failCtx_hostMem (s : State) (core n code : Nat) : (State.failCtx s core n code).host.mem = s.host.mem := by
  simp [State.failCtx]

@[simp] theorem State.failSet_board (s : State) (set : List (Nat × Nat)) (code : Nat) : (State.failSet s set code).board = s.board := by
  simp [State.failSet]

@[simp] theorem State.failSet_status (s : State) (set : List (Nat × Nat)) (code : Nat) : (State.failSet s set code).status = s.status := by
  simp [State.failSet]

@[simp] theorem State.failSet_hostMem (s : State) (set : List (Nat × Nat)) (code : Nat) : (State.failSet s set code).host.mem = s.host.mem := by
  simp [State.failSet]

@[simp] theorem State.raiseAll_board (s : State) (core : Nat) (rid : Option Nat) (fs : List Flags) : (State.raiseAll s core rid fs).board = s.board
    := by
  simp [State.raiseAll]

@[simp] theorem State.raiseAll_status (s : State) (core : Nat) (rid : Option Nat) (fs : List Flags) : (State.raiseAll s core rid fs).status =
    s.status := by
  simp [State.raiseAll]

@[simp] theorem State.raiseAll_hostMem (s : State) (core : Nat) (rid : Option Nat) (fs : List Flags) : (State.raiseAll s core rid fs).host.mem =
    s.host.mem := by
  simp [State.raiseAll]

@[simp] theorem State.addWork_board (s : State) (core n slots : Nat) : (State.addWork s core n slots).board = s.board := by
  simp [State.addWork]

@[simp] theorem State.addWork_status (s : State) (core n slots : Nat) : (State.addWork s core n slots).status = s.status := by
  simp [State.addWork]

@[simp] theorem State.addWork_hostMem (s : State) (core n slots : Nat) : (State.addWork s core n slots).host.mem = s.host.mem := by
  simp [State.addWork]

@[simp] theorem State.tryCompute_board (s : State) (core : Nat) : (State.tryCompute s core).board = s.board := by
  unfold State.tryCompute; dsimp only; (repeat' split) <;> simp

@[simp] theorem State.tryCompute_status (s : State) (core : Nat) : (State.tryCompute s core).status = s.status := by
  unfold State.tryCompute; dsimp only; (repeat' split) <;> simp

@[simp] theorem State.tryCompute_hostMem (s : State) (core : Nat) : (State.tryCompute s core).host.mem = s.host.mem := by
  unfold State.tryCompute; dsimp only; (repeat' split) <;> simp

@[simp] theorem State.compute_board (s : State) (core : Nat) : (State.compute s core).board = s.board := by
  simp [State.compute]

@[simp] theorem State.compute_status (s : State) (core : Nat) : (State.compute s core).status = s.status := by
  simp [State.compute]

@[simp] theorem State.compute_hostMem (s : State) (core : Nat) : (State.compute s core).host.mem = s.host.mem := by
  simp [State.compute]

@[simp] theorem State.storeTile_board (s : State) (core n : Nat) (chain : List ChainStep) (vals : List Nat) : (State.storeTile s core n chain
    vals).board = s.board := by
  simp [State.storeTile]

@[simp] theorem State.storeTile_status (s : State) (core n : Nat) (chain : List ChainStep) (vals : List Nat) : (State.storeTile s core n chain
    vals).status = s.status := by
  simp [State.storeTile]

@[simp] theorem State.storeTile_hostMem (s : State) (core n : Nat) (chain : List ChainStep) (vals : List Nat) : (State.storeTile s core n chain
    vals).host.mem = s.host.mem := by
  simp [State.storeTile]

@[simp] theorem State.afterTile_board (s : State) (core n : Nat) : (State.afterTile s core n).board = s.board := by
  simp [State.afterTile]

@[simp] theorem State.afterTile_status (s : State) (core n : Nat) : (State.afterTile s core n).status = s.status := by
  simp [State.afterTile]

@[simp] theorem State.afterTile_hostMem (s : State) (core n : Nat) : (State.afterTile s core n).host.mem = s.host.mem := by
  simp [State.afterTile]

@[simp] theorem State.startCtx_board (s : State) (core n : Nat) : (State.startCtx s core n).board = s.board := by
  simp [State.startCtx]

@[simp] theorem State.startCtx_status (s : State) (core n : Nat) : (State.startCtx s core n).status = s.status := by
  simp [State.startCtx]

@[simp] theorem State.startCtx_hostMem (s : State) (core n : Nat) : (State.startCtx s core n).host.mem = s.host.mem := by
  simp [State.startCtx]

@[simp] theorem State.passCtx_board (s : State) (core n : Nat) : (State.passCtx s core n).board = s.board := by
  simp [State.passCtx]

@[simp] theorem State.passCtx_status (s : State) (core n : Nat) : (State.passCtx s core n).status = s.status := by
  simp [State.passCtx]

@[simp] theorem State.passCtx_hostMem (s : State) (core n : Nat) : (State.passCtx s core n).host.mem = s.host.mem := by
  simp [State.passCtx]

@[simp] theorem State.countFault_board (s : State) (core n code : Nat) : (State.countFault s core n code).board = s.board := by
  simp [State.countFault]

@[simp] theorem State.countFault_status (s : State) (core n code : Nat) : (State.countFault s core n code).status = s.status := by
  simp [State.countFault]

@[simp] theorem State.countFault_hostMem (s : State) (core n code : Nat) : (State.countFault s core n code).host.mem = s.host.mem := by
  simp [State.countFault]

@[simp] theorem State.faultCtx_board (s : State) (core n code : Nat) : (State.faultCtx s core n code).board = s.board := by
  simp [State.faultCtx]

@[simp] theorem State.faultCtx_status (s : State) (core n code : Nat) : (State.faultCtx s core n code).status = s.status := by
  simp [State.faultCtx]

@[simp] theorem State.faultCtx_hostMem (s : State) (core n code : Nat) : (State.faultCtx s core n code).host.mem = s.host.mem := by
  simp [State.faultCtx]

@[simp] theorem State.loadOperand_board (s : State) (r : PortReq) : (State.loadOperand s r).board = s.board := by
  simp [State.loadOperand]

@[simp] theorem State.loadOperand_status (s : State) (r : PortReq) : (State.loadOperand s r).status = s.status := by
  simp [State.loadOperand]

@[simp] theorem State.loadOperand_hostMem (s : State) (r : PortReq) : (State.loadOperand s r).host.mem = s.host.mem := by
  simp [State.loadOperand]

@[simp] theorem State.setHbmEnt_board (s : State) (f : Nat) (e : FrameEnt) : (State.setHbmEnt s f e).board = s.board := by
  simp [State.setHbmEnt]

@[simp] theorem State.setHbmEnt_status (s : State) (f : Nat) (e : FrameEnt) : (State.setHbmEnt s f e).status = s.status := by
  simp [State.setHbmEnt]

@[simp] theorem State.setHbmEnt_hostMem (s : State) (f : Nat) (e : FrameEnt) : (State.setHbmEnt s f e).host.mem = s.host.mem := by
  simp [State.setHbmEnt]

@[simp] theorem State.setFlashEnt_board (s : State) (f : Nat) (e : FrameEnt) : (State.setFlashEnt s f e).board = s.board := by
  simp [State.setFlashEnt]

@[simp] theorem State.setFlashEnt_status (s : State) (f : Nat) (e : FrameEnt) : (State.setFlashEnt s f e).status = s.status := by
  simp [State.setFlashEnt]

@[simp] theorem State.setFlashEnt_hostMem (s : State) (f : Nat) (e : FrameEnt) : (State.setFlashEnt s f e).host.mem = s.host.mem := by
  simp [State.setFlashEnt]

@[simp] theorem State.lotCount_board (s : State) (die lot ev : Nat) (n : Nat) : (State.lotCount s die lot ev n).board = s.board := by
  simp [State.lotCount]

@[simp] theorem State.lotCount_status (s : State) (die lot ev : Nat) (n : Nat) : (State.lotCount s die lot ev n).status = s.status := by
  simp [State.lotCount]

@[simp] theorem State.lotCount_hostMem (s : State) (die lot ev : Nat) (n : Nat) : (State.lotCount s die lot ev n).host.mem = s.host.mem := by
  simp [State.lotCount]

@[simp] theorem State.overdraw_board (s : State) (beyond : Bool) (die lot : Nat) : (State.overdraw s beyond die lot).board = s.board := by
  simp [State.overdraw]

@[simp] theorem State.overdraw_status (s : State) (beyond : Bool) (die lot : Nat) : (State.overdraw s beyond die lot).status = s.status := by
  simp [State.overdraw]

@[simp] theorem State.overdraw_hostMem (s : State) (beyond : Bool) (die lot : Nat) : (State.overdraw s beyond die lot).host.mem = s.host.mem := by
  simp [State.overdraw]

@[simp] theorem State.allocHbm_board (s : State) (f lot : Nat) : (State.allocHbm s f lot).board = s.board := by
  simp [State.allocHbm]

@[simp] theorem State.allocHbm_status (s : State) (f lot : Nat) : (State.allocHbm s f lot).status = s.status := by
  simp [State.allocHbm]

@[simp] theorem State.allocHbm_hostMem (s : State) (f lot : Nat) : (State.allocHbm s f lot).host.mem = s.host.mem := by
  simp [State.allocHbm]

@[simp] theorem State.allocFlash_board (s : State) (f lot : Nat) : (State.allocFlash s f lot).board = s.board := by
  simp [State.allocFlash]

@[simp] theorem State.allocFlash_status (s : State) (f lot : Nat) : (State.allocFlash s f lot).status = s.status := by
  simp [State.allocFlash]

@[simp] theorem State.allocFlash_hostMem (s : State) (f lot : Nat) : (State.allocFlash s f lot).host.mem = s.host.mem := by
  simp [State.allocFlash]

@[simp] theorem State.incRef_board (s : State) (r : Option (Bool × Nat)) : (State.incRef s r).board = s.board := by
  unfold State.incRef; split <;> simp

@[simp] theorem State.incRef_status (s : State) (r : Option (Bool × Nat)) : (State.incRef s r).status = s.status := by
  unfold State.incRef; split <;> simp

@[simp] theorem State.incRef_hostMem (s : State) (r : Option (Bool × Nat)) : (State.incRef s r).host.mem = s.host.mem := by
  unfold State.incRef; split <;> simp

@[simp] theorem State.decRef_board (s : State) (r : Option (Bool × Nat)) : (State.decRef s r).board = s.board := by
  unfold State.decRef; split <;> simp

@[simp] theorem State.decRef_status (s : State) (r : Option (Bool × Nat)) : (State.decRef s r).status = s.status := by
  unfold State.decRef; split <;> simp

@[simp] theorem State.decRef_hostMem (s : State) (r : Option (Bool × Nat)) : (State.decRef s r).host.mem = s.host.mem := by
  unfold State.decRef; split <;> simp

@[simp] theorem State.pinHbm_board (s : State) (f : Nat) (up : Bool) : (State.pinHbm s f up).board = s.board := by
  simp [State.pinHbm]

@[simp] theorem State.pinHbm_status (s : State) (f : Nat) (up : Bool) : (State.pinHbm s f up).status = s.status := by
  simp [State.pinHbm]

@[simp] theorem State.pinHbm_hostMem (s : State) (f : Nat) (up : Bool) : (State.pinHbm s f up).host.mem = s.host.mem := by
  simp [State.pinHbm]

@[simp] theorem State.writeSketch_board (s : State) (h : W32) (v : Nat) (k : BitVec 256) : (State.writeSketch s h v k).board = s.board := by
  unfold State.writeSketch; split <;> simp

@[simp] theorem State.writeSketch_status (s : State) (h : W32) (v : Nat) (k : BitVec 256) : (State.writeSketch s h v k).status = s.status := by
  unfold State.writeSketch; split <;> simp

@[simp] theorem State.writeSketch_hostMem (s : State) (h : W32) (v : Nat) (k : BitVec 256) : (State.writeSketch s h v k).host.mem = s.host.mem := by
  unfold State.writeSketch; split <;> simp

@[simp] theorem State.growTable_board (h : W32) (s : State) (lot : Nat) : (State.growTable h s lot).board = s.board := by
  unfold State.growTable; split <;> simp

@[simp] theorem State.growTable_status (h : W32) (s : State) (lot : Nat) : (State.growTable h s lot).status = s.status := by
  unfold State.growTable; split <;> simp

@[simp] theorem State.growTable_hostMem (h : W32) (s : State) (lot : Nat) : (State.growTable h s lot).host.mem = s.host.mem := by
  unfold State.growTable; split <;> simp

@[simp] theorem State.settleTable_board (s : State) (h : W32) : (State.settleTable s h).board = s.board := by
  unfold State.settleTable; split <;> simp

@[simp] theorem State.settleTable_status (s : State) (h : W32) : (State.settleTable s h).status = s.status := by
  unfold State.settleTable; split <;> simp

@[simp] theorem State.settleTable_hostMem (s : State) (h : W32) : (State.settleTable s h).host.mem = s.host.mem := by
  unfold State.settleTable; split <;> simp

@[simp] theorem State.copyFrame_board (s : State) (src dst : Nat) : (State.copyFrame s src dst).board = s.board := by
  simp [State.copyFrame]

@[simp] theorem State.copyFrame_status (s : State) (src dst : Nat) : (State.copyFrame s src dst).status = s.status := by
  simp [State.copyFrame]

@[simp] theorem State.copyFrame_hostMem (s : State) (src dst : Nat) : (State.copyFrame s src dst).host.mem = s.host.mem := by
  simp [State.copyFrame]

@[simp] theorem State.applyEdit_board (s : State) (old new : W64) : (State.applyEdit s old new).board = s.board := by
  simp [State.applyEdit]

@[simp] theorem State.applyEdit_status (s : State) (old new : W64) : (State.applyEdit s old new).status = s.status := by
  simp [State.applyEdit]

@[simp] theorem State.applyEdit_hostMem (s : State) (old new : W64) : (State.applyEdit s old new).host.mem = s.host.mem := by
  simp [State.applyEdit]

@[simp] theorem State.queueClean_board (s : State) (t f : Nat) : (State.queueClean s t f).board = s.board := by
  simp [State.queueClean]

@[simp] theorem State.queueClean_status (s : State) (t f : Nat) : (State.queueClean s t f).status = s.status := by
  simp [State.queueClean]

@[simp] theorem State.queueClean_hostMem (s : State) (t f : Nat) : (State.queueClean s t f).host.mem = s.host.mem := by
  simp [State.queueClean]

@[simp] theorem State.commitEdits_board (s : State) (t : Nat) (q : Seq) : (State.commitEdits s t q).board = s.board := by
  simp [State.commitEdits]

@[simp] theorem State.commitEdits_status (s : State) (t : Nat) (q : Seq) : (State.commitEdits s t q).status = s.status := by
  simp [State.commitEdits]

@[simp] theorem State.commitEdits_hostMem (s : State) (t : Nat) (q : Seq) : (State.commitEdits s t q).host.mem = s.host.mem := by
  simp [State.commitEdits]

@[simp] theorem State.queueDue_board (s : State) (t : Nat) (q : Seq) : (State.queueDue s t q).board = s.board := by
  simp [State.queueDue]

@[simp] theorem State.queueDue_status (s : State) (t : Nat) (q : Seq) : (State.queueDue s t q).status = s.status := by
  simp [State.queueDue]

@[simp] theorem State.queueDue_hostMem (s : State) (t : Nat) (q : Seq) : (State.queueDue s t q).host.mem = s.host.mem := by
  simp [State.queueDue]

@[simp] theorem State.stackCount_board (s : State) (stack ev : Nat) : (State.stackCount s stack ev).board = s.board := by
  simp [State.stackCount]

@[simp] theorem State.stackCount_status (s : State) (stack ev : Nat) : (State.stackCount s stack ev).status = s.status := by
  simp [State.stackCount]

@[simp] theorem State.stackCount_hostMem (s : State) (stack ev : Nat) : (State.stackCount s stack ev).host.mem = s.host.mem := by
  simp [State.stackCount]

@[simp] theorem State.pickBlock_board (s : State) (channel : Nat) (but : Option Nat) : (s.pickBlock channel but).2.board = s.board := by
  unfold State.pickBlock; dsimp only; (repeat' split) <;> simp [State.openBlock]

@[simp] theorem State.pickBlock_status (s : State) (channel : Nat) (but : Option Nat) : (s.pickBlock channel but).2.status = s.status := by
  unfold State.pickBlock; dsimp only; (repeat' split) <;> simp [State.openBlock]

@[simp] theorem State.pickBlock_hostMem (s : State) (channel : Nat) (but : Option Nat) : (s.pickBlock channel but).2.host.mem = s.host.mem := by
  unfold State.pickBlock; dsimp only; (repeat' split) <;> simp [State.openBlock]

@[simp] theorem State.setSlot_board (s : State) (n : Nat) (x : Slot) : (State.setSlot s n x).board = s.board := by
  simp [State.setSlot]

@[simp] theorem State.setSlot_status (s : State) (n : Nat) (x : Slot) : (State.setSlot s n x).status = s.status := by
  simp [State.setSlot]

@[simp] theorem State.setSlot_hostMem (s : State) (n : Nat) (x : Slot) : (State.setSlot s n x).host.mem = s.host.mem := by
  simp [State.setSlot]

@[simp] theorem State.setSlotSide_board (s : State) (n b : Nat) : (State.setSlotSide s n b).board = s.board := by
  simp [State.setSlotSide]

@[simp] theorem State.setSlotSide_status (s : State) (n b : Nat) : (State.setSlotSide s n b).status = s.status := by
  simp [State.setSlotSide]

@[simp] theorem State.setSlotSide_hostMem (s : State) (n b : Nat) : (State.setSlotSide s n b).host.mem = s.host.mem := by
  simp [State.setSlotSide]

@[simp] theorem State.takeStaging_board (s : State) (stack part k : Nat) (h : W32) (layer head : Nat) : (State.takeStaging s stack part k h layer
    head).board = s.board := by
  simp [State.takeStaging]

@[simp] theorem State.takeStaging_status (s : State) (stack part k : Nat) (h : W32) (layer head : Nat) : (State.takeStaging s stack part k h layer
    head).status = s.status := by
  simp [State.takeStaging]

@[simp] theorem State.takeStaging_hostMem (s : State) (stack part k : Nat) (h : W32) (layer head : Nat) : (State.takeStaging s stack part k h layer
    head).host.mem = s.host.mem := by
  simp [State.takeStaging]

@[simp] theorem State.freeSlots_board (s : State) (n : Nat) : (State.freeSlots s n).board = s.board := by
  simp [State.freeSlots]

@[simp] theorem State.freeSlots_status (s : State) (n : Nat) : (State.freeSlots s n).status = s.status := by
  simp [State.freeSlots]

@[simp] theorem State.freeSlots_hostMem (s : State) (n : Nat) : (State.freeSlots s n).host.mem = s.host.mem := by
  simp [State.freeSlots]

@[simp] theorem State.fillQueue_board (s : State) (stack : Nat) (bs : List Byte) : (State.fillQueue s stack bs).board = s.board := by
  simp [State.fillQueue]

@[simp] theorem State.fillQueue_status (s : State) (stack : Nat) (bs : List Byte) : (State.fillQueue s stack bs).status = s.status := by
  simp [State.fillQueue]

@[simp] theorem State.fillQueue_hostMem (s : State) (stack : Nat) (bs : List Byte) : (State.fillQueue s stack bs).host.mem = s.host.mem := by
  simp [State.fillQueue]

@[simp] theorem State.writeFlush_board (s : State) (n : Nat) : (State.writeFlush s n).board = s.board := by
  unfold State.writeFlush; dsimp only; (repeat' split) <;> simp

@[simp] theorem State.writeFlush_status (s : State) (n : Nat) : (State.writeFlush s n).status = s.status := by
  unfold State.writeFlush; dsimp only; (repeat' split) <;> simp

@[simp] theorem State.writeFlush_hostMem (s : State) (n : Nat) : (State.writeFlush s n).host.mem = s.host.mem := by
  simp [State.writeFlush]

@[simp] theorem State.sharePage_board (s : State) (t : Nat) (h : W32) (v : Nat) (e : W64) : (State.sharePage s t h v e).board = s.board := by
  simp [State.sharePage]

@[simp] theorem State.sharePage_status (s : State) (t : Nat) (h : W32) (v : Nat) (e : W64) : (State.sharePage s t h v e).status = s.status := by
  simp [State.sharePage]

@[simp] theorem State.sharePage_hostMem (s : State) (t : Nat) (h : W32) (v : Nat) (e : W64) : (State.sharePage s t h v e).host.mem = s.host.mem := by
  simp [State.sharePage]

@[simp] theorem State.freeRunSlots_board (s : State) (h : W32) (first : Nat) : (State.freeRunSlots s h first).board = s.board := by
  simp [State.freeRunSlots]

@[simp] theorem State.freeRunSlots_status (s : State) (h : W32) (first : Nat) : (State.freeRunSlots s h first).status = s.status := by
  simp [State.freeRunSlots]

@[simp] theorem State.freeRunSlots_hostMem (s : State) (h : W32) (first : Nat) : (State.freeRunSlots s h first).host.mem = s.host.mem := by
  simp [State.freeRunSlots]

@[simp] theorem State.shareNode_board (s : State) (t : Nat) (h : W32) (n : PrefixNode) (len : Nat) : (State.shareNode s t h n len).board = s.board
    := by
  simp [State.shareNode]

@[simp] theorem State.shareNode_status (s : State) (t : Nat) (h : W32) (n : PrefixNode) (len : Nat) : (State.shareNode s t h n len).status =
    s.status := by
  simp [State.shareNode]

@[simp] theorem State.shareNode_hostMem (s : State) (t : Nat) (h : W32) (n : PrefixNode) (len : Nat) : (State.shareNode s t h n len).host.mem =
    s.host.mem := by
  simp [State.shareNode]

@[simp] theorem State.matchPartial_board (s : State) (t : Nat) (h : W32) (q : Seq) (r p : Nat) : (State.matchPartial s t h q r p).board = s.board :=
    by
  unfold State.matchPartial; split <;> simp

@[simp] theorem State.matchPartial_status (s : State) (t : Nat) (h : W32) (q : Seq) (r p : Nat) : (State.matchPartial s t h q r p).status = s.status
    := by
  unfold State.matchPartial; split <;> simp

@[simp] theorem State.matchPartial_hostMem (s : State) (t : Nat) (h : W32) (q : Seq) (r p : Nat) : (State.matchPartial s t h q r p).host.mem =
    s.host.mem := by
  unfold State.matchPartial; split <;> simp

@[simp] theorem State.addNode_board (s : State) (parent : Option Nat) (h : W64) (ts : List W32) (full : Bool) (r t : Nat)
    (fs : List (Nat × W64)) : (s.addNode parent h ts full r t fs).1.board = s.board := by
  simp [State.addNode]

@[simp] theorem State.addNode_status (s : State) (parent : Option Nat) (h : W64) (ts : List W32) (full : Bool) (r t : Nat)
    (fs : List (Nat × W64)) : (s.addNode parent h ts full r t fs).1.status = s.status := by
  simp [State.addNode]

@[simp] theorem State.addNode_hostMem (s : State) (parent : Option Nat) (h : W64) (ts : List W32) (full : Bool) (r t : Nat)
    (fs : List (Nat × W64)) : (s.addNode parent h ts full r t fs).1.host.mem = s.host.mem := by
  simp [State.addNode]

@[simp] theorem State.enterRuns_board (t : Nat) (h : W32) (k : Nat) (s : State) : (s.enterRuns t h k).board = s.board := by
  induction k generalizing s with
  | zero => rfl
  | succ k ih => unfold State.enterRuns; dsimp only; (repeat' split) <;> simp [ih]

@[simp] theorem State.enterRuns_status (t : Nat) (h : W32) (k : Nat) (s : State) : (s.enterRuns t h k).status = s.status := by
  induction k generalizing s with
  | zero => rfl
  | succ k ih => unfold State.enterRuns; dsimp only; (repeat' split) <;> simp [ih]

@[simp] theorem State.enterRuns_hostMem (t : Nat) (h : W32) (k : Nat) (s : State) : (s.enterRuns t h k).host.mem = s.host.mem := by
  induction k generalizing s with
  | zero => rfl
  | succ k ih => unfold State.enterRuns; dsimp only; (repeat' split) <;> simp [ih]

@[simp] theorem State.matchRuns_board (t : Nat) (h : W32) (k : Nat) (s : State) : (s.matchRuns t h k).board = s.board := by
  induction k generalizing s with
  | zero => rfl
  | succ k ih => unfold State.matchRuns; dsimp only; (repeat' split) <;> simp [ih]

@[simp] theorem State.matchRuns_status (t : Nat) (h : W32) (k : Nat) (s : State) : (s.matchRuns t h k).status = s.status := by
  induction k generalizing s with
  | zero => rfl
  | succ k ih => unfold State.matchRuns; dsimp only; (repeat' split) <;> simp [ih]

@[simp] theorem State.matchRuns_hostMem (t : Nat) (h : W32) (k : Nat) (s : State) : (s.matchRuns t h k).host.mem = s.host.mem := by
  induction k generalizing s with
  | zero => rfl
  | succ k ih => unfold State.matchRuns; dsimp only; (repeat' split) <;> simp [ih]

@[simp] theorem State.openBlock_board (s : State) (channel b : Nat) : (State.openBlock s channel b).board = s.board := by
  simp [State.openBlock]

@[simp] theorem State.openBlock_status (s : State) (channel b : Nat) : (State.openBlock s channel b).status = s.status := by
  simp [State.openBlock]

@[simp] theorem State.openBlock_hostMem (s : State) (channel b : Nat) : (State.openBlock s channel b).host.mem = s.host.mem := by
  simp [State.openBlock]

@[simp] theorem State.mapFrame_board (s : State) (frame block : Nat) : (State.mapFrame s frame block).board = s.board := by
  simp [State.mapFrame]

@[simp] theorem State.mapFrame_status (s : State) (frame block : Nat) : (State.mapFrame s frame block).status = s.status := by
  simp [State.mapFrame]

@[simp] theorem State.mapFrame_hostMem (s : State) (frame block : Nat) : (State.mapFrame s frame block).host.mem = s.host.mem := by
  simp [State.mapFrame]

@[simp] theorem State.programFrame_board (s : State) (frame : Nat) : (State.programFrame s frame).board = s.board := by
  simp [State.programFrame]

@[simp] theorem State.programFrame_status (s : State) (frame : Nat) : (State.programFrame s frame).status = s.status := by
  simp [State.programFrame]

@[simp] theorem State.programFrame_hostMem (s : State) (frame : Nat) : (State.programFrame s frame).host.mem = s.host.mem := by
  simp [State.programFrame]

@[simp] theorem State.programFrames_board (s : State) (first n : Nat) : (State.programFrames s first n).board = s.board := by
  simp [State.programFrames]

@[simp] theorem State.programFrames_status (s : State) (first n : Nat) : (State.programFrames s first n).status = s.status := by
  simp [State.programFrames]

@[simp] theorem State.programFrames_hostMem (s : State) (first n : Nat) : (State.programFrames s first n).host.mem = s.host.mem := by
  simp [State.programFrames]

@[simp] theorem State.flashPut_board (s : State) (a : Nat) (bs : List Byte) : (State.flashPut s a bs).board = s.board := by
  simp [State.flashPut]

@[simp] theorem State.flashPut_status (s : State) (a : Nat) (bs : List Byte) : (State.flashPut s a bs).status = s.status := by
  simp [State.flashPut]

@[simp] theorem State.flashPut_hostMem (s : State) (a : Nat) (bs : List Byte) : (State.flashPut s a bs).host.mem = s.host.mem := by
  simp [State.flashPut]

@[simp] theorem State.enqueue_board (s : State) (n : Nat) (f : Flit) : (State.enqueue s n f).board = s.board := by
  simp [State.enqueue]

@[simp] theorem State.enqueue_status (s : State) (n : Nat) (f : Flit) : (State.enqueue s n f).status = s.status := by
  simp [State.enqueue]

@[simp] theorem State.enqueue_hostMem (s : State) (n : Nat) (f : Flit) : (State.enqueue s n f).host.mem = s.host.mem := by
  simp [State.enqueue]

@[simp] theorem State.launch_board (s : State) (f : Flit) : (State.launch s f).board = s.board := by
  unfold State.launch; split <;> simp

@[simp] theorem State.launch_status (s : State) (f : Flit) : (State.launch s f).status = s.status := by
  unfold State.launch; split <;> simp

@[simp] theorem State.launch_hostMem (s : State) (f : Flit) : (State.launch s f).host.mem = s.host.mem := by
  unfold State.launch; split <;> simp

@[simp] theorem State.launchTo_board (m : OutMsg) (s : State) (dest : Nat) : (State.launchTo m s dest).board = s.board := by
  unfold State.launchTo; split <;> simp

@[simp] theorem State.launchTo_status (m : OutMsg) (s : State) (dest : Nat) : (State.launchTo m s dest).status = s.status := by
  unfold State.launchTo; split <;> simp

@[simp] theorem State.launchTo_hostMem (m : OutMsg) (s : State) (dest : Nat) : (State.launchTo m s dest).host.mem = s.host.mem := by
  unfold State.launchTo; split <;> simp

@[simp] theorem State.sendTick_board (s : State) (m : OutMsg) (dests : List Nat) : (State.sendTick s m dests).board = s.board := by
  simp [State.sendTick]

@[simp] theorem State.sendTick_status (s : State) (m : OutMsg) (dests : List Nat) : (State.sendTick s m dests).status = s.status := by
  simp [State.sendTick]

@[simp] theorem State.sendTick_hostMem (s : State) (m : OutMsg) (dests : List Nat) : (State.sendTick s m dests).host.mem = s.host.mem := by
  simp [State.sendTick]

@[simp] theorem State.useMsg_board (s : State) (m : TickMsg) : (State.useMsg s m).board = s.board := by
  simp [State.useMsg]

@[simp] theorem State.useMsg_status (s : State) (m : TickMsg) : (State.useMsg s m).status = s.status := by
  simp [State.useMsg]

@[simp] theorem State.useMsg_hostMem (s : State) (m : TickMsg) : (State.useMsg s m).host.mem = s.host.mem := by
  simp [State.useMsg]

@[simp] theorem State.sendRecord_board (s : State) (r : BitVec 512) (except : Option Nat) : (State.sendRecord s r except).board = s.board := by
  simp [State.sendRecord]

@[simp] theorem State.sendRecord_status (s : State) (r : BitVec 512) (except : Option Nat) : (State.sendRecord s r except).status = s.status := by
  simp [State.sendRecord]

@[simp] theorem State.sendRecord_hostMem (s : State) (r : BitVec 512) (except : Option Nat) : (State.sendRecord s r except).host.mem = s.host.mem :=
    by
  simp [State.sendRecord]

@[simp] theorem State.flood_board (s : State) : (State.flood s).board = s.board := by
  simp [State.flood]

@[simp] theorem State.flood_status (s : State) : (State.flood s).status = s.status := by
  simp [State.flood]

@[simp] theorem State.flood_hostMem (s : State) : (State.flood s).host.mem = s.host.mem := by
  simp [State.flood]

@[simp] theorem State.assessCrew_board (s : State) : (State.assessCrew s).board = s.board := by
  simp [State.assessCrew]

@[simp] theorem State.decideAt_board (s : State) (n : Nat) : (State.decideAt s n).board = s.board := by
  unfold State.decideAt; dsimp only; (repeat' split) <;> simp

@[simp] theorem State.decideAt_status (s : State) (n : Nat) : (State.decideAt s n).status = s.status := by
  unfold State.decideAt; dsimp only; (repeat' split) <;> simp

@[simp] theorem State.decideAt_hostMem (s : State) (n : Nat) : (State.decideAt s n).host.mem = s.host.mem := by
  unfold State.decideAt; dsimp only; (repeat' split) <;> simp

@[simp] theorem State.lostInFlight_board (s : State) (n : Nat) : (State.lostInFlight s n).board = s.board := by
  simp [State.lostInFlight]

@[simp] theorem State.lostInFlight_status (s : State) (n : Nat) : (State.lostInFlight s n).status = s.status := by
  simp [State.lostInFlight]

@[simp] theorem State.lostInFlight_hostMem (s : State) (n : Nat) : (State.lostInFlight s n).host.mem = s.host.mem := by
  simp [State.lostInFlight]

@[simp] theorem State.sendNaks_board (s : State) (n : Nat) (gap : List Nat) : (State.sendNaks s n gap).board = s.board := by
  simp [State.sendNaks]

@[simp] theorem State.sendNaks_status (s : State) (n : Nat) (gap : List Nat) : (State.sendNaks s n gap).status = s.status := by
  simp [State.sendNaks]

@[simp] theorem State.sendNaks_hostMem (s : State) (n : Nat) (gap : List Nat) : (State.sendNaks s n gap).host.mem = s.host.mem := by
  simp [State.sendNaks]

@[simp] theorem State.forward_board (s : State) (arrival : Nat) (f : Flit) : (State.forward s arrival f).board = s.board := by
  unfold State.forward; dsimp only; (repeat' split) <;> simp

@[simp] theorem State.forward_status (s : State) (arrival : Nat) (f : Flit) : (State.forward s arrival f).status = s.status := by
  unfold State.forward; dsimp only; (repeat' split) <;> simp

@[simp] theorem State.forward_hostMem (s : State) (arrival : Nat) (f : Flit) : (State.forward s arrival f).host.mem = s.host.mem := by
  unfold State.forward; dsimp only; (repeat' split) <;> simp

@[simp] theorem State.forwardTransit_board (s : State) (arrival : Nat) (f : Flit) : (State.forwardTransit s arrival f).board = s.board := by
  simp only [State.forwardTransit]; (repeat' split) <;> simp

@[simp] theorem State.forwardTransit_status (s : State) (arrival : Nat) (f : Flit) : (State.forwardTransit s arrival f).status = s.status := by
  simp only [State.forwardTransit]; (repeat' split) <;> simp

@[simp] theorem State.forwardTransit_hostMem (s : State) (arrival : Nat) (f : Flit) : (State.forwardTransit s arrival f).host.mem = s.host.mem := by
  simp only [State.forwardTransit]; (repeat' split) <;> simp

@[simp] theorem State.returnCredit_board (s : State) (n : Nat) (h : BitVec 128) : (State.returnCredit s n h).board = s.board := by
  simp [State.returnCredit]

@[simp] theorem State.returnCredit_status (s : State) (n : Nat) (h : BitVec 128) : (State.returnCredit s n h).status = s.status := by
  simp [State.returnCredit]

@[simp] theorem State.returnCredit_hostMem (s : State) (n : Nat) (h : BitVec 128) : (State.returnCredit s n h).host.mem = s.host.mem := by
  simp [State.returnCredit]

@[simp] theorem State.releaseCredits_board (s : State) (n : Nat) : (State.releaseCredits s n).board = s.board := by
  simp [State.releaseCredits]

@[simp] theorem State.releaseCredits_status (s : State) (n : Nat) : (State.releaseCredits s n).status = s.status := by
  simp [State.releaseCredits]

@[simp] theorem State.releaseCredits_hostMem (s : State) (n : Nat) : (State.releaseCredits s n).host.mem = s.host.mem := by
  simp [State.releaseCredits]

@[simp] theorem State.deliver_board (s : State) (n : Nat) (f : Flit) : (State.deliver s n f).board = s.board := by
  simp [State.deliver]

@[simp] theorem State.deliver_status (s : State) (n : Nat) (f : Flit) : (State.deliver s n f).status = s.status := by
  simp [State.deliver]

@[simp] theorem State.deliver_hostMem (s : State) (n : Nat) (f : Flit) : (State.deliver s n f).host.mem = s.host.mem := by
  simp [State.deliver]

@[simp] theorem State.reroute_board (s : State) (lost : Nat) (f : Flit) : (State.reroute s lost f).board = s.board := by
  unfold State.reroute; split <;> simp

@[simp] theorem State.reroute_status (s : State) (lost : Nat) (f : Flit) : (State.reroute s lost f).status = s.status := by
  unfold State.reroute; split <;> simp

@[simp] theorem State.reroute_hostMem (s : State) (lost : Nat) (f : Flit) : (State.reroute s lost f).host.mem = s.host.mem := by
  unfold State.reroute; split <;> simp

@[simp] theorem State.rerouteTransit_board (s : State) (n : Nat) (f : Flit) : (State.rerouteTransit s n f).board = s.board := by
  unfold State.rerouteTransit; split <;> simp

@[simp] theorem State.rerouteTransit_status (s : State) (n : Nat) (f : Flit) : (State.rerouteTransit s n f).status = s.status := by
  unfold State.rerouteTransit; split <;> simp

@[simp] theorem State.rerouteTransit_hostMem (s : State) (n : Nat) (f : Flit) : (State.rerouteTransit s n f).host.mem = s.host.mem := by
  unfold State.rerouteTransit; split <;> simp

@[simp] theorem State.loseLink_board (s : State) (n reason : Nat) : (State.loseLink s n reason).board = s.board := by
  simp [State.loseLink]

@[simp] theorem State.stageWrite_board (s : State) (die addr : Nat) (bs : List Byte) : (State.stageWrite s die addr bs).board = s.board := by
  simp [State.stageWrite]

@[simp] theorem State.stageWrite_status (s : State) (die addr : Nat) (bs : List Byte) : (State.stageWrite s die addr bs).status = s.status := by
  simp [State.stageWrite]

@[simp] theorem State.stageWrite_hostMem (s : State) (die addr : Nat) (bs : List Byte) : (State.stageWrite s die addr bs).host.mem = s.host.mem := by
  simp [State.stageWrite]

@[simp] theorem State.endDrain_board (s : State) (core : Nat) (rid : Option Nat) (g : Drain) : (State.endDrain s core rid g).board = s.board := by
  simp [State.endDrain]

@[simp] theorem State.endDrain_status (s : State) (core : Nat) (rid : Option Nat) (g : Drain) : (State.endDrain s core rid g).status = s.status := by
  simp [State.endDrain]

@[simp] theorem State.endDrain_hostMem (s : State) (core : Nat) (rid : Option Nat) (g : Drain) : (State.endDrain s core rid g).host.mem = s.host.mem
    := by
  simp [State.endDrain]

@[simp] theorem State.flagVec_board (s : State) (core : Nat) (rid : Option Nat) (f : Flags) : (State.flagVec s core rid f).board = s.board := by
  simp [State.flagVec]

@[simp] theorem State.flagVec_status (s : State) (core : Nat) (rid : Option Nat) (f : Flags) : (State.flagVec s core rid f).status = s.status := by
  simp [State.flagVec]

@[simp] theorem State.flagVec_hostMem (s : State) (core : Nat) (rid : Option Nat) (f : Flags) : (State.flagVec s core rid f).host.mem = s.host.mem
    := by
  simp [State.flagVec]

@[simp] theorem State.storeRow_board (s : State) (core n : Nat) (c : Ctx) (job : RowJob) (r : List Nat × Flags) : (State.storeRow s core n c job
    r).board = s.board := by
  simp [State.storeRow]

@[simp] theorem State.storeRow_status (s : State) (core n : Nat) (c : Ctx) (job : RowJob) (r : List Nat × Flags) : (State.storeRow s core n c job
    r).status = s.status := by
  simp [State.storeRow]

@[simp] theorem State.storeRow_hostMem (s : State) (core n : Nat) (c : Ctx) (job : RowJob) (r : List Nat × Flags) : (State.storeRow s core n c job
    r).host.mem = s.host.mem := by
  simp [State.storeRow]

@[simp] theorem State.noteFold_board (s : State) (core n : Nat) (job : FoldJob) : (State.noteFold s core n job).board = s.board := by
  unfold State.noteFold; split <;> simp

@[simp] theorem State.noteFold_status (s : State) (core n : Nat) (job : FoldJob) : (State.noteFold s core n job).status = s.status := by
  unfold State.noteFold; split <;> simp

@[simp] theorem State.noteFold_hostMem (s : State) (core n : Nat) (job : FoldJob) : (State.noteFold s core n job).host.mem = s.host.mem := by
  unfold State.noteFold; split <;> simp

@[simp] theorem State.queryBlock_board (s : State) (die core n : Nat) (c : Ctx) (job : FoldJob) :
    (s.queryBlock die core n c job).2.board = s.board := by
  unfold State.queryBlock; dsimp only; split <;> simp

@[simp] theorem State.queryBlock_status (s : State) (die core n : Nat) (c : Ctx) (job : FoldJob) :
    (s.queryBlock die core n c job).2.status = s.status := by
  unfold State.queryBlock; dsimp only; split <;> simp

@[simp] theorem State.queryBlock_hostMem (s : State) (die core n : Nat) (c : Ctx) (job : FoldJob) :
    (s.queryBlock die core n c job).2.host.mem = s.host.mem := by
  unfold State.queryBlock; dsimp only; split <;> simp

@[simp] theorem State.foldJob_board (s : State) (die core n : Nat) (c : Ctx) (job : FoldJob) : (State.foldJob s die core n c job).board = s.board :=
    by
  unfold State.foldJob; extract_lets d rows qr b s1 s2
  have h1 : s1.board = s.board := by simp [s1, qr]
  have h2 : s2.board = s1.board := by
    refine foldl_board _ (fun s r => ?_) _ _; dsimp only; (repeat' split) <;> simp
  split <;> simp [h1, h2]

@[simp] theorem State.foldJob_status (s : State) (die core n : Nat) (c : Ctx) (job : FoldJob) : (State.foldJob s die core n c job).status = s.status
    := by
  unfold State.foldJob; extract_lets d rows qr b s1 s2
  have h1 : s1.status = s.status := by simp [s1, qr]
  have h2 : s2.status = s1.status := by
    refine foldl_status _ (fun s r => ?_) _ _; dsimp only; (repeat' split) <;> simp
  split <;> simp [h1, h2]

@[simp] theorem State.foldJob_hostMem (s : State) (die core n : Nat) (c : Ctx) (job : FoldJob) : (State.foldJob s die core n c job).host.mem =
    s.host.mem := by
  unfold State.foldJob; extract_lets d rows qr b s1 s2
  have h1 : s1.host.mem = s.host.mem := by simp [s1, qr]
  have h2 : s2.host.mem = s1.host.mem := by
    refine foldl_hostMem _ (fun s r => ?_) _ _; dsimp only; (repeat' split) <;> simp
  split <;> simp [h1, h2]

@[simp] theorem State.sourceBytes_board (s : State) (src : Source) (addr n : Nat) (layer : Option Nat) :
    (s.sourceBytes src addr n layer).2.board = s.board := by
  unfold State.sourceBytes; (repeat' split) <;> simp

@[simp] theorem State.sourceBytes_status (s : State) (src : Source) (addr n : Nat) (layer : Option Nat) :
    (s.sourceBytes src addr n layer).2.status = s.status := by
  unfold State.sourceBytes; (repeat' split) <;> simp

@[simp] theorem State.sourceBytes_hostMem (s : State) (src : Source) (addr n : Nat) (layer : Option Nat) :
    (s.sourceBytes src addr n layer).2.host.mem = s.host.mem := by
  unfold State.sourceBytes; (repeat' split) <;> simp

@[simp] theorem State.portsUp_board (s : State) (ms : List Member) : (State.portsUp s ms).board = s.board := by
  simp [State.portsUp]

@[simp] theorem State.portsUp_status (s : State) (ms : List Member) : (State.portsUp s ms).status = s.status := by
  simp [State.portsUp]

@[simp] theorem State.portsUp_hostMem (s : State) (ms : List Member) : (State.portsUp s ms).host.mem = s.host.mem := by
  simp [State.portsUp]

@[simp] theorem State.settleHomes_board (s : State) (homes : List (Nat × Nat)) (later : Bool) : (State.settleHomes s homes later).board = s.board :=
    by
  simp [State.settleHomes]

@[simp] theorem State.settleHomes_status (s : State) (homes : List (Nat × Nat)) (later : Bool) : (State.settleHomes s homes later).status = s.status
    := by
  simp [State.settleHomes]

@[simp] theorem State.settleHomes_hostMem (s : State) (homes : List (Nat × Nat)) (later : Bool) : (State.settleHomes s homes later).host.mem =
    s.host.mem := by
  simp [State.settleHomes]

@[simp] theorem State.takeMeasure_board (s : State) (measure : Option (List Byte)) : (State.takeMeasure s measure).board = s.board := by
  unfold State.takeMeasure; split <;> simp

@[simp] theorem State.takeMeasure_status (s : State) (measure : Option (List Byte)) : (State.takeMeasure s measure).status = s.status := by
  unfold State.takeMeasure; split <;> simp

@[simp] theorem State.takeMeasure_hostMem (s : State) (measure : Option (List Byte)) : (State.takeMeasure s measure).host.mem = s.host.mem := by
  unfold State.takeMeasure; split <;> simp

@[simp] theorem State.settleMirror_board (s : State) : (State.settleMirror s).board = s.board := by
  simp [State.settleMirror]

@[simp] theorem State.settleMirror_status (s : State) : (State.settleMirror s).status = s.status := by
  simp [State.settleMirror]

@[simp] theorem State.settleMirror_hostMem (s : State) : (State.settleMirror s).host.mem = s.host.mem := by
  simp [State.settleMirror]

@[simp] theorem State.rewriteMirror_board (s : State) : (State.rewriteMirror s).board = s.board := by
  unfold State.rewriteMirror; split <;> simp

@[simp] theorem State.rewriteMirror_status (s : State) : (State.rewriteMirror s).status = s.status := by
  unfold State.rewriteMirror; split <;> simp

@[simp] theorem State.rewriteMirror_hostMem (s : State) : (State.rewriteMirror s).host.mem = s.host.mem := by
  unfold State.rewriteMirror; split <;> simp

@[simp] theorem State.sendChunk_board (vc : Nat) (h : BitVec 256) (payload : List Byte) (s : State) (dest : Nat) : (State.sendChunk vc h payload s
    dest).board = s.board := by
  simp [State.sendChunk]

@[simp] theorem State.sendChunk_status (vc : Nat) (h : BitVec 256) (payload : List Byte) (s : State) (dest : Nat) : (State.sendChunk vc h payload s
    dest).status = s.status := by
  simp [State.sendChunk]

@[simp] theorem State.sendChunk_hostMem (vc : Nat) (h : BitVec 256) (payload : List Byte) (s : State) (dest : Nat) : (State.sendChunk vc h payload s
    dest).host.mem = s.host.mem := by
  simp [State.sendChunk]

@[simp] theorem State.takeFinal_board (s : State) (c : CollPlan) (h : BitVec 256) (payload : List Byte) : (State.takeFinal s c h payload).board =
    s.board := by
  simp [State.takeFinal]

@[simp] theorem State.takeFinal_status (s : State) (c : CollPlan) (h : BitVec 256) (payload : List Byte) : (State.takeFinal s c h payload).status =
    s.status := by
  simp [State.takeFinal]

@[simp] theorem State.takeFinal_hostMem (s : State) (c : CollPlan) (h : BitVec 256) (payload : List Byte) : (State.takeFinal s c h payload).host.mem
    = s.host.mem := by
  simp [State.takeFinal]

@[simp] theorem State.placeChunk_board (s : State) (c : CollPlan) (sender : Nat) (h : BitVec 256) (payload : List Byte) (unit : Nat) :
    (State.placeChunk s c sender h payload unit).board = s.board := by
  unfold State.placeChunk; split <;> simp

@[simp] theorem State.placeChunk_status (s : State) (c : CollPlan) (sender : Nat) (h : BitVec 256) (payload : List Byte) (unit : Nat) :
    (State.placeChunk s c sender h payload unit).status = s.status := by
  unfold State.placeChunk; split <;> simp

@[simp] theorem State.placeChunk_hostMem (s : State) (c : CollPlan) (sender : Nat) (h : BitVec 256) (payload : List Byte) (unit : Nat) :
    (State.placeChunk s c sender h payload unit).host.mem = s.host.mem := by
  unfold State.placeChunk; split <;> simp

@[simp] theorem State.landChunk_board (s : State) (sender : Nat) (h : BitVec 256) (payload : List Byte) (unit : Nat) : (State.landChunk s sender h
    payload unit).board = s.board := by
  unfold State.landChunk; split <;> simp

@[simp] theorem State.landChunk_status (s : State) (sender : Nat) (h : BitVec 256) (payload : List Byte) (unit : Nat) : (State.landChunk s sender h
    payload unit).status = s.status := by
  unfold State.landChunk; split <;> simp

@[simp] theorem State.landChunk_hostMem (s : State) (sender : Nat) (h : BitVec 256) (payload : List Byte) (unit : Nat) : (State.landChunk s sender h
    payload unit).host.mem = s.host.mem := by
  unfold State.landChunk; split <;> simp

@[simp] theorem State.sendResult_board (s : State) (c : CollPlan) (item step chunk : Nat) (ws : List W32) : (State.sendResult s c item step chunk
    ws).board = s.board := by
  simp [State.sendResult]

@[simp] theorem State.sendResult_status (s : State) (c : CollPlan) (item step chunk : Nat) (ws : List W32) : (State.sendResult s c item step chunk
    ws).status = s.status := by
  simp [State.sendResult]

@[simp] theorem State.sendResult_hostMem (s : State) (c : CollPlan) (item step chunk : Nat) (ws : List W32) : (State.sendResult s c item step chunk
    ws).host.mem = s.host.mem := by
  simp [State.sendResult]

@[simp] theorem State.sendOwnChunk_board (c : CollPlan) (item : Nat) (s : State) (chunk : Nat) : (State.sendOwnChunk c item s chunk).board = s.board
    := by
  unfold State.sendOwnChunk; split <;> simp

@[simp] theorem State.sendOwnChunk_status (c : CollPlan) (item : Nat) (s : State) (chunk : Nat) : (State.sendOwnChunk c item s chunk).status =
    s.status := by
  unfold State.sendOwnChunk; split <;> simp

@[simp] theorem State.sendOwnChunk_hostMem (c : CollPlan) (item : Nat) (s : State) (chunk : Nat) : (State.sendOwnChunk c item s chunk).host.mem =
    s.host.mem := by
  unfold State.sendOwnChunk; split <;> simp

@[simp] theorem State.sendOwn_board (s : State) (c : CollPlan) (p : OwnPart) : (State.sendOwn s c p).board = s.board := by
  simp [State.sendOwn]

@[simp] theorem State.sendOwn_status (s : State) (c : CollPlan) (p : OwnPart) : (State.sendOwn s c p).status = s.status := by
  simp [State.sendOwn]

@[simp] theorem State.sendOwn_hostMem (s : State) (c : CollPlan) (p : OwnPart) : (State.sendOwn s c p).host.mem = s.host.mem := by
  simp [State.sendOwn]

@[simp] theorem State.idle_board (s : State) : (State.idle s).board = s.board := by
  simp only [State.idle]; (repeat' split) <;> simp

@[simp] theorem State.idle_status (s : State) : (State.idle s).status = s.status := by
  simp only [State.idle]; (repeat' split) <;> simp

@[simp] theorem State.idle_hostMem (s : State) : (State.idle s).host.mem = s.host.mem := by
  simp only [State.idle]; (repeat' split) <;> simp

@[simp] theorem State.consumeChunks_board (s : State) (coll step chunk : Nat) (items : List Nat) : (State.consumeChunks s coll step chunk
    items).board = s.board := by
  simp [State.consumeChunks]

@[simp] theorem State.consumeChunks_status (s : State) (coll step chunk : Nat) (items : List Nat) : (State.consumeChunks s coll step chunk
    items).status = s.status := by
  simp [State.consumeChunks]

@[simp] theorem State.consumeChunks_hostMem (s : State) (coll step chunk : Nat) (items : List Nat) : (State.consumeChunks s coll step chunk
    items).host.mem = s.host.mem := by
  simp [State.consumeChunks]

@[simp] theorem State.updIndex_board (s : State) (id : Nat) (f : VIndex → VIndex) : (State.updIndex s id f).board = s.board := by
  simp [State.updIndex]

@[simp] theorem State.updIndex_status (s : State) (id : Nat) (f : VIndex → VIndex) : (State.updIndex s id f).status = s.status := by
  simp [State.updIndex]

@[simp] theorem State.updIndex_hostMem (s : State) (id : Nat) (f : VIndex → VIndex) : (State.updIndex s id f).host.mem = s.host.mem := by
  simp [State.updIndex]

@[simp] theorem State.indexCount_board (s : State) (id ev : Nat) (n : Nat) : (State.indexCount s id ev n).board = s.board := by
  simp [State.indexCount]

@[simp] theorem State.indexCount_status (s : State) (id ev : Nat) (n : Nat) : (State.indexCount s id ev n).status = s.status := by
  simp [State.indexCount]

@[simp] theorem State.indexCount_hostMem (s : State) (id ev : Nat) (n : Nat) : (State.indexCount s id ev n).host.mem = s.host.mem := by
  simp [State.indexCount]

@[simp] theorem State.indexBytes_board (s : State) (n : Nat) : (State.indexBytes s n).board = s.board := by
  simp [State.indexBytes]

@[simp] theorem State.indexBytes_status (s : State) (n : Nat) : (State.indexBytes s n).status = s.status := by
  simp [State.indexBytes]

@[simp] theorem State.indexBytes_hostMem (s : State) (n : Nat) : (State.indexBytes s n).host.mem = s.host.mem := by
  simp [State.indexBytes]

@[simp] theorem State.writeEntry_board (s : State) (id : Nat) (e : SideEnt) : (State.writeEntry s id e).board = s.board := by
  unfold State.writeEntry; split <;> simp

@[simp] theorem State.writeEntry_status (s : State) (id : Nat) (e : SideEnt) : (State.writeEntry s id e).status = s.status := by
  unfold State.writeEntry; split <;> simp

@[simp] theorem State.writeEntry_hostMem (s : State) (id : Nat) (e : SideEnt) : (State.writeEntry s id e).host.mem = s.host.mem := by
  unfold State.writeEntry; split <;> simp

@[simp] theorem State.writeNodes_board (s : State) (x : VIndex) : (State.writeNodes s x).board = s.board := by
  unfold State.writeNodes; split <;> simp

@[simp] theorem State.writeNodes_status (s : State) (x : VIndex) : (State.writeNodes s x).status = s.status := by
  unfold State.writeNodes; split <;> simp

@[simp] theorem State.writeNodes_hostMem (s : State) (x : VIndex) : (State.writeNodes s x).host.mem = s.host.mem := by
  unfold State.writeNodes; split <;> simp

@[simp] theorem State.writeBook_board (s : State) (x : VIndex) : (State.writeBook s x).board = s.board := by
  unfold State.writeBook; split <;> simp

@[simp] theorem State.writeBook_status (s : State) (x : VIndex) : (State.writeBook s x).status = s.status := by
  unfold State.writeBook; split <;> simp

@[simp] theorem State.writeBook_hostMem (s : State) (x : VIndex) : (State.writeBook s x).host.mem = s.host.mem := by
  unfold State.writeBook; split <;> simp

@[simp] theorem State.growTombs_board (id : Nat) (s : State) (lot : Nat) : (State.growTombs id s lot).board = s.board := by
  simp only [State.growTombs]; (repeat' split) <;> simp

@[simp] theorem State.growTombs_status (id : Nat) (s : State) (lot : Nat) : (State.growTombs id s lot).status = s.status := by
  simp only [State.growTombs]; (repeat' split) <;> simp

@[simp] theorem State.growTombs_hostMem (id : Nat) (s : State) (lot : Nat) : (State.growTombs id s lot).host.mem = s.host.mem := by
  simp only [State.growTombs]; (repeat' split) <;> simp

@[simp] theorem State.settleTombs_board (s : State) (x : VIndex) : (State.settleTombs s x).board = s.board := by
  simp only [State.settleTombs]; (repeat' split) <;> simp

@[simp] theorem State.settleTombs_status (s : State) (x : VIndex) : (State.settleTombs s x).status = s.status := by
  simp only [State.settleTombs]; (repeat' split) <;> simp

@[simp] theorem State.settleTombs_hostMem (s : State) (x : VIndex) : (State.settleTombs s x).host.mem = s.host.mem := by
  simp only [State.settleTombs]; (repeat' split) <;> simp

@[simp] theorem State.writeSnapHold_board (s : State) (p : Nat) (hold : Bool) : (State.writeSnapHold s p hold).board = s.board := by
  simp [State.writeSnapHold]

@[simp] theorem State.writeSnapHold_status (s : State) (p : Nat) (hold : Bool) : (State.writeSnapHold s p hold).status = s.status := by
  simp [State.writeSnapHold]

@[simp] theorem State.writeSnapHold_hostMem (s : State) (p : Nat) (hold : Bool) : (State.writeSnapHold s p hold).host.mem = s.host.mem := by
  simp [State.writeSnapHold]

@[simp] theorem State.clearLinkStatus_board (s : State) (n : Nat) (v : W64) : (State.clearLinkStatus s n v).board = s.board := by
  simp [State.clearLinkStatus]

@[simp] theorem State.clearLinkStatus_status (s : State) (n : Nat) (v : W64) : (State.clearLinkStatus s n v).status = s.status := by
  simp [State.clearLinkStatus]

@[simp] theorem State.clearLinkStatus_hostMem (s : State) (n : Nat) (v : W64) : (State.clearLinkStatus s n v).host.mem = s.host.mem := by
  simp [State.clearLinkStatus]

@[simp] theorem State.clearHostErr_board (s : State) (p : Nat) (v : W64) : (State.clearHostErr s p v).board = s.board := by
  simp [State.clearHostErr]

@[simp] theorem State.clearHostErr_status (s : State) (p : Nat) (v : W64) : (State.clearHostErr s p v).status = s.status := by
  simp [State.clearHostErr]

@[simp] theorem State.clearHostErr_hostMem (s : State) (p : Nat) (v : W64) : (State.clearHostErr s p v).host.mem = s.host.mem := by
  simp [State.clearHostErr]

@[simp] theorem State.writeMsix_board (s : State) (p vec half : Nat) (v m : W64) : (State.writeMsix s p vec half v m).board = s.board := by
  simp [State.writeMsix]

@[simp] theorem State.writeMsix_status (s : State) (p vec half : Nat) (v m : W64) : (State.writeMsix s p vec half v m).status = s.status := by
  simp [State.writeMsix]

@[simp] theorem State.writeMsix_hostMem (s : State) (p vec half : Nat) (v m : W64) : (State.writeMsix s p vec half v m).host.mem = s.host.mem := by
  simp [State.writeMsix]

@[simp] theorem State.writeQueue_board (s : State) (p qid off : Nat) (v m : W64) : (State.writeQueue s p qid off v m).board = s.board := by
  simp [State.writeQueue]

@[simp] theorem State.writeQueue_status (s : State) (p qid off : Nat) (v m : W64) : (State.writeQueue s p qid off v m).status = s.status := by
  simp [State.writeQueue]

@[simp] theorem State.writeQueue_hostMem (s : State) (p qid off : Nat) (v m : W64) : (State.writeQueue s p qid off v m).host.mem = s.host.mem := by
  simp [State.writeQueue]

@[simp] theorem State.ringSq_board (s : State) (p qid : Nat) (v : W32) : (State.ringSq s p qid v).board = s.board := by
  simp [State.ringSq]

@[simp] theorem State.ringSq_status (s : State) (p qid : Nat) (v : W32) : (State.ringSq s p qid v).status = s.status := by
  simp [State.ringSq]

@[simp] theorem State.ringSq_hostMem (s : State) (p qid : Nat) (v : W32) : (State.ringSq s p qid v).host.mem = s.host.mem := by
  simp [State.ringSq]

@[simp] theorem State.ringCq_board (s : State) (p qid : Nat) (v : W32) : (State.ringCq s p qid v).board = s.board := by
  simp [State.ringCq]

@[simp] theorem State.ringCq_status (s : State) (p qid : Nat) (v : W32) : (State.ringCq s p qid v).status = s.status := by
  simp [State.ringCq]

@[simp] theorem State.ringCq_hostMem (s : State) (p qid : Nat) (v : W32) : (State.ringCq s p qid v).host.mem = s.host.mem := by
  simp [State.ringCq]

@[simp] theorem State.arrive_board (s : State) (p qid : Nat) (e : Entry) : (State.arrive s p qid e).board = s.board := by
  simp [State.arrive]

@[simp] theorem State.arrive_status (s : State) (p qid : Nat) (e : Entry) : (State.arrive s p qid e).status = s.status := by
  simp [State.arrive]

@[simp] theorem State.arrive_hostMem (s : State) (p qid : Nat) (e : Entry) : (State.arrive s p qid e).host.mem = s.host.mem := by
  simp [State.arrive]

@[simp] theorem State.stageCmd_board (s : State) (rid : Nat) : (State.stageCmd s rid).board = s.board := by
  simp [State.stageCmd]

@[simp] theorem State.stageCmd_status (s : State) (rid : Nat) : (State.stageCmd s rid).status = s.status := by
  simp [State.stageCmd]

@[simp] theorem State.stageCmd_hostMem (s : State) (rid : Nat) : (State.stageCmd s rid).host.mem = s.host.mem := by
  simp [State.stageCmd]

@[simp] theorem State.holdCmd_board (s : State) (rid : Nat) : (State.holdCmd s rid).board = s.board := by
  simp [State.holdCmd]

@[simp] theorem State.holdCmd_status (s : State) (rid : Nat) : (State.holdCmd s rid).status = s.status := by
  simp [State.holdCmd]

@[simp] theorem State.holdCmd_hostMem (s : State) (rid : Nat) : (State.holdCmd s rid).host.mem = s.host.mem := by
  simp [State.holdCmd]

@[simp] theorem State.readData_board (s : State) (r : Req) (n : Nat) (data : HostRead) (f : List Byte → State → State)
    (hf : ∀ bs t, (f bs t).board = t.board) : (s.readData r n data f).board = s.board := by
  unfold State.readData; split <;> simp [hf]

@[simp] theorem State.readData_status (s : State) (r : Req) (n : Nat) (data : HostRead) (f : List Byte → State → State)
    (hf : ∀ bs t, (f bs t).status = t.status) : (s.readData r n data f).status = s.status := by
  unfold State.readData; split <;> simp [hf]

@[simp] theorem State.readData_hostMem (s : State) (r : Req) (n : Nat) (data : HostRead) (f : List Byte → State → State)
    (hf : ∀ bs t, (f bs t).host.mem = t.host.mem) : (s.readData r n data f).host.mem = s.host.mem := by
  unfold State.readData; split <;> simp [hf]

@[simp] theorem State.appendTokens_board (s : State) (r : Req) (data : HostRead) : (State.appendTokens s r data).board = s.board := by
  unfold State.appendTokens; refine State.readData_board _ _ _ _ _ (fun bs t => ?_); (repeat' split) <;> simp

@[simp] theorem State.appendTokens_status (s : State) (r : Req) (data : HostRead) : (State.appendTokens s r data).status = s.status := by
  unfold State.appendTokens; refine State.readData_status _ _ _ _ _ (fun bs t => ?_); (repeat' split) <;> simp

@[simp] theorem State.appendTokens_hostMem (s : State) (r : Req) (data : HostRead) : (State.appendTokens s r data).host.mem = s.host.mem := by
  unfold State.appendTokens; refine State.readData_hostMem _ _ _ _ _ (fun bs t => ?_); (repeat' split) <;> simp

@[simp] theorem State.writeWeights_board (s : State) (r : Req) (bs : List Byte) : (State.writeWeights s r bs).board = s.board := by
  simp [State.writeWeights]

@[simp] theorem State.writeWeights_status (s : State) (r : Req) (bs : List Byte) : (State.writeWeights s r bs).status = s.status := by
  simp [State.writeWeights]

@[simp] theorem State.writeWeights_hostMem (s : State) (r : Req) (bs : List Byte) : (State.writeWeights s r bs).host.mem = s.host.mem := by
  simp [State.writeWeights]

@[simp] theorem State.loadBlocks_board (s : State) (r : Req) (bs : List Byte) : (State.loadBlocks s r bs).board = s.board := by
  simp [State.loadBlocks]

@[simp] theorem State.loadBlocks_status (s : State) (r : Req) (bs : List Byte) : (State.loadBlocks s r bs).status = s.status := by
  simp [State.loadBlocks]

@[simp] theorem State.loadBlocks_hostMem (s : State) (r : Req) (bs : List Byte) : (State.loadBlocks s r bs).host.mem = s.host.mem := by
  simp [State.loadBlocks]

@[simp] theorem State.onIndex_board (s : State) (r : Req) (f : VIndex → State) (hf : ∀ x, (f x).board = s.board) :
    (s.onIndex r f).board = s.board := by
  unfold State.onIndex; split
  · simp
  · split
    · simp
    · split <;> simp [hf]

@[simp] theorem State.onIndex_status (s : State) (r : Req) (f : VIndex → State) (hf : ∀ x, (f x).status = s.status) :
    (s.onIndex r f).status = s.status := by
  unfold State.onIndex; split
  · simp
  · split
    · simp
    · split <;> simp [hf]

@[simp] theorem State.onIndex_hostMem (s : State) (r : Req) (f : VIndex → State) (hf : ∀ x, (f x).host.mem = s.host.mem) :
    (s.onIndex r f).host.mem = s.host.mem := by
  unfold State.onIndex; split
  · simp
  · split
    · simp
    · split <;> simp [hf]

@[simp] theorem State.grant_board (s : State) (die n : Nat) (r : StreamReq) : (State.grant s die n r).board = s.board := by
  unfold State.grant; dsimp only; (repeat' split) <;> simp

@[simp] theorem State.grant_status (s : State) (die n : Nat) (r : StreamReq) : (State.grant s die n r).status = s.status := by
  unfold State.grant; dsimp only; (repeat' split) <;> simp

@[simp] theorem State.grant_hostMem (s : State) (die n : Nat) (r : StreamReq) : (State.grant s die n r).host.mem = s.host.mem := by
  unfold State.grant; dsimp only; (repeat' split) <;> simp

@[simp] theorem State.readRecord_board (s : State) (ch : Nat) (r : Nat × Nat) : (State.readRecord s ch r).board = s.board := by
  simp [State.readRecord]

@[simp] theorem State.readRecord_status (s : State) (ch : Nat) (r : Nat × Nat) : (State.readRecord s ch r).status = s.status := by
  simp [State.readRecord]

@[simp] theorem State.readRecord_hostMem (s : State) (ch : Nat) (r : Nat × Nat) : (State.readRecord s ch r).host.mem = s.host.mem := by
  simp [State.readRecord]

@[simp] theorem State.grantTo_board (s : State) (point : ArbPoint) (e : Nat × Nat) : (State.grantTo s point e).board = s.board := by
  unfold State.grantTo; dsimp only; (repeat' split) <;> simp

@[simp] theorem State.grantTo_status (s : State) (point : ArbPoint) (e : Nat × Nat) : (State.grantTo s point e).status = s.status := by
  unfold State.grantTo; dsimp only; (repeat' split) <;> simp

@[simp] theorem State.grantTo_hostMem (s : State) (point : ArbPoint) (e : Nat × Nat) : (State.grantTo s point e).host.mem = s.host.mem := by
  unfold State.grantTo; dsimp only; (repeat' split) <;> simp

@[simp] theorem State.losePage_board (s : State) (r : Option (Bool × Nat)) (stack : Option Nat) : (State.losePage s r stack).board = s.board := by
  unfold State.losePage; split <;> simp

@[simp] theorem State.losePage_status (s : State) (r : Option (Bool × Nat)) (stack : Option Nat) : (State.losePage s r stack).status = s.status := by
  unfold State.losePage; split <;> simp

@[simp] theorem State.losePage_hostMem (s : State) (r : Option (Bool × Nat)) (stack : Option Nat) : (State.losePage s r stack).host.mem = s.host.mem
    := by
  unfold State.losePage; split <;> simp

@[simp] theorem State.loseOne_board (s : State) (h : W32) (v : Nat) : (State.loseOne s h v).board = s.board := by
  unfold State.loseOne; split <;> simp

@[simp] theorem State.loseOne_status (s : State) (h : W32) (v : Nat) : (State.loseOne s h v).status = s.status := by
  unfold State.loseOne; split <;> simp

@[simp] theorem State.loseOne_hostMem (s : State) (h : W32) (v : Nat) : (State.loseOne s h v).host.mem = s.host.mem := by
  unfold State.loseOne; split <;> simp

@[simp] theorem State.dropCorrupt_board (s : State) (n : Nat) : (State.dropCorrupt s n).board = s.board := by
  simp [State.dropCorrupt]

@[simp] theorem State.dropCorrupt_status (s : State) (n : Nat) : (State.dropCorrupt s n).status = s.status := by
  simp [State.dropCorrupt]

@[simp] theorem State.dropCorrupt_hostMem (s : State) (n : Nat) : (State.dropCorrupt s n).host.mem = s.host.mem := by
  simp [State.dropCorrupt]

@[simp] theorem State.checkSlots_board (s : State) : (State.checkSlots s).board = s.board := by
  simp [State.checkSlots]

@[simp] theorem State.checkSlots_status (s : State) : (State.checkSlots s).status = s.status := by
  simp [State.checkSlots]

@[simp] theorem State.checkSlots_hostMem (s : State) : (State.checkSlots s).host.mem = s.host.mem := by
  simp [State.checkSlots]

@[simp] theorem State.tickPin_board (s : State) (r : Bool × Nat) : (State.tickPin s r).board = s.board := by
  simp [State.tickPin]

@[simp] theorem State.tickPin_status (s : State) (r : Bool × Nat) : (State.tickPin s r).status = s.status := by
  simp [State.tickPin]

@[simp] theorem State.tickPin_hostMem (s : State) (r : Bool × Nat) : (State.tickPin s r).host.mem = s.host.mem := by
  simp [State.tickPin]

@[simp] theorem State.walkPage_board (s : State) (die ctx stream : Nat) (q : Seq) (w : WalkAsk) (v dst staged : Nat) : (State.walkPage s die ctx
    stream q w v dst staged).board = s.board := by
  unfold State.walkPage; dsimp only; (repeat' split) <;> simp

@[simp] theorem State.walkPage_status (s : State) (die ctx stream : Nat) (q : Seq) (w : WalkAsk) (v dst staged : Nat) : (State.walkPage s die ctx
    stream q w v dst staged).status = s.status := by
  unfold State.walkPage; dsimp only; (repeat' split) <;> simp

@[simp] theorem State.walkPage_hostMem (s : State) (die ctx stream : Nat) (q : Seq) (w : WalkAsk) (v dst staged : Nat) : (State.walkPage s die ctx
    stream q w v dst staged).host.mem = s.host.mem := by
  unfold State.walkPage; dsimp only; (repeat' split) <;> simp

@[simp] theorem State.walkNext_board (die ctx stream : Nat) (seq : W32) (w : WalkAsk) (dst after : Nat) (s : State) (p : Nat × Nat) :
    (State.walkNext die ctx stream seq w dst after s p).board = s.board := by
  unfold State.walkNext; split <;> simp

@[simp] theorem State.walkNext_status (die ctx stream : Nat) (seq : W32) (w : WalkAsk) (dst after : Nat) (s : State) (p : Nat × Nat) :
    (State.walkNext die ctx stream seq w dst after s p).status = s.status := by
  unfold State.walkNext; split <;> simp

@[simp] theorem State.walkNext_hostMem (die ctx stream : Nat) (seq : W32) (w : WalkAsk) (dst after : Nat) (s : State) (p : Nat × Nat) :
    (State.walkNext die ctx stream seq w dst after s p).host.mem = s.host.mem := by
  unfold State.walkNext; split <;> simp

@[simp] theorem State.writePage_board (s : State) (x : PageSite) (off : Nat) (bs : List Byte) : (State.writePage s x off bs).board = s.board := by
  unfold State.writePage; split <;> simp

@[simp] theorem State.writePage_status (s : State) (x : PageSite) (off : Nat) (bs : List Byte) : (State.writePage s x off bs).status = s.status := by
  unfold State.writePage; split <;> simp

@[simp] theorem State.writePage_hostMem (s : State) (x : PageSite) (off : Nat) (bs : List Byte) : (State.writePage s x off bs).host.mem = s.host.mem
    := by
  unfold State.writePage; split <;> simp

@[simp] theorem State.setSideOf_board (s : State) (x : PageSite) (b : Nat) : (State.setSideOf s x b).board = s.board := by
  unfold State.setSideOf; split <;> simp

@[simp] theorem State.setSideOf_status (s : State) (x : PageSite) (b : Nat) : (State.setSideOf s x b).status = s.status := by
  unfold State.setSideOf; split <;> simp

@[simp] theorem State.setSideOf_hostMem (s : State) (x : PageSite) (b : Nat) : (State.setSideOf s x b).host.mem = s.host.mem := by
  unfold State.setSideOf; split <;> simp

@[simp] theorem State.setFill_board (s : State) (x : PageSite) (n : Nat) : (State.setFill s x n).board = s.board := by
  unfold State.setFill; split <;> simp

@[simp] theorem State.setFill_status (s : State) (x : PageSite) (n : Nat) : (State.setFill s x n).status = s.status := by
  unfold State.setFill; split <;> simp

@[simp] theorem State.setFill_hostMem (s : State) (x : PageSite) (n : Nat) : (State.setFill s x n).host.mem = s.host.mem := by
  unfold State.setFill; split <;> simp

@[simp] theorem State.writeElem_board (s : State) (x : PageSite) (fmt base index code : Nat) : (State.writeElem s x fmt base index code).board =
    s.board := by
  simp [State.writeElem]

@[simp] theorem State.writeElem_status (s : State) (x : PageSite) (fmt base index code : Nat) : (State.writeElem s x fmt base index code).status =
    s.status := by
  simp [State.writeElem]

@[simp] theorem State.writeElem_hostMem (s : State) (x : PageSite) (fmt base index code : Nat) : (State.writeElem s x fmt base index code).host.mem
    = s.host.mem := by
  simp [State.writeElem]

@[simp] theorem State.writeExp_board (s : State) (x : PageSite) (byte v : Nat) : (State.writeExp s x byte v).board = s.board := by
  simp [State.writeExp]

@[simp] theorem State.writeExp_status (s : State) (x : PageSite) (byte v : Nat) : (State.writeExp s x byte v).status = s.status := by
  simp [State.writeExp]

@[simp] theorem State.writeExp_hostMem (s : State) (x : PageSite) (byte v : Nat) : (State.writeExp s x byte v).host.mem = s.host.mem := by
  simp [State.writeExp]

@[simp] theorem State.writeKey_board (s : State) (core : Nat) (x : PageSite) (i : Nat) (key : List Nat) (sK : Nat) (g : Drain) :
    (s.writeKey core x i key sK g).1.board = s.board := by
  unfold State.writeKey; dsimp only; refine foldl_fst_board _ (fun a b => ?_) _ _; dsimp only; split <;> simp

@[simp] theorem State.writeKey_status (s : State) (core : Nat) (x : PageSite) (i : Nat) (key : List Nat) (sK : Nat) (g : Drain) :
    (s.writeKey core x i key sK g).1.status = s.status := by
  unfold State.writeKey; dsimp only; refine foldl_fst_status _ (fun a b => ?_) _ _; dsimp only; split <;> simp

@[simp] theorem State.writeKey_hostMem (s : State) (core : Nat) (x : PageSite) (i : Nat) (key : List Nat) (sK : Nat) (g : Drain) :
    (s.writeKey core x i key sK g).1.host.mem = s.host.mem := by
  unfold State.writeKey; dsimp only; refine foldl_fst_hostMem _ (fun a b => ?_) _ _; dsimp only; split <;> simp

@[simp] theorem State.writeVal_board (s : State) (core : Nat) (x : PageSite) (i : Nat) (val : List Nat) (sV : Nat) (g : Drain) :
    (s.writeVal core x i val sV g).1.board = s.board := by
  unfold State.writeVal; dsimp only; (repeat' split) <;> simp

@[simp] theorem State.writeVal_status (s : State) (core : Nat) (x : PageSite) (i : Nat) (val : List Nat) (sV : Nat) (g : Drain) :
    (s.writeVal core x i val sV g).1.status = s.status := by
  unfold State.writeVal; dsimp only; (repeat' split) <;> simp

@[simp] theorem State.writeVal_hostMem (s : State) (core : Nat) (x : PageSite) (i : Nat) (val : List Nat) (sV : Nat) (g : Drain) :
    (s.writeVal core x i val sV g).1.host.mem = s.host.mem := by
  unfold State.writeVal; dsimp only; (repeat' split) <;> simp

@[simp] theorem State.sealPage_board (s : State) (x : PageSite) (q : Seq) (layer head run : Nat) : (State.sealPage s x q layer head run).board =
    s.board := by
  simp [State.sealPage]

@[simp] theorem State.sealPage_status (s : State) (x : PageSite) (q : Seq) (layer head run : Nat) : (State.sealPage s x q layer head run).status =
    s.status := by
  simp [State.sealPage]

@[simp] theorem State.sealPage_hostMem (s : State) (x : PageSite) (q : Seq) (layer head run : Nat) : (State.sealPage s x q layer head run).host.mem
    = s.host.mem := by
  simp [State.sealPage]

@[simp] theorem State.writePosition_board (s : State) (core rid : Nat) (x : PageSite) (q : Seq) (layer head pos : Nat) (key val : List W32) (sK sV :
    W32) : (State.writePosition s core rid x q layer head pos key val sK sV).board = s.board := by
  simp [State.writePosition]

@[simp] theorem State.writePosition_status (s : State) (core rid : Nat) (x : PageSite) (q : Seq) (layer head pos : Nat) (key val : List W32) (sK sV
    : W32) : (State.writePosition s core rid x q layer head pos key val sK sV).status = s.status := by
  simp [State.writePosition]

@[simp] theorem State.writePosition_hostMem (s : State) (core rid : Nat) (x : PageSite) (q : Seq) (layer head pos : Nat) (key val : List W32) (sK sV
    : W32) : (State.writePosition s core rid x q layer head pos key val sK sV).host.mem = s.host.mem := by
  simp [State.writePosition]

@[simp] theorem State.putPosition_board (s : State) (core rid : Nat) (x : PageSite) (q : Seq) (layer head pos : Nat) (key val : List W32) (sK sV :
    W32) : (State.putPosition s core rid x q layer head pos key val sK sV).board = s.board := by
  unfold State.putPosition; split <;> simp

@[simp] theorem State.putPosition_status (s : State) (core rid : Nat) (x : PageSite) (q : Seq) (layer head pos : Nat) (key val : List W32) (sK sV :
    W32) : (State.putPosition s core rid x q layer head pos key val sK sV).status = s.status := by
  unfold State.putPosition; split <;> simp

@[simp] theorem State.putPosition_hostMem (s : State) (core rid : Nat) (x : PageSite) (q : Seq) (layer head pos : Nat) (key val : List W32) (sK sV :
    W32) : (State.putPosition s core rid x q layer head pos key val sK sV).host.mem = s.host.mem := by
  unfold State.putPosition; split <;> simp

@[simp] theorem State.flashWrite_board (s : State) (frame : Nat) (data : List Byte) (side : Nat) : (State.flashWrite s frame data side).board =
    s.board := by
  unfold State.flashWrite; dsimp only; simp

@[simp] theorem State.flashWrite_status (s : State) (frame : Nat) (data : List Byte) (side : Nat) : (State.flashWrite s frame data side).status =
    s.status := by
  unfold State.flashWrite; dsimp only; simp

@[simp] theorem State.flashWrite_hostMem (s : State) (frame : Nat) (data : List Byte) (side : Nat) : (State.flashWrite s frame data side).host.mem =
    s.host.mem := by
  unfold State.flashWrite; dsimp only; simp

@[simp] theorem State.noteSpill_board (s : State) (f g : Nat) : (State.noteSpill s f g).board = s.board := by
  simp [State.noteSpill]

@[simp] theorem State.noteSpill_status (s : State) (f g : Nat) : (State.noteSpill s f g).status = s.status := by
  simp [State.noteSpill]

@[simp] theorem State.noteSpill_hostMem (s : State) (f g : Nat) : (State.noteSpill s f g).host.mem = s.host.mem := by
  simp [State.noteSpill]

@[simp] theorem State.noteCleaned_board (s : State) (f g : Nat) : (State.noteCleaned s f g).board = s.board := by
  simp [State.noteCleaned]

@[simp] theorem State.noteCleaned_status (s : State) (f g : Nat) : (State.noteCleaned s f g).status = s.status := by
  simp [State.noteCleaned]

@[simp] theorem State.noteCleaned_hostMem (s : State) (f g : Nat) : (State.noteCleaned s f g).host.mem = s.host.mem := by
  simp [State.noteCleaned]

@[simp] theorem State.cleanDone_board (s : State) (f g : Nat) : (State.cleanDone s f g).board = s.board := by
  unfold State.cleanDone; rw [State.noteCleaned_board, State.pinHbm_board, State.flashWrite_board]

@[simp] theorem State.cleanDone_status (s : State) (f g : Nat) : (State.cleanDone s f g).status = s.status := by
  unfold State.cleanDone; rw [State.noteCleaned_status, State.pinHbm_status, State.flashWrite_status]

@[simp] theorem State.cleanDone_hostMem (s : State) (f g : Nat) : (State.cleanDone s f g).host.mem = s.host.mem := by
  unfold State.cleanDone; rw [State.noteCleaned_hostMem, State.pinHbm_hostMem, State.flashWrite_hostMem]

@[simp] theorem State.markFailed_board (s : State) (c : CopyId) : (State.markFailed s c).board = s.board := by
  simp [State.markFailed]

@[simp] theorem State.markFailed_status (s : State) (c : CopyId) : (State.markFailed s c).status = s.status := by
  simp [State.markFailed]

@[simp] theorem State.markFailed_hostMem (s : State) (c : CopyId) : (State.markFailed s c).host.mem = s.host.mem := by
  simp [State.markFailed]

@[simp] theorem State.failBlock_board (s : State) (c : CopyId) (b kind num : Nat) : (State.failBlock s c b kind num).board = s.board := by
  simp [State.failBlock]

@[simp] theorem State.failBlock_status (s : State) (c : CopyId) (b kind num : Nat) : (State.failBlock s c b kind num).status = s.status := by
  simp [State.failBlock]

@[simp] theorem State.failBlock_hostMem (s : State) (c : CopyId) (b kind num : Nat) : (State.failBlock s c b kind num).host.mem = s.host.mem := by
  simp [State.failBlock]

@[simp] theorem State.leak_board (s : State) (es : List W64) : (State.leak s es).board = s.board := by
  simp [State.leak]

@[simp] theorem State.leak_status (s : State) (es : List W64) : (State.leak s es).status = s.status := by
  simp [State.leak]

@[simp] theorem State.leak_hostMem (s : State) (es : List W64) : (State.leak s es).host.mem = s.host.mem := by
  simp [State.leak]

@[simp] theorem State.failReserve_board (s : State) (f : Nat) : (State.failReserve s f).board = s.board := by
  simp [State.failReserve]

@[simp] theorem State.failReserve_status (s : State) (f : Nat) : (State.failReserve s f).status = s.status := by
  simp [State.failReserve]

@[simp] theorem State.failReserve_hostMem (s : State) (f : Nat) : (State.failReserve s f).host.mem = s.host.mem := by
  simp [State.failReserve]

@[simp] theorem State.failHbm_board (s : State) (f : Nat) : (State.failHbm s f).board = s.board := by
  unfold State.failHbm; dsimp only; (repeat' split) <;> simp

@[simp] theorem State.failHbm_status (s : State) (f : Nat) : (State.failHbm s f).status = s.status := by
  unfold State.failHbm; dsimp only; (repeat' split) <;> simp

@[simp] theorem State.failHbm_hostMem (s : State) (f : Nat) : (State.failHbm s f).host.mem = s.host.mem := by
  unfold State.failHbm; dsimp only; (repeat' split) <;> simp

@[simp] theorem State.refreshRow_board (s : State) (stack row ev : Nat) : (State.refreshRow s stack row ev).board = s.board := by
  simp [State.refreshRow]

@[simp] theorem State.refreshRow_status (s : State) (stack row ev : Nat) : (State.refreshRow s stack row ev).status = s.status := by
  simp [State.refreshRow]

@[simp] theorem State.refreshRow_hostMem (s : State) (stack row ev : Nat) : (State.refreshRow s stack row ev).host.mem = s.host.mem := by
  simp [State.refreshRow]

@[simp] theorem State.updBlock_board (s : State) (b : Nat) (f : NandBlock → NandBlock) : (State.updBlock s b f).board = s.board := by
  simp [State.updBlock]

@[simp] theorem State.updBlock_status (s : State) (b : Nat) (f : NandBlock → NandBlock) : (State.updBlock s b f).status = s.status := by
  simp [State.updBlock]

@[simp] theorem State.updBlock_hostMem (s : State) (b : Nat) (f : NandBlock → NandBlock) : (State.updBlock s b f).host.mem = s.host.mem := by
  simp [State.updBlock]

@[simp] theorem State.failWeight_board (s : State) (i ch : Nat) : (State.failWeight s i ch).board = s.board := by
  simp [State.failWeight]

@[simp] theorem State.failWeight_status (s : State) (i ch : Nat) : (State.failWeight s i ch).status = s.status := by
  simp [State.failWeight]

@[simp] theorem State.failWeight_hostMem (s : State) (i ch : Nat) : (State.failWeight s i ch).host.mem = s.host.mem := by
  simp [State.failWeight]

@[simp] theorem State.failFlash_board (s : State) (f ch : Nat) : (State.failFlash s f ch).board = s.board := by
  unfold State.failFlash; dsimp only; (repeat' split) <;> simp

@[simp] theorem State.failFlash_status (s : State) (f ch : Nat) : (State.failFlash s f ch).status = s.status := by
  unfold State.failFlash; dsimp only; (repeat' split) <;> simp

@[simp] theorem State.failFlash_hostMem (s : State) (f ch : Nat) : (State.failFlash s f ch).host.mem = s.host.mem := by
  unfold State.failFlash; dsimp only; (repeat' split) <;> simp

@[simp] theorem State.moveBlock_board (s : State) (b : Nat) (dst : Option Nat) (ev : Option Nat) : (State.moveBlock s b dst ev).board = s.board := by
  unfold State.moveBlock; dsimp only; cases dst <;> cases ev <;> simp

@[simp] theorem State.moveBlock_status (s : State) (b : Nat) (dst : Option Nat) (ev : Option Nat) : (State.moveBlock s b dst ev).status = s.status
    := by
  unfold State.moveBlock; dsimp only; cases dst <;> cases ev <;> simp

@[simp] theorem State.moveBlock_hostMem (s : State) (b : Nat) (dst : Option Nat) (ev : Option Nat) : (State.moveBlock s b dst ev).host.mem =
    s.host.mem := by
  unfold State.moveBlock; dsimp only; cases dst <;> cases ev <;> simp

@[simp] theorem State.eraseBlock_board (s : State) (b : Nat) : (State.eraseBlock s b).board = s.board := by
  simp [State.eraseBlock]

@[simp] theorem State.eraseBlock_status (s : State) (b : Nat) : (State.eraseBlock s b).status = s.status := by
  simp [State.eraseBlock]

@[simp] theorem State.eraseBlock_hostMem (s : State) (b : Nat) : (State.eraseBlock s b).host.mem = s.host.mem := by
  simp [State.eraseBlock]

@[simp] theorem State.updSearch_board (s : State) (slot : Nat) (f : Search → Search) : (State.updSearch s slot f).board = s.board := by
  simp [State.updSearch]

@[simp] theorem State.updSearch_status (s : State) (slot : Nat) (f : Search → Search) : (State.updSearch s slot f).status = s.status := by
  simp [State.updSearch]

@[simp] theorem State.updSearch_hostMem (s : State) (slot : Nat) (f : Search → Search) : (State.updSearch s slot f).host.mem = s.host.mem := by
  simp [State.updSearch]

@[simp] theorem State.loseSide_board (s : State) (id : Nat) (frames : List Nat) : (State.loseSide s id frames).board = s.board := by
  unfold State.loseSide; split <;> simp

@[simp] theorem State.loseSide_status (s : State) (id : Nat) (frames : List Nat) : (State.loseSide s id frames).status = s.status := by
  unfold State.loseSide; split <;> simp

@[simp] theorem State.loseSide_hostMem (s : State) (id : Nat) (frames : List Nat) : (State.loseSide s id frames).host.mem = s.host.mem := by
  unfold State.loseSide; split <;> simp

@[simp] theorem State.countScan_board (s : State) (side : List SideEnt) : (State.countScan s side).board = s.board := by
  simp [State.countScan]

@[simp] theorem State.countScan_status (s : State) (side : List SideEnt) : (State.countScan s side).status = s.status := by
  simp [State.countScan]

@[simp] theorem State.countScan_hostMem (s : State) (side : List SideEnt) : (State.countScan s side).host.mem = s.host.mem := by
  simp [State.countScan]

@[simp] theorem State.assemble_board (s : State) (slot : Nat) (x : Search) (lost : List Nat) : (State.assemble s slot x lost).board = s.board := by
  simp [State.assemble]

@[simp] theorem State.assemble_status (s : State) (slot : Nat) (x : Search) (lost : List Nat) : (State.assemble s slot x lost).status = s.status := by
  simp [State.assemble]

@[simp] theorem State.assemble_hostMem (s : State) (slot : Nat) (x : Search) (lost : List Nat) : (State.assemble s slot x lost).host.mem =
    s.host.mem := by
  simp [State.assemble]

@[simp] theorem State.undoSeq_board (s : State) (h : W32) : (State.undoSeq s h).board = s.board := by
  simp [State.undoSeq]

@[simp] theorem State.undoSeq_status (s : State) (h : W32) : (State.undoSeq s h).status = s.status := by
  simp [State.undoSeq]

@[simp] theorem State.undoSeq_hostMem (s : State) (h : W32) : (State.undoSeq s h).host.mem = s.host.mem := by
  simp [State.undoSeq]

@[simp] theorem State.undoReq_board (s : State) (r : Req) : (State.undoReq s r).board = s.board := by
  simp [State.undoReq]

@[simp] theorem State.undoReq_status (s : State) (r : Req) : (State.undoReq s r).status = s.status := by
  simp [State.undoReq]

@[simp] theorem State.undoReq_hostMem (s : State) (r : Req) : (State.undoReq s r).host.mem = s.host.mem := by
  simp [State.undoReq]

@[simp] theorem State.abortReq_board (s : State) (r : Req) : (State.abortReq s r).board = s.board := by
  simp [State.abortReq]

@[simp] theorem State.abortReq_status (s : State) (r : Req) : (State.abortReq s r).status = s.status := by
  simp [State.abortReq]

@[simp] theorem State.abortReq_hostMem (s : State) (r : Req) : (State.abortReq s r).host.mem = s.host.mem := by
  simp [State.abortReq]

@[simp] theorem State.applyAbort_board (s : State) (x : Req) : (State.applyAbort s x).board = s.board := by
  unfold State.applyAbort; split <;> simp

@[simp] theorem State.applyAbort_status (s : State) (x : Req) : (State.applyAbort s x).status = s.status := by
  unfold State.applyAbort; split <;> simp

@[simp] theorem State.applyAbort_hostMem (s : State) (x : Req) : (State.applyAbort s x).host.mem = s.host.mem := by
  unfold State.applyAbort; split <;> simp

@[simp] theorem State.commitAborts_board (s : State) : (State.commitAborts s).board = s.board := by
  unfold State.commitAborts; dsimp only; rw [foldl_board, foldl_board, foldl_board]
  · intro s b; simp
  · intro s b; (repeat' split) <;> simp
  · intro s b; simp

@[simp] theorem State.commitAborts_status (s : State) : (State.commitAborts s).status = s.status := by
  unfold State.commitAborts; dsimp only; rw [foldl_status, foldl_status, foldl_status]
  · intro s b; simp
  · intro s b; (repeat' split) <;> simp
  · intro s b; simp

@[simp] theorem State.commitAborts_hostMem (s : State) : (State.commitAborts s).host.mem = s.host.mem := by
  unfold State.commitAborts; dsimp only; rw [foldl_hostMem, foldl_hostMem, foldl_hostMem]
  · intro s b; simp
  · intro s b; (repeat' split) <;> simp
  · intro s b; simp

@[simp] theorem State.stageFlush_board (t : Nat) (s : State) (n : Nat) : (State.stageFlush t s n).board = s.board := by
  simp [State.stageFlush]

@[simp] theorem State.stageFlush_status (t : Nat) (s : State) (n : Nat) : (State.stageFlush t s n).status = s.status := by
  simp [State.stageFlush]

@[simp] theorem State.stageFlush_hostMem (t : Nat) (s : State) (n : Nat) : (State.stageFlush t s n).host.mem = s.host.mem := by
  simp [State.stageFlush]

@[simp] theorem State.stageRebuilt_board (t : Nat) (s : State) (m : MoveChoice) : (State.stageRebuilt t s m).board = s.board := by
  unfold State.stageRebuilt; split <;> simp

@[simp] theorem State.stageRebuilt_status (t : Nat) (s : State) (m : MoveChoice) : (State.stageRebuilt t s m).status = s.status := by
  unfold State.stageRebuilt; split <;> simp

@[simp] theorem State.stageRebuilt_hostMem (t : Nat) (s : State) (m : MoveChoice) : (State.stageRebuilt t s m).host.mem = s.host.mem := by
  unfold State.stageRebuilt; split <;> simp

@[simp] theorem State.countRebuilt_board (s before : State) (ms : List MoveChoice) : (State.countRebuilt s before ms).board = s.board := by
  simp [State.countRebuilt]

@[simp] theorem State.countRebuilt_status (s before : State) (ms : List MoveChoice) : (State.countRebuilt s before ms).status = s.status := by
  simp [State.countRebuilt]

@[simp] theorem State.countRebuilt_hostMem (s before : State) (ms : List MoveChoice) : (State.countRebuilt s before ms).host.mem = s.host.mem := by
  simp [State.countRebuilt]

@[simp] theorem State.commitClean_board (t : Nat) (s : State) (c : Nat × Nat) : (State.commitClean t s c).board = s.board := by
  simp [State.commitClean]

@[simp] theorem State.commitClean_status (t : Nat) (s : State) (c : Nat × Nat) : (State.commitClean t s c).status = s.status := by
  simp [State.commitClean]

@[simp] theorem State.commitClean_hostMem (t : Nat) (s : State) (c : Nat × Nat) : (State.commitClean t s c).host.mem = s.host.mem := by
  simp [State.commitClean]

@[simp] theorem State.moveToFlash_board (t : Nat) (s : State) (f g : Nat) : (State.moveToFlash t s f g).board = s.board := by
  simp [State.moveToFlash]

@[simp] theorem State.moveToFlash_status (t : Nat) (s : State) (f g : Nat) : (State.moveToFlash t s f g).status = s.status := by
  simp [State.moveToFlash]

@[simp] theorem State.moveToFlash_hostMem (t : Nat) (s : State) (f g : Nat) : (State.moveToFlash t s f g).host.mem = s.host.mem := by
  simp [State.moveToFlash]

@[simp] theorem State.maskLost_board (t : Nat) (s : State) : (State.maskLost t s).board = s.board := by
  simp [State.maskLost]

@[simp] theorem State.maskLost_status (t : Nat) (s : State) : (State.maskLost t s).status = s.status := by
  simp [State.maskLost]

@[simp] theorem State.maskLost_hostMem (t : Nat) (s : State) : (State.maskLost t s).host.mem = s.host.mem := by
  simp [State.maskLost]

@[simp] theorem State.dropFlashCopy_board (t g : Nat) (s : State) (f : Nat) : (State.dropFlashCopy t g s f).board = s.board := by
  simp [State.dropFlashCopy]

@[simp] theorem State.dropFlashCopy_status (t g : Nat) (s : State) (f : Nat) : (State.dropFlashCopy t g s f).status = s.status := by
  simp [State.dropFlashCopy]

@[simp] theorem State.dropFlashCopy_hostMem (t g : Nat) (s : State) (f : Nat) : (State.dropFlashCopy t g s f).host.mem = s.host.mem := by
  simp [State.dropFlashCopy]

@[simp] theorem State.commitFailed_board (s : State) (t : Nat) : (State.commitFailed s t).board = s.board := by
  unfold State.commitFailed; dsimp only; rw [State.maskLost_board]; refine foldl_board _ (fun s b => ?_) _ _; (repeat' split) <;> simp

@[simp] theorem State.commitFailed_status (s : State) (t : Nat) : (State.commitFailed s t).status = s.status := by
  unfold State.commitFailed; dsimp only; rw [State.maskLost_status]; refine foldl_status _ (fun s b => ?_) _ _; (repeat' split) <;> simp

@[simp] theorem State.commitFailed_hostMem (s : State) (t : Nat) : (State.commitFailed s t).host.mem = s.host.mem := by
  unfold State.commitFailed; dsimp only; rw [State.maskLost_hostMem]; refine foldl_hostMem _ (fun s b => ?_) _ _; (repeat' split) <;> simp

@[simp] theorem State.retireSuspects_board (s : State) : (State.retireSuspects s).board = s.board := by
  simp [State.retireSuspects]

@[simp] theorem State.retireSuspects_status (s : State) : (State.retireSuspects s).status = s.status := by
  simp [State.retireSuspects]

@[simp] theorem State.retireSuspects_hostMem (s : State) : (State.retireSuspects s).host.mem = s.host.mem := by
  simp [State.retireSuspects]

@[simp] theorem State.repairFlash_board (s : State) (frame : Nat) : (State.repairFlash s frame).board = s.board := by
  simp [State.repairFlash]

@[simp] theorem State.repairFlash_status (s : State) (frame : Nat) : (State.repairFlash s frame).status = s.status := by
  simp [State.repairFlash]

@[simp] theorem State.repairFlash_hostMem (s : State) (frame : Nat) : (State.repairFlash s frame).host.mem = s.host.mem := by
  simp [State.repairFlash]

@[simp] theorem State.remapFrame_board (s : State) (b : Nat) (f : Option Nat) : (State.remapFrame s b f).board = s.board := rfl

@[simp] theorem State.remapFrame_status (s : State) (b : Nat) (f : Option Nat) : (State.remapFrame s b f).status = s.status := rfl

@[simp] theorem State.remapFrame_hostMem (s : State) (b : Nat) (f : Option Nat) : (State.remapFrame s b f).host.mem = s.host.mem := rfl

@[simp] theorem State.repairAt_board (s : State) (frame : Option Nat) : (State.repairAt s frame).board = s.board := by
  cases frame
  · rfl
  · exact State.repairFlash_board ..

@[simp] theorem State.repairAt_status (s : State) (frame : Option Nat) : (State.repairAt s frame).status = s.status := by
  cases frame
  · rfl
  · exact State.repairFlash_status ..

@[simp] theorem State.repairAt_hostMem (s : State) (frame : Option Nat) : (State.repairAt s frame).host.mem = s.host.mem := by
  cases frame
  · rfl
  · exact State.repairFlash_hostMem ..

@[simp] theorem State.repairCopy_board (s : State) (c : CopyId) : (State.repairCopy s c).board = s.board := by
  unfold State.repairCopy; split
  · rw [State.remapFrame_board]
  · rw [State.repairAt_board]

@[simp] theorem State.repairCopy_status (s : State) (c : CopyId) : (State.repairCopy s c).status = s.status := by
  unfold State.repairCopy; split
  · rw [State.remapFrame_status]
  · rw [State.repairAt_status]

@[simp] theorem State.repairCopy_hostMem (s : State) (c : CopyId) : (State.repairCopy s c).host.mem = s.host.mem := by
  unfold State.repairCopy; split
  · rw [State.remapFrame_hostMem]
  · rw [State.repairAt_hostMem]

@[simp] theorem State.commitRepairs_board (s : State) : (State.commitRepairs s).board = s.board := by
  simp [State.commitRepairs]

@[simp] theorem State.commitRepairs_status (s : State) : (State.commitRepairs s).status = s.status := by
  simp [State.commitRepairs]

@[simp] theorem State.commitRepairs_hostMem (s : State) : (State.commitRepairs s).host.mem = s.host.mem := by
  simp [State.commitRepairs]

@[simp] theorem State.sealPartial_board (s : State) (n : Nat) : (State.sealPartial s n).board = s.board := by
  simp [State.sealPartial]

@[simp] theorem State.sealPartial_status (s : State) (n : Nat) : (State.sealPartial s n).status = s.status := by
  simp [State.sealPartial]

@[simp] theorem State.sealPartial_hostMem (s : State) (n : Nat) : (State.sealPartial s n).host.mem = s.host.mem := by
  simp [State.sealPartial]

@[simp] theorem State.flushPartial_board (t : Nat) (a : State × List (Nat × W64)) (n : Nat) :
    (State.flushPartial t a n).1.board = a.1.board := by
  simp [State.flushPartial]

@[simp] theorem State.flushPartial_status (t : Nat) (a : State × List (Nat × W64)) (n : Nat) :
    (State.flushPartial t a n).1.status = a.1.status := by
  simp [State.flushPartial]

@[simp] theorem State.flushPartial_hostMem (t : Nat) (a : State × List (Nat × W64)) (n : Nat) :
    (State.flushPartial t a n).1.host.mem = a.1.host.mem := by
  simp [State.flushPartial]

@[simp] theorem State.sealFrame_board (t : Nat) (q : Seq) (r fill : Nat) (s : State) (x : Nat × W64) : (State.sealFrame t q r fill s x).board =
    s.board := by
  simp [State.sealFrame]

@[simp] theorem State.sealFrame_status (t : Nat) (q : Seq) (r fill : Nat) (s : State) (x : Nat × W64) : (State.sealFrame t q r fill s x).status =
    s.status := by
  simp [State.sealFrame]

@[simp] theorem State.sealFrame_hostMem (t : Nat) (q : Seq) (r fill : Nat) (s : State) (x : Nat × W64) : (State.sealFrame t q r fill s x).host.mem =
    s.host.mem := by
  simp [State.sealFrame]

@[simp] theorem State.finishClose_board (t : Nat) (s : State) (q : Seq) : (State.finishClose t s q).board = s.board := by
  simp [State.finishClose]

@[simp] theorem State.finishClose_status (t : Nat) (s : State) (q : Seq) : (State.finishClose t s q).status = s.status := by
  simp [State.finishClose]

@[simp] theorem State.finishClose_hostMem (t : Nat) (s : State) (q : Seq) : (State.finishClose t s q).host.mem = s.host.mem := by
  simp [State.finishClose]

@[simp] theorem State.copyStaging_board (s : State) (src dst : Nat) : (State.copyStaging s src dst).board = s.board := by
  obtain ⟨l, h⟩ : ∃ l, State.copyStaging s src dst = { s with land := l } := ⟨_, rfl⟩
  simp [h]

@[simp] theorem State.copyStaging_status (s : State) (src dst : Nat) : (State.copyStaging s src dst).status = s.status := by
  obtain ⟨l, h⟩ : ∃ l, State.copyStaging s src dst = { s with land := l } := ⟨_, rfl⟩
  simp [h]

@[simp] theorem State.copyStaging_hostMem (s : State) (src dst : Nat) : (State.copyStaging s src dst).host.mem = s.host.mem := by
  obtain ⟨l, h⟩ : ∃ l, State.copyStaging s src dst = { s with land := l } := ⟨_, rfl⟩
  simp [h]

@[simp] theorem State.forkToSlot_board (s : State) (child : W32) (fill n m part frame : Nat) (bytes : List Byte) : (State.forkToSlot s child fill n
    m part frame bytes).board = s.board := by
  unfold State.forkToSlot; dsimp only; (repeat' split) <;> simp

@[simp] theorem State.forkToSlot_status (s : State) (child : W32) (fill n m part frame : Nat) (bytes : List Byte) : (State.forkToSlot s child fill n
    m part frame bytes).status = s.status := by
  unfold State.forkToSlot; dsimp only; (repeat' split) <;> simp

@[simp] theorem State.forkToSlot_hostMem (s : State) (child : W32) (fill n m part frame : Nat) (bytes : List Byte) : (State.forkToSlot s child fill
    n m part frame bytes).host.mem = s.host.mem := by
  unfold State.forkToSlot; dsimp only; (repeat' split) <;> simp

@[simp] theorem State.forkToFrame_board (t : Nat) (s : State) (child : W32) (fill n frame : Nat) (bytes : List Byte) : (State.forkToFrame t s child
    fill n frame bytes).board = s.board := by
  unfold State.forkToFrame; dsimp only; (repeat' split) <;> simp

@[simp] theorem State.forkToFrame_status (t : Nat) (s : State) (child : W32) (fill n frame : Nat) (bytes : List Byte) : (State.forkToFrame t s child
    fill n frame bytes).status = s.status := by
  unfold State.forkToFrame; dsimp only; (repeat' split) <;> simp

@[simp] theorem State.forkToFrame_hostMem (t : Nat) (s : State) (child : W32) (fill n frame : Nat) (bytes : List Byte) : (State.forkToFrame t s
    child fill n frame bytes).host.mem = s.host.mem := by
  unfold State.forkToFrame; dsimp only; (repeat' split) <;> simp

@[simp] theorem State.forkWith_board (t : Nat) (s : State) (child : W32) (fill n : Nat) (bytes : List Byte) (here : Option Nat) (seat : Option (Nat
    × Nat)) (any : Option Nat) : (State.forkWith t s child fill n bytes here seat any).board = s.board := by
  unfold State.forkWith; split
  · exact State.forkToSlot_board ..
  · exact State.forkToFrame_board ..
  · exact State.forkToFrame_board ..
  · rfl

@[simp] theorem State.forkWith_status (t : Nat) (s : State) (child : W32) (fill n : Nat) (bytes : List Byte) (here : Option Nat) (seat : Option (Nat
    × Nat)) (any : Option Nat) : (State.forkWith t s child fill n bytes here seat any).status = s.status := by
  unfold State.forkWith; split
  · exact State.forkToSlot_status ..
  · exact State.forkToFrame_status ..
  · exact State.forkToFrame_status ..
  · rfl

@[simp] theorem State.forkWith_hostMem (t : Nat) (s : State) (child : W32) (fill n : Nat) (bytes : List Byte) (here : Option Nat) (seat : Option
    (Nat × Nat)) (any : Option Nat) : (State.forkWith t s child fill n bytes here seat any).host.mem = s.host.mem := by
  unfold State.forkWith; split
  · exact State.forkToSlot_hostMem ..
  · exact State.forkToFrame_hostMem ..
  · exact State.forkToFrame_hostMem ..
  · rfl

@[simp] theorem State.forkSlot_board (t : Nat) (child : W32) (fill : Nat) (s : State) (n : Nat) : (State.forkSlot t child fill s n).board = s.board
    := by
  unfold State.forkSlot; exact State.forkWith_board ..

@[simp] theorem State.forkSlot_status (t : Nat) (child : W32) (fill : Nat) (s : State) (n : Nat) : (State.forkSlot t child fill s n).status =
    s.status := by
  unfold State.forkSlot; exact State.forkWith_status ..

@[simp] theorem State.forkSlot_hostMem (t : Nat) (child : W32) (fill : Nat) (s : State) (n : Nat) : (State.forkSlot t child fill s n).host.mem =
    s.host.mem := by
  unfold State.forkSlot; exact State.forkWith_hostMem ..

@[simp] theorem State.copyForks_board (t p : Nat) (child : W32) (s : State) (ns : List Nat) : (State.copyForks t p child s ns).board = s.board := by
  unfold State.copyForks
  induction ns generalizing s with
  | nil => rfl
  | cons n ns ih => rw [List.foldl_cons, ih]; exact State.forkSlot_board t child (p - (s.slot n).firstPos) s n

@[simp] theorem State.copyForks_status (t p : Nat) (child : W32) (s : State) (ns : List Nat) : (State.copyForks t p child s ns).status = s.status :=
    by
  unfold State.copyForks
  induction ns generalizing s with
  | nil => rfl
  | cons n ns ih => rw [List.foldl_cons, ih]; exact State.forkSlot_status t child (p - (s.slot n).firstPos) s n

@[simp] theorem State.copyForks_hostMem (t p : Nat) (child : W32) (s : State) (ns : List Nat) : (State.copyForks t p child s ns).host.mem =
    s.host.mem := by
  unfold State.copyForks
  induction ns generalizing s with
  | nil => rfl
  | cons n ns ih => rw [List.foldl_cons, ih]; exact State.forkSlot_hostMem t child (p - (s.slot n).firstPos) s n

@[simp] theorem State.commitFork_board (t : Nat) (s : State) (f : Nat × W32 × Nat × W32) : (State.commitFork t s f).board = s.board := by
  obtain ⟨rid, parent, p, child⟩ := f
  unfold State.commitFork; dsimp only; rw [State.updReq_board, State.copyForks_board]

@[simp] theorem State.commitFork_status (t : Nat) (s : State) (f : Nat × W32 × Nat × W32) : (State.commitFork t s f).status = s.status := by
  obtain ⟨rid, parent, p, child⟩ := f
  unfold State.commitFork; dsimp only; rw [State.updReq_status, State.copyForks_status]

@[simp] theorem State.commitFork_hostMem (t : Nat) (s : State) (f : Nat × W32 × Nat × W32) : (State.commitFork t s f).host.mem = s.host.mem := by
  obtain ⟨rid, parent, p, child⟩ := f
  unfold State.commitFork; dsimp only; rw [State.updReq_hostMem, State.copyForks_hostMem]

@[simp] theorem State.commitQsketch_board (s : State) : (State.commitQsketch s).board = s.board := by
  unfold State.commitQsketch; refine (foldl_board _ (fun s b => ?_) _ _).trans ?_
  · (repeat' split) <;> simp
  · simp

@[simp] theorem State.commitQsketch_status (s : State) : (State.commitQsketch s).status = s.status := by
  unfold State.commitQsketch; refine (foldl_status _ (fun s b => ?_) _ _).trans ?_
  · (repeat' split) <;> simp
  · simp

@[simp] theorem State.commitQsketch_hostMem (s : State) : (State.commitQsketch s).host.mem = s.host.mem := by
  unfold State.commitQsketch; refine (foldl_hostMem _ (fun s b => ?_) _ _).trans ?_
  · (repeat' split) <;> simp
  · simp

@[simp] theorem State.commitWrites_board (s : State) (t : Nat) : (State.commitWrites s t).board = s.board := by
  simp [State.commitWrites]

@[simp] theorem State.commitWrites_status (s : State) (t : Nat) : (State.commitWrites s t).status = s.status := by
  simp [State.commitWrites]

@[simp] theorem State.commitWrites_hostMem (s : State) (t : Nat) : (State.commitWrites s t).host.mem = s.host.mem := by
  simp [State.commitWrites]

@[simp] theorem State.dropTails_board (s : State) (m : W32 × Nat × Nat) : (State.dropTails s m).board = s.board := by
  simp [State.dropTails]

@[simp] theorem State.dropTails_status (s : State) (m : W32 × Nat × Nat) : (State.dropTails s m).status = s.status := by
  simp [State.dropTails]

@[simp] theorem State.dropTails_hostMem (s : State) (m : W32 × Nat × Nat) : (State.dropTails s m).host.mem = s.host.mem := by
  simp [State.dropTails]

@[simp] theorem State.commitLists_board (s : State) (t : Nat) (full : List Nat) : (State.commitLists s t full).board = s.board := by
  simp [State.commitLists]

@[simp] theorem State.commitLists_status (s : State) (t : Nat) (full : List Nat) : (State.commitLists s t full).status = s.status := by
  simp [State.commitLists]

@[simp] theorem State.commitLists_hostMem (s : State) (t : Nat) (full : List Nat) : (State.commitLists s t full).host.mem = s.host.mem := by
  simp [State.commitLists]

@[simp] theorem State.repin_board (t : Nat) (s : State) (q : Seq) : (State.repin t s q).board = s.board := by
  simp [State.repin]

@[simp] theorem State.repin_status (t : Nat) (s : State) (q : Seq) : (State.repin t s q).status = s.status := by
  simp [State.repin]

@[simp] theorem State.repin_hostMem (t : Nat) (s : State) (q : Seq) : (State.repin t s q).host.mem = s.host.mem := by
  simp [State.repin]

@[simp] theorem State.repinAll_board (s : State) (t : Nat) : (State.repinAll s t).board = s.board := by
  simp [State.repinAll]

@[simp] theorem State.repinAll_status (s : State) (t : Nat) : (State.repinAll s t).status = s.status := by
  simp [State.repinAll]

@[simp] theorem State.repinAll_hostMem (s : State) (t : Nat) : (State.repinAll s t).host.mem = s.host.mem := by
  simp [State.repinAll]

@[simp] theorem State.commitPages_board (s : State) (t : Nat) : (State.commitPages s t).board = s.board := by
  simp [State.commitPages]

@[simp] theorem State.commitPages_status (s : State) (t : Nat) : (State.commitPages s t).status = s.status := by
  simp [State.commitPages]

@[simp] theorem State.commitPages_hostMem (s : State) (t : Nat) : (State.commitPages s t).host.mem = s.host.mem := by
  simp [State.commitPages]

@[simp] theorem State.releaseHbm_board (s : State) (f : Nat) : (State.releaseHbm s f).board = s.board := by
  unfold State.releaseHbm; dsimp only; (repeat' split) <;> simp

@[simp] theorem State.releaseHbm_status (s : State) (f : Nat) : (State.releaseHbm s f).status = s.status := by
  unfold State.releaseHbm; dsimp only; (repeat' split) <;> simp

@[simp] theorem State.releaseHbm_hostMem (s : State) (f : Nat) : (State.releaseHbm s f).host.mem = s.host.mem := by
  unfold State.releaseHbm; dsimp only; (repeat' split) <;> simp

@[simp] theorem State.releaseFlash_board (s : State) (f : Nat) : (State.releaseFlash s f).board = s.board := by
  simp [State.releaseFlash]

@[simp] theorem State.releaseFlash_status (s : State) (f : Nat) : (State.releaseFlash s f).status = s.status := by
  simp [State.releaseFlash]

@[simp] theorem State.releaseFlash_hostMem (s : State) (f : Nat) : (State.releaseFlash s f).host.mem = s.host.mem := by
  simp [State.releaseFlash]

@[simp] theorem State.commitReleases_board (s : State) : (State.commitReleases s).board = s.board := by
  simp [State.commitReleases]

@[simp] theorem State.commitReleases_status (s : State) : (State.commitReleases s).status = s.status := by
  simp [State.commitReleases]

@[simp] theorem State.commitReleases_hostMem (s : State) : (State.commitReleases s).host.mem = s.host.mem := by
  simp [State.commitReleases]

@[simp] theorem State.applyOpen_board (s : State) (r : Req) : (State.applyOpen s r).board = s.board := by
  unfold State.applyOpen; split <;> simp

@[simp] theorem State.applyOpen_status (s : State) (r : Req) : (State.applyOpen s r).status = s.status := by
  unfold State.applyOpen; split <;> simp

@[simp] theorem State.applyOpen_hostMem (s : State) (r : Req) : (State.applyOpen s r).host.mem = s.host.mem := by
  unfold State.applyOpen; split <;> simp

@[simp] theorem State.applyFork_board (s : State) (r : Req) (q : Seq) : (State.applyFork s r q).board = s.board := by
  unfold State.applyFork; dsimp only; (repeat' split) <;> simp

@[simp] theorem State.applyFork_status (s : State) (r : Req) (q : Seq) : (State.applyFork s r q).status = s.status := by
  unfold State.applyFork; dsimp only; (repeat' split) <;> simp

@[simp] theorem State.applyFork_hostMem (s : State) (r : Req) (q : Seq) : (State.applyFork s r q).host.mem = s.host.mem := by
  unfold State.applyFork; dsimp only; (repeat' split) <;> simp

@[simp] theorem State.applyWork_board (s : State) (t : Nat) (r : Req) (hold : Bool) : (State.applyWork s t r hold).board = s.board := by
  simp [State.applyWork]

@[simp] theorem State.applyWork_status (s : State) (t : Nat) (r : Req) (hold : Bool) : (State.applyWork s t r hold).status = s.status := by
  simp [State.applyWork]

@[simp] theorem State.applyWork_hostMem (s : State) (t : Nat) (r : Req) (hold : Bool) : (State.applyWork s t r hold).host.mem = s.host.mem := by
  simp [State.applyWork]

@[simp] theorem State.onSeq_board (s : State) (r : Req) (f : Seq → State) (hf : ∀ q, (f q).board = s.board) :
    (s.onSeq r f).board = s.board := by
  unfold State.onSeq; split
  · simp
  · split <;> simp [hf]

@[simp] theorem State.onSeq_status (s : State) (r : Req) (f : Seq → State) (hf : ∀ q, (f q).status = s.status) :
    (s.onSeq r f).status = s.status := by
  unfold State.onSeq; split
  · simp
  · split <;> simp [hf]

@[simp] theorem State.onSeq_hostMem (s : State) (r : Req) (f : Seq → State) (hf : ∀ q, (f q).host.mem = s.host.mem) :
    (s.onSeq r f).host.mem = s.host.mem := by
  unfold State.onSeq; split
  · simp
  · split <;> simp [hf]

@[simp] theorem State.applyClose_board (s : State) (r : Req) : (State.applyClose s r).board = s.board := by
  unfold State.applyClose; split <;> simp

@[simp] theorem State.applyClose_status (s : State) (r : Req) : (State.applyClose s r).status = s.status := by
  unfold State.applyClose; split <;> simp

@[simp] theorem State.applyClose_hostMem (s : State) (r : Req) : (State.applyClose s r).host.mem = s.host.mem := by
  unfold State.applyClose; split <;> simp

@[simp] theorem State.noteWritten_board (s : State) (first n : Nat) : (State.noteWritten s first n).board = s.board := by
  simp [State.noteWritten]

@[simp] theorem State.noteWritten_status (s : State) (first n : Nat) : (State.noteWritten s first n).status = s.status := by
  simp [State.noteWritten]

@[simp] theorem State.noteWritten_hostMem (s : State) (first n : Nat) : (State.noteWritten s first n).host.mem = s.host.mem := by
  simp [State.noteWritten]

@[simp] theorem State.applyLoad_board (s : State) (r : Req) : (State.applyLoad s r).board = s.board := by
  simp [State.applyLoad]

@[simp] theorem State.applyLoad_status (s : State) (r : Req) : (State.applyLoad s r).status = s.status := by
  simp [State.applyLoad]

@[simp] theorem State.applyLoad_hostMem (s : State) (r : Req) : (State.applyLoad s r).host.mem = s.host.mem := by
  simp [State.applyLoad]

@[simp] theorem State.applyQuota_board (s : State) (r : Req) : (State.applyQuota s r).board = s.board := by
  simp [State.applyQuota]

@[simp] theorem State.applyQuota_status (s : State) (r : Req) : (State.applyQuota s r).status = s.status := by
  simp [State.applyQuota]

@[simp] theorem State.applyQuota_hostMem (s : State) (r : Req) : (State.applyQuota s r).host.mem = s.host.mem := by
  simp [State.applyQuota]

@[simp] theorem State.applyRemote_board (s : State) (r : Req) : (State.applyRemote s r).board = s.board := by
  simp [State.applyRemote]

@[simp] theorem State.applyRemote_status (s : State) (r : Req) : (State.applyRemote s r).status = s.status := by
  simp [State.applyRemote]

@[simp] theorem State.applyRemote_hostMem (s : State) (r : Req) : (State.applyRemote s r).host.mem = s.host.mem := by
  simp [State.applyRemote]

@[simp] theorem State.applyInsert_board (s : State) (t : Nat) (r : Req) : (State.applyInsert s t r).board = s.board := by
  unfold State.applyInsert; split <;> simp

@[simp] theorem State.applyInsert_status (s : State) (t : Nat) (r : Req) : (State.applyInsert s t r).status = s.status := by
  unfold State.applyInsert; split <;> simp

@[simp] theorem State.applyInsert_hostMem (s : State) (t : Nat) (r : Req) : (State.applyInsert s t r).host.mem = s.host.mem := by
  unfold State.applyInsert; split <;> simp

@[simp] theorem State.applyDelete_board (s : State) (t : Nat) (r : Req) : (State.applyDelete s t r).board = s.board := by
  unfold State.applyDelete; dsimp only; (repeat' split) <;> simp

@[simp] theorem State.applyDelete_status (s : State) (t : Nat) (r : Req) : (State.applyDelete s t r).status = s.status := by
  unfold State.applyDelete; dsimp only; (repeat' split) <;> simp

@[simp] theorem State.applyDelete_hostMem (s : State) (t : Nat) (r : Req) : (State.applyDelete s t r).host.mem = s.host.mem := by
  unfold State.applyDelete; dsimp only; (repeat' split) <;> simp

@[simp] theorem State.applyDrain_board (s : State) (r : Req) : (State.applyDrain s r).board = s.board := by
  simp [State.applyDrain]

@[simp] theorem State.applyDrain_hostMem (s : State) (r : Req) : (State.applyDrain s r).host.mem = s.host.mem := by
  simp [State.applyDrain]

@[simp] theorem State.applyCmd_board (t : Nat) (hold : Bool) (s : State) (x : Req) : (State.applyCmd t hold s x).board = s.board := by
  unfold State.applyCmd; split <;> simp

@[simp] theorem State.applyCmd_hostMem (t : Nat) (hold : Bool) (s : State) (x : Req) : (State.applyCmd t hold s x).host.mem = s.host.mem := by
  unfold State.applyCmd; split <;> simp

@[simp] theorem State.endLost_board (s : State) : (State.endLost s).board = s.board := by
  simp [State.endLost]

@[simp] theorem State.endLost_status (s : State) : (State.endLost s).status = s.status := by
  simp [State.endLost]

@[simp] theorem State.endLost_hostMem (s : State) : (State.endLost s).host.mem = s.host.mem := by
  simp [State.endLost]

@[simp] theorem State.commitCmds_board (s : State) (t : Nat) (hold : Bool) : (State.commitCmds s t hold).board = s.board := by
  simp [State.commitCmds]

@[simp] theorem State.commitCmds_hostMem (s : State) (t : Nat) (hold : Bool) : (State.commitCmds s t hold).host.mem = s.host.mem := by
  simp [State.commitCmds]

@[simp] theorem State.recordGens_board (s : State) (t : Nat) : (State.recordGens s t).board = s.board := by
  simp [State.recordGens]

@[simp] theorem State.recordGens_status (s : State) (t : Nat) : (State.recordGens s t).status = s.status := by
  simp [State.recordGens]

@[simp] theorem State.recordGens_hostMem (s : State) (t : Nat) : (State.recordGens s t).host.mem = s.host.mem := by
  simp [State.recordGens]

@[simp] theorem State.raisePorts_board (s : State) (x : EdgeInput) : (State.raisePorts s x).board = s.board := by
  simp [State.raisePorts]

@[simp] theorem State.raisePorts_status (s : State) (x : EdgeInput) : (State.raisePorts s x).status = s.status := by
  simp [State.raisePorts]

@[simp] theorem State.raisePorts_hostMem (s : State) (x : EdgeInput) : (State.raisePorts s x).host.mem = s.host.mem := by
  simp [State.raisePorts]

@[simp] theorem State.commitTables_board (s : State) (t : Nat) (x : EdgeInput) : (State.commitTables s t x).board = s.board := by
  simp [State.commitTables]

@[simp] theorem State.commitTables_status (s : State) (t : Nat) (x : EdgeInput) : (State.commitTables s t x).status = s.status := by
  simp [State.commitTables]

@[simp] theorem State.commitTables_hostMem (s : State) (t : Nat) (x : EdgeInput) : (State.commitTables s t x).host.mem = s.host.mem := by
  simp [State.commitTables]

@[simp] theorem State.restartRounds_board (s : State) : (State.restartRounds s).board = s.board := by
  simp [State.restartRounds]

@[simp] theorem State.restartRounds_status (s : State) : (State.restartRounds s).status = s.status := by
  simp [State.restartRounds]

@[simp] theorem State.restartRounds_hostMem (s : State) : (State.restartRounds s).host.mem = s.host.mem := by
  simp [State.restartRounds]

@[simp] theorem State.admitModules_board (s : State) (ms : List (Nat × W64 × Nat)) : (State.admitModules s ms).board = s.board := by
  simp [State.admitModules]

@[simp] theorem State.admitModules_status (s : State) (ms : List (Nat × W64 × Nat)) : (State.admitModules s ms).status = s.status := by
  simp [State.admitModules]

@[simp] theorem State.admitModules_hostMem (s : State) (ms : List (Nat × W64 × Nat)) : (State.admitModules s ms).host.mem = s.host.mem := by
  simp [State.admitModules]

@[simp] theorem State.depart_board (s : State) : (State.depart s).board = s.board := by
  simp [State.depart]

@[simp] theorem State.depart_hostMem (s : State) : (State.depart s).host.mem = s.host.mem := by
  simp [State.depart]

@[simp] theorem State.dropMembers_board (s : State) (cs : List Nat) : (State.dropMembers s cs).board = s.board := by
  simp [State.dropMembers]

@[simp] theorem State.dropMembers_status (s : State) (cs : List Nat) : (State.dropMembers s cs).status = s.status := by
  simp [State.dropMembers]

@[simp] theorem State.dropMembers_hostMem (s : State) (cs : List Nat) : (State.dropMembers s cs).host.mem = s.host.mem := by
  simp [State.dropMembers]

@[simp] theorem State.commitCrew_board (s : State) (x : EdgeInput) (next : Nat) : (State.commitCrew s x next).board = s.board := by
  simp [State.commitCrew]

@[simp] theorem State.commitCrew_hostMem (s : State) (x : EdgeInput) (next : Nat) : (State.commitCrew s x next).host.mem = s.host.mem := by
  simp [State.commitCrew]

@[simp] theorem State.takeReturned_board (s : State) (x : Returned) : (State.takeReturned s x).board = s.board := by
  simp [State.takeReturned]

@[simp] theorem State.takeReturned_status (s : State) (x : Returned) : (State.takeReturned s x).status = s.status := by
  simp [State.takeReturned]

@[simp] theorem State.takeReturned_hostMem (s : State) (x : Returned) : (State.takeReturned s x).host.mem = s.host.mem := by
  simp [State.takeReturned]

@[simp] theorem State.settleWork_board (s : State) : (State.settleWork s).board = s.board := by
  simp [State.settleWork]

@[simp] theorem State.settleWork_status (s : State) : (State.settleWork s).status = s.status := by
  simp [State.settleWork]

@[simp] theorem State.settleWork_hostMem (s : State) : (State.settleWork s).host.mem = s.host.mem := by
  simp [State.settleWork]

@[simp] theorem State.writeOutput_board (t : Nat) (s : State) (r : Req) : (State.writeOutput t s r).board = s.board := by
  simp [State.writeOutput]

@[simp] theorem State.writeOutput_status (t : Nat) (s : State) (r : Req) : (State.writeOutput t s r).status = s.status := by
  simp [State.writeOutput]

@[simp] theorem State.writeResult_board (s : State) (r : Req) : (State.writeResult s r).board = s.board := by
  simp [State.writeResult]

@[simp] theorem State.writeResult_status (s : State) (r : Req) : (State.writeResult s r).status = s.status := by
  simp [State.writeResult]

@[simp] theorem State.complete_board (t : Nat) (bad : List Nat) (s : State) (r : Req) : (State.complete t bad s r).board = s.board := by
  simp [State.complete]

@[simp] theorem State.complete_status (t : Nat) (bad : List Nat) (s : State) (r : Req) : (State.complete t bad s r).status = s.status := by
  simp [State.complete]

@[simp] theorem State.commitResults_board (s : State) (t : Nat) (x : EdgeInput) (bad : List Nat) : (State.commitResults s t x bad).board = s.board
    := by
  simp [State.commitResults]

@[simp] theorem State.commitResults_status (s : State) (t : Nat) (x : EdgeInput) (bad : List Nat) : (State.commitResults s t x bad).status =
    s.status := by
  simp [State.commitResults]

@[simp] theorem State.retireSlots_board (gone : List Nat) (spec : List (Nat × Nat × Nat)) (s : State) (core : Nat) : (State.retireSlots gone spec s
    core).board = s.board := by
  simp [State.retireSlots]

@[simp] theorem State.retireSlots_status (gone : List Nat) (spec : List (Nat × Nat × Nat)) (s : State) (core : Nat) : (State.retireSlots gone spec s
    core).status = s.status := by
  simp [State.retireSlots]

@[simp] theorem State.retireSlots_hostMem (gone : List Nat) (spec : List (Nat × Nat × Nat)) (s : State) (core : Nat) : (State.retireSlots gone spec
    s core).host.mem = s.host.mem := by
  simp [State.retireSlots]

@[simp] theorem State.wasteSlots_board (s : State) (core : Nat) : (State.wasteSlots s core).board = s.board := by
  simp [State.wasteSlots]

@[simp] theorem State.wasteSlots_status (s : State) (core : Nat) : (State.wasteSlots s core).status = s.status := by
  simp [State.wasteSlots]

@[simp] theorem State.wasteSlots_hostMem (s : State) (core : Nat) : (State.wasteSlots s core).host.mem = s.host.mem := by
  simp [State.wasteSlots]

@[simp] theorem State.latchCounters_board (s : State) (t : Nat) : (State.latchCounters s t).board = s.board := by
  simp [State.latchCounters]

@[simp] theorem State.latchCounters_status (s : State) (t : Nat) : (State.latchCounters s t).status = s.status := by
  simp [State.latchCounters]

@[simp] theorem State.latchCounters_hostMem (s : State) (t : Nat) : (State.latchCounters s t).host.mem = s.host.mem := by
  simp [State.latchCounters]

@[simp] theorem State.commit_board (s : State) (t : Nat) (hold : Bool) (x : EdgeInput) (bad : List Nat) (next : Nat) : (State.commit s t hold x bad
    next).board = s.board := by
  simp [State.commit]

@[simp] theorem State.withoutPorts_board (s : State) : (State.withoutPorts s).board = s.board := by
  simp [State.withoutPorts]

@[simp] theorem State.withoutPorts_status (s : State) : (State.withoutPorts s).status = s.status := by
  simp [State.withoutPorts]

@[simp] theorem State.withoutPorts_hostMem (s : State) : (State.withoutPorts s).host.mem = s.host.mem := by
  simp [State.withoutPorts]

@[simp] theorem State.startMerges_board (s : State) (t : Nat) : (State.startMerges s t).board = s.board := by
  unfold State.startMerges; refine foldl_board _ (fun s b => ?_) _ _; (repeat' split) <;> simp

@[simp] theorem State.startMerges_status (s : State) (t : Nat) : (State.startMerges s t).status = s.status := by
  unfold State.startMerges; refine foldl_status _ (fun s b => ?_) _ _; (repeat' split) <;> simp

@[simp] theorem State.startMerges_hostMem (s : State) (t : Nat) : (State.startMerges s t).host.mem = s.host.mem := by
  unfold State.startMerges; refine foldl_hostMem _ (fun s b => ?_) _ _; (repeat' split) <;> simp

@[simp] theorem State.setWants_board (s : State) (sets : List (Nat × List Nat)) : (State.setWants s sets).board = s.board := by
  simp [State.setWants]

@[simp] theorem State.setWants_status (s : State) (sets : List (Nat × List Nat)) : (State.setWants s sets).status = s.status := by
  simp [State.setWants]

@[simp] theorem State.setWants_hostMem (s : State) (sets : List (Nat × List Nat)) : (State.setWants s sets).host.mem = s.host.mem := by
  simp [State.setWants]

@[simp] theorem State.fillRoutes_board (s : State) : (State.fillRoutes s).board = s.board := by
  simp [State.fillRoutes]

@[simp] theorem State.fillRoutes_status (s : State) : (State.fillRoutes s).status = s.status := by
  simp [State.fillRoutes]

@[simp] theorem State.fillRoutes_hostMem (s : State) : (State.fillRoutes s).host.mem = s.host.mem := by
  simp [State.fillRoutes]

@[simp] theorem State.routeAround_board (s : State) : (State.routeAround s).board = s.board := by
  simp [State.routeAround]

@[simp] theorem State.routeAround_status (s : State) : (State.routeAround s).status = s.status := by
  simp [State.routeAround]

@[simp] theorem State.routeAround_hostMem (s : State) : (State.routeAround s).host.mem = s.host.mem := by
  simp [State.routeAround]

@[simp] theorem State.takeUsage_board (s : State) (es : List DeltaEntry) : (State.takeUsage s es).board = s.board := by
  unfold State.takeUsage; refine foldl_board _ (fun s b => ?_) _ _; (repeat' split) <;> simp

@[simp] theorem State.takeUsage_status (s : State) (es : List DeltaEntry) : (State.takeUsage s es).status = s.status := by
  unfold State.takeUsage; refine foldl_status _ (fun s b => ?_) _ _; (repeat' split) <;> simp

@[simp] theorem State.takeUsage_hostMem (s : State) (es : List DeltaEntry) : (State.takeUsage s es).host.mem = s.host.mem := by
  unfold State.takeUsage; refine foldl_hostMem _ (fun s b => ?_) _ _; (repeat' split) <;> simp

@[simp] theorem State.takeRebuild_board (s : State) (e : DeltaEntry) : (State.takeRebuild s e).board = s.board := by
  unfold State.takeRebuild; split <;> simp

@[simp] theorem State.takeRebuild_status (s : State) (e : DeltaEntry) : (State.takeRebuild s e).status = s.status := by
  unfold State.takeRebuild; split <;> simp

@[simp] theorem State.takeRebuild_hostMem (s : State) (e : DeltaEntry) : (State.takeRebuild s e).host.mem = s.host.mem := by
  unfold State.takeRebuild; split <;> simp

@[simp] theorem State.applyDeltas_board (s : State) (t : Nat) : (State.applyDeltas s t).board = s.board := by
  simp [State.applyDeltas]

@[simp] theorem State.applyDeltas_status (s : State) (t : Nat) : (State.applyDeltas s t).status = s.status := by
  simp [State.applyDeltas]

@[simp] theorem State.applyDeltas_hostMem (s : State) (t : Nat) : (State.applyDeltas s t).host.mem = s.host.mem := by
  simp [State.applyDeltas]

@[simp] theorem State.settleShare_board (s : State) : (State.settleShare s).board = s.board := by
  simp [State.settleShare]

@[simp] theorem State.settleShare_status (s : State) : (State.settleShare s).status = s.status := by
  simp [State.settleShare]

@[simp] theorem State.settleShare_hostMem (s : State) : (State.settleShare s).host.mem = s.host.mem := by
  simp [State.settleShare]

@[simp] theorem State.refuse_board (s : State) (bad : List (Nat × Nat)) : (State.refuse s bad).board = s.board := by
  unfold State.refuse; refine foldl_board _ (fun s b => ?_) _ _; (repeat' split) <;> simp

@[simp] theorem State.refuse_status (s : State) (bad : List (Nat × Nat)) : (State.refuse s bad).status = s.status := by
  unfold State.refuse; refine foldl_status _ (fun s b => ?_) _ _; (repeat' split) <;> simp

@[simp] theorem State.refuse_hostMem (s : State) (bad : List (Nat × Nat)) : (State.refuse s bad).host.mem = s.host.mem := by
  unfold State.refuse; refine foldl_hostMem _ (fun s b => ?_) _ _; (repeat' split) <;> simp

@[simp] theorem State.pruneNodes_board (p : State → PrefixNode → Bool) (k : Nat) (s : State) : (State.pruneNodes p k s).board = s.board := by
  induction k generalizing s with
  | zero => rfl
  | succ k ih => unfold State.pruneNodes; split <;> simp [ih]

@[simp] theorem State.pruneNodes_status (p : State → PrefixNode → Bool) (k : Nat) (s : State) : (State.pruneNodes p k s).status = s.status := by
  induction k generalizing s with
  | zero => rfl
  | succ k ih => unfold State.pruneNodes; split <;> simp [ih]

@[simp] theorem State.pruneNodes_hostMem (p : State → PrefixNode → Bool) (k : Nat) (s : State) : (State.pruneNodes p k s).host.mem = s.host.mem := by
  induction k generalizing s with
  | zero => rfl
  | succ k ih => unfold State.pruneNodes; split <;> simp [ih]

@[simp] theorem State.pruneFrame_board (s : State) (f : Nat) : (State.pruneFrame s f).board = s.board := by
  simp [State.pruneFrame]

@[simp] theorem State.pruneFrame_status (s : State) (f : Nat) : (State.pruneFrame s f).status = s.status := by
  simp [State.pruneFrame]

@[simp] theorem State.pruneFrame_hostMem (s : State) (f : Nat) : (State.pruneFrame s f).host.mem = s.host.mem := by
  simp [State.pruneFrame]

@[simp] theorem State.spillPage_board (t : Nat) (a : State × List Nat) (x : Nat × Nat × W32 × W64) :
    (State.spillPage t a x).1.board = a.1.board := by
  unfold State.spillPage; dsimp only; (repeat' split) <;> simp

@[simp] theorem State.spillPage_status (t : Nat) (a : State × List Nat) (x : Nat × Nat × W32 × W64) :
    (State.spillPage t a x).1.status = a.1.status := by
  unfold State.spillPage; dsimp only; (repeat' split) <;> simp

@[simp] theorem State.spillPage_hostMem (t : Nat) (a : State × List Nat) (x : Nat × Nat × W32 × W64) :
    (State.spillPage t a x).1.host.mem = a.1.host.mem := by
  unfold State.spillPage; dsimp only; (repeat' split) <;> simp

@[simp] theorem State.makeSpace_board (t : Nat) (a : State × List Nat) (stack : Nat) : (State.makeSpace t a stack).1.board = a.1.board := by
  unfold State.makeSpace; dsimp only; split <;> simp

@[simp] theorem State.makeSpace_status (t : Nat) (a : State × List Nat) (stack : Nat) : (State.makeSpace t a stack).1.status = a.1.status := by
  unfold State.makeSpace; dsimp only; split <;> simp

@[simp] theorem State.makeSpace_hostMem (t : Nat) (a : State × List Nat) (stack : Nat) : (State.makeSpace t a stack).1.host.mem = a.1.host.mem := by
  unfold State.makeSpace; dsimp only; split <;> simp

@[simp] theorem State.migrateLot_board (t : Nat) (a : State × List Nat) (lot : Nat) : (State.migrateLot t a lot).1.board = a.1.board := by
  simp [State.migrateLot]

@[simp] theorem State.dueSpills_board (t : Nat) (a : State × List Nat) : (State.dueSpills t a).1.board = a.1.board := by
  simp [State.dueSpills]

@[simp] theorem State.quotaSpills_board (t : Nat) (a : State × List Nat) : (State.quotaSpills t a).1.board = a.1.board := by
  simp [State.quotaSpills]

@[simp] theorem State.migrateLot_status (t : Nat) (a : State × List Nat) (lot : Nat) : (State.migrateLot t a lot).1.status = a.1.status := by
  simp [State.migrateLot]

@[simp] theorem State.dueSpills_status (t : Nat) (a : State × List Nat) : (State.dueSpills t a).1.status = a.1.status := by
  simp [State.dueSpills]

@[simp] theorem State.quotaSpills_status (t : Nat) (a : State × List Nat) : (State.quotaSpills t a).1.status = a.1.status := by
  simp [State.quotaSpills]

@[simp] theorem State.migrateLot_hostMem (t : Nat) (a : State × List Nat) (lot : Nat) : (State.migrateLot t a lot).1.host.mem = a.1.host.mem := by
  simp [State.migrateLot]

@[simp] theorem State.dueSpills_hostMem (t : Nat) (a : State × List Nat) : (State.dueSpills t a).1.host.mem = a.1.host.mem := by
  simp [State.dueSpills]

@[simp] theorem State.quotaSpills_hostMem (t : Nat) (a : State × List Nat) : (State.quotaSpills t a).1.host.mem = a.1.host.mem := by
  simp [State.quotaSpills]

@[simp] theorem State.promote_board (t : Nat) (s : State) (m : MoveChoice) : (State.promote t s m).board = s.board := by
  unfold State.promote; split <;> simp

@[simp] theorem State.promote_status (t : Nat) (s : State) (m : MoveChoice) : (State.promote t s m).status = s.status := by
  unfold State.promote; split <;> simp

@[simp] theorem State.promote_hostMem (t : Nat) (s : State) (m : MoveChoice) : (State.promote t s m).host.mem = s.host.mem := by
  unfold State.promote; split <;> simp

@[simp] theorem State.moveOut_board (t : Nat) (s : State) (m : W32 × Nat × Nat) : (State.moveOut t s m).board = s.board := by
  unfold State.moveOut; split <;> simp

@[simp] theorem State.moveOut_status (t : Nat) (s : State) (m : W32 × Nat × Nat) : (State.moveOut t s m).status = s.status := by
  unfold State.moveOut; split <;> simp

@[simp] theorem State.moveOut_hostMem (t : Nat) (s : State) (m : W32 × Nat × Nat) : (State.moveOut t s m).host.mem = s.host.mem := by
  unfold State.moveOut; split <;> simp

@[simp] theorem State.moveIn_board (t : Nat) (s : State) (m : MoveChoice) : (State.moveIn t s m).board = s.board := by
  unfold State.moveIn; split <;> simp

@[simp] theorem State.moveIn_status (t : Nat) (s : State) (m : MoveChoice) : (State.moveIn t s m).status = s.status := by
  unfold State.moveIn; split <;> simp

@[simp] theorem State.moveIn_hostMem (t : Nat) (s : State) (m : MoveChoice) : (State.moveIn t s m).host.mem = s.host.mem := by
  unfold State.moveIn; split <;> simp

@[simp] theorem State.giveTail_board (t : Nat) (s : State) (x : TailPlan) : (State.giveTail t s x).board = s.board := by
  unfold State.giveTail; dsimp only; (repeat' split) <;> simp

@[simp] theorem State.giveTail_status (t : Nat) (s : State) (x : TailPlan) : (State.giveTail t s x).status = s.status := by
  unfold State.giveTail; dsimp only; (repeat' split) <;> simp

@[simp] theorem State.giveTail_hostMem (t : Nat) (s : State) (x : TailPlan) : (State.giveTail t s x).host.mem = s.host.mem := by
  unfold State.giveTail; dsimp only; (repeat' split) <;> simp

@[simp] theorem State.loadStream_board (s : State) (x : StreamPlan) : (State.loadStream s x).board = s.board := by
  simp [State.loadStream]

@[simp] theorem State.loadStream_status (s : State) (x : StreamPlan) : (State.loadStream s x).status = s.status := by
  simp [State.loadStream]

@[simp] theorem State.loadStream_hostMem (s : State) (x : StreamPlan) : (State.loadStream s x).host.mem = s.host.mem := by
  simp [State.loadStream]

@[simp] theorem State.loadTask_board (s : State) (x : Nat × TaskPlan) : (State.loadTask s x).board = s.board := by
  simp [State.loadTask]

@[simp] theorem State.loadTask_status (s : State) (x : Nat × TaskPlan) : (State.loadTask s x).status = s.status := by
  simp [State.loadTask]

@[simp] theorem State.loadTask_hostMem (s : State) (x : Nat × TaskPlan) : (State.loadTask s x).host.mem = s.host.mem := by
  simp [State.loadTask]

@[simp] theorem State.fillCtxs_board (s : State) (core : Nat) : (State.fillCtxs s core).board = s.board := by
  simp [State.fillCtxs]

@[simp] theorem State.fillCtxs_status (s : State) (core : Nat) : (State.fillCtxs s core).status = s.status := by
  simp [State.fillCtxs]

@[simp] theorem State.fillCtxs_hostMem (s : State) (core : Nat) : (State.fillCtxs s core).host.mem = s.host.mem := by
  simp [State.fillCtxs]

@[simp] theorem State.holdResident_board (s : State) (x : Nat × Nat × Nat) : (State.holdResident s x).board = s.board := by
  simp [State.holdResident]

@[simp] theorem State.holdResident_status (s : State) (x : Nat × Nat × Nat) : (State.holdResident s x).status = s.status := by
  simp [State.holdResident]

@[simp] theorem State.holdResident_hostMem (s : State) (x : Nat × Nat × Nat) : (State.holdResident s x).host.mem = s.host.mem := by
  simp [State.holdResident]

@[simp] theorem State.notePieces_board (s : State) (ts : List TaskPlan) : (State.notePieces s ts).board = s.board := by
  simp [State.notePieces]

@[simp] theorem State.notePieces_status (s : State) (ts : List TaskPlan) : (State.notePieces s ts).status = s.status := by
  simp [State.notePieces]

@[simp] theorem State.notePieces_hostMem (s : State) (ts : List TaskPlan) : (State.notePieces s ts).host.mem = s.host.mem := by
  simp [State.notePieces]

@[simp] theorem State.clearWork_board (s : State) : (State.clearWork s).board = s.board := by
  simp [State.clearWork]

@[simp] theorem State.clearWork_status (s : State) : (State.clearWork s).status = s.status := by
  simp [State.clearWork]

@[simp] theorem State.clearWork_hostMem (s : State) : (State.clearWork s).host.mem = s.host.mem := by
  simp [State.clearWork]

@[simp] theorem State.standTick_board (p : PlanInput) (s : State) (n : Nat) : (State.standTick p s n).board = s.board := by
  simp [State.standTick]

@[simp] theorem State.standTick_status (p : PlanInput) (s : State) (n : Nat) : (State.standTick p s n).status = s.status := by
  simp [State.standTick]

@[simp] theorem State.standTick_hostMem (p : PlanInput) (s : State) (n : Nat) : (State.standTick p s n).host.mem = s.host.mem := by
  simp [State.standTick]

@[simp] theorem State.admitReqs_board (s : State) (rs : List Nat) : (State.admitReqs s rs).board = s.board := by
  unfold State.admitReqs; refine foldl_board _ (fun s b => ?_) _ _; (repeat' split) <;> simp

@[simp] theorem State.admitReqs_status (s : State) (rs : List Nat) : (State.admitReqs s rs).status = s.status := by
  unfold State.admitReqs; refine foldl_status _ (fun s b => ?_) _ _; (repeat' split) <;> simp

@[simp] theorem State.admitReqs_hostMem (s : State) (rs : List Nat) : (State.admitReqs s rs).host.mem = s.host.mem := by
  unfold State.admitReqs; refine foldl_hostMem _ (fun s b => ?_) _ _; (repeat' split) <;> simp

@[simp] theorem State.loadPlan_board (s : State) (t : Nat) (p : PlanInput) : (State.loadPlan s t p).board = s.board := by
  simp only [State.loadPlan]; (repeat' split) <;> simp

@[simp] theorem State.loadPlan_status (s : State) (t : Nat) (p : PlanInput) : (State.loadPlan s t p).status = s.status := by
  simp only [State.loadPlan]; (repeat' split) <;> simp

@[simp] theorem State.loadPlan_hostMem (s : State) (t : Nat) (p : PlanInput) : (State.loadPlan s t p).host.mem = s.host.mem := by
  simp only [State.loadPlan]; (repeat' split) <;> simp

@[simp] theorem State.buildFork_board (t : Nat) (s : State) (f : Nat × W32 × Nat × W32) : (State.buildFork t s f).board = s.board := by
  unfold State.buildFork; dsimp only; (repeat' split) <;> simp

@[simp] theorem State.buildFork_status (t : Nat) (s : State) (f : Nat × W32 × Nat × W32) : (State.buildFork t s f).status = s.status := by
  unfold State.buildFork; dsimp only; (repeat' split) <;> simp

@[simp] theorem State.buildFork_hostMem (t : Nat) (s : State) (f : Nat × W32 × Nat × W32) : (State.buildFork t s f).host.mem = s.host.mem := by
  unfold State.buildFork; dsimp only; (repeat' split) <;> simp

@[simp] theorem State.endFull_board (s : State) : (State.endFull s).board = s.board := by
  simp [State.endFull]

@[simp] theorem State.endFull_status (s : State) : (State.endFull s).status = s.status := by
  simp [State.endFull]

@[simp] theorem State.endFull_hostMem (s : State) : (State.endFull s).host.mem = s.host.mem := by
  simp [State.endFull]

@[simp] theorem State.startSearch_board (t : Nat) (s : State) (x : Search) : (State.startSearch t s x).board = s.board := by
  simp only [State.startSearch]; (repeat' split) <;> simp

@[simp] theorem State.startSearch_status (t : Nat) (s : State) (x : Search) : (State.startSearch t s x).status = s.status := by
  simp only [State.startSearch]; (repeat' split) <;> simp

@[simp] theorem State.startSearch_hostMem (t : Nat) (s : State) (x : Search) : (State.startSearch t s x).host.mem = s.host.mem := by
  simp only [State.startSearch]; (repeat' split) <;> simp

@[simp] theorem State.wakeCmds_board (s : State) (hold : Bool) : (State.wakeCmds s hold).board = s.board := by
  simp [State.wakeCmds]

@[simp] theorem State.wakeCmds_status (s : State) (hold : Bool) : (State.wakeCmds s hold).status = s.status := by
  simp [State.wakeCmds]

@[simp] theorem State.wakeCmds_hostMem (s : State) (hold : Bool) : (State.wakeCmds s hold).host.mem = s.host.mem := by
  simp [State.wakeCmds]

@[simp] theorem State.snapshot_board (s : State) : (State.snapshot s).board = s.board := by
  simp [State.snapshot]

@[simp] theorem State.snapshot_status (s : State) : (State.snapshot s).status = s.status := by
  simp [State.snapshot]

@[simp] theorem State.snapshot_hostMem (s : State) : (State.snapshot s).host.mem = s.host.mem := by
  simp [State.snapshot]

@[simp] theorem State.notePlanned_board (s : State) : (State.notePlanned s).board = s.board := by
  simp [State.notePlanned]

@[simp] theorem State.notePlanned_status (s : State) : (State.notePlanned s).status = s.status := by
  simp [State.notePlanned]

@[simp] theorem State.notePlanned_hostMem (s : State) : (State.notePlanned s).host.mem = s.host.mem := by
  simp [State.notePlanned]

@[simp] theorem State.loadKept_board (s : State) (t : Nat) (p : PlanInput) : (State.loadKept s t p).board = s.board := by
  simp [State.loadKept]

@[simp] theorem State.loadKept_status (s : State) (t : Nat) (p : PlanInput) : (State.loadKept s t p).status = s.status := by
  simp [State.loadKept]

@[simp] theorem State.loadKept_hostMem (s : State) (t : Nat) (p : PlanInput) : (State.loadKept s t p).host.mem = s.host.mem := by
  simp [State.loadKept]

@[simp] theorem State.endPoisoned_board (s : State) : (State.endPoisoned s).board = s.board := by
  simp [State.endPoisoned]

@[simp] theorem State.endPoisoned_status (s : State) : (State.endPoisoned s).status = s.status := by
  simp [State.endPoisoned]

@[simp] theorem State.endPoisoned_hostMem (s : State) : (State.endPoisoned s).host.mem = s.host.mem := by
  simp [State.endPoisoned]

@[simp] theorem State.beginAttempt_board (s : State) (t : Nat) : (State.beginAttempt s t).board = s.board := by
  unfold State.beginAttempt; dsimp only; (repeat' split) <;> simp

@[simp] theorem State.beginAttempt_status (s : State) (t : Nat) : (State.beginAttempt s t).status = s.status := by
  unfold State.beginAttempt; dsimp only; (repeat' split) <;> simp

@[simp] theorem State.beginAttempt_hostMem (s : State) (t : Nat) : (State.beginAttempt s t).host.mem = s.host.mem := by
  unfold State.beginAttempt; dsimp only; (repeat' split) <;> simp

@[simp] theorem State.dropRounds_board (s : State) : (State.dropRounds s).board = s.board := by
  simp [State.dropRounds]

@[simp] theorem State.dropRounds_status (s : State) : (State.dropRounds s).status = s.status := by
  simp [State.dropRounds]

@[simp] theorem State.dropRounds_hostMem (s : State) : (State.dropRounds s).host.mem = s.host.mem := by
  simp [State.dropRounds]

@[simp] theorem State.startTick_board (s : State) (t : Nat) (hold : Bool) : (State.startTick s t hold).board = s.board := by
  simp [State.startTick]

@[simp] theorem State.startTick_status (s : State) (t : Nat) (hold : Bool) : (State.startTick s t hold).status = s.status := by
  simp [State.startTick]

@[simp] theorem State.startTick_hostMem (s : State) (t : Nat) (hold : Bool) : (State.startTick s t hold).host.mem = s.host.mem := by
  simp [State.startTick]

@[simp] theorem State.replanned_board (s : State) (p : PlanInput) (bad : List (Nat × Nat)) : (State.replanned s p bad).board = s.board := by
  simp [State.replanned]

@[simp] theorem State.replanned_status (s : State) (p : PlanInput) (bad : List (Nat × Nat)) : (State.replanned s p bad).status = s.status := by
  simp [State.replanned]

@[simp] theorem State.replanned_hostMem (s : State) (p : PlanInput) (bad : List (Nat × Nat)) : (State.replanned s p bad).host.mem = s.host.mem := by
  simp [State.replanned]

@[simp] theorem State.countPlan_board (s : State) (p : PlanInput) : (State.countPlan s p).board = s.board := by
  simp [State.countPlan]

@[simp] theorem State.countPlan_status (s : State) (p : PlanInput) : (State.countPlan s p).status = s.status := by
  simp [State.countPlan]

@[simp] theorem State.countPlan_hostMem (s : State) (p : PlanInput) : (State.countPlan s p).host.mem = s.host.mem := by
  simp [State.countPlan]

@[simp] theorem State.countSensors_board (s : State) (d : Nat) (ts : List Int) : (State.countSensors s d ts).board = s.board := by
  simp [State.countSensors]

@[simp] theorem State.countSensors_status (s : State) (d : Nat) (ts : List Int) : (State.countSensors s d ts).status = s.status := by
  simp [State.countSensors]

@[simp] theorem State.countSensors_hostMem (s : State) (d : Nat) (ts : List Int) : (State.countSensors s d ts).host.mem = s.host.mem := by
  simp [State.countSensors]

@[simp] theorem State.evaluateDie_board (s : State) (r : SensorReadings) (d : Nat) : (State.evaluateDie s r d).board = s.board := by
  simp [State.evaluateDie]

@[simp] theorem State.evaluateDie_status (s : State) (r : SensorReadings) (d : Nat) : (State.evaluateDie s r d).status = s.status := by
  simp [State.evaluateDie]

@[simp] theorem State.evaluateDie_hostMem (s : State) (r : SensorReadings) (d : Nat) : (State.evaluateDie s r d).host.mem = s.host.mem := by
  simp [State.evaluateDie]

@[simp] theorem State.raiseDie_board (s : State) (r : SensorReadings) (d : Nat) : (State.raiseDie s r d).board = s.board := by
  simp [State.raiseDie]

@[simp] theorem State.raiseDie_status (s : State) (r : SensorReadings) (d : Nat) : (State.raiseDie s r d).status = s.status := by
  simp [State.raiseDie]

@[simp] theorem State.raiseDie_hostMem (s : State) (r : SensorReadings) (d : Nat) : (State.raiseDie s r d).host.mem = s.host.mem := by
  simp [State.raiseDie]

@[simp] theorem State.diesOff_board (s : State) : (State.diesOff s).board = s.board := by
  simp [State.diesOff]

@[simp] theorem State.diesOff_status (s : State) : (State.diesOff s).status = s.status := by
  simp [State.diesOff]

@[simp] theorem State.diesOff_hostMem (s : State) : (State.diesOff s).host.mem = s.host.mem := by
  simp [State.diesOff]

@[simp] theorem State.forwardDown_board (s : State) (m : OutMsg) : (State.forwardDown s m).board = s.board := by
  simp [State.forwardDown]

@[simp] theorem State.forwardDown_status (s : State) (m : OutMsg) : (State.forwardDown s m).status = s.status := by
  simp [State.forwardDown]

@[simp] theorem State.forwardDown_hostMem (s : State) (m : OutMsg) : (State.forwardDown s m).host.mem = s.host.mem := by
  simp [State.forwardDown]

@[simp] theorem State.passEdge_board (s : State) (e : EdgeMsg) : (State.passEdge s e).board = s.board := by
  simp [State.passEdge]

@[simp] theorem State.passEdge_status (s : State) (e : EdgeMsg) : (State.passEdge s e).status = s.status := by
  simp [State.passEdge]

@[simp] theorem State.passEdge_hostMem (s : State) (e : EdgeMsg) : (State.passEdge s e).host.mem = s.host.mem := by
  simp [State.passEdge]

@[simp] theorem State.askMaster_board (s : State) (what : Nat) : (State.askMaster s what).board = s.board := by
  simp [State.askMaster]

@[simp] theorem State.askMaster_status (s : State) (what : Nat) : (State.askMaster s what).status = s.status := by
  simp [State.askMaster]

@[simp] theorem State.askMaster_hostMem (s : State) (what : Nat) : (State.askMaster s what).host.mem = s.host.mem := by
  simp [State.askMaster]

@[simp] theorem State.takeEdge_board (s : State) (hdr : BitVec 128) (body : BitVec 256) : (State.takeEdge s hdr body).board = s.board := by
  simp [State.takeEdge]

@[simp] theorem State.takeEdge_status (s : State) (hdr : BitVec 128) (body : BitVec 256) : (State.takeEdge s hdr body).status = s.status := by
  simp [State.takeEdge]

@[simp] theorem State.takeEdge_hostMem (s : State) (hdr : BitVec 128) (body : BitVec 256) : (State.takeEdge s hdr body).host.mem = s.host.mem := by
  simp [State.takeEdge]

@[simp] theorem State.takeRecord_board (s : State) (c : CmdRec) : (State.takeRecord s c).board = s.board := by
  simp [State.takeRecord]

@[simp] theorem State.takeRecord_status (s : State) (c : CmdRec) : (State.takeRecord s c).status = s.status := by
  simp [State.takeRecord]

@[simp] theorem State.takeRecord_hostMem (s : State) (c : CmdRec) : (State.takeRecord s c).host.mem = s.host.mem := by
  simp [State.takeRecord]

@[simp] theorem State.takeCmdset_board (s : State) (rs : List CmdRec) : (State.takeCmdset s rs).board = s.board := by
  simp [State.takeCmdset]

@[simp] theorem State.takeCmdset_status (s : State) (rs : List CmdRec) : (State.takeCmdset s rs).status = s.status := by
  simp [State.takeCmdset]

@[simp] theorem State.takeCmdset_hostMem (s : State) (rs : List CmdRec) : (State.takeCmdset s rs).host.mem = s.host.mem := by
  simp [State.takeCmdset]

@[simp] theorem State.masterReport_board (s : State) (c : Report) : (State.masterReport s c).board = s.board := by
  simp [State.masterReport]

@[simp] theorem State.masterReport_status (s : State) (c : Report) : (State.masterReport s c).status = s.status := by
  simp [State.masterReport]

@[simp] theorem State.masterReport_hostMem (s : State) (c : Report) : (State.masterReport s c).host.mem = s.host.mem := by
  simp [State.masterReport]

@[simp] theorem State.tryForward_board (s : State) : (State.tryForward s).board = s.board := by
  unfold State.tryForward; split <;> simp

@[simp] theorem State.tryForward_status (s : State) : (State.tryForward s).status = s.status := by
  unfold State.tryForward; split <;> simp

@[simp] theorem State.tryForward_hostMem (s : State) : (State.tryForward s).host.mem = s.host.mem := by
  unfold State.tryForward; split <;> simp

@[simp] theorem State.takeReport_board (s : State) (child : Nat) (rep : Report) (m : TickMsg) : (State.takeReport s child rep m).board = s.board := by
  simp [State.takeReport]

@[simp] theorem State.takeReport_status (s : State) (child : Nat) (rep : Report) (m : TickMsg) : (State.takeReport s child rep m).status = s.status
    := by
  simp [State.takeReport]

@[simp] theorem State.takeReport_hostMem (s : State) (child : Nat) (rep : Report) (m : TickMsg) : (State.takeReport s child rep m).host.mem =
    s.host.mem := by
  simp [State.takeReport]

@[simp] theorem State.answerRepeat_board (s : State) (src what : Nat) : (State.answerRepeat s src what).board = s.board := by
  unfold State.answerRepeat; (repeat' split) <;> simp

@[simp] theorem State.answerRepeat_status (s : State) (src what : Nat) : (State.answerRepeat s src what).status = s.status := by
  unfold State.answerRepeat; (repeat' split) <;> simp

@[simp] theorem State.answerRepeat_hostMem (s : State) (src what : Nat) : (State.answerRepeat s src what).host.mem = s.host.mem := by
  unfold State.answerRepeat; (repeat' split) <;> simp

@[simp] theorem State.measureC_board (s : State) (c : Nat) : (State.measureC s c).board = s.board := by
  simp [State.measureC]

@[simp] theorem State.measureC_status (s : State) (c : Nat) : (State.measureC s c).status = s.status := by
  simp [State.measureC]

@[simp] theorem State.measureC_hostMem (s : State) (c : Nat) : (State.measureC s c).host.mem = s.host.mem := by
  simp [State.measureC]

@[simp] theorem State.noteC_board (s : State) (e : EdgeMsg) : (State.noteC s e).board = s.board := by
  simp [State.noteC]

@[simp] theorem State.noteC_status (s : State) (e : EdgeMsg) : (State.noteC s e).status = s.status := by
  simp [State.noteC]

@[simp] theorem State.noteC_hostMem (s : State) (e : EdgeMsg) : (State.noteC s e).host.mem = s.host.mem := by
  simp [State.noteC]

@[simp] theorem State.sendCmdset_board (s : State) (c : Report) : (State.sendCmdset s c).board = s.board := by
  simp [State.sendCmdset]

@[simp] theorem State.sendCmdset_status (s : State) (c : Report) : (State.sendCmdset s c).status = s.status := by
  simp [State.sendCmdset]

@[simp] theorem State.sendCmdset_hostMem (s : State) (c : Report) : (State.sendCmdset s c).host.mem = s.host.mem := by
  simp [State.sendCmdset]

@[simp] theorem State.takeDecision_board (s : State) (decision now time : Nat) : (State.takeDecision s decision now time).board = s.board := by
  simp [State.takeDecision]

@[simp] theorem State.takeDecision_status (s : State) (decision now time : Nat) : (State.takeDecision s decision now time).status = s.status := by
  simp [State.takeDecision]

@[simp] theorem State.takeDecision_hostMem (s : State) (decision now time : Nat) : (State.takeDecision s decision now time).host.mem = s.host.mem :=
    by
  simp [State.takeDecision]

@[simp] theorem State.edgeCounts_board (s : State) (e : EdgeMsg) (t : Nat) : (State.edgeCounts s e t).board = s.board := by
  simp [State.edgeCounts]

@[simp] theorem State.edgeCounts_status (s : State) (e : EdgeMsg) (t : Nat) : (State.edgeCounts s e t).status = s.status := by
  simp [State.edgeCounts]

@[simp] theorem State.edgeCounts_hostMem (s : State) (e : EdgeMsg) (t : Nat) : (State.edgeCounts s e t).host.mem = s.host.mem := by
  simp [State.edgeCounts]

@[simp] theorem State.takeCopy_board (s : State) (x : EdgeInput) : (State.takeCopy s x).board = s.board := by
  unfold State.takeCopy; split <;> simp

@[simp] theorem State.takeCopy_status (s : State) (x : EdgeInput) : (State.takeCopy s x).status = s.status := by
  unfold State.takeCopy; split <;> simp

@[simp] theorem State.takeCopy_hostMem (s : State) (x : EdgeInput) : (State.takeCopy s x).host.mem = s.host.mem := by
  unfold State.takeCopy; split <;> simp

@[simp] theorem State.applyCommit_board (s : State) (e : EdgeMsg) (now : Nat) (x : EdgeInput) (bad : List Nat) : (State.applyCommit s e now x
    bad).board = s.board := by
  simp [State.applyCommit]

@[simp] theorem State.countRestarts_board (s : State) : (State.countRestarts s).board = s.board := by
  exact foldl_board _ (fun s d => (foldl_board _ (fun _ _ => by simp) _ _).trans (foldl_board _ (fun _ _ => by simp) _ _)) _ _

@[simp] theorem State.countRestarts_status (s : State) : (State.countRestarts s).status = s.status := by
  exact foldl_status _ (fun s d => (foldl_status _ (fun _ _ => by simp) _ _).trans (foldl_status _ (fun _ _ => by simp) _ _)) _ _

@[simp] theorem State.countRestarts_hostMem (s : State) : (State.countRestarts s).host.mem = s.host.mem := by
  exact foldl_hostMem _ (fun s d => (foldl_hostMem _ (fun _ _ => by simp) _ _).trans (foldl_hostMem _ (fun _ _ => by simp) _ _)) _ _

@[simp] theorem State.restore_board (s : State) : (State.restore s).board = s.board := by
  simp [State.restore]

@[simp] theorem State.restore_status (s : State) : (State.restore s).status = s.status := by
  simp [State.restore]

@[simp] theorem State.restore_hostMem (s : State) : (State.restore s).host.mem = s.host.mem := by
  simp [State.restore]

@[simp] theorem State.dropJoins_board (s : State) (all : Bool) : (State.dropJoins s all).board = s.board := by
  simp [State.dropJoins]

@[simp] theorem State.dropJoins_status (s : State) (all : Bool) : (State.dropJoins s all).status = s.status := by
  simp [State.dropJoins]

@[simp] theorem State.dropJoins_hostMem (s : State) (all : Bool) : (State.dropJoins s all).host.mem = s.host.mem := by
  simp [State.dropJoins]

@[simp] theorem State.poisonLayers_board (s : State) (ls : List Nat) : (State.poisonLayers s ls).board = s.board := by
  simp [State.poisonLayers]

@[simp] theorem State.poisonLayers_status (s : State) (ls : List Nat) : (State.poisonLayers s ls).status = s.status := by
  simp [State.poisonLayers]

@[simp] theorem State.poisonLayers_hostMem (s : State) (ls : List Nat) : (State.poisonLayers s ls).host.mem = s.host.mem := by
  simp [State.poisonLayers]

@[simp] theorem State.applyReplay_board (s : State) (e : EdgeMsg) (now : Nat) (x : EdgeInput) : (State.applyReplay s e now x).board = s.board := by
  simp [State.applyReplay]

@[simp] theorem State.startCrew_board (s : State) (e : EdgeMsg) (now : Nat) : (State.startCrew s e now).board = s.board := by
  simp [State.startCrew]

@[simp] theorem State.startCrew_hostMem (s : State) (e : EdgeMsg) (now : Nat) : (State.startCrew s e now).host.mem = s.host.mem := by
  simp [State.startCrew]

@[simp] theorem State.reform_board (s : State) (e : EdgeMsg) (now : Nat) (x : EdgeInput) : (State.reform s e now x).board = s.board := by
  simp [State.reform]

@[simp] theorem State.takeCrew_board (s : State) (e : EdgeMsg) (now : Nat) (j : Joining) (draining : List Nat) : (State.takeCrew s e now j
    draining).board = s.board := by
  simp [State.takeCrew]

@[simp] theorem State.takeCrew_hostMem (s : State) (e : EdgeMsg) (now : Nat) (j : Joining) (draining : List Nat) : (State.takeCrew s e now j
    draining).host.mem = s.host.mem := by
  simp [State.takeCrew]

@[simp] theorem State.enterCrew_board (s : State) (e : EdgeMsg) (now : Nat) (j : Joining) (draining : List Nat) : (State.enterCrew s e now j
    draining).board = s.board := by
  simp only [State.enterCrew, State.startTick_board, State.pulse_board, State.flood_board, State.settleMirror_board, State.takeMeasure_board,
    State.settleHomes_board, State.portsUp_board, State.takeCrew_board, State.mk_board, Board.eta]

@[simp] theorem State.enterCrew_hostMem (s : State) (e : EdgeMsg) (now : Nat) (j : Joining) (draining : List Nat) : (State.enterCrew s e now j
    draining).host.mem = s.host.mem := by
  simp only [State.enterCrew, State.startTick_hostMem, State.pulse_hostMem, State.flood_hostMem, State.settleMirror_hostMem, State.takeMeasure_hostMem,
    State.settleHomes_hostMem, State.portsUp_hostMem, State.takeCrew_hostMem, State.mk_board, Board.eta]

end Sys2Proof.Machine
end

