-- ==== Sys2Proof/Laws/Status.lean ====
section
/-! SUPPORT. What the operations that leave a crew, fault, reset or power a module do to its status, and that they keep it consistent. -/

namespace Sys2Proof.Machine

variable (s : State)

/-! ### Operations of the board -/

@[simp] theorem State.norScramble_status (off n : Nat) : (s.norScramble off n).status = s.status := by
  have h : (s.freeBytes n).2.status = s.status := rfl
  exact h
@[simp] theorem State.startMailbox_status (result : Byte) (units off : Nat) (data : List Byte) :
    (s.startMailbox result units off data).status = s.status := by
  have h : (s.hubCount 7 7).status = s.status := by simp
  exact h
@[simp] theorem State.writeMailbox_status (p off : Nat) (v m : W64) : (s.writeMailbox p off v m).status = s.status := by
  unfold State.writeMailbox; (repeat' split) <;> first | rfl | simp
@[simp] theorem State.writeTmux_status (v m : W64) : (s.writeTmux v m).status = s.status := by
  unfold State.writeTmux; split <;> rfl

/-! ### Resets and power -/

@[simp] theorem State.clearModule_board :
    s.clearModule.board = { s.board with mbx := {}, tmux := {}, img := {} } := rfl
@[simp] theorem State.moduleReset_board :
    s.moduleReset.board = { s.board with mbx := {}, tmux := {}, img := {} } := rfl
@[simp] theorem State.moduleReset_status : s.moduleReset.status = ({ state := .rom }, false) := rfl
@[simp] theorem State.powerDown_status : s.powerDown.status = ({ state := .off }, false) := rfl
@[simp] theorem State.powerDown_pwr :
    s.powerDown.pwr = { s.pwr with main := .off, holdoff := decide (s.pwr.main ≠ .off) || s.pwr.holdoff } := rfl
@[simp] theorem State.powerUp_status (c : Bool) : (s.powerUp c).status = ({ state := .rom }, false) := rfl
@[simp] theorem State.powerUp_pwr (c : Bool) : (s.powerUp c).pwr = { s.pwr with main := .on, compatN := c } := rfl

/-- What ROM does to the status: it samples COMPAT_N and derives the identity. -/
theorem State.romWork_status (c : Bool) : (s.romWork c).status =
    ({ s.sys with compatPin := c, compat := c, noIdentity := !(securityOf s.nor s.ident.moduleId).haveKey }, s.crew.member) := by
  unfold State.romWork; dsimp only; split <;> rfl

theorem State.romWork_pwr (c : Bool) : (s.romWork c).pwr = { s.pwr with compatN := c } := by
  unfold State.romWork; dsimp only; split <;> rfl

theorem State.resetToRom_status : s.resetToRom.status =
    ({ state := .rom, compatPin := s.pwr.compatN, compat := s.pwr.compatN,
       noIdentity := !(securityOf s.nor s.ident.moduleId).haveKey }, false) := by
  unfold State.resetToRom; rw [State.romWork_status]; rfl

theorem State.resetToRom_pwr : s.resetToRom.pwr = s.pwr := by
  unfold State.resetToRom; rw [State.romWork_pwr]; rfl

/-! ### Faults and departures -/

@[simp] theorem State.enterFault_status (c d : Nat) : (s.enterFault c d).status =
    ({ s.sys with state := .fault, faultClass := BitVec.ofNat 8 c, faultDetail := BitVec.ofNat 32 d, departed := false }, false) := by
  unfold State.enterFault; split
  · have h := State.abortAll_status s
    simp only [State.status, Prod.mk.injEq] at h
    simp [h.1]
  · simp

@[simp] theorem State.leaveToJoin_status : s.leaveToJoin.status = ({ s.sys with state := .join }, false) := by
  have h := State.abortAll_status s
  have h2 := State.joinDiscard_status s.abortAll
  simp only [State.status, Prod.mk.injEq] at h h2
  simp [State.leaveToJoin, h.1, h2.1]

@[simp] theorem State.depart_status : s.depart.status = ({ s.sys with departed := true }, false) := by
  have h := foldl_status (fun (s : State) n => s.send (.downNotice n)) (by simp) s.allUp s
  simp only [State.status, Prod.mk.injEq] at h
  simp [State.depart, h.1]

/-- A DRAIN changes nothing but the state, and leaves the membership (R685). -/
theorem State.applyDrain_status (r : Req) : (s.applyDrain r).status = s.status ∨
    (s.applyDrain r).status = ({ s.sys with state := .drain }, s.crew.member) := by
  unfold State.applyDrain
  (repeat' split) <;> simp

/-! ### The status stays consistent -/

/-- Consistency depends on the supply, the status and the membership alone. -/
theorem State.statusOk_congr {s t : State} (hp : t.pwr = s.pwr) (hs : t.status = s.status) (h : s.statusOk) : t.statusOk := by
  simp only [State.status, Prod.mk.injEq] at hs
  unfold State.statusOk at *
  rw [hp, hs.1, hs.2]; exact h

theorem State.pwr_of_board {s t : State} (h : t.board = s.board) : t.pwr = s.pwr := congrArg Board.pwr h

theorem State.nor_of_board {s t : State} (h : t.board = s.board) : t.nor = s.nor := congrArg Board.nor h

/-- A member is in JOIN, RUN or DRAIN with the main domain on. -/
theorem State.statusOk_on {s : State} (h : s.statusOk) (hm : s.crew.member = true) : s.pwr.main = .on := by
  obtain ⟨h1, -, -, -, h5, -⟩ := h
  rw [h1]
  rcases h5 hm with h | h | h <;> simp [h]

/-- A member that takes part in ticks leaves its crew. -/
theorem State.leaveToJoin_statusOk {s : State} (h : s.statusOk) (hm : s.crew.member = true) : s.leaveToJoin.statusOk := by
  have hst := State.leaveToJoin_status s
  have hp := State.pwr_of_board (State.leaveToJoin_board s)
  simp only [State.status, Prod.mk.injEq] at hst
  obtain ⟨h1, h2, h3, h4, h5, h6⟩ := h
  unfold State.statusOk
  rw [hp, hst.1, hst.2]
  have hd : s.sys.departed ≠ true := by simp [hm] at h6; simp [h6]
  have hf : s.sys.state ≠ .fault := by rcases h5 hm with h | h | h <;> simp [h]
  have ho : s.sys.state ≠ .off := by rcases h5 hm with h | h | h <;> simp [h]
  refine ⟨?_, h2, h3, ?_, by simp, fun hd' => absurd hd' hd⟩
  · simp [h1, ho]
  · simpa using (fun hc => hf (h4.mpr hc))

/-- A module that is powered enters FAULT with a class other than 0. -/
theorem State.enterFault_statusOk {s : State} (h : s.statusOk) (c d : Nat) (ho : s.sys.state ≠ .off) (hc : BitVec.ofNat 8 c ≠ 0) : (s.enterFault c d).statusOk := by
  have hst := State.enterFault_status s c d
  have hp := State.pwr_of_board (State.enterFault_board s c d)
  simp only [State.status, Prod.mk.injEq] at hst
  obtain ⟨h1, h2, h3, h4, h5, h6⟩ := h
  unfold State.statusOk
  rw [hp, hst.1, hst.2]
  refine ⟨?_, h2, h3, ?_, by simp, by simp⟩
  · simp [h1, ho]
  · simpa using hc

/-- A crew member with a consistent status. -/
def State.inTicks (s : State) : Prop := s.statusOk ∧ s.crew.member = true

theorem State.inTicks_congr {s t : State} (hp : t.board = s.board) (hs : t.status = s.status) (h : s.inTicks) : t.inTicks := by
  refine ⟨State.statusOk_congr (State.pwr_of_board hp) hs h.1, ?_⟩
  simp only [State.status, Prod.mk.injEq] at hs
  rw [hs.2]; exact h.2

/-- A DRAIN that starts keeps the module in ticks. -/
theorem State.applyDrain_inTicks {s : State} (r : Req) (h : s.inTicks) : (s.applyDrain r).inTicks := by
  have hb := State.applyDrain_board s r
  rcases State.applyDrain_status s r with e | e
  · exact State.inTicks_congr hb e h
  · have hp := State.pwr_of_board hb
    simp only [State.status, Prod.mk.injEq] at e
    obtain ⟨⟨h1, h2, h3, h4, h5, h6⟩, hm⟩ := h
    have hf : s.sys.state ≠ .fault := by rcases h5 hm with h | h | h <;> simp [h]
    have ho : s.sys.state ≠ .off := by rcases h5 hm with h | h | h <;> simp [h]
    have hc : s.sys.faultClass = 0 := by
      by_contra hc; exact hf (h4.mpr hc)
    have hd : s.sys.departed ≠ true := by simp [hm] at h6; simp [h6]
    refine ⟨?_, by rw [e.2]; exact hm⟩
    unfold State.statusOk
    rw [hp, e.1, e.2]
    exact ⟨by simp [h1, ho], h2, h3, by simp [hc], by simp, fun x => absurd x hd⟩

/-- Two branches of one status. -/
theorem ite_status_eq {c : Prop} [Decidable c] {a b : State} {x : Sys × Bool} (ha : a.status = x) (hb : b.status = x) :
    (if c then a else b).status = x := by
  split <;> assumption

/-- A command that takes effect leaves the status as it is, but for a DRAIN. -/
theorem State.applyCmd_status (t : Nat) (hold : Bool) (s : State) (x : Req) :
    (State.applyCmd t hold s x).status = s.status ∨ ∃ r, State.applyCmd t hold s x = s.applyDrain r := by
  unfold State.applyCmd
  split
  · exact Or.inl rfl
  · rename_i r _
    by_cases hd : r.opcode = 0x10
    · by_cases hg : r.stage ≠ .staged
      · left; rw [if_pos hg]
      · right; refine ⟨r, ?_⟩
        rw [if_neg hg]
        simp [hd]
    · left
      rw [if_neg hd]
      refine ite_status_eq rfl (ite_status_eq (by simp) (ite_status_eq (by simp) (ite_status_eq (by simp) (ite_status_eq (by simp)
        (ite_status_eq (by simp) (ite_status_eq (by simp) (ite_status_eq (by simp) (ite_status_eq (by simp) (ite_status_eq (by simp)
          (ite_status_eq (by simp) (by simp)))))))))))

theorem State.applyCmd_inTicks {s : State} (t : Nat) (hold : Bool) (x : Req) (h : s.inTicks) : (State.applyCmd t hold s x).inTicks := by
  rcases State.applyCmd_status t hold s x with e | ⟨r, e⟩
  · exact State.inTicks_congr (State.applyCmd_board ..) e h
  · rw [e]; exact State.applyDrain_inTicks r h

theorem foldl_inTicks {β : Type} (f : State → β → State) (hf : ∀ s b, s.inTicks → (f s b).inTicks) (l : List β) (s : State)
    (h : s.inTicks) : (l.foldl f s).inTicks := by
  induction l generalizing s with
  | nil => exact h
  | cons b l ih => exact ih _ (hf _ _ h)

/-- A departure happens in DRAIN. -/
theorem State.mayDepart_drain {s : State} (h : s.mayDepart = true) : s.sys.state = .drain := by
  unfold State.mayDepart at h
  simp only [Bool.and_eq_true, beq_iff_eq] at h
  exact h.1.1.1.1.1.1.1

theorem State.depart_statusOk {s : State} (h : s.statusOk) (hd : s.sys.state = .drain) : s.depart.statusOk := by
  have hp := State.pwr_of_board (State.depart_board s)
  have hst := State.depart_status s
  simp only [State.status, Prod.mk.injEq] at hst
  obtain ⟨h1, h2, h3, h4, h5, h6⟩ := h
  unfold State.statusOk
  rw [hp, hst.1, hst.2]
  exact ⟨h1, h2, h3, h4, by simp, fun _ => ⟨hd, rfl⟩⟩

theorem State.commitCrew_statusOk {s : State} (x : EdgeInput) (next : Nat) (h : s.statusOk) : (s.commitCrew x next).statusOk := by
  unfold State.commitCrew
  extract_lets s1 others s2 s3 s4
  have e3 : s3.board = s.board ∧ s3.status = s.status := by
    simp only [s3, s2, s1]; split <;> simp
  have h3 : s3.statusOk := State.statusOk_congr (State.pwr_of_board e3.1) e3.2 h
  have h4 : s4.statusOk := by
    simp only [s4]
    split
    · rename_i hd
      refine State.depart_statusOk (State.statusOk_congr (State.pwr_of_board (State.crewCount_board ..)) (State.crewCount_status ..) h3) ?_
      exact State.mayDepart_drain hd.1
    · exact h3
  exact State.statusOk_congr rfl rfl h4

/-- A commit of a module that takes part in ticks keeps the status consistent. -/
theorem State.commit_statusOk {s : State} (t : Nat) (hold : Bool) (x : EdgeInput) (bad : List Nat) (next : Nat) (h : s.inTicks) :
    (s.commit t hold x bad next).statusOk := by
  unfold State.commit
  extract_lets s1 gone spec s2 s3 s4
  have h3 : s3.inTicks := by
    refine State.inTicks_congr ?_ ?_ h <;> simp [s3, s2, s1]
  have h4 : s4.statusOk := by
    simp only [s4]
    refine State.commitCrew_statusOk x next ?_
    refine (State.inTicks_congr (State.commitTables_board ..) (State.commitTables_status ..) ?_).1
    unfold State.commitCmds
    exact State.inTicks_congr (State.endLost_board ..) (State.endLost_status ..)
      (foldl_inTicks _ (fun s b hs => State.applyCmd_inTicks t hold b hs) _ _ h3)
  exact State.statusOk_congr (State.pwr_of_board (by simp)) (by simp) h4

/-- The status after losing sight of members: unchanged, or JOIN. -/
theorem State.assessCrew_statusOk {s : State} (h : s.statusOk) : s.assessCrew.statusOk := by
  unfold State.assessCrew
  by_cases hk : s.ticking = true
  · have hm : s.crew.member = true := by simp [State.ticking] at hk; exact hk.1.1
    simp only [hk, Bool.not_true, Bool.false_eq_true, if_false]
    split
    · exact h
    · split
      · exact State.leaveToJoin_statusOk h hm
      · exact State.statusOk_congr rfl rfl h
  · simp [hk]; exact h

theorem State.loseLink_statusOk {s : State} (n reason : Nat) (h : s.statusOk) : (s.loseLink n reason).statusOk := by
  unfold State.loseLink
  dsimp only
  split
  · refine State.assessCrew_statusOk (State.statusOk_congr (State.pwr_of_board ?_) ?_ h)
    · simp
    · simp
  · exact State.statusOk_congr (State.pwr_of_board (by simp)) (by simp) h

theorem State.applyCommit_statusOk {s : State} (e : EdgeMsg) (now : Nat) (x : EdgeInput) (bad : List Nat) (h : s.inTicks) :
    (s.applyCommit e now x bad).statusOk := by
  unfold State.applyCommit
  extract_lets t s1 s2 s3 s4
  have h2 : s2.inTicks := by
    refine State.inTicks_congr ?_ ?_ h <;> simp [s2, s1]
  have h3 : s3.statusOk := State.statusOk_congr (State.pwr_of_board (State.takeCopy_board ..)) (State.takeCopy_status ..)
    (State.commit_statusOk _ _ _ _ _ h2)
  split
  · exact State.statusOk_congr rfl rfl h3
  · refine State.statusOk_congr (s := s3) (State.pwr_of_board ?_) ?_ h3
    · rw [State.startTick_board]; rfl
    · rw [State.startTick_status]; rfl

/-- A module that is powered and no longer waits for its departure enters FAULT 0x0A (R106). -/
theorem State.faultTen_statusOk {s : State} (d : Nat) (h : s.inTicks) : (s.enterFault 0xA d).statusOk := by
  have ho : s.sys.state ≠ .off := by rcases h.1.2.2.2.2.1 h.2 with h | h | h <;> simp [h]
  exact State.enterFault_statusOk h.1 _ _ ho (by decide)

theorem State.applyReplay_statusOk {s : State} (e : EdgeMsg) (now : Nat) (x : EdgeInput) (h : s.inTicks) : (s.applyReplay e now x).statusOk := by
  unfold State.applyReplay
  extract_lets s1 layers old parts n again s2 s3
  have h1 : s1.inTicks := by
    refine State.inTicks_congr ?_ ?_ h <;> simp [s1]
  have h2 : s2.inTicks := by
    refine State.inTicks_congr ?_ ?_ h1 <;> simp [s2]
  split
  · exact State.faultTen_statusOk _ h1
  · clear_value s2
    refine State.statusOk_congr (s := s2) (State.pwr_of_board ?_) ?_ h2.1
    · rw [State.beginAttempt_board, State.poisonLayers_board]; rfl
    · rw [State.beginAttempt_status, State.poisonLayers_status]; rfl

theorem State.reform_statusOk {s : State} (e : EdgeMsg) (now : Nat) (x : EdgeInput) (h : s.inTicks) : (s.reform e now x).statusOk := by
  unfold State.reform
  extract_lets s1 failed parts n gone layers old s2 s3
  have h1 : s1.inTicks := by
    refine State.inTicks_congr ?_ ?_ h <;> simp [s1]
  have h2 : s2.inTicks := by
    refine State.inTicks_congr ?_ ?_ h1 <;> simp [s2]
  split
  · exact State.faultTen_statusOk _ h1
  · clear_value s2
    refine State.statusOk_congr (s := s2) (State.pwr_of_board ?_) ?_ h2.1
    · rw [State.beginAttempt_board, State.snapshot_board, State.flood_board, State.poisonLayers_board]; rfl
    · rw [State.beginAttempt_status, State.snapshot_status, State.flood_status, State.poisonLayers_status]; rfl

/-- A member that enters RUN. -/
theorem State.toRun_statusOk {s t : State} (hb : t.board = s.board) (hs : t.status = ({ s.sys with state := .run }, true)) (h : s.statusOk)
    (ho : s.sys.state ≠ .off) (hf : s.sys.state ≠ .fault) (hd : s.sys.departed ≠ true) : t.statusOk := by
  have hp := State.pwr_of_board hb
  simp only [State.status, Prod.mk.injEq] at hs
  obtain ⟨h1, h2, h3, h4, h5, h6⟩ := h
  have hc : s.sys.faultClass = 0 := by
    by_contra hc; exact hf (h4.mpr hc)
  unfold State.statusOk
  rw [hp, hs.1, hs.2]
  exact ⟨by simp [h1, ho], h2, h3, by simp [hc], by simp, fun x => absurd x hd⟩

theorem State.startCrew_statusOk {s : State} (e : EdgeMsg) (now : Nat) (h : s.inTicks) : (s.startCrew e now).statusOk := by
  have ho : s.sys.state ≠ .off := by rcases h.1.2.2.2.2.1 h.2 with h | h | h <;> simp [h]
  have hf : s.sys.state ≠ .fault := by rcases h.1.2.2.2.2.1 h.2 with h | h | h <;> simp [h]
  have hd : s.sys.departed ≠ true := fun hd => by have := (h.1.2.2.2.2.2 hd).2; simp [h.2] at this
  have eb := (State.crewCount_board (s.edgeCounts e s.tickPeriod) 2 1).trans (State.edgeCounts_board s e s.tickPeriod)
  have es := (State.crewCount_status (s.edgeCounts e s.tickPeriod) 2 1).trans (State.edgeCounts_status s e s.tickPeriod)
  unfold State.startCrew
  dsimp only
  generalize (s.edgeCounts e s.tickPeriod).crewCount 2 = s1 at *
  refine State.toRun_statusOk (s := s) ?_ ?_ h.1 ho hf hd
  · rw [State.startTick_board]; exact eb
  · rw [State.startTick_status]
    simp only [State.status, Prod.mk.injEq] at es
    simp only [State.mk_status, es.1, es.2, h.2]

theorem State.enterCrew_statusOk {s : State} (e : EdgeMsg) (now : Nat) (j : Joining) (draining : List Nat)
    (h : s.statusOk) (hj : s.sys.state = .join) :
    (s.enterCrew e now j draining).statusOk := by
  refine State.toRun_statusOk (s := s) ?_ ?_ h (by simp [hj]) (by simp [hj]) ?_
  · exact State.enterCrew_board ..
  · simp only [State.enterCrew, State.startTick_status, State.pulse_status, State.flood_status, State.settleMirror_status, State.takeMeasure_status,
      State.settleHomes_status, State.portsUp_status, State.mk_status, status_eta]
    rfl
  · intro hd
    have := (h.2.2.2.2.2 hd).1
    simp [hj] at this

end Sys2Proof.Machine
end

