-- ==== Sys2Proof/Laws/ExecFrame.lean ====
section
/-! SUPPORT. The commands that leave the board alone: identity, supply, boot storage, recovery and test access. -/

namespace Sys2Proof.Machine

/-- Every next state that a meaning answers has the property. -/
def Out.sat (o : Out) (p : State → Prop) : Prop := ∀ t, o = .next t → p t

@[simp] theorem Out.sat_next (t : State) (p : State → Prop) : Out.sat (.next t) p ↔ p t := by
  constructor
  · intro h; exact h t rfl
  · rintro h u ⟨⟩; exact h

@[simp] theorem Out.sat_fault (f : Fault) (p : State → Prop) : Out.sat (.fault f) p := fun _ h => by cases h

@[simp] theorem Out.sat_when (c : Bool) (s f : State) (p : State → Prop) : Out.sat (when c s f) p ↔ if c then p f else p s := by
  unfold when; rw [Out.sat_next]; split <;> rfl

@[simp] theorem Out.sat_needPart (c : Bool) (k : String) (o : Out) (p : State → Prop) :
    Out.sat (needPart c k o) p ↔ (c = true → Out.sat o p) := by
  cases c <;> simp [needPart]

@[simp] theorem Out.sat_onCore (s : State) (d c : Nat) (o : Out) (p : State → Prop) :
    Out.sat (s.onCore d c o) p ↔ (s.hasCore d c = true → Out.sat o p) := Out.sat_needPart ..

theorem State.decodeCmd_board (s : State) (rid : Nat) (op : Byte) (f : Req → State) (hf : ∀ r, (f r).board = s.board) :
    Out.sat (s.decodeCmd rid op f) fun t => t.board = s.board := by
  unfold State.decodeCmd; split
  · simp [hf]
  · simp

theorem execImageLoad_board (norResponds : Bool) (s : State) : Out.sat (execImageLoad norResponds s) fun t => t.board = s.board := by
  unfold execImageLoad; dsimp only; (repeat' split) <;> simp

theorem execVerify_board (s : State) : Out.sat (execVerify s) fun t => t.board = s.board := by
  unfold execVerify; dsimp only; (repeat' split) <;> simp

theorem execTrainTimeout_board (s : State) : Out.sat (execTrainTimeout s) fun t => t.board = s.board := by
  unfold execTrainTimeout; simp

theorem execPerstAssert_board (port : Nat) (s : State) : Out.sat (execPerstAssert port s) fun t => t.board = s.board := by
  unfold execPerstAssert; simp

theorem execPerstDeassert_board (port : Nat) (s : State) : Out.sat (execPerstDeassert port s) fun t => t.board = s.board := by
  unfold execPerstDeassert; simp

theorem execFunctionLevelReset_board (port : Nat) (s : State) : Out.sat (execFunctionLevelReset port s) fun t => t.board = s.board := by
  unfold execFunctionLevelReset; simp

theorem execBar0BadAccess_board (port : Nat) (isWrite : Bool) (offset size : Nat) (s : State) : Out.sat (execBar0BadAccess port isWrite offset size s) fun t => t.board = s.board := by
  unfold execBar0BadAccess; simp

theorem execDoorbellSq_board (port qid : Nat) (value : W32) (s : State) : Out.sat (execDoorbellSq port qid value s) fun t => t.board = s.board := by
  unfold execDoorbellSq; simp

theorem execDoorbellCq_board (port qid : Nat) (value : W32) (s : State) : Out.sat (execDoorbellCq port qid value s) fun t => t.board = s.board := by
  unfold execDoorbellCq; simp

theorem execHostErrClear_board (port : Nat) (value : W64) (s : State) : Out.sat (execHostErrClear port value s) fun t => t.board = s.board := by
  unfold execHostErrClear; simp

theorem execSnapHoldSet_board (port : Nat) (s : State) : Out.sat (execSnapHoldSet port s) fun t => t.board = s.board := by
  unfold execSnapHoldSet; simp

theorem execSnapHoldRelease_board (port : Nat) (s : State) : Out.sat (execSnapHoldRelease port s) fun t => t.board = s.board := by
  unfold execSnapHoldRelease; simp

theorem execLinkStatusClear_board (port n : Nat) (value : W64) (s : State) : Out.sat (execLinkStatusClear port n value s) fun t => t.board = s.board := by
  unfold execLinkStatusClear; simp

theorem execSubmissionFetch_board (port qid : Nat) (entries : List (BitVec 512)) (pcieError : Bool) (s : State) : Out.sat (execSubmissionFetch port qid entries pcieError s) fun t => t.board = s.board := by
  unfold execSubmissionFetch; simp

theorem execSnapshotTransfer_board (s : State) : Out.sat (execSnapshotTransfer s) fun t => t.board = s.board := by
  unfold execSnapshotTransfer; dsimp only; (repeat' split) <;> simp

theorem execThrottleEvaluation_board (r : SensorReadings) (s : State) : Out.sat (execThrottleEvaluation r s) fun t => t.board = s.board := by
  unfold execThrottleEvaluation; simp

theorem execThrottleRaise_board (r : SensorReadings) (s : State) : Out.sat (execThrottleRaise r s) fun t => t.board = s.board := by
  unfold execThrottleRaise; simp

theorem execThermalShutdown_board (r : SensorReadings) (s : State) : Out.sat (execThermalShutdown r s) fun t => t.board = s.board := by
  unfold execThermalShutdown; simp

theorem execNandThrottle_board (celsius10 : Int) (s : State) : Out.sat (execNandThrottle celsius10 s) fun t => t.board = s.board := by
  unfold execNandThrottle; simp

theorem execNandThrottleRelease_board (celsius10 : Int) (s : State) : Out.sat (execNandThrottleRelease celsius10 s) fun t => t.board = s.board := by
  unfold execNandThrottleRelease; simp

theorem execLaneLock_board (port : Nat) (lanes : List Nat) (skewNs : Nat) (s : State) : Out.sat (execLaneLock port lanes skewNs s) fun t => t.board = s.board := by
  unfold execLaneLock; simp

theorem execFlitLock_board (port : Nat) (s : State) : Out.sat (execFlitLock port s) fun t => t.board = s.board := by
  unfold execFlitLock; simp

theorem execTrainRecord_board (port : Nat) (rec : BitVec 1920) (now : W64) (s : State) : Out.sat (execTrainRecord port rec now s) fun t => t.board = s.board := by
  unfold execTrainRecord; dsimp only; (repeat' split) <;> simp

theorem execTrainRecordSend_board (port : Nat) (now : W64) (s : State) : Out.sat (execTrainRecordSend port now s) fun t => t.board = s.board := by
  unfold execTrainRecordSend; simp

theorem execTrainingStepTimeout_board (port : Nat) (s : State) : Out.sat (execTrainingStepTimeout port s) fun t => t.board = s.board := by
  unfold execTrainingStepTimeout; simp

theorem execTrainingRetry_board (port : Nat) (s : State) : Out.sat (execTrainingRetry port s) fun t => t.board = s.board := by
  unfold execTrainingRetry; simp

theorem execTimestampExchange_board (port : Nat) (samples : List (Nat × Nat × Nat × Nat)) (s : State) : Out.sat (execTimestampExchange port samples s) fun t => t.board = s.board := by
  unfold execTimestampExchange; simp

theorem execFlitReceive_board (port : Nat) (hdr : BitVec 128) (payload : List Byte) (s : State) : Out.sat (execFlitReceive port hdr payload s) fun t => t.board = s.board := by
  unfold execFlitReceive; dsimp only; (repeat' split) <;> simp

theorem execFlitSend_board (port : Nat) (s : State) : Out.sat (execFlitSend port s) fun t => t.board = s.board := by
  unfold execFlitSend; dsimp only; (repeat' split) <;> simp

theorem execNak_board (port : Nat) (seqs : List Nat) (s : State) : Out.sat (execNak port seqs s) fun t => t.board = s.board := by
  unfold execNak; split
  · simp
  · simp only [Out.sat_needPart, Out.sat_next]; intro _
    refine (foldl_board _ (fun s q => ?_) _ _).trans ?_
    · split <;> simp
    · simp

theorem execCredit_board (port : Nat) (returns : List (Nat × Nat × Nat)) (s : State) : Out.sat (execCredit port returns s) fun t => t.board = s.board := by
  unfold execCredit; simp

theorem execDownNotice_board (port : Nat) (s : State) : Out.sat (execDownNotice port s) fun t => t.board = s.board := by
  unfold execDownNotice; simp

theorem execLaneAlignmentTimeout_board (port lane : Nat) (s : State) : Out.sat (execLaneAlignmentTimeout port lane s) fun t => t.board = s.board := by
  unfold execLaneAlignmentTimeout; simp

theorem execFlitSilenceTimeout_board (port : Nat) (s : State) : Out.sat (execFlitSilenceTimeout port s) fun t => t.board = s.board := by
  unfold execFlitSilenceTimeout; simp

theorem execNakRateLimit_board (port : Nat) (s : State) : Out.sat (execNakRateLimit port s) fun t => t.board = s.board := by
  unfold execNakRateLimit; simp

theorem execLaserOffExpiry_board (port : Nat) (s : State) : Out.sat (execLaserOffExpiry port s) fun t => t.board = s.board := by
  unfold execLaserOffExpiry; simp

theorem execLinkState_board (port : Nat) (rec : BitVec 512) (s : State) : Out.sat (execLinkState port rec s) fun t => t.board = s.board := by
  unfold execLinkState; dsimp only; (repeat' split) <;> simp

theorem execOpenSeq_board (rid : Nat) (s : State) : Out.sat (execOpenSeq rid s) fun t => t.board = s.board := by
  unfold execOpenSeq; refine State.decodeCmd_board _ _ _ _ (fun r => ?_); (repeat' split) <;> simp

theorem execFork_board (rid : Nat) (s : State) : Out.sat (execFork rid s) fun t => t.board = s.board := by
  unfold execFork; refine State.decodeCmd_board _ _ _ _ (fun r => ?_); (repeat' split) <;> simp

theorem execAbort_board (rid : Nat) (s : State) : Out.sat (execAbort rid s) fun t => t.board = s.board := by
  unfold execAbort; refine State.decodeCmd_board _ _ _ _ (fun r => ?_); (repeat' split) <;> simp

theorem execClose_board (rid : Nat) (s : State) : Out.sat (execClose rid s) fun t => t.board = s.board := by
  unfold execClose; refine State.decodeCmd_board _ _ _ _ (fun r => ?_); (repeat' split) <;> simp

theorem execAppend_board (rid : Nat) (data : HostRead) (s : State) : Out.sat (execAppend rid data s) fun t => t.board = s.board := by
  unfold execAppend; split
  · split
    · simp
    · exact State.decodeCmd_board _ _ _ _ fun r => by simp [State.stageCmd]
  · simp

theorem execGenerate_board (rid : Nat) (drafts : HostRead) (s : State) : Out.sat (execGenerate rid drafts s) fun t => t.board = s.board := by
  unfold execGenerate; split
  · split
    · simp only [Out.sat_when]; (repeat' split) <;> simp
    · exact State.decodeCmd_board _ _ _ _ fun r => by simp [State.stageCmd]
  · simp

theorem execLoadWeights_board (rid : Nat) (data : HostRead) (s : State) : Out.sat (execLoadWeights rid data s) fun t => t.board = s.board := by
  unfold execLoadWeights; refine State.decodeCmd_board _ _ _ _ (fun r => ?_); (repeat' split) <;> simp

theorem execSetQuotaLot_board (rid : Nat) (s : State) : Out.sat (execSetQuotaLot rid s) fun t => t.board = s.board := by
  unfold execSetQuotaLot; refine State.decodeCmd_board _ _ _ _ (fun r => ?_); (repeat' split) <;> simp

theorem execSetQuotaQueueMap_board (rid : Nat) (s : State) : Out.sat (execSetQuotaQueueMap rid s) fun t => t.board = s.board := by
  unfold execSetQuotaQueueMap; refine State.decodeCmd_board _ _ _ _ (fun r => ?_); (repeat' split) <;> simp

theorem execSetProfile_board (rid : Nat) (s : State) : Out.sat (execSetProfile rid s) fun t => t.board = s.board := by
  unfold execSetProfile; refine State.decodeCmd_board _ _ _ _ (fun r => ?_); (repeat' split) <;> simp

theorem execVecInsert_board (rid : Nat) (data : HostRead) (s : State) : Out.sat (execVecInsert rid data s) fun t => t.board = s.board := by
  unfold execVecInsert; refine State.decodeCmd_board _ _ _ _ (fun r => ?_); (repeat' split) <;> simp

theorem execCodebookReload_board (rid : Nat) (data : HostRead) (s : State) : Out.sat (execCodebookReload rid data s) fun t => t.board = s.board := by
  unfold execCodebookReload; refine State.decodeCmd_board _ _ _ _ (fun r => ?_); (repeat' split) <;> simp

theorem execVecDelete_board (rid : Nat) (s : State) : Out.sat (execVecDelete rid s) fun t => t.board = s.board := by
  unfold execVecDelete; refine State.decodeCmd_board _ _ _ _ (fun r => ?_); (repeat' split) <;> simp

theorem execVecSearch_board (rid : Nat) (data : HostRead) (s : State) : Out.sat (execVecSearch rid data s) fun t => t.board = s.board := by
  unfold execVecSearch; refine State.decodeCmd_board _ _ _ _ (fun r => ?_); (repeat' split) <;> simp

theorem execReadCounters_board (rid : Nat) (s : State) : Out.sat (execReadCounters rid s) fun t => t.board = s.board := by
  unfold execReadCounters; refine State.decodeCmd_board _ _ _ _ (fun r => ?_); (repeat' split) <;> simp

theorem execAttest_board (rid : Nat) (nonce : HostRead) (s : State) : Out.sat (execAttest rid nonce s) fun t => t.board = s.board := by
  unfold execAttest; refine State.decodeCmd_board _ _ _ _ (fun r => ?_); (repeat' split) <;> simp

theorem execDrain_board (rid : Nat) (s : State) : Out.sat (execDrain rid s) fun t => t.board = s.board := by
  unfold execDrain; refine State.decodeCmd_board _ _ _ _ (fun r => ?_); (repeat' split) <;> simp

theorem execInvalidOpcode_board (rid : Nat) (s : State) : Out.sat (execInvalidOpcode rid s) fun t => t.board = s.board := by
  unfold execInvalidOpcode; split <;> (try split) <;> first | simp | (refine State.decodeCmd_board _ _ _ _ (fun r => ?_); (repeat' split) <;> simp)

theorem execTaskIssue_board (die core ctx : Nat) (s : State) : Out.sat (execTaskIssue die core ctx s) fun t => t.board = s.board := by
  unfold execTaskIssue; dsimp only; (repeat' split) <;> simp

theorem execStandPortGrant_board (die stand : Nat) (s : State) : Out.sat (execStandPortGrant die stand s) fun t => t.board = s.board := by
  unfold execStandPortGrant; dsimp only; (repeat' split) <;> simp

theorem execTileLoadComplete_board (die stand : Nat) (s : State) : Out.sat (execTileLoadComplete die stand s) fun t => t.board = s.board := by
  unfold execTileLoadComplete; dsimp only; (repeat' split) <;> simp

theorem execContextSwitch_board (die core : Nat) (s : State) : Out.sat (execContextSwitch die core s) fun t => t.board = s.board := by
  unfold execContextSwitch; dsimp only; (repeat' split) <;> simp

theorem execHaloCopy_board (die core : Nat) (s : State) : Out.sat (execHaloCopy die core s) fun t => t.board = s.board := by
  unfold execHaloCopy; dsimp only; (repeat' split) <;> simp

theorem execTileDrain_board (die core : Nat) (s : State) : Out.sat (execTileDrain die core s) fun t => t.board = s.board := by
  unfold execTileDrain; dsimp only; (repeat' split) <;> simp

theorem execSeparateChainPass_board (die core : Nat) (s : State) : Out.sat (execSeparateChainPass die core s) fun t => t.board = s.board := by
  unfold execSeparateChainPass; dsimp only; (repeat' split) <;> simp

theorem execCompletionMessage_board (task : Nat) (s : State) : Out.sat (execCompletionMessage task s) fun t => t.board = s.board := by
  unfold execCompletionMessage; simp

theorem execNormalisation_board (die core : Nat) (job : RowJob) (s : State) : Out.sat (execNormalisation die core job s) fun t => t.board = s.board := by
  unfold execNormalisation; dsimp only; (repeat' split) <;> simp

theorem execSoftMaximum_board (die core : Nat) (job : RowJob) (s : State) : Out.sat (execSoftMaximum die core job s) fun t => t.board = s.board := by
  unfold execSoftMaximum; dsimp only; (repeat' split) <;> simp

theorem execRotaryRotation_board (die core : Nat) (task addr rows : Nat) (positions : List Nat) (s : State) : Out.sat (execRotaryRotation die core task addr rows positions s) fun t => t.board = s.board := by
  unfold execRotaryRotation; dsimp only; (repeat' split) <;> simp

theorem execBlockFold_board (die core : Nat) (job : FoldJob) (s : State) : Out.sat (execBlockFold die core job s) fun t => t.board = s.board := by
  unfold execBlockFold; dsimp only; (repeat' split) <;> simp

theorem execTokenChoice_board (job : TokenJob) (logits : List (List W32)) (s : State) : Out.sat (execTokenChoice job logits s) fun t => t.board = s.board := by
  unfold execTokenChoice; dsimp only; (repeat' split) <;> simp

theorem execFunctionTableFill_board (die core : Nat) (s : State) : Out.sat (execFunctionTableFill die core s) fun t => t.board = s.board := by
  unfold execFunctionTableFill; simp

theorem execSketchTask_board (die core : Nat) (seq : W32) (v : Nat) (sK : W32) (s : State) : Out.sat (execSketchTask die core seq v sK s) fun t => t.board = s.board := by
  unfold execSketchTask; dsimp only; (repeat' split) <;> simp

theorem execPageRanking_board (core : CoreRef) (rid layer head : Nat) (queries : List (List W32)) (s : State) : Out.sat (execPageRanking core rid layer head queries s) fun t => t.board = s.board := by
  unfold execPageRanking; dsimp only; (repeat' split) <;> simp

theorem execRingStepFold_board (round ring step : Nat) (part : RingPart) (s : State) : Out.sat (execRingStepFold round ring step part s) fun t => t.board = s.board := by
  unfold execRingStepFold; dsimp only; (repeat' split) <;> simp

theorem execStreamGrant_board (point : ArbPoint) (s : State) : Out.sat (execStreamGrant point s) fun t => t.board = s.board := by
  unfold execStreamGrant; simp only [Out.sat_when, Out.sat_needPart, Out.sat_next]; (repeat' split) <;> simp

theorem execWalkRequest_board (die ctx stream : Nat) (seq : W32) (pages : List Nat) (ask : WalkAsk) (dst : Nat) (s : State) : Out.sat (execWalkRequest die ctx stream seq pages ask dst s) fun t => t.board = s.board := by
  unfold execWalkRequest; dsimp only; (repeat' split) <;> simp

theorem execTailAppend_board (die core rid : Nat) (seq : W32) (layer head pos : Nat) (key val : List W32) (sK sV : W32) (s : State) : Out.sat (execTailAppend die core rid seq layer head pos key val sK sV s) fun t => t.board = s.board := by
  unfold execTailAppend; dsimp only; (repeat' split) <;> simp

theorem execScatter_board (die core rid : Nat) (seq : W32) (layer head pos : Nat) (key val : List W32) (sK sV : W32) (frame : Nat) (s : State) : Out.sat (execScatter die core rid seq layer head pos key val sK sV frame s) fun t => t.board = s.board := by
  unfold execScatter; dsimp only; (repeat' split) <;> simp

theorem execPageCopy_board (src dst : Nat) (s : State) : Out.sat (execPageCopy src dst s) fun t => t.board = s.board := by
  unfold execPageCopy; simp

theorem execPageCopyComplete_board (src dst : Nat) (s : State) : Out.sat (execPageCopyComplete src dst s) fun t => t.board = s.board := by
  unfold execPageCopyComplete; simp

theorem execCleaningWrite_board (frame flashFrame : Nat) (complete : Bool) (s : State) : Out.sat (execCleaningWrite frame flashFrame complete s) fun t => t.board = s.board := by
  unfold execCleaningWrite; dsimp only; (repeat' split) <;> simp

theorem execHbmUncorrectable_board (frame : Nat) (s : State) : Out.sat (execHbmUncorrectable frame s) fun t => t.board = s.board := by
  unfold execHbmUncorrectable; simp

theorem execScrub_board (frame : Nat) (corrected : Bool) (s : State) : Out.sat (execScrub frame corrected s) fun t => t.board = s.board := by
  unfold execScrub; simp

theorem execRefresh_board (stack row : Nat) (s : State) : Out.sat (execRefresh stack row s) fun t => t.board = s.board := by
  unfold execRefresh; simp

theorem execReadDisturbRefresh_board (stack row : Nat) (s : State) : Out.sat (execReadDisturbRefresh stack row s) fun t => t.board = s.board := by
  unfold execReadDisturbRefresh; simp

theorem execFlashRead_board (frame : Nat) (hardOk : Bool) (softRetry : Option Nat) (s : State) : Out.sat (execFlashRead frame hardOk softRetry s) fun t => t.board = s.board := by
  unfold execFlashRead; dsimp only; (repeat' split) <;> simp

theorem execWearLevelling_board (channel : Nat) (s : State) : Out.sat (execWearLevelling channel s) fun t => t.board = s.board := by
  unfold execWearLevelling; simp only [Out.sat_when, Out.sat_needPart, Out.sat_next, Out.sat_onCore]; (repeat' split) <;> simp

theorem execReadDisturbRelocation_board (channel block : Nat) (s : State) : Out.sat (execReadDisturbRelocation channel block s) fun t => t.board = s.board := by
  unfold execReadDisturbRelocation; simp

theorem execProgramFailure_board (channel block : Nat) (s : State) : Out.sat (execProgramFailure channel block s) fun t => t.board = s.board := by
  unfold execProgramFailure; simp

theorem execGarbageCollection_board (channel : Nat) (s : State) : Out.sat (execGarbageCollection channel s) fun t => t.board = s.board := by
  unfold execGarbageCollection; simp

theorem execFlashReadOnly_board (s : State) : Out.sat (execFlashReadOnly s) fun t => t.board = s.board := by
  unfold execFlashReadOnly; simp

theorem execSramUncorrectable_board (partKind partNum : Nat) (s : State) : Out.sat (execSramUncorrectable partKind partNum s) fun t => t.board = s.board := by
  unfold execSramUncorrectable; simp

theorem execSearchAdmission_board (rid : Nat) (s : State) : Out.sat (execSearchAdmission rid s) fun t => t.board = s.board := by
  unfold execSearchAdmission; dsimp only; (repeat' split) <;> simp

theorem execRecordExpansion_board (slot : Nat) (readable : Bool) (s : State) : Out.sat (execRecordExpansion slot readable s) fun t => t.board = s.board := by
  unfold execRecordExpansion; dsimp only; (repeat' split) <;> simp

theorem execSideScan_board (slot : Nat) (lostFrames : List Nat) (s : State) : Out.sat (execSideScan slot lostFrames s) fun t => t.board = s.board := by
  unfold execSideScan; dsimp only; (repeat' split) <;> simp

theorem execResultAssembly_board (slot : Nat) (lostNodes : List Nat) (s : State) : Out.sat (execResultAssembly slot lostNodes s) fun t => t.board = s.board := by
  unfold execResultAssembly; dsimp only; (repeat' split) <;> simp

theorem execMergeFinish_board (index : Nat) (s : State) : Out.sat (execMergeFinish index s) fun t => t.board = s.board := by
  unfold execMergeFinish; split <;> (try split) <;> first | simp | (refine State.decodeCmd_board _ _ _ _ (fun r => ?_); (repeat' split) <;> simp)

theorem execChunkReceive_board (sender : Nat) (hdr : BitVec 256) (payload : List Byte) (stack : Nat) (s : State) : Out.sat (execChunkReceive sender hdr payload stack s) fun t => t.board = s.board := by
  unfold execChunkReceive; simp

theorem execCombine_board (coll item step chunk : Nat) (left right : List W32) (residueOk : Bool) (s : State) : Out.sat (execCombine coll item step chunk left right residueOk s) fun t => t.board = s.board := by
  unfold execCombine; dsimp only; (repeat' split) <;> simp

theorem execCrewFormation_board (members : List (Nat × W64 × Nat)) (measure : Option (List Byte)) (homes : List (Nat × Nat)) (treeDelay : Nat) (s : State) : Out.sat (execCrewFormation members measure homes treeDelay s) fun t => t.board = s.board := by
  unfold execCrewFormation; dsimp only; (repeat' split) <;> simp

theorem execPlan_board (p : PlanInput) (s : State) : Out.sat (execPlan p s) fun t => t.board = s.board := by
  unfold execPlan; dsimp only; (repeat' split) <;> simp

theorem execLayoutDelta_board (entries : List DeltaEntry) (s : State) : Out.sat (execLayoutDelta entries s) fun t => t.board = s.board := by
  unfold execLayoutDelta; simp

theorem execDeltaReceive_board (version firstPlan : W64) (entries : List DeltaEntry) (s : State) : Out.sat (execDeltaReceive version firstPlan entries s) fun t => t.board = s.board := by
  unfold execDeltaReceive; simp

theorem execEdge_board (hdr : BitVec 128) (body : BitVec 256) (s : State) : Out.sat (execEdge hdr body s) fun t => t.board = s.board := by
  unfold execEdge; split <;> simp

theorem execCmdset_board (hdr : BitVec 128) (recs : List CmdRec) (s : State) : Out.sat (execCmdset hdr recs s) fun t => t.board = s.board := by
  unfold execCmdset; dsimp only; (repeat' split) <;> simp

theorem execReport_board (child : Nat) (hdr : BitVec 128) (rep : Report) (bodyBytes : Nat) (whole : Bool) (s : State) : Out.sat (execReport child hdr rep bodyBytes whole s) fun t => t.board = s.board := by
  unfold execReport; (repeat' split) <;> simp

theorem execRepeatMsg_board (src : Nat) (hdr : BitVec 128) (body : BitVec 128) (s : State) : Out.sat (execRepeatMsg src hdr body s) fun t => t.board = s.board := by
  unfold execRepeatMsg; dsimp only; (repeat' split) <;> simp

theorem execReportRepeatTimeout_board (child : Nat) (s : State) : Out.sat (execReportRepeatTimeout child s) fun t => t.board = s.board := by
  unfold execReportRepeatTimeout; simp

theorem execCheckAndCommitEntry_board (s : State) : Out.sat (execCheckAndCommitEntry s) fun t => t.board = s.board := by
  unfold execCheckAndCommitEntry; simp

theorem execCheckReportSend_board (now : W64) (busy hotSeq : W32) (hotShare : BitVec 16) (s : State) : Out.sat (execCheckReportSend now busy hotSeq hotShare s) fun t => t.board = s.board := by
  unfold execCheckReportSend; simp

theorem execMasterDecision_board (now : W64) (s : State) : Out.sat (execMasterDecision now s) fun t => t.board = s.board := by
  unfold execMasterDecision; dsimp only; (repeat' split) <;> simp

theorem execEdgeIssue_board (now : W64) (s : State) : Out.sat (execEdgeIssue now s) fun t => t.board = s.board := by
  unfold execEdgeIssue; dsimp only; (repeat' split) <;> simp

theorem execTickEdgeApply_board (now : W64) (writeErrors : List Nat) (crew : EdgeInput) (s : State) : Out.sat (execTickEdgeApply now writeErrors crew s) fun t => t.board = s.board := by
  unfold execTickEdgeApply; dsimp only; (repeat' split) <;> simp

end Sys2Proof.Machine
end

