-- ==== Sys2Proof/Laws/Mems.lean ====
section
/-! SUPPORT. Every shared operation keeps the memories in canonical form. -/

namespace Sys2Proof.Machine

@[simp] theorem State.mk_memsOk (ident : Ident) (pwr : Power) (sys : Sys) (smb : Smbus) (nor : Mem) (norBusy : List NorWrite) (img :
    Image) (sec : Security) (mbx : Mailbox) (host : HostIf) (profile : BitVec 128) (lots : Sparse (BitVec 128)) (reqs : List Req) (seqs :
    List Seq) (nodes : List PrefixNode) (hbm : Hbm) (land : Landing) (sketches : List (W32 × Nat × BitVec 256)) (qsketch : List (W32 × Nat
    × Nat × BitVec 256)) (flash : Flash) (vidx : List VIndex) (searches : List Search) (wt : Weights) (tick : TickSt) (crew : Crew) (ports
    : Sparse LinkPort) (yard : Yarder) (coll : Coll) (dies : Sparse Die) (cores : Sparse Core) (stands : Sparse Stand) (fore : Forester)
    (ctr : Counters) (therm : SensorReadings) (tmux : Tmux) (jtag : Jtag) (chk : Checkpoint) (freeIx : Nat) (pending : List Instr) :
    (State.mk ident pwr sys smb nor norBusy img sec mbx host profile lots reqs seqs nodes hbm land sketches qsketch flash vidx searches wt
    tick crew ports yard coll dies cores stands fore ctr therm tmux jtag chk freeIx pending).memsOk ↔ Sparse.wf norBlank nor = true ∧
    Mem.wf host.mem = true ∧ Mem.wf hbm.data = true ∧ Mem.wf hbm.side = true ∧ Mem.wf land.data = true ∧ Mem.wf land.queue = true ∧ Mem.wf
    flash.data = true ∧ Mem.wf flash.side = true ∧ Mem.wf wt.data = true ∧ Mem.wf wt.mirror = true ∧ Mem.wf chk.land.data = true ∧ Mem.wf
    chk.land.queue = true ∧ Mem.wf hbm.data0 = true ∧ Mem.wf hbm.side0 = true ∧ Sparse.wf {} host.queues = true ∧ Sparse.wf 0 ctr.live =
    true ∧ Sparse.wf {} ports = true ∧ Sparse.wf {} dies = true ∧ Sparse.wf {} cores = true ∧ Sparse.wf {} stands = true ∧ Sparse.wf {}
    chk.dies = true ∧ Sparse.wf {} chk.cores = true ∧ Sparse.wf {} chk.stands = true := Iff.rfl

@[simp] theorem State.memsOk_nor {s : State} (h : s.memsOk) : Sparse.wf norBlank s.nor = true := h.1
@[simp] theorem State.memsOk_hostMem {s : State} (h : s.memsOk) : Mem.wf s.host.mem = true := h.2.1
@[simp] theorem State.memsOk_hbmData {s : State} (h : s.memsOk) : Mem.wf s.hbm.data = true := h.2.2.1
@[simp] theorem State.memsOk_hbmSide {s : State} (h : s.memsOk) : Mem.wf s.hbm.side = true := h.2.2.2.1
@[simp] theorem State.memsOk_landData {s : State} (h : s.memsOk) : Mem.wf s.land.data = true := h.2.2.2.2.1
@[simp] theorem State.memsOk_landQueue {s : State} (h : s.memsOk) : Mem.wf s.land.queue = true := h.2.2.2.2.2.1
@[simp] theorem State.memsOk_flashData {s : State} (h : s.memsOk) : Mem.wf s.flash.data = true := h.2.2.2.2.2.2.1
@[simp] theorem State.memsOk_flashSide {s : State} (h : s.memsOk) : Mem.wf s.flash.side = true := h.2.2.2.2.2.2.2.1
@[simp] theorem State.memsOk_wtData {s : State} (h : s.memsOk) : Mem.wf s.wt.data = true := h.2.2.2.2.2.2.2.2.1
@[simp] theorem State.memsOk_wtMirror {s : State} (h : s.memsOk) : Mem.wf s.wt.mirror = true := h.2.2.2.2.2.2.2.2.2.1
@[simp] theorem State.memsOk_chkLand {s : State} (h : s.memsOk) : Mem.wf s.chk.land.data = true := h.2.2.2.2.2.2.2.2.2.2.1
@[simp] theorem State.memsOk_chkLandQueue {s : State} (h : s.memsOk) : Mem.wf s.chk.land.queue = true := h.2.2.2.2.2.2.2.2.2.2.2.1
@[simp] theorem State.memsOk_hbmData0 {s : State} (h : s.memsOk) : Mem.wf s.hbm.data0 = true := h.2.2.2.2.2.2.2.2.2.2.2.2.1
@[simp] theorem State.memsOk_hbmSide0 {s : State} (h : s.memsOk) : Mem.wf s.hbm.side0 = true := h.2.2.2.2.2.2.2.2.2.2.2.2.2.1
@[simp] theorem State.memsOk_queues {s : State} (h : s.memsOk) : Sparse.wf {} s.host.queues = true := h.2.2.2.2.2.2.2.2.2.2.2.2.2.2.1
@[simp] theorem State.memsOk_live {s : State} (h : s.memsOk) : Sparse.wf 0 s.ctr.live = true := h.2.2.2.2.2.2.2.2.2.2.2.2.2.2.2.1
@[simp] theorem State.memsOk_ports {s : State} (h : s.memsOk) : Sparse.wf {} s.ports = true := h.2.2.2.2.2.2.2.2.2.2.2.2.2.2.2.2.1
@[simp] theorem State.memsOk_dies {s : State} (h : s.memsOk) : Sparse.wf {} s.dies = true := h.2.2.2.2.2.2.2.2.2.2.2.2.2.2.2.2.2.1
@[simp] theorem State.memsOk_cores {s : State} (h : s.memsOk) : Sparse.wf {} s.cores = true := h.2.2.2.2.2.2.2.2.2.2.2.2.2.2.2.2.2.2.1
@[simp] theorem State.memsOk_stands {s : State} (h : s.memsOk) : Sparse.wf {} s.stands = true := h.2.2.2.2.2.2.2.2.2.2.2.2.2.2.2.2.2.2.2.1
@[simp] theorem State.memsOk_chkDies {s : State} (h : s.memsOk) : Sparse.wf {} s.chk.dies = true := h.2.2.2.2.2.2.2.2.2.2.2.2.2.2.2.2.2.2.2.2.1
@[simp] theorem State.memsOk_chkCores {s : State} (h : s.memsOk) : Sparse.wf {} s.chk.cores = true := h.2.2.2.2.2.2.2.2.2.2.2.2.2.2.2.2.2.2.2.2.2.1
@[simp] theorem State.memsOk_chkStands {s : State} (h : s.memsOk) : Sparse.wf {} s.chk.stands = true := h.2.2.2.2.2.2.2.2.2.2.2.2.2.2.2.2.2.2.2.2.2.2

@[simp] theorem State.memsOk_queues' {s : State} (h : s.memsOk) :
    Sparse.wf ({ sqBase := 0#52, cqBase := 0#52, msixVec := 0#11, cqSize := 0#16, sqSize := 0#16 } : Queue) s.host.queues = true :=
  State.memsOk_queues h
@[simp] theorem State.memsOk_live' {s : State} (h : s.memsOk) : Sparse.wf (0#64) s.ctr.live = true := State.memsOk_live h
@[simp] theorem State.memsOk_ports' {s : State} (h : s.memsOk) :
    Sparse.wf ({ echoId := 0#64, tEcho := 0#64 } : LinkPort) s.ports = true := State.memsOk_ports h

@[simp] theorem Sparse.foldl_wf {α β : Type} [DecidableEq α] (d : α) (f : Sparse α → β → Sparse α)
    (h : ∀ m b, Sparse.wf d m = true → Sparse.wf d (f m b) = true) (l : List β) (m : Sparse α) (hm : Sparse.wf d m = true) :
    Sparse.wf d (l.foldl f m) = true := by
  induction l generalizing m with
  | nil => exact hm
  | cons b l ih => exact ih _ (h _ _ hm)

@[simp] theorem backDies_wf (now old : Sparse Die) : Sparse.wf {} (backDies now old) = true := by
  unfold backDies; exact Sparse.foldl_wf _ _ (fun m b h => Sparse.wf_set _ _ _ _ h) _ _ rfl

@[simp] theorem Mem.wf_nil : Mem.wf [] = true := rfl

@[simp] theorem foldl_memsOk {β : Type} (f : State → β → State) (l : List β) (s : State)
    (h : ∀ s b, s.memsOk → (f s b).memsOk) (hs : s.memsOk) : (l.foldl f s).memsOk := by
  induction l generalizing s with
  | nil => exact hs
  | cons b l ih => exact ih _ (h _ _ hs)

@[simp] theorem foldl_fst_memsOk {α β : Type} (f : State × α → β → State × α) (l : List β) (a : State × α)
    (h : ∀ a b, a.1.memsOk → (f a b).1.memsOk) (hs : a.1.memsOk) : (l.foldl f a).1.memsOk := by
  induction l generalizing a with
  | nil => exact hs
  | cons b l ih => exact ih _ (h _ _ hs)

@[simp] theorem ite_memsOk (c : Prop) [Decidable c] (a b : State) : (if c then a else b).memsOk ↔ if c then a.memsOk else b.memsOk :=
  iff_of_eq (apply_ite State.memsOk c a b)

theorem ite_keep {c : Prop} [Decidable c] {a b : State} (ha : a.memsOk) (hb : b.memsOk) : (if c then a else b).memsOk := by
  split <;> assumption

@[simp] theorem State.freeBytes_memsOk (s : State) (n : Nat) (h : s.memsOk) : (s.freeBytes n).2.memsOk := h
@[simp] theorem State.freeWord_memsOk (s : State) (h : s.memsOk) : s.freeWord.2.memsOk := h

@[simp] theorem State.setDie_memsOk (s : State) (d : Nat) (x : Die) (hm : s.memsOk) : (State.setDie s d x).memsOk := by
  simp (maxDischargeDepth := 30) +contextual [State.setDie, hm]

@[simp] theorem State.setCore_memsOk (s : State) (c : Nat) (x : Core) (hm : s.memsOk) : (State.setCore s c x).memsOk := by
  simp (maxDischargeDepth := 30) +contextual [State.setCore, hm]

@[simp] theorem State.setStand_memsOk (s : State) (n : Nat) (x : Stand) (hm : s.memsOk) : (State.setStand s n x).memsOk := by
  simp (maxDischargeDepth := 30) +contextual [State.setStand, hm]

@[simp] theorem State.setPort_memsOk (s : State) (n : Nat) (x : LinkPort) (hm : s.memsOk) : (State.setPort s n x).memsOk := by
  simp (maxDischargeDepth := 30) +contextual [State.setPort, hm]

@[simp] theorem State.count_memsOk (s : State) (dom cls index : Nat) (n : Nat) (hm : s.memsOk) : (State.count s dom cls index n).memsOk := by
  simp (maxDischargeDepth := 30) +contextual [State.count, hm]

@[simp] theorem State.hubCount_memsOk (s : State) (cls index : Nat) (n : Nat) (hm : s.memsOk) : (State.hubCount s cls index n).memsOk := by
  simp (maxDischargeDepth := 30) +contextual [State.hubCount, hm]

@[simp] theorem State.crewCount_memsOk (s : State) (index : Nat) (n : Nat) (hm : s.memsOk) : (State.crewCount s index n).memsOk := by
  simp (maxDischargeDepth := 30) +contextual [State.crewCount, hm]

@[simp] theorem State.pcieCount_memsOk (s : State) (port index : Nat) (n : Nat) (hm : s.memsOk) : (State.pcieCount s port index n).memsOk := by
  simp (maxDischargeDepth := 30) +contextual [State.pcieCount, hm]

@[simp] theorem State.linkCount_memsOk (s : State) (port index : Nat) (n : Nat) (hm : s.memsOk) : (State.linkCount s port index n).memsOk := by
  simp (maxDischargeDepth := 30) +contextual [State.linkCount, hm]

@[simp] theorem State.norScramble_memsOk (s : State) (off n : Nat) (hm : s.memsOk) : (State.norScramble s off n).memsOk := by
  simp (maxDischargeDepth := 30) +contextual [State.norScramble, hm]

@[simp] theorem State.setHostPort_memsOk (s : State) (p : Nat) (x : HostPort) (hm : s.memsOk) : (State.setHostPort s p x).memsOk := by
  simp (maxDischargeDepth := 30) +contextual [State.setHostPort, hm]

@[simp] theorem State.setQueue_memsOk (s : State) (q : Nat) (x : Queue) (hm : s.memsOk) : (State.setQueue s q x).memsOk := by
  simp (maxDischargeDepth := 30) +contextual [State.setQueue, hm]

@[simp] theorem State.hostErr_memsOk (s : State) (p b : Nat) (hm : s.memsOk) : (State.hostErr s p b).memsOk := by
  simp (maxDischargeDepth := 30) +contextual [State.hostErr, hm]

@[simp] theorem State.hostWrite_memsOk (s : State) (p a : Nat) (bs : List Byte) (hm : s.memsOk) : (State.hostWrite s p a bs).memsOk := by
  simp (maxDischargeDepth := 30) +contextual [State.hostWrite, hm]

@[simp] theorem State.writeCompletion_memsOk (s : State) (tick : Nat) (ok : Bool) (r : Req) (hm : s.memsOk) : (State.writeCompletion s tick ok
    r).memsOk := by
  simp (maxDischargeDepth := 30) +contextual [State.writeCompletion, hm]

@[simp] theorem State.pulse_memsOk (s : State) (sel : Nat) (hm : s.memsOk) : (State.pulse s sel).memsOk := by
  simp (maxDischargeDepth := 30) +contextual [State.pulse, hm]

@[simp] theorem State.sendMsix_memsOk (s : State) (p v : Nat) (hm : s.memsOk) : (State.sendMsix s p v).memsOk := by
  simp (maxDischargeDepth := 30) +contextual [State.sendMsix, hm]

@[simp] theorem State.sendMessages_memsOk (s : State) (vs : List (Nat × Nat)) (hm : s.memsOk) : (State.sendMessages s vs).memsOk := by
  simp (maxDischargeDepth := 30) +contextual [State.sendMessages, hm]

@[simp] theorem State.portReset_memsOk (s : State) (p : Nat) (hm : s.memsOk) : (State.portReset s p).memsOk := by
  simp (maxDischargeDepth := 30) +contextual [State.portReset, hm]

@[simp] theorem State.updReq_memsOk (s : State) (rid : Nat) (f : Req → Req) (hm : s.memsOk) : (State.updReq s rid f).memsOk := by
  simp (maxDischargeDepth := 30) +contextual [State.updReq, hm]

@[simp] theorem State.updReqs_memsOk (s : State) (f : Req → Req) (hm : s.memsOk) : (State.updReqs s f).memsOk := by
  simp (maxDischargeDepth := 30) +contextual [State.updReqs, hm]

@[simp] theorem State.updSeq_memsOk (s : State) (h : W32) (f : Seq → Seq) (hm : s.memsOk) : (State.updSeq s h f).memsOk := by
  simp (maxDischargeDepth := 30) +contextual [State.updSeq, hm]

@[simp] theorem State.stageEdit_memsOk (s : State) (t : Nat) (h : W32) (v : Nat) (e : W64) (hm : s.memsOk) : (State.stageEdit s t h v e).memsOk := by
  simp (maxDischargeDepth := 30) +contextual [State.stageEdit, hm]

@[simp] theorem State.answerPort_memsOk (s : State) (port : Nat) (hm : s.memsOk) : (State.answerPort s port).memsOk := by
  simp (maxDischargeDepth := 30) +contextual [State.answerPort, hm]

@[simp] theorem State.clearModule_memsOk (s : State) (hm : s.memsOk) : (State.clearModule s).memsOk := by
  simp (maxDischargeDepth := 30) +contextual [State.clearModule, hm]

@[simp] theorem State.moduleReset_memsOk (s : State) (hm : s.memsOk) : (State.moduleReset s).memsOk := by
  simp (maxDischargeDepth := 30) +contextual [State.moduleReset, hm]

@[simp] theorem State.powerDown_memsOk (s : State) (hm : s.memsOk) : (State.powerDown s).memsOk := by
  simp (maxDischargeDepth := 30) +contextual [State.powerDown, hm]

@[simp] theorem State.powerUp_memsOk (s : State) (compat : Bool) (hm : s.memsOk) : (State.powerUp s compat).memsOk := by
  simp (maxDischargeDepth := 30) +contextual [State.powerUp, hm]

@[simp] theorem State.abortAll_memsOk (s : State) (hm : s.memsOk) : (State.abortAll s).memsOk := by
  simp (maxDischargeDepth := 30) +contextual [State.abortAll, hm]

@[simp] theorem State.joinDiscard_memsOk (s : State) (hm : s.memsOk) : (State.joinDiscard s).memsOk := by
  simp only [State.joinDiscard]; (repeat' split) <;> simp (maxDischargeDepth := 30) +contextual [hm]

@[simp] theorem State.leaveToJoin_memsOk (s : State) (hm : s.memsOk) : (State.leaveToJoin s).memsOk := by
  simp (maxDischargeDepth := 30) +contextual [State.leaveToJoin, hm]

@[simp] theorem State.enterFault_memsOk (s : State) (cls detail : Nat) (hm : s.memsOk) : (State.enterFault s cls detail).memsOk := by
  unfold State.enterFault; split <;> simp (maxDischargeDepth := 30) +contextual [hm]

@[simp] theorem State.failAttempt_memsOk (s : State) (cause : Nat) (partKind : Nat) (partNum : Nat) (layer : Nat) (hm : s.memsOk) :
    (State.failAttempt s cause partKind partNum layer).memsOk := by
  simp (maxDischargeDepth := 30) +contextual [State.failAttempt, hm]

@[simp] theorem State.send_memsOk (s : State) (m : OutMsg) (hm : s.memsOk) : (State.send s m).memsOk := by
  simp (maxDischargeDepth := 30) +contextual [State.send, hm]

@[simp] theorem State.writeHbm_memsOk (s : State) (a : Nat) (bs : List Byte) (hm : s.memsOk) : (State.writeHbm s a bs).memsOk := by
  simp (maxDischargeDepth := 30) +contextual [State.writeHbm, hm]

@[simp] theorem State.writeSide_memsOk (s : State) (a : Nat) (bs : List Byte) (hm : s.memsOk) : (State.writeSide s a bs).memsOk := by
  simp (maxDischargeDepth := 30) +contextual [State.writeSide, hm]

@[simp] theorem State.writeLand_memsOk (s : State) (a : Nat) (bs : List Byte) (hm : s.memsOk) : (State.writeLand s a bs).memsOk := by
  simp (maxDischargeDepth := 30) +contextual [State.writeLand, hm]

@[simp] theorem State.writeFlash_memsOk (s : State) (a : Nat) (bs : List Byte) (hm : s.memsOk) : (State.writeFlash s a bs).memsOk := by
  simp (maxDischargeDepth := 30) +contextual [State.writeFlash, hm]

@[simp] theorem State.setHbmSide_memsOk (s : State) (frame b : Nat) (hm : s.memsOk) : (State.setHbmSide s frame b).memsOk := by
  simp (maxDischargeDepth := 30) +contextual [State.setHbmSide, hm]

@[simp] theorem State.setFlashSide_memsOk (s : State) (frame b : Nat) (hm : s.memsOk) : (State.setFlashSide s frame b).memsOk := by
  simp (maxDischargeDepth := 30) +contextual [State.setFlashSide, hm]

@[simp] theorem State.countFlags_memsOk (s : State) (die core : Nat) (f : Flags) (hm : s.memsOk) : (State.countFlags s die core f).memsOk := by
  simp (maxDischargeDepth := 30) +contextual [State.countFlags, hm]

@[simp] theorem State.raiseFlags_memsOk (s : State) (die core : Nat) (rid : Option Nat) (f : Flags) (hm : s.memsOk) : (State.raiseFlags s die core
    rid f).memsOk := by
  unfold State.raiseFlags; split <;> simp (maxDischargeDepth := 30) +contextual [hm]

@[simp] theorem State.commitFlags_memsOk (s : State) (hm : s.memsOk) : (State.commitFlags s).memsOk := by
  simp (maxDischargeDepth := 30) +contextual [State.commitFlags, hm]

@[simp] theorem State.setCtx_memsOk (s : State) (core n : Nat) (x : Ctx) (hm : s.memsOk) : (State.setCtx s core n x).memsOk := by
  simp (maxDischargeDepth := 30) +contextual [State.setCtx, hm]

@[simp] theorem State.ctxCount_memsOk (s : State) (core n ev e : Nat) (k : Nat) (hm : s.memsOk) : (State.ctxCount s core n ev e k).memsOk := by
  simp (maxDischargeDepth := 30) +contextual [State.ctxCount, hm]

@[simp] theorem State.ctxOnly_memsOk (s : State) (core n e : Nat) (k : Nat) (hm : s.memsOk) : (State.ctxOnly s core n e k).memsOk := by
  simp (maxDischargeDepth := 30) +contextual [State.ctxOnly, hm]

@[simp] theorem State.coreCount_memsOk (s : State) (core ev : Nat) (k : Nat) (hm : s.memsOk) : (State.coreCount s core ev k).memsOk := by
  simp (maxDischargeDepth := 30) +contextual [State.coreCount, hm]

@[simp] theorem State.consume_memsOk (s : State) (die task : Nat) (rs : List (Nat × Nat)) (hm : s.memsOk) : (State.consume s die task rs).memsOk := by
  simp (maxDischargeDepth := 30) +contextual [State.consume, hm]

@[simp] theorem State.askLoads_memsOk (s : State) (core n : Nat) (hm : s.memsOk) : (State.askLoads s core n).memsOk := by
  simp (maxDischargeDepth := 30) +contextual [State.askLoads, hm]

@[simp] theorem State.dropAsks_memsOk (s : State) (core : Nat) (hm : s.memsOk) : (State.dropAsks s core).memsOk := by
  simp (maxDischargeDepth := 30) +contextual [State.dropAsks, hm]

@[simp] theorem State.promoteAsks_memsOk (s : State) (core : Nat) (hm : s.memsOk) : (State.promoteAsks s core).memsOk := by
  simp (maxDischargeDepth := 30) +contextual [State.promoteAsks, hm]

@[simp] theorem State.resume_memsOk (s : State) (core n : Nat) (hm : s.memsOk) : (State.resume s core n).memsOk := by
  simp (maxDischargeDepth := 30) +contextual [State.resume, hm]

@[simp] theorem State.nextCtx_memsOk (s : State) (core : Nat) (hm : s.memsOk) : (State.nextCtx s core).memsOk := by
  unfold State.nextCtx; dsimp only; (repeat' split) <;> simp (maxDischargeDepth := 30) +contextual [hm]

@[simp] theorem State.placeTask_memsOk (s : State) (core n : Nat) (hm : s.memsOk) : (State.placeTask s core n).memsOk := by
  unfold State.placeTask; dsimp only; (repeat' split) <;> simp (maxDischargeDepth := 30) +contextual [hm]

@[simp] theorem State.finishCtx_memsOk (s : State) (core n : Nat) (hm : s.memsOk) : (State.finishCtx s core n).memsOk := by
  simp (maxDischargeDepth := 30) +contextual [State.finishCtx, hm]

@[simp] theorem State.faultReq_memsOk (s : State) (r : Option Nat) (code : Nat) (hm : s.memsOk) : (State.faultReq s r code).memsOk := by
  unfold State.faultReq; split <;> simp (maxDischargeDepth := 30) +contextual [hm]

@[simp] theorem State.forget_memsOk (s : State) (task : Nat) (hm : s.memsOk) : (State.forget s task).memsOk := by
  simp (maxDischargeDepth := 30) +contextual [State.forget, hm]

@[simp] theorem State.failOne_memsOk (code : Nat) (s : State) (e : Nat × Nat) (hm : s.memsOk) : (State.failOne code s e).memsOk := by
  simp (maxDischargeDepth := 30) +contextual [State.failOne, hm]

@[simp] theorem State.failWave_memsOk (code k : Nat) (ts : List Nat) (s : State) (hm : s.memsOk) : (State.failWave code k ts s).memsOk := by
  induction k generalizing ts s with
  | zero => exact hm
  | succ k ih =>
    unfold State.failWave; split
    · exact hm
    · exact ih _ _ (foldl_memsOk _ _ _ (fun s e hs => State.failOne_memsOk code s e hs) hm)

@[simp] theorem State.failCtx_memsOk (s : State) (core n code : Nat) (hm : s.memsOk) : (State.failCtx s core n code).memsOk := by
  simp (maxDischargeDepth := 30) +contextual [State.failCtx, hm]

@[simp] theorem State.failSet_memsOk (s : State) (set : List (Nat × Nat)) (code : Nat) (hm : s.memsOk) : (State.failSet s set code).memsOk := by
  simp (maxDischargeDepth := 30) +contextual [State.failSet, hm]

@[simp] theorem State.raiseAll_memsOk (s : State) (core : Nat) (rid : Option Nat) (fs : List Flags) (hm : s.memsOk) : (State.raiseAll s core rid
    fs).memsOk := by
  simp (maxDischargeDepth := 30) +contextual [State.raiseAll, hm]

@[simp] theorem State.addWork_memsOk (s : State) (core n slots : Nat) (hm : s.memsOk) : (State.addWork s core n slots).memsOk := by
  simp (maxDischargeDepth := 30) +contextual [State.addWork, hm]

@[simp] theorem State.tryCompute_memsOk (s : State) (core : Nat) (hm : s.memsOk) : (State.tryCompute s core).memsOk := by
  unfold State.tryCompute; dsimp only; (repeat' split) <;> simp (maxDischargeDepth := 30) +contextual [hm]

@[simp] theorem State.compute_memsOk (s : State) (core : Nat) (hm : s.memsOk) : (State.compute s core).memsOk := by
  simp (maxDischargeDepth := 30) +contextual [State.compute, hm]

@[simp] theorem State.storeTile_memsOk (s : State) (core n : Nat) (chain : List ChainStep) (vals : List Nat) (hm : s.memsOk) : (State.storeTile s
    core n chain vals).memsOk := by
  simp (maxDischargeDepth := 30) +contextual [State.storeTile, hm]

@[simp] theorem State.afterTile_memsOk (s : State) (core n : Nat) (hm : s.memsOk) : (State.afterTile s core n).memsOk := by
  simp (maxDischargeDepth := 30) +contextual [State.afterTile, hm]

@[simp] theorem State.startCtx_memsOk (s : State) (core n : Nat) (hm : s.memsOk) : (State.startCtx s core n).memsOk := by
  simp (maxDischargeDepth := 30) +contextual [State.startCtx, hm]

@[simp] theorem State.passCtx_memsOk (s : State) (core n : Nat) (hm : s.memsOk) : (State.passCtx s core n).memsOk := by
  simp (maxDischargeDepth := 30) +contextual [State.passCtx, hm]

@[simp] theorem State.countFault_memsOk (s : State) (core n code : Nat) (hm : s.memsOk) : (State.countFault s core n code).memsOk := by
  simp (maxDischargeDepth := 30) +contextual [State.countFault, hm]

@[simp] theorem State.faultCtx_memsOk (s : State) (core n code : Nat) (hm : s.memsOk) : (State.faultCtx s core n code).memsOk := by
  simp (maxDischargeDepth := 30) +contextual [State.faultCtx, hm]

@[simp] theorem State.loadOperand_memsOk (s : State) (r : PortReq) (hm : s.memsOk) : (State.loadOperand s r).memsOk := by
  simp (maxDischargeDepth := 30) +contextual [State.loadOperand, hm]

@[simp] theorem State.setHbmEnt_memsOk (s : State) (f : Nat) (e : FrameEnt) (hm : s.memsOk) : (State.setHbmEnt s f e).memsOk := by
  simp (maxDischargeDepth := 30) +contextual [State.setHbmEnt, hm]

@[simp] theorem State.setFlashEnt_memsOk (s : State) (f : Nat) (e : FrameEnt) (hm : s.memsOk) : (State.setFlashEnt s f e).memsOk := by
  simp (maxDischargeDepth := 30) +contextual [State.setFlashEnt, hm]

@[simp] theorem State.lotCount_memsOk (s : State) (die lot ev : Nat) (n : Nat) (hm : s.memsOk) : (State.lotCount s die lot ev n).memsOk := by
  simp (maxDischargeDepth := 30) +contextual [State.lotCount, hm]

@[simp] theorem State.overdraw_memsOk (s : State) (beyond : Bool) (die lot : Nat) (hm : s.memsOk) : (State.overdraw s beyond die lot).memsOk := by
  simp (maxDischargeDepth := 30) +contextual [State.overdraw, hm]

@[simp] theorem State.allocHbm_memsOk (s : State) (f lot : Nat) (hm : s.memsOk) : (State.allocHbm s f lot).memsOk := by
  simp (maxDischargeDepth := 30) +contextual [State.allocHbm, hm]

@[simp] theorem State.allocFlash_memsOk (s : State) (f lot : Nat) (hm : s.memsOk) : (State.allocFlash s f lot).memsOk := by
  simp (maxDischargeDepth := 30) +contextual [State.allocFlash, hm]

@[simp] theorem State.incRef_memsOk (s : State) (r : Option (Bool × Nat)) (hm : s.memsOk) : (State.incRef s r).memsOk := by
  unfold State.incRef; split <;> simp (maxDischargeDepth := 30) +contextual [hm]

@[simp] theorem State.decRef_memsOk (s : State) (r : Option (Bool × Nat)) (hm : s.memsOk) : (State.decRef s r).memsOk := by
  unfold State.decRef; split <;> simp (maxDischargeDepth := 30) +contextual [hm]

@[simp] theorem State.pinHbm_memsOk (s : State) (f : Nat) (up : Bool) (hm : s.memsOk) : (State.pinHbm s f up).memsOk := by
  simp (maxDischargeDepth := 30) +contextual [State.pinHbm, hm]

@[simp] theorem State.writeSketch_memsOk (s : State) (h : W32) (v : Nat) (k : BitVec 256) (hm : s.memsOk) : (State.writeSketch s h v k).memsOk := by
  unfold State.writeSketch; split <;> simp (maxDischargeDepth := 30) +contextual [hm]

@[simp] theorem State.growTable_memsOk (h : W32) (s : State) (lot : Nat) (hm : s.memsOk) : (State.growTable h s lot).memsOk := by
  unfold State.growTable; split <;> simp (maxDischargeDepth := 30) +contextual [hm]

@[simp] theorem State.settleTable_memsOk (s : State) (h : W32) (hm : s.memsOk) : (State.settleTable s h).memsOk := by
  unfold State.settleTable; split <;> simp (maxDischargeDepth := 30) +contextual [hm]

@[simp] theorem State.copyFrame_memsOk (s : State) (src dst : Nat) (hm : s.memsOk) : (State.copyFrame s src dst).memsOk := by
  simp (maxDischargeDepth := 30) +contextual [State.copyFrame, hm]

@[simp] theorem State.applyEdit_memsOk (s : State) (old new : W64) (hm : s.memsOk) : (State.applyEdit s old new).memsOk := by
  simp (maxDischargeDepth := 30) +contextual [State.applyEdit, hm]

@[simp] theorem State.queueClean_memsOk (s : State) (t f : Nat) (hm : s.memsOk) : (State.queueClean s t f).memsOk := by
  simp (maxDischargeDepth := 30) +contextual [State.queueClean, hm]

@[simp] theorem State.commitEdits_memsOk (s : State) (t : Nat) (q : Seq) (hm : s.memsOk) : (State.commitEdits s t q).memsOk := by
  simp (maxDischargeDepth := 30) +contextual [State.commitEdits, hm]

@[simp] theorem State.queueDue_memsOk (s : State) (t : Nat) (q : Seq) (hm : s.memsOk) : (State.queueDue s t q).memsOk := by
  simp (maxDischargeDepth := 30) +contextual [State.queueDue, hm]

@[simp] theorem State.stackCount_memsOk (s : State) (stack ev : Nat) (hm : s.memsOk) : (State.stackCount s stack ev).memsOk := by
  simp (maxDischargeDepth := 30) +contextual [State.stackCount, hm]

@[simp] theorem State.setSlot_memsOk (s : State) (n : Nat) (x : Slot) (hm : s.memsOk) : (State.setSlot s n x).memsOk := by
  simp (maxDischargeDepth := 30) +contextual [State.setSlot, hm]

@[simp] theorem State.setSlotSide_memsOk (s : State) (n b : Nat) (hm : s.memsOk) : (State.setSlotSide s n b).memsOk := by
  simp (maxDischargeDepth := 30) +contextual [State.setSlotSide, hm]

@[simp] theorem State.takeStaging_memsOk (s : State) (stack part k : Nat) (h : W32) (layer head : Nat) (hm : s.memsOk) : (State.takeStaging s stack
    part k h layer head).memsOk := by
  simp (maxDischargeDepth := 30) +contextual [State.takeStaging, hm]

@[simp] theorem State.freeSlots_memsOk (s : State) (n : Nat) (hm : s.memsOk) : (State.freeSlots s n).memsOk := by
  simp (maxDischargeDepth := 30) +contextual [State.freeSlots, hm]

@[simp] theorem State.fillQueue_memsOk (s : State) (stack : Nat) (bs : List Byte) (hm : s.memsOk) : (State.fillQueue s stack bs).memsOk := by
  simp (maxDischargeDepth := 30) +contextual [State.fillQueue, hm]

@[simp] theorem State.writeFlush_memsOk (s : State) (n : Nat) (hm : s.memsOk) : (State.writeFlush s n).memsOk := by
  simp (maxDischargeDepth := 30) +contextual [State.writeFlush, hm]

@[simp] theorem State.sharePage_memsOk (s : State) (t : Nat) (h : W32) (v : Nat) (e : W64) (hm : s.memsOk) : (State.sharePage s t h v e).memsOk := by
  simp (maxDischargeDepth := 30) +contextual [State.sharePage, hm]

@[simp] theorem State.freeRunSlots_memsOk (s : State) (h : W32) (first : Nat) (hm : s.memsOk) : (State.freeRunSlots s h first).memsOk := by
  simp (maxDischargeDepth := 30) +contextual [State.freeRunSlots, hm]

@[simp] theorem State.shareNode_memsOk (s : State) (t : Nat) (h : W32) (n : PrefixNode) (len : Nat) (hm : s.memsOk) : (State.shareNode s t h n
    len).memsOk := by
  simp (maxDischargeDepth := 30) +contextual [State.shareNode, hm]

@[simp] theorem State.matchPartial_memsOk (s : State) (t : Nat) (h : W32) (q : Seq) (r p : Nat) (hm : s.memsOk) : (State.matchPartial s t h q r
    p).memsOk := by
  unfold State.matchPartial; split <;> simp (maxDischargeDepth := 30) +contextual [hm]

@[simp] theorem State.addNode_memsOk (s : State) (parent : Option Nat) (h : W64) (ts : List W32) (full : Bool) (r t : Nat)
    (fs : List (Nat × W64)) (hm : s.memsOk) : (s.addNode parent h ts full r t fs).1.memsOk := by
  unfold State.addNode; dsimp only; refine foldl_memsOk _ _ _ (fun s b hs => by simp (maxDischargeDepth := 30) +contextual [hs]) ?_; exact hm

@[simp] theorem State.enterRuns_memsOk (t : Nat) (h : W32) (k : Nat) (s : State) (hm : s.memsOk) : (s.enterRuns t h k).memsOk := by
  induction k generalizing s with
  | zero => exact hm
  | succ k ih => unfold State.enterRuns; dsimp only; (repeat' split) <;> simp (maxDischargeDepth := 30) +contextual [ih, hm]

@[simp] theorem State.matchRuns_memsOk (t : Nat) (h : W32) (k : Nat) (s : State) (hm : s.memsOk) : (s.matchRuns t h k).memsOk := by
  induction k generalizing s with
  | zero => exact hm
  | succ k ih => unfold State.matchRuns; dsimp only; (repeat' split) <;> simp (maxDischargeDepth := 30) +contextual [ih, hm]

@[simp] theorem State.openBlock_memsOk (s : State) (channel b : Nat) (hm : s.memsOk) : (State.openBlock s channel b).memsOk := by
  simp (maxDischargeDepth := 30) +contextual [State.openBlock, hm]

@[simp] theorem State.pickBlock_memsOk (s : State) (channel : Nat) (but : Option Nat) (hm : s.memsOk) :
    (s.pickBlock channel but).2.memsOk := by
  unfold State.pickBlock; dsimp only; (repeat' split) <;> simp (maxDischargeDepth := 30) +contextual [hm]

@[simp] theorem State.mapFrame_memsOk (s : State) (frame block : Nat) (hm : s.memsOk) : (State.mapFrame s frame block).memsOk := by
  simp (maxDischargeDepth := 30) +contextual [State.mapFrame, hm]

@[simp] theorem State.programFrame_memsOk (s : State) (frame : Nat) (hm : s.memsOk) : (State.programFrame s frame).memsOk := by
  simp (maxDischargeDepth := 30) +contextual [State.programFrame, hm]

@[simp] theorem State.programFrames_memsOk (s : State) (first n : Nat) (hm : s.memsOk) : (State.programFrames s first n).memsOk := by
  simp (maxDischargeDepth := 30) +contextual [State.programFrames, hm]

@[simp] theorem State.flashPut_memsOk (s : State) (a : Nat) (bs : List Byte) (hm : s.memsOk) : (State.flashPut s a bs).memsOk := by
  simp (maxDischargeDepth := 30) +contextual [State.flashPut, hm]

@[simp] theorem State.enqueue_memsOk (s : State) (n : Nat) (f : Flit) (hm : s.memsOk) : (State.enqueue s n f).memsOk := by
  simp (maxDischargeDepth := 30) +contextual [State.enqueue, hm]

@[simp] theorem State.launch_memsOk (s : State) (f : Flit) (hm : s.memsOk) : (State.launch s f).memsOk := by
  unfold State.launch; split <;> simp (maxDischargeDepth := 30) +contextual [hm]

@[simp] theorem State.launchTo_memsOk (m : OutMsg) (s : State) (dest : Nat) (hm : s.memsOk) : (State.launchTo m s dest).memsOk := by
  unfold State.launchTo; split <;> simp (maxDischargeDepth := 30) +contextual [hm]

@[simp] theorem State.sendTick_memsOk (s : State) (m : OutMsg) (dests : List Nat) (hm : s.memsOk) : (State.sendTick s m dests).memsOk := by
  simp (maxDischargeDepth := 30) +contextual [State.sendTick, hm]

@[simp] theorem State.useMsg_memsOk (s : State) (m : TickMsg) (hm : s.memsOk) : (State.useMsg s m).memsOk := by
  simp (maxDischargeDepth := 30) +contextual [State.useMsg, hm]

@[simp] theorem State.sendRecord_memsOk (s : State) (r : BitVec 512) (except : Option Nat) (hm : s.memsOk) : (State.sendRecord s r except).memsOk :=
    by
  simp (maxDischargeDepth := 30) +contextual [State.sendRecord, hm]

@[simp] theorem State.flood_memsOk (s : State) (hm : s.memsOk) : (State.flood s).memsOk := by
  simp (maxDischargeDepth := 30) +contextual [State.flood, hm]

@[simp] theorem State.assessCrew_memsOk (s : State) (hm : s.memsOk) : (State.assessCrew s).memsOk := by
  simp (maxDischargeDepth := 30) +contextual [State.assessCrew, hm]

@[simp] theorem State.decideAt_memsOk (s : State) (n : Nat) (hm : s.memsOk) : (State.decideAt s n).memsOk := by
  unfold State.decideAt; dsimp only; (repeat' split) <;> simp (maxDischargeDepth := 30) +contextual [hm]

@[simp] theorem State.lostInFlight_memsOk (s : State) (n : Nat) (hm : s.memsOk) : (State.lostInFlight s n).memsOk := by
  simp (maxDischargeDepth := 30) +contextual [State.lostInFlight, hm]

@[simp] theorem State.sendNaks_memsOk (s : State) (n : Nat) (gap : List Nat) (hm : s.memsOk) : (State.sendNaks s n gap).memsOk := by
  simp (maxDischargeDepth := 30) +contextual [State.sendNaks, hm]

@[simp] theorem State.forward_memsOk (s : State) (arrival : Nat) (f : Flit) (hm : s.memsOk) : (State.forward s arrival f).memsOk := by
  unfold State.forward; dsimp only; (repeat' split) <;> simp (maxDischargeDepth := 30) +contextual [hm]

@[simp] theorem State.forwardTransit_memsOk (s : State) (arrival : Nat) (f : Flit) (hm : s.memsOk) : (State.forwardTransit s arrival f).memsOk := by
  simp only [State.forwardTransit]; (repeat' split) <;> simp (maxDischargeDepth := 30) +contextual [hm]

@[simp] theorem State.returnCredit_memsOk (s : State) (n : Nat) (h : BitVec 128) (hm : s.memsOk) : (State.returnCredit s n h).memsOk := by
  simp (maxDischargeDepth := 30) +contextual [State.returnCredit, hm]

@[simp] theorem State.releaseCredits_memsOk (s : State) (n : Nat) (hm : s.memsOk) : (State.releaseCredits s n).memsOk := by
  simp (maxDischargeDepth := 30) +contextual [State.releaseCredits, hm]

@[simp] theorem State.deliver_memsOk (s : State) (n : Nat) (f : Flit) (hm : s.memsOk) : (State.deliver s n f).memsOk := by
  simp (maxDischargeDepth := 30) +contextual [State.deliver, hm]

@[simp] theorem State.reroute_memsOk (s : State) (lost : Nat) (f : Flit) (hm : s.memsOk) : (State.reroute s lost f).memsOk := by
  unfold State.reroute; split <;> simp (maxDischargeDepth := 30) +contextual [hm]

@[simp] theorem State.rerouteTransit_memsOk (s : State) (n : Nat) (f : Flit) (hm : s.memsOk) : (State.rerouteTransit s n f).memsOk := by
  unfold State.rerouteTransit; split <;> simp (maxDischargeDepth := 30) +contextual [hm]

@[simp] theorem State.loseLink_memsOk (s : State) (n reason : Nat) (hm : s.memsOk) : (State.loseLink s n reason).memsOk := by
  simp (maxDischargeDepth := 30) +contextual [State.loseLink, hm]

@[simp] theorem State.stageWrite_memsOk (s : State) (die addr : Nat) (bs : List Byte) (hm : s.memsOk) : (State.stageWrite s die addr bs).memsOk := by
  simp (maxDischargeDepth := 30) +contextual [State.stageWrite, hm]

@[simp] theorem State.endDrain_memsOk (s : State) (core : Nat) (rid : Option Nat) (g : Drain) (hm : s.memsOk) : (State.endDrain s core rid g).memsOk
    := by
  simp (maxDischargeDepth := 30) +contextual [State.endDrain, hm]

@[simp] theorem State.flagVec_memsOk (s : State) (core : Nat) (rid : Option Nat) (f : Flags) (hm : s.memsOk) : (State.flagVec s core rid f).memsOk
    := by
  simp (maxDischargeDepth := 30) +contextual [State.flagVec, hm]

@[simp] theorem State.storeRow_memsOk (s : State) (core n : Nat) (c : Ctx) (job : RowJob) (r : List Nat × Flags) (hm : s.memsOk) : (State.storeRow s
    core n c job r).memsOk := by
  simp (maxDischargeDepth := 30) +contextual [State.storeRow, hm]

@[simp] theorem State.noteFold_memsOk (s : State) (core n : Nat) (job : FoldJob) (hm : s.memsOk) : (State.noteFold s core n job).memsOk := by
  unfold State.noteFold; split <;> simp (maxDischargeDepth := 30) +contextual [hm]

@[simp] theorem State.queryBlock_memsOk (s : State) (die core n : Nat) (c : Ctx) (job : FoldJob) (hm : s.memsOk) :
    (s.queryBlock die core n c job).2.memsOk := by
  unfold State.queryBlock; dsimp only; split <;> simp (maxDischargeDepth := 30) +contextual [hm]

@[simp] theorem State.foldJob_memsOk (s : State) (die core n : Nat) (c : Ctx) (job : FoldJob) (hm : s.memsOk) : (State.foldJob s die core n c
    job).memsOk := by
  unfold State.foldJob; extract_lets d rows qr b s1 s2
  have h1 : s1.memsOk := by simp [s1, qr, hm]
  have h2 : s2.memsOk := by
    refine foldl_memsOk _ _ _ (fun s r hs => ?_) h1; dsimp only; (repeat' split) <;> simp (maxDischargeDepth := 30) +contextual [hs]
  split <;> simp (maxDischargeDepth := 30) +contextual [h2]

@[simp] theorem State.sourceBytes_memsOk (s : State) (src : Source) (addr n : Nat) (layer : Option Nat) (hm : s.memsOk) :
    (s.sourceBytes src addr n layer).2.memsOk := by
  unfold State.sourceBytes; (repeat' split) <;> simp [hm]

@[simp] theorem State.portsUp_memsOk (s : State) (ms : List Member) (hm : s.memsOk) : (State.portsUp s ms).memsOk := by
  simp (maxDischargeDepth := 30) +contextual [State.portsUp, hm]

@[simp] theorem State.settleHomes_memsOk (s : State) (homes : List (Nat × Nat)) (later : Bool) (hm : s.memsOk) : (State.settleHomes s homes
    later).memsOk := by
  simp (maxDischargeDepth := 30) +contextual [State.settleHomes, hm]

@[simp] theorem State.takeMeasure_memsOk (s : State) (measure : Option (List Byte)) (hm : s.memsOk) : (State.takeMeasure s measure).memsOk := by
  unfold State.takeMeasure; split <;> simp (maxDischargeDepth := 30) +contextual [hm]

@[simp] theorem State.settleMirror_memsOk (s : State) (hm : s.memsOk) : (State.settleMirror s).memsOk := by
  simp (maxDischargeDepth := 30) +contextual [State.settleMirror, hm]

@[simp] theorem State.rewriteMirror_memsOk (s : State) (hm : s.memsOk) : (State.rewriteMirror s).memsOk := by
  unfold State.rewriteMirror; dsimp only; (repeat' split) <;> simp (maxDischargeDepth := 30) +contextual [hm]

@[simp] theorem State.sendChunk_memsOk (vc : Nat) (h : BitVec 256) (payload : List Byte) (s : State) (dest : Nat) (hm : s.memsOk) : (State.sendChunk
    vc h payload s dest).memsOk := by
  simp (maxDischargeDepth := 30) +contextual [State.sendChunk, hm]

@[simp] theorem State.takeFinal_memsOk (s : State) (c : CollPlan) (h : BitVec 256) (payload : List Byte) (hm : s.memsOk) : (State.takeFinal s c h
    payload).memsOk := by
  simp (maxDischargeDepth := 30) +contextual [State.takeFinal, hm]

@[simp] theorem State.placeChunk_memsOk (s : State) (c : CollPlan) (sender : Nat) (h : BitVec 256) (payload : List Byte) (unit : Nat) (hm :
    s.memsOk) : (State.placeChunk s c sender h payload unit).memsOk := by
  unfold State.placeChunk; split <;> simp (maxDischargeDepth := 30) +contextual [hm]

@[simp] theorem State.landChunk_memsOk (s : State) (sender : Nat) (h : BitVec 256) (payload : List Byte) (unit : Nat) (hm : s.memsOk) :
    (State.landChunk s sender h payload unit).memsOk := by
  unfold State.landChunk; split <;> simp (maxDischargeDepth := 30) +contextual [hm]

@[simp] theorem State.sendResult_memsOk (s : State) (c : CollPlan) (item step chunk : Nat) (ws : List W32) (hm : s.memsOk) : (State.sendResult s c
    item step chunk ws).memsOk := by
  simp (maxDischargeDepth := 30) +contextual [State.sendResult, hm]

@[simp] theorem State.sendOwnChunk_memsOk (c : CollPlan) (item : Nat) (s : State) (chunk : Nat) (hm : s.memsOk) : (State.sendOwnChunk c item s
    chunk).memsOk := by
  unfold State.sendOwnChunk; split <;> simp (maxDischargeDepth := 30) +contextual [hm]

@[simp] theorem State.sendOwn_memsOk (s : State) (c : CollPlan) (p : OwnPart) (hm : s.memsOk) : (State.sendOwn s c p).memsOk := by
  simp (maxDischargeDepth := 30) +contextual [State.sendOwn, hm]

@[simp] theorem State.idle_memsOk (s : State) (hm : s.memsOk) : (State.idle s).memsOk := by
  simp only [State.idle]; (repeat' split) <;> simp (maxDischargeDepth := 30) +contextual [hm]

@[simp] theorem State.consumeChunks_memsOk (s : State) (coll step chunk : Nat) (items : List Nat) (hm : s.memsOk) : (State.consumeChunks s coll step
    chunk items).memsOk := by
  simp (maxDischargeDepth := 30) +contextual [State.consumeChunks, hm]

@[simp] theorem State.updIndex_memsOk (s : State) (id : Nat) (f : VIndex → VIndex) (hm : s.memsOk) : (State.updIndex s id f).memsOk := by
  simp (maxDischargeDepth := 30) +contextual [State.updIndex, hm]

@[simp] theorem State.indexCount_memsOk (s : State) (id ev : Nat) (n : Nat) (hm : s.memsOk) : (State.indexCount s id ev n).memsOk := by
  simp (maxDischargeDepth := 30) +contextual [State.indexCount, hm]

@[simp] theorem State.indexBytes_memsOk (s : State) (n : Nat) (hm : s.memsOk) : (State.indexBytes s n).memsOk := by
  simp (maxDischargeDepth := 30) +contextual [State.indexBytes, hm]

@[simp] theorem State.writeEntry_memsOk (s : State) (id : Nat) (e : SideEnt) (hm : s.memsOk) : (State.writeEntry s id e).memsOk := by
  unfold State.writeEntry; split <;> simp (maxDischargeDepth := 30) +contextual [hm]

@[simp] theorem State.writeNodes_memsOk (s : State) (x : VIndex) (hm : s.memsOk) : (State.writeNodes s x).memsOk := by
  unfold State.writeNodes; split <;> simp (maxDischargeDepth := 30) +contextual [hm]

@[simp] theorem State.writeBook_memsOk (s : State) (x : VIndex) (hm : s.memsOk) : (State.writeBook s x).memsOk := by
  unfold State.writeBook; split <;> simp (maxDischargeDepth := 30) +contextual [hm]

@[simp] theorem State.growTombs_memsOk (id : Nat) (s : State) (lot : Nat) (hm : s.memsOk) : (State.growTombs id s lot).memsOk := by
  unfold State.growTombs; split <;> simp (maxDischargeDepth := 30) +contextual [hm]

@[simp] theorem State.settleTombs_memsOk (s : State) (x : VIndex) (hm : s.memsOk) : (State.settleTombs s x).memsOk := by
  simp (maxDischargeDepth := 30) +contextual [State.settleTombs, hm]

@[simp] theorem State.romWork_memsOk (s : State) (compat : Bool) (hm : s.memsOk) : (State.romWork s compat).memsOk := by
  simp (maxDischargeDepth := 30) +contextual [State.romWork, hm]

@[simp] theorem State.resetToRom_memsOk (s : State) (hm : s.memsOk) : (State.resetToRom s).memsOk := by
  simp (maxDischargeDepth := 30) +contextual [State.resetToRom, hm]

@[simp] theorem State.inputLost_memsOk (s : State) (sup : Supply) (vin : BitVec 16) (hm : s.memsOk) : (State.inputLost s sup vin).memsOk := by
  simp (maxDischargeDepth := 30) +contextual [State.inputLost, hm]

@[simp] theorem State.writeSnapHold_memsOk (s : State) (p : Nat) (hold : Bool) (hm : s.memsOk) : (State.writeSnapHold s p hold).memsOk := by
  simp (maxDischargeDepth := 30) +contextual [State.writeSnapHold, hm]

@[simp] theorem State.writeTmux_memsOk (s : State) (v m : W64) (hm : s.memsOk) : (State.writeTmux s v m).memsOk := by
  simp (maxDischargeDepth := 30) +contextual [State.writeTmux, hm]

@[simp] theorem State.clearLinkStatus_memsOk (s : State) (n : Nat) (v : W64) (hm : s.memsOk) : (State.clearLinkStatus s n v).memsOk := by
  simp (maxDischargeDepth := 30) +contextual [State.clearLinkStatus, hm]

@[simp] theorem State.clearHostErr_memsOk (s : State) (p : Nat) (v : W64) (hm : s.memsOk) : (State.clearHostErr s p v).memsOk := by
  simp (maxDischargeDepth := 30) +contextual [State.clearHostErr, hm]

@[simp] theorem State.writeMailbox_memsOk (s : State) (p off : Nat) (v m : W64) (hm : s.memsOk) : (State.writeMailbox s p off v m).memsOk := by
  simp (maxDischargeDepth := 30) +contextual [State.writeMailbox, hm]

@[simp] theorem State.writeMsix_memsOk (s : State) (p vec half : Nat) (v m : W64) (hm : s.memsOk) : (State.writeMsix s p vec half v m).memsOk := by
  simp (maxDischargeDepth := 30) +contextual [State.writeMsix, hm]

@[simp] theorem State.writeQueue_memsOk (s : State) (p qid off : Nat) (v m : W64) (hm : s.memsOk) : (State.writeQueue s p qid off v m).memsOk := by
  simp (maxDischargeDepth := 30) +contextual [State.writeQueue, hm]

@[simp] theorem State.ringSq_memsOk (s : State) (p qid : Nat) (v : W32) (hm : s.memsOk) : (State.ringSq s p qid v).memsOk := by
  simp (maxDischargeDepth := 30) +contextual [State.ringSq, hm]

@[simp] theorem State.ringCq_memsOk (s : State) (p qid : Nat) (v : W32) (hm : s.memsOk) : (State.ringCq s p qid v).memsOk := by
  simp (maxDischargeDepth := 30) +contextual [State.ringCq, hm]

@[simp] theorem State.bar0Write_memsOk (s : State) (p off size : Nat) (v : W64) (hm : s.memsOk) : (State.bar0Write s p off size v).memsOk := by
  unfold State.bar0Write; dsimp only
  repeat' with_reducible first
    | exact hm | apply ite_keep | apply State.resetToRom_memsOk | apply State.clearHostErr_memsOk | apply State.writeSnapHold_memsOk
    | apply State.writeTmux_memsOk | apply State.clearLinkStatus_memsOk | apply State.writeMailbox_memsOk | apply State.writeMsix_memsOk
    | apply State.writeQueue_memsOk | apply State.ringCq_memsOk | apply State.ringSq_memsOk

@[simp] theorem State.startMailbox_memsOk (s : State) (result : Byte) (units off : Nat) (data : List Byte) (hm : s.memsOk) : (State.startMailbox s
    result units off data).memsOk := by
  simp (maxDischargeDepth := 30) +contextual [State.startMailbox, hm]

@[simp] theorem State.arrive_memsOk (s : State) (p qid : Nat) (e : Entry) (hm : s.memsOk) : (State.arrive s p qid e).memsOk := by
  simp (maxDischargeDepth := 30) +contextual [State.arrive, hm]

@[simp] theorem State.stageCmd_memsOk (s : State) (rid : Nat) (hm : s.memsOk) : (State.stageCmd s rid).memsOk := by
  simp (maxDischargeDepth := 30) +contextual [State.stageCmd, hm]

@[simp] theorem State.holdCmd_memsOk (s : State) (rid : Nat) (hm : s.memsOk) : (State.holdCmd s rid).memsOk := by
  simp (maxDischargeDepth := 30) +contextual [State.holdCmd, hm]

@[simp] theorem State.readData_memsOk (s : State) (r : Req) (n : Nat) (data : HostRead) (f : List Byte → State → State)
    (hm : s.memsOk) (hf : ∀ bs t, t.memsOk → (f bs t).memsOk) : (s.readData r n data f).memsOk := by
  unfold State.readData; split
  · simp (maxDischargeDepth := 30) +contextual [hm]
  · refine hf _ _ ?_; simp (maxDischargeDepth := 30) +contextual [hm]

@[simp] theorem State.appendTokens_memsOk (s : State) (r : Req) (data : HostRead) (hm : s.memsOk) : (State.appendTokens s r data).memsOk := by
  unfold State.appendTokens; refine State.readData_memsOk _ _ _ _ _ hm (fun bs t ht => ?_); (repeat' split) <;> simp (maxDischargeDepth := 30) +contextual [ht]

@[simp] theorem State.writeWeights_memsOk (s : State) (r : Req) (bs : List Byte) (hm : s.memsOk) : (State.writeWeights s r bs).memsOk := by
  simp (maxDischargeDepth := 30) +contextual [State.writeWeights, hm]

@[simp] theorem State.loadBlocks_memsOk (s : State) (r : Req) (bs : List Byte) (hm : s.memsOk) : (State.loadBlocks s r bs).memsOk := by
  simp (maxDischargeDepth := 30) +contextual [State.loadBlocks, hm]

@[simp] theorem State.onIndex_memsOk (s : State) (r : Req) (f : VIndex → State) (hm : s.memsOk) (hf : ∀ x, (f x).memsOk) :
    (s.onIndex r f).memsOk := by
  unfold State.onIndex; split
  · simp (maxDischargeDepth := 30) +contextual [hm]
  · split
    · simp (maxDischargeDepth := 30) +contextual [hm]
    · split <;> simp (maxDischargeDepth := 30) +contextual [hf, hm]

@[simp] theorem State.grant_memsOk (s : State) (die n : Nat) (r : StreamReq) (hm : s.memsOk) : (State.grant s die n r).memsOk := by
  unfold State.grant; dsimp only; (repeat' split) <;> simp (maxDischargeDepth := 30) +contextual [hm]

@[simp] theorem State.readRecord_memsOk (s : State) (ch : Nat) (r : Nat × Nat) (hm : s.memsOk) : (State.readRecord s ch r).memsOk := by
  simp (maxDischargeDepth := 30) +contextual [State.readRecord, hm]

@[simp] theorem State.grantTo_memsOk (s : State) (point : ArbPoint) (e : Nat × Nat) (hm : s.memsOk) : (State.grantTo s point e).memsOk := by
  unfold State.grantTo; dsimp only; (repeat' split) <;> simp (maxDischargeDepth := 30) +contextual [hm]

@[simp] theorem State.losePage_memsOk (s : State) (r : Option (Bool × Nat)) (stack : Option Nat) (hm : s.memsOk) : (State.losePage s r stack).memsOk
    := by
  unfold State.losePage; split <;> simp (maxDischargeDepth := 30) +contextual [hm]

@[simp] theorem State.loseOne_memsOk (s : State) (h : W32) (v : Nat) (hm : s.memsOk) : (State.loseOne s h v).memsOk := by
  unfold State.loseOne; split <;> simp (maxDischargeDepth := 30) +contextual [hm]

@[simp] theorem State.dropCorrupt_memsOk (s : State) (n : Nat) (hm : s.memsOk) : (State.dropCorrupt s n).memsOk := by
  simp (maxDischargeDepth := 30) +contextual [State.dropCorrupt, hm]

@[simp] theorem State.checkSlots_memsOk (s : State) (hm : s.memsOk) : (State.checkSlots s).memsOk := by
  simp (maxDischargeDepth := 30) +contextual [State.checkSlots, hm]

@[simp] theorem State.tickPin_memsOk (s : State) (r : Bool × Nat) (hm : s.memsOk) : (State.tickPin s r).memsOk := by
  simp (maxDischargeDepth := 30) +contextual [State.tickPin, hm]

@[simp] theorem State.walkPage_memsOk (s : State) (die ctx stream : Nat) (q : Seq) (w : WalkAsk) (v dst staged : Nat) (hm : s.memsOk) :
    (State.walkPage s die ctx stream q w v dst staged).memsOk := by
  unfold State.walkPage; dsimp only; (repeat' split) <;> simp (maxDischargeDepth := 30) +contextual [hm]

@[simp] theorem State.walkNext_memsOk (die ctx stream : Nat) (seq : W32) (w : WalkAsk) (dst after : Nat) (s : State) (p : Nat × Nat) (hm : s.memsOk)
    : (State.walkNext die ctx stream seq w dst after s p).memsOk := by
  unfold State.walkNext; split <;> simp (maxDischargeDepth := 30) +contextual [hm]

@[simp] theorem State.writePage_memsOk (s : State) (x : PageSite) (off : Nat) (bs : List Byte) (hm : s.memsOk) : (State.writePage s x off bs).memsOk
    := by
  unfold State.writePage; split <;> simp (maxDischargeDepth := 30) +contextual [hm]

@[simp] theorem State.setSideOf_memsOk (s : State) (x : PageSite) (b : Nat) (hm : s.memsOk) : (State.setSideOf s x b).memsOk := by
  unfold State.setSideOf; split <;> simp (maxDischargeDepth := 30) +contextual [hm]

@[simp] theorem State.setFill_memsOk (s : State) (x : PageSite) (n : Nat) (hm : s.memsOk) : (State.setFill s x n).memsOk := by
  unfold State.setFill; split <;> simp (maxDischargeDepth := 30) +contextual [hm]

@[simp] theorem State.writeElem_memsOk (s : State) (x : PageSite) (fmt base index code : Nat) (hm : s.memsOk) : (State.writeElem s x fmt base index
    code).memsOk := by
  simp (maxDischargeDepth := 30) +contextual [State.writeElem, hm]

@[simp] theorem State.writeExp_memsOk (s : State) (x : PageSite) (byte v : Nat) (hm : s.memsOk) : (State.writeExp s x byte v).memsOk := by
  simp (maxDischargeDepth := 30) +contextual [State.writeExp, hm]

@[simp] theorem State.writeKey_memsOk (s : State) (core : Nat) (x : PageSite) (i : Nat) (key : List Nat) (sK : Nat) (g : Drain)
    (hm : s.memsOk) : (s.writeKey core x i key sK g).1.memsOk := by
  unfold State.writeKey; dsimp only; refine foldl_fst_memsOk _ _ _ (fun a b ha => ?_) hm; dsimp only; split <;> simp (maxDischargeDepth := 30) +contextual [ha]

@[simp] theorem State.writeVal_memsOk (s : State) (core : Nat) (x : PageSite) (i : Nat) (val : List Nat) (sV : Nat) (g : Drain)
    (hm : s.memsOk) : (s.writeVal core x i val sV g).1.memsOk := by
  unfold State.writeVal; dsimp only; (repeat' split) <;> simp (maxDischargeDepth := 30) +contextual [hm]

@[simp] theorem State.sealPage_memsOk (s : State) (x : PageSite) (q : Seq) (layer head run : Nat) (hm : s.memsOk) : (State.sealPage s x q layer head
    run).memsOk := by
  simp (maxDischargeDepth := 30) +contextual [State.sealPage, hm]

@[simp] theorem State.writePosition_memsOk (s : State) (core rid : Nat) (x : PageSite) (q : Seq) (layer head pos : Nat) (key val : List W32) (sK sV
    : W32) (hm : s.memsOk) : (State.writePosition s core rid x q layer head pos key val sK sV).memsOk := by
  simp (maxDischargeDepth := 30) +contextual [State.writePosition, hm]

@[simp] theorem State.putPosition_memsOk (s : State) (core rid : Nat) (x : PageSite) (q : Seq) (layer head pos : Nat) (key val : List W32) (sK sV :
    W32) (hm : s.memsOk) : (State.putPosition s core rid x q layer head pos key val sK sV).memsOk := by
  unfold State.putPosition; split <;> simp (maxDischargeDepth := 30) +contextual [hm]

@[simp] theorem State.flashWrite_memsOk (s : State) (frame : Nat) (data : List Byte) (side : Nat) (hm : s.memsOk) : (State.flashWrite s frame data
    side).memsOk := by
  simp (maxDischargeDepth := 30) +contextual [State.flashWrite, hm]

@[simp] theorem State.noteSpill_memsOk (s : State) (f g : Nat) (hm : s.memsOk) : (State.noteSpill s f g).memsOk := by
  simp (maxDischargeDepth := 30) +contextual [State.noteSpill, hm]

@[simp] theorem State.noteCleaned_memsOk (s : State) (f g : Nat) (hm : s.memsOk) : (State.noteCleaned s f g).memsOk := by
  simp (maxDischargeDepth := 30) +contextual [State.noteCleaned, hm]

@[simp] theorem State.cleanDone_memsOk (s : State) (f g : Nat) (hm : s.memsOk) : (State.cleanDone s f g).memsOk := by
  simp (maxDischargeDepth := 30) +contextual [State.cleanDone, hm]

@[simp] theorem State.markFailed_memsOk (s : State) (c : CopyId) (hm : s.memsOk) : (State.markFailed s c).memsOk := by
  simp (maxDischargeDepth := 30) +contextual [State.markFailed, hm]

@[simp] theorem State.failBlock_memsOk (s : State) (c : CopyId) (b kind num : Nat) (hm : s.memsOk) : (State.failBlock s c b kind num).memsOk := by
  simp (maxDischargeDepth := 30) +contextual [State.failBlock, hm]

@[simp] theorem State.leak_memsOk (s : State) (es : List W64) (hm : s.memsOk) : (State.leak s es).memsOk := by
  simp (maxDischargeDepth := 30) +contextual [State.leak, hm]

@[simp] theorem State.failReserve_memsOk (s : State) (f : Nat) (hm : s.memsOk) : (State.failReserve s f).memsOk := by
  simp (maxDischargeDepth := 30) +contextual [State.failReserve, hm]

@[simp] theorem State.failHbm_memsOk (s : State) (f : Nat) (hm : s.memsOk) : (State.failHbm s f).memsOk := by
  unfold State.failHbm; dsimp only; (repeat' split) <;> simp (maxDischargeDepth := 30) +contextual [hm]

@[simp] theorem State.refreshRow_memsOk (s : State) (stack row ev : Nat) (hm : s.memsOk) : (State.refreshRow s stack row ev).memsOk := by
  simp (maxDischargeDepth := 30) +contextual [State.refreshRow, hm]

@[simp] theorem State.updBlock_memsOk (s : State) (b : Nat) (f : NandBlock → NandBlock) (hm : s.memsOk) : (State.updBlock s b f).memsOk := by
  simp (maxDischargeDepth := 30) +contextual [State.updBlock, hm]

@[simp] theorem State.failWeight_memsOk (s : State) (i ch : Nat) (hm : s.memsOk) : (State.failWeight s i ch).memsOk := by
  simp (maxDischargeDepth := 30) +contextual [State.failWeight, hm]

@[simp] theorem State.failFlash_memsOk (s : State) (f ch : Nat) (hm : s.memsOk) : (State.failFlash s f ch).memsOk := by
  unfold State.failFlash; dsimp only; (repeat' split) <;> simp (maxDischargeDepth := 30) +contextual [hm]

@[simp] theorem State.moveBlock_memsOk (s : State) (b : Nat) (dst : Option Nat) (ev : Option Nat) (hm : s.memsOk) : (State.moveBlock s b dst
    ev).memsOk := by
  unfold State.moveBlock; dsimp only; (repeat' split) <;> simp (maxDischargeDepth := 30) +contextual [hm]

@[simp] theorem State.eraseBlock_memsOk (s : State) (b : Nat) (hm : s.memsOk) : (State.eraseBlock s b).memsOk := by
  simp (maxDischargeDepth := 30) +contextual [State.eraseBlock, hm]

@[simp] theorem State.updSearch_memsOk (s : State) (slot : Nat) (f : Search → Search) (hm : s.memsOk) : (State.updSearch s slot f).memsOk := by
  simp (maxDischargeDepth := 30) +contextual [State.updSearch, hm]

@[simp] theorem State.loseSide_memsOk (s : State) (id : Nat) (frames : List Nat) (hm : s.memsOk) : (State.loseSide s id frames).memsOk := by
  unfold State.loseSide; split <;> simp (maxDischargeDepth := 30) +contextual [hm]

@[simp] theorem State.countScan_memsOk (s : State) (side : List SideEnt) (hm : s.memsOk) : (State.countScan s side).memsOk := by
  simp (maxDischargeDepth := 30) +contextual [State.countScan, hm]

@[simp] theorem State.assemble_memsOk (s : State) (slot : Nat) (x : Search) (lost : List Nat) (hm : s.memsOk) : (State.assemble s slot x
    lost).memsOk := by
  unfold State.assemble; split <;> simp (maxDischargeDepth := 30) +contextual [hm]

@[simp] theorem State.undoSeq_memsOk (s : State) (h : W32) (hm : s.memsOk) : (State.undoSeq s h).memsOk := by
  simp (maxDischargeDepth := 30) +contextual [State.undoSeq, hm]

@[simp] theorem State.undoReq_memsOk (s : State) (r : Req) (hm : s.memsOk) : (State.undoReq s r).memsOk := by
  simp (maxDischargeDepth := 30) +contextual [State.undoReq, hm]

@[simp] theorem State.abortReq_memsOk (s : State) (r : Req) (hm : s.memsOk) : (State.abortReq s r).memsOk := by
  simp (maxDischargeDepth := 30) +contextual [State.abortReq, hm]

@[simp] theorem State.applyAbort_memsOk (s : State) (x : Req) (hm : s.memsOk) : (State.applyAbort s x).memsOk := by
  unfold State.applyAbort; split <;> simp (maxDischargeDepth := 30) +contextual [hm]

@[simp] theorem State.commitAborts_memsOk (s : State) (hm : s.memsOk) : (State.commitAborts s).memsOk := by
  simp (maxDischargeDepth := 30) +contextual [State.commitAborts, hm]

@[simp] theorem State.stageFlush_memsOk (t : Nat) (s : State) (n : Nat) (hm : s.memsOk) : (State.stageFlush t s n).memsOk := by
  simp (maxDischargeDepth := 30) +contextual [State.stageFlush, hm]

@[simp] theorem State.stageRebuilt_memsOk (t : Nat) (s : State) (m : MoveChoice) (hm : s.memsOk) : (State.stageRebuilt t s m).memsOk := by
  unfold State.stageRebuilt; split <;> simp (maxDischargeDepth := 30) +contextual [hm]

@[simp] theorem State.countRebuilt_memsOk (s before : State) (ms : List MoveChoice) (hm : s.memsOk) : (State.countRebuilt s before ms).memsOk := by
  simp (maxDischargeDepth := 30) +contextual [State.countRebuilt, hm]

@[simp] theorem State.commitClean_memsOk (t : Nat) (s : State) (c : Nat × Nat) (hm : s.memsOk) : (State.commitClean t s c).memsOk := by
  simp (maxDischargeDepth := 30) +contextual [State.commitClean, hm]

@[simp] theorem State.moveToFlash_memsOk (t : Nat) (s : State) (f g : Nat) (hm : s.memsOk) : (State.moveToFlash t s f g).memsOk := by
  simp (maxDischargeDepth := 30) +contextual [State.moveToFlash, hm]

@[simp] theorem State.maskLost_memsOk (t : Nat) (s : State) (hm : s.memsOk) : (State.maskLost t s).memsOk := by
  simp (maxDischargeDepth := 30) +contextual [State.maskLost, hm]

@[simp] theorem State.dropFlashCopy_memsOk (t g : Nat) (s : State) (f : Nat) (hm : s.memsOk) : (State.dropFlashCopy t g s f).memsOk := by
  simp (maxDischargeDepth := 30) +contextual [State.dropFlashCopy, hm]

@[simp] theorem State.commitFailed_memsOk (s : State) (t : Nat) (hm : s.memsOk) : (State.commitFailed s t).memsOk := by
  unfold State.commitFailed; refine State.maskLost_memsOk _ _ (foldl_memsOk _ _ _ (fun s b hs => ?_) hm)
  (repeat' split) <;> simp (maxDischargeDepth := 30) +contextual [hs]

@[simp] theorem State.retireSuspects_memsOk (s : State) (hm : s.memsOk) : (State.retireSuspects s).memsOk := by
  simp (maxDischargeDepth := 30) +contextual [State.retireSuspects, hm]

@[simp] theorem Weights.remapTo_data (w : Weights) (b : Nat) (f : Option Nat) : (w.remapTo b f).data = w.data := by cases f <;> rfl

@[simp] theorem Weights.remapTo_mirror (w : Weights) (b : Nat) (f : Option Nat) : (w.remapTo b f).mirror = w.mirror := by cases f <;> rfl

@[simp] theorem State.repairFlash_memsOk (s : State) (frame : Nat) (hm : s.memsOk) : (State.repairFlash s frame).memsOk := by
  simp (maxDischargeDepth := 30) +contextual [State.repairFlash, hm]

@[simp] theorem State.remapFrame_memsOk (s : State) (b : Nat) (f : Option Nat) (hm : s.memsOk) : (State.remapFrame s b f).memsOk := by
  obtain ⟨w, h, h1, h2⟩ : ∃ w, State.remapFrame s b f = { s with wt := w } ∧ w.data = s.wt.data ∧ w.mirror = s.wt.mirror :=
    ⟨_, rfl, Weights.remapTo_data _ _ _, Weights.remapTo_mirror _ _ _⟩
  rw [h]; simp [h1, h2, hm]

@[simp] theorem State.repairAt_memsOk (s : State) (frame : Option Nat) (hm : s.memsOk) : (State.repairAt s frame).memsOk := by
  cases frame
  · exact hm
  · exact State.repairFlash_memsOk _ _ hm

@[simp] theorem State.repairCopy_memsOk (s : State) (c : CopyId) (hm : s.memsOk) : (State.repairCopy s c).memsOk := by
  unfold State.repairCopy; split
  · exact State.remapFrame_memsOk _ _ _ hm
  · exact State.repairAt_memsOk _ _ hm

@[simp] theorem State.commitRepairs_memsOk (s : State) (hm : s.memsOk) : (State.commitRepairs s).memsOk := by
  simp (maxDischargeDepth := 30) +contextual [State.commitRepairs, hm]

@[simp] theorem State.sealPartial_memsOk (s : State) (n : Nat) (hm : s.memsOk) : (State.sealPartial s n).memsOk := by
  simp (maxDischargeDepth := 30) +contextual [State.sealPartial, hm]

@[simp] theorem State.flushPartial_memsOk (t : Nat) (a : State × List (Nat × W64)) (n : Nat) (hm : a.1.memsOk) :
    (State.flushPartial t a n).1.memsOk := by
  simp (maxDischargeDepth := 30) +contextual [State.flushPartial, hm]

@[simp] theorem State.sealFrame_memsOk (t : Nat) (q : Seq) (r fill : Nat) (s : State) (x : Nat × W64) (hm : s.memsOk) : (State.sealFrame t q r fill
    s x).memsOk := by
  simp (maxDischargeDepth := 30) +contextual [State.sealFrame, hm]

@[simp] theorem State.finishClose_memsOk (t : Nat) (s : State) (q : Seq) (hm : s.memsOk) : (State.finishClose t s q).memsOk := by
  simp (maxDischargeDepth := 30) +contextual [State.finishClose, hm]

@[simp] theorem State.copyStaging_memsOk (s : State) (src dst : Nat) (hm : s.memsOk) : (State.copyStaging s src dst).memsOk := by
  obtain ⟨l, h, hl⟩ : ∃ l, State.copyStaging s src dst = { s with land := l } ∧ l.data = s.land.data ∧ l.queue = s.land.queue := ⟨_, rfl, rfl, rfl⟩
  rw [h]; simp [hl.1, hl.2, hm]

@[simp] theorem State.forkToSlot_memsOk (s : State) (child : W32) (fill n m part frame : Nat) (bytes : List Byte) (hm : s.memsOk) :
    (State.forkToSlot s child fill n m part frame bytes).memsOk := by
  simp (maxDischargeDepth := 30) +contextual [State.forkToSlot, hm]

@[simp] theorem State.forkToFrame_memsOk (t : Nat) (s : State) (child : W32) (fill n frame : Nat) (bytes : List Byte) (hm : s.memsOk) :
    (State.forkToFrame t s child fill n frame bytes).memsOk := by
  simp (maxDischargeDepth := 30) +contextual [State.forkToFrame, hm]

@[simp] theorem State.forkWith_memsOk (t : Nat) (s : State) (child : W32) (fill n : Nat) (bytes : List Byte) (here : Option Nat) (seat : Option (Nat
    × Nat)) (any : Option Nat) (hm : s.memsOk) : (State.forkWith t s child fill n bytes here seat any).memsOk := by
  unfold State.forkWith; split <;> simp (maxDischargeDepth := 30) +contextual [hm]

@[simp] theorem State.forkSlot_memsOk (t : Nat) (child : W32) (fill : Nat) (s : State) (n : Nat) (hm : s.memsOk) : (State.forkSlot t child fill s
    n).memsOk := by
  simp (maxDischargeDepth := 30) +contextual [State.forkSlot, hm]

@[simp] theorem State.copyForks_memsOk (t p : Nat) (child : W32) (s : State) (ns : List Nat) (hm : s.memsOk) : (State.copyForks t p child s
    ns).memsOk := by
  simp (maxDischargeDepth := 30) +contextual [State.copyForks, hm]

@[simp] theorem State.commitFork_memsOk (t : Nat) (s : State) (f : Nat × W32 × Nat × W32) (hm : s.memsOk) : (State.commitFork t s f).memsOk := by
  simp (maxDischargeDepth := 30) +contextual [State.commitFork, hm]

@[simp] theorem State.commitQsketch_memsOk (s : State) (hm : s.memsOk) : (State.commitQsketch s).memsOk := by
  unfold State.commitQsketch; refine foldl_memsOk _ _ _ (fun s b hs => ?_) ?_
  · (repeat' split) <;> simp (maxDischargeDepth := 30) +contextual [hs]
  · simp (maxDischargeDepth := 30) +contextual [hm]

@[simp] theorem State.commitWrites_memsOk (s : State) (t : Nat) (hm : s.memsOk) : (State.commitWrites s t).memsOk := by
  simp (maxDischargeDepth := 30) +contextual [State.commitWrites, hm]

@[simp] theorem State.dropTails_memsOk (s : State) (m : W32 × Nat × Nat) (hm : s.memsOk) : (State.dropTails s m).memsOk := by
  simp (maxDischargeDepth := 30) +contextual [State.dropTails, hm]

@[simp] theorem State.commitLists_memsOk (s : State) (t : Nat) (full : List Nat) (hm : s.memsOk) : (State.commitLists s t full).memsOk := by
  simp (maxDischargeDepth := 30) +contextual [State.commitLists, hm]

@[simp] theorem State.repin_memsOk (t : Nat) (s : State) (q : Seq) (hm : s.memsOk) : (State.repin t s q).memsOk := by
  simp (maxDischargeDepth := 30) +contextual [State.repin, hm]

@[simp] theorem State.repinAll_memsOk (s : State) (t : Nat) (hm : s.memsOk) : (State.repinAll s t).memsOk := by
  simp (maxDischargeDepth := 30) +contextual [State.repinAll, hm]

@[simp] theorem State.commitPages_memsOk (s : State) (t : Nat) (hm : s.memsOk) : (State.commitPages s t).memsOk := by
  simp (maxDischargeDepth := 30) +contextual [State.commitPages, hm]

@[simp] theorem State.releaseHbm_memsOk (s : State) (f : Nat) (hm : s.memsOk) : (State.releaseHbm s f).memsOk := by
  unfold State.releaseHbm; dsimp only; (repeat' split) <;> simp (maxDischargeDepth := 30) +contextual [hm]

@[simp] theorem State.releaseFlash_memsOk (s : State) (f : Nat) (hm : s.memsOk) : (State.releaseFlash s f).memsOk := by
  simp (maxDischargeDepth := 30) +contextual [State.releaseFlash, hm]

@[simp] theorem State.commitReleases_memsOk (s : State) (hm : s.memsOk) : (State.commitReleases s).memsOk := by
  simp (maxDischargeDepth := 30) +contextual [State.commitReleases, hm]

@[simp] theorem State.applyOpen_memsOk (s : State) (r : Req) (hm : s.memsOk) : (State.applyOpen s r).memsOk := by
  unfold State.applyOpen; split <;> simp (maxDischargeDepth := 30) +contextual [hm]

@[simp] theorem State.applyFork_memsOk (s : State) (r : Req) (q : Seq) (hm : s.memsOk) : (State.applyFork s r q).memsOk := by
  unfold State.applyFork; dsimp only; (repeat' split) <;> simp (maxDischargeDepth := 30) +contextual [hm]

@[simp] theorem State.applyWork_memsOk (s : State) (t : Nat) (r : Req) (hold : Bool) (hm : s.memsOk) : (State.applyWork s t r hold).memsOk := by
  simp (maxDischargeDepth := 30) +contextual [State.applyWork, hm]

@[simp] theorem State.onSeq_memsOk (s : State) (r : Req) (f : Seq → State) (hm : s.memsOk) (hf : ∀ q, (f q).memsOk) :
    (s.onSeq r f).memsOk := by
  unfold State.onSeq; split
  · simp (maxDischargeDepth := 30) +contextual [hm]
  · split <;> simp (maxDischargeDepth := 30) +contextual [hf, hm]

@[simp] theorem State.applyClose_memsOk (s : State) (r : Req) (hm : s.memsOk) : (State.applyClose s r).memsOk := by
  unfold State.applyClose; split <;> simp (maxDischargeDepth := 30) +contextual [hm]

@[simp] theorem State.noteWritten_memsOk (s : State) (first n : Nat) (hm : s.memsOk) : (State.noteWritten s first n).memsOk := by
  simp (maxDischargeDepth := 30) +contextual [State.noteWritten, hm]

@[simp] theorem State.applyLoad_memsOk (s : State) (r : Req) (hm : s.memsOk) : (State.applyLoad s r).memsOk := by
  simp (maxDischargeDepth := 30) +contextual [State.applyLoad, hm]

@[simp] theorem State.applyQuota_memsOk (s : State) (r : Req) (hm : s.memsOk) : (State.applyQuota s r).memsOk := by
  simp (maxDischargeDepth := 30) +contextual [State.applyQuota, hm]

@[simp] theorem State.applyRemote_memsOk (s : State) (r : Req) (hm : s.memsOk) : (State.applyRemote s r).memsOk := by
  simp (maxDischargeDepth := 30) +contextual [State.applyRemote, hm]

@[simp] theorem State.applyInsert_memsOk (s : State) (t : Nat) (r : Req) (hm : s.memsOk) : (State.applyInsert s t r).memsOk := by
  unfold State.applyInsert; split <;> simp (maxDischargeDepth := 30) +contextual [hm]

@[simp] theorem State.applyDelete_memsOk (s : State) (t : Nat) (r : Req) (hm : s.memsOk) : (State.applyDelete s t r).memsOk := by
  unfold State.applyDelete; dsimp only; (repeat' split) <;> simp (maxDischargeDepth := 30) +contextual [hm]

@[simp] theorem State.applyDrain_memsOk (s : State) (r : Req) (hm : s.memsOk) : (State.applyDrain s r).memsOk := by
  simp (maxDischargeDepth := 30) +contextual [State.applyDrain, hm]

@[simp] theorem State.applyCmd_memsOk (t : Nat) (hold : Bool) (s : State) (x : Req) (hm : s.memsOk) : (State.applyCmd t hold s x).memsOk := by
  unfold State.applyCmd; split
  · exact hm
  · repeat' with_reducible first
    | exact hm | apply ite_keep | apply State.applyOpen_memsOk | exact State.onSeq_memsOk _ _ _ hm (fun _ => State.applyWork_memsOk _ _ _ _ hm)
    | exact State.onSeq_memsOk _ _ _ hm (fun q => State.applyFork_memsOk _ _ q hm) | apply State.applyClose_memsOk
    | apply State.applyLoad_memsOk | apply State.applyQuota_memsOk | apply State.applyInsert_memsOk | apply State.applyDelete_memsOk
    | apply State.applyRemote_memsOk | apply State.applyDrain_memsOk | apply State.updReq_memsOk
    exact hm

@[simp] theorem State.endLost_memsOk (s : State) (hm : s.memsOk) : (State.endLost s).memsOk := by
  simp (maxDischargeDepth := 30) +contextual [State.endLost, hm]

@[simp] theorem State.commitCmds_memsOk (s : State) (t : Nat) (hold : Bool) (hm : s.memsOk) : (State.commitCmds s t hold).memsOk := by
  simp (maxDischargeDepth := 30) +contextual [State.commitCmds, hm]

@[simp] theorem State.recordGens_memsOk (s : State) (t : Nat) (hm : s.memsOk) : (State.recordGens s t).memsOk := by
  simp (maxDischargeDepth := 30) +contextual [State.recordGens, hm]

@[simp] theorem State.raisePorts_memsOk (s : State) (x : EdgeInput) (hm : s.memsOk) : (State.raisePorts s x).memsOk := by
  simp (maxDischargeDepth := 30) +contextual [State.raisePorts, hm]

@[simp] theorem State.commitTables_memsOk (s : State) (t : Nat) (x : EdgeInput) (hm : s.memsOk) : (State.commitTables s t x).memsOk := by
  simp (maxDischargeDepth := 30) +contextual [State.commitTables, hm]

@[simp] theorem State.restartRounds_memsOk (s : State) (hm : s.memsOk) : (State.restartRounds s).memsOk := by
  simp (maxDischargeDepth := 30) +contextual [State.restartRounds, hm]

@[simp] theorem State.admitModules_memsOk (s : State) (ms : List (Nat × W64 × Nat)) (hm : s.memsOk) : (State.admitModules s ms).memsOk := by
  simp (maxDischargeDepth := 30) +contextual [State.admitModules, hm]

@[simp] theorem State.depart_memsOk (s : State) (hm : s.memsOk) : (State.depart s).memsOk := by
  simp (maxDischargeDepth := 30) +contextual [State.depart, hm]

@[simp] theorem State.dropMembers_memsOk (s : State) (cs : List Nat) (hm : s.memsOk) : (State.dropMembers s cs).memsOk := by
  simp (maxDischargeDepth := 30) +contextual [State.dropMembers, hm]

@[simp] theorem State.commitCrew_memsOk (s : State) (x : EdgeInput) (next : Nat) (hm : s.memsOk) : (State.commitCrew s x next).memsOk := by
  simp (maxDischargeDepth := 30) +contextual [State.commitCrew, hm]

@[simp] theorem State.takeReturned_memsOk (s : State) (x : Returned) (hm : s.memsOk) : (State.takeReturned s x).memsOk := by
  simp (maxDischargeDepth := 30) +contextual [State.takeReturned, hm]

@[simp] theorem State.settleWork_memsOk (s : State) (hm : s.memsOk) : (State.settleWork s).memsOk := by
  simp (maxDischargeDepth := 30) +contextual [State.settleWork, hm]

@[simp] theorem State.writeOutput_memsOk (t : Nat) (s : State) (r : Req) (hm : s.memsOk) : (State.writeOutput t s r).memsOk := by
  simp (maxDischargeDepth := 30) +contextual [State.writeOutput, hm]

@[simp] theorem State.writeResult_memsOk (s : State) (r : Req) (hm : s.memsOk) : (State.writeResult s r).memsOk := by
  simp (maxDischargeDepth := 30) +contextual [State.writeResult, hm]

@[simp] theorem State.complete_memsOk (t : Nat) (bad : List Nat) (s : State) (r : Req) (hm : s.memsOk) : (State.complete t bad s r).memsOk := by
  simp (maxDischargeDepth := 30) +contextual [State.complete, hm]

@[simp] theorem State.commitResults_memsOk (s : State) (t : Nat) (x : EdgeInput) (bad : List Nat) (hm : s.memsOk) : (State.commitResults s t x
    bad).memsOk := by
  simp (maxDischargeDepth := 30) +contextual [State.commitResults, hm]

@[simp] theorem State.retireSlots_memsOk (gone : List Nat) (spec : List (Nat × Nat × Nat)) (s : State) (core : Nat) (hm : s.memsOk) :
    (State.retireSlots gone spec s core).memsOk := by
  simp (maxDischargeDepth := 30) +contextual [State.retireSlots, hm]

@[simp] theorem State.wasteSlots_memsOk (s : State) (core : Nat) (hm : s.memsOk) : (State.wasteSlots s core).memsOk := by
  simp (maxDischargeDepth := 30) +contextual [State.wasteSlots, hm]

@[simp] theorem State.latchCounters_memsOk (s : State) (t : Nat) (hm : s.memsOk) : (State.latchCounters s t).memsOk := by
  simp (maxDischargeDepth := 30) +contextual [State.latchCounters, hm]

@[simp] theorem State.commit_memsOk (s : State) (t : Nat) (hold : Bool) (x : EdgeInput) (bad : List Nat) (next : Nat) (hm : s.memsOk) :
    (State.commit s t hold x bad next).memsOk := by
  simp (maxDischargeDepth := 30) +contextual [State.commit, hm]

@[simp] theorem State.withoutPorts_memsOk (s : State) (hm : s.memsOk) : (State.withoutPorts s).memsOk := by
  simp (maxDischargeDepth := 30) +contextual [State.withoutPorts, hm]

@[simp] theorem State.startMerges_memsOk (s : State) (t : Nat) (hm : s.memsOk) : (State.startMerges s t).memsOk := by
  simp (maxDischargeDepth := 30) +contextual [State.startMerges, hm]

@[simp] theorem State.setWants_memsOk (s : State) (sets : List (Nat × List Nat)) (hm : s.memsOk) : (State.setWants s sets).memsOk := by
  simp (maxDischargeDepth := 30) +contextual [State.setWants, hm]

@[simp] theorem State.fillRoutes_memsOk (s : State) (hm : s.memsOk) : (State.fillRoutes s).memsOk := by
  simp (maxDischargeDepth := 30) +contextual [State.fillRoutes, hm]

@[simp] theorem State.routeAround_memsOk (s : State) (hm : s.memsOk) : (State.routeAround s).memsOk := by
  simp (maxDischargeDepth := 30) +contextual [State.routeAround, hm]

@[simp] theorem State.takeUsage_memsOk (s : State) (es : List DeltaEntry) (hm : s.memsOk) : (State.takeUsage s es).memsOk := by
  unfold State.takeUsage; refine foldl_memsOk _ _ _ (fun s b hs => ?_) hm; (repeat' split) <;> simp (maxDischargeDepth := 30) +contextual [hs]

@[simp] theorem State.takeRebuild_memsOk (s : State) (e : DeltaEntry) (hm : s.memsOk) : (State.takeRebuild s e).memsOk := by
  unfold State.takeRebuild; split <;> simp (maxDischargeDepth := 30) +contextual [hm]

@[simp] theorem State.applyDeltas_memsOk (s : State) (t : Nat) (hm : s.memsOk) : (State.applyDeltas s t).memsOk := by
  simp (maxDischargeDepth := 30) +contextual [State.applyDeltas, hm]

@[simp] theorem State.settleShare_memsOk (s : State) (hm : s.memsOk) : (State.settleShare s).memsOk := by
  simp (maxDischargeDepth := 30) +contextual [State.settleShare, hm]

@[simp] theorem State.refuse_memsOk (s : State) (bad : List (Nat × Nat)) (hm : s.memsOk) : (State.refuse s bad).memsOk := by
  simp (maxDischargeDepth := 30) +contextual [State.refuse, hm]

@[simp] theorem State.pruneNodes_memsOk (p : State → PrefixNode → Bool) (k : Nat) (s : State) (hm : s.memsOk) :
    (State.pruneNodes p k s).memsOk := by
  induction k generalizing s with
  | zero => exact hm
  | succ k ih =>
    unfold State.pruneNodes; split
    · exact hm
    · refine ih _ (foldl_memsOk _ _ _ (fun s b hs => by simp (maxDischargeDepth := 30) +contextual [hs]) hm)

@[simp] theorem State.pruneFrame_memsOk (s : State) (f : Nat) (hm : s.memsOk) : (State.pruneFrame s f).memsOk := by
  simp (maxDischargeDepth := 30) +contextual [State.pruneFrame, hm]

@[simp] theorem State.spillPage_memsOk (t : Nat) (a : State × List Nat) (x : Nat × Nat × W32 × W64) (hm : a.1.memsOk) :
    (State.spillPage t a x).1.memsOk := by
  unfold State.spillPage; dsimp only; (repeat' split) <;> simp (maxDischargeDepth := 30) +contextual [hm]

@[simp] theorem State.makeSpace_memsOk (t : Nat) (a : State × List Nat) (stack : Nat) (hm : a.1.memsOk) :
    (State.makeSpace t a stack).1.memsOk := by
  unfold State.makeSpace; dsimp only; split <;> simp (maxDischargeDepth := 30) +contextual [hm]

@[simp] theorem State.migrateLot_memsOk (t : Nat) (a : State × List Nat) (lot : Nat) (hm : a.1.memsOk) : (State.migrateLot t a lot).1.memsOk := by
  simp (maxDischargeDepth := 30) +contextual [State.migrateLot, hm]

@[simp] theorem State.dueSpills_memsOk (t : Nat) (a : State × List Nat) (hm : a.1.memsOk) : (State.dueSpills t a).1.memsOk := by
  simp (maxDischargeDepth := 30) +contextual [State.dueSpills, hm]

@[simp] theorem State.quotaSpills_memsOk (t : Nat) (a : State × List Nat) (hm : a.1.memsOk) : (State.quotaSpills t a).1.memsOk := by
  simp (maxDischargeDepth := 30) +contextual [State.quotaSpills, hm]

@[simp] theorem State.promote_memsOk (t : Nat) (s : State) (m : MoveChoice) (hm : s.memsOk) : (State.promote t s m).memsOk := by
  unfold State.promote; split <;> simp (maxDischargeDepth := 30) +contextual [hm]

@[simp] theorem State.moveOut_memsOk (t : Nat) (s : State) (m : W32 × Nat × Nat) (hm : s.memsOk) : (State.moveOut t s m).memsOk := by
  unfold State.moveOut; split <;> simp (maxDischargeDepth := 30) +contextual [hm]

@[simp] theorem State.moveIn_memsOk (t : Nat) (s : State) (m : MoveChoice) (hm : s.memsOk) : (State.moveIn t s m).memsOk := by
  unfold State.moveIn; split <;> simp (maxDischargeDepth := 30) +contextual [hm]

@[simp] theorem State.giveTail_memsOk (t : Nat) (s : State) (x : TailPlan) (hm : s.memsOk) : (State.giveTail t s x).memsOk := by
  unfold State.giveTail; dsimp only; (repeat' split) <;> simp (maxDischargeDepth := 30) +contextual [hm]

@[simp] theorem State.loadStream_memsOk (s : State) (x : StreamPlan) (hm : s.memsOk) : (State.loadStream s x).memsOk := by
  simp (maxDischargeDepth := 30) +contextual [State.loadStream, hm]

@[simp] theorem State.loadTask_memsOk (s : State) (x : Nat × TaskPlan) (hm : s.memsOk) : (State.loadTask s x).memsOk := by
  simp (maxDischargeDepth := 30) +contextual [State.loadTask, hm]

@[simp] theorem State.fillCtxs_memsOk (s : State) (core : Nat) (hm : s.memsOk) : (State.fillCtxs s core).memsOk := by
  simp (maxDischargeDepth := 30) +contextual [State.fillCtxs, hm]

@[simp] theorem State.holdResident_memsOk (s : State) (x : Nat × Nat × Nat) (hm : s.memsOk) : (State.holdResident s x).memsOk := by
  simp (maxDischargeDepth := 30) +contextual [State.holdResident, hm]

@[simp] theorem State.notePieces_memsOk (s : State) (ts : List TaskPlan) (hm : s.memsOk) : (State.notePieces s ts).memsOk := by
  simp (maxDischargeDepth := 30) +contextual [State.notePieces, hm]

@[simp] theorem State.clearWork_memsOk (s : State) (hm : s.memsOk) : (State.clearWork s).memsOk := by
  simp (maxDischargeDepth := 30) +contextual [State.clearWork, hm]

@[simp] theorem State.standTick_memsOk (p : PlanInput) (s : State) (n : Nat) (hm : s.memsOk) : (State.standTick p s n).memsOk := by
  simp (maxDischargeDepth := 30) +contextual [State.standTick, hm]

@[simp] theorem State.admitReqs_memsOk (s : State) (rs : List Nat) (hm : s.memsOk) : (State.admitReqs s rs).memsOk := by
  unfold State.admitReqs; refine foldl_memsOk _ _ _ (fun s b hs => ?_) hm; (repeat' split) <;> simp (maxDischargeDepth := 30) +contextual [hs]

@[simp] theorem State.loadPlan_memsOk (s : State) (t : Nat) (p : PlanInput) (hm : s.memsOk) : (State.loadPlan s t p).memsOk := by
  simp (maxDischargeDepth := 30) +contextual [State.loadPlan, hm]

@[simp] theorem State.buildFork_memsOk (t : Nat) (s : State) (f : Nat × W32 × Nat × W32) (hm : s.memsOk) : (State.buildFork t s f).memsOk := by
  unfold State.buildFork; dsimp only; (repeat' split) <;> simp (maxDischargeDepth := 30) +contextual [hm]

@[simp] theorem State.endFull_memsOk (s : State) (hm : s.memsOk) : (State.endFull s).memsOk := by
  simp (maxDischargeDepth := 30) +contextual [State.endFull, hm]

@[simp] theorem State.startSearch_memsOk (t : Nat) (s : State) (x : Search) (hm : s.memsOk) : (State.startSearch t s x).memsOk := by
  simp only [State.startSearch]; (repeat' split) <;> simp (maxDischargeDepth := 30) +contextual [hm]

@[simp] theorem State.wakeCmds_memsOk (s : State) (hold : Bool) (hm : s.memsOk) : (State.wakeCmds s hold).memsOk := by
  simp (maxDischargeDepth := 30) +contextual [State.wakeCmds, hm]

@[simp] theorem State.snapshot_memsOk (s : State) (hm : s.memsOk) : (State.snapshot s).memsOk := by
  simp (maxDischargeDepth := 30) +contextual [State.snapshot, hm]

@[simp] theorem State.notePlanned_memsOk (s : State) (hm : s.memsOk) : (State.notePlanned s).memsOk := by
  simp (maxDischargeDepth := 30) +contextual [State.notePlanned, hm]

@[simp] theorem State.loadKept_memsOk (s : State) (t : Nat) (p : PlanInput) (hm : s.memsOk) : (State.loadKept s t p).memsOk := by
  simp (maxDischargeDepth := 30) +contextual [State.loadKept, hm]

@[simp] theorem State.endPoisoned_memsOk (s : State) (hm : s.memsOk) : (State.endPoisoned s).memsOk := by
  simp (maxDischargeDepth := 30) +contextual [State.endPoisoned, hm]

@[simp] theorem State.beginAttempt_memsOk (s : State) (t : Nat) (hm : s.memsOk) : (State.beginAttempt s t).memsOk := by
  unfold State.beginAttempt; dsimp only; (repeat' split) <;> simp (maxDischargeDepth := 30) +contextual [hm]

@[simp] theorem State.dropRounds_memsOk (s : State) (hm : s.memsOk) : (State.dropRounds s).memsOk := by
  simp (maxDischargeDepth := 30) +contextual [State.dropRounds, hm]

@[simp] theorem State.startTick_memsOk (s : State) (t : Nat) (hold : Bool) (hm : s.memsOk) : (State.startTick s t hold).memsOk := by
  simp (maxDischargeDepth := 30) +contextual [State.startTick, hm]

@[simp] theorem State.replanned_memsOk (s : State) (p : PlanInput) (bad : List (Nat × Nat)) (hm : s.memsOk) : (State.replanned s p bad).memsOk := by
  simp (maxDischargeDepth := 30) +contextual [State.replanned, hm]

@[simp] theorem State.countPlan_memsOk (s : State) (p : PlanInput) (hm : s.memsOk) : (State.countPlan s p).memsOk := by
  simp (maxDischargeDepth := 30) +contextual [State.countPlan, hm]

@[simp] theorem State.countSensors_memsOk (s : State) (d : Nat) (ts : List Int) (hm : s.memsOk) : (State.countSensors s d ts).memsOk := by
  simp (maxDischargeDepth := 30) +contextual [State.countSensors, hm]

@[simp] theorem State.evaluateDie_memsOk (s : State) (r : SensorReadings) (d : Nat) (hm : s.memsOk) : (State.evaluateDie s r d).memsOk := by
  simp (maxDischargeDepth := 30) +contextual [State.evaluateDie, hm]

@[simp] theorem State.raiseDie_memsOk (s : State) (r : SensorReadings) (d : Nat) (hm : s.memsOk) : (State.raiseDie s r d).memsOk := by
  simp (maxDischargeDepth := 30) +contextual [State.raiseDie, hm]

@[simp] theorem State.diesOff_memsOk (s : State) (hm : s.memsOk) : (State.diesOff s).memsOk := by
  simp (maxDischargeDepth := 30) +contextual [State.diesOff, hm]

@[simp] theorem State.forwardDown_memsOk (s : State) (m : OutMsg) (hm : s.memsOk) : (State.forwardDown s m).memsOk := by
  simp (maxDischargeDepth := 30) +contextual [State.forwardDown, hm]

@[simp] theorem State.passEdge_memsOk (s : State) (e : EdgeMsg) (hm : s.memsOk) : (State.passEdge s e).memsOk := by
  simp (maxDischargeDepth := 30) +contextual [State.passEdge, hm]

@[simp] theorem State.askMaster_memsOk (s : State) (what : Nat) (hm : s.memsOk) : (State.askMaster s what).memsOk := by
  simp (maxDischargeDepth := 30) +contextual [State.askMaster, hm]

@[simp] theorem State.takeEdge_memsOk (s : State) (hdr : BitVec 128) (body : BitVec 256) (hm : s.memsOk) : (State.takeEdge s hdr body).memsOk := by
  simp (maxDischargeDepth := 30) +contextual [State.takeEdge, hm]

@[simp] theorem State.takeRecord_memsOk (s : State) (c : CmdRec) (hm : s.memsOk) : (State.takeRecord s c).memsOk := by
  simp (maxDischargeDepth := 30) +contextual [State.takeRecord, hm]

@[simp] theorem State.takeCmdset_memsOk (s : State) (rs : List CmdRec) (hm : s.memsOk) : (State.takeCmdset s rs).memsOk := by
  simp (maxDischargeDepth := 30) +contextual [State.takeCmdset, hm]

@[simp] theorem State.masterReport_memsOk (s : State) (c : Report) (hm : s.memsOk) : (State.masterReport s c).memsOk := by
  simp (maxDischargeDepth := 30) +contextual [State.masterReport, hm]

@[simp] theorem State.tryForward_memsOk (s : State) (hm : s.memsOk) : (State.tryForward s).memsOk := by
  unfold State.tryForward; split <;> simp (maxDischargeDepth := 30) +contextual [hm]

@[simp] theorem State.takeReport_memsOk (s : State) (child : Nat) (rep : Report) (m : TickMsg) (hm : s.memsOk) : (State.takeReport s child rep
    m).memsOk := by
  simp (maxDischargeDepth := 30) +contextual [State.takeReport, hm]

@[simp] theorem State.answerRepeat_memsOk (s : State) (src what : Nat) (hm : s.memsOk) : (State.answerRepeat s src what).memsOk := by
  simp only [State.answerRepeat]; (repeat' split) <;> simp (maxDischargeDepth := 30) +contextual [hm]

@[simp] theorem State.measureC_memsOk (s : State) (c : Nat) (hm : s.memsOk) : (State.measureC s c).memsOk := by
  simp (maxDischargeDepth := 30) +contextual [State.measureC, hm]

@[simp] theorem State.noteC_memsOk (s : State) (e : EdgeMsg) (hm : s.memsOk) : (State.noteC s e).memsOk := by
  simp (maxDischargeDepth := 30) +contextual [State.noteC, hm]

@[simp] theorem State.sendCmdset_memsOk (s : State) (c : Report) (hm : s.memsOk) : (State.sendCmdset s c).memsOk := by
  simp (maxDischargeDepth := 30) +contextual [State.sendCmdset, hm]

@[simp] theorem State.takeDecision_memsOk (s : State) (decision now time : Nat) (hm : s.memsOk) : (State.takeDecision s decision now time).memsOk :=
    by
  simp (maxDischargeDepth := 30) +contextual [State.takeDecision, hm]

@[simp] theorem State.edgeCounts_memsOk (s : State) (e : EdgeMsg) (t : Nat) (hm : s.memsOk) : (State.edgeCounts s e t).memsOk := by
  simp (maxDischargeDepth := 30) +contextual [State.edgeCounts, hm]

@[simp] theorem State.takeCopy_memsOk (s : State) (x : EdgeInput) (hm : s.memsOk) : (State.takeCopy s x).memsOk := by
  unfold State.takeCopy; (repeat' split) <;> simp (maxDischargeDepth := 30) +contextual [hm]
  exact fun _ _ => Sparse.wf_setList (0 : Byte) _ [] 0 rfl

@[simp] theorem State.applyCommit_memsOk (s : State) (e : EdgeMsg) (now : Nat) (x : EdgeInput) (bad : List Nat) (hm : s.memsOk) : (State.applyCommit
    s e now x bad).memsOk := by
  simp (maxDischargeDepth := 30) +contextual [State.applyCommit, hm]

@[simp] theorem State.countRestarts_memsOk (s : State) (hm : s.memsOk) : (State.countRestarts s).memsOk := by
  simp (maxDischargeDepth := 30) +contextual [State.countRestarts, hm]

@[simp] theorem State.restore_memsOk (s : State) (hm : s.memsOk) : (State.restore s).memsOk := by
  simp (maxDischargeDepth := 30) +contextual [State.restore, hm]

@[simp] theorem State.dropJoins_memsOk (s : State) (all : Bool) (hm : s.memsOk) : (State.dropJoins s all).memsOk := by
  simp (maxDischargeDepth := 30) +contextual [State.dropJoins, hm]

@[simp] theorem State.poisonLayers_memsOk (s : State) (ls : List Nat) (hm : s.memsOk) : (State.poisonLayers s ls).memsOk := by
  simp (maxDischargeDepth := 30) +contextual [State.poisonLayers, hm]

@[simp] theorem State.applyReplay_memsOk (s : State) (e : EdgeMsg) (now : Nat) (x : EdgeInput) (hm : s.memsOk) : (State.applyReplay s e now
    x).memsOk := by
  simp (maxDischargeDepth := 30) +contextual [State.applyReplay, hm]

@[simp] theorem State.startCrew_memsOk (s : State) (e : EdgeMsg) (now : Nat) (hm : s.memsOk) : (State.startCrew s e now).memsOk := by
  simp (maxDischargeDepth := 30) +contextual [State.startCrew, hm]

@[simp] theorem State.reform_memsOk (s : State) (e : EdgeMsg) (now : Nat) (x : EdgeInput) (hm : s.memsOk) : (State.reform s e now x).memsOk := by
  simp (maxDischargeDepth := 30) +contextual [State.reform, hm]

@[simp] theorem State.takeCrew_memsOk (s : State) (e : EdgeMsg) (now : Nat) (j : Joining) (draining : List Nat) (hm : s.memsOk) : (State.takeCrew s
    e now j draining).memsOk := by
  simp (maxDischargeDepth := 30) +contextual [State.takeCrew, hm]

@[simp] theorem State.enterCrew_memsOk (s : State) (e : EdgeMsg) (now : Nat) (j : Joining) (draining : List Nat) (hm : s.memsOk) : (State.enterCrew
    s e now j draining).memsOk := by
  simp only [State.enterCrew]; (repeat' split) <;> simp (maxDischargeDepth := 30) +contextual [hm]

end Sys2Proof.Machine
end

