-- ==== Sys2Proof/Laws/ExecMems.lean ====
section
/-! SUPPORT. Every command that answers a next state keeps the memories and tables in canonical form. -/

namespace Sys2Proof.Machine

@[simp] theorem State.decodeCmd_memsOk (s : State) (rid : Nat) (op : Byte) (f : Req → State) (hm : s.memsOk)
    (hf : ∀ r, (f r).memsOk) : Out.sat (s.decodeCmd rid op f) State.memsOk := by
  unfold State.decodeCmd; split
  · simp [hf, hm]
  · simp [hm]

@[simp] theorem State.mailboxOp_memsOk (s : State) (port : Nat) (f : State) (hm : s.memsOk) (hf : f.memsOk) :
    Out.sat (s.mailboxOp port f) State.memsOk := by
  simp only [State.mailboxOp, Out.sat_next]; (repeat' split) <;> simp [hm, hf]

@[simp] theorem State.tapLoad_memsOk (s : State) (tap : Nat) (i : TapInstr) (hm : s.memsOk) :
    Out.sat (s.tapLoad tap i) State.memsOk := by
  simp [State.tapLoad, hm]

theorem execStandbyPowerUp_memsOk (vin : BitVec 16) (s : State) (hm : s.memsOk) : Out.sat (execStandbyPowerUp vin s) State.memsOk := by
  unfold execStandbyPowerUp; simp (maxDischargeDepth := 30) +contextual [hm]

theorem execPwrEnAssert_memsOk (present : Bool) (s : State) (hm : s.memsOk) : Out.sat (execPwrEnAssert present s) State.memsOk := by
  unfold execPwrEnAssert; simp (maxDischargeDepth := 30) +contextual [hm]

theorem execPowerGood_memsOk (compatN : Bool) (s : State) (hm : s.memsOk) : Out.sat (execPowerGood compatN s) State.memsOk := by
  unfold execPowerGood; split <;> (try split) <;> first | simp (maxDischargeDepth := 30) +contextual [hm] | (refine State.decodeCmd_memsOk _ _ _ _ hm (fun r => ?_); (repeat' split) <;> simp (maxDischargeDepth := 30) +contextual [hm])

theorem execPwrEnDeassert_memsOk (s : State) (hm : s.memsOk) : Out.sat (execPwrEnDeassert s) State.memsOk := by
  unfold execPwrEnDeassert; simp (maxDischargeDepth := 30) +contextual [hm]

theorem execUndervoltage_memsOk (vin : BitVec 16) (s : State) (hm : s.memsOk) : Out.sat (execUndervoltage vin s) State.memsOk := by
  unfold execUndervoltage; simp (maxDischargeDepth := 30) +contextual [hm]

theorem execOvervoltage_memsOk (vin : BitVec 16) (s : State) (hm : s.memsOk) : Out.sat (execOvervoltage vin s) State.memsOk := by
  unfold execOvervoltage; simp (maxDischargeDepth := 30) +contextual [hm]

theorem execPowerUpHoldoffExpiry_memsOk (s : State) (hm : s.memsOk) : Out.sat (execPowerUpHoldoffExpiry s) State.memsOk := by
  unfold execPowerUpHoldoffExpiry; simp (maxDischargeDepth := 30) +contextual [hm]

theorem execImageLoad_memsOk (norResponds : Bool) (s : State) (hm : s.memsOk) : Out.sat (execImageLoad norResponds s) State.memsOk := by
  unfold execImageLoad; dsimp only; (repeat' split) <;> simp (maxDischargeDepth := 30) +contextual [hm]

theorem execLoadComplete_memsOk (s : State) (hm : s.memsOk) : Out.sat (execLoadComplete s) State.memsOk := by
  unfold execLoadComplete; dsimp only; (repeat' split) <;> simp (maxDischargeDepth := 30) +contextual [hm]

theorem execVerify_memsOk (s : State) (hm : s.memsOk) : Out.sat (execVerify s) State.memsOk := by
  have hp (en : BitVec 12) : Sparse.wf ({ echoId := 0#64, tEcho := 0#64 } : LinkPort) (portsAtTrain en) = true := by
    unfold portsAtTrain; exact Sparse.foldl_wf _ _ (fun m b h => Sparse.wf_set _ _ _ _ h) _ _ rfl
  unfold execVerify; (repeat' split) <;> simp (maxDischargeDepth := 30) +contextual [hm, hp]

theorem execTrainTimeout_memsOk (s : State) (hm : s.memsOk) : Out.sat (execTrainTimeout s) State.memsOk := by
  unfold execTrainTimeout; simp (maxDischargeDepth := 30) +contextual [hm]

theorem execHubControlReset_memsOk (port : Nat) (value : W64) (s : State) (hm : s.memsOk) : Out.sat (execHubControlReset port value s) State.memsOk := by
  unfold execHubControlReset; simp (maxDischargeDepth := 30) +contextual [hm]

theorem execPerstAssert_memsOk (port : Nat) (s : State) (hm : s.memsOk) : Out.sat (execPerstAssert port s) State.memsOk := by
  unfold execPerstAssert; simp (maxDischargeDepth := 30) +contextual [hm]

theorem execPerstDeassert_memsOk (port : Nat) (s : State) (hm : s.memsOk) : Out.sat (execPerstDeassert port s) State.memsOk := by
  unfold execPerstDeassert; simp (maxDischargeDepth := 30) +contextual [hm]

theorem execFunctionLevelReset_memsOk (port : Nat) (s : State) (hm : s.memsOk) : Out.sat (execFunctionLevelReset port s) State.memsOk := by
  unfold execFunctionLevelReset; simp (maxDischargeDepth := 30) +contextual [hm]

theorem execBar0BadAccess_memsOk (port : Nat) (isWrite : Bool) (offset size : Nat) (s : State) (hm : s.memsOk) : Out.sat (execBar0BadAccess port isWrite offset size s) State.memsOk := by
  unfold execBar0BadAccess; simp (maxDischargeDepth := 30) +contextual [hm]

theorem execDoorbellSq_memsOk (port qid : Nat) (value : W32) (s : State) (hm : s.memsOk) : Out.sat (execDoorbellSq port qid value s) State.memsOk := by
  unfold execDoorbellSq; simp (maxDischargeDepth := 30) +contextual [hm]

theorem execDoorbellCq_memsOk (port qid : Nat) (value : W32) (s : State) (hm : s.memsOk) : Out.sat (execDoorbellCq port qid value s) State.memsOk := by
  unfold execDoorbellCq; simp (maxDischargeDepth := 30) +contextual [hm]

theorem execQueueEnable_memsOk (port qid : Nat) (value : W64) (s : State) (hm : s.memsOk) : Out.sat (execQueueEnable port qid value s) State.memsOk := by
  unfold execQueueEnable; simp (maxDischargeDepth := 30) +contextual [hm]

theorem execQueueDisable_memsOk (port qid : Nat) (value : W64) (s : State) (hm : s.memsOk) : Out.sat (execQueueDisable port qid value s) State.memsOk := by
  unfold execQueueDisable; simp (maxDischargeDepth := 30) +contextual [hm]

theorem execHostErrClear_memsOk (port : Nat) (value : W64) (s : State) (hm : s.memsOk) : Out.sat (execHostErrClear port value s) State.memsOk := by
  unfold execHostErrClear; simp (maxDischargeDepth := 30) +contextual [hm]

theorem execSnapHoldSet_memsOk (port : Nat) (s : State) (hm : s.memsOk) : Out.sat (execSnapHoldSet port s) State.memsOk := by
  unfold execSnapHoldSet; simp (maxDischargeDepth := 30) +contextual [hm]

theorem execSnapHoldRelease_memsOk (port : Nat) (s : State) (hm : s.memsOk) : Out.sat (execSnapHoldRelease port s) State.memsOk := by
  unfold execSnapHoldRelease; simp (maxDischargeDepth := 30) +contextual [hm]

theorem execTmuxSelWrite_memsOk (port : Nat) (value : W64) (s : State) (hm : s.memsOk) : Out.sat (execTmuxSelWrite port value s) State.memsOk := by
  unfold execTmuxSelWrite; simp (maxDischargeDepth := 30) +contextual [hm]

theorem execTmuxSwitch_memsOk (pin : Nat) (s : State) (hm : s.memsOk) : Out.sat (execTmuxSwitch pin s) State.memsOk := by
  unfold execTmuxSwitch; dsimp only; (repeat' split) <;> simp (maxDischargeDepth := 30) +contextual [hm]

theorem execLinkStatusClear_memsOk (port n : Nat) (value : W64) (s : State) (hm : s.memsOk) : Out.sat (execLinkStatusClear port n value s) State.memsOk := by
  unfold execLinkStatusClear; simp (maxDischargeDepth := 30) +contextual [hm]

theorem execRegisterWrite_memsOk (port offset size : Nat) (value : W64) (s : State) (hm : s.memsOk) : Out.sat (execRegisterWrite port offset size value s) State.memsOk := by
  unfold execRegisterWrite; simp (maxDischargeDepth := 30) +contextual [hm]

theorem execMailboxRead_memsOk (port : Nat) (failUnit : Option Nat) (s : State) (hm : s.memsOk) : Out.sat (execMailboxRead port failUnit s) State.memsOk := by
  unfold execMailboxRead; simp (maxDischargeDepth := 30) +contextual [hm]

theorem execMailboxWrite_memsOk (port : Nat) (data : List Byte) (failUnit badUnit : Option Nat) (s : State) (hm : s.memsOk) : Out.sat (execMailboxWrite port data failUnit badUnit s) State.memsOk := by
  unfold execMailboxWrite; simp (maxDischargeDepth := 30) +contextual [hm]

theorem execMailboxRestart_memsOk (port : Nat) (s : State) (hm : s.memsOk) : Out.sat (execMailboxRestart port s) State.memsOk := by
  unfold execMailboxRestart; simp (maxDischargeDepth := 30) +contextual [hm]

theorem execMailboxReservedOp_memsOk (port : Nat) (op : Byte) (s : State) (hm : s.memsOk) : Out.sat (execMailboxReservedOp port op s) State.memsOk := by
  unfold execMailboxReservedOp; simp (maxDischargeDepth := 30) +contextual [hm]

theorem execMailboxDone_memsOk (s : State) (hm : s.memsOk) : Out.sat (execMailboxDone s) State.memsOk := by
  unfold execMailboxDone; simp (maxDischargeDepth := 30) +contextual [hm]

theorem execSmbusRecoveryWrite_memsOk (code value : Byte) (pec : Option Byte) (s : State) (hm : s.memsOk) : Out.sat (execSmbusRecoveryWrite code value pec s) State.memsOk := by
  unfold execSmbusRecoveryWrite; dsimp only; (repeat' split) <;> simp (maxDischargeDepth := 30) +contextual [hm]

theorem execSubmissionFetch_memsOk (port qid : Nat) (entries : List (BitVec 512)) (pcieError : Bool) (s : State) (hm : s.memsOk) : Out.sat (execSubmissionFetch port qid entries pcieError s) State.memsOk := by
  unfold execSubmissionFetch; simp (maxDischargeDepth := 30) +contextual [hm]

theorem execSnapshotTransfer_memsOk (s : State) (hm : s.memsOk) : Out.sat (execSnapshotTransfer s) State.memsOk := by
  unfold execSnapshotTransfer; split
  · have hb (c : Counters) (b : Nat) (x : Option Snap) : (c.setBank b x).live = c.live := by
      unfold Counters.setBank; (repeat' split) <;> rfl
    simp (maxDischargeDepth := 30) +contextual [hm, hb]
  · simp (maxDischargeDepth := 30) +contextual [hm]

theorem execThrottleEvaluation_memsOk (r : SensorReadings) (s : State) (hm : s.memsOk) : Out.sat (execThrottleEvaluation r s) State.memsOk := by
  unfold execThrottleEvaluation; simp (maxDischargeDepth := 30) +contextual [hm]

theorem execThrottleRaise_memsOk (r : SensorReadings) (s : State) (hm : s.memsOk) : Out.sat (execThrottleRaise r s) State.memsOk := by
  unfold execThrottleRaise; simp (maxDischargeDepth := 30) +contextual [hm]

theorem execThermalShutdown_memsOk (r : SensorReadings) (s : State) (hm : s.memsOk) : Out.sat (execThermalShutdown r s) State.memsOk := by
  unfold execThermalShutdown; simp (maxDischargeDepth := 30) +contextual [hm]

theorem execNandThrottle_memsOk (celsius10 : Int) (s : State) (hm : s.memsOk) : Out.sat (execNandThrottle celsius10 s) State.memsOk := by
  unfold execNandThrottle; simp (maxDischargeDepth := 30) +contextual [hm]

theorem execNandThrottleRelease_memsOk (celsius10 : Int) (s : State) (hm : s.memsOk) : Out.sat (execNandThrottleRelease celsius10 s) State.memsOk := by
  unfold execNandThrottleRelease; simp (maxDischargeDepth := 30) +contextual [hm]

theorem execExtest_memsOk (tap : Nat) (s : State) (hm : s.memsOk) : Out.sat (execExtest tap s) State.memsOk := by
  unfold execExtest; simp (maxDischargeDepth := 30) +contextual [hm]

theorem execSamplePreload_memsOk (tap : Nat) (pins : List Bool) (s : State) (hm : s.memsOk) : Out.sat (execSamplePreload tap pins s) State.memsOk := by
  unfold execSamplePreload; simp (maxDischargeDepth := 30) +contextual [hm]

theorem execIdcode_memsOk (tap : Nat) (s : State) (hm : s.memsOk) : Out.sat (execIdcode tap s) State.memsOk := by
  unfold execIdcode; simp (maxDischargeDepth := 30) +contextual [hm]

theorem execHighz_memsOk (tap : Nat) (s : State) (hm : s.memsOk) : Out.sat (execHighz tap s) State.memsOk := by
  unfold execHighz; simp (maxDischargeDepth := 30) +contextual [hm]

theorem execClamp_memsOk (tap : Nat) (s : State) (hm : s.memsOk) : Out.sat (execClamp tap s) State.memsOk := by
  unfold execClamp; simp (maxDischargeDepth := 30) +contextual [hm]

theorem execExtestPulse_memsOk (tap : Nat) (s : State) (hm : s.memsOk) : Out.sat (execExtestPulse tap s) State.memsOk := by
  unfold execExtestPulse; simp (maxDischargeDepth := 30) +contextual [hm]

theorem execExtestTrain_memsOk (tap : Nat) (s : State) (hm : s.memsOk) : Out.sat (execExtestTrain tap s) State.memsOk := by
  unfold execExtestTrain; simp (maxDischargeDepth := 30) +contextual [hm]

theorem execBypass_memsOk (tap : Nat) (opcode : Byte) (s : State) (hm : s.memsOk) : Out.sat (execBypass tap opcode s) State.memsOk := by
  unfold execBypass; simp (maxDischargeDepth := 30) +contextual [hm]

theorem execTestLogicReset_memsOk (s : State) (hm : s.memsOk) : Out.sat (execTestLogicReset s) State.memsOk := by
  unfold execTestLogicReset; simp (maxDischargeDepth := 30) +contextual [hm]

theorem execLaneLock_memsOk (port : Nat) (lanes : List Nat) (skewNs : Nat) (s : State) (hm : s.memsOk) : Out.sat (execLaneLock port lanes skewNs s) State.memsOk := by
  unfold execLaneLock; simp (maxDischargeDepth := 30) +contextual [hm]

theorem execFlitLock_memsOk (port : Nat) (s : State) (hm : s.memsOk) : Out.sat (execFlitLock port s) State.memsOk := by
  unfold execFlitLock; simp (maxDischargeDepth := 30) +contextual [hm]

theorem execTrainRecord_memsOk (port : Nat) (rec : BitVec 1920) (now : W64) (s : State) (hm : s.memsOk) : Out.sat (execTrainRecord port rec now s) State.memsOk := by
  unfold execTrainRecord; dsimp only; (repeat' split) <;> simp (maxDischargeDepth := 30) +contextual [hm]

theorem execTrainRecordSend_memsOk (port : Nat) (now : W64) (s : State) (hm : s.memsOk) : Out.sat (execTrainRecordSend port now s) State.memsOk := by
  unfold execTrainRecordSend; simp (maxDischargeDepth := 30) +contextual [hm]

theorem execTrainingStepTimeout_memsOk (port : Nat) (s : State) (hm : s.memsOk) : Out.sat (execTrainingStepTimeout port s) State.memsOk := by
  unfold execTrainingStepTimeout; simp (maxDischargeDepth := 30) +contextual [hm]

theorem execTrainingRetry_memsOk (port : Nat) (s : State) (hm : s.memsOk) : Out.sat (execTrainingRetry port s) State.memsOk := by
  unfold execTrainingRetry; simp (maxDischargeDepth := 30) +contextual [hm]

theorem execTimestampExchange_memsOk (port : Nat) (samples : List (Nat × Nat × Nat × Nat)) (s : State) (hm : s.memsOk) : Out.sat (execTimestampExchange port samples s) State.memsOk := by
  unfold execTimestampExchange; simp (maxDischargeDepth := 30) +contextual [hm]

theorem execFlitReceive_memsOk (port : Nat) (hdr : BitVec 128) (payload : List Byte) (s : State) (hm : s.memsOk) : Out.sat (execFlitReceive port hdr payload s) State.memsOk := by
  unfold execFlitReceive; dsimp only; (repeat' split) <;> simp (maxDischargeDepth := 30) +contextual [hm]

theorem execFlitSend_memsOk (port : Nat) (s : State) (hm : s.memsOk) : Out.sat (execFlitSend port s) State.memsOk := by
  unfold execFlitSend; dsimp only; (repeat' split) <;> simp (maxDischargeDepth := 30) +contextual [hm]

theorem execNak_memsOk (port : Nat) (seqs : List Nat) (s : State) (hm : s.memsOk) : Out.sat (execNak port seqs s) State.memsOk := by
  unfold execNak; split
  · simp (maxDischargeDepth := 30) +contextual [hm]
  · simp only [Out.sat_needPart, Out.sat_next]; intro _
    refine foldl_memsOk _ _ _ (fun s q hs => ?_) ?_
    · split <;> simp (maxDischargeDepth := 30) +contextual [hs]
    · simp (maxDischargeDepth := 30) +contextual [hm]

theorem execCredit_memsOk (port : Nat) (returns : List (Nat × Nat × Nat)) (s : State) (hm : s.memsOk) : Out.sat (execCredit port returns s) State.memsOk := by
  unfold execCredit; simp (maxDischargeDepth := 30) +contextual [hm]

theorem execDownNotice_memsOk (port : Nat) (s : State) (hm : s.memsOk) : Out.sat (execDownNotice port s) State.memsOk := by
  unfold execDownNotice; simp (maxDischargeDepth := 30) +contextual [hm]

theorem execLaneAlignmentTimeout_memsOk (port lane : Nat) (s : State) (hm : s.memsOk) : Out.sat (execLaneAlignmentTimeout port lane s) State.memsOk := by
  unfold execLaneAlignmentTimeout; simp (maxDischargeDepth := 30) +contextual [hm]

theorem execFlitSilenceTimeout_memsOk (port : Nat) (s : State) (hm : s.memsOk) : Out.sat (execFlitSilenceTimeout port s) State.memsOk := by
  unfold execFlitSilenceTimeout; simp (maxDischargeDepth := 30) +contextual [hm]

theorem execNakRateLimit_memsOk (port : Nat) (s : State) (hm : s.memsOk) : Out.sat (execNakRateLimit port s) State.memsOk := by
  unfold execNakRateLimit; simp (maxDischargeDepth := 30) +contextual [hm]

theorem execLaserOffExpiry_memsOk (port : Nat) (s : State) (hm : s.memsOk) : Out.sat (execLaserOffExpiry port s) State.memsOk := by
  unfold execLaserOffExpiry; simp (maxDischargeDepth := 30) +contextual [hm]

theorem execLinkState_memsOk (port : Nat) (rec : BitVec 512) (s : State) (hm : s.memsOk) : Out.sat (execLinkState port rec s) State.memsOk := by
  unfold execLinkState; dsimp only; (repeat' split) <;> simp (maxDischargeDepth := 30) +contextual [hm]

theorem execOpenSeq_memsOk (rid : Nat) (s : State) (hm : s.memsOk) : Out.sat (execOpenSeq rid s) State.memsOk := by
  unfold execOpenSeq; simp (maxDischargeDepth := 30) +contextual [hm]

theorem execFork_memsOk (rid : Nat) (s : State) (hm : s.memsOk) : Out.sat (execFork rid s) State.memsOk := by
  unfold execFork; simp (maxDischargeDepth := 30) +contextual [hm]

theorem execAbort_memsOk (rid : Nat) (s : State) (hm : s.memsOk) : Out.sat (execAbort rid s) State.memsOk := by
  unfold execAbort; simp (maxDischargeDepth := 30) +contextual [hm]

theorem execClose_memsOk (rid : Nat) (s : State) (hm : s.memsOk) : Out.sat (execClose rid s) State.memsOk := by
  unfold execClose; simp (maxDischargeDepth := 30) +contextual [hm]

theorem execAppend_memsOk (rid : Nat) (data : HostRead) (s : State) (hm : s.memsOk) : Out.sat (execAppend rid data s) State.memsOk := by
  unfold execAppend; split <;> (try split) <;> first | simp (maxDischargeDepth := 30) +contextual [hm] | (refine State.decodeCmd_memsOk _ _ _ _ hm (fun r => ?_); (repeat' split) <;> simp (maxDischargeDepth := 30) +contextual [hm])

theorem execGenerate_memsOk (rid : Nat) (drafts : HostRead) (s : State) (hm : s.memsOk) : Out.sat (execGenerate rid drafts s) State.memsOk := by
  unfold execGenerate; split <;> (try split) <;> first | simp (maxDischargeDepth := 30) +contextual [hm] | (refine State.decodeCmd_memsOk _ _ _ _ hm (fun r => ?_); (repeat' split) <;> simp (maxDischargeDepth := 30) +contextual [hm])

theorem execLoadWeights_memsOk (rid : Nat) (data : HostRead) (s : State) (hm : s.memsOk) : Out.sat (execLoadWeights rid data s) State.memsOk := by
  unfold execLoadWeights; simp (maxDischargeDepth := 30) +contextual [hm]

theorem execSetQuotaLot_memsOk (rid : Nat) (s : State) (hm : s.memsOk) : Out.sat (execSetQuotaLot rid s) State.memsOk := by
  unfold execSetQuotaLot; simp (maxDischargeDepth := 30) +contextual [hm]

theorem execSetQuotaQueueMap_memsOk (rid : Nat) (s : State) (hm : s.memsOk) : Out.sat (execSetQuotaQueueMap rid s) State.memsOk := by
  unfold execSetQuotaQueueMap; simp (maxDischargeDepth := 30) +contextual [hm]

theorem execSetProfile_memsOk (rid : Nat) (s : State) (hm : s.memsOk) : Out.sat (execSetProfile rid s) State.memsOk := by
  unfold execSetProfile; simp (maxDischargeDepth := 30) +contextual [hm]

theorem execVecInsert_memsOk (rid : Nat) (data : HostRead) (s : State) (hm : s.memsOk) : Out.sat (execVecInsert rid data s) State.memsOk := by
  unfold execVecInsert; simp (maxDischargeDepth := 30) +contextual [hm]

theorem execCodebookReload_memsOk (rid : Nat) (data : HostRead) (s : State) (hm : s.memsOk) : Out.sat (execCodebookReload rid data s) State.memsOk := by
  unfold execCodebookReload; simp (maxDischargeDepth := 30) +contextual [hm]

theorem execVecDelete_memsOk (rid : Nat) (s : State) (hm : s.memsOk) : Out.sat (execVecDelete rid s) State.memsOk := by
  unfold execVecDelete; simp (maxDischargeDepth := 30) +contextual [hm]

theorem execVecSearch_memsOk (rid : Nat) (data : HostRead) (s : State) (hm : s.memsOk) : Out.sat (execVecSearch rid data s) State.memsOk := by
  unfold execVecSearch; simp (maxDischargeDepth := 30) +contextual [hm]

theorem execReadCounters_memsOk (rid : Nat) (s : State) (hm : s.memsOk) : Out.sat (execReadCounters rid s) State.memsOk := by
  unfold execReadCounters; simp (maxDischargeDepth := 30) +contextual [hm]

theorem execAttest_memsOk (rid : Nat) (nonce : HostRead) (s : State) (hm : s.memsOk) : Out.sat (execAttest rid nonce s) State.memsOk := by
  unfold execAttest; simp (maxDischargeDepth := 30) +contextual [hm]

theorem execWriteImage_memsOk (rid : Nat) (data : HostRead) (s : State) (hm : s.memsOk) : Out.sat (execWriteImage rid data s) State.memsOk := by
  unfold execWriteImage; simp (maxDischargeDepth := 30) +contextual [hm]

theorem execNorProgramComplete_memsOk (mismatch : Bool) (s : State) (hm : s.memsOk) : Out.sat (execNorProgramComplete mismatch s) State.memsOk := by
  unfold execNorProgramComplete; dsimp only; (repeat' split) <;> simp (maxDischargeDepth := 30) +contextual [hm]

theorem execDrain_memsOk (rid : Nat) (s : State) (hm : s.memsOk) : Out.sat (execDrain rid s) State.memsOk := by
  unfold execDrain; simp (maxDischargeDepth := 30) +contextual [hm]

theorem execInvalidOpcode_memsOk (rid : Nat) (s : State) (hm : s.memsOk) : Out.sat (execInvalidOpcode rid s) State.memsOk := by
  unfold execInvalidOpcode; split <;> (try split) <;> first | simp (maxDischargeDepth := 30) +contextual [hm] | (refine State.decodeCmd_memsOk _ _ _ _ hm (fun r => ?_); (repeat' split) <;> simp (maxDischargeDepth := 30) +contextual [hm])

theorem execTaskIssue_memsOk (die core ctx : Nat) (s : State) (hm : s.memsOk) : Out.sat (execTaskIssue die core ctx s) State.memsOk := by
  unfold execTaskIssue; dsimp only; (repeat' split) <;> simp (maxDischargeDepth := 30) +contextual [hm]

theorem execStandPortGrant_memsOk (die stand : Nat) (s : State) (hm : s.memsOk) : Out.sat (execStandPortGrant die stand s) State.memsOk := by
  unfold execStandPortGrant; dsimp only; (repeat' split) <;> simp (maxDischargeDepth := 30) +contextual [hm]

theorem execTileLoadComplete_memsOk (die stand : Nat) (s : State) (hm : s.memsOk) : Out.sat (execTileLoadComplete die stand s) State.memsOk := by
  unfold execTileLoadComplete; dsimp only; (repeat' split) <;> simp (maxDischargeDepth := 30) +contextual [hm]

theorem execContextSwitch_memsOk (die core : Nat) (s : State) (hm : s.memsOk) : Out.sat (execContextSwitch die core s) State.memsOk := by
  unfold execContextSwitch; dsimp only; (repeat' split) <;> simp (maxDischargeDepth := 30) +contextual [hm]

theorem execHaloCopy_memsOk (die core : Nat) (s : State) (hm : s.memsOk) : Out.sat (execHaloCopy die core s) State.memsOk := by
  unfold execHaloCopy; dsimp only; (repeat' split) <;> simp (maxDischargeDepth := 30) +contextual [hm]

theorem execTileDrain_memsOk (die core : Nat) (s : State) (hm : s.memsOk) : Out.sat (execTileDrain die core s) State.memsOk := by
  unfold execTileDrain; dsimp only; (repeat' split) <;> simp (maxDischargeDepth := 30) +contextual [hm]

theorem execSeparateChainPass_memsOk (die core : Nat) (s : State) (hm : s.memsOk) : Out.sat (execSeparateChainPass die core s) State.memsOk := by
  unfold execSeparateChainPass; dsimp only; (repeat' split) <;> simp (maxDischargeDepth := 30) +contextual [hm]

theorem execCompletionMessage_memsOk (task : Nat) (s : State) (hm : s.memsOk) : Out.sat (execCompletionMessage task s) State.memsOk := by
  unfold execCompletionMessage; simp (maxDischargeDepth := 30) +contextual [hm]

theorem execNormalisation_memsOk (die core : Nat) (job : RowJob) (s : State) (hm : s.memsOk) : Out.sat (execNormalisation die core job s) State.memsOk := by
  unfold execNormalisation; dsimp only; (repeat' split) <;> simp (maxDischargeDepth := 30) +contextual [hm]

theorem execSoftMaximum_memsOk (die core : Nat) (job : RowJob) (s : State) (hm : s.memsOk) : Out.sat (execSoftMaximum die core job s) State.memsOk := by
  unfold execSoftMaximum; dsimp only; (repeat' split) <;> simp (maxDischargeDepth := 30) +contextual [hm]

theorem execRotaryRotation_memsOk (die core : Nat) (task addr rows : Nat) (positions : List Nat) (s : State) (hm : s.memsOk) : Out.sat (execRotaryRotation die core task addr rows positions s) State.memsOk := by
  unfold execRotaryRotation; dsimp only; (repeat' split) <;> simp (maxDischargeDepth := 30) +contextual [hm]

theorem execBlockFold_memsOk (die core : Nat) (job : FoldJob) (s : State) (hm : s.memsOk) : Out.sat (execBlockFold die core job s) State.memsOk := by
  unfold execBlockFold; dsimp only; (repeat' split) <;> simp (maxDischargeDepth := 30) +contextual [hm]

theorem execTokenChoice_memsOk (job : TokenJob) (logits : List (List W32)) (s : State) (hm : s.memsOk) : Out.sat (execTokenChoice job logits s) State.memsOk := by
  unfold execTokenChoice; dsimp only; (repeat' split) <;> simp (maxDischargeDepth := 30) +contextual [hm]

theorem execFunctionTableFill_memsOk (die core : Nat) (s : State) (hm : s.memsOk) : Out.sat (execFunctionTableFill die core s) State.memsOk := by
  unfold execFunctionTableFill; simp (maxDischargeDepth := 30) +contextual [hm]

theorem execSketchTask_memsOk (die core : Nat) (seq : W32) (v : Nat) (sK : W32) (s : State) (hm : s.memsOk) : Out.sat (execSketchTask die core seq v sK s) State.memsOk := by
  unfold execSketchTask; dsimp only; (repeat' split) <;> simp (maxDischargeDepth := 30) +contextual [hm]

theorem execPageRanking_memsOk (core : CoreRef) (rid layer head : Nat) (queries : List (List W32)) (s : State) (hm : s.memsOk) : Out.sat (execPageRanking core rid layer head queries s) State.memsOk := by
  unfold execPageRanking; dsimp only; (repeat' split) <;> simp (maxDischargeDepth := 30) +contextual [hm]

theorem execRingStepFold_memsOk (round ring step : Nat) (part : RingPart) (s : State) (hm : s.memsOk) : Out.sat (execRingStepFold round ring step part s) State.memsOk := by
  unfold execRingStepFold; dsimp only; (repeat' split) <;> simp (maxDischargeDepth := 30) +contextual [hm]

theorem execStreamGrant_memsOk (point : ArbPoint) (s : State) (hm : s.memsOk) : Out.sat (execStreamGrant point s) State.memsOk := by
  unfold execStreamGrant; (repeat' split) <;> simp (maxDischargeDepth := 30) +contextual [hm]

theorem execWalkRequest_memsOk (die ctx stream : Nat) (seq : W32) (pages : List Nat) (ask : WalkAsk) (dst : Nat) (s : State) (hm : s.memsOk) : Out.sat (execWalkRequest die ctx stream seq pages ask dst s) State.memsOk := by
  unfold execWalkRequest; dsimp only; (repeat' split) <;> simp (maxDischargeDepth := 30) +contextual [hm]

theorem execTailAppend_memsOk (die core rid : Nat) (seq : W32) (layer head pos : Nat) (key val : List W32) (sK sV : W32) (s : State) (hm : s.memsOk) : Out.sat (execTailAppend die core rid seq layer head pos key val sK sV s) State.memsOk := by
  unfold execTailAppend; dsimp only; (repeat' split) <;> simp (maxDischargeDepth := 30) +contextual [hm]

theorem execScatter_memsOk (die core rid : Nat) (seq : W32) (layer head pos : Nat) (key val : List W32) (sK sV : W32) (frame : Nat) (s : State) (hm : s.memsOk) : Out.sat (execScatter die core rid seq layer head pos key val sK sV frame s) State.memsOk := by
  unfold execScatter; dsimp only; (repeat' split) <;> simp (maxDischargeDepth := 30) +contextual [hm]

theorem execPageCopy_memsOk (src dst : Nat) (s : State) (hm : s.memsOk) : Out.sat (execPageCopy src dst s) State.memsOk := by
  unfold execPageCopy; simp (maxDischargeDepth := 30) +contextual [hm]

theorem execPageCopyComplete_memsOk (src dst : Nat) (s : State) (hm : s.memsOk) : Out.sat (execPageCopyComplete src dst s) State.memsOk := by
  unfold execPageCopyComplete; simp (maxDischargeDepth := 30) +contextual [hm]

theorem execCleaningWrite_memsOk (frame flashFrame : Nat) (complete : Bool) (s : State) (hm : s.memsOk) : Out.sat (execCleaningWrite frame flashFrame complete s) State.memsOk := by
  unfold execCleaningWrite; dsimp only; (repeat' split) <;> simp (maxDischargeDepth := 30) +contextual [hm]

theorem execHbmUncorrectable_memsOk (frame : Nat) (s : State) (hm : s.memsOk) : Out.sat (execHbmUncorrectable frame s) State.memsOk := by
  unfold execHbmUncorrectable; simp (maxDischargeDepth := 30) +contextual [hm]

theorem execScrub_memsOk (frame : Nat) (corrected : Bool) (s : State) (hm : s.memsOk) : Out.sat (execScrub frame corrected s) State.memsOk := by
  unfold execScrub; simp (maxDischargeDepth := 30) +contextual [hm]

theorem execRefresh_memsOk (stack row : Nat) (s : State) (hm : s.memsOk) : Out.sat (execRefresh stack row s) State.memsOk := by
  unfold execRefresh; simp (maxDischargeDepth := 30) +contextual [hm]

theorem execReadDisturbRefresh_memsOk (stack row : Nat) (s : State) (hm : s.memsOk) : Out.sat (execReadDisturbRefresh stack row s) State.memsOk := by
  unfold execReadDisturbRefresh; simp (maxDischargeDepth := 30) +contextual [hm]

theorem execFlashRead_memsOk (frame : Nat) (hardOk : Bool) (softRetry : Option Nat) (s : State) (hm : s.memsOk) : Out.sat (execFlashRead frame hardOk softRetry s) State.memsOk := by
  unfold execFlashRead; dsimp only; (repeat' split) <;> simp (maxDischargeDepth := 30) +contextual [hm]

theorem execWearLevelling_memsOk (channel : Nat) (s : State) (hm : s.memsOk) : Out.sat (execWearLevelling channel s) State.memsOk := by
  unfold execWearLevelling; simp only [Out.sat_when, Out.sat_needPart, Out.sat_next, Out.sat_onCore]; intros; (repeat' split) <;> simp (maxDischargeDepth := 30) +contextual [hm]

theorem execReadDisturbRelocation_memsOk (channel block : Nat) (s : State) (hm : s.memsOk) : Out.sat (execReadDisturbRelocation channel block s) State.memsOk := by
  unfold execReadDisturbRelocation; simp (maxDischargeDepth := 30) +contextual [hm]

theorem execProgramFailure_memsOk (channel block : Nat) (s : State) (hm : s.memsOk) : Out.sat (execProgramFailure channel block s) State.memsOk := by
  unfold execProgramFailure; simp (maxDischargeDepth := 30) +contextual [hm]

theorem execGarbageCollection_memsOk (channel : Nat) (s : State) (hm : s.memsOk) : Out.sat (execGarbageCollection channel s) State.memsOk := by
  unfold execGarbageCollection; simp (maxDischargeDepth := 30) +contextual [hm]

theorem execFlashReadOnly_memsOk (s : State) (hm : s.memsOk) : Out.sat (execFlashReadOnly s) State.memsOk := by
  unfold execFlashReadOnly; simp (maxDischargeDepth := 30) +contextual [hm]

theorem execSramUncorrectable_memsOk (partKind partNum : Nat) (s : State) (hm : s.memsOk) : Out.sat (execSramUncorrectable partKind partNum s) State.memsOk := by
  unfold execSramUncorrectable; simp (maxDischargeDepth := 30) +contextual [hm]

theorem execSearchAdmission_memsOk (rid : Nat) (s : State) (hm : s.memsOk) : Out.sat (execSearchAdmission rid s) State.memsOk := by
  unfold execSearchAdmission; dsimp only; (repeat' split) <;> simp (maxDischargeDepth := 30) +contextual [hm]

theorem execRecordExpansion_memsOk (slot : Nat) (readable : Bool) (s : State) (hm : s.memsOk) : Out.sat (execRecordExpansion slot readable s) State.memsOk := by
  unfold execRecordExpansion; dsimp only; (repeat' split) <;> simp (maxDischargeDepth := 30) +contextual [hm]

theorem execSideScan_memsOk (slot : Nat) (lostFrames : List Nat) (s : State) (hm : s.memsOk) : Out.sat (execSideScan slot lostFrames s) State.memsOk := by
  unfold execSideScan; dsimp only; (repeat' split) <;> simp (maxDischargeDepth := 30) +contextual [hm]

theorem execResultAssembly_memsOk (slot : Nat) (lostNodes : List Nat) (s : State) (hm : s.memsOk) : Out.sat (execResultAssembly slot lostNodes s) State.memsOk := by
  unfold execResultAssembly; dsimp only; (repeat' split) <;> simp (maxDischargeDepth := 30) +contextual [hm]

theorem execMergeFinish_memsOk (index : Nat) (s : State) (hm : s.memsOk) : Out.sat (execMergeFinish index s) State.memsOk := by
  unfold execMergeFinish; split <;> (try split) <;> first | simp (maxDischargeDepth := 30) +contextual [hm] | (refine State.decodeCmd_memsOk _ _ _ _ hm (fun r => ?_); (repeat' split) <;> simp (maxDischargeDepth := 30) +contextual [hm])

theorem execChunkReceive_memsOk (sender : Nat) (hdr : BitVec 256) (payload : List Byte) (stack : Nat) (s : State) (hm : s.memsOk) : Out.sat (execChunkReceive sender hdr payload stack s) State.memsOk := by
  unfold execChunkReceive; simp (maxDischargeDepth := 30) +contextual [hm]

theorem execCombine_memsOk (coll item step chunk : Nat) (left right : List W32) (residueOk : Bool) (s : State) (hm : s.memsOk) : Out.sat (execCombine coll item step chunk left right residueOk s) State.memsOk := by
  unfold execCombine; dsimp only; (repeat' split) <;> simp (maxDischargeDepth := 30) +contextual [hm]

theorem execCrewFormation_memsOk (members : List (Nat × W64 × Nat)) (measure : Option (List Byte)) (homes : List (Nat × Nat)) (treeDelay : Nat) (s : State) (hm : s.memsOk) : Out.sat (execCrewFormation members measure homes treeDelay s) State.memsOk := by
  unfold execCrewFormation; dsimp only; (repeat' split) <;> simp (maxDischargeDepth := 30) +contextual [hm]

theorem execPlan_memsOk (p : PlanInput) (s : State) (hm : s.memsOk) : Out.sat (execPlan p s) State.memsOk := by
  unfold execPlan; dsimp only; (repeat' split) <;> simp (maxDischargeDepth := 30) +contextual [hm]

theorem execLayoutDelta_memsOk (entries : List DeltaEntry) (s : State) (hm : s.memsOk) : Out.sat (execLayoutDelta entries s) State.memsOk := by
  unfold execLayoutDelta; simp (maxDischargeDepth := 30) +contextual [hm]

theorem execDeltaReceive_memsOk (version firstPlan : W64) (entries : List DeltaEntry) (s : State) (hm : s.memsOk) : Out.sat (execDeltaReceive version firstPlan entries s) State.memsOk := by
  unfold execDeltaReceive; simp (maxDischargeDepth := 30) +contextual [hm]

theorem execEdge_memsOk (hdr : BitVec 128) (body : BitVec 256) (s : State) (hm : s.memsOk) : Out.sat (execEdge hdr body s) State.memsOk := by
  unfold execEdge; (repeat' split) <;> simp (maxDischargeDepth := 30) +contextual [hm]

theorem execCmdset_memsOk (hdr : BitVec 128) (recs : List CmdRec) (s : State) (hm : s.memsOk) : Out.sat (execCmdset hdr recs s) State.memsOk := by
  unfold execCmdset; (repeat' split) <;> simp (maxDischargeDepth := 30) +contextual [hm]

theorem execReport_memsOk (child : Nat) (hdr : BitVec 128) (rep : Report) (bodyBytes : Nat) (whole : Bool) (s : State) (hm : s.memsOk) : Out.sat (execReport child hdr rep bodyBytes whole s) State.memsOk := by
  unfold execReport; (repeat' split) <;> simp (maxDischargeDepth := 30) +contextual [hm]

theorem execRepeatMsg_memsOk (src : Nat) (hdr : BitVec 128) (body : BitVec 128) (s : State) (hm : s.memsOk) : Out.sat (execRepeatMsg src hdr body s) State.memsOk := by
  unfold execRepeatMsg; simp only [Out.sat_when, Out.sat_needPart, Out.sat_next, Out.sat_onCore]; intros; (repeat' split) <;> simp (maxDischargeDepth := 30) +contextual [hm]

theorem execReportRepeatTimeout_memsOk (child : Nat) (s : State) (hm : s.memsOk) : Out.sat (execReportRepeatTimeout child s) State.memsOk := by
  unfold execReportRepeatTimeout; simp (maxDischargeDepth := 30) +contextual [hm]

theorem execCheckAndCommitEntry_memsOk (s : State) (hm : s.memsOk) : Out.sat (execCheckAndCommitEntry s) State.memsOk := by
  unfold execCheckAndCommitEntry; simp (maxDischargeDepth := 30) +contextual [hm]

theorem execCheckReportSend_memsOk (now : W64) (busy hotSeq : W32) (hotShare : BitVec 16) (s : State) (hm : s.memsOk) : Out.sat (execCheckReportSend now busy hotSeq hotShare s) State.memsOk := by
  unfold execCheckReportSend; simp (maxDischargeDepth := 30) +contextual [hm]

theorem execMasterDecision_memsOk (now : W64) (s : State) (hm : s.memsOk) : Out.sat (execMasterDecision now s) State.memsOk := by
  unfold execMasterDecision; dsimp only; (repeat' split) <;> simp (maxDischargeDepth := 30) +contextual [hm]

theorem execEdgeIssue_memsOk (now : W64) (s : State) (hm : s.memsOk) : Out.sat (execEdgeIssue now s) State.memsOk := by
  unfold execEdgeIssue; dsimp only; (repeat' split) <;> simp (maxDischargeDepth := 30) +contextual [hm]

theorem execTickEdgeApply_memsOk (now : W64) (writeErrors : List Nat) (crew : EdgeInput) (s : State) (hm : s.memsOk) : Out.sat (execTickEdgeApply now writeErrors crew s) State.memsOk := by
  unfold execTickEdgeApply; dsimp only; (repeat' split) <;> simp (maxDischargeDepth := 30) +contextual [hm]

end Sys2Proof.Machine
end

