-- ==== Sys2Proof/Laws/ExecStatus.lean ====
section
/-! SUPPORT. The commands that leave the module status and the membership alone. -/

namespace Sys2Proof.Machine

theorem State.decodeCmd_status (s : State) (rid : Nat) (op : Byte) (f : Req → State) (hf : ∀ r, (f r).status = s.status) :
    Out.sat (s.decodeCmd rid op f) fun t => t.status = s.status := by
  unfold State.decodeCmd; split
  · simp [hf]
  · simp

@[simp] theorem State.mailboxOp_status (s : State) (port : Nat) (f : State) (hf : f.status = s.status) :
    Out.sat (s.mailboxOp port f) fun t => t.status = s.status := by
  simp only [State.mailboxOp, Out.sat_next]; (repeat' split) <;> simp [hf]

@[simp] theorem State.tapLoad_status (s : State) (tap : Nat) (i : TapInstr) :
    Out.sat (s.tapLoad tap i) fun t => t.status = s.status := by
  simp [State.tapLoad]

theorem execStandbyPowerUp_status (vin : BitVec 16) (s : State) : Out.sat (execStandbyPowerUp vin s) fun t => t.status = s.status := by
  unfold execStandbyPowerUp; simp

theorem execPwrEnAssert_status (present : Bool) (s : State) : Out.sat (execPwrEnAssert present s) fun t => t.status = s.status := by
  unfold execPwrEnAssert; simp

theorem execPowerUpHoldoffExpiry_status (s : State) : Out.sat (execPowerUpHoldoffExpiry s) fun t => t.status = s.status := by
  unfold execPowerUpHoldoffExpiry; simp

theorem execPerstAssert_status (port : Nat) (s : State) : Out.sat (execPerstAssert port s) fun t => t.status = s.status := by
  unfold execPerstAssert; simp

theorem execPerstDeassert_status (port : Nat) (s : State) : Out.sat (execPerstDeassert port s) fun t => t.status = s.status := by
  unfold execPerstDeassert; simp

theorem execFunctionLevelReset_status (port : Nat) (s : State) : Out.sat (execFunctionLevelReset port s) fun t => t.status = s.status := by
  unfold execFunctionLevelReset; simp

theorem execBar0BadAccess_status (port : Nat) (isWrite : Bool) (offset size : Nat) (s : State) : Out.sat (execBar0BadAccess port isWrite offset size s) fun t => t.status = s.status := by
  unfold execBar0BadAccess; simp

theorem execDoorbellSq_status (port qid : Nat) (value : W32) (s : State) : Out.sat (execDoorbellSq port qid value s) fun t => t.status = s.status := by
  unfold execDoorbellSq; simp

theorem execDoorbellCq_status (port qid : Nat) (value : W32) (s : State) : Out.sat (execDoorbellCq port qid value s) fun t => t.status = s.status := by
  unfold execDoorbellCq; simp

theorem execHostErrClear_status (port : Nat) (value : W64) (s : State) : Out.sat (execHostErrClear port value s) fun t => t.status = s.status := by
  unfold execHostErrClear; simp

theorem execSnapHoldSet_status (port : Nat) (s : State) : Out.sat (execSnapHoldSet port s) fun t => t.status = s.status := by
  unfold execSnapHoldSet; simp

theorem execSnapHoldRelease_status (port : Nat) (s : State) : Out.sat (execSnapHoldRelease port s) fun t => t.status = s.status := by
  unfold execSnapHoldRelease; simp

theorem execTmuxSelWrite_status (port : Nat) (value : W64) (s : State) : Out.sat (execTmuxSelWrite port value s) fun t => t.status = s.status := by
  unfold execTmuxSelWrite; simp

theorem execTmuxSwitch_status (pin : Nat) (s : State) : Out.sat (execTmuxSwitch pin s) fun t => t.status = s.status := by
  unfold execTmuxSwitch; dsimp only; (repeat' split) <;> simp

theorem execLinkStatusClear_status (port n : Nat) (value : W64) (s : State) : Out.sat (execLinkStatusClear port n value s) fun t => t.status = s.status := by
  unfold execLinkStatusClear; simp

theorem execMailboxRead_status (port : Nat) (failUnit : Option Nat) (s : State) : Out.sat (execMailboxRead port failUnit s) fun t => t.status = s.status := by
  unfold execMailboxRead; refine State.mailboxOp_status _ _ _ ?_; (repeat' split) <;> simp

theorem execMailboxWrite_status (port : Nat) (data : List Byte) (failUnit badUnit : Option Nat) (s : State) : Out.sat (execMailboxWrite port data failUnit badUnit s) fun t => t.status = s.status := by
  unfold execMailboxWrite; refine State.mailboxOp_status _ _ _ ?_; (repeat' split) <;> simp

theorem execMailboxReservedOp_status (port : Nat) (op : Byte) (s : State) : Out.sat (execMailboxReservedOp port op s) fun t => t.status = s.status := by
  unfold execMailboxReservedOp; refine State.mailboxOp_status _ _ _ ?_; (repeat' split) <;> simp

theorem execMailboxDone_status (s : State) : Out.sat (execMailboxDone s) fun t => t.status = s.status := by
  unfold execMailboxDone; simp

theorem execSmbusRecoveryWrite_status (code value : Byte) (pec : Option Byte) (s : State) : Out.sat (execSmbusRecoveryWrite code value pec s) fun t => t.status = s.status := by
  unfold execSmbusRecoveryWrite; dsimp only; (repeat' split) <;> simp

theorem execSubmissionFetch_status (port qid : Nat) (entries : List (BitVec 512)) (pcieError : Bool) (s : State) : Out.sat (execSubmissionFetch port qid entries pcieError s) fun t => t.status = s.status := by
  unfold execSubmissionFetch; simp

theorem execSnapshotTransfer_status (s : State) : Out.sat (execSnapshotTransfer s) fun t => t.status = s.status := by
  unfold execSnapshotTransfer; dsimp only; (repeat' split) <;> simp

theorem execThrottleEvaluation_status (r : SensorReadings) (s : State) : Out.sat (execThrottleEvaluation r s) fun t => t.status = s.status := by
  unfold execThrottleEvaluation; simp

theorem execThrottleRaise_status (r : SensorReadings) (s : State) : Out.sat (execThrottleRaise r s) fun t => t.status = s.status := by
  unfold execThrottleRaise; simp

theorem execNandThrottle_status (celsius10 : Int) (s : State) : Out.sat (execNandThrottle celsius10 s) fun t => t.status = s.status := by
  unfold execNandThrottle; simp

theorem execNandThrottleRelease_status (celsius10 : Int) (s : State) : Out.sat (execNandThrottleRelease celsius10 s) fun t => t.status = s.status := by
  unfold execNandThrottleRelease; simp

theorem execExtest_status (tap : Nat) (s : State) : Out.sat (execExtest tap s) fun t => t.status = s.status := by
  exact State.tapLoad_status s _ _

theorem execSamplePreload_status (tap : Nat) (pins : List Bool) (s : State) : Out.sat (execSamplePreload tap pins s) fun t => t.status = s.status := by
  unfold execSamplePreload; simp

theorem execIdcode_status (tap : Nat) (s : State) : Out.sat (execIdcode tap s) fun t => t.status = s.status := by
  exact State.tapLoad_status s _ _

theorem execHighz_status (tap : Nat) (s : State) : Out.sat (execHighz tap s) fun t => t.status = s.status := by
  exact State.tapLoad_status s _ _

theorem execClamp_status (tap : Nat) (s : State) : Out.sat (execClamp tap s) fun t => t.status = s.status := by
  exact State.tapLoad_status s _ _

theorem execExtestPulse_status (tap : Nat) (s : State) : Out.sat (execExtestPulse tap s) fun t => t.status = s.status := by
  exact State.tapLoad_status s _ _

theorem execExtestTrain_status (tap : Nat) (s : State) : Out.sat (execExtestTrain tap s) fun t => t.status = s.status := by
  exact State.tapLoad_status s _ _

theorem execBypass_status (tap : Nat) (opcode : Byte) (s : State) : Out.sat (execBypass tap opcode s) fun t => t.status = s.status := by
  exact State.tapLoad_status s _ _

theorem execTestLogicReset_status (s : State) : Out.sat (execTestLogicReset s) fun t => t.status = s.status := by
  unfold execTestLogicReset; simp

theorem execLaneLock_status (port : Nat) (lanes : List Nat) (skewNs : Nat) (s : State) : Out.sat (execLaneLock port lanes skewNs s) fun t => t.status = s.status := by
  unfold execLaneLock; simp

theorem execFlitLock_status (port : Nat) (s : State) : Out.sat (execFlitLock port s) fun t => t.status = s.status := by
  unfold execFlitLock; simp

theorem execTrainRecord_status (port : Nat) (rec : BitVec 1920) (now : W64) (s : State) : Out.sat (execTrainRecord port rec now s) fun t => t.status = s.status := by
  unfold execTrainRecord; dsimp only; (repeat' split) <;> simp

theorem execTrainRecordSend_status (port : Nat) (now : W64) (s : State) : Out.sat (execTrainRecordSend port now s) fun t => t.status = s.status := by
  unfold execTrainRecordSend; simp

theorem execTrainingStepTimeout_status (port : Nat) (s : State) : Out.sat (execTrainingStepTimeout port s) fun t => t.status = s.status := by
  unfold execTrainingStepTimeout; simp

theorem execTrainingRetry_status (port : Nat) (s : State) : Out.sat (execTrainingRetry port s) fun t => t.status = s.status := by
  unfold execTrainingRetry; simp

theorem execTimestampExchange_status (port : Nat) (samples : List (Nat × Nat × Nat × Nat)) (s : State) : Out.sat (execTimestampExchange port samples s) fun t => t.status = s.status := by
  unfold execTimestampExchange; simp

theorem execFlitReceive_status (port : Nat) (hdr : BitVec 128) (payload : List Byte) (s : State) : Out.sat (execFlitReceive port hdr payload s) fun t => t.status = s.status := by
  unfold execFlitReceive; dsimp only; (repeat' split) <;> simp

theorem execFlitSend_status (port : Nat) (s : State) : Out.sat (execFlitSend port s) fun t => t.status = s.status := by
  unfold execFlitSend; dsimp only; (repeat' split) <;> simp

theorem execNak_status (port : Nat) (seqs : List Nat) (s : State) : Out.sat (execNak port seqs s) fun t => t.status = s.status := by
  unfold execNak; split
  · simp
  · simp only [Out.sat_needPart, Out.sat_next]; intro _
    refine (foldl_status _ (fun s q => ?_) _ _).trans ?_
    · split <;> simp
    · simp

theorem execCredit_status (port : Nat) (returns : List (Nat × Nat × Nat)) (s : State) : Out.sat (execCredit port returns s) fun t => t.status = s.status := by
  unfold execCredit; simp

theorem execLaserOffExpiry_status (port : Nat) (s : State) : Out.sat (execLaserOffExpiry port s) fun t => t.status = s.status := by
  unfold execLaserOffExpiry; simp

theorem execOpenSeq_status (rid : Nat) (s : State) : Out.sat (execOpenSeq rid s) fun t => t.status = s.status := by
  unfold execOpenSeq; refine State.decodeCmd_status _ _ _ _ (fun r => ?_); (repeat' split) <;> simp

theorem execFork_status (rid : Nat) (s : State) : Out.sat (execFork rid s) fun t => t.status = s.status := by
  unfold execFork; refine State.decodeCmd_status _ _ _ _ (fun r => ?_); (repeat' split) <;> simp

theorem execAbort_status (rid : Nat) (s : State) : Out.sat (execAbort rid s) fun t => t.status = s.status := by
  unfold execAbort; refine State.decodeCmd_status _ _ _ _ (fun r => ?_); (repeat' split) <;> simp

theorem execClose_status (rid : Nat) (s : State) : Out.sat (execClose rid s) fun t => t.status = s.status := by
  unfold execClose; refine State.decodeCmd_status _ _ _ _ (fun r => ?_); (repeat' split) <;> simp

theorem execAppend_status (rid : Nat) (data : HostRead) (s : State) : Out.sat (execAppend rid data s) fun t => t.status = s.status := by
  unfold execAppend; split
  · split
    · simp
    · exact State.decodeCmd_status _ _ _ _ fun r => by simp [State.stageCmd]
  · simp

theorem execGenerate_status (rid : Nat) (drafts : HostRead) (s : State) : Out.sat (execGenerate rid drafts s) fun t => t.status = s.status := by
  unfold execGenerate; split
  · split
    · simp only [Out.sat_when]; (repeat' split) <;> simp
    · exact State.decodeCmd_status _ _ _ _ fun r => by simp [State.stageCmd]
  · simp

theorem execLoadWeights_status (rid : Nat) (data : HostRead) (s : State) : Out.sat (execLoadWeights rid data s) fun t => t.status = s.status := by
  unfold execLoadWeights; refine State.decodeCmd_status _ _ _ _ (fun r => ?_); (repeat' split) <;> simp

theorem execSetQuotaLot_status (rid : Nat) (s : State) : Out.sat (execSetQuotaLot rid s) fun t => t.status = s.status := by
  unfold execSetQuotaLot; refine State.decodeCmd_status _ _ _ _ (fun r => ?_); (repeat' split) <;> simp

theorem execSetQuotaQueueMap_status (rid : Nat) (s : State) : Out.sat (execSetQuotaQueueMap rid s) fun t => t.status = s.status := by
  unfold execSetQuotaQueueMap; refine State.decodeCmd_status _ _ _ _ (fun r => ?_); (repeat' split) <;> simp

theorem execSetProfile_status (rid : Nat) (s : State) : Out.sat (execSetProfile rid s) fun t => t.status = s.status := by
  unfold execSetProfile; refine State.decodeCmd_status _ _ _ _ (fun r => ?_); (repeat' split) <;> simp

theorem execVecInsert_status (rid : Nat) (data : HostRead) (s : State) : Out.sat (execVecInsert rid data s) fun t => t.status = s.status := by
  unfold execVecInsert; refine State.decodeCmd_status _ _ _ _ (fun r => ?_); (repeat' split) <;> simp

theorem execCodebookReload_status (rid : Nat) (data : HostRead) (s : State) : Out.sat (execCodebookReload rid data s) fun t => t.status = s.status := by
  unfold execCodebookReload; refine State.decodeCmd_status _ _ _ _ (fun r => ?_); (repeat' split) <;> simp

theorem execVecDelete_status (rid : Nat) (s : State) : Out.sat (execVecDelete rid s) fun t => t.status = s.status := by
  unfold execVecDelete; refine State.decodeCmd_status _ _ _ _ (fun r => ?_); (repeat' split) <;> simp

theorem execVecSearch_status (rid : Nat) (data : HostRead) (s : State) : Out.sat (execVecSearch rid data s) fun t => t.status = s.status := by
  unfold execVecSearch; refine State.decodeCmd_status _ _ _ _ (fun r => ?_); (repeat' split) <;> simp

theorem execReadCounters_status (rid : Nat) (s : State) : Out.sat (execReadCounters rid s) fun t => t.status = s.status := by
  unfold execReadCounters; refine State.decodeCmd_status _ _ _ _ (fun r => ?_); (repeat' split) <;> simp

theorem execAttest_status (rid : Nat) (nonce : HostRead) (s : State) : Out.sat (execAttest rid nonce s) fun t => t.status = s.status := by
  unfold execAttest; refine State.decodeCmd_status _ _ _ _ (fun r => ?_); (repeat' split) <;> simp

theorem execWriteImage_status (rid : Nat) (data : HostRead) (s : State) : Out.sat (execWriteImage rid data s) fun t => t.status = s.status := by
  unfold execWriteImage; refine State.decodeCmd_status _ _ _ _ (fun r => ?_); (repeat' split) <;> simp

theorem execNorProgramComplete_status (mismatch : Bool) (s : State) : Out.sat (execNorProgramComplete mismatch s) fun t => t.status = s.status := by
  unfold execNorProgramComplete; dsimp only; (repeat' split) <;> simp

theorem execDrain_status (rid : Nat) (s : State) : Out.sat (execDrain rid s) fun t => t.status = s.status := by
  unfold execDrain; refine State.decodeCmd_status _ _ _ _ (fun r => ?_); (repeat' split) <;> simp

theorem execInvalidOpcode_status (rid : Nat) (s : State) : Out.sat (execInvalidOpcode rid s) fun t => t.status = s.status := by
  unfold execInvalidOpcode; split <;> (try split) <;> first | simp | (refine State.decodeCmd_status _ _ _ _ (fun r => ?_); (repeat' split) <;> simp)

theorem execTaskIssue_status (die core ctx : Nat) (s : State) : Out.sat (execTaskIssue die core ctx s) fun t => t.status = s.status := by
  unfold execTaskIssue; dsimp only; (repeat' split) <;> simp

theorem execStandPortGrant_status (die stand : Nat) (s : State) : Out.sat (execStandPortGrant die stand s) fun t => t.status = s.status := by
  unfold execStandPortGrant; dsimp only; (repeat' split) <;> simp

theorem execTileLoadComplete_status (die stand : Nat) (s : State) : Out.sat (execTileLoadComplete die stand s) fun t => t.status = s.status := by
  unfold execTileLoadComplete; dsimp only; (repeat' split) <;> simp

theorem execContextSwitch_status (die core : Nat) (s : State) : Out.sat (execContextSwitch die core s) fun t => t.status = s.status := by
  unfold execContextSwitch; dsimp only; (repeat' split) <;> simp

theorem execHaloCopy_status (die core : Nat) (s : State) : Out.sat (execHaloCopy die core s) fun t => t.status = s.status := by
  unfold execHaloCopy; dsimp only; (repeat' split) <;> simp

theorem execTileDrain_status (die core : Nat) (s : State) : Out.sat (execTileDrain die core s) fun t => t.status = s.status := by
  unfold execTileDrain; dsimp only; (repeat' split) <;> simp

theorem execSeparateChainPass_status (die core : Nat) (s : State) : Out.sat (execSeparateChainPass die core s) fun t => t.status = s.status := by
  unfold execSeparateChainPass; dsimp only; (repeat' split) <;> simp

theorem execCompletionMessage_status (task : Nat) (s : State) : Out.sat (execCompletionMessage task s) fun t => t.status = s.status := by
  unfold execCompletionMessage; simp

theorem execNormalisation_status (die core : Nat) (job : RowJob) (s : State) : Out.sat (execNormalisation die core job s) fun t => t.status = s.status := by
  unfold execNormalisation; dsimp only; (repeat' split) <;> simp

theorem execSoftMaximum_status (die core : Nat) (job : RowJob) (s : State) : Out.sat (execSoftMaximum die core job s) fun t => t.status = s.status := by
  unfold execSoftMaximum; dsimp only; (repeat' split) <;> simp

theorem execRotaryRotation_status (die core : Nat) (task addr rows : Nat) (positions : List Nat) (s : State) : Out.sat (execRotaryRotation die core task addr rows positions s) fun t => t.status = s.status := by
  unfold execRotaryRotation; dsimp only; (repeat' split) <;> simp

theorem execBlockFold_status (die core : Nat) (job : FoldJob) (s : State) : Out.sat (execBlockFold die core job s) fun t => t.status = s.status := by
  unfold execBlockFold; dsimp only; (repeat' split) <;> simp

theorem execTokenChoice_status (job : TokenJob) (logits : List (List W32)) (s : State) : Out.sat (execTokenChoice job logits s) fun t => t.status = s.status := by
  unfold execTokenChoice; dsimp only; (repeat' split) <;> simp

theorem execFunctionTableFill_status (die core : Nat) (s : State) : Out.sat (execFunctionTableFill die core s) fun t => t.status = s.status := by
  unfold execFunctionTableFill; simp

theorem execSketchTask_status (die core : Nat) (seq : W32) (v : Nat) (sK : W32) (s : State) : Out.sat (execSketchTask die core seq v sK s) fun t => t.status = s.status := by
  unfold execSketchTask; dsimp only; (repeat' split) <;> simp

theorem execPageRanking_status (core : CoreRef) (rid layer head : Nat) (queries : List (List W32)) (s : State) : Out.sat (execPageRanking core rid layer head queries s) fun t => t.status = s.status := by
  unfold execPageRanking; dsimp only; (repeat' split) <;> simp

theorem execRingStepFold_status (round ring step : Nat) (part : RingPart) (s : State) : Out.sat (execRingStepFold round ring step part s) fun t => t.status = s.status := by
  unfold execRingStepFold; dsimp only; (repeat' split) <;> simp

theorem execStreamGrant_status (point : ArbPoint) (s : State) : Out.sat (execStreamGrant point s) fun t => t.status = s.status := by
  unfold execStreamGrant; (repeat' split) <;> simp (maxDischargeDepth := 30)

theorem execWalkRequest_status (die ctx stream : Nat) (seq : W32) (pages : List Nat) (ask : WalkAsk) (dst : Nat) (s : State) : Out.sat (execWalkRequest die ctx stream seq pages ask dst s) fun t => t.status = s.status := by
  unfold execWalkRequest; dsimp only; (repeat' split) <;> simp

theorem execTailAppend_status (die core rid : Nat) (seq : W32) (layer head pos : Nat) (key val : List W32) (sK sV : W32) (s : State) : Out.sat (execTailAppend die core rid seq layer head pos key val sK sV s) fun t => t.status = s.status := by
  unfold execTailAppend; dsimp only; (repeat' split) <;> simp

theorem execScatter_status (die core rid : Nat) (seq : W32) (layer head pos : Nat) (key val : List W32) (sK sV : W32) (frame : Nat) (s : State) : Out.sat (execScatter die core rid seq layer head pos key val sK sV frame s) fun t => t.status = s.status := by
  unfold execScatter; dsimp only; (repeat' split) <;> simp

theorem execPageCopy_status (src dst : Nat) (s : State) : Out.sat (execPageCopy src dst s) fun t => t.status = s.status := by
  unfold execPageCopy; simp

theorem execPageCopyComplete_status (src dst : Nat) (s : State) : Out.sat (execPageCopyComplete src dst s) fun t => t.status = s.status := by
  unfold execPageCopyComplete; simp

theorem execCleaningWrite_status (frame flashFrame : Nat) (complete : Bool) (s : State) : Out.sat (execCleaningWrite frame flashFrame complete s) fun t => t.status = s.status := by
  unfold execCleaningWrite; dsimp only; (repeat' split) <;> simp

theorem execHbmUncorrectable_status (frame : Nat) (s : State) : Out.sat (execHbmUncorrectable frame s) fun t => t.status = s.status := by
  unfold execHbmUncorrectable; simp

theorem execScrub_status (frame : Nat) (corrected : Bool) (s : State) : Out.sat (execScrub frame corrected s) fun t => t.status = s.status := by
  unfold execScrub; simp

theorem execRefresh_status (stack row : Nat) (s : State) : Out.sat (execRefresh stack row s) fun t => t.status = s.status := by
  unfold execRefresh; simp

theorem execReadDisturbRefresh_status (stack row : Nat) (s : State) : Out.sat (execReadDisturbRefresh stack row s) fun t => t.status = s.status := by
  unfold execReadDisturbRefresh; simp

theorem execFlashRead_status (frame : Nat) (hardOk : Bool) (softRetry : Option Nat) (s : State) : Out.sat (execFlashRead frame hardOk softRetry s) fun t => t.status = s.status := by
  unfold execFlashRead; dsimp only; (repeat' split) <;> simp

theorem execWearLevelling_status (channel : Nat) (s : State) : Out.sat (execWearLevelling channel s) fun t => t.status = s.status := by
  unfold execWearLevelling; simp only [Out.sat_when, Out.sat_needPart, Out.sat_next, Out.sat_onCore]; (repeat' split) <;> simp

theorem execReadDisturbRelocation_status (channel block : Nat) (s : State) : Out.sat (execReadDisturbRelocation channel block s) fun t => t.status = s.status := by
  unfold execReadDisturbRelocation; simp

theorem execProgramFailure_status (channel block : Nat) (s : State) : Out.sat (execProgramFailure channel block s) fun t => t.status = s.status := by
  unfold execProgramFailure; simp

theorem execGarbageCollection_status (channel : Nat) (s : State) : Out.sat (execGarbageCollection channel s) fun t => t.status = s.status := by
  unfold execGarbageCollection; simp

theorem execSramUncorrectable_status (partKind partNum : Nat) (s : State) : Out.sat (execSramUncorrectable partKind partNum s) fun t => t.status = s.status := by
  unfold execSramUncorrectable; simp

theorem execSearchAdmission_status (rid : Nat) (s : State) : Out.sat (execSearchAdmission rid s) fun t => t.status = s.status := by
  unfold execSearchAdmission; dsimp only; (repeat' split) <;> simp

theorem execRecordExpansion_status (slot : Nat) (readable : Bool) (s : State) : Out.sat (execRecordExpansion slot readable s) fun t => t.status = s.status := by
  unfold execRecordExpansion; dsimp only; (repeat' split) <;> simp

theorem execSideScan_status (slot : Nat) (lostFrames : List Nat) (s : State) : Out.sat (execSideScan slot lostFrames s) fun t => t.status = s.status := by
  unfold execSideScan; dsimp only; (repeat' split) <;> simp

theorem execResultAssembly_status (slot : Nat) (lostNodes : List Nat) (s : State) : Out.sat (execResultAssembly slot lostNodes s) fun t => t.status = s.status := by
  unfold execResultAssembly; dsimp only; (repeat' split) <;> simp

theorem execMergeFinish_status (index : Nat) (s : State) : Out.sat (execMergeFinish index s) fun t => t.status = s.status := by
  unfold execMergeFinish; split <;> (try split) <;> first | simp | (refine State.decodeCmd_status _ _ _ _ (fun r => ?_); (repeat' split) <;> simp)

theorem execChunkReceive_status (sender : Nat) (hdr : BitVec 256) (payload : List Byte) (stack : Nat) (s : State) : Out.sat (execChunkReceive sender hdr payload stack s) fun t => t.status = s.status := by
  unfold execChunkReceive; simp

theorem execCombine_status (coll item step chunk : Nat) (left right : List W32) (residueOk : Bool) (s : State) : Out.sat (execCombine coll item step chunk left right residueOk s) fun t => t.status = s.status := by
  unfold execCombine; dsimp only; (repeat' split) <;> simp

theorem execPlan_status (p : PlanInput) (s : State) : Out.sat (execPlan p s) fun t => t.status = s.status := by
  unfold execPlan; dsimp only; (repeat' split) <;> simp

theorem execLayoutDelta_status (entries : List DeltaEntry) (s : State) : Out.sat (execLayoutDelta entries s) fun t => t.status = s.status := by
  unfold execLayoutDelta; simp

theorem execDeltaReceive_status (version firstPlan : W64) (entries : List DeltaEntry) (s : State) : Out.sat (execDeltaReceive version firstPlan entries s) fun t => t.status = s.status := by
  unfold execDeltaReceive; simp

theorem execEdge_status (hdr : BitVec 128) (body : BitVec 256) (s : State) : Out.sat (execEdge hdr body s) fun t => t.status = s.status := by
  unfold execEdge; (repeat' split) <;> simp (maxDischargeDepth := 30)

theorem execCmdset_status (hdr : BitVec 128) (recs : List CmdRec) (s : State) : Out.sat (execCmdset hdr recs s) fun t => t.status = s.status := by
  unfold execCmdset; (repeat' split) <;> simp (maxDischargeDepth := 30)

theorem execReport_status (child : Nat) (hdr : BitVec 128) (rep : Report) (bodyBytes : Nat) (whole : Bool) (s : State) : Out.sat (execReport child hdr rep bodyBytes whole s) fun t => t.status = s.status := by
  unfold execReport; (repeat' split) <;> simp (maxDischargeDepth := 30)

theorem execRepeatMsg_status (src : Nat) (hdr : BitVec 128) (body : BitVec 128) (s : State) : Out.sat (execRepeatMsg src hdr body s) fun t => t.status = s.status := by
  unfold execRepeatMsg; simp only [Out.sat_when, Out.sat_needPart, Out.sat_next, Out.sat_onCore]; (repeat' split) <;> simp

theorem execReportRepeatTimeout_status (child : Nat) (s : State) : Out.sat (execReportRepeatTimeout child s) fun t => t.status = s.status := by
  unfold execReportRepeatTimeout; simp

theorem execCheckAndCommitEntry_status (s : State) : Out.sat (execCheckAndCommitEntry s) fun t => t.status = s.status := by
  unfold execCheckAndCommitEntry; simp

theorem execCheckReportSend_status (now : W64) (busy hotSeq : W32) (hotShare : BitVec 16) (s : State) : Out.sat (execCheckReportSend now busy hotSeq hotShare s) fun t => t.status = s.status := by
  unfold execCheckReportSend; simp

theorem execMasterDecision_status (now : W64) (s : State) : Out.sat (execMasterDecision now s) fun t => t.status = s.status := by
  unfold execMasterDecision; dsimp only; (repeat' split) <;> simp

theorem execEdgeIssue_status (now : W64) (s : State) : Out.sat (execEdgeIssue now s) fun t => t.status = s.status := by
  unfold execEdgeIssue; dsimp only; (repeat' split) <;> simp

end Sys2Proof.Machine
end

