-- ==== Sys2Proof/Laws/State.lean ====
section
/-! SUPPORT. What the shared updates of the state leave alone, one lemma per field, and what they set. -/

namespace Sys2Proof.Machine

variable (s : State)

/-! ### setDie -/

@[simp] theorem State.setDie_ident (d : Nat) (x : Die) : (s.setDie d x).ident = s.ident := (rfl)
@[simp] theorem State.setDie_pwr (d : Nat) (x : Die) : (s.setDie d x).pwr = s.pwr := (rfl)
@[simp] theorem State.setDie_sys (d : Nat) (x : Die) : (s.setDie d x).sys = s.sys := (rfl)
@[simp] theorem State.setDie_smb (d : Nat) (x : Die) : (s.setDie d x).smb = s.smb := (rfl)
@[simp] theorem State.setDie_nor (d : Nat) (x : Die) : (s.setDie d x).nor = s.nor := (rfl)
@[simp] theorem State.setDie_norBusy (d : Nat) (x : Die) : (s.setDie d x).norBusy = s.norBusy := (rfl)
@[simp] theorem State.setDie_img (d : Nat) (x : Die) : (s.setDie d x).img = s.img := (rfl)
@[simp] theorem State.setDie_sec (d : Nat) (x : Die) : (s.setDie d x).sec = s.sec := (rfl)
@[simp] theorem State.setDie_mbx (d : Nat) (x : Die) : (s.setDie d x).mbx = s.mbx := (rfl)
@[simp] theorem State.setDie_host (d : Nat) (x : Die) : (s.setDie d x).host = s.host := (rfl)
@[simp] theorem State.setDie_profile (d : Nat) (x : Die) : (s.setDie d x).profile = s.profile := (rfl)
@[simp] theorem State.setDie_lots (d : Nat) (x : Die) : (s.setDie d x).lots = s.lots := (rfl)
@[simp] theorem State.setDie_reqs (d : Nat) (x : Die) : (s.setDie d x).reqs = s.reqs := (rfl)
@[simp] theorem State.setDie_seqs (d : Nat) (x : Die) : (s.setDie d x).seqs = s.seqs := (rfl)
@[simp] theorem State.setDie_nodes (d : Nat) (x : Die) : (s.setDie d x).nodes = s.nodes := (rfl)
@[simp] theorem State.setDie_hbm (d : Nat) (x : Die) : (s.setDie d x).hbm = s.hbm := (rfl)
@[simp] theorem State.setDie_land (d : Nat) (x : Die) : (s.setDie d x).land = s.land := (rfl)
@[simp] theorem State.setDie_sketches (d : Nat) (x : Die) : (s.setDie d x).sketches = s.sketches := (rfl)
@[simp] theorem State.setDie_qsketch (d : Nat) (x : Die) : (s.setDie d x).qsketch = s.qsketch := (rfl)
@[simp] theorem State.setDie_flash (d : Nat) (x : Die) : (s.setDie d x).flash = s.flash := (rfl)
@[simp] theorem State.setDie_vidx (d : Nat) (x : Die) : (s.setDie d x).vidx = s.vidx := (rfl)
@[simp] theorem State.setDie_searches (d : Nat) (x : Die) : (s.setDie d x).searches = s.searches := (rfl)
@[simp] theorem State.setDie_wt (d : Nat) (x : Die) : (s.setDie d x).wt = s.wt := (rfl)
@[simp] theorem State.setDie_tick (d : Nat) (x : Die) : (s.setDie d x).tick = s.tick := (rfl)
@[simp] theorem State.setDie_crew (d : Nat) (x : Die) : (s.setDie d x).crew = s.crew := (rfl)
@[simp] theorem State.setDie_ports (d : Nat) (x : Die) : (s.setDie d x).ports = s.ports := (rfl)
@[simp] theorem State.setDie_yard (d : Nat) (x : Die) : (s.setDie d x).yard = s.yard := (rfl)
@[simp] theorem State.setDie_coll (d : Nat) (x : Die) : (s.setDie d x).coll = s.coll := (rfl)
@[simp] theorem State.setDie_cores (d : Nat) (x : Die) : (s.setDie d x).cores = s.cores := (rfl)
@[simp] theorem State.setDie_stands (d : Nat) (x : Die) : (s.setDie d x).stands = s.stands := (rfl)
@[simp] theorem State.setDie_fore (d : Nat) (x : Die) : (s.setDie d x).fore = s.fore := (rfl)
@[simp] theorem State.setDie_ctr (d : Nat) (x : Die) : (s.setDie d x).ctr = s.ctr := (rfl)
@[simp] theorem State.setDie_therm (d : Nat) (x : Die) : (s.setDie d x).therm = s.therm := (rfl)
@[simp] theorem State.setDie_tmux (d : Nat) (x : Die) : (s.setDie d x).tmux = s.tmux := (rfl)
@[simp] theorem State.setDie_jtag (d : Nat) (x : Die) : (s.setDie d x).jtag = s.jtag := (rfl)
@[simp] theorem State.setDie_chk (d : Nat) (x : Die) : (s.setDie d x).chk = s.chk := (rfl)
@[simp] theorem State.setDie_freeIx (d : Nat) (x : Die) : (s.setDie d x).freeIx = s.freeIx := (rfl)
@[simp] theorem State.setDie_pending (d : Nat) (x : Die) : (s.setDie d x).pending = s.pending := (rfl)

/-! ### setCore -/

@[simp] theorem State.setCore_ident (c : Nat) (x : Core) : (s.setCore c x).ident = s.ident := (rfl)
@[simp] theorem State.setCore_pwr (c : Nat) (x : Core) : (s.setCore c x).pwr = s.pwr := (rfl)
@[simp] theorem State.setCore_sys (c : Nat) (x : Core) : (s.setCore c x).sys = s.sys := (rfl)
@[simp] theorem State.setCore_smb (c : Nat) (x : Core) : (s.setCore c x).smb = s.smb := (rfl)
@[simp] theorem State.setCore_nor (c : Nat) (x : Core) : (s.setCore c x).nor = s.nor := (rfl)
@[simp] theorem State.setCore_norBusy (c : Nat) (x : Core) : (s.setCore c x).norBusy = s.norBusy := (rfl)
@[simp] theorem State.setCore_img (c : Nat) (x : Core) : (s.setCore c x).img = s.img := (rfl)
@[simp] theorem State.setCore_sec (c : Nat) (x : Core) : (s.setCore c x).sec = s.sec := (rfl)
@[simp] theorem State.setCore_mbx (c : Nat) (x : Core) : (s.setCore c x).mbx = s.mbx := (rfl)
@[simp] theorem State.setCore_host (c : Nat) (x : Core) : (s.setCore c x).host = s.host := (rfl)
@[simp] theorem State.setCore_profile (c : Nat) (x : Core) : (s.setCore c x).profile = s.profile := (rfl)
@[simp] theorem State.setCore_lots (c : Nat) (x : Core) : (s.setCore c x).lots = s.lots := (rfl)
@[simp] theorem State.setCore_reqs (c : Nat) (x : Core) : (s.setCore c x).reqs = s.reqs := (rfl)
@[simp] theorem State.setCore_seqs (c : Nat) (x : Core) : (s.setCore c x).seqs = s.seqs := (rfl)
@[simp] theorem State.setCore_nodes (c : Nat) (x : Core) : (s.setCore c x).nodes = s.nodes := (rfl)
@[simp] theorem State.setCore_hbm (c : Nat) (x : Core) : (s.setCore c x).hbm = s.hbm := (rfl)
@[simp] theorem State.setCore_land (c : Nat) (x : Core) : (s.setCore c x).land = s.land := (rfl)
@[simp] theorem State.setCore_sketches (c : Nat) (x : Core) : (s.setCore c x).sketches = s.sketches := (rfl)
@[simp] theorem State.setCore_qsketch (c : Nat) (x : Core) : (s.setCore c x).qsketch = s.qsketch := (rfl)
@[simp] theorem State.setCore_flash (c : Nat) (x : Core) : (s.setCore c x).flash = s.flash := (rfl)
@[simp] theorem State.setCore_vidx (c : Nat) (x : Core) : (s.setCore c x).vidx = s.vidx := (rfl)
@[simp] theorem State.setCore_searches (c : Nat) (x : Core) : (s.setCore c x).searches = s.searches := (rfl)
@[simp] theorem State.setCore_wt (c : Nat) (x : Core) : (s.setCore c x).wt = s.wt := (rfl)
@[simp] theorem State.setCore_tick (c : Nat) (x : Core) : (s.setCore c x).tick = s.tick := (rfl)
@[simp] theorem State.setCore_crew (c : Nat) (x : Core) : (s.setCore c x).crew = s.crew := (rfl)
@[simp] theorem State.setCore_ports (c : Nat) (x : Core) : (s.setCore c x).ports = s.ports := (rfl)
@[simp] theorem State.setCore_yard (c : Nat) (x : Core) : (s.setCore c x).yard = s.yard := (rfl)
@[simp] theorem State.setCore_coll (c : Nat) (x : Core) : (s.setCore c x).coll = s.coll := (rfl)
@[simp] theorem State.setCore_dies (c : Nat) (x : Core) : (s.setCore c x).dies = s.dies := (rfl)
@[simp] theorem State.setCore_stands (c : Nat) (x : Core) : (s.setCore c x).stands = s.stands := (rfl)
@[simp] theorem State.setCore_fore (c : Nat) (x : Core) : (s.setCore c x).fore = s.fore := (rfl)
@[simp] theorem State.setCore_ctr (c : Nat) (x : Core) : (s.setCore c x).ctr = s.ctr := (rfl)
@[simp] theorem State.setCore_therm (c : Nat) (x : Core) : (s.setCore c x).therm = s.therm := (rfl)
@[simp] theorem State.setCore_tmux (c : Nat) (x : Core) : (s.setCore c x).tmux = s.tmux := (rfl)
@[simp] theorem State.setCore_jtag (c : Nat) (x : Core) : (s.setCore c x).jtag = s.jtag := (rfl)
@[simp] theorem State.setCore_chk (c : Nat) (x : Core) : (s.setCore c x).chk = s.chk := (rfl)
@[simp] theorem State.setCore_freeIx (c : Nat) (x : Core) : (s.setCore c x).freeIx = s.freeIx := (rfl)
@[simp] theorem State.setCore_pending (c : Nat) (x : Core) : (s.setCore c x).pending = s.pending := (rfl)

/-! ### setStand -/

@[simp] theorem State.setStand_ident (n : Nat) (x : Stand) : (s.setStand n x).ident = s.ident := (rfl)
@[simp] theorem State.setStand_pwr (n : Nat) (x : Stand) : (s.setStand n x).pwr = s.pwr := (rfl)
@[simp] theorem State.setStand_sys (n : Nat) (x : Stand) : (s.setStand n x).sys = s.sys := (rfl)
@[simp] theorem State.setStand_smb (n : Nat) (x : Stand) : (s.setStand n x).smb = s.smb := (rfl)
@[simp] theorem State.setStand_nor (n : Nat) (x : Stand) : (s.setStand n x).nor = s.nor := (rfl)
@[simp] theorem State.setStand_norBusy (n : Nat) (x : Stand) : (s.setStand n x).norBusy = s.norBusy := (rfl)
@[simp] theorem State.setStand_img (n : Nat) (x : Stand) : (s.setStand n x).img = s.img := (rfl)
@[simp] theorem State.setStand_sec (n : Nat) (x : Stand) : (s.setStand n x).sec = s.sec := (rfl)
@[simp] theorem State.setStand_mbx (n : Nat) (x : Stand) : (s.setStand n x).mbx = s.mbx := (rfl)
@[simp] theorem State.setStand_host (n : Nat) (x : Stand) : (s.setStand n x).host = s.host := (rfl)
@[simp] theorem State.setStand_profile (n : Nat) (x : Stand) : (s.setStand n x).profile = s.profile := (rfl)
@[simp] theorem State.setStand_lots (n : Nat) (x : Stand) : (s.setStand n x).lots = s.lots := (rfl)
@[simp] theorem State.setStand_reqs (n : Nat) (x : Stand) : (s.setStand n x).reqs = s.reqs := (rfl)
@[simp] theorem State.setStand_seqs (n : Nat) (x : Stand) : (s.setStand n x).seqs = s.seqs := (rfl)
@[simp] theorem State.setStand_nodes (n : Nat) (x : Stand) : (s.setStand n x).nodes = s.nodes := (rfl)
@[simp] theorem State.setStand_hbm (n : Nat) (x : Stand) : (s.setStand n x).hbm = s.hbm := (rfl)
@[simp] theorem State.setStand_land (n : Nat) (x : Stand) : (s.setStand n x).land = s.land := (rfl)
@[simp] theorem State.setStand_sketches (n : Nat) (x : Stand) : (s.setStand n x).sketches = s.sketches := (rfl)
@[simp] theorem State.setStand_qsketch (n : Nat) (x : Stand) : (s.setStand n x).qsketch = s.qsketch := (rfl)
@[simp] theorem State.setStand_flash (n : Nat) (x : Stand) : (s.setStand n x).flash = s.flash := (rfl)
@[simp] theorem State.setStand_vidx (n : Nat) (x : Stand) : (s.setStand n x).vidx = s.vidx := (rfl)
@[simp] theorem State.setStand_searches (n : Nat) (x : Stand) : (s.setStand n x).searches = s.searches := (rfl)
@[simp] theorem State.setStand_wt (n : Nat) (x : Stand) : (s.setStand n x).wt = s.wt := (rfl)
@[simp] theorem State.setStand_tick (n : Nat) (x : Stand) : (s.setStand n x).tick = s.tick := (rfl)
@[simp] theorem State.setStand_crew (n : Nat) (x : Stand) : (s.setStand n x).crew = s.crew := (rfl)
@[simp] theorem State.setStand_ports (n : Nat) (x : Stand) : (s.setStand n x).ports = s.ports := (rfl)
@[simp] theorem State.setStand_yard (n : Nat) (x : Stand) : (s.setStand n x).yard = s.yard := (rfl)
@[simp] theorem State.setStand_coll (n : Nat) (x : Stand) : (s.setStand n x).coll = s.coll := (rfl)
@[simp] theorem State.setStand_dies (n : Nat) (x : Stand) : (s.setStand n x).dies = s.dies := (rfl)
@[simp] theorem State.setStand_cores (n : Nat) (x : Stand) : (s.setStand n x).cores = s.cores := (rfl)
@[simp] theorem State.setStand_fore (n : Nat) (x : Stand) : (s.setStand n x).fore = s.fore := (rfl)
@[simp] theorem State.setStand_ctr (n : Nat) (x : Stand) : (s.setStand n x).ctr = s.ctr := (rfl)
@[simp] theorem State.setStand_therm (n : Nat) (x : Stand) : (s.setStand n x).therm = s.therm := (rfl)
@[simp] theorem State.setStand_tmux (n : Nat) (x : Stand) : (s.setStand n x).tmux = s.tmux := (rfl)
@[simp] theorem State.setStand_jtag (n : Nat) (x : Stand) : (s.setStand n x).jtag = s.jtag := (rfl)
@[simp] theorem State.setStand_chk (n : Nat) (x : Stand) : (s.setStand n x).chk = s.chk := (rfl)
@[simp] theorem State.setStand_freeIx (n : Nat) (x : Stand) : (s.setStand n x).freeIx = s.freeIx := (rfl)
@[simp] theorem State.setStand_pending (n : Nat) (x : Stand) : (s.setStand n x).pending = s.pending := (rfl)

/-! ### setPort -/

@[simp] theorem State.setPort_ident (n : Nat) (x : LinkPort) : (s.setPort n x).ident = s.ident := (rfl)
@[simp] theorem State.setPort_pwr (n : Nat) (x : LinkPort) : (s.setPort n x).pwr = s.pwr := (rfl)
@[simp] theorem State.setPort_sys (n : Nat) (x : LinkPort) : (s.setPort n x).sys = s.sys := (rfl)
@[simp] theorem State.setPort_smb (n : Nat) (x : LinkPort) : (s.setPort n x).smb = s.smb := (rfl)
@[simp] theorem State.setPort_nor (n : Nat) (x : LinkPort) : (s.setPort n x).nor = s.nor := (rfl)
@[simp] theorem State.setPort_norBusy (n : Nat) (x : LinkPort) : (s.setPort n x).norBusy = s.norBusy := (rfl)
@[simp] theorem State.setPort_img (n : Nat) (x : LinkPort) : (s.setPort n x).img = s.img := (rfl)
@[simp] theorem State.setPort_sec (n : Nat) (x : LinkPort) : (s.setPort n x).sec = s.sec := (rfl)
@[simp] theorem State.setPort_mbx (n : Nat) (x : LinkPort) : (s.setPort n x).mbx = s.mbx := (rfl)
@[simp] theorem State.setPort_host (n : Nat) (x : LinkPort) : (s.setPort n x).host = s.host := (rfl)
@[simp] theorem State.setPort_profile (n : Nat) (x : LinkPort) : (s.setPort n x).profile = s.profile := (rfl)
@[simp] theorem State.setPort_lots (n : Nat) (x : LinkPort) : (s.setPort n x).lots = s.lots := (rfl)
@[simp] theorem State.setPort_reqs (n : Nat) (x : LinkPort) : (s.setPort n x).reqs = s.reqs := (rfl)
@[simp] theorem State.setPort_seqs (n : Nat) (x : LinkPort) : (s.setPort n x).seqs = s.seqs := (rfl)
@[simp] theorem State.setPort_nodes (n : Nat) (x : LinkPort) : (s.setPort n x).nodes = s.nodes := (rfl)
@[simp] theorem State.setPort_hbm (n : Nat) (x : LinkPort) : (s.setPort n x).hbm = s.hbm := (rfl)
@[simp] theorem State.setPort_land (n : Nat) (x : LinkPort) : (s.setPort n x).land = s.land := (rfl)
@[simp] theorem State.setPort_sketches (n : Nat) (x : LinkPort) : (s.setPort n x).sketches = s.sketches := (rfl)
@[simp] theorem State.setPort_qsketch (n : Nat) (x : LinkPort) : (s.setPort n x).qsketch = s.qsketch := (rfl)
@[simp] theorem State.setPort_flash (n : Nat) (x : LinkPort) : (s.setPort n x).flash = s.flash := (rfl)
@[simp] theorem State.setPort_vidx (n : Nat) (x : LinkPort) : (s.setPort n x).vidx = s.vidx := (rfl)
@[simp] theorem State.setPort_searches (n : Nat) (x : LinkPort) : (s.setPort n x).searches = s.searches := (rfl)
@[simp] theorem State.setPort_wt (n : Nat) (x : LinkPort) : (s.setPort n x).wt = s.wt := (rfl)
@[simp] theorem State.setPort_tick (n : Nat) (x : LinkPort) : (s.setPort n x).tick = s.tick := (rfl)
@[simp] theorem State.setPort_crew (n : Nat) (x : LinkPort) : (s.setPort n x).crew = s.crew := (rfl)
@[simp] theorem State.setPort_yard (n : Nat) (x : LinkPort) : (s.setPort n x).yard = s.yard := (rfl)
@[simp] theorem State.setPort_coll (n : Nat) (x : LinkPort) : (s.setPort n x).coll = s.coll := (rfl)
@[simp] theorem State.setPort_dies (n : Nat) (x : LinkPort) : (s.setPort n x).dies = s.dies := (rfl)
@[simp] theorem State.setPort_cores (n : Nat) (x : LinkPort) : (s.setPort n x).cores = s.cores := (rfl)
@[simp] theorem State.setPort_stands (n : Nat) (x : LinkPort) : (s.setPort n x).stands = s.stands := (rfl)
@[simp] theorem State.setPort_fore (n : Nat) (x : LinkPort) : (s.setPort n x).fore = s.fore := (rfl)
@[simp] theorem State.setPort_ctr (n : Nat) (x : LinkPort) : (s.setPort n x).ctr = s.ctr := (rfl)
@[simp] theorem State.setPort_therm (n : Nat) (x : LinkPort) : (s.setPort n x).therm = s.therm := (rfl)
@[simp] theorem State.setPort_tmux (n : Nat) (x : LinkPort) : (s.setPort n x).tmux = s.tmux := (rfl)
@[simp] theorem State.setPort_jtag (n : Nat) (x : LinkPort) : (s.setPort n x).jtag = s.jtag := (rfl)
@[simp] theorem State.setPort_chk (n : Nat) (x : LinkPort) : (s.setPort n x).chk = s.chk := (rfl)
@[simp] theorem State.setPort_freeIx (n : Nat) (x : LinkPort) : (s.setPort n x).freeIx = s.freeIx := (rfl)
@[simp] theorem State.setPort_pending (n : Nat) (x : LinkPort) : (s.setPort n x).pending = s.pending := (rfl)

/-! ### count -/

@[simp] theorem State.count_ident (d c i n : Nat) : (s.count d c i n).ident = s.ident := (rfl)
@[simp] theorem State.count_pwr (d c i n : Nat) : (s.count d c i n).pwr = s.pwr := (rfl)
@[simp] theorem State.count_sys (d c i n : Nat) : (s.count d c i n).sys = s.sys := (rfl)
@[simp] theorem State.count_smb (d c i n : Nat) : (s.count d c i n).smb = s.smb := (rfl)
@[simp] theorem State.count_nor (d c i n : Nat) : (s.count d c i n).nor = s.nor := (rfl)
@[simp] theorem State.count_norBusy (d c i n : Nat) : (s.count d c i n).norBusy = s.norBusy := (rfl)
@[simp] theorem State.count_img (d c i n : Nat) : (s.count d c i n).img = s.img := (rfl)
@[simp] theorem State.count_sec (d c i n : Nat) : (s.count d c i n).sec = s.sec := (rfl)
@[simp] theorem State.count_mbx (d c i n : Nat) : (s.count d c i n).mbx = s.mbx := (rfl)
@[simp] theorem State.count_host (d c i n : Nat) : (s.count d c i n).host = s.host := (rfl)
@[simp] theorem State.count_profile (d c i n : Nat) : (s.count d c i n).profile = s.profile := (rfl)
@[simp] theorem State.count_lots (d c i n : Nat) : (s.count d c i n).lots = s.lots := (rfl)
@[simp] theorem State.count_reqs (d c i n : Nat) : (s.count d c i n).reqs = s.reqs := (rfl)
@[simp] theorem State.count_seqs (d c i n : Nat) : (s.count d c i n).seqs = s.seqs := (rfl)
@[simp] theorem State.count_nodes (d c i n : Nat) : (s.count d c i n).nodes = s.nodes := (rfl)
@[simp] theorem State.count_hbm (d c i n : Nat) : (s.count d c i n).hbm = s.hbm := (rfl)
@[simp] theorem State.count_land (d c i n : Nat) : (s.count d c i n).land = s.land := (rfl)
@[simp] theorem State.count_sketches (d c i n : Nat) : (s.count d c i n).sketches = s.sketches := (rfl)
@[simp] theorem State.count_qsketch (d c i n : Nat) : (s.count d c i n).qsketch = s.qsketch := (rfl)
@[simp] theorem State.count_flash (d c i n : Nat) : (s.count d c i n).flash = s.flash := (rfl)
@[simp] theorem State.count_vidx (d c i n : Nat) : (s.count d c i n).vidx = s.vidx := (rfl)
@[simp] theorem State.count_searches (d c i n : Nat) : (s.count d c i n).searches = s.searches := (rfl)
@[simp] theorem State.count_wt (d c i n : Nat) : (s.count d c i n).wt = s.wt := (rfl)
@[simp] theorem State.count_tick (d c i n : Nat) : (s.count d c i n).tick = s.tick := (rfl)
@[simp] theorem State.count_crew (d c i n : Nat) : (s.count d c i n).crew = s.crew := (rfl)
@[simp] theorem State.count_ports (d c i n : Nat) : (s.count d c i n).ports = s.ports := (rfl)
@[simp] theorem State.count_yard (d c i n : Nat) : (s.count d c i n).yard = s.yard := (rfl)
@[simp] theorem State.count_coll (d c i n : Nat) : (s.count d c i n).coll = s.coll := (rfl)
@[simp] theorem State.count_dies (d c i n : Nat) : (s.count d c i n).dies = s.dies := (rfl)
@[simp] theorem State.count_cores (d c i n : Nat) : (s.count d c i n).cores = s.cores := (rfl)
@[simp] theorem State.count_stands (d c i n : Nat) : (s.count d c i n).stands = s.stands := (rfl)
@[simp] theorem State.count_fore (d c i n : Nat) : (s.count d c i n).fore = s.fore := (rfl)
@[simp] theorem State.count_therm (d c i n : Nat) : (s.count d c i n).therm = s.therm := (rfl)
@[simp] theorem State.count_tmux (d c i n : Nat) : (s.count d c i n).tmux = s.tmux := (rfl)
@[simp] theorem State.count_jtag (d c i n : Nat) : (s.count d c i n).jtag = s.jtag := (rfl)
@[simp] theorem State.count_chk (d c i n : Nat) : (s.count d c i n).chk = s.chk := (rfl)
@[simp] theorem State.count_freeIx (d c i n : Nat) : (s.count d c i n).freeIx = s.freeIx := (rfl)
@[simp] theorem State.count_pending (d c i n : Nat) : (s.count d c i n).pending = s.pending := (rfl)

/-! ### hubCount -/

@[simp] theorem State.hubCount_ident (c i n : Nat) : (s.hubCount c i n).ident = s.ident := (rfl)
@[simp] theorem State.hubCount_pwr (c i n : Nat) : (s.hubCount c i n).pwr = s.pwr := (rfl)
@[simp] theorem State.hubCount_sys (c i n : Nat) : (s.hubCount c i n).sys = s.sys := (rfl)
@[simp] theorem State.hubCount_smb (c i n : Nat) : (s.hubCount c i n).smb = s.smb := (rfl)
@[simp] theorem State.hubCount_nor (c i n : Nat) : (s.hubCount c i n).nor = s.nor := (rfl)
@[simp] theorem State.hubCount_norBusy (c i n : Nat) : (s.hubCount c i n).norBusy = s.norBusy := (rfl)
@[simp] theorem State.hubCount_img (c i n : Nat) : (s.hubCount c i n).img = s.img := (rfl)
@[simp] theorem State.hubCount_sec (c i n : Nat) : (s.hubCount c i n).sec = s.sec := (rfl)
@[simp] theorem State.hubCount_mbx (c i n : Nat) : (s.hubCount c i n).mbx = s.mbx := (rfl)
@[simp] theorem State.hubCount_host (c i n : Nat) : (s.hubCount c i n).host = s.host := (rfl)
@[simp] theorem State.hubCount_profile (c i n : Nat) : (s.hubCount c i n).profile = s.profile := (rfl)
@[simp] theorem State.hubCount_lots (c i n : Nat) : (s.hubCount c i n).lots = s.lots := (rfl)
@[simp] theorem State.hubCount_reqs (c i n : Nat) : (s.hubCount c i n).reqs = s.reqs := (rfl)
@[simp] theorem State.hubCount_seqs (c i n : Nat) : (s.hubCount c i n).seqs = s.seqs := (rfl)
@[simp] theorem State.hubCount_nodes (c i n : Nat) : (s.hubCount c i n).nodes = s.nodes := (rfl)
@[simp] theorem State.hubCount_hbm (c i n : Nat) : (s.hubCount c i n).hbm = s.hbm := (rfl)
@[simp] theorem State.hubCount_land (c i n : Nat) : (s.hubCount c i n).land = s.land := (rfl)
@[simp] theorem State.hubCount_sketches (c i n : Nat) : (s.hubCount c i n).sketches = s.sketches := (rfl)
@[simp] theorem State.hubCount_qsketch (c i n : Nat) : (s.hubCount c i n).qsketch = s.qsketch := (rfl)
@[simp] theorem State.hubCount_flash (c i n : Nat) : (s.hubCount c i n).flash = s.flash := (rfl)
@[simp] theorem State.hubCount_vidx (c i n : Nat) : (s.hubCount c i n).vidx = s.vidx := (rfl)
@[simp] theorem State.hubCount_searches (c i n : Nat) : (s.hubCount c i n).searches = s.searches := (rfl)
@[simp] theorem State.hubCount_wt (c i n : Nat) : (s.hubCount c i n).wt = s.wt := (rfl)
@[simp] theorem State.hubCount_tick (c i n : Nat) : (s.hubCount c i n).tick = s.tick := (rfl)
@[simp] theorem State.hubCount_crew (c i n : Nat) : (s.hubCount c i n).crew = s.crew := (rfl)
@[simp] theorem State.hubCount_ports (c i n : Nat) : (s.hubCount c i n).ports = s.ports := (rfl)
@[simp] theorem State.hubCount_yard (c i n : Nat) : (s.hubCount c i n).yard = s.yard := (rfl)
@[simp] theorem State.hubCount_coll (c i n : Nat) : (s.hubCount c i n).coll = s.coll := (rfl)
@[simp] theorem State.hubCount_dies (c i n : Nat) : (s.hubCount c i n).dies = s.dies := (rfl)
@[simp] theorem State.hubCount_cores (c i n : Nat) : (s.hubCount c i n).cores = s.cores := (rfl)
@[simp] theorem State.hubCount_stands (c i n : Nat) : (s.hubCount c i n).stands = s.stands := (rfl)
@[simp] theorem State.hubCount_fore (c i n : Nat) : (s.hubCount c i n).fore = s.fore := (rfl)
@[simp] theorem State.hubCount_therm (c i n : Nat) : (s.hubCount c i n).therm = s.therm := (rfl)
@[simp] theorem State.hubCount_tmux (c i n : Nat) : (s.hubCount c i n).tmux = s.tmux := (rfl)
@[simp] theorem State.hubCount_jtag (c i n : Nat) : (s.hubCount c i n).jtag = s.jtag := (rfl)
@[simp] theorem State.hubCount_chk (c i n : Nat) : (s.hubCount c i n).chk = s.chk := (rfl)
@[simp] theorem State.hubCount_freeIx (c i n : Nat) : (s.hubCount c i n).freeIx = s.freeIx := (rfl)
@[simp] theorem State.hubCount_pending (c i n : Nat) : (s.hubCount c i n).pending = s.pending := (rfl)

/-! ### crewCount -/

@[simp] theorem State.crewCount_ident (i n : Nat) : (s.crewCount i n).ident = s.ident := (rfl)
@[simp] theorem State.crewCount_pwr (i n : Nat) : (s.crewCount i n).pwr = s.pwr := (rfl)
@[simp] theorem State.crewCount_sys (i n : Nat) : (s.crewCount i n).sys = s.sys := (rfl)
@[simp] theorem State.crewCount_smb (i n : Nat) : (s.crewCount i n).smb = s.smb := (rfl)
@[simp] theorem State.crewCount_nor (i n : Nat) : (s.crewCount i n).nor = s.nor := (rfl)
@[simp] theorem State.crewCount_norBusy (i n : Nat) : (s.crewCount i n).norBusy = s.norBusy := (rfl)
@[simp] theorem State.crewCount_img (i n : Nat) : (s.crewCount i n).img = s.img := (rfl)
@[simp] theorem State.crewCount_sec (i n : Nat) : (s.crewCount i n).sec = s.sec := (rfl)
@[simp] theorem State.crewCount_mbx (i n : Nat) : (s.crewCount i n).mbx = s.mbx := (rfl)
@[simp] theorem State.crewCount_host (i n : Nat) : (s.crewCount i n).host = s.host := (rfl)
@[simp] theorem State.crewCount_profile (i n : Nat) : (s.crewCount i n).profile = s.profile := (rfl)
@[simp] theorem State.crewCount_lots (i n : Nat) : (s.crewCount i n).lots = s.lots := (rfl)
@[simp] theorem State.crewCount_reqs (i n : Nat) : (s.crewCount i n).reqs = s.reqs := (rfl)
@[simp] theorem State.crewCount_seqs (i n : Nat) : (s.crewCount i n).seqs = s.seqs := (rfl)
@[simp] theorem State.crewCount_nodes (i n : Nat) : (s.crewCount i n).nodes = s.nodes := (rfl)
@[simp] theorem State.crewCount_hbm (i n : Nat) : (s.crewCount i n).hbm = s.hbm := (rfl)
@[simp] theorem State.crewCount_land (i n : Nat) : (s.crewCount i n).land = s.land := (rfl)
@[simp] theorem State.crewCount_sketches (i n : Nat) : (s.crewCount i n).sketches = s.sketches := (rfl)
@[simp] theorem State.crewCount_qsketch (i n : Nat) : (s.crewCount i n).qsketch = s.qsketch := (rfl)
@[simp] theorem State.crewCount_flash (i n : Nat) : (s.crewCount i n).flash = s.flash := (rfl)
@[simp] theorem State.crewCount_vidx (i n : Nat) : (s.crewCount i n).vidx = s.vidx := (rfl)
@[simp] theorem State.crewCount_searches (i n : Nat) : (s.crewCount i n).searches = s.searches := (rfl)
@[simp] theorem State.crewCount_wt (i n : Nat) : (s.crewCount i n).wt = s.wt := (rfl)
@[simp] theorem State.crewCount_tick (i n : Nat) : (s.crewCount i n).tick = s.tick := (rfl)
@[simp] theorem State.crewCount_crew (i n : Nat) : (s.crewCount i n).crew = s.crew := (rfl)
@[simp] theorem State.crewCount_ports (i n : Nat) : (s.crewCount i n).ports = s.ports := (rfl)
@[simp] theorem State.crewCount_yard (i n : Nat) : (s.crewCount i n).yard = s.yard := (rfl)
@[simp] theorem State.crewCount_coll (i n : Nat) : (s.crewCount i n).coll = s.coll := (rfl)
@[simp] theorem State.crewCount_dies (i n : Nat) : (s.crewCount i n).dies = s.dies := (rfl)
@[simp] theorem State.crewCount_cores (i n : Nat) : (s.crewCount i n).cores = s.cores := (rfl)
@[simp] theorem State.crewCount_stands (i n : Nat) : (s.crewCount i n).stands = s.stands := (rfl)
@[simp] theorem State.crewCount_fore (i n : Nat) : (s.crewCount i n).fore = s.fore := (rfl)
@[simp] theorem State.crewCount_therm (i n : Nat) : (s.crewCount i n).therm = s.therm := (rfl)
@[simp] theorem State.crewCount_tmux (i n : Nat) : (s.crewCount i n).tmux = s.tmux := (rfl)
@[simp] theorem State.crewCount_jtag (i n : Nat) : (s.crewCount i n).jtag = s.jtag := (rfl)
@[simp] theorem State.crewCount_chk (i n : Nat) : (s.crewCount i n).chk = s.chk := (rfl)
@[simp] theorem State.crewCount_freeIx (i n : Nat) : (s.crewCount i n).freeIx = s.freeIx := (rfl)
@[simp] theorem State.crewCount_pending (i n : Nat) : (s.crewCount i n).pending = s.pending := (rfl)

/-! ### pcieCount -/

@[simp] theorem State.pcieCount_ident (p i n : Nat) : (s.pcieCount p i n).ident = s.ident := (rfl)
@[simp] theorem State.pcieCount_pwr (p i n : Nat) : (s.pcieCount p i n).pwr = s.pwr := (rfl)
@[simp] theorem State.pcieCount_sys (p i n : Nat) : (s.pcieCount p i n).sys = s.sys := (rfl)
@[simp] theorem State.pcieCount_smb (p i n : Nat) : (s.pcieCount p i n).smb = s.smb := (rfl)
@[simp] theorem State.pcieCount_nor (p i n : Nat) : (s.pcieCount p i n).nor = s.nor := (rfl)
@[simp] theorem State.pcieCount_norBusy (p i n : Nat) : (s.pcieCount p i n).norBusy = s.norBusy := (rfl)
@[simp] theorem State.pcieCount_img (p i n : Nat) : (s.pcieCount p i n).img = s.img := (rfl)
@[simp] theorem State.pcieCount_sec (p i n : Nat) : (s.pcieCount p i n).sec = s.sec := (rfl)
@[simp] theorem State.pcieCount_mbx (p i n : Nat) : (s.pcieCount p i n).mbx = s.mbx := (rfl)
@[simp] theorem State.pcieCount_host (p i n : Nat) : (s.pcieCount p i n).host = s.host := (rfl)
@[simp] theorem State.pcieCount_profile (p i n : Nat) : (s.pcieCount p i n).profile = s.profile := (rfl)
@[simp] theorem State.pcieCount_lots (p i n : Nat) : (s.pcieCount p i n).lots = s.lots := (rfl)
@[simp] theorem State.pcieCount_reqs (p i n : Nat) : (s.pcieCount p i n).reqs = s.reqs := (rfl)
@[simp] theorem State.pcieCount_seqs (p i n : Nat) : (s.pcieCount p i n).seqs = s.seqs := (rfl)
@[simp] theorem State.pcieCount_nodes (p i n : Nat) : (s.pcieCount p i n).nodes = s.nodes := (rfl)
@[simp] theorem State.pcieCount_hbm (p i n : Nat) : (s.pcieCount p i n).hbm = s.hbm := (rfl)
@[simp] theorem State.pcieCount_land (p i n : Nat) : (s.pcieCount p i n).land = s.land := (rfl)
@[simp] theorem State.pcieCount_sketches (p i n : Nat) : (s.pcieCount p i n).sketches = s.sketches := (rfl)
@[simp] theorem State.pcieCount_qsketch (p i n : Nat) : (s.pcieCount p i n).qsketch = s.qsketch := (rfl)
@[simp] theorem State.pcieCount_flash (p i n : Nat) : (s.pcieCount p i n).flash = s.flash := (rfl)
@[simp] theorem State.pcieCount_vidx (p i n : Nat) : (s.pcieCount p i n).vidx = s.vidx := (rfl)
@[simp] theorem State.pcieCount_searches (p i n : Nat) : (s.pcieCount p i n).searches = s.searches := (rfl)
@[simp] theorem State.pcieCount_wt (p i n : Nat) : (s.pcieCount p i n).wt = s.wt := (rfl)
@[simp] theorem State.pcieCount_tick (p i n : Nat) : (s.pcieCount p i n).tick = s.tick := (rfl)
@[simp] theorem State.pcieCount_crew (p i n : Nat) : (s.pcieCount p i n).crew = s.crew := (rfl)
@[simp] theorem State.pcieCount_ports (p i n : Nat) : (s.pcieCount p i n).ports = s.ports := (rfl)
@[simp] theorem State.pcieCount_yard (p i n : Nat) : (s.pcieCount p i n).yard = s.yard := (rfl)
@[simp] theorem State.pcieCount_coll (p i n : Nat) : (s.pcieCount p i n).coll = s.coll := (rfl)
@[simp] theorem State.pcieCount_dies (p i n : Nat) : (s.pcieCount p i n).dies = s.dies := (rfl)
@[simp] theorem State.pcieCount_cores (p i n : Nat) : (s.pcieCount p i n).cores = s.cores := (rfl)
@[simp] theorem State.pcieCount_stands (p i n : Nat) : (s.pcieCount p i n).stands = s.stands := (rfl)
@[simp] theorem State.pcieCount_fore (p i n : Nat) : (s.pcieCount p i n).fore = s.fore := (rfl)
@[simp] theorem State.pcieCount_therm (p i n : Nat) : (s.pcieCount p i n).therm = s.therm := (rfl)
@[simp] theorem State.pcieCount_tmux (p i n : Nat) : (s.pcieCount p i n).tmux = s.tmux := (rfl)
@[simp] theorem State.pcieCount_jtag (p i n : Nat) : (s.pcieCount p i n).jtag = s.jtag := (rfl)
@[simp] theorem State.pcieCount_chk (p i n : Nat) : (s.pcieCount p i n).chk = s.chk := (rfl)
@[simp] theorem State.pcieCount_freeIx (p i n : Nat) : (s.pcieCount p i n).freeIx = s.freeIx := (rfl)
@[simp] theorem State.pcieCount_pending (p i n : Nat) : (s.pcieCount p i n).pending = s.pending := (rfl)

/-! ### linkCount -/

@[simp] theorem State.linkCount_ident (p i n : Nat) : (s.linkCount p i n).ident = s.ident := (rfl)
@[simp] theorem State.linkCount_pwr (p i n : Nat) : (s.linkCount p i n).pwr = s.pwr := (rfl)
@[simp] theorem State.linkCount_sys (p i n : Nat) : (s.linkCount p i n).sys = s.sys := (rfl)
@[simp] theorem State.linkCount_smb (p i n : Nat) : (s.linkCount p i n).smb = s.smb := (rfl)
@[simp] theorem State.linkCount_nor (p i n : Nat) : (s.linkCount p i n).nor = s.nor := (rfl)
@[simp] theorem State.linkCount_norBusy (p i n : Nat) : (s.linkCount p i n).norBusy = s.norBusy := (rfl)
@[simp] theorem State.linkCount_img (p i n : Nat) : (s.linkCount p i n).img = s.img := (rfl)
@[simp] theorem State.linkCount_sec (p i n : Nat) : (s.linkCount p i n).sec = s.sec := (rfl)
@[simp] theorem State.linkCount_mbx (p i n : Nat) : (s.linkCount p i n).mbx = s.mbx := (rfl)
@[simp] theorem State.linkCount_host (p i n : Nat) : (s.linkCount p i n).host = s.host := (rfl)
@[simp] theorem State.linkCount_profile (p i n : Nat) : (s.linkCount p i n).profile = s.profile := (rfl)
@[simp] theorem State.linkCount_lots (p i n : Nat) : (s.linkCount p i n).lots = s.lots := (rfl)
@[simp] theorem State.linkCount_reqs (p i n : Nat) : (s.linkCount p i n).reqs = s.reqs := (rfl)
@[simp] theorem State.linkCount_seqs (p i n : Nat) : (s.linkCount p i n).seqs = s.seqs := (rfl)
@[simp] theorem State.linkCount_nodes (p i n : Nat) : (s.linkCount p i n).nodes = s.nodes := (rfl)
@[simp] theorem State.linkCount_hbm (p i n : Nat) : (s.linkCount p i n).hbm = s.hbm := (rfl)
@[simp] theorem State.linkCount_land (p i n : Nat) : (s.linkCount p i n).land = s.land := (rfl)
@[simp] theorem State.linkCount_sketches (p i n : Nat) : (s.linkCount p i n).sketches = s.sketches := (rfl)
@[simp] theorem State.linkCount_qsketch (p i n : Nat) : (s.linkCount p i n).qsketch = s.qsketch := (rfl)
@[simp] theorem State.linkCount_flash (p i n : Nat) : (s.linkCount p i n).flash = s.flash := (rfl)
@[simp] theorem State.linkCount_vidx (p i n : Nat) : (s.linkCount p i n).vidx = s.vidx := (rfl)
@[simp] theorem State.linkCount_searches (p i n : Nat) : (s.linkCount p i n).searches = s.searches := (rfl)
@[simp] theorem State.linkCount_wt (p i n : Nat) : (s.linkCount p i n).wt = s.wt := (rfl)
@[simp] theorem State.linkCount_tick (p i n : Nat) : (s.linkCount p i n).tick = s.tick := (rfl)
@[simp] theorem State.linkCount_crew (p i n : Nat) : (s.linkCount p i n).crew = s.crew := (rfl)
@[simp] theorem State.linkCount_ports (p i n : Nat) : (s.linkCount p i n).ports = s.ports := (rfl)
@[simp] theorem State.linkCount_yard (p i n : Nat) : (s.linkCount p i n).yard = s.yard := (rfl)
@[simp] theorem State.linkCount_coll (p i n : Nat) : (s.linkCount p i n).coll = s.coll := (rfl)
@[simp] theorem State.linkCount_dies (p i n : Nat) : (s.linkCount p i n).dies = s.dies := (rfl)
@[simp] theorem State.linkCount_cores (p i n : Nat) : (s.linkCount p i n).cores = s.cores := (rfl)
@[simp] theorem State.linkCount_stands (p i n : Nat) : (s.linkCount p i n).stands = s.stands := (rfl)
@[simp] theorem State.linkCount_fore (p i n : Nat) : (s.linkCount p i n).fore = s.fore := (rfl)
@[simp] theorem State.linkCount_therm (p i n : Nat) : (s.linkCount p i n).therm = s.therm := (rfl)
@[simp] theorem State.linkCount_tmux (p i n : Nat) : (s.linkCount p i n).tmux = s.tmux := (rfl)
@[simp] theorem State.linkCount_jtag (p i n : Nat) : (s.linkCount p i n).jtag = s.jtag := (rfl)
@[simp] theorem State.linkCount_chk (p i n : Nat) : (s.linkCount p i n).chk = s.chk := (rfl)
@[simp] theorem State.linkCount_freeIx (p i n : Nat) : (s.linkCount p i n).freeIx = s.freeIx := (rfl)
@[simp] theorem State.linkCount_pending (p i n : Nat) : (s.linkCount p i n).pending = s.pending := (rfl)

/-! ### setQueue -/

@[simp] theorem State.setQueue_ident (q : Nat) (x : Queue) : (s.setQueue q x).ident = s.ident := (rfl)
@[simp] theorem State.setQueue_pwr (q : Nat) (x : Queue) : (s.setQueue q x).pwr = s.pwr := (rfl)
@[simp] theorem State.setQueue_sys (q : Nat) (x : Queue) : (s.setQueue q x).sys = s.sys := (rfl)
@[simp] theorem State.setQueue_smb (q : Nat) (x : Queue) : (s.setQueue q x).smb = s.smb := (rfl)
@[simp] theorem State.setQueue_nor (q : Nat) (x : Queue) : (s.setQueue q x).nor = s.nor := (rfl)
@[simp] theorem State.setQueue_norBusy (q : Nat) (x : Queue) : (s.setQueue q x).norBusy = s.norBusy := (rfl)
@[simp] theorem State.setQueue_img (q : Nat) (x : Queue) : (s.setQueue q x).img = s.img := (rfl)
@[simp] theorem State.setQueue_sec (q : Nat) (x : Queue) : (s.setQueue q x).sec = s.sec := (rfl)
@[simp] theorem State.setQueue_mbx (q : Nat) (x : Queue) : (s.setQueue q x).mbx = s.mbx := (rfl)
@[simp] theorem State.setQueue_profile (q : Nat) (x : Queue) : (s.setQueue q x).profile = s.profile := (rfl)
@[simp] theorem State.setQueue_lots (q : Nat) (x : Queue) : (s.setQueue q x).lots = s.lots := (rfl)
@[simp] theorem State.setQueue_reqs (q : Nat) (x : Queue) : (s.setQueue q x).reqs = s.reqs := (rfl)
@[simp] theorem State.setQueue_seqs (q : Nat) (x : Queue) : (s.setQueue q x).seqs = s.seqs := (rfl)
@[simp] theorem State.setQueue_nodes (q : Nat) (x : Queue) : (s.setQueue q x).nodes = s.nodes := (rfl)
@[simp] theorem State.setQueue_hbm (q : Nat) (x : Queue) : (s.setQueue q x).hbm = s.hbm := (rfl)
@[simp] theorem State.setQueue_land (q : Nat) (x : Queue) : (s.setQueue q x).land = s.land := (rfl)
@[simp] theorem State.setQueue_sketches (q : Nat) (x : Queue) : (s.setQueue q x).sketches = s.sketches := (rfl)
@[simp] theorem State.setQueue_qsketch (q : Nat) (x : Queue) : (s.setQueue q x).qsketch = s.qsketch := (rfl)
@[simp] theorem State.setQueue_flash (q : Nat) (x : Queue) : (s.setQueue q x).flash = s.flash := (rfl)
@[simp] theorem State.setQueue_vidx (q : Nat) (x : Queue) : (s.setQueue q x).vidx = s.vidx := (rfl)
@[simp] theorem State.setQueue_searches (q : Nat) (x : Queue) : (s.setQueue q x).searches = s.searches := (rfl)
@[simp] theorem State.setQueue_wt (q : Nat) (x : Queue) : (s.setQueue q x).wt = s.wt := (rfl)
@[simp] theorem State.setQueue_tick (q : Nat) (x : Queue) : (s.setQueue q x).tick = s.tick := (rfl)
@[simp] theorem State.setQueue_crew (q : Nat) (x : Queue) : (s.setQueue q x).crew = s.crew := (rfl)
@[simp] theorem State.setQueue_ports (q : Nat) (x : Queue) : (s.setQueue q x).ports = s.ports := (rfl)
@[simp] theorem State.setQueue_yard (q : Nat) (x : Queue) : (s.setQueue q x).yard = s.yard := (rfl)
@[simp] theorem State.setQueue_coll (q : Nat) (x : Queue) : (s.setQueue q x).coll = s.coll := (rfl)
@[simp] theorem State.setQueue_dies (q : Nat) (x : Queue) : (s.setQueue q x).dies = s.dies := (rfl)
@[simp] theorem State.setQueue_cores (q : Nat) (x : Queue) : (s.setQueue q x).cores = s.cores := (rfl)
@[simp] theorem State.setQueue_stands (q : Nat) (x : Queue) : (s.setQueue q x).stands = s.stands := (rfl)
@[simp] theorem State.setQueue_fore (q : Nat) (x : Queue) : (s.setQueue q x).fore = s.fore := (rfl)
@[simp] theorem State.setQueue_ctr (q : Nat) (x : Queue) : (s.setQueue q x).ctr = s.ctr := (rfl)
@[simp] theorem State.setQueue_therm (q : Nat) (x : Queue) : (s.setQueue q x).therm = s.therm := (rfl)
@[simp] theorem State.setQueue_tmux (q : Nat) (x : Queue) : (s.setQueue q x).tmux = s.tmux := (rfl)
@[simp] theorem State.setQueue_jtag (q : Nat) (x : Queue) : (s.setQueue q x).jtag = s.jtag := (rfl)
@[simp] theorem State.setQueue_chk (q : Nat) (x : Queue) : (s.setQueue q x).chk = s.chk := (rfl)
@[simp] theorem State.setQueue_freeIx (q : Nat) (x : Queue) : (s.setQueue q x).freeIx = s.freeIx := (rfl)
@[simp] theorem State.setQueue_pending (q : Nat) (x : Queue) : (s.setQueue q x).pending = s.pending := (rfl)

/-! ### updReq -/

@[simp] theorem State.updReq_ident (r : Nat) (f : Req → Req) : (s.updReq r f).ident = s.ident := (rfl)
@[simp] theorem State.updReq_pwr (r : Nat) (f : Req → Req) : (s.updReq r f).pwr = s.pwr := (rfl)
@[simp] theorem State.updReq_sys (r : Nat) (f : Req → Req) : (s.updReq r f).sys = s.sys := (rfl)
@[simp] theorem State.updReq_smb (r : Nat) (f : Req → Req) : (s.updReq r f).smb = s.smb := (rfl)
@[simp] theorem State.updReq_nor (r : Nat) (f : Req → Req) : (s.updReq r f).nor = s.nor := (rfl)
@[simp] theorem State.updReq_norBusy (r : Nat) (f : Req → Req) : (s.updReq r f).norBusy = s.norBusy := (rfl)
@[simp] theorem State.updReq_img (r : Nat) (f : Req → Req) : (s.updReq r f).img = s.img := (rfl)
@[simp] theorem State.updReq_sec (r : Nat) (f : Req → Req) : (s.updReq r f).sec = s.sec := (rfl)
@[simp] theorem State.updReq_mbx (r : Nat) (f : Req → Req) : (s.updReq r f).mbx = s.mbx := (rfl)
@[simp] theorem State.updReq_host (r : Nat) (f : Req → Req) : (s.updReq r f).host = s.host := (rfl)
@[simp] theorem State.updReq_profile (r : Nat) (f : Req → Req) : (s.updReq r f).profile = s.profile := (rfl)
@[simp] theorem State.updReq_lots (r : Nat) (f : Req → Req) : (s.updReq r f).lots = s.lots := (rfl)
@[simp] theorem State.updReq_seqs (r : Nat) (f : Req → Req) : (s.updReq r f).seqs = s.seqs := (rfl)
@[simp] theorem State.updReq_nodes (r : Nat) (f : Req → Req) : (s.updReq r f).nodes = s.nodes := (rfl)
@[simp] theorem State.updReq_hbm (r : Nat) (f : Req → Req) : (s.updReq r f).hbm = s.hbm := (rfl)
@[simp] theorem State.updReq_land (r : Nat) (f : Req → Req) : (s.updReq r f).land = s.land := (rfl)
@[simp] theorem State.updReq_sketches (r : Nat) (f : Req → Req) : (s.updReq r f).sketches = s.sketches := (rfl)
@[simp] theorem State.updReq_qsketch (r : Nat) (f : Req → Req) : (s.updReq r f).qsketch = s.qsketch := (rfl)
@[simp] theorem State.updReq_flash (r : Nat) (f : Req → Req) : (s.updReq r f).flash = s.flash := (rfl)
@[simp] theorem State.updReq_vidx (r : Nat) (f : Req → Req) : (s.updReq r f).vidx = s.vidx := (rfl)
@[simp] theorem State.updReq_searches (r : Nat) (f : Req → Req) : (s.updReq r f).searches = s.searches := (rfl)
@[simp] theorem State.updReq_wt (r : Nat) (f : Req → Req) : (s.updReq r f).wt = s.wt := (rfl)
@[simp] theorem State.updReq_tick (r : Nat) (f : Req → Req) : (s.updReq r f).tick = s.tick := (rfl)
@[simp] theorem State.updReq_crew (r : Nat) (f : Req → Req) : (s.updReq r f).crew = s.crew := (rfl)
@[simp] theorem State.updReq_ports (r : Nat) (f : Req → Req) : (s.updReq r f).ports = s.ports := (rfl)
@[simp] theorem State.updReq_yard (r : Nat) (f : Req → Req) : (s.updReq r f).yard = s.yard := (rfl)
@[simp] theorem State.updReq_coll (r : Nat) (f : Req → Req) : (s.updReq r f).coll = s.coll := (rfl)
@[simp] theorem State.updReq_dies (r : Nat) (f : Req → Req) : (s.updReq r f).dies = s.dies := (rfl)
@[simp] theorem State.updReq_cores (r : Nat) (f : Req → Req) : (s.updReq r f).cores = s.cores := (rfl)
@[simp] theorem State.updReq_stands (r : Nat) (f : Req → Req) : (s.updReq r f).stands = s.stands := (rfl)
@[simp] theorem State.updReq_fore (r : Nat) (f : Req → Req) : (s.updReq r f).fore = s.fore := (rfl)
@[simp] theorem State.updReq_ctr (r : Nat) (f : Req → Req) : (s.updReq r f).ctr = s.ctr := (rfl)
@[simp] theorem State.updReq_therm (r : Nat) (f : Req → Req) : (s.updReq r f).therm = s.therm := (rfl)
@[simp] theorem State.updReq_tmux (r : Nat) (f : Req → Req) : (s.updReq r f).tmux = s.tmux := (rfl)
@[simp] theorem State.updReq_jtag (r : Nat) (f : Req → Req) : (s.updReq r f).jtag = s.jtag := (rfl)
@[simp] theorem State.updReq_chk (r : Nat) (f : Req → Req) : (s.updReq r f).chk = s.chk := (rfl)
@[simp] theorem State.updReq_freeIx (r : Nat) (f : Req → Req) : (s.updReq r f).freeIx = s.freeIx := (rfl)
@[simp] theorem State.updReq_pending (r : Nat) (f : Req → Req) : (s.updReq r f).pending = s.pending := (rfl)

/-! ### updReqs -/

@[simp] theorem State.updReqs_ident (f : Req → Req) : (s.updReqs f).ident = s.ident := (rfl)
@[simp] theorem State.updReqs_pwr (f : Req → Req) : (s.updReqs f).pwr = s.pwr := (rfl)
@[simp] theorem State.updReqs_sys (f : Req → Req) : (s.updReqs f).sys = s.sys := (rfl)
@[simp] theorem State.updReqs_smb (f : Req → Req) : (s.updReqs f).smb = s.smb := (rfl)
@[simp] theorem State.updReqs_nor (f : Req → Req) : (s.updReqs f).nor = s.nor := (rfl)
@[simp] theorem State.updReqs_norBusy (f : Req → Req) : (s.updReqs f).norBusy = s.norBusy := (rfl)
@[simp] theorem State.updReqs_img (f : Req → Req) : (s.updReqs f).img = s.img := (rfl)
@[simp] theorem State.updReqs_sec (f : Req → Req) : (s.updReqs f).sec = s.sec := (rfl)
@[simp] theorem State.updReqs_mbx (f : Req → Req) : (s.updReqs f).mbx = s.mbx := (rfl)
@[simp] theorem State.updReqs_host (f : Req → Req) : (s.updReqs f).host = s.host := (rfl)
@[simp] theorem State.updReqs_profile (f : Req → Req) : (s.updReqs f).profile = s.profile := (rfl)
@[simp] theorem State.updReqs_lots (f : Req → Req) : (s.updReqs f).lots = s.lots := (rfl)
@[simp] theorem State.updReqs_seqs (f : Req → Req) : (s.updReqs f).seqs = s.seqs := (rfl)
@[simp] theorem State.updReqs_nodes (f : Req → Req) : (s.updReqs f).nodes = s.nodes := (rfl)
@[simp] theorem State.updReqs_hbm (f : Req → Req) : (s.updReqs f).hbm = s.hbm := (rfl)
@[simp] theorem State.updReqs_land (f : Req → Req) : (s.updReqs f).land = s.land := (rfl)
@[simp] theorem State.updReqs_sketches (f : Req → Req) : (s.updReqs f).sketches = s.sketches := (rfl)
@[simp] theorem State.updReqs_qsketch (f : Req → Req) : (s.updReqs f).qsketch = s.qsketch := (rfl)
@[simp] theorem State.updReqs_flash (f : Req → Req) : (s.updReqs f).flash = s.flash := (rfl)
@[simp] theorem State.updReqs_vidx (f : Req → Req) : (s.updReqs f).vidx = s.vidx := (rfl)
@[simp] theorem State.updReqs_searches (f : Req → Req) : (s.updReqs f).searches = s.searches := (rfl)
@[simp] theorem State.updReqs_wt (f : Req → Req) : (s.updReqs f).wt = s.wt := (rfl)
@[simp] theorem State.updReqs_tick (f : Req → Req) : (s.updReqs f).tick = s.tick := (rfl)
@[simp] theorem State.updReqs_crew (f : Req → Req) : (s.updReqs f).crew = s.crew := (rfl)
@[simp] theorem State.updReqs_ports (f : Req → Req) : (s.updReqs f).ports = s.ports := (rfl)
@[simp] theorem State.updReqs_yard (f : Req → Req) : (s.updReqs f).yard = s.yard := (rfl)
@[simp] theorem State.updReqs_coll (f : Req → Req) : (s.updReqs f).coll = s.coll := (rfl)
@[simp] theorem State.updReqs_dies (f : Req → Req) : (s.updReqs f).dies = s.dies := (rfl)
@[simp] theorem State.updReqs_cores (f : Req → Req) : (s.updReqs f).cores = s.cores := (rfl)
@[simp] theorem State.updReqs_stands (f : Req → Req) : (s.updReqs f).stands = s.stands := (rfl)
@[simp] theorem State.updReqs_fore (f : Req → Req) : (s.updReqs f).fore = s.fore := (rfl)
@[simp] theorem State.updReqs_ctr (f : Req → Req) : (s.updReqs f).ctr = s.ctr := (rfl)
@[simp] theorem State.updReqs_therm (f : Req → Req) : (s.updReqs f).therm = s.therm := (rfl)
@[simp] theorem State.updReqs_tmux (f : Req → Req) : (s.updReqs f).tmux = s.tmux := (rfl)
@[simp] theorem State.updReqs_jtag (f : Req → Req) : (s.updReqs f).jtag = s.jtag := (rfl)
@[simp] theorem State.updReqs_chk (f : Req → Req) : (s.updReqs f).chk = s.chk := (rfl)
@[simp] theorem State.updReqs_freeIx (f : Req → Req) : (s.updReqs f).freeIx = s.freeIx := (rfl)
@[simp] theorem State.updReqs_pending (f : Req → Req) : (s.updReqs f).pending = s.pending := (rfl)

/-! ### updSeq -/

@[simp] theorem State.updSeq_ident (h : W32) (f : Seq → Seq) : (s.updSeq h f).ident = s.ident := (rfl)
@[simp] theorem State.updSeq_pwr (h : W32) (f : Seq → Seq) : (s.updSeq h f).pwr = s.pwr := (rfl)
@[simp] theorem State.updSeq_sys (h : W32) (f : Seq → Seq) : (s.updSeq h f).sys = s.sys := (rfl)
@[simp] theorem State.updSeq_smb (h : W32) (f : Seq → Seq) : (s.updSeq h f).smb = s.smb := (rfl)
@[simp] theorem State.updSeq_nor (h : W32) (f : Seq → Seq) : (s.updSeq h f).nor = s.nor := (rfl)
@[simp] theorem State.updSeq_norBusy (h : W32) (f : Seq → Seq) : (s.updSeq h f).norBusy = s.norBusy := (rfl)
@[simp] theorem State.updSeq_img (h : W32) (f : Seq → Seq) : (s.updSeq h f).img = s.img := (rfl)
@[simp] theorem State.updSeq_sec (h : W32) (f : Seq → Seq) : (s.updSeq h f).sec = s.sec := (rfl)
@[simp] theorem State.updSeq_mbx (h : W32) (f : Seq → Seq) : (s.updSeq h f).mbx = s.mbx := (rfl)
@[simp] theorem State.updSeq_host (h : W32) (f : Seq → Seq) : (s.updSeq h f).host = s.host := (rfl)
@[simp] theorem State.updSeq_profile (h : W32) (f : Seq → Seq) : (s.updSeq h f).profile = s.profile := (rfl)
@[simp] theorem State.updSeq_lots (h : W32) (f : Seq → Seq) : (s.updSeq h f).lots = s.lots := (rfl)
@[simp] theorem State.updSeq_reqs (h : W32) (f : Seq → Seq) : (s.updSeq h f).reqs = s.reqs := (rfl)
@[simp] theorem State.updSeq_nodes (h : W32) (f : Seq → Seq) : (s.updSeq h f).nodes = s.nodes := (rfl)
@[simp] theorem State.updSeq_hbm (h : W32) (f : Seq → Seq) : (s.updSeq h f).hbm = s.hbm := (rfl)
@[simp] theorem State.updSeq_land (h : W32) (f : Seq → Seq) : (s.updSeq h f).land = s.land := (rfl)
@[simp] theorem State.updSeq_sketches (h : W32) (f : Seq → Seq) : (s.updSeq h f).sketches = s.sketches := (rfl)
@[simp] theorem State.updSeq_qsketch (h : W32) (f : Seq → Seq) : (s.updSeq h f).qsketch = s.qsketch := (rfl)
@[simp] theorem State.updSeq_flash (h : W32) (f : Seq → Seq) : (s.updSeq h f).flash = s.flash := (rfl)
@[simp] theorem State.updSeq_vidx (h : W32) (f : Seq → Seq) : (s.updSeq h f).vidx = s.vidx := (rfl)
@[simp] theorem State.updSeq_searches (h : W32) (f : Seq → Seq) : (s.updSeq h f).searches = s.searches := (rfl)
@[simp] theorem State.updSeq_wt (h : W32) (f : Seq → Seq) : (s.updSeq h f).wt = s.wt := (rfl)
@[simp] theorem State.updSeq_tick (h : W32) (f : Seq → Seq) : (s.updSeq h f).tick = s.tick := (rfl)
@[simp] theorem State.updSeq_crew (h : W32) (f : Seq → Seq) : (s.updSeq h f).crew = s.crew := (rfl)
@[simp] theorem State.updSeq_ports (h : W32) (f : Seq → Seq) : (s.updSeq h f).ports = s.ports := (rfl)
@[simp] theorem State.updSeq_yard (h : W32) (f : Seq → Seq) : (s.updSeq h f).yard = s.yard := (rfl)
@[simp] theorem State.updSeq_coll (h : W32) (f : Seq → Seq) : (s.updSeq h f).coll = s.coll := (rfl)
@[simp] theorem State.updSeq_dies (h : W32) (f : Seq → Seq) : (s.updSeq h f).dies = s.dies := (rfl)
@[simp] theorem State.updSeq_cores (h : W32) (f : Seq → Seq) : (s.updSeq h f).cores = s.cores := (rfl)
@[simp] theorem State.updSeq_stands (h : W32) (f : Seq → Seq) : (s.updSeq h f).stands = s.stands := (rfl)
@[simp] theorem State.updSeq_fore (h : W32) (f : Seq → Seq) : (s.updSeq h f).fore = s.fore := (rfl)
@[simp] theorem State.updSeq_ctr (h : W32) (f : Seq → Seq) : (s.updSeq h f).ctr = s.ctr := (rfl)
@[simp] theorem State.updSeq_therm (h : W32) (f : Seq → Seq) : (s.updSeq h f).therm = s.therm := (rfl)
@[simp] theorem State.updSeq_tmux (h : W32) (f : Seq → Seq) : (s.updSeq h f).tmux = s.tmux := (rfl)
@[simp] theorem State.updSeq_jtag (h : W32) (f : Seq → Seq) : (s.updSeq h f).jtag = s.jtag := (rfl)
@[simp] theorem State.updSeq_chk (h : W32) (f : Seq → Seq) : (s.updSeq h f).chk = s.chk := (rfl)
@[simp] theorem State.updSeq_freeIx (h : W32) (f : Seq → Seq) : (s.updSeq h f).freeIx = s.freeIx := (rfl)
@[simp] theorem State.updSeq_pending (h : W32) (f : Seq → Seq) : (s.updSeq h f).pending = s.pending := (rfl)

/-! ### send -/

@[simp] theorem State.send_ident (m : OutMsg) : (s.send m).ident = s.ident := (rfl)
@[simp] theorem State.send_pwr (m : OutMsg) : (s.send m).pwr = s.pwr := (rfl)
@[simp] theorem State.send_sys (m : OutMsg) : (s.send m).sys = s.sys := (rfl)
@[simp] theorem State.send_smb (m : OutMsg) : (s.send m).smb = s.smb := (rfl)
@[simp] theorem State.send_nor (m : OutMsg) : (s.send m).nor = s.nor := (rfl)
@[simp] theorem State.send_norBusy (m : OutMsg) : (s.send m).norBusy = s.norBusy := (rfl)
@[simp] theorem State.send_img (m : OutMsg) : (s.send m).img = s.img := (rfl)
@[simp] theorem State.send_sec (m : OutMsg) : (s.send m).sec = s.sec := (rfl)
@[simp] theorem State.send_mbx (m : OutMsg) : (s.send m).mbx = s.mbx := (rfl)
@[simp] theorem State.send_host (m : OutMsg) : (s.send m).host = s.host := (rfl)
@[simp] theorem State.send_profile (m : OutMsg) : (s.send m).profile = s.profile := (rfl)
@[simp] theorem State.send_lots (m : OutMsg) : (s.send m).lots = s.lots := (rfl)
@[simp] theorem State.send_reqs (m : OutMsg) : (s.send m).reqs = s.reqs := (rfl)
@[simp] theorem State.send_seqs (m : OutMsg) : (s.send m).seqs = s.seqs := (rfl)
@[simp] theorem State.send_nodes (m : OutMsg) : (s.send m).nodes = s.nodes := (rfl)
@[simp] theorem State.send_hbm (m : OutMsg) : (s.send m).hbm = s.hbm := (rfl)
@[simp] theorem State.send_land (m : OutMsg) : (s.send m).land = s.land := (rfl)
@[simp] theorem State.send_sketches (m : OutMsg) : (s.send m).sketches = s.sketches := (rfl)
@[simp] theorem State.send_qsketch (m : OutMsg) : (s.send m).qsketch = s.qsketch := (rfl)
@[simp] theorem State.send_flash (m : OutMsg) : (s.send m).flash = s.flash := (rfl)
@[simp] theorem State.send_vidx (m : OutMsg) : (s.send m).vidx = s.vidx := (rfl)
@[simp] theorem State.send_searches (m : OutMsg) : (s.send m).searches = s.searches := (rfl)
@[simp] theorem State.send_wt (m : OutMsg) : (s.send m).wt = s.wt := (rfl)
@[simp] theorem State.send_tick (m : OutMsg) : (s.send m).tick = s.tick := (rfl)
@[simp] theorem State.send_crew (m : OutMsg) : (s.send m).crew = s.crew := (rfl)
@[simp] theorem State.send_ports (m : OutMsg) : (s.send m).ports = s.ports := (rfl)
@[simp] theorem State.send_coll (m : OutMsg) : (s.send m).coll = s.coll := (rfl)
@[simp] theorem State.send_dies (m : OutMsg) : (s.send m).dies = s.dies := (rfl)
@[simp] theorem State.send_cores (m : OutMsg) : (s.send m).cores = s.cores := (rfl)
@[simp] theorem State.send_stands (m : OutMsg) : (s.send m).stands = s.stands := (rfl)
@[simp] theorem State.send_fore (m : OutMsg) : (s.send m).fore = s.fore := (rfl)
@[simp] theorem State.send_ctr (m : OutMsg) : (s.send m).ctr = s.ctr := (rfl)
@[simp] theorem State.send_therm (m : OutMsg) : (s.send m).therm = s.therm := (rfl)
@[simp] theorem State.send_tmux (m : OutMsg) : (s.send m).tmux = s.tmux := (rfl)
@[simp] theorem State.send_jtag (m : OutMsg) : (s.send m).jtag = s.jtag := (rfl)
@[simp] theorem State.send_chk (m : OutMsg) : (s.send m).chk = s.chk := (rfl)
@[simp] theorem State.send_freeIx (m : OutMsg) : (s.send m).freeIx = s.freeIx := (rfl)
@[simp] theorem State.send_pending (m : OutMsg) : (s.send m).pending = s.pending := (rfl)

/-! ### failAttempt -/

@[simp] theorem State.failAttempt_ident (c k n l : Nat) : (s.failAttempt c k n l).ident = s.ident := (rfl)
@[simp] theorem State.failAttempt_pwr (c k n l : Nat) : (s.failAttempt c k n l).pwr = s.pwr := (rfl)
@[simp] theorem State.failAttempt_sys (c k n l : Nat) : (s.failAttempt c k n l).sys = s.sys := (rfl)
@[simp] theorem State.failAttempt_smb (c k n l : Nat) : (s.failAttempt c k n l).smb = s.smb := (rfl)
@[simp] theorem State.failAttempt_nor (c k n l : Nat) : (s.failAttempt c k n l).nor = s.nor := (rfl)
@[simp] theorem State.failAttempt_norBusy (c k n l : Nat) : (s.failAttempt c k n l).norBusy = s.norBusy := (rfl)
@[simp] theorem State.failAttempt_img (c k n l : Nat) : (s.failAttempt c k n l).img = s.img := (rfl)
@[simp] theorem State.failAttempt_sec (c k n l : Nat) : (s.failAttempt c k n l).sec = s.sec := (rfl)
@[simp] theorem State.failAttempt_mbx (c k n l : Nat) : (s.failAttempt c k n l).mbx = s.mbx := (rfl)
@[simp] theorem State.failAttempt_host (c k n l : Nat) : (s.failAttempt c k n l).host = s.host := (rfl)
@[simp] theorem State.failAttempt_profile (c k n l : Nat) : (s.failAttempt c k n l).profile = s.profile := (rfl)
@[simp] theorem State.failAttempt_lots (c k n l : Nat) : (s.failAttempt c k n l).lots = s.lots := (rfl)
@[simp] theorem State.failAttempt_reqs (c k n l : Nat) : (s.failAttempt c k n l).reqs = s.reqs := (rfl)
@[simp] theorem State.failAttempt_seqs (c k n l : Nat) : (s.failAttempt c k n l).seqs = s.seqs := (rfl)
@[simp] theorem State.failAttempt_nodes (c k n l : Nat) : (s.failAttempt c k n l).nodes = s.nodes := (rfl)
@[simp] theorem State.failAttempt_hbm (c k n l : Nat) : (s.failAttempt c k n l).hbm = s.hbm := (rfl)
@[simp] theorem State.failAttempt_land (c k n l : Nat) : (s.failAttempt c k n l).land = s.land := (rfl)
@[simp] theorem State.failAttempt_sketches (c k n l : Nat) : (s.failAttempt c k n l).sketches = s.sketches := (rfl)
@[simp] theorem State.failAttempt_qsketch (c k n l : Nat) : (s.failAttempt c k n l).qsketch = s.qsketch := (rfl)
@[simp] theorem State.failAttempt_flash (c k n l : Nat) : (s.failAttempt c k n l).flash = s.flash := (rfl)
@[simp] theorem State.failAttempt_vidx (c k n l : Nat) : (s.failAttempt c k n l).vidx = s.vidx := (rfl)
@[simp] theorem State.failAttempt_searches (c k n l : Nat) : (s.failAttempt c k n l).searches = s.searches := (rfl)
@[simp] theorem State.failAttempt_wt (c k n l : Nat) : (s.failAttempt c k n l).wt = s.wt := (rfl)
@[simp] theorem State.failAttempt_crew (c k n l : Nat) : (s.failAttempt c k n l).crew = s.crew := (rfl)
@[simp] theorem State.failAttempt_ports (c k n l : Nat) : (s.failAttempt c k n l).ports = s.ports := (rfl)
@[simp] theorem State.failAttempt_yard (c k n l : Nat) : (s.failAttempt c k n l).yard = s.yard := (rfl)
@[simp] theorem State.failAttempt_coll (c k n l : Nat) : (s.failAttempt c k n l).coll = s.coll := (rfl)
@[simp] theorem State.failAttempt_dies (c k n l : Nat) : (s.failAttempt c k n l).dies = s.dies := (rfl)
@[simp] theorem State.failAttempt_cores (c k n l : Nat) : (s.failAttempt c k n l).cores = s.cores := (rfl)
@[simp] theorem State.failAttempt_stands (c k n l : Nat) : (s.failAttempt c k n l).stands = s.stands := (rfl)
@[simp] theorem State.failAttempt_fore (c k n l : Nat) : (s.failAttempt c k n l).fore = s.fore := (rfl)
@[simp] theorem State.failAttempt_ctr (c k n l : Nat) : (s.failAttempt c k n l).ctr = s.ctr := (rfl)
@[simp] theorem State.failAttempt_therm (c k n l : Nat) : (s.failAttempt c k n l).therm = s.therm := (rfl)
@[simp] theorem State.failAttempt_tmux (c k n l : Nat) : (s.failAttempt c k n l).tmux = s.tmux := (rfl)
@[simp] theorem State.failAttempt_jtag (c k n l : Nat) : (s.failAttempt c k n l).jtag = s.jtag := (rfl)
@[simp] theorem State.failAttempt_chk (c k n l : Nat) : (s.failAttempt c k n l).chk = s.chk := (rfl)
@[simp] theorem State.failAttempt_freeIx (c k n l : Nat) : (s.failAttempt c k n l).freeIx = s.freeIx := (rfl)
@[simp] theorem State.failAttempt_pending (c k n l : Nat) : (s.failAttempt c k n l).pending = s.pending := (rfl)

/-! ### pulse -/

@[simp] theorem State.pulse_ident (sel : Nat) : (s.pulse sel).ident = s.ident := (rfl)
@[simp] theorem State.pulse_pwr (sel : Nat) : (s.pulse sel).pwr = s.pwr := (rfl)
@[simp] theorem State.pulse_sys (sel : Nat) : (s.pulse sel).sys = s.sys := (rfl)
@[simp] theorem State.pulse_smb (sel : Nat) : (s.pulse sel).smb = s.smb := (rfl)
@[simp] theorem State.pulse_nor (sel : Nat) : (s.pulse sel).nor = s.nor := (rfl)
@[simp] theorem State.pulse_norBusy (sel : Nat) : (s.pulse sel).norBusy = s.norBusy := (rfl)
@[simp] theorem State.pulse_img (sel : Nat) : (s.pulse sel).img = s.img := (rfl)
@[simp] theorem State.pulse_sec (sel : Nat) : (s.pulse sel).sec = s.sec := (rfl)
@[simp] theorem State.pulse_mbx (sel : Nat) : (s.pulse sel).mbx = s.mbx := (rfl)
@[simp] theorem State.pulse_host (sel : Nat) : (s.pulse sel).host = s.host := (rfl)
@[simp] theorem State.pulse_profile (sel : Nat) : (s.pulse sel).profile = s.profile := (rfl)
@[simp] theorem State.pulse_lots (sel : Nat) : (s.pulse sel).lots = s.lots := (rfl)
@[simp] theorem State.pulse_reqs (sel : Nat) : (s.pulse sel).reqs = s.reqs := (rfl)
@[simp] theorem State.pulse_seqs (sel : Nat) : (s.pulse sel).seqs = s.seqs := (rfl)
@[simp] theorem State.pulse_nodes (sel : Nat) : (s.pulse sel).nodes = s.nodes := (rfl)
@[simp] theorem State.pulse_hbm (sel : Nat) : (s.pulse sel).hbm = s.hbm := (rfl)
@[simp] theorem State.pulse_land (sel : Nat) : (s.pulse sel).land = s.land := (rfl)
@[simp] theorem State.pulse_sketches (sel : Nat) : (s.pulse sel).sketches = s.sketches := (rfl)
@[simp] theorem State.pulse_qsketch (sel : Nat) : (s.pulse sel).qsketch = s.qsketch := (rfl)
@[simp] theorem State.pulse_flash (sel : Nat) : (s.pulse sel).flash = s.flash := (rfl)
@[simp] theorem State.pulse_vidx (sel : Nat) : (s.pulse sel).vidx = s.vidx := (rfl)
@[simp] theorem State.pulse_searches (sel : Nat) : (s.pulse sel).searches = s.searches := (rfl)
@[simp] theorem State.pulse_wt (sel : Nat) : (s.pulse sel).wt = s.wt := (rfl)
@[simp] theorem State.pulse_tick (sel : Nat) : (s.pulse sel).tick = s.tick := (rfl)
@[simp] theorem State.pulse_crew (sel : Nat) : (s.pulse sel).crew = s.crew := (rfl)
@[simp] theorem State.pulse_ports (sel : Nat) : (s.pulse sel).ports = s.ports := (rfl)
@[simp] theorem State.pulse_yard (sel : Nat) : (s.pulse sel).yard = s.yard := (rfl)
@[simp] theorem State.pulse_coll (sel : Nat) : (s.pulse sel).coll = s.coll := (rfl)
@[simp] theorem State.pulse_dies (sel : Nat) : (s.pulse sel).dies = s.dies := (rfl)
@[simp] theorem State.pulse_cores (sel : Nat) : (s.pulse sel).cores = s.cores := (rfl)
@[simp] theorem State.pulse_stands (sel : Nat) : (s.pulse sel).stands = s.stands := (rfl)
@[simp] theorem State.pulse_fore (sel : Nat) : (s.pulse sel).fore = s.fore := (rfl)
@[simp] theorem State.pulse_therm (sel : Nat) : (s.pulse sel).therm = s.therm := (rfl)
@[simp] theorem State.pulse_tmux (sel : Nat) : (s.pulse sel).tmux = s.tmux := (rfl)
@[simp] theorem State.pulse_jtag (sel : Nat) : (s.pulse sel).jtag = s.jtag := (rfl)
@[simp] theorem State.pulse_chk (sel : Nat) : (s.pulse sel).chk = s.chk := (rfl)
@[simp] theorem State.pulse_freeIx (sel : Nat) : (s.pulse sel).freeIx = s.freeIx := (rfl)
@[simp] theorem State.pulse_pending (sel : Nat) : (s.pulse sel).pending = s.pending := (rfl)

/-! ### useMsg -/

@[simp] theorem State.useMsg_ident (m : TickMsg) : (s.useMsg m).ident = s.ident := (rfl)
@[simp] theorem State.useMsg_pwr (m : TickMsg) : (s.useMsg m).pwr = s.pwr := (rfl)
@[simp] theorem State.useMsg_sys (m : TickMsg) : (s.useMsg m).sys = s.sys := (rfl)
@[simp] theorem State.useMsg_smb (m : TickMsg) : (s.useMsg m).smb = s.smb := (rfl)
@[simp] theorem State.useMsg_nor (m : TickMsg) : (s.useMsg m).nor = s.nor := (rfl)
@[simp] theorem State.useMsg_norBusy (m : TickMsg) : (s.useMsg m).norBusy = s.norBusy := (rfl)
@[simp] theorem State.useMsg_img (m : TickMsg) : (s.useMsg m).img = s.img := (rfl)
@[simp] theorem State.useMsg_sec (m : TickMsg) : (s.useMsg m).sec = s.sec := (rfl)
@[simp] theorem State.useMsg_mbx (m : TickMsg) : (s.useMsg m).mbx = s.mbx := (rfl)
@[simp] theorem State.useMsg_host (m : TickMsg) : (s.useMsg m).host = s.host := (rfl)
@[simp] theorem State.useMsg_profile (m : TickMsg) : (s.useMsg m).profile = s.profile := (rfl)
@[simp] theorem State.useMsg_lots (m : TickMsg) : (s.useMsg m).lots = s.lots := (rfl)
@[simp] theorem State.useMsg_reqs (m : TickMsg) : (s.useMsg m).reqs = s.reqs := (rfl)
@[simp] theorem State.useMsg_seqs (m : TickMsg) : (s.useMsg m).seqs = s.seqs := (rfl)
@[simp] theorem State.useMsg_nodes (m : TickMsg) : (s.useMsg m).nodes = s.nodes := (rfl)
@[simp] theorem State.useMsg_hbm (m : TickMsg) : (s.useMsg m).hbm = s.hbm := (rfl)
@[simp] theorem State.useMsg_land (m : TickMsg) : (s.useMsg m).land = s.land := (rfl)
@[simp] theorem State.useMsg_sketches (m : TickMsg) : (s.useMsg m).sketches = s.sketches := (rfl)
@[simp] theorem State.useMsg_qsketch (m : TickMsg) : (s.useMsg m).qsketch = s.qsketch := (rfl)
@[simp] theorem State.useMsg_flash (m : TickMsg) : (s.useMsg m).flash = s.flash := (rfl)
@[simp] theorem State.useMsg_vidx (m : TickMsg) : (s.useMsg m).vidx = s.vidx := (rfl)
@[simp] theorem State.useMsg_searches (m : TickMsg) : (s.useMsg m).searches = s.searches := (rfl)
@[simp] theorem State.useMsg_wt (m : TickMsg) : (s.useMsg m).wt = s.wt := (rfl)
@[simp] theorem State.useMsg_tick (m : TickMsg) : (s.useMsg m).tick = s.tick := (rfl)
@[simp] theorem State.useMsg_crew (m : TickMsg) : (s.useMsg m).crew = s.crew := (rfl)
@[simp] theorem State.useMsg_ports (m : TickMsg) : (s.useMsg m).ports = s.ports := (rfl)
@[simp] theorem State.useMsg_coll (m : TickMsg) : (s.useMsg m).coll = s.coll := (rfl)
@[simp] theorem State.useMsg_dies (m : TickMsg) : (s.useMsg m).dies = s.dies := (rfl)
@[simp] theorem State.useMsg_cores (m : TickMsg) : (s.useMsg m).cores = s.cores := (rfl)
@[simp] theorem State.useMsg_stands (m : TickMsg) : (s.useMsg m).stands = s.stands := (rfl)
@[simp] theorem State.useMsg_fore (m : TickMsg) : (s.useMsg m).fore = s.fore := (rfl)
@[simp] theorem State.useMsg_ctr (m : TickMsg) : (s.useMsg m).ctr = s.ctr := (rfl)
@[simp] theorem State.useMsg_therm (m : TickMsg) : (s.useMsg m).therm = s.therm := (rfl)
@[simp] theorem State.useMsg_tmux (m : TickMsg) : (s.useMsg m).tmux = s.tmux := (rfl)
@[simp] theorem State.useMsg_jtag (m : TickMsg) : (s.useMsg m).jtag = s.jtag := (rfl)
@[simp] theorem State.useMsg_chk (m : TickMsg) : (s.useMsg m).chk = s.chk := (rfl)
@[simp] theorem State.useMsg_freeIx (m : TickMsg) : (s.useMsg m).freeIx = s.freeIx := (rfl)
@[simp] theorem State.useMsg_pending (m : TickMsg) : (s.useMsg m).pending = s.pending := (rfl)

/-! ### writeHbm -/

@[simp] theorem State.writeHbm_ident (a : Nat) (bs : List Byte) : (s.writeHbm a bs).ident = s.ident := (rfl)
@[simp] theorem State.writeHbm_pwr (a : Nat) (bs : List Byte) : (s.writeHbm a bs).pwr = s.pwr := (rfl)
@[simp] theorem State.writeHbm_sys (a : Nat) (bs : List Byte) : (s.writeHbm a bs).sys = s.sys := (rfl)
@[simp] theorem State.writeHbm_smb (a : Nat) (bs : List Byte) : (s.writeHbm a bs).smb = s.smb := (rfl)
@[simp] theorem State.writeHbm_nor (a : Nat) (bs : List Byte) : (s.writeHbm a bs).nor = s.nor := (rfl)
@[simp] theorem State.writeHbm_norBusy (a : Nat) (bs : List Byte) : (s.writeHbm a bs).norBusy = s.norBusy := (rfl)
@[simp] theorem State.writeHbm_img (a : Nat) (bs : List Byte) : (s.writeHbm a bs).img = s.img := (rfl)
@[simp] theorem State.writeHbm_sec (a : Nat) (bs : List Byte) : (s.writeHbm a bs).sec = s.sec := (rfl)
@[simp] theorem State.writeHbm_mbx (a : Nat) (bs : List Byte) : (s.writeHbm a bs).mbx = s.mbx := (rfl)
@[simp] theorem State.writeHbm_host (a : Nat) (bs : List Byte) : (s.writeHbm a bs).host = s.host := (rfl)
@[simp] theorem State.writeHbm_profile (a : Nat) (bs : List Byte) : (s.writeHbm a bs).profile = s.profile := (rfl)
@[simp] theorem State.writeHbm_lots (a : Nat) (bs : List Byte) : (s.writeHbm a bs).lots = s.lots := (rfl)
@[simp] theorem State.writeHbm_reqs (a : Nat) (bs : List Byte) : (s.writeHbm a bs).reqs = s.reqs := (rfl)
@[simp] theorem State.writeHbm_seqs (a : Nat) (bs : List Byte) : (s.writeHbm a bs).seqs = s.seqs := (rfl)
@[simp] theorem State.writeHbm_nodes (a : Nat) (bs : List Byte) : (s.writeHbm a bs).nodes = s.nodes := (rfl)
@[simp] theorem State.writeHbm_land (a : Nat) (bs : List Byte) : (s.writeHbm a bs).land = s.land := (rfl)
@[simp] theorem State.writeHbm_sketches (a : Nat) (bs : List Byte) : (s.writeHbm a bs).sketches = s.sketches := (rfl)
@[simp] theorem State.writeHbm_qsketch (a : Nat) (bs : List Byte) : (s.writeHbm a bs).qsketch = s.qsketch := (rfl)
@[simp] theorem State.writeHbm_flash (a : Nat) (bs : List Byte) : (s.writeHbm a bs).flash = s.flash := (rfl)
@[simp] theorem State.writeHbm_vidx (a : Nat) (bs : List Byte) : (s.writeHbm a bs).vidx = s.vidx := (rfl)
@[simp] theorem State.writeHbm_searches (a : Nat) (bs : List Byte) : (s.writeHbm a bs).searches = s.searches := (rfl)
@[simp] theorem State.writeHbm_wt (a : Nat) (bs : List Byte) : (s.writeHbm a bs).wt = s.wt := (rfl)
@[simp] theorem State.writeHbm_tick (a : Nat) (bs : List Byte) : (s.writeHbm a bs).tick = s.tick := (rfl)
@[simp] theorem State.writeHbm_crew (a : Nat) (bs : List Byte) : (s.writeHbm a bs).crew = s.crew := (rfl)
@[simp] theorem State.writeHbm_ports (a : Nat) (bs : List Byte) : (s.writeHbm a bs).ports = s.ports := (rfl)
@[simp] theorem State.writeHbm_yard (a : Nat) (bs : List Byte) : (s.writeHbm a bs).yard = s.yard := (rfl)
@[simp] theorem State.writeHbm_coll (a : Nat) (bs : List Byte) : (s.writeHbm a bs).coll = s.coll := (rfl)
@[simp] theorem State.writeHbm_dies (a : Nat) (bs : List Byte) : (s.writeHbm a bs).dies = s.dies := (rfl)
@[simp] theorem State.writeHbm_cores (a : Nat) (bs : List Byte) : (s.writeHbm a bs).cores = s.cores := (rfl)
@[simp] theorem State.writeHbm_stands (a : Nat) (bs : List Byte) : (s.writeHbm a bs).stands = s.stands := (rfl)
@[simp] theorem State.writeHbm_fore (a : Nat) (bs : List Byte) : (s.writeHbm a bs).fore = s.fore := (rfl)
@[simp] theorem State.writeHbm_ctr (a : Nat) (bs : List Byte) : (s.writeHbm a bs).ctr = s.ctr := (rfl)
@[simp] theorem State.writeHbm_therm (a : Nat) (bs : List Byte) : (s.writeHbm a bs).therm = s.therm := (rfl)
@[simp] theorem State.writeHbm_tmux (a : Nat) (bs : List Byte) : (s.writeHbm a bs).tmux = s.tmux := (rfl)
@[simp] theorem State.writeHbm_jtag (a : Nat) (bs : List Byte) : (s.writeHbm a bs).jtag = s.jtag := (rfl)
@[simp] theorem State.writeHbm_chk (a : Nat) (bs : List Byte) : (s.writeHbm a bs).chk = s.chk := (rfl)
@[simp] theorem State.writeHbm_freeIx (a : Nat) (bs : List Byte) : (s.writeHbm a bs).freeIx = s.freeIx := (rfl)
@[simp] theorem State.writeHbm_pending (a : Nat) (bs : List Byte) : (s.writeHbm a bs).pending = s.pending := (rfl)

/-! ### writeSide -/

@[simp] theorem State.writeSide_ident (a : Nat) (bs : List Byte) : (s.writeSide a bs).ident = s.ident := (rfl)
@[simp] theorem State.writeSide_pwr (a : Nat) (bs : List Byte) : (s.writeSide a bs).pwr = s.pwr := (rfl)
@[simp] theorem State.writeSide_sys (a : Nat) (bs : List Byte) : (s.writeSide a bs).sys = s.sys := (rfl)
@[simp] theorem State.writeSide_smb (a : Nat) (bs : List Byte) : (s.writeSide a bs).smb = s.smb := (rfl)
@[simp] theorem State.writeSide_nor (a : Nat) (bs : List Byte) : (s.writeSide a bs).nor = s.nor := (rfl)
@[simp] theorem State.writeSide_norBusy (a : Nat) (bs : List Byte) : (s.writeSide a bs).norBusy = s.norBusy := (rfl)
@[simp] theorem State.writeSide_img (a : Nat) (bs : List Byte) : (s.writeSide a bs).img = s.img := (rfl)
@[simp] theorem State.writeSide_sec (a : Nat) (bs : List Byte) : (s.writeSide a bs).sec = s.sec := (rfl)
@[simp] theorem State.writeSide_mbx (a : Nat) (bs : List Byte) : (s.writeSide a bs).mbx = s.mbx := (rfl)
@[simp] theorem State.writeSide_host (a : Nat) (bs : List Byte) : (s.writeSide a bs).host = s.host := (rfl)
@[simp] theorem State.writeSide_profile (a : Nat) (bs : List Byte) : (s.writeSide a bs).profile = s.profile := (rfl)
@[simp] theorem State.writeSide_lots (a : Nat) (bs : List Byte) : (s.writeSide a bs).lots = s.lots := (rfl)
@[simp] theorem State.writeSide_reqs (a : Nat) (bs : List Byte) : (s.writeSide a bs).reqs = s.reqs := (rfl)
@[simp] theorem State.writeSide_seqs (a : Nat) (bs : List Byte) : (s.writeSide a bs).seqs = s.seqs := (rfl)
@[simp] theorem State.writeSide_nodes (a : Nat) (bs : List Byte) : (s.writeSide a bs).nodes = s.nodes := (rfl)
@[simp] theorem State.writeSide_land (a : Nat) (bs : List Byte) : (s.writeSide a bs).land = s.land := (rfl)
@[simp] theorem State.writeSide_sketches (a : Nat) (bs : List Byte) : (s.writeSide a bs).sketches = s.sketches := (rfl)
@[simp] theorem State.writeSide_qsketch (a : Nat) (bs : List Byte) : (s.writeSide a bs).qsketch = s.qsketch := (rfl)
@[simp] theorem State.writeSide_flash (a : Nat) (bs : List Byte) : (s.writeSide a bs).flash = s.flash := (rfl)
@[simp] theorem State.writeSide_vidx (a : Nat) (bs : List Byte) : (s.writeSide a bs).vidx = s.vidx := (rfl)
@[simp] theorem State.writeSide_searches (a : Nat) (bs : List Byte) : (s.writeSide a bs).searches = s.searches := (rfl)
@[simp] theorem State.writeSide_wt (a : Nat) (bs : List Byte) : (s.writeSide a bs).wt = s.wt := (rfl)
@[simp] theorem State.writeSide_tick (a : Nat) (bs : List Byte) : (s.writeSide a bs).tick = s.tick := (rfl)
@[simp] theorem State.writeSide_crew (a : Nat) (bs : List Byte) : (s.writeSide a bs).crew = s.crew := (rfl)
@[simp] theorem State.writeSide_ports (a : Nat) (bs : List Byte) : (s.writeSide a bs).ports = s.ports := (rfl)
@[simp] theorem State.writeSide_yard (a : Nat) (bs : List Byte) : (s.writeSide a bs).yard = s.yard := (rfl)
@[simp] theorem State.writeSide_coll (a : Nat) (bs : List Byte) : (s.writeSide a bs).coll = s.coll := (rfl)
@[simp] theorem State.writeSide_dies (a : Nat) (bs : List Byte) : (s.writeSide a bs).dies = s.dies := (rfl)
@[simp] theorem State.writeSide_cores (a : Nat) (bs : List Byte) : (s.writeSide a bs).cores = s.cores := (rfl)
@[simp] theorem State.writeSide_stands (a : Nat) (bs : List Byte) : (s.writeSide a bs).stands = s.stands := (rfl)
@[simp] theorem State.writeSide_fore (a : Nat) (bs : List Byte) : (s.writeSide a bs).fore = s.fore := (rfl)
@[simp] theorem State.writeSide_ctr (a : Nat) (bs : List Byte) : (s.writeSide a bs).ctr = s.ctr := (rfl)
@[simp] theorem State.writeSide_therm (a : Nat) (bs : List Byte) : (s.writeSide a bs).therm = s.therm := (rfl)
@[simp] theorem State.writeSide_tmux (a : Nat) (bs : List Byte) : (s.writeSide a bs).tmux = s.tmux := (rfl)
@[simp] theorem State.writeSide_jtag (a : Nat) (bs : List Byte) : (s.writeSide a bs).jtag = s.jtag := (rfl)
@[simp] theorem State.writeSide_chk (a : Nat) (bs : List Byte) : (s.writeSide a bs).chk = s.chk := (rfl)
@[simp] theorem State.writeSide_freeIx (a : Nat) (bs : List Byte) : (s.writeSide a bs).freeIx = s.freeIx := (rfl)
@[simp] theorem State.writeSide_pending (a : Nat) (bs : List Byte) : (s.writeSide a bs).pending = s.pending := (rfl)

/-! ### writeLand -/

@[simp] theorem State.writeLand_ident (a : Nat) (bs : List Byte) : (s.writeLand a bs).ident = s.ident := (rfl)
@[simp] theorem State.writeLand_pwr (a : Nat) (bs : List Byte) : (s.writeLand a bs).pwr = s.pwr := (rfl)
@[simp] theorem State.writeLand_sys (a : Nat) (bs : List Byte) : (s.writeLand a bs).sys = s.sys := (rfl)
@[simp] theorem State.writeLand_smb (a : Nat) (bs : List Byte) : (s.writeLand a bs).smb = s.smb := (rfl)
@[simp] theorem State.writeLand_nor (a : Nat) (bs : List Byte) : (s.writeLand a bs).nor = s.nor := (rfl)
@[simp] theorem State.writeLand_norBusy (a : Nat) (bs : List Byte) : (s.writeLand a bs).norBusy = s.norBusy := (rfl)
@[simp] theorem State.writeLand_img (a : Nat) (bs : List Byte) : (s.writeLand a bs).img = s.img := (rfl)
@[simp] theorem State.writeLand_sec (a : Nat) (bs : List Byte) : (s.writeLand a bs).sec = s.sec := (rfl)
@[simp] theorem State.writeLand_mbx (a : Nat) (bs : List Byte) : (s.writeLand a bs).mbx = s.mbx := (rfl)
@[simp] theorem State.writeLand_host (a : Nat) (bs : List Byte) : (s.writeLand a bs).host = s.host := (rfl)
@[simp] theorem State.writeLand_profile (a : Nat) (bs : List Byte) : (s.writeLand a bs).profile = s.profile := (rfl)
@[simp] theorem State.writeLand_lots (a : Nat) (bs : List Byte) : (s.writeLand a bs).lots = s.lots := (rfl)
@[simp] theorem State.writeLand_reqs (a : Nat) (bs : List Byte) : (s.writeLand a bs).reqs = s.reqs := (rfl)
@[simp] theorem State.writeLand_seqs (a : Nat) (bs : List Byte) : (s.writeLand a bs).seqs = s.seqs := (rfl)
@[simp] theorem State.writeLand_nodes (a : Nat) (bs : List Byte) : (s.writeLand a bs).nodes = s.nodes := (rfl)
@[simp] theorem State.writeLand_hbm (a : Nat) (bs : List Byte) : (s.writeLand a bs).hbm = s.hbm := (rfl)
@[simp] theorem State.writeLand_sketches (a : Nat) (bs : List Byte) : (s.writeLand a bs).sketches = s.sketches := (rfl)
@[simp] theorem State.writeLand_qsketch (a : Nat) (bs : List Byte) : (s.writeLand a bs).qsketch = s.qsketch := (rfl)
@[simp] theorem State.writeLand_flash (a : Nat) (bs : List Byte) : (s.writeLand a bs).flash = s.flash := (rfl)
@[simp] theorem State.writeLand_vidx (a : Nat) (bs : List Byte) : (s.writeLand a bs).vidx = s.vidx := (rfl)
@[simp] theorem State.writeLand_searches (a : Nat) (bs : List Byte) : (s.writeLand a bs).searches = s.searches := (rfl)
@[simp] theorem State.writeLand_wt (a : Nat) (bs : List Byte) : (s.writeLand a bs).wt = s.wt := (rfl)
@[simp] theorem State.writeLand_tick (a : Nat) (bs : List Byte) : (s.writeLand a bs).tick = s.tick := (rfl)
@[simp] theorem State.writeLand_crew (a : Nat) (bs : List Byte) : (s.writeLand a bs).crew = s.crew := (rfl)
@[simp] theorem State.writeLand_ports (a : Nat) (bs : List Byte) : (s.writeLand a bs).ports = s.ports := (rfl)
@[simp] theorem State.writeLand_yard (a : Nat) (bs : List Byte) : (s.writeLand a bs).yard = s.yard := (rfl)
@[simp] theorem State.writeLand_coll (a : Nat) (bs : List Byte) : (s.writeLand a bs).coll = s.coll := (rfl)
@[simp] theorem State.writeLand_dies (a : Nat) (bs : List Byte) : (s.writeLand a bs).dies = s.dies := (rfl)
@[simp] theorem State.writeLand_cores (a : Nat) (bs : List Byte) : (s.writeLand a bs).cores = s.cores := (rfl)
@[simp] theorem State.writeLand_stands (a : Nat) (bs : List Byte) : (s.writeLand a bs).stands = s.stands := (rfl)
@[simp] theorem State.writeLand_fore (a : Nat) (bs : List Byte) : (s.writeLand a bs).fore = s.fore := (rfl)
@[simp] theorem State.writeLand_ctr (a : Nat) (bs : List Byte) : (s.writeLand a bs).ctr = s.ctr := (rfl)
@[simp] theorem State.writeLand_therm (a : Nat) (bs : List Byte) : (s.writeLand a bs).therm = s.therm := (rfl)
@[simp] theorem State.writeLand_tmux (a : Nat) (bs : List Byte) : (s.writeLand a bs).tmux = s.tmux := (rfl)
@[simp] theorem State.writeLand_jtag (a : Nat) (bs : List Byte) : (s.writeLand a bs).jtag = s.jtag := (rfl)
@[simp] theorem State.writeLand_chk (a : Nat) (bs : List Byte) : (s.writeLand a bs).chk = s.chk := (rfl)
@[simp] theorem State.writeLand_freeIx (a : Nat) (bs : List Byte) : (s.writeLand a bs).freeIx = s.freeIx := (rfl)
@[simp] theorem State.writeLand_pending (a : Nat) (bs : List Byte) : (s.writeLand a bs).pending = s.pending := (rfl)

/-! ### writeFlash -/

@[simp] theorem State.writeFlash_ident (a : Nat) (bs : List Byte) : (s.writeFlash a bs).ident = s.ident := (rfl)
@[simp] theorem State.writeFlash_pwr (a : Nat) (bs : List Byte) : (s.writeFlash a bs).pwr = s.pwr := (rfl)
@[simp] theorem State.writeFlash_sys (a : Nat) (bs : List Byte) : (s.writeFlash a bs).sys = s.sys := (rfl)
@[simp] theorem State.writeFlash_smb (a : Nat) (bs : List Byte) : (s.writeFlash a bs).smb = s.smb := (rfl)
@[simp] theorem State.writeFlash_nor (a : Nat) (bs : List Byte) : (s.writeFlash a bs).nor = s.nor := (rfl)
@[simp] theorem State.writeFlash_norBusy (a : Nat) (bs : List Byte) : (s.writeFlash a bs).norBusy = s.norBusy := (rfl)
@[simp] theorem State.writeFlash_img (a : Nat) (bs : List Byte) : (s.writeFlash a bs).img = s.img := (rfl)
@[simp] theorem State.writeFlash_sec (a : Nat) (bs : List Byte) : (s.writeFlash a bs).sec = s.sec := (rfl)
@[simp] theorem State.writeFlash_mbx (a : Nat) (bs : List Byte) : (s.writeFlash a bs).mbx = s.mbx := (rfl)
@[simp] theorem State.writeFlash_host (a : Nat) (bs : List Byte) : (s.writeFlash a bs).host = s.host := (rfl)
@[simp] theorem State.writeFlash_profile (a : Nat) (bs : List Byte) : (s.writeFlash a bs).profile = s.profile := (rfl)
@[simp] theorem State.writeFlash_lots (a : Nat) (bs : List Byte) : (s.writeFlash a bs).lots = s.lots := (rfl)
@[simp] theorem State.writeFlash_reqs (a : Nat) (bs : List Byte) : (s.writeFlash a bs).reqs = s.reqs := (rfl)
@[simp] theorem State.writeFlash_seqs (a : Nat) (bs : List Byte) : (s.writeFlash a bs).seqs = s.seqs := (rfl)
@[simp] theorem State.writeFlash_nodes (a : Nat) (bs : List Byte) : (s.writeFlash a bs).nodes = s.nodes := (rfl)
@[simp] theorem State.writeFlash_hbm (a : Nat) (bs : List Byte) : (s.writeFlash a bs).hbm = s.hbm := (rfl)
@[simp] theorem State.writeFlash_land (a : Nat) (bs : List Byte) : (s.writeFlash a bs).land = s.land := (rfl)
@[simp] theorem State.writeFlash_sketches (a : Nat) (bs : List Byte) : (s.writeFlash a bs).sketches = s.sketches := (rfl)
@[simp] theorem State.writeFlash_qsketch (a : Nat) (bs : List Byte) : (s.writeFlash a bs).qsketch = s.qsketch := (rfl)
@[simp] theorem State.writeFlash_vidx (a : Nat) (bs : List Byte) : (s.writeFlash a bs).vidx = s.vidx := (rfl)
@[simp] theorem State.writeFlash_searches (a : Nat) (bs : List Byte) : (s.writeFlash a bs).searches = s.searches := (rfl)
@[simp] theorem State.writeFlash_wt (a : Nat) (bs : List Byte) : (s.writeFlash a bs).wt = s.wt := (rfl)
@[simp] theorem State.writeFlash_tick (a : Nat) (bs : List Byte) : (s.writeFlash a bs).tick = s.tick := (rfl)
@[simp] theorem State.writeFlash_crew (a : Nat) (bs : List Byte) : (s.writeFlash a bs).crew = s.crew := (rfl)
@[simp] theorem State.writeFlash_ports (a : Nat) (bs : List Byte) : (s.writeFlash a bs).ports = s.ports := (rfl)
@[simp] theorem State.writeFlash_yard (a : Nat) (bs : List Byte) : (s.writeFlash a bs).yard = s.yard := (rfl)
@[simp] theorem State.writeFlash_coll (a : Nat) (bs : List Byte) : (s.writeFlash a bs).coll = s.coll := (rfl)
@[simp] theorem State.writeFlash_dies (a : Nat) (bs : List Byte) : (s.writeFlash a bs).dies = s.dies := (rfl)
@[simp] theorem State.writeFlash_cores (a : Nat) (bs : List Byte) : (s.writeFlash a bs).cores = s.cores := (rfl)
@[simp] theorem State.writeFlash_stands (a : Nat) (bs : List Byte) : (s.writeFlash a bs).stands = s.stands := (rfl)
@[simp] theorem State.writeFlash_fore (a : Nat) (bs : List Byte) : (s.writeFlash a bs).fore = s.fore := (rfl)
@[simp] theorem State.writeFlash_ctr (a : Nat) (bs : List Byte) : (s.writeFlash a bs).ctr = s.ctr := (rfl)
@[simp] theorem State.writeFlash_therm (a : Nat) (bs : List Byte) : (s.writeFlash a bs).therm = s.therm := (rfl)
@[simp] theorem State.writeFlash_tmux (a : Nat) (bs : List Byte) : (s.writeFlash a bs).tmux = s.tmux := (rfl)
@[simp] theorem State.writeFlash_jtag (a : Nat) (bs : List Byte) : (s.writeFlash a bs).jtag = s.jtag := (rfl)
@[simp] theorem State.writeFlash_chk (a : Nat) (bs : List Byte) : (s.writeFlash a bs).chk = s.chk := (rfl)
@[simp] theorem State.writeFlash_freeIx (a : Nat) (bs : List Byte) : (s.writeFlash a bs).freeIx = s.freeIx := (rfl)
@[simp] theorem State.writeFlash_pending (a : Nat) (bs : List Byte) : (s.writeFlash a bs).pending = s.pending := (rfl)

/-! ### setHostPort -/

@[simp] theorem State.setHostPort_ident (p : Nat) (x : HostPort) : (s.setHostPort p x).ident = s.ident := by unfold State.setHostPort; split <;> rfl
@[simp] theorem State.setHostPort_pwr (p : Nat) (x : HostPort) : (s.setHostPort p x).pwr = s.pwr := by unfold State.setHostPort; split <;> rfl
@[simp] theorem State.setHostPort_sys (p : Nat) (x : HostPort) : (s.setHostPort p x).sys = s.sys := by unfold State.setHostPort; split <;> rfl
@[simp] theorem State.setHostPort_smb (p : Nat) (x : HostPort) : (s.setHostPort p x).smb = s.smb := by unfold State.setHostPort; split <;> rfl
@[simp] theorem State.setHostPort_nor (p : Nat) (x : HostPort) : (s.setHostPort p x).nor = s.nor := by unfold State.setHostPort; split <;> rfl
@[simp] theorem State.setHostPort_norBusy (p : Nat) (x : HostPort) : (s.setHostPort p x).norBusy = s.norBusy := by unfold State.setHostPort; split <;> rfl
@[simp] theorem State.setHostPort_img (p : Nat) (x : HostPort) : (s.setHostPort p x).img = s.img := by unfold State.setHostPort; split <;> rfl
@[simp] theorem State.setHostPort_sec (p : Nat) (x : HostPort) : (s.setHostPort p x).sec = s.sec := by unfold State.setHostPort; split <;> rfl
@[simp] theorem State.setHostPort_mbx (p : Nat) (x : HostPort) : (s.setHostPort p x).mbx = s.mbx := by unfold State.setHostPort; split <;> rfl
@[simp] theorem State.setHostPort_profile (p : Nat) (x : HostPort) : (s.setHostPort p x).profile = s.profile := by unfold State.setHostPort; split <;> rfl
@[simp] theorem State.setHostPort_lots (p : Nat) (x : HostPort) : (s.setHostPort p x).lots = s.lots := by unfold State.setHostPort; split <;> rfl
@[simp] theorem State.setHostPort_reqs (p : Nat) (x : HostPort) : (s.setHostPort p x).reqs = s.reqs := by unfold State.setHostPort; split <;> rfl
@[simp] theorem State.setHostPort_seqs (p : Nat) (x : HostPort) : (s.setHostPort p x).seqs = s.seqs := by unfold State.setHostPort; split <;> rfl
@[simp] theorem State.setHostPort_nodes (p : Nat) (x : HostPort) : (s.setHostPort p x).nodes = s.nodes := by unfold State.setHostPort; split <;> rfl
@[simp] theorem State.setHostPort_hbm (p : Nat) (x : HostPort) : (s.setHostPort p x).hbm = s.hbm := by unfold State.setHostPort; split <;> rfl
@[simp] theorem State.setHostPort_land (p : Nat) (x : HostPort) : (s.setHostPort p x).land = s.land := by unfold State.setHostPort; split <;> rfl
@[simp] theorem State.setHostPort_sketches (p : Nat) (x : HostPort) : (s.setHostPort p x).sketches = s.sketches := by unfold State.setHostPort; split <;> rfl
@[simp] theorem State.setHostPort_qsketch (p : Nat) (x : HostPort) : (s.setHostPort p x).qsketch = s.qsketch := by unfold State.setHostPort; split <;> rfl
@[simp] theorem State.setHostPort_flash (p : Nat) (x : HostPort) : (s.setHostPort p x).flash = s.flash := by unfold State.setHostPort; split <;> rfl
@[simp] theorem State.setHostPort_vidx (p : Nat) (x : HostPort) : (s.setHostPort p x).vidx = s.vidx := by unfold State.setHostPort; split <;> rfl
@[simp] theorem State.setHostPort_searches (p : Nat) (x : HostPort) : (s.setHostPort p x).searches = s.searches := by unfold State.setHostPort; split <;> rfl
@[simp] theorem State.setHostPort_wt (p : Nat) (x : HostPort) : (s.setHostPort p x).wt = s.wt := by unfold State.setHostPort; split <;> rfl
@[simp] theorem State.setHostPort_tick (p : Nat) (x : HostPort) : (s.setHostPort p x).tick = s.tick := by unfold State.setHostPort; split <;> rfl
@[simp] theorem State.setHostPort_crew (p : Nat) (x : HostPort) : (s.setHostPort p x).crew = s.crew := by unfold State.setHostPort; split <;> rfl
@[simp] theorem State.setHostPort_ports (p : Nat) (x : HostPort) : (s.setHostPort p x).ports = s.ports := by unfold State.setHostPort; split <;> rfl
@[simp] theorem State.setHostPort_yard (p : Nat) (x : HostPort) : (s.setHostPort p x).yard = s.yard := by unfold State.setHostPort; split <;> rfl
@[simp] theorem State.setHostPort_coll (p : Nat) (x : HostPort) : (s.setHostPort p x).coll = s.coll := by unfold State.setHostPort; split <;> rfl
@[simp] theorem State.setHostPort_dies (p : Nat) (x : HostPort) : (s.setHostPort p x).dies = s.dies := by unfold State.setHostPort; split <;> rfl
@[simp] theorem State.setHostPort_cores (p : Nat) (x : HostPort) : (s.setHostPort p x).cores = s.cores := by unfold State.setHostPort; split <;> rfl
@[simp] theorem State.setHostPort_stands (p : Nat) (x : HostPort) : (s.setHostPort p x).stands = s.stands := by unfold State.setHostPort; split <;> rfl
@[simp] theorem State.setHostPort_fore (p : Nat) (x : HostPort) : (s.setHostPort p x).fore = s.fore := by unfold State.setHostPort; split <;> rfl
@[simp] theorem State.setHostPort_ctr (p : Nat) (x : HostPort) : (s.setHostPort p x).ctr = s.ctr := by unfold State.setHostPort; split <;> rfl
@[simp] theorem State.setHostPort_therm (p : Nat) (x : HostPort) : (s.setHostPort p x).therm = s.therm := by unfold State.setHostPort; split <;> rfl
@[simp] theorem State.setHostPort_tmux (p : Nat) (x : HostPort) : (s.setHostPort p x).tmux = s.tmux := by unfold State.setHostPort; split <;> rfl
@[simp] theorem State.setHostPort_jtag (p : Nat) (x : HostPort) : (s.setHostPort p x).jtag = s.jtag := by unfold State.setHostPort; split <;> rfl
@[simp] theorem State.setHostPort_chk (p : Nat) (x : HostPort) : (s.setHostPort p x).chk = s.chk := by unfold State.setHostPort; split <;> rfl
@[simp] theorem State.setHostPort_freeIx (p : Nat) (x : HostPort) : (s.setHostPort p x).freeIx = s.freeIx := by unfold State.setHostPort; split <;> rfl
@[simp] theorem State.setHostPort_pending (p : Nat) (x : HostPort) : (s.setHostPort p x).pending = s.pending := by unfold State.setHostPort; split <;> rfl

/-! ### hostErr -/

@[simp] theorem State.hostErr_ident (p b : Nat) : (s.hostErr p b).ident = s.ident := by simp [State.hostErr]
@[simp] theorem State.hostErr_pwr (p b : Nat) : (s.hostErr p b).pwr = s.pwr := by simp [State.hostErr]
@[simp] theorem State.hostErr_sys (p b : Nat) : (s.hostErr p b).sys = s.sys := by simp [State.hostErr]
@[simp] theorem State.hostErr_smb (p b : Nat) : (s.hostErr p b).smb = s.smb := by simp [State.hostErr]
@[simp] theorem State.hostErr_nor (p b : Nat) : (s.hostErr p b).nor = s.nor := by simp [State.hostErr]
@[simp] theorem State.hostErr_norBusy (p b : Nat) : (s.hostErr p b).norBusy = s.norBusy := by simp [State.hostErr]
@[simp] theorem State.hostErr_img (p b : Nat) : (s.hostErr p b).img = s.img := by simp [State.hostErr]
@[simp] theorem State.hostErr_sec (p b : Nat) : (s.hostErr p b).sec = s.sec := by simp [State.hostErr]
@[simp] theorem State.hostErr_mbx (p b : Nat) : (s.hostErr p b).mbx = s.mbx := by simp [State.hostErr]
@[simp] theorem State.hostErr_profile (p b : Nat) : (s.hostErr p b).profile = s.profile := by simp [State.hostErr]
@[simp] theorem State.hostErr_lots (p b : Nat) : (s.hostErr p b).lots = s.lots := by simp [State.hostErr]
@[simp] theorem State.hostErr_reqs (p b : Nat) : (s.hostErr p b).reqs = s.reqs := by simp [State.hostErr]
@[simp] theorem State.hostErr_seqs (p b : Nat) : (s.hostErr p b).seqs = s.seqs := by simp [State.hostErr]
@[simp] theorem State.hostErr_nodes (p b : Nat) : (s.hostErr p b).nodes = s.nodes := by simp [State.hostErr]
@[simp] theorem State.hostErr_hbm (p b : Nat) : (s.hostErr p b).hbm = s.hbm := by simp [State.hostErr]
@[simp] theorem State.hostErr_land (p b : Nat) : (s.hostErr p b).land = s.land := by simp [State.hostErr]
@[simp] theorem State.hostErr_sketches (p b : Nat) : (s.hostErr p b).sketches = s.sketches := by simp [State.hostErr]
@[simp] theorem State.hostErr_qsketch (p b : Nat) : (s.hostErr p b).qsketch = s.qsketch := by simp [State.hostErr]
@[simp] theorem State.hostErr_flash (p b : Nat) : (s.hostErr p b).flash = s.flash := by simp [State.hostErr]
@[simp] theorem State.hostErr_vidx (p b : Nat) : (s.hostErr p b).vidx = s.vidx := by simp [State.hostErr]
@[simp] theorem State.hostErr_searches (p b : Nat) : (s.hostErr p b).searches = s.searches := by simp [State.hostErr]
@[simp] theorem State.hostErr_wt (p b : Nat) : (s.hostErr p b).wt = s.wt := by simp [State.hostErr]
@[simp] theorem State.hostErr_tick (p b : Nat) : (s.hostErr p b).tick = s.tick := by simp [State.hostErr]
@[simp] theorem State.hostErr_crew (p b : Nat) : (s.hostErr p b).crew = s.crew := by simp [State.hostErr]
@[simp] theorem State.hostErr_ports (p b : Nat) : (s.hostErr p b).ports = s.ports := by simp [State.hostErr]
@[simp] theorem State.hostErr_yard (p b : Nat) : (s.hostErr p b).yard = s.yard := by simp [State.hostErr]
@[simp] theorem State.hostErr_coll (p b : Nat) : (s.hostErr p b).coll = s.coll := by simp [State.hostErr]
@[simp] theorem State.hostErr_dies (p b : Nat) : (s.hostErr p b).dies = s.dies := by simp [State.hostErr]
@[simp] theorem State.hostErr_cores (p b : Nat) : (s.hostErr p b).cores = s.cores := by simp [State.hostErr]
@[simp] theorem State.hostErr_stands (p b : Nat) : (s.hostErr p b).stands = s.stands := by simp [State.hostErr]
@[simp] theorem State.hostErr_fore (p b : Nat) : (s.hostErr p b).fore = s.fore := by simp [State.hostErr]
@[simp] theorem State.hostErr_therm (p b : Nat) : (s.hostErr p b).therm = s.therm := by simp [State.hostErr]
@[simp] theorem State.hostErr_tmux (p b : Nat) : (s.hostErr p b).tmux = s.tmux := by simp [State.hostErr]
@[simp] theorem State.hostErr_jtag (p b : Nat) : (s.hostErr p b).jtag = s.jtag := by simp [State.hostErr]
@[simp] theorem State.hostErr_chk (p b : Nat) : (s.hostErr p b).chk = s.chk := by simp [State.hostErr]
@[simp] theorem State.hostErr_freeIx (p b : Nat) : (s.hostErr p b).freeIx = s.freeIx := by simp [State.hostErr]
@[simp] theorem State.hostErr_pending (p b : Nat) : (s.hostErr p b).pending = s.pending := by simp [State.hostErr]

/-! ### What they set -/

theorem State.setDie_dies (d : Nat) (x : Die) : (s.setDie d x).dies = Sparse.set {} s.dies d x := (rfl)
theorem State.setCore_cores (c : Nat) (x : Core) : (s.setCore c x).cores = Sparse.set {} s.cores c x := (rfl)
theorem State.setStand_stands (n : Nat) (x : Stand) : (s.setStand n x).stands = Sparse.set {} s.stands n x := (rfl)
theorem State.setPort_ports (n : Nat) (x : LinkPort) : (s.setPort n x).ports = Sparse.set {} s.ports n x := (rfl)
theorem State.setQueue_queues (q : Nat) (x : Queue) : (s.setQueue q x).host.queues = Sparse.set {} s.host.queues q x := (rfl)
theorem State.count_live (d c i n : Nat) :
    (s.count d c i n).ctr.live = Sparse.upd 0 s.ctr.live (ctrAddr d c i) (· + BitVec.ofNat 64 n) := (rfl)
@[simp] theorem State.send_sent (m : OutMsg) : (s.send m).yard.sent = s.yard.sent ++ [m] := (rfl)
@[simp] theorem State.failAttempt_fails (c k n l : Nat) :
    (s.failAttempt c k n l).tick.fails = s.tick.fails ++ [failRecord s.crew.coord c k n l] := (rfl)

/-- A port written reads back. -/
theorem State.port_setPort (n m : Nat) (x : LinkPort) :
    (s.setPort n x).port m = if m = n then x else s.port m := Sparse.get_set _ _ _ _ _

theorem State.port_setPort_ne (n m : Nat) (x : LinkPort) (h : m ≠ n) : (s.setPort n x).port m = s.port m := Sparse.get_set_ne _ _ _ _ _ h

/-- A die written reads back. -/
theorem State.die_setDie (n m : Nat) (x : Die) :
    (s.setDie n x).die m = if m = n then x else s.die m := Sparse.get_set _ _ _ _ _

theorem State.die_setDie_ne (n m : Nat) (x : Die) (h : m ≠ n) : (s.setDie n x).die m = s.die m := Sparse.get_set_ne _ _ _ _ _ h

/-- A core written reads back. -/
theorem State.core_setCore (n m : Nat) (x : Core) :
    (s.setCore n x).core m = if m = n then x else s.core m := Sparse.get_set _ _ _ _ _

theorem State.core_setCore_ne (n m : Nat) (x : Core) (h : m ≠ n) : (s.setCore n x).core m = s.core m := Sparse.get_set_ne _ _ _ _ _ h

/-- A queue written reads back. -/
theorem State.queue_setQueue (n m : Nat) (x : Queue) :
    (s.setQueue n x).queue m = if m = n then x else s.queue m := Sparse.get_set _ _ _ _ _

theorem State.queue_setQueue_ne (n m : Nat) (x : Queue) (h : m ≠ n) : (s.setQueue n x).queue m = s.queue m := Sparse.get_set_ne _ _ _ _ _ h

/-- A counter after an addition. -/
theorem State.counter_count (d c i n b : Nat) :
    Sparse.get 0 (s.count d c i n).ctr.live b =
      if b = ctrAddr d c i then Sparse.get 0 s.ctr.live b + BitVec.ofNat 64 n else Sparse.get 0 s.ctr.live b := by
  rw [State.count_live, Sparse.upd, Sparse.get_set _ _ _ _ _]
  split
  · subst_vars; rfl
  · rfl

/-- The two PCIe ports are independent. -/
@[simp] theorem State.hostPort_setHostPort (p q : Nat) (x : HostPort) (hp : p < 2) (hq : q < 2) :
    (s.setHostPort p x).hostPort q = if q = p then x else s.hostPort q := by
  have : p = 0 ∨ p = 1 := by omega
  have : q = 0 ∨ q = 1 := by omega
  rcases ‹p = 0 ∨ p = 1› with rfl | rfl <;> rcases ‹q = 0 ∨ q = 1› with rfl | rfl <;> simp [State.setHostPort, State.hostPort]

end Sys2Proof.Machine
end

