-- ==== Sys2Proof/WellFormed.lean ====
section
/-! DEFINITION. The range checks on a command's operands: what an agent outside the block can name or send at all. A part that one variant
lacks is still well-formed here; the command's meaning says what it does. -/

namespace Sys2Proof

/-! ### Numbers -/

def portOk (n : Nat) : Bool := decide (n < 2)
def opticalOk (n : Nat) : Bool := decide (n < 12)
def queueOk (n : Nat) : Bool := decide (n < 8192)
def dieOk (n : Nat) : Bool := decide (n < 8)
def coreOk (n : Nat) : Bool := decide (n < 128)
def standOk (n : Nat) : Bool := decide (n < 16)
def ctxOk (n : Nat) : Bool := decide (n < 4)
def stackOk (n : Nat) : Bool := decide (n < 32)
def channelOk (n : Nat) : Bool := decide (n < 32)
def coordOk (n : Nat) : Bool := decide (n < 4096)
def lotOk (n : Nat) : Bool := decide (n < 256)
def frameOk (n : Nat) : Bool := decide (n < 2 ^ 27)
def flashOk (n : Nat) : Bool := decide (n < 3906250000)
/-- The source of a page copy: an HBM frame, or a flash frame numbered from 2^40 on. -/
def sourceOk (n : Nat) : Bool := frameOk n || (decide (2 ^ 40 ≤ n) && flashOk (n - 2 ^ 40))
def blockOk (n : Nat) : Bool := decide (n < 65536)
def tapOk (n : Nat) : Bool := decide (n < 2)
def headOk (n : Nat) : Bool := decide (n < 64)
def layerOk (n : Nat) : Bool := decide (n < 256)

/-- Lists of words, all of one length. -/
def rowsOk (xs : List (List W32)) : Bool := xs.all fun r => r.length == (xs.headD []).length

/-! ### Structured operands -/

def DieReading.ok (r : DieReading) : Bool := r.junction.length == 16 && r.hbm.length == 4

def SensorReadings.ok (r : SensorReadings) : Bool := decide (r.dies.length ≤ 8) && r.dies.all DieReading.ok

def TaskPlan.ok (t : TaskPlan) : Bool :=
  dieOk t.die && coreOk t.core && ctxOk t.ctx && decide (t.tregs.length ≤ 16 ∧ t.piece.1 < t.piece.2)

def StreamPlan.ok (x : StreamPlan) : Bool := dieOk x.die && decide (x.num < 128) && x.walk.all fun c => decide (c < 64)

def TailPlan.ok (t : TailPlan) : Bool := layerOk t.layer && headOk t.head && stackOk t.stack && frameOk t.flushFrame

def CollPlan.ok (c : CollPlan) : Bool :=
  decide (c.collId < 65536 ∧ c.program < 16 ∧ c.cls < 4 ∧ c.dim ≤ 12 ∧ c.vc < 4) && dieOk c.die && coreOk c.core && c.contributors.all coordOk && c.dests.all coordOk && c.onward.all coordOk

def PlanInput.ok (p : PlanInput) : Bool :=
  p.tasks.all TaskPlan.ok && p.streams.all StreamPlan.ok && p.tails.all TailPlan.ok && p.colls.all CollPlan.ok &&
    p.wakes.all (fun n => decide (n < 128)) && p.spillTo.all flashOk && p.promote.all (fun m => frameOk m.dst) &&
    p.rebuilt.all (fun m => frameOk m.dst) && p.moved.all (fun m => frameOk m.dst) && p.fresh.all (fun m => frameOk m.dst) &&
    p.resident.all (fun r => dieOk r.1) && p.units.all fun u => channelOk u.1

def DeltaEntry.ok : DeltaEntry → Bool
  | .seqSet _ base size => coordOk base && decide (size ≤ 4096)
  | .runMove _ _ _ src dst => coordOk src && coordOk dst
  | .heads _ _ gs => gs.all fun g => g.1.all headOk && g.2.all coordOk
  | .weightShare m _ _ _ => coordOk m
  | .admission key _ lot => lotOk lot && decide (key < 2 ^ 41)
  | .lotUsage lot _ _ => lotOk lot
  | .ring _ base k => coordOk base && decide (k ≤ 12)
  | .rebuild _ _ m => coordOk m
  | .reserved k => decide (9 ≤ k ∧ k ≤ 15)

def CmdRec.ok (r : CmdRec) : Bool := coordOk r.coord && queueOk r.qid && decide (r.arrival < 2 ^ 32)

def Report.ok (r : Report) : Bool := r.cmds.all CmdRec.ok && r.usage.length == 256

def ArbPoint.ok : ArbPoint → Bool
  | .stack n => stackOk n
  | .hubPort d => dieOk d
  | .channel n => channelOk n

/-- Members as (coordinate, MODULE_ID, VARIANT). -/
def membersOk (ms : List (Nat × W64 × Nat)) : Bool := ms.all fun m => coordOk m.1 && m.2.1 != 0 && decide (1 ≤ m.2.2 ∧ m.2.2 ≤ 3)

def Joining.ok (j : Joining) : Bool := coordOk j.coord && coordOk j.master && membersOk j.members && j.lots.length == 256

def EdgeInput.ok (x : EdgeInput) : Bool :=
  x.joining.all Joining.ok && membersOk x.admitted && x.departs.all coordOk && x.draining.all coordOk

/-- The ranges of a command's operands. -/
def Instr.wellFormed : Instr → Bool
  | .standbyPowerUp _ | .pwrEnAssert _ | .powerGood _ | .imageLoad _ | .loadComplete | .verify | .trainTimeout | .pwrEnDeassert => true
  | .undervoltage _ | .overvoltage _ | .powerUpHoldoffExpiry => true
  | .hubControlReset p _ | .perstAssert p | .perstDeassert p | .functionLevelReset p => portOk p
  | .bar0BadAccess p _ off size | .registerWrite p off size _ => portOk p && decide (off < 2 ^ 26 ∧ 1 ≤ size)
  | .doorbellSq p q _ | .doorbellCq p q _ | .queueEnable p q _ | .queueDisable p q _ => portOk p && queueOk q
  | .hostErrClear p _ | .snapHoldSet p | .snapHoldRelease p | .tmuxSelWrite p _ => portOk p
  | .tmuxSwitch n => decide (n < 8)
  | .linkStatusClear p n _ => portOk p && opticalOk n
  | .mailboxRead p _ | .mailboxRestart p | .mailboxReservedOp p _ => portOk p
  | .mailboxWrite p bs _ _ => portOk p && bs.length % 4096 == 0
  | .mailboxDone | .smbusRecoveryWrite _ _ _ => true
  | .submissionFetch p q es _ => portOk p && queueOk q && decide (es.length ≤ 8)
  | .openSeq _ | .append _ _ | .generate _ _ | .fork _ | .abort _ | .close _ | .loadWeights _ _ => true
  | .setQuotaLot _ | .setQuotaQueueMap _ | .setProfile _ => true
  | .vecInsert _ _ | .codebookReload _ _ | .vecDelete _ | .vecSearch _ _ => true
  | .readCounters _ | .attest _ _ | .writeImage _ _ | .norProgramComplete _ | .drain _ | .invalidOpcode _ => true
  | .tickEdgeApply _ _ x => x.ok
  | .snapshotTransfer | .edge _ _ => true
  | .cmdset _ rs => rs.all CmdRec.ok
  | .report c _ r _ _ => coordOk c && r.ok
  | .repeatMsg c _ _ | .reportRepeatTimeout c => coordOk c
  | .checkAndCommitEntry | .checkReportSend _ _ _ _ | .masterDecision _ | .edgeIssue _ => true
  | .throttleEvaluation r | .throttleRaise r | .thermalShutdown r => r.ok
  | .nandThrottle _ | .nandThrottleRelease _ => true
  | .plan p => p.ok
  | .layoutDelta es => es.all DeltaEntry.ok
  | .deltaReceive _ _ es => es.all DeltaEntry.ok
  | .taskIssue d c k => dieOk d && coreOk c && ctxOk k
  | .standPortGrant d st | .tileLoadComplete d st => dieOk d && standOk st
  | .contextSwitch d c | .haloCopy d c | .tileDrain d c | .separateChainPass d c | .functionTableFill d c => dieOk d && coreOk c
  | .completionMessage _ => true
  | .normalisation d c _ | .softMaximum d c _ => dieOk d && coreOk c
  | .rotaryRotation d c _ _ rows ps => dieOk d && coreOk c && ps.length == rows
  | .blockFold d c j => dieOk d && coreOk c && layerOk j.layer && headOk j.head
  | .tokenChoice j ls => dieOk j.die && coreOk j.core && rowsOk ls
  | .sketchTask d c _ _ _ => dieOk d && coreOk c
  | .pageRanking c _ l h qs => dieOk c.die && coreOk c.core && layerOk l && headOk h && rowsOk qs
  | .ringStepFold _ _ _ x => coordOk x.member
  | .streamGrant p => p.ok
  | .walkRequest d c n _ _ _ _ => dieOk d && decide (c < 64 ∧ n < 128)
  | .tailAppend d c _ _ l h _ k v _ _ => dieOk d && coreOk c && layerOk l && headOk h && k.length == v.length
  | .scatter d c _ _ l h _ k v _ _ f => dieOk d && coreOk c && layerOk l && headOk h && k.length == v.length && frameOk f
  | .pageCopy f g | .pageCopyComplete f g => sourceOk f && frameOk g
  | .cleaningWrite f g _ => frameOk f && flashOk g
  | .hbmUncorrectable f | .scrub f _ => frameOk f
  | .refresh n _ | .readDisturbRefresh n _ => stackOk n
  | .flashRead f _ _ => flashOk f
  | .wearLevelling n | .garbageCollection n => channelOk n
  | .readDisturbRelocation n b | .programFailure n b => channelOk n && blockOk b
  | .flashReadOnly => true
  | .sramUncorrectable k n => decide (k ≤ 6 ∧ n < 4096)
  | .searchAdmission _ | .recordExpansion _ _ | .sideScan _ _ | .resultAssembly _ _ | .mergeFinish _ => true
  | .laneLock n ls _ => opticalOk n && ls.all fun l => decide (l < 10)
  | .flitLock n | .trainRecord n _ _ | .trainRecordSend n _ | .trainingStepTimeout n | .trainingRetry n => opticalOk n
  | .timestampExchange n _ | .flitSend n | .downNotice n | .flitSilenceTimeout n | .nakRateLimit n => opticalOk n
  | .flitReceive n _ bs => opticalOk n && bs.length == 240
  | .nak n qs => opticalOk n && decide (qs.length ≤ 32) && qs.all fun q => decide (q < 4096)
  | .credit n rs => opticalOk n && rs.all fun r => decide (r.1 < 4 ∧ r.2.1 < 2)
  | .laneAlignmentTimeout n l => opticalOk n && decide (l < 10)
  | .laserOffExpiry n | .linkState n _ => opticalOk n
  | .crewFormation ms _ hs _ => membersOk ms && hs.all fun h => coordOk h.2
  | .chunkReceive c _ bs n => coordOk c && decide (bs.length ≤ 262112) && stackOk n
  | .combine _ _ _ _ a b _ => a.length == b.length
  | .extest t | .samplePreload t _ | .idcode t | .highz t | .clamp t | .extestPulse t | .extestTrain t | .bypass t _ => tapOk t
  | .testLogicReset => true

end Sys2Proof
end

