-- ==== Sys2Proof/Tests/Slice0.lean ====
section
/-! SUPPORT. The model's own tests: the range checks of `WellFormed`, single steps with results taken from the spec's text, and for every statement
of the certificate states and operands that meet its hypotheses, at the ends of their ranges where the statement has clauses. -/

namespace Sys2Proof.Tests

open Sys2Proof Sys2Proof.Machine

set_option Elab.async false

/-! ### Well-formedness: one ill-formed command for each check -/

theorem test_wf_accepts : (Instr.perstAssert 1).wellFormed = true ∧ (Instr.tmuxSwitch 7).wellFormed = true ∧
    (Instr.doorbellSq 0 8191 0).wellFormed = true ∧ (Instr.flitLock 11).wellFormed = true ∧ (Instr.pageCopy (2 ^ 40 + 5) 7).wellFormed = true := by decide

theorem test_wf_ports : (Instr.perstAssert 2).wellFormed = false ∧ (Instr.tmuxSwitch 8).wellFormed = false ∧
    (Instr.doorbellSq 0 8192 0).wellFormed = false ∧ (Instr.linkStatusClear 0 12 0).wellFormed = false ∧ (Instr.flitLock 12).wellFormed = false ∧
    (Instr.extest 2).wellFormed = false := by decide

theorem test_wf_accesses : (Instr.registerWrite 0 (2 ^ 26) 8 0).wellFormed = false ∧ (Instr.bar0BadAccess 0 true 0 0).wellFormed = false ∧
    (Instr.mailboxWrite 0 [0] none none).wellFormed = false ∧ (Instr.submissionFetch 0 0 (List.replicate 9 0) false).wellFormed = false := by decide

theorem test_wf_parts : (Instr.taskIssue 8 0 0).wellFormed = false ∧ (Instr.taskIssue 0 128 0).wellFormed = false ∧
    (Instr.taskIssue 0 0 4).wellFormed = false ∧ (Instr.standPortGrant 0 16).wellFormed = false ∧ (Instr.refresh 32 0).wellFormed = false ∧
    (Instr.wearLevelling 32).wellFormed = false ∧ (Instr.programFailure 0 65536).wellFormed = false ∧ (Instr.scrub (2 ^ 27) false).wellFormed = false ∧
    (Instr.flashRead 3906250000 true none).wellFormed = false ∧ (Instr.sramUncorrectable 7 0).wellFormed = false := by decide

theorem test_wf_messages : (Instr.reportRepeatTimeout 4096).wellFormed = false ∧ (Instr.layoutDelta [.reserved 3]).wellFormed = false ∧
    (Instr.flitReceive 0 0 []).wellFormed = false ∧ (Instr.nak 0 [4096]).wellFormed = false ∧ (Instr.credit 0 [(4, 0, 1)]).wellFormed = false ∧
    (Instr.laneLock 0 [10] 0).wellFormed = false ∧ (Instr.crewFormation [(0, 0, 1)] none [] 0).wellFormed = false ∧
    (Instr.combine 0 0 0 0 [0] [] true).wellFormed = false ∧ (Instr.throttleRaise ⟨[⟨[], []⟩], 0, 0, 0, 0⟩).wellFormed = false := by decide

/-! ### Small states -/

/-- A powered module in RUN with both PCIe ports answering. -/
def sOn : State := { State.reset with
  pwr := { supply := .inRange, vin := 5400, standby := true, main := .on, pwrEn := true, present := true }
  sys := { state := .run }
  host := { State.reset.host with port0 := { link := .answering }, port1 := { link := .answering } } }

/-- The same module in state `x`. -/
def inState (x : ModState) : State := { sOn with sys := { sOn.sys with state := x } }

/-- A member of a crew of its own, at coordinate 0, in the work of tick 1. -/
def sCrew : State := { sOn with
  crew := { member := true, coord := 0, epoch := 1, master := 0, members := [⟨0, 1, 3⟩], n0 := 1 }
  tick := { num := 1, period := 100, edgeAt := 10, nominal := 10, phase := .work } }

/-- The same member in CHECK-AND-COMMIT. -/
def sCheck : State := { sCrew with tick := { sCrew.tick with phase := .checkAndCommit } }

/-- A member at coordinate 1 under the master 0, joined by port 0. -/
def sLeaf : State := { sCrew with
  img := { dims := 1 }
  crew := { sCrew.crew with coord := 1, members := [⟨0, 7, 3⟩, ⟨1, 1, 3⟩], n0 := 2 }
  ports := [(0, { state := .up, dim := 0, peerCoord := 0 })] }

/-- The master at coordinate 0 with a child at 1. -/
def sRoot : State := { sCrew with
  img := { dims := 1 }
  crew := { sCrew.crew with members := [⟨0, 1, 3⟩, ⟨1, 7, 3⟩], n0 := 2 }
  ports := [(0, { state := .up, dim := 0, peerCoord := 1 })] }

/-- The next state of a command, or the state given where it stops. -/
def after (i : Instr) (s : State) : State :=
  match exec i s with
  | .next t => t
  | _ => s

/-- The same with a whole TICK message that has arrived. -/
def gets (kind src : Nat) (hdr : BitVec 128) (body : List Byte) (s : State) : State := { s with yard := { s.yard with inbox := s.yard.inbox ++ [⟨src, kind, hdr, body, []⟩] } }

/-! ### Queue and reset -/

theorem witness_StepRunsFrontCommand : ({ sOn with pending := [.mailboxDone, .loadComplete] } : State).pending = .mailboxDone :: [.loadComplete] ∧
    State.reset.pending = [] := by decide

theorem witness_StepKeepsStatus : State.reset.statusOk ∧ sCrew.statusOk ∧ (inState .train).statusOk := by
  refine ⟨?_, ?_, ?_⟩ <;> unfold State.statusOk <;> decide

theorem witness_StepKeepsMemories : State.reset.memsOk ∧ sCrew.memsOk := by
  constructor <;> unfold State.memsOk <;> decide

theorem test_reset_idles : step State.reset = .next State.reset := rfl

theorem test_reset_status : State.reset.statusOk ∧ State.reset.memsOk := by
  constructor
  · unfold State.statusOk; decide
  · unfold State.memsOk; decide

theorem witness_BoardWriters : (Instr.verify).writesNor = false ∧ (Instr.verify).writesRomHold = false ∧ (Instr.verify).writesJtag = false ∧
    (Instr.mailboxDone).changesState = false := by decide

theorem witness_StateChanges : ({ inState .fault with sys := { state := .fault, faultClass := 2 } } : State).statusOk := by
  unfold State.statusOk; decide

/-! ### Power and start-up -/

theorem witness_PowerUpInputs : State.reset.pwr.supply ≠ .inRange ∧ 4800 ≤ (4800 : BitVec 16).toNat ∧ (5700 : BitVec 16).toNat ≤ 5700 := by decide

theorem test_powers_up : (after .powerUpHoldoffExpiry (after (.pwrEnAssert true) (after (.standbyPowerUp 5400) State.reset))).pwr.main = .starting := by decide

theorem test_power_good_enters_rom : (after (.powerGood true) (after (.pwrEnAssert true) (after (.standbyPowerUp 5400) State.reset))).sys.state = .rom ∧
    (after (.powerGood true) (after (.pwrEnAssert true) (after (.standbyPowerUp 5400) State.reset))).sys.compat = true := by decide +kernel

theorem test_absent_card_stays_off : (after (.pwrEnAssert false) (after (.standbyPowerUp 5400) State.reset)).pwr.main = .off := by decide +kernel

theorem witness_PowerLoss : sOn.pwr.main ≠ .off ∧ State.reset.pwr.main = .off ∧ (4550 : BitVec 16).toNat ≤ 4550 ∧ 5850 ≤ (5850 : BitVec 16).toNat := by decide

theorem test_undervoltage_cuts_power : (after (.undervoltage 4550) sOn).sys.state = .off ∧ (after (.undervoltage 4550) sOn).pwr.holdoff = true ∧
    (after (.undervoltage 4551) sOn).sys.state = .run := by decide +kernel

theorem witness_ModuleReset : sOn.bar0Open 0 = true ∧ sOn.bar0Open 1 = true ∧ (0xFFA5 : W64).toNat % 256 = 0xA5 ∧ (0xA4 : W64).toNat % 256 ≠ 0xA5 ∧
    (inState .fault).bar0Open 0 = true ∧ (inState .fault).serving = true ∧ (inState .fault).mbx.busy = false := by decide

theorem test_reset_key : (after (.hubControlReset 0 0xA5) sCrew).sys.state = .rom ∧ (after (.hubControlReset 0 0xA5) sCrew).crew.member = false ∧
    (after (.hubControlReset 0 0x5A) sCrew).sys.state = .run := by decide +kernel

theorem witness_PowerGoodEntersRom : (after (.pwrEnAssert true) (after (.standbyPowerUp 5400) State.reset)).pwr.main = .starting := by decide

theorem witness_ImageLoads : (inState .rom).sys.state = .rom ∧ (inState .rom).pwr.main = .on ∧ (inState .rom).smb.romHold = false ∧
    headerBad (imgHeader (inState .rom).nor) = true ∧ ({ sOn with smb := { romHold := true } } : State).smb.romHold = true ∧
    ({ inState .load with sys := { state := .load, progress := 100 } } : State).sys.progress = 100 := by decide +kernel

theorem test_blank_nor_faults : (after (.imageLoad true) (inState .rom)).sys.state = .fault ∧ (after (.imageLoad true) (inState .rom)).sys.faultClass = 2 ∧
    (after (.imageLoad false) (inState .rom)).sys.faultClass = 2 := by decide +kernel

theorem witness_VerifyTrainJoin : (inState .verify).sys.state = .verify ∧ (inState .train).sys.state = .train := by decide

/-! ### PCIe ports and BAR0 -/

theorem witness_PciePortEvents : Sparse.wf ({} : Queue) sOn.host.queues = true ∧ sOn.bar0Open 1 = true ∧ State.reset.pwr.main = .off ∧
    ({ sOn with host := { sOn.host with port1 := {} } } : State).pwr.main = .on ∧
    (({ sOn with host := { sOn.host with port1 := {} } } : State).hostPort 1).link = .inReset := by decide

theorem test_perst_retries_in_rom : ((after (.perstDeassert 1) { inState .rom with host := { sOn.host with port1 := {} } }).hostPort 1).link = .retry ∧
    ((after (.perstDeassert 1) { sOn with host := { sOn.host with port1 := {} } }).hostPort 1).link = .answering ∧
    ((after (.perstAssert 1) sOn).hostPort 0).link = .answering := by decide

theorem test_perst_before_power : ((after (.perstDeassert 0) {}).hostPort 0).link = .inReset ∧ ((after (.perstDeassert 0) {}).hostPort 0).perstN = true ∧
    ((after (.powerGood false) { pwr := { main := .starting }, host := { port0 := { perstN := true } } }).hostPort 0).link = .retry := by decide +kernel

theorem witness_BadAccess : sOn.bar0Open 0 = true ∧ ¬((2 = 8 ∧ 4 % 8 = 0) ∨ (2 = 4 ∧ 4 % 4 = 0)) ∧ ¬((8 = 8 ∧ 4 % 8 = 0) ∨ (8 = 4 ∧ 4 % 4 = 0)) ∧
    0x48 % 8 = 0 ∧ 0x4C % 8 = 4 ∧ 0x4C % 4 = 0 := by decide

theorem test_bad_access_sets_access : ((after (.bar0BadAccess 1 true 0x41 4) sOn).hostPort 1).hostErr = 4 ∧
    (after (.bar0BadAccess 1 false 0x41 4) sOn).host.lastRead = 0xFFFF_FFFF_FFFF_FFFF := by decide

theorem witness_StatusWrites : sOn.bar0Open 0 = true ∧ sOn.bar0Open 1 = true ∧ 11 < 12 := by decide

theorem test_host_err_clear : ((after (.hostErrClear 0 1) { sOn with host := { sOn.host with port0 := { link := .answering, hostErr := 5 } } }).hostPort 0).hostErr = 4 := by
  decide

/-- A module whose counters stand latched. -/
def sLatched : State := { sOn with ctr := { sOn.ctr with latched := some ⟨7, [], 0⟩ } }

/-- The same with one bank held by port 0 and one being read. -/
def sHeld : State := { sLatched with
  ctr := { sLatched.ctr with bank0 := some ⟨5, [], 0⟩, bank1 := some ⟨6, [], 0⟩, latest := some 1, reading := some 1 }
  host := { sLatched.host with port0 := { link := .answering, snapHold := true, shown := some 0 } } }

theorem witness_SnapshotMoves : sLatched.ctr.latched = some ⟨7, [], 0⟩ ∧ sLatched.freeBank = some 0 ∧ sHeld.freeBank = some 2 ∧
    ({ sHeld with host := { sHeld.host with port1 := { link := .answering, snapHold := true, shown := some 2 } } } : State).freeBank = none := by decide

theorem test_snapshot_takes_free_bank : (after .snapshotTransfer sHeld).ctr.latest = some 2 ∧ ((after .snapshotTransfer sHeld).hostPort 0).shown = some 0 ∧
    ((after .snapshotTransfer sHeld).hostPort 1).shown = some 2 := by decide

/-- Queue 8191 of port 1, enabled with four entries in each ring. -/
def sQueue : State := { sCrew with host := { sCrew.host with queues := [(8191, { enable := true, cqSize := 3, sqSize := 3 })] } }

theorem witness_Doorbells : sQueue.bar0Open 1 = true ∧ 8191 < 8192 ∧ sQueue.ownerPort 8191 = 1 ∧ sQueue.ownerPort 8191 ≠ 0 ∧
    (sQueue.queue 0).enable = false ∧ (sQueue.queue 8191).enable = true ∧ (0x10003 : W32).getLsbD 16 = true ∧ (0x3 : W32).getLsbD 16 = false ∧
    (0x10003 : W32).toNat % 65536 < (sQueue.queue 8191).sqSize.toNat + 1 ∧ (sQueue.queue 8191).sqSize.toNat + 1 ≤ (0x10004 : W32).toNat % 65536 ∧
    (0x10003 : W32).toNat % 65536 < (sQueue.queue 8191).cqSize.toNat + 1 ∧ (sQueue.queue 8191).cqSize.toNat + 1 ≤ (0x10004 : W32).toNat % 65536 := by decide

theorem test_doorbell_range : ((after (.doorbellSq 1 8191 0x10003) sQueue).queue 8191).sqTail = 3 ∧
    ((after (.doorbellSq 1 8191 0x10004) sQueue).hostPort 1).hostErr = 1 ∧ ((after (.doorbellSq 1 8191 0x10004) sQueue).queue 8191).sqTail = 0 ∧
    ((after (.doorbellCq 0 8191 0x10001) sQueue).hostPort 0).hostErr = 2 := by decide

/-- A QUEUE_CONFIG value: ENABLE, CQ_SIZE 3, SQ_SIZE 3. -/
def qcfg : W64 := 0x8000_0003_0003_0000

theorem witness_QueueEnables : sCrew.bar0Open 1 = true ∧ sCrew.ownerPort 8191 = 1 ∧ (sCrew.queue 8191).enable = false ∧ sCrew.sys.state = .run ∧
    BitVec.ofNat 16 (qcfg.toNat / 2 ^ 16) ≠ 0 ∧ BitVec.ofNat 16 (qcfg.toNat / 2 ^ 32) ≠ 0 ∧
    ¬((inState .join).sys.state = .run ∨ (inState .join).sys.state = .drain) ∧ (sQueue.queue 8191).enable = true ∧
    BitVec.ofNat 11 (qcfg.toNat / 2 ^ 48) = (sQueue.queue 8191).msixVec ∧ BitVec.ofNat 16 (qcfg.toNat / 2 ^ 32) = (sQueue.queue 8191).cqSize ∧
    BitVec.ofNat 16 (qcfg.toNat / 2 ^ 16) = (sQueue.queue 8191).sqSize ∧ sCrew.ownerPort 8191 ≠ 0 := by decide

theorem test_queue_enable : ((after (.queueEnable 1 8191 qcfg) sCrew).queue 8191).enable = true ∧
    ((after (.queueEnable 1 8191 qcfg) (inState .join)).queue 8191).enable = false ∧
    ((after (.queueEnable 1 8191 qcfg) (inState .join)).hostPort 1).hostErr = 0x20 := by decide

theorem test_queue_disable_waits : ((after (.queueDisable 1 8191 qcfg) sQueue).queue 8191).enable = false ∧
    ((after (.queueDisable 1 8191 qcfg) { sQueue with host := { sQueue.host with queues := [(8191, { enable := true, cqSize := 3, sqSize := 3, outstanding := 1 })] } }).queue
      8191).enable = true := by decide

/-! ### Multiplexers, mailbox, SMBus -/

theorem witness_TestMultiplexers : sOn.bar0Open 0 = true ∧ ({ sOn with img := { loaded := true } } : State).img.loaded = true ∧ sOn.img.loaded = false ∧
    7 < 8 ∧ 8 ≤ 8 := by decide

theorem test_tmux_goes_low : (after (.tmuxSwitch 0) (after (.tmuxSelWrite 0 1) { sOn with img := { loaded := true } })).tmux.sel = 1 ∧
    (after (.tmuxSwitch 0) (after (.tmuxSelWrite 0 1) { sOn with img := { loaded := true } })).tmux.pins = [(0, .low)] := by decide

/-- A module in FAULT whose mailbox names one unit at the end of the NOR. -/
def sMail : State := { inState .fault with sys := { state := .fault, faultClass := 2 }, mbx := { units := 1, norOffset := 2 ^ 28 - 4096 } }

theorem witness_MailboxReads : sMail.bar0Open 0 = true ∧ sMail.serving = true ∧ sMail.mbx.busy = false ∧ sMail.mbx.units ≠ 0 ∧
    sMail.mbx.norOffset + 4096 * sMail.mbx.units ≤ 2 ^ 28 ∧ Mem.wf sMail.host.mem = true ∧
    2 ^ 28 < ({ sMail with mbx := { units := 1, norOffset := 2 ^ 28 - 4095 } } : State).mbx.norOffset + 4096 * 1 ∧
    (inState .fault).mbx.units = 0 ∧ ({ sMail with mbx := { busy := true } } : State).mbx.busy = true ∧ sOn.serving = false := by decide

theorem witness_MailboxWrites : sMail.bar0Open 0 = true ∧ sMail.serving = true ∧ sMail.mbx.busy = false ∧ sMail.mbx.units ≠ 0 ∧
    sMail.mbx.norOffset + 4096 * sMail.mbx.units ≤ 2 ^ 28 ∧ (List.replicate 4096 (0 : Byte)).length = 4096 * sMail.mbx.units := by
  refine ⟨by decide, by decide, by decide, by decide, by decide, ?_⟩
  rw [List.length_replicate]; rfl

theorem witness_MailboxEnds : sMail.bar0Open 0 = true ∧ sMail.serving = true ∧ sMail.mbx.busy = false ∧ (0 : Byte) ≠ 1 ∧ (4 : Byte) ≠ 3 ∧
    ({ sMail with mbx := { busy := true } } : State).mbx.busy = true ∧ Sparse.wf norBlank sMail.nor = true := by decide

theorem test_mailbox_reserved : (after (.mailboxReservedOp 0 4) sMail).mbx.result = 4 ∧ (after (.mailboxReservedOp 0 4) sMail).mbx.done = true := by decide +kernel

theorem test_mailbox_range : (after .mailboxDone (after (.mailboxRead 0 none) { sMail with mbx := { units := 1, norOffset := 2 ^ 28 - 4095 } })).mbx.result = 1 := by decide +kernel

theorem test_mailbox_done_programs : (after .mailboxDone { sMail with mbx := { busy := true, nextOff := 5, nextData := [0x12] } }).nor = [(5, 0x12)] := by decide +kernel

theorem witness_SmbusWrites : sOn.pwr.standby = true ∧ (0 : Byte) ≠ smbusPec [0xB8, 0x40, 1] ∧ (0x41 : Byte) ≠ 0x40 ∧ State.reset.pwr.standby = false := by decide +kernel

theorem test_rom_hold : (after (.smbusRecoveryWrite 0x40 0xFF none) sOn).smb.romHold = true ∧
    (after (.smbusRecoveryWrite 0x40 1 (some 0)) sOn).smb = { romHold := false, lastAck := false } := by decide +kernel

/-- R711 and R712 on a snapshot: CYCLES of core 5 is the sum of its four classes, and a counted event reads its count. -/
theorem test_snapshot_cycles (x : Snap) : x.value 0x4280 = ((x.value 80 + x.value 81) + x.value 82) + x.value 83 := by rfl

theorem test_snapshot_count : (⟨7, [(ctrAddr 8 4 0, 3)], 0⟩ : Snap).value (ctrAddr 8 4 0) = 3 := by decide

/-- R738: in standby MODULE_ID, VARIANT and VIN read, MOD_STATE reads 0xF and the temperatures read zero. -/
theorem test_smbus_standby :
    let s : State := { State.reset with pwr := { State.reset.pwr with supply := .inRange, standby := true, vin := 5400 } }
    s.smbusRead 0 = [1, 0, 0, 0, 0, 0, 0, 0] ∧ s.smbusRead 9 = [0xF] ∧ s.smbusRead 0x10 = [0x18, 0x15] ∧ s.smbusRead 0x21 = [0] := by decide

/-! ### Fetching and decoding commands -/

/-- Two entries wait in queue 8191 of port 1, and its completion ring has room for three. -/
def sFetch : State := { sCrew with host := { sCrew.host with queues := [(8191, { enable := true, cqSize := 3, sqSize := 3, sqHead := 3, sqTail := 1 })] } }

theorem witness_SubmissionFetches : Sparse.wf ({} : Queue) sFetch.host.queues = true ∧ sFetch.sys.state = .run ∧ sFetch.crew.member = true ∧
    sFetch.nextQueue 1 = some 8191 ∧ (sFetch.queue 8191).fetchable = 2 ∧ 1 ≤ [0x1, (0x2 : BitVec 512)].length ∧
    sFetch.mergeCount + 2 ≤ 65536 := by decide

theorem test_fetch_wraps : ((after (.submissionFetch 1 8191 [0x1, 0x2] false) sFetch).queue 8191).sqHead = 1 ∧
    ((after (.submissionFetch 1 8191 [0x1, 0x2] false) sFetch).queue 8191).outstanding = 2 ∧
    ((after (.submissionFetch 1 8191 [0x1, 0x2] false) sFetch).reqs.map fun r => (r.opcode, r.arrival)) = [(1, 0), (2, 1)] := by decide +kernel

theorem test_fetch_error : ((after (.submissionFetch 1 8191 [] true) sFetch).queue 8191).error = true ∧
    ((after (.submissionFetch 1 8191 [] true) sFetch).hostPort 1).hostErr = 8 := by decide +kernel

/-- A command of this module with the opcode `op` and the entry fields `e`. -/
def cmd (op : Byte) (e : BitVec 512) (st : Stage) : Req :=
  { rid := 5, port := 0, qid := 0, coord := 0, cid := 1, opcode := op, entry := BitVec.ofNat 512 op.toNat ||| e, arrival := 0, stage := st, handle := 9 }

/-- A member with one command and one sequence, handle 9. -/
def sCmd (op : Byte) (e : BitVec 512) (st : Stage) : State := { sCrew with
  reqs := [cmd op e st]
  seqs := [{ handle := 9, lMax := 4, vpages := 1, log := [1, 2, 3] }]
  img := { sCrew.img with model := place 1024 856 32 100 } }

/-- One token for handle 9. -/
def oneTok : BitVec 512 := place 512 32 32 9 ||| place 512 128 32 1

theorem witness_FieldChecks : (sCmd 2 0 .merge).req 5 = some (cmd 2 0 .merge) ∧ (sCmd 2 0 .merge).ticking = true ∧ (cmd 2 0 .merge).takeable = true ∧
    (cmd 2 0 .held).takeable = true ∧ Entry.fieldsOk (cmd 2 0 .merge).entry = false ∧ Entry.fieldsOk (cmd 1 0 .merge).entry = false ∧
    Entry.fieldsOk (cmd 3 0 .merge).entry = false ∧ Entry.fieldsOk (cmd 4 (1 <<< 400) .merge).entry = false ∧
    Entry.fieldsOk (cmd 5 (1 <<< 400) .merge).entry = false ∧ Entry.fieldsOk (cmd 6 (1 <<< 400) .merge).entry = false ∧
    Entry.fieldsOk (cmd 7 0 .merge).entry = false ∧ Entry.fieldsOk (cmd 8 (1 <<< 400) .merge).entry = false ∧
    Entry.fieldsOk (cmd 9 (1 <<< 400) .merge).entry = false ∧ Entry.fieldsOk (cmd 0xA (1 <<< 400) .merge).entry = false ∧
    Entry.fieldsOk (cmd 0xB (1 <<< 400) .merge).entry = false ∧ Entry.fieldsOk (cmd 0xC 0 .merge).entry = false ∧
    Entry.fieldsOk (cmd 0xD 0 .merge).entry = false ∧ Entry.fieldsOk (cmd 0xE (1 <<< 400) .merge).entry = false ∧
    Entry.fieldsOk (cmd 0xF 0 .merge).entry = false ∧ Entry.fieldsOk (cmd 0x10 (1 <<< 400) .merge).entry = false ∧
    (cmd 0 0 .merge).opcode = 0 ∧ 0x10 < (cmd 0x11 0 .merge).opcode.toNat := by decide +kernel

theorem test_append_needs_a_token : ((after (.append 5 none) (sCmd 2 (place 512 32 32 9) .merge)).req 5).map (·.status) = some 4 := by decide +kernel

theorem test_reserved_opcode : ((after (.invalidOpcode 5) (sCmd 0x11 0 .merge)).req 5).map (·.status) = some 3 := by decide +kernel

theorem witness_CommandsStage : Entry.fieldsOk (cmd 1 (place 512 64 37 1) .merge).entry = true ∧ Entry.fieldsOk (cmd 2 oneTok .merge).entry = true ∧
    Entry.fieldsOk (cmd 3 (oneTok ||| place 512 192 32 0x3F80_0000) .merge).entry = true ∧ Entry.fieldsOk (cmd 4 0 .merge).entry = true ∧
    Entry.fieldsOk (cmd 5 0 .merge).entry = true ∧ Entry.fieldsOk (cmd 6 0 .merge).entry = true ∧ Entry.fieldsOk (cmd 8 0 .merge).entry = true ∧
    (cmd 8 0 .merge).e.kind = false ∧ Entry.fieldsOk (cmd 8 (1 <<< 72) .merge).entry = true ∧ (cmd 8 (1 <<< 72) .merge).e.kind = true ∧
    Entry.fieldsOk (cmd 9 0 .merge).entry = true ∧ Entry.fieldsOk (cmd 0x10 0 .merge).entry = true := by decide +kernel

theorem test_open_seq_limits : Entry.fieldsOk (cmd 1 (place 512 64 37 (2 ^ 36)) .merge).entry = true ∧
    Entry.fieldsOk (cmd 1 (place 512 64 37 (2 ^ 36 + 1)) .merge).entry = false := by decide +kernel

/-- One token, and two tokens, of APPEND data. -/
def tok7 : List Byte := [7, 0, 0, 0]

theorem witness_TokensRead : (sCmd 2 oneTok .admitted).req 5 = some (cmd 2 oneTok .admitted) ∧ (cmd 2 oneTok .admitted).dataRead = false ∧
    ((sCmd 2 oneTok .admitted).seq 9).isSome = true ∧ tok7.length = 4 * (cmd 2 oneTok .admitted).e.w4 ∧
    (sCmd 2 oneTok .admitted).tokensOk tok7 = true ∧ (sCmd 2 oneTok .admitted).tokensOk [100, 0, 0, 0] = false ∧ 3 + 1 ≤ 4 ∧
    4 < 3 + (cmd 2 (place 512 32 32 9 ||| place 512 128 32 2) .admitted).e.w4 ∧
    (cmd 3 (oneTok ||| place 512 244 4 1) .admitted).e.drafts = 1 := by decide +kernel

theorem test_append_reads : ((after (.append 5 (some tok7)) (sCmd 2 oneTok .admitted)).seq 9).map (·.logStaged) = some [7] ∧
    ((after (.append 5 (some [100, 0, 0, 0])) (sCmd 2 oneTok .admitted)).req 5).map (·.status) = some 6 ∧
    ((after (.append 5 (some (tok7 ++ tok7))) (sCmd 2 (place 512 32 32 9 ||| place 512 128 32 2) .admitted)).req 5).map (·.status) = some 8 ∧
    ((after (.append 5 none) (sCmd 2 oneTok .admitted)).req 5).map (·.status) = some 0x12 := by decide +kernel

/-- One weight block. -/
def oneBlk : BitVec 512 := place 512 128 32 0 ||| place 512 160 32 1

theorem witness_WeightsLoad : (sCmd 7 oneBlk .held).req 5 = some (cmd 7 oneBlk .held) ∧ Entry.fieldsOk (cmd 7 oneBlk .held).entry = true ∧
    (cmd 7 oneBlk .held).takeable = true ∧ (sCmd 7 oneBlk .held).sys.flashRo = false ∧ (sCmd 7 oneBlk .held).hasWork = false ∧
    ({ sCmd 7 oneBlk .held with sys := { state := .run, flashRo := true } } : State).sys.flashRo = true ∧
    ({ sCmd 7 oneBlk .held with reqs := [cmd 7 oneBlk .held, cmd 2 oneTok .admitted] } : State).hasWork = true ∧
    (cmd 7 oneBlk .held).e.w5 = 1 ∧ (cmd 7 oneBlk .held).e.w4 = 0 ∧ Mem.wf (sCmd 7 oneBlk .held).wt.data = true := by decide +kernel

/-- A header that names two blocks, before a block after the first one is loaded. -/
theorem witness_WeightsLoad_second_block : let h : List Byte := leBytes 128 (2 <<< 944 ||| 1 <<< 976)
    h ≠ [] ∧ 1 + 1 ≤ whTotal h ∧ whTotal h < 1 + 2 ∧ (cmd 7 (place 512 128 32 1 ||| place 512 160 32 1) .merge).e.w4 ≠ 0 := by decide +kernel

/-- An index record: INDEX_ID 3, one subspace, degree 8, L_DEFAULT 16, SIDE_MAX 1, MERGE_AT 1. -/
def ixRec : BitVec 128 :=
  place 128 112 16 3 ||| place 128 106 6 1 ||| place 128 99 7 8 ||| place 128 88 11 16 ||| place 128 24 24 1 ||| place 128 0 24 1

/-- A member that homes one index, with one command on it. -/
def sIndex (op : Byte) (e : BitVec 512) (st : Stage) (x : VIndex) : State := { sCmd op (e ||| place 512 32 16 3) st with vidx := [x] }

/-- A command on index 3. -/
def onIx (op : Byte) (e : BitVec 512) (st : Stage) : Req := cmd op (e ||| place 512 32 16 3) st

theorem witness_IndexEdits : (sIndex 0xA 0 .merge { record := ixRec }).req 5 = some (onIx 0xA 0 .merge) ∧ (onIx 0xA 0 .merge).takeable = true ∧
    Entry.fieldsOk (onIx 0xA 0 .merge).entry = true ∧ Entry.fieldsOk (onIx 0xB 0 .merge).entry = true ∧
    Entry.fieldsOk (onIx 0xA (1 <<< 8) .held).entry = true ∧ (onIx 0xA 0 .merge).e.codebook = false ∧ (onIx 0xA (1 <<< 8) .held).e.codebook = true ∧
    (sIndex 0xA 0 .merge { record := ixRec }).homeOf 3 = some 0 ∧ (sCmd 0xA 0 .merge).homeOf 3 = none ∧
    ((sIndex 0xA 0 .merge { record := ixRec }).index 3).isSome = true ∧
    (sIndex 0xA 0 .merge { record := ixRec }).editWaits 5 3 { record := ixRec } = false ∧
    (sIndex 0xA 0 .merge { record := ixRec }).heldBefore 5 (fun _ => true) = false ∧
    (sIndex 0xA 0 .merge { record := ixRec }).editWaits 5 3 { record := ixRec, side := [⟨0, 1, 1, true, [], 0⟩] } = true ∧ [0, 0, 0, (0 : Byte)].length = 4 * ixM ixRec ∧ (List.replicate 1024 (0 : Byte)).length = 1024 * ixM ixRec ∧
    ({ record := ixRec, merge := some 1 } : VIndex).merge.isSome = true := by decide +kernel

theorem test_insert_stages : ((after (.vecInsert 5 (some [0, 0, 0, 0])) (sIndex 0xA 0 .merge { record := ixRec })).req 5).map (·.stage) = some .staged ∧
    ((after (.vecInsert 5 (some [0, 0, 0, 0])) (sIndex 0xA 0 .merge { record := ixRec, side := [⟨0, 1, 1, true, [], 0⟩] })).req 5).map (·.stage) = some .held ∧
    ((after (.vecDelete 5) (sCmd 0xB 0 .merge)).req 5).map (·.status) = some 0xD := by decide +kernel

theorem witness_CountersAndReports : Entry.fieldsOk (cmd 0xD (place 512 128 32 (ctrAddr 8 4 0) ||| place 512 160 32 1) .merge).entry = true ∧
    sCrew.hasCounter (ctrAddr 8 4 0) = true ∧ sCrew.hasCounter (ctrAddr 8 4 256) = false ∧ sCrew.ctr.latched = none ∧
    Entry.fieldsOk (cmd 0xE 0 .merge).entry = true ∧ (List.replicate 64 (0 : Byte)).length = 64 ∧ sCrew.sec.haveKey = false ∧
    (cmd 0xE 0 .merge).e.reportMax < sCrew.reportBytes ∧ sCrew.reportBytes ≤ (cmd 0xE (place 512 192 16 65535) .merge).e.reportMax ∧
    ({ sCrew with sec := { haveKey := true, signed := 16 } } : State).sec.signed = 16 ∧
    ({ sCrew with sec := { haveKey := true, signed := 15 } } : State).sec.signed < 16 := by decide +kernel

theorem test_counter_range : ((after (.readCounters 5) (sCmd 0xD (place 512 128 32 (ctrAddr 8 4 255) ||| place 512 160 32 2) .merge)).req 5).map (·.status) = some 4 ∧
    ((after (.readCounters 5) (sCmd 0xD (place 512 128 32 (ctrAddr 8 4 255) ||| place 512 160 32 1) .merge)).req 5).map (fun r => (r.stage, r.data.length)) =
      some (.staged, 8) := by decide +kernel

theorem test_attest_without_identity : ((after (.attest 5 (some (List.replicate 64 0))) (sCmd 0xE 0 .merge)).req 5).map (·.status) = some 0x11 := by decide +kernel

/-- WRITE_IMAGE of the last unit of the NOR. -/
def lastUnit : BitVec 512 := place 512 128 28 (2 ^ 28 - 4096) ||| place 512 160 29 4096

theorem witness_ImageWrites : Entry.fieldsOk (cmd 0xF lastUnit .merge).entry = true ∧ (cmd 0xF lastUnit .held).takeable = true ∧
    (List.replicate 4096 (0 : Byte)).length = (cmd 0xF lastUnit .merge).e.length ∧ (sCmd 0xF lastUnit .merge).norBusy = [] ∧
    ({ sCmd 0xF lastUnit .waiting with norBusy := [⟨5, 0, 1⟩] } : State).norBusy ≠ [] ∧
    ({ cmd 0xF lastUnit .waiting with data := [0x12] } : Req).data.length = 1 := by decide +kernel

theorem test_write_image_ends : (after (.norProgramComplete false) { sCmd 0xF lastUnit .waiting with
      norBusy := [⟨5, 7, 1⟩], reqs := [{ cmd 0xF lastUnit .waiting with data := [0x12] }] }).nor = [(7, 0x12)] ∧
    ((after (.norProgramComplete true) { sCmd 0xF lastUnit .waiting with norBusy := [⟨5, 7, 1⟩] }).req 5).map (·.status) = some 0x13 := by decide +kernel

/-! ### The tick -/

/-- A tick-message header of attempt 0 of tick 1, of one flit. -/
def tickHdr (kind : Nat) : BitVec 128 := place 128 124 4 kind ||| place 128 109 15 1 ||| place 128 92 1 1 ||| place 128 21 64 1

/-- A COMMIT edge to tick 2, and a REPLAY edge of tick 1, at time 500 under master 0. -/
def commitBody : BitVec 256 := place 256 192 64 2 ||| place 256 128 64 500 ||| place 256 96 32 1 ||| place 256 40 24 100
def replayBody : BitVec 256 := place 256 192 64 1 ||| place 256 128 64 500 ||| place 256 96 32 1 ||| place 256 40 24 100 ||| place 256 24 4 1 ||| place 256 16 7 1

theorem witness_EdgeArrives : sLeaf.inCrew = true ∧ sLeaf.crew.master ≠ sLeaf.crew.coord ∧ sLeaf.edgeOk (tickHdr 0) commitBody = true ∧
    sLeaf.edgeOk (tickHdr 0) replayBody = true ∧ (edgeOf commitBody).decision = 0 ∧ (edgeOf replayBody).decision = 1 ∧
    sLeaf.edgeOk (tickHdr 1) commitBody = false ∧ (edgeOf (replayBody ^^^ place 256 24 4 3)).decision = 2 ∧
    (gets 0 0 (tickHdr 0) (leBytes 32 commitBody.toNat) sLeaf).received 0 (tickHdr 0) (fun b => bodyWord 32 b == commitBody.toNat) =
      some ⟨0, 0, tickHdr 0, leBytes 32 commitBody.toNat, []⟩ ∧
    sLeaf.received 0 (tickHdr 0) (fun b => bodyWord 32 b == commitBody.toNat) = none := by decide +kernel

theorem test_edge_pends : (after (.edge (tickHdr 0) commitBody) (gets 0 0 (tickHdr 0) (leBytes 32 commitBody.toNat) sLeaf)).tick.pending.map (fun e => (e.tickNum, e.edgeTime, e.period)) = some (2, 500, 100) ∧
    (after (.edge (tickHdr 1) commitBody) (gets 0 0 (tickHdr 1) (leBytes 32 commitBody.toNat) sLeaf)).yard.sent = [.repeatReq 0 0] ∧
    (after (.edge (tickHdr 0) commitBody) sLeaf).tick.pending = none := by decide +kernel

/-- Another member's CLOSE. -/
def closeRec : CmdRec := ⟨place 512 0 8 6, 0, 3, 0⟩

/-- The leaf once a CMDSET with that record has arrived. -/
def sSet : State := gets 3 0 (tickHdr 3) (recordBytes closeRec) sLeaf

theorem witness_CommandSets : sLeaf.ticking = true ∧ sLeaf.crew.master ≠ sLeaf.crew.coord ∧ sLeaf.tick.cmdset = none ∧ tickHeaderOk (tickHdr 3) 3 = true ∧
    sLeaf.thisAttempt (tickHdr 3) = true ∧ recordsOrdered [closeRec, { closeRec with arrival := 1 }] = true ∧
    ¬(tickHeaderOk (tickHdr 3) 3 = true ∧ sLeaf.thisAttempt (tickHdr 3) = true ∧ recordsOrdered [closeRec, closeRec] = true) ∧
    ({ sLeaf with tick := { sLeaf.tick with cmdset := some [] } } : State).tick.cmdset ≠ none ∧
    sSet.received 3 (tickHdr 3) (fun b => recordsIn b == [closeRec]) = some ⟨0, 3, tickHdr 3, recordBytes closeRec, []⟩ ∧ sLeaf.partsOk ⟨0, 3, tickHdr 3, recordBytes closeRec, []⟩ 3 = true ∧ sLeaf.partsOk ⟨0, 3, tickHdr 1, recordBytes closeRec, []⟩ 3 = false ∧
    recordBytes closeRec = [closeRec].flatMap recordBytes ∧ sLeaf.received 3 (tickHdr 3) (fun b => recordsIn b == [closeRec]) = none := by decide +kernel

theorem test_cmdset_takes_records : ((after (.cmdset (tickHdr 3) [closeRec]) sSet).reqs.map fun r => (r.opcode, r.coord, r.owed)) = [(6, 0, false)] := by decide +kernel

/-- A passing report of the child 1 for attempt 0 of tick 1. -/
def childReport : Report :=
  let r : Report := ⟨0, [], [], [], [], List.replicate 256 (0, 0)⟩
  { r with header := reportHead 1 0 1 1 r }

/-- The master once that report has arrived, its own report made. -/
def sChild : State := gets 1 1 (tickHdr 1) (reportBytes childReport) sRoot

/-- The first flit of that report, whose others have not come. -/
def repFlit : Flit := ⟨place 128 124 4 5 ||| place 128 93 12 1, leBytes 16 (tickHdr 1).toNat⟩

/-- The master's own report. -/
def ownReport : Report :=
  let r : Report := ⟨0, [], [closeRec], [], [], List.replicate 256 (0, 0)⟩
  { r with header := reportHead 1 0 1 0 r }

theorem witness_ReportsArrive : sRoot.ticking = true ∧ sRoot.partsOk ⟨1, 1, tickHdr 1, reportBytes childReport, []⟩ 1 = true ∧ ({ sChild with yard := { sChild.yard with rx := [repFlit], inbox := [] } } : State).partHere 1 (tickHdr 1) = true ∧ sRoot.tick.phase ≠ .none ∧ 1 ∈ sRoot.treeChildren ∧ tickHeaderOk (tickHdr 1) 1 = true ∧
    sRoot.thisAttempt (tickHdr 1) = true ∧ sRoot.reportOk 1 childReport (reportBytes childReport) = true ∧ sRoot.reportOk 1 ownReport (reportBytes ownReport) = false ∧
    ((sChild.received 1 (tickHdr 1) fun b => b.length == reportLen childReport && reportIn b == childReport).filter fun m => m.src == 1).isSome = true ∧
    ¬(tickHeaderOk (tickHdr 0) 1 = true ∧ sRoot.thisAttempt (tickHdr 0) = true) ∧ sRoot.tick.ownReport = none ∧
    ({ sRoot with tick := { sRoot.tick with ownReport := some ownReport } } : State).tick.sentReport = none ∧
    (sRoot.treeChildren.filterMap fun c => ((sRoot.tick.takeChild 1 childReport).children.find? fun e => e.1 == c).map Prod.snd).length =
      sRoot.treeChildren.length := by decide +kernel

theorem test_master_holds_all : (after (.report 1 (tickHdr 1) childReport (reportLen childReport) true)
      { sChild with tick := { sRoot.tick with ownReport := some ownReport } }).tick.reportsIn = true ∧
    ((after (.report 1 (tickHdr 1) childReport (reportLen childReport) true)
      { sChild with tick := { sRoot.tick with ownReport := some ownReport } }).tick.sentReport.map rpCovered) = some 2 := by decide +kernel

theorem witness_Repeats : sRoot.inCrew = true ∧ sRoot.partsOk ⟨1, 2, tickHdr 2, leBytes 16 (2 ^ 125), []⟩ 2 = true ∧ tickHeaderOk (tickHdr 2) 2 = true ∧ sRoot.thisAttempt (tickHdr 2) = true ∧
    (tickHeaderOk (tickHdr 2) 2 && sRoot.thisAttempt (tickHdr 2) && decide ((3 <<< 124 : BitVec 128).toNat % 2 ^ 124 = 0 ∧ (3 <<< 124 : BitVec 128).toNat / 2 ^ 124 ≤ 2)) = false ∧
    sLeaf.parentOf sLeaf.crew.coord = some 0 ∧ sRoot.crew.master = sRoot.crew.coord ∧
    1 ∈ ({ sRoot with tick := { sRoot.tick with partials := [1] } } : State).tick.partials ∧
    (((gets 2 1 (tickHdr 2) (leBytes 16 (2 ^ 125)) sRoot).received 2 (tickHdr 2) fun b => bodyWord 16 b == 2 ^ 125).filter fun m => m.src == 1).isSome = true := by decide +kernel

theorem test_repeat_report : (after (.repeatMsg 0 (tickHdr 2) (1 <<< 124)) { gets 2 0 (tickHdr 2) (leBytes 16 (2 ^ 124)) sLeaf with tick := { sLeaf.tick with sentReport := some childReport } }).yard.sent =
    [.report childReport] := by decide +kernel

/-- A member with a full tail of 512 positions in Landing slot 0, flushing to frame 5. -/
def sTail : State := { sCrew with
  img := { model := place 1024 928 16 128 ||| place 1024 464 8 0x30 }
  land := { slots := [(0, { flushFrame := 5, fill := 512, state := .tail })], data := [(0, 0x77), (16383, 0x66)] } }

theorem witness_EntersCheckAndCommit : sTail.working = true ∧ sTail.land.slots.all (fun e => !e.2.corrupt) = true ∧ sTail.workDone = true ∧ 0 ∈ sTail.fullSlots ∧ sTail.fullSlots = [0] ∧
    Mem.wf sTail.hbm.data = true ∧ ({ sTail with hbm := { copies := [(1, 2)] } } : State).workDone = false := by decide +kernel

theorem witness_ReportIsMade : sCheck.ticking = true ∧ sCheck.tick.phase = .checkAndCommit ∧
    ({ sLeaf with tick := { sLeaf.tick with phase := .checkAndCommit, planDone := true } } : State).tick.ownReport = none ∧
    ({ sLeaf with tick := { sLeaf.tick with phase := .checkAndCommit, planDone := true } } : State).treeChildren = [] ∧ sLeaf.crew.lostNow = [] ∧
    sLeaf.crew.master ≠ sLeaf.crew.coord := by decide +kernel

theorem test_leaf_reports : ((after (.checkReportSend 100 0 0 0) { sLeaf with tick := { sLeaf.tick with phase := .checkAndCommit, planDone := true } }).yard.sent.map
    fun m => match m with | .report r => rpOrigin r | _ => 0) = [1] := by decide +kernel

/-- The master with every report in, and margin 20. -/
def sDecide (fails : List (BitVec 128)) : State :=
  let r : Report := { ownReport with fails := fails }
  { sRoot with tick := { sRoot.tick with phase := .checkAndCommit, margin := 20, reportsIn := true, sentReport := some { r with header := reportHead 1 0 2 0 r } } }

theorem witness_MasterDecides : (sDecide []).inCrew = true ∧ (sDecide []).tick.decided = none ∧ (sDecide []).tick.pending = none ∧
    (sDecide []).crew.master = (sDecide []).crew.coord ∧ (sDecide []).tick.reportsIn = true ∧ (sDecide []).crew.lostNow = [] ∧ (sDecide []).unstarted = false ∧
    ((sDecide []).tick.sentReport.map rpFail) = some false ∧ ((sDecide [failRecord 1 6 1 0 0x1FF]).tick.sentReport.map rpFail) = some true ∧
    ({ sRoot with crew := { sRoot.crew with lostNow := [1] } } : State).formDue = true ∧
    ({ sRoot with tick := { sRoot.tick with period := 0 } } : State).formDue = true := by decide +kernel

theorem test_master_commits_or_replays : ((after (.masterDecision 50) (sDecide [])).tick.decided.map fun e => (e.decision, e.tickNum, e.edgeTime)) = some (0, 2, 110) ∧
    ((after (.masterDecision 100) (sDecide [failRecord 1 6 1 0 0x1FF])).tick.decided.map fun e => (e.decision, e.tickNum, e.attempt, e.edgeTime)) =
      some (1, 1, 1, 120) := by decide +kernel

theorem witness_EdgeIsIssued : (after (.masterDecision 50) (sDecide [])).inCrew = true ∧ (after (.masterDecision 50) (sDecide [])).tick.decided.isSome = true ∧
    (after (.masterDecision 50) (sDecide [])).tick.decidedAt ≤ (50 : W64).toNat := by decide +kernel

/-- The member of a crew of one in CHECK-AND-COMMIT with the edge `b` pending. -/
def sEdge (b : BitVec 256) : State := { sCheck with tick := { sCheck.tick with pending := some (edgeOf b), cmdset := some [] } }

/-- Nothing comes with the edge. -/
def noInput : EdgeInput := ⟨none, [], [], [], [], none, [], false, []⟩

theorem witness_CommitEdge : (sEdge commitBody).ticking = true ∧ (sEdge commitBody).recordsWait = false ∧ ({ sEdge commitBody with reqs := [{ cmd 6 0 .merge with coord := 9 }] } : State).recordsWait = true ∧ (edgeOf commitBody).decision = 0 ∧ (499 : W64).toNat < (edgeOf commitBody).edgeTime ∧
    (edgeOf commitBody).edgeTime ≤ (500 : W64).toNat ∧ (sEdge commitBody).tick.phase = .checkAndCommit ∧ (sEdge commitBody).tick.cmdset ≠ none ∧
    sCheck.tick.cmdset = none ∧ sCrew.tick.phase ≠ .checkAndCommit := by decide +kernel

theorem test_commit_edge : (after (.tickEdgeApply 500 [] noInput) (sEdge commitBody)).tick.num = 2 ∧
    (after (.tickEdgeApply 500 [] noInput) (sEdge commitBody)).tick.last = 1 ∧ (after (.tickEdgeApply 499 [] noInput) (sEdge commitBody)).tick.num = 1 := by decide +kernel

theorem witness_ReplayAndFormEdges : (sEdge replayBody).ticking = true ∧ (edgeOf replayBody).decision = 1 ∧ (edgeOf replayBody).edgeTime ≤ (500 : W64).toNat ∧
    (sEdge replayBody).replayLimit true = false ∧ 127 ≤ ({ sEdge replayBody with tick := { (sEdge replayBody).tick with attempt := 127 } } : State).tick.attempt ∧
    (sEdge replayBody).unstarted = false ∧ (edgeOf (replayBody ||| place 256 24 4 3)).decision = 3 ∧
    (edgeOf ((replayBody ^^^ place 256 24 4 3))).decision = 2 ∧ (sEdge replayBody).replayLimit ((sEdge replayBody).failKnown noInput) = false ∧ (sEdge replayBody).failKnown { noInput with failed := true } = true ∧
    ({ sCheck with sys := { state := .join }, tick := { sCheck.tick with period := 0 } } : State).unstarted = true := by decide +kernel

theorem test_replay_edge : (after (.tickEdgeApply 500 [] noInput) (sEdge replayBody)).tick.attempt = 1 ∧
    (after (.tickEdgeApply 500 [] noInput) (sEdge replayBody)).tick.num = 1 ∧
    (after (.tickEdgeApply 500 [] noInput) { sEdge replayBody with tick := { (sEdge replayBody).tick with attempt := 127 } }).sys.faultClass = 0xA := by decide +kernel

/-! ### Plans, deltas, throttling, JTAG -/

/-- A plan that does nothing. -/
def noPlan : PlanInput := ⟨[], [], [], [], [], [], [], [], [], [], [], [], [], [], [], []⟩

/-- A member whose layout stands up to tick 2. -/
def sPlan : State := { sCrew with fore := { layoutTo := 2 } }

theorem witness_PlansComplete : sPlan.ticking = true ∧ sPlan.fore.replan = false ∧ sPlan.tick.phase ≠ .none ∧ sPlan.tick.planDone = false ∧
    sPlan.ctr.latched = none ∧ sPlan.planOk 2 noPlan [] = true ∧ sPlan.planOk 3 noPlan [] = false ∧ sCrew.planOk 2 noPlan [] = false ∧ sPlan.admitsFor 2 = [] ∧
    ({ sPlan with reqs := [cmd 2 oneTok .waiting], wt := { poisoned := [0] } } : State).refusals noPlan = [(5, 0xA)] := by decide +kernel

theorem test_plan_is_held : (after (.plan noPlan) sPlan).tick.planDone = true ∧ (after (.plan noPlan) sPlan).fore.planTick = 2 ∧
    (after (.plan noPlan) sCrew).tick.planDone = false := by decide +kernel

theorem witness_LayoutDeltas : sCrew.ticking = true ∧ sCrew.crew.master = sCrew.crew.coord ∧ sCrew.tick.phase ≠ .none ∧ sCrew.deltaDone = false ∧
    sCrew.tick.reported = false ∧ sCrew.entryOk [.lotUsage 0 0 0] (.lotUsage 0 0 0) = true ∧ sCrew.migrationOk [.lotUsage 0 0 0] = true ∧ sLeaf.crew.master ≠ sLeaf.crew.coord ∧ sLeaf.lastVersion = 0 ∧
    (1 : W64).toNat = sLeaf.lastVersion + 1 ∧ (2 : W64).toNat ≠ sLeaf.lastVersion + 1 ∧ ([.reserved 9] : List DeltaEntry).any reservedKind = true := by decide +kernel

theorem test_delta_out_of_turn : (after (.deltaReceive 2 3 []) sLeaf).tick.fails.length = 1 ∧ (after (.deltaReceive 1 3 []) sLeaf).fore.deltas.length = 1 := by
  decide +kernel

/-- Readings of eight dies: junctions at `j`, HBM at `h`, input power `w`. -/
def temps (j h : Int) (w : Nat) : SensorReadings := ⟨List.replicate 8 ⟨[j], [h]⟩, 0, 0, 0, w⟩

theorem witness_ThrottleSteps : sOn.diesPowered = true ∧ Sparse.wf ({} : Die) sOn.dies = true ∧ State.reset.diesPowered = false ∧
    sOn.throttleCondition (temps 1000 0 0) 7 = true ∧ sOn.throttleCondition (temps 999 949 0) 7 = false ∧ sOn.releaseCondition (temps 969 919 0) 0 = true ∧
    sOn.releaseCondition (temps 970 0 0) 0 = false := by decide +kernel

theorem test_throttle_limits : ((after (.throttleEvaluation (temps 1000 0 0)) sOn).die 7).step = 1 ∧
    ((after (.throttleEvaluation (temps 0 950 0)) { sOn with dies := [(0, { step := 12 })] }).die 0).step = 12 ∧
    ((after (.throttleRaise (temps 0 0 0)) { sOn with dies := [(0, { step := 12 })] }).die 0).step = 11 := by decide +kernel

theorem witness_ThermalShutdowns : sOn.diesPowered = true ∧ sOn.sys.state ≠ .off ∧ sOn.shutdownParts (temps 1150 0 0) ≠ [] ∧
    sOn.shutdownParts (temps 1149 1049 0) = [] := by decide +kernel

theorem test_shutdown_of_hub : (after (.thermalShutdown ⟨[], 1150, 0, 0, 0⟩) sOn).sys.state = .fault ∧
    (after (.thermalShutdown ⟨[], 1150, 0, 0, 0⟩) sOn).sys.faultClass = 9 ∧ (after (.thermalShutdown ⟨[], 1149, 949, 0, 0⟩) sOn).sys.state = .run := by decide +kernel

theorem witness_NandThrottles : sOn.diesPowered = true ∧ (850 : Int) ≤ 850 ∧ (849 : Int) < 850 ∧ (799 : Int) < 800 ∧ (800 : Int) ≤ 800 := by decide +kernel

theorem test_nand_throttle : (after (.nandThrottle 850) sOn).flash.halfRate = true ∧ (after (.nandThrottle 849) sOn).flash.halfRate = false ∧
    (after (.nandThrottleRelease 800) (after (.nandThrottle 850) sOn)).flash.halfRate = true := by decide +kernel

theorem witness_JtagInstructions : sOn.pwr.main = .on ∧ 6 < (7 : Byte).toNat ∧ 6 < (0xFF : Byte).toNat ∧ sOn.sys.state ≠ .fault ∧
    ¬(sOn.sys.state = .rom ∧ sOn.smb.romHold = true) ∧ (inState .fault).sys.state = .fault := by decide

theorem test_jtag_opcodes : (after (.bypass 1 7) sOn).jtag.comp = .bypass ∧ (after (.bypass 0 3) sOn).jtag.hub = .highz ∧
    (after .testLogicReset (after (.extest 0) sOn)).jtag.hub = .idcode := by decide +kernel

/-! ### Crew and collectives -/

/-- A module in JOIN that claims coordinate 0 of a cube of one. -/
def sJoin : State := { sOn with sys := { state := .join }, crew := { claim := some 0 } }

theorem witness_CrewForms : (0, sJoin.ident.moduleId, 3) ∈ [(0, (1 : W64), 3)] ∧ sJoin.formationOk [⟨0, 1, 3⟩] 0 = true ∧
    (∀ m, m ∈ [(0, (2 : W64), 3)] → m.2.1 ≠ sJoin.ident.moduleId) := by decide +kernel

theorem test_crew_forms : (after (.crewFormation [(0, 1, 3)] none [] 50) sJoin).crew.epoch = 1 ∧ (after (.crewFormation [(0, 1, 3)] none [] 50) sJoin).tick.margin = 150 ∧
    (after (.crewFormation [(0, 1, 3)] none [] 50) sJoin).sys.state = .join := by decide +kernel

/-- The header of a chunk of collective 9 from sender 4, program `prog`, that carries one FP32 word `w`, with its RSUM. -/
def chunkHdr (prog w : Nat) : BitVec 256 :=
  let h : BitVec 256 := place 256 240 16 9 ||| place 256 236 4 prog ||| place 256 172 17 1
  h ||| place 256 0 32 (rsum h (leBytes 4 w))

/-- Collective 9 sums the contributions of members 0 and 4 here. -/
def sumPlan : CollPlan :=
  { collId := 9, program := 1, cls := 0, contributors := [0, 4], dests := [0], die := 0, core := 0, req := none, ring := 0, dim := 0, streams := [],
    vc := 1, sites := [⟨0, 1, 0, 0⟩], onward := [4], own := [⟨0, [], 0x100, 4⟩] }

/-- The same collective, whose combine is member 4's. -/
def sendPlan : CollPlan := { sumPlan with sites := [⟨0, 1, 0, 4⟩] }

/-- A member with collective 9 planned, and slot 2 granted to the sender 4 where `g` says so. -/
def sColl (g : Bool) (cs : List Chunk) : State := { sCrew with
  dies := [(0, { stage := [(0x102, 0x80), (0x103, 0x3F)] })]
  coll := { plan := [sumPlan], grants := if g then [⟨9, 4, 0, [2]⟩] else [], chunks := cs } }

/-- A staged chunk of `n` bytes on stack 0. -/
def bigChunk (n : Nat) : Chunk := ⟨9, 4, 0, 0, 0, List.replicate n 0, none, 0, true⟩

theorem staged_bigChunk (n : Nat) : (sColl false [bigChunk n]).stagedBytes 0 = 32 + n := by
  simp [State.stagedBytes, sColl, bigChunk]

theorem witness_ChunksLand : (sColl true []).working = true ∧ (sColl true []).hasStack 0 = true ∧ sCrew.hasStack 32 = false ∧
    (sColl true []).chunkFormOk (chunkHdr 0 7) (leBytes 4 7) = false ∧ (sColl true []).chunkFormOk (chunkHdr 1 7) (leBytes 4 7) = true ∧
    rsum (chunkHdr 1 7) (leBytes 4 7) = chRsum (chunkHdr 1 7) ∧ rsum (chunkHdr 1 7) (leBytes 4 8) ≠ chRsum (chunkHdr 1 7) ∧
    (sColl true []).coll.plan.find? (fun c => c.collId == chColl (chunkHdr 1 7)) = some sumPlan ∧
    (sColl true []).slotFor sumPlan 4 0 = some 2 ∧ (sColl false []).slotFor sumPlan 4 0 = none ∧ chStep (chunkHdr 1 7) = 0 ∧ chProgram (chunkHdr 5 7) = 5 ∧
    (sColl false []).chunkFormOk (chunkHdr 5 7) (leBytes 4 7) = true ∧ (sColl false []).stagedBytes 0 + 32 + (leBytes 4 7).length ≤ 2 ^ 24 := by
  decide +kernel

theorem witness_ChunksLand_full : (sColl false [bigChunk (2 ^ 24)]).slotFor sumPlan 4 0 = none ∧
    2 ^ 24 < (sColl false [bigChunk (2 ^ 24)]).stagedBytes 0 + 32 + (leBytes 4 7).length := by
  rw [staged_bigChunk]
  exact ⟨rfl, by decide⟩

theorem test_chunk_takes_slot : (after (.chunkReceive 4 (chunkHdr 1 7) (leBytes 4 7) 0) (sColl true [])).coll.busy = [2] ∧
    (after (.chunkReceive 4 (chunkHdr 1 7) (leBytes 4 7) 0) (sColl false [])).coll.busy = [] ∧
    (after (.chunkReceive 4 (chunkHdr 1 7) (leBytes 4 8) 0) (sColl true [])).tick.fails.length = 1 := by decide +kernel

/-- The chunk that member 4 contributes: one FP32 word, 2.0. -/
def partner : Chunk := ⟨9, 4, 1, 1, 0, leBytes 4 0x4000_0000, none, 0, true⟩

theorem witness_Combines : (sColl true []).working = true ∧ ((sColl true []).coll.plan.find? fun c => c.collId == 9) = some sumPlan ∧
    (sColl true [partner]).combineOk sumPlan 0 1 0 [0x3F80_0000] [0x4000_0000] = true ∧ (sColl true []).combineOk sumPlan 0 1 0 [0x3F80_0000] [0x4000_0000] = false ∧
    ([0x3F80_0000] : List W32).length = ([0x4000_0000] : List W32).length := by decide +kernel

theorem test_combine_adds : (after (.combine 9 0 1 0 [0x3F80_0000] [0x4000_0000] true) (sColl true [partner])).coll.sums = [(sumKey 9 0 0, [0x4040_0000])] ∧
    (after (.combine 9 0 1 0 [0x3F80_0000] [0x4000_0000] true) (sColl true [partner])).coll.chunks = [] ∧
    ((after (.combine 9 0 1 0 [0x3F80_0000] [0x4000_0000] true) (sColl true [partner])).yard.sent.map fun m =>
      match m with
      | .chunk d v h p => (d, v, chPhase h, p)
      | _ => (0, 0, 0, [])) = [(4, 1, 1, leBytes 4 0x4040_0000)] := by decide +kernel

/-- A member whose contribution to collective 9, the word 1.0, is due for member 4. -/
def sSend : State := { sColl false [] with coll := { plan := [sendPlan] } }

theorem witness_OwnSent : sSend.pending = [] ∧ sSend.working = true ∧ sSend.ownDue = some (sendPlan, ⟨0, [], 0x100, 4⟩) := by decide +kernel

/-- The state after one step. -/
def stepped (s : State) : State :=
  match step s with
  | .next t => t
  | _ => s

theorem test_contribution_goes_out : ((stepped sSend).yard.sent.map fun m =>
      match m with
      | .chunk d v h p => (d, v, chPhase h, chStep h, p)
      | _ => (0, 0, 0, 0, [])) = [(4, 1, 0, 1, leBytes 4 0x3F80_0000)] ∧ (stepped sSend).ownDue = none := by decide +kernel

/-! ### Matrix work -/

/-- A member whose core 0 runs context 0, as given, and whose core 1 runs its own context 0. -/
def sCtx (c d : Ctx) : State := { sCrew with cores := [(0, { running := some 0, ctxs := [(0, c)] }), (1, { running := some 0, ctxs := [(0, d)] })] }

/-- A matrix descriptor of one tile of `m` × 16 × 32 with the given kind, chain length and halo; formats FP32. -/
def dsc (kind chain m h : Nat) : List W64 :=
  [place 64 60 4 kind ||| place 64 30 4 chain, place 64 56 8 m ||| place 64 48 8 2 ||| place 64 38 10 1, 0, 0, place 64 59 5 h]

/-- One problem. -/
def oneProb : Sparse W64 := [(6, 0x3F80_0000_3F80_0000), (7, 0x3F80_0000), (8, 1)]

theorem witness_TasksIssue : sCrew.hasCore 0 0 = true ∧ (sCtx { st := .loaded, treg := oneProb } {}).working = true ∧
    ((sCtx { st := .loaded, treg := oneProb } {}).core (coreNo 0 0)).running = some 0 ∧
    ((sCtx { st := .loaded } {}).ctx 0 0).st = .loaded ∧ ((sCtx { st := .loaded } {}).core 0).hasFns [] = true ∧
    (sCtx { st := .loaded } {}).producerFault { st := .loaded } = none ∧ (sCtx { st := .loaded } {}).bankCurrent 0 = true ∧
    (sCtx { st := .loaded } {}).blazed { st := .loaded } (memWords []) = false ∧ ((dsc 0 0 1 0) = [] ∨ ((sCtx { st := .loaded, desc := dsc 0 0 1 0, treg := oneProb } {}).ctx 0 0 |>.readBounds []).emptyIssue = false) ∧ dKind ([] : List W64) ≠ 1 ∧ (sCtx { st := .loaded } {}).checkCtx 0 0 = none ∧
    usesMemWord (dsc 0 0 1 0) = false ∧ dKind (dsc 0 0 1 0) ≠ 1 ∧ (sCtx { st := .loaded, desc := dsc 0 0 1 0, treg := oneProb } {}).checkCtx 0 0 = some 0x100 := by
  decide +kernel

/-- The plain tile in regions of eight units. -/
def dscFit : List W64 := (dsc 0 0 1 0).set 1 (descWord (dsc 0 0 1 0) 1 ||| place 64 30 8 8 ||| place 64 22 8 8 ||| place 64 14 8 8)

theorem test_empty_issue_runs_vector : ((after (.taskIssue 0 0 0) (sCtx { st := .loaded } {})).ctx 0 0).st = .running ∧
    ((after (.taskIssue 0 0 0) (sCtx { st := .loaded, desc := dsc 0 0 1 0, treg := oneProb } {})).ctx 0 0).st = .faulted ∧
    ((after (.taskIssue 0 0 0) (sCtx { st := .loaded, desc := dscFit, treg := oneProb.take 2 } {})).ctx 0 0).st = .done := by decide +kernel

/-- A member whose stand 0 has a request for operand A of context 0, or has granted it. -/
def sStand (g : Bool) : State := { sCtx { st := .running, desc := dsc 0 0 1 0, treg := oneProb } {} with
  stands := [(0, if g then { granted := some ⟨0, 0, 0, true, false, false⟩ } else { queue := [⟨0, 0, 0, true, false, false⟩] })] }

theorem witness_TileLoads : (0 < (sStand false).nDies ∧ (15 : Nat) < 16) ∧ (sStand false).working = true ∧ ((sStand false).stand (standNo 0 0)).granted = none ∧
    ((sStand false).stand (standNo 0 0)).queue.find? (sStand false).grantable = some ⟨0, 0, 0, true, false, false⟩ ∧
    ((sStand true).stand (standNo 0 0)).granted = some ⟨0, 0, 0, true, false, false⟩ ∧ (sStand true).loadStands ⟨0, 0, 0, true, false, false⟩ = true ∧
    (sStand true).loadStands ⟨0, 0, 1, true, false, false⟩ = false ∧ (sStand false).hasDie 0 = true := by decide +kernel

theorem test_tile_load : ((after (.standPortGrant 0 0) (sStand false)).stand 0).granted = some ⟨0, 0, 0, true, false, false⟩ ∧
    ((after (.tileLoadComplete 0 0) (sStand true)).ctx 0 0).haveA = true ∧ ((after (.tileLoadComplete 0 0) (sStand true)).stand 0).granted = none := by decide +kernel

/-- Context 1 is loaded and waits for nothing; context 0 waits behind task 8. -/
def sSwitch : State := { sCrew with
  cores := [(0, { running := some 0, ctxs := [(0, { st := .loaded, behind := [⟨8, 0, 16⟩] }), (1, { st := .loaded, rank := 1 })] })]
  fore := { plan := some { noPlan with remote := [8] } } }

theorem witness_ContextSwitches : sSwitch.hasCore 0 0 = true ∧ (sSwitch.ctx 0 0).haloGot = false ∧ ((sCtx { st := .running, haloGot := true } {}).ctx 0 0).haloGot = true ∧ sSwitch.working = true ∧ (sSwitch.core (coreNo 0 0)).running = some 0 ∧ sSwitch.readyCtx 0 0 = some 1 ∧
    (sSwitch.ctx 0 0).atBoundary = true ∧ sSwitch.loadsWait 0 0 ((sSwitch.ctx 0 0).opened []) = true ∧ (sSwitch.stand 0).granted.any (fun r => r.core == 0) = false := by decide +kernel

theorem test_switch : ((after (.contextSwitch 0 0) sSwitch).core 0).running = some 1 := by decide +kernel
/-- Core 0 and core 1 run task 5, whose output row needs one row of core 1's tile. -/
def haloCtx : Ctx := { st := .running, task := 5, desc := dsc 1 0 1 1, treg := oneProb, haveA := true }

theorem witness_HaloCopies : (sCtx haloCtx haloCtx).hasCore 0 0 = true ∧ (sCtx haloCtx haloCtx).working = true ∧ dHalo haloCtx.desc = 1 ∧
    (sCtx haloCtx haloCtx).runningCtx (coreNo 0 0) = some (0, haloCtx) ∧ (sCtx haloCtx haloCtx).runningCtx (coreNo 0 0 + 1) = some (0, haloCtx) ∧
    dHalo (dsc 1 0 1 31) = -1 := by decide +kernel

theorem test_halo_copy : ((after (.haloCopy 0 0) (sCtx haloCtx haloCtx)).ctx 0 0).haloGot = true ∧
    ((after (.haloCopy 0 0) (sCtx haloCtx haloCtx)).ctx 1 0).haloGave = true := by decide +kernel

/-- A context whose output tile waits for its drain. -/
def drainCtx (desc : List W64) (staged : Bool) : Ctx := { st := .running, desc := desc, treg := oneProb, groups := [⟨[0, 0, 0], 0, 0⟩], staged := staged }

theorem witness_TilesDrain : (drainCtx [] false).groups = ⟨[0, 0, 0], 0, 0⟩ :: [] ∧ (sCtx (drainCtx [] false) {}).runningCtx (coreNo 0 0) = some (0, drainCtx [] false) ∧ (drainCtx [] false).fused = true ∧
    (drainCtx (dsc 0 1 255 0) false).fused = false ∧ dChainLen (dsc 0 1 255 0) ≠ 0 ∧
    (sCtx (drainCtx (dsc 0 1 255 0) true) {}).runningCtx (coreNo 0 0) = some (0, drainCtx (dsc 0 1 255 0) true) := by decide +kernel

theorem witness_MessagesAndTables : sCrew.working = true ∧ (sCrew.stand 0).asleep = false ∧ sCrew.setFits [4] = true ∧ sCrew.setFits (List.range 17) = false ∧ ({ sCrew with stands := [(0, { asleep := true })] } : State).stand 0 = { asleep := true } ∧ sCrew.hasCore 0 127 = true ∧ sCrew.ticking = true ∧ (sCrew.core (coreNo 0 127)).filled = false ∧
    ({ bank0 := { valid := false } } : Core).needsFill = true ∧ ({ want := [4] } : Core).needsFill = true := by decide +kernel

/-- Core 0 wants function 4, of one step word 7, which the store of its die holds. -/
def sFill : State := { sCrew with
  cores := [(0, { want := [4] })]
  dies := [(0, { stage := Mem.write [] (storeBase + 2048 * 8) (leBytes 8 (4 * 2 ^ 56 + 2 ^ 51) ++ leBytes 8 7) })] }

theorem test_table_fill : ((after (.functionTableFill 0 0) sFill).core 0).bank1.progs.map (fun p => (p.id, p.steps)) = [(4, [7])] ∧
    ((after (.functionTableFill 0 0) sFill).core 0).bank0 = {} := by decide +kernel

/-! ### Vector passes -/

/-- Vector task 5 with working space at 128. -/
def vecTask : Ctx := { st := .running, task := 5, space := [(128, 2 ^ 22)] }

/-- Core 0 runs vector task 5 with the functions `fns`, over stage memory that holds 1.0 at 0 and at 4. -/
def sVec (fns : List Nat) : State := { sCrew with
  cores := [(0, { running := some 0, ctxs := [(0, vecTask)], bank0 := { progs := fns.map fun i => { id := i } } })]
  dies := [(0, { stage := [(2, 0x80), (3, 0x3F), (6, 0x80), (7, 0x3F)] })]
  img := { sCrew.img with model := place 1024 928 16 2 ||| place 1024 920 8 1 } }

def rowJob (len : Nat) : RowJob := ⟨5, 0, 64, len, 0, 0, 0, 0x3F80_0000, 0, 0x3F80_0000, 0x3F80_0000, 0x3F80_0000, 128⟩

theorem witness_RowPasses : (sVec [4]).hasCore 0 0 = true ∧ normalPos32 (rowJob 1).sGain.toNat = true ∧ (sVec [4]).normKind = 0 ∧
    (sVec [4]).rowOk 0 vecTask (rowJob 32768) ((sVec [4]).normReads (rowJob 32768)) = true ∧ vecTask.hasSpace 128 (4 * 1048576) = true ∧
    (sVec [1]).rowOk 0 vecTask (rowJob 1048576) [rowRange 0 1048576 0] = true ∧ (sVec [4]).working = true ∧ 1 ≤ (rowJob 1).len ∧ (rowJob 32768).len ≤ 32768 ∧ (rowJob 1048576).len ≤ 1048576 ∧
    (sVec [4]).vecCtx (coreNo 0 0) 5 [4] = some (0, vecTask) ∧ (sVec [1]).vecCtx (coreNo 0 0) 5 [1] = some (0, vecTask) := by
  decide +kernel

theorem witness_Rotations : (sVec [7, 8]).vecCtx (coreNo 0 0) 5 [7, 8] = some (0, vecTask) ∧ [3, 4].length = 2 ∧ (sVec [7, 8]).rangesWait 0 vecTask [(0, 16)] = false ∧
    (sVec [7, 8]).mayWrite 0 (0, 16) = true := by decide +kernel

def foldOf (b : FoldBlock) (last : Bool) : FoldJob := ⟨5, 9, 0, 0, [0], 0, 128, 0x3F80_0000, 0x3F80_0000, b, true, false, last⟩

/-- Sequence 9 whose page list has one node, in the first reserve frame of stack 0, with page 0 in HBM frame 0. -/
def aSeq : Seq := { handle := 9, lMax := 4, vpages := 4, root0 := some userFrames, nodes := [(userFrames, { live := true, entries := [(0, 0)] })] }

/-- Vector task 5 of request 5, which decodes sequence 9. -/
def foldTask : Ctx := { vecTask with req := some 5 }

def sFold : State := { sVec [1] with
  cores := [(0, { running := some 0, ctxs := [(0, foldTask)], bank0 := { progs := [{ id := 1 }] } })]
  reqs := [{ cmd 3 0 .admitted with handle := 9 }], seqs := [aSeq] }

/-- The same once page 0 has one position and a walk has placed it. -/
def sFoldPage : State :=
  let s := { sFold with dies := [(0, { sFold.die 0 with placed := [(9, 0, 0, 0), (9, 0, 8192, 0)] })] }
  s.setHbmSide 0 (sbPut (s.hbmSide 0) 4452 9 1)

theorem witness_BlocksFold : sFold.vecCtx (coreNo 0 0) (foldOf (.hole 0) true).task [1] = some (0, foldTask) ∧
    (foldOf (.hole 0) true).qpos.length * sFold.group = 1 ∧ scalesBad (foldOf (.hole 0) true) = false ∧ scalesBad { foldOf (.page 0 1 0 0 0 0) true with sK := 0 } = true ∧ foldTask.converted 0 1 = none ∧ ({ foldTask with queries := [(0, 1, [([1], [1])])] } : Ctx).converted 0 1 = some (1, [([1], [1])]) ∧ sFold.working = true ∧
    sFold.foldOk 0 foldTask (foldOf (.hole 0) true) = true ∧ sFoldPage.foldOk 0 foldTask (foldOf (.page 0 1 0 0 0 0) true) = true ∧ sFoldPage.foldOk 0 foldTask { foldOf (.page 0 1 0 0 0 0) true with sK := 0 } = true ∧
    sFoldPage.foldOk 0 foldTask (foldOf (.page 0 2 0 0 0 0) true) = false ∧ sFold.foldOk 0 foldTask (foldOf (.page 0 1 0 0 0 0) true) = false ∧ sFold.mayWrite 0 (128, 40) = true ∧
    sFold.rangesWait 0 foldTask ((0, 8) :: sFold.blockRanges (.hole 0)) = false ∧ sFold.mayWrite 0 (128, 40) = true := by decide +kernel

theorem test_hole_leaves_empty_record : ((after (.blockFold 0 0 (foldOf (.hole 0) true)) sFold).ctx 0 0).st = .done ∧
    ((after (.blockFold 0 0 (foldOf (.hole 0) true)) sFold).partialAt 0 128).empty = true ∧
    ((after (.blockFold 0 0 (foldOf (.hole 0) true)) sFold).partialAt 0 128).m = negInf32 := by decide +kernel

/-- A page after one that stands before it, a speculative position after a staged one, and no page after a vector block (R349). -/
theorem test_fold_order : sFold.foldInOrder { foldTask with folds := [(128, 0, 1)] } { foldOf (.page 2 1 0 0 0 0) true with fresh := false } = true ∧
    sFold.foldInOrder { foldTask with folds := [(128, 0, 2)] } { foldOf (.page 1 1 0 0 0 0) true with fresh := false } = false ∧
    sFold.foldInOrder { foldTask with folds := [(128, 1, 0)] } { foldOf (.vector [3, 4] 0 0 0 false) true with fresh := false } = true ∧
    sFold.foldInOrder { foldTask with folds := [(128, 1, 0)] } { foldOf (.page 4 1 0 0 0 0) true with fresh := false } = false := by decide +kernel

/-- A GENERATE of handle 9 that runs, with a vocabulary of two. -/
def sGen : State := { sCmd 3 (place 512 32 32 9 ||| place 512 128 32 1 ||| place 512 192 32 0x3F80_0000) .merge with
  reqs := [{ cmd 3 (place 512 32 32 9 ||| place 512 128 32 1 ||| place 512 192 32 0x3F80_0000) .admitted with dataRead := true }]
  seqs := [{ handle := 9, lMax := 4, vpages := 1, log := [1], kvStaged := 1 }]
  img := { sCrew.img with model := place 1024 856 32 2 } }

theorem witness_TokensChosen : sGen.hasCore 0 0 = true ∧ (v32 ({ cmd 3 0 .merge with stage := .admitted } : Req).e.w5).isZero = true ∧ sGen.working = true ∧ sGen.seqHeld 9 = false ∧ (sGen.req 5).isSome = true ∧ (sGen.seq 9).isSome = true ∧
    (∀ l, l ∈ [[(0 : W32), 0x3F80_0000]] → l.length = sGen.vocab) ∧ ({ handle := 9, lMax := 4, vpages := 1, log := [1], kvStaged := 1 } : Seq).log.length ≤ 1 := by decide +kernel

theorem test_greedy_token : (after (.tokenChoice ⟨0, 0, 5⟩ [[0, 0x3F80_0000]]) sGen).seqs.map (·.logStaged) = [[1]] ∧
    (after (.tokenChoice ⟨0, 0, 5⟩ [[0x3F80_0000, 0x3F80_0000]]) sGen).seqs.map (·.logStaged) = [[0]] := by decide +kernel

/-- A sequence with pages lost elsewhere takes no token (R407). -/
theorem test_held_takes_no_token : after (.tokenChoice ⟨0, 0, 5⟩ [[0, 0x3F80_0000]]) { sGen with fore := { sGen.fore with held := [9] } } =
    { sGen with fore := { sGen.fore with held := [9] } } := by decide +kernel

/-- Sequence 9 with page 0 in HBM frame 0, whose sketch is due. -/
def sSketch : State := { sVec [] with
  seqs := [aSeq], fore := { sketchQ := [(9, 0)] }
  reqs := [{ cmd 3 0 .admitted with handle := 9 }] }

theorem witness_SketchesWritten : sSketch.working = true ∧ normalPos32 0x3F80_0000 = true ∧ sSketch.held (.stack 0) = false ∧ ({ sSketch with hbm := { copies := [(4, 5)] } } : State).held (.stack 0) = true ∧ 0 < aSeq.vpages ∧ (sSketch.seq 9).isSome = true ∧ (9, 0) ∈ sSketch.fore.sketchQ ∧
    leafTier (aSeq.entry 0) = 0 ∧ frameDie (leafFrame (aSeq.entry 0)) = 0 := by
  decide +kernel

theorem witness_PagesRanked : 0 < sSketch.nDies ∧ (sSketch.req 5).isSome = true ∧ 0 < sSketch.group ∧ ({ cmd 3 0 .admitted with handle := 9 } : Req).stage = .admitted := by decide +kernel

theorem test_ranking_without_retrieval : ((after (.pageRanking ⟨0, 0⟩ 5 0 0 []) sSketch).die 0).ranked = [(5, 0, 0, [0])] := by decide +kernel

/-- The root of a cube of two members with prefill round 1, of four runs, laid over both. -/
def sRing : State := { sRoot with
  fore := { deltas := [⟨1, 0, [.ring 1 0 1], true⟩] }, reqs := [{ cmd 2 0 .admitted with needed := 4 }], seqs := [aSeq] }

theorem witness_RingSteps : sRing.working = true ∧ sRing.onRound 0 1 = true ∧ sRing.runsFolded 1 = true ∧ sRing.ringOf 1 = some (0, 1) ∧ 0 ∈ sRing.ringsUsed 1 ∧ sRing.stepRunsOk 1 1 0 0 0 [0] = true ∧
    [0] = onRing (sRing.ringsUsed 1) 0 (sRing.ownBlock 1 1) ∧ sRing.stepRunsOk 1 1 0 1 1 [1] = true ∧ 1 < 2 ^ 1 ∧
    ((ringOrder sRing.img.crossed 1 0 0)[(indexIn (ringOrder sRing.img.crossed 1 0 0) 0 + 2 ^ 1 - 0 % 2 ^ 1) % 2 ^ 1]?.getD 0) = 0 ∧
    (∀ r, r ∈ sRing.ringsUsed 1 → ¬ r < 0) := by decide +kernel

theorem test_ring_step : (after (.ringStepFold 1 0 0 ⟨0, [0]⟩) sRing).fore.ringStep = [(1, [0])] ∧ (after (.ringStepFold 1 0 0 ⟨1, [0]⟩) sRing).fore.ringStep = [] ∧
    (after (.ringStepFold 1 0 1 ⟨1, [1]⟩) sRing).fore.ringStep = [] := by decide +kernel
/-! ### Streams, walks and pages -/

/-- Stream 5 of die 0 wants 8 bytes of HBM for stage address 64; stream 7 the same, but it runs dry later. -/
def sStream : State := { sCrew with
  dies := [(0, { streams := [(5, { rate := 2, room := 100, items := [{ item := .fetch .hbmOwn 0 0 64 8 [] none }] }), (7, { rate := 2, room := 100, buffered := 9, items := [{ item := .fetch .hbmOwn 0 0 64 8 [] none }] })] })]
  hbm := { data := [(1, 9)] } }

theorem witness_StreamsGranted : sStream.hasPoint (.stack 0) = true ∧ sStream.working = true ∧ sStream.winner (.stack 0) = some (5, 0) ∧
    (sStream.requestAt 0 (Sparse.get {} (sStream.die 0).streams 5) (.stack 0)).isSome = true ∧ sStream.winner (.stack 1) = none ∧
    sStream.hasPoint (.stack 1) = true ∧ sStream.unitWins (.stack 0) = none ∧ sStream.held (.stack 0) = false ∧
    ({ sStream with hbm := { copies := [(4, 5)] } } : State).held (.stack 0) = true := by decide +kernel

theorem test_grant : Mem.read ((after (.streamGrant (.stack 0)) sStream).die 0).stage 65 = 9 ∧
    (Sparse.get {} ((after (.streamGrant (.stack 0)) sStream).die 0).streams 5).buffered = 8 := by decide +kernel

/-- The same with stream 3 fed by walk context 0 of die 0. -/
def sWalk : State := { sSketch with dies := [(0, { streams := [(3, { walk := some 0, size := 16384, room := 16384 })] })] }

theorem witness_WalksResolve : sWalk.hasDie 0 = true ∧ sWalk.walkChosen aSeq 0 = true ∧ sWalk.walkFits 0 3 0 (sWalk.walkBytes ⟨⟨true, false, false, false, false⟩, []⟩ 2) = true ∧ sWalk.working = true ∧ sWalk.feeds 0 0 3 = true ∧ (sWalk.seq 9).isSome = true ∧ sWalk.land.slots.all (fun e => !e.2.corrupt) = true ∧ (63 : Nat) < 64 ∧ (127 : Nat) < 128 ∧ sSketch.working = true ∧ (sSketch.seq 9).isSome = true ∧
    (sSketch.resolvePage 0 aSeq 0 ⟨⟨true, false, false, false, false⟩, []⟩ 0).1 = .hbm 0 0 := by decide +kernel

theorem test_walk_pins : ((after (.walkRequest 0 0 3 9 [0] ⟨⟨true, false, false, false, false⟩, []⟩ 0) sWalk).hbmEnt 0).tickPin = true ∧
    ((after (.walkRequest 0 0 3 9 [1, 0] ⟨⟨true, false, false, false, false⟩, []⟩ 0) sWalk).die 0).walks = [(0, [.hole 1, .hbm 0 0])] := by decide +kernel

/-- Sequence 9 with no page yet. -/
def newSeq9 : Seq := { handle := 9, lMax := 4, vpages := 4 }

/-- A head of two dimensions in FP32, whose sequence 9 has a tail slot of a page of 8,192 positions at position `n`. -/
def sTailAt (n : Nat) : State := { sVec [] with
  img := { sCrew.img with model := place 1024 928 16 2 ||| place 1024 920 8 1 }
  seqs := [newSeq9]
  land := { slots := [(0, { seq := 9, fill := n, state := .tail })] } }

/-- The same without a tail, with frame 5 planned for page 0. -/
def sScatter : State := { sTailAt 1 with
  land := {}, hbm := { ftab := [(5, { inUse := true, staged := true })] }, fore := { (sTailAt 1).fore with plan := some { noPlan with fresh := [⟨9, 0, 5⟩] } } }

theorem witness_PositionsWritten : (sTailAt 1).hasCore 0 0 = true ∧ (sTailAt 1).working = true ∧ ((sTailAt 1).seq 9).isSome = true ∧ (sTailAt 1).seqHeld 9 = false ∧ ({ sTailAt 1 with fore := { held := [9] } } : State).mayPut (.slot 0) newSeq9 0 0 1 [1, 2] [3, 4] 0x3F80_0000 0x3F80_0000 = false ∧
    (sTailAt 1).tailSite newSeq9 0 0 1 = some (.slot 0) ∧ (sTailAt 1).checkSlots = sTailAt 1 ∧ (sTailAt 1).mayPut (.slot 0) newSeq9 0 0 1 [1, 2] [3, 4] 0x3F80_0000 0x3F80_0000 = true ∧
    (sTailAt 1).mayPut (.slot 0) newSeq9 0 0 2 [1, 2] [3, 4] 0x3F80_0000 0x3F80_0000 = false ∧ (sTailAt 1).mayPut (.slot 0) newSeq9 0 0 1 [1, 2] [3, 4] 0 0x3F80_0000 = false ∧ (sTailAt 1).fillOf (.slot 0) = 1 % (sTailAt 1).pagePositions ∧
    (sTailAt 0).fillOf (.slot 0) ≠ 1 % (sTailAt 0).pagePositions ∧ ({ sTailAt 1 with land := {} } : State).tailSite newSeq9 0 0 0 = none ∧
    sCrew.hbmFrameOk 5 = true ∧ sScatter.checkSlots = sScatter ∧ sScatter.tailSite newSeq9 0 0 0 = none ∧ sScatter.plannedFrame 9 0 = some 5 ∧
    sScatter.mayPut (.frame 5) newSeq9 0 0 0 [1, 2] [3, 4] 0x3F80_0000 0x3F80_0000 = true ∧ sScatter.mayPut (.frame 6) newSeq9 0 0 0 [1, 2] [3, 4] 0x3F80_0000 0x3F80_0000 = false ∧
    ({ sScatter with chk := { sScatter.chk with planned := [{ newSeq9 with kvStaged := 1 }] } } : State).mayPut (.frame 5) newSeq9 0 0 0 [1, 2] [3, 4] 0x3F80_0000 0x3F80_0000 = false := by decide +kernel

theorem test_append_in_turn : ((after (.tailAppend 0 0 5 9 0 0 1 [0x3F80_0000, 0] [0, 0] 0x3F80_0000 0x3F80_0000) (sTailAt 1)).slot 0).fill = 2 ∧
    Mem.read (after (.tailAppend 0 0 5 9 0 0 1 [0x3F80_0000, 0] [0, 0] 0x3F80_0000 0x3F80_0000) (sTailAt 1)).land.data 11 = 0x3F ∧
    ((after (.tailAppend 0 0 5 9 0 0 2 [0, 0] [0, 0] 0x3F80_0000 0x3F80_0000) (sTailAt 1)).slot 0).fill = 1 := by decide +kernel

/-- Frame 1 is in use and frame 2 is free; flash frame 6 is in use. -/
def sPages : State := { sCrew with
  hbm := { ftab := [(1, { inUse := true, refcount := 1, lot := 3 })], copies := [(8, 9)] }
  flash := { ftab := [(6, { inUse := true, refcount := 1 })], queue := [(0, 1)], cleaning := [(1, 7)] } }

theorem witness_PagesCopied : 1 < flashSource ∧ sPages.working = true ∧ (sPages.hbmEnt 1).inUse = true ∧ (sPages.hbmEnt 1).longPins < 127 ∧ sPages.hbmFrameOk 2 = true ∧
    sPages.hbmSpare 2 = true ∧ (sPages.hbmEnt 2).refcount = 0 ∧ 1 / 2 ^ 22 = 2 / 2 ^ 22 ∧ sPages.hbm.copies.any (fun c => c.2 == 2) = false ∧ (sPages.flashEnt 6).inUse = true ∧
    (sPages.flashEnt 6).longPins < 127 ∧ (({ sPages with hbm := { ftab := [(2, { staged := true })] } } : State).hbmEnt 2).staged = true ∧ (8, 9) ∈ sPages.hbm.copies := by
  decide +kernel

theorem witness_CleaningCopies : sPages.ticking = true ∧ sPages.sys.flashRo = false ∧ sPages.flashFree 8 = true ∧ nextClean sPages.flash.queue = some (0, 1) ∧
    0 < sPages.tick.num ∧ (1, 8) ∉ sPages.flash.cleaning ∧ (1, 7) ∈ sPages.flash.cleaning := by decide +kernel

theorem test_cleaning_starts : (after (.cleaningWrite 1 8 false) sPages).flash.cleaning = [(1, 7), (1, 8)] ∧ (after (.cleaningWrite 1 8 false) sPages).flash.queue = [] ∧
    ((after (.cleaningWrite 1 8 false) sPages).hbmEnt 1).longPins = 1 ∧ ((after (.pageCopyComplete 8 9) sPages).hbm.copies) = [] := by decide +kernel

/-! ### The memory tiers -/

theorem witness_HbmEvents : sSketch.hbmFrameOk userFrames = true ∧ State.reset.ticking = false ∧ (sCrew.flashCopyOf 0) = none ∧ ((sCrew.setHbmSide 0 (sbPut (sbPut 0 4480 40 6) 4520 1 1)).flashCopyOf 0).isSome = true ∧ userFrames ≤ userFrames % 2 ^ 22 ∧ (0, (0 : W64)) ∈ aSeq.root ∧
    aSeq.passes userFrames 0 (aSeq.levels - 1) aSeq.curRoot = true ∧ 0 % 2 ^ 22 < userFrames ∧ sSketch.blockAt 0 = none ∧ leafRef 0 = some (true, 0) ∧ sCrew.hbmFrameOk 0 = true ∧ sCrew.pwr.main = .on ∧ sCrew.ticking = true ∧ sCrew.hasStack 31 = true ∧ sCrew.hasStack 32 = false ∧
    sCrew.hbmFrameOk (2 ^ 27) = false ∧ sbFcValid (sCrew.hbmSide 0) = false := by decide +kernel

theorem test_scrub_twice : (after (.scrub 3 true) (after (.scrub 3 true) sCrew)).hbm.suspect = [3] ∧ (after (.scrub 3 true) sCrew).hbm.suspect = [] ∧
    (after (.hbmUncorrectable 3) sCrew).tick.fails.length = 1 := by decide +kernel

theorem test_lost_below_node : (after (.hbmUncorrectable userFrames) sSketch).seqs.map (·.lostPages) = [[0]] ∧
    (after (.hbmUncorrectable 0) { sSketch with hbm := { ftab := [(0, { refcount := 1, inUse := true })] } }).seqs.map (·.lostPages) = [[0]] := by decide +kernel

/-- A flash channel with block 0 holding frame 0, and block 1 erased 501 times; `r` reads of block 0. -/
def sNand (r : Nat) : State := { sCrew with flash := { map := [(0, 0)], blocks := [(0, { live := [0], reads := r, dead := 1 }), (1, { erases := 501 })] } }

/-- HBM frame 0, in use, has failed and flash frame 6 stands for it. -/
def sServed : State :=
  let s := sCrew.setHbmSide 0 (sbPut (sbPut 0 4480 40 6) 4520 1 1)
  { s with hbm := { s.hbm with failed := [.hbmFrame 0], ftab := [(0, { inUse := true, refcount := 1 })] } }

theorem witness_ReadErrors : (sNand 0).servedBy 6 = none ∧ sServed.servedBy 6 = some 0 ∧ (sNand 0).flashUser + 0 < 3906250000 ∧ 0 < weightFrames (sNand 0).img.model ∧ flashFrameOk (sNand 0).flashUser = true ∧ flashFrameOk 0 = true ∧ (sNand 0).pwr.standby = true ∧ (sNand 0).blockOf 0 = some 0 ∧ (sNand 0).ticking = true ∧ 0 < (sNand 0).flashUser ∧
    (sNand 0).hasPart 4 11 = true ∧ (sNand 0).hasPart 4 12 = false := by decide +kernel

theorem test_flash_read_counts : (Sparse.get {} (after (.flashRead 0 false (some 1)) (sNand 4)).flash.blocks 0).reads = 5 ∧
    (Sparse.get {} (after (.flashRead 0 false (some 1)) (sNand 4)).flash.blocks 0).soft = true ∧ (after (.flashRead 0 false none) (sNand 4)).tick.fails.length = 1 := by decide +kernel

theorem witness_FlashTranslation : (sNand 0).pwr.standby = true ∧ (sNand 0).extremeBlock 0 false = some (0, { live := [0], dead := 1 }) ∧
    (sNand 0).extremeBlock 0 true = some (1, { erases := 501 }) ∧ (sNand 0).leastErases 0 + 500 < 501 ∧ (1 : Nat) ≠ 0 ∧ (0 : Nat) ≤ (sNand 0).leastErases 0 + 500 ∧ (sNand 50000).flash.blocks.length = 2 ∧
    50000 ≤ (Sparse.get {} (sNand 50000).flash.blocks (0 * 65536 + 0)).reads ∧ (Sparse.get {} (sNand 0).flash.blocks 0).bad = false ∧
    (0, ({ live := [0], dead := 1 } : NandBlock)) ∈ (sNand 0).blocksOf 0 ∧ (sNand 0).sys.flashRo = false := by decide +kernel

theorem test_wear_levelling : Sparse.get (2 ^ 30) (after (.wearLevelling 0) (sNand 0)).flash.map 0 = 1 ∧ (Sparse.get {} (after (.wearLevelling 0) (sNand 0)).flash.blocks 0).erases = 1 := by
  decide +kernel
/-! ### Searches -/

/-- Index 3 with two nodes, one side insert, and a search of it in slot 0 that starts in tick 1 with node 0 as its candidate. -/
def twoNodes : List Node := [⟨0, 10, [1], [0]⟩, ⟨1, 11, [0], [1]⟩]

def aSearch (scanned : Bool) (xs : List Nat) : Search :=
  ⟨0, 5, 3, 1, 1, 4, 2, [List.replicate 256 7], twoNodes, [⟨2, 12, 0, true, [0], 0⟩], [], [(7, 0)], xs, [0], xs.length, [], false, scanned, none, 0⟩

def sSearch (scanned : Bool) (xs : List Nat) : State := { sIndex 0xC (place 512 192 16 1) .admitted { record := ixRec, nodes := twoNodes } with
  searches := [aSearch scanned xs] }

theorem witness_SearchCommandsComplete : ((sSearch false []).working = true ∧ (sSearch false []).search 0 = some (aSearch false []) ∧ (aSearch false []).result = none ∧ (aSearch false []).hops < (aSearch false []).maxHops ∧
    (aSearch false []).scanned = false ∧ (aSearch false []).start = (sSearch false []).tick.num ∧ nextCandidate (aSearch false []).q (aSearch false []).x = some 0 ∧ 0 ∈ (aSearch false []).read) ∧
    ((sSearch true [0]).search 0 = some (aSearch true [0]) ∧ ((sSearch true [0]).req (aSearch true [0]).rid).isSome = true ∧ nextCandidate (aSearch true [0]).q (aSearch true [0]).x = none ∧
    (∀ e, e ∈ (aSearch true [0]).q → e.2 ∉ (aSearch true [0]).x → e.2 ∈ (aSearch true [0]).read)) ∧
    (({ sSearch true [] with vidx := [{ record := ixRec, nodes := twoNodes, merge := some 1 }] } : State).index 3).isSome = true ∧ 1 ≤ (sSearch true []).tick.num ∧
    (sSearch true []).sys.flashRo = false ∧ (sSearch true []).areaBusy { record := ixRec } = false := by decide +kernel

/-- A search of index 3 for K neighbours. -/
def ask (k : Nat) : BitVec 512 := place 512 192 16 k

theorem witness_SearchesStart : (sIndex 0xC (ask 1) .merge { record := ixRec }).req 5 = some (onIx 0xC (ask 1) .merge) ∧ (onIx 0xC (ask 1) .merge).takeable = true ∧
    Entry.fieldsOk (onIx 0xC (ask 1) .merge).entry = true ∧ Entry.fieldsOk (onIx 0xC (ask 17) .merge).entry = true ∧
    (sIndex 0xC (ask 1) .merge { record := ixRec }).homeOf (onIx 0xC (ask 1) .merge).e.indexId = some 0 ∧ [0, 0, 0, (0 : Byte)].length = 4 * ixM ixRec ∧
    searchL (onIx 0xC (ask 17) .merge).e { record := ixRec } < 17 ∧ 16 ≤ searchL (onIx 0xC (ask 16) .merge).e { record := ixRec } ∧
    (sIndex 0xC (ask 1) .waiting { record := ixRec }).waitingSearch = some (onIx 0xC (ask 1) .waiting) ∧
    (sIndex 0xC (ask 1) .waiting { record := ixRec }).freeSearchSlot (ixM ixRec) = some 0 ∧ (sIndex 0xC (ask 1) .waiting { record := ixRec }).tick.planDone = false := by decide +kernel

theorem test_search_starts : (after (.searchAdmission 5) (sIndex 0xC (ask 1) .waiting { record := ixRec })).searches.map (fun x => (x.slot, x.start, x.l, x.maxHops)) = [(0, 2, 16, 64)] := by
  decide +kernel

theorem witness_SearchSteps : 0 ∈ (aSearch false []).read ∧ 1 ∉ (aSearch false []).read ∧ lostEntries (aSearch false []).sideIns [0] = (aSearch false []).sideIns ∧ (sSearch false []).search 0 = some (aSearch false []) ∧ nextCandidate (aSearch false []).q (aSearch false []).x = some 0 ∧
    ((sSearch false []).index 3).isSome = true ∧ (sSearch false []).working = true ∧ (aSearch false []).start ≤ (sSearch false []).tick.num ∧
    (aSearch false []).hops < (aSearch false []).maxHops ∧ (aSearch false []).result = none ∧ (aSearch false []).q.length ≤ (aSearch false []).l ∧
    ((aSearch false []).graph[0]?.map (nodeOk (ixDegree ixRec) 2)) = some true ∧ (aSearch false []).start = (sSearch false []).tick.num := by decide +kernel

theorem test_unit_reads : ({ sSearch false [] with searches := [{ aSearch false [] with read := [] }] } : State).held (.channel 0) = false ∧ (after (.streamGrant (.channel 0)) { sSearch false [] with searches := [{ aSearch false [] with read := [] }] }).searches.map (·.read) = [[0]] ∧
    ({ sSearch false [] with searches := [{ aSearch false [] with read := [] }] } : State).unitWins (.channel 0) = some (0, 0, 0) := by decide +kernel

theorem test_expansion : (after (.recordExpansion 0 true) (sSearch false [])).searches.map (·.q) = [[(7, 0), (7, 1)]] ∧
    (after (.recordExpansion 0 false) (sSearch false [])).searches.map (·.damaged) = [true] ∧
    (after (.sideScan 0 []) (sSearch false [])).searches.map (·.side) = [[(7, 12)]] := by decide +kernel

theorem witness_SearchResults : (∀ c, c ∈ ((aSearch true []).q.filter fun e => !((aSearch true []).x.contains e.2)).map Prod.snd → c ∈ (aSearch true []).read) ∧
    nextCandidate (aSearch true []).q (aSearch true []).x = some 0 ∧ (sSearch true [0, 1]).search 0 = some (aSearch true [0, 1]) ∧ ((sSearch true [0, 1]).req (aSearch true [0, 1]).rid).isSome = true ∧
    (aSearch true [0, 1]).maxHops ≤ (aSearch true [0, 1]).hops ∧ nextCandidate (aSearch true [0]).q (aSearch true [0]).x = none ∧
    (({ sSearch true [] with vidx := [{ record := ixRec, nodes := twoNodes, merge := some 1 }] } : State).index 3).isSome = true ∧ 1 ≤ (sSearch true []).tick.num ∧
    (sSearch true []).sys.flashRo = false ∧ (sSearch true []).areaBusy { record := ixRec } = false := by decide +kernel

theorem test_result : (after (.resultAssembly 0 []) (sSearch true [0])).searches.map (·.result) = [some [(7, 10)]] ∧
    (after (.resultAssembly 0 []) (sSearch true [0])).reqs.map (·.result0) = [1] := by decide +kernel

/-! ### Optical links -/

/-- A module whose port 0 stands as `p`. -/
def sPort (p : LinkPort) : State := { sCrew with ports := [(0, p)] }

/-- A far end's TRAIN record that echoes this module. -/
def farRec : BitVec 1920 := place 1920 576 64 1 ||| place 1920 372 2 3 ||| place 1920 350 4 2 ||| place 1920 0 64 7

theorem witness_LinkTraining : (sPort { state := .training, step := 1, laser := true }).port 0 = { state := .training, step := 1, laser := true } ∧
    (∀ l, l < 10 → l ∈ [9, 8, 7, 6, 5, 4, 3, 2, 1, 0]) ∧ (100 : Nat) ≤ 100 ∧ (100 : Nat) < 101 ∧ trainRecOk farRec = true ∧ trainRecOk 0 = false ∧
    ({ state := .training, step := 3, laser := true } : LinkPort).locked = true ∧ ({ state := .up, laser := true } : LinkPort).locked = true := by decide +kernel

theorem test_training_steps : ((after (.laneLock 0 [9, 8, 7, 6, 5, 4, 3, 2, 1, 0] 100) (sPort { state := .training, step := 1, laser := true })).port 0).step = 2 ∧
    ((after (.laneLock 0 [9, 8, 7, 6, 5, 4, 3, 2, 1, 0] 101) (sPort { state := .training, step := 1, laser := true })).port 0).step = 1 ∧
    ((after (.flitLock 0) (sPort { state := .training, step := 2, laser := true })).port 0).step = 3 ∧
    ((after (.trainRecord 0 farRec 5) (sPort { state := .training, step := 3, laser := true })).port 0).step = 4 := by decide +kernel

theorem witness_TimestampExchanges : (sPort { state := .training, step := 4, laser := true, peer := some farRec }).port 0 = { state := .training, step := 4, laser := true, peer := some farRec } ∧
    (List.replicate 1024 (0, 10, 20, 30)).length = 1024 := by decide +kernel

theorem test_delay : exchangeDelay (0, 10, 20, 30) = 10 ∧ median [5, 1, 4, 2] = 2 ∧ median [3, 1, 2] = 2 ∧
    (sPort { state := .training, step := 4, laser := true }).decidePort farRec = (.miswired, 0xE, 0xF) := by decide +kernel

/-- A data flit for coordinate 0 of this attempt, with a right CRC; `vc` 1. -/
def dataFlit : Flit :=
  let h : BitVec 128 := place 128 124 4 8 ||| place 128 122 2 1 ||| place 128 61 4 1 ||| place 128 59 2 1
  ⟨h ||| place 128 0 32 (flitCrc h []), []⟩

/-- The same with TYPE 9, which is reserved. -/
def badFlit : Flit :=
  let h : BitVec 128 := place 128 124 4 9 ||| place 128 61 4 1
  ⟨h ||| place 128 0 32 (flitCrc h []), []⟩

/-- A port in UP that has data to send. -/
def upPort : LinkPort := { state := .up, laser := true, dim := 0, peerCoord := 1, txq := [dataFlit] }

/-- A flit of TYPE `ty` for coordinate 1 that has made `hops` hops. -/
def farFlit (ty hops : Nat) : Flit :=
  let h : BitVec 128 := place 128 124 4 ty ||| place 128 117 4 hops ||| place 128 105 12 1 ||| place 128 61 4 1 ||| place 128 59 2 1
  ⟨h ||| place 128 0 32 (flitCrc h []), []⟩

/-- The lowest member of a crew of three, whose route to coordinate 1 is dimension 0. -/
def sFwd : State := { sCrew with
  img := { dims := 2 }
  crew := { sCrew.crew with members := [⟨0, 1, 3⟩, ⟨1, 7, 3⟩, ⟨2, 8, 3⟩], n0 := 3 }
  ports := [(0, { state := .up, dim := 0, peerCoord := 1, laser := true }), (1, { state := .up, dim := 1, peerCoord := 2, laser := true })]
  yard := { route := [(1, 0x0FFF_1000_0000_0000)] } }

theorem test_flit_goes_on : sFwd.routeOut 0 1 0 (some 1) = some (0, false) ∧ fhType (farFlit 8 0).hdr = 8 ∧ fhHops (farFlit 8 15).hdr = 15 ∧ fhType (farFlit 5 0).hdr = 5 ∧
    ((after (.flitReceive 1 (farFlit 8 0).hdr []) sFwd).port 0).txq.map (fun f => fhHops f.hdr) = [1] ∧
    (after (.flitReceive 1 (farFlit 8 15).hdr []) sFwd).tick.fails.length = 1 := by decide +kernel

theorem witness_FlitsReceived : (sPort {}).port 0 = {} ∧ ({} : LinkPort).locked = false ∧ (sPort upPort).port 0 = upPort ∧ upPort.locked = true ∧ upPort.state ≠ .transit ∧
    fhCrc dataFlit.hdr = flitCrc dataFlit.hdr [] ∧ fhCrc dataFlit.hdr ≠ flitCrc dataFlit.hdr [1] ∧ fhCrc badFlit.hdr = flitCrc badFlit.hdr [] ∧ (sPort upPort).flitBad badFlit.hdr = true ∧
    (sPort upPort).ticking = true ∧ (sPort upPort).flitBad dataFlit.hdr = false ∧ fhType dataFlit.hdr = 8 ∧ fhTtag dataFlit.hdr = (sPort upPort).ttag ∧ fhDest dataFlit.hdr = 0 ∧
    (fhSrc dataFlit.hdr, fhMsg dataFlit.hdr, fhOffset dataFlit.hdr) ∉ (sPort upPort).yard.placed := by decide +kernel

theorem test_flit_placed_once : (after (.flitReceive 0 dataFlit.hdr []) (sPort upPort)).yard.rx = [dataFlit] ∧
    (after (.flitReceive 0 dataFlit.hdr []) (after (.flitReceive 0 dataFlit.hdr []) (sPort upPort))).yard.rx = [dataFlit] ∧
    (after (.flitReceive 0 badFlit.hdr []) (sPort upPort)).tick.fails.length = 1 := by decide +kernel

theorem witness_FlitsSent : upPort.nextFlit = some dataFlit ∧ (sPort { upPort with replay := [dataFlit] }).port 0 = { upPort with replay := [dataFlit] } ∧
    ([dataFlit].find? fun f => fhLseq f.hdr == 0) = some dataFlit ∧ ([dataFlit].find? fun f => fhLseq f.hdr == 1) = none ∧ (sPort upPort).ticking = true := by decide +kernel

theorem test_flit_spends_credit : ((after (.flitSend 0) (sPort upPort)).port 0).credits = [256, 256, 1023, 1024, 5120, 5120, 1792, 1792] ∧
    ((after (.credit 0 [(1, 0, 2)]) (after (.flitSend 0) (sPort upPort))).port 0).credits[2]? = some 1025 ∧
    (after (.nak 0 [1]) (after (.flitSend 0) (sPort upPort))).tick.fails.length = 1 := by decide +kernel

theorem test_idle_flows : ((after (.flitSend 0) (sPort { upPort with state := .ready })).port 0).wire.length = 1 ∧
    (after (.flitSend 0) (sPort {})).ports = (sPort {}).ports := by decide +kernel

/-- A port that forwards for another crew. -/
def transitPort (c : Nat) : LinkPort := { state := .transit, laser := true, peerCoord := c }

/-- A member between two ports toward modules of another crew. -/
def sTransit : State := { sFwd with ports := [(0, transitPort 2), (1, transitPort 1)] }

theorem test_transit : (sTransit.transitOut 0 1 = some 1) ∧ ((sTransit.forwardTransit 0 (farFlit 8 3)).port 1).txq.map (fun f => (fhVc f.hdr, fhHops f.hdr)) = [(3, 4)] ∧
    ((after (.downNotice 1) { sTransit with ports := [(1, { transitPort 3 with lseq := 2 })] }).tick.fails.length = 1) := by decide +kernel

theorem witness_LinksAreLost : upPort.live = true ∧ (transitPort 1).live = true ∧ (transitPort 1).state = .transit ∧ seqDist 0 2 = 2 ∧ ({ upPort with state := .training, step := 1 } : LinkPort).live = false ∧ (9 : Nat) < 10 ∧
    ({ upPort with state := .ready } : LinkPort).live = true ∧ ({ upPort with state := .ready } : LinkPort).state ≠ .up := by decide +kernel

theorem test_link_lost : ((after (.flitSilenceTimeout 0) (sPort upPort)).port 0).reason = 3 ∧ ((after (.nakRateLimit 0) (sPort upPort)).port 0).reason = 4 ∧
    ((after (.downNotice 0) (sPort upPort)).port 0).lost = true ∧ ((after (.downNotice 0) (sPort upPort)).port 0).laser = false := by decide +kernel

/-- A link-state record of coordinate 1 with sequence number `q`; `up` shows its link to coordinate 0. -/
def lsRec (q : Nat) (up : Bool) : BitVec 512 :=
  place 512 500 12 1 ||| place 512 468 32 q ||| place 512 436 32 1 ||| place 512 29 3 (if up then 2 else 0)

/-- The lowest member of a crew of three with links to 1 and 2. -/
def sThree : State := { sCrew with
  img := { dims := 2 }
  crew := { sCrew.crew with members := [⟨0, 1, 3⟩, ⟨1, 7, 3⟩, ⟨2, 8, 3⟩], n0 := 3 }
  ports := [(0, { state := .up, dim := 0, peerCoord := 1, laser := true }), (1, { state := .up, dim := 1, peerCoord := 2, laser := true })] }

theorem witness_LinkStateRecords : (sThree.port 1).state = .up ∧ sThree.crew.member = true ∧ linkStateOk (lsRec 1 true) = true ∧ linkStateOk (1 <<< 400) = false ∧
    ({ sThree with yard := { records := [(1, lsRec 1 true)] } } : State).yard.records.find? (fun e => e.1 == lsOrigin (lsRec 1 false)) = some (lsOrigin (lsRec 1 false), lsRec 1 true) ∧
    lsEpoch (lsRec 1 false) = lsEpoch (lsRec 1 true) ∧ lsSeq (lsRec 1 false) ≤ lsSeq (lsRec 1 true) ∧ sThree.ticking = true ∧
    (let u : State := { sThree with yard := { sThree.yard with records := Sparse.set 0 sThree.yard.records 1 (lsRec 1 true), sent := [.linkState (lsRec 1 true) (some 1)] } }
     u.lostMembers = []) ∧
    (let u : State := { sThree with yard := { sThree.yard with records := Sparse.set 0 sThree.yard.records 1 (lsRec 1 false), sent := [.linkState (lsRec 1 false) (some 1)] } }
     u.lostMembers = [1] ∧ u.continues = true) ∧
    (let u : State := { sThree with yard := { sThree.yard with records := Sparse.set 0 sThree.yard.records 1 (lsRec 1 false) } , ports := [(1, { state := .up, peerCoord := 1 })] }
     u.lostMembers.all u.crew.lostNow.contains = false ∧ u.continues = false) := by decide +kernel

theorem test_member_lost : (after (.linkState 1 (lsRec 1 false)) sThree).crew.lostNow = [1] ∧ (after (.linkState 1 (lsRec 1 false)) sThree).tick.fails.length = 1 ∧
    (after (.linkState 1 (lsRec 1 true)) sThree).crew.lostNow = [] := by decide +kernel

end Sys2Proof.Tests
end

/-! ### Memories stay in canonical form -/

section

namespace Sys2Proof.Machine

/-- Every command keeps the memories in canonical form: one case per row of the opcode table, each the lemma of its meaning. -/
theorem exec_memsOk (i : Instr) (s : State) (hm : s.memsOk) : Out.sat (exec i s) State.memsOk :=
  match i with
  | .standbyPowerUp vin => execStandbyPowerUp_memsOk vin s hm
  | .pwrEnAssert present => execPwrEnAssert_memsOk present s hm
  | .powerGood compatN => execPowerGood_memsOk compatN s hm
  | .imageLoad norResponds => execImageLoad_memsOk norResponds s hm
  | .loadComplete => execLoadComplete_memsOk s hm
  | .verify => execVerify_memsOk s hm
  | .trainTimeout => execTrainTimeout_memsOk s hm
  | .pwrEnDeassert => execPwrEnDeassert_memsOk s hm
  | .undervoltage vin => execUndervoltage_memsOk vin s hm
  | .overvoltage vin => execOvervoltage_memsOk vin s hm
  | .powerUpHoldoffExpiry => execPowerUpHoldoffExpiry_memsOk s hm
  | .hubControlReset port value => execHubControlReset_memsOk port value s hm
  | .perstAssert port => execPerstAssert_memsOk port s hm
  | .perstDeassert port => execPerstDeassert_memsOk port s hm
  | .functionLevelReset port => execFunctionLevelReset_memsOk port s hm
  | .bar0BadAccess port isWrite offset size => execBar0BadAccess_memsOk port isWrite offset size s hm
  | .doorbellSq port qid value => execDoorbellSq_memsOk port qid value s hm
  | .doorbellCq port qid value => execDoorbellCq_memsOk port qid value s hm
  | .queueEnable port qid value => execQueueEnable_memsOk port qid value s hm
  | .queueDisable port qid value => execQueueDisable_memsOk port qid value s hm
  | .hostErrClear port value => execHostErrClear_memsOk port value s hm
  | .snapHoldSet port => execSnapHoldSet_memsOk port s hm
  | .snapHoldRelease port => execSnapHoldRelease_memsOk port s hm
  | .tmuxSelWrite port value => execTmuxSelWrite_memsOk port value s hm
  | .tmuxSwitch pin => execTmuxSwitch_memsOk pin s hm
  | .linkStatusClear port n value => execLinkStatusClear_memsOk port n value s hm
  | .registerWrite port offset size value => execRegisterWrite_memsOk port offset size value s hm
  | .mailboxRead port failUnit => execMailboxRead_memsOk port failUnit s hm
  | .mailboxWrite port data failUnit badUnit => execMailboxWrite_memsOk port data failUnit badUnit s hm
  | .mailboxRestart port => execMailboxRestart_memsOk port s hm
  | .mailboxReservedOp port op => execMailboxReservedOp_memsOk port op s hm
  | .mailboxDone => execMailboxDone_memsOk s hm
  | .smbusRecoveryWrite code value pec => execSmbusRecoveryWrite_memsOk code value pec s hm
  | .submissionFetch port qid entries pcieError => execSubmissionFetch_memsOk port qid entries pcieError s hm
  | .openSeq rid => execOpenSeq_memsOk rid s hm
  | .append rid data => execAppend_memsOk rid data s hm
  | .generate rid drafts => execGenerate_memsOk rid drafts s hm
  | .fork rid => execFork_memsOk rid s hm
  | .abort rid => execAbort_memsOk rid s hm
  | .close rid => execClose_memsOk rid s hm
  | .loadWeights rid data => execLoadWeights_memsOk rid data s hm
  | .setQuotaLot rid => execSetQuotaLot_memsOk rid s hm
  | .setQuotaQueueMap rid => execSetQuotaQueueMap_memsOk rid s hm
  | .setProfile rid => execSetProfile_memsOk rid s hm
  | .vecInsert rid data => execVecInsert_memsOk rid data s hm
  | .codebookReload rid data => execCodebookReload_memsOk rid data s hm
  | .vecDelete rid => execVecDelete_memsOk rid s hm
  | .vecSearch rid data => execVecSearch_memsOk rid data s hm
  | .readCounters rid => execReadCounters_memsOk rid s hm
  | .attest rid nonce => execAttest_memsOk rid nonce s hm
  | .writeImage rid data => execWriteImage_memsOk rid data s hm
  | .norProgramComplete mismatch => execNorProgramComplete_memsOk mismatch s hm
  | .drain rid => execDrain_memsOk rid s hm
  | .invalidOpcode rid => execInvalidOpcode_memsOk rid s hm
  | .tickEdgeApply now writeErrors crew => execTickEdgeApply_memsOk now writeErrors crew s hm
  | .snapshotTransfer => execSnapshotTransfer_memsOk s hm
  | .edge hdr body => execEdge_memsOk hdr body s hm
  | .cmdset hdr recs => execCmdset_memsOk hdr recs s hm
  | .report child hdr rep bodyBytes whole => execReport_memsOk child hdr rep bodyBytes whole s hm
  | .repeatMsg src hdr body => execRepeatMsg_memsOk src hdr body s hm
  | .reportRepeatTimeout child => execReportRepeatTimeout_memsOk child s hm
  | .checkAndCommitEntry => execCheckAndCommitEntry_memsOk s hm
  | .checkReportSend now busy hotSeq hotShare => execCheckReportSend_memsOk now busy hotSeq hotShare s hm
  | .masterDecision now => execMasterDecision_memsOk now s hm
  | .edgeIssue now => execEdgeIssue_memsOk now s hm
  | .throttleEvaluation r => execThrottleEvaluation_memsOk r s hm
  | .throttleRaise r => execThrottleRaise_memsOk r s hm
  | .thermalShutdown r => execThermalShutdown_memsOk r s hm
  | .nandThrottle celsius10 => execNandThrottle_memsOk celsius10 s hm
  | .plan p => execPlan_memsOk p s hm
  | .layoutDelta entries => execLayoutDelta_memsOk entries s hm
  | .deltaReceive version firstPlan entries => execDeltaReceive_memsOk version firstPlan entries s hm
  | .taskIssue die core ctx => execTaskIssue_memsOk die core ctx s hm
  | .standPortGrant die stand => execStandPortGrant_memsOk die stand s hm
  | .tileLoadComplete die stand => execTileLoadComplete_memsOk die stand s hm
  | .contextSwitch die core => execContextSwitch_memsOk die core s hm
  | .haloCopy die core => execHaloCopy_memsOk die core s hm
  | .tileDrain die core => execTileDrain_memsOk die core s hm
  | .completionMessage task => execCompletionMessage_memsOk task s hm
  | .separateChainPass die core => execSeparateChainPass_memsOk die core s hm
  | .normalisation die core job => execNormalisation_memsOk die core job s hm
  | .softMaximum die core job => execSoftMaximum_memsOk die core job s hm
  | .rotaryRotation die core task addr rows positions => execRotaryRotation_memsOk die core task addr rows positions s hm
  | .blockFold die core job => execBlockFold_memsOk die core job s hm
  | .tokenChoice job logits => execTokenChoice_memsOk job logits s hm
  | .functionTableFill die core => execFunctionTableFill_memsOk die core s hm
  | .sketchTask die core seq v sK => execSketchTask_memsOk die core seq v sK s hm
  | .pageRanking core rid layer head queries => execPageRanking_memsOk core rid layer head queries s hm
  | .ringStepFold round ring step part => execRingStepFold_memsOk round ring step part s hm
  | .streamGrant point => execStreamGrant_memsOk point s hm
  | .walkRequest die ctx stream seq pages ask dst => execWalkRequest_memsOk die ctx stream seq pages ask dst s hm
  | .tailAppend die core rid seq layer head pos key val sK sV => execTailAppend_memsOk die core rid seq layer head pos key val sK sV s hm
  | .scatter die core rid seq layer head pos key val sK sV frame => execScatter_memsOk die core rid seq layer head pos key val sK sV frame s hm
  | .pageCopy src dst => execPageCopy_memsOk src dst s hm
  | .pageCopyComplete src dst => execPageCopyComplete_memsOk src dst s hm
  | .cleaningWrite frame flashFrame complete => execCleaningWrite_memsOk frame flashFrame complete s hm
  | .hbmUncorrectable frame => execHbmUncorrectable_memsOk frame s hm
  | .scrub frame corrected => execScrub_memsOk frame corrected s hm
  | .refresh stack row => execRefresh_memsOk stack row s hm
  | .readDisturbRefresh stack row => execReadDisturbRefresh_memsOk stack row s hm
  | .flashRead frame hardOk softRetry => execFlashRead_memsOk frame hardOk softRetry s hm
  | .wearLevelling channel => execWearLevelling_memsOk channel s hm
  | .readDisturbRelocation channel block => execReadDisturbRelocation_memsOk channel block s hm
  | .programFailure channel block => execProgramFailure_memsOk channel block s hm
  | .flashReadOnly => execFlashReadOnly_memsOk s hm
  | .sramUncorrectable partKind partNum => execSramUncorrectable_memsOk partKind partNum s hm
  | .searchAdmission rid => execSearchAdmission_memsOk rid s hm
  | .recordExpansion slot readable => execRecordExpansion_memsOk slot readable s hm
  | .sideScan slot lostFrames => execSideScan_memsOk slot lostFrames s hm
  | .resultAssembly slot lostNodes => execResultAssembly_memsOk slot lostNodes s hm
  | .mergeFinish index => execMergeFinish_memsOk index s hm
  | .laneLock port lanes skewNs => execLaneLock_memsOk port lanes skewNs s hm
  | .flitLock port => execFlitLock_memsOk port s hm
  | .trainRecord port rec now => execTrainRecord_memsOk port rec now s hm
  | .trainRecordSend port now => execTrainRecordSend_memsOk port now s hm
  | .trainingStepTimeout port => execTrainingStepTimeout_memsOk port s hm
  | .trainingRetry port => execTrainingRetry_memsOk port s hm
  | .timestampExchange port samples => execTimestampExchange_memsOk port samples s hm
  | .flitReceive port hdr payload => execFlitReceive_memsOk port hdr payload s hm
  | .flitSend port => execFlitSend_memsOk port s hm
  | .nak port seqs => execNak_memsOk port seqs s hm
  | .credit port returns => execCredit_memsOk port returns s hm
  | .downNotice port => execDownNotice_memsOk port s hm
  | .laneAlignmentTimeout port lane => execLaneAlignmentTimeout_memsOk port lane s hm
  | .flitSilenceTimeout port => execFlitSilenceTimeout_memsOk port s hm
  | .nakRateLimit port => execNakRateLimit_memsOk port s hm
  | .laserOffExpiry port => execLaserOffExpiry_memsOk port s hm
  | .linkState port rec => execLinkState_memsOk port rec s hm
  | .crewFormation members measure homes treeDelay => execCrewFormation_memsOk members measure homes treeDelay s hm
  | .chunkReceive sender hdr payload stack => execChunkReceive_memsOk sender hdr payload stack s hm
  | .combine coll item step chunk left right residueOk => execCombine_memsOk coll item step chunk left right residueOk s hm
  | .extest tap => execExtest_memsOk tap s hm
  | .samplePreload tap pins => execSamplePreload_memsOk tap pins s hm
  | .idcode tap => execIdcode_memsOk tap s hm
  | .highz tap => execHighz_memsOk tap s hm
  | .clamp tap => execClamp_memsOk tap s hm
  | .extestPulse tap => execExtestPulse_memsOk tap s hm
  | .extestTrain tap => execExtestTrain_memsOk tap s hm
  | .bypass tap opcode => execBypass_memsOk tap opcode s hm
  | .testLogicReset => execTestLogicReset_memsOk s hm
  | .garbageCollection channel => execGarbageCollection_memsOk channel s hm
  | .nandThrottleRelease celsius10 => execNandThrottleRelease_memsOk celsius10 s hm

/-- The queue of commands is no memory. -/
theorem State.withPending_memsOk (s : State) (cs : List Instr) (hm : s.memsOk) : ({ s with pending := cs } : State).memsOk := hm

/-- A step keeps the memories in canonical form: with an empty queue the block idles, otherwise it runs the front command. -/
theorem step_memsOk (s : State) (hm : s.memsOk) : Out.sat (step s) State.memsOk := by
  unfold step
  split
  · rw [Out.sat_next]
    exact s.idle_memsOk hm
  · exact exec_memsOk _ _ (s.withPending_memsOk _ hm)

end Sys2Proof.Machine

open Sys2Proof.Machine

/-- Settles O4: each meaning keeps the canonical form, and so does the block while it idles. -/
theorem stepKeepsMemories : Obligations.StepKeepsMemories :=
  fun s t hm hst => step_memsOk s hm t hst

end

/-! ### Bytes, numbers and sideband fields in memories -/

section

namespace Sys2Proof.Machine

@[simp] theorem length_leBytes (k n : Nat) : (leBytes k n).length = k := by
  induction k generalizing n with
  | zero => rfl
  | succ k ih => simp [leBytes, ih]

/-- The bytes of a number give it back, modulo what they hold. -/
theorem leNat_leBytes (k n : Nat) : leNat (leBytes k n) = n % 256 ^ k := by
  induction k generalizing n with
  | zero => simp [leBytes, leNat, Nat.mod_one]
  | succ k ih => rw [leBytes, leNat, ih, BitVec.toNat_ofNat, Nat.pow_succ' (m := 256), Nat.mod_mul]

theorem leNat_lt (bs : List Byte) : leNat bs < 256 ^ bs.length := by
  induction bs with
  | nil => simp [leNat]
  | cons b bs ih =>
    have hb : b.toNat < 256 := b.isLt
    rw [leNat, List.length_cons, Nat.pow_succ']
    omega

@[simp] theorem Mem.length_bytes (m : Mem) (a n : Nat) : (Mem.bytes m a n).length = n := by
  simp [Mem.bytes, Sparse.getList]

/-- Bytes written read back. -/
theorem Mem.bytes_write_self (m : Mem) (a : Nat) (bs : List Byte) : Mem.bytes (Mem.write m a bs) a bs.length = bs := by
  refine List.ext_getElem (by simp) fun i hi hj => ?_
  simp only [Mem.bytes, Sparse.getList, List.getElem_map, List.getElem_range]
  exact Mem.read_write_in m a i bs hj

/-- A number written reads back, modulo what its bytes hold. -/
theorem Mem.num_write_leBytes (m : Mem) (a k n : Nat) : Mem.num (Mem.write m a (leBytes k n)) a k = n % 256 ^ k := by
  have h := Mem.bytes_write_self m a (leBytes k n)
  rw [length_leBytes] at h
  rw [Mem.num, h, leNat_leBytes]

theorem Mem.num_lt (m : Mem) (a k : Nat) : Mem.num m a k < 256 ^ k := by
  have h := leNat_lt (Mem.bytes m a k)
  rwa [Mem.length_bytes] at h

/-- Bits of a number with a field replaced. -/
theorem testBit_sbPut (b lo len v i : Nat) :
    (sbPut b lo len v).testBit i = if lo ≤ i ∧ i < lo + len then v.testBit (i - lo) else b.testBit i := by
  have hlow : b % 2 ^ lo < 2 ^ lo := Nat.mod_lt _ (Nat.two_pow_pos _)
  have hmid : 2 ^ lo * (v % 2 ^ len) + b % 2 ^ lo < 2 ^ (lo + len) := by
    have hv : v % 2 ^ len + 1 ≤ 2 ^ len := Nat.mod_lt _ (Nat.two_pow_pos _)
    calc 2 ^ lo * (v % 2 ^ len) + b % 2 ^ lo < 2 ^ lo * (v % 2 ^ len + 1) := by rw [Nat.mul_succ]; omega
      _ ≤ 2 ^ (lo + len) := by rw [Nat.pow_add]; exact Nat.mul_le_mul_left _ hv
  have hput : sbPut b lo len v = 2 ^ (lo + len) * (b >>> (lo + len)) + (2 ^ lo * (v % 2 ^ len) + b % 2 ^ lo) := by
    rw [sbPut, Nat.mul_comm (b >>> (lo + len)), Nat.mul_comm (v % 2 ^ len)]; omega
  rw [hput, Nat.testBit_two_pow_mul_add _ hmid, Nat.testBit_two_pow_mul_add _ hlow, Nat.testBit_shiftRight, Nat.testBit_mod_two_pow,
    Nat.testBit_mod_two_pow]
  by_cases h1 : i < lo
  · simp [h1, show i < lo + len by omega, show ¬ lo ≤ i by omega]
  · by_cases h2 : i < lo + len
    · simp [h1, h2, show lo ≤ i by omega, show i - lo < len by omega]
    · simp [h2, show lo + len + (i - (lo + len)) = i by omega]

/-- A number of `k` bytes stays one when a field inside it is replaced. -/
theorem sbPut_lt {b lo len v k : Nat} (hb : b < 256 ^ k) (hk : lo + len ≤ 8 * k) : sbPut b lo len v < 256 ^ k := by
  rw [show (256 : Nat) = 2 ^ 8 from rfl, ← Nat.pow_mul] at hb ⊢
  refine Nat.lt_pow_two_of_testBit _ fun i hi => ?_
  rw [testBit_sbPut, if_neg (by omega)]
  exact Nat.testBit_lt_two_pow (Nat.lt_of_lt_of_le hb (Nat.pow_le_pow_right (by decide) hi))

/-- A field put reads back. -/
theorem sbField_sbPut_same (b lo len v : Nat) : sbField (sbPut b lo len v) lo len = v % 2 ^ len := by
  refine Nat.eq_of_testBit_eq fun i => ?_
  rw [sbField, Nat.testBit_mod_two_pow, Nat.testBit_mod_two_pow, Nat.testBit_shiftRight, testBit_sbPut]
  by_cases h : i < len
  · simp [h]
  · simp [h]

/-- A field put leaves one beside it alone. -/
theorem sbField_sbPut_beside (b lo len v lo' len' : Nat) (h : lo' + len' ≤ lo ∨ lo + len ≤ lo') :
    sbField (sbPut b lo len v) lo' len' = sbField b lo' len' := by
  refine Nat.eq_of_testBit_eq fun i => ?_
  rw [sbField, sbField, Nat.testBit_mod_two_pow, Nat.testBit_mod_two_pow, Nat.testBit_shiftRight, Nat.testBit_shiftRight, testBit_sbPut]
  by_cases hi : i < len'
  · rw [if_neg (by omega)]
  · simp [hi]

/-- A field inside the first `k` bytes does not see the bytes above them. -/
theorem sbField_mod (b lo len k : Nat) (h : lo + len ≤ 8 * k) : sbField (b % 256 ^ k) lo len = sbField b lo len := by
  rw [show (256 : Nat) = 2 ^ 8 from rfl, ← Nat.pow_mul]
  refine Nat.eq_of_testBit_eq fun i => ?_
  simp only [sbField, Nat.testBit_mod_two_pow, Nat.testBit_shiftRight]
  by_cases hi : i < len
  · simp [hi, show lo + i < 8 * k by omega]
  · simp [hi]

/-- A sideband written leaves the bytes of every other frame's sideband alone. -/
theorem read_side_write_of_ne (m : Mem) (f b a : Nat) (h : a / 1024 ≠ f) : Mem.read (Mem.write m (f * 1024) (leBytes 1024 b)) a = Mem.read m a :=
  Mem.read_write_out _ _ _ _ (by rw [length_leBytes]; omega)

end Sys2Proof.Machine

end

/-! ### Outcomes and frames of the shared operations -/

section

namespace Sys2Proof.Machine

theorem when_pos {c : Bool} {s f : State} (h : c = true) : when c s f = .next f := by rw [when, if_pos h]

theorem when_neg {c : Bool} {s f : State} (h : c = false) : when c s f = .next s := by rw [when, h]; rfl

theorem needPart_pos {c : Bool} {k : String} {o : Out} (h : c = true) : needPart c k o = o := by rw [needPart, if_pos h]

theorem needPart_neg {c : Bool} {k : String} {o : Out} (h : c = false) : needPart c k o = .fault (.absentPart k) := by rw [needPart, h]; rfl

theorem State.onCore_pos {s : State} {die core : Nat} {o : Out} (h : s.hasCore die core = true) : s.onCore die core o = o := needPart_pos h

/-- The state with other counters. -/
def State.withCtr (s : State) (c : Counters) : State := { s with ctr := c }

/-- An overdraw only counts. -/
theorem State.overdraw_ctr (s : State) (beyond : Bool) (die lot : Nat) : ∃ c, s.overdraw beyond die lot = s.withCtr c := by
  unfold State.overdraw
  split
  · exact ⟨_, rfl⟩
  · exact ⟨s.ctr, rfl⟩

/-- An HBM frame allocated: its table entry is STAGED for the lot, its sideband is cleared. -/
theorem State.allocHbm_frame (s : State) (f lot : Nat) : ∃ c, s.allocHbm f lot =
    ((s.setHbmEnt f { inUse := true, staged := true, lot := lot }).setHbmSide f 0).withCtr c := by
  unfold State.allocHbm
  exact State.overdraw_ctr _ _ _ _

/-- A flash frame allocated: its table entry is STAGED for the lot. -/
theorem State.allocFlash_frame (s : State) (f lot : Nat) : ∃ c, s.allocFlash f lot =
    (s.setFlashEnt f { inUse := true, staged := true, lot := lot }).withCtr c := by
  unfold State.allocFlash
  exact State.overdraw_ctr _ _ _ _

end Sys2Proof.Machine

end

/-! ### Page copies -/

section

namespace Sys2Proof.Machine

/-- A frame entry with one more long pin. -/
def FrameEnt.pinned (e : FrameEnt) : FrameEnt := { e with longPins := e.longPins + 1 }

/-- A frame entry with one long pin less. -/
def FrameEnt.unpinned (e : FrameEnt) : FrameEnt := { e with longPins := e.longPins - 1 }

theorem State.pinHbm_up (s : State) (f : Nat) : s.pinHbm f true = s.setHbmEnt f (s.hbmEnt f).pinned := rfl

theorem State.pinHbm_down (s : State) (f : Nat) : s.pinHbm f false = s.setHbmEnt f (s.hbmEnt f).unpinned := rfl

/-- The state with other frame entries and sidebands. -/
def State.withTable (s : State) (ft : Sparse FrameEnt) (sd : Mem) : State := { s with hbm := { s.hbm with ftab := ft, side := sd } }

/-- The target of a page copy is a frame the attempt has allocated, or is allocated now: no other entry and no other sideband changes. -/
theorem State.copyTarget_frame (s : State) (dst lot : Nat) : ∃ ft sd c,
    (if (s.hbmEnt dst).staged then s else s.allocHbm dst lot) = (s.withTable ft sd).withCtr c ∧
    (∀ f, f ≠ dst → Sparse.get {} ft f = s.hbmEnt f) ∧
    Sparse.get {} ft dst = (if (s.hbmEnt dst).staged then s.hbmEnt dst else { inUse := true, staged := true, lot := lot }) ∧
    ∀ a, a / 1024 ≠ dst → Mem.read sd a = Mem.read s.hbm.side a := by
  split
  · exact ⟨s.hbm.ftab, s.hbm.side, s.ctr, rfl, fun _ _ => rfl, rfl, fun _ _ => rfl⟩
  · obtain ⟨c, hc⟩ := s.allocHbm_frame dst lot
    exact ⟨_, _, c, hc, fun f hf => Sparse.get_set_ne _ _ _ _ _ hf, Sparse.get_set_self _ _ _ _, fun a ha => read_side_write_of_ne _ _ _ _ ha⟩

/-- The conditions of PAGE_COPY on its target: it exists, is allocated by the attempt or free, has no reference, and no copy into it runs. -/
def State.copyTarget (s : State) (dst : Nat) : Prop :=
  s.hbmFrameOk dst = true ∧ ((s.hbmEnt dst).staged = true ∨ s.hbmSpare dst = true) ∧ (s.hbmEnt dst).refcount = 0 ∧
    s.hbm.copies.any (fun c => c.2 == dst) = false

/-- The sideband of a copy: no flash copy, and the positions that the copy keeps (R318, R325). -/
def State.copySide (s : State) (dst image : Nat) : Nat := sbPut (sbPut image 4480 41 0) 4452 9 (s.copyFill dst (sbFill image))

theorem State.copySide_lt (s : State) (dst : Nat) {image : Nat} (h : image < 256 ^ 1024) : s.copySide dst image < 256 ^ 1024 :=
  sbPut_lt (sbPut_lt h (by decide)) (by decide)

/-- The copy in the engine's lists. -/
def State.noteCopy (s : State) (src dst : Nat) : State :=
  { s with hbm := { s.hbm with copies := s.hbm.copies ++ [(src, dst)], copied := s.hbm.copied ++ [src] } }

/-- The state with other HBM frames and sidebands. -/
def State.withBytes (s : State) (data side : Mem) : State := { s with hbm := { s.hbm with data := data, side := side } }

/-- A page copied into its target, before the pin. -/
def State.copyInto (s : State) (src dst : Nat) (img : List Byte × Nat) : State :=
  ((s.writeHbm (dst * 16384) img.1).noteCopy src dst).setHbmSide dst (s.copySide dst img.2)

/-- The state in which a page copy stands in the engine's lists, with the frame entries and bytes that it leaves. -/
def State.copyDone (s : State) (src dst : Nat) (ft : Sparse FrameEnt) (data side : Mem) (c : Counters) : State :=
  { s with hbm := { s.hbm with data := data, side := side, ftab := ft, copies := s.hbm.copies ++ [(src, dst)], copied := s.hbm.copied ++ [src] }, ctr := c }

/-- What PAGE_COPY counts. -/
def State.countCopy (s : State) (dst : Nat) : State := (s.stackCount (dst / 2 ^ 22) 10).lotCount (frameDie dst) (s.hbmEnt dst).lot 10

/-- The frame entry of a page-copy source. -/
def State.sourceEnt (s : State) (src : Nat) : FrameEnt := if decide (flashSource ≤ src) then s.flashEnt (src - flashSource) else s.hbmEnt src

/-- The source of a page copy takes one more long pin. -/
def State.pinSource (s : State) (src : Nat) (e : FrameEnt) : State :=
  if decide (flashSource ≤ src) then s.setFlashEnt (src - flashSource) { e with longPins := e.longPins + 1 } else s.pinHbm src true

theorem execPageCopy_eq (s : State) (src dst : Nat) : execPageCopy src dst s =
    when (s.working && (s.sourceEnt src).inUse && decide ((s.sourceEnt src).longPins < 127) && s.hbmFrameOk dst &&
      ((s.hbmEnt dst).staged || s.hbmSpare dst) && decide ((s.hbmEnt dst).refcount = 0) &&
      (decide (flashSource ≤ src) || decide (src / 2 ^ 22 = dst / 2 ^ 22)) && !(s.hbm.copies.any fun c => c.2 == dst)) s
      ((((if (s.hbmEnt dst).staged then s else s.allocHbm dst (s.sourceEnt src).lot).copyInto src dst (s.pageImage src)).pinSource src
        (s.sourceEnt src)).countCopy dst) := rfl

/-- The bytes that a page copy writes: its target's frame and sideband, no other. -/
theorem State.copyInto_bytes (s : State) (src dst : Nat) (img : List Byte × Nat) (h : img.2 < 256 ^ 1024) : ∃ side,
    s.copyInto src dst img = (s.withBytes (Mem.write s.hbm.data (dst * 16384) img.1) side).noteCopy src dst ∧
    Mem.num side (dst * 1024) 1024 = s.copySide dst img.2 ∧ ∀ a, a / 1024 ≠ dst → Mem.read side a = Mem.read s.hbm.side a := by
  refine ⟨Mem.write s.hbm.side (dst * 1024) (leBytes 1024 (s.copySide dst img.2)), ?_, ?_, fun a ha => read_side_write_of_ne _ _ _ _ ha⟩
  · rw [State.copyInto, State.setHbmSide]
    generalize leBytes 1024 (s.copySide dst img.2) = bs
    rfl
  · rw [Mem.num_write_leBytes, Nat.mod_eq_of_lt (s.copySide_lt dst h)]

/-- The image of a page-copy source is a sideband's 1,024 bytes. -/
theorem State.pageImage_lt (s : State) (src : Nat) : (s.pageImage src).2 < 256 ^ 1024 := by
  unfold State.pageImage State.flashSide
  split
  · dsimp only; apply Mem.num_lt
  · dsimp only; apply Mem.num_lt

/-- PAGE_COPY that goes on: the copy in its target, the pin of the source, and what is counted. -/
theorem execPageCopy_next (s : State) (src dst : Nat) (hw : s.working = true) (hu : (s.sourceEnt src).inUse = true)
    (hp : (s.sourceEnt src).longPins < 127) (hd : s.copyTarget dst) (hst : flashSource ≤ src ∨ src / 2 ^ 22 = dst / 2 ^ 22) :
    ∃ ft side c, execPageCopy src dst s =
      .next (((s.copyDone src dst ft (Mem.write s.hbm.data (dst * 16384) (s.pageImage src).1) side c).pinSource src (s.sourceEnt src)).countCopy dst) ∧
    (∀ f, f ≠ dst → Sparse.get {} ft f = s.hbmEnt f) ∧
    Sparse.get {} ft dst = (if (s.hbmEnt dst).staged then s.hbmEnt dst else { inUse := true, staged := true, lot := (s.sourceEnt src).lot }) ∧
    Mem.num side (dst * 1024) 1024 = s.copySide dst (s.pageImage src).2 ∧ ∀ a, a / 1024 ≠ dst → Mem.read side a = Mem.read s.hbm.side a := by
  obtain ⟨hok, hfree, href, hcp⟩ := hd
  obtain ⟨ft, sd, c, hc, hother, hdst, hsd⟩ := s.copyTarget_frame dst (s.sourceEnt src).lot
  obtain ⟨side, hcopy, hnum, hside⟩ := ((s.withTable ft sd).withCtr c).copyInto_bytes src dst (s.pageImage src) (s.pageImage_lt src)
  have hcond : (s.working && (s.sourceEnt src).inUse && decide ((s.sourceEnt src).longPins < 127) && s.hbmFrameOk dst &&
      ((s.hbmEnt dst).staged || s.hbmSpare dst) && decide ((s.hbmEnt dst).refcount = 0) &&
      (decide (flashSource ≤ src) || decide (src / 2 ^ 22 = dst / 2 ^ 22)) && !(s.hbm.copies.any fun c => c.2 == dst)) = true := by
    simp only [hw, hu, hok, hcp, decide_eq_true hp, decide_eq_true href]
    simpa using ⟨hfree, hst⟩
  refine ⟨ft, side, c, ?_, hother, hdst, hnum, fun a ha => (hside a ha).trans (hsd a ha)⟩
  rw [execPageCopy_eq, when_pos hcond, hc, hcopy]
  rfl

/-- A source with 127 long pins makes PAGE_COPY wait. -/
theorem execPageCopy_full (s : State) (src dst : Nat) (hp : 127 ≤ (s.sourceEnt src).longPins) : execPageCopy src dst s = .next s := by
  rw [execPageCopy_eq, when_neg]
  simp [Nat.not_lt.mpr hp]

theorem State.pageImage_hbm (s : State) {src : Nat} (h : src < flashSource) :
    s.pageImage src = (Mem.bytes s.hbm.data0 (src * 16384) 16384, Mem.num s.hbm.side0 (src * 1024) 1024) := if_neg (Nat.not_le.mpr h)

theorem State.pageImage_flash (s : State) (f : Nat) :
    s.pageImage (flashSource + f) = (Mem.bytes s.flash.data (f * 16384) 16384, s.flashSide f) := by
  rw [State.pageImage, if_pos (Nat.le_add_right _ _), Nat.add_sub_cancel_left]

theorem State.sourceEnt_hbm (s : State) {src : Nat} (h : src < flashSource) : s.sourceEnt src = s.hbmEnt src := by
  rw [State.sourceEnt, decide_eq_false (Nat.not_le.mpr h)]; rfl

theorem State.sourceEnt_flash (s : State) (f : Nat) : s.sourceEnt (flashSource + f) = s.flashEnt f := by
  rw [State.sourceEnt, decide_eq_true (Nat.le_add_right _ _), Nat.add_sub_cancel_left]; rfl

theorem State.pinSource_hbm (s : State) {src : Nat} (e : FrameEnt) (h : src < flashSource) : s.pinSource src e = s.pinHbm src true := by
  rw [State.pinSource, decide_eq_false (Nat.not_le.mpr h)]; rfl

theorem State.pinSource_flash (s : State) (f : Nat) (e : FrameEnt) :
    s.pinSource (flashSource + f) e = s.setFlashEnt f { e with longPins := e.longPins + 1 } := by
  rw [State.pinSource, decide_eq_true (Nat.le_add_right _ _), Nat.add_sub_cancel_left]; rfl

/-- A copy from an HBM frame leaves its lists, its bytes, and the pin. -/
theorem State.copyDone_pin (s : State) (src dst : Nat) (ft : Sparse FrameEnt) (data side : Mem) (c : Counters) : ∃ c',
    ((s.copyDone src dst ft data side c).pinHbm src true).countCopy dst =
      s.copyDone src dst (Sparse.set {} ft src (Sparse.get {} ft src).pinned) data side c' := by
  refine ⟨(((s.copyDone src dst ft data side c).pinHbm src true).countCopy dst).ctr, ?_⟩
  simp only [State.countCopy, State.lotCount, State.stackCount, State.count, State.pinHbm_up, State.setHbmEnt, State.hbmEnt, State.copyDone]

/-- A copy from a flash frame leaves its lists, its bytes, and the pin. -/
theorem State.copyDone_pinFlash (s : State) (src dst f : Nat) (e : FrameEnt) (ft : Sparse FrameEnt) (data side : Mem) (c : Counters) : ∃ c',
    ((s.copyDone src dst ft data side c).setFlashEnt f e).countCopy dst = (s.copyDone src dst ft data side c').setFlashEnt f e :=
  ⟨(((s.copyDone src dst ft data side c).setFlashEnt f e).countCopy dst).ctr,
    by simp only [State.countCopy, State.lotCount, State.stackCount, State.count, State.setFlashEnt, State.hbmEnt, State.copyDone]⟩

theorem State.copyDone_flash_frame (s t : State) (src dst f : Nat) (e : FrameEnt) (ft : Sparse FrameEnt) (data side : Mem) (c : Counters)
    (ht : t = (s.copyDone src dst ft data side c).setFlashEnt f e) :
    t = { s with hbm := { s.hbm with data := t.hbm.data, side := t.hbm.side, ftab := t.hbm.ftab, copies := s.hbm.copies ++ [(src, dst)], copied := s.hbm.copied ++ [src] }, flash := { s.flash with ftab := t.flash.ftab }, ctr := t.ctr } := by
  subst ht; simp only [State.setFlashEnt, State.copyDone]

/-- PAGE_COPY of an HBM frame. -/
theorem pageCopy_hbm (s : State) (src dst : Nat) (hs : src < flashSource) (hw : s.working = true) (hu : (s.hbmEnt src).inUse = true)
    (hd : s.copyTarget dst) (hst : src / 2 ^ 22 = dst / 2 ^ 22) (hne : src ≠ dst) (hp : (s.hbmEnt src).longPins < 127) :
    ∃ t, exec (.pageCopy src dst) s = .next t ∧
      t = { s with hbm := { s.hbm with data := t.hbm.data, side := t.hbm.side, ftab := t.hbm.ftab, copies := s.hbm.copies ++ [(src, dst)], copied := s.hbm.copied ++ [src] }, ctr := t.ctr } ∧
      t.hbm.data = Mem.write s.hbm.data (dst * 16384) (Mem.bytes s.hbm.data0 (src * 16384) 16384) ∧
      t.hbmSide dst = s.copySide dst (Mem.num s.hbm.side0 (src * 1024) 1024) ∧
      (∀ a, a / 1024 ≠ dst → Mem.read t.hbm.side a = Mem.read s.hbm.side a) ∧
      t.hbmEnt src = { s.hbmEnt src with longPins := (s.hbmEnt src).longPins + 1 } ∧ (∀ f, f ≠ src → f ≠ dst → t.hbmEnt f = s.hbmEnt f) ∧
      t.hbmEnt dst = if (s.hbmEnt dst).staged then s.hbmEnt dst else { inUse := true, staged := true, lot := (s.hbmEnt src).lot } := by
  obtain ⟨ft, side, c, he, hother, hdst, hnum, hside⟩ := execPageCopy_next s src dst hw (by rwa [s.sourceEnt_hbm hs]) (by rwa [s.sourceEnt_hbm hs]) hd (.inr hst)
  obtain ⟨c', hpin⟩ := s.copyDone_pin src dst ft (Mem.write s.hbm.data (dst * 16384) (s.pageImage src).1) side c
  rw [State.pinSource_hbm _ _ hs, hpin, hother src hne, s.pageImage_hbm hs] at he
  rw [s.sourceEnt_hbm hs] at hdst
  rw [s.pageImage_hbm hs] at hnum
  dsimp only at he hnum
  generalize Mem.write s.hbm.data (dst * 16384) (Mem.bytes s.hbm.data0 (src * 16384) 16384) = data at he ⊢
  exact ⟨_, he, rfl, rfl, hnum, hside, Sparse.get_set_self _ _ _ _, fun f hf hfd => (Sparse.get_set_ne _ _ _ _ _ hf).trans (hother f hfd),
    (Sparse.get_set_ne _ _ _ _ _ (Ne.symm hne)).trans hdst⟩

/-- PAGE_COPY of a flash frame. -/
theorem pageCopy_flash (s : State) (f dst : Nat) (hw : s.working = true) (hu : (s.flashEnt f).inUse = true) (hp : (s.flashEnt f).longPins < 127)
    (hd : s.copyTarget dst) : ∃ t, exec (.pageCopy (flashSource + f) dst) s = .next t ∧
      t = { s with hbm := { s.hbm with data := t.hbm.data, side := t.hbm.side, ftab := t.hbm.ftab, copies := s.hbm.copies ++ [(flashSource + f, dst)], copied := s.hbm.copied ++ [flashSource + f] }, flash := { s.flash with ftab := t.flash.ftab }, ctr := t.ctr } ∧
      t.hbm.data = Mem.write s.hbm.data (dst * 16384) (Mem.bytes s.flash.data (f * 16384) 16384) ∧ t.hbmSide dst = s.copySide dst (s.flashSide f) ∧
      (∀ g, g ≠ dst → t.hbmEnt g = s.hbmEnt g) ∧ t.flashEnt f = { s.flashEnt f with longPins := (s.flashEnt f).longPins + 1 } := by
  obtain ⟨ft, side, c, he, hother, hdst, hnum, hside⟩ := execPageCopy_next s (flashSource + f) dst hw (by rwa [s.sourceEnt_flash]) (by rwa [s.sourceEnt_flash]) hd
    (.inl (Nat.le_add_right _ _))
  obtain ⟨c', hpin⟩ := s.copyDone_pinFlash (flashSource + f) dst f { s.flashEnt f with longPins := (s.flashEnt f).longPins + 1 } ft
    (Mem.write s.hbm.data (dst * 16384) (s.pageImage (flashSource + f)).1) side c
  rw [s.sourceEnt_flash, State.pinSource_flash, hpin, s.pageImage_flash] at he
  rw [s.pageImage_flash] at hnum
  dsimp only at he hnum
  generalize Mem.write s.hbm.data (dst * 16384) (Mem.bytes s.flash.data (f * 16384) 16384) = data at he ⊢
  generalize flashSource + f = src at he ⊢
  exact ⟨_, he, s.copyDone_flash_frame _ src dst f _ ft data side c' rfl, rfl, hnum, hother, Sparse.get_set_self _ _ _ _⟩

/-- PAGE_COPY_COMPLETE: the pin on the source goes. -/
theorem pageCopyComplete_unpins (s : State) (src dst : Nat) (h : (src, dst) ∈ s.hbm.copies) : ∃ t, exec (.pageCopyComplete src dst) s = .next t ∧ t.hbm.copies = s.hbm.copies.erase (src, dst) ∧
    t = { s with hbm := { s.hbm with copies := t.hbm.copies, ftab := t.hbm.ftab }, flash := { s.flash with ftab := t.flash.ftab } } ∧
    (src < flashSource → t.flash = s.flash ∧ t.hbm.ftab = Sparse.set {} s.hbm.ftab src { s.hbmEnt src with longPins := (s.hbmEnt src).longPins - 1 }) ∧
    (flashSource ≤ src → t.hbm.ftab = s.hbm.ftab ∧
      t.flash.ftab = Sparse.set {} s.flash.ftab (src - flashSource) { s.flashEnt (src - flashSource) with longPins := (s.flashEnt (src - flashSource)).longPins - 1 }) := by
  refine ⟨_, when_pos (List.contains_iff_mem.mpr h), ?_⟩
  by_cases hs : flashSource ≤ src
  · simp only [if_pos hs]
    exact ⟨rfl, rfl, fun hlt => absurd hs (Nat.not_le.mpr hlt), fun _ => ⟨rfl, rfl⟩⟩
  · simp only [if_neg hs]
    exact ⟨rfl, rfl, fun _ => ⟨rfl, rfl⟩, fun h => absurd h hs⟩

theorem pagesCopied : PagesCopied := by
  refine ⟨fun s src dst hs hw hu hok hfree href hst hcp hne => ⟨fun hp => ?_, fun hp => ?_⟩, fun s f dst hw hu hp hok hfree href hcp => ?_,
    pageCopyComplete_unpins⟩
  · exact pageCopy_hbm s src dst hs hw hu ⟨hok, hfree, href, hcp⟩ hst hne hp
  · exact execPageCopy_full s src dst (by rwa [s.sourceEnt_hbm hs])
  · exact pageCopy_flash s f dst hw hu hp ⟨hok, hfree, href, hcp⟩

end Sys2Proof.Machine

end

/-! ### Cleaning -/

section

namespace Sys2Proof.Machine

/-- The state with other places of the flash frames in their blocks, other counters and the next free value. -/
def State.withMap (s : State) (map page openBlk : Sparse Nat) (blocks : Sparse NandBlock) (c : Counters) (n : Nat) : State :=
  { s with flash := { s.flash with map := map, page := page, openBlk := openBlk, blocks := blocks }, ctr := c, freeIx := n }

/-- Two states differ at most in the places of the flash frames in their blocks, in the counters and in the next free value. -/
def State.remaps (s t : State) : Prop := ∃ map page openBlk blocks c n, t = s.withMap map page openBlk blocks c n

theorem State.remaps_refl (s : State) : s.remaps s := ⟨s.flash.map, s.flash.page, s.flash.openBlk, s.flash.blocks, s.ctr, s.freeIx, rfl⟩

theorem State.remaps.trans {s t u : State} (h1 : s.remaps t) (h2 : t.remaps u) : s.remaps u := by
  obtain ⟨_, _, _, _, _, _, rfl⟩ := h1
  obtain ⟨m, p, o, b, c, n, rfl⟩ := h2
  exact ⟨m, p, o, b, c, n, rfl⟩

theorem State.pickBlock_remaps (s : State) (channel : Nat) (but : Option Nat) : s.remaps (s.pickBlock channel but).2 := by
  have hopen (b : Nat) : s.remaps (s.freeWord.2.openBlock channel b) :=
    ⟨s.flash.map, s.flash.page, (s.freeWord.2.openBlock channel b).flash.openBlk, s.flash.blocks, s.ctr, s.freeIx + 1, rfl⟩
  unfold State.pickBlock
  dsimp only
  split
  · split
    · exact ⟨s.flash.map, s.flash.page, s.flash.openBlk, s.flash.blocks, s.ctr, s.freeIx + 1, rfl⟩
    · exact hopen _
  · exact hopen _

theorem State.mapFrame_remaps (s : State) (frame block : Nat) : s.remaps (s.mapFrame frame block) :=
  ⟨_, _, s.flash.openBlk, _, s.ctr, s.freeIx, rfl⟩

theorem State.hubCount_remaps (s : State) (cls index n : Nat) : s.remaps (s.hubCount cls index n) :=
  ⟨s.flash.map, s.flash.page, s.flash.openBlk, s.flash.blocks, (s.hubCount cls index n).ctr, s.freeIx, rfl⟩

theorem State.programFrame_remaps (s : State) (frame : Nat) : s.remaps (s.programFrame frame) :=
  ((((s.pickBlock_remaps _ none).trans (State.mapFrame_remaps _ frame _)).trans (State.hubCount_remaps _ _ _ _)).trans (State.hubCount_remaps _ _ _ _))

theorem State.programFrames_remaps (s : State) (first n : Nat) : s.remaps (s.programFrames first n) :=
  List.foldlRecOn _ _ s.remaps_refl fun _ h _ _ => h.trans (State.programFrame_remaps _ _)

/-- Besides the bytes that a flash write puts, only the places of frames, counters and free values change. -/
theorem State.flashPut_remaps (s : State) (a : Nat) (bs : List Byte) : (s.writeFlash a bs).remaps (s.flashPut a bs) := by
  obtain ⟨m, p, o, b, c, n, h⟩ := s.programFrames_remaps (a / 16384) (ceilDiv (a % 16384 + bs.length) 16384)
  exact ⟨m, p, o, b, c, n, by rw [State.flashPut, h]; rfl⟩

theorem State.flashWrite_remaps (s : State) (g : Nat) (data : List Byte) (side : Nat) :
    ((s.setFlashSide g side).writeFlash (g * 16384) data).remaps (s.flashWrite g data side) :=
  ((((State.flashPut_remaps _ _ _).trans (State.hubCount_remaps _ _ _ _)).trans (State.hubCount_remaps _ _ _ _)).trans (State.hubCount_remaps _ _ _ _))

/-- The state in which a cleaning copy is done: its bytes in flash, its pin gone, and the copy among those that wait for the commit. -/
def State.cleaned (s : State) (f g : Nat) (data side : Mem) : State :=
  { s with hbm := { s.hbm with ftab := Sparse.set {} s.hbm.ftab f (s.hbmEnt f).unpinned }
           flash := { s.flash with data := data, side := side, cleaning := s.flash.cleaning.erase (f, g), cleaned := s.flash.cleaned ++ [(f, g)] } }

/-- Write bytes of the flash sidebands. -/
def State.writeFlashSide (s : State) (a : Nat) (bs : List Byte) : State := { s with flash := { s.flash with side := Mem.write s.flash.side a bs } }

/-- The writes of a cleaning copy's end, then its pin and its lists. -/
theorem State.cleaned_of_writes (s : State) (f g : Nat) (data side : List Byte) (m p o : Sparse Nat) (b : Sparse NandBlock) (c : Counters) (n : Nat) :
    ((((s.writeFlashSide (g * 1024) side).writeFlash (g * 16384) data).withMap m p o b c n).pinHbm f false).noteCleaned f g =
      (s.cleaned f g (Mem.write s.flash.data (g * 16384) data) (Mem.write s.flash.side (g * 1024) side)).withMap m p o b c n := by
  simp only [State.noteCleaned, State.pinHbm_down, State.setHbmEnt, State.hbmEnt, State.withMap, State.writeFlash, State.writeFlashSide, State.cleaned]

theorem State.cleanDone_remaps (s : State) (f g : Nat) :
    (s.cleaned f g (Mem.write s.flash.data (g * 16384) (Mem.bytes s.hbm.data (f * 16384) 16384))
      (Mem.write s.flash.side (g * 1024) (leBytes 1024 (sbPut (s.hbmSide f) 4480 41 0)))).remaps (s.cleanDone f g) := by
  obtain ⟨m, p, o, b, c, n, h⟩ := s.flashWrite_remaps g (Mem.bytes s.hbm.data (f * 16384) 16384) (sbPut (s.hbmSide f) 4480 41 0)
  refine ⟨m, p, o, b, c, n, ?_⟩
  rw [State.cleanDone, h, ← State.cleaned_of_writes, State.setFlashSide, State.writeFlashSide]

section Cleaned

variable (s : State) (f g : Nat) (data side : Mem) (m p o : Sparse Nat) (b : Sparse NandBlock) (c : Counters) (n : Nat)

theorem State.cleaned_data : ((s.cleaned f g data side).withMap m p o b c n).flash.data = data := rfl

theorem State.cleaned_side : ((s.cleaned f g data side).withMap m p o b c n).flash.side = side := rfl

theorem State.cleaned_ftab : ((s.cleaned f g data side).withMap m p o b c n).hbm.ftab = Sparse.set {} s.hbm.ftab f (s.hbmEnt f).unpinned := rfl

theorem State.cleaned_lists : ((s.cleaned f g data side).withMap m p o b c n).flash.cleaning = s.flash.cleaning.erase (f, g) ∧
    ((s.cleaned f g data side).withMap m p o b c n).flash.cleaned = s.flash.cleaned ++ [(f, g)] := ⟨rfl, rfl⟩

end Cleaned

/-- What a cleaning copy that is done leaves as it was. -/
theorem State.cleaned_frame (s t : State) (f g : Nat) (data side : Mem) (m p o : Sparse Nat) (b : Sparse NandBlock) (c : Counters) (n : Nat)
    (ht : t = (s.cleaned f g data side).withMap m p o b c n) :
    t = { s with hbm := { s.hbm with ftab := t.hbm.ftab }, flash := { s.flash with data := t.flash.data, side := t.flash.side, map := t.flash.map, page := t.flash.page, openBlk := t.flash.openBlk, blocks := t.flash.blocks, cleaning := t.flash.cleaning, cleaned := t.flash.cleaned }, ctr := t.ctr, freeIx := t.freeIx } := by
  subst ht; simp only [State.withMap, State.cleaned]

/-- The conditions for a cleaning copy to start. -/
def State.mayClean (s : State) (f g : Nat) : Bool :=
  s.ticking && !s.sys.flashRo && s.flashFree g && decide ((s.hbmEnt f).longPins < 127) &&
    (match nextClean s.flash.queue with
      | some x => decide (x.2 = f ∧ x.1 < s.tick.num)
      | none => false)

/-- A cleaning copy in progress, in the lists of the tier. -/
def State.noteCleaning (s : State) (f g : Nat) : State :=
  { s with flash := { s.flash with queue := s.flash.queue.filter (fun x => x.2 != f), cleaning := s.flash.cleaning ++ [(f, g)] } }

/-- A cleaning copy starts. -/
def State.startClean (s : State) (f g : Nat) : State :=
  ((((s.allocFlash g (s.hbmEnt f).lot).pinHbm f true).noteCleaning f g).lotCount (frameDie f) (s.hbmEnt f).lot 16)

/-- The state in which a cleaning copy has started, with the entries of its source and of its flash frame. -/
def State.cleaning (s : State) (f g : Nat) (src dst : FrameEnt) (c : Counters) : State :=
  { s with hbm := { s.hbm with ftab := Sparse.set {} s.hbm.ftab f src }
           flash := { s.flash with ftab := Sparse.set {} s.flash.ftab g dst, queue := s.flash.queue.filter (fun x => x.2 != f)
                                   cleaning := s.flash.cleaning ++ [(f, g)] }
           ctr := c }

theorem State.cleaning_of_ops (s : State) (f g : Nat) (src dst : FrameEnt) (c : Counters) (die lot ev : Nat) :
    ((((s.setFlashEnt g dst).withCtr c).setHbmEnt f src).noteCleaning f g).lotCount die lot ev =
      s.cleaning f g src dst ((s.withCtr c).lotCount die lot ev).ctr := by
  simp only [State.lotCount, State.count, State.noteCleaning, State.setHbmEnt, State.withCtr, State.setFlashEnt, State.cleaning]

theorem State.startClean_frame (s : State) (f g : Nat) : ∃ c, s.startClean f g =
    s.cleaning f g (s.hbmEnt f).pinned { inUse := true, staged := true, lot := (s.hbmEnt f).lot } c := by
  obtain ⟨c, hc⟩ := s.allocFlash_frame g (s.hbmEnt f).lot
  rw [State.startClean, hc, State.pinHbm_up]
  exact ⟨_, s.cleaning_of_ops f g _ _ c _ _ _⟩

theorem execCleaningWrite_running {s : State} {f g : Nat} (h : (f, g) ∈ s.flash.cleaning) (b : Bool) :
    execCleaningWrite f g b s = when (s.ticking && b) s (s.cleanDone f g) := by
  rw [execCleaningWrite, if_pos (List.contains_iff_mem.mpr h)]

theorem execCleaningWrite_fresh {s : State} {f g : Nat} (h : (f, g) ∉ s.flash.cleaning) (b : Bool) :
    execCleaningWrite f g b s = when (s.mayClean f g) s (if b then (s.startClean f g).cleanDone f g else s.startClean f g) := by
  rw [execCleaningWrite, if_neg (fun hc => h (List.contains_iff_mem.mp hc))]
  rfl

/-- A cleaning copy that starts reserves its flash frame and pins its source. -/
theorem cleaningWrite_starts (s : State) (f g t0 : Nat) (ht : s.ticking = true) (hro : s.sys.flashRo = false) (hg : s.flashFree g = true)
    (hp : (s.hbmEnt f).longPins < 127) (hq : nextClean s.flash.queue = some (t0, f)) (h0 : t0 < s.tick.num) (hc : (f, g) ∉ s.flash.cleaning) :
    ∃ t, exec (.cleaningWrite f g false) s = .next t ∧
      t = { s with hbm := { s.hbm with ftab := t.hbm.ftab }, flash := { s.flash with ftab := t.flash.ftab, queue := t.flash.queue, cleaning := t.flash.cleaning }, ctr := t.ctr } ∧
      t.flash.queue = (s.flash.queue.filter fun x => x.2 != f) ∧ t.flash.cleaning = s.flash.cleaning ++ [(f, g)] ∧
      t.flashEnt g = { inUse := true, staged := true, lot := (s.hbmEnt f).lot } ∧ t.hbmEnt f = { s.hbmEnt f with longPins := (s.hbmEnt f).longPins + 1 } := by
  have hmay : s.mayClean f g = true := by simp [State.mayClean, ht, hro, hg, hp, hq, h0]
  obtain ⟨c, hstart⟩ := s.startClean_frame f g
  have he : exec (.cleaningWrite f g false) s = .next (s.startClean f g) := (execCleaningWrite_fresh hc false).trans (when_pos hmay)
  rw [hstart] at he
  exact ⟨_, he, rfl, rfl, rfl, Sparse.get_set_self _ _ _ _, Sparse.get_set_self _ _ _ _⟩

/-- A cleaning copy whose last byte is written. -/
theorem cleaningWrite_ends (s : State) (f g : Nat) (ht : s.ticking = true) (hc : (f, g) ∈ s.flash.cleaning) : ∃ t, exec (.cleaningWrite f g true) s = .next t ∧
    t = { s with hbm := { s.hbm with ftab := t.hbm.ftab }, flash := { s.flash with data := t.flash.data, side := t.flash.side, map := t.flash.map, page := t.flash.page, openBlk := t.flash.openBlk, blocks := t.flash.blocks, cleaning := t.flash.cleaning, cleaned := t.flash.cleaned }, ctr := t.ctr, freeIx := t.freeIx } ∧
    t.flash.data = Mem.write s.flash.data (g * 16384) (Mem.bytes s.hbm.data (f * 16384) 16384) ∧
    t.flash.side = Mem.write s.flash.side (g * 1024) (leBytes 1024 (sbPut (s.hbmSide f) 4480 41 0)) ∧
    t.hbm.ftab = Sparse.set {} s.hbm.ftab f { s.hbmEnt f with longPins := (s.hbmEnt f).longPins - 1 } ∧
    t.flash.cleaning = s.flash.cleaning.erase (f, g) ∧ t.flash.cleaned = s.flash.cleaned ++ [(f, g)] := by
  obtain ⟨m, p, o, b, c, n, h⟩ := s.cleanDone_remaps f g
  have he : exec (.cleaningWrite f g true) s = .next (s.cleanDone f g) :=
    (execCleaningWrite_running hc true).trans (when_pos (by rw [ht]; rfl))
  rw [h] at he
  exact ⟨_, he, s.cleaned_frame _ f g _ _ m p o b c n rfl, State.cleaned_data .., State.cleaned_side .., State.cleaned_ftab .., State.cleaned_lists ..⟩

theorem cleaningCopies : CleaningCopies := by
  refine ⟨cleaningWrite_starts, fun s f g ht hc => ⟨?_, cleaningWrite_ends s f g ht hc⟩, fun s f g b hro hc => ?_⟩
  · exact (execCleaningWrite_running hc false).trans (when_neg (Bool.and_false _))
  · exact (execCleaningWrite_fresh hc b).trans (when_neg (by simp [State.mayClean, hro]))

end Sys2Proof.Machine

open Sys2Proof.Machine

/-- Settles O49: PAGE_COPY writes its target's frame and sideband alone, and CLEANING_WRITE its flash frame alone. -/
theorem pageCopies : Obligations.PageCopies := ⟨pagesCopied, cleaningCopies⟩

end

/-! ### Live sequences -/

section

namespace Sys2Proof.Machine

/-- A live sequence is in the list, has the handle, and is not closing. -/
theorem State.seq_some {s : State} {h : W32} {q : Seq} (hq : s.seq h = some q) : q ∈ s.seqs ∧ q.handle = h ∧ q.closing = false := by
  have hp := List.find?_some hq
  simp only [Bool.and_eq_true, beq_iff_eq, Bool.not_eq_true'] at hp
  exact ⟨List.mem_of_find?_eq_some hq, hp⟩

/-- A change of the sequences that keeps handles and closing marks changes each live sequence in place. -/
theorem State.seq_of_map {s t : State} (g : Seq → Seq) (ht : t.seqs = s.seqs.map g) (hg : ∀ q, (g q).handle = q.handle ∧ (g q).closing = q.closing)
    (h : W32) : t.seq h = (s.seq h).map g := by
  have hp : ((fun q : Seq => q.handle == h && !q.closing) ∘ g) = fun q => q.handle == h && !q.closing := by
    funext q
    simp only [Function.comp_apply, (hg q).1, (hg q).2]
  rw [State.seq, ht, List.find?_map, hp]
  rfl

/-- A change of the sequence of one handle, seen by the sequence of any. -/
theorem State.seq_updSeq (s : State) (h k : W32) (f : Seq → Seq) (hf : ∀ q, (f q).handle = q.handle ∧ (f q).closing = q.closing) {q : Seq}
    (hq : s.seq k = some q) : (s.updSeq h f).seq k = some (if k = h then f q else q) := by
  obtain ⟨-, hk, hc⟩ := State.seq_some hq
  have hmap := State.seq_of_map (s := s) (t := s.updSeq h f) (fun q => if q.handle = h ∧ !q.closing then f q else q) rfl
    (fun q => by split <;> simp [hf]) k
  rw [hmap, hq, Option.map_some]
  simp [hk, hc]

theorem State.seq_updSeq_self (s : State) (h : W32) (f : Seq → Seq) (hf : ∀ q, (f q).handle = q.handle ∧ (f q).closing = q.closing) {q : Seq}
    (hq : s.seq h = some q) : (s.updSeq h f).seq h = some (f q) := by
  rw [s.seq_updSeq h h f hf hq, if_pos rfl]

end Sys2Proof.Machine

end

/-! ### Failing copies and lost pages -/

section

namespace Sys2Proof.Machine

/-- A list with one element added, once. -/
def addNew {α : Type} [BEq α] (l : List α) (x : α) : List α := if l.contains x then l else l ++ [x]

theorem mem_addNew {α : Type} [BEq α] [LawfulBEq α] (l : List α) (x : α) : x ∈ addNew l x := by
  unfold addNew
  split
  · exact List.contains_iff_mem.mp ‹_›
  · simp

theorem contains_addNew_ne {α : Type} [BEq α] [LawfulBEq α] (l : List α) {x y : α} (h : y ≠ x) : (addNew l x).contains y = l.contains y := by
  unfold addNew
  split
  · rfl
  · simp [h]

/-- The state with other suspect frames. -/
def State.withSuspect (s : State) (l : List Nat) : State := { s with hbm := { s.hbm with suspect := l } }

/-- The state with other failed copies. -/
def State.withFailed (s : State) (l : List CopyId) : State := { s with hbm := { s.hbm with failed := l } }

/-- The state with other sequences. -/
def State.withSeqs (s : State) (l : List Seq) : State := { s with seqs := l }

/-- The state with other fail records. -/
def State.withFails (s : State) (l : List (BitVec 128)) : State := { s with tick := { s.tick with fails := l } }

theorem State.markFailed_eq (s : State) (c : CopyId) : s.markFailed c = s.withFailed (addNew s.hbm.failed c) := rfl

theorem State.failAttempt_eq (s : State) (cause kind num layer : Nat) :
    s.failAttempt cause kind num layer = s.withFails (s.tick.fails ++ [failRecord s.crew.coord cause kind num layer]) := rfl

/-- A copy of a weight block that cannot be read: it is marked, and in an attempt the record says whether another copy serves. -/
theorem State.failBlock_eq (s : State) (c : CopyId) (b kind num : Nat) : s.failBlock c b kind num =
    (s.markFailed c).withFails (if s.ticking then s.tick.fails ++ [if (s.markFailed c).blockReadable b then failRecord s.crew.coord 3 kind num 0x1FF
      else failRecord s.crew.coord 4 kind num (s.layerOfBlock b)] else s.tick.fails) := by
  have ht : (s.markFailed c).ticking = s.ticking := rfl
  unfold State.failBlock
  dsimp only
  rw [ht]
  cases s.ticking with
  | false => rfl
  | true =>
    cases (s.markFailed c).blockReadable b with
    | true => rfl
    | false => rfl

/-- A sequence with the pages lost that a page list names by a frame. -/
def Seq.losing (r : Option (Bool × Nat)) (q : Seq) : Seq :=
  let vs := ((q.root.filter fun (e : Nat × W64) => decide (leafRef e.2 = r) && r.isSome).map Prod.fst).filter fun v => !(q.lostPages.contains v)
  if vs = [] then q else { q with lostPages := q.lostPages ++ vs }

theorem Seq.losing_handle (r : Option (Bool × Nat)) (q : Seq) : (q.losing r).handle = q.handle ∧ (q.losing r).closing = q.closing := by
  unfold Seq.losing
  dsimp only
  split <;> exact ⟨rfl, rfl⟩

/-- A page whose entry names the frame is lost. -/
theorem Seq.losing_names {r : Bool × Nat} {q : Seq} {v : Nat} {e : W64} (he : (v, e) ∈ q.root) (hr : leafRef e = some r) :
    v ∈ (q.losing (some r)).lostPages := by
  by_cases hl : v ∈ q.lostPages
  · unfold Seq.losing
    dsimp only
    split
    · exact hl
    · exact List.mem_append_left _ hl
  · have hv : v ∈ ((q.root.filter fun (e : Nat × W64) => decide (leafRef e.2 = some r) && (some r).isSome).map Prod.fst).filter
        fun v => !(q.lostPages.contains v) := by
      refine List.mem_filter.mpr ⟨List.mem_map.mpr ⟨(v, e), List.mem_filter.mpr ⟨he, by simp [hr]⟩, rfl⟩, by simp [hl]⟩
    unfold Seq.losing
    dsimp only
    rw [if_neg (List.ne_nil_of_mem hv)]
    exact List.mem_append_right _ hv

/-- The record of a lost page names the stack of its frame, where one does. -/
theorem State.losePage_eq (s : State) (r : Option (Bool × Nat)) (stack : Option Nat) : s.losePage r stack =
    (s.withSeqs (s.seqs.map (Seq.losing r))).withFails (s.tick.fails ++ [match stack with
      | some n => failRecord s.crew.coord 5 3 n 0x1FF
      | none => failRecord s.crew.coord 5 0 0 0x1FF]) := by
  cases stack with
  | none => rfl
  | some n => rfl

/-- Every page whose entry names the frame is lost. -/
theorem State.seq_losing {s t : State} {r : Bool × Nat} (ht : t.seqs = s.seqs.map (Seq.losing (some r))) {h : W32} {q : Seq} {v : Nat} {e : W64}
    (hq : s.seq h = some q) (he : (v, e) ∈ q.root) (hr : leafRef e = some r) : ∃ u, t.seq h = some u ∧ v ∈ u.lostPages :=
  ⟨q.losing (some r), by rw [State.seq_of_map _ ht (Seq.losing_handle _), hq]; rfl, Seq.losing_names he hr⟩

/-- Two states differ at most in the sequences and in the fail records. -/
def State.loses (s t : State) : Prop := ∃ qs fs, t = (s.withSeqs qs).withFails fs

theorem State.loses.trans {s t u : State} (h1 : s.loses t) (h2 : t.loses u) : s.loses u := by
  obtain ⟨_, _, rfl⟩ := h1
  obtain ⟨qs, fs, rfl⟩ := h2
  exact ⟨qs, fs, rfl⟩

theorem State.loseOne_loses (s : State) (h : W32) (v : Nat) : s.loses (s.loseOne h v) := by
  unfold State.loseOne
  split
  · split
    · exact ⟨s.seqs, s.tick.fails, rfl⟩
    · exact ⟨_, _, rfl⟩
  · exact ⟨s.seqs, s.tick.fails, rfl⟩

/-- A page lost is added to those lost before, of every live sequence. -/
theorem State.seq_loseOne (s : State) (h k : W32) (v : Nat) {q : Seq} (hq : s.seq k = some q) :
    ∃ u, (s.loseOne h v).seq k = some u ∧ (∀ x, x ∈ q.lostPages → x ∈ u.lostPages) ∧ (k = h → v ∈ u.lostPages) := by
  unfold State.loseOne
  cases hs : s.seq h with
  | none =>
    refine ⟨q, hq, fun _ hx => hx, fun hk => ?_⟩
    rw [hk, hs] at hq
    cases hq
  | some p =>
    dsimp only
    split
    · refine ⟨q, hq, fun _ hx => hx, fun hk => ?_⟩
      rw [hk, hs] at hq
      cases hq
      exact List.contains_iff_mem.mp ‹_›
    · have hupd := s.seq_updSeq h k (fun q => { q with lostPages := q.lostPages ++ [v] }) (fun _ => ⟨rfl, rfl⟩) hq
      refine ⟨_, hupd, fun x hx => ?_, fun hk => ?_⟩
      · split
        · exact List.mem_append_left _ hx
        · exact hx
      · rw [if_pos hk]
        exact List.mem_append_right _ (List.mem_singleton.mpr rfl)

/-- Of a list of pages, each is lost in the end. -/
theorem State.loseOnes_hasLost (ps : List (W32 × Nat × W64)) (s : State) {k : W32} {q : Seq} (hq : s.seq k = some q) :
    ∃ u, (ps.foldl (fun (s : State) x => s.loseOne x.1 x.2.1) s).seq k = some u ∧ (∀ x, x ∈ q.lostPages → x ∈ u.lostPages) ∧
      ∀ v e, (k, v, e) ∈ ps → v ∈ u.lostPages := by
  induction ps generalizing s q with
  | nil => exact ⟨q, hq, fun _ hx => hx, fun _ _ hp => absurd hp (List.not_mem_nil)⟩
  | cons p ps ih =>
    obtain ⟨u, hu, hkeep, hnew⟩ := s.seq_loseOne p.1 k p.2.1 hq
    obtain ⟨w, hw, hkeep', hrest⟩ := ih _ hu
    refine ⟨w, hw, fun x hx => hkeep' x (hkeep x hx), fun v e hp => ?_⟩
    rcases List.mem_cons.mp hp with rfl | hp
    · exact hkeep' _ (hnew rfl)
    · exact hrest v e hp

theorem State.loseOnes_loses (ps : List (W32 × Nat × W64)) (s : State) : s.loses (ps.foldl (fun (s : State) x => s.loseOne x.1 x.2.1) s) :=
  List.foldlRecOn ps _ (motive := s.loses) ⟨s.seqs, s.tick.fails, rfl⟩ fun _ h _ _ => h.trans (State.loseOne_loses _ _ _)

end Sys2Proof.Machine

end

/-! ### Errors of HBM -/

section

namespace Sys2Proof.Machine

/-- A frame that cannot be read is suspect. -/
def State.suspected (s : State) (f : Nat) : State := s.withSuspect (addNew s.hbm.suspect f)

/-- A flash copy of the frame's page can be read. -/
def State.flashServes (s : State) (f : Nat) : Bool := (s.flashCopyOf f).any fun g => !s.hbm.failed.contains (.flashFrame g)

/-- A frame of a page that cannot be read: its flash copy serves, or the page is lost. -/
def State.failPage (s : State) (f : Nat) : State :=
  if !s.ticking then s.markFailed (.hbmFrame f)
  else if (s.markFailed (.hbmFrame f)).flashServes f || (s.hbmEnt f).refcount == 0 then (s.markFailed (.hbmFrame f)).failAttempt 3 3 (frameStack f)
  else (s.markFailed (.hbmFrame f)).losePage (some (true, f)) (some (frameStack f))

theorem State.failHbm_eq (s : State) (f : Nat) : s.failHbm f =
    if userFrames ≤ f % 2 ^ 22 then (if s.ticking then (s.suspected f).failReserve f else s.suspected f)
    else match s.blockAt f with
      | some b => (s.suspected f).failBlock (.weightHbm b) b 3 (frameStack f)
      | none => (s.suspected f).failPage f := rfl

theorem State.failHbm_reserve (s : State) {f : Nat} (h : userFrames ≤ f % 2 ^ 22) :
    s.failHbm f = if s.ticking then (s.suspected f).failReserve f else s.suspected f := by
  rw [State.failHbm_eq, if_pos h]

theorem State.failHbm_block (s : State) {f b : Nat} (h : f % 2 ^ 22 < userFrames) (hb : s.blockAt f = some b) :
    s.failHbm f = (s.suspected f).failBlock (.weightHbm b) b 3 (frameStack f) := by
  rw [State.failHbm_eq, if_neg (Nat.not_le.mpr h), hb]

theorem State.failHbm_page (s : State) {f : Nat} (h : f % 2 ^ 22 < userFrames) (hb : s.blockAt f = none) :
    s.failHbm f = (s.suspected f).failPage f := by
  rw [State.failHbm_eq, if_neg (Nat.not_le.mpr h), hb]

/-- Marking an HBM frame leaves its flash copy as it was. -/
theorem State.flashServes_markFailed (s : State) (f : Nat) : (s.markFailed (.hbmFrame f)).flashServes f = s.flashServes f := by
  have hc : (s.markFailed (.hbmFrame f)).flashCopyOf f = s.flashCopyOf f := rfl
  unfold State.flashServes
  rw [hc, State.markFailed_eq]
  congr 1
  funext g
  rw [State.withFailed, contains_addNew_ne _ (by simp)]

theorem State.leak_frame (s : State) (es : List W64) : ∃ lk c, s.leak es = { s with hbm := { s.hbm with leaked := lk }, ctr := c } := by
  unfold State.leak
  dsimp only
  split
  · exact ⟨s.hbm.leaked, s.ctr, rfl⟩
  · exact ⟨_, _, rfl⟩

/-- The state without the nodes at a frame of the reserve: tree nodes are gone, page-list nodes are marked, in the checkpoint too. -/
def State.spoiled (s : State) (f : Nat) : State :=
  { s with
    nodes := s.nodes.filter fun n => n.frame != f
    seqs := s.seqs.map (Seq.spoil f)
    chk := { s.chk with nodes := s.chk.nodes.filter (fun n => n.frame != f), seqs := s.chk.seqs.map (Seq.spoil f) } }

/-- The pages that a page-list node at the frame takes with it, of every live sequence. -/
def State.pagesBelow (s : State) (f : Nat) : List (W32 × Nat × W64) :=
  (s.seqs.filter fun q => !q.closing).flatMap fun q => (q.root.filter fun e => q.passes f e.1 (q.levels - 1) q.curRoot).map fun e => (q.handle, e)

theorem State.failReserve_eq (s : State) (f : Nat) : s.failReserve f =
    (s.pagesBelow f).foldl (fun (s : State) x => s.loseOne x.1 x.2.1)
      ((s.spoiled f).leak (((s.nodes.filter fun n => n.frame == f).flatMap fun n => n.frames.map Prod.snd) ++ (s.pagesBelow f).map fun x => x.2.2)) := rfl

theorem Seq.spoil_handle (f : Nat) (q : Seq) : (q.spoil f).handle = q.handle ∧ (q.spoil f).closing = q.closing := by
  unfold Seq.spoil
  split <;> exact ⟨rfl, rfl⟩

/-- A page below the node is among those that go. -/
theorem State.mem_pagesBelow {s : State} {f : Nat} {h : W32} {q : Seq} {v : Nat} {e : W64} (hq : s.seq h = some q) (he : (v, e) ∈ q.root)
    (hp : q.passes f v (q.levels - 1) q.curRoot = true) : (h, v, e) ∈ s.pagesBelow f := by
  obtain ⟨hmem, rfl, hc⟩ := State.seq_some hq
  exact List.mem_flatMap.mpr ⟨q, List.mem_filter.mpr ⟨hmem, by simp [hc]⟩, List.mem_map.mpr ⟨(v, e), List.mem_filter.mpr ⟨he, hp⟩, rfl⟩⟩

/-- What the loss of a frame of the reserve leaves: the nodes at it are gone, counted leaks, lost pages and records are added. -/
theorem State.failReserve_frame (s : State) (f : Nat) : ∃ qs fs lk c, s.failReserve f =
    { s with hbm := { s.hbm with leaked := lk }, nodes := (s.spoiled f).nodes, seqs := qs, chk := (s.spoiled f).chk
             tick := { s.tick with fails := fs }, ctr := c } := by
  obtain ⟨lk, c, hleak⟩ := (s.spoiled f).leak_frame
    (((s.nodes.filter fun n => n.frame == f).flatMap fun n => n.frames.map Prod.snd) ++ (s.pagesBelow f).map fun x => x.2.2)
  obtain ⟨qs, fs, hlose⟩ := State.loseOnes_loses (s.pagesBelow f) { s.spoiled f with hbm := { (s.spoiled f).hbm with leaked := lk }, ctr := c }
  exact ⟨qs, fs, lk, c, by rw [State.failReserve_eq, hleak, hlose, State.withFails, State.withSeqs, State.spoiled]⟩

/-- Every page below a page-list node that cannot be read is lost. -/
theorem State.failReserve_loses (s : State) {f : Nat} {h : W32} {q : Seq} {v : Nat} {e : W64} (hq : s.seq h = some q) (he : (v, e) ∈ q.root)
    (hp : q.passes f v (q.levels - 1) q.curRoot = true) : ∃ u, (s.failReserve f).seq h = some u ∧ v ∈ u.lostPages := by
  obtain ⟨lk, c, hleak⟩ := (s.spoiled f).leak_frame
    (((s.nodes.filter fun n => n.frame == f).flatMap fun n => n.frames.map Prod.snd) ++ (s.pagesBelow f).map fun x => x.2.2)
  have hspoil : ((s.spoiled f).leak (((s.nodes.filter fun n => n.frame == f).flatMap fun n => n.frames.map Prod.snd) ++
      (s.pagesBelow f).map fun x => x.2.2)).seq h = some (q.spoil f) := by
    rw [State.seq_of_map (s := s) (Seq.spoil f) (by rw [hleak]; rfl) (Seq.spoil_handle f), hq]
    rfl
  obtain ⟨u, hu, -, hlost⟩ := State.loseOnes_hasLost (s.pagesBelow f) _ hspoil
  exact ⟨u, by rw [State.failReserve_eq]; exact hu, hlost v e (State.mem_pagesBelow hq he hp)⟩

/-- HBM_UNCORRECTABLE of a frame that the module has, with the main domain on, counts the error and fails the frame. -/
theorem exec_hbmUncorrectable {s : State} {f : Nat} (hok : s.hbmFrameOk f = true) (hon : s.pwr.main = .on) :
    ∃ c, exec (.hbmUncorrectable f) s = .next ((s.withCtr c).failHbm f) := by
  refine ⟨(s.stackCount (frameStack f) 5).ctr, ?_⟩
  change execHbmUncorrectable f s = _
  rw [execHbmUncorrectable, needPart_pos hok, when_pos (by rw [hon]; rfl)]
  rfl

/-- Outside an attempt an uncorrectable error marks the frame and its copy. -/
theorem hbmUncorrectable_idle (s : State) (f : Nat) (hok : s.hbmFrameOk f = true) (hon : s.pwr.main = .on) (ht : s.ticking = false) :
    ∃ t, exec (.hbmUncorrectable f) s = .next t ∧ t = { s with hbm := { s.hbm with failed := t.hbm.failed, suspect := t.hbm.suspect }, ctr := t.ctr } ∧
      f ∈ t.hbm.suspect ∧ (userFrames ≤ f % 2 ^ 22 → t.hbm.failed = s.hbm.failed) ∧
      (f % 2 ^ 22 < userFrames → (∀ b, s.blockAt f = some b → CopyId.weightHbm b ∈ t.hbm.failed) ∧ (s.blockAt f = none → CopyId.hbmFrame f ∈ t.hbm.failed)) := by
  obtain ⟨c, he⟩ := exec_hbmUncorrectable hok hon
  have ht1 : (s.withCtr c).ticking = false := ht
  have ht2 : ((s.withCtr c).suspected f).ticking = false := ht
  refine ⟨_, he, ?_⟩
  rcases Nat.lt_or_ge (f % 2 ^ 22) userFrames with hlt | hge
  · cases hb : s.blockAt f with
    | some b =>
      rw [State.failHbm_block (s.withCtr c) hlt hb, State.failBlock_eq, ht2]
      refine ⟨?_, mem_addNew _ _, fun h => absurd hlt (Nat.not_lt.mpr h), fun _ => ⟨fun b' hb' => ?_, fun h => by cases h⟩⟩
      · simp only [State.withFails, State.markFailed_eq, State.withFailed, State.suspected, State.withSuspect, State.withCtr, Bool.false_eq_true, if_false]
      · cases hb'
        exact mem_addNew _ _
    | none =>
      rw [State.failHbm_page (s.withCtr c) hlt hb, State.failPage, ht2]
      refine ⟨?_, mem_addNew _ _, fun h => absurd hlt (Nat.not_lt.mpr h), fun _ => ⟨fun b' hb' => by (cases hb'), fun _ => mem_addNew _ _⟩⟩
      simp only [State.markFailed_eq, State.withFailed, State.suspected, State.withSuspect, State.withCtr, Bool.not_false, if_true]
  · rw [State.failHbm_reserve (s.withCtr c) hge, ht1]
    exact ⟨rfl, mem_addNew _ _, fun _ => rfl, fun h => absurd h (Nat.not_lt.mpr hge)⟩

/-- The state with other failed copies and suspect frames, sequences, fail records and counters. -/
def State.withErrors (s : State) (failed : List CopyId) (suspect : List Nat) (qs : List Seq) (fs : List (BitVec 128)) (c : Counters) : State :=
  { s with hbm := { s.hbm with failed := failed, suspect := suspect }, seqs := qs, tick := { s.tick with fails := fs }, ctr := c }

/-- In an attempt, what an uncorrectable error may change. -/
def State.hbmErrorFrame (s t : State) : Prop :=
  t = { s with hbm := { s.hbm with failed := t.hbm.failed, suspect := t.hbm.suspect, leaked := t.hbm.leaked }, nodes := t.nodes, seqs := t.seqs, chk := { s.chk with nodes := t.chk.nodes, seqs := t.chk.seqs }, tick := { s.tick with fails := t.tick.fails }, ctr := t.ctr }

/-- An uncorrectable frame of the reserve: its nodes go, and every page below them is lost. -/
theorem failHbm_reserve_ticking (s : State) (c : Counters) (f : Nat) (ht : s.ticking = true) (hr : userFrames ≤ f % 2 ^ 22) :
    s.hbmErrorFrame ((s.withCtr c).failHbm f) ∧ f ∈ ((s.withCtr c).failHbm f).hbm.suspect ∧ ((s.withCtr c).failHbm f).hbm.failed = s.hbm.failed ∧
      ((s.withCtr c).failHbm f).nodes = (s.nodes.filter fun n => n.frame != f) ∧
      ∀ h q v e, s.seq h = some q → (v, e) ∈ q.root → q.passes f v (q.levels - 1) q.curRoot = true →
        ∃ u, ((s.withCtr c).failHbm f).seq h = some u ∧ v ∈ u.lostPages := by
  have ht1 : (s.withCtr c).ticking = true := ht
  rw [State.failHbm_reserve (s.withCtr c) hr, ht1, if_pos rfl]
  refine ⟨?_, ?_, ?_, ?_, fun h q v e hq he hp => State.failReserve_loses ((s.withCtr c).suspected f) hq he hp⟩ <;>
    obtain ⟨qs, fs, lk, c', hfr⟩ := ((s.withCtr c).suspected f).failReserve_frame f <;> rw [hfr]
  · rw [State.hbmErrorFrame]
    simp only [State.spoiled, State.suspected, State.withSuspect, State.withCtr]
  · exact mem_addNew _ _
  · rfl
  · rfl

theorem State.blockReadable_withFails (s : State) (l : List (BitVec 128)) (b : Nat) : (s.withFails l).blockReadable b = s.blockReadable b := rfl

theorem State.layerOfBlock_suspected (s : State) (c : Counters) (f b : Nat) : ((s.withCtr c).suspected f).layerOfBlock b = s.layerOfBlock b := rfl

/-- An uncorrectable frame of a weight block: the record says whether another copy serves. -/
theorem failHbm_block_ticking (s : State) (c : Counters) (f b : Nat) (ht : s.ticking = true) (hu : f % 2 ^ 22 < userFrames) (hb : s.blockAt f = some b) :
    let t := (s.withCtr c).failHbm f
    s.hbmErrorFrame t ∧ f ∈ t.hbm.suspect ∧ (t.nodes = s.nodes ∧ t.chk = s.chk ∧ t.hbm.leaked = s.hbm.leaked) ∧ CopyId.weightHbm b ∈ t.hbm.failed ∧ t.seqs = s.seqs ∧
      t.tick.fails = s.tick.fails ++ [if t.blockReadable b then failRecord s.crew.coord 3 3 (f / 2 ^ 22) 0x1FF else failRecord s.crew.coord 4 3 (f / 2 ^ 22) (s.layerOfBlock b)] := by
  have ht2 : ((s.withCtr c).suspected f).ticking = true := ht
  intro t
  have hfail : t = ((s.withCtr c).suspected f).failBlock (.weightHbm b) b 3 (frameStack f) := State.failHbm_block (s.withCtr c) hu hb
  rw [State.failBlock_eq, ht2, if_pos rfl] at hfail
  have hread : t.blockReadable b = (((s.withCtr c).suspected f).markFailed (.weightHbm b)).blockReadable b := by
    rw [hfail, State.blockReadable_withFails]
  have heq : t = s.withErrors (addNew s.hbm.failed (.weightHbm b)) (addNew s.hbm.suspect f) s.seqs (s.tick.fails ++
      [if (((s.withCtr c).suspected f).markFailed (.weightHbm b)).blockReadable b then failRecord s.crew.coord 3 3 (f / 2 ^ 22) 0x1FF
        else failRecord s.crew.coord 4 3 (f / 2 ^ 22) (s.layerOfBlock b)]) c := by
    rw [hfail]
    generalize (((s.withCtr c).suspected f).markFailed (.weightHbm b)).blockReadable b = r
    rw [State.layerOfBlock_suspected, State.markFailed_eq]
    simp only [State.withFails, State.withFailed, State.suspected, State.withSuspect, State.withCtr, State.withErrors, frameStack]
  rw [hread, heq]
  exact ⟨rfl, mem_addNew _ _, ⟨rfl, rfl, rfl⟩, mem_addNew _ _, rfl, rfl⟩

/-- An uncorrectable frame of a page: its flash copy serves, or the page is lost in every list that names it. -/
theorem failHbm_page_ticking (s : State) (c : Counters) (f : Nat) (ht : s.ticking = true) (hu : f % 2 ^ 22 < userFrames) (hb : s.blockAt f = none) :
    let t := (s.withCtr c).failHbm f
    s.hbmErrorFrame t ∧ f ∈ t.hbm.suspect ∧ (t.nodes = s.nodes ∧ t.chk = s.chk ∧ t.hbm.leaked = s.hbm.leaked) ∧ CopyId.hbmFrame f ∈ t.hbm.failed ∧
      (s.flashServes f = true ∨ (s.hbmEnt f).refcount = 0 → t.seqs = s.seqs ∧ t.tick.fails = s.tick.fails ++ [failRecord s.crew.coord 3 3 (f / 2 ^ 22) 0x1FF]) ∧
      (s.flashServes f = false → (s.hbmEnt f).refcount ≠ 0 → t.tick.fails = s.tick.fails ++ [failRecord s.crew.coord 5 3 (f / 2 ^ 22) 0x1FF] ∧
        ∀ h q v e, s.seq h = some q → (v, e) ∈ q.root → leafRef e = some (true, f) → ∃ u, t.seq h = some u ∧ v ∈ u.lostPages) := by
  have ht2 : ((s.withCtr c).suspected f).ticking = true := ht
  have hserve : (((s.withCtr c).suspected f).markFailed (.hbmFrame f)).flashServes f = s.flashServes f := State.flashServes_markFailed _ _
  have href : (((s.withCtr c).suspected f).hbmEnt f).refcount = (s.hbmEnt f).refcount := rfl
  intro t
  have hfail : t = ((s.withCtr c).suspected f).failPage f := State.failHbm_page (s.withCtr c) hu hb
  rw [State.failPage, ht2, hserve, href, if_neg (by decide)] at hfail
  by_cases hs : s.flashServes f = true ∨ (s.hbmEnt f).refcount = 0
  · have heq : t = s.withErrors (addNew s.hbm.failed (.hbmFrame f)) (addNew s.hbm.suspect f) s.seqs
        (s.tick.fails ++ [failRecord s.crew.coord 3 3 (f / 2 ^ 22) 0x1FF]) c := by
      rw [hfail, if_pos (by simpa using hs), State.failAttempt_eq]
      simp only [State.withFails, State.markFailed_eq, State.withFailed, State.suspected, State.withSuspect, State.withCtr, State.withErrors, frameStack]
    rw [heq]
    exact ⟨rfl, mem_addNew _ _, ⟨rfl, rfl, rfl⟩, mem_addNew _ _, fun _ => ⟨rfl, rfl⟩, fun h1 h2 => absurd hs (by simp [h1, h2])⟩
  · have heq : t = s.withErrors (addNew s.hbm.failed (.hbmFrame f)) (addNew s.hbm.suspect f) (s.seqs.map (Seq.losing (some (true, f))))
        (s.tick.fails ++ [failRecord s.crew.coord 5 3 (f / 2 ^ 22) 0x1FF]) c := by
      rw [hfail, if_neg (by simpa using hs), State.losePage_eq]
      simp only [State.withFails, State.withSeqs, State.markFailed_eq, State.withFailed, State.suspected, State.withSuspect, State.withCtr,
        State.withErrors, frameStack]
    rw [heq]
    exact ⟨rfl, mem_addNew _ _, ⟨rfl, rfl, rfl⟩, mem_addNew _ _, fun h => absurd h hs,
      fun _ _ => ⟨rfl, fun h q v e hq he hr => State.seq_losing rfl hq he hr⟩⟩

/-- In an attempt an uncorrectable error also fails the attempt, with a record that names the stack. -/
theorem hbmUncorrectable_ticking (s : State) (f : Nat) (hok : s.hbmFrameOk f = true) (hon : s.pwr.main = .on) (ht : s.ticking = true) :
    ∃ t, exec (.hbmUncorrectable f) s = .next t ∧ s.hbmErrorFrame t ∧ f ∈ t.hbm.suspect ∧
      (userFrames ≤ f % 2 ^ 22 → t.hbm.failed = s.hbm.failed ∧ t.nodes = (s.nodes.filter fun n => n.frame != f) ∧
        ∀ h q v e, s.seq h = some q → (v, e) ∈ q.root → q.passes f v (q.levels - 1) q.curRoot = true → ∃ u, t.seq h = some u ∧ v ∈ u.lostPages) ∧
      (f % 2 ^ 22 < userFrames → t.nodes = s.nodes ∧ t.chk = s.chk ∧ t.hbm.leaked = s.hbm.leaked ∧
        (∀ b, s.blockAt f = some b → CopyId.weightHbm b ∈ t.hbm.failed ∧ t.seqs = s.seqs ∧
          t.tick.fails = s.tick.fails ++ [if t.blockReadable b then failRecord s.crew.coord 3 3 (f / 2 ^ 22) 0x1FF else failRecord s.crew.coord 4 3 (f / 2 ^ 22) (s.layerOfBlock b)]) ∧
        (s.blockAt f = none → CopyId.hbmFrame f ∈ t.hbm.failed ∧
          (s.flashServes f = true ∨ (s.hbmEnt f).refcount = 0 → t.seqs = s.seqs ∧ t.tick.fails = s.tick.fails ++ [failRecord s.crew.coord 3 3 (f / 2 ^ 22) 0x1FF]) ∧
          (s.flashServes f = false → (s.hbmEnt f).refcount ≠ 0 → t.tick.fails = s.tick.fails ++ [failRecord s.crew.coord 5 3 (f / 2 ^ 22) 0x1FF] ∧
            ∀ h q v e, s.seq h = some q → (v, e) ∈ q.root → leafRef e = some (true, f) → ∃ u, t.seq h = some u ∧ v ∈ u.lostPages))) := by
  obtain ⟨c, he⟩ := exec_hbmUncorrectable hok hon
  refine ⟨_, he, ?_⟩
  rcases Nat.lt_or_ge (f % 2 ^ 22) userFrames with hlt | hge
  · cases hb : s.blockAt f with
    | some b =>
      obtain ⟨hfr, hsus, ⟨hn, hc, hl⟩, hfail, hseq, hrec⟩ := failHbm_block_ticking s c f b ht hlt hb
      refine ⟨hfr, hsus, fun h => absurd hlt (Nat.not_lt.mpr h), fun _ => ⟨hn, hc, hl, fun b' hb' => ?_, fun h => by cases h⟩⟩
      cases hb'
      exact ⟨hfail, hseq, hrec⟩
    | none =>
      obtain ⟨hfr, hsus, ⟨hn, hc, hl⟩, hfail, hkeep, hlose⟩ := failHbm_page_ticking s c f ht hlt hb
      exact ⟨hfr, hsus, fun h => absurd hlt (Nat.not_lt.mpr h), fun _ => ⟨hn, hc, hl, fun b' hb' => by (cases hb'), fun _ => ⟨hfail, hkeep, hlose⟩⟩⟩
  · obtain ⟨hfr, hsus, hfail, hn, hlose⟩ := failHbm_reserve_ticking s c f ht hge
    exact ⟨hfr, hsus, fun _ => ⟨hfail, hn, hlose⟩, fun h => absurd h (Nat.not_lt.mpr hge)⟩

end Sys2Proof.Machine

end

/-! ### Scrub and refresh -/

section

namespace Sys2Proof.Machine

/-- The state with the scrubs that corrected errors, suspect frames and counters. -/
def State.withScrub (s : State) (seen : Sparse Nat) (suspect : List Nat) (c : Counters) : State :=
  { s with hbm := { s.hbm with scrubSeen := seen, suspect := suspect }, ctr := c }

/-- Suspect frames once a scrub of the frame has corrected errors for the `n`-th time. -/
def State.scrubSuspect (s : State) (f n : Nat) : List Nat :=
  if 2 ≤ n ∧ !(s.hbm.suspect.contains f) ∧ !(s.hbm.retired.contains f) then s.hbm.suspect ++ [f] else s.hbm.suspect

/-- A frame corrected twice is suspect unless it is retired. -/
theorem State.scrubSuspect_twice (s : State) (f : Nat) {n : Nat} (hn : 2 ≤ n) : f ∈ s.scrubSuspect f n ∨ f ∈ s.hbm.retired := by
  unfold State.scrubSuspect
  by_cases hr : f ∈ s.hbm.retired
  · exact .inr hr
  · left
    split
    · simp
    · by_contra hs
      have : f ∉ s.hbm.suspect := hs
      simp_all

theorem State.scrubSuspect_retired (s : State) {f : Nat} (n : Nat) (hr : f ∈ s.hbm.retired) : s.scrubSuspect f n = s.hbm.suspect :=
  if_neg fun h => by simp [hr] at h

theorem execScrub_clean {s : State} {f : Nat} (hok : s.hbmFrameOk f = true) (hon : s.pwr.main = .on) :
    execScrub f false s = .next (s.withCtr (s.stackCount (frameStack f) 6).ctr) := by
  rw [execScrub, needPart_pos hok, when_pos (by rw [hon]; rfl)]; rfl

theorem execScrub_corrected {s : State} {f : Nat} (hok : s.hbmFrameOk f = true) (hon : s.pwr.main = .on) : ∃ c, execScrub f true s =
    .next (s.withScrub (Sparse.set 0 s.hbm.scrubSeen f (Sparse.get 0 s.hbm.scrubSeen f + 1)) (s.scrubSuspect f (Sparse.get 0 s.hbm.scrubSeen f + 1)) c) := by
  refine ⟨((s.stackCount (frameStack f) 6).stackCount (frameStack f) 4).ctr, ?_⟩
  rw [execScrub, needPart_pos hok, when_pos (by rw [hon]; rfl)]
  simp only [Bool.not_true, Bool.false_eq_true, if_false, State.withScrub, State.scrubSuspect, State.stackCount, State.count]
  rfl

theorem scrub_effect (s : State) (f : Nat) (b : Bool) (hok : s.hbmFrameOk f = true) (hon : s.pwr.main = .on) : ∃ t, exec (.scrub f b) s = .next t ∧
    t = { s with hbm := { s.hbm with scrubSeen := t.hbm.scrubSeen, suspect := t.hbm.suspect }, ctr := t.ctr } ∧
    (b = false → t.hbm = s.hbm) ∧ (b = true → Sparse.get 0 t.hbm.scrubSeen f = Sparse.get 0 s.hbm.scrubSeen f + 1 ∧
      (1 ≤ Sparse.get 0 s.hbm.scrubSeen f → f ∈ t.hbm.suspect ∨ f ∈ s.hbm.retired) ∧ (f ∈ s.hbm.retired → t.hbm.suspect = s.hbm.suspect)) := by
  cases b with
  | false => exact ⟨_, execScrub_clean hok hon, rfl, fun _ => rfl, fun h => by cases h⟩
  | true =>
    obtain ⟨c, he⟩ := execScrub_corrected hok hon
    exact ⟨_, he, rfl, fun h => by (cases h), fun _ => ⟨Sparse.get_set_self _ _ _ _, fun h1 => s.scrubSuspect_twice f (Nat.succ_le_succ h1),
      s.scrubSuspect_retired _⟩⟩

/-- The state with other activation and refresh counts of the rows. -/
def State.withRows (s : State) (act done : Sparse Nat) (c : Counters) : State :=
  { s with hbm := { s.hbm with rowAct := act, refreshed := done }, ctr := c }

theorem State.refreshRow_eq (s : State) (stack row ev : Nat) : s.refreshRow stack row ev =
    s.withRows (Sparse.set 0 s.hbm.rowAct (stack * 2 ^ 32 + row) 0) (Sparse.upd 0 s.hbm.refreshed (stack * 2 ^ 32 + row) (· + 1))
      (s.stackCount stack ev).ctr := by
  simp only [State.refreshRow, State.withRows, State.stackCount, State.count]

theorem refresh_effect (s : State) (stack row : Nat) (hst : s.hasStack stack = true) (hon : s.pwr.main = .on) :
    ∃ t u, exec (.refresh stack row) s = .next t ∧ exec (.readDisturbRefresh stack row) s = .next u ∧
    t = { s with hbm := { s.hbm with rowAct := t.hbm.rowAct, refreshed := t.hbm.refreshed }, ctr := t.ctr } ∧ u = { t with ctr := u.ctr } ∧
    t.hbm.rowAct = Sparse.set 0 s.hbm.rowAct (stack * 2 ^ 32 + row) 0 ∧
    Sparse.get 0 t.hbm.refreshed (stack * 2 ^ 32 + row) = Sparse.get 0 s.hbm.refreshed (stack * 2 ^ 32 + row) + 1 := by
  have hpow : (s.pwr.main == .on) = true := by rw [hon]; rfl
  have h1 : execRefresh stack row s = .next (s.refreshRow stack row 2) := (needPart_pos hst).trans (when_pos hpow)
  have h2 : execReadDisturbRefresh stack row s = .next (s.refreshRow stack row 3) := (needPart_pos hst).trans (when_pos hpow)
  rw [State.refreshRow_eq] at h1 h2
  exact ⟨_, _, h1, h2, rfl, rfl, rfl, Sparse.get_set_self _ _ _ _⟩

theorem hbmEvents : HbmEvents := by
  refine ⟨fun s f hok hon => ⟨hbmUncorrectable_idle s f hok hon, hbmUncorrectable_ticking s f hok hon⟩, scrub_effect, refresh_effect,
    fun s f stack row => ⟨fun h => ⟨needPart_neg h, fun _ => needPart_neg h⟩, fun h => ⟨needPart_neg h, needPart_neg h⟩⟩⟩

end Sys2Proof.Machine

end

/-! ### Flash reads and SRAM -/

section

namespace Sys2Proof.Machine

/-- The blocks once a flash frame has been read: its block counts the read and is marked where hard decoding failed. -/
def State.blocksAfterRead (s : State) (f : Nat) (ok : Bool) : Sparse NandBlock :=
  match s.blockOf f with
  | some b => Sparse.upd {} s.flash.blocks b fun x => { x with reads := x.reads + 1, soft := x.soft || !ok }
  | none => s.flash.blocks

/-- The channel that a read of the flash frame uses. -/
def State.readChannel (s : State) (f : Nat) : Nat := ((s.blockOf f).map (· / 65536)).getD (s.flashChannel f)

/-- The state with other flash blocks and counters. -/
def State.withBlocks (s : State) (bs : Sparse NandBlock) (c : Counters) : State := { s with flash := { s.flash with blocks := bs }, ctr := c }

/-- The state with other flash blocks, failed copies, sequences, fail records and counters. -/
def State.withReadError (s : State) (bs : Sparse NandBlock) (failed : List CopyId) (qs : List Seq) (fs : List (BitVec 128)) (c : Counters) : State :=
  { s with flash := { s.flash with blocks := bs }, hbm := { s.hbm with failed := failed }, seqs := qs, tick := { s.tick with fails := fs }, ctr := c }

/-- The read of a frame in a block counts at the block. -/
def State.readOnce (s : State) (b : Option Nat) (ok : Bool) : State :=
  match b with
  | some b => s.updBlock b fun x => { x with reads := x.reads + 1, soft := x.soft || !ok }
  | none => s

theorem State.readOnce_eq (s : State) (f : Nat) (ok : Bool) (c : Counters) :
    (s.withCtr c).readOnce (s.blockOf f) ok = s.withBlocks (s.blocksAfterRead f ok) c := by
  unfold State.readOnce State.blocksAfterRead
  cases s.blockOf f <;> rfl

/-- What follows a read of a frame: soft retries, or the loss of the frame. -/
def State.retryRead (s : State) (f ch : Nat) (ok : Bool) (retry : Option Nat) : State :=
  if ok then s
  else match retry with
    | some n => if 1 ≤ n ∧ n ≤ 4 then (s.hubCount 3 (ch * 32 + 5)).hubCount 3 (ch * 32 + 5 + n) else s.hubCount 3 (ch * 32 + 5)
    | none => ((s.hubCount 3 (ch * 32 + 5)).hubCount 3 (ch * 32 + 10)).failFlash f ch

theorem execFlashRead_eq (s : State) (f : Nat) (ok : Bool) (retry : Option Nat) : execFlashRead f ok retry s =
    needPart (flashFrameOk f) "flash frame" (when s.pwr.standby s
      ((((s.hubCount 3 (s.readChannel f * 32)).hubCount 3 (s.readChannel f * 32 + 1) 16384).readOnce (s.blockOf f) ok).retryRead f (s.readChannel f) ok retry)) := rfl

/-- A read counts at its block and in the counters; one that no retry decodes fails the frame. -/
theorem exec_flashRead {s : State} {f : Nat} (hok : flashFrameOk f = true) (hon : s.pwr.standby = true) (ok : Bool) (retry : Option Nat) :
    ∃ c, exec (.flashRead f ok retry) s = .next (if ok = true ∨ retry ≠ none then s.withBlocks (s.blocksAfterRead f ok) c
      else (s.withBlocks (s.blocksAfterRead f ok) c).failFlash f (s.readChannel f)) := by
  obtain ⟨c0, hc0⟩ : ∃ c, (s.hubCount 3 (s.readChannel f * 32)).hubCount 3 (s.readChannel f * 32 + 1) 16384 = s.withCtr c := ⟨_, rfl⟩
  change ∃ c, execFlashRead f ok retry s = _
  rw [execFlashRead_eq, needPart_pos hok, when_pos hon, hc0, State.readOnce_eq]
  unfold State.retryRead
  generalize s.blocksAfterRead f ok = bs
  cases ok with
  | true => exact ⟨c0, by simp⟩
  | false =>
    cases retry with
    | none => exact ⟨(((s.withBlocks bs c0).hubCount 3 (s.readChannel f * 32 + 5)).hubCount 3 (s.readChannel f * 32 + 10)).ctr, rfl⟩
    | some n =>
      by_cases hn : 1 ≤ n ∧ n ≤ 4
      · refine ⟨(((s.withBlocks bs c0).hubCount 3 (s.readChannel f * 32 + 5)).hubCount 3 (s.readChannel f * 32 + 5 + n)).ctr, ?_⟩
        rw [if_neg (by decide), if_pos (.inr (by simp))]
        exact congrArg _ (if_pos hn)
      · refine ⟨((s.withBlocks bs c0).hubCount 3 (s.readChannel f * 32 + 5)).ctr, ?_⟩
        rw [if_neg (by decide), if_pos (.inr (by simp))]
        exact congrArg _ (if_neg hn)

/-- What an uncorrectable flash frame may change. -/
def State.readErrorFrame (s : State) (bs : Sparse NandBlock) (t : State) : Prop :=
  t = { s with flash := { s.flash with blocks := bs }, hbm := { s.hbm with failed := t.hbm.failed }, seqs := t.seqs
               tick := { s.tick with fails := t.tick.fails }, ctr := t.ctr }

theorem State.withReadError_frame (s : State) (bs : Sparse NandBlock) (failed : List CopyId) (qs : List Seq) (fs : List (BitVec 128)) (c : Counters) :
    s.readErrorFrame bs (s.withReadError bs failed qs fs c) := rfl

/-- The records that the failed copy of a weight block adds to an attempt. -/
def State.blockFails (s : State) (c : CopyId) (b ch : Nat) : List (BitVec 128) :=
  if s.ticking then s.tick.fails ++ [if (s.markFailed c).blockReadable b then failRecord s.crew.coord 3 5 ch 0x1FF
    else failRecord s.crew.coord 4 5 ch (s.layerOfBlock b)] else s.tick.fails

theorem State.failBlock_withBlocks (s : State) (bs : Sparse NandBlock) (c : Counters) (x : CopyId) (b ch : Nat) :
    (s.withBlocks bs c).failBlock x b 5 ch = s.withReadError bs (addNew s.hbm.failed x) s.seqs ((s.withBlocks bs c).blockFails x b ch) c := by
  have hb : ((s.withBlocks bs c).markFailed x).withFails (if (s.withBlocks bs c).ticking then (s.withBlocks bs c).tick.fails ++
      [if ((s.withBlocks bs c).markFailed x).blockReadable b then failRecord (s.withBlocks bs c).crew.coord 3 5 ch 0x1FF
        else failRecord (s.withBlocks bs c).crew.coord 4 5 ch ((s.withBlocks bs c).layerOfBlock b)] else (s.withBlocks bs c).tick.fails) =
      ((s.withBlocks bs c).markFailed x).withFails ((s.withBlocks bs c).blockFails x b ch) := rfl
  rw [State.failBlock_eq, hb]
  generalize (s.withBlocks bs c).blockFails x b ch = fs
  simp only [State.withFails, State.markFailed_eq, State.withFailed, State.withBlocks, State.withReadError]

/-- A flash frame of weights that cannot be read: its copy is marked; outside an attempt nothing else. -/
theorem failWeight_frame (s : State) (bs : Sparse NandBlock) (c : Counters) (i ch : Nat) :
    ∃ fs x, (s.withBlocks bs c).failWeight i ch = s.withReadError bs (addNew s.hbm.failed x) s.seqs fs c ∧ (s.ticking = false → fs = s.tick.fails) ∧
      (∀ b, i = b → b < weightFrames s.img.model → x = .weightFlash b ∧ fs = (s.withBlocks bs c).blockFails x b ch) ∧
      ∀ b, i = weightFrames s.img.model + b → b < weightFrames s.img.model → x = if s.crew.members.length ≤ 1 then .weightMirror b else .heldMirror b := by
  have hfails : ∀ x b, s.ticking = false → (s.withBlocks bs c).blockFails x b ch = s.tick.fails := fun x b h => if_neg (by rw [show (s.withBlocks bs c).ticking = false from h]; decide)
  have hn : weightFrames (s.withBlocks bs c).img.model = weightFrames s.img.model := rfl
  have hm : (s.withBlocks bs c).crew.members = s.crew.members := rfl
  rw [State.failWeight, hn, hm]
  dsimp only
  split
  · rename_i hlt
    refine ⟨_, _, State.failBlock_withBlocks s bs c _ _ ch, hfails _ _, fun b hb h => ?_, fun b hb h => by omega⟩
    rw [hb, Nat.mod_eq_of_lt h]
    exact ⟨rfl, rfl⟩
  · rename_i hge
    have hmir : ∀ b, i = weightFrames s.img.model + b → b < weightFrames s.img.model → i % weightFrames s.img.model = b := fun b hb h => by
      rw [hb, Nat.add_mod_left, Nat.mod_eq_of_lt h]
    split
    · exact ⟨_, _, State.failBlock_withBlocks s bs c _ _ ch, hfails _ _, fun b hb h => by omega, fun b hb h => by rw [hmir b hb h]⟩
    · refine ⟨if s.ticking then s.tick.fails ++ [failRecord s.crew.coord 3 5 ch 0x1FF] else s.tick.fails, .heldMirror (i % weightFrames s.img.model), ?_,
        fun h => by rw [h]; rfl, fun b hb h => by omega, fun b hb h => by rw [hmir b hb h]⟩
      have ht : ((s.withBlocks bs c).markFailed (.heldMirror (i % weightFrames s.img.model))).ticking = s.ticking := rfl
      rw [ht]
      split <;>
      simp only [State.failAttempt_eq, State.withFails, State.markFailed_eq, State.withFailed, State.withBlocks, State.withReadError]

/-- Adding a failed copy that is no HBM frame leaves unchanged which HBM frames a flash frame serves. -/
theorem findSome_addNew {α β : Type} [BEq α] (l : List α) (x : α) (g : α → Option β) (h : g x = none) : (addNew l x).findSome? g = l.findSome? g := by
  unfold addNew
  split
  · rfl
  · rw [List.findSome?_append, List.findSome?_singleton, h, Option.or_none]

theorem State.servedBy_markFailed (s : State) (bs : Sparse NandBlock) (c : Counters) (f g : Nat) :
    ((s.withBlocks bs c).markFailed (.flashFrame g)).servedBy f = s.servedBy f :=
  findSome_addNew s.hbm.failed (.flashFrame g) _ rfl

/-- Some page list names the flash frame. -/
def State.namesFlash (s : State) (f : Nat) : Bool := s.seqs.any fun q => q.root.any fun e => leafRef e.2 == some (false, f)

theorem State.namesFlash_of {s : State} {f v : Nat} {e : W64} {h : W32} {q : Seq} (hq : s.seq h = some q) (he : (v, e) ∈ q.root)
    (hr : leafRef e = some (false, f)) : s.namesFlash f = true :=
  List.any_eq_true.mpr ⟨q, (State.seq_some hq).1, List.any_eq_true.mpr ⟨(v, e), he, by simp [hr]⟩⟩

/-- The pages that a key-value frame of flash takes with it when it cannot be read. -/
def State.flashLosing (s : State) (f : Nat) : Seq → Seq :=
  if !s.ticking then id
  else if s.namesFlash f then Seq.losing (some (false, f))
  else match s.servedBy f with
    | some h => Seq.losing (some (true, h))
    | none => id

/-- The record of a key-value frame of flash that cannot be read. -/
def State.flashFails (s : State) (f ch : Nat) : List (BitVec 128) :=
  if !s.ticking then s.tick.fails
  else s.tick.fails ++ [if s.namesFlash f then failRecord s.crew.coord 5 5 ch 0x1FF
    else match s.servedBy f with
      | some h => failRecord s.crew.coord 5 3 (frameStack h) 0x1FF
      | none => failRecord s.crew.coord 3 5 ch 0x1FF]

/-- A key-value frame of flash that cannot be read. -/
theorem failFlash_page (s : State) (bs : Sparse NandBlock) (c : Counters) {f : Nat} (ch : Nat) (hu : f < s.flashUser) :
    (s.withBlocks bs c).failFlash f ch =
      s.withReadError bs (addNew s.hbm.failed (.flashFrame f)) (s.seqs.map (s.flashLosing f)) (s.flashFails f ch) c := by
  have huser : (s.withBlocks bs c).flashUser = s.flashUser := rfl
  have ht : ((s.withBlocks bs c).markFailed (.flashFrame f)).ticking = s.ticking := rfl
  have hnamed : (((s.withBlocks bs c).markFailed (.flashFrame f)).seqs.any fun q => q.root.any fun e => leafRef e.2 == some (false, f)) = s.namesFlash f := rfl
  rw [State.failFlash, huser, if_neg (Nat.not_le.mpr hu)]
  dsimp only
  rw [ht, hnamed, State.servedBy_markFailed, State.flashLosing, State.flashFails]
  cases s.ticking with
  | false =>
    simp only [Bool.not_false, if_true, List.map_id]
    simp only [State.markFailed_eq, State.withFailed, State.withBlocks, State.withReadError]
  | true =>
    cases s.namesFlash f with
    | true =>
      simp only [Bool.not_true, Bool.false_eq_true, if_false, if_true, State.losePage_eq]
      simp only [State.withFails, State.withSeqs, State.markFailed_eq, State.withFailed, State.withBlocks, State.withReadError, List.dropLast_concat]
    | false =>
      simp only [Bool.not_true, Bool.false_eq_true, if_false]
      cases s.servedBy f with
      | some h =>
        simp only [State.losePage_eq, State.withFails, State.withSeqs, State.markFailed_eq, State.withFailed, State.withBlocks, State.withReadError]
      | none =>
        simp only [State.failAttempt_eq, List.map_id, State.withFails, State.markFailed_eq, State.withFailed, State.withBlocks, State.withReadError]

/-- A frame above the key-value frames is a frame of weights, or one of an index. -/
theorem failFlash_reserve (s : State) (bs : Sparse NandBlock) (c : Counters) {f : Nat} (ch : Nat) (hu : s.flashUser ≤ f) :
    (s.withBlocks bs c).failFlash f ch =
      if f < s.flashUser + 2 * weightFrames s.img.model then (s.withBlocks bs c).failWeight (f - s.flashUser) ch else s.withBlocks bs c := by
  have huser : (s.withBlocks bs c).flashUser = s.flashUser := rfl
  have hn : weightFrames (s.withBlocks bs c).img.model = weightFrames s.img.model := rfl
  rw [State.failFlash, huser, if_pos hu, hn]

/-- A key-value frame of flash that cannot be read in an attempt: its record, and the pages lost. -/
theorem flashPage_ticking (s : State) (bs : Sparse NandBlock) (c : Counters) {f : Nat} (ch : Nat) (hu : f < s.flashUser) (ht : s.ticking = true) :
    let t := (s.withBlocks bs c).failFlash f ch
    (s.namesFlash f = true ∨ s.servedBy f = none →
      t.tick.fails = s.tick.fails ++ [failRecord s.crew.coord (if s.namesFlash f then 5 else 3) 5 ch 0x1FF]) ∧
    (s.namesFlash f = false → s.servedBy f = none → t.seqs = s.seqs) ∧
    (∀ g, s.namesFlash f = false → s.servedBy f = some g → t.tick.fails = s.tick.fails ++ [failRecord s.crew.coord 5 3 (g / 2 ^ 22) 0x1FF] ∧
      ∀ h q v e, s.seq h = some q → (v, e) ∈ q.root → leafRef e = some (true, g) → ∃ u, t.seq h = some u ∧ v ∈ u.lostPages) ∧
    ∀ h q v e, s.seq h = some q → (v, e) ∈ q.root → leafRef e = some (false, f) → ∃ u, t.seq h = some u ∧ v ∈ u.lostPages := by
  intro t
  have heq : t = _ := failFlash_page s bs c ch hu
  have hseqs : t.seqs = s.seqs.map (s.flashLosing f) := by rw [heq]; rfl
  have hfails : t.tick.fails = s.flashFails f ch := by rw [heq]; rfl
  rw [State.flashFails, ht, if_neg (by decide)] at hfails
  refine ⟨fun h => ?_, fun hn hs => ?_, fun g hn hs => ⟨?_, fun h q v e hq he hr => ?_⟩, fun h q v e hq he hr => ?_⟩
  · rw [hfails]
    cases hn : s.namesFlash f with
    | true => rfl
    | false =>
      rw [h.resolve_left (by simp [hn])]
      rfl
  · rw [hseqs, State.flashLosing, ht, hn, hs, if_neg (by decide), if_neg (by decide)]
    exact List.map_id _
  · rw [hfails, hn, hs]
    rfl
  · refine State.seq_losing ?_ hq he hr
    rw [hseqs, State.flashLosing, ht, hn, hs, if_neg (by decide), if_neg (by decide)]
  · refine State.seq_losing ?_ hq he hr
    rw [hseqs, State.flashLosing, ht, State.namesFlash_of hq he hr, if_neg (by decide), if_pos rfl]

theorem State.blockFails_ticking {s : State} (bs : Sparse NandBlock) (c : Counters) (x : CopyId) (b ch : Nat) (ht : s.ticking = true) (fs : List (BitVec 128)) :
    (s.withBlocks bs c).blockFails x b ch = s.tick.fails ++ [if (s.withReadError bs (addNew s.hbm.failed x) s.seqs fs c).blockReadable b
      then failRecord s.crew.coord 3 5 ch 0x1FF else failRecord s.crew.coord 4 5 ch (s.layerOfBlock b)] := if_pos ht

/-- A flash frame that no retry reads. -/
theorem flashRead_fails (s : State) (f : Nat) (hok : flashFrameOk f = true) (hon : s.pwr.standby = true) :
    ∃ t, exec (.flashRead f false none) s = .next t ∧ s.readErrorFrame (s.blocksAfterRead f false) t ∧
      (s.ticking = false → t.seqs = s.seqs ∧ t.tick = s.tick) ∧
      (f < s.flashUser → CopyId.flashFrame f ∈ t.hbm.failed ∧ (s.ticking = true →
        (s.namesFlash f = true ∨ s.servedBy f = none →
          t.tick.fails = s.tick.fails ++ [failRecord s.crew.coord (if s.namesFlash f then 5 else 3) 5 (s.readChannel f) 0x1FF]) ∧
        (s.namesFlash f = false → s.servedBy f = none → t.seqs = s.seqs) ∧
        (∀ g, s.namesFlash f = false → s.servedBy f = some g → t.tick.fails = s.tick.fails ++ [failRecord s.crew.coord 5 3 (g / 2 ^ 22) 0x1FF] ∧
          ∀ h q v e, s.seq h = some q → (v, e) ∈ q.root → leafRef e = some (true, g) → ∃ u, t.seq h = some u ∧ v ∈ u.lostPages) ∧
        ∀ h q v e, s.seq h = some q → (v, e) ∈ q.root → leafRef e = some (false, f) → ∃ u, t.seq h = some u ∧ v ∈ u.lostPages)) ∧
      (s.flashUser ≤ f → t.seqs = s.seqs) ∧
      (s.flashUser + 2 * weightFrames s.img.model ≤ f → t.hbm = s.hbm ∧ t.tick = s.tick) ∧
      (∀ b, f = s.flashUser + b → b < weightFrames s.img.model → CopyId.weightFlash b ∈ t.hbm.failed ∧ (s.ticking = true →
        t.tick.fails = s.tick.fails ++ [if t.blockReadable b then failRecord s.crew.coord 3 5 (s.readChannel f) 0x1FF
          else failRecord s.crew.coord 4 5 (s.readChannel f) (s.layerOfBlock b)])) ∧
      (∀ b, f = s.flashUser + weightFrames s.img.model + b → b < weightFrames s.img.model →
        (if s.crew.members.length ≤ 1 then CopyId.weightMirror b else .heldMirror b) ∈ t.hbm.failed) := by
  obtain ⟨c, he⟩ := exec_flashRead hok hon false none
  rw [if_neg (by simp)] at he
  refine ⟨_, he, ?_⟩
  generalize s.blocksAfterRead f false = bs
  generalize s.readChannel f = ch
  rcases Nat.lt_or_ge f s.flashUser with hlt | hge
  · refine ⟨?_, fun ht => ?_, fun _ => ⟨?_, flashPage_ticking s bs c ch hlt⟩, fun h => absurd hlt (Nat.not_lt.mpr h), fun h => by omega, fun b h => by omega,
      fun b h => by omega⟩ <;> rw [failFlash_page s bs c ch hlt]
    · exact State.withReadError_frame _ _ _ _ _ _
    · rw [State.flashLosing, State.flashFails, ht]
      exact ⟨List.map_id _, rfl⟩
    · exact mem_addNew _ _
  · rw [failFlash_reserve s bs c ch hge]
    split
    · rename_i hw
      obtain ⟨fs, x, heq, hidle, hflash, hmirror⟩ := failWeight_frame s bs c (f - s.flashUser) ch
      rw [heq]
      refine ⟨State.withReadError_frame _ _ _ _ _ _, fun ht => by rw [hidle ht]; exact ⟨rfl, rfl⟩, fun h => by omega, fun _ => rfl, fun h => by omega,
        fun b hb hlt => ?_, fun b hb hlt => ?_⟩
      · obtain ⟨rfl, hfs⟩ := hflash b (by omega) hlt
        refine ⟨mem_addNew _ _, fun ht => ?_⟩
        rw [State.blockFails_ticking bs c _ b ch ht fs] at hfs
        exact hfs
      · rw [← hmirror b (by omega) hlt]
        exact mem_addNew _ _
    · rename_i hw
      exact ⟨rfl, fun _ => ⟨rfl, rfl⟩, fun h => by omega, fun _ => rfl, fun _ => ⟨rfl, rfl⟩, fun b hb => by omega, fun b hb => by omega⟩

theorem sramUncorrectable_effect (s : State) (kind num : Nat) (hp : s.hasPart kind num = true) :
    (s.ticking = false → exec (.sramUncorrectable kind num) s = .next s) ∧
    (s.ticking = true → ∃ t, exec (.sramUncorrectable kind num) s = .next t ∧
      t = { s with tick := { s.tick with fails := s.tick.fails ++ [failRecord s.crew.coord 6 kind num 0x1FF] }, ctr := t.ctr }) := by
  refine ⟨fun ht => (needPart_pos hp).trans (when_neg ht), fun ht => ?_⟩
  obtain ⟨c, hc⟩ : ∃ c, (if kind = 1 then s.count (num / 128) 1 (num % 128 * 128 + 25) else if kind = 0 then s.hubCount 6 8 else s) = s.withCtr c := by
    split
    · exact ⟨_, rfl⟩
    · split
      · exact ⟨_, rfl⟩
      · exact ⟨s.ctr, rfl⟩
  refine ⟨(s.withCtr c).failAttempt 6 kind num, ?_, rfl⟩
  rw [← hc]
  exact (needPart_pos hp).trans (when_pos ht)

theorem readErrors : ReadErrors :=
  ⟨fun s f hok hon => ⟨fun ok retry h => by
    obtain ⟨c, he⟩ := exec_flashRead hok hon ok retry
    rw [if_pos h] at he
    exact ⟨_, he, rfl⟩, flashRead_fails s f hok hon⟩, sramUncorrectable_effect⟩

/-- Settles O50: HBM events by the kind of the frame that fails, flash reads by the part of flash that the frame lies in. -/
theorem memoryErrors : Obligations.MemoryErrors := ⟨hbmEvents, readErrors⟩

end Sys2Proof.Machine

end

/-! ### Stream grants -/

section

namespace Sys2Proof.Machine

/-- What an entry asks for is of a fetch item, at most 16 KiB. -/
theorem State.entryReq_some {s : State} {d i : Nat} {p : ArbPoint} {y : StreamSlot} {r : StreamReq} (h : s.entryReq d p i y = some r) :
    r.slot = i ∧ r.bytes ≤ 16384 ∧ ∃ src unit addr dst len readers layer, y.item = .fetch src unit addr dst len readers layer := by
  have hle : ∀ addr off bytes (layer : Option Nat), grantBytes addr off bytes layer ≤ 16384 := fun addr off bytes layer => by
    unfold grantBytes
    split <;> omega
  unfold State.entryReq at h
  split at h
  · cases h
  · rename_i src unit addr dst len readers layer hitem
    refine ⟨?_, ?_, src, unit, addr, dst, len, readers, layer, hitem⟩ <;> dsimp only at h <;> split at h
    · cases h; rfl
    · split at h
      · cases h; rfl
      · split at h
        · cases h; rfl
        · cases h
    · cases h; exact hle _ _ _ _
    · split at h
      · cases h; exact hle _ _ _ _
      · split at h
        · cases h; exact (Nat.min_le_left _ _).trans (hle _ _ _ _)
        · cases h

/-- An entry of a list paired with its places. -/
theorem getElem_of_mem_zip_range {α : Type} {l : List α} {i : Nat} {x : α} (h : (i, x) ∈ (List.range l.length).zip l) :
    ∃ hi : i < l.length, l[i] = x := by
  obtain ⟨k, hk, he⟩ := List.mem_iff_getElem.mp h
  rw [List.getElem_zip, Prod.mk.injEq, List.getElem_range] at he
  obtain ⟨rfl, rfl⟩ := he
  exact ⟨_, rfl⟩

/-- A stream's request is that of one of its entries, and where it takes room there is room. -/
theorem State.requestAt_some {s : State} {d : Nat} {x : Stream} {p : ArbPoint} {r : StreamReq} (h : s.requestAt d x p = some r) :
    ∃ y, x.items[r.slot]? = some y ∧ s.entryReq d p r.slot y = some r ∧ (r.first = true → r.bytes ≤ x.room) := by
  obtain ⟨⟨r', y⟩, hfind, rfl⟩ := Option.map_eq_some_iff.mp h
  have hroom := List.find?_some hfind
  obtain ⟨⟨i, z⟩, hzip, hreq⟩ := List.mem_filterMap.mp (List.mem_of_find?_eq_some hfind)
  obtain ⟨r, hr, he⟩ := Option.map_eq_some_iff.mp hreq
  cases he
  dsimp only at hr hroom ⊢
  obtain ⟨hi, hget⟩ := getElem_of_mem_zip_range hzip
  have hslot := (State.entryReq_some hr).1
  refine ⟨z, ?_, hslot.symm ▸ hr, fun hf => ?_⟩
  · rw [hslot, ← hget]
    exact List.prefix_iff_getElem?.mp (List.takeWhile_prefix _) i hi
  · have hh : x.hasRoom z r' = true := by
      rw [hf] at hroom
      simp only [Bool.not_true, Bool.false_or, Bool.and_eq_true] at hroom
      exact hroom.1.2
    unfold Stream.hasRoom at hh
    simp only [Bool.and_eq_true, decide_eq_true_eq] at hh
    exact hh.1.1

/-- Layers of a die's window once a request is granted. -/
def Die.layersAfter (d : Die) (r : StreamReq) : Option Nat → List Nat
  | some l => if !r.first || d.layers.contains l then d.layers else d.layers ++ [l]
  | none => d.layers

/-- A die once a stream's request is granted. -/
def Die.granting (d : Die) (n : Nat) (r : StreamReq) (layer : Option Nat) : Die :=
  { d with layers := d.layersAfter r layer, streams := Sparse.set {} d.streams n ((Sparse.get {} d.streams n).take r) }

/-- A die once bytes of a stream have reached stage memory. -/
def Die.arriving (d : Die) (n : Nat) (a : Arrived) (bs : List Byte) : Die :=
  { d with
    stage := Mem.write d.stage a.addr bs
    streams := Sparse.set {} d.streams n { Sparse.get {} d.streams n with arrived := (Sparse.get {} d.streams n).arrived ++ [a] } }

/-- Other dies, counters and free values drawn. -/
def State.withDies (s : State) (ds : Sparse Die) (c : Counters) (fi : Nat) : State := { s with dies := ds, ctr := c, freeIx := fi }

theorem State.sourceBytes_withDies (s : State) (ds : Sparse Die) (c : Counters) (src : Source) (addr n : Nat) (layer : Option Nat) :
    ∃ fi, (s.withDies ds c s.freeIx).sourceBytes src addr n layer = ((s.sourceBytes src addr n layer).1, s.withDies ds c fi) := by
  cases layer with
  | some l => exact ⟨s.freeIx, rfl⟩
  | none =>
    cases src with
    | otherModule => exact ⟨s.freeIx + n, rfl⟩
    | hbmOwn | hbmOther =>
      refine ⟨s.freeIx, ?_⟩
      simp only [State.sourceBytes, Option.isSome_none, Bool.false_eq_true, if_false]
      split
      · rfl
      · split <;> rfl
    | flash | reduction => exact ⟨s.freeIx, rfl⟩

/-- The state with the counters of a grant. -/
def State.grantCounts (s : State) (die n : Nat) (r : StreamReq) : State :=
  let s := if r.first && r.off == 0 then s.count die 3 (n * 16 + 9) else s
  let s := if r.first && decide (r.src = .flash) then s.count die 3 (n * 16 + 15) else s
  s.count die 3 (n * 16 + 0)

theorem State.grantCounts_eq (s : State) (die n : Nat) (r : StreamReq) : ∃ c, s.grantCounts die n r = s.withCtr c := by
  unfold State.grantCounts
  cases r.first && r.off == 0 <;> cases r.first && decide (r.src = .flash) <;> exact ⟨_, rfl⟩

/-- Bytes of a grant reach stage memory. -/
def arriveFrom (die n src : Nat) (a : Arrived) (b : List Byte × State) : State :=
  (b.2.setDie die ((b.2.die die).arriving n a b.1)).count die 3 (n * 16 + (1 + src)) a.bytes

/-- A grant to a fetch entry: its stream moves on, and at the last point of the path the bytes arrive. -/
theorem State.grant_eq {s : State} {die n : Nat} {r : StreamReq} {y : StreamSlot} {src : Source} {unit addr dst len : Nat}
    {readers : List (Nat × Nat)} {layer : Option Nat} (hy : (Sparse.get {} (s.die die).streams n).items[r.slot]? = some y)
    (hi : y.item = .fetch src unit addr dst len readers layer) :
    ∃ c fi, s.grant die n r = s.withDies (if r.last then
        Sparse.set {} (Sparse.set {} s.dies die ((s.die die).granting n r layer)) die
          (((s.die die).granting n r layer).arriving n ⟨dst + r.off, r.bytes, readers, layer⟩ (s.sourceBytes r.src (addr + r.off) r.bytes layer).1)
      else Sparse.set {} s.dies die ((s.die die).granting n r layer)) c fi := by
  have hgrant : s.grant die n r = if !r.last then (s.setDie die ((s.die die).granting n r layer)).grantCounts die n r
      else arriveFrom die n (sourceNumber r.src) ⟨dst + r.off, r.bytes, readers, layer⟩
        (((s.setDie die ((s.die die).granting n r layer)).grantCounts die n r).sourceBytes r.src (addr + r.off) r.bytes layer) := by
    unfold State.grant
    simp only [hy, Option.map_some, hi]
    rfl
  obtain ⟨c, hc⟩ := State.grantCounts_eq (s.setDie die ((s.die die).granting n r layer)) die n r
  rw [hgrant, hc]
  cases r.last with
  | false => exact ⟨c, s.freeIx, rfl⟩
  | true =>
    generalize hd : (s.die die).granting n r layer = d
    have hset : (s.setDie die d).withCtr c = s.withDies (Sparse.set {} s.dies die d) c s.freeIx := rfl
    obtain ⟨fi, hsrc⟩ := s.sourceBytes_withDies (Sparse.set {} s.dies die d) c r.src (addr + r.off) r.bytes layer
    have hget : (s.withDies (Sparse.set {} s.dies die d) c fi).die die = d := Sparse.get_set_self _ _ _ _
    generalize (s.sourceBytes r.src (addr + r.off) r.bytes layer).1 = bs at hsrc ⊢
    rw [hset, hsrc, arriveFrom, hget]
    exact ⟨_, _, rfl⟩

theorem Stream.take_effect (x : Stream) (r : StreamReq) : (x.take r).buffered = (if r.first then x.buffered + r.bytes else x.buffered) ∧
    (x.take r).room = (if r.first then x.room - r.bytes else x.room) ∧ (x.take r).arrived = x.arrived := by
  unfold Stream.take
  cases r.first <;> exact ⟨rfl, rfl, rfl⟩

/-- The dies of a granted request: no other die, no other stream, and stage memory only at the last point of the path. -/
theorem granted_dies {ds : Sparse Die} {die n : Nat} {r : StreamReq} {layer : Option Nat} {a : Arrived} {bs : List Byte} (d : Die) :
    let ds' := if r.last then Sparse.set {} (Sparse.set {} ds die (d.granting n r layer)) die ((d.granting n r layer).arriving n a bs)
      else Sparse.set {} ds die (d.granting n r layer)
    let z := Sparse.get {} (Sparse.get {} ds' die).streams n
    let x := Sparse.get {} d.streams n
    (∀ e, e ≠ die → Sparse.get {} ds' e = Sparse.get {} ds e) ∧
    (Sparse.get {} ds' die).stage = (if r.last then Mem.write d.stage a.addr bs else d.stage) ∧
    z.items = (x.take r).items ∧ z.buffered = (x.take r).buffered ∧ z.room = (x.take r).room ∧
    z.arrived = (if r.last then (x.take r).arrived ++ [a] else (x.take r).arrived) ∧
    ∀ m, m ≠ n → Sparse.get {} (Sparse.get {} ds' die).streams m = Sparse.get {} d.streams m := by
  have hget : Sparse.get {} (d.granting n r layer).streams n = (Sparse.get {} d.streams n).take r := Sparse.get_set_self _ _ _ _
  have hne : ∀ m, m ≠ n → Sparse.get {} (d.granting n r layer).streams m = Sparse.get {} d.streams m := fun m hm => Sparse.get_set_ne _ _ _ _ _ hm
  cases r.last with
  | false =>
    simp only [Bool.false_eq_true, if_false, Sparse.get_set_self, hget]
    exact ⟨fun e he => Sparse.get_set_ne _ _ _ _ _ he, rfl, trivial, trivial, trivial, trivial, hne⟩
  | true =>
    simp only [if_true, Sparse.get_set_self, Die.arriving, hget]
    refine ⟨fun e he => ?_, rfl, trivial, trivial, trivial, trivial, fun m hm => ?_⟩
    · rw [Sparse.get_set_ne _ _ _ _ _ he, Sparse.get_set_ne _ _ _ _ _ he]
    · rw [Sparse.get_set_ne _ _ _ _ _ hm, hne m hm]

/-- The state once the winner of a point has been served. -/
theorem exec_streamGrant_stream {s : State} {p : ArbPoint} {e : Nat × Nat} (hp : s.hasPoint p = true) (hw : s.working = true)
    (hu : s.unitWins p = none) (hwin : s.winner p = some e) : exec (.streamGrant p) s = .next (s.grantTo p e) := by
  change execStreamGrant p s = _
  rw [execStreamGrant, needPart_pos hp, when_pos hw, hu, hwin]

/-- A stream that wins while requests that come first wait at the point moves nothing. -/
theorem State.grantTo_held {s : State} {p : ArbPoint} (e : Nat × Nat) (h : s.held p = true) : ∃ c, s.grantTo p e = s.withCtr c := by
  unfold State.grantTo
  rw [if_pos h]
  cases p <;> exact ⟨_, rfl⟩

/-- The winner's request is granted; only counters tell whether others were equal. -/
theorem State.grantTo_open {s : State} {p : ArbPoint} {n d : Nat} {r : StreamReq} (h : s.held p = false)
    (hr : s.requestAt d (Sparse.get {} (s.die d).streams n) p = some r) : ∃ c, s.grantTo p (n, d) = (s.grant d n r).withCtr c := by
  unfold State.grantTo
  rw [if_neg (by simp [h])]
  simp only [hr]
  split
  · exact ⟨_, rfl⟩
  · exact ⟨(s.grant d n r).ctr, rfl⟩

/-- A stream that wins its point moves on by what it asked for. -/
theorem streamGrant_open {s : State} {p : ArbPoint} {n d : Nat} {r : StreamReq} (hp : s.hasPoint p = true) (hw : s.working = true)
    (hu : s.unitWins p = none) (hwin : s.winner p = some (n, d)) (hh : s.held p = false)
    (hr : s.requestAt d (Sparse.get {} (s.die d).streams n) p = some r) :
    let x := Sparse.get {} (s.die d).streams n
    r.bytes ≤ 16384 ∧ (r.first = true → r.bytes ≤ x.room) ∧
      ∃ src unit addr dst len readers layer y z t, x.items[r.slot]? = some y ∧ y.item = .fetch src unit addr dst len readers layer ∧ exec (.streamGrant p) s = .next t ∧
        t = { s with dies := t.dies, ctr := t.ctr, freeIx := t.freeIx } ∧ (∀ e, e ≠ d → t.die e = s.die e) ∧
        (t.die d).stage = (if r.last then Mem.write (s.die d).stage (dst + r.off) (s.sourceBytes r.src (addr + r.off) r.bytes layer).1 else (s.die d).stage) ∧
        z = Sparse.get {} (t.die d).streams n ∧ z.items = (x.take r).items ∧
        z.buffered = (if r.first then x.buffered + r.bytes else x.buffered) ∧ z.room = (if r.first then x.room - r.bytes else x.room) ∧
        z.arrived = (if r.last then x.arrived ++ [⟨dst + r.off, r.bytes, readers, layer⟩] else x.arrived) ∧
        ∀ m, m ≠ n → Sparse.get {} (t.die d).streams m = Sparse.get {} (s.die d).streams m := by
  intro x
  obtain ⟨y, hy, hreq, hroom⟩ := State.requestAt_some hr
  obtain ⟨-, hbytes, src, unit, addr, dst, len, readers, layer, hitem⟩ := State.entryReq_some hreq
  obtain ⟨c, hto⟩ := State.grantTo_open hh hr
  obtain ⟨c', fi, hgrant⟩ := State.grant_eq (s := s) (die := d) (n := n) hy hitem
  obtain ⟨hdie, hstage, hitems, hbuf, hrm, harr, hother⟩ := granted_dies (ds := s.dies) (die := d) (n := n) (r := r) (layer := layer)
    (a := ⟨dst + r.off, r.bytes, readers, layer⟩) (bs := (s.sourceBytes r.src (addr + r.off) r.bytes layer).1) (s.die d)
  obtain ⟨hbuf', hrm', harr'⟩ := x.take_effect r
  have hexec := exec_streamGrant_stream hp hw hu hwin
  rw [hto, hgrant] at hexec
  exact ⟨hbytes, hroom, src, unit, addr, dst, len, readers, layer, y, _, _, hy, hitem, hexec, rfl, hdie, hstage, rfl, hitems, hbuf.trans hbuf', hrm.trans hrm',
    harr' ▸ harr, hother⟩

/-- A search unit that wins its channel reads its record. -/
theorem streamGrant_unit {s : State} {p : ArbPoint} {ch slot node : Nat} (hp : s.hasPoint p = true) (hw : s.working = true)
    (hu : s.unitWins p = some (ch, slot, node)) : ∃ t, exec (.streamGrant p) s = .next t ∧ (s.held p = true → t = s) ∧ (s.held p = false →
      t = { s with searches := t.searches, ctr := t.ctr } ∧
      t.searches = s.searches.map fun x => if x.slot = slot then { x with read := x.read ++ [node] } else x) := by
  have hexec : exec (.streamGrant p) s = .next (if s.held p then s else s.readRecord ch (slot, node)) := by
    change execStreamGrant p s = _
    rw [execStreamGrant, needPart_pos hp, when_pos hw, hu]
  refine ⟨_, hexec, fun h => if_pos h, fun h => ?_⟩
  rw [if_neg (by simp [h])]
  exact ⟨rfl, rfl⟩

/-- Settles O46, by who wins the point: a stream, a search unit, or nobody. -/
theorem streamsGranted : Obligations.StreamsGranted := by
  refine ⟨fun s p n d r hp hw hu hwin => ⟨fun hh hr => streamGrant_open hp hw hu hwin hh hr, fun hh => ?_⟩,
    fun s p ch slot node hp hw hu => streamGrant_unit hp hw hu, fun s p hp hu hwin => ?_⟩
  · obtain ⟨c, hc⟩ := State.grantTo_held (n, d) hh
    exact ⟨_, exec_streamGrant_stream hp hw hu hwin, by rw [hc]; rfl⟩
  · change execStreamGrant p s = _
    rw [execStreamGrant, needPart_pos hp, hu, hwin]
    cases hwk : s.working
    · rfl
    · rfl

end Sys2Proof.Machine

end

/-! ### Page sketches -/

section

namespace Sys2Proof.Machine

/-- The state with other flags of the attempt and counters. -/
def State.withFlags (s : State) (fl : List (Nat × Nat)) (c : Counters) : State := { s with fore := { s.fore with flags := fl }, ctr := c }

theorem State.withCtr_withCtr (s : State) (c d : Counters) : (s.withCtr c).withCtr d = s.withCtr d := rfl

/-- An event that is counted only where it happened. -/
theorem State.countSome_ctr (s : State) (p : Prop) [Decidable p] (dom cls index n : Nat) : ∃ c, (if p then s else s.count dom cls index n) = s.withCtr c := by
  split
  · exact ⟨s.ctr, rfl⟩
  · exact ⟨_, rfl⟩

theorem State.countFlags_ctr (s : State) (die core : Nat) (f : Flags) : ∃ c, s.countFlags die core f = s.withCtr c := by
  unfold State.countFlags
  dsimp only
  obtain ⟨c, h1⟩ := s.countSome_ctr (f.inv = 0) die 1 (core * 128 + 17) f.inv
  obtain ⟨d, h2⟩ := (s.withCtr c).countSome_ctr (f.ovf = 0) die 1 (core * 128 + 18) f.ovf
  obtain ⟨e, h3⟩ := (s.withCtr d).countSome_ctr (f.unf = 0) die 1 (core * 128 + 19) f.unf
  rw [h1, h2, State.withCtr_withCtr, h3, State.withCtr_withCtr]
  exact ⟨e, rfl⟩

/-- Flags are recorded for a request, and counted. -/
theorem State.raiseFlags_flags (s : State) (die core : Nat) (rid : Option Nat) (f : Flags) : ∃ fl c, s.raiseFlags die core rid f = s.withFlags fl c := by
  obtain ⟨c, hc⟩ := s.countFlags_ctr die core f
  unfold State.raiseFlags
  dsimp only
  rw [hc]
  cases rid with
  | none => exact ⟨s.fore.flags, c, rfl⟩
  | some r =>
    dsimp only
    split
    · exact ⟨s.fore.flags, c, rfl⟩
    · exact ⟨_, _, rfl⟩

/-- Flags of a vector pass are recorded and counted. -/
theorem State.flagVec_flags (s : State) (core : Nat) (rid : Option Nat) (f : Flags) : ∃ fl c, s.flagVec core rid f = s.withFlags fl c := by
  unfold State.flagVec
  split
  · exact ⟨s.fore.flags, s.ctr, rfl⟩
  · exact s.raiseFlags_flags (core / 128) (core % 128) rid f

/-- Flags of a pass that serves no request are counted only. -/
theorem State.flagVec_none (s : State) (core : Nat) (f : Flags) : ∃ c, s.flagVec core none f = s.withCtr c := by
  unfold State.flagVec
  split
  · exact ⟨s.ctr, rfl⟩
  · exact s.countFlags_ctr (core / 128) (core % 128) f

/-- HBM data once a page's sketch is in its sequence's table. -/
def sketchData (data : Mem) (q : Seq) (v : Nat) (k : BitVec 256) : Mem :=
  match q.tableAddr v with
  | some a => Mem.write data a (leBytes 32 k.toNat)
  | none => data

/-- The state with other HBM data. -/
def State.withData (s : State) (data : Mem) : State := { s with hbm := { s.hbm with data := data } }

theorem State.writeSketch_eq {s : State} {h : W32} {q : Seq} (v : Nat) (k : BitVec 256) (hq : s.seq h = some q) :
    s.writeSketch h v k = s.withData (sketchData s.hbm.data q v k) := by
  rw [State.writeSketch, hq, Option.bind_some, sketchData]
  cases q.tableAddr v <;> rfl

/-- A page of the region is staged: the committed page list stays. -/
theorem Seq.stageEdit_roots {q : Seq} (t v : Nat) (e : W64) (fresh : List Nat) (h : v < q.vpages) :
    (q.stageEdit t v e fresh).root0 = q.root0 ∧ (q.stageEdit t v e fresh).root1 = q.root1 ∧ (q.stageEdit t v e fresh).cur = q.cur ∧
      (q.stageEdit t v e fresh).stageTick = t := by
  rw [Seq.stageEdit, if_neg (Nat.not_le.mpr h)]
  exact ⟨rfl, rfl, rfl, rfl⟩

theorem Seq.stageEdit_handle (q : Seq) (t v : Nat) (e : W64) (fresh : List Nat) :
    (q.stageEdit t v e fresh).handle = q.handle ∧ (q.stageEdit t v e fresh).closing = q.closing := by
  rw [Seq.stageEdit]
  split <;> exact ⟨rfl, rfl⟩

theorem State.stageEdit_eq (s : State) (t : Nat) (h : W32) (v : Nat) (e : W64) : ∃ fresh, s.stageEdit t h v e = s.updSeq h fun q => q.stageEdit t v e fresh :=
  ⟨_, rfl⟩

/-- Other data and sidebands of HBM, sequences, sketch table, sketch work and counters. -/
def State.withSketch (s : State) (data side : Mem) (qs : List Seq) (sk : List (W32 × Nat × BitVec 256)) (work : List (W32 × Nat)) (c : Counters) : State :=
  { s with hbm := { s.hbm with data := data, side := side }, seqs := qs, sketches := sk, fore := { s.fore with sketchQ := work }, ctr := c }

theorem State.withSketch_frame (s t : State) (data side : Mem) (qs : List Seq) (sk : List (W32 × Nat × BitVec 256)) (work : List (W32 × Nat)) (c : Counters)
    (ht : t = s.withSketch data side qs sk work c) :
    t = { s with hbm := { s.hbm with data := t.hbm.data, side := t.hbm.side }, seqs := t.seqs, sketches := t.sketches
                 fore := { s.fore with sketchQ := work }, ctr := t.ctr } ∧
      t.hbm.data = data ∧ t.hbm.side = side ∧ t.sketches = sk ∧ t.seqs = qs := by
  rw [ht]
  exact ⟨rfl, rfl, rfl, rfl, rfl⟩

/-- The sketch table with the sketch of a page. -/
def State.sketchesWith (s : State) (h : W32) (v : Nat) (k : BitVec 256) : List (W32 × Nat × BitVec 256) :=
  (s.sketches.filter fun (x : W32 × Nat × BitVec 256) => !(x.1 == h && x.2.1 == v)) ++ [(h, v, k)]

/-- The sketch table and the sketch work once a page has its sketch. -/
def State.sketchNoted (s : State) (h : W32) (v : Nat) (k : BitVec 256) : State :=
  { s with sketches := s.sketchesWith h v k, fore := { s.fore with sketchQ := s.fore.sketchQ.erase (h, v) } }

/-- A sketch task's work on a page: sideband, flags, table, staged entry. -/
def State.sketchInto (s : State) (die core : Nat) (h : W32) (v : Nat) (q : Seq) (a : Nat) (bs : List Byte) (k : BitVec 256) (fl : Flags) : State :=
  let s := (s.writeSide a bs).flagVec (coreNo die core) none fl
  (((s.writeSketch h v k).stageEdit s.tick.num h v (putFld (q.entryNow s.tick.num v) 58 1 1)).sketchNoted h v k).lotCount die q.lot 15

section

variable (s : State) (data side : Mem) (qs : List Seq) (sk : List (W32 × Nat × BitVec 256)) (work : List (W32 × Nat)) (c : Counters)

theorem State.withSketch_of_bytes (a : Nat) (bs : List Byte) : ((s.writeSide a bs).withCtr c).withData data =
    s.withSketch data (Mem.write s.hbm.side a bs) s.seqs s.sketches s.fore.sketchQ c := rfl

theorem State.withSketch_updSeq (h : W32) (g : Seq → Seq) :
    (s.withSketch data side s.seqs sk work c).updSeq h g = s.withSketch data side (s.updSeq h g).seqs sk work c := rfl

theorem State.withSketch_noted (h : W32) (v : Nat) (k : BitVec 256) : (s.withSketch data side qs s.sketches s.fore.sketchQ c).sketchNoted h v k =
    s.withSketch data side qs (s.sketchesWith h v k) (s.fore.sketchQ.erase (h, v)) c := rfl

theorem State.withSketch_lotCount (die lot ev : Nat) : (s.withSketch data side qs sk work c).lotCount die lot ev =
    s.withSketch data side qs sk work ((s.withCtr c).lotCount die lot ev).ctr := rfl

end

theorem State.sketchInto_eq {s : State} {h : W32} {q : Seq} (die core v a : Nat) (bs : List Byte) (k : BitVec 256) (fl : Flags) (hq : s.seq h = some q) :
    ∃ e fresh c, s.sketchInto die core h v q a bs k fl =
      s.withSketch (sketchData s.hbm.data q v k) (Mem.write s.hbm.side a bs)
        (s.updSeq h fun q => q.stageEdit s.tick.num v e fresh).seqs (s.sketchesWith h v k) (s.fore.sketchQ.erase (h, v)) c := by
  obtain ⟨c, hflag⟩ := (s.writeSide a bs).flagVec_none (coreNo die core) fl
  have hq' : ((s.writeSide a bs).withCtr c).seq h = some q := hq
  rw [State.sketchInto, hflag, State.writeSketch_eq v k hq']
  have hdata : sketchData ((s.writeSide a bs).withCtr c).hbm.data q v k = sketchData s.hbm.data q v k := rfl
  have htick : ((s.writeSide a bs).withCtr c).tick.num = s.tick.num := rfl
  rw [hdata, htick]
  obtain ⟨fresh, hstage⟩ := State.stageEdit_eq (((s.writeSide a bs).withCtr c).withData (sketchData s.hbm.data q v k)) s.tick.num h v
    (putFld (q.entryNow s.tick.num v) 58 1 1)
  rw [hstage, State.withSketch_of_bytes, State.withSketch_updSeq, State.withSketch_noted, State.withSketch_lotCount]
  exact ⟨_, fresh, _, rfl⟩

/-- The sketch is in the page's sideband and in the sketch table, and SKETCH_VALID is staged. -/
theorem State.sketchInto_effect {s : State} {h : W32} {q : Seq} (die core : Nat) {v : Nat} (a : Nat) (bs : List Byte) (k : BitVec 256) (fl : Flags) (hq : s.seq h = some q)
    (hv : v < q.vpages) : ∃ t, s.sketchInto die core h v q a bs k fl = t ∧
      t = { s with hbm := { s.hbm with data := t.hbm.data, side := t.hbm.side }, seqs := t.seqs, sketches := t.sketches
                   fore := { s.fore with sketchQ := s.fore.sketchQ.erase (h, v) }, ctr := t.ctr } ∧
      t.hbm.data = sketchData s.hbm.data q v k ∧ t.hbm.side = Mem.write s.hbm.side a bs ∧ (h, v, k) ∈ t.sketches ∧
      ∃ x, t.seq h = some x ∧ x.root0 = q.root0 ∧ x.root1 = q.root1 ∧ x.cur = q.cur ∧ x.stageTick = s.tick.num := by
  obtain ⟨e, fresh, c, heq⟩ := State.sketchInto_eq die core v a bs k fl hq
  obtain ⟨hframe, hdata, hside, hsketch, hseqs⟩ := State.withSketch_frame s _ _ _ _ _ _ c heq
  have hlive : ((s.updSeq h fun q => q.stageEdit s.tick.num v e fresh).seq h) = some (q.stageEdit s.tick.num v e fresh) :=
    s.seq_updSeq_self h _ (fun q => q.stageEdit_handle _ _ _ _) hq
  refine ⟨_, rfl, hframe, hdata, hside, ?_, _, ?_, Seq.stageEdit_roots s.tick.num v e fresh hv⟩
  · rw [hsketch]
    exact List.mem_append_right _ (List.mem_singleton.mpr rfl)
  · rw [State.seq, hseqs]
    exact hlive

theorem execSketchTask_next {s : State} {die core v : Nat} {h sK : W32} {q : Seq} (hc : s.hasCore die core = true) (hq : s.seq h = some q) :
    execSketchTask die core h v sK s = when (s.working && s.fore.sketchQ.contains (h, v) && leafTier (q.entry v) == 0 && frameDie (leafFrame (q.entry v)) == die &&
      normalPos32 sK.toNat && !(s.held (.stack (leafFrame (q.entry v) / 2 ^ 22)))) s
      (s.sketchInto die core h v q (leafFrame (q.entry v) * 1024) (leBytes 1024 (sbPut (s.hbmSide (leafFrame (q.entry v))) 4096 256
          (sketchOf s.ovf s.img.sketch (s.keySum (leafFrame (q.entry v)) sK.toNat).1).1.toNat))
        (sketchOf s.ovf s.img.sketch (s.keySum (leafFrame (q.entry v)) sK.toNat).1).1
        ((s.keySum (leafFrame (q.entry v)) sK.toNat).2.or (sketchOf s.ovf s.img.sketch (s.keySum (leafFrame (q.entry v)) sK.toNat).1).2)) := by
  rw [execSketchTask, State.onCore_pos hc, hq]
  simp only [State.sketchInto, State.sketchNoted, State.sketchesWith, State.setHbmSide]

theorem sketchesWritten : SketchesWritten := by
  intro s die core v h sK q hc hw hq hv hwork htier hdie hsk
  have hexec := execSketchTask_next (v := v) (sK := sK) hc hq
  have hcond : (s.working && s.fore.sketchQ.contains (h, v) && leafTier (q.entry v) == 0 && frameDie (leafFrame (q.entry v)) == die &&
      normalPos32 sK.toNat) = true := by
    simp [hw, hwork, htier, hdie, hsk]
  rw [hcond, Bool.true_and] at hexec
  refine ⟨fun hh => hexec.trans (when_neg (by rw [hh]; rfl)), fun hh => ?_⟩
  rw [when_pos (by rw [hh]; rfl)] at hexec
  obtain ⟨t, ht, hframe, hdata, hside, hsketch, hstage⟩ := State.sketchInto_effect die core (leafFrame (q.entry v) * 1024)
    (leBytes 1024 (sbPut (s.hbmSide (leafFrame (q.entry v))) 4096 256 (sketchOf s.ovf s.img.sketch (s.keySum (leafFrame (q.entry v)) sK.toNat).1).1.toNat))
    (sketchOf s.ovf s.img.sketch (s.keySum (leafFrame (q.entry v)) sK.toNat).1).1
    ((s.keySum (leafFrame (q.entry v)) sK.toNat).2.or (sketchOf s.ovf s.img.sketch (s.keySum (leafFrame (q.entry v)) sK.toNat).1).2) hq hv
  rw [ht] at hexec
  exact ⟨t, hexec, hframe, hdata, hside, hsketch, hstage⟩

end Sys2Proof.Machine

end

/-! ### Page ranking -/

section

namespace Sys2Proof.Machine

/-- The sketch of each query position, with its flags. -/
def State.querySketches (s : State) (rows : List (List Nat)) : List (BitVec 256 × Flags) :=
  (List.range (rows.length / s.group)).map fun i =>
    let x := vecSum s.ovf s.headDim ((rows.drop (i * s.group)).take s.group)
    let y := sketchOf s.ovf s.img.sketch x.1
    (y.1, x.2.or y.2)

/-- A die with the selection of a request's layer and head. -/
def Die.withRanked (d : Die) (rid layer head : Nat) (pages : List Nat) : Die :=
  { d with ranked := (d.ranked.filter fun x => !(x.1 == rid && x.2.1 == layer && x.2.2.1 == head)) ++ [(rid, layer, head, pages)] }

/-- The ranking of a sequence once pages of a layer and head have been ranked. -/
def State.rankWith (s : State) (layer head : Nat) (best : List Nat) (q : Seq) : Seq :=
  { q with rank := best ++ q.rank.filter fun v => !(decide (s.layerOf v = layer ∧ s.headOf v = head)) }

/-- The state with a ranking. -/
def State.withRanking (s : State) (ds : Sparse Die) (qs : List Seq) (qp : List (Nat × Nat × Nat × List (BitVec 256))) (fl : List (Nat × Nat)) (c : Counters) : State :=
  { s with dies := ds, seqs := qs, fore := { s.fore with qpend := qp, flags := fl }, ctr := c }

/-- The selection and the ranking are kept. -/
def State.keepRanking (s : State) (die rid layer head : Nat) (h : W32) (pages best : List Nat) (per : List (BitVec 256)) : State :=
  s.withRanking (Sparse.set {} s.dies die ((s.die die).withRanked rid layer head pages)) (s.updSeq h (s.rankWith layer head best)).seqs
    (s.fore.qpend ++ [(rid, layer, head, per)]) s.fore.flags s.ctr

/-- Flags and counters of a ranking. -/
def State.countRanking (s : State) (die core rid : Nat) (each : List (BitVec 256 × Flags)) (fl : Flags) (pairs : Nat) (best : List (Nat × Nat)) : State :=
  let s1 := each.foldl (fun (s : State) x => s.flagVec (coreNo die core) (some rid) x.2) s
  let s1 := s1.flagVec (coreNo die core) (some rid) fl
  let s1 := (((s1.count die 0xA 0).count die 0xA 1 pairs).count die 0xA 2 (40 * pairs)).count die 0xA 3 best.length
  best.foldl (fun s p => s.count die 0xA (4 + p.1)) s1

/-- Two states differ at most in flags of the attempt and counters. -/
def State.flags (s t : State) : Prop := ∃ fl c, t = s.withFlags fl c

theorem State.flags.trans {s t u : State} (h1 : s.flags t) (h2 : t.flags u) : s.flags u := by
  obtain ⟨_, _, rfl⟩ := h1
  obtain ⟨fl, c, rfl⟩ := h2
  exact ⟨fl, c, rfl⟩

theorem State.flags_refl (s : State) : s.flags s := ⟨s.fore.flags, s.ctr, rfl⟩

theorem State.count_flags (s : State) (dom cls index n : Nat) : s.flags (s.count dom cls index n) := ⟨s.fore.flags, (s.count dom cls index n).ctr, rfl⟩

theorem State.countRanking_flags (s : State) (die core rid : Nat) (each : List (BitVec 256 × Flags)) (fl : Flags) (pairs : Nat) (best : List (Nat × Nat)) :
    s.flags (s.countRanking die core rid each fl pairs best) := by
  have heach : s.flags (each.foldl (fun (s : State) x => s.flagVec (coreNo die core) (some rid) x.2) s) :=
    List.foldlRecOn each _ (motive := s.flags) s.flags_refl fun _ h _ _ => h.trans (State.flagVec_flags _ _ _ _)
  have hcounts : ∀ t : State, s.flags t → s.flags (best.foldl (fun s p => s.count die 0xA (4 + p.1)) t) := fun t ht =>
    List.foldlRecOn best _ (motive := s.flags) ht fun _ h _ _ => h.trans (State.count_flags _ _ _ _ _)
  refine hcounts _ ?_
  have hflag : ∀ t : State, t.flags (t.flagVec (coreNo die core) (some rid) fl) := fun t => t.flagVec_flags _ _ _
  exact heach.trans (((((hflag _).trans (State.count_flags _ _ _ _ _)).trans (State.count_flags _ _ _ _ _)).trans
    (State.count_flags _ _ _ _ _)).trans (State.count_flags _ _ _ _ _))

/-- The best pages of a ranking. -/
def State.bestPages (s : State) (r : Req) (q : Seq) (layer head : Nat) (rows : List (List Nat)) : List (Nat × Nat) :=
  if s.retrieves r then (s.rankPairs q layer head (sketchOf s.ovf s.img.sketch (vecSum s.ovf s.headDim rows).1).1).take s.retTop else []

theorem execPageRanking_next {s : State} {die core rid layer head : Nat} {qs : List (List W32)} {r : Req} {q : Seq} (hc : s.hasCore die core = true)
    (hr : s.req rid = some r) (hq : s.seq r.handle = some q) :
    execPageRanking ⟨die, core⟩ rid layer head qs s =
      let rows := qs.map fun x => x.map BitVec.toNat
      let best := s.bestPages r q layer head rows
      when (s.working && r.stage == .admitted && decide (0 < s.group)) s
        ((s.keepRanking die rid layer head r.handle (s.alwaysPages (s.retrieves r) q layer head ++ best.map Prod.snd) (best.map Prod.snd)
          ((s.querySketches rows).map Prod.fst)).countRanking die core rid (s.querySketches rows)
            ((vecSum s.ovf s.headDim rows).2.or (sketchOf s.ovf s.img.sketch (vecSum s.ovf s.headDim rows).1).2)
            (s.rankPairs q layer head (sketchOf s.ovf s.img.sketch (vecSum s.ovf s.headDim rows).1).1).length best) := by
  rw [execPageRanking, State.onCore_pos hc, hr]
  dsimp only
  rw [hq]
  simp only [State.keepRanking, State.withRanking, Die.withRanked, State.rankWith, State.countRanking, State.bestPages, State.querySketches, State.setDie,
    State.updSeq]

theorem State.withRanking_flags (s : State) (ds : Sparse Die) (qs : List Seq) (qp : List (Nat × Nat × Nat × List (BitVec 256))) (fl fl' : List (Nat × Nat)) (c c' : Counters) :
    (s.withRanking ds qs qp fl c).withFlags fl' c' = s.withRanking ds qs qp fl' c' := rfl

theorem pagesRanked : PagesRanked := by
  intro s die core rid layer head qs r q hc hw hr hq hst hg rows k best per
  have hexec := execPageRanking_next (layer := layer) (head := head) (qs := qs) hc hr hq
  dsimp only at hexec
  rw [when_pos (by simp [hw, hst, hg])] at hexec
  have hper : (s.querySketches rows).map Prod.fst = per := List.map_map
  have hbest : s.bestPages r q layer head rows = best := rfl
  rw [hper, hbest] at hexec
  clear_value best per
  obtain ⟨fl, c, hflags⟩ := State.countRanking_flags (s.keepRanking die rid layer head r.handle (s.alwaysPages (s.retrieves r) q layer head ++ best.map Prod.snd) (best.map Prod.snd) per)
    die core rid (s.querySketches rows) ((vecSum s.ovf s.headDim rows).2.or (sketchOf s.ovf s.img.sketch (vecSum s.ovf s.headDim rows).1).2)
            (s.rankPairs q layer head (sketchOf s.ovf s.img.sketch (vecSum s.ovf s.headDim rows).1).1).length best
  rw [hflags, State.keepRanking, State.withRanking_flags] at hexec
  have hlive := s.seq_updSeq_self r.handle (s.rankWith layer head (best.map Prod.snd)) (fun _ => ⟨rfl, rfl⟩) hq
  have hdie : Sparse.get {} (Sparse.set {} s.dies die ((s.die die).withRanked rid layer head
      (s.alwaysPages (s.retrieves r) q layer head ++ best.map Prod.snd))) die = _ := Sparse.get_set_self _ _ _ _
  refine ⟨_, hexec, rfl, fun d hd => Sparse.get_set_ne _ _ _ _ _ hd, (congrArg Die.stage hdie).trans rfl, ?_, _, hlive, rfl,
    List.take_left' (List.length_map _)⟩
  exact (congrArg Die.ranked hdie).symm ▸ List.mem_append_right _ (List.mem_singleton.mpr rfl)

/-- Settles O44: what a sketch task writes, and what a ranking keeps. -/
theorem sketchesAndRanking : Obligations.SketchesAndRanking := ⟨sketchesWritten, pagesRanked⟩

end Sys2Proof.Machine

end

/-! ### What writing a position may change -/

section

namespace Sys2Proof.Machine

/-- The parts of a state that writing a position changes. -/
structure Written where
  data   : Mem
  side   : Mem
  land   : Mem
  slots  : Sparse Slot
  stag   : Sparse W32
  seqs   : List Seq
  cores  : Sparse Core
  flags  : List (Nat × Nat)
  ctr    : Counters

/-- The parts as they stand. -/
def State.written (s : State) : Written :=
  ⟨s.hbm.data, s.hbm.side, s.land.data, s.land.slots, s.land.staging, s.seqs, s.cores, s.fore.flags, s.ctr⟩

/-- The state with other parts. -/
def State.wrote (s : State) (w : Written) : State :=
  { s with hbm := { s.hbm with data := w.data, side := w.side }, land := { s.land with data := w.land, slots := w.slots, staging := w.stag }
           seqs := w.seqs, cores := w.cores, fore := { s.fore with flags := w.flags }, ctr := w.ctr }

section

variable (s : State) (w : Written)

theorem State.wrote_writeHbm (a : Nat) (bs : List Byte) : (s.wrote w).writeHbm a bs = s.wrote { w with data := Mem.write w.data a bs } := rfl

theorem State.wrote_writeSide (a : Nat) (bs : List Byte) : (s.wrote w).writeSide a bs = s.wrote { w with side := Mem.write w.side a bs } := rfl

theorem State.wrote_writeLand (a : Nat) (bs : List Byte) : (s.wrote w).writeLand a bs = s.wrote { w with land := Mem.write w.land a bs } := rfl

theorem State.wrote_updSeq (h : W32) (g : Seq → Seq) :
    (s.wrote w).updSeq h g = s.wrote { w with seqs := w.seqs.map fun q => if q.handle = h ∧ !q.closing then g q else q } := rfl

theorem State.wrote_withCtr (c : Counters) : (s.wrote w).withCtr c = s.wrote { w with ctr := c } := rfl

end

/-- From the parts `w` to `w'`: of the page at a site at most the bytes at offsets in `P` have changed, besides its sideband, FP32 value rows and counters. -/
structure Written.Only (x : PageSite) (P : Nat → Prop) (w w' : Written) : Prop where
  rest : w'.seqs = w.seqs ∧ w'.cores = w.cores ∧ w'.flags = w.flags ∧ w'.slots = w.slots
  slot : ∀ n, x = .slot n → w'.data = w.data ∧ w'.side = w.side ∧
    ∀ c, ¬(n * 17408 + 16384 ≤ c ∧ c < (n + 1) * 17408) → (∀ a, P a → c ≠ n * 17408 + a) → Mem.read w'.land c = Mem.read w.land c
  frame : ∀ f, x = .frame f → w'.land = w.land ∧ (∀ c, (∀ a, P a → c ≠ f * 16384 + a) → Mem.read w'.data c = Mem.read w.data c) ∧
    ∀ c, c / 1024 ≠ f → Mem.read w'.side c = Mem.read w.side c

theorem Written.only_refl (x : PageSite) (P : Nat → Prop) (w : Written) : w.Only x P w :=
  ⟨⟨rfl, rfl, rfl, rfl⟩, fun _ _ => ⟨rfl, rfl, fun _ _ _ => rfl⟩, fun _ _ => ⟨rfl, fun _ _ => rfl, fun _ _ => rfl⟩⟩

theorem Written.Only.trans {x : PageSite} {P : Nat → Prop} {w w' w'' : Written} (h : w.Only x P w') (h' : w'.Only x P w'') : w.Only x P w'' := by
  obtain ⟨⟨h1, h2, h3, h4⟩, hs, hf⟩ := h
  obtain ⟨⟨h1', h2', h3', h4'⟩, hs', hf'⟩ := h'
  refine ⟨⟨h1'.trans h1, h2'.trans h2, h3'.trans h3, h4'.trans h4⟩, fun n hx => ?_, fun f hx => ?_⟩
  · obtain ⟨hd, hsd, hl⟩ := hs n hx
    obtain ⟨hd', hsd', hl'⟩ := hs' n hx
    exact ⟨hd'.trans hd, hsd'.trans hsd, fun c hc hp => (hl' c hc hp).trans (hl c hc hp)⟩
  · obtain ⟨hl, hd, hsd⟩ := hf f hx
    obtain ⟨hl', hd', hsd'⟩ := hf' f hx
    exact ⟨hl'.trans hl, fun c hp => (hd' c hp).trans (hd c hp), fun c hc => (hsd' c hc).trans (hsd c hc)⟩

/-- The state differs from one before at most by a page's bytes at offsets in `P`, its sideband, FP32 value rows and counters. -/
def State.pageOnly (s : State) (x : PageSite) (P : Nat → Prop) (t : State) : Prop := ∃ w, t = s.wrote w ∧ s.written.Only x P w

theorem State.pageOnly_refl (s : State) (x : PageSite) (P : Nat → Prop) : s.pageOnly x P s := ⟨s.written, rfl, Written.only_refl _ _ _⟩

section

variable {s t : State} {x : PageSite} {P : Nat → Prop} (h : s.pageOnly x P t)

include h

/-- Bytes of the page at offsets in `P` are written. -/
theorem State.pageOnly.writePage (off : Nat) (bs : List Byte) (hp : ∀ a, off ≤ a → a < off + bs.length → P a) : s.pageOnly x P (t.writePage x off bs) := by
  obtain ⟨w, rfl, hw⟩ := h
  have hread : ∀ (m : Mem) (base c : Nat), (∀ a, P a → c ≠ base + a) → Mem.read (Mem.write m (base + off) bs) c = Mem.read m c := fun m base c hc => by
    refine Mem.read_write_out _ _ _ _ ?_
    by_contra hin
    exact hc (c - base) (hp _ (by omega) (by omega)) (by omega)
  cases x with
  | slot n =>
    refine ⟨_, State.wrote_writeLand _ _ _ _, hw.trans ⟨⟨rfl, rfl, rfl, rfl⟩, fun m hm => ?_, fun f hf => by (cases hf)⟩⟩
    cases hm
    exact ⟨rfl, rfl, fun c _ hc => hread _ _ c hc⟩
  | frame f =>
    refine ⟨_, State.wrote_writeHbm _ _ _ _, hw.trans ⟨⟨rfl, rfl, rfl, rfl⟩, fun m hm => by (cases hm), fun g hg => ?_⟩⟩
    cases hg
    exact ⟨rfl, fun c hc => hread _ _ c hc, fun _ _ => rfl⟩

/-- The page's sideband is written. -/
theorem State.pageOnly.setSideOf (b : Nat) : s.pageOnly x P (t.setSideOf x b) := by
  obtain ⟨w, rfl, hw⟩ := h
  have hlen : (leBytes 1024 b).length = 1024 := length_leBytes _ _
  unfold State.setSideOf State.setSlotSide State.setHbmSide
  generalize leBytes 1024 b = bs at hlen ⊢
  cases x with
  | slot n =>
    refine ⟨_, State.wrote_writeLand _ _ _ _, hw.trans ⟨⟨rfl, rfl, rfl, rfl⟩, fun m hm => ?_, fun f hf => by (cases hf)⟩⟩
    cases hm
    exact ⟨rfl, rfl, fun c hc _ => Mem.read_write_out _ _ _ _ (by omega)⟩
  | frame f =>
    refine ⟨_, State.wrote_writeSide _ _ _ _, hw.trans ⟨⟨rfl, rfl, rfl, rfl⟩, fun m hm => by (cases hm), fun g hg => ?_⟩⟩
    cases hg
    exact ⟨rfl, fun _ _ => rfl, fun c hc => Mem.read_write_out _ _ _ _ (by omega)⟩

/-- A block exponent is written. -/
theorem State.pageOnly.writeExp (byte v : Nat) : s.pageOnly x P (t.writeExp x byte v) := State.pageOnly.setSideOf h _

/-- FP32 value rows are kept. -/
theorem State.pageOnly.stage (g : Sparse W32) : s.pageOnly x P { t with land := { t.land with staging := g } } := by
  obtain ⟨w, rfl, hw⟩ := h
  exact ⟨{ w with stag := g }, rfl, hw.trans ⟨⟨rfl, rfl, rfl, rfl⟩, fun _ _ => ⟨rfl, rfl, fun _ _ _ => rfl⟩, fun _ _ => ⟨rfl, fun _ _ => rfl, fun _ _ => rfl⟩⟩⟩

/-- An event is counted. -/
theorem State.pageOnly.count (c : Counters) : s.pageOnly x P (t.withCtr c) := by
  obtain ⟨w, rfl, hw⟩ := h
  exact ⟨_, State.wrote_withCtr _ _ _, hw.trans ⟨⟨rfl, rfl, rfl, rfl⟩, fun _ _ => ⟨rfl, rfl, fun _ _ _ => rfl⟩, fun _ _ => ⟨rfl, fun _ _ => rfl, fun _ _ => rfl⟩⟩⟩

end

end Sys2Proof.Machine

end

/-! ### Rows of a position -/

section

namespace Sys2Proof.Machine

/-- Elements of 4 bits share their bytes. -/
theorem elemBytes_nibbles (n : Nat) : elemBytes 5 n = (n * 4 + 7) / 8 := rfl

/-- Elements of every other format take whole bytes. -/
theorem elemBytes_whole {fmt : Nat} (h : fmt ≠ 5) (n : Nat) : elemBytes fmt n = n * (fmtBits fmt / 8) := by
  have hbits : fmtBits fmt = 8 * (fmtBits fmt / 8) := by
    unfold fmtBits
    split
    · rfl
    · split
      · rfl
      · split <;> rfl
  rw [elemBytes, hbits, Nat.mul_div_cancel_left _ (by decide), Nat.mul_left_comm]
  omega

/-- Packed elements fill the bytes of as many elements. -/
theorem length_packCodes (fmt : Nat) : ∀ cs : List Nat, (packCodes fmt cs).length = elemBytes fmt cs.length
  | [] => by simp [packCodes, elemBytes]
  | [a] => by
    by_cases h : fmt = 5
    · simp [packCodes, h, elemBytes_nibbles]
    · simp [packCodes, h, elemBytes_whole h]
  | a :: b :: cs => by
    have ih := length_packCodes fmt cs
    by_cases h : fmt = 5
    · subst h
      rw [elemBytes_nibbles] at ih ⊢
      simp only [packCodes, if_true, List.length_cons, ih]
      omega
    · rw [elemBytes_whole h] at ih ⊢
      simp only [packCodes, if_neg h, List.length_append, length_leBytes, ih, List.length_cons, Nat.add_mul]
      omega

theorem elemBytes_mono (fmt : Nat) {m n : Nat} (h : m ≤ n) : elemBytes fmt m ≤ elemBytes fmt n :=
  Nat.div_le_div_right (Nat.add_le_add_right (Nat.mul_le_mul_right _ h) _)

/-- Elements taken one by one, with a state carried on. -/
theorem length_foldl_append {α β δ : Type} (f : δ → α → β) (g : δ → α → δ) (l : List α) (a : List β × δ) :
    (l.foldl (fun (a : List β × δ) p => (a.1 ++ [f a.2 p], g a.2 p)) a).1.length = a.1.length + l.length := by
  induction l generalizing a with
  | nil => rfl
  | cons x l ih => rw [List.foldl_cons, ih, List.length_append, List.length_singleton, List.length_cons]; omega

theorem length_convertBlock (f : Fp) (ieee : Bool) (xs : List Num) (ms : List Rnd) : (convertBlock f ieee xs ms).2.1.length ≤ xs.length := by
  unfold convertBlock
  dsimp only
  split
  · simp
  · simp only [List.length_map, List.length_zip]
    omega

/-- A conversion gives no more elements than it takes. -/
theorem length_convertRun (s : State) (core fmt : Nat) (blocked stoch : Bool) (rcp : Nat) (lane : Nat → Nat) (vs : List Nat) (g : Drain) :
    (s.convertRun core fmt blocked stoch rcp lane vs g).1.length ≤ vs.length := by
  have hmodes : ∀ (xs : List Num) (g : Drain), (((List.range xs.length).zip xs).foldl (fun (a : List (Num × Rnd) × Drain) p =>
      (a.1 ++ [(p.2, (a.2.mode s.srSeedImage core (lane p.1) (stoch && fmt != 0)).1)], (a.2.mode s.srSeedImage core (lane p.1) (stoch && fmt != 0)).2))
        ([], g)).1.length = xs.length := fun xs g => by
    refine (length_foldl_append (fun (d : Drain) (p : Nat × Num) => (p.2, (d.mode s.srSeedImage core (lane p.1) (stoch && fmt != 0)).1))
      (fun d p => (d.mode s.srSeedImage core (lane p.1) (stoch && fmt != 0)).2) _ _).trans ?_
    simp
  unfold State.convertRun State.convertNums
  dsimp only
  split
  · refine (length_convertBlock _ _ _ _).trans ?_
    rw [List.length_map, hmodes, List.length_map, List.length_map]
  · rw [List.length_map, List.length_map, hmodes, List.length_map, List.length_map]

/-- The bytes of a block of the key row belong to the position. -/
theorem positionByte_key (s : State) {i b : Nat} {codes : List Nat} {d n : Nat} (hd : d = s.headDim)
    (hn : n = if blkLen (s.streamFmt 2).2 = 0 then s.headDim else blkLen (s.streamFmt 2).2) (hb : b < d / n) (hc : codes.length ≤ n) (a : Nat)
    (h1 : i * elemBytes (s.streamFmt 2).1 d + elemBytes (s.streamFmt 2).1 (b * n) ≤ a)
    (h2 : a < i * elemBytes (s.streamFmt 2).1 d + elemBytes (s.streamFmt 2).1 (b * n) + (packCodes (s.streamFmt 2).1 codes).length) : positionByte s i a := by
  subst hd
  subst hn
  rw [length_packCodes] at h2
  exact .inl ⟨b, hb, h1, Nat.lt_of_lt_of_le h2 (Nat.add_le_add_left (elemBytes_mono _ hc) _)⟩

/-- The key row of a position changes no byte of another. -/
theorem State.writeKey_pageOnly (s : State) (core : Nat) (x : PageSite) (i : Nat) (key : List Nat) (sK : Nat) (g : Drain) :
    s.pageOnly x (positionByte s i) (s.writeKey core x i key sK g).1 := by
  unfold State.writeKey
  dsimp only
  generalize hn : (if blkLen (s.streamFmt 2).2 = 0 then s.headDim else blkLen (s.streamFmt 2).2) = n
  refine List.foldlRecOn (motive := fun a : State × Drain => s.pageOnly x (positionByte s i) a.1) _ _ (s.pageOnly_refl _ _) fun a ha b hb => ?_
  have hrun := length_convertRun s core (s.streamFmt 2).1 (decide (blkLen (s.streamFmt 2).2 ≠ 0)) s.kvStoch (div32 s.ovf one32 sK).1 (colLane (b * n))
    ((key.drop (b * n)).take n) a.2
  have hwrite := ha.writePage (i * elemBytes (s.streamFmt 2).1 s.headDim + elemBytes (s.streamFmt 2).1 (b * n)) (packCodes (s.streamFmt 2).1 _)
    (positionByte_key s rfl hn.symm (List.mem_range.mp hb) (hrun.trans (List.length_take_le _ _)))
  split
  · exact hwrite
  · exact hwrite.setSideOf _

/-- One value element changes no byte of another position. -/
theorem State.pageOnly.writeElem {s t : State} {x : PageSite} {i j : Nat} (h : s.pageOnly x (positionByte s i) t) (hj : j < s.headDim)
    (hb : blkLen (s.streamFmt 3).2 = 0) (code : Nat) :
    s.pageOnly x (positionByte s i) (t.writeElem x (s.streamFmt 3).1 (8192 + elemBytes (s.streamFmt 3).1 (j * s.pagePositions)) i code) := by
  have hbyte : ∀ a, 8192 + elemBytes (s.streamFmt 3).1 (j * s.pagePositions) +
        (if (s.streamFmt 3).1 = 5 then i / 2 else i * (fmtBits (s.streamFmt 3).1 / 8)) ≤ a →
      a < 8192 + elemBytes (s.streamFmt 3).1 (j * s.pagePositions) +
        (if (s.streamFmt 3).1 = 5 then i / 2 + 1 else i * (fmtBits (s.streamFmt 3).1 / 8) + fmtBits (s.streamFmt 3).1 / 8) → positionByte s i a := fun a h1 h2 =>
    .inr ⟨j, hj, by rw [if_pos hb]; exact ⟨h1, h2⟩⟩
  unfold State.writeElem
  split
  · rename_i h5
    rw [if_pos h5, if_pos h5] at hbyte
    exact h.writePage _ _ fun a h1 h2 => hbyte a h1 h2
  · rename_i h5
    rw [if_neg h5, if_neg h5] at hbyte
    exact h.writePage _ _ fun a h1 h2 => hbyte a h1 (by rw [length_leBytes] at h2; omega)

/-- The bytes of a finished value group belong to its last position. -/
theorem positionByte_group (s : State) {i j : Nat} {codes : List Nat} (hj : j < s.headDim) (hb : blkLen (s.streamFmt 3).2 ≠ 0) (hi : i % 32 = 31)
    (hc : codes.length ≤ 32) (a : Nat) (h1 : 8192 + elemBytes (s.streamFmt 3).1 (j * s.pagePositions + (i - 31)) ≤ a)
    (h2 : a < 8192 + elemBytes (s.streamFmt 3).1 (j * s.pagePositions + (i - 31)) + (packCodes (s.streamFmt 3).1 codes).length) : positionByte s i a := by
  rw [length_packCodes] at h2
  refine .inr ⟨j, hj, ?_⟩
  rw [if_neg hb]
  exact ⟨hi, h1, Nat.lt_of_lt_of_le h2 (Nat.add_le_add_left (elemBytes_mono _ hc) _)⟩

/-- The value elements of a position change no byte of another. -/
theorem State.writeVal_pageOnly (s t : State) (core : Nat) (x : PageSite) (i : Nat) (val : List Nat) (sV : Nat) (g : Drain)
    (hfmt : t.streamFmt 3 = s.streamFmt 3) (hdim : t.headDim = s.headDim) (hpp : t.pagePositions = s.pagePositions)
    (h : s.pageOnly x (positionByte s i) t) : s.pageOnly x (positionByte s i) (t.writeVal core x i val sV g).1 := by
  unfold State.writeVal
  simp only [hfmt, hdim, hpp]
  split
  · rename_i hb
    exact List.foldlRecOn (motive := s.pageOnly x (positionByte s i)) _ _ h fun a ha p hp =>
      ha.writeElem (List.mem_range.mp (List.of_mem_zip hp).1) hb _
  · rename_i hb
    split
    · exact h.stage _
    · rename_i hi
      refine State.pageOnly.stage (State.pageOnly.count ?_ _) _
      refine List.foldlRecOn (motive := fun a : State × Drain => s.pageOnly x (positionByte s i) a.1) _ _ (h.stage _) fun a ha j hj => ?_
      dsimp only
      refine State.pageOnly.writeExp (ha.writePage _ _ (positionByte_group s (List.mem_range.mp hj) hb (Decidable.not_not.mp hi) ?_)) _ _
      refine (length_convertBlock _ _ _ _).trans ?_
      rw [List.length_map, List.length_map, List.length_range]

end Sys2Proof.Machine

end

/-! ### A position written -/

section

namespace Sys2Proof.Machine

theorem State.raiseAll_flags (s : State) (core : Nat) (rid : Option Nat) (fs : List Flags) : s.flags (s.raiseAll core rid fs) :=
  List.foldlRecOn fs _ (motive := s.flags) s.flags_refl fun _ h _ _ => h.trans (State.raiseFlags_flags _ _ _ _ _)

/-- Cores with the generators of one. -/
def drained (cs : Sparse Core) (core : Nat) (g : Drain) : Sparse Core := Sparse.set {} cs core { Sparse.get {} cs core with gens := g.gens }

theorem drained_gens (cs : Sparse Core) (core : Nat) (g : Drain) : (Sparse.get {} (drained cs core g) core).gens = g.gens :=
  congrArg Core.gens (Sparse.get_set_self _ _ _ _)

theorem drained_other (cs : Sparse Core) {core k : Nat} (g : Drain) (h : k ≠ core) : Sparse.get {} (drained cs core g) k = Sparse.get {} cs k :=
  Sparse.get_set_ne _ _ _ _ _ h

/-- The parts with the generators of a core put back. -/
def Written.drain (w : Written) (core : Nat) (g : Drain) (fl : List (Nat × Nat)) (c : Counters) : Written :=
  { w with cores := drained w.cores core g, flags := fl, ctr := c }

/-- The parts with other slots. -/
def Written.withSlots (w : Written) (x : Sparse Slot) : Written := { w with slots := x }

/-- The parts with other Landing bytes. -/
def Written.withLand (w : Written) (m : Mem) : Written := { w with land := m }

/-- The parts with other sidebands of HBM. -/
def Written.withSide (w : Written) (m : Mem) : Written := { w with side := m }

/-- The parts with other sequences. -/
def Written.withSeqs (w : Written) (qs : List Seq) : Written := { w with seqs := qs }

/-- A core's generators are put back; flags and counters aside, nothing else changes. -/
theorem State.wrote_endDrain (s : State) (w : Written) (core : Nat) (rid : Option Nat) (g : Drain) : ∃ fl c, (s.wrote w).endDrain core rid g =
    s.wrote (w.drain core g fl c) := by
  obtain ⟨fl, c, hflags⟩ := State.raiseAll_flags (s.wrote (w.drain core g w.flags w.ctr)) core rid g.fls
  refine ⟨fl, ((s.wrote (w.drain core g fl c)).coreCount core 20 g.draws).ctr, ?_⟩
  have hset : (s.wrote w).setCore core { (s.wrote w).core core with gens := g.gens } = s.wrote (w.drain core g w.flags w.ctr) := rfl
  have hfl : (s.wrote (w.drain core g w.flags w.ctr)).withFlags fl c = s.wrote (w.drain core g fl c) := rfl
  rw [State.endDrain, hset, hflags, hfl]
  rfl

/-- A frame's sideband written counts as many positions as the image written, and no other frame's sideband changes. -/
theorem State.wrote_setHbmSide (s : State) (w : Written) (f b : Nat) : ∃ side, (s.wrote w).setHbmSide f b = s.wrote (w.withSide side) ∧
    sbFill (Mem.num side (f * 1024) 1024) = sbFill b ∧ ∀ c, c / 1024 ≠ f → Mem.read side c = Mem.read w.side c := by
  refine ⟨Mem.write w.side (f * 1024) (leBytes 1024 b), State.wrote_writeSide _ _ _ _, ?_, fun c hc => read_side_write_of_ne _ _ _ _ hc⟩
  rw [Mem.num_write_leBytes]
  exact sbField_mod _ _ _ _ (by decide)

/-- A slot's sideband written changes its last 1,024 bytes alone. -/
theorem State.wrote_setSlotSide (s : State) (w : Written) (n b : Nat) : ∃ land, (s.wrote w).setSlotSide n b = s.wrote (w.withLand land) ∧
    ∀ c, ¬(n * 17408 + 16384 ≤ c ∧ c < (n + 1) * 17408) → Mem.read land c = Mem.read w.land c :=
  ⟨Mem.write w.land (n * 17408 + 16384) (leBytes 1024 b), State.wrote_writeLand _ _ _ _,
    fun c hc => Mem.read_write_out _ _ _ _ (by rw [length_leBytes]; omega)⟩

/-- A page's sideband with FILL, or as its last position completes it. -/
theorem sbFill_put (b n : Nat) : sbFill (sbPut b 4452 9 n) = n % 512 := sbField_sbPut_same _ _ _ _

theorem sbFill_sealed (b first n layer head : Nat) : sbFill (sbPut (sbPut (sbPut (sbPut b 4416 36 first) 4452 9 n) 4467 8 layer) 4461 6 head) = n % 512 := by
  rw [sbFill, sbField_sbPut_beside _ _ _ _ _ _ (by decide), sbField_sbPut_beside _ _ _ _ _ _ (by decide), sbField_sbPut_same]
  rfl

/-- What follows the rows of a position: generators, FILL, the complete sideband of a full page, and the staged positions. -/
def State.finishPosition (s : State) (core rid : Nat) (x : PageSite) (q : Seq) (layer head pos pp : Nat) (g : Drain) : State :=
  let s := (s.endDrain core (some rid) g).setFill x (pos % pp + 1)
  let s := if pos % pp + 1 = pp then s.sealPage x q layer head (pos / pp) else s
  let fill := s.runFill q.handle (pos / pp * pp) (pos % pp + 1)
  s.updSeq q.handle fun q => { q with kvStaged := max q.kvStaged (pos / pp * pp + fill) }

/-- The sideband of a page that its last position completes. -/
def State.sealed (s : State) (x : PageSite) (q : Seq) (layer head run : Nat) : Nat :=
  sbPut (sbPut (sbPut (sbPut (sbPut (s.sideOf x) 4352 64 (runHash q.salt s.pagePositions (q.log ++ q.logStaged) run).toNat) 4416 36
    (run * s.pagePositions)) 4452 9 s.pagePositions) 4467 8 layer) 4461 6 head

theorem State.sealPage_slot (s : State) (n : Nat) (q : Seq) (layer head run : Nat) :
    s.sealPage (.slot n) q layer head run = s.setSlotSide n (s.sealed (.slot n) q layer head run) := by
  rw [State.sealPage, State.sealed, State.setSideOf]

theorem State.sealPage_frame (s : State) (f : Nat) (q : Seq) (layer head run : Nat) :
    s.sealPage (.frame f) q layer head run = s.setHbmSide f (s.sealed (.frame f) q layer head run) := by
  rw [State.sealPage, State.sealed, State.setSideOf]

/-- The staged positions of a sequence reach at least `m`. -/
def Seq.stagedTo (m : Nat) (q : Seq) : Seq := { q with kvStaged := max q.kvStaged m }

/-- Sequences with the staged positions of one. -/
def stagedSeqs (h : W32) (m : Nat) (qs : List Seq) : List Seq := qs.map fun q => if q.handle = h ∧ !q.closing then q.stagedTo m else q

theorem State.wrote_stagedTo (s : State) (w : Written) (h : W32) (m : Nat) :
    ((s.wrote w).updSeq h fun q => { q with kvStaged := max q.kvStaged m }) = s.wrote (w.withSeqs (stagedSeqs h m w.seqs)) := rfl

/-- A slot with its fill. -/
def filledSlots (x : Sparse Slot) (n k : Nat) : Sparse Slot := Sparse.set {} x n { Sparse.get {} x n with fill := k }

/-- From the parts `w` to `w'` a position has been finished: a core's generators are put back, and a sequence's staged positions do not fall. -/
structure Written.Finished (core : Nat) (g : Drain) (h : W32) (w w' : Written) : Prop where
  data  : w'.data = w.data
  stag  : w'.stag = w.stag
  cores : w'.cores = drained w.cores core g
  seqs  : ∃ m, w'.seqs = stagedSeqs h m w.seqs

theorem filledSlots_fill (x : Sparse Slot) (n k : Nat) : (Sparse.get {} (filledSlots x n k) n).fill = k :=
  congrArg Slot.fill (Sparse.get_set_self _ _ _ _)

theorem filledSlots_other (x : Sparse Slot) {n m : Nat} (k : Nat) (h : m ≠ n) : Sparse.get {} (filledSlots x n k) m = Sparse.get {} x m :=
  Sparse.get_set_ne _ _ _ _ _ h

/-- A position of a slot is finished in its descriptor and its sideband. -/
theorem State.finishPosition_slot (s : State) (w : Written) (core rid n : Nat) (q : Seq) (layer head pos pp : Nat) (g : Drain) : ∃ w',
    (s.wrote w).finishPosition core rid (.slot n) q layer head pos pp g = s.wrote w' ∧ w.Finished core g q.handle w' ∧
      w'.side = w.side ∧ w'.slots = filledSlots w.slots n (pos % pp + 1) ∧
      ∀ c, ¬(n * 17408 + 16384 ≤ c ∧ c < (n + 1) * 17408) → Mem.read w'.land c = Mem.read w.land c := by
  obtain ⟨fl, c, hdrain⟩ := s.wrote_endDrain w core (some rid) g
  have hfill : (s.wrote (w.drain core g fl c)).setFill (.slot n) (pos % pp + 1) =
      s.wrote ((w.drain core g fl c).withSlots (filledSlots w.slots n (pos % pp + 1))) := rfl
  unfold State.finishPosition
  dsimp only
  rw [hdrain, hfill]
  split
  · obtain ⟨land, hside, hread⟩ := s.wrote_setSlotSide ((w.drain core g fl c).withSlots (filledSlots w.slots n (pos % pp + 1))) n
      (State.sealed (s.wrote ((w.drain core g fl c).withSlots (filledSlots w.slots n (pos % pp + 1)))) (.slot n) q layer head (pos / pp))
    rw [State.sealPage_slot, hside, State.wrote_stagedTo]
    exact ⟨_, rfl, ⟨rfl, rfl, rfl, _, rfl⟩, rfl, rfl, hread⟩
  · rw [State.wrote_stagedTo]
    exact ⟨_, rfl, ⟨rfl, rfl, rfl, _, rfl⟩, rfl, rfl, fun _ _ => rfl⟩

/-- A position of a frame is finished in its sideband. -/
theorem State.finishPosition_frame (s : State) (w : Written) (core rid f : Nat) (q : Seq) (layer head pos : Nat) (g : Drain) : ∃ w',
    (s.wrote w).finishPosition core rid (.frame f) q layer head pos s.pagePositions g = s.wrote w' ∧ w.Finished core g q.handle w' ∧
      w'.land = w.land ∧ w'.slots = w.slots ∧ sbFill (Mem.num w'.side (f * 1024) 1024) = (pos % s.pagePositions + 1) % 512 ∧
      ∀ c, c / 1024 ≠ f → Mem.read w'.side c = Mem.read w.side c := by
  obtain ⟨fl, c, hdrain⟩ := s.wrote_endDrain w core (some rid) g
  obtain ⟨side, hfill, hsb, hread⟩ := s.wrote_setHbmSide (w.drain core g fl c) f
    (sbPut ((s.wrote (w.drain core g fl c)).hbmSide f) 4452 9 (pos % s.pagePositions + 1))
  rw [sbFill_put] at hsb
  unfold State.finishPosition
  dsimp only
  rw [hdrain, State.setFill, hfill]
  split
  · rename_i hfull
    obtain ⟨side', hside, hsb', hread'⟩ := s.wrote_setHbmSide ((w.drain core g fl c).withSide side) f
      (State.sealed (s.wrote ((w.drain core g fl c).withSide side)) (.frame f) q layer head (pos / s.pagePositions))
    rw [State.sealPage_frame, hside, State.wrote_stagedTo]
    refine ⟨_, rfl, ⟨rfl, rfl, rfl, _, rfl⟩, rfl, rfl, ?_, fun c hc => (hread' c hc).trans (hread c hc)⟩
    rw [State.sealed, sbFill_sealed] at hsb'
    rw [hfull]
    exact hsb'
  · rw [State.wrote_stagedTo]
    exact ⟨_, rfl, ⟨rfl, rfl, rfl, _, rfl⟩, rfl, rfl, hsb, hread⟩

end Sys2Proof.Machine

end

/-! ### TAIL_APPEND and SCATTER -/

section

namespace Sys2Proof.Machine

/-- A position's rows as they stand written, and the drain state after them. -/
def State.rowsWritten (s : State) (core : Nat) (x : PageSite) (pos : Nat) (key val : List W32) (sK sV : W32) : State × Drain :=
  let a := s.writeKey core x (pos % s.pagePositions) (key.map BitVec.toNat) sK.toNat (s.drainOf core)
  a.1.writeVal core x (pos % s.pagePositions) (val.map BitVec.toNat) sV.toNat a.2

theorem State.rowsWritten_def (s : State) (core : Nat) (x : PageSite) (pos : Nat) (key val : List W32) (sK sV : W32) :
    (s.writeKey core x (pos % s.pagePositions) (key.map BitVec.toNat) sK.toNat (s.drainOf core)).1.writeVal core x (pos % s.pagePositions)
      (val.map BitVec.toNat) sV.toNat (s.writeKey core x (pos % s.pagePositions) (key.map BitVec.toNat) sK.toNat (s.drainOf core)).2 =
    s.rowsWritten core x pos key val sK sV := rfl

theorem State.writePosition_eq (s : State) (core rid : Nat) (x : PageSite) (q : Seq) (layer head pos : Nat) (key val : List W32) (sK sV : W32) :
    s.writePosition core rid x q layer head pos key val sK sV =
      (s.rowsWritten core x pos key val sK sV).1.finishPosition core rid x q layer head pos s.pagePositions (s.rowsWritten core x pos key val sK sV).2 := rfl

/-- Rows change no byte of another position. -/
theorem State.rowsWritten_pageOnly (s : State) (core : Nat) (x : PageSite) (pos : Nat) (key val : List W32) (sK sV : W32) :
    s.pageOnly x (positionByte s (pos % s.pagePositions)) (s.rowsWritten core x pos key val sK sV).1 := by
  have hkey := s.writeKey_pageOnly core x (pos % s.pagePositions) (key.map BitVec.toNat) sK.toNat (s.drainOf core)
  unfold State.rowsWritten
  dsimp only
  generalize s.writeKey core x (pos % s.pagePositions) (key.map BitVec.toNat) sK.toNat (s.drainOf core) = a at hkey ⊢
  obtain ⟨w, hw, -⟩ := id hkey
  exact s.writeVal_pageOnly a.1 core x _ _ _ _ (by rw [hw]; rfl) (by rw [hw]; rfl) (by rw [hw]; rfl) hkey

/-- The live sequence once its staged positions have grown. -/
theorem State.seq_staged {s t : State} {q : Seq} {m : Nat} (hq : s.seq q.handle = some q) (ht : t.seqs = stagedSeqs q.handle m s.seqs) :
    t.seq q.handle = some (q.stagedTo m) := by
  have hlive := s.seq_updSeq_self q.handle (Seq.stagedTo m) (fun _ => ⟨rfl, rfl⟩) hq
  rw [State.seq, ht]
  exact hlive

theorem Seq.stagedTo_stageEdit (q : Seq) (m t v : Nat) (e : W64) (fresh : List Nat) :
    (q.stagedTo m).stageEdit t v e fresh = { q.stageEdit t v e fresh with kvStaged := max q.kvStaged m } := by
  have hv : (q.stagedTo m).vpages = q.vpages := rfl
  unfold Seq.stageEdit
  rw [hv]
  split
  · rfl
  · rfl

/-- Staged positions take no frame of the reserve. -/
theorem State.freshReserve_staged (s : State) (w : Written) (h : W32) (m k : Nat) : (s.wrote (w.withSeqs (stagedSeqs h m s.seqs))).freshReserve k = s.freshReserve k := by
  have hnodes : (stagedSeqs h m s.seqs).flatMap (fun q => q.nodes.map Prod.fst) = s.seqs.flatMap fun q => q.nodes.map Prod.fst := by
    rw [stagedSeqs, List.flatMap_map]
    refine List.flatMap_congr fun q _ => ?_
    split <;> rfl
  have hused : (s.wrote (w.withSeqs (stagedSeqs h m s.seqs))).reserveUsed = s.reserveUsed := by
    rw [State.reserveUsed, State.reserveUsed, ← hnodes]
    rfl
  rw [State.freshReserve, hused]
  rfl

section

variable {s : State} {w w' : Written} {core : Nat} {g : Drain}

theorem State.wrote_hbm (hd : w'.data = s.hbm.data) (hs : w'.side = s.hbm.side) : (s.wrote w').hbm = s.hbm := by
  simp only [State.wrote, hd, hs]

theorem State.wrote_land (hs : w'.stag = w.stag) :
    (s.wrote w').land = { s.land with data := (s.wrote w').land.data, slots := (s.wrote w').land.slots, staging := (s.wrote w).land.staging } := by
  simp only [State.wrote, hs]

theorem State.wrote_gens (hc : w'.cores = drained s.cores core g) : ((s.wrote w').core core).gens = g.gens :=
  (congrArg (fun x => (Sparse.get {} x core).gens) hc).trans (drained_gens _ _ _)

theorem State.wrote_otherCore (hc : w'.cores = drained s.cores core g) {k : Nat} (hk : k ≠ core) : (s.wrote w').core k = s.core k :=
  (congrArg (fun x => Sparse.get ({} : Core) x k) hc).trans (drained_other _ _ hk)

end

/-- The leaf of a page written to a frame is staged, unless the page list of `s` names the frame. -/
def State.stageLeaf (t s : State) (q : Seq) (f v : Nat) : State :=
  if leafTier (q.entryNow s.tick.num v) = 0 ∧ leafFrame (q.entryNow s.tick.num v) = f then t
  else t.stageEdit t.tick.num q.handle v (leafHbm f false true (t.sinkPage v) false)

theorem State.stageLeaf_staged {s : State} {w : Written} {m : Nat} (q : Seq) (f v : Nat) (hq : s.seq q.handle = some q)
    (hw : w.seqs = stagedSeqs q.handle m s.seqs) : ∃ qs, (s.wrote w).stageLeaf s q f v = s.wrote (w.withSeqs qs) ∧
      ∃ u, (s.wrote (w.withSeqs qs)).seq q.handle = some u ∧ q.kvStaged ≤ u.kvStaged ∧
        u = { (if leafTier (q.entryNow s.tick.num v) = 0 ∧ leafFrame (q.entryNow s.tick.num v) = f then q
          else q.stageEdit s.tick.num v (leafHbm f false true (s.sinkPage v) false) (s.freshReserve 5)) with kvStaged := u.kvStaged } := by
  have hlive : (s.wrote w).seq q.handle = some (q.stagedTo m) := State.seq_staged hq hw
  have hfresh : (s.wrote w).freshReserve 5 = s.freshReserve 5 := by
    have hwith : w = w.withSeqs (stagedSeqs q.handle m s.seqs) := by rw [← hw]; rfl
    rw [hwith]
    exact s.freshReserve_staged w q.handle m 5
  unfold State.stageLeaf
  split
  · exact ⟨w.seqs, rfl, q.stagedTo m, hlive, Nat.le_max_left _ _, rfl⟩
  · have hsink : (s.wrote w).sinkPage v = s.sinkPage v := rfl
    have htick : (s.wrote w).tick.num = s.tick.num := rfl
    rw [State.stageEdit, hfresh, hsink, htick, State.wrote_updSeq]
    have hedit := (s.wrote w).seq_updSeq_self q.handle (fun q => q.stageEdit s.tick.num v (leafHbm f false true (s.sinkPage v) false) (s.freshReserve 5))
      (fun q => q.stageEdit_handle _ _ _ _) hlive
    refine ⟨_, rfl, _, hedit, ?_, ?_⟩
    · rw [Seq.stagedTo_stageEdit]
      exact Nat.le_max_left _ _
    · rw [Seq.stagedTo_stageEdit]

/-- A position of a slot. -/
theorem State.putPosition_slot (s : State) (core rid n : Nat) (q : Seq) (layer head pos : Nat) (key val : List W32) (sK sV : W32)
    (hq : s.seq q.handle = some q) :
    positionWritten s (s.putPosition core rid (.slot n) q layer head pos key val sK sV) (.slot n) q core layer head pos key val sK sV := by
  obtain ⟨w, hb, ⟨hseqs, hcores, -, hslots⟩, hsite, -⟩ := s.rowsWritten_pageOnly core (.slot n) pos key val sK sV
  obtain ⟨hdata, hside, hland⟩ := hsite n rfl
  have hput : s.putPosition core rid (.slot n) q layer head pos key val sK sV = s.writePosition core rid (.slot n) q layer head pos key val sK sV := rfl
  rw [hput, State.writePosition_eq]
  unfold positionWritten
  dsimp only
  rw [State.rowsWritten_def]
  generalize s.rowsWritten core (.slot n) pos key val sK sV = b at hb ⊢
  obtain ⟨t, g⟩ := b
  subst hb
  obtain ⟨w', hfin, ⟨hdata', hstag', hcores', m, hseqs'⟩, hside', hslots', hland'⟩ := s.finishPosition_slot w core rid n q layer head pos s.pagePositions g
  rw [hcores] at hcores'
  rw [hseqs] at hseqs'
  rw [hslots] at hslots'
  rw [hfin]
  refine ⟨rfl, hdata', State.wrote_land hstag', State.wrote_gens hcores', fun k hk => State.wrote_otherCore hcores' hk,
    State.wrote_hbm (hdata'.trans hdata) (hside'.trans hside), ?_, fun k hk => ?_,
    ⟨q.stagedTo m, State.seq_staged hq hseqs', rfl, Nat.le_max_left _ _⟩, fun c hc => ⟨hland' c hc, fun hp => (hland' c hc).trans (hland c hc hp)⟩⟩
  · exact (congrArg (fun x => (Sparse.get {} x n).fill) hslots').trans (filledSlots_fill _ _ _)
  · exact (congrArg (fun x => Sparse.get {} x k) hslots').trans (filledSlots_other _ _ hk)

/-- A position of a frame; its leaf is staged where the page list does not name the frame yet. -/
theorem State.putPosition_frame (s : State) (core rid f : Nat) (q : Seq) (layer head pos : Nat) (key val : List W32) (sK sV : W32)
    (hq : s.seq q.handle = some q) :
    positionWritten s (s.putPosition core rid (.frame f) q layer head pos key val sK sV) (.frame f) q core layer head pos key val sK sV := by
  obtain ⟨w, hb, ⟨hseqs, hcores, -, hslots⟩, -, hsite⟩ := s.rowsWritten_pageOnly core (.frame f) pos key val sK sV
  obtain ⟨hland, hdata, hside⟩ := hsite f rfl
  have hput : s.putPosition core rid (.frame f) q layer head pos key val sK sV =
    (s.writePosition core rid (.frame f) q layer head pos key val sK sV).stageLeaf s q f (s.pageOf pos layer head) := rfl
  rw [hput, State.writePosition_eq]
  unfold positionWritten
  dsimp only
  rw [State.rowsWritten_def]
  generalize s.rowsWritten core (.frame f) pos key val sK sV = b at hb ⊢
  obtain ⟨t, g⟩ := b
  subst hb
  obtain ⟨w', hfin, ⟨hdata', hstag', hcores', m, hseqs'⟩, hland', hslots', hfill', hside'⟩ := s.finishPosition_frame w core rid f q layer head pos g
  rw [hcores] at hcores'
  rw [hseqs] at hseqs'
  rw [hfin]
  obtain ⟨qs, hleaf, u, hu, hmax, hrest⟩ := State.stageLeaf_staged q f (s.pageOf pos layer head) hq hseqs'
  rw [hleaf]
  exact ⟨rfl, hdata', State.wrote_land hstag', State.wrote_gens hcores', fun k hk => State.wrote_otherCore hcores' hk,
    hland'.trans hland, hslots'.trans hslots, hfill', ⟨u, hu, hmax, hrest⟩, fun c hc => (congrArg (Mem.read · c) hdata').trans (hdata c hc),
    fun c hc => (hside' c hc).trans (hside c hc)⟩

theorem State.putPosition_written (s : State) (core rid : Nat) (x : PageSite) (q : Seq) (layer head pos : Nat) (key val : List W32) (sK sV : W32)
    (hq : s.seq q.handle = some q) :
    positionWritten s (s.putPosition core rid x q layer head pos key val sK sV) x q core layer head pos key val sK sV :=
  match x with
  | .slot n => s.putPosition_slot core rid n q layer head pos key val sK sV hq
  | .frame f => s.putPosition_frame core rid f q layer head pos key val sK sV hq

/-- What a position leaves does not speak of counters. -/
theorem positionWritten_withCtr {s t : State} {x : PageSite} {q : Seq} {core layer head pos : Nat} {key val : List W32} {sK sV : W32}
    (h : positionWritten s t x q core layer head pos key val sK sV) (c : Counters) :
    positionWritten s (t.withCtr c) x q core layer head pos key val sK sV := by
  obtain ⟨hframe, hrest⟩ := h
  refine ⟨?_, hrest⟩
  have hctr := congrArg (State.withCtr · c) hframe
  exact hctr

/-- With no corrupt slot, the descriptors are read and nothing is dropped. -/
theorem State.checkSlots_sound {s : State} (h : s.land.slots.all (fun e => !e.2.corrupt) = true) : s.checkSlots = s := by
  have hnone : s.land.slots.filter (fun e => e.2.corrupt) = [] := by
    rw [List.filter_eq_nil_iff]
    intro e he
    have := List.all_eq_true.mp h e he
    simpa using this
  rw [State.checkSlots, hnone]
  rfl

/-- When a position may go to a site. -/
theorem State.mayPut_iff (s : State) (x : PageSite) (q : Seq) (layer head pos : Nat) (key val : List W32) (sK sV : W32) :
    s.mayPut x q layer head pos key val sK sV = true ↔ (key.length = s.headDim ∧ val.length = s.headDim ∧ 0 < s.pagePositions ∧ normalPos32 sK.toNat = true ∧ normalPos32 sV.toNat = true ∧
      s.fillOf x = pos % s.pagePositions ∧ pos < q.lMax ∧ s.notMatched q (s.pageOf pos layer head) pos = true ∧ (pos < q.kvLen ∨ s.seqHeld q.handle = false) ∧
      match x with
      | .slot _ => True
      | .frame f => s.hbmFrameOk f = true ∧ (s.inPlace q (s.pageOf pos layer head) = some f ∨ s.plannedFrame q.handle (s.pageOf pos layer head) = some f) ∧ s.held (.stack (f / 2 ^ 22)) = false) := by
  unfold State.mayPut State.rowsOk State.frameTakes
  cases x with
  | slot n => simp only [Bool.and_eq_true, Bool.or_eq_true, decide_eq_true_eq, beq_iff_eq, Bool.not_eq_true', and_assoc]
  | frame f => simp only [Bool.and_eq_true, Bool.or_eq_true, decide_eq_true_eq, beq_iff_eq, Bool.not_eq_true', and_assoc]

section

variable {s : State} {die core rid layer head pos : Nat} {h sK sV : W32} {key val : List W32} {q : Seq} {x : PageSite}
variable (hc : s.hasCore die core = true) (hw : s.working = true) (hq : s.checkSlots.seq h = some q)

include hc hw hq

/-- TAIL_APPEND where the tail has no site. -/
theorem execTailAppend_none (hx : s.checkSlots.tailSite q layer head pos = none) :
    execTailAppend die core rid h layer head pos key val sK sV s = .next s.checkSlots := by
  rw [execTailAppend, State.onCore_pos hc, if_pos hw]
  dsimp only
  rw [hq]
  dsimp only
  rw [hx]

/-- TAIL_APPEND to a site puts the position where it may, and otherwise changes nothing more. -/
theorem execTailAppend_some (hx : s.checkSlots.tailSite q layer head pos = some x) :
    ∃ c, execTailAppend die core rid h layer head pos key val sK sV s =
      when (s.checkSlots.mayPut x q layer head pos key val sK sV) s.checkSlots
        ((s.checkSlots.putPosition (coreNo die core) rid x q layer head pos key val sK sV).withCtr c) := by
  rw [execTailAppend, State.onCore_pos hc, if_pos hw]
  dsimp only
  rw [hq]
  dsimp only
  rw [hx]
  dsimp only
  rw [hw, Bool.true_and]
  cases x with
  | slot n => exact ⟨_, rfl⟩
  | frame f => exact ⟨_, rfl⟩

/-- SCATTER puts the position into the tail's site, or into the frame given. -/
theorem execScatter_site {frame : Nat} (hx : (s.checkSlots.tailSite q layer head pos).getD (.frame frame) = x) :
    ∃ c, execScatter die core rid h layer head pos key val sK sV frame s =
      when (s.checkSlots.mayPut x q layer head pos key val sK sV) s.checkSlots
        ((s.checkSlots.putPosition (coreNo die core) rid x q layer head pos key val sK sV).withCtr c) := by
  rw [execScatter, State.onCore_pos hc, if_pos hw]
  dsimp only
  rw [hq]
  dsimp only
  rw [hx, hw, Bool.true_and]
  exact ⟨_, rfl⟩

/-- A position that may go to its site is written there by both. -/
theorem tailAppend_written (hx : s.checkSlots.tailSite q layer head pos = some x) (hm : s.checkSlots.mayPut x q layer head pos key val sK sV = true) :
    ∃ t, exec (.tailAppend die core rid h layer head pos key val sK sV) s = .next t ∧
      positionWritten s.checkSlots t x q (coreNo die core) layer head pos key val sK sV := by
  obtain ⟨c, he⟩ := execTailAppend_some (rid := rid) (key := key) (val := val) (sK := sK) (sV := sV) hc hw hq hx
  rw [when_pos hm] at he
  exact ⟨_, he, positionWritten_withCtr (State.putPosition_written _ _ _ _ _ _ _ _ _ _ _ _ ((State.seq_some hq).2.1 ▸ hq)) c⟩

theorem scatter_written {frame : Nat} (hx : (s.checkSlots.tailSite q layer head pos).getD (.frame frame) = x)
    (hm : s.checkSlots.mayPut x q layer head pos key val sK sV = true) :
    ∃ t, exec (.scatter die core rid h layer head pos key val sK sV frame) s = .next t ∧
      positionWritten s.checkSlots t x q (coreNo die core) layer head pos key val sK sV := by
  obtain ⟨c, he⟩ := execScatter_site (rid := rid) (key := key) (val := val) (sK := sK) (sV := sV) hc hw hq hx
  rw [when_pos hm] at he
  exact ⟨_, he, positionWritten_withCtr (State.putPosition_written _ _ _ _ _ _ _ _ _ _ _ _ ((State.seq_some hq).2.1 ▸ hq)) c⟩

/-- A position that may not go to its site changes nothing more. -/
theorem tailAppend_refused {frame : Nat} (hx : x = (s.checkSlots.tailSite q layer head pos).getD (.frame frame))
    (hm : s.checkSlots.mayPut x q layer head pos key val sK sV = false) :
    exec (.tailAppend die core rid h layer head pos key val sK sV) s = .next s.checkSlots := by
  cases hsite : s.checkSlots.tailSite q layer head pos with
  | none => exact execTailAppend_none hc hw hq hsite
  | some y =>
    rw [hsite, Option.getD_some] at hx
    subst hx
    obtain ⟨c, he⟩ := execTailAppend_some (rid := rid) (key := key) (val := val) (sK := sK) (sV := sV) hc hw hq hsite
    exact he.trans (when_neg hm)

theorem scatter_refused {frame : Nat} (hx : x = (s.checkSlots.tailSite q layer head pos).getD (.frame frame))
    (hm : s.checkSlots.mayPut x q layer head pos key val sK sV = false) :
    exec (.scatter die core rid h layer head pos key val sK sV frame) s = .next s.checkSlots := by
  obtain ⟨c, he⟩ := execScatter_site (rid := rid) (key := key) (val := val) (sK := sK) (sV := sV) hc hw hq hx.symm
  exact he.trans (when_neg hm)

end

/-- Settles O48, by the site of the position: rows touch the position's bytes alone, and what finishes the position its descriptor or sideband. -/
theorem positionsWritten : Obligations.PositionsWritten := by
  intro s die core rid layer head pos frame h sK sV key val q hc c
  refine ⟨State.checkSlots_sound, fun hw hq => ⟨fun x hx hm => ⟨tailAppend_written hc hw hq hx hm, scatter_written hc hw hq (by rw [hx]; rfl) hm⟩,
    fun hx => ⟨execTailAppend_none hc hw hq hx, fun hm => scatter_written hc hw hq (by rw [hx]; rfl) hm⟩,
    fun x hx hm => ⟨tailAppend_refused hc hw hq hx hm, scatter_refused hc hw hq hx hm⟩⟩, fun x => State.mayPut_iff _ _ _ _ _ _ _ _ _ _⟩

end Sys2Proof.Machine

end

/-! ### What counting and completing touch -/

section

namespace Sys2Proof.Machine

/-- The two states differ at most in the counters. -/
def State.counts (s t : State) : Prop := ∃ c, t = s.withCtr c

theorem State.counts_refl (s : State) : s.counts s := ⟨s.ctr, rfl⟩

theorem State.counts.trans {s t u : State} (h1 : s.counts t) (h2 : t.counts u) : s.counts u := by
  obtain ⟨c, rfl⟩ := h1
  obtain ⟨d, rfl⟩ := h2
  exact ⟨d, rfl⟩

theorem State.counts_count (s : State) (dom cls index n : Nat) : s.counts (s.count dom cls index n) := ⟨_, rfl⟩

theorem State.counts_linkCount (s : State) (port index n : Nat) : s.counts (s.linkCount port index n) := ⟨_, rfl⟩

theorem State.counts_crewCount (s : State) (index n : Nat) : s.counts (s.crewCount index n) := ⟨_, rfl⟩

theorem State.counts_pulse (s : State) (sel : Nat) : s.counts (s.pulse sel) := ⟨_, rfl⟩

theorem State.counts_ite (s : State) (c : Prop) [Decidable c] {t u : State} (ht : s.counts t) (hu : s.counts u) : s.counts (if c then t else u) := by
  split <;> assumption

/-- A fold of steps that only count only counts. -/
theorem State.counts_foldl {α : Type} (f : State → α → State) (hf : ∀ (s : State) x, s.counts (f s x)) (l : List α) (s : State) : s.counts (l.foldl f s) := by
  induction l generalizing s with
  | nil => exact s.counts_refl
  | cons x l ih => exact (hf s x).trans (ih _)

/-- What a state that differs only in the counters is. -/
theorem State.counts.eq {s t : State} (h : s.counts t) : t = { s with ctr := t.ctr } := by
  obtain ⟨c, rfl⟩ := h
  rfl
/-- The two states differ at most in the host interface, requests and counters. -/
def State.hosts (s t : State) : Prop := ∃ h rs c, t = { s with host := h, reqs := rs, ctr := c }

theorem State.hosts_refl (s : State) : s.hosts s := ⟨s.host, s.reqs, s.ctr, rfl⟩

theorem State.hosts.trans {s t u : State} (h1 : s.hosts t) (h2 : t.hosts u) : s.hosts u := by
  obtain ⟨h, rs, c, rfl⟩ := h1
  obtain ⟨h', rs', c', rfl⟩ := h2
  exact ⟨h', rs', c', rfl⟩

theorem State.hosts_foldl {α : Type} (f : State → α → State) (hf : ∀ (s : State) x, s.hosts (f s x)) (l : List α) (s : State) : s.hosts (l.foldl f s) := by
  induction l generalizing s with
  | nil => exact s.hosts_refl
  | cons x l ih => exact (hf s x).trans (ih _)

theorem State.hosts_pcieCount (s : State) (port index n : Nat) : s.hosts (s.pcieCount port index n) := ⟨s.host, s.reqs, _, rfl⟩

theorem State.hosts_setHostPort (s : State) (p : Nat) (x : HostPort) : s.hosts (s.setHostPort p x) := by
  rw [State.setHostPort]
  split <;> exact ⟨_, s.reqs, s.ctr, rfl⟩

theorem State.hosts_hostErr (s : State) (p b : Nat) : s.hosts (s.hostErr p b) :=
  (s.hosts_setHostPort p _).trans (State.hosts_pcieCount _ _ _ _)

theorem State.hosts_hostWrite (s : State) (p a : Nat) (bs : List Byte) : s.hosts (s.hostWrite p a bs) := ⟨_, s.reqs, _, rfl⟩

theorem State.hosts_setQueue (s : State) (q : Nat) (x : Queue) : s.hosts (s.setQueue q x) := ⟨_, s.reqs, s.ctr, rfl⟩

theorem State.hosts_writeCompletion (s : State) (tick : Nat) (ok : Bool) (r : Req) : s.hosts (s.writeCompletion tick ok r) := by
  unfold State.writeCompletion
  split
  · exact s.hosts_refl
  · dsimp only
    split
    · exact (s.hosts_setQueue _ _).trans ((State.hosts_hostWrite _ _ _ _).trans (State.hosts_pcieCount _ _ _ _))
    · exact (s.hosts_setQueue _ _).trans (State.hosts_hostErr _ _ _)

theorem State.hosts_sendMsix (s : State) (p v : Nat) : s.hosts (s.sendMsix p v) := by
  unfold State.sendMsix
  dsimp only
  split <;> exact ⟨_, s.reqs, _, rfl⟩

theorem State.hosts_sendMessages (s : State) (vs : List (Nat × Nat)) : s.hosts (s.sendMessages vs) := by
  rw [State.sendMessages]
  generalize (List.range 2).flatMap _ = keys
  apply State.hosts_foldl
  intro s pv
  exact s.hosts_sendMsix pv.1 pv.2

/-- The completion of a request that the module's leaving its crew ends. -/
def State.abortOne (s : State) (r : Req) : State :=
  s.writeCompletion s.tick.last true { r with status := 1, result0 := BitVec.ofNat 32 r.tokens, result1 := 0 }

/-- Every request is done. -/
def State.allDone (s : State) : State := { s with reqs := s.reqs.map fun r => { r with stage := .done } }

theorem State.abortAll_eq (s : State) : ∃ vs, s.abortAll = (((s.reqs.filter Req.live).foldl State.abortOne s).sendMessages vs).allDone := ⟨_, rfl⟩

/-- A module that leaves its crew writes completions, and touches nothing else for them. -/
theorem State.hosts_abortAll (s : State) : s.hosts s.abortAll := by
  obtain ⟨vs, he⟩ := s.abortAll_eq
  have hdone (u : State) : u.hosts u.allDone := ⟨u.host, _, u.ctr, rfl⟩
  rw [he]
  exact (State.hosts_foldl _ (fun s r => s.hosts_writeCompletion _ _ _) _ s).trans ((State.hosts_sendMessages _ _).trans (hdone _))

/-- A module in FAULT, with what its completions leave of the host interface, requests and counters. -/
def State.faulted (s : State) (cls detail : Nat) (h : HostIf) (rs : List Req) (c : Counters) : State :=
  { s with
    host := h, reqs := rs, ctr := c
    sys := { s.sys with state := .fault, faultClass := BitVec.ofNat 8 cls, faultDetail := BitVec.ofNat 32 detail, departed := false }
    ports := Sparse.mapVals {} (fun _ p => { lost := p.lost, mapChanged := p.mapChanged }) s.ports
    crew := { epoch := s.crew.epoch, claim := s.crew.claim, heldCoord := if s.crew.member then some s.crew.coord else s.crew.heldCoord, rseq := s.crew.rseq }
    tick := { crewTime := s.tick.crewTime, last := s.tick.last } }

theorem State.enterFault_eq (s : State) (cls detail : Nat) : ∃ h rs c, s.enterFault cls detail = s.faulted cls detail h rs c := by
  obtain ⟨h, rs, c, he⟩ : s.hosts (if s.crew.member then s.abortAll else s) := by
    split
    · exact s.hosts_abortAll
    · exact s.hosts_refl
  refine ⟨h, rs, c, ?_⟩
  rw [State.enterFault, he]
  rfl

/-- Ports whose values are each taken to one that is OFF are OFF. -/
theorem port_off (f : Nat → LinkPort → LinkPort) (hf : ∀ n p, (f n p).state = .off) (ps : Sparse LinkPort) (n : Nat) :
    (Sparse.get {} (Sparse.mapVals {} f ps) n).state = .off := by
  have hall : ∀ e ∈ Sparse.mapVals {} f ps, e.2.state = .off := fun e he => by
    obtain ⟨x, -, rfl⟩ := List.mem_map.mp (List.mem_of_mem_filter he)
    exact hf _ _
  generalize Sparse.mapVals {} f ps = m at hall
  induction m with
  | nil => rfl
  | cons e m ih =>
    rw [Sparse.get_cons]
    split
    · exact hall _ List.mem_cons_self
    · exact ih fun x hx => hall x (List.mem_cons_of_mem _ hx)

end Sys2Proof.Machine

end

/-! ### Decoding host commands -/

section

namespace Sys2Proof.Machine

/-- Decoding a command of the merge: a bad field ends it with INVALID_FIELD, and `f` stages any other. -/
theorem State.decodeCmd_takeable {s : State} {rid : Nat} {r : Req} (f : Req → State) (hr : s.req rid = some r) (ht : s.ticking = true)
    (hk : r.takeable = true) :
    s.decodeCmd rid r.opcode f = .next (if Entry.fieldsOk r.entry then f r else s.updReq rid fun q => q.fail 4) := by
  simp [State.decodeCmd, hr, when, ht, hk]

/-- A row that decodes its command refuses bad fields, whatever it stages. -/
theorem refusesBadFields_of_decode {op : Byte} {i : Instr} {rid : Nat} (f : State → Req → State)
    (h : ∀ s r, s.req rid = some r → r.takeable = true → exec i s = s.decodeCmd rid op (f s)) : refusesBadFields op i rid := by
  rintro s r hr ht rfl hk hbad
  rw [h s r hr hk, State.decodeCmd_takeable _ hr ht hk, hbad]
  rfl

/-- A row that decodes its command, and stages it where `ok` holds of the entry. -/
theorem stagesEntry_of_decode {op : Byte} {i : Instr} {rid : Nat} {ok : Entry → Prop} (f : State → Req → State)
    (h : ∀ s r, s.req rid = some r → r.takeable = true → exec i s = s.decodeCmd rid op (f s))
    (hf : ∀ s r, ok r.entry → f s r = s.stageCmd rid) : stagesEntry op i rid ok := by
  rintro s r hr ht rfl hk hgood hok
  rw [h s r hr hk, State.decodeCmd_takeable _ hr ht hk, if_pos hgood, hf s r hok]
  rfl

/-- A command of the merge has not been admitted, so it does not read its data yet. -/
theorem Req.reading_of_takeable {r : Req} (h : r.takeable = true) : r.reading = false := by
  cases hs : r.stage <;> simp_all [Req.takeable, Req.reading]

theorem execAppend_takeable (rid : Nat) (d : HostRead) (s : State) (r : Req) (hr : s.req rid = some r) (hk : r.takeable = true) :
    exec (.append rid d) s = s.decodeCmd rid 0x02 fun _ => s.stageCmd rid := by
  change execAppend rid d s = _
  simp [execAppend, hr, Req.reading_of_takeable hk]

theorem execGenerate_takeable (rid : Nat) (d : HostRead) (s : State) (r : Req) (hr : s.req rid = some r) (hk : r.takeable = true) :
    exec (.generate rid d) s = s.decodeCmd rid 0x03 fun _ => s.stageCmd rid := by
  change execGenerate rid d s = _
  simp [execGenerate, hr, Req.reading_of_takeable hk]

/-- A reserved opcode ends with INVALID_OPCODE. -/
theorem invalidOpcode_refused {s : State} {rid : Nat} {r : Req} (hr : s.req rid = some r) (ht : s.ticking = true) (hk : r.takeable = true)
    (hop : r.opcode = 0 ∨ 0x10 < r.opcode.toNat) :
    exec (.invalidOpcode rid) s = .next (s.updReq rid fun q => { q with stage := .finishing, status := 3 }) := by
  have hc : (s.ticking && r.takeable && (r.opcode == 0 || decide (0x10 < r.opcode.toNat))) = true := by simpa [ht, hk] using hop
  change execInvalidOpcode rid s = _
  rw [execInvalidOpcode, hr]
  exact when_pos hc

theorem fieldChecks : FieldChecks := fun rid _ =>
  ⟨refusesBadFields_of_decode (fun s _ => s.stageCmd rid) fun _ _ _ _ => rfl,
   refusesBadFields_of_decode _ (execAppend_takeable rid _),
   refusesBadFields_of_decode _ (execGenerate_takeable rid _),
   refusesBadFields_of_decode (fun s _ => s.stageCmd rid) fun _ _ _ _ => rfl,
   refusesBadFields_of_decode (fun s _ => s.stageCmd rid) fun _ _ _ _ => rfl,
   refusesBadFields_of_decode (fun s _ => s.stageCmd rid) fun _ _ _ _ => rfl,
   refusesBadFields_of_decode _ fun _ _ _ _ => rfl,
   refusesBadFields_of_decode _ fun _ _ _ _ => rfl,
   refusesBadFields_of_decode _ fun _ _ _ _ => rfl,
   refusesBadFields_of_decode (fun s _ => s.stageCmd rid) fun _ _ _ _ => rfl,
   refusesBadFields_of_decode _ fun _ _ _ _ => rfl,
   refusesBadFields_of_decode _ fun _ _ _ _ => rfl,
   refusesBadFields_of_decode _ fun _ _ _ _ => rfl,
   refusesBadFields_of_decode _ fun _ _ _ _ => rfl,
   refusesBadFields_of_decode _ fun _ _ _ _ => rfl,
   refusesBadFields_of_decode _ fun _ _ _ _ => rfl,
   refusesBadFields_of_decode _ fun _ _ _ _ => rfl,
   refusesBadFields_of_decode (fun s _ => s.stageCmd rid) fun _ _ _ _ => rfl,
   fun _ _ => invalidOpcode_refused⟩

/-- A row that stages every command that it decodes. -/
theorem stagesEntry_always {op : Byte} {i : Instr} {rid : Nat}
    (h : ∀ s r, s.req rid = some r → r.takeable = true → exec i s = s.decodeCmd rid op fun _ => s.stageCmd rid) :
    stagesEntry op i rid (fun _ => True) := stagesEntry_of_decode _ h fun _ _ _ => rfl

theorem commandsStage : CommandsStage := fun rid _ =>
  ⟨stagesEntry_always fun _ _ _ _ => rfl,
   stagesEntry_always (execAppend_takeable rid _),
   stagesEntry_always (execGenerate_takeable rid _),
   stagesEntry_always fun _ _ _ _ => rfl,
   stagesEntry_always fun _ _ _ _ => rfl,
   stagesEntry_always fun _ _ _ _ => rfl,
   stagesEntry_of_decode _ (fun _ _ _ _ => rfl) fun _ _ hk => if_neg (by simpa [Req.e] using hk),
   stagesEntry_of_decode _ (fun _ _ _ _ => rfl) fun _ _ hk => if_pos hk,
   stagesEntry_always fun _ _ _ _ => rfl,
   stagesEntry_always fun _ _ _ _ => rfl⟩

end Sys2Proof.Machine

open Sys2Proof.Machine

/-- Settles O19: every row of a host command is a decoding, which checks the fields first and then stages. -/
theorem commandDecoding : Obligations.CommandDecoding := ⟨fieldChecks, commandsStage⟩

end

/-! ### Throttling -/

section

namespace Sys2Proof.Machine

/-! #### Throttle steps -/

theorem State.counts_countSensors (s : State) (d : Nat) (ts : List Int) : s.counts (s.countSensors d ts) :=
  State.counts_foldl _ (fun s _ => s.counts_count _ _ _ _) _ s

/-- From `s` to `t` die `d` alone has changed, as `g` says. -/
def State.dieBecomes (s t : State) (d : Nat) (g : Die → Die) : Prop :=
  (∃ ds c, t = s.withDies ds c s.freeIx) ∧ ∀ e, t.die e = if e = d then g (s.die e) else s.die e

theorem State.dieBecomes_set (s : State) {t : State} {d : Nat} {x : Die} {g : Die → Die} (h : (s.setDie d x).counts t) (hx : g (s.die d) = x) :
    s.dieBecomes t d g := by
  obtain ⟨c, rfl⟩ := h
  refine ⟨⟨_, c, rfl⟩, fun e => ?_⟩
  change Sparse.get {} (Sparse.set {} s.dies d x) e = _
  rw [Sparse.get_set]
  split
  · subst_vars; rfl
  · rfl

theorem State.dieBecomes_counts (s : State) {t : State} {d : Nat} {g : Die → Die} (h : s.counts t) (hx : g (s.die d) = s.die d) :
    s.dieBecomes t d g := by
  obtain ⟨c, rfl⟩ := h
  refine ⟨⟨s.dies, c, rfl⟩, fun e => ?_⟩
  split
  · subst_vars; exact hx.symm
  · rfl

/-- A step that takes each die of the module in turn changes each die as `g` says, and no other. -/
theorem foldl_dies (s : State) (f : State → Nat → State) (g : Nat → Die → Die)
    (hf : ∀ ds c d, (s.withDies ds c s.freeIx).dieBecomes (f (s.withDies ds c s.freeIx) d) d (g d)) (n : Nat) :
    ∃ ds c, (List.range n).foldl f s = s.withDies ds c s.freeIx ∧ ∀ d, Sparse.get {} ds d = if d < n then g d (s.die d) else s.die d := by
  induction n with
  | zero => exact ⟨s.dies, s.ctr, rfl, fun d => by simp [State.die]⟩
  | succ n ih =>
    obtain ⟨ds, c, hfold, hget⟩ := ih
    obtain ⟨⟨ds', c', hstep⟩, hdie⟩ := hf ds c n
    refine ⟨ds', c', by rw [List.range_succ, List.foldl_append, hfold]; exact hstep, fun d => ?_⟩
    rw [hstep] at hdie
    have hd : Sparse.get {} ds' d = if d = n then g n (Sparse.get {} ds d) else Sparse.get {} ds d := hdie d
    rw [hd, hget d]
    rcases lt_trichotomy d n with h | rfl | h
    · simp [h, h.ne, show d < n + 1 by omega]
    · simp
    · simp [h.ne', show ¬d < n by omega, show ¬d < n + 1 by omega]

/-- A die at an evaluation. -/
def Die.evaluated (hot : Bool) (x : Die) : Die := if hot = true ∧ x.step < 12 then { x with step := x.step + 1 } else x

/-- A die at a raise. -/
def Die.raised (cool : Bool) (x : Die) : Die := if cool = true ∧ 0 < x.step then { x with step := x.step - 1 } else x

theorem State.evaluateDie_becomes (s : State) (r : SensorReadings) (d : Nat) :
    s.dieBecomes (s.evaluateDie r d) d (Die.evaluated (s.throttleCondition r d)) := by
  have hc := (s.counts_countSensors d ((dieReading r d).junction ++ (dieReading r d).hbm)).trans (State.counts_count _ d 0xB (s.die d).step 1000)
  obtain ⟨c, hcount⟩ := hc
  have hstep : s.evaluateDie r d = if s.throttleCondition r d && decide ((s.die d).step < maxStep) then
      ((s.withCtr c).setDie d { s.die d with step := (s.die d).step + 1 }).count d 0xB 13 else s.withCtr c := by
    rw [State.evaluateDie, hcount]
    rfl
  rw [hstep]
  split
  next h => exact s.dieBecomes_set (x := { s.die d with step := (s.die d).step + 1 }) ⟨_, rfl⟩ (if_pos (show _ ∧ _ < maxStep by simpa using h))
  next h => exact s.dieBecomes_counts ⟨c, rfl⟩ (if_neg (show ¬(_ ∧ _ < maxStep) by simpa using h))

theorem State.raiseDie_becomes (s : State) (r : SensorReadings) (d : Nat) :
    s.dieBecomes (s.raiseDie r d) d (Die.raised (s.releaseCondition r d)) := by
  rw [State.raiseDie]
  split
  next h => exact s.dieBecomes_set (State.counts_count _ _ _ _ _) (if_pos (by simpa using h))
  next h => exact s.dieBecomes_counts s.counts_refl (if_neg (by simpa using h))

/-- A die whose step alone changes, when every die of the module is taken as `g` says. -/
theorem dies_stepped {s t : State} {r : SensorReadings} {ds : Sparse Die} {c : Counters} {g : Nat → Die → Die} (ht : t = ({ s with therm := r } : State).withDies ds c s.freeIx)
    (hget : ∀ d, Sparse.get {} ds d = if d < s.nDies then g d (s.die d) else s.die d) (hg : ∀ d x, g d x = { x with step := (g d x).step }) :
    t = { s with therm := r, dies := t.dies, ctr := t.ctr } ∧
      (∀ d, d < s.nDies → t.die d = { s.die d with step := t.die d |>.step } ∧ (t.die d).step = (g d (s.die d)).step) ∧ ∀ d, s.nDies ≤ d → t.die d = s.die d := by
  subst ht
  refine ⟨rfl, fun d hd => ?_, fun d hd => ?_⟩
  · have := hget d
    rw [if_pos hd] at this
    change Sparse.get {} ds d = { s.die d with step := (Sparse.get {} ds d).step } ∧ (Sparse.get {} ds d).step = _
    rw [this]
    exact ⟨hg d _, rfl⟩
  · exact (hget d).trans (if_neg (by omega))

theorem Die.evaluated_step (hot : Bool) (x : Die) : x.evaluated hot = { x with step := (x.evaluated hot).step } ∧
    (x.evaluated hot).step = if hot = true ∧ x.step < 12 then x.step + 1 else x.step := by
  rw [Die.evaluated]
  split <;> exact ⟨rfl, rfl⟩

theorem Die.raised_step (cool : Bool) (x : Die) : x.raised cool = { x with step := (x.raised cool).step } ∧
    (x.raised cool).step = if cool = true ∧ 0 < x.step then x.step - 1 else x.step := by
  rw [Die.raised]
  split <;> exact ⟨rfl, rfl⟩

theorem throttleSteps : ThrottleSteps := by
  refine ⟨fun s r hp => ?_, fun s r hp => ?_, fun s r hp => ⟨when_neg hp, when_neg hp⟩⟩
  · obtain ⟨ds, c, hfold, hget⟩ := foldl_dies { s with therm := r } (fun s d => s.evaluateDie r d) (fun d => Die.evaluated (s.throttleCondition r d))
      (fun ds c d => State.evaluateDie_becomes _ r d) s.nDies
    obtain ⟨hframe, hin, hout⟩ := dies_stepped hfold hget fun d x => (Die.evaluated_step _ x).1
    exact ⟨_, when_pos hp, hframe, fun d hd => ⟨(hin d hd).1, (hin d hd).2.trans (Die.evaluated_step _ _).2⟩, hout⟩
  · obtain ⟨ds, c, hfold, hget⟩ := foldl_dies { s with therm := r } (fun s d => s.raiseDie r d) (fun d => Die.raised (s.releaseCondition r d))
      (fun ds c d => State.raiseDie_becomes _ r d) s.nDies
    obtain ⟨hframe, hin, hout⟩ := dies_stepped hfold hget fun d x => (Die.raised_step _ x).1
    exact ⟨_, when_pos hp, hframe, fun d hd => ⟨(hin d hd).1, (hin d hd).2.trans (Die.raised_step _ _).2⟩, hout⟩

/-! #### Thermal shutdown -/

theorem State.faulted_diesOff_port (s : State) (cls detail : Nat) (h : HostIf) (rs : List Req) (c : Counters) (n : Nat) :
    ((s.faulted cls detail h rs c).diesOff.port n).state = .off := port_off (fun _ p => { lost := p.lost, mapChanged := p.mapChanged }) (fun _ _ => rfl) s.ports n

/-- The part that a thermal shutdown names is one of those at their limits. -/
theorem getD_mod_mem {parts : List Nat} (h : parts ≠ []) (k : Nat) : parts[k % parts.length]?.getD 0 ∈ parts := by
  have hlt : k % parts.length < parts.length := Nat.mod_lt _ (List.length_pos_iff.mpr h)
  rw [List.getElem?_eq_getElem hlt]
  exact List.getElem_mem hlt

theorem thermalShutdowns : ThermalShutdowns := by
  refine ⟨fun s r hp hoff hparts => ?_, fun s r hnone => when_neg (by simp [hnone])⟩
  have hgo : (s.diesPowered && s.sys.state != .off && decide (s.shutdownParts r ≠ [])) = true := by simp [hp, hoff, hparts]
  obtain ⟨fi, hbase⟩ : ∃ fi, ({ (if (s.shutdownParts r).length = 1 then s else s.freeWord.2) with therm := r } : State) =
      { s with therm := r, freeIx := fi } := by
    split
    · exact ⟨s.freeIx, rfl⟩
    · exact ⟨s.freeIx + 1, rfl⟩
  obtain ⟨h, rs, c, hfault⟩ := State.enterFault_eq { s with therm := r, freeIx := fi } 9
    ((s.shutdownParts r)[s.freeWord.1.toNat % (s.shutdownParts r).length]?.getD 0)
  refine ⟨_, (when_pos hgo).trans (congrArg (fun u : State => (.next (u.enterFault 9 _).diesOff : Out)) hbase), ?_⟩
  rw [hfault]
  exact ⟨rfl, rfl, ⟨_, getD_mod_mem hparts _, rfl⟩, rfl, rfl, rfl, rfl, rfl, rfl, rfl, rfl, rfl, rfl, rfl, rfl, rfl, State.faulted_diesOff_port _ _ _ h rs c⟩

/-! #### The NAND throttle -/

theorem nandThrottles : NandThrottles := fun s c hp =>
  ⟨fun h => when_pos (by simpa [hp] using h), fun h => when_neg (by simpa [hp] using h),
   fun h => when_pos (by simpa [hp] using h), fun h => when_neg (by simpa [hp] using h)⟩

end Sys2Proof.Machine

open Sys2Proof.Machine

/-- Settles O33: each die is stepped by itself, a shutdown enters FAULT before the dies lose their contents, and the NAND throttle has its two limits. -/
theorem throttling : Obligations.Throttling := ⟨throttleSteps, thermalShutdowns, nandThrottles⟩

end

/-! ### Crew formation -/

section

namespace Sys2Proof.Machine

/-- The two states differ at most in what a change of membership settles: ports, yard, record number, homes of indexes, weights and counters. -/
def State.settles (s t : State) : Prop := ∃ ps y hs n xs w c,
  t = { s with ports := ps, yard := y, crew := { s.crew with homes := hs, rseq := n }, vidx := xs, wt := w, ctr := c }

theorem State.settles.trans {s t u : State} (h1 : s.settles t) (h2 : t.settles u) : s.settles u := by
  obtain ⟨ps, y, hs, n, xs, w, c, rfl⟩ := h1
  obtain ⟨ps', y', hs', n', xs', w', c', rfl⟩ := h2
  exact ⟨ps', y', hs', n', xs', w', c', rfl⟩

theorem State.settles_refl (s : State) : s.settles s := ⟨_, _, _, _, _, _, _, rfl⟩

theorem State.settles_portsUp (s : State) (ms : List Member) : s.settles (s.portsUp ms) := ⟨_, _, _, _, _, _, _, rfl⟩

theorem State.settles_routes (s : State) (rt : Sparse W64) : s.settles { s with yard := { s.yard with route := rt } } := ⟨_, _, _, _, _, _, _, rfl⟩

theorem State.settles_settleHomes (s : State) (homes : List (Nat × Nat)) (later : Bool) : s.settles (s.settleHomes homes later) := by
  unfold State.settleHomes
  dsimp only
  split <;> exact ⟨_, _, _, _, _, _, _, rfl⟩

theorem State.settles_takeMeasure (s : State) (m : Option (List Byte)) : s.settles (s.takeMeasure m) := by
  cases m <;> exact ⟨_, _, _, _, _, _, _, rfl⟩

theorem State.settles_settleMirror (s : State) : s.settles s.settleMirror := by
  unfold State.settleMirror
  dsimp only
  split <;> exact ⟨_, _, _, _, _, _, _, rfl⟩

theorem State.settles_flood (s : State) : s.settles s.flood := by
  unfold State.flood
  split
  · exact s.settles_refl
  · exact ⟨_, _, _, _, _, _, _, rfl⟩

/-- In a set whose MODULE_IDs differ, the entry with this module's is the one listed. -/
theorem find_moduleId {ms : List Member} {me : Member} (hnd : (ms.map (·.moduleId)).Nodup) (hme : me ∈ ms) :
    (ms.find? fun m => m.moduleId == me.moduleId) = some me := by
  obtain ⟨x, hx⟩ : ∃ x, (ms.find? fun m => m.moduleId == me.moduleId) = some x :=
    Option.isSome_iff_exists.mp (List.find?_isSome.mpr ⟨me, hme, by simp⟩)
  have hid : x.moduleId = me.moduleId := by simpa using List.find?_some hx
  rw [hx, List.inj_on_of_nodup_map hnd (List.mem_of_find?_eq_some hx) hme hid]

theorem State.formationOk_ids {s : State} {ms : List Member} {c : Nat} (h : s.formationOk ms c = true) : (ms.map (·.moduleId)).Nodup := by
  simp only [State.formationOk, Bool.and_eq_true, decide_eq_true_eq] at h
  tauto

/-- The crew as its members form it, before links and weights are settled. -/
def State.formed (s : State) (ms : List Member) (c delay : Nat) : State :=
  { s with
    crew := { s.crew with member := true, coord := c, epoch := 1, master := lowestCoord ms, members := ms, n0 := ms.length, opened := 0 }
    tick := { crewTime := s.tick.crewTime, num := 1, phase := .checkAndCommit, margin := delay + 100 } }

/-- The state with routes as its ports give them. -/
def State.routed (s : State) : State := { s with yard := { s.yard with route := s.buildRoutes } }

/-- A crew formed settles its links, homes and weights. -/
def State.withLinks (s : State) (ms : List Member) (meas : Option (List Byte)) (homes : List (Nat × Nat)) : State :=
  (((s.portsUp ms).routed.settleHomes homes false).takeMeasure meas).settleMirror.flood

theorem State.settles_withLinks (s : State) (ms : List Member) (meas : Option (List Byte)) (homes : List (Nat × Nat)) : s.settles (s.withLinks ms meas homes) :=
  (s.settles_portsUp ms).trans ((State.settles_routes _ _).trans ((State.settles_settleHomes _ _ _).trans
    ((State.settles_takeMeasure _ _).trans ((State.settles_settleMirror _).trans (State.settles_flood _)))))

/-- The members that CREW_FORMATION lists. -/
def membersOf (ms : List (Nat × W64 × Nat)) : List Member := ms.map fun m => ⟨m.1, m.2.1, m.2.2⟩

theorem execCrewFormation_eq (ms : List (Nat × W64 × Nat)) (meas : Option (List Byte)) (homes : List (Nat × Nat)) (delay : Nat) (s : State) :
    execCrewFormation ms meas homes delay s = ((membersOf ms).find? fun m => m.moduleId == s.ident.moduleId).elim (.next s) fun me =>
      when (s.formationOk (membersOf ms) me.coord) s ((s.formed (membersOf ms) me.coord delay).withLinks (membersOf ms) meas homes) := by
  rw [execCrewFormation]
  change (match (membersOf ms).find? fun m => m.moduleId == s.ident.moduleId with | none => _ | some me => _) = _
  cases (membersOf ms).find? fun m => m.moduleId == s.ident.moduleId <;> rfl

end Sys2Proof.Machine

open Sys2Proof.Machine

/-- Settles O35: a set that may form makes the crew, and what links and weights settle touches neither membership nor the tick; a set without this module has no
entry for it. -/
theorem crewForms : Obligations.CrewForms := by
  refine ⟨fun s ms meas homes delay c v hm hok => ?_, fun s ms meas homes delay hout => ?_⟩
  · have hf : ((membersOf ms).find? fun m => m.moduleId == s.ident.moduleId) = some ⟨c, s.ident.moduleId, v⟩ :=
      find_moduleId (State.formationOk_ids hok) (List.mem_map_of_mem (f := fun m => (⟨m.1, m.2.1, m.2.2⟩ : Member)) hm)
    obtain ⟨ps, y, hs, n, xs, w, k, ht⟩ := (s.formed (membersOf ms) c delay).settles_withLinks (membersOf ms) meas homes
    refine ⟨_, ((execCrewFormation_eq ms meas homes delay s).trans (by rw [hf]; rfl)).trans (when_pos hok), ?_⟩
    rw [ht]
    refine ⟨rfl, rfl, rfl, ?_, rfl, rfl, rfl, rfl, rfl, rfl, rfl⟩
    change lowestCoord (membersOf ms) = _
    rw [lowestCoord, membersOf, List.map_map]
    rfl
  · have hf : ((membersOf ms).find? fun m => m.moduleId == s.ident.moduleId) = none := by
      simpa [membersOf] using fun a b c h => hout (a, b, c) h
    exact (execCrewFormation_eq ms meas homes delay s).trans (by rw [hf]; rfl)

end

/-! ### Fields of words -/

section

namespace Sys2Proof.Machine

theorem testBit_fld {w : Nat} (x : BitVec w) (lo len i : Nat) : (fld x lo len).testBit i = (decide (i < len) && x.getLsbD (lo + i)) := by
  rw [fld, Nat.testBit_mod_two_pow, Nat.testBit_shiftRight, BitVec.getLsbD]

/-- Bits of a word with a field replaced. -/
theorem getLsbD_putFld {w : Nat} (x : BitVec w) (lo len v i : Nat) (hi : i < w) :
    (putFld x lo len v).getLsbD i = if lo ≤ i ∧ i < lo + len then v.testBit (i - lo) else x.getLsbD i := by
  rw [putFld, BitVec.getLsbD_or, BitVec.getLsbD_and, BitVec.getLsbD_not, BitVec.getLsbD_ofNat, BitVec.getLsbD_ofNat, Nat.testBit_shiftLeft,
    Nat.testBit_shiftLeft, Nat.testBit_mod_two_pow, Nat.testBit_two_pow_sub_one]
  by_cases hlo : lo ≤ i
  · have hlen : i - lo < len ↔ i < lo + len := by omega
    by_cases hhi : i < lo + len <;> simp [hi, hlo, hlen, hhi]
  · simp [hi, hlo]

/-- A field put reads back. -/
theorem fld_putFld_same {w : Nat} (x : BitVec w) {lo len : Nat} (v : Nat) (h : lo + len ≤ w) : fld (putFld x lo len v) lo len = v % 2 ^ len := by
  refine Nat.eq_of_testBit_eq fun i => ?_
  rw [testBit_fld, Nat.testBit_mod_two_pow]
  by_cases hi : i < len
  · rw [getLsbD_putFld _ _ _ _ _ (by omega), if_pos (by omega), Nat.add_sub_cancel_left]
  · simp [hi]

/-- A field put leaves one beside it alone. -/
theorem fld_putFld_beside {w : Nat} (x : BitVec w) {lo len lo' len' : Nat} (v : Nat) (h : lo' + len' ≤ lo ∨ lo + len ≤ lo') (hw : lo' + len' ≤ w) :
    fld (putFld x lo len v) lo' len' = fld x lo' len' := by
  refine Nat.eq_of_testBit_eq fun i => ?_
  rw [testBit_fld, testBit_fld]
  by_cases hi : i < len'
  · rw [getLsbD_putFld _ _ _ _ _ (by omega), if_neg (by omega)]
  · simp [hi]

end Sys2Proof.Machine

end

/-! ### Flits received -/

section

namespace Sys2Proof.Machine

/-! #### What a port notes of an arrival -/

/-- From `p` to `q` only what a port keeps of the flits it has received has changed, with what they acknowledge. -/
def LinkPort.notes (p q : LinkPort) : Prop := ∃ a r x m w, q = { p with acked := a, replay := r, rxNext := x, missing := m, withheld := w }

theorem LinkPort.notes_refl (p : LinkPort) : p.notes p := ⟨_, _, _, _, _, rfl⟩

theorem LinkPort.notes.trans {p q r : LinkPort} (h1 : p.notes q) (h2 : q.notes r) : p.notes r := by
  obtain ⟨a, b, x, m, w, rfl⟩ := h1
  obtain ⟨a', b', x', m', w', rfl⟩ := h2
  exact ⟨a', b', x', m', w', rfl⟩

theorem LinkPort.notes_ack (p : LinkPort) (lack : Nat) : p.notes (p.ack lack) := by
  rw [LinkPort.ack]
  split <;> exact ⟨_, _, _, _, _, rfl⟩

theorem LinkPort.notes_account (p : LinkPort) (q : Nat) : p.notes (p.account q).1 := by
  rw [LinkPort.account]
  split
  · exact ⟨_, _, _, _, _, rfl⟩
  · dsimp only
    split <;> exact ⟨_, _, _, _, _, rfl⟩

/-- The state with other ports, messages sent and counters. -/
def State.withArrival (s : State) (ps : Sparse LinkPort) (l : List OutMsg) (c : Counters) : State :=
  { s with ports := ps, yard := { s.yard with sent := l }, ctr := c }

/-- From `s` to `t` port `n` has noted arrivals: besides it only the messages sent and the counters have changed. -/
def State.arrives (s : State) (n : Nat) (t : State) : Prop :=
  (∃ ps l c, t = s.withArrival ps l c) ∧ (s.port n).notes (t.port n) ∧ ∀ m, m ≠ n → t.port m = s.port m

theorem State.arrives.trans {s t u : State} {n : Nat} (h1 : s.arrives n t) (h2 : t.arrives n u) : s.arrives n u := by
  obtain ⟨⟨ps, l, c, rfl⟩, hn, hm⟩ := h1
  obtain ⟨⟨ps', l', c', rfl⟩, hn', hm'⟩ := h2
  exact ⟨⟨ps', l', c', rfl⟩, hn.trans hn', fun m h => (hm' m h).trans (hm m h)⟩

theorem State.arrives_counts {s t : State} (n : Nat) (h : s.counts t) : s.arrives n t := by
  obtain ⟨c, rfl⟩ := h
  exact ⟨⟨s.ports, s.yard.sent, c, rfl⟩, LinkPort.notes_refl _, fun _ _ => rfl⟩

theorem State.arrives_refl (s : State) (n : Nat) : s.arrives n s := State.arrives_counts n s.counts_refl

theorem State.arrives_send (s : State) (n : Nat) (m : OutMsg) : s.arrives n (s.send m) :=
  ⟨⟨s.ports, _, s.ctr, rfl⟩, LinkPort.notes_refl _, fun _ _ => rfl⟩

theorem State.arrives_setPort (s : State) {n : Nat} {q : LinkPort} (h : (s.port n).notes q) : s.arrives n (s.setPort n q) :=
  ⟨⟨_, s.yard.sent, s.ctr, rfl⟩, by rw [State.port_setPort, if_pos rfl]; exact h, fun m hm => State.port_setPort_ne _ _ _ _ hm⟩

theorem State.arrives_sendNaks (s : State) (n : Nat) (gap : List Nat) : s.arrives n (s.sendNaks n gap) := by
  unfold State.sendNaks
  generalize List.range _ = is
  induction is generalizing s with
  | nil => exact s.arrives_refl n
  | cons i is ih =>
    exact ((s.arrives_send n (.nak n ((gap.drop (32 * i)).take 32))).trans (State.arrives_counts n ((State.counts_linkCount _ _ _ _).trans (State.counts_pulse _ _)))).trans
      (ih _)

theorem State.arrives_returnCredit (s : State) (n : Nat) (h : BitVec 128) : s.arrives n (s.returnCredit n h) := by
  unfold State.returnCredit
  dsimp only
  split
  · exact s.arrives_setPort ⟨_, _, _, _, _, rfl⟩
  · exact (s.arrives_send n _).trans (State.arrives_counts n (State.counts_linkCount _ _ _ _))

/-! #### What an arrival leaves as it was -/

section

variable {s t : State} {n : Nat} (h : s.arrives n t)
include h

/-- Every port keeps what is not noted of arrivals. -/
theorem State.arrives.port (m : Nat) : (s.port m).notes (t.port m) := by
  obtain ⟨-, hn, hm⟩ := h
  by_cases hmn : m = n
  · exact hmn ▸ hn
  · exact hm m hmn ▸ LinkPort.notes_refl _

theorem State.arrives.state (m : Nat) : (t.port m).state = (s.port m).state := by
  obtain ⟨a, r, x, l, w, hq⟩ := h.port m
  rw [hq]

theorem State.arrives.txq (m : Nat) : (t.port m).txq = (s.port m).txq := by
  obtain ⟨a, r, x, l, w, hq⟩ := h.port m
  rw [hq]

theorem State.arrives.routeOut (src dest msg : Nat) (arrival : Option Nat) : t.routeOut src dest msg arrival = s.routeOut src dest msg arrival := by
  have hup : t.upPorts = s.upPorts := by
    funext dim
    refine List.filter_congr fun m _ => ?_
    obtain ⟨a, r, x, l, w, hq⟩ := h.port m
    rw [hq]
  have hroute : t.routeEntry dest = s.routeEntry dest := by
    obtain ⟨⟨ps, l, c, rfl⟩, -, -⟩ := h
    rfl
  simp only [State.routeOut, hup, hroute]

theorem State.arrives.claimNow : t.claimNow = s.claimNow := by
  have hpeer (m : Nat) : (t.port m).peer = (s.port m).peer := by
    obtain ⟨a, r, x, l, w, hq⟩ := h.port m
    rw [hq]
  have himp : t.implied = s.implied := by simp only [State.implied, hpeer]
  have hcrew : t.crew = s.crew := by
    obtain ⟨⟨ps, l, c, rfl⟩, -, -⟩ := h
    rfl
  simp only [State.claimNow, himp, hcrew]

theorem State.arrives.transitOut (arrival dest : Nat) : t.transitOut arrival dest = s.transitOut arrival dest := by
  have hpeer (m : Nat) : (t.port m).peerCoord = (s.port m).peerCoord := by
    obtain ⟨a, r, x, l, w, hq⟩ := h.port m
    rw [hq]
  have himg : t.img = s.img := by
    obtain ⟨⟨ps, l, c, rfl⟩, -, -⟩ := h
    rfl
  simp only [State.transitOut, h.claimNow, h.state, hpeer, himg]

end

/-! #### Forwarding -/

theorem State.lostInFlight_eq (s : State) (n : Nat) :
    s.lostInFlight n = s.withFails (if s.ticking = true then s.tick.fails ++ [failRecord s.crew.coord 2 4 n 0x1FF] else s.tick.fails) := by
  rw [State.lostInFlight]
  split <;> rfl

/-- From `s` to `t` a flit waits at port `m`; besides it only counters have changed. -/
def State.queues (s : State) (m : Nat) (g : Flit) (t : State) : Prop := (s.enqueue m g).counts t

theorem State.queues.eq {s t : State} {m : Nat} {g : Flit} (h : s.queues m g t) : t = { s with ports := t.ports, ctr := t.ctr } := by
  obtain ⟨c, rfl⟩ := h
  rfl

theorem State.queues.port {s t : State} {m : Nat} {g : Flit} (h : s.queues m g t) (k : Nat) :
    t.port k = if k = m then { s.port m with txq := (s.port m).txq ++ [g] } else s.port k := by
  obtain ⟨c, rfl⟩ := h
  exact State.port_setPort _ _ _ _

/-- A forwarded flit keeps its payload and destination and has made one more hop. -/
def Flit.hopped (f g : Flit) : Prop := g.payload = f.payload ∧ fhHops g.hdr = fhHops f.hdr + 1 ∧ fhDest g.hdr = fhDest f.hdr

theorem fhHops_put {h : BitVec 128} {k : Nat} (hk : k < 16) : fhHops (putFld h 117 4 k) = k :=
  (fld_putFld_same h k (by decide)).trans (Nat.mod_eq_of_lt hk)

/-- A flit that cannot go on is lost in flight. -/
theorem State.forward_lost {s : State} {n : Nat} {f : Flit}
    (h : 15 < fhHops f.hdr + 1 ∨ s.routeOut (fhSrc f.hdr) (fhDest f.hdr) (fhMsg f.hdr) (some n) = none) : ∃ c, s.forward n f = (s.withCtr c).lostInFlight n := by
  rw [State.forward]
  split
  · exact ⟨_, rfl⟩
  · rw [h.resolve_left ‹_›]
    exact ⟨s.ctr, rfl⟩

/-- A flit with a route goes on by it. -/
theorem State.forward_on {s : State} {n m : Nat} {b : Bool} {f : Flit} (hh : fhHops f.hdr < 15)
    (hr : s.routeOut (fhSrc f.hdr) (fhDest f.hdr) (fhMsg f.hdr) (some n) = some (m, b)) : ∃ g, s.queues m g (s.forward n f) ∧ f.hopped g := by
  rw [State.forward, if_neg (by omega), hr]
  dsimp only
  refine ⟨_, State.counts_ite _ _ (State.counts_linkCount _ _ _ _) (State.counts_refl _), rfl, ?_, ?_⟩ <;> dsimp only <;> split
  · exact (fld_putFld_beside _ _ (by decide) (by decide)).trans (fhHops_put (by omega))
  · exact fhHops_put (by omega)
  · exact (fld_putFld_beside _ _ (by decide) (by decide)).trans (fld_putFld_beside _ _ (by decide) (by decide))
  · exact fld_putFld_beside _ _ (by decide) (by decide)

/-- A flit of a foreign crew that cannot go on is discarded, or lost in flight. -/
theorem State.forwardTransit_frame (s : State) (n : Nat) (f : Flit) : ∃ ps fs c, s.forwardTransit n f = { s with ports := ps, tick := { s.tick with fails := fs }, ctr := c } := by
  rw [State.forwardTransit]
  split
  · rw [State.lostInFlight_eq]
    exact ⟨s.ports, _, _, rfl⟩
  · split
    · exact ⟨_, s.tick.fails, _, rfl⟩
    · exact ⟨s.ports, s.tick.fails, _, rfl⟩

/-- A flit of a foreign crew goes on by a TRANSIT port on VC3. -/
theorem State.forwardTransit_on {s : State} {n m : Nat} {f : Flit} (hh : fhHops f.hdr < 15) (hr : s.transitOut n (fhDest f.hdr) = some m) :
    ∃ g, s.queues m g (s.forwardTransit n f) ∧ f.hopped g ∧ fhVc g.hdr = 3 := by
  rw [State.forwardTransit, if_neg (by omega), hr]
  refine ⟨_, State.counts_linkCount _ _ _ _, ⟨rfl, fhHops_put (by omega), ?_⟩, ?_⟩
  · exact (fld_putFld_beside _ _ (by decide) (by decide)).trans (fld_putFld_beside _ _ (by decide) (by decide))
  · exact (fld_putFld_beside _ _ (by decide) (by decide)).trans (fld_putFld_same _ _ (by decide))

/-! #### The stages of FLIT_RECEIVE -/

/-- A flit whose CRC passes is counted, and what it acknowledges is noted. -/
def State.acked (s : State) (n : Nat) (h : BitVec 128) : State :=
  let s := s.linkCount n (36 + fhVc h)
  if fhAckValid h then s.setPort n ((s.port n).ack (fhLack h)) else s

/-- A sequenced flit's number is noted, and numbers found missing are asked for. -/
def State.sequenced (s : State) (n : Nat) (h : BitVec 128) : State :=
  let a := (s.port n).account (fhLseq h)
  (s.setPort n a.1).sendNaks n a.2

theorem State.arrives_acked (s : State) (n : Nat) (h : BitVec 128) : s.arrives n (s.acked n h) := by
  rw [State.acked]
  split
  · exact (State.arrives_counts n (s.counts_linkCount n (36 + fhVc h) 1)).trans (State.arrives_setPort _ (LinkPort.notes_ack _ _))
  · exact State.arrives_counts n (s.counts_linkCount _ _ _)

theorem State.acked_frame (s : State) (n : Nat) (h : BitVec 128) : ∃ ps c, s.acked n h = { s with ports := ps, ctr := c } := by
  rw [State.acked]
  split
  · exact ⟨_, _, rfl⟩
  · exact ⟨s.ports, _, rfl⟩

theorem State.arrives_sequenced (s : State) (n : Nat) (h : BitVec 128) : s.arrives n (s.sequenced n h) :=
  (s.arrives_setPort (LinkPort.notes_account _ _)).trans (State.arrives_sendNaks _ _ _)

/-- A routed flit stands accounted for, with its credit returned. -/
def State.credited (s : State) (n : Nat) (h : BitVec 128) : State := ((s.acked n h).sequenced n h).returnCredit n h

theorem State.arrives_credited (s : State) (n : Nat) (h : BitVec 128) : s.arrives n (s.credited n h) :=
  (s.arrives_acked n h).trans ((State.arrives_sequenced _ n h).trans (State.arrives_returnCredit _ n h))

/-- What becomes of a routed flit that stands accounted for. -/
def State.handle (s : State) (n : Nat) (f : Flit) : State :=
  if (s.port n).state = .transit then s.forwardTransit n f
  else if fhTtag f.hdr ≠ s.ttag ∧ (s.crew.member ∨ fhType f.hdr ≠ 5) then s
  else if s.crew.member ∧ fhDest f.hdr ≠ s.crew.coord then s.forward n f
  else if fhType f.hdr = 5 then (if 3 < thKind (tickHdrOf f) then s.linkCount n 25 else { s with yard := s.yard.takeTick f })
  else if s.yard.placed.contains (fhSrc f.hdr, fhMsg f.hdr, fhOffset f.hdr) then s.linkCount n 26
  else { s with yard := { s.yard with placed := s.yard.placed ++ [(fhSrc f.hdr, fhMsg f.hdr, fhOffset f.hdr)], rx := s.yard.rx ++ [f] } }

section

variable {s : State} {n : Nat} {h : BitVec 128} {pl : List Byte} (hn : n < 12)
include hn

theorem flitReceive_unlocked (hl : (s.port n).locked = false) : exec (.flitReceive n h pl) s = .next s := by
  change execFlitReceive n h pl s = _
  rw [execFlitReceive, needPart_pos (by simpa using hn), hl]
  rfl

theorem flitReceive_corrupt (hl : (s.port n).locked = true) (hc : fhCrc h ≠ flitCrc h pl) : ∃ t, exec (.flitReceive n h pl) s = .next t ∧ s.counts t := by
  refine ⟨(s.linkCount n 20).pulse (0x30 + n), ?_, (s.counts_linkCount _ _ _).trans (State.counts_pulse _ _)⟩
  change execFlitReceive n h pl s = _
  rw [execFlitReceive, needPart_pos (by simpa using hn), hl, if_neg (by decide), if_pos hc]

/-- A flit whose CRC passes, by its form and type. -/
theorem flitReceive_sound (hl : (s.port n).locked = true) (hc : fhCrc h = flitCrc h pl) : exec (.flitReceive n h pl) s = .next
    (if s.flitBad h = true then (if fhType h < 5 then (s.acked n h).linkCount n 25 else ((s.acked n h).linkCount n 25).lostInFlight n)
     else if fhType h < 5 then s.acked n h
     else if fhType h = 6 then s.credited n h else (s.credited n h).handle n ⟨h, pl⟩) := by
  have hbad : (s.acked n h).flitBad h = s.flitBad h := by
    obtain ⟨ps, c, ha⟩ := s.acked_frame n h
    rw [ha]
    rfl
  rw [← hbad]
  change execFlitReceive n h pl s = _
  rw [execFlitReceive, needPart_pos (by simpa using hn), hl, if_neg (by decide), if_neg (not_not.mpr hc)]
  change (if (s.acked n h).flitBad h = true then
      (.next (if fhType h < 5 then (s.acked n h).linkCount n 25 else ((s.acked n h).linkCount n 25).lostInFlight n) : Out)
    else if fhType h < 5 then .next (s.acked n h)
    else if fhType h = 6 then .next (s.credited n h) else .next ((s.credited n h).handle n ⟨h, pl⟩)) = _
  split_ifs <;> rfl

end

/-! #### What becomes of a routed flit -/

/-- A TICK flit joins the flits received or completes a message. -/
theorem takeTick_frame (y : Yarder) (f : Flit) : ∃ rx inbox, y.takeTick f = { y with rx := rx, inbox := inbox } := by
  rw [Yarder.takeTick]
  split
  · exact ⟨_, _, rfl⟩
  · exact ⟨_, y.inbox, rfl⟩

/-- Joining a message does not look at what was sent. -/
theorem takeTick_sent (y : Yarder) (l : List OutMsg) (f : Flit) : ({ y with sent := l } : Yarder).takeTick f = { y.takeTick f with sent := l } := by
  simp only [Yarder.takeTick]
  split <;> rfl

section

variable {s u : State} {n : Nat} (hA : s.arrives n u) {h : BitVec 128} {pl : List Byte}
include hA

theorem State.arrives.ttag : u.ttag = s.ttag := by
  obtain ⟨⟨ps, l, c, rfl⟩, -, -⟩ := hA
  rfl

theorem State.arrives.crew : u.crew = s.crew := by
  obtain ⟨⟨ps, l, c, rfl⟩, -, -⟩ := hA
  rfl

theorem State.arrives.tick : u.tick = s.tick := by
  obtain ⟨⟨ps, l, c, rfl⟩, -, -⟩ := hA
  rfl

theorem State.arrives.yard : u.yard = { s.yard with sent := u.yard.sent } := by
  obtain ⟨⟨ps, l, c, rfl⟩, -, -⟩ := hA
  rfl

/-- Where only ports, fail records and counters change after an arrival. -/
theorem State.arrives.frame {t : State} (ht : t = { u with ports := t.ports, tick := { u.tick with fails := t.tick.fails }, ctr := t.ctr }) :
    t = { s with ports := t.ports, yard := { s.yard with sent := t.yard.sent }, tick := { s.tick with fails := t.tick.fails }, ctr := t.ctr } := by
  obtain ⟨⟨ps, l, c, rfl⟩, -, -⟩ := hA
  rw [ht]
  rfl

/-- A flit queued after an arrival waits behind those that waited before it. -/
theorem State.arrives.queued {t : State} {m : Nat} {g : Flit} (hq : u.queues m g t) :
    (t.port m).txq = (s.port m).txq ++ [g] ∧ t.tick = s.tick ∧ ∀ k, k ≠ n → k ≠ m → t.port k = s.port k := by
  refine ⟨?_, ?_, fun k hkn hkm => ?_⟩
  · rw [hq.port, if_pos rfl]
    exact congrArg (· ++ [g]) (hA.txq m)
  · rw [hq.eq]
    exact hA.tick
  · rw [hq.port, if_neg hkm, hA.2.2 k hkn]

theorem handle_transit (hst : (s.port n).state = .transit) :
    let t := u.handle n ⟨h, pl⟩
    t = { s with ports := t.ports, yard := { s.yard with sent := t.yard.sent }, tick := { s.tick with fails := t.tick.fails }, ctr := t.ctr } ∧
      ∀ m, fhHops h < 15 → s.transitOut n (fhDest h) = some m → t.tick = s.tick ∧
        ∃ g, (t.port m).txq = (s.port m).txq ++ [g] ∧ g.payload = pl ∧ fhVc g.hdr = 3 ∧ fhHops g.hdr = fhHops h + 1 ∧ fhDest g.hdr = fhDest h := by
  have ht : u.handle n ⟨h, pl⟩ = u.forwardTransit n ⟨h, pl⟩ := if_pos ((hA.state n).trans hst)
  intro t
  rw [show t = _ from ht]
  refine ⟨hA.frame ?_, fun m hh hr => ?_⟩
  · obtain ⟨ps, fs, c, hf⟩ := u.forwardTransit_frame n ⟨h, pl⟩
    rw [hf]
  · obtain ⟨g, hq, ⟨hpl, hhops, hdest⟩, hvc⟩ := State.forwardTransit_on (s := u) (f := ⟨h, pl⟩) hh ((hA.transitOut _ _).trans hr)
    obtain ⟨htx, htick, -⟩ := hA.queued hq
    exact ⟨htick, g, htx, hpl, hvc, hhops, hdest⟩

/-- A flit of another attempt is discarded. -/
theorem handle_stale (hst : (s.port n).state ≠ .transit) (htag : fhTtag h ≠ s.ttag) (hm : s.crew.member = true ∨ fhType h ≠ 5) :
    u.handle n ⟨h, pl⟩ = u := by
  rw [State.handle, if_neg (by rwa [hA.state]), if_pos ⟨by rwa [hA.ttag], by rwa [hA.crew]⟩]

/-- A flit for another member is forwarded. -/
theorem handle_other (hst : (s.port n).state ≠ .transit) (htag : fhTtag h = s.ttag) (hm : s.crew.member = true) (hd : fhDest h ≠ s.crew.coord) :
    u.handle n ⟨h, pl⟩ = u.forward n ⟨h, pl⟩ := by
  rw [State.handle, if_neg (by rwa [hA.state]), if_neg (by rw [hA.ttag]; tauto), if_pos ⟨by rwa [hA.crew], by rwa [hA.crew]⟩]

/-- A flit for this member joins its message, or is placed once. -/
theorem handle_own (hst : (s.port n).state ≠ .transit)
    (hown : fhTtag h = s.ttag ∧ (s.crew.member = true → fhDest h = s.crew.coord) ∨ s.crew.member = false ∧ fhType h = 5) :
    u.handle n ⟨h, pl⟩ = if fhType h = 5 then (if 3 < thKind (tickHdrOf ⟨h, pl⟩) then u.linkCount n 25 else { u with yard := u.yard.takeTick ⟨h, pl⟩ })
      else if u.yard.placed.contains (fhSrc h, fhMsg h, fhOffset h) then u.linkCount n 26
      else { u with yard := { u.yard with placed := u.yard.placed ++ [(fhSrc h, fhMsg h, fhOffset h)], rx := u.yard.rx ++ [⟨h, pl⟩] } } := by
  have hcur : ¬(fhTtag h ≠ u.ttag ∧ (u.crew.member = true ∨ fhType h ≠ 5)) := by
    rw [hA.ttag, hA.crew]
    rcases hown with ⟨h1, -⟩ | ⟨h1, h2⟩ <;> simp_all
  have hme : ¬(u.crew.member = true ∧ fhDest h ≠ u.crew.coord) := by
    rw [hA.crew]
    rcases hown with ⟨-, h1⟩ | ⟨h1, -⟩ <;> simp_all
  rw [State.handle, if_neg (by rwa [hA.state]), if_neg hcur, if_neg hme]

/-- A flit for this member changes what the yard holds of this attempt. -/
theorem handle_own_frame (hst : (s.port n).state ≠ .transit)
    (hown : fhTtag h = s.ttag ∧ (s.crew.member = true → fhDest h = s.crew.coord) ∨ s.crew.member = false ∧ fhType h = 5) :
    let t := u.handle n ⟨h, pl⟩
    t = { s with ports := t.ports, yard := { s.yard with rx := t.yard.rx, inbox := t.yard.inbox, placed := t.yard.placed, sent := t.yard.sent }, ctr := t.ctr } ∧
      (∀ m, m ≠ n → t.port m = s.port m) ∧
      (fhType h = 5 → t.yard = { (if 3 < thKind (tickHdrOf ⟨h, pl⟩) then s.yard else s.yard.takeTick ⟨h, pl⟩) with sent := t.yard.sent }) ∧
      (fhType h ≠ 5 → (fhSrc h, fhMsg h, fhOffset h) ∈ s.yard.placed → t.yard = { s.yard with sent := t.yard.sent }) ∧
      (fhType h ≠ 5 → (fhSrc h, fhMsg h, fhOffset h) ∉ s.yard.placed →
        t.yard = { s.yard with rx := s.yard.rx ++ [⟨h, pl⟩], placed := s.yard.placed ++ [(fhSrc h, fhMsg h, fhOffset h)], sent := t.yard.sent }) := by
  intro t
  have ht : t = _ := handle_own hA (pl := pl) hst hown
  obtain ⟨⟨ps, l, c, rfl⟩, -, hm⟩ := hA
  by_cases h5 : fhType h = 5
  · rw [if_pos h5] at ht
    by_cases h3 : 3 < thKind (tickHdrOf ⟨h, pl⟩)
    · rw [if_pos h3] at ht
      rw [ht, if_pos h3]
      exact ⟨rfl, hm, fun _ => rfl, fun _ _ => rfl, fun hne => absurd h5 hne⟩
    · rw [if_neg h3] at ht
      obtain ⟨rx, inbox, hy⟩ := takeTick_frame s.yard ⟨h, pl⟩
      have hty : (s.withArrival ps l c).yard.takeTick ⟨h, pl⟩ = { s.yard.takeTick ⟨h, pl⟩ with sent := l } := takeTick_sent s.yard l _
      rw [hty, hy] at ht
      rw [ht, if_neg h3, hy]
      exact ⟨rfl, hm, fun _ => rfl, fun hne => absurd h5 hne, fun hne => absurd h5 hne⟩
  · rw [if_neg h5] at ht
    by_cases hp : (fhSrc h, fhMsg h, fhOffset h) ∈ s.yard.placed
    · have hc : (s.withArrival ps l c).yard.placed.contains (fhSrc h, fhMsg h, fhOffset h) = true := List.contains_iff_mem.mpr hp
      rw [if_pos hc] at ht
      rw [ht]
      exact ⟨rfl, hm, fun he => absurd he h5, fun _ _ => rfl, fun _ hne => absurd hp hne⟩
    · have hc : ¬(s.withArrival ps l c).yard.placed.contains (fhSrc h, fhMsg h, fhOffset h) = true := fun he => hp (List.contains_iff_mem.mp he)
      rw [if_neg hc] at ht
      rw [ht]
      exact ⟨rfl, hm, fun he => absurd he h5, fun _ he => absurd he hp, fun _ _ => rfl⟩

/-- What the forwarding of a flit for another member leaves. -/
theorem forward_frame :
    let t := u.forward n ⟨h, pl⟩
    t = { s with ports := t.ports, yard := { s.yard with sent := t.yard.sent }, tick := { s.tick with fails := t.tick.fails }, ctr := t.ctr } ∧
      (fhHops h = 15 ∨ s.routeOut (fhSrc h) (fhDest h) (fhMsg h) (some n) = none → s.ticking = true → t.tick.fails = s.tick.fails ++ [failRecord s.crew.coord 2 4 n 0x1FF]) ∧
      ∀ m b, fhHops h < 15 → s.routeOut (fhSrc h) (fhDest h) (fhMsg h) (some n) = some (m, b) → t.tick = s.tick ∧ (∀ k, k ≠ n → k ≠ m → t.port k = s.port k) ∧
        ∃ g, (t.port m).txq = (s.port m).txq ++ [g] ∧ g.payload = pl ∧ fhHops g.hdr = fhHops h + 1 ∧ fhDest g.hdr = fhDest h := by
  intro t
  have hlost (hl : 15 < fhHops h + 1 ∨ s.routeOut (fhSrc h) (fhDest h) (fhMsg h) (some n) = none) : ∃ c, t = (u.withCtr c).lostInFlight n :=
    State.forward_lost (f := ⟨h, pl⟩) (hl.imp_right (hA.routeOut _ _ _ _).trans)
  have hon (m : Nat) (b : Bool) (hh : fhHops h < 15) (hr : s.routeOut (fhSrc h) (fhDest h) (fhMsg h) (some n) = some (m, b)) :=
    State.forward_on (f := ⟨h, pl⟩) (n := n) hh ((hA.routeOut _ _ _ _).trans hr)
  refine ⟨hA.frame ?_, fun hl ht => ?_, fun m b hh hr => ?_⟩
  · by_cases hl : 15 < fhHops h + 1 ∨ s.routeOut (fhSrc h) (fhDest h) (fhMsg h) (some n) = none
    · obtain ⟨c, hc⟩ := hlost hl
      rw [hc, State.lostInFlight_eq]
      rfl
    · obtain ⟨hh, hr⟩ := not_or.mp hl
      obtain ⟨⟨m, b⟩, hr⟩ := Option.ne_none_iff_exists'.mp hr
      obtain ⟨g, ⟨c, hq⟩, -⟩ := hon m b (by omega) hr
      rw [show t = _ from hq]
      rfl
  · obtain ⟨c, hc⟩ := hlost (hl.imp_left (by omega))
    have htick : (u.withCtr c).ticking = true := by
      obtain ⟨⟨ps, l, c, rfl⟩, -, -⟩ := hA
      exact ht
    rw [hc, State.lostInFlight_eq, if_pos htick]
    change u.tick.fails ++ [failRecord u.crew.coord 2 4 n 0x1FF] = _
    rw [hA.tick, hA.crew]
  · obtain ⟨g, hq, hpl, hhops, hdest⟩ := hon m b hh hr
    obtain ⟨htx, htick, hother⟩ := hA.queued hq
    exact ⟨htick, hother, g, htx, hpl, hhops, hdest⟩

end

/-- A flit that R487 rejects. -/
theorem acked_bad (s : State) (n : Nat) (h : BitVec 128) :
    let t := if fhType h < 5 then (s.acked n h).linkCount n 25 else ((s.acked n h).linkCount n 25).lostInFlight n
    t = { s with ports := t.ports, tick := { s.tick with fails := t.tick.fails }, ctr := t.ctr } ∧
      t.tick.fails = if s.ticking = true ∧ 5 ≤ fhType h then s.tick.fails ++ [failRecord s.crew.coord 2 4 n 0x1FF] else s.tick.fails := by
  obtain ⟨ps, c, ha⟩ := s.acked_frame n h
  rw [ha, State.lostInFlight_eq]
  by_cases h5 : fhType h < 5
  · simp only [h5, if_true, show ¬(s.ticking = true ∧ 5 ≤ fhType h) by omega, if_false]
    exact ⟨rfl, rfl⟩
  · simp only [h5, if_false, show 5 ≤ fhType h by omega, and_true]
    exact ⟨rfl, rfl⟩

end Sys2Proof.Machine

open Sys2Proof.Machine

/-- Settles O57, by the stages of a flit that a port receives: CRC, form, sequence number and credit, and then its destination. -/
theorem flitsReceived : Obligations.FlitsReceived := by
  intro s n h pl hn
  refine ⟨flitReceive_unlocked hn, fun hl hc => ?_, fun hl hc => ?_⟩
  · obtain ⟨t, ht, hcnt⟩ := flitReceive_corrupt (pl := pl) hn hl hc
    exact ⟨t, ht, hcnt.eq⟩
  have hA := s.arrives_credited n h
  have hexec := flitReceive_sound hn hl hc
  have hbig (ht : fhType h = 5 ∨ fhType h = 7 ∨ fhType h = 8) : ¬fhType h < 5 ∧ fhType h ≠ 6 := by omega
  have hrouted (hb : s.flitBad h = false) (ht : fhType h = 5 ∨ fhType h = 7 ∨ fhType h = 8) :
      exec (.flitReceive n h pl) s = .next ((s.credited n h).handle n ⟨h, pl⟩) := by
    rw [hexec, hb, if_neg (by decide), if_neg (hbig ht).1, if_neg (hbig ht).2]
  refine ⟨fun hb => ?_, fun hb h5 => ?_, fun hb h6 => ?_, fun hb ht hst => ?_, fun hb ht hst => ⟨fun hown => ?_, fun htag hm => ?_, fun htag hm hd => ?_⟩⟩
  · rw [hexec, if_pos hb]
    exact ⟨_, rfl, acked_bad s n h⟩
  · rw [hexec, hb, if_neg (by decide), if_pos h5]
    obtain ⟨ps, c, ha⟩ := s.acked_frame n h
    exact ⟨_, rfl, by rw [ha]⟩
  · rw [hexec, hb, if_neg (by decide), if_neg (by omega), if_pos h6]
    obtain ⟨⟨ps, l, c, hc⟩, -, -⟩ := hA
    exact ⟨_, rfl, by rw [hc]; rfl⟩
  · exact ⟨_, hrouted hb ht, handle_transit hA hst⟩
  · exact ⟨_, hrouted hb ht, handle_own_frame hA hst hown⟩
  · refine ⟨_, (hrouted hb ht).trans (by rw [handle_stale hA hst htag hm]), ?_⟩
    obtain ⟨⟨ps, l, c, hc⟩, -, -⟩ := hA
    rw [hc]
    rfl
  · exact ⟨_, (hrouted hb ht).trans (by rw [handle_other hA hst htag hm hd]), forward_frame hA⟩

end

/-! ### TICK messages sent -/

section

namespace Sys2Proof.Machine

/-- From `s` to `t` flits have been queued: besides them only message numbers have changed. -/
def State.launches (s t : State) : Prop :=
  (∃ ps k, t = { s with ports := ps, yard := { s.yard with msgNext := k } }) ∧ ∀ n, t.port n = { s.port n with txq := (t.port n).txq }

theorem State.launches_refl (s : State) : s.launches s := ⟨⟨s.ports, s.yard.msgNext, rfl⟩, fun _ => rfl⟩

theorem State.launches.trans {s t u : State} (h1 : s.launches t) (h2 : t.launches u) : s.launches u := by
  obtain ⟨⟨ps, k, rfl⟩, hp⟩ := h1
  obtain ⟨⟨ps', k', rfl⟩, hp'⟩ := h2
  refine ⟨⟨ps', k', rfl⟩, fun n => (hp' n).trans ?_⟩
  rw [hp n]

theorem State.launches_enqueue (s : State) (m : Nat) (g : Flit) : s.launches (s.enqueue m g) := by
  refine ⟨⟨_, s.yard.msgNext, rfl⟩, fun n => ?_⟩
  rw [State.enqueue, State.port_setPort]
  split
  · subst_vars; rfl
  · rfl

theorem State.launches_launch (s : State) (f : Flit) : s.launches (s.launch f) := by
  rw [State.launch]
  split
  · exact s.launches_enqueue _ _
  · exact s.launches_refl

theorem State.launches_foldl {α : Type} (f : State → α → State) (hf : ∀ (s : State) x, s.launches (f s x)) (l : List α) (s : State) : s.launches (l.foldl f s) := by
  induction l generalizing s with
  | nil => exact s.launches_refl
  | cons x l ih => exact (hf s x).trans (ih _)

theorem State.launches_launchTo (m : OutMsg) (s : State) (dest : Nat) : s.launches (s.launchTo m dest) := by
  rw [State.launchTo]
  split
  · exact s.launches_refl
  · have hnum (k : Nat) : s.launches { s with yard := { s.yard with msgNext := k } } := ⟨⟨s.ports, k, rfl⟩, fun _ => rfl⟩
    exact (hnum _).trans (State.launches_foldl _ State.launches_launch _ _)

/-- A TICK message sent joins the messages sent, and its flits wait at ports. -/
theorem State.messageSent_sendTick (s : State) (m : OutMsg) (dests : List Nat) : messageSent s (s.sendTick m dests) m := by
  obtain ⟨⟨ps, k, he⟩, hp⟩ := State.launches_foldl (State.launchTo m) (State.launches_launchTo m) dests (s.send m)
  exact ⟨by rw [State.sendTick, he]; rfl, hp⟩

/-- A message for the members listed, where any is listed. -/
theorem State.sentTo_sendTick (s : State) (m : OutMsg) (dests : List Nat) : sentTo s (if dests = [] then s else s.sendTick m dests) m dests := by
  unfold sentTo
  split
  · rfl
  · exact s.messageSent_sendTick m dests

theorem State.sentTo_forwardDown (s : State) (m : OutMsg) : sentTo s (s.forwardDown m) m s.treeChildren := s.sentTo_sendTick m _

theorem State.sentTo_passEdge (s : State) (e : EdgeMsg) : sentTo s (s.passEdge e) (.edge e) (if e.decision = 2 then s.formTree e.master else s.treeChildren) :=
  s.sentTo_sendTick (.edge e) _

theorem State.messageSent_askMaster (s : State) (what : Nat) : messageSent s (s.askMaster what) (.repeatReq what s.edgeSource) :=
  s.messageSent_sendTick _ _

end Sys2Proof.Machine

end

/-! ### EDGE and CMDSET -/

section

namespace Sys2Proof.Machine

/-! #### EDGE -/

theorem State.member_of_inCrew {s : State} (h : s.inCrew = true) : s.crew.member = true := by
  simp only [State.inCrew, State.ticking, Bool.or_eq_true, Bool.and_eq_true] at h
  tauto

/-- An edge that fits the attempt has the numbers of its decision. -/
theorem State.edgeOk_numbers {s : State} {hdr : BitVec 128} {body : BitVec 256} (h : s.edgeOk hdr body = true) :
    ((edgeOf body).decision = 0 → (edgeOf body).tickNum = s.tick.num + 1 ∧ (edgeOf body).attempt = 0 ∧ (edgeOf body).epoch = s.crew.epoch) ∧
    ((edgeOf body).decision = 1 → (edgeOf body).tickNum = s.tick.num ∧ (edgeOf body).attempt = (s.tick.attempt + 1) % 128 ∧ (edgeOf body).epoch = s.crew.epoch) := by
  have hfits : s.edgeFits (edgeOf body) = true := by
    simp only [State.edgeOk, Bool.and_eq_true] at h
    exact h.2
  refine ⟨fun h0 => ?_, fun h1 => ?_⟩
  · simpa [State.edgeFits, h0, and_assoc] using hfits
  · simpa [State.edgeFits, h1, and_assoc] using hfits

/-- What a member that is not the edge's master does with it. -/
theorem State.takeEdge_member {s : State} {hdr : BitVec 128} {body : BitVec 256} (hc : s.inCrew = true)
    (hm : (if (edgeOf body).decision = 2 then (edgeOf body).master else s.crew.master) ≠ s.crew.coord) :
    s.takeEdge hdr body = if s.edgeOk hdr body = true then ({ s with tick := { s.tick with pending := some (edgeOf body) } }).passEdge (edgeOf body)
      else ((s.linkCount s.upPort 49).crewCount 5).askMaster 0 := by
  rw [State.takeEdge]
  dsimp only
  rw [if_neg (by simp [State.member_of_inCrew hc]), if_neg (by simpa [hc] using hm)]

theorem exec_edge_received {s : State} {hdr : BitVec 128} {body : BitVec 256} {m : TickMsg}
    (hr : s.received 0 hdr (fun b => bodyWord 32 b == body.toNat) = some m) : exec (.edge hdr body) s = .next ((s.useMsg m).takeEdge hdr body) := by
  change execEdge hdr body s = _
  rw [execEdge, hr]

theorem edgeArrives : EdgeArrives := by
  refine ⟨?_, fun s hdr body m hc hr hm hbad => ?_, fun s hdr body hr => ?_⟩
  · intro s hdr body m hc hr e u hm hok
    have hgo : (s.useMsg m).takeEdge hdr body = u.passEdge e := (State.takeEdge_member (s := s.useMsg m) hc hm).trans (if_pos hok)
    exact ⟨_, (exec_edge_received hr).trans (by rw [hgo]), u.sentTo_passEdge e, State.edgeOk_numbers hok⟩
  · have hgo : (s.useMsg m).takeEdge hdr body = ((s.useMsg m).linkCount (s.useMsg m).upPort 49 |>.crewCount 5).askMaster 0 :=
      (State.takeEdge_member (s := s.useMsg m) hc hm).trans (if_neg (by rw [show (s.useMsg m).edgeOk hdr body = false from hbad]; decide))
    obtain ⟨he, hp⟩ := ((s.useMsg m).linkCount (s.useMsg m).upPort 49 |>.crewCount 5).messageSent_askMaster 0
    refine ⟨_, (exec_edge_received hr).trans (by rw [hgo]), ?_, hp⟩
    rw [he]
    rfl
  · change execEdge hdr body s = _
    rw [execEdge, hr]

/-! #### CMDSET -/

/-- The records of a command set that concern this member join its requests, in order, with no completion owed here. -/
theorem State.foldl_takeRecord (recs : List CmdRec) (s : State) : ∃ rs, recs.foldl State.takeRecord s =
    { s with reqs := s.reqs ++ rs, host := { s.host with nextRid := s.host.nextRid + (recs.filter s.concerns).length } } ∧
    (rs.map fun r => (r.entry, r.coord, r.qid, r.owed)) = ((recs.filter s.concerns).map fun c => (c.entry, c.coord, c.qid, false)) := by
  induction recs generalizing s with
  | nil => exact ⟨[], by simp, rfl⟩
  | cons c recs ih =>
    rw [List.foldl_cons, State.takeRecord]
    by_cases hc : s.concerns c = true
    · rw [if_pos hc, List.filter_cons_of_pos hc]
      obtain ⟨rs, hfold, hmap⟩ := ih { s with reqs := s.reqs ++ [s.foreignReq c], host := { s.host with nextRid := s.host.nextRid + 1 } }
      refine ⟨s.foreignReq c :: rs, ?_, ?_⟩
      · rw [hfold]
        simp only [List.append_assoc, List.singleton_append, List.length_cons, Nat.add_assoc, Nat.add_comm 1]
        rfl
      · rw [List.map_cons, List.map_cons, hmap]
        rfl
    · rw [if_neg hc, List.filter_cons_of_neg hc]
      exact ih s

theorem execCmdset_received {s : State} {hdr : BitVec 128} {recs : List CmdRec} {m : TickMsg} (hr : s.received 3 hdr (fun b => recordsIn b == recs) = some m) :
    exec (.cmdset hdr recs) s = when (s.ticking && s.crew.master != s.crew.coord && s.tick.cmdset.isNone) (s.useMsg m)
      (if s.partsOk m 3 && recordsOrdered recs && m.body == recs.flatMap recordBytes then
        ((s.useMsg m).takeCmdset recs).forwardDown (.cmdset s.tick.num s.tick.attempt recs)
      else ((s.useMsg m).linkCount (s.useMsg m).upPort 25).askMaster 2) := by
  change execCmdset hdr recs s = _
  rw [execCmdset, hr]
  rfl

theorem commandSets : CommandSets := by
  refine ⟨fun s hdr recs m ht hm hnone hr => ?_, fun s hdr recs m hsome hr => ?_, fun s hdr recs hr => ?_⟩
  · have hgo : (s.ticking && s.crew.master != s.crew.coord && s.tick.cmdset.isNone) = true := by simp [ht, hm, hnone]
    have hexec := (execCmdset_received hr).trans (when_pos hgo)
    refine ⟨fun hparts hord hbody => ?_, fun hbad => ?_⟩
    · rw [if_pos (by simp [hparts, hord, hbody])] at hexec
      obtain ⟨rs, hfold, hmap⟩ := State.foldl_takeRecord recs (s.useMsg m)
      refine ⟨_, rs, _, hexec, ?_, rfl, hmap⟩
      have hsent := ((s.useMsg m).takeCmdset recs).sentTo_forwardDown (.cmdset s.tick.num s.tick.attempt recs)
      rw [State.takeCmdset, hfold] at hsent ⊢
      exact hsent
    · rw [if_neg (by simpa [and_assoc] using hbad)] at hexec
      obtain ⟨he, hp⟩ := ((s.useMsg m).linkCount (s.useMsg m).upPort 25).messageSent_askMaster 2
      refine ⟨_, hexec, ?_, hp⟩
      rw [he]
      rfl
  · exact (execCmdset_received hr).trans (when_neg (by simp [Option.isNone_eq_false_iff, Option.isSome_iff_ne_none, hsome]))
  · change execCmdset hdr recs s = _
    rw [execCmdset, hr]

end Sys2Proof.Machine

open Sys2Proof.Machine

/-- Settles O24: an edge and a command set are taken, or asked for again, by their form. -/
theorem tickMessages : Obligations.TickMessages := ⟨edgeArrives, commandSets⟩

end

/-! ### Check reports and repeats -/

section

namespace Sys2Proof.Machine

/-! #### Combining reports -/

/-- The whole reports of this member's children that are here, in the order of the tree. -/
def State.childReports (s : State) : List Report := s.treeChildren.filterMap fun c => (s.tick.children.find? fun e => e.1 == c).map Prod.snd

/-- The report that this member combines from its own and its children's. -/
def State.combined (s : State) (own : Report) : Report := combineReports s.tick.num s.tick.attempt s.crew.coord own s.childReports

theorem State.tryForward_none {s : State} (h : s.tick.ownReport = none) : s.tryForward = s := by
  rw [State.tryForward, h]

theorem State.tryForward_early {s : State} {own : Report} (h : s.tick.ownReport = some own) (hc : s.childReports.length < s.treeChildren.length) :
    s.tryForward = s := by
  rw [State.tryForward, h]
  exact if_pos (Or.inl hc)

section

variable {s : State} {own : Report} (h : s.tick.ownReport = some own) (hs : s.tick.sentReport = none)
  (hc : s.treeChildren.length ≤ s.childReports.length)
include h hs hc

theorem State.tryForward_whole : s.tryForward = if s.crew.master = s.crew.coord then s.masterReport (s.combined own)
    else ({ s with tick := { s.tick with sentReport := some (s.combined own) } }).sendTick (.report (s.combined own)) (s.parentOf s.crew.coord).toList := by
  rw [State.tryForward, h]
  exact if_neg (by rw [hs]; exact not_or.mpr ⟨Nat.not_lt.mpr hc, by decide⟩)

/-- Once every report is here the combined one goes up. -/
theorem State.tryForward_up (hm : s.crew.master ≠ s.crew.coord) :
    messageSent { s with tick := { s.tick with sentReport := some (s.combined own) } } s.tryForward (.report (s.combined own)) := by
  rw [State.tryForward_whole h hs hc, if_neg hm]
  exact State.messageSent_sendTick _ _ _

/-- On the master the combined report stands complete. -/
theorem State.tryForward_master (hm : s.crew.master = s.crew.coord) : s.tryForward = s.masterReport (s.combined own) := by
  rw [State.tryForward_whole h hs hc, if_pos hm]

end

/-! #### REPORT -/

section

variable {s : State} {child bytes : Nat} {hdr : BitVec 128} {rep : Report} (ht : s.ticking = true) (hp : s.tick.phase ≠ .none) (hc : child ∈ s.treeChildren)
include ht hp hc

/-- A child's whole report. -/
theorem report_whole {m : TickMsg} (hr : ((s.received 1 hdr fun b => b.length == bytes && reportIn b == rep).filter fun m => m.src == child) = some m) :
    exec (.report child hdr rep bytes true) s = .next (if s.partsOk m 1 && s.reportOk child rep m.body then
      ({ s.useMsg m with tick := s.tick.takeChild child rep } : State).tryForward else (s.useMsg m).linkCount ((s.useMsg m).portTo child) 25) := by
  have hgo : ((s.useMsg m).ticking && (s.useMsg m).tick.phase != .none && (s.useMsg m).treeChildren.contains child) = true := by
    change (s.ticking && s.tick.phase != .none && s.treeChildren.contains child) = true
    simp [ht, hp, hc]
  change execReport child hdr rep bytes true s = _
  rw [execReport, if_pos rfl, hr]
  dsimp only
  rw [State.takeReport, if_pos hgo]
  rfl

/-- A flit of a child's report that is not whole yet. -/
theorem report_part (hh : s.partHere child hdr = true) : exec (.report child hdr rep bytes false) s = .next
    (if tickHeaderOk hdr 1 && s.thisAttempt hdr then { s with tick := { s.tick with partials := (s.tick.partials ++ [child]).eraseDups } }
      else { s with yard := { s.yard with rx := s.yard.rx.filter fun f => !(ofTick child 1 f && tickHdrOf f == hdr) } }.linkCount (s.portTo child) 25) :=
  when_pos (by simp [ht, hp, hc, hh])

end

theorem reportsArrive : ReportsArrive := by
  intro s child bytes hdr rep ht hp hc
  refine ⟨fun m hr => ⟨fun hbad => ?_, ?_⟩, fun hh hok hatt => ?_, fun hh hbad => ?_⟩
  · rw [report_whole ht hp hc hr, if_neg (by simpa using hbad)]
    exact ⟨_, rfl, rfl⟩
  · intro hparts hok k cs
    have hexec : exec (.report child hdr rep bytes true) s = .next ({ s.useMsg m with tick := k } : State).tryForward := by
      rw [report_whole ht hp hc hr, if_pos (by simp [hparts, hok])]
    refine ⟨fun hown => ?_, fun own hown hlen => ?_, fun own hown hsent hlen => ?_⟩
    · rw [hexec, State.tryForward_none (s := { s.useMsg m with tick := k }) hown]
    · rw [hexec, State.tryForward_early (s := { s.useMsg m with tick := k }) hown hlen]
    · intro c
      have hall := Nat.le_of_eq hlen.symm
      refine ⟨_, hexec, fun hm => State.tryForward_up (s := { s.useMsg m with tick := k }) hown hsent hall hm, fun hm => ?_⟩
      rw [State.tryForward_master (s := { s.useMsg m with tick := k }) hown hsent hall hm]
      rfl
  · rw [report_part ht hp hc hh, if_pos (by simp [hok, hatt])]
  · rw [report_part ht hp hc hh, if_neg (by simpa using hbad)]
    exact ⟨_, rfl, rfl⟩

/-! #### REPEAT -/

theorem execRepeatMsg_received {s : State} {src : Nat} {hdr body : BitVec 128} {m : TickMsg} (hc : s.inCrew = true)
    (hr : ((s.received 2 hdr fun b => bodyWord 16 b == body.toNat).filter fun m => m.src == src) = some m) :
    exec (.repeatMsg src hdr body) s = .next (if s.partsOk m 2 && fld body 0 124 == 0 && decide (fld body 124 4 ≤ 2) then
      (s.useMsg m).answerRepeat src (fld body 124 4) else (s.useMsg m).linkCount ((s.useMsg m).portTo src) 25) := by
  change execRepeatMsg src hdr body s = _
  rw [execRepeatMsg, hr]
  exact when_pos hc

/-- The two fields of a REPEAT body. -/
theorem repeatFields (body : BitVec 128) : fld body 0 124 = body.toNat % 2 ^ 124 ∧ fld body 124 4 = body.toNat / 2 ^ 124 := by
  refine ⟨rfl, ?_⟩
  rw [fld, Nat.shiftRight_eq_div_pow]
  exact Nat.mod_eq_of_lt (Nat.div_lt_of_lt_mul (by simpa [← Nat.pow_add] using body.isLt))

/-- What a sound REPEAT asks for is sent to the member that asks. -/
theorem repeatMsg_answered {s u : State} {src what : Nat} {hdr body : BitVec 128} {m : TickMsg} {o : OutMsg} (hc : s.inCrew = true)
    (hr : ((s.received 2 hdr fun b => bodyWord 16 b == body.toNat).filter fun m => m.src == src) = some m) (hp : s.partsOk m 2 = true)
    (hb : body.toNat = 2 ^ 124 * what) (hw : what ≤ 2) (ha : (s.useMsg m).answerRepeat src what = u.sendTick o [src]) :
    ∃ t, exec (.repeatMsg src hdr body) s = .next t ∧ messageSent u t o := by
  obtain ⟨h0, h1⟩ := repeatFields body
  rw [hb, Nat.mul_mod_right] at h0
  rw [hb, Nat.mul_div_cancel_left _ (by decide)] at h1
  exact ⟨_, (execRepeatMsg_received hc hr).trans (by rw [if_pos (by simp [hp, h0, h1, hw]), h1, ha]), u.messageSent_sendTick o _⟩

theorem repeats : Repeats := by
  refine ⟨?_, fun s child ht hc => ⟨_, when_pos (by simp [ht, hc]), s.messageSent_sendTick _ _⟩⟩
  intro s src hdr body m hc hr u
  refine ⟨fun hbad => ?_, fun hp => ⟨?_, ?_, ?_⟩⟩
  · obtain ⟨h0, h1⟩ := repeatFields body
    refine ⟨_, (execRepeatMsg_received hc hr).trans (by rw [if_neg (by rw [h0, h1]; simpa [and_assoc] using hbad)]), rfl⟩
  · rintro c rfl hs hparent
    exact repeatMsg_answered (what := 1) hc hr hp (by decide) (by decide) (by
      rw [State.answerRepeat, if_pos rfl, show (s.useMsg m).tick.sentReport = some c from hs]
      exact if_pos hparent)
  · rintro e rfl hmaster hpend
    exact repeatMsg_answered (what := 0) hc hr hp (by decide) (by decide) (by
      rw [State.answerRepeat, if_neg (by decide), if_pos rfl, show (s.useMsg m).tick.pending = some e from hpend]
      exact if_pos hmaster)
  · rintro rs rfl hmaster hset
    exact repeatMsg_answered (what := 2) hc hr hp (by decide) (by decide) (by
      have hme : ¬(s.useMsg m).crew.master ≠ (s.useMsg m).crew.coord := not_not.mpr hmaster
      rw [State.answerRepeat, if_neg (by decide), if_neg (by decide), if_neg hme, show (s.useMsg m).tick.cmdset = some rs from hset]
      rfl)

end Sys2Proof.Machine

open Sys2Proof.Machine

/-- Settles O25: reports are held and combined as they come, and a repeat request is answered by what it asks for. -/
theorem checkReports : Obligations.CheckReports := ⟨reportsArrive, repeats⟩

end

/-! ### The own check report -/

section

namespace Sys2Proof.Machine

/-- What passing reports on changes. -/
def State.forwards (s t : State) : Prop :=
  t = { s with
    tick := { s.tick with sentReport := t.tick.sentReport, reportsIn := t.tick.reportsIn }, crew := { s.crew with joinSeen := t.crew.joinSeen }, fore := t.fore
    ports := t.ports, yard := { s.yard with sent := t.yard.sent, msgNext := t.yard.msgNext } }

theorem State.forwards_tryForward (s : State) : s.forwards s.tryForward := by
  rw [State.tryForward]
  split
  · rfl
  · dsimp only
    split_ifs
    · rfl
    · rfl
    · rw [State.forwards, (State.messageSent_sendTick _ _ _).1]

/-- The state in which a member's own report stands. -/
def State.reporting (s : State) (now : Nat) (own : Report) : State :=
  { s with tick := { s.tick with ownReport := some own, reported := true, reportAt := now, crewTime := max s.tick.crewTime now } }

/-- CHECK_REPORT_SEND puts the own report, counts, and passes it on. -/
theorem checkReportSend_forwards {s : State} (now : W64) (busy hot : W32) (share : BitVec 16) (ht : s.ticking = true) (hp : s.tick.phase = .checkAndCommit)
    (hd : s.tick.planDone = true) (ho : s.tick.ownReport = none) (hf : s.fillsDone = true) (hl : s.crew.lostNow = []) :
    ∃ c, exec (.checkReportSend now busy hot share) s = .next ((s.reporting now.toNat (s.makeReport busy hot share)).withCtr c).tryForward := by
  have hgo : (s.ticking && s.tick.phase == .checkAndCommit && s.tick.planDone && s.tick.ownReport.isNone && s.fillsDone && s.crew.lostNow == []) = true := by
    simp [ht, hp, hd, ho, hf, hl]
  have hcnt : (s.reporting now.toNat (s.makeReport busy hot share)).counts
      ((if (s.makeReport busy hot share).fails = [] then s.reporting now.toNat (s.makeReport busy hot share)
        else (s.reporting now.toNat (s.makeReport busy hot share)).crewCount 6).pulse 0x08) :=
    (State.counts_ite _ _ (State.counts_refl _) (State.counts_crewCount _ _ _)).trans (State.counts_pulse _ _)
  obtain ⟨c, hc⟩ := hcnt
  exact ⟨c, (when_pos hgo).trans (congrArg (fun u : State => (.next u.tryForward : Out)) hc)⟩

end Sys2Proof.Machine

open Sys2Proof.Machine

/-- Settles O27: the own report is put first, and passing it on touches only what the report of the subtree touches. -/
theorem reportIsMade : Obligations.ReportIsMade := by
  intro s now busy hot share ht hp hd ho hf hl
  obtain ⟨c, hexec⟩ := checkReportSend_forwards now busy hot share ht hp hd ho hf hl
  let u := (s.reporting now.toNat (s.makeReport busy hot share)).withCtr c
  have hfw : u.forwards u.tryForward := u.forwards_tryForward
  refine ⟨_, s.makeReport busy hot share, hexec, ?_, ?_, rfl, rfl, rfl, rfl, rfl, fun hleaf hm hs => ?_⟩
  · rw [show u.tryForward = _ from hfw]
    rfl
  · rw [show u.tryForward = _ from hfw]
    rfl
  · have hkids : u.treeChildren = [] := hleaf
    have hnone : u.childReports = [] := by rw [State.childReports, hkids]; rfl
    obtain ⟨he, -⟩ := State.tryForward_up (s := u) (own := s.makeReport busy hot share) rfl hs (by rw [hkids]; exact Nat.zero_le _) hm
    refine ⟨u.combined (s.makeReport busy hot share), by rw [he], by rw [he]; rfl, ?_, ?_⟩ <;> simp [State.combined, hnone, combineReports]

end

/-! ### The master's decision and its edge -/

section

namespace Sys2Proof.Machine

theorem State.edgeFor_edgeTime (s : State) (decision time : Nat) : (s.edgeFor decision time).edgeTime = time := by
  rw [State.edgeFor]
  split_ifs <;> rfl

/-- The measure of C enters its histogram and the counters. -/
theorem State.measureC_eq (s : State) (c : Nat) :
    s.measureC c = { s with tick := { s.tick with cHist := (c :: s.tick.cHist).take 16 }, ctr := (s.measureC c).ctr } := rfl

/-- The measure of C does not enter an edge. -/
theorem State.edgeFor_measureC (s : State) (c decision time : Nat) : (s.measureC c).edgeFor decision time = s.edgeFor decision time := rfl

theorem State.takeDecision_measureC (s : State) (c decision now time : Nat) : (s.measureC c).takeDecision decision now time =
    { s with tick := { s.tick with decided := some (s.edgeFor decision time), decidedAt := now, cHist := (c :: s.tick.cHist).take 16 }
             ctr := (s.measureC c).ctr } := by
  rw [State.takeDecision, State.edgeFor_measureC, State.measureC_eq]

/-! #### EDGE_ISSUE -/

/-- A decided edge that would come too soon is made again. -/
theorem edgeIssue_sent {s : State} {now : W64} {e : EdgeMsg} (hc : s.inCrew = true) (he : s.tick.decided = some e) (hd : s.tick.decidedAt ≤ now.toNat)
    {e' : EdgeMsg} (he' : e' = if e.edgeTime < now.toNat + s.tick.margin then s.edgeFor e.decision (now.toNat + s.tick.margin) else e) :
    ∃ t, exec (.edgeIssue now) s = .next t ∧
      sentTo { s with tick := { s.tick with decided := none, pending := some e', crewTime := max s.tick.crewTime now.toNat } } t (.edge e')
        (if e'.decision = 2 then s.formTree e'.master else s.treeChildren) := by
  subst he'
  change ∃ t, execEdgeIssue now s = .next t ∧ _
  rw [execEdgeIssue, he]
  exact ⟨_, when_pos (by simp [hc, hd]), State.sentTo_passEdge _ _⟩

theorem edgeIsIssued : EdgeIsIssued := by
  refine ⟨fun s now e hc he hd => ?_, fun s now he => ?_⟩
  · obtain ⟨t, ht, hsent⟩ := edgeIssue_sent hc he hd rfl
    refine ⟨t, _, ht, hsent, ?_, fun hle => if_neg (Nat.not_lt.mpr hle), fun hlt => if_pos hlt⟩
    split
    · rw [State.edgeFor_edgeTime]
    · omega
  · change execEdgeIssue now s = _
    rw [execEdgeIssue, he]

/-! #### MASTER_DECISION -/

/-- The command set of the reports, in the order of R623. -/
def orderedRecords (c : Report) : List CmdRec := c.cmds.foldl (fun (a : List CmdRec) r => insertRecord r a) []

theorem State.sendCmdset_none {s : State} {c : Report} (h : rpFail c = true ∨ s.tick.cmdset ≠ none) : s.sendCmdset c = s :=
  if_pos (by rcases h with h | h <;> simp [h, Option.isSome_iff_ne_none])

/-- The command set goes down the tree: its records join the requests behind those that are there. -/
theorem State.sendCmdset_sent {s : State} {c : Report} (hf : rpFail c = false) (hn : s.tick.cmdset = none) :
    let u := s.sendCmdset c
    u = { s with tick := { s.tick with cmdset := some (orderedRecords c) }, reqs := u.reqs, host := { s.host with nextRid := u.host.nextRid }, ports := u.ports
                 yard := { s.yard with sent := u.yard.sent, msgNext := u.yard.msgNext } } ∧
      u.reqs.take s.reqs.length = s.reqs ∧
      u.yard.sent = s.yard.sent ++ (if s.treeChildren = [] then [] else [.cmdset s.tick.num s.tick.attempt (orderedRecords c)]) := by
  have hgo : s.sendCmdset c = (s.takeCmdset (orderedRecords c)).forwardDown (.cmdset s.tick.num s.tick.attempt (orderedRecords c)) :=
    if_neg (by simp [hf, hn])
  obtain ⟨rs, hfold, -⟩ := State.foldl_takeRecord (orderedRecords c) s
  have hkids : (s.takeCmdset (orderedRecords c)).treeChildren = s.treeChildren := by
    rw [State.takeCmdset, hfold]
    rfl
  have hsent := (s.takeCmdset (orderedRecords c)).sentTo_forwardDown (.cmdset s.tick.num s.tick.attempt (orderedRecords c))
  intro u
  rw [show u = _ from hgo]
  generalize State.forwardDown _ _ = t at hsent ⊢
  rw [hkids, State.takeCmdset, hfold] at hsent
  unfold sentTo at hsent
  by_cases hnil : s.treeChildren = []
  · rw [if_pos hnil] at hsent ⊢
    rw [hsent]
    exact ⟨rfl, List.take_left, (List.append_nil _).symm⟩
  · rw [if_neg hnil] at hsent ⊢
    rw [hsent.1]
    exact ⟨rfl, List.take_left, rfl⟩

section

variable {s : State} {now : W64} (hc : s.inCrew = true) (hd : s.tick.decided = none) (hp : s.tick.pending = none)
include hc hd hp

/-- The state in which the decision is taken. -/
def State.deciding (s : State) (now : W64) : State := { s with tick := { s.tick with crewTime := max now.toNat s.tick.crewTime } }

theorem execMasterDecision_form (hf : s.formDue = true) : exec (.masterDecision now) s =
    .next ((s.deciding now).takeDecision 2 (max now.toNat s.tick.crewTime) (max now.toNat s.tick.crewTime + s.tick.margin)) :=
  (when_pos (by simp [hc, hd, hp])).trans (congrArg Host.Outcome.next (if_pos hf))

/-- With every report in, the command set is sent, and once its last flit has left a port the decision is taken. -/
theorem execMasterDecision_reports {c : Report} (hm : s.crew.master = s.crew.coord) (hs : s.tick.sentReport = some c) (hin : s.tick.reportsIn = true)
    (hl : s.crew.lostNow = []) (hu : s.unstarted = false) : exec (.masterDecision now) s = .next
      (if ((s.deciding now).sendCmdset c).cmdsetWaits then (s.deciding now).sendCmdset c
       else (((s.deciding now).sendCmdset c).measureC (max now.toNat s.tick.crewTime + s.tick.margin - ((s.deciding now).sendCmdset c).tick.reportAt)).takeDecision
         (if rpFail c then 1 else 0) (max now.toNat s.tick.crewTime)
         (max (max now.toNat s.tick.crewTime + s.tick.margin) (((s.deciding now).sendCmdset c).tick.edgeAt + ((s.deciding now).sendCmdset c).tick.period))) := by
  have hform : (s.deciding now).formDue = false := by
    change ((s.unstarted || s.crew.lostNow != []) && s.electMaster == s.crew.coord) = false
    simp [hu, hl]
  have hgo : ¬((s.deciding now).crew.master ≠ (s.deciding now).crew.coord ∨ (!(s.deciding now).tick.reportsIn) = true ∨ (s.deciding now).crew.lostNow ≠ [] ∨
      (s.deciding now).unstarted = true) := by
    change ¬(s.crew.master ≠ s.crew.coord ∨ (!s.tick.reportsIn) = true ∨ s.crew.lostNow ≠ [] ∨ s.unstarted = true)
    simp [hm, hin, hl, hu]
  refine (when_pos (by simp [hc, hd, hp])).trans (congrArg Host.Outcome.next ((if_neg (ne_true_of_eq_false hform)).trans ?_))
  change (match s.tick.sentReport with | none => _ | some c => _) = _
  rw [hs]
  exact if_neg hgo

end

theorem masterDecides : MasterDecides := by
  refine ⟨?_, ?_⟩
  · intro s now c hc hd hp hm hs hin hl hu n time rs
    let u := (s.deciding now).sendCmdset c
    have hexec : exec (.masterDecision now) s = .next (if u.cmdsetWaits then u else
        (u.measureC (n + s.tick.margin - u.tick.reportAt)).takeDecision (if rpFail c then 1 else 0) n (max (n + s.tick.margin) (u.tick.edgeAt + u.tick.period))) :=
      execMasterDecision_reports hc hd hp hm hs hin hl hu
    have hkept : rpFail c = true ∨ s.tick.cmdset ≠ none → u = s.deciding now := fun h => State.sendCmdset_none (s := s.deciding now) h
    have hsent : rpFail c = false → s.tick.cmdset = none → _ := State.sendCmdset_sent (s := s.deciding now)
    obtain ⟨htick, hcrew⟩ : u.tick = { s.tick with crewTime := n, cmdset := u.tick.cmdset } ∧ u.crew = s.crew := by
      by_cases h : rpFail c = true ∨ s.tick.cmdset ≠ none
      · rw [hkept h]
        exact ⟨rfl, rfl⟩
      · obtain ⟨hf, hn⟩ := not_or.mp h
        rw [show u = _ from (hsent (by simpa using hf) (not_not.mp hn)).1]
        exact ⟨rfl, rfl⟩
    have hEdge : u.tick.edgeAt = s.tick.edgeAt := by rw [htick]
    have hPer : u.tick.period = s.tick.period := by rw [htick]
    have hRep : u.tick.reportAt = s.tick.reportAt := by rw [htick]
    have hHist : u.tick.cHist = s.tick.cHist := by rw [htick]
    rw [hEdge, hPer, hRep] at hexec
    refine ⟨_, u, hexec, hkept, hsent, fun hw => if_pos hw, fun hw => ?_⟩
    refine ⟨u.edgeFor (if rpFail c then 1 else 0) time, u.edgeFor_edgeTime _ _, ?_, fun hf => ?_, fun hf => ?_⟩
    · rw [if_neg (ne_true_of_eq_false hw), State.takeDecision_measureC, hHist]
    · rw [hkept (.inl hf), if_pos hf]
      rfl
    · rw [if_neg (ne_true_of_eq_false hf), State.edgeFor, if_pos rfl, hcrew, htick]
  · intro s now hc hd hp hform n
    refine ⟨_, _, execMasterDecision_form hc hd hp hform, rfl, ?_⟩
    rw [State.edgeFor]
    by_cases hu : (s.deciding now).unstarted = true
    · rw [if_neg (by decide), if_neg (by decide), if_pos hu, if_pos (show s.unstarted = true from hu)]
      exact ⟨rfl, rfl, rfl, rfl, rfl⟩
    · rw [if_neg (by decide), if_neg (by decide), if_neg hu, if_neg (show ¬s.unstarted = true from hu)]
      exact ⟨rfl, rfl, rfl, rfl, rfl⟩

end Sys2Proof.Machine

open Sys2Proof.Machine

/-- Settles O28: the command set goes out before the decision, and a decided edge is sent for a time that the margin allows. -/
theorem masterEdges : Obligations.MasterEdges := ⟨masterDecides, edgeIsIssued⟩

end

/-! ### Entering CHECK-AND-COMMIT -/

section

namespace Sys2Proof.Machine

/-! #### Blocks written one after another -/

/-- Blocks of `B` bytes written to their places in turn. -/
def writeBlocks (B : Nat) (place : Nat → Nat) (img : Nat → List Byte) (m : Mem) (l : List Nat) : Mem :=
  l.foldl (fun m n => Mem.write m (place n * B) (img n)) m

section

variable {B : Nat} {place : Nat → Nat} {img : Nat → List Byte} (hlen : ∀ n, (img n).length = B)
include hlen

/-- A byte of no block that is written keeps its value. -/
theorem read_writeBlocks_out (l : List Nat) (m : Mem) (a : Nat) (h : ∀ n, n ∈ l → a / B ≠ place n) :
    Mem.read (writeBlocks B place img m l) a = Mem.read m a := by
  induction l generalizing m with
  | nil => rfl
  | cons n l ih =>
    refine (ih _ fun k hk => h k (List.mem_cons_of_mem _ hk)).trans (Mem.read_write_out _ _ _ _ ?_)
    rw [hlen]
    by_contra hc
    obtain ⟨hlo, hhi⟩ : place n * B ≤ a ∧ a < place n * B + B := by omega
    exact h n List.mem_cons_self (Nat.div_eq_of_lt_le hlo (by rwa [Nat.succ_mul]))

/-- A block that no other block overwrites holds its image. -/
theorem read_writeBlocks_in {n i : Nat} (hi : i < B) (hb : i < (img n).length) (l : List Nat) (m : Mem) (hn : n ∈ l)
    (hne : ∀ k, k ∈ l → k ≠ n → place k ≠ place n) : Mem.read (writeBlocks B place img m l) (place n * B + i) = (img n)[i] := by
  induction l generalizing m with
  | nil => exact absurd hn List.not_mem_nil
  | cons k l ih =>
    by_cases hl : n ∈ l
    · exact ih _ hl fun j hj => hne j (List.mem_cons_of_mem _ hj)
    · obtain rfl : n = k := (List.mem_cons.mp hn).resolve_right hl
      refine (read_writeBlocks_out hlen l _ _ fun k hk => ?_).trans (Mem.read_write_in _ _ _ _ hb)
      rw [Nat.mul_comm, Nat.mul_add_div (by omega), Nat.div_eq_of_lt hi, Nat.add_zero]
      exact (hne k (List.mem_cons_of_mem _ hk) fun h => hl (h ▸ hk)).symm

end

/-! #### The flush of a slot -/

theorem Mem.getElem_bytes (m : Mem) (a n i : Nat) (h : i < (Mem.bytes m a n).length) : (Mem.bytes m a n)[i] = Mem.read m (a + i) := by
  simp [Mem.bytes, Sparse.getList, Mem.read]

/-- A part of the bytes written reads back. -/
theorem Mem.bytes_write_part (m : Mem) (a o n : Nat) (src : Mem) (b len : Nat) (h : o + n ≤ len) :
    Mem.bytes (Mem.write m a (Mem.bytes src b len)) (a + o) n = Mem.bytes src (b + o) n := by
  refine List.ext_getElem (by simp) fun i hi hj => ?_
  have hin : o + i < len := by
    rw [Mem.length_bytes] at hj
    omega
  rw [Mem.getElem_bytes, Mem.getElem_bytes, Nat.add_assoc, Mem.read_write_in _ _ _ _ (by rwa [Mem.length_bytes]), Mem.getElem_bytes, Nat.add_assoc]

/-- The page image and the sideband image of a slot. -/
def State.slotPage (s : State) (n : Nat) : List Byte := Mem.bytes s.land.data (n * 17408) 16384
def State.slotBand (s : State) (n : Nat) : List Byte := Mem.bytes s.land.data (n * 17408 + 16384) 1024

/-- What flushes of slots may change: bytes and sidebands of HBM, the flush queues, the counters. -/
def State.flushes (s : State) (d b q : Mem) (c : Counters) : State :=
  { s with hbm := { s.hbm with data := d, side := b }, land := { s.land with queue := q }, ctr := c }

/-- The state whose flush queue holds a slot's bytes. -/
def State.queued (s : State) (n : Nat) : State := s.fillQueue (n / 480) (Mem.bytes s.land.data (n * 17408) 17408)

theorem State.queued_queue (s : State) (n : Nat) :
    (s.queued n).land.queue = Mem.write s.land.queue (n / 480 * 17408) (Mem.bytes s.land.data (n * 17408) 17408) := by
  rw [State.queued]
  generalize Mem.bytes s.land.data _ _ = full
  rfl

/-- Bytes that go through a flush queue to HBM and are counted. -/
theorem State.flushed_eq (s : State) (stack a b d cls i d' lot ev : Nat) (full page band : List Byte) : ∃ c,
    ((((s.fillQueue stack full).writeHbm a page).writeSide b band).count d cls i).lotCount d' lot ev =
      s.flushes (Mem.write s.hbm.data a page) (Mem.write s.hbm.side b band) (s.fillQueue stack full).land.queue c := by
  obtain ⟨c, hc⟩ := (State.counts_count (((s.fillQueue stack full).writeHbm a page).writeSide b band) d cls i 1).trans
    (State.counts_count _ d' 2 (lot * 32 + ev) 1)
  exact ⟨c, Eq.trans hc rfl⟩

/-- A slot's bytes go through the flush queue to its frame. -/
theorem State.flush_through (s : State) (n : Nat) : ∃ c, s.writeFlush n =
    s.flushes (Mem.write s.hbm.data ((s.slot n).flushFrame * 16384) (Mem.bytes (s.queued n).land.queue (n / 480 * 17408) 16384))
      (Mem.write s.hbm.side ((s.slot n).flushFrame * 1024) (Mem.bytes (s.queued n).land.queue (n / 480 * 17408 + 16384) 1024)) (s.queued n).land.queue c := by
  rw [State.writeFlush]
  exact s.flushed_eq _ _ _ _ _ _ _ _ _ _ _ _

theorem State.writeFlush_eq (s : State) (n : Nat) : ∃ q c, s.writeFlush n =
    s.flushes (Mem.write s.hbm.data ((s.slot n).flushFrame * 16384) (s.slotPage n)) (Mem.write s.hbm.side ((s.slot n).flushFrame * 1024) (s.slotBand n)) q c := by
  obtain ⟨c, hflush⟩ := s.flush_through n
  have hpage := Mem.bytes_write_part s.land.queue (n / 480 * 17408) 0 16384 s.land.data (n * 17408) 17408 (by decide)
  have hband := Mem.bytes_write_part s.land.queue (n / 480 * 17408) 16384 1024 s.land.data (n * 17408) 17408 (by decide)
  rw [← State.queued_queue] at hpage hband
  rw [Nat.add_zero, Nat.add_zero] at hpage
  rw [hpage, hband] at hflush
  exact ⟨_, c, hflush⟩

/-- Flushes change no slot. -/
theorem State.slots_flushes (s : State) (d b q : Mem) (c : Counters) : (s.flushes d b q c).slot = s.slot ∧
    (s.flushes d b q c).slotPage = s.slotPage ∧ (s.flushes d b q c).slotBand = s.slotBand := ⟨rfl, rfl, rfl⟩

theorem State.flushes_flushes (s : State) (d b q d' b' q' : Mem) (c c' : Counters) :
    (s.flushes d b q c).flushes d' b' q' c' = s.flushes d' b' q' c' := rfl

theorem State.hbm_flushes (s : State) (d b q : Mem) (c : Counters) : (s.flushes d b q c).hbm.data = d ∧ (s.flushes d b q c).hbm.side = b := ⟨rfl, rfl⟩

theorem writeBlocks_cons (B : Nat) (place : Nat → Nat) (img : Nat → List Byte) (m : Mem) (n : Nat) (l : List Nat) :
    writeBlocks B place img m (n :: l) = writeBlocks B place img (Mem.write m (place n * B) (img n)) l := rfl

/-- The flushes of slots in turn write each slot's images to its frame. -/
theorem State.foldl_writeFlush (l : List Nat) (s : State) : ∃ q c, l.foldl State.writeFlush s =
    s.flushes (writeBlocks 16384 (fun n => (s.slot n).flushFrame) s.slotPage s.hbm.data l)
      (writeBlocks 1024 (fun n => (s.slot n).flushFrame) s.slotBand s.hbm.side l) q c := by
  induction l generalizing s with
  | nil => exact ⟨s.land.queue, s.ctr, rfl⟩
  | cons n l ih =>
    obtain ⟨q, c, hone⟩ := s.writeFlush_eq n
    obtain ⟨q', c', hrest⟩ := ih (s.writeFlush n)
    refine ⟨q', c', ?_⟩
    rw [List.foldl_cons, hrest, hone]
    obtain ⟨hslot, hpage, hband⟩ := s.slots_flushes _ _ q c
    obtain ⟨hdata, hside⟩ := s.hbm_flushes _ _ q c
    rw [hslot, hpage, hband, hdata, hside, State.flushes_flushes, ← writeBlocks_cons, ← writeBlocks_cons]

/-- The tick is in CHECK-AND-COMMIT. -/
def State.atCheck (s : State) : State := { s with tick := { s.tick with phase := .checkAndCommit } }

/-! #### Corrupt slots are dropped -/

@[simp] theorem State.loseOne_hbm (s : State) (h : W32) (v : Nat) : (s.loseOne h v).hbm = s.hbm := by
  unfold State.loseOne
  split
  · split_ifs <;> rfl
  · rfl

@[simp] theorem State.loseOne_land (s : State) (h : W32) (v : Nat) : (s.loseOne h v).land = s.land := by
  unfold State.loseOne
  split
  · split_ifs <;> rfl
  · rfl

/-- Dropping corrupt slots writes no byte of HBM, of a sideband or of the Landing. -/
theorem State.checkSlots_bytes (s : State) : s.checkSlots.hbm = s.hbm ∧ s.checkSlots.land.data = s.land.data := by
  have hfree : ∀ (s : State) n, (s.freeSlots n).hbm = s.hbm ∧ (s.freeSlots n).land.data = s.land.data := fun s n =>
    ⟨foldl_keeps State.hbm _ (by exact fun _ _ => rfl) (List.range (s.slot n).partners) s,
      foldl_keeps (·.land.data) _ (by exact fun _ _ => rfl) (List.range (s.slot n).partners) s⟩
  refine ⟨foldl_keeps State.hbm State.dropCorrupt (fun s n => ?_) _ s, foldl_keeps (·.land.data) State.dropCorrupt (fun s n => ?_) _ s⟩
  · exact (State.loseOne_hbm _ _ _).trans (hfree s n).1
  · exact (congrArg Landing.data (State.loseOne_land _ _ _)).trans (hfree s n).2

end Sys2Proof.Machine

open Sys2Proof.Machine

/-- Settles O26: every full slot's flush writes its two images to its frame, and nothing else of HBM. -/
theorem entersCheckAndCommit : Obligations.EntersCheckAndCommit := by
  refine ⟨fun s hw hdone => ⟨State.checkSlots_sound, ?_⟩, fun s _ hdone => when_neg (by simp [hdone])⟩
  obtain ⟨hhbm, hland⟩ := s.checkSlots_bytes
  obtain ⟨q, c, hflush⟩ := s.checkSlots.foldl_writeFlush s.checkSlots.fullSlots
  have hpage : ∀ n, (s.checkSlots.slotPage n).length = 16384 := fun n => Mem.length_bytes _ _ _
  have hband : ∀ n, (s.checkSlots.slotBand n).length = 1024 := fun n => Mem.length_bytes _ _ _
  have hexec : exec .checkAndCommitEntry s = .next (s.checkSlots.fullSlots.foldl State.writeFlush s.checkSlots).atCheck := when_pos (by simp [hw, hdone])
  refine ⟨_, hexec, ?_⟩
  rw [hflush]
  refine ⟨rfl, fun n hn hne => ⟨fun i hi => ?_, fun i hi => ?_⟩, fun a ha => ?_, fun a ha => ?_⟩
  · exact (read_writeBlocks_in hpage hi (by rwa [hpage]) _ _ hn hne).trans ((Mem.getElem_bytes _ _ _ _ _).trans (by rw [hland]))
  · exact (read_writeBlocks_in hband hi (by rwa [hband]) _ _ hn hne).trans ((Mem.getElem_bytes _ _ _ _ _).trans (by rw [hland]))
  · exact (read_writeBlocks_out hpage _ _ a ha).trans (by rw [hhbm])
  · exact (read_writeBlocks_out hband _ _ a ha).trans (by rw [hhbm])

end

/-! ### The plan of the next tick -/

section

namespace Sys2Proof.Machine

/-! #### What planning may change -/

/-- The two states differ at most in the cores, the vector indexes, the sequences, the Forester's state and the counters. -/
def State.lays (s t : State) : Prop := ∃ cs v q f c, t = { s with cores := cs, vidx := v, seqs := q, fore := f, ctr := c }

theorem State.lays_refl (s : State) : s.lays s := ⟨s.cores, s.vidx, s.seqs, s.fore, s.ctr, rfl⟩

theorem State.lays.trans {s t u : State} (h1 : s.lays t) (h2 : t.lays u) : s.lays u := by
  obtain ⟨_, _, _, _, _, rfl⟩ := h1
  obtain ⟨cs, v, q, f, c, rfl⟩ := h2
  exact ⟨cs, v, q, f, c, rfl⟩

theorem State.counts.lays {s t : State} (h : s.counts t) : s.lays t := by
  obtain ⟨c, rfl⟩ := h
  exact ⟨s.cores, s.vidx, s.seqs, s.fore, c, rfl⟩

theorem State.lays_fore (s : State) (f : Forester) : s.lays { s with fore := f } := ⟨s.cores, s.vidx, s.seqs, f, s.ctr, rfl⟩

theorem State.lays_updSeq (s : State) (h : W32) (f : Seq → Seq) : s.lays (s.updSeq h f) := ⟨s.cores, s.vidx, _, s.fore, s.ctr, rfl⟩

theorem State.lays_updIndex (s : State) (id : Nat) (f : VIndex → VIndex) : s.lays (s.updIndex id f) := ⟨s.cores, _, s.seqs, s.fore, s.ctr, rfl⟩

theorem State.lays_setCore (s : State) (k : Nat) (x : Core) : s.lays (s.setCore k x) := ⟨_, s.vidx, s.seqs, s.fore, s.ctr, rfl⟩

theorem State.lays_foldl {α : Type} (f : State → α → State) (hf : ∀ (s : State) x, s.lays (f s x)) (l : List α) (s : State) : s.lays (l.foldl f s) := by
  induction l generalizing s with
  | nil => exact s.lays_refl
  | cons x l ih => exact (hf s x).trans (ih _)

theorem State.lays_setWants (s : State) (sets : List (Nat × List Nat)) : s.lays (s.setWants sets) := State.lays_foldl _ (fun s _ => s.lays_setCore _ _) _ _

theorem State.lays_startMerges (s : State) (t : Nat) : s.lays (s.startMerges t) := by
  refine State.lays_foldl _ (fun s x => ?_) _ _
  split
  · exact (s.lays_updIndex _ _).trans (State.counts_count _ _ _ _ _).lays
  · exact s.lays_refl

theorem State.lays_takeRebuild (s : State) (e : DeltaEntry) : s.lays (s.takeRebuild e) := by
  unfold State.takeRebuild
  split
  · split
    · exact s.lays_refl
    · exact s.lays_updSeq _ _
  · exact s.lays_refl

theorem State.lays_takeUsage (s : State) (es : List DeltaEntry) : s.lays (s.takeUsage es) := by
  refine State.lays_foldl _ (fun s e => ?_) _ _
  split
  · exact s.lays_fore _
  · exact s.lays_refl

theorem State.lays_applyDeltas (s : State) (t : Nat) : s.lays (s.applyDeltas t) := by
  unfold State.applyDeltas
  extract_lets ds es rebuilt
  have hlaid : ∀ f, s.lays { rebuilt with fore := f } := fun f => ((s.lays_takeUsage es).trans (State.lays_foldl State.takeRebuild State.lays_takeRebuild es _)).trans (State.lays_fore _ _)
  split
  · exact hlaid _
  · exact ((hlaid _).trans (State.lays_fore _ _)).trans (State.counts_crewCount _ _ _).lays

theorem State.counts_countPlan (s : State) (p : PlanInput) : s.counts (s.countPlan p) :=
  ((s.counts_crewCount _ _).trans (State.counts_crewCount _ _ _)).trans
    (State.counts_ite _ _ (State.counts_crewCount _ _ _) (State.counts_refl _))

/-! #### Refusals -/

/-- The requests with the refused ones ended. -/
def refusedReqs (bad : List (Nat × Nat)) (rs : List Req) : List Req :=
  bad.foldl (fun rs b => rs.map fun r => if r.rid = b.1 then (if r.stage = .finishing then r else r.fail b.2) else r) rs

theorem State.refuse_eq (s : State) (bad : List (Nat × Nat)) : s.refuse bad = { s with reqs := refusedReqs bad s.reqs } := by
  induction bad generalizing s with
  | nil => rfl
  | cons b bad ih => exact ih _

/-- An edit that keeps request numbers is found under the same number. -/
theorem find?_map_rid (f : Req → Req) (hf : ∀ r, (f r).rid = r.rid) (rid : Nat) (rs : List Req) :
    (rs.map f).find? (fun r => r.rid == rid) = (rs.find? fun r => r.rid == rid).map f := by
  rw [List.find?_map]
  exact congrArg (fun p => (rs.find? p).map f) (funext fun r => by simp [hf])

/-- The one refused request ends with its status. -/
theorem refusedReqs_one {rid c : Nat} {rs : List Req} {r : Req} (hr : rs.find? (fun x => x.rid == rid) = some r) (hs : r.stage ≠ .finishing) :
    (refusedReqs [(rid, c)] rs).find? (fun x => x.rid == rid) = some (r.fail c) := by
  have hid : r.rid = rid := by simpa using List.find?_some hr
  refine (find?_map_rid _ (fun x => ?_) rid rs).trans ?_
  · split_ifs <;> rfl
  · rw [hr, Option.map_some, if_pos hid, if_neg hs]

/-! #### The plan is held -/

/-- The requests refused and the idle route table filled. -/
def State.refilled (s : State) (rs : List Req) (c : Counters) : State :=
  { s with reqs := rs, yard := { s.yard with idle := some s.withoutPorts.buildRoutes, stale := false }, ctr := c }

theorem State.refilled_eq (s : State) (p : PlanInput) (bad : List (Nat × Nat)) :
    ∃ c, (((s.pulse 0x09).countPlan p).refuse bad).fillRoutes = s.refilled (refusedReqs bad s.reqs) c := by
  obtain ⟨c, hc⟩ := (s.counts_pulse 0x09).trans (State.counts_countPlan _ p)
  rw [hc, State.refuse_eq]
  exact ⟨c, rfl⟩

/-- The plan is held for tick `t`. -/
def State.holdPlan (s : State) (p : PlanInput) (t : Nat) (admits : List Nat) (long : List (Nat × Nat)) : State :=
  { s with
    fore := { s.fore with nextPlan := some p, nextLaid := s.ringsAll, nextLots := s.lots, planTick := t, admits := admits, nextRefused := long }
    tick := { s.tick with planDone := true } }

/-- The requests that a plan admits. -/
def State.planAdmits (s : State) (p : PlanInput) : List Nat := (s.admitsFor (s.tick.num + 1)).filter fun r => !((s.refusals p).any fun b => b.1 == r)

theorem execPlan_next {s : State} {p : PlanInput} (hr : s.fore.replan = false) : execPlan p s =
    when (s.ticking && s.tick.phase != .none && !s.tick.planDone && s.ctr.latched.isNone && s.planOk (s.tick.num + 1) p (s.planAdmits p)) s
      (((((((((s.pulse 0x09).countPlan p).refuse ((s.pulse 0x09).faultRefusals p)).fillRoutes).setWants p.fnSets).startMerges (s.tick.num + 1)).applyDeltas (s.tick.num + 1)).holdPlan
        { p with tasks := keptTasks (s.refusals p) p.tasks } (s.tick.num + 1) (s.planAdmits p) ((s.pulse 0x09).longRefusals p)).crewCount
        (if s.reproPlan then 44 else 45)) :=
  if_neg (ne_true_of_eq_false hr)

/-- A legal plan is held, and its refused requests end. -/
theorem execPlan_held {s : State} {p : PlanInput} (ht : s.ticking = true) (hr : s.fore.replan = false) (hp : s.tick.phase ≠ .none) (hd : s.tick.planDone = false)
    (hl : s.ctr.latched = none) (hok : s.planOk (s.tick.num + 1) p (s.planAdmits p) = true) :
    ∃ u c k, (s.refilled (refusedReqs (s.faultRefusals p) s.reqs) c).lays u ∧ exec (.plan p) s =
      .next ((u.holdPlan { p with tasks := keptTasks (s.refusals p) p.tasks } (s.tick.num + 1) (s.planAdmits p) (s.longRefusals p)).crewCount k) := by
  obtain ⟨c, hc⟩ := s.refilled_eq p (s.faultRefusals p)
  refine ⟨_, c, if s.reproPlan then 44 else 45,
    ((State.lays_setWants _ p.fnSets).trans (State.lays_startMerges _ (s.tick.num + 1))).trans (State.lays_applyDeltas _ (s.tick.num + 1)), ?_⟩
  have hgo : execPlan p s = _ := (execPlan_next hr).trans (when_pos (by simp [ht, hp, hd, hl, hok]))
  rw [← hc]
  exact hgo

end Sys2Proof.Machine

open Sys2Proof.Machine

/-- Settles O31: planning changes only what `lays`, the refusals and the idle routes change, and then holds the plan. -/
theorem plansComplete : Obligations.PlansComplete := by
  refine ⟨fun s p ht hr hp hd hl hok => ?_, fun s p hr hno => (execPlan_next hr).trans (when_neg ?_)⟩
  · obtain ⟨u, c, k, ⟨cs, v, q, f, c', rfl⟩, hexec⟩ := execPlan_held ht hr hp hd hl hok
    refine ⟨_, hexec, rfl, rfl, rfl, rfl, rfl, rfl, rfl, rfl, rfl, rfl, rfl, rfl, rfl, rfl, fun rid st r hbad hreq hst => ⟨r.fail st, ?_, rfl, rfl⟩⟩
    have hone := refusedReqs_one (c := st) hreq hst
    rw [← hbad] at hone
    exact hone
  · rw [show s.planOk (s.tick.num + 1) p (s.planAdmits p) = false from hno, Bool.and_false]

end

/-! ### What the work of a tick leaves unchanged -/

section

namespace Sys2Proof.Machine

/-- Profile, lots, resident weights, members and the snapshot latched at a commit. -/
structure Basis where
  profile : BitVec 128
  lots    : Sparse (BitVec 128)
  weights : Mem
  members : List Member
  lostNow : List Nat
  latched : Option Snap

/-- What neither a commit nor the start of an attempt moves: the tick controller, the CREW_EPOCH and the master; and, of a `deep` view, what only a
commit moves. -/
structure View where
  tick   : TickSt
  epoch  : W32
  master : Nat
  basis  : Option Basis

def Basis.seen (deep : Bool) (b : Basis) : Option Basis := if deep then some b else none

def State.view (deep : Bool) (s : State) : View :=
  ⟨s.tick, s.crew.epoch, s.crew.master, Basis.seen deep ⟨s.profile, s.lots, s.wt.data, s.crew.members, s.crew.lostNow, s.ctr.latched⟩⟩

@[simp] theorem Basis.seen_false (b : Basis) : b.seen false = none := rfl

@[simp] theorem State.mk_view (deep : Bool) (ident : Ident) (pwr : Power) (sys : Sys) (smb : Smbus) (nor : Mem) (norBusy : List NorWrite) (img : Image)
    (sec : Security) (mbx : Mailbox) (host : HostIf) (profile : BitVec 128) (lots : Sparse (BitVec 128)) (reqs : List Req) (seqs : List Seq)
    (nodes : List PrefixNode) (hbm : Hbm) (land : Landing) (sketches : List (W32 × Nat × BitVec 256)) (qsketch : List (W32 × Nat × Nat × BitVec 256))
    (flash : Flash) (vidx : List VIndex) (searches : List Search) (wt : Weights) (tick : TickSt) (crew : Crew) (ports : Sparse LinkPort) (yard : Yarder)
    (coll : Coll) (dies : Sparse Die) (cores : Sparse Core) (stands : Sparse Stand) (fore : Forester) (ctr : Counters) (therm : SensorReadings)
    (tmux : Tmux) (jtag : Jtag) (chk : Checkpoint) (freeIx : Nat) (pending : List Instr) :
    (State.mk ident pwr sys smb nor norBusy img sec mbx host profile lots reqs seqs nodes hbm land sketches qsketch flash vidx searches wt tick crew ports
      yard coll dies cores stands fore ctr therm tmux jtag chk freeIx pending).view deep =
      ⟨tick, crew.epoch, crew.master, Basis.seen deep ⟨profile, lots, wt.data, crew.members, crew.lostNow, ctr.latched⟩⟩ := rfl

@[simp] theorem View.eta (deep : Bool) (s : State) : (⟨s.tick, s.crew.epoch, s.crew.master,
    Basis.seen deep ⟨s.profile, s.lots, s.wt.data, s.crew.members, s.crew.lostNow, s.ctr.latched⟩⟩ : View) = s.view deep := rfl

@[simp] theorem View.eta_false (s : State) : (⟨s.tick, s.crew.epoch, s.crew.master, none⟩ : View) = s.view false := rfl

@[simp] theorem foldl_view {β : Type} {deep : Bool} (f : State → β → State) (h : ∀ s b, (f s b).view deep = s.view deep) (l : List β) (s : State) :
    (l.foldl f s).view deep = s.view deep := foldl_keeps (State.view deep) f h l s

@[simp] theorem foldl_fst_view {α β : Type} {deep : Bool} (f : State × α → β → State × α) (h : ∀ a b, (f a b).1.view deep = a.1.view deep) (l : List β)
    (a : State × α) : (l.foldl f a).1.view deep = a.1.view deep := foldl_fst_keeps (State.view deep) f h l a

@[simp] theorem ite_view (deep : Bool) (c : Prop) [Decidable c] (a b : State) :
    (if c then a else b).view deep = if c then a.view deep else b.view deep := apply_ite (State.view deep) c a b

section

variable (deep : Bool) (s : State)

@[simp] theorem State.freeBytes_view (n : Nat) : (s.freeBytes n).2.view deep = s.view deep := (rfl)
@[simp] theorem State.freeWord_view : s.freeWord.2.view deep = s.view deep := (rfl)

/-! #### Parts, counters, requests and sequences -/

@[simp] theorem State.setDie_view (d : Nat) (x : Die) : (s.setDie d x).view deep = s.view deep := (rfl)
@[simp] theorem State.setCore_view (c : Nat) (x : Core) : (s.setCore c x).view deep = s.view deep := (rfl)
@[simp] theorem State.setStand_view (n : Nat) (x : Stand) : (s.setStand n x).view deep = s.view deep := (rfl)
@[simp] theorem State.setPort_view (n : Nat) (x : LinkPort) : (s.setPort n x).view deep = s.view deep := (rfl)
@[simp] theorem State.count_view (dom cls index : Nat) (n : Nat) : (s.count dom cls index n).view deep = s.view deep := (rfl)
@[simp] theorem State.hubCount_view (cls index : Nat) (n : Nat) : (s.hubCount cls index n).view deep = s.view deep := (rfl)
@[simp] theorem State.crewCount_view (index : Nat) (n : Nat) : (s.crewCount index n).view deep = s.view deep := (rfl)
@[simp] theorem State.updReq_view (rid : Nat) (f : Req → Req) : (s.updReq rid f).view deep = s.view deep := (rfl)
@[simp] theorem State.updReqs_view (f : Req → Req) : (s.updReqs f).view deep = s.view deep := (rfl)
@[simp] theorem State.updSeq_view (h : W32) (f : Seq → Seq) : (s.updSeq h f).view deep = s.view deep := (rfl)
@[simp] theorem State.stageEdit_view (t : Nat) (h : W32) (v : Nat) (e : W64) : (s.stageEdit t h v e).view deep = s.view deep := (rfl)
@[simp] theorem State.send_view (m : OutMsg) : (s.send m).view deep = s.view deep := (rfl)

/-! #### Memories and messages -/

@[simp] theorem State.writeHbm_view (a : Nat) (bs : List Byte) : (s.writeHbm a bs).view deep = s.view deep := (rfl)
@[simp] theorem State.writeSide_view (a : Nat) (bs : List Byte) : (s.writeSide a bs).view deep = s.view deep := (rfl)
@[simp] theorem State.writeFlash_view (a : Nat) (bs : List Byte) : (s.writeFlash a bs).view deep = s.view deep := (rfl)
@[simp] theorem State.setHbmSide_view (frame b : Nat) : (s.setHbmSide frame b).view deep = s.view deep := by simp [State.setHbmSide]
@[simp] theorem State.setFlashSide_view (frame b : Nat) : (s.setFlashSide frame b).view deep = s.view deep := by simp [State.setFlashSide]
@[simp] theorem State.enqueue_view (n : Nat) (f : Flit) : (s.enqueue n f).view deep = s.view deep := (rfl)
@[simp] theorem State.launch_view (f : Flit) : (s.launch f).view deep = s.view deep := by unfold State.launch; split <;> simp
@[simp] theorem State.sendRecord_view (r : BitVec 512) (except : Option Nat) : (s.sendRecord r except).view deep = s.view deep := (rfl)
@[simp] theorem State.flood_view : s.flood.view deep = s.view deep := by
  unfold State.flood
  split
  · rfl
  · exact State.sendRecord_view deep _ _ _

/-! #### Frames -/

@[simp] theorem State.setHbmEnt_view (f : Nat) (e : FrameEnt) : (s.setHbmEnt f e).view deep = s.view deep := (rfl)
@[simp] theorem State.setFlashEnt_view (f : Nat) (e : FrameEnt) : (s.setFlashEnt f e).view deep = s.view deep := (rfl)
@[simp] theorem State.lotCount_view (die lot ev : Nat) (n : Nat) : (s.lotCount die lot ev n).view deep = s.view deep := (rfl)
@[simp] theorem State.overdraw_view (beyond : Bool) (die lot : Nat) : (s.overdraw beyond die lot).view deep = s.view deep := by simp [State.overdraw]
@[simp] theorem State.allocHbm_view (f lot : Nat) : (s.allocHbm f lot).view deep = s.view deep := by simp [State.allocHbm]
@[simp] theorem State.allocFlash_view (f lot : Nat) : (s.allocFlash f lot).view deep = s.view deep := by simp [State.allocFlash]
@[simp] theorem State.decRef_view (r : Option (Bool × Nat)) : (s.decRef r).view deep = s.view deep := by unfold State.decRef; split <;> simp
@[simp] theorem State.pinHbm_view (f : Nat) (up : Bool) : (s.pinHbm f up).view deep = s.view deep := (rfl)

/-! #### Landing slots and the tree -/

@[simp] theorem State.stackCount_view (stack ev : Nat) : (s.stackCount stack ev).view deep = s.view deep := (rfl)
@[simp] theorem State.setSlot_view (n : Nat) (x : Slot) : (s.setSlot n x).view deep = s.view deep := (rfl)
@[simp] theorem State.takeStaging_view (stack part k : Nat) (h : W32) (layer head : Nat) : (s.takeStaging stack part k h layer head).view deep = s.view deep := by
  simp [State.takeStaging]
@[simp] theorem State.freeSlots_view (n : Nat) : (s.freeSlots n).view deep = s.view deep := by simp [State.freeSlots]
@[simp] theorem State.sharePage_view (t : Nat) (h : W32) (v : Nat) (e : W64) : (s.sharePage t h v e).view deep = s.view deep := by simp [State.sharePage]
@[simp] theorem State.freeRunSlots_view (h : W32) (first : Nat) : (s.freeRunSlots h first).view deep = s.view deep := by simp [State.freeRunSlots]
@[simp] theorem State.shareNode_view (t : Nat) (h : W32) (n : PrefixNode) (len : Nat) : (s.shareNode t h n len).view deep = s.view deep := by simp [State.shareNode]
@[simp] theorem State.matchPartial_view (t : Nat) (h : W32) (q : Seq) (r p : Nat) : (s.matchPartial t h q r p).view deep = s.view deep := by
  unfold State.matchPartial; split <;> simp
@[simp] theorem State.matchRuns_view (t : Nat) (h : W32) (k : Nat) (s : State) : (s.matchRuns t h k).view deep = s.view deep := by
  induction k generalizing s with
  | zero => rfl
  | succ k ih => unfold State.matchRuns; dsimp only; (repeat' split) <;> simp [ih]

/-! #### Flash -/

@[simp] theorem State.openBlock_view (channel b : Nat) : (s.openBlock channel b).view deep = s.view deep := (rfl)
@[simp] theorem State.pickBlock_view (channel : Nat) (but : Option Nat) : (s.pickBlock channel but).2.view deep = s.view deep := by
  unfold State.pickBlock; dsimp only; (repeat' split) <;> simp [State.openBlock]
@[simp] theorem State.mapFrame_view (frame block : Nat) : (s.mapFrame frame block).view deep = s.view deep := (rfl)
@[simp] theorem State.programFrame_view (frame : Nat) : (s.programFrame frame).view deep = s.view deep := by simp [State.programFrame]
@[simp] theorem State.programFrames_view (first n : Nat) : (s.programFrames first n).view deep = s.view deep := by simp [State.programFrames]
@[simp] theorem State.flashPut_view (a : Nat) (bs : List Byte) : (s.flashPut a bs).view deep = s.view deep := by simp [State.flashPut]

/-! #### Cores -/

@[simp] theorem State.setCtx_view (core n : Nat) (x : Ctx) : (s.setCtx core n x).view deep = s.view deep := (rfl)
@[simp] theorem State.askLoads_view (core n : Nat) : (s.askLoads core n).view deep = s.view deep := (rfl)
@[simp] theorem State.resume_view (core n : Nat) : (s.resume core n).view deep = s.view deep := by simp [State.resume]
@[simp] theorem State.nextCtx_view (core : Nat) : (s.nextCtx core).view deep = s.view deep := by unfold State.nextCtx; dsimp only; (repeat' split) <;> simp
@[simp] theorem State.placeTask_view (core n : Nat) : (s.placeTask core n).view deep = s.view deep := by unfold State.placeTask; dsimp only; (repeat' split) <;> simp

/-! #### Indexes -/

@[simp] theorem State.updIndex_view (id : Nat) (f : VIndex → VIndex) : (s.updIndex id f).view deep = s.view deep := (rfl)
@[simp] theorem State.growTombs_view (id : Nat) (lot : Nat) : (State.growTombs id s lot).view deep = s.view deep := by
  simp only [State.growTombs]; (repeat' split) <;> simp
@[simp] theorem State.settleTombs_view (x : VIndex) : (s.settleTombs x).view deep = s.view deep := by simp only [State.settleTombs]; simp

/-! #### Searches and shares -/

@[simp] theorem State.flashWrite_view (frame : Nat) (data : List Byte) (side : Nat) : (s.flashWrite frame data side).view deep = s.view deep := by
  unfold State.flashWrite; dsimp only; simp
@[simp] theorem State.noteSpill_view (f g : Nat) : (s.noteSpill f g).view deep = s.view deep := (rfl)
@[simp] theorem State.updSearch_view (slot : Nat) (f : Search → Search) : (s.updSearch slot f).view deep = s.view deep := (rfl)
@[simp] theorem State.settleShare_view : s.settleShare.view deep = s.view deep := by simp [State.settleShare]

/-! #### Spills, moves and tails -/

@[simp] theorem State.refuse_view (bad : List (Nat × Nat)) : (s.refuse bad).view deep = s.view deep := by
  unfold State.refuse; exact foldl_view _ (fun s b => by simp) _ _
@[simp] theorem State.pruneNodes_view (p : State → PrefixNode → Bool) (k : Nat) (s : State) : (State.pruneNodes p k s).view deep = s.view deep := by
  induction k generalizing s with
  | zero => rfl
  | succ k ih => unfold State.pruneNodes; split <;> simp [ih]
@[simp] theorem State.pruneFrame_view (f : Nat) : (s.pruneFrame f).view deep = s.view deep := by simp [State.pruneFrame]
@[simp] theorem State.spillPage_view (t : Nat) (a : State × List Nat) (x : Nat × Nat × W32 × W64) : (State.spillPage t a x).1.view deep = a.1.view deep := by
  unfold State.spillPage; dsimp only; (repeat' split) <;> simp
@[simp] theorem State.makeSpace_view (t : Nat) (a : State × List Nat) (stack : Nat) : (State.makeSpace t a stack).1.view deep = a.1.view deep := by
  unfold State.makeSpace; dsimp only; split <;> simp
@[simp] theorem State.migrateLot_view (t : Nat) (a : State × List Nat) (lot : Nat) : (State.migrateLot t a lot).1.view deep = a.1.view deep := by simp [State.migrateLot]
@[simp] theorem State.dueSpills_view (t : Nat) (a : State × List Nat) : (State.dueSpills t a).1.view deep = a.1.view deep := by simp [State.dueSpills]
@[simp] theorem State.quotaSpills_view (t : Nat) (a : State × List Nat) : (State.quotaSpills t a).1.view deep = a.1.view deep := by simp [State.quotaSpills]
@[simp] theorem State.promote_view (t : Nat) (m : MoveChoice) : (State.promote t s m).view deep = s.view deep := by unfold State.promote; split <;> simp
@[simp] theorem State.moveOut_view (t : Nat) (m : W32 × Nat × Nat) : (State.moveOut t s m).view deep = s.view deep := by unfold State.moveOut; split <;> simp
@[simp] theorem State.moveIn_view (t : Nat) (m : MoveChoice) : (State.moveIn t s m).view deep = s.view deep := by unfold State.moveIn; split <;> simp
@[simp] theorem State.giveTail_view (t : Nat) (x : TailPlan) : (State.giveTail t s x).view deep = s.view deep := by
  unfold State.giveTail; dsimp only; (repeat' split) <;> simp

/-! #### A plan becomes work -/

@[simp] theorem State.loadStream_view (x : StreamPlan) : (s.loadStream x).view deep = s.view deep := (rfl)
@[simp] theorem State.loadTask_view (x : Nat × TaskPlan) : (s.loadTask x).view deep = s.view deep := (rfl)
@[simp] theorem State.fillCtxs_view (core : Nat) : (s.fillCtxs core).view deep = s.view deep := by simp [State.fillCtxs]
@[simp] theorem State.holdResident_view (x : Nat × Nat × Nat) : (s.holdResident x).view deep = s.view deep := (rfl)
@[simp] theorem State.notePieces_view (ts : List TaskPlan) : (s.notePieces ts).view deep = s.view deep := (rfl)
@[simp] theorem State.clearWork_view : s.clearWork.view deep = s.view deep := (rfl)
@[simp] theorem State.standTick_view (p : PlanInput) (n : Nat) : (State.standTick p s n).view deep = s.view deep := by simp [State.standTick]
@[simp] theorem State.admitReqs_view (rs : List Nat) : (s.admitReqs rs).view deep = s.view deep := by
  unfold State.admitReqs; refine foldl_view _ (fun s b => ?_) _ _; (repeat' split) <;> simp
@[simp] theorem State.loadPlan_view (t : Nat) (p : PlanInput) : (s.loadPlan t p).view deep = s.view deep := by simp only [State.loadPlan]; (repeat' split) <;> simp

/-! #### The start of an attempt -/

@[simp] theorem State.buildFork_view (t : Nat) (f : Nat × W32 × Nat × W32) : (State.buildFork t s f).view deep = s.view deep := by
  unfold State.buildFork; dsimp only; (repeat' split) <;> simp
@[simp] theorem State.endFull_view : s.endFull.view deep = s.view deep := (rfl)
@[simp] theorem State.startSearch_view (t : Nat) (x : Search) : (State.startSearch t s x).view deep = s.view deep := by
  simp only [State.startSearch]; (repeat' split) <;> simp
@[simp] theorem State.wakeCmds_view (hold : Bool) : (s.wakeCmds hold).view deep = s.view deep := (rfl)
@[simp] theorem State.snapshot_view : s.snapshot.view deep = s.view deep := (rfl)
@[simp] theorem State.notePlanned_view : s.notePlanned.view deep = s.view deep := (rfl)
@[simp] theorem State.loadKept_view (t : Nat) (p : PlanInput) : (s.loadKept t p).view deep = s.view deep := by simp [State.loadKept]
@[simp] theorem State.endPoisoned_view : s.endPoisoned.view deep = s.view deep := by simp [State.endPoisoned]
@[simp] theorem State.beginAttempt_view (t : Nat) : (s.beginAttempt t).view deep = s.view deep := by unfold State.beginAttempt; dsimp only; (repeat' split) <;> simp
@[simp] theorem State.dropRounds_view : s.dropRounds.view deep = s.view deep := (rfl)
@[simp] theorem State.poisonLayers_view (ls : List Nat) : (s.poisonLayers ls).view deep = s.view deep := by simp [State.poisonLayers]

/-! #### What a replay restores -/

@[simp] theorem State.wasteSlots_view (core : Nat) : (s.wasteSlots core).view deep = s.view deep := by simp [State.wasteSlots]
@[simp] theorem State.countRestarts_view : s.countRestarts.view deep = s.view deep := by
  exact foldl_view _ (fun s d => (foldl_view _ (fun _ _ => by simp) _ _).trans (foldl_view _ (fun _ _ => by simp) _ _)) _ _
@[simp] theorem State.restore_view : s.restore.view deep = s.view deep := by simp [State.restore]
@[simp] theorem State.dropJoins_view (all : Bool) : (s.dropJoins all).view deep = s.view deep := by simp [State.dropJoins]
@[simp] theorem State.settleMirror_view : s.settleMirror.view deep = s.view deep := by simp [State.settleMirror]
@[simp] theorem State.restartRounds_view : s.restartRounds.view deep = s.view deep := (rfl)

end

end Sys2Proof.Machine

end

/-! ### What a commit leaves unchanged -/

section

namespace Sys2Proof.Machine

section

variable (s : State)

/-! #### The host interface -/

@[simp] theorem State.pcieCount_view (port index : Nat) (n : Nat) : (s.pcieCount port index n).view false = s.view false := (rfl)
@[simp] theorem State.setHostPort_view (p : Nat) (x : HostPort) : (s.setHostPort p x).view false = s.view false := by simp [State.setHostPort]
@[simp] theorem State.setQueue_view (q : Nat) (x : Queue) : (s.setQueue q x).view false = s.view false := (rfl)
@[simp] theorem State.hostErr_view (p b : Nat) : (s.hostErr p b).view false = s.view false := by simp [State.hostErr]
@[simp] theorem State.hostWrite_view (p a : Nat) (bs : List Byte) : (s.hostWrite p a bs).view false = s.view false := (rfl)
@[simp] theorem State.writeCompletion_view (tick : Nat) (ok : Bool) (r : Req) : (s.writeCompletion tick ok r).view false = s.view false := by simp [State.writeCompletion]
@[simp] theorem State.pulse_view (sel : Nat) : (s.pulse sel).view false = s.view false := (rfl)
@[simp] theorem State.sendMsix_view (p v : Nat) : (s.sendMsix p v).view false = s.view false := by simp [State.sendMsix]
@[simp] theorem State.sendMessages_view (vs : List (Nat × Nat)) : (s.sendMessages vs).view false = s.view false := by simp [State.sendMessages]
@[simp] theorem State.writeLand_view (a : Nat) (bs : List Byte) : (s.writeLand a bs).view false = s.view false := (rfl)
@[simp] theorem State.commitFlags_view : s.commitFlags.view false = s.view false := (rfl)

/-! #### Page lists and tables -/

@[simp] theorem State.incRef_view (r : Option (Bool × Nat)) : (s.incRef r).view false = s.view false := by unfold State.incRef; split <;> simp
@[simp] theorem State.writeSketch_view (h : W32) (v : Nat) (k : BitVec 256) : (s.writeSketch h v k).view false = s.view false := by
  unfold State.writeSketch; split <;> simp
@[simp] theorem State.growTable_view (h : W32) (lot : Nat) : (State.growTable h s lot).view false = s.view false := by unfold State.growTable; split <;> simp
@[simp] theorem State.settleTable_view (h : W32) : (s.settleTable h).view false = s.view false := by unfold State.settleTable; split <;> simp
@[simp] theorem State.applyEdit_view (old new : W64) : (s.applyEdit old new).view false = s.view false := by simp [State.applyEdit]
@[simp] theorem State.queueClean_view (t f : Nat) : (s.queueClean t f).view false = s.view false := by simp [State.queueClean]
@[simp] theorem State.commitEdits_view (t : Nat) (q : Seq) : (s.commitEdits t q).view false = s.view false := by simp [State.commitEdits]
@[simp] theorem State.queueDue_view (t : Nat) (q : Seq) : (s.queueDue t q).view false = s.view false := by simp [State.queueDue]
@[simp] theorem State.setSlotSide_view (n b : Nat) : (s.setSlotSide n b).view false = s.view false := by simp [State.setSlotSide]

/-! #### The Landing and the tree -/

@[simp] theorem State.fillQueue_view (stack : Nat) (bs : List Byte) : (s.fillQueue stack bs).view false = s.view false := (rfl)
@[simp] theorem State.writeFlush_view (n : Nat) : (s.writeFlush n).view false = s.view false := by simp [State.writeFlush]
@[simp] theorem State.addNode_view (parent : Option Nat) (h : W64) (ts : List W32) (full : Bool) (r t : Nat) (fs : List (Nat × W64)) : (s.addNode parent h ts full r t fs).1.view false = s.view false := by
  simp [State.addNode]
@[simp] theorem State.enterRuns_view (t : Nat) (h : W32) (k : Nat) (s : State) : (s.enterRuns t h k).view false = s.view false := by
  induction k generalizing s with
  | zero => rfl
  | succ k ih => unfold State.enterRuns; dsimp only; (repeat' split) <;> simp [ih]
@[simp] theorem State.portsUp_view (ms : List Member) : (s.portsUp ms).view false = s.view false := (rfl)

/-! #### Indexes -/

@[simp] theorem State.indexCount_view (id ev : Nat) (n : Nat) : (s.indexCount id ev n).view false = s.view false := (rfl)
@[simp] theorem State.indexBytes_view (n : Nat) : (s.indexBytes n).view false = s.view false := (rfl)
@[simp] theorem State.writeEntry_view (id : Nat) (e : SideEnt) : (s.writeEntry id e).view false = s.view false := by unfold State.writeEntry; split <;> simp
@[simp] theorem State.writeNodes_view (x : VIndex) : (s.writeNodes x).view false = s.view false := by unfold State.writeNodes; split <;> simp
@[simp] theorem State.writeBook_view (x : VIndex) : (s.writeBook x).view false = s.view false := by unfold State.writeBook; split <;> simp

/-! #### Step 0: aborts -/

@[simp] theorem State.undoSeq_view (h : W32) : (s.undoSeq h).view false = s.view false := (rfl)
@[simp] theorem State.undoReq_view (r : Req) : (s.undoReq r).view false = s.view false := by simp [State.undoReq]
@[simp] theorem State.abortReq_view (r : Req) : (s.abortReq r).view false = s.view false := by simp [State.abortReq]
@[simp] theorem State.applyAbort_view (x : Req) : (s.applyAbort x).view false = s.view false := by unfold State.applyAbort; split <;> simp
@[simp] theorem State.commitAborts_view : s.commitAborts.view false = s.view false := by
  unfold State.commitAborts; dsimp only; rw [foldl_view, foldl_view, foldl_view]
  · intro s b; simp
  · intro s b; (repeat' split) <;> simp
  · intro s b; simp

/-! #### Step 1: pages -/

@[simp] theorem State.stageFlush_view (t : Nat) (n : Nat) : (State.stageFlush t s n).view false = s.view false := (rfl)
@[simp] theorem State.stageRebuilt_view (t : Nat) (m : MoveChoice) : (State.stageRebuilt t s m).view false = s.view false := by unfold State.stageRebuilt; split <;> simp
@[simp] theorem State.countRebuilt_view (s before : State) (ms : List MoveChoice) : (s.countRebuilt before ms).view false = s.view false := (rfl)
@[simp] theorem State.commitClean_view (t : Nat) (c : Nat × Nat) : (State.commitClean t s c).view false = s.view false := by simp [State.commitClean]
@[simp] theorem State.moveToFlash_view (t : Nat) (f g : Nat) : (State.moveToFlash t s f g).view false = s.view false := by simp [State.moveToFlash]
@[simp] theorem State.maskLost_view (t : Nat) : (State.maskLost t s).view false = s.view false := by simp [State.maskLost]
@[simp] theorem State.dropFlashCopy_view (t g : Nat) (f : Nat) : (State.dropFlashCopy t g s f).view false = s.view false := by simp [State.dropFlashCopy]
@[simp] theorem State.commitFailed_view (t : Nat) : (s.commitFailed t).view false = s.view false := by
  unfold State.commitFailed; dsimp only; rw [State.maskLost_view]; refine foldl_view _ (fun s b => ?_) _ _; (repeat' split) <;> simp
@[simp] theorem State.retireSuspects_view : s.retireSuspects.view false = s.view false := by simp [State.retireSuspects]
@[simp] theorem State.repairFlash_view (frame : Nat) : (s.repairFlash frame).view false = s.view false := by simp [State.repairFlash]
@[simp] theorem State.remapFrame_view (b : Nat) (f : Option Nat) : (s.remapFrame b f).view false = s.view false := rfl
@[simp] theorem State.repairAt_view (frame : Option Nat) : (s.repairAt frame).view false = s.view false := by
  cases frame
  · rfl
  · exact State.repairFlash_view ..
@[simp] theorem State.repairCopy_view (c : CopyId) : (s.repairCopy c).view false = s.view false := by
  unfold State.repairCopy; split
  · rw [State.remapFrame_view]
  · rw [State.repairAt_view]
@[simp] theorem State.commitRepairs_view : s.commitRepairs.view false = s.view false := by simp [State.commitRepairs]

/-! #### Closes and forks -/

@[simp] theorem State.sealPartial_view (n : Nat) : (s.sealPartial n).view false = s.view false := by simp [State.sealPartial]
@[simp] theorem State.flushPartial_view (t : Nat) (a : State × List (Nat × W64)) (n : Nat) : (State.flushPartial t a n).1.view false = a.1.view false := by
  simp [State.flushPartial]
@[simp] theorem State.sealFrame_view (t : Nat) (q : Seq) (r fill : Nat) (x : Nat × W64) : (State.sealFrame t q r fill s x).view false = s.view false := by
  simp [State.sealFrame]
@[simp] theorem State.finishClose_view (t : Nat) (q : Seq) : (State.finishClose t s q).view false = s.view false := by simp [State.finishClose]
@[simp] theorem State.copyStaging_view (src dst : Nat) : (s.copyStaging src dst).view false = s.view false := by
  obtain ⟨l, h⟩ : ∃ l, State.copyStaging s src dst = { s with land := l } := ⟨_, rfl⟩
  simp [h]
@[simp] theorem State.forkToSlot_view (child : W32) (fill n m part frame : Nat) (bytes : List Byte) : (s.forkToSlot child fill n m part frame bytes).view false = s.view false := by
  simp [State.forkToSlot]
@[simp] theorem State.forkToFrame_view (t : Nat) (child : W32) (fill n frame : Nat) (bytes : List Byte) : (State.forkToFrame t s child fill n frame bytes).view false = s.view false := by
  simp [State.forkToFrame]
@[simp] theorem State.forkWith_view (t : Nat) (child : W32) (fill n : Nat) (bytes : List Byte) (here : Option Nat) (seat : Option (Nat × Nat)) (any : Option Nat) : (State.forkWith t s child fill n bytes here seat any).view false = s.view false := by
  unfold State.forkWith; split
  · exact State.forkToSlot_view ..
  · exact State.forkToFrame_view ..
  · exact State.forkToFrame_view ..
  · rfl
@[simp] theorem State.forkSlot_view (t : Nat) (child : W32) (fill : Nat) (n : Nat) : (State.forkSlot t child fill s n).view false = s.view false := by
  unfold State.forkSlot; exact State.forkWith_view ..
@[simp] theorem State.copyForks_view (t p : Nat) (child : W32) (s : State) (ns : List Nat) : (State.copyForks t p child s ns).view false = s.view false := by
  unfold State.copyForks
  induction ns generalizing s with
  | nil => rfl
  | cons n ns ih => rw [List.foldl_cons, ih]; exact State.forkSlot_view s t child (p - (s.slot n).firstPos) n
@[simp] theorem State.commitFork_view (t : Nat) (f : Nat × W32 × Nat × W32) : (State.commitFork t s f).view false = s.view false := by
  obtain ⟨rid, parent, p, child⟩ := f
  unfold State.commitFork; dsimp only; rw [State.updReq_view, State.copyForks_view]

/-! #### The page lists stand -/

@[simp] theorem State.commitQsketch_view : s.commitQsketch.view false = s.view false := by
  unfold State.commitQsketch; refine (foldl_view _ (fun s b => ?_) _ _).trans ?_
  · (repeat' split) <;> simp
  · simp
@[simp] theorem State.commitWrites_view (t : Nat) : (s.commitWrites t).view false = s.view false := by simp [State.commitWrites]
@[simp] theorem State.dropTails_view (m : W32 × Nat × Nat) : (s.dropTails m).view false = s.view false := by simp [State.dropTails]
@[simp] theorem State.commitLists_view (t : Nat) (full : List Nat) : (s.commitLists t full).view false = s.view false := by simp [State.commitLists]
@[simp] theorem State.repin_view (t : Nat) (q : Seq) : (State.repin t s q).view false = s.view false := by simp [State.repin]
@[simp] theorem State.repinAll_view (t : Nat) : (s.repinAll t).view false = s.view false := by simp [State.repinAll]
@[simp] theorem State.rewriteMirror_view : s.rewriteMirror.view false = s.view false := by unfold State.rewriteMirror; split <;> simp
@[simp] theorem State.commitPages_view (t : Nat) : (s.commitPages t).view false = s.view false := by simp [State.commitPages]

/-! #### Step 2: releases -/

@[simp] theorem State.releaseHbm_view (f : Nat) : (s.releaseHbm f).view false = s.view false := by unfold State.releaseHbm; dsimp only; (repeat' split) <;> simp
@[simp] theorem State.releaseFlash_view (f : Nat) : (s.releaseFlash f).view false = s.view false := (rfl)
@[simp] theorem State.commitReleases_view : s.commitReleases.view false = s.view false := by simp [State.commitReleases]

/-! #### Step 3: commands -/

@[simp] theorem State.applyOpen_view (r : Req) : (s.applyOpen r).view false = s.view false := by unfold State.applyOpen; split <;> simp
@[simp] theorem State.applyFork_view (r : Req) (q : Seq) : (s.applyFork r q).view false = s.view false := by unfold State.applyFork; dsimp only; (repeat' split) <;> simp
@[simp] theorem State.applyWork_view (t : Nat) (r : Req) (hold : Bool) : (s.applyWork t r hold).view false = s.view false := by simp [State.applyWork]
@[simp] theorem State.onSeq_view (r : Req) (f : Seq → State) (hf : ∀ q, (f q).view false = s.view false) : (s.onSeq r f).view false = s.view false := by
  unfold State.onSeq; split
  · simp
  · split <;> simp [hf]
@[simp] theorem State.applyClose_view (r : Req) : (s.applyClose r).view false = s.view false := by unfold State.applyClose; split <;> simp
@[simp] theorem State.noteWritten_view (first n : Nat) : (s.noteWritten first n).view false = s.view false := (rfl)
@[simp] theorem State.applyLoad_view (r : Req) : (s.applyLoad r).view false = s.view false := by simp [State.applyLoad]
@[simp] theorem State.applyQuota_view (r : Req) : (s.applyQuota r).view false = s.view false := by simp [State.applyQuota]
@[simp] theorem State.applyRemote_view (r : Req) : (s.applyRemote r).view false = s.view false := by simp [State.applyRemote]
@[simp] theorem State.applyInsert_view (t : Nat) (r : Req) : (s.applyInsert t r).view false = s.view false := by unfold State.applyInsert; split <;> simp
@[simp] theorem State.applyDelete_view (t : Nat) (r : Req) : (s.applyDelete t r).view false = s.view false := by
  unfold State.applyDelete; dsimp only; (repeat' split) <;> simp
@[simp] theorem State.applyDrain_view (r : Req) : (s.applyDrain r).view false = s.view false := by simp [State.applyDrain]
@[simp] theorem State.applyCmd_view (t : Nat) (hold : Bool) (x : Req) : (State.applyCmd t hold s x).view false = s.view false := by unfold State.applyCmd; split <;> simp
@[simp] theorem State.endLost_view : s.endLost.view false = s.view false := (rfl)
@[simp] theorem State.commitCmds_view (t : Nat) (hold : Bool) : (s.commitCmds t hold).view false = s.view false := by simp [State.commitCmds]

/-! #### Step 4: tables -/

@[simp] theorem State.recordGens_view (t : Nat) : (s.recordGens t).view false = s.view false := by simp [State.recordGens]
@[simp] theorem State.raisePorts_view (x : EdgeInput) : (s.raisePorts x).view false = s.view false := by simp [State.raisePorts]
@[simp] theorem State.commitTables_view (t : Nat) (x : EdgeInput) : (s.commitTables t x).view false = s.view false := by simp [State.commitTables]

/-! #### Step 5: the crew -/

@[simp] theorem State.admitModules_view (ms : List (Nat × W64 × Nat)) : (s.admitModules ms).view false = s.view false := by simp [State.admitModules]
@[simp] theorem State.depart_view : s.depart.view false = s.view false := by simp [State.depart]
@[simp] theorem State.dropMembers_view (cs : List Nat) : (s.dropMembers cs).view false = s.view false := by simp [State.dropMembers]
@[simp] theorem State.commitCrew_view (x : EdgeInput) (next : Nat) : (s.commitCrew x next).view false = s.view false := by simp [State.commitCrew]

/-! #### Step 6: results -/

@[simp] theorem State.takeReturned_view (x : Returned) : (s.takeReturned x).view false = s.view false := (rfl)
@[simp] theorem State.settleWork_view : s.settleWork.view false = s.view false := (rfl)
@[simp] theorem State.writeOutput_view (t : Nat) (r : Req) : (State.writeOutput t s r).view false = s.view false := by simp [State.writeOutput]
@[simp] theorem State.writeResult_view (r : Req) : (s.writeResult r).view false = s.view false := by simp [State.writeResult]
@[simp] theorem State.complete_view (t : Nat) (bad : List Nat) (r : Req) : (State.complete t bad s r).view false = s.view false := by simp [State.complete]
@[simp] theorem State.commitResults_view (t : Nat) (x : EdgeInput) (bad : List Nat) : (s.commitResults t x bad).view false = s.view false := by simp [State.commitResults]

/-! #### Step 7 and the whole commit -/

@[simp] theorem State.retireSlots_view (gone : List Nat) (spec : List (Nat × Nat × Nat)) (core : Nat) : (State.retireSlots gone spec s core).view false = s.view false := by
  simp [State.retireSlots]
@[simp] theorem State.latchCounters_view (t : Nat) : (s.latchCounters t).view false = s.view false := (rfl)
@[simp] theorem State.commit_view (t : Nat) (hold : Bool) (x : EdgeInput) (bad : List Nat) (next : Nat) : (s.commit t hold x bad next).view false = s.view false := by
  simp [State.commit]
@[simp] theorem State.edgeCounts_view (e : EdgeMsg) (t : Nat) : (s.edgeCounts e t).view false = s.view false := by simp [State.edgeCounts]
@[simp] theorem State.takeCopy_view (x : EdgeInput) : (s.takeCopy x).view false = s.view false := by unfold State.takeCopy; split <;> simp

end

end Sys2Proof.Machine

end

/-! ### REPLAY and FORM edges -/

section

namespace Sys2Proof.Machine

/-! #### The start of a tick and of an attempt -/

/-- Shares, commands, rounds and indexes as the tick that starts finds them. -/
def State.settled (s : State) (hold : Bool) : State :=
  let s := (s.settleShare.clearWork.wakeCmds hold).dropRounds
  s.vidx.foldl State.settleTombs s

/-- Tick `t` begins with the command of number `first`. -/
def State.opens (s : State) (t first : Nat) : State :=
  { s with
    sec := { s.sec with signed := 0 }
    tick := { s.tick with firstArr := first }
    yard := s.yard.fresh
    fore := { s.fore.start t with planLots := if s.fore.planTick = t then s.fore.nextLots else s.lots, nextLots := [] } }

theorem State.startTick_eq (s : State) (t : Nat) (hold : Bool) : s.startTick t hold = ((s.settled hold).opens t s.firstArrival).snapshot.beginAttempt t := rfl

theorem State.settled_view (deep : Bool) (s : State) (hold : Bool) : (s.settled hold).view deep = s.view deep := by simp [State.settled]

/-- A tick starts with the number of its first command, and moves nothing else that the view shows. -/
theorem State.startTick_view (deep : Bool) (s : State) (t : Nat) (hold : Bool) :
    (s.startTick t hold).view deep = { s.view deep with tick := { s.tick with firstArr := s.firstArrival } } := by
  have hv := s.settled_view deep hold
  have htick : (s.settled hold).tick = s.tick := congrArg View.tick hv
  rw [State.startTick_eq, State.beginAttempt_view, State.snapshot_view, ← hv, ← htick]
  rfl

/-- The counts of an edge only count. -/
theorem State.counts_edgeCounts (s : State) (e : EdgeMsg) (t : Nat) : s.counts (s.edgeCounts e t) := by
  unfold State.edgeCounts
  extract_lets a b c d
  have hb : s.counts b := (s.counts_pulse _).trans (State.counts_ite _ _ (State.counts_crewCount _ _ _) (State.counts_refl _))
  have hc : s.counts c := hb.trans (State.counts_ite _ _ (State.counts_refl _) (State.counts_crewCount _ _ _))
  have hd : s.counts d := hc.trans (State.counts_ite _ _ (State.counts_refl _) (State.counts_crewCount _ _ _))
  exact hd.trans (State.counts_crewCount _ _ _)

/-- What a member notes of C enters only its own histogram. -/
theorem State.noteC_eq (s : State) (e : EdgeMsg) : s.noteC e = { s with tick := { s.tick with cHist := (s.noteC e).tick.cHist } } := by
  unfold State.noteC
  split_ifs <;> rfl

/-- A state that differs in the histogram of C and the counters only. -/
def State.noted (s : State) (hist : List Nat) (c : Counters) : State := { s with tick := { s.tick with cHist := hist }, ctr := c }

/-- What the view of a state tells of it. -/
theorem State.of_view {deep : Bool} {t : State} {v : View} (h : t.view deep = v) : t.tick = v.tick ∧ t.crew.epoch = v.epoch ∧ t.crew.master = v.master :=
  ⟨congrArg View.tick h, congrArg View.epoch h, congrArg View.master h⟩

theorem State.basis_of_view {s t : State} {v : View} (h : t.view true = v) (hv : v.basis = (s.view true).basis) : t.profile = s.profile ∧ t.lots = s.lots ∧
    t.wt.data = s.wt.data ∧ t.crew.members = s.crew.members ∧ t.crew.lostNow = s.crew.lostNow ∧ t.ctr.latched = s.ctr.latched := by
  have hb := Option.some.inj ((congrArg View.basis h).trans hv)
  exact ⟨congrArg Basis.profile hb, congrArg Basis.lots hb, congrArg Basis.weights hb, congrArg Basis.members hb, congrArg Basis.lostNow hb,
    congrArg Basis.latched hb⟩

/-! #### Fault at the replay limit -/

/-- What a fault of class 0x0A leaves. -/
theorem State.enterFault_limit (s : State) (detail : Nat) : let t := s.enterFault 0xA detail
    t.nor = s.nor ∧ t.profile = s.profile ∧ t.lots = s.lots ∧ t.wt.data = s.wt.data ∧ t.tick.last = s.tick.last ∧ t.sys.state = .fault ∧
      t.sys.faultClass = 0xA := by
  obtain ⟨h, rs, c, he⟩ := s.enterFault_eq 0xA detail
  intro t
  rw [show t = _ from he]
  exact ⟨rfl, rfl, rfl, rfl, rfl, rfl, rfl⟩

theorem State.replayLimit_of_attempt {s : State} {failed : Bool} (h : 127 ≤ s.tick.attempt) : s.replayLimit failed = true := by
  rw [State.replayLimit, decide_eq_true h, Bool.true_or]

theorem State.sys_of_status {t : State} {v : Sys × Bool} (h : t.status = v) : t.sys = v.1 := congrArg Prod.fst h

/-! #### REPLAY -/

/-- The counts of a REPLAY edge. -/
theorem State.replayCounts_eq (s : State) (e : EdgeMsg) :
    ∃ hist c, (((s.noteC e).edgeCounts e s.tickPeriod).pulse 0x04).crewCount 1 = s.noted hist c := by
  obtain ⟨c, hc⟩ := ((State.counts_edgeCounts (s.noteC e) e s.tickPeriod).trans (State.counts_pulse _ 0x04)).trans (State.counts_crewCount _ 1 1)
  refine ⟨(s.noteC e).tick.cHist, c, Eq.trans hc ?_⟩
  rw [s.noteC_eq e]
  rfl

/-- The tick controller `k` in the next attempt of its tick. -/
def TickSt.retry (k : TickSt) (e : EdgeMsg) (now failed : Nat) (parts : List (Nat × Nat)) : TickSt :=
  { k.begin e now with attempt := k.attempt + 1, failed := failed, blamed := parts }

theorem State.replayLimit_noted (s : State) (hist : List Nat) (c : Counters) (failed : Bool) : (s.noted hist c).replayLimit failed = s.replayLimit failed := rfl

theorem State.failCount_noted (s : State) (hist : List Nat) (c : Counters) (failed : Bool) : (s.noted hist c).failCount failed = s.failCount failed := rfl

/-- At the limit of R106 a REPLAY edge leads to FAULT. -/
theorem State.applyReplay_limit {s : State} {e : EdgeMsg} {now : Nat} {x : EdgeInput} (hl : s.replayLimit true = true) :
    ∃ hist c, s.applyReplay e now x = (s.noted hist c).enterFault 0xA (s.tick.num % 2 ^ 32) := by
  obtain ⟨hist, c, hs1⟩ := s.replayCounts_eq e
  refine ⟨hist, c, ?_⟩
  unfold State.applyReplay
  extract_lets s1
  rw [show s1 = s.noted hist c from hs1]
  rw [State.replayLimit_noted, hl, if_pos rfl]
  rfl

/-- Below the limit it begins the next attempt of the tick. -/
theorem State.applyReplay_again {s : State} {e : EdgeMsg} {now : Nat} {x : EdgeInput} (hl : s.replayLimit true = false) :
    (∃ hist c parts, (s.applyReplay e now x).view true =
      { (s.noted hist c).view true with tick := (s.noted hist c).tick.retry e now (s.tick.failed + 1) parts }) ∧ (s.applyReplay e now x).status = s.status := by
  obtain ⟨hist, c, hs1⟩ := s.replayCounts_eq e
  unfold State.applyReplay
  extract_lets s1 layers old parts n again s2
  have hn : n = s1.failCount true := rfl
  have hv : s2.view true = s1.view true := by simp [s2]
  have hst : s2.status = s1.status := by simp [s2]
  replace hs1 : s1 = s.noted hist c := hs1
  clear_value n s2 layers parts again old s1
  subst hs1
  have htick : s2.tick = (s.noted hist c).tick := congrArg View.tick hv
  rw [State.replayLimit_noted, hl, if_neg Bool.false_ne_true, State.beginAttempt_view, State.poisonLayers_view, State.beginAttempt_status,
    State.poisonLayers_status]
  refine ⟨⟨hist, c, parts, ?_⟩, hst⟩
  refine (congrArg (fun v : View => { v with tick := s2.tick.retry e now n parts }) hv).trans ?_
  rw [htick, hn, State.failCount_noted]
  rfl

/-! #### FORM of a re-forming -/

theorem State.counts_formCounts (s : State) (e : EdgeMsg) : s.counts (((s.edgeCounts e s.tickPeriod).crewCount 2).crewCount 19) :=
  ((State.counts_edgeCounts s e s.tickPeriod).trans (State.counts_crewCount _ _ _)).trans (State.counts_crewCount _ _ _)

/-- A view without some members. -/
def View.without (v : View) (cs : List Nat) : View :=
  { v with basis := v.basis.map fun b => { b with members := b.members.filter fun m => !(cs.contains m.coord) } }

/-- Lost members leave the list of members; the rest of the view stays. -/
theorem State.dropMembers_deep (s : State) (cs : List Nat) : (s.dropMembers cs).view true = (s.view true).without cs := by
  unfold State.dropMembers
  rw [State.crewCount_view, ite_view, State.restartRounds_view, ite_self, State.settleMirror_view]
  rfl

/-- A view under a FORM edge: its numbers, and no member lost. -/
def View.formed (v : View) (k : TickSt) (e : EdgeMsg) : View := ⟨k, e.epoch, e.master, v.basis.map fun b => { b with lostNow := [] }⟩

theorem State.replayLimit_withCtr (s : State) (c : Counters) (failed : Bool) : (s.withCtr c).replayLimit failed = s.replayLimit failed := rfl

theorem State.failKnown_withCtr (s : State) (c : Counters) (x : EdgeInput) : (s.withCtr c).failKnown x = s.failKnown x := rfl

/-- At the limit of R106 a FORM edge leads to FAULT. -/
theorem State.reform_limit {s : State} {e : EdgeMsg} {now : Nat} {x : EdgeInput} (hl : s.replayLimit (s.failKnown x) = true) :
    ∃ c, s.reform e now x = (s.withCtr c).enterFault 0xA (s.tick.num % 2 ^ 32) := by
  obtain ⟨c, hs1⟩ := s.counts_formCounts e
  refine ⟨c, ?_⟩
  unfold State.reform
  extract_lets s1 failed
  have hl1 : s1.replayLimit failed = true := by
    rw [show failed = s1.failKnown x from rfl, show s1 = s.withCtr c from hs1, State.failKnown_withCtr, State.replayLimit_withCtr, hl]
  rw [if_pos hl1, show s1 = s.withCtr c from hs1]
  rfl

/-- Below the limit it begins the next attempt of the tick in the crew that is left. -/
theorem State.reform_again {s : State} {e : EdgeMsg} {now : Nat} {x : EdgeInput} (hl : s.replayLimit (s.failKnown x) = false) :
    (∃ c parts, (s.reform e now x).view true =
      (((s.withCtr c).view true).without s.crew.lostNow).formed (s.tick.retry e now (s.failCount (s.failKnown x)) parts) e) ∧
      (s.reform e now x).status = s.status := by
  obtain ⟨c, hs1⟩ := s.counts_formCounts e
  unfold State.reform
  extract_lets s1 failed parts n gone layers old s2
  replace hs1 : s1 = s.withCtr c := hs1
  have hfailed : failed = s1.failKnown x := rfl
  have hn : n = s1.failCount failed := rfl
  have hgone : gone = s1.crew.lostNow := rfl
  have hv : s2.view true = (s1.view true).without gone := by
    rw [State.wakeCmds_view, State.dropMembers_deep, State.dropJoins_view, State.restore_view]
  have hst : s2.status = s1.status := by simp [s2]
  clear_value n s2 layers parts gone failed old s1
  subst hs1 hfailed hn hgone
  have htick : s2.tick = s.tick := congrArg View.tick hv
  rw [State.failKnown_withCtr, State.replayLimit_withCtr, hl, if_neg Bool.false_ne_true, State.beginAttempt_view, State.snapshot_view, State.flood_view,
    State.poisonLayers_view, State.beginAttempt_status, State.snapshot_status, State.flood_status, State.poisonLayers_status]
  refine ⟨⟨c, parts, ?_⟩, hst⟩
  refine (congrArg (fun v : View => v.formed (s2.tick.retry e now ((s.withCtr c).failCount (s.failKnown x)) parts) e) hv).trans ?_
  rw [htick]
  rfl

/-! #### FORM of a new crew -/

theorem State.startCounts_eq (s : State) (e : EdgeMsg) : ∃ c, (s.edgeCounts e s.tickPeriod).crewCount 2 = s.withCtr c :=
  (State.counts_edgeCounts s e s.tickPeriod).trans (State.counts_crewCount _ 2 1)

/-- The members of a new crew enter RUN, and its first tick starts. -/
theorem State.startCrew_begins (s : State) (e : EdgeMsg) (now : Nat) :
    (∃ c first, (s.startCrew e now).view true = ⟨{ s.tick.begin e now with firstArr := first }, e.epoch, e.master, ((s.withCtr c).view true).basis⟩) ∧
      (s.startCrew e now).status = ({ s.sys with state := .run }, s.crew.member) := by
  obtain ⟨c, hs1⟩ := s.startCounts_eq e
  unfold State.startCrew
  dsimp only
  rw [hs1, State.startTick_view, State.startTick_status]
  exact ⟨⟨c, _, rfl⟩, rfl⟩

/-! #### TICK_EDGE_APPLY -/

/-- What an edge does to a member once its EDGE_TIME has come. -/
theorem execTickEdge_due {s : State} {now : W64} {bad : List Nat} {x : EdgeInput} {e : EdgeMsg} (hc : s.inCrew = true) (hp : s.tick.pending = some e)
    (htime : e.edgeTime ≤ now.toNat) : exec (.tickEdgeApply now bad x) s = .next
      (if e.decision = 2 then if s.unstarted then s.startCrew e now.toNat else s.reform e now.toNat x
       else if s.tick.phase ≠ .checkAndCommit then s
       else if e.decision = 1 then s.applyReplay e now.toNat x
       else if s.tick.cmdset.isNone then s.askMaster 2
       else if s.recordsWait then s else s.applyCommit e now.toNat x bad) := by
  have hm : s.crew.member = true := State.member_of_inCrew hc
  change execTickEdgeApply now bad x s = _
  rw [execTickEdgeApply, hp]
  dsimp only
  rw [if_neg (Nat.not_lt.mpr htime), if_neg (fun h => h.2 hm), if_neg (by simp [hc])]
  split_ifs <;> rfl

theorem State.inCrew_of_ticking {s : State} (h : s.ticking = true) : s.inCrew = true := by rw [State.inCrew, h, Bool.true_or]

/-- A REPLAY edge, at the limit or below it. -/
theorem replayEdge {s : State} {now : W64} {bad : List Nat} {x : EdgeInput} {e : EdgeMsg} (ht : s.ticking = true) (hp : s.tick.pending = some e)
    (htime : e.edgeTime ≤ now.toNat) (hphase : s.tick.phase = .checkAndCommit) (hd : e.decision = 1) :
    exec (.tickEdgeApply now bad x) s = .next (s.applyReplay e now.toNat x) := by
  rw [execTickEdge_due (State.inCrew_of_ticking ht) hp htime, if_neg (by omega), if_neg (not_not.mpr hphase), if_pos hd]

/-- The FORM edge of a re-forming. -/
theorem reformEdge {s : State} {now : W64} {bad : List Nat} {x : EdgeInput} {e : EdgeMsg} (ht : s.ticking = true) (hp : s.tick.pending = some e)
    (htime : e.edgeTime ≤ now.toNat) (hu : s.unstarted = false) (hd : e.decision = 2) :
    exec (.tickEdgeApply now bad x) s = .next (s.reform e now.toNat x) := by
  rw [execTickEdge_due (State.inCrew_of_ticking ht) hp htime, if_pos hd, hu, if_neg Bool.false_ne_true]

end Sys2Proof.Machine

open Sys2Proof.Machine

/-- Settles O30: at the limit an edge leads to FAULT, below it the views of the next attempt and of the first tick say what changed. -/
theorem replayAndFormEdges : Obligations.ReplayAndFormEdges := by
  refine ⟨fun s now bad x e ht hp htime hphase hd => ⟨_, replayEdge ht hp htime hphase hd, State.nor_of_board (s.applyReplay_board e now.toNat x), ?_⟩,
    fun s now bad x e ht hp htime hu hd => ⟨_, reformEdge ht hp htime hu hd, State.nor_of_board (s.reform_board e now.toNat x), ?_⟩,
    fun s now bad x e hm hj hp htime hu hd => ?_⟩
  · cases hl : s.replayLimit true
    · obtain ⟨⟨hist, c, parts, hv⟩, hst⟩ := State.applyReplay_again (e := e) (now := now.toNat) (x := x) hl
      obtain ⟨hprof, hlots, hwt, hmem, -, -⟩ := State.basis_of_view (s := s.noted hist c) hv rfl
      obtain ⟨htick, -, -⟩ := State.of_view hv
      refine ⟨hprof, hlots, hwt, by rw [htick]; rfl, fun h127 => ?_, fun _ => ⟨State.sys_of_status hst, ?_⟩⟩
      · exact absurd hl (by rw [State.replayLimit_of_attempt h127]; decide)
      · rw [htick]
        exact ⟨rfl, rfl, rfl, rfl, rfl, rfl, rfl, hmem⟩
    · obtain ⟨hist, c, hfault⟩ := State.applyReplay_limit (e := e) (now := now.toNat) (x := x) hl
      obtain ⟨-, hprof, hlots, hwt, hlast, hstate, hclass⟩ := (s.noted hist c).enterFault_limit (s.tick.num % 2 ^ 32)
      rw [hfault]
      exact ⟨hprof, hlots, hwt, hlast, fun _ => ⟨hstate, hclass⟩, fun h => absurd h (by decide)⟩
  · cases hl : s.replayLimit (s.failKnown x)
    · obtain ⟨⟨c, parts, hv⟩, hst⟩ := State.reform_again (e := e) (now := now.toNat) hl
      obtain ⟨htick, hepoch, hmaster⟩ := State.of_view hv
      have hb := Option.some.inj (congrArg View.basis hv)
      refine ⟨congrArg Basis.profile hb, fun h127 => ?_, fun _ => ⟨congrArg (fun y : Sys × Bool => y.1.state) hst, hepoch, hmaster,
        congrArg Basis.lostNow hb, congrArg Basis.members hb, ?_⟩⟩
      · exact absurd hl (by rw [State.replayLimit_of_attempt h127]; decide)
      · rw [htick]
        exact ⟨rfl, rfl, rfl⟩
    · obtain ⟨c, hfault⟩ := State.reform_limit (e := e) (now := now.toNat) hl
      obtain ⟨-, hprof, -, -, -, hstate, hclass⟩ := (s.withCtr c).enterFault_limit (s.tick.num % 2 ^ 32)
      rw [hfault]
      exact ⟨hprof, fun _ => ⟨hstate, hclass⟩, fun h => absurd h (by decide)⟩
  · have hc : s.inCrew = true := by simp [State.inCrew, hm, hj]
    obtain ⟨⟨c, first, hv⟩, hst⟩ := s.startCrew_begins e now.toNat
    have hgo : exec (.tickEdgeApply now bad x) s = .next (s.startCrew e now.toNat) := by
      rw [execTickEdge_due hc hp htime, if_pos hd, if_pos hu]
    obtain ⟨htick, hepoch, -⟩ := State.of_view hv
    obtain ⟨-, -, -, hmem, -, -⟩ := State.basis_of_view (s := s.withCtr c) hv rfl
    refine ⟨_, hgo, State.nor_of_board (s.startCrew_board e now.toNat), State.sys_of_status hst, hepoch, hmem, ?_⟩
    rw [htick]
    exact ⟨rfl, rfl⟩

end

/-! ### COMMIT edges -/

section

namespace Sys2Proof.Machine

/-! #### A departure at the commit -/

/-- A module that has departed did so from DRAIN and is a member no more. -/
def State.departsWell (s : State) : Prop := s.sys.departed = true → s.sys.state = .drain ∧ s.crew.member = false

theorem State.departsWell_congr {s t : State} (h : t.status = s.status) (hs : s.departsWell) : t.departsWell := by
  have hsys : t.sys = s.sys := congrArg Prod.fst h
  have hmem : t.crew.member = s.crew.member := congrArg Prod.snd h
  unfold State.departsWell
  rwa [hsys, hmem]

theorem State.departed_congr {s t : State} (h : t.status = s.status) (hs : s.sys.departed = false) : t.sys.departed = false := by
  rw [State.sys_of_status h]
  exact hs

/-- No command of a commit makes the module depart. -/
theorem State.applyCmd_stays {s : State} (t : Nat) (hold : Bool) (r : Req) (h : s.sys.departed = false) : (State.applyCmd t hold s r).sys.departed = false := by
  rcases State.applyCmd_status t hold s r with hst | ⟨q, hq⟩
  · exact State.departed_congr hst h
  · rw [hq]
    rcases s.applyDrain_status q with hst | hst <;> rw [State.sys_of_status hst] <;> exact h

theorem State.commitCmds_stays {s : State} (t : Nat) (hold : Bool) (h : s.sys.departed = false) : (s.commitCmds t hold).sys.departed = false := by
  refine State.departed_congr (State.endLost_status _) ?_
  generalize s.stagedCmds = cmds
  induction cmds generalizing s with
  | nil => exact h
  | cons r cmds ih => exact ih (State.applyCmd_stays t hold r h)

/-- A module that departs at a commit does so well. -/
theorem State.commitCrew_departs {s : State} (x : EdgeInput) (next : Nat) (h : s.sys.departed = false) : (s.commitCrew x next).departsWell := by
  unfold State.commitCrew
  extract_lets s1 others s2 s3 s4
  have h3 : s3.sys.departed = false := State.departed_congr (by simp only [s3, s2, s1]; split <;> simp) h
  have h4 : s4.departsWell := by
    simp only [s4]
    split
    · rename_i hd
      have hst := State.depart_status (s3.crewCount 18)
      exact fun _ => ⟨by rw [State.sys_of_status hst]; exact State.mayDepart_drain hd.1, congrArg Prod.snd hst⟩
    · exact fun hd => absurd hd (by rw [h3]; decide)
  exact State.departsWell_congr rfl h4

theorem State.commit_departs {s : State} (t : Nat) (hold : Bool) (x : EdgeInput) (bad : List Nat) (next : Nat) (h : s.sys.departed = false) :
    (s.commit t hold x bad next).departsWell := by
  unfold State.commit
  extract_lets s1 gone spec s2 s3 s4
  have h3 : s3.sys.departed = false := State.departed_congr (by simp [s3, s2, s1]) h
  have h4 : s4.departsWell :=
    State.commitCrew_departs x next (State.departed_congr (State.commitTables_status ..) (State.commitCmds_stays t hold h3))
  exact State.departsWell_congr (by simp) h4

/-! #### The commit -/

/-- The counts of a COMMIT edge. -/
def State.commitCounts (s : State) (e : EdgeMsg) : State :=
  let s := ((((s.noteC e).edgeCounts e (fld s.nextProfile 107 21))).pulse 0x03).crewCount 0
  if s.tick.attempt ≤ 7 then s.crewCount (8 + s.tick.attempt) else s

theorem State.commitCounts_eq (s : State) (e : EdgeMsg) : ∃ c, s.commitCounts e = s.noted (s.noteC e).tick.cHist c := by
  obtain ⟨c, hc⟩ : (s.noteC e).counts (s.commitCounts e) :=
    (((State.counts_edgeCounts (s.noteC e) e (fld s.nextProfile 107 21)).trans (State.counts_pulse _ 0x03)).trans (State.counts_crewCount _ 0 1)).trans
      (State.counts_ite _ _ (State.counts_crewCount _ _ _) (State.counts_refl _))
  refine ⟨c, hc.trans ?_⟩
  rw [s.noteC_eq e]
  rfl

/-- The state once the commit is done. -/
def State.committed (s : State) (e : EdgeMsg) (x : EdgeInput) (bad : List Nat) : State :=
  ((s.commitCounts e).commit s.tick.num e.hold x bad e.master).takeCopy x

/-- A commit keeps the tick controller but for the histogram of C, and the CREW_EPOCH. -/
theorem State.committed_tick (s : State) (e : EdgeMsg) (x : EdgeInput) (bad : List Nat) :
    (s.committed e x bad).tick = { s.tick with cHist := (s.noteC e).tick.cHist } ∧ (s.committed e x bad).crew.epoch = s.crew.epoch := by
  obtain ⟨c, hc⟩ := s.commitCounts_eq e
  have hv : (s.committed e x bad).view false = (s.noted (s.noteC e).tick.cHist c).view false := by
    rw [State.committed, State.takeCopy_view, State.commit_view, hc]
  obtain ⟨htick, hepoch, -⟩ := State.of_view hv
  exact ⟨htick, hepoch⟩

theorem State.takeCopy_ctr (s : State) (x : EdgeInput) : (s.takeCopy x).ctr = s.ctr := by
  unfold State.takeCopy
  split
  · rfl
  · extract_lets h
    split_ifs <;> rfl

/-- The counters of the commit stand latched for its tick. -/
theorem State.committed_latched (s : State) (e : EdgeMsg) (x : EdgeInput) (bad : List Nat) :
    (s.committed e x bad).ctr.latched.map (·.tick) = some s.tick.num := by
  rw [State.committed, State.takeCopy_ctr]
  rfl

theorem State.committed_departs {s : State} (e : EdgeMsg) (x : EdgeInput) (bad : List Nat) (h : s.sys.departed = false) : (s.committed e x bad).departsWell := by
  obtain ⟨c, hc⟩ := s.commitCounts_eq e
  refine State.departsWell_congr (State.takeCopy_status _ x) (State.commit_departs _ _ _ _ _ ?_)
  rw [hc]
  exact h

/-! #### The next tick -/

/-- The tick controller `k` in the tick that follows the committed tick `last`. -/
def TickSt.next (k : TickSt) (e : EdgeMsg) (now last : Nat) : TickSt := { k.begin e now with last := last, failed := 0, blamed := [] }

/-- The first state of the tick that follows a commit, before its work begins. -/
def State.advanced (s : State) (e : EdgeMsg) (now last : Nat) (lost : List W32) : State :=
  { s with
    tick := s.tick.next e now last
    crew := { s.crew with master := e.master }
    fore := { s.fore with held := lost } }

/-- A view in another tick under another master. -/
def View.onward (v : View) (k : TickSt) (master : Nat) : View := { v with tick := k, master := master }

theorem State.advanced_startTick_view (s : State) (e : EdgeMsg) (now last : Nat) (lost : List W32) :
    ∃ first, ((s.advanced e now last lost).startTick e.tickNum e.hold).view true =
      (s.view true).onward { s.tick.next e now last with firstArr := first } e.master := by
  rw [State.startTick_view]
  exact ⟨_, rfl⟩

theorem State.applyCommit_eq (s : State) (e : EdgeMsg) (now : Nat) (x : EdgeInput) (bad : List Nat) : s.applyCommit e now x bad =
    if (s.committed e x bad).sys.departed
    then { s.committed e x bad with tick := { crewTime := max (s.committed e x bad).tick.crewTime now, last := s.tick.num } }
    else ((s.committed e x bad).advanced e now s.tick.num x.lostSeqs).startTick e.tickNum e.hold := rfl

/-- A module that departs takes no further tick. -/
theorem State.applyCommit_departed {s : State} {e : EdgeMsg} {now : Nat} {x : EdgeInput} {bad : List Nat} (h : (s.committed e x bad).sys.departed = true) :
    s.applyCommit e now x bad = { s.committed e x bad with tick := { crewTime := max s.tick.crewTime now, last := s.tick.num } } := by
  rw [s.applyCommit_eq, if_pos h, (s.committed_tick e x bad).1]

/-- A module that stays goes on with the tick of the edge. -/
theorem State.applyCommit_stays {s : State} {e : EdgeMsg} {now : Nat} {x : EdgeInput} {bad : List Nat} (h : (s.committed e x bad).sys.departed = false) :
    (∃ first, (s.applyCommit e now x bad).view true = ((s.committed e x bad).view true).onward
        { { s.tick with cHist := (s.noteC e).tick.cHist }.next e now s.tick.num with firstArr := first } e.master) ∧
      (s.applyCommit e now x bad).status = (s.committed e x bad).status := by
  obtain ⟨first, hv⟩ := (s.committed e x bad).advanced_startTick_view e now s.tick.num x.lostSeqs
  rw [(s.committed_tick e x bad).1] at hv
  rw [s.applyCommit_eq, h, if_neg Bool.false_ne_true]
  exact ⟨⟨first, hv⟩, State.startTick_status _ _ _⟩

/-- The controller with which the tick after a commit starts. -/
theorem TickSt.next_eq (k : TickSt) (e : EdgeMsg) (now last first : Nat) (hist : List Nat) :
    { { k with cHist := hist }.next e now last with firstArr := first } =
      ({ crewTime := max k.crewTime now, num := e.tickNum, last := last, attempt := e.attempt, edgeAt := e.edgeTime, period := e.period
         nominal := e.edgeTime - e.lag, lag := e.lag, hold := e.hold, phase := .work, firstArr := first, margin := k.margin, cHist := hist } : TickSt) := rfl

/-- What a commit comes to: the tick is the last one, its counters stand latched, and the module has departed or takes the tick of the edge. -/
theorem State.applyCommit_done {s : State} {e : EdgeMsg} {now : Nat} {x : EdgeInput} {bad : List Nat} (h : s.sys.departed = false) :
    let t := s.applyCommit e now x bad
    t.tick.last = s.tick.num ∧ t.ctr.latched.map (·.tick) = some s.tick.num ∧
      (t.sys.departed = true → t.sys.state = .drain ∧ t.crew.member = false ∧ t.tick = { crewTime := max s.tick.crewTime now, last := s.tick.num }) ∧
      (t.sys.departed = false → t.crew.master = e.master ∧ t.crew.epoch = s.crew.epoch ∧
        t.tick = { crewTime := max s.tick.crewTime now, num := e.tickNum, last := s.tick.num, attempt := e.attempt, edgeAt := e.edgeTime, period := e.period, nominal := e.edgeTime - e.lag, lag := e.lag, hold := e.hold, phase := .work, firstArr := t.tick.firstArr, margin := s.tick.margin, cHist := (s.noteC e).tick.cHist }) := by
  have hlatched := s.committed_latched e x bad
  have hwell := s.committed_departs e x bad h
  intro t
  cases hdep : (s.committed e x bad).sys.departed
  · obtain ⟨⟨first, hv⟩, hst⟩ := State.applyCommit_stays (now := now) hdep
    obtain ⟨htick, hepoch, hmaster⟩ := State.of_view hv
    obtain ⟨-, -, -, -, -, hlat⟩ := State.basis_of_view (s := s.committed e x bad) hv rfl
    have hstay : t.sys.departed = false := State.departed_congr hst hdep
    rw [TickSt.next_eq, View.onward] at htick
    have hfirst : t.tick.firstArr = first := by rw [show t.tick = _ from htick]
    refine ⟨by rw [show t.tick = _ from htick], hlat ▸ hlatched, fun hgone => absurd hgone (by rw [hstay]; decide), fun _ => ⟨hmaster, ?_, ?_⟩⟩
    · exact hepoch.trans (s.committed_tick e x bad).2
    · rw [hfirst]
      exact htick
  · have hgone : t = _ := State.applyCommit_departed (now := now) hdep
    obtain ⟨hdrain, hmember⟩ := hwell hdep
    rw [hgone]
    exact ⟨rfl, hlatched, fun _ => ⟨hdrain, hmember, rfl⟩, fun hno => absurd hno (by rw [show _ = true from hdep]; decide)⟩

theorem State.departed_of_ticking {s : State} (h : s.ticking = true) : s.sys.departed = false := by
  simp only [State.ticking, Bool.and_eq_true, Bool.not_eq_true'] at h
  exact h.2

end Sys2Proof.Machine

open Sys2Proof.Machine

/-- Settles O29: the commit keeps the controller, the epoch and the board, latches its counters, and departs only from DRAIN; the next tick starts from the edge. -/
theorem commitEdge : Obligations.CommitEdge := by
  intro s now bad x e ht hp hd
  have hc := State.inCrew_of_ticking ht
  have hdue := fun htime => execTickEdge_due (now := now) (bad := bad) (x := x) hc hp htime
  have hwait : now.toNat < e.edgeTime → exec (.tickEdgeApply now bad x) s = .next s := fun hlt => by
    change execTickEdgeApply now bad x s = _
    rw [execTickEdgeApply, hp]
    exact if_pos hlt
  refine ⟨hwait, fun hphase => ?_, fun htime hphase hset => ?_, fun htime hphase hset hrec => ?_, fun htime hphase hset hrec => ?_⟩
  · rcases Nat.lt_or_ge now.toNat e.edgeTime with hlt | hle
    · exact hwait hlt
    · rw [hdue hle, if_neg (by omega), if_pos hphase]
  · refine ⟨_, ?_, s.messageSent_askMaster 2⟩
    rw [hdue htime, if_neg (by omega), if_neg (not_not.mpr hphase), if_neg (by omega), if_pos (by rw [hset]; rfl)]
  · rw [hdue htime, if_neg (by omega), if_neg (not_not.mpr hphase), if_neg (by omega), if_neg (by simpa using hset), if_pos hrec]
  · have hgo : exec (.tickEdgeApply now bad x) s = .next (s.applyCommit e now.toNat x bad) := by
      rw [hdue htime, if_neg (by omega), if_neg (not_not.mpr hphase), if_neg (by omega), if_neg (by simpa using hset), hrec, if_neg Bool.false_ne_true]
    have hb := s.applyCommit_board e now.toNat x bad
    refine ⟨_, hgo, congrArg Board.ident hb, State.nor_of_board hb, State.pwr_of_board hb, congrArg Board.smb hb, congrArg Board.jtag hb,
      State.applyCommit_done (State.departed_of_ticking ht)⟩

end

/-! ### What the work of a core touches -/

section

namespace Sys2Proof.Machine

/-- Core `k` turns to its contexts: only that core, its buffer and generators apart, and the stands' queues change. -/
structure State.Turns (k : Nat) (s t : State) : Prop where
  frame : t = { s with cores := t.cores, stands := t.stands }
  other : ∀ j, j ≠ k → t.core j = s.core j
  buf   : (t.core k).buf = (s.core k).buf

theorem State.Turns.refl (k : Nat) (s : State) : s.Turns k s := ⟨rfl, fun _ _ => rfl, rfl⟩

theorem State.Turns.trans {k : Nat} {s t u : State} (h1 : s.Turns k t) (h2 : t.Turns k u) : s.Turns k u where
  frame := by rw [h2.frame, h1.frame]
  other j hj := (h2.other j hj).trans (h1.other j hj)
  buf := h2.buf.trans h1.buf

/-- A core written with the buffer it had. -/
theorem State.turns_setCore (s : State) (k : Nat) (x : Core) (hb : x.buf = (s.core k).buf := by rfl) : s.Turns k (s.setCore k x) where
  frame := rfl
  other j hj := s.core_setCore_ne k j x hj
  buf := by rw [State.core_setCore, if_pos rfl, hb]

theorem State.turns_setCtx (s : State) (k n : Nat) (x : Ctx) : s.Turns k (s.setCtx k n x) := s.turns_setCore k _

theorem State.turns_setStand (s : State) (k n : Nat) (x : Stand) : s.Turns k (s.setStand n x) := ⟨rfl, fun _ _ => rfl, rfl⟩

theorem State.turns_askLoads (s : State) (k n : Nat) : s.Turns k (s.askLoads k n) := s.turns_setStand k _ _

theorem State.turns_dropAsks (s : State) (k : Nat) : s.Turns k (s.dropAsks k) := s.turns_setStand k _ _

theorem State.turns_promoteAsks (s : State) (k : Nat) : s.Turns k (s.promoteAsks k) := s.turns_setStand k _ _

theorem State.turns_resume (s : State) (k n : Nat) : s.Turns k (s.resume k n) := by
  unfold State.resume
  dsimp only
  split
  · exact ((State.turns_setCore _ _ _).trans (State.turns_setCtx _ _ _ _)).trans (State.turns_askLoads _ _ _)
  · exact .refl k s

theorem State.turns_nextCtx (s : State) (k : Nat) : s.Turns k (s.nextCtx k) := by
  unfold State.nextCtx
  dsimp only
  split
  · exact State.turns_setCore _ _ _
  · exact (State.turns_setCore _ _ _).trans (State.turns_resume _ _ _)

theorem State.turns_placeTask (s : State) (k n : Nat) : s.Turns k (s.placeTask k n) := by
  unfold State.placeTask
  dsimp only
  split
  · split
    · exact (State.turns_setCore _ _ _).trans (State.turns_setCtx _ _ _ _)
    · exact .refl k s
  · exact .refl k s

/-- Core `k` works: besides what its turning changes, flags of the attempt, cleared blazes and counters. -/
structure State.CoreWork (k : Nat) (s t : State) : Prop where
  frame : t = { s with cores := t.cores, stands := t.stands, fore := { s.fore with flags := t.fore.flags, cleared := t.fore.cleared }, ctr := t.ctr }
  other : ∀ j, j ≠ k → t.core j = s.core j
  buf   : (t.core k).buf = (s.core k).buf

theorem State.CoreWork.trans {k : Nat} {s t u : State} (h1 : s.CoreWork k t) (h2 : t.CoreWork k u) : s.CoreWork k u where
  frame := by rw [h2.frame, h1.frame]
  other j hj := (h2.other j hj).trans (h1.other j hj)
  buf := h2.buf.trans h1.buf

theorem State.Turns.work {k : Nat} {s t : State} (h : s.Turns k t) : s.CoreWork k t := ⟨by rw [h.frame], h.other, h.buf⟩

theorem State.flags.work {s t : State} (h : s.flags t) (k : Nat) : s.CoreWork k t := by
  obtain ⟨fl, c, rfl⟩ := h
  exact ⟨rfl, fun _ _ => rfl, rfl⟩

theorem State.coreWork_refl (k : Nat) (s : State) : s.CoreWork k s := (State.Turns.refl k s).work

theorem State.coreWork_count (s : State) (k dom cls index n : Nat) : s.CoreWork k (s.count dom cls index n) := (s.count_flags _ _ _ _).work k

theorem State.coreWork_ctxCount (s : State) (k core n ev e m : Nat) : s.CoreWork k (s.ctxCount core n ev e m) :=
  (s.coreWork_count k _ _ _ _).trans (State.coreWork_count _ k _ _ _ _)

theorem State.coreWork_addWork (s : State) (k n slots : Nat) : s.CoreWork k (s.addWork k n slots) :=
  ((s.turns_setCtx k n _).trans (State.turns_setCore _ _ _)).work

/-- A context that finishes. -/
theorem State.coreWork_finishCtx (s : State) (k n : Nat) : s.CoreWork k (s.finishCtx k n) := by
  have hclear (u : State) (task : Nat) : u.CoreWork k { u with fore := { u.fore with cleared := u.fore.cleared ++ [task] } } :=
    ⟨rfl, fun _ _ => rfl, rfl⟩
  unfold State.finishCtx
  extract_lets c s1 fo s2
  have h1 : s.CoreWork k s1 := (s.turns_setCtx k n _).work.trans (State.coreWork_ctxCount _ _ _ _ _ _ _)
  have h2 : s.CoreWork k s2 := by
    simp only [s2]
    split
    · exact h1
    · exact h1.trans (hclear _ _)
  exact h2.trans ((s2.turns_placeTask k n).trans (State.turns_nextCtx _ k)).work

theorem State.coreWork_tryCompute (s : State) (k : Nat) : s.CoreWork k (s.tryCompute k) := by
  unfold State.tryCompute
  dsimp only
  split
  · exact s.coreWork_refl k
  · split
    · exact s.coreWork_refl k
    · refine State.CoreWork.trans ?_ (State.turns_askLoads _ _ _).work
      refine State.CoreWork.trans ?_ (State.coreWork_ctxCount _ _ _ _ _ _ _)
      refine State.CoreWork.trans ?_ (State.coreWork_count _ _ _ _ _ _)
      refine State.CoreWork.trans ?_ (State.coreWork_addWork _ _ _ _)
      refine State.CoreWork.trans ?_ ((State.raiseAll_flags _ _ _ _).work k)
      exact (((State.turns_setCore _ _ _).trans (State.turns_setCtx _ _ _ _)).trans (State.turns_promoteAsks _ _)).work

theorem State.coreWork_compute (s : State) (k : Nat) : s.CoreWork k (s.compute k) := (s.coreWork_tryCompute k).trans (State.coreWork_tryCompute _ k)

/-- What follows the store of a tile: the next tile, the next group, or the end of the task. -/
theorem State.coreWork_afterTile (s : State) (k n : Nat) : s.CoreWork k (s.afterTile k n) := by
  unfold State.afterTile
  extract_lets c c' x half s1 s2
  split
  · exact (s.turns_setCtx k n _).work
  · have h2 : s.CoreWork k s2 := ((State.turns_setCore _ _ _).trans (State.turns_setCtx _ _ _ _)).work
    split
    · exact h2.trans (s2.coreWork_finishCtx k n)
    · exact h2.trans ((s2.turns_askLoads k n).work.trans (State.coreWork_compute _ k))

end Sys2Proof.Machine

end

/-! ### Contexts written, and contexts at their end -/

section

namespace Sys2Proof.Machine

theorem State.core_setCtx_self (s : State) (k n : Nat) (x : Ctx) : (s.setCtx k n x).core k = { s.core k with ctxs := Sparse.set {} (s.core k).ctxs n x } :=
  Sparse.get_set_self _ _ _ _

/-- A context written reads back. -/
theorem State.ctx_setCtx_self (s : State) (k n : Nat) (x : Ctx) : (s.setCtx k n x).ctx k n = x := by
  rw [State.ctx, State.core_setCtx_self, Sparse.get_set_self]

theorem State.ctx_setCtx_ne (s : State) (k n : Nat) (x : Ctx) {j m : Nat} (h : j ≠ k ∨ m ≠ n) : (s.setCtx k n x).ctx j m = s.ctx j m := by
  rw [State.ctx, State.setCtx, State.core_setCore]
  split
  · subst_vars
    exact Sparse.get_set_ne _ _ _ _ _ (h.resolve_left fun hj => hj rfl)
  · rfl

theorem State.todo_setCtx (s : State) (k n : Nat) (x : Ctx) (j : Nat) : ((s.setCtx k n x).core j).todo = (s.core j).todo := by
  rw [State.setCtx, State.core_setCore]
  split
  · subst_vars; rfl
  · rfl

/-- A core written that keeps its contexts keeps every context. -/
theorem State.ctx_setCore (s : State) (k : Nat) (x : Core) (j m : Nat) (hx : x.ctxs = (s.core k).ctxs := by rfl) : (s.setCore k x).ctx j m = s.ctx j m := by
  rw [State.ctx, State.core_setCore]
  split
  · subst_vars
    rw [hx]
    rfl
  · rfl

/-- Context `n` of core `k` is at its end, in state `st`, and no task is to be placed in it. -/
structure State.Ended (k n : Nat) (st : CtxState) (s : State) : Prop where
  st   : (s.ctx k n).st = st
  todo : (s.core k).todo.find? (fun x => x.2.ctx == n) = none

section

variable {k n : Nat} {st : CtxState} {s : State} (h : s.Ended k n st)
include h

theorem State.Ended.of_cores {t : State} (ht : t.cores = s.cores) : t.Ended k n st := by
  have hcore : t.core = s.core := by unfold State.core; rw [ht]
  exact ⟨by rw [State.ctx, hcore]; exact h.st, by rw [hcore]; exact h.todo⟩

theorem State.Ended.setCore (j : Nat) (x : Core) (hc : x.ctxs = (s.core j).ctxs := by rfl)
    (ht : x.todo.Sublist (s.core j).todo := by exact List.Sublist.refl _) : (s.setCore j x).Ended k n st := by
  refine ⟨(congrArg Ctx.st (s.ctx_setCore j x k n hc)).trans h.st, ?_⟩
  rw [State.core_setCore]
  split
  · subst_vars
    rw [List.find?_eq_none]
    exact fun y hy => List.find?_eq_none.mp h.todo y (ht.subset hy)
  · exact h.todo

/-- Another context is written, or this one with a value in the same state. -/
theorem State.Ended.setCtx (j m : Nat) (x : Ctx) (hx : j = k ∧ m = n → x.st = st) : (s.setCtx j m x).Ended k n st := by
  refine ⟨?_, (congrArg (List.find? _) (s.todo_setCtx j m x k)).trans h.todo⟩
  by_cases he : j = k ∧ m = n
  · obtain ⟨rfl, rfl⟩ := he
    rw [State.ctx_setCtx_self]
    exact hx ⟨rfl, rfl⟩
  · rw [State.ctx_setCtx_ne s j m x (by tauto)]
    exact h.st

theorem State.Ended.dropAsks (j : Nat) : (s.dropAsks j).Ended k n st := h.of_cores rfl

/-- What runs again was suspended. -/
theorem State.Ended.resume (hst : st ≠ .suspended) (j m : Nat) : (s.resume j m).Ended k n st := by
  unfold State.resume
  dsimp only
  split
  · rename_i hs
    refine State.Ended.of_cores (s := (s.setCore j _).setCtx j m _) ((h.setCore j _).setCtx j m _ fun ⟨hj, hm⟩ => ?_) rfl
    subst hj hm
    exact absurd (h.st.symm.trans hs) hst
  · exact h

theorem State.Ended.nextCtx (hst : st ≠ .suspended) (j : Nat) : (s.nextCtx j).Ended k n st := by
  unfold State.nextCtx
  dsimp only
  split
  · exact h.setCore j _
  · exact (h.setCore j _).resume hst j _

/-- A task is placed only in the context that its plan names. -/
theorem State.Ended.placeTask (j m : Nat) : (s.placeTask j m).Ended k n st := by
  unfold State.placeTask
  dsimp only
  split
  · rename_i x hx
    split
    · refine (h.setCore j _ (ht := List.erase_sublist)).setCtx j m _ fun ⟨hj, hm⟩ => ?_
      subst hj hm
      exact absurd (h.todo.symm.trans hx) (by simp)
    · exact h
  · exact h

end

/-- A context that finishes is done, unless a task is to be placed in it. -/
theorem State.finishCtx_done (s : State) (k n : Nat) (h : (s.core k).todo.find? (fun x => x.2.ctx == n) = none) : ((s.finishCtx k n).ctx k n).st = .done := by
  unfold State.finishCtx
  extract_lets c s1 fo s2
  have h1 : s1.Ended k n .done := by
    refine State.Ended.of_cores (s := s.setCtx k n { c with st := .done, haveA := false, haveB := false }) ⟨?_, ?_⟩ rfl
    · rw [State.ctx_setCtx_self]
    · rw [State.todo_setCtx]
      exact h
  have h2 : s2.Ended k n .done := by
    simp only [s2]
    split
    · exact h1
    · exact h1.of_cores rfl
  exact ((h2.placeTask k n).nextCtx (by decide) k).st

end Sys2Proof.Machine

end

/-! ### Tasks that fail -/

section

namespace Sys2Proof.Machine

/-- A die that differs at most in its streams and its weight window. -/
def Die.streamed (d e : Die) : Prop := e = { d with streams := e.streams, layers := e.layers }

theorem Die.streamed.trans {d e f : Die} (h1 : d.streamed e) (h2 : e.streamed f) : d.streamed f := by
  unfold Die.streamed at h1 h2 ⊢
  rw [h2, h1]

/-- Requests of a task that has failed end with the commit. -/
def State.ends (s : State) (rid : Nat) : Prop := ∀ r, r ∈ s.reqs → r.rid = rid → r.stage = .finishing

/-- Tasks fail between the two states: cores and stands turn, streams forget, requests end, blazes clear as failed. -/
structure State.Falls (s t : State) : Prop where
  frame : t = { s with cores := t.cores, dies := t.dies, stands := t.stands, ctr := t.ctr, reqs := t.reqs, fore := { s.fore with cleared := t.fore.cleared, failTasks := t.fore.failTasks } }
  cleared : s.fore.cleared ⊆ t.fore.cleared
  failTasks : s.fore.failTasks ⊆ t.fore.failTasks
  mems : s.memsOk → t.memsOk
  dies : s.memsOk → ∀ d, (s.die d).streamed (t.die d)
  reqs : ∀ rid, s.ends rid → t.ends rid

theorem State.Falls.refl (s : State) : s.Falls s := ⟨rfl, fun _ h => h, fun _ h => h, id, fun _ _ => rfl, fun _ h => h⟩

theorem State.Falls.trans {s t u : State} (h1 : s.Falls t) (h2 : t.Falls u) : s.Falls u where
  frame := by rw [h2.frame, h1.frame]
  cleared := List.Subset.trans h1.cleared h2.cleared
  failTasks := List.Subset.trans h1.failTasks h2.failTasks
  mems hm := h2.mems (h1.mems hm)
  dies hm d := (h1.dies hm d).trans (h2.dies (h1.mems hm) d)
  reqs rid h := h2.reqs rid (h1.reqs rid h)

/-- Turning a core lets nothing fall. -/
theorem State.Turns.falls {k : Nat} {s t : State} (h : s.Turns k t) (hm : s.memsOk → t.memsOk) : s.Falls t where
  frame := by rw [h.frame]
  cleared := by rw [h.frame]; exact fun _ h => h
  failTasks := by rw [h.frame]; exact fun _ h => h
  mems := hm
  dies _ d := by rw [h.frame]; rfl
  reqs rid hr := by rw [h.frame]; exact hr

theorem State.counts.falls {s t : State} (h : s.counts t) (hm : s.memsOk → t.memsOk) : s.Falls t := by
  obtain ⟨c, rfl⟩ := h
  exact ⟨rfl, fun _ h => h, fun _ h => h, hm, fun _ _ => rfl, fun _ h => h⟩

theorem Die.forget_empty (task : Nat) : ({} : Die).forget task = {} := rfl

/-- A die that forgets a task keeps everything but its streams and its weight window. -/
theorem Die.streamed_forget (d : Die) (task : Nat) : d.streamed (d.forget task) := rfl

theorem State.forget_eq (s : State) (task : Nat) : ∃ c, s.forget task = { s with dies := Sparse.mapVals {} (fun _ (d : Die) => d.forget task) s.dies, ctr := c } := by
  obtain ⟨c, hc⟩ := State.counts_foldl (fun (s : State) (d : Nat × Die) => d.2.streams.foldl (fun (s : State) e =>
    s.count d.1 3 (e.1 * 16 + 10) ((e.2.forget task).room - e.2.room)) s)
    (fun s d => State.counts_foldl _ (fun s e => s.counts_count _ _ _ _) _ s) s.dies { s with dies := Sparse.mapVals {} (fun _ (d : Die) => d.forget task) s.dies }
  exact ⟨c, hc⟩

theorem State.falls_forget (s : State) (task : Nat) : s.Falls (s.forget task) := by
  have hm := s.forget_memsOk task
  obtain ⟨c, hc⟩ := s.forget_eq task
  rw [hc] at hm ⊢
  refine ⟨rfl, fun _ h => h, fun _ h => h, hm, fun hs d => ?_, fun _ h => h⟩
  have hget : Sparse.get {} (Sparse.mapVals {} (fun _ (d : Die) => d.forget task) s.dies) d = (s.die d).forget task :=
    Sparse.get_mapVals _ _ _ _ (State.memsOk_dies hs) (Die.forget_empty task)
  exact (congrArg (s.die d).streamed hget).mpr ((s.die d).streamed_forget task)

/-- A request that faults ends; one that ends already stays as it is. -/
def Req.faulted (code : Nat) (r : Req) : Req := if r.stage = .finishing then r else r.fail code

theorem Req.faulted_stage (code : Nat) (r : Req) : (r.faulted code).stage = .finishing := by
  unfold Req.faulted
  split
  · assumption
  · rfl

theorem State.ends_updReq {s : State} {rid : Nat} (code other : Nat) (h : s.ends rid ∨ other = rid) : (s.updReq other (Req.faulted code)).ends rid := by
  intro r hr hid
  obtain ⟨x, hx, rfl⟩ := List.mem_map.mp hr
  split
  · exact Req.faulted_stage code x
  · rename_i hne
    rw [if_neg hne] at hid
    exact (h.resolve_right fun ho => hne (hid.trans ho.symm)) x hx hid

theorem State.falls_faultReq (s : State) (r : Option Nat) (code : Nat) : s.Falls (s.faultReq r code) := by
  cases r with
  | none => exact .refl s
  | some rid => exact ⟨rfl, fun _ h => h, fun _ h => h, id, fun _ _ => rfl, fun _ h => State.ends_updReq code rid (.inl h)⟩

/-- The blaze of a task clears as failed. -/
def State.clearFailed (s : State) (task code : Nat) : State :=
  { s with fore := { s.fore with cleared := s.fore.cleared ++ [task], failTasks := s.fore.failTasks ++ [(task, BitVec.ofNat 16 code)] } }

theorem State.falls_clearFailed (s : State) (task code : Nat) : s.Falls (s.clearFailed task code) :=
  ⟨rfl, List.subset_append_left _ _, List.subset_append_left _ _, id, fun _ _ => rfl, fun _ h => h⟩

/-- The state once a context has faulted, its task's blaze has cleared as failed, and its streams and its request know. -/
def State.strike (code : Nat) (s : State) (e : Nat × Nat) : State :=
  (((s.setCtx e.1 e.2 { s.ctx e.1 e.2 with st := .faulted }).clearFailed (s.ctx e.1 e.2).task code).forget (s.ctx e.1 e.2).task).faultReq (s.ctx e.1 e.2).req code

theorem State.falls_strike (code : Nat) (s : State) (e : Nat × Nat) : s.Falls (State.strike code s e) :=
  (((s.turns_setCtx e.1 e.2 _).falls (s.setCtx_memsOk e.1 e.2 _)).trans (State.falls_clearFailed _ _ code)).trans
    ((State.falls_forget _ _).trans (State.falls_faultReq _ _ code))

theorem State.strike_cores (code : Nat) (s : State) (e : Nat × Nat) :
    (State.strike code s e).cores = (s.setCtx e.1 e.2 { s.ctx e.1 e.2 with st := .faulted }).cores := by
  obtain ⟨c, hc⟩ := ((s.setCtx e.1 e.2 { s.ctx e.1 e.2 with st := .faulted }).clearFailed (s.ctx e.1 e.2).task code).forget_eq (s.ctx e.1 e.2).task
  rw [State.strike, hc]
  cases (s.ctx e.1 e.2).req <;> rfl

/-- A context struck is at its end, unless a task is to be placed in it. -/
theorem State.strike_ended (code : Nat) (s : State) (k n : Nat) (h : (s.core k).todo.find? (fun x => x.2.ctx == n) = none) :
    (State.strike code s (k, n)).Ended k n .faulted := by
  refine State.Ended.of_cores (s := s.setCtx k n { s.ctx k n with st := .faulted }) ⟨?_, ?_⟩ (State.strike_cores code s (k, n))
  · rw [State.ctx_setCtx_self]
  · rw [State.todo_setCtx]
    exact h

/-- A context struck has its task cleared as failed, and its request ends. -/
theorem State.strike_effect (code : Nat) (s : State) (e : Nat × Nat) : (s.ctx e.1 e.2).task ∈ (State.strike code s e).fore.cleared ∧
    ((s.ctx e.1 e.2).task, BitVec.ofNat 16 code) ∈ (State.strike code s e).fore.failTasks ∧ ∀ rid, (s.ctx e.1 e.2).req = some rid → (State.strike code s e).ends rid := by
  have hlast {α : Type} (l : List α) (x : α) : x ∈ l ++ [x] := List.mem_append_right _ (List.mem_singleton.mpr rfl)
  have h := (State.falls_forget ((s.setCtx e.1 e.2 { s.ctx e.1 e.2 with st := .faulted }).clearFailed (s.ctx e.1 e.2).task code) (s.ctx e.1 e.2).task).trans
    (State.falls_faultReq _ (s.ctx e.1 e.2).req code)
  refine ⟨h.cleared (hlast _ _), h.failTasks (hlast _ _), fun rid hr => ?_⟩
  rw [State.strike, hr]
  exact State.ends_updReq code rid (.inr rfl)

theorem State.failOne_eq (code : Nat) (s : State) (e : Nat × Nat) : s.failOne code e =
    let u := (State.strike code s e).placeTask e.1 e.2
    if (u.core e.1).running = some e.2 then (u.dropAsks e.1).nextCtx e.1 else u := rfl

/-- A core that has lost a context to a failure turns to what it has left. -/
theorem State.strike_falls_failOne (code : Nat) (s : State) (e : Nat × Nat) : (State.strike code s e).Falls (s.failOne code e) := by
  have hplace (u : State) : u.Falls (u.placeTask e.1 e.2) := (u.turns_placeTask e.1 e.2).falls (u.placeTask_memsOk e.1 e.2)
  have hdrop (u : State) : u.Falls (u.dropAsks e.1) := (u.turns_dropAsks e.1).falls (u.dropAsks_memsOk e.1)
  have hnext (u : State) : u.Falls (u.nextCtx e.1) := (u.turns_nextCtx e.1).falls (u.nextCtx_memsOk e.1)
  rw [State.failOne_eq]
  dsimp only
  split
  · exact (hplace _).trans ((hdrop _).trans (hnext _))
  · exact hplace _

theorem State.falls_failOne (code : Nat) (s : State) (e : Nat × Nat) : s.Falls (s.failOne code e) :=
  (State.falls_strike code s e).trans (State.strike_falls_failOne code s e)

/-- What each failure of a context keeps, the wave of failures keeps. -/
theorem State.failWave_keeps {P : State → Prop} {code : Nat} (hP : ∀ s e, P s → P (State.failOne code s e)) (fuel : Nat) (tasks : List Nat) {s : State} (h : P s) :
    P (State.failWave code fuel tasks s) := by
  induction fuel generalizing tasks s with
  | zero => exact h
  | succ fuel ih =>
    unfold State.failWave
    split
    · exact h
    · exact ih _ (List.foldlRecOn _ _ h fun u hu e _ => hP u e hu)

/-- A context that has faulted stays so while its core turns to what it has left. -/
theorem State.Ended.failOne_of_strike {k n code : Nat} {s : State} {e : Nat × Nat} (h : (State.strike code s e).Ended k n .faulted) : (s.failOne code e).Ended k n .faulted := by
  rw [State.failOne_eq]
  dsimp only
  split
  · exact ((h.placeTask e.1 e.2).dropAsks e.1).nextCtx (by decide) e.1
  · exact h.placeTask e.1 e.2

/-- A context that has faulted stays so while others fall. -/
theorem State.Ended.failOne {k n : Nat} {s : State} (h : s.Ended k n .faulted) (code : Nat) (e : Nat × Nat) : (s.failOne code e).Ended k n .faulted := by
  exact State.Ended.failOne_of_strike (State.Ended.of_cores (h.setCtx e.1 e.2 _ fun _ => rfl) (State.strike_cores code s e))

/-- What the failure of a context's task comes to once the wave of failures behind it has run. -/
theorem State.failWave_effect (s : State) (k n code fuel : Nat) (tasks : List Nat) :
    let t := State.failWave code fuel tasks (s.failOne code (k, n))
    s.Falls t ∧ (s.ctx k n).task ∈ t.fore.cleared ∧ ((s.ctx k n).task, BitVec.ofNat 16 code) ∈ t.fore.failTasks ∧
      (∀ rid, (s.ctx k n).req = some rid → t.ends rid) ∧ ((s.core k).todo.find? (fun x => x.2.ctx == n) = none → (t.ctx k n).st = .faulted) := by
  intro t
  obtain ⟨hcleared, hfail, hreq⟩ := State.strike_effect code s (k, n)
  have hafter : (State.strike code s (k, n)).Falls t :=
    State.failWave_keeps (fun u e hu => hu.trans (State.falls_failOne code u e)) fuel tasks (State.strike_falls_failOne code s (k, n))
  refine ⟨(State.falls_strike code s (k, n)).trans hafter, hafter.cleared hcleared, hafter.failTasks hfail, fun rid hr => hafter.reqs rid (hreq rid hr), fun htodo => ?_⟩
  exact (State.failWave_keeps (fun u e (hu : u.Ended k n .faulted) => hu.failOne code e) fuel tasks
    (State.Ended.failOne_of_strike (State.strike_ended code s k n htodo))).st

end Sys2Proof.Machine

end

/-! ### TASK_ISSUE and CONTEXT_SWITCH -/

section

namespace Sys2Proof.Machine

theorem State.issueSet_plain {s : State} {k n : Nat} (h : dKind (s.ctx k n).desc ≠ 1) : s.issueSet k n = [(k, n)] := by
  rw [State.issueSet]
  exact if_neg h

/-- What the issue of a plain task comes to: its context fails with the code of the check that it does not pass, or goes on. -/
def State.issued (s : State) (k n : Nat) : State :=
  match s.checkCtx k n with
  | some code => (s.countFault k n code).failSet [(k, n)] code
  | none => s.passCtx k n

theorem exec_taskIssue_plain {s : State} {die core n : Nat} (hc : s.hasCore die core = true) (hw : s.working = true)
    (hr : (s.core (coreNo die core)).running = some n) (hst : (s.ctx (coreNo die core) n).st = .loaded)
    (hf : (s.core (coreNo die core)).hasFns (s.ctx (coreNo die core) n).fns = true) (hb : s.bankCurrent (coreNo die core) = true)
    (hbl : s.blazed (s.ctx (coreNo die core) n) (memWords (s.ctx (coreNo die core) n).desc) = false) (hp : s.producerFault (s.ctx (coreNo die core) n) = none)
    (hk : dKind (s.ctx (coreNo die core) n).desc ≠ 1) : exec (.taskIssue die core n) s = .next (s.issued (coreNo die core) n) := by
  have hwhole : s.issueWhole (coreNo die core) n = true := by rw [State.issueWhole, decide_eq_true hk]; rfl
  change execTaskIssue die core n s = _
  rw [execTaskIssue, State.onCore_pos hc]
  dsimp only
  rw [when_pos (by simp [hw, hr, hst, hf, hb, hbl, hwhole]), hp, State.issueSet_plain hk, State.issued]
  cases hcheck : s.checkCtx (coreNo die core) n with
  | some code => simp [hcheck]
  | none => simp [hcheck, hk]

/-- A context as it starts from its first tile. -/
def State.startedCtx (s : State) (k n : Nat) : Ctx :=
  let c := (s.ctx k n).readBounds (s.die (k / 128)).stage
  { c with st := .running, idx := c.bounds.map fun _ => 0, prob := 0, haveA := false, haveB := false, nextA := false, nextB := false
           halfA := false, halfB := false, ended := false, half := 0, groups := [], drained := 0, staged := false, stagHalf := false
           rcpOut := BitVec.ofNat 32 (div32 s.ovf one32 (tSOut c.treg)).1, live := c.liveTiles, haloGot := false, haloGave := false }

/-- A context that starts, before it asks for its loads: a vector pass has none to ask for, a matrix task begins with empty accumulators. -/
theorem State.startCtx_eq (s : State) (k n : Nat) : ∃ fl c, s.startCtx k n =
    if (s.ctx k n).desc = [] then (s.setCtx k n (s.startedCtx k n)).withFlags s.fore.flags c
    else (((s.setCtx k n (s.startedCtx k n)).withFlags fl c).setCore k { (s.setCtx k n (s.startedCtx k n)).core k with acc := [] }).askLoads k n := by
  by_cases hd : (s.ctx k n).desc = []
  · refine ⟨s.fore.flags, ((s.setCtx k n (s.startedCtx k n)).ctxCount k n 27 0).ctr, ?_⟩
    rw [if_pos hd]
    exact if_pos hd
  · obtain ⟨fl, c, h⟩ := State.raiseAll_flags ((s.setCtx k n (s.startedCtx k n)).ctxCount k n 27 0) k (s.ctx k n).req
      ([(div32 s.ovf one32 (tSOut (s.ctx k n).treg)).2].filter fun f => f.bits != 0)
    refine ⟨fl, c, ?_⟩
    rw [if_neg hd]
    refine (if_neg hd).trans ?_
    exact congrArg (fun u : State => (u.setCore k _).askLoads k n) h

/-- The loads that a context wants at its start, A before B. -/
theorem Ctx.asks_started {c : Ctx} (he : c.ended = false) (ha : c.haveA = false) (hb : c.haveB = false) : c.asks = [(true, false), (false, false)] := by
  simp [Ctx.asks, Ctx.wants, he, ha, hb]

/-- Requests for loads queue behind those that stand at the port. -/
theorem State.askLoads_stand (s : State) (k n : Nat) : (s.askLoads k n).stand (k / 8) = { s.stand (k / 8) with
    queue := (s.stand (k / 8)).queue ++ (((s.ctx k n).asks.map fun a => (⟨k, n, (s.ctx k n).task, a.1, decide (dKind (s.ctx k n).desc = 1), a.2⟩ : PortReq)).filter
      fun r => !((s.stand (k / 8)).queue.contains r) && (s.stand (k / 8)).granted != some r) } :=
  Sparse.get_set_self _ _ _ _

/-- The requests of a plain task that starts, after those that stand at its port. -/
def State.startAsks (s : State) (k n : Nat) : List PortReq :=
  if (s.ctx k n).desc = [] then []
  else ([⟨k, n, (s.ctx k n).task, true, false, false⟩, ⟨k, n, (s.ctx k n).task, false, false, false⟩] : List PortReq).filter fun r =>
    !((s.stand (k / 8)).queue.contains r) && (s.stand (k / 8)).granted != some r

/-- A context that starts: only its core, its stand's queue, flags and counters change. -/
theorem State.startCtx_effect {s : State} {k n : Nat} (hk : dKind (s.ctx k n).desc ≠ 1) :
    let t := s.startCtx k n
    t = { s with cores := t.cores, stands := t.stands, fore := { s.fore with flags := t.fore.flags }, ctr := t.ctr } ∧
      t.ctx k n = s.startedCtx k n ∧ (∀ m, m ≠ n → t.ctx k m = s.ctx k m) ∧ (∀ j, j ≠ k → t.core j = s.core j) ∧
      t.stand (k / 8) = { s.stand (k / 8) with queue := (s.stand (k / 8)).queue ++ s.startAsks k n } := by
  intro t
  have hself := s.ctx_setCtx_self k n (s.startedCtx k n)
  have hne (m : Nat) (hm : m ≠ n) := s.ctx_setCtx_ne k n (s.startedCtx k n) (j := k) (m := m) (.inr hm)
  obtain ⟨fl, c, ht⟩ := s.startCtx_eq k n
  by_cases hd : (s.ctx k n).desc = []
  · have ht' : t = _ := ht.trans (if_pos hd)
    rw [ht', State.startAsks, if_pos hd, List.append_nil]
    exact ⟨rfl, hself, hne, fun j hj => s.core_setCore_ne k j _ hj, rfl⟩
  · generalize hu : ((s.setCtx k n (s.startedCtx k n)).withFlags fl c).setCore k { (s.setCtx k n (s.startedCtx k n)).core k with acc := [] } = u at ht
    have ht' : t = u.askLoads k n := ht.trans (if_neg hd)
    have hctx (m : Nat) : u.ctx k m = (s.setCtx k n (s.startedCtx k n)).ctx k m := by
      rw [← hu]
      exact State.ctx_setCore ((s.setCtx k n (s.startedCtx k n)).withFlags fl c) k _ k m
    have hstand : u.stand = s.stand := by rw [← hu]; rfl
    have hn : u.ctx k n = s.startedCtx k n := (hctx n).trans hself
    have hasks : (u.ctx k n).asks = [(true, false), (false, false)] := by rw [hn]; exact Ctx.asks_started rfl rfl rfl
    have hkind : decide (dKind (u.ctx k n).desc = 1) = false := by rw [hn]; exact decide_eq_false hk
    refine ⟨by rw [ht', ← hu]; rfl, by rw [ht']; exact hn, fun m hm => by rw [ht']; exact (hctx m).trans (hne m hm), fun j hj => ?_, ?_⟩
    · rw [ht', ← hu]
      exact (State.core_setCore_ne _ k j _ hj).trans (s.core_setCore_ne k j _ hj)
    · rw [ht', State.askLoads_stand, hasks, hkind, hstand, hn, State.startAsks, if_neg hd]
      rfl

/-- An issue that passed its checks and is not empty starts its context. -/
theorem State.issued_passed {s : State} {k n : Nat} (h : s.checkCtx k n = none)
    (he : (s.ctx k n).desc = [] ∨ ((s.ctx k n).readBounds (s.die (k / 128)).stage).emptyIssue = false) : s.issued k n = s.startCtx k n := by
  rw [State.issued, h]
  refine if_neg fun hc => ?_
  rcases he with hd | he
  · exact hc.1 hd
  · exact Bool.false_ne_true (he.symm.trans hc.2)

/-- Counting an issue fault changes counters alone. -/
theorem State.counts_countFault (s : State) (k n code : Nat) : s.counts (s.countFault k n code) :=
  (s.counts_count _ _ _ _).trans (State.counts_count _ _ _ _ _)

/-- What a state whose context has failed, counters apart, has of another. -/
def State.failed (s t : State) (k n code : Nat) : Prop :=
  t = { s with cores := t.cores, dies := t.dies, stands := t.stands, ctr := t.ctr, reqs := t.reqs, fore := { s.fore with cleared := t.fore.cleared, failTasks := t.fore.failTasks } } ∧
    (s.ctx k n).task ∈ t.fore.cleared ∧ ((s.ctx k n).task, BitVec.ofNat 16 code) ∈ t.fore.failTasks ∧
    (s.memsOk → ∀ d, t.die d = { s.die d with streams := (t.die d).streams, layers := (t.die d).layers }) ∧
    (∀ rid r, (s.ctx k n).req = some rid → r ∈ t.reqs → r.rid = rid → r.stage = .finishing) ∧
    ((s.core k).todo.find? (fun x => x.2.ctx == n) = none → (t.ctx k n).st = .faulted)

/-- A fault counted and carried through the wave of failures behind it. -/
theorem State.failed_countFault (s : State) (k n code fuel : Nat) (tasks : List Nat) :
    s.failed (State.failWave code fuel tasks ((s.countFault k n code).failOne code (k, n))) k n code := by
  have hmems := s.countFault_memsOk k n code
  obtain ⟨c, hc⟩ := s.counts_countFault k n code
  rw [hc] at hmems ⊢
  obtain ⟨hfalls, hcleared, hfail, hreq, hst⟩ := (s.withCtr c).failWave_effect k n code fuel tasks
  exact ⟨hfalls.frame, hcleared, hfail, fun hm => hfalls.dies (hmems hm), fun rid r hr => hreq rid hr r, hst⟩

theorem State.issued_failed {s : State} {k n code : Nat} (h : s.checkCtx k n = some code) : s.failed (s.issued k n) k n code := by
  rw [State.issued, h]
  exact s.failed_countFault k n code _ _

theorem tasksIssue : TasksIssue := by
  intro s die core n hc hw hr k c q hst hf hb hbl hp hk
  have hexec := exec_taskIssue_plain hc hw hr hst hf hb hbl hp hk
  refine ⟨fun hcheck hne => ⟨_, hexec, ?_⟩, fun code hcheck => ⟨_, hexec, State.issued_failed hcheck⟩⟩
  obtain ⟨hframe, hctx, hctxs, hcores, hstand⟩ := State.startCtx_effect hk
  rw [State.issued_passed hcheck hne, hctx]
  refine ⟨hframe, rfl, rfl, rfl, rfl, rfl, fun i hi => ?_, rfl, hctxs, hcores, hstand⟩
  obtain ⟨b, -, rfl⟩ := List.mem_map.mp hi
  rfl

/-! #### CONTEXT_SWITCH -/

/-- The core with its running context left, and another running, before that one asks for its loads. -/
def State.switched (s : State) (k n m : Nat) : State :=
  let s := ((((s.dropAsks k).setCtx k n (s.ctx k n).suspend).ctxOnly k n 10).ctxOnly k m 9)
  s.setCore k { s.core k with running := some m, acc := [] }

theorem exec_contextSwitch {s : State} {die core n m : Nat} (hc : s.hasCore die core = true) (hr : (s.core (coreNo die core)).running = some n)
    (hm : s.readyCtx (coreNo die core) n = some m) : exec (.contextSwitch die core) s =
      when (s.working && (s.ctx (coreNo die core) n).atBoundary && !(s.ctx (coreNo die core) n).haloGot &&
        s.loadsWait die (core % 8) ((s.ctx (coreNo die core) n).opened (s.die die).stage) &&
          !((s.stand (coreNo die core / 8)).granted.any fun r => r.core == coreNo die core)) s
        ((s.switched (coreNo die core) n m).resume (coreNo die core) m) := by
  change execContextSwitch die core s = _
  rw [execContextSwitch, State.onCore_pos hc]
  simp only [State.runningCtx, hr, Option.map_some, Option.getD_some, hm]
  rfl

/-- A context that holds rows of its neighbour is not left. -/
theorem exec_contextSwitch_halo {s : State} {die core n : Nat} (hc : s.hasCore die core = true) (hr : (s.core (coreNo die core)).running = some n)
    (hh : (s.ctx (coreNo die core) n).haloGot = true) : exec (.contextSwitch die core) s = .next s := by
  cases hm : s.readyCtx (coreNo die core) n with
  | some m => rw [exec_contextSwitch hc hr hm, hh, when_neg (by simp)]
  | none =>
    change execContextSwitch die core s = _
    rw [execContextSwitch, State.onCore_pos hc]
    simp only [State.runningCtx, hr, Option.map_some, Option.getD_some, hm]

/-- A context that resumes runs; its core keeps what runs, its buffer and the other contexts, and its accumulators stay empty. -/
theorem State.resume_effect {s : State} {k m : Nat} (ha : (s.core k).acc = []) :
    ((s.resume k m).core k).running = (s.core k).running ∧ ((s.resume k m).core k).acc = [] ∧
      (∀ n, n ≠ m → (s.resume k m).ctx k n = s.ctx k n) ∧
      (s.resume k m).ctx k m = { s.ctx k m with st := if (s.ctx k m).st = .suspended then .running else (s.ctx k m).st } ∧
      s.resume k m = { s with cores := (s.resume k m).cores, stands := (s.resume k m).stands } := by
  by_cases hs : (s.ctx k m).st = .suspended
  · have hr : s.resume k m = ((s.setCore k { s.core k with acc := [] }).setCtx k m { s.ctx k m with st := .running }).askLoads k m := if_pos hs
    generalize hu : s.setCore k { s.core k with acc := [] } = u at hr
    have hcore : u.core k = { s.core k with acc := [] } := by rw [← hu, State.core_setCore, if_pos rfl]
    have hctx (n : Nat) : u.ctx k n = s.ctx k n := by rw [← hu]; exact s.ctx_setCore k _ k n
    rw [if_pos hs]
    refine ⟨?_, ?_, fun n hn => ?_, by rw [hr]; exact u.ctx_setCtx_self k m _, (s.turns_resume k m).frame⟩
    · rw [hr]
      change ((u.setCtx k m _).core k).running = _
      rw [State.core_setCtx_self, hcore]
    · rw [hr]
      change ((u.setCtx k m _).core k).acc = _
      rw [State.core_setCtx_self, hcore]
    · rw [hr]
      exact (u.ctx_setCtx_ne k m _ (.inr hn)).trans (hctx n)
  · have hr : s.resume k m = s := if_neg hs
    rw [hr, if_neg hs]
    exact ⟨rfl, ha, fun _ _ => rfl, rfl, rfl⟩

theorem State.switched_effect {s : State} {k n m : Nat} (hmn : m ≠ n) :
    ((s.switched k n m).core k).running = some m ∧ ((s.switched k n m).core k).acc = [] ∧ ((s.switched k n m).core k).buf = (s.core k).buf ∧
      (∀ j, j ≠ k → (s.switched k n m).core j = s.core j) ∧ (s.switched k n m).ctx k n = (s.ctx k n).suspend ∧ (s.switched k n m).ctx k m = s.ctx k m ∧
      s.switched k n m = { s with cores := (s.switched k n m).cores, stands := (s.switched k n m).stands, ctr := (s.switched k n m).ctr } := by
  have hleft := State.ctx_setCtx_self (s.dropAsks k) k n (s.ctx k n).suspend
  have hkept := State.ctx_setCtx_ne (s.dropAsks k) k n (s.ctx k n).suspend (j := k) (.inr hmn)
  rw [State.switched]
  have hturns := (s.turns_dropAsks k).trans (State.turns_setCtx (s.dropAsks k) k n (s.ctx k n).suspend)
  generalize (s.dropAsks k).setCtx k n (s.ctx k n).suspend = v at hleft hkept hturns ⊢
  obtain ⟨c, hc⟩ := (v.counts_count (k / 128) 1 (k % 128 * 128 + 32 + 16 * n + 10) 1).trans (State.counts_count _ (k / 128) 1 (k % 128 * 128 + 32 + 16 * m + 9) 1)
  rw [State.ctxOnly, State.ctxOnly, hc]
  have hset := (v.withCtr c).core_setCore k k { (v.withCtr c).core k with running := some m, acc := [] }
  rw [if_pos rfl] at hset
  refine ⟨by rw [hset], by rw [hset], by rw [hset]; exact hturns.buf, fun j hj => ?_, ?_, ?_, ?_⟩
  · exact (State.core_setCore_ne _ k j _ hj).trans (hturns.other j hj)
  · exact (State.ctx_setCore _ k _ k n).trans hleft
  · exact (State.ctx_setCore _ k _ k m).trans hkept
  · rw [hturns.frame]
    rfl

theorem contextSwitches : ContextSwitches := by
  intro s die core n m hc hw hr k c
  refine ⟨exec_contextSwitch_halo hc hr, fun hm hmn hb hh hl hg => ?_⟩
  have hexec := exec_contextSwitch hc hr hm
  rw [when_pos (by simp only [hw, hb, hh, hl, hg, k, c]; rfl)] at hexec
  obtain ⟨hrun, hacc, hbuf, hcores, hleft, hkept, hframe⟩ := State.switched_effect (s := s) (k := k) hmn
  obtain ⟨hrun', hacc', hctxs, hctx, hframe'⟩ := State.resume_effect (m := m) hacc
  have hturns := (s.switched k n m).turns_resume k m
  refine ⟨_, hexec, ?_, hrun'.trans hrun, hacc', hturns.buf.trans hbuf, fun j hj => (hturns.other j hj).trans (hcores j hj), ?_, ?_⟩
  · rw [hframe', hframe]
  · exact (hctxs n hmn.symm).trans hleft
  · rw [hctx, hkept]

/-- Settles O37: by its checks a plain task's issue starts its context or fails its task with all that reads behind it, and a switch goes to the context that is ready.
That A is asked for before B is the model's choice (log 17). -/
theorem contextRuns : Obligations.ContextRuns := ⟨tasksIssue, contextSwitches⟩

end Sys2Proof.Machine

end

/-! ### Output tiles -/

section

namespace Sys2Proof.Machine

/-! #### The bytes of a converted row -/

/-- Consecutive runs of at most `n` elements, appended one after another, with a state carried on. -/
theorem length_foldl_runs {α β δ : Type} (f : δ → α → List β) (e : δ → α → List β) (g : δ → α → δ) (n m : Nat) (hf : ∀ d x, (f d x).length ≤ n)
    (he : ∀ d x, (e d x).length ≤ m) (l : List α) (a : List β × List β × δ) :
    let r := l.foldl (fun (a : List β × List β × δ) x => (a.1 ++ f a.2.2 x, a.2.1 ++ e a.2.2 x, g a.2.2 x)) a
    r.1.length ≤ a.1.length + l.length * n ∧ r.2.1.length ≤ a.2.1.length + l.length * m := by
  induction l generalizing a with
  | nil => simp
  | cons x l ih =>
    obtain ⟨h1, h2⟩ := ih (a.1 ++ f a.2.2 x, a.2.1 ++ e a.2.2 x, g a.2.2 x)
    have hf := hf a.2.2 x
    have he := he a.2.2 x
    simp only [List.foldl_cons, List.length_append, List.length_cons, Nat.add_mul, Nat.one_mul] at h1 h2 ⊢
    omega

/-- Element `j` of block `b` of a row, chained. -/
def State.chainElem (s : State) (core : Nat) (c : Ctx) (x : OutSite) (chain : List ChainStep) (rowOff : Int) (n b : Nat) (vs : List Nat) (g : Drain) (j : Nat) : Nat × Drain :=
  let col := b * n + j
  let rc := outRowCol x.pitch (fmtBits x.fmt) (rowOff.toNat * 8 + col * fmtBits x.fmt)
  s.runChain core (col % 64) rc.1 rc.2 c.treg chain (vs[col]?.getD 0) g

/-- The elements of one block of a row, chained. -/
def State.chainBlock (s : State) (core : Nat) (c : Ctx) (x : OutSite) (chain : List ChainStep) (rowOff : Int) (n b : Nat) (vs : List Nat) (g : Drain) : List Nat × Drain :=
  (List.range n).foldl (fun (q : List Nat × Drain) j =>
    let e := s.chainElem core c x chain rowOff n b vs q.2 j
    (q.1 ++ [e.1], e.2)) ([], g)

theorem State.length_chainBlock (s : State) (core : Nat) (c : Ctx) (x : OutSite) (chain : List ChainStep) (rowOff : Int) (n b : Nat) (vs : List Nat) (g : Drain) :
    (s.chainBlock core c x chain rowOff n b vs g).1.length = n :=
  (length_foldl_append (fun g j => (s.chainElem core c x chain rowOff n b vs g j).1) (fun g j => (s.chainElem core c x chain rowOff n b vs g j).2) _ _).trans
    (by simp)

/-- The elements of one block of a row, chained and converted. -/
def State.outBlock (s : State) (core : Nat) (c : Ctx) (x : OutSite) (chain : List ChainStep) (rowOff : Int) (n : Nat) (vs : List Nat) (g : Drain) (b : Nat) :
    List Nat × Nat × Drain :=
  let ch := s.chainBlock core c x chain rowOff n b vs g
  s.convertRun core x.fmt (decide (blkLen x.blk ≠ 0)) (s.rnd == 2) c.rcpOut.toNat (colLane (b * n)) ch.1 ch.2

/-- Elements of a block of the output: one element where the output has no blocks. -/
def OutSite.blockLen (x : OutSite) : Nat := if blkLen x.blk = 0 then 1 else blkLen x.blk

theorem State.drainRow_eq (s : State) (core : Nat) (c : Ctx) (x : OutSite) (chain : List ChainStep) (off : Int) (i : Nat) (vs : List Nat) (g : Drain) :
    s.drainRow core c x chain off i vs g = (List.range (x.cols / x.blockLen)).foldl (fun (a : List Nat × List Nat × Drain) b =>
      let y := s.outBlock core c x chain (off + (i * x.pitch : Nat)) x.blockLen vs a.2.2 b
      (a.1 ++ y.1, a.2.1 ++ (if blkLen x.blk = 0 then [] else [y.2.1]), y.2.2)) ([], [], g) := by
  unfold State.drainRow State.outBlock State.chainBlock State.chainElem OutSite.blockLen
  by_cases hb : blkLen x.blk = 0
  · simp only [if_pos hb, List.append_nil]
  · simp only [if_neg hb]

/-- A converted row has at most its columns and, where it is blocked, an exponent for each block. -/
theorem State.length_drainRow (s : State) (core : Nat) (c : Ctx) (x : OutSite) (chain : List ChainStep) (off : Int) (i : Nat) (vs : List Nat) (g : Drain) :
    (s.drainRow core c x chain off i vs g).1.length ≤ x.cols ∧
      (s.drainRow core c x chain off i vs g).2.1.length ≤ (if blkLen x.blk = 0 then 0 else x.cols / x.blockLen) := by
  have hrun (g : Drain) (b : Nat) : (s.outBlock core c x chain (off + (i * x.pitch : Nat)) x.blockLen vs g b).1.length ≤ x.blockLen :=
    (length_convertRun _ _ _ _ _ _ _ _ _).trans (s.length_chainBlock ..).le
  have hexp (g : Drain) (b : Nat) : (if blkLen x.blk = 0 then ([] : List Nat) else
      [(s.outBlock core c x chain (off + (i * x.pitch : Nat)) x.blockLen vs g b).2.1]).length ≤ (if blkLen x.blk = 0 then 0 else 1) := by
    split <;> simp
  obtain ⟨h1, h2⟩ := length_foldl_runs (fun g b => (s.outBlock core c x chain (off + (i * x.pitch : Nat)) x.blockLen vs g b).1) _
    (fun g b => (s.outBlock core c x chain (off + (i * x.pitch : Nat)) x.blockLen vs g b).2.2) _ _ hrun hexp (List.range (x.cols / x.blockLen)) ([], [], g)
  rw [State.drainRow_eq]
  refine ⟨h1.trans ?_, h2.trans ?_⟩
  · rw [List.length_nil, Nat.zero_add, List.length_range]
    exact Nat.div_mul_le_self _ _
  · rw [List.length_nil, Nat.zero_add, List.length_range]
    split <;> simp

/-- A byte that a row of an output writes: an element of the row, or one of its block exponents. -/
def OutSite.rowByte (x : OutSite) (rowOff : Int) (a : Nat) : Prop :=
  let bb := blkLen x.blk * fmtBits x.fmt / 8
  ((x.base + rowOff).toNat ≤ a ∧ a < (x.base + rowOff).toNat + elemBytes x.fmt x.cols) ∨
    (bb ≠ 0 ∧ ∃ b, b < x.cols / x.blockLen ∧ a = (x.exps + (rowOff + (b * bb : Nat)) / bb).toNat)

theorem blockBytes_ne_zero {blk fmt : Nat} (h : blkLen blk ≠ 0) : blkLen blk * fmtBits fmt / 8 ≠ 0 := by
  have hlen : 16 ≤ blkLen blk := by
    unfold blkLen blkOf at h ⊢
    split at h
    · exact absurd rfl h
    · exact Nat.le_refl 16
    · simp
    · exact absurd rfl h
  have hbits : 4 ≤ fmtBits fmt := by
    unfold fmtBits
    split_ifs <;> decide
  have := Nat.mul_le_mul hlen hbits
  omega

/-- A row written leaves every other byte. -/
theorem OutSite.read_writeRow (x : OutSite) (m : Mem) (rowOff : Int) (codes exps : List Nat) (hc : codes.length ≤ x.cols)
    (he : exps.length ≤ (if blkLen x.blk = 0 then 0 else x.cols / x.blockLen)) (a : Nat) (ha : ¬x.rowByte rowOff a) :
    Mem.read (x.writeRow m rowOff codes exps) a = Mem.read m a := by
  unfold OutSite.rowByte at ha
  have helems : Mem.read (Mem.write m (x.base + rowOff).toNat (packCodes x.fmt codes)) a = Mem.read m a := by
    refine Mem.read_write_out _ _ _ _ ?_
    have := elemBytes_mono x.fmt hc
    rw [length_packCodes]
    omega
  refine List.foldlRecOn (motive := fun st => Mem.read st a = Mem.read m a) _ _ helems fun st hst p hp => ?_
  have hb : p.1 < exps.length := List.mem_range.mp (List.of_mem_zip hp).1
  have hblk : blkLen x.blk ≠ 0 := fun h0 => by rw [if_pos h0] at he; omega
  rw [if_neg hblk] at he
  refine (Mem.read_write_out _ _ _ _ ?_).trans hst
  by_contra hin
  rw [List.length_singleton] at hin
  exact ha (.inr ⟨blockBytes_ne_zero hblk, p.1, by omega, by omega⟩)

/-! #### The store of a tile -/

/-- Row `i` of the tile that drains next, converted. -/
def State.tileRow (s : State) (k : Nat) (c : Ctx) (g : TileGroup) (chain : List ChainStep) (vals : List Nat) (d : Drain) (i : Nat) : List Nat × List Nat × Drain :=
  s.drainRow k c (c.outSite g.prob) chain (tileOff c.desc 2 (c.liveIdx g.idx c.drained)) i ((vals.drop (i * dNT c.desc)).take (dNT c.desc)) d

/-- The converted rows of the tile that drains next, with the drain state. -/
def State.tileOut (s : State) (k : Nat) (c : Ctx) (g : TileGroup) (chain : List ChainStep) (vals : List Nat) : List (List Nat × List Nat) × Drain :=
  (List.range (dMT c.desc)).foldl (fun (a : List (List Nat × List Nat) × Drain) i =>
    let y := s.tileRow k c g chain vals a.2 i
    (a.1 ++ [(y.1, y.2.1)], y.2.2)) ([], ({ gens := (s.core k).gens, stage := (s.die (k / 128)).stage } : Drain))

/-- Rows of an output written one below another. -/
def OutSite.writeRows (x : OutSite) (m : Mem) (off : Int) (rows : List (List Nat × List Nat)) : Mem :=
  ((List.range rows.length).zip rows).foldl (fun st p => x.writeRow st (off + (p.1 * x.pitch : Nat)) p.2.1 p.2.2) m

/-- Stage memory once the tile that drains next is stored. -/
def State.tileStage (s : State) (k : Nat) (c : Ctx) (g : TileGroup) (chain : List ChainStep) (vals : List Nat) : Mem :=
  (c.outSite g.prob).writeRows (s.die (k / 128)).stage (tileOff c.desc 2 (c.liveIdx g.idx c.drained)) (s.tileOut k c g chain vals).1

/-- The state with a tile's rows in stage memory and in drain staging, and the core's generators put back. -/
def State.tileKept (s : State) (k : Nat) (c : Ctx) (g : TileGroup) (chain : List ChainStep) (vals : List Nat) : State :=
  let r := s.tileOut k c g chain vals
  let held := (r.1.flatMap fun y => packCodes (c.outSite g.prob).fmt y.1) ++ r.1.flatMap fun y => y.2.map (BitVec.ofNat 8)
  (s.setDie (k / 128) { s.die (k / 128) with stage := s.tileStage k c g chain vals }).setCore k
    { s.core k with gens := r.2.gens, buf := Mem.write (s.core k).buf c.stagingAt held }

/-- A tile stored, flags and counters apart. -/
theorem State.storeTile_kept {s : State} {k n : Nat} {g : TileGroup} {gs : List TileGroup} (hg : (s.ctx k n).groups = g :: gs) (chain : List ChainStep) (vals : List Nat) :
    (s.tileKept k (s.ctx k n) g chain vals).flags (s.storeTile k n chain vals) := by
  have hhead : (s.ctx k n).groups.headD { idx := (s.ctx k n).idx, prob := (s.ctx k n).prob, half := 0 } = g := by rw [hg]; rfl
  have hflags (u : State) (r : Option Nat) (fs : List Flags) (d : Nat) : u.flags (((u.raiseAll k r fs).coreCount k 20 d).ctxOnly k n 11) :=
    ((u.raiseAll_flags k r fs).trans (State.count_flags _ _ _ _ _)).trans (State.count_flags _ _ _ _ _)
  unfold State.storeTile
  dsimp only
  rw [hhead]
  exact hflags _ _ _ _

/-! #### Arithmetic does not see flags and counters -/

theorem State.runChain_withFlags (s : State) (fl : List (Nat × Nat)) (ctr : Counters) : (s.withFlags fl ctr).runChain = s.runChain := rfl

theorem State.convertRun_withFlags (s : State) (fl : List (Nat × Nat)) (ctr : Counters) : (s.withFlags fl ctr).convertRun = s.convertRun := rfl

theorem State.drainRow_withFlags (s : State) (fl : List (Nat × Nat)) (ctr : Counters) : (s.withFlags fl ctr).drainRow = s.drainRow := by
  unfold State.drainRow
  rw [State.runChain_withFlags, State.convertRun_withFlags]
  rfl

theorem State.tileOut_withFlags (s : State) (fl : List (Nat × Nat)) (ctr : Counters) : (s.withFlags fl ctr).tileOut = s.tileOut := by
  unfold State.tileOut State.tileRow
  rw [State.drainRow_withFlags]
  rfl

/-- What a tile's store keeps is the same under other flags and counters. -/
theorem State.tileKept_withFlags (s : State) (fl : List (Nat × Nat)) (ctr : Counters) (k : Nat) (c : Ctx) (g : TileGroup) (chain : List ChainStep) (vals : List Nat) :
    (s.withFlags fl ctr).tileKept k c g chain vals = (s.tileKept k c g chain vals).withFlags fl ctr := by
  unfold State.tileKept State.tileStage
  rw [State.tileOut_withFlags]
  rfl

/-- A tile stored under other flags and counters. -/
theorem State.storeTile_of_flags {s u : State} (hu : s.flags u) {k n : Nat} {c : Ctx} (hctx : s.ctx k n = c) {g : TileGroup} {gs : List TileGroup} (hg : c.groups = g :: gs)
    (chain : List ChainStep) (vals : List Nat) : (s.tileKept k c g chain vals).flags (u.storeTile k n chain vals) := by
  obtain ⟨fl, ctr, rfl⟩ := hu
  subst hctx
  have h := State.storeTile_kept (s := s.withFlags fl ctr) (k := k) (n := n) hg chain vals
  have hsame : (s.withFlags fl ctr).ctx k n = s.ctx k n := rfl
  rw [hsame, State.tileKept_withFlags] at h
  exact State.flags.trans ⟨fl, ctr, rfl⟩ h

/-! #### Where a tile's bytes go -/

/-- The rows of a tile have at most its columns. -/
theorem State.length_tileOut (s : State) (k : Nat) (c : Ctx) (g : TileGroup) (chain : List ChainStep) (vals : List Nat) :
    (s.tileOut k c g chain vals).1.length = dMT c.desc ∧ ∀ y, y ∈ (s.tileOut k c g chain vals).1 → y.1.length ≤ (c.outSite g.prob).cols ∧
      y.2.length ≤ (if blkLen (c.outSite g.prob).blk = 0 then 0 else (c.outSite g.prob).cols / (c.outSite g.prob).blockLen) := by
  refine ⟨(length_foldl_append (fun d i => ((s.tileRow k c g chain vals d i).1, (s.tileRow k c g chain vals d i).2.1))
    (fun d i => (s.tileRow k c g chain vals d i).2.2) _ _).trans (by simp), ?_⟩
  unfold State.tileOut
  refine List.foldlRecOn (motive := fun a : List (List Nat × List Nat) × Drain => ∀ y, y ∈ a.1 → y.1.length ≤ (c.outSite g.prob).cols ∧
    y.2.length ≤ (if blkLen (c.outSite g.prob).blk = 0 then 0 else (c.outSite g.prob).cols / (c.outSite g.prob).blockLen)) _ _
    (fun y hy => absurd hy List.not_mem_nil) fun a ha i _ y hy => ?_
  rcases List.mem_append.mp hy with hy | hy
  · exact ha y hy
  · obtain rfl := List.mem_singleton.mp hy
    exact s.length_drainRow ..

/-- Rows written leave every byte that is none of theirs. -/
theorem OutSite.read_writeRows (x : OutSite) (m : Mem) (off : Int) (rows : List (List Nat × List Nat)) (a : Nat)
    (hrows : ∀ y, y ∈ rows → y.1.length ≤ x.cols ∧ y.2.length ≤ (if blkLen x.blk = 0 then 0 else x.cols / x.blockLen))
    (ha : ∀ i, i < rows.length → ¬x.rowByte (off + (i * x.pitch : Nat)) a) : Mem.read (x.writeRows m off rows) a = Mem.read m a := by
  refine List.foldlRecOn (motive := fun st => Mem.read st a = Mem.read m a) _ _ rfl fun st hst p hp => ?_
  obtain ⟨hi, hy⟩ := List.of_mem_zip hp
  obtain ⟨hcols, hexps⟩ := hrows p.2 hy
  exact (x.read_writeRow st _ _ _ hcols hexps a (ha p.1 (List.mem_range.mp hi))).trans hst

theorem State.read_tileStage (s : State) (k : Nat) (c : Ctx) (g : TileGroup) (chain : List ChainStep) (vals : List Nat) (a : Nat) (ha : ¬storesAt c g a) :
    Mem.read (s.tileStage k c g chain vals) a = Mem.read (s.die (k / 128)).stage a := by
  obtain ⟨hlen, hrows⟩ := s.length_tileOut k c g chain vals
  refine OutSite.read_writeRows _ _ _ _ a hrows fun i hi hbyte => ha ⟨i, hlen ▸ hi, hbyte⟩

/-! #### What a stored tile leaves -/

/-- After a live tile that is not the group's last, the next one stands to drain. -/
theorem State.afterTile_next {s : State} {k n : Nat} (h : (s.ctx k n).drained + 1 < (s.ctx k n).liveTiles) : s.afterTile k n =
    s.setCtx k n { s.ctx k n with staged := false, stagHalf := (s.ctx k n).fused && !(s.ctx k n).stagHalf, drained := (s.ctx k n).drained + 1 } := if_pos h

theorem State.tileStored_afterTile {s w : State} {k n : Nat} {c : Ctx} {g : TileGroup} {gs : List TileGroup} (hctx : s.ctx k n = c) (hg : c.groups = g :: gs) {vals : List Nat}
    (hw : (s.tileKept k c g (dChain c.desc) vals).flags w) : tileStored s (w.afterTile k n) k n c g vals := by
  have hafter := w.coreWork_afterTile k n
  obtain ⟨fl', ctr', hstore⟩ := State.storeTile_of_flags s.flags_refl hctx hg (dChain c.desc) vals
  obtain ⟨fl, ctr, rfl⟩ := hw
  have hdies : (State.afterTile ((s.tileKept k c g (dChain c.desc) vals).withFlags fl ctr) k n).die = (s.tileKept k c g (dChain c.desc) vals).die := by
    rw [hafter.frame]; rfl
  have hstage : ((s.tileKept k c g (dChain c.desc) vals).die (k / 128)).stage = s.tileStage k c g (dChain c.desc) vals :=
    congrArg Die.stage (Sparse.get_set_self _ _ _ _)
  refine ⟨by rw [hafter.frame]; rfl, fun d hd => by rw [hdies]; exact Sparse.get_set_ne _ _ _ _ _ hd, by rw [hdies, hstore]; rfl, fun a ha => ?_, fun a ha => ?_,
    fun j hj => (hafter.other j hj).trans (State.core_setCore_ne _ k j _ hj), fun hmore => ?_⟩
  · rw [hdies, hstage]
    exact s.read_tileStage k c g _ vals a ha
  · rw [hafter.buf]
    refine (congrArg (fun x : Core => Mem.read x.buf a) (State.core_setCore _ k k _)).trans ?_
    rw [if_pos rfl]
    exact Mem.read_write_out _ _ _ _ (.inl (Nat.lt_of_lt_of_le ha (Nat.le_add_right _ _)))
  · have hkept : ((s.tileKept k c g (dChain c.desc) vals).withFlags fl ctr).ctx k n = c := (State.ctx_setCore _ k _ k n).trans hctx
    rw [State.afterTile_next (by rw [hkept]; exact hmore), hkept, State.ctx_setCtx_self]

/-! #### TILE_DRAIN and SEPARATE_CHAIN_PASS -/

/-- The tile that drains next, scaled into FP32 staging. -/
def State.stageTile (s : State) (k n : Nat) (c : Ctx) : State :=
  let u := s.raiseAll k c.req (s.scaledTile k c).2
  (u.setCore k { u.core k with buf := Mem.write (u.core k).buf (stagingBase c.desc) ((s.scaledTile k c).1.flatMap fun y => leBytes 4 y) }).setCtx k n { c with staged := true }

/-- The tile that drains next, scaled, chained, converted and stored at once. -/
def State.drainTile (s : State) (k n : Nat) (c : Ctx) : State :=
  let u := s.raiseAll k c.req (s.scaledTile k c).2
  let u := if c.fused then u.coreCount k 21 else u
  (u.storeTile k n (dChain c.desc) (s.scaledTile k c).1).afterTile k n

section

variable {s : State} {die core n : Nat} {c : Ctx} {g : TileGroup} {gs : List TileGroup} (hc : s.hasCore die core = true) (hw : s.working = true)
  (hrun : s.runningCtx (coreNo die core) = some (n, c)) (hst : c.st = .running) (hg : c.groups = g :: gs)
include hc hw hrun hst hg

theorem exec_tileDrain (hs : c.staged = false) : exec (.tileDrain die core) s =
    .next (if c.fused || dChainLen c.desc == 0 then s.drainTile (coreNo die core) n c else s.stageTile (coreNo die core) n c) := by
  change execTileDrain die core s = _
  rw [execTileDrain, State.onCore_pos hc]
  dsimp only
  rw [hrun]
  exact when_pos (by simp [hw, hst, hg, hs])

theorem exec_separateChainPass (hs : c.staged = true) : exec (.separateChainPass die core) s =
    .next (((s.storeTile (coreNo die core) n (dChain c.desc) (leWords 4 (Mem.bytes (s.core (coreNo die core)).buf (stagingBase c.desc) (4 * (dMT c.desc * dNT c.desc))))).coreCount
      (coreNo die core) 22).afterTile (coreNo die core) n) := by
  change execSeparateChainPass die core s = _
  rw [execSeparateChainPass, State.onCore_pos hc]
  dsimp only
  rw [hrun]
  exact when_pos (by simp [hw, hst, hg, hs])

end

theorem State.ctx_of_running {s : State} {k n : Nat} {c : Ctx} (h : s.runningCtx k = some (n, c)) : s.ctx k n = c := by
  obtain ⟨m, -, he⟩ := Option.map_eq_some_iff.mp h
  cases he
  rfl

/-- A tile staged: only the core's staging, its context, flags and counters change. -/
theorem State.stageTile_effect (s : State) (k n : Nat) (c : Ctx) :
    let t := s.stageTile k n c
    t = { s with cores := t.cores, fore := { s.fore with flags := t.fore.flags }, ctr := t.ctr } ∧ (∀ j, j ≠ k → t.core j = s.core j) ∧ t.ctx k n = { c with staged := true } ∧
      (t.core k).buf = Mem.write (s.core k).buf (stagingBase c.desc) ((s.scaledTile k c).1.flatMap fun y => leBytes 4 y) := by
  obtain ⟨fl, ctr, hu⟩ := s.raiseAll_flags k c.req (s.scaledTile k c).2
  have hcore : (s.withFlags fl ctr).core = s.core := rfl
  intro t
  have ht : t = ((s.withFlags fl ctr).setCore k { s.core k with buf := Mem.write (s.core k).buf (stagingBase c.desc) ((s.scaledTile k c).1.flatMap fun y => leBytes 4 y) }).setCtx k n
      { c with staged := true } := by simp only [t, State.stageTile, hu, hcore]
  rw [ht]
  refine ⟨rfl, fun j hj => ?_, State.ctx_setCtx_self _ _ _ _, ?_⟩
  · exact (State.core_setCore_ne _ k j _ hj).trans (State.core_setCore_ne _ k j _ hj)
  · rw [State.core_setCtx_self, State.core_setCore, if_pos rfl]

/-- Settles O39, by what follows the scaling of a tile: its store, or FP32 staging and the separate pass. -/
theorem tilesDrain : Obligations.TilesDrain := by
  intro s die core n c g gs hc hw k hrun hst hg
  have hctx : s.ctx k n = c := State.ctx_of_running hrun
  refine ⟨fun hs hf hl => ⟨_, exec_tileDrain hc hw hrun hst hg hs, ?_⟩, fun hs hf => ⟨_, exec_tileDrain hc hw hrun hst hg hs, ?_⟩,
    fun hs => ⟨_, exec_separateChainPass hc hw hrun hst hg hs, ?_⟩⟩
  · rw [if_neg (by simp [hf, hl])]
    exact s.stageTile_effect k n c
  · rw [if_pos (by simpa using hf)]
    refine State.tileStored_afterTile hctx hg (State.storeTile_of_flags ?_ hctx hg _ _)
    have hraise := s.raiseAll_flags k c.req (s.scaledTile k c).2
    split
    · exact hraise.trans (State.count_flags _ _ _ _ _)
    · exact hraise
  · exact State.tileStored_afterTile hctx hg ((State.storeTile_of_flags s.flags_refl hctx hg _ _).trans (State.count_flags _ _ _ _ _))

end Sys2Proof.Machine

end

/-! ### A pass over stage memory -/

section

namespace Sys2Proof.Machine

theorem State.coreNo_div {s : State} {die core : Nat} (h : s.hasCore die core = true) : coreNo die core / 128 = die := by
  simp only [State.hasCore, Bool.and_eq_true, decide_eq_true_eq] at h
  unfold coreNo
  omega

/-- From `s` to `t` core `k` has worked over the stage memory of its die, which now holds `m`; requests are now `rs`. -/
structure State.Passed (die k : Nat) (rs : List Req) (m : Mem) (s t : State) : Prop where
  frame : t = { s with cores := t.cores, dies := t.dies, stands := t.stands, reqs := rs, fore := { s.fore with flags := t.fore.flags, cleared := t.fore.cleared }, ctr := t.ctr }
  other : ∀ d, d ≠ die → t.die d = s.die d
  stage : (t.die die).stage = m
  cores : ∀ j, j ≠ k → t.core j = s.core j

/-- Streams that a load has consumed, counters apart: the die keeps its stage memory. -/
theorem State.consume_eq (s : State) (die task : Nat) (rs : List (Nat × Nat)) : ∃ d c, s.consume die task rs = (s.setDie die d).withCtr c ∧ d.stage = (s.die die).stage := by
  obtain ⟨c, hc⟩ := State.counts_foldl (fun (u : State) (e : Nat × Stream) => u.count die 3 (e.1 * 16 + 10) ((e.2.consume task rs).room - e.2.room))
    (fun u e => u.counts_count _ _ _ _) (s.die die).streams
    (s.setDie die ({ s.die die with streams := (s.die die).streams.map fun e => (e.1, e.2.consume task rs) } : Die).slide)
  exact ⟨_, c, hc, rfl⟩

section

variable {die k : Nat} {rs : List Req} {m : Mem} {s t : State}

theorem State.Passed.refl (die k : Nat) (s : State) : s.Passed die k s.reqs (s.die die).stage s := ⟨rfl, fun _ _ => rfl, rfl, fun _ _ => rfl⟩

variable (h : s.Passed die k rs m t)
include h

theorem State.Passed.frame_own : t = { s with
    cores := t.cores, dies := t.dies, stands := t.stands, reqs := t.reqs, fore := { s.fore with flags := t.fore.flags, cleared := t.fore.cleared }, ctr := t.ctr } := by
  have hreqs : t.reqs = rs := by rw [h.frame]
  rw [hreqs]
  exact h.frame

theorem State.Passed.work {u : State} (hw : t.CoreWork k u) : s.Passed die k rs m u where
  frame := by rw [hw.frame, h.frame]
  other d hd := by rw [hw.frame]; exact h.other d hd
  stage := by rw [hw.frame]; exact h.stage
  cores j hj := (hw.other j hj).trans (h.cores j hj)

/-- The die is written with stage memory `m'`. -/
theorem State.Passed.setDie (x : Die) : s.Passed die k rs x.stage (t.setDie die x) where
  frame := by rw [h.frame]; rfl
  other d hd := (t.die_setDie_ne die d x hd).trans (h.other d hd)
  stage := by rw [State.die_setDie, if_pos rfl]
  cores := h.cores

theorem State.Passed.consume (task : Nat) (ranges : List (Nat × Nat)) : s.Passed die k rs m (t.consume die task ranges) := by
  obtain ⟨d, c, hc, hd⟩ := t.consume_eq die task ranges
  rw [hc]
  rw [← h.stage, ← hd]
  exact (h.setDie d).work ⟨rfl, fun _ _ => rfl, rfl⟩

theorem State.Passed.stageWrite (a : Nat) (bs : List Byte) : s.Passed die k rs (Mem.write m a bs) (t.stageWrite die a bs) := by
  rw [← h.stage]
  exact h.setDie { t.die die with stage := Mem.write (t.die die).stage a bs }

theorem State.Passed.updReq (rid : Nat) (f : Req → Req) : s.Passed die k (t.updReq rid f).reqs m (t.updReq rid f) where
  frame := by rw [h.frame]; rfl
  other := h.other
  stage := h.stage
  cores := h.cores

theorem State.Passed.gens (g : Sparse W64) : s.Passed die k rs m (t.setCore k { t.core k with gens := g }) :=
  h.work (t.turns_setCore k _).work

end

/-- What a core has to do and with what: its list, its current bank, and the states of its contexts. -/
def State.duties (s : State) (k : Nat) : List (Nat × TaskPlan) × Bank × (Nat → CtxState) := ((s.core k).todo, (s.core k).bank, fun m => (s.ctx k m).st)

/-- A pass under way: its core's duties stay. -/
structure State.Passing (die k : Nat) (rs : List Req) (m : Mem) (s t : State) : Prop extends State.Passed die k rs m s t where
  duties : t.duties k = s.duties k

section

variable {die k : Nat} {rs : List Req} {m : Mem} {s t : State}

theorem State.Passing.refl (die k : Nat) (s : State) : s.Passing die k s.reqs (s.die die).stage s := ⟨.refl die k s, rfl⟩

variable (h : s.Passing die k rs m t)
include h

theorem State.Passing.flags {u : State} (hf : t.flags u) : s.Passing die k rs m u := by
  refine ⟨h.work (hf.work k), ?_⟩
  obtain ⟨fl, c, rfl⟩ := hf
  exact h.duties

theorem State.Passing.consume (task : Nat) (ranges : List (Nat × Nat)) : s.Passing die k rs m (t.consume die task ranges) := by
  refine ⟨h.toPassed.consume task ranges, ?_⟩
  obtain ⟨d, c, hc, -⟩ := t.consume_eq die task ranges
  rw [hc]
  exact h.duties

theorem State.Passing.stageWrite (a : Nat) (bs : List Byte) : s.Passing die k rs (Mem.write m a bs) (t.stageWrite die a bs) :=
  ⟨h.toPassed.stageWrite a bs, h.duties⟩

theorem State.Passing.updReq (rid : Nat) (f : Req → Req) : s.Passing die k (t.updReq rid f).reqs m (t.updReq rid f) := ⟨h.toPassed.updReq rid f, h.duties⟩

/-- A core's generators are put back. -/
theorem State.Passing.endDrain (rid : Option Nat) (g : Drain) : s.Passing die k rs m (t.endDrain k rid g) := by
  refine State.Passing.flags (t := t.setCore k { t.core k with gens := g.gens }) ⟨h.gens g.gens, ?_⟩ ((State.raiseAll_flags _ _ _ _).trans (State.count_flags _ _ _ _ _))
  refine Eq.trans ?_ h.duties
  have hctx : (t.setCore k { t.core k with gens := g.gens }).ctx k = t.ctx k := funext fun m => t.ctx_setCore k _ k m
  rw [State.duties, hctx, State.core_setCore, if_pos rfl]
  rfl

/-- A context is written with a value in the same state. -/
theorem State.Passing.setCtx (n : Nat) (x : Ctx) (hx : x.st = (t.ctx k n).st) : s.Passing die k rs m (t.setCtx k n x) := by
  refine ⟨h.work (t.turns_setCtx k n x).work, Eq.trans ?_ h.duties⟩
  have hctx : (fun m => ((t.setCtx k n x).ctx k m).st) = fun m => (t.ctx k m).st := funext fun m => by
    by_cases hm : m = n
    · rw [hm, State.ctx_setCtx_self, hx]
    · rw [State.ctx_setCtx_ne _ _ _ _ (.inr hm)]
  rw [State.duties, hctx, State.core_setCtx_self]
  rfl

theorem State.Passing.ctx_st (n : Nat) : (t.ctx k n).st = (s.ctx k n).st := congrFun (congrArg (fun d => d.2.2) h.duties) n

/-- The lookups of the core see the same functions. -/
theorem State.Passing.envOf : t.envOf k = s.envOf k := by
  have hbank : (t.core k).bank = (s.core k).bank := congrArg (fun d => d.2.1) h.duties
  have hsys : t.sys = s.sys := by rw [h.frame]
  have hovf : t.ovf = s.ovf := by rw [h.frame]; rfl
  rw [State.envOf, State.envOf, hbank, hsys, hovf]

/-- A pass that ends its task. -/
theorem State.Passing.finishCtx (n : Nat) : s.Passed die k rs m (t.finishCtx k n) ∧
    ((s.core k).todo.find? (fun x => x.2.ctx == n) = none → ((t.finishCtx k n).ctx k n).st = .done) := by
  have htodo : (t.core k).todo = (s.core k).todo := congrArg Prod.fst h.duties
  exact ⟨h.work (t.coreWork_finishCtx k n), fun hn => t.finishCtx_done k n (by rw [htodo]; exact hn)⟩

end

end Sys2Proof.Machine

end

/-! ### Row passes and rotation -/

section

namespace Sys2Proof.Machine

/-- A row's results as a vector pass stores them: scaled by RN(1 / s_out) and converted, with the drain state. -/
def State.rowCodes (s : State) (k : Nat) (job : RowJob) (r : List Nat) : List Nat × Nat × Drain :=
  s.convertRun k job.fmt false (s.rnd == 2) (div32 s.ovf one32 job.sOut.toNat).1 (· % laneCount s.sys.compat) r (s.drainOf k)

/-- Other dies and counters leave a row's conversion as it is. -/
theorem State.rowCodes_withDies (s : State) (ds : Sparse Die) (c : Counters) (fi : Nat) : (s.withDies ds c fi).rowCodes = s.rowCodes := rfl

theorem State.storeRow_eq (s : State) (k n : Nat) (c : Ctx) (job : RowJob) (r : List Nat × Flags) : s.storeRow k n c job r =
    (((s.flagVec k c.req ((div32 s.ovf one32 job.sOut.toNat).2.or r.2)).endDrain k c.req (s.rowCodes k job r.1).2.2).stageWrite (k / 128) job.dst
      (packCodes job.fmt (s.rowCodes k job r.1).1)).finishCtx k n := rfl

/-- A row stored ends its pass: its results stand at its destination. -/
theorem State.Passing.storeRow {die core : Nat} {m : Mem} {s t : State} (hc : s.hasCore die core = true) (h : s.Passing die (coreNo die core) s.reqs m t)
    (hcodes : t.rowCodes = s.rowCodes) (n : Nat) (c : Ctx) (job : RowJob) (r : List Nat × Flags) :
    rowPassed s (t.storeRow (coreNo die core) n c job r) die core n job m r.1 := by
  rw [State.storeRow_eq, State.coreNo_div hc, hcodes]
  obtain ⟨hpass, hdone⟩ := (((h.flags (t.flagVec_flags _ c.req _)).endDrain c.req _).stageWrite job.dst _).finishCtx n
  exact ⟨hpass.frame, hpass.other, hpass.stage, hdone, hpass.cores⟩

/-- Bytes read by a pass count as consumed; nothing else changes. -/
theorem State.consume_withDies (s : State) (die task : Nat) (rs : List (Nat × Nat)) : ∃ ds c, s.consume die task rs = s.withDies ds c s.freeIx := by
  obtain ⟨d, c, hc, -⟩ := s.consume_eq die task rs
  exact ⟨_, c, hc⟩

section

variable {s : State} {die core n : Nat} {c : Ctx} {job : RowJob} (hc : s.hasCore die core = true) (hw : s.working = true)
include hc hw

theorem exec_normalisation (hlo : 1 ≤ job.len) (hhi : job.len ≤ 32768) (hg : normalPos32 job.sGain.toNat = true) (hb : s.normKind = 0 ∨ normalPos32 job.sBias.toNat = true)
    (hok : s.rowOk die c job (s.normReads job) = true) (hv : s.vecCtx (coreNo die core) job.task [4] = some (n, c)) :
    ∃ fl, exec (.normalisation die core job) s = .next ((s.consume die job.task (s.normReads job)).storeRow (coreNo die core) n c job
      (if s.normKind = 0 then (rmsNorm (s.envOf (coreNo die core)) s.normEps (s.rowAt die job.src job.len job.srcFmt job.sIn).1 (s.rowAt die job.gain job.len (s.streamFmt 7).1 job.sGain).1).1
        else (layerNorm (s.envOf (coreNo die core)) s.normEps (s.rowAt die job.src job.len job.srcFmt job.sIn).1 (s.rowAt die job.gain job.len (s.streamFmt 7).1 job.sGain).1
          (s.rowAt die job.bias job.len (s.streamFmt 7).1 job.sBias).1).1, fl)) := by
  have hcond : (s.working && decide (1 ≤ job.len ∧ job.len ≤ 32768) && normalPos32 job.sGain.toNat && (s.normKind == 0 || normalPos32 job.sBias.toNat) &&
      s.rowOk die c job (s.normReads job)) = true := by
    rw [hw, decide_eq_true ⟨hlo, hhi⟩, hg, hok]
    simpa using hb
  change ∃ fl, execNormalisation die core job s = _
  rw [execNormalisation, State.onCore_pos hc]
  dsimp only
  rw [hv]
  dsimp only
  rw [when_pos hcond]
  by_cases hk : s.normKind = 0
  · simp only [if_pos hk]
    exact ⟨_, rfl⟩
  · simp only [if_neg hk]
    exact ⟨_, rfl⟩

theorem exec_softMaximum (hlo : 1 ≤ job.len) (hhi : job.len ≤ 1048576) (hsp : c.hasSpace job.work (4 * job.len) = true)
    (hok : s.rowOk die c job [rowRange job.src job.len job.srcFmt] = true) (hv : s.vecCtx (coreNo die core) job.task [1] = some (n, c)) :
    ∃ fl, exec (.softMaximum die core job) s = .next (((s.consume die job.task [rowRange job.src job.len job.srcFmt]).stageWrite die job.work
      (f32Bytes (softWork (s.envOf (coreNo die core)) (s.rowAt die job.src job.len job.srcFmt job.sIn).1))).storeRow (coreNo die core) n c job
        ((softmax (s.envOf (coreNo die core)) (s.rowAt die job.src job.len job.srcFmt job.sIn).1).1, fl)) := by
  have hcond : (s.working && decide (1 ≤ job.len ∧ job.len ≤ 1048576) && c.hasSpace job.work (4 * job.len) &&
      s.rowOk die c job [rowRange job.src job.len job.srcFmt]) = true := by
    rw [hw, decide_eq_true ⟨hlo, hhi⟩, hsp, hok]
    rfl
  change ∃ fl, execSoftMaximum die core job s = _
  rw [execSoftMaximum, State.onCore_pos hc]
  dsimp only
  rw [hv]
  dsimp only
  rw [when_pos hcond]
  exact ⟨_, rfl⟩

end

theorem rowPasses : RowPasses := by
  refine ⟨fun s die core n c job hc hw hlo hhi hg hb hok hv => ?_, fun s die core n c job hc hw hlo hhi hsp hok hv => ?_⟩
  · intro v f xs gs
    obtain ⟨fl, hexec⟩ := exec_normalisation hc hw hlo hhi hg hb hok hv
    obtain ⟨ds, ctr, hread⟩ := s.consume_withDies die job.task (s.normReads job)
    have hpass := (State.Passing.refl die (coreNo die core) s).consume job.task (s.normReads job)
    exact ⟨_, hexec, hpass.storeRow hc (by rw [hread, State.rowCodes_withDies]) n c job _⟩
  · intro v xs
    obtain ⟨fl, hexec⟩ := exec_softMaximum hc hw hlo hhi hsp hok hv
    obtain ⟨ds, ctr, hread⟩ := s.consume_withDies die job.task [rowRange job.src job.len job.srcFmt]
    have hpass := ((State.Passing.refl die (coreNo die core) s).consume job.task [rowRange job.src job.len job.srcFmt]).stageWrite job.work (f32Bytes (softWork v xs))
    exact ⟨_, hexec, hpass.storeRow hc (by rw [hread]; exact State.rowCodes_withDies s _ ctr s.freeIx) n c job _⟩

/-! #### ROTARY_ROTATION -/

/-- FP32 values of a memory, as `stageWords` reads them. -/
def storedWords (m : Mem) (a n : Nat) : List Nat := (leWords 4 (Mem.bytes m a (4 * n))).map Fp.fp32.stored

theorem State.stageWords_eq (s : State) (die a n : Nat) : s.stageWords die a n = storedWords (s.die die).stage a n := rfl

/-- Stage memory with row `i` at `addr` turned. -/
def State.turnRow (s : State) (k addr : Nat) (positions : List Nat) (m : Mem) (i : Nat) : Mem :=
  Mem.write m (addr + 4 * s.headDim * i)
    (f32Bytes (rotateRow (s.envOf k) s.img.freqs (positions[i]?.getD 0) (storedWords m (addr + 4 * s.headDim * i) s.headDim)).1)

/-- A state whose row `i` at `addr` has turned, `d` elements to a row. -/
def State.rotateAt (u : State) (die k d addr : Nat) (req : Option Nat) (positions : List Nat) (i : Nat) : State :=
  let r := rotateRow (u.envOf k) u.img.freqs (positions[i]?.getD 0) (u.stageWords die (addr + 4 * d * i) d)
  (u.stageWrite die (addr + 4 * d * i) (f32Bytes r.1)).flagVec k req r.2

theorem exec_rotaryRotation {s : State} {die core n task addr rows : Nat} {ps : List Nat} {c : Ctx} (hc : s.hasCore die core = true) (hw : s.working = true) (hp : ps.length = rows)
    (hv : s.vecCtx (coreNo die core) task [7, 8] = some (n, c)) (hr : s.rangesWait die c [(addr, 4 * s.headDim * rows)] = false)
    (hm : s.mayWrite die (addr, 4 * s.headDim * rows) = true) : exec (.rotaryRotation die core task addr rows ps) s =
      .next (((List.range rows).foldl (fun u i => u.rotateAt die (coreNo die core) s.headDim addr c.req ps i)
        (s.consume die task [(addr, 4 * s.headDim * rows)])).finishCtx (coreNo die core) n) := by
  change execRotaryRotation die core task addr rows ps s = _
  rw [execRotaryRotation, State.onCore_pos hc]
  dsimp only
  rw [hv]
  exact when_pos (by rw [hw, decide_eq_true hp, hr, hm]; rfl)

/-- One row turns, and the pass goes on. -/
theorem State.Passing.rotateAt {die k : Nat} {rs : List Req} {m : Mem} {s t : State} (h : s.Passing die k rs m t) (addr : Nat) (req : Option Nat) (positions : List Nat) (i : Nat) :
    s.Passing die k rs (s.turnRow k addr positions m i) (t.rotateAt die k s.headDim addr req positions i) := by
  have himg : t.img = s.img := by rw [h.frame]
  have hwrite := h.stageWrite (addr + 4 * s.headDim * i)
    (f32Bytes (rotateRow (s.envOf k) s.img.freqs (positions[i]?.getD 0) (storedWords m (addr + 4 * s.headDim * i) s.headDim)).1)
  rw [State.rotateAt, h.envOf, himg, State.stageWords_eq, h.stage]
  exact hwrite.flags (State.flagVec_flags _ _ _ _)

theorem rotations : Rotations := by
  intro s die core n task addr rows ps c hc hw hp hv hr hm
  have hexec := exec_rotaryRotation hc hw hp hv hr hm
  have hpass := (State.Passing.refl die (coreNo die core) s).consume task [(addr, 4 * s.headDim * rows)]
  have hrows := List.foldl_rel (r := s.Passing die (coreNo die core) s.reqs) (l := List.range rows) hpass fun i _ m u hu => hu.rotateAt addr c.req ps i
  obtain ⟨hfinal, hdone⟩ := hrows.finishCtx n
  exact ⟨_, hexec, hfinal.frame, hfinal.other, hdone, hfinal.stage⟩

/-- Settles O41: the row passes and the rotation. -/
theorem vectorRows : Obligations.VectorRows := ⟨rowPasses, rotations⟩

end Sys2Proof.Machine

end

/-! ### Records folded in place -/

section

namespace Sys2Proof.Machine

/-! #### Blocks that each change by their own bytes -/

theorem Mem.bytes_congr {m m' : Mem} {a n : Nat} (h : ∀ i, i < n → Mem.read m (a + i) = Mem.read m' (a + i)) : Mem.bytes m a n = Mem.bytes m' a n := by
  refine List.ext_getElem (by simp) fun i hi _ => ?_
  rw [Mem.getElem_bytes, Mem.getElem_bytes]
  exact h i (by rwa [Mem.length_bytes] at hi)

/-- Blocks of `B` bytes from `base` on, each written once with bytes that depend on what stood in it alone: nothing else changes, and each holds what comes of its old bytes. -/
theorem foldl_write_blocks {B base : Nat} {f : Mem → Nat → List Byte} (hlen : ∀ m r, (f m r).length = B)
    (hown : ∀ m m' r, Mem.bytes m (base + B * r) B = Mem.bytes m' (base + B * r) B → f m r = f m' r) (m : Mem) (n : Nat) :
    let w := (List.range n).foldl (fun m r => Mem.write m (base + B * r) (f m r)) m
    (∀ a, a < base ∨ base + B * n ≤ a → Mem.read w a = Mem.read m a) ∧ ∀ r, r < n → Mem.bytes w (base + B * r) B = f m r := by
  induction n with
  | zero => exact ⟨fun _ _ => rfl, fun r hr => absurd hr (Nat.not_lt_zero r)⟩
  | succ n ih =>
    obtain ⟨hout, hin⟩ := ih
    rw [List.range_succ, List.foldl_append, List.foldl_cons, List.foldl_nil]
    generalize (List.range n).foldl (fun m r => Mem.write m (base + B * r) (f m r)) m = w at hout hin ⊢
    have hmul : B * (n + 1) = B * n + B := Nat.mul_succ B n
    have hnew : f w n = f m n := hown w m n (Mem.bytes_congr fun i _ => hout _ (.inr (by omega)))
    refine ⟨fun a ha => ?_, fun r hr => ?_⟩
    · refine (Mem.read_write_out _ _ _ _ ?_).trans (hout a (by omega))
      rw [hlen]
      omega
    · rcases Nat.lt_succ_iff_lt_or_eq.mp hr with hlt | rfl
      · refine Eq.trans (Mem.bytes_congr fun i hi => Mem.read_write_out _ _ _ _ (.inl ?_)) (hin r hlt)
        have := Nat.mul_le_mul_left B (Nat.succ_le_of_lt hlt)
        rw [Nat.mul_succ] at this
        omega
      · have hself := Mem.bytes_write_self w (base + B * r) (f w r)
        rw [hlen] at hself
        exact hself.trans hnew

/-! #### Lengths of rows -/

@[simp] theorem length_leWords (k : Nat) (bs : List Byte) : (leWords k bs).length = bs.length / k := by simp [leWords]

/-- A stored row has at least its elements. -/
theorem le_length_storedValues (fmt blk : Nat) (m : Mem) (a n : Nat) (exps : List Byte) : n ≤ (storedValues fmt blk (Mem.bytes m a (elemBytes fmt n)) exps).length := by
  have hcodes : n ≤ (codesOf fmt (Mem.bytes m a (elemBytes fmt n))).length := by
    unfold codesOf
    split
    · rename_i h
      subst h
      simp only [List.length_flatMap, List.length_cons, List.length_nil, List.map_const', Mem.length_bytes, List.sum_replicate, elemBytes_nibbles, smul_eq_mul]
      omega
    · rename_i h
      have hpos : 0 < fmtBits fmt / 8 := by
        unfold fmtBits
        split_ifs
        all_goals decide
      rw [length_leWords, Mem.length_bytes, elemBytes_whole h, Nat.mul_div_cancel _ hpos]
  simpa [storedValues] using hcodes

theorem State.length_matrixRows (s : State) (fmt : Nat) (rows : List (List Num)) : (s.matrixRows fmt rows).1.length = rows.length := by
  unfold State.matrixRows
  split <;> simp

theorem State.length_stageWords (s : State) (die a n : Nat) : (s.stageWords die a n).length = n := by
  simp [State.stageWords]

theorem State.le_length_streamRow (s : State) (die stream a n e : Nat) : n ≤ (s.streamRow die stream a n e).length := le_length_storedValues _ _ _ _ _ _

/-- The values of a block reach over a record's outputs: a row for each dimension of a page, and as many elements at each position of a vector block. -/
def BlockData.covers (d : Nat) : BlockData → Prop
  | .hole _ => True
  | .page _ _ _ vals => vals.length = d
  | .vector _ _ vals => ∀ v, v ∈ vals → d ≤ v.length

theorem State.blockData_covers (s : State) (die : Nat) (job : FoldJob) : (s.blockData die job).1.covers s.headDim := by
  unfold State.blockData
  dsimp only
  split
  · trivial
  · exact (s.length_matrixRows _ _).trans (by simp)
  · intro v hv
    split at hv
    · obtain ⟨i, -, rfl⟩ := List.mem_map.mp hv
      exact (s.length_stageWords ..).ge
    · simp only [State.scaledRows, List.map_map, List.mem_map] at hv
      obtain ⟨i, -, rfl⟩ := hv
      simpa using s.le_length_streamRow die 3 _ s.headDim 0

theorem length_foldUpdate {v : Env} {st : RowState} {mb alpha tb : Nat} {pv : List Nat} (h : st.o.length ≤ pv.length) :
    (foldUpdate v st mb alpha tb pv).1.o.length = st.o.length := by
  simp [foldUpdate, h]

theorem length_foldPage {v : Env} {strict f19 : Bool} {kT : Nat} {vf : Fp} {sV : Nat} {st : RowState} {scores : List Nat} {vals : List (List Num)}
    (h : vals.length = st.o.length) : (foldPage v strict f19 kT vf sV st scores vals).1.o.length = st.o.length := by
  unfold foldPage
  split
  · rfl
  · exact length_foldUpdate (by simp [h])

theorem length_foldVector {v : Env} {st : RowState} {scores : List Nat} {vals : List (List Nat)} (h : ∀ x, x ∈ vals → st.o.length ≤ x.length) :
    (foldVector v st scores vals).1.o.length = st.o.length := by
  unfold foldVector
  split
  · rfl
  · refine length_foldUpdate ?_
    rw [List.length_map]
    refine List.foldlRecOn (motive := fun acc : List Rd => st.o.length ≤ acc.length) _ _ (by simp) fun acc hacc p hp => ?_
    have hrow := h p.2 (List.of_mem_zip hp).2
    simp only [List.length_map, List.length_zip]
    omega

/-- A block folded into a record keeps the number of its outputs. -/
theorem State.length_foldRow (s : State) (k : Nat) (job : FoldJob) {b : BlockData} (q : List Num) (sQ r : Nat) {x : Partial} (h : b.covers x.o.length) :
    (s.foldRow k job b q sQ r x).1.o.length = x.o.length := by
  unfold State.foldRow
  cases b with
  | hole v => dsimp only; split <;> rfl
  | page first count keys vals =>
    dsimp only
    split
    · rfl
    · exact length_foldPage (st := ⟨x.m, x.l, x.o⟩) h
  | vector positions keys vals =>
    dsimp only
    split
    · rfl
    · exact length_foldVector (st := ⟨x.m, x.l, x.o⟩) h

end Sys2Proof.Machine

end

/-! ### BLOCK_FOLD -/

section

namespace Sys2Proof.Machine

/-! #### A record folded -/

/-- The bytes of a partial record in stage memory. -/
def Partial.image (p : Partial) : List Byte := p.stored.words.flatMap fun w => leBytes 4 w.toNat

theorem Partial.length_words (p : Partial) : p.words.length = 8 + p.o.length := by simp [Partial.words]

theorem Partial.length_image (p : Partial) : p.image.length = 32 + 4 * p.o.length := by
  have hstored : p.stored.o.length = p.o.length := by simp [Partial.stored]
  simp only [Partial.image, List.length_flatMap, length_leBytes, List.map_const', List.sum_replicate, smul_eq_mul, Partial.length_words, hstored]
  omega

/-- Where the record of row `r` stands. -/
def State.recordAddr (s : State) (job : FoldJob) (r : Nat) : Nat := job.state + (32 + 4 * s.headDim) * r

/-- The record into which row `r` folds: the one in memory, or the empty one. -/
def State.recordBefore (s : State) (job : FoldJob) (m : Mem) (r : Nat) : Partial :=
  if job.fresh then s.emptyPartial job r else partialOf ((storedWords m (s.recordAddr job r) (8 + s.headDim)).map (BitVec.ofNat 32))

/-- A record once the block has folded into it, normalised where the job asks for it; `qb` is the converted query block. -/
def State.recordAfter (s : State) (k : Nat) (job : FoldJob) (b : BlockData) (qb : Nat × List (List Nat × List Nat)) (r : Nat) (x : Partial) : Partial :=
  let f := (s.foldRow k job b (s.queryVals (qb.2[r]?.getD ([], []))) qb.1 r x).1
  if job.normalise then { f with o := (rowOutput s.ovf ⟨f.m, f.l, f.o⟩).map Prod.fst } else f

/-- The bytes of the record of row `r` once the block has folded into what a memory holds. -/
def State.recordImage (s : State) (k : Nat) (job : FoldJob) (b : BlockData) (qb : Nat × List (List Nat × List Nat)) (m : Mem) (r : Nat) : List Byte :=
  (s.recordAfter k job b qb r (s.recordBefore job m r)).image

theorem State.length_recordBefore (s : State) (job : FoldJob) (m : Mem) (r : Nat) : (s.recordBefore job m r).o.length = s.headDim := by
  unfold State.recordBefore
  split
  · exact List.length_replicate
  · simp [partialOf, storedWords]

theorem length_rowOutput (ieee : Bool) (st : RowState) : (rowOutput ieee st).length = st.o.length := by
  unfold rowOutput
  split <;> simp

theorem State.length_recordAfter (s : State) (k : Nat) (job : FoldJob) {b : BlockData} (qb : Nat × List (List Nat × List Nat)) (r : Nat) {x : Partial}
    (h : b.covers x.o.length) : (s.recordAfter k job b qb r x).o.length = x.o.length := by
  unfold State.recordAfter
  dsimp only
  split
  · rw [List.length_map, length_rowOutput]
    exact s.length_foldRow k job _ _ r h
  · exact s.length_foldRow k job _ _ r h

theorem State.length_recordImage (s : State) (k : Nat) (job : FoldJob) {b : BlockData} (qb : Nat × List (List Nat × List Nat)) (h : b.covers s.headDim) (m : Mem) (r : Nat) :
    (s.recordImage k job b qb m r).length = 32 + 4 * s.headDim := by
  rw [State.recordImage, Partial.length_image, State.length_recordAfter _ _ _ _ _ (by rwa [State.length_recordBefore]), State.length_recordBefore]

/-- A record is folded from its own bytes. -/
theorem State.recordImage_own (s : State) (k : Nat) (job : FoldJob) (b : BlockData) (qb : Nat × List (List Nat × List Nat)) (m m' : Mem) (r : Nat)
    (h : Mem.bytes m (s.recordAddr job r) (32 + 4 * s.headDim) = Mem.bytes m' (s.recordAddr job r) (32 + 4 * s.headDim)) :
    s.recordImage k job b qb m r = s.recordImage k job b qb m' r := by
  have hlen : 4 * (8 + s.headDim) = 32 + 4 * s.headDim := by omega
  rw [State.recordImage, State.recordImage, State.recordBefore, State.recordBefore, storedWords, storedWords, hlen, h]

/-! #### The rows of a block -/

/-- A request notes that a masked record has lost pages. -/
def State.noteLoss (s : State) (req : Option Nat) (masked : Bool) : State :=
  if masked then
    match req with
    | some rid => s.updReq rid fun q => { q with lossMasked := true }
    | none => s
  else s

/-- A state whose record of row `r` the block has folded into; `d` is the head dimension. -/
def State.foldAt (u : State) (die k d : Nat) (req : Option Nat) (job : FoldJob) (b : BlockData) (qb : Nat × List (List Nat × List Nat)) (r : Nat) : State :=
  let at' := job.state + (32 + 4 * d) * r
  let x := if job.fresh then u.emptyPartial job r else u.partialAt die at'
  let f := u.foldRow k job b (u.queryVals (qb.2[r]?.getD ([], []))) qb.1 r x
  let out := if job.normalise then rowOutput u.ovf ⟨f.1.m, f.1.l, f.1.o⟩ else []
  let rec' := if job.normalise then { f.1 with o := out.map fun (y : Rd) => y.1 } else f.1
  ((u.stageWrite die at' rec'.image).noteLoss req rec'.masked).flagVec k req (out.foldl (fun a y => a.or y.2) f.2)

theorem State.foldJob_eq (s : State) (die k n : Nat) (c : Ctx) (job : FoldJob) : s.foldJob die k n c job =
    let qr := s.queryBlock die k n c job
    let u := (List.range (job.qpos.length * s.group)).foldl (fun u r => u.foldAt die k s.headDim c.req job (s.blockData die job).1 qr.1 r)
      (qr.2.flagVec k c.req (s.blockData die job).2)
    if job.last then u.finishCtx k n else u.noteFold k n job := rfl

theorem State.foldAt_eq (u : State) (die k d : Nat) (req : Option Nat) (job : FoldJob) (b : BlockData) (qb : Nat × List (List Nat × List Nat)) (r : Nat) : ∃ fl,
    u.foldAt die k d req job b qb r =
      let p := u.recordAfter k job b qb r (if job.fresh then u.emptyPartial job r else u.partialAt die (job.state + (32 + 4 * d) * r))
      ((u.stageWrite die (job.state + (32 + 4 * d) * r) p.image).noteLoss req p.masked).flagVec k req fl := by
  unfold State.foldAt State.recordAfter
  cases job.normalise
  · exact ⟨_, rfl⟩
  · exact ⟨_, rfl⟩

/-- The parts of a state that a pass may change. -/
def State.passParts (s : State) (cs : Sparse Core) (ds : Sparse Die) (ss : Sparse Stand) (rs : List Req) (fl : List (Nat × Nat)) (cl : List Nat) (c : Counters) : State :=
  { s with cores := cs, dies := ds, stands := ss, reqs := rs, fore := { s.fore with flags := fl, cleared := cl }, ctr := c }

theorem State.foldRow_passParts (s : State) (cs : Sparse Core) (ds : Sparse Die) (ss : Sparse Stand) (rs : List Req) (fl : List (Nat × Nat)) (cl : List Nat) (c : Counters) (k : Nat)
    (h : (s.passParts cs ds ss rs fl cl c).envOf k = s.envOf k) : (s.passParts cs ds ss rs fl cl c).foldRow k = s.foldRow k := by
  unfold State.foldRow
  rw [h]
  rfl

section

variable {die k : Nat} {rs : List Req} {m : Mem} {s t : State} (h : s.Passing die k rs m t)
include h

theorem State.Passing.foldRow : t.foldRow k = s.foldRow k := by
  have hparts : t = s.passParts t.cores t.dies t.stands rs t.fore.flags t.fore.cleared t.ctr := h.frame
  have henv := h.envOf
  rw [hparts] at henv ⊢
  exact s.foldRow_passParts _ _ _ _ _ _ _ _ henv

theorem State.Passing.emptyPartial : t.emptyPartial = s.emptyPartial := by rw [h.frame]; rfl

theorem State.Passing.queryVals : t.queryVals = s.queryVals := by rw [h.frame]; rfl

theorem State.Passing.partialAt (a : Nat) : t.partialAt die a = partialOf ((storedWords m a (8 + s.headDim)).map (BitVec.ofNat 32)) := by
  have hdim : t.headDim = s.headDim := by rw [h.frame]; rfl
  rw [State.partialAt, State.stageWords_eq, h.stage, hdim]

theorem State.Passing.recordAfter : t.recordAfter k = s.recordAfter k := by
  have hovf : t.ovf = s.ovf := by rw [h.frame]; rfl
  unfold State.recordAfter
  rw [h.foldRow, h.queryVals, hovf]

theorem State.Passing.noteLoss (req : Option Nat) (masked : Bool) : ∃ rs', s.Passing die k rs' m (t.noteLoss req masked) := by
  unfold State.noteLoss
  split
  · cases req with
    | some rid => exact ⟨_, h.updReq rid _⟩
    | none => exact ⟨rs, h⟩
  · exact ⟨rs, h⟩

/-- The block folds into one record, and the pass goes on. -/
theorem State.Passing.foldAt (req : Option Nat) (job : FoldJob) (b : BlockData) (qb : Nat × List (List Nat × List Nat)) (r : Nat) :
    ∃ rs', s.Passing die k rs' (Mem.write m (s.recordAddr job r) (s.recordImage k job b qb m r)) (t.foldAt die k s.headDim req job b qb r) := by
  obtain ⟨fl, hfold⟩ := t.foldAt_eq die k s.headDim req job b qb r
  have hbefore : (if job.fresh then t.emptyPartial job r else t.partialAt die (job.state + (32 + 4 * s.headDim) * r)) = s.recordBefore job m r := by
    rw [h.emptyPartial, h.partialAt]
    rfl
  rw [hbefore, h.recordAfter] at hfold
  rw [hfold]
  obtain ⟨rs', hloss⟩ := (h.stageWrite (s.recordAddr job r) (s.recordImage k job b qb m r)).noteLoss req (s.recordAfter k job b qb r (s.recordBefore job m r)).masked
  exact ⟨rs', hloss.flags (State.flagVec_flags _ _ _ _)⟩

end

/-! #### The query block -/

/-- The query block of a fold: as the task has converted it, or converted now. -/
def State.queryCodes (s : State) (die k : Nat) (c : Ctx) (job : FoldJob) : Nat × List (List Nat × List Nat) :=
  match c.converted job.q (job.qpos.length * s.group) with
  | some x => x
  | none =>
    let x := s.queryRows k ((List.range (job.qpos.length * s.group)).map fun i => s.stageWords die (job.q + 4 * s.headDim * i) s.headDim) (s.drainOf k)
    (x.2.1, x.1)

/-- A query block converts into the context, and changes no stage memory. -/
theorem State.queryBlock_passing (s : State) (die k n : Nat) (c : Ctx) (job : FoldJob) :
    (s.queryBlock die k n c job).1 = s.queryCodes die k c job ∧ s.Passing die k s.reqs (s.die die).stage (s.queryBlock die k n c job).2 := by
  unfold State.queryBlock State.queryCodes
  dsimp only
  cases c.converted job.q (job.qpos.length * s.group) with
  | some x => exact ⟨rfl, .refl die k s⟩
  | none => exact ⟨rfl, ((State.Passing.refl die k s).endDrain c.req _).setCtx n _ rfl⟩

theorem State.Passing.noteFold {die k : Nat} {rs : List Req} {m : Mem} {s t : State} (h : s.Passing die k rs m t) (n : Nat) (job : FoldJob) :
    s.Passing die k rs m (t.noteFold k n job) := by
  unfold State.noteFold
  split
  · exact h
  · exact h.setCtx n _ rfl

/-! #### The whole block -/

/-- Stage memory once the block has folded into every record. -/
def State.foldStage (s : State) (die k : Nat) (c : Ctx) (job : FoldJob) : Mem :=
  (List.range (job.qpos.length * s.group)).foldl (fun m r => Mem.write m (s.recordAddr job r) (s.recordImage k job (s.blockData die job).1 (s.queryCodes die k c job) m r))
    (s.die die).stage

/-- The rows of a block have folded: the pass goes on over stage memory that holds their records. -/
theorem State.foldRows_passing (s : State) (die k n : Nat) (c : Ctx) (job : FoldJob) : ∃ rs u, s.Passing die k rs (s.foldStage die k c job) u ∧
    s.foldJob die k n c job = if job.last then u.finishCtx k n else u.noteFold k n job := by
  obtain ⟨hcodes, hquery⟩ := s.queryBlock_passing die k n c job
  have hstart := hquery.flags (State.flagVec_flags _ k c.req (s.blockData die job).2)
  obtain ⟨rs, hrows⟩ := List.foldl_rel (r := fun m u => ∃ rs, s.Passing die k rs m u) (l := List.range (job.qpos.length * s.group)) ⟨_, hstart⟩
    fun r _ m u ⟨_, hu⟩ => hu.foldAt c.req job (s.blockData die job).1 (s.queryCodes die k c job) r
  rw [State.foldJob_eq]
  dsimp only
  rw [hcodes]
  exact ⟨rs, _, hrows, rfl⟩

/-- Records after a block: each holds the fold of the block into what stood in it, and no other byte of stage memory changes. -/
theorem State.foldStage_effect (s : State) (die k : Nat) (c : Ctx) (job : FoldJob) :
    (∀ a, a < job.state ∨ job.state + (32 + 4 * s.headDim) * (job.qpos.length * s.group) ≤ a →
      Mem.read (s.foldStage die k c job) a = Mem.read (s.die die).stage a) ∧
    ∀ r, r < job.qpos.length * s.group → Mem.bytes (s.foldStage die k c job) (s.recordAddr job r) (32 + 4 * s.headDim) =
      s.recordImage k job (s.blockData die job).1 (s.queryCodes die k c job) (s.die die).stage r :=
  foldl_write_blocks (s.length_recordImage k job (s.queryCodes die k c job) (s.blockData_covers die job)) (s.recordImage_own k job _ _) _ _

/-- A task whose last block has folded is done, and one that folds on runs. -/
theorem State.foldJob_passed {s : State} {die k n : Nat} {c : Ctx} (hctx : s.ctx k n = c) (job : FoldJob) (reads : List (Nat × Nat)) :
    let t := (s.foldJob die k n c job).consume die job.task reads
    (∃ rs, s.Passed die k rs (s.foldStage die k c job) t) ∧
      (job.last = true → (s.core k).todo.find? (fun x => x.2.ctx == n) = none → (t.ctx k n).st = .done) ∧ (job.last = false → (t.ctx k n).st = c.st) := by
  obtain ⟨rs, u, hu, hjob⟩ := s.foldRows_passing die k n c job
  have hkeep (v : State) : (v.consume die job.task reads).ctx = v.ctx := by
    obtain ⟨ds, ctr, hv⟩ := v.consume_withDies die job.task reads
    rw [hv]
    rfl
  intro t
  cases hlast : job.last with
  | true =>
    obtain ⟨hpass, hdone⟩ := hu.finishCtx n
    have ht : t = (u.finishCtx k n).consume die job.task reads := 
      congrArg (·.consume die job.task reads) (hjob.trans (if_pos hlast))
    rw [ht, hkeep]
    exact ⟨⟨rs, hpass.consume job.task reads⟩, fun _ => hdone, fun h => absurd h (by decide)⟩
  | false =>
    have hnote := hu.noteFold n job
    have ht : t = (u.noteFold k n job).consume die job.task reads := 
      congrArg (·.consume die job.task reads) (hjob.trans (if_neg (by rw [hlast]; decide)))
    rw [ht, hkeep]
    exact ⟨⟨rs, (hnote.consume job.task reads).toPassed⟩, fun h => absurd h (by decide), fun _ => (hnote.ctx_st n).trans (congrArg Ctx.st hctx)⟩

/-! #### The command -/

theorem State.vecCtx_some {s : State} {k task n : Nat} {fns : List Nat} {c : Ctx} (h : s.vecCtx k task fns = some (n, c)) : s.ctx k n = c ∧ c.st = .running := by
  unfold State.vecCtx at h
  split at h
  · rename_i m x hrun
    split at h
    · rename_i hx
      cases h
      exact ⟨State.ctx_of_running hrun, hx.2.2.1⟩
    · cases h
  · cases h

/-- The bytes that a fold reads: a query block that has not converted yet, and the block. -/
def State.foldReads (s : State) (c : Ctx) (job : FoldJob) : List (Nat × Nat) :=
  (if c.converted job.q (job.qpos.length * s.group) = none then [(job.q, 4 * s.headDim * (job.qpos.length * s.group))] else []) ++ s.blockRanges job.block

theorem exec_blockFold {s : State} {die core n : Nat} {c : Ctx} {job : FoldJob} (hc : s.hasCore die core = true) (hw : s.working = true)
    (hv : s.vecCtx (coreNo die core) job.task [1] = some (n, c)) (hok : s.foldOk die c job = true) (hr : s.rangesWait die c (s.foldReads c job) = false)
    (hm : s.mayWrite die (job.state, (32 + 4 * s.headDim) * (job.qpos.length * s.group)) = true) : exec (.blockFold die core job) s =
      .next (if scalesBad job then s.faultCtx (coreNo die core) n 0x106
        else (s.foldJob die (coreNo die core) n c job).consume die job.task (s.foldReads c job)) := by
  have hreads : (if (c.converted job.q (job.qpos.length * s.group)).isSome then [] else [(job.q, 4 * s.headDim * (job.qpos.length * s.group))]) ++ s.blockRanges job.block =
      s.foldReads c job := by
    unfold State.foldReads
    cases c.converted job.q (job.qpos.length * s.group) <;> rfl
  change execBlockFold die core job s = _
  rw [execBlockFold, State.onCore_pos hc]
  dsimp only
  rw [hv]
  dsimp only
  rw [hreads]
  exact when_pos (by rw [hw, hok, hr, hm]; rfl)

/-- Settles O42: a bad scale fails the task, and any other block folds into the records in place. -/
theorem blocksFold : Obligations.BlocksFold := by
  intro s die core n c job hc hw k d rows qb reads hv hok hr hm
  obtain ⟨hctx, hst⟩ := State.vecCtx_some hv
  have hexec := exec_blockFold hc hw hv hok hr hm
  refine ⟨fun hbad => ?_, fun hbad => ?_⟩
  · rw [if_pos hbad] at hexec
    obtain ⟨hframe, hcleared, hfail, hdies, -, -⟩ := s.failed_countFault k n 0x106 (4 * (s.countFault k n 0x106).cores.length) [((s.countFault k n 0x106).ctx k n).task]
    rw [hctx] at hcleared hfail
    exact ⟨_, hexec, hframe, hcleared, hfail, hdies⟩
  · rw [hbad, if_neg Bool.false_ne_true] at hexec
    obtain ⟨⟨rs, hpass⟩, hdone, hruns⟩ := State.foldJob_passed (die := die) (k := coreNo die core) hctx job (s.foldReads c job)
    obtain ⟨hout, hin⟩ := s.foldStage_effect die k c job
    refine ⟨_, hexec, hpass.frame_own, hpass.other, hdone, fun hl => (hruns hl).trans hst, fun a ha => ?_, fun r hrow => ?_⟩
    · exact (congrArg (Mem.read · a) hpass.stage).trans (hout a ha)
    · exact (congrArg (Mem.bytes · _ _) hpass.stage).trans (hin r hrow)

end Sys2Proof.Machine

end

/-! ### What a core's computing and asking leave -/

section

namespace Sys2Proof.Machine

/-- A stand written reads back. -/
theorem State.stand_setStand (s : State) (n m : Nat) (x : Stand) : (s.setStand n x).stand m = if m = n then x else s.stand m := Sparse.get_set _ _ _ _ _

/-- A core with another operand buffer. -/
def State.setBuf (s : State) (k : Nat) (m : Mem) : State := s.setCore k { s.core k with buf := m }

theorem State.setBuf_buf (s : State) (k : Nat) (m : Mem) : ((s.setBuf k m).core k).buf = m := by rw [State.setBuf, State.core_setCore, if_pos rfl]

theorem State.core_setBuf_ne (s : State) (k : Nat) (m : Mem) {j : Nat} (h : j ≠ k) : (s.setBuf k m).core j = s.core j := s.core_setCore_ne k j _ h

/-- No blaze clears, and a port that is free stays free. -/
structure State.Quiet (s t : State) : Prop where
  cleared : t.fore.cleared = s.fore.cleared
  free    : ∀ n, (s.stand n).granted = none → (t.stand n).granted = none

theorem State.Quiet.trans {s t u : State} (h1 : s.Quiet t) (h2 : t.Quiet u) : s.Quiet u where
  cleared := h2.cleared.trans h1.cleared
  free n hn := h2.free n (h1.free n hn)

theorem State.quiet_refl (s : State) : s.Quiet s := ⟨rfl, fun _ hn => hn⟩

theorem State.quiet_setCore (s : State) (k : Nat) (x : Core) : s.Quiet (s.setCore k x) := ⟨rfl, fun _ hn => hn⟩

theorem State.quiet_setCtx (s : State) (k n : Nat) (x : Ctx) : s.Quiet (s.setCtx k n x) := s.quiet_setCore k _

theorem State.quiet_addWork (s : State) (k n slots : Nat) : s.Quiet (s.addWork k n slots) := (s.quiet_setCtx k n _).trans (State.quiet_setCore _ k _)

theorem State.flags.quiet {s t : State} (h : s.flags t) : s.Quiet t := by
  obtain ⟨fl, c, rfl⟩ := h
  exact ⟨rfl, fun _ hn => hn⟩

theorem State.quiet_setStand (s : State) (m : Nat) (x : Stand) (hx : (s.stand m).granted = none → x.granted = none) : s.Quiet (s.setStand m x) where
  cleared := rfl
  free n hn := by
    rw [State.stand_setStand]
    split
    · subst_vars
      exact hx hn
    · exact hn

theorem State.quiet_askLoads (s : State) (k n : Nat) : s.Quiet (s.askLoads k n) := s.quiet_setStand _ _ id

theorem State.quiet_promoteAsks (s : State) (k : Nat) : s.Quiet (s.promoteAsks k) := s.quiet_setStand _ _ fun h => congrArg (Option.map _) h

theorem State.quiet_tryCompute (s : State) (k : Nat) : s.Quiet (s.tryCompute k) := by
  unfold State.tryCompute
  dsimp only
  split
  · exact s.quiet_refl
  · split
    · exact s.quiet_refl
    · refine State.Quiet.trans ?_ (State.quiet_askLoads _ _ _)
      refine State.Quiet.trans ?_ (((State.count_flags _ _ _ _ _).trans (State.count_flags _ _ _ _ _)).trans (State.count_flags _ _ _ _ _)).quiet
      refine State.Quiet.trans ?_ (State.quiet_addWork _ _ _ _)
      refine State.Quiet.trans ?_ (State.raiseAll_flags _ _ _ _).quiet
      exact ((s.quiet_setCore k _).trans (State.quiet_setCtx _ _ _ _)).trans (State.quiet_promoteAsks _ _)

/-- Cores among `ks` work on with the operands they hold: no buffer changes, no blaze clears and no free port is taken. -/
structure State.Advances (ks : List Nat) (s t : State) : Prop where
  frame : t = { s with cores := t.cores, stands := t.stands, fore := { s.fore with flags := t.fore.flags }, ctr := t.ctr }
  other : ∀ j, j ∉ ks → t.core j = s.core j
  buf   : ∀ j, (t.core j).buf = (s.core j).buf
  free  : ∀ n, (s.stand n).granted = none → (t.stand n).granted = none

theorem State.Advances.trans {ks : List Nat} {s t u : State} (h1 : s.Advances ks t) (h2 : t.Advances ks u) : s.Advances ks u where
  frame := by rw [h2.frame, h1.frame]
  other j hj := (h2.other j hj).trans (h1.other j hj)
  buf j := (h2.buf j).trans (h1.buf j)
  free n hn := h2.free n (h1.free n hn)

section

variable {k : Nat} {ks : List Nat} (hk : k ∈ ks)
include hk

theorem State.CoreWork.advances {s t : State} (h : s.CoreWork k t) (hq : s.Quiet t) : s.Advances ks t where
  frame := by
    have hframe := h.frame
    rw [hq.cleared] at hframe
    exact hframe
  other j hj := h.other j fun he => hj (he ▸ hk)
  buf j := by
    by_cases he : j = k
    · rw [he, h.buf]
    · rw [h.other j he]
  free := hq.free

theorem State.advances_setCtx (s : State) (n : Nat) (x : Ctx) : s.Advances ks (s.setCtx k n x) :=
  (s.turns_setCtx k n x).work.advances hk (s.quiet_setCtx k n x)

theorem State.flags.advances {s t : State} (h : s.flags t) : s.Advances ks t := (h.work k).advances hk h.quiet

theorem State.advances_askLoads (s : State) (n : Nat) : s.Advances ks (s.askLoads k n) := (s.turns_askLoads k n).work.advances hk (s.quiet_askLoads k n)

theorem State.advances_compute (s : State) : s.Advances ks (s.compute k) :=
  (s.coreWork_compute k).advances hk ((s.quiet_tryCompute k).trans (State.quiet_tryCompute _ k))

end

end Sys2Proof.Machine

end

/-! ### Stand-port grants and tile loads -/

section

namespace Sys2Proof.Machine

theorem hasDie_and_stand_lt {s : State} {die st : Nat} (hd : s.hasDie die = true) (hst : st < 16) : (s.hasDie die && decide (st < 16)) = true := by
  rw [hd, decide_eq_true hst]
  rfl

theorem exec_standPortGrant {s : State} {die st : Nat} {r : PortReq} (hd : s.hasDie die = true) (hst : st < 16) (hw : s.working = true)
    (hg : (s.stand (standNo die st)).granted = none) (hq : (s.stand (standNo die st)).queue.find? s.grantable = some r) : exec (.standPortGrant die st) s =
      .next ((s.setStand (standNo die st) { s.stand (standNo die st) with granted := some r, queue := (s.stand (standNo die st)).queue.erase r }).count die 6 (st * 32 + 17)) := by
  change execStandPortGrant die st s = _
  rw [execStandPortGrant, needPart_pos (hasDie_and_stand_lt hd hst)]
  dsimp only
  rw [hq]
  exact when_pos (by rw [hw, hg]; rfl)

/-- The stand's port is free again. -/
def State.freePort (s : State) (n : Nat) : State := s.setStand n { s.stand n with granted := none }

theorem exec_tileLoadComplete {s : State} {die st : Nat} {r : PortReq} (hd : s.hasDie die = true) (hst : st < 16) (hw : s.working = true)
    (hg : (s.stand (standNo die st)).granted = some r) : exec (.tileLoadComplete die st) s =
      .next (if s.loadStands r then ((((s.freePort (standNo die st)).loadOperand r).consume die r.task
        ((s.ctx r.core r.ctx).askRanges r.isA r.next (r.core % 8))).askLoads r.core r.ctx).compute r.core else s.freePort (standNo die st)) := by
  have hstands : (s.setStand (standNo die st) { s.stand (standNo die st) with granted := none }).loadStands r = s.loadStands r := rfl
  change execTileLoadComplete die st s = _
  rw [execTileLoadComplete, needPart_pos (hasDie_and_stand_lt hd hst)]
  dsimp only
  rw [hg]
  dsimp only
  rw [when_pos hw, hstands]
  cases s.loadStands r <;> rfl

/-- An operand buffer once a granted load has filled its half of its operand's region. -/
def State.loadedBuf (s : State) (r : PortReq) : Mem :=
  let c := s.ctx r.core r.ctx
  Mem.write (s.core r.core).buf (halfBase c.desc r.isA (c.loadHalf r.isA r.next)) ((c.loading r.next).loadImage (s.die (r.core / 128)).stage r.isA (r.core % 8))

/-- Past the buffer that it fills, a load notes itself in its context and counts. -/
theorem State.advances_loadOperand (s : State) (r : PortReq) :
    (s.setBuf r.core (s.loadedBuf r)).Advances [r.core] (s.loadOperand r) := by
  have hk : r.core ∈ [r.core] := List.mem_singleton_self _
  unfold State.loadOperand
  extract_lets c die pos bs k s1 h s2 s3 s4
  have h2 : s1.Advances [r.core] s2 := s1.advances_setCtx hk r.ctx _
  have h3 : s2.flags s3 := by
    simp only [s3]
    split
    · exact s2.count_flags _ _ _ _
    · exact s2.flags_refl
  have h4 : s3.flags s4 := (s3.count_flags _ _ _ _).trans (State.count_flags _ _ _ _ _)
  have h5 : s4.flags (if isRes c.desc r.isA then s4.ctxCount r.core r.ctx 31 4 else s4) := by
    split
    · exact (s4.count_flags _ _ _ _).trans (State.count_flags _ _ _ _ _)
    · exact s4.flags_refl
  exact h2.trans (((h3.trans h4).trans h5).advances hk)

/-- Streams that a load has consumed keep stage memory. -/
theorem State.consume_stage (s : State) (die task : Nat) (rs : List (Nat × Nat)) (d : Nat) : ((s.consume die task rs).die d).stage = (s.die d).stage := by
  obtain ⟨x, c, hconsume, hx⟩ := s.consume_eq die task rs
  rw [hconsume]
  change ((s.setDie die x).die d).stage = _
  rw [State.die_setDie]
  split
  · subst_vars
    exact hx
  · rfl

/-- A load completed: its core holds the filled buffer, ports that were free stay free, and stage memory and the other cores keep what they have. -/
theorem State.loadOperand_effect (s : State) (r : PortReq) (die : Nat) (reads : List (Nat × Nat)) :
    let t := (((s.loadOperand r).consume die r.task reads).askLoads r.core r.ctx).compute r.core
    t = { s with cores := t.cores, stands := t.stands, dies := t.dies, fore := { s.fore with flags := t.fore.flags }, ctr := t.ctr } ∧
      (∀ n, (s.stand n).granted = none → (t.stand n).granted = none) ∧ (∀ d, (t.die d).stage = (s.die d).stage) ∧ (∀ j, j ≠ r.core → t.core j = s.core j) ∧
      (t.core r.core).buf = s.loadedBuf r := by
  have hk : r.core ∈ [r.core] := List.mem_singleton_self _
  have hload := s.advances_loadOperand r
  obtain ⟨ds, c, hconsume⟩ := (s.loadOperand r).consume_withDies die r.task reads
  have hstage := (s.loadOperand r).consume_stage die r.task reads
  have hnext := (((s.loadOperand r).consume die r.task reads).advances_askLoads hk r.ctx).trans (State.advances_compute hk _)
  intro t
  change State.Advances _ _ t at hnext
  generalize (s.loadOperand r).consume die r.task reads = v at hconsume hstage hnext
  have hvcore : v.core = (s.loadOperand r).core := by rw [hconsume]; rfl
  have hvstand : v.stand = (s.loadOperand r).stand := by rw [hconsume]; rfl
  refine ⟨?_, fun n hn => ?_, fun d => ?_, fun j hj => ?_, ?_⟩
  · rw [hnext.frame, hconsume, hload.frame]
    rfl
  · refine hnext.free n ?_
    rw [hvstand]
    exact hload.free n hn
  · have hdie : t.die d = v.die d := by rw [hnext.frame]; rfl
    rw [hdie, hstage, hload.frame]
    rfl
  · have hj' : j ∉ [r.core] := by simpa using hj
    rw [hnext.other j hj', hvcore, hload.other j hj', State.core_setBuf_ne _ _ _ hj]
  · rw [hnext.buf, hvcore, hload.buf, State.setBuf_buf]

theorem tileLoads : TileLoads := by
  refine ⟨fun s die st r hd hst hw hg hq => ⟨_, exec_standPortGrant hd hst hw hg hq, rfl, fun n hn => ?_, ?_⟩, ?_⟩
  · exact (s.stand_setStand _ n _).trans (if_neg hn)
  · exact (s.stand_setStand _ _ _).trans (if_pos rfl)
  intro s die st r hd hst hw hg c
  have hexec := exec_tileLoadComplete hd hst hw hg
  refine ⟨fun hstands => ?_, fun hgone => ?_⟩
  · rw [hstands, if_pos rfl] at hexec
    obtain ⟨hframe, hfree, hstage, hcores, hbuf⟩ := (s.freePort (standNo die st)).loadOperand_effect r die (c.askRanges r.isA r.next (r.core % 8))
    have hport : ((s.freePort (standNo die st)).stand (standNo die st)).granted = none := by
      rw [State.freePort, State.stand_setStand, if_pos rfl]
    exact ⟨_, hexec, hframe, hfree _ hport, hstage, hcores, hbuf⟩
  · rw [hgone, if_neg Bool.false_ne_true] at hexec
    exact hexec

end Sys2Proof.Machine

end

/-! ### Halo copies -/

section

namespace Sys2Proof.Machine

/-- The core next to core `k` from which a tile of halo shift `h` takes rows. -/
def haloNeighbour (k : Nat) (h : Int) : Nat := if 0 < h then k + 1 else k - 1

theorem haloNeighbour_ne {die core : Nat} {h : Int} (hin : (0 < h ∧ core % 8 < 7) ∨ (h < 0 ∧ 0 < core % 8)) :
    haloNeighbour (coreNo die core) h ≠ coreNo die core := by
  unfold haloNeighbour coreNo
  split <;> omega

/-- The operand buffer of a core that has copied the rows of `x` outside its tile: elements, then block exponents. -/
def Ctx.haloBuf (c x : Ctx) (own oth : Mem) : Mem :=
  let h := dHalo c.desc
  let rows := aRows c.desc
  let w := elemBytes (dFmtA c.desc) (dKT c.desc)
  let e := if blkLen (dBlkA c.desc) = 0 then 0 else dKT c.desc / blkLen (dBlkA c.desc)
  let dst := if 0 < h then dMT c.desc else 0
  let src := if 0 < h then 0 else dMT c.desc
  copyBytes (copyBytes own (c.tileAt true + dst * w) oth (x.tileAt true + src * w) (h.natAbs * w))
    (c.tileAt true + rows * w + dst * e) oth (x.tileAt true + rows * w + src * e) (h.natAbs * e)

/-- Core `k` with its neighbour's rows copied; both cores then compute as far as they can. -/
def State.haloCopied (s : State) (k n m : Nat) (c x : Ctx) : State :=
  let nb := haloNeighbour k (dHalo c.desc)
  let u := s.setBuf k (c.haloBuf x (s.core k).buf (s.core nb).buf)
  let u := ((u.setCtx k n { c with haloGot := true }).setCtx nb m { x with haloGave := true }).coreCount k 23 (dHalo c.desc).natAbs
  (u.compute (min k nb)).compute (max k nb)

/-- A context that runs and holds its tile of operand A. -/
def Ctx.HoldsA (c : Ctx) : Prop := c.st = .running ∧ c.haveA = true ∧ c.ended = false

/-- Two contexts at the same place of the same task. -/
def Ctx.SamePlace (x c : Ctx) : Prop := x.task = c.task ∧ x.idx = c.idx ∧ x.prob = c.prob

theorem exec_haloCopy {s : State} {die core n m : Nat} {c x : Ctx} (hc : s.hasCore die core = true) (hw : s.working = true)
    (hrun : s.runningCtx (coreNo die core) = some (n, c)) (hnb : s.runningCtx (haloNeighbour (coreNo die core) (dHalo c.desc)) = some (m, x))
    (hin : (0 < dHalo c.desc ∧ core % 8 < 7) ∨ (dHalo c.desc < 0 ∧ 0 < core % 8)) (hgot : c.haloGot = false) (hown : c.HoldsA) (hoth : x.HoldsA)
    (hplace : x.SamePlace c) : exec (.haloCopy die core) s = .next (s.haloCopied (coreNo die core) n m c x) := by
  obtain ⟨hst, ha, he⟩ := hown
  obtain ⟨hst', ha', he'⟩ := hoth
  obtain ⟨htask, hidx, hprob⟩ := hplace
  have hinner : ((decide (0 < dHalo c.desc) && decide (core % 8 < 7)) || (decide (dHalo c.desc < 0) && decide (0 < core % 8))) = true := by
    simpa using hin
  unfold haloNeighbour at hnb
  change execHaloCopy die core s = _
  rw [execHaloCopy, State.onCore_pos hc]
  dsimp only
  rw [hrun]
  dsimp only
  rw [hnb]
  exact when_pos (by simp [hw, hinner, hst, ha, hgot, he, hst', ha', he', htask, hidx, hprob])

/-- Past the copy itself, the two cores of a halo copy work on with the buffers they hold. -/
theorem State.advances_haloCopied (s : State) (k n m : Nat) (c x : Ctx) :
    (s.setBuf k (c.haloBuf x (s.core k).buf (s.core (haloNeighbour k (dHalo c.desc))).buf)).Advances
      [k, haloNeighbour k (dHalo c.desc)] (s.haloCopied k n m c x) := by
  unfold State.haloCopied
  extract_lets nb u v
  have hk : k ∈ [k, nb] := List.mem_pair.mpr (.inl rfl)
  have hnb : nb ∈ [k, nb] := List.mem_pair.mpr (.inr rfl)
  have hmin : min k nb ∈ [k, nb] := List.mem_pair.mpr (min_choice k nb)
  have hmax : max k nb ∈ [k, nb] := List.mem_pair.mpr (max_choice k nb)
  have hnote : u.Advances [k, nb] v :=
    ((u.advances_setCtx hk n _).trans (State.advances_setCtx hnb _ m _)).trans ((State.count_flags _ _ _ _ _).advances hk)
  exact hnote.trans ((State.advances_compute hmin _).trans (State.advances_compute hmax _))

theorem haloCopies : HaloCopies := by
  intro s die core n m c x hc hw k h nb rows w e dst src to' from' hrun hnb hin hst ha hgot he hst' ha' he' htask hidx hprob
  have hexec := exec_haloCopy hc hw hrun hnb hin hgot ⟨hst, ha, he⟩ ⟨hst', ha', he'⟩ ⟨htask, hidx, hprob⟩
  have hne : nb ≠ k := haloNeighbour_ne hin
  have hcopy := s.advances_haloCopied k n m c x
  refine ⟨_, hexec, ?_, ?_, ?_, fun j hj hj' => ?_⟩
  · rw [hcopy.frame]
    rfl
  · rw [hcopy.buf, State.setBuf_buf]
    rfl
  · rw [hcopy.buf, State.core_setBuf_ne _ _ _ hne]
  · rw [hcopy.other j (mt List.mem_pair.mp (not_or.mpr ⟨hj, hj'⟩)), State.core_setBuf_ne _ _ _ hj]

/-- Settles O38: a grant moves one request from the queue to its port, and a load or a halo copy writes one core's buffer, which the computing that follows keeps.
That the port passes over requests whose bytes are not present is the model's choice (log 17). -/
theorem operandLoads : Obligations.OperandLoads := ⟨tileLoads, haloCopies⟩

end Sys2Proof.Machine

end

/-! ### Completion messages and function table fills -/

section

namespace Sys2Proof.Machine

/-- The records of the functions that a core wants, from its die's store, as a bank that no commit has made current yet (R227). -/
def State.wantedBank (s : State) (die k : Nat) : Bank :=
  { valid := false, gen := 0, progs := (s.core k).want.filterMap fun id => recordAt (s.die die).stage (s.storeSlot die id) }

/-- A core with its idle bank filled. -/
def Core.fillIdle (c : Core) (b : Bank) : Core := if c.curBank then { c with bank0 := b, filled := true } else { c with bank1 := b, filled := true }

theorem Core.fillIdle_filled (c : Core) (b : Bank) : (c.fillIdle b).filled = true := by unfold Core.fillIdle; split <;> rfl

/-- A fill keeps the current bank: the core goes on with its functions while the other bank fills. -/
theorem Core.fillIdle_bank (c : Core) (b : Bank) : (c.fillIdle b).bank = c.bank := by
  cases h : c.curBank <;> simp [Core.fillIdle, Core.bank, h]

theorem Core.fillIdle_idle (c : Core) (b : Bank) : (if c.curBank then (c.fillIdle b).bank0 else (c.fillIdle b).bank1) = b := by
  cases h : c.curBank <;> simp [Core.fillIdle, h]

/-- The condition of a fill (R226, R227, R229). -/
def State.mayFill (s : State) (k : Nat) : Bool :=
  s.ticking && !(s.stand (k / 8)).asleep && (s.core k).needsFill && !(s.core k).filled && s.setFits (s.core k).want

/-- What a fill leaves: the idle bank filled, and the fill and the records it loads counted. -/
def State.tableFilled (s : State) (die k : Nat) : State :=
  (s.core k).want.foldl (fun (t : State) id => t.count die 8 (s.storeSlot die id * 4 + 2))
    ((s.setCore k ((s.core k).fillIdle (s.wantedBank die k))).coreCount k 26)

theorem exec_functionTableFill {s : State} {die core : Nat} (hc : s.hasCore die core = true) : exec (.functionTableFill die core) s =
    when (s.mayFill (coreNo die core)) s (s.tableFilled die (coreNo die core)) := State.onCore_pos hc

theorem State.mayFill_eq_false {s : State} {k : Nat} (h : (s.stand (k / 8)).asleep = true ∨ s.setFits (s.core k).want = false) : s.mayFill k = false := by
  rcases h with h | h <;> simp [State.mayFill, h]

/-- Past the idle bank, a fill only counts. -/
theorem State.counts_tableFilled (s : State) (die k : Nat) :
    (s.setCore k ((s.core k).fillIdle (s.wantedBank die k))).counts (s.tableFilled die k) :=
  (State.counts_count _ _ _ _ _).trans (State.counts_foldl _ (fun t _ => t.counts_count _ _ _ _) _ _)

theorem State.tableFilled_frame (s : State) (die k : Nat) :
    s.tableFilled die k = { s with cores := (s.tableFilled die k).cores, ctr := (s.tableFilled die k).ctr } := by
  obtain ⟨c, hc⟩ := s.counts_tableFilled die k
  rw [hc]
  rfl

theorem State.core_tableFilled (s : State) (die k j : Nat) :
    (s.tableFilled die k).core j = if j = k then (s.core k).fillIdle (s.wantedBank die k) else s.core j := by
  obtain ⟨c, hc⟩ := s.counts_tableFilled die k
  rw [hc]
  exact s.core_setCore k j _

theorem exec_completionMessage {s : State} (hw : s.working = true) (task : Nat) :
    exec (.completionMessage task) s = .next { s with fore := { s.fore with cleared := s.fore.cleared ++ [task] } } := when_pos hw

/-- Settles O40: the message ends its task, and a fill writes the idle bank of one core and otherwise only counts. -/
theorem messagesAndTables : Obligations.MessagesAndTables := by
  refine ⟨fun s task hw => exec_completionMessage hw task, fun s die core hc ht => ?_⟩
  intro k c
  have hexec := exec_functionTableFill hc
  refine ⟨fun h => hexec.trans (when_neg (State.mayFill_eq_false h)), fun hneed hfill hsleep hfits => ?_⟩
  have hmay : s.mayFill k = true := by
    rw [State.mayFill, ht, hsleep, hneed, hfill, hfits]
    rfl
  have hcore : (s.tableFilled die k).core k = c.fillIdle (s.wantedBank die k) := (s.core_tableFilled die k k).trans (if_pos rfl)
  refine ⟨_, hexec.trans (when_pos hmay), s.tableFilled_frame die k, fun j hj => (s.core_tableFilled die k j).trans (if_neg hj), ?_, ?_, ?_⟩
  · exact (congrArg Core.bank hcore).trans (c.fillIdle_bank _)
  · exact (congrArg Core.filled hcore).trans (c.fillIdle_filled _)
  · rw [hcore]
    exact c.fillIdle_idle _

end Sys2Proof.Machine

end

/-! ### Walk requests -/

section

namespace Sys2Proof.Machine

/-- The two states differ at most in the dies, the sequences, the Landing's slots, the fail records, the frame tables and the counters. -/
def State.walkTouches (s t : State) : Prop := ∃ ds qs c sl fs hf ff,
  t = { s with dies := ds, seqs := qs, ctr := c, land := { s.land with slots := sl }, tick := { s.tick with fails := fs }, hbm := { s.hbm with ftab := hf }, flash := { s.flash with ftab := ff } }

theorem State.walkTouches.trans {s t u : State} (h1 : s.walkTouches t) (h2 : t.walkTouches u) : s.walkTouches u := by
  obtain ⟨_, _, _, _, _, _, _, rfl⟩ := h1
  obtain ⟨ds, qs, c, sl, fs, hf, ff, rfl⟩ := h2
  exact ⟨ds, qs, c, sl, fs, hf, ff, rfl⟩

/-- What the walk of `n` pages for a context leaves: besides the walk's own stream, the context's items and the parts placed, the dies stay, and live sequences live on. -/
structure State.Walked (s : State) (die ctx stream n : Nat) (t : State) : Prop where
  touches : s.walkTouches t
  live : ∀ h, (s.seq h).isSome = true → (t.seq h).isSome = true
  others : ∀ d, d ≠ die → t.die d = s.die d
  stage : (t.die die).stage = (s.die die).stage
  streams : ∀ m, m ≠ stream → Sparse.get {} (t.die die).streams m = Sparse.get {} (s.die die).streams m
  length : (Sparse.get [] (t.die die).walks ctx).length = (Sparse.get [] (s.die die).walks ctx).length + n

section

variable {die ctx stream m n : Nat}

theorem State.Walked.trans {s t u : State} (h1 : s.Walked die ctx stream m t) (h2 : t.Walked die ctx stream n u) : s.Walked die ctx stream (m + n) u where
  touches := h1.touches.trans h2.touches
  live h hs := h2.live h (h1.live h hs)
  others d hd := (h2.others d hd).trans (h1.others d hd)
  stage := h2.stage.trans h1.stage
  streams k hk := (h2.streams k hk).trans (h1.streams k hk)
  length := by rw [h2.length, h1.length, Nat.add_assoc]

/-- A change that leaves the dies walks no page. -/
theorem State.walked_of_dies {s t : State} (ht : s.walkTouches t) (hl : ∀ h, (s.seq h).isSome = true → (t.seq h).isSome = true) (hd : t.dies = s.dies) :
    s.Walked die ctx stream 0 t := by
  have hdie : ∀ d, t.die d = s.die d := fun d => by rw [State.die, State.die, hd]
  exact ⟨ht, hl, fun d _ => hdie d, by rw [hdie], fun k _ => by rw [hdie], by rw [hdie]; rfl⟩

theorem State.counts.walked {s t : State} (h : s.counts t) : s.Walked die ctx stream 0 t := by
  obtain ⟨c, rfl⟩ := h
  exact State.walked_of_dies ⟨s.dies, s.seqs, c, s.land.slots, s.tick.fails, s.hbm.ftab, s.flash.ftab, rfl⟩ (fun _ hs => hs) rfl

theorem State.walked_updSeq (s : State) (h : W32) (f : Seq → Seq) (hf : ∀ q, (f q).handle = q.handle ∧ (f q).closing = q.closing) :
    s.Walked die ctx stream 0 (s.updSeq h f) := by
  refine State.walked_of_dies ⟨s.dies, _, s.ctr, s.land.slots, s.tick.fails, s.hbm.ftab, s.flash.ftab, rfl⟩ (fun k hs => ?_) rfl
  obtain ⟨q, hq⟩ := Option.isSome_iff_exists.mp hs
  rw [s.seq_updSeq h k f hf hq]
  rfl

theorem State.walked_loseOne (s : State) (h : W32) (v : Nat) : s.Walked die ctx stream 0 (s.loseOne h v) := by
  obtain ⟨qs, fs, hlose⟩ := s.loseOne_loses h v
  refine State.walked_of_dies (by rw [hlose]; exact ⟨s.dies, qs, s.ctr, s.land.slots, fs, s.hbm.ftab, s.flash.ftab, rfl⟩) (fun k hs => ?_) (by rw [hlose]; rfl)
  obtain ⟨q, hq⟩ := Option.isSome_iff_exists.mp hs
  obtain ⟨u, hu, -⟩ := s.seq_loseOne h k v hq
  rw [hu]
  rfl

theorem State.walked_setSlot (s : State) (k : Nat) (x : Slot) : s.Walked die ctx stream 0 (s.setSlot k x) :=
  State.walked_of_dies ⟨s.dies, s.seqs, s.ctr, _, s.tick.fails, s.hbm.ftab, s.flash.ftab, rfl⟩ (fun _ hs => hs) rfl

theorem State.walked_tickPin (s : State) (r : Bool × Nat) : s.Walked die ctx stream 0 (s.tickPin r) := by
  obtain ⟨hbm, f⟩ := r
  cases hbm with
  | true => exact State.walked_of_dies ⟨s.dies, s.seqs, s.ctr, s.land.slots, s.tick.fails, _, s.flash.ftab, rfl⟩ (fun _ hs => hs) rfl
  | false => exact State.walked_of_dies ⟨s.dies, s.seqs, s.ctr, s.land.slots, s.tick.fails, s.hbm.ftab, _, rfl⟩ (fun _ hs => hs) rfl

theorem State.walked_foldl {α : Type} (f : State → α → State) (hf : ∀ (s : State) x, s.Walked die ctx stream 0 (f s x)) (l : List α) (s : State) :
    s.Walked die ctx stream 0 (l.foldl f s) :=
  List.foldlRecOn l f (motive := s.Walked die ctx stream 0) s.counts_refl.walked fun _ h x _ => h.trans (hf _ x)

/-- Corrupt slots are dropped before the walk, and none of its pages is resolved yet (R306). -/
theorem State.walked_checkSlots (s : State) : s.Walked die ctx stream 0 s.checkSlots := by
  refine State.walked_foldl State.dropCorrupt (fun s k => ?_) _ s
  have hpartners := State.walked_foldl (die := die) (ctx := ctx) (stream := stream)
    (fun (u : State) i => u.setSlot ((s.slot k).partner + k / 480 * 480 + i) {}) (fun u i => u.walked_setSlot _ _) (List.range (s.slot k).partners) s
  have hfree : s.Walked die ctx stream 0 (s.freeSlots k) := hpartners.trans (State.walked_setSlot _ _ _)
  exact (hfree.trans (State.counts_count _ _ _ _ _).walked).trans (State.walked_loseOne _ _ _)

end

/-! #### One page -/

/-- What a page found does to its frame or its sequence: a frame is pinned for the tick, a page that cannot be had is lost. -/
def State.takeItem (s : State) (h : W32) : WalkItem → State
  | .hbm _ f => s.tickPin (true, f)
  | .flash _ f => s.tickPin (false, f)
  | .lost v => s.loseOne h v
  | .hole _ | .tailSlot _ _ => s

/-- A page taken, with the events of its item counted for the walk context and the lot. -/
def State.noteItem (s : State) (die ctx : Nat) (q : Seq) : WalkItem → State
  | .hbm _ f =>
    let s := ((s.count die 5 (ctx * 16 + 1)).lotCount die q.lot 12).tickPin (true, f)
    let s := s.count die 5 (ctx * 16 + 6)
    let s := if frameDie f = die then s else s.count die 5 (ctx * 16 + 7)
    if 1 < (s.hbmEnt f).refcount then s.count die 5 (ctx * 16 + 11) else s
  | .flash _ f => (((s.count die 5 (ctx * 16 + 2)).lotCount die q.lot 13).count die 5 (ctx * 16 + 6)).tickPin (false, f)
  | .hole _ => (s.count die 5 (ctx * 16 + 3)).lotCount die q.lot 14
  | .tailSlot _ _ => s.count die 5 (ctx * 16 + 5)
  | .lost v => (if s.pathLost q v || s.leafCorrupt (q.entry v) then s.count die 5 (ctx * 16 + 4) else s).loseOne q.handle v

/-- The events of the parts that a walk asks for. -/
def State.noteParts (s : State) (die ctx : Nat) (w : WalkAsk) : State :=
  let s := if w.parts.sketch then s.count die 5 (ctx * 16 + 13) else s
  if w.parts.keyExp || w.parts.valExp then s.count die 5 (ctx * 16 + 14) else s

/-- A page taken and its events counted, up to what it puts in the stream. -/
def State.notePage (s : State) (die ctx : Nat) (q : Seq) (w : WalkAsk) (x : WalkItem) : State := (s.noteItem die ctx q x).noteParts die ctx w

/-- A page enters the walk: its fetch entries go to the stream, its item to the context, and its parts are placed. -/
def State.feedPage (s : State) (die ctx stream : Nat) (h : W32) (w : WalkAsk) (v dst : Nat) (r : WalkItem × List StreamItem) (rows : List StreamItem) : State :=
  let d := s.die die
  let x := Sparse.get {} d.streams stream
  s.setDie die { d with
    streams := Sparse.set {} d.streams stream { x with items := x.items ++ (r.2 ++ rows).map fun i => ({ item := i } : StreamSlot) }
    walks := Sparse.set [] d.walks ctx (Sparse.get [] d.walks ctx ++ [r.1])
    placed := if r.2 = [] then d.placed else d.placed ++ (partPlaces w.parts dst).map fun x => (h, v, x.1, x.2) }

/-- The tick in which a sequence's page is read. -/
def State.noteRead (s : State) (h : W32) (v : Nat) : State := s.updSeq h fun x => { x with lastRead := Sparse.set 0 x.lastRead v s.tick.num }

theorem State.walkPage_eq (s : State) (die ctx stream : Nat) (q : Seq) (w : WalkAsk) (v dst staged : Nat) :
    s.walkPage die ctx stream q w v dst staged =
      ((s.notePage die ctx q w (s.resolvePage die q v w dst).1).feedPage die ctx stream q.handle w v dst (s.resolvePage die q v w dst)
        (s.tailStaging die w (s.resolvePage die q v w dst).1 staged)).noteRead q.handle v := rfl

theorem State.tickPin_withCtr (s : State) (c : Counters) (r : Bool × Nat) : (s.withCtr c).tickPin r = (s.tickPin r).withCtr c := by
  obtain ⟨_ | _, f⟩ := r <;> rfl

theorem State.loseOne_withCtr (s : State) (c : Counters) (h : W32) (v : Nat) : (s.withCtr c).loseOne h v = (s.loseOne h v).withCtr c := by
  have hseq : (s.withCtr c).seq h = s.seq h := rfl
  rw [State.loseOne, State.loseOne, hseq]
  cases s.seq h with
  | none => rfl
  | some q =>
    dsimp only
    split <;> rfl

theorem State.takeItem_withCtr (s : State) (c : Counters) (h : W32) (x : WalkItem) : (s.withCtr c).takeItem h x = (s.takeItem h x).withCtr c := by
  cases x with
  | hbm v f => exact s.tickPin_withCtr c _
  | flash v f => exact s.tickPin_withCtr c _
  | lost v => exact s.loseOne_withCtr c h v
  | hole v => rfl
  | tailSlot v k => rfl

/-- A page taken after some events are counted is taken all the same. -/
theorem State.counts.takeItem {s t : State} (hc : s.counts t) (h : W32) (x : WalkItem) : (s.takeItem h x).counts (t.takeItem h x) := by
  obtain ⟨c, rfl⟩ := hc
  exact ⟨c, s.takeItem_withCtr c h x⟩

/-- An event that may be counted. -/
theorem State.counts_event (s : State) (p : Prop) [Decidable p] (dom cls index : Nat) : s.counts (if p then s.count dom cls index else s) :=
  s.counts_ite p (s.counts_count _ _ _ _) s.counts_refl

/-- Past the item itself, a page taken only counts. -/
theorem State.counts_noteItem (s : State) (die ctx : Nat) (q : Seq) (x : WalkItem) : (s.takeItem q.handle x).counts (s.noteItem die ctx q x) := by
  cases x with
  | hbm v f =>
    have hpin := ((s.counts_count die 5 (ctx * 16 + 1) 1).trans (State.counts_count _ die 2 (q.lot * 32 + 12) 1)).takeItem q.handle (.hbm v f)
    have hread := hpin.trans (State.counts_count _ die 5 (ctx * 16 + 6) 1)
    have hfar := hread.trans (State.counts_ite _ (frameDie f = die) (State.counts_refl _) (State.counts_count _ die 5 (ctx * 16 + 7) 1))
    exact hfar.trans (State.counts_event _ _ _ _ _)
  | flash v f =>
    have hread := ((s.counts_count die 5 (ctx * 16 + 2) 1).trans (State.counts_count _ die 2 (q.lot * 32 + 13) 1)).trans (State.counts_count _ die 5 (ctx * 16 + 6) 1)
    exact hread.takeItem q.handle (.flash v f)
  | hole v => exact (s.counts_count _ _ _ _).trans (State.counts_count _ _ _ _ _)
  | tailSlot v k => exact s.counts_count _ _ _ _
  | lost v => exact (s.counts_event ((s.pathLost q v || s.leafCorrupt (q.entry v)) = true) die 5 (ctx * 16 + 4)).takeItem q.handle (.lost v)

theorem State.counts_notePage (s : State) (die ctx : Nat) (q : Seq) (w : WalkAsk) (x : WalkItem) :
    (s.takeItem q.handle x).counts (s.notePage die ctx q w x) :=
  ((s.counts_noteItem die ctx q x).trans (State.counts_event _ _ _ _ _)).trans (State.counts_event _ _ _ _ _)

theorem State.takeItem_land (s : State) (h : W32) (x : WalkItem) : (s.takeItem h x).land = s.land := by
  cases x with
  | lost v => exact s.loseOne_land h v
  | _ => rfl

theorem State.takeItem_dies (s : State) (h : W32) (x : WalkItem) : (s.takeItem h x).dies = s.dies := by
  cases x with
  | lost v =>
    obtain ⟨qs, fs, hlose⟩ := s.loseOne_loses h v
    rw [State.takeItem, hlose]
    rfl
  | _ => rfl

/-! What a page resolves to does not hang on the counters. -/

theorem State.lostBelow_withCtr (s : State) (c : Counters) (q : Seq) (v n : Nat) (r : Option Nat) : (s.withCtr c).lostBelow q v n r = s.lostBelow q v n r := by
  induction n generalizing r with
  | zero => cases r <;> rfl
  | succ n ih =>
    cases r with
    | none => rfl
    | some f =>
      rw [State.lostBelow, State.lostBelow, ih]
      rfl

theorem State.pathLost_withCtr (s : State) (c : Counters) (q : Seq) (v : Nat) : (s.withCtr c).pathLost q v = s.pathLost q v :=
  congrArg (decide (v < q.vpages) && ·) (s.lostBelow_withCtr c q v _ _)

theorem State.resolvePage_withCtr (s : State) (c : Counters) (die : Nat) (q : Seq) (v : Nat) (w : WalkAsk) (dst : Nat) :
    (s.withCtr c).resolvePage die q v w dst = s.resolvePage die q v w dst := by
  unfold State.resolvePage
  rw [s.pathLost_withCtr]
  rfl

section

variable {die ctx stream : Nat}

theorem State.seq_noteRead {s : State} {h : W32} {q : Seq} (v : Nat) (hq : s.seq h = some q) :
    (s.noteRead h v).seq h = some { q with lastRead := Sparse.set 0 q.lastRead v s.tick.num } :=
  s.seq_updSeq_self h (fun x => { x with lastRead := Sparse.set 0 x.lastRead v s.tick.num }) (fun _ => ⟨rfl, rfl⟩) hq

theorem State.walked_noteRead (s : State) (h : W32) (v : Nat) : s.Walked die ctx stream 0 (s.noteRead h v) :=
  s.walked_updSeq h (fun x => { x with lastRead := Sparse.set 0 x.lastRead v s.tick.num }) fun _ => ⟨rfl, rfl⟩

theorem State.walked_takeItem (s : State) (h : W32) (x : WalkItem) : s.Walked die ctx stream 0 (s.takeItem h x) := by
  cases x with
  | hbm v f => exact s.walked_tickPin _
  | flash v f => exact s.walked_tickPin _
  | lost v => exact s.walked_loseOne h v
  | hole v => exact s.counts_refl.walked
  | tailSlot v k => exact s.counts_refl.walked

/-- The die after a page has entered its walk: the entries at the end of the stream, the item at the end of the walk. -/
theorem State.feedPage_die (s : State) (h : W32) (w : WalkAsk) (v dst : Nat) (r : WalkItem × List StreamItem) (rows : List StreamItem) :
    ((s.feedPage die ctx stream h w v dst r rows).die die).stage = (s.die die).stage ∧
      (Sparse.get {} ((s.feedPage die ctx stream h w v dst r rows).die die).streams stream).items =
        (Sparse.get {} (s.die die).streams stream).items ++ (r.2 ++ rows).map (fun i => ⟨i, 0, 0⟩) ∧
      (∀ m, m ≠ stream → Sparse.get {} ((s.feedPage die ctx stream h w v dst r rows).die die).streams m = Sparse.get {} (s.die die).streams m) ∧
      Sparse.get [] ((s.feedPage die ctx stream h w v dst r rows).die die).walks ctx = Sparse.get [] (s.die die).walks ctx ++ [r.1] := by
  rw [State.feedPage, State.die_setDie, if_pos rfl]
  refine ⟨rfl, ?_, fun m hm => Sparse.get_set_ne _ _ _ _ _ hm, Sparse.get_set_self _ _ _ _⟩
  dsimp only
  rw [Sparse.get_set_self]

theorem State.walked_feedPage (s : State) (h : W32) (w : WalkAsk) (v dst : Nat) (r : WalkItem × List StreamItem) (rows : List StreamItem) :
    s.Walked die ctx stream 1 (s.feedPage die ctx stream h w v dst r rows) := by
  obtain ⟨hstage, -, hstreams, hwalk⟩ := s.feedPage_die (die := die) (ctx := ctx) (stream := stream) h w v dst r rows
  exact ⟨⟨_, s.seqs, s.ctr, s.land.slots, s.tick.fails, s.hbm.ftab, s.flash.ftab, rfl⟩, fun _ hs => hs, fun d hd => State.die_setDie_ne _ _ _ _ hd, hstage, hstreams,
    by rw [hwalk, List.length_append]; rfl⟩

theorem State.walkNext_land (h : W32) (w : WalkAsk) (dst after : Nat) (s : State) (p : Nat × Nat) :
    (State.walkNext die ctx stream h w dst after s p).land = s.land := by
  rw [State.walkNext]
  split
  · obtain ⟨c, hc⟩ := s.counts_notePage die ctx ‹Seq› w (s.resolvePage die ‹Seq› p.2 w (dst + p.1 * partBytes w.parts)).1
    rw [State.walkPage_eq, hc]
    exact s.takeItem_land _ _
  · rfl

theorem State.walked_walkPage (s : State) (q : Seq) (w : WalkAsk) (v dst staged : Nat) :
    s.Walked die ctx stream 1 (s.walkPage die ctx stream q w v dst staged) := by
  rw [State.walkPage_eq]
  have htaken := (s.walked_takeItem (die := die) (ctx := ctx) (stream := stream) q.handle (s.resolvePage die q v w dst).1).trans
    (s.counts_notePage die ctx q w (s.resolvePage die q v w dst).1).walked
  exact (htaken.trans (State.walked_feedPage _ _ _ _ _ _ _)).trans (State.walked_noteRead _ _ _)

theorem State.walkNext_some {s : State} {h : W32} {q : Seq} (w : WalkAsk) (dst after : Nat) (p : Nat × Nat) (hq : s.seq h = some q) :
    State.walkNext die ctx stream h w dst after s p =
      s.walkPage die ctx stream q w p.2 (dst + p.1 * partBytes w.parts) (after + p.1 * (31 * 4 * s.headDim)) := by
  rw [State.walkNext, hq]

/-- The pages of a list are walked one by one while the sequence lives. -/
theorem State.walked_pages (h : W32) (w : WalkAsk) (dst after : Nat) (ps : List (Nat × Nat)) (s : State) (hs : (s.seq h).isSome = true) :
    s.Walked die ctx stream ps.length (ps.foldl (State.walkNext die ctx stream h w dst after) s) := by
  induction ps generalizing s with
  | nil => exact s.counts_refl.walked
  | cons p ps ih =>
    obtain ⟨q, hq⟩ := Option.isSome_iff_exists.mp hs
    have hpage : s.Walked die ctx stream 1 (State.walkNext die ctx stream h w dst after s p) := by
      rw [State.walkNext_some w dst after p hq]
      exact s.walked_walkPage q w _ _ _
    rw [List.length_cons, Nat.add_comm]
    exact hpage.trans (ih _ (hpage.live h hs))

end

/-! #### The request -/

/-- What a walk request leaves: the pages walked in order from the state without corrupt slots. -/
def State.walkDone (s : State) (die ctx stream : Nat) (h : W32) (pages : List Nat) (w : WalkAsk) (dst : Nat) : State :=
  ((List.range pages.length).zip pages).foldl (State.walkNext die ctx stream h w dst (dst + pages.length * partBytes w.parts)) (s.count die 5 (ctx * 16)).checkSlots

section

variable {s : State} {die ctx stream dst : Nat} {h : W32} {w : WalkAsk} {q : Seq}

theorem exec_walkRequest {pages : List Nat} (hd : s.hasDie die = true) (hc : ctx < 64) (hw : s.working = true) (hq : s.seq h = some q)
    (hf : s.feeds die ctx stream = true) (hv : ∀ v, v ∈ pages → s.walkChosen q v = true) (hb : s.walkFits die stream dst (s.walkBytes w pages.length) = true) :
    exec (.walkRequest die ctx stream h pages w dst) s = .next (s.walkDone die ctx stream h pages w dst) := by
  have hpart : (s.hasDie die && decide (ctx < 64)) = true := by rw [hd, decide_eq_true hc]; rfl
  have hgo : (s.working && s.feeds die ctx stream && pages.all (s.walkChosen q) && s.walkFits die stream dst (s.walkBytes w pages.length)) = true := by
    rw [hw, hf, hb, List.all_eq_true.mpr hv]
    rfl
  refine (needPart_pos hpart).trans ?_
  rw [hq]
  exact when_pos hgo

/-- A request walks as many pages as its list has. -/
theorem State.walked_walkDone (pages : List Nat) (hq : s.seq h = some q) :
    s.Walked die ctx stream pages.length (s.walkDone die ctx stream h pages w dst) := by
  have hchecked : s.Walked die ctx stream 0 (s.count die 5 (ctx * 16)).checkSlots :=
    (s.counts_count die 5 (ctx * 16) 1).walked.trans (State.walked_checkSlots _)
  have hpages := hchecked.trans (State.walked_pages (die := die) (ctx := ctx) (stream := stream) h w dst (dst + pages.length * partBytes w.parts)
    ((List.range pages.length).zip pages) _ (hchecked.live h (by rw [hq]; rfl)))
  rwa [List.length_zip, List.length_range, Nat.min_self, Nat.zero_add] at hpages

/-- With no corrupt slot, a walk leaves the Landings as they are. -/
theorem State.walkDone_land (hok : s.land.slots.all (fun e => !e.2.corrupt) = true) (pages : List Nat) :
    (s.walkDone die ctx stream h pages w dst).land = s.land := by
  have hchecked : (s.count die 5 (ctx * 16)).checkSlots = s.count die 5 (ctx * 16) := State.checkSlots_sound hok
  rw [State.walkDone, hchecked]
  exact foldl_keeps State.land _ (fun s p => State.walkNext_land h w dst _ s p) _ _

/-- A walk of one page, with no corrupt slot: the page resolved in the state as it stands, taken, put in the stream and noted as read. -/
theorem State.walkDone_one (hq : s.seq h = some q) (hok : s.land.slots.all (fun e => !e.2.corrupt) = true) (v : Nat) :
    ∃ c, s.walkDone die ctx stream h [v] w dst =
      (((s.takeItem h (s.resolvePage die q v w dst).1).withCtr c).feedPage die ctx stream h w v dst (s.resolvePage die q v w dst)
        (s.tailStaging die w (s.resolvePage die q v w dst).1 (dst + partBytes w.parts))).noteRead h v := by
  obtain ⟨-, rfl, -⟩ := State.seq_some hq
  have hchecked : (s.count die 5 (ctx * 16)).checkSlots = s.count die 5 (ctx * 16) := State.checkSlots_sound hok
  obtain ⟨c, hc⟩ := s.counts_count die 5 (ctx * 16) 1
  have hseq : (s.withCtr c).seq q.handle = some q := hq
  have hresolve := s.resolvePage_withCtr c die q v w dst
  have hstaging : ∀ x n, (s.withCtr c).tailStaging die w x n = s.tailStaging die w x n := fun _ _ => rfl
  obtain ⟨d, hd⟩ := (s.withCtr c).counts_notePage die ctx q w (s.resolvePage die q v w dst).1
  refine ⟨d, ?_⟩
  have hstep : s.walkDone die ctx stream q.handle [v] w dst = (s.withCtr c).walkPage die ctx stream q w v (dst + 0 * partBytes w.parts)
      (dst + 1 * partBytes w.parts + 0 * (31 * 4 * s.headDim)) := by
    rw [State.walkDone, hchecked, hc]
    exact State.walkNext_some w dst _ (0, v) hseq
  rw [hstep, Nat.zero_mul, Nat.zero_mul, Nat.one_mul, Nat.add_zero, Nat.add_zero, State.walkPage_eq, hresolve, hstaging, hd, s.takeItem_withCtr]
  rfl

/-- A page that is lost for the first time joins the lost pages of its sequence and fails the attempt once (R288, R407). -/
theorem State.loseOne_fresh {v : Nat} (hq : s.seq h = some q) (hv : v ∉ q.lostPages) :
    (s.loseOne h v).tick.fails.length = s.tick.fails.length + 1 ∧ ∃ u, (s.loseOne h v).seq h = some u ∧ u.lostPages = q.lostPages ++ [v] := by
  have hlose : s.loseOne h v = (s.updSeq h fun q => { q with lostPages := q.lostPages ++ [v] }).failAttempt 5 := by
    rw [State.loseOne, hq]
    exact if_neg (by simpa using hv)
  rw [hlose]
  exact ⟨List.length_append, _, s.seq_updSeq_self h (fun q => { q with lostPages := q.lostPages ++ [v] }) (fun _ => ⟨rfl, rfl⟩) hq, rfl⟩

end

/-- Settles O47: each page is taken and enters the walk by itself, so the request's effect is that of its pages in turn. -/
theorem walksResolve : Obligations.WalksResolve := by
  intro s die ctx stream dst h pages parts readers q hdie hctx hw hq hfeeds hchosen hfits
  have hwalked := State.walked_walkDone (die := die) (ctx := ctx) (stream := stream) (dst := dst) (w := ⟨parts, readers⟩) pages hq
  obtain ⟨ds, qs, c, sl, fs, hf, ff, ht⟩ := hwalked.touches
  refine ⟨_, exec_walkRequest hdie hctx hw hq hfeeds hchosen hfits, by rw [ht], by rw [ht], by rw [ht], hwalked.others, hwalked.stage, hwalked.streams, hwalked.length, ?_⟩
  intro hok
  refine ⟨State.walkDone_land hok pages, ?_⟩
  rintro v rfl
  intro r rows
  obtain ⟨c, hc⟩ := State.walkDone_one (die := die) (ctx := ctx) (stream := stream) (dst := dst) (w := ⟨parts, readers⟩) hq hok v
  rw [hc]
  have hdies : ((s.takeItem h r.1).withCtr c).die die = s.die die := congrArg (Sparse.get ({} : Die) · die) (s.takeItem_dies h r.1)
  obtain ⟨-, hitems, -, hwalk⟩ := ((s.takeItem h r.1).withCtr c).feedPage_die (die := die) (ctx := ctx) (stream := stream) h ⟨parts, readers⟩ v dst r rows
  rw [hdies] at hitems hwalk
  refine ⟨hitems, hwalk, fun f hr => ?_, fun f hr => ?_, fun hr hv => ?_⟩
  · have htake : s.takeItem h r.1 = s.tickPin (true, f) := by rw [hr]; rfl
    rw [htake]
    exact ⟨Sparse.get_set_self _ _ _ _, rfl⟩
  · have htake : s.takeItem h r.1 = s.tickPin (false, f) := by rw [hr]; rfl
    rw [htake]
    exact ⟨Sparse.get_set_self _ _ _ _, rfl⟩
  · have htake : s.takeItem h r.1 = s.loseOne h v := by rw [hr]; rfl
    rw [htake]
    obtain ⟨hfails, u, hu, hlost⟩ := State.loseOne_fresh hq hv
    exact ⟨hfails, _, State.seq_noteRead v hu, hlost⟩

end Sys2Proof.Machine

end

/-! ### Ring steps -/

section

namespace Sys2Proof.Machine

/-- The member that lies `step` places behind this one on a ring (R372). -/
def State.ringSource (s : State) (k ring step : Nat) : Nat :=
  let o := ringOrder s.img.crossed k ring s.crew.coord
  o[(indexIn o s.crew.coord + 2 ^ k - step % 2 ^ k) % 2 ^ k]?.getD s.crew.coord

/-- It is this ring's turn at this step: the pass has not folded it yet, but the lower rings at this step and every ring at the step before (R372, R375). -/
def State.ringTurn (s : State) (round k ring step : Nat) : Bool :=
  let done := (s.ringPass round k step).1
  !done.contains (step * 64 + ring) && (((s.ringsUsed k).filter fun r => decide (r < ring)).all (fun r => done.contains (step * 64 + r)) &&
    (step == 0 || (s.ringsUsed k).all fun r => done.contains ((step - 1) * 64 + r)))

/-- The state once a ring's step has folded its runs (R372, R376). -/
def State.ringFolded (s : State) (round k ring step : Nat) (runs : List Nat) : State :=
  { s with fore := { s.fore with
    ringStep := Sparse.set [] s.fore.ringStep round ((s.ringPass round k step).1 ++ [step * 64 + ring])
    ringRuns := Sparse.set [] s.fore.ringRuns round ((s.ringPass round k step).2 ++ runs) } }

/-- The state once a ring's step has folded its runs and, before the last step, has forwarded them (R373). -/
def State.ringStepped (s : State) (round k ring step : Nat) (runs : List Nat) : State :=
  if step + 1 < 2 ^ k then (s.ringFolded round k ring step runs).send (.chunkForward round ring step runs) else s.ringFolded round k ring step runs

section

variable {s : State} {round ring step member base k : Nat} {runs : List Nat}

theorem State.ringTurn_iff : s.ringTurn round k ring step = true ↔ step * 64 + ring ∉ (s.ringPass round k step).1 ∧
    (∀ r, r ∈ s.ringsUsed k → r < ring → step * 64 + r ∈ (s.ringPass round k step).1) ∧
    (step = 0 ∨ ∀ r, r ∈ s.ringsUsed k → (step - 1) * 64 + r ∈ (s.ringPass round k step).1) := by
  simp only [State.ringTurn, Bool.and_eq_true, Bool.not_eq_true', ← Bool.not_eq_true, Bool.or_eq_true, beq_iff_eq, List.all_eq_true, List.mem_filter, decide_eq_true_eq,
    List.contains_iff_mem, and_imp]

theorem exec_ringStepFold (hround : s.ringOf round = some (base, k)) (hw : s.working = true) (hon : s.onRound base k = true) (hfolded : s.runsFolded round = true)
    (hring : ring ∈ s.ringsUsed k) (hstep : step < 2 ^ k) (hmember : member = s.ringSource k ring step) (hruns : s.stepRunsOk round k ring step member runs = true)
    (hturn : s.ringTurn round k ring step = true) :
    exec (.ringStepFold round ring step ⟨member, runs⟩) s = .next (s.ringStepped round k ring step runs) := by
  have hsource : (member == s.ringSource k ring step) = true := beq_iff_eq.mpr hmember
  have hmay : (s.working && s.onRound base k && s.runsFolded round && (s.ringsUsed k).contains ring && decide (step < 2 ^ k) && (member == s.ringSource k ring step) &&
      s.stepRunsOk round k ring step member runs && s.ringTurn round k ring step) = true := by
    rw [hw, hon, hfolded, List.contains_iff_mem.mpr hring, decide_eq_true hstep, hsource, hruns, hturn]
    rfl
  rw [State.ringTurn, ← Bool.and_assoc, ← Bool.and_assoc] at hmay
  change execRingStepFold round ring step ⟨member, runs⟩ s = _
  rw [execRingStepFold, hround]
  exact when_pos hmay

/-- A step sends its runs on before the last one, and otherwise changes nothing but the round's steps and runs. -/
theorem State.ringStepped_eq (s : State) (round k ring step : Nat) (runs : List Nat) :
    s.ringStepped round k ring step runs = { s.ringFolded round k ring step runs with
      yard := { s.yard with sent := (s.ringStepped round k ring step runs).yard.sent } } := by
  rw [State.ringStepped]
  split <;> rfl

theorem State.ringStepped_sent (s : State) (round k ring step : Nat) (runs : List Nat) : (s.ringStepped round k ring step runs).yard.sent =
    if step + 1 < 2 ^ k then s.yard.sent ++ [.chunkForward round ring step runs] else s.yard.sent := by
  rw [State.ringStepped]
  split <;> rfl

end

/-- Settles O45: a step whose turn has come folds the runs of the member behind, and forwards them before the last step. -/
theorem ringSteps : Obligations.RingSteps := by
  intro s round ring step member base k runs hw hround hon hfolded hring hstep o done hmember hnew _ hruns hlower hbefore
  have hturn : s.ringTurn round k ring step = true := State.ringTurn_iff.mpr ⟨hnew, hlower, hbefore⟩
  exact ⟨_, exec_ringStepFold hround hw hon hfolded hring hstep hmember hruns hturn, s.ringStepped_eq round k ring step runs, s.ringStepped_sent round k ring step runs⟩

end Sys2Proof.Machine

end

/-! ### The flash translation layer -/

section

namespace Sys2Proof.Machine

namespace Sparse

variable {α : Type} [DecidableEq α] (d : α) (m : Sparse α) (a b : Nat)

/-- A key that no entry has is found once written, with the value written. -/
theorem find?_set_self (v : α) (hv : v ≠ d) (h : ∀ e ∈ m, e.1 ≠ a) : (set d m a v).find? (fun e => e.1 == a) = some (a, v) := by
  induction m with
  | nil => simp [set, hv]
  | cons x m ih =>
    obtain ⟨hx, hm⟩ := List.forall_mem_cons.mp h
    rw [set]
    split
    · simp
    · simp [hx, Ne.symm hx, ih hm]

/-- A value written under a key that no entry has leaves what is found under the others. -/
theorem find?_set_ne (v : α) (hv : v ≠ d) (h : ∀ e ∈ m, e.1 ≠ a) (hb : b ≠ a) :
    (set d m a v).find? (fun e => e.1 == b) = m.find? fun e => e.1 == b := by
  induction m with
  | nil => simp [set, hv, Ne.symm hb]
  | cons x m ih =>
    obtain ⟨hx, hm⟩ := List.forall_mem_cons.mp h
    rw [set]
    split
    · simp [Ne.symm hb]
    · simp [Ne.symm hx, List.find?_cons, ih hm]

/-- A read after a change of one key. -/
theorem get_upd (f : α → α) : get d (upd d m a f) b = if b = a then f (get d m a) else get d m b := get_set d m a b _

/-- A change that keeps `p` of a value keeps `p` of every value. -/
theorem get_upd_keeps {β : Type} (p : α → β) {f : α → α} (hf : ∀ x, p (f x) = p x) : p (get d (upd d m a f) b) = p (get d m b) := by
  rw [get_upd]
  split
  · next h => rw [hf, h]
  · rfl

end Sparse

/-- A NAND block of the state. -/
def State.nand (s : State) (b : Nat) : NandBlock := Sparse.get {} s.flash.blocks b

/-- What only erasing and retiring change of a block: its erase count, and whether it is bad. -/
def NandBlock.wear (x : NandBlock) : Nat × Bool := (x.erases, x.bad)

/-! #### Where the frames lie -/

theorem State.blockOf_mapFrame (s : State) {b : Nat} (f g : Nat) (hb : b < 2 ^ 30) :
    (s.mapFrame f b).blockOf g = if g = f then some b else s.blockOf g := by
  have hout : ∀ e ∈ s.flash.map.filter fun e => e.1 != f, e.1 ≠ f := fun e he => by simpa using (List.mem_filter.mp he).2
  simp only [State.blockOf, State.mapFrame]
  split
  · next h => rw [h, Sparse.find?_set_self _ _ _ _ hb.ne hout]; rfl
  · next h =>
    rw [Sparse.find?_set_ne _ _ _ _ _ hb.ne hout h, List.find?_filter]
    refine congrArg (fun p => (s.flash.map.find? p).map Prod.snd) (funext fun e => ?_)
    by_cases he : e.1 = g <;> simp [he, h]

theorem State.wear_mapFrame (s : State) (f b c : Nat) : ((s.mapFrame f b).nand c).wear = (s.nand c).wear := by
  simp only [State.nand, State.mapFrame]
  rw [Sparse.get_upd_keeps _ _ _ _ NandBlock.wear (by exact fun _ => rfl)]
  split
  · rw [Sparse.get_upd_keeps _ _ _ _ NandBlock.wear (by exact fun _ => rfl)]
  · rfl

/-- The state with frames put into a block one after another. -/
def State.mapFrames (s : State) (fs : List Nat) (b : Nat) : State := fs.foldl (fun s f => s.mapFrame f b) s

theorem State.blockOf_mapFrames (s : State) {b : Nat} (fs : List Nat) (g : Nat) (hb : b < 2 ^ 30) :
    (s.mapFrames fs b).blockOf g = if g ∈ fs then some b else s.blockOf g := by
  induction fs generalizing s with
  | nil => rfl
  | cons f fs ih =>
    refine (ih (s.mapFrame f b)).trans ?_
    rw [State.blockOf_mapFrame s f g hb]
    by_cases h : g = f <;> simp [h]

theorem State.wear_mapFrames (s : State) (fs : List Nat) (b c : Nat) : ((s.mapFrames fs b).nand c).wear = (s.nand c).wear :=
  List.foldlRecOn (motive := fun t : State => (t.nand c).wear = (s.nand c).wear) fs _ rfl fun t h f _ => (t.wear_mapFrame f b c).trans h

/-! #### The block that takes the data -/

/-- What a scan for the best element of a list picks is in the list. -/
theorem foldl_pick_mem {α : Type} (f : Option α → α → Option α) (hf : ∀ a x, f a x = a ∨ f a x = some x) (l : List α) {y : α}
    (h : l.foldl f none = some y) : y ∈ l := by
  refine List.foldlRecOn (motive := fun a => ∀ y, a = some y → y ∈ l) l f (fun _ h => by cases h) (fun a ha x hx y hy => ?_) y h
  rcases hf a x with h | h
  · exact ha y (h ▸ hy)
  · exact Option.some.inj (h.symm.trans hy) ▸ hx

theorem State.erasedBlock_channel (s : State) (ch : Nat) (but : Option Nat) : s.erasedBlock ch but / 65536 = ch := by
  unfold State.erasedBlock
  dsimp only
  split
  · next i hi =>
    have := List.mem_range.mp (List.mem_of_find?_eq_some hi)
    omega
  · generalize hbest : List.foldl _ _ _ = best
    cases best with
    | none => exact Nat.mul_div_cancel _ (by decide)
    | some e =>
      have he := foldl_pick_mem _ (fun a x => by cases a with | none => exact .inr rfl | some b => exact (ite_eq_or_eq _ _ _).symm) _ hbest
      simp only [List.mem_filter, Bool.and_eq_true, beq_iff_eq] at he
      exact he.2.1

theorem State.pickBlock_channel (s : State) (ch : Nat) (but : Option Nat) : (s.pickBlock ch but).1 / 65536 = ch := by
  unfold State.pickBlock
  dsimp only
  split
  · next b hb =>
    obtain ⟨e, he, rfl⟩ := Option.map_eq_some_iff.mp hb
    have he := List.find?_some he
    simp only [Bool.and_eq_true, beq_iff_eq] at he
    split
    · exact he.2
    · exact State.erasedBlock_channel _ _ _
  · exact State.erasedBlock_channel _ _ _

/-- Picking a block moves nothing yet. -/
theorem State.pickBlock_keeps (s : State) (ch : Nat) (but : Option Nat) :
    (s.pickBlock ch but).2.flash.map = s.flash.map ∧ (s.pickBlock ch but).2.flash.blocks = s.flash.blocks := by
  unfold State.pickBlock
  dsimp only
  split
  · split <;> exact ⟨rfl, rfl⟩
  · exact ⟨rfl, rfl⟩

/-! #### Moving the data of a block -/

/-- Two states differ at most in the blocks, in the places of the frames in them, and in the counters. -/
def State.moves (s t : State) : Prop := ∃ map page blocks c, t = s.withMap map page s.flash.openBlk blocks c s.freeIx

theorem State.moves.trans {s t u : State} (h1 : s.moves t) (h2 : t.moves u) : s.moves u := by
  obtain ⟨_, _, _, _, rfl⟩ := h1
  obtain ⟨m, p, b, c, rfl⟩ := h2
  exact ⟨m, p, b, c, rfl⟩

theorem State.moves.remaps {s t : State} (h : s.moves t) : s.remaps t :=
  let ⟨m, p, b, c, h⟩ := h
  ⟨m, p, _, b, c, _, h⟩

theorem State.moves.frame {s t : State} (h : s.moves t) :
    t = { s with flash := { s.flash with map := t.flash.map, page := t.flash.page, blocks := t.flash.blocks }, ctr := t.ctr } := by
  obtain ⟨_, _, _, _, rfl⟩ := h
  rfl

theorem State.remaps.frame {s t : State} (h : s.remaps t) :
    t = { s with flash := { s.flash with map := t.flash.map, page := t.flash.page, openBlk := t.flash.openBlk, blocks := t.flash.blocks }, ctr := t.ctr, freeIx := t.freeIx } := by
  obtain ⟨_, _, _, _, _, _, rfl⟩ := h
  rfl

theorem State.moves_hubCount (s : State) (cls index n : Nat) : s.moves (s.hubCount cls index n) :=
  ⟨s.flash.map, s.flash.page, s.flash.blocks, (s.hubCount cls index n).ctr, rfl⟩

theorem State.moves_updBlock (s : State) (b : Nat) (f : NandBlock → NandBlock) : s.moves (s.updBlock b f) :=
  ⟨s.flash.map, s.flash.page, (s.updBlock b f).flash.blocks, s.ctr, rfl⟩

theorem State.moves_mapFrames (s : State) (fs : List Nat) (b : Nat) : s.moves (s.mapFrames fs b) :=
  List.foldlRecOn fs _ ⟨s.flash.map, s.flash.page, s.flash.blocks, s.ctr, rfl⟩ fun t h f _ =>
    h.trans ⟨_, _, (t.mapFrame f b).flash.blocks, t.ctr, rfl⟩

theorem State.moves_eraseBlock (s : State) (b : Nat) : s.moves (s.eraseBlock b) := (s.moves_updBlock b _).trans (State.moves_hubCount _ _ _ _)

/-- Moving a block's data puts its frames into the target, one after another, and counts. -/
theorem State.moveBlock_some (s : State) (b d : Nat) (ev : Option Nat) :
    ∃ c, s.moveBlock b (some d) ev = (s.mapFrames (s.nand b).live d).withCtr c := by
  have hcount (t : State) (n m : Nat) : ∃ c, (t.hubCount 9 1 n).hubCount 9 5 m = t.withCtr c := ⟨_, rfl⟩
  cases ev with
  | none => exact hcount _ _ _
  | some e =>
    obtain ⟨c, h⟩ := hcount ((s.mapFrames (s.nand b).live d).hubCount 3 (b / 65536 * 32 + e)) (16384 * (s.nand b).live.length) (s.nand b).live.length
    exact ⟨c, h⟩

/-- Without a given target the data goes to the block that the channel fills. -/
theorem State.moveBlock_none (s : State) (b : Nat) (ev : Option Nat) :
    s.moveBlock b none ev = (s.pickBlock (b / 65536) (some b)).2.moveBlock b (some (s.pickBlock (b / 65536) (some b)).1) ev := by
  unfold State.moveBlock
  rw [(s.pickBlock_keeps _ _).2]

/-- The data of a block has moved to another: its frames lie there, the other frames where they lay, and no block is worn by it. -/
structure State.Emptied (s : State) (b d : Nat) (t : State) : Prop where
  place : ∀ f, t.blockOf f = if f ∈ (s.nand b).live then some d else s.blockOf f
  wear : ∀ c, (t.nand c).wear = (s.nand c).wear

theorem State.emptied_moveBlock (s : State) {b d : Nat} (ev : Option Nat) (hd : d < 2 ^ 30) :
    s.moves (s.moveBlock b (some d) ev) ∧ s.Emptied b d (s.moveBlock b (some d) ev) := by
  obtain ⟨c, h⟩ := s.moveBlock_some b d ev
  rw [h]
  exact ⟨(s.moves_mapFrames _ d).trans ⟨_, _, _, c, rfl⟩, fun f => s.blockOf_mapFrames _ f hd, fun k => s.wear_mapFrames _ d k⟩

theorem State.emptied_pickBlock (s : State) {ch b : Nat} (ev : Option Nat) (hch : ch < 32) (hb : b / 65536 = ch) :
    s.remaps (s.moveBlock b none ev) ∧ ∃ d, d / 65536 = ch ∧ s.Emptied b d (s.moveBlock b none ev) := by
  have hd := s.pickBlock_channel ch (some b)
  obtain ⟨hmap, hblocks⟩ := s.pickBlock_keeps ch (some b)
  have hpick := s.pickBlock_remaps ch (some b)
  rw [State.moveBlock_none, hb]
  generalize s.pickBlock ch (some b) = p at *
  obtain ⟨hmoves, hplace, hwear⟩ := p.2.emptied_moveBlock (b := b) ev (show p.1 < 2 ^ 30 by omega)
  have hnand (c : Nat) : p.2.nand c = s.nand c := by rw [State.nand, hblocks, State.nand]
  have hof (f : Nat) : p.2.blockOf f = s.blockOf f := by rw [State.blockOf, hmap, State.blockOf]
  exact ⟨hpick.trans hmoves.remaps, p.1, hd, fun f => by rw [hplace, hnand, hof], fun c => by rw [hwear, hnand]⟩

/-- An erased block: one more erase, and nothing of what was programmed and read. -/
def NandBlock.erased (x : NandBlock) : NandBlock := { x with erases := x.erases + 1, reads := 0, used := 0, dead := 0, soft := false }

theorem State.nand_eraseBlock (s : State) (b c : Nat) : (s.eraseBlock b).nand c = if c = b then (s.nand b).erased else s.nand c :=
  Sparse.get_upd _ _ _ _ NandBlock.erased

theorem State.nand_eraseBlock_self (s : State) (b : Nat) : (s.eraseBlock b).nand b = (s.nand b).erased := (s.nand_eraseBlock b b).trans (if_pos rfl)

theorem State.blockOf_eraseBlock (s : State) (b f : Nat) : (s.eraseBlock b).blockOf f = s.blockOf f := rfl

namespace State.Emptied

variable {s t : State} {b d : Nat} (h : s.Emptied b d t)

include h

theorem live {f : Nat} (hf : f ∈ (s.nand b).live) : t.blockOf f = some d := (h.place f).trans (if_pos hf)

theorem other {f : Nat} (hf : f ∉ (s.nand b).live) : t.blockOf f = s.blockOf f := (h.place f).trans (if_neg hf)

theorem erases (c : Nat) : (t.nand c).erases = (s.nand c).erases := congrArg Prod.fst (h.wear c)

theorem bad (c : Nat) : (t.nand c).bad = (s.nand c).bad := congrArg Prod.snd (h.wear c)

end State.Emptied

/-! #### Collecting a channel -/

/-- A step of garbage collection: frames move within the channel only, and no block loses an erase. -/
structure State.Collects (ch : Nat) (s t : State) : Prop where
  remaps : s.remaps t
  moved : ∀ f, t.blockOf f ≠ s.blockOf f → ∃ d, t.blockOf f = some d ∧ d / 65536 = ch
  erases : ∀ c, (s.nand c).erases ≤ (t.nand c).erases

theorem State.Collects.refl (ch : Nat) (s : State) : s.Collects ch s := ⟨s.remaps_refl, fun _ h => absurd rfl h, fun _ => le_rfl⟩

theorem State.Collects.trans {ch : Nat} {s t u : State} (h1 : s.Collects ch t) (h2 : t.Collects ch u) : s.Collects ch u where
  remaps := h1.remaps.trans h2.remaps
  moved f hf := by
    by_cases h : u.blockOf f = t.blockOf f
    · rw [h] at hf ⊢
      exact h1.moved f hf
    · exact h2.moved f h
  erases c := (h1.erases c).trans (h2.erases c)

/-- Empty a block of a channel and erase it. -/
def State.collect (s : State) (b : Nat) : State := (s.moveBlock b none (some 13)).eraseBlock b

theorem State.blockOf_collect (s : State) (b f : Nat) : (s.collect b).blockOf f = (s.moveBlock b none (some 13)).blockOf f :=
  State.blockOf_eraseBlock _ b f

theorem State.collects_collect (s : State) {ch b : Nat} (hch : ch < 32) (hb : b / 65536 = ch) :
    s.Collects ch (s.collect b) ∧ ((s.collect b).nand b).erases = (s.nand b).erases + 1 := by
  obtain ⟨hmaps, d, hd, h⟩ := s.emptied_pickBlock (some 13) hch hb
  have hself : ((s.collect b).nand b).erases = (s.nand b).erases + 1 := by
    rw [State.collect, State.nand_eraseBlock_self, NandBlock.erased, h.erases]
  refine ⟨⟨hmaps.trans (State.moves_eraseBlock _ b).remaps, fun f hf => ?_, fun c => ?_⟩, hself⟩
  · rw [State.blockOf_collect] at hf ⊢
    by_cases hl : f ∈ (s.nand b).live
    · exact ⟨d, h.live hl, hd⟩
    · exact absurd (h.other hl) hf
  · by_cases hc : c = b
    · rw [hc, hself]
      exact Nat.le_succ _
    · rw [State.collect, State.nand_eraseBlock, if_neg hc, h.erases]

theorem State.collects_foldl {ch : Nat} (hch : ch < 32) (l : List (Nat × NandBlock)) (s : State) (hl : ∀ e ∈ l, e.1 / 65536 = ch) :
    s.Collects ch (l.foldl (fun s e => s.collect e.1) s) ∧
      ∀ e ∈ l, (s.nand e.1).erases + 1 ≤ ((l.foldl (fun s e => s.collect e.1) s).nand e.1).erases := by
  induction l generalizing s with
  | nil => exact ⟨.refl ch s, fun _ h => nomatch h⟩
  | cons e l ih =>
    obtain ⟨he, hl⟩ := List.forall_mem_cons.mp hl
    obtain ⟨hone, hself⟩ := s.collects_collect hch he
    obtain ⟨hrest, hall⟩ := ih (s.collect e.1) hl
    refine ⟨hone.trans hrest, List.forall_mem_cons.mpr ⟨?_, fun x hx => ?_⟩⟩
    · exact hself ▸ hrest.erases e.1
    · exact (Nat.add_le_add_right (hone.erases x.1) 1).trans (hall x hx)

theorem State.mem_blocksOf {s : State} {ch : Nat} {e : Nat × NandBlock} (h : e ∈ s.blocksOf ch) : e.1 / 65536 = ch := by
  have h := (List.mem_filter.mp h).2
  simp only [Bool.and_eq_true, beq_iff_eq] at h
  exact h.1

/-! #### The commands -/

/-- A block marked bad. -/
def NandBlock.asBad (x : NandBlock) : NandBlock := { x with bad := true }

/-- One more block of the flash is retired. -/
def State.retire (s : State) : State := { s with flash := { s.flash with retired := s.flash.retired + 1 } }

/-- The extreme block of a channel is a block of the channel. -/
theorem State.extremeBlock_channel {s : State} {ch : Nat} {high : Bool} {e : Nat × NandBlock} (h : s.extremeBlock ch high = some e) : e.1 / 65536 = ch :=
  State.mem_blocksOf (foldl_pick_mem _ (fun a x => by cases a with | none => exact .inr rfl | some b => exact (ite_eq_or_eq _ _ _).symm) _ h)

section

variable {s : State} {ch : Nat} (hch : ch < 32) (hs : s.pwr.standby = true)

include hch

theorem hasChannel_lt : hasChannel ch = true := decide_eq_true hch

include hs

theorem exec_wearLevelling {lo hi : Nat × NandBlock} (hlo : s.extremeBlock ch false = some lo) (hhi : s.extremeBlock ch true = some hi) :
    exec (.wearLevelling ch) s = when (lo.1 != hi.1 && decide (s.leastErases ch + 500 < hi.2.erases)) s
      ((s.moveBlock lo.1 (some hi.1) (some 12)).eraseBlock lo.1) := by
  change execWearLevelling ch s = _
  rw [execWearLevelling, needPart_pos (hasChannel_lt hch), hlo, hhi, hs]
  rfl

theorem exec_garbageCollection : exec (.garbageCollection ch) s =
    .next (((s.blocksOf ch).filter fun e => decide (0 < e.2.dead)).foldl (fun s e => s.collect e.1) s) := by
  change execGarbageCollection ch s = _
  rw [execGarbageCollection, needPart_pos (hasChannel_lt hch), when_pos hs]
  rfl

variable {b : Nat} (hb : b < 65536) (hgood : (s.nand (ch * 65536 + b)).bad = false)

include hb hgood

theorem exec_readDisturbRelocation : exec (.readDisturbRelocation ch b) s =
    when (decide (50000 ≤ (s.nand (ch * 65536 + b)).reads) || (s.nand (ch * 65536 + b)).soft) s
      ((s.moveBlock (ch * 65536 + b) none (some 11)).eraseBlock (ch * 65536 + b)) := by
  change execReadDisturbRelocation ch b s = _
  rw [execReadDisturbRelocation, needPart_pos (by rw [hasChannel_lt hch, decide_eq_true hb]; rfl)]
  change when (s.pwr.standby && !(s.nand _).bad && (decide (50000 ≤ (s.nand _).reads) || (s.nand _).soft)) s _ = _
  rw [hs, hgood]
  rfl

theorem exec_programFailure : ∃ c, exec (.programFailure ch b) s =
    .next ((((s.updBlock (ch * 65536 + b) NandBlock.asBad).moveBlock (ch * 65536 + b) none none).retire).withCtr c) := by
  change ∃ c, execProgramFailure ch b s = _
  rw [execProgramFailure, needPart_pos (by rw [hasChannel_lt hch, decide_eq_true hb]; rfl)]
  exact ⟨_, when_pos (show (s.pwr.standby && !(s.nand (ch * 65536 + b)).bad) = true by rw [hs, hgood]; rfl)⟩

end

/-! #### The parts of the obligation -/

/-- WEAR_LEVELLING past the spread of 500 (R384). -/
theorem wearLevelling_moves {s : State} {ch : Nat} {lo hi : Nat × NandBlock} (hch : ch < 32) (hs : s.pwr.standby = true)
    (hlo : s.extremeBlock ch false = some lo) (hhi : s.extremeBlock ch true = some hi) (hspread : s.leastErases ch + 500 < hi.2.erases) (hne : lo.1 ≠ hi.1) :
    ∃ t, exec (.wearLevelling ch) s = .next (t.eraseBlock lo.1) ∧ s.moves t ∧ s.Emptied lo.1 hi.1 t := by
  have hd := State.extremeBlock_channel hhi
  obtain ⟨hmoves, h⟩ := s.emptied_moveBlock (b := lo.1) (some 12) (show hi.1 < 2 ^ 30 by omega)
  exact ⟨_, (exec_wearLevelling hch hs hlo hhi).trans (when_pos (by simp [hne, hspread])), hmoves, h⟩

theorem wearLevelling_even {s : State} {ch : Nat} {lo hi : Nat × NandBlock} (hch : ch < 32) (hs : s.pwr.standby = true)
    (hlo : s.extremeBlock ch false = some lo) (hhi : s.extremeBlock ch true = some hi) (hspread : hi.2.erases ≤ s.leastErases ch + 500) :
    exec (.wearLevelling ch) s = .next s :=
  (exec_wearLevelling hch hs hlo hhi).trans (when_neg (by simp [hspread]))

section

variable {s : State} {ch b : Nat} (hch : ch < 32) (hs : s.pwr.standby = true) (hb : b < 65536) (hgood : (s.nand (ch * 65536 + b)).bad = false)

include hch hs hb hgood

/-- READ_DISTURB_RELOCATION of a block that has been read too often, or that needed a soft retry (R385). -/
theorem readDisturbRelocation_moves (hread : 50000 ≤ (s.nand (ch * 65536 + b)).reads ∨ (s.nand (ch * 65536 + b)).soft = true) :
    ∃ t d, exec (.readDisturbRelocation ch b) s = .next (t.eraseBlock (ch * 65536 + b)) ∧ s.remaps t ∧ d / 65536 = ch ∧ s.Emptied (ch * 65536 + b) d t := by
  obtain ⟨hmaps, d, hd, h⟩ := s.emptied_pickBlock (b := ch * 65536 + b) (some 11) hch (by omega)
  exact ⟨_, d, (exec_readDisturbRelocation hch hs hb hgood).trans (when_pos (by simpa using hread)), hmaps, hd, h⟩

theorem readDisturbRelocation_fresh (hreads : (s.nand (ch * 65536 + b)).reads < 50000) (hsoft : (s.nand (ch * 65536 + b)).soft = false) :
    exec (.readDisturbRelocation ch b) s = .next s :=
  (exec_readDisturbRelocation hch hs hb hgood).trans (when_neg (by simp [hreads, hsoft]))

/-- PROGRAM_FAILURE: the data of the block lies elsewhere, and the block is bad and retired (R387). -/
theorem programFailure_moves : ∃ t d c, exec (.programFailure ch b) s = .next (t.retire.withCtr c) ∧ s.remaps t ∧ d / 65536 = ch ∧
    (∀ f, f ∈ (s.nand (ch * 65536 + b)).live → t.blockOf f = some d) ∧ (∀ f, f ∉ (s.nand (ch * 65536 + b)).live → t.blockOf f = s.blockOf f) ∧
    (t.nand (ch * 65536 + b)).bad = true := by
  obtain ⟨c, hexec⟩ := exec_programFailure hch hs hb hgood
  obtain ⟨hmaps, d, hd, h⟩ := (s.updBlock (ch * 65536 + b) NandBlock.asBad).emptied_pickBlock (b := ch * 65536 + b) none hch (by omega)
  have hnand : (s.updBlock (ch * 65536 + b) NandBlock.asBad).nand (ch * 65536 + b) = (s.nand (ch * 65536 + b)).asBad :=
    (Sparse.get_upd _ _ _ _ NandBlock.asBad).trans (if_pos rfl)
  refine ⟨_, d, c, hexec, (s.moves_updBlock _ _).remaps.trans hmaps, hd, fun f hf => h.live (by rw [hnand]; exact hf), fun f hf => h.other (by rw [hnand]; exact hf), ?_⟩
  rw [h.bad, hnand, NandBlock.asBad]

end

/-- What retiring a block whose data has moved leaves as it was. -/
theorem State.remaps.retire_frame {s t : State} (h : s.remaps t) (c : Counters) : t.retire.withCtr c = { s with
    flash := { s.flash with map := t.flash.map, page := t.flash.page, openBlk := t.flash.openBlk, blocks := t.flash.blocks, retired := s.flash.retired + 1 },
    ctr := c, freeIx := t.freeIx } := by
  obtain ⟨_, _, _, _, _, _, rfl⟩ := h
  rfl

/-- GARBAGE_COLLECTION empties and erases every block of the channel that holds invalid pages (R383, R386). -/
theorem garbageCollection_collects {s : State} {ch : Nat} (hch : ch < 32) (hs : s.pwr.standby = true) : ∃ t, exec (.garbageCollection ch) s = .next t ∧
    s.Collects ch t ∧ ∀ b, b ∈ s.blocksOf ch → 0 < b.2.dead → (s.nand b.1).erases + 1 ≤ (t.nand b.1).erases := by
  obtain ⟨hall, hone⟩ := State.collects_foldl hch ((s.blocksOf ch).filter fun e => decide (0 < e.2.dead)) s fun e he => State.mem_blocksOf (List.mem_filter.mp he).1
  exact ⟨_, exec_garbageCollection hch hs, hall, fun b hb hdead => hone b (List.mem_filter.mpr ⟨hb, decide_eq_true hdead⟩)⟩

/-- FLASH_READ_ONLY sets what R389 says, once. -/
theorem exec_flashReadOnly {s : State} (hs : s.pwr.standby = true) : (s.sys.flashRo = true → exec .flashReadOnly s = .next s) ∧
    (s.sys.flashRo = false → ∃ c, exec .flashReadOnly s =
      .next { s with sys := { s.sys with flashRo := true }, flash := { s.flash with worn := true }, ctr := c }) :=
  ⟨fun hro => when_neg (by rw [hs, hro]; rfl), fun hro => ⟨_, when_pos (by rw [hs, hro]; rfl)⟩⟩

theorem exec_noChannel (s : State) {ch : Nat} (h : 32 ≤ ch) :
    exec (.wearLevelling ch) s = .fault (.absentPart "channel") ∧ exec (.garbageCollection ch) s = .fault (.absentPart "channel") ∧
      ∀ b, exec (.readDisturbRelocation ch b) s = .fault (.absentPart "block") ∧ exec (.programFailure ch b) s = .fault (.absentPart "block") := by
  have hno : hasChannel ch = false := decide_eq_false (Nat.not_lt.mpr h)
  have hblock (b : Nat) : (hasChannel ch && decide (b < 65536)) = false := by rw [hno, Bool.false_and]
  exact ⟨needPart_neg hno, needPart_neg hno, fun b => ⟨needPart_neg (hblock b), needPart_neg (hblock b)⟩⟩

/-- Settles O51: what empties a block puts its frames into another block of the channel and leaves the other frames where they lie; erasing and retiring move no frame. -/
theorem flashTranslation : Obligations.FlashTranslation := by
  refine ⟨fun s ch lo hi hch hs hlo hhi => ⟨fun hspread hne => ?wear, fun hspread => wearLevelling_even hch hs hlo hhi hspread⟩,
    fun s ch b hch hb hs hgood => ⟨fun hread => ?disturb, fun hreads hsoft => readDisturbRelocation_fresh hch hs hb hgood hreads hsoft, ?failure⟩,
    fun s ch hch hs => ?collect, fun s hs => ⟨(exec_flashReadOnly hs).1, fun hro => ?readOnly⟩, fun s ch h => exec_noChannel s h⟩
  case wear =>
    obtain ⟨t, hexec, hmoves, h⟩ := wearLevelling_moves hch hs hlo hhi hspread hne
    have herased := t.nand_eraseBlock_self lo.1
    refine ⟨_, hexec, (hmoves.trans (t.moves_eraseBlock lo.1)).frame, fun f hf => h.live hf, fun f hf => h.other hf, ?_, ?_, ?_⟩
    · exact (congrArg NandBlock.erases herased).trans (congrArg (· + 1) (h.erases lo.1))
    · exact congrArg NandBlock.reads herased
    · exact congrArg NandBlock.dead herased
  case disturb =>
    obtain ⟨t, d, hexec, hmaps, hd, h⟩ := readDisturbRelocation_moves hch hs hb hgood hread
    have herased := t.nand_eraseBlock_self (ch * 65536 + b)
    refine ⟨_, hexec, (hmaps.trans (t.moves_eraseBlock _).remaps).frame, ⟨d, hd, fun f hf => h.live hf⟩, fun f hf => h.other hf, ?_, ?_, ?_⟩
    · exact congrArg NandBlock.reads herased
    · exact congrArg NandBlock.soft herased
    · exact (congrArg NandBlock.erases herased).trans (congrArg (· + 1) (h.erases _))
  case failure =>
    obtain ⟨t, d, c, hexec, hmaps, hd, hlive, hother, hbad⟩ := programFailure_moves hch hs hb hgood
    exact ⟨_, hexec, hmaps.retire_frame c, ⟨d, hd, hlive⟩, hother, hbad⟩
  case collect =>
    obtain ⟨t, hexec, hall, herases⟩ := garbageCollection_collects hch hs
    exact ⟨t, hexec, hall.remaps.frame, hall.moved, herases⟩
  case readOnly =>
    obtain ⟨c, hexec⟩ := (exec_flashReadOnly hs).2 hro
    exact ⟨_, hexec, rfl⟩

end Sys2Proof.Machine

end

/-! ### Weights and images written by the host -/

section

namespace Sys2Proof.Machine

/-! #### What the host commands share -/

theorem fit_of_length {n : Nat} {bs : List Byte} (h : bs.length = n) : fit n bs = bs := by
  subst h
  simp [fit]

/-- The request that an edit is for holds the edit. -/
theorem State.req_updReq {s : State} {rid : Nat} {r : Req} {f : Req → Req} (hf : ∀ x, (f x).rid = x.rid) (hr : s.req rid = some r) :
    (s.updReq rid f).req rid = some (f r) := by
  have hid : r.rid = rid := by simpa using List.find?_some hr
  have hkeep (x : Req) : (if x.rid = rid then f x else x).rid = x.rid := by
    split
    · exact hf x
    · rfl
  refine (find?_map_rid _ hkeep rid s.reqs).trans ?_
  rw [show s.reqs.find? (fun x => x.rid == rid) = some r from hr, Option.map_some, if_pos hid]

/-- A command of the merge with good fields goes the way of its row. -/
theorem State.decodeCmd_good {s : State} {rid : Nat} {r : Req} {op : Byte} (f : Req → State) (hr : s.req rid = some r) (ht : s.ticking = true)
    (hop : r.opcode = op) (hk : r.takeable = true) (hgood : Entry.fieldsOk r.entry = true) : s.decodeCmd rid op f = .next (f r) := by
  rw [← hop, State.decodeCmd_takeable f hr ht hk, if_pos hgood]

/-- The state in which a request holds the data read for it. -/
def State.withRead (s : State) (rid : Nat) (bs : List Byte) (c : Counters) : State :=
  (s.withCtr c).updReq rid fun q => { q with data := bs, dataRead := true }

/-- Data of the length asked for is read as it is, and only counted besides. -/
theorem State.readData_some (s : State) (r : Req) {n : Nat} {bs : List Byte} (f : List Byte → State → State) (h : bs.length = n) :
    ∃ c, s.readData r n (some bs) f = f bs (s.withRead r.rid bs c) := by
  simp only [State.readData, fit_of_length h]
  split <;> exact ⟨_, rfl⟩

theorem State.req_withRead {s : State} {rid : Nat} {r : Req} (bs : List Byte) (c : Counters) (hr : s.req rid = some r) :
    (s.withRead rid bs c).req rid = some { r with data := bs, dataRead := true } :=
  State.req_updReq (s := s.withCtr c) (f := fun q => { q with data := bs, dataRead := true }) (fun _ => rfl) hr

/-! #### LOAD_WEIGHTS -/

/-- The header that a load is checked against: the one that it brings, where it brings block 0 (R656). -/
def State.loadHeader (s : State) (r : Req) (bs : List Byte) : List Byte := if r.e.w4 = 0 then newHeader s.wt.header bs else s.wt.header

/-- R656 forbids the load: there is no header, its range leaves the image, or the header that it brings is bad. -/
def State.loadForbidden (s : State) (r : Req) (bs : List Byte) : Prop :=
  s.loadHeader r bs = [] ∨ whTotal (s.loadHeader r bs) < r.e.w4 + r.e.w5 ∨ (r.e.w4 = 0 ∧ weightHeaderOk s.img.model s.img.modelDigest (s.loadHeader r bs) = false)

theorem State.loadBlocks_forbidden {s : State} {r : Req} {bs : List Byte} (h : s.loadForbidden r bs) :
    s.loadBlocks r bs = s.updReq r.rid fun q => { q with stage := .finishing, status := 4, data := [] } :=
  if_pos (by simpa [State.loadForbidden, State.loadHeader] using h)

theorem State.loadBlocks_allowed {s : State} {r : Req} {bs : List Byte} (h : ¬s.loadForbidden r bs) : s.loadBlocks r bs = s.writeWeights r bs :=
  if_neg (by simpa [State.loadForbidden, State.loadHeader] using h)

/-- The state with the blocks of a load in the authoritative copy and in the mirror, another header and other counters. -/
def State.withWeights (s : State) (a : Nat) (bs header : List Byte) (c : Counters) : State :=
  { s with wt := { s.wt with data := Mem.write s.wt.data a bs, mirror := Mem.write s.wt.mirror a bs, header := header }, ctr := c }

theorem State.writeWeights_eq (s : State) (r : Req) (bs : List Byte) : ∃ h c,
    s.writeWeights r bs = (s.withWeights (r.e.w4 * 16384) bs h c).stageCmd r.rid ∧ (r.e.w4 = 0 → h = newHeader s.wt.header bs) :=
  ⟨_, _, rfl, fun h => if_pos h⟩

theorem exec_loadWeights {s : State} {r : Req} (d : HostRead) (hr : s.req r.rid = some r) (ht : s.ticking = true) (hop : r.opcode = 7) (hk : r.takeable = true)
    (hgood : Entry.fieldsOk r.entry = true) : exec (.loadWeights r.rid d) s = .next
      (if s.sys.flashRo then s.updReq r.rid fun q => q.fail 0xC
       else if s.hasWork then s.holdCmd r.rid
       else s.readData r (16384 * r.e.w5) d fun bs s => s.loadBlocks r bs) := by
  change execLoadWeights r.rid d s = _
  rw [execLoadWeights, State.decodeCmd_good _ hr ht hop hk hgood]

section

variable {s : State} {r : Req} {bs : List Byte} (hr : s.req r.rid = some r) (c : Counters)

include hr

/-- A load that R656 forbids ends with INVALID_FIELD and writes nothing. -/
theorem State.load_forbidden (h : s.loadForbidden r bs) : ∃ t, (s.withRead r.rid bs c).loadBlocks r bs = t ∧
    t = { s with reqs := t.reqs, ctr := t.ctr } ∧ ∃ u, t.req r.rid = some u ∧ u.stage = .finishing ∧ u.status = 4 := by
  have hreq := State.req_updReq (f := fun q => { q with stage := .finishing, status := 4, data := [] }) (fun _ => rfl) (State.req_withRead bs c hr)
  exact ⟨_, State.loadBlocks_forbidden (s := s.withRead r.rid bs c) h, rfl, _, hreq, rfl, rfl⟩

/-- A load that R656 allows writes its blocks to both copies, and nothing outside them, and is staged. -/
theorem State.load_allowed (h : ¬s.loadForbidden r bs) (hlen : bs.length = 16384 * r.e.w5) : ∃ t, (s.withRead r.rid bs c).loadBlocks r bs = t ∧
    t = { s with reqs := t.reqs, ctr := t.ctr, wt := { s.wt with data := t.wt.data, mirror := t.wt.mirror, header := t.wt.header } } ∧
    (∃ u, t.req r.rid = some u ∧ u.stage = .staged) ∧ (r.e.w4 = 0 → t.wt.header = s.loadHeader r bs) ∧
    (∀ i b, bs[i]? = some b → Mem.read t.wt.data (16384 * r.e.w4 + i) = b ∧ Mem.read t.wt.mirror (16384 * r.e.w4 + i) = b) ∧
    ∀ a, a < 16384 * r.e.w4 ∨ 16384 * (r.e.w4 + r.e.w5) ≤ a → Mem.read t.wt.data a = Mem.read s.wt.data a ∧ Mem.read t.wt.mirror a = Mem.read s.wt.mirror a := by
  obtain ⟨hd, c', hwrite, hhd⟩ := (s.withRead r.rid bs c).writeWeights_eq r bs
  have hin (m : Mem) {i : Nat} {b : Byte} (hi : bs[i]? = some b) : Mem.read (Mem.write m (r.e.w4 * 16384) bs) (16384 * r.e.w4 + i) = b := by
    obtain ⟨hlt, rfl⟩ := List.getElem?_eq_some_iff.mp hi
    rw [Nat.mul_comm, Mem.read_write_in m _ i bs hlt]
  have hout (m : Mem) {a : Nat} (ha : a < 16384 * r.e.w4 ∨ 16384 * (r.e.w4 + r.e.w5) ≤ a) : Mem.read (Mem.write m (r.e.w4 * 16384) bs) a = Mem.read m a :=
    Mem.read_write_out m _ a bs (by omega)
  have hreq := State.req_updReq (s := (s.withRead r.rid bs c).withWeights (r.e.w4 * 16384) bs hd c') (f := fun q => { q with stage := .staged })
    (fun _ => rfl) (State.req_withRead bs c hr)
  have hheader (h0 : r.e.w4 = 0) : hd = s.loadHeader r bs := by
    rw [State.loadHeader, if_pos h0]
    exact hhd h0
  exact ⟨_, (State.loadBlocks_allowed (s := s.withRead r.rid bs c) h).trans hwrite, rfl, ⟨_, hreq, rfl⟩, hheader,
    fun i b hi => ⟨hin _ hi, hin _ hi⟩, fun a ha => ⟨hout _ ha, hout _ ha⟩⟩

end

theorem weightsLoad : WeightsLoad := by
  rintro s _ r bs hr rfl ht hop hk hgood
  have hexec := exec_loadWeights (some bs) hr ht hop hk hgood
  refine ⟨fun hro => ?_, fun hro hwork => ?_, fun hro hwork hlen => ?_⟩
  · rw [hexec, if_pos hro]
    rfl
  · rw [hexec, hro, if_neg Bool.false_ne_true, if_pos hwork]
    rfl
  · rw [hro, hwork, if_neg Bool.false_ne_true, if_neg Bool.false_ne_true] at hexec
    obtain ⟨c, hread⟩ := s.readData_some r (fun bs s => s.loadBlocks r bs) hlen
    rw [hread] at hexec
    by_cases hbad : s.loadForbidden r bs
    · obtain ⟨t, hload, hframe, hends⟩ := State.load_forbidden hr c hbad
      have hwt : t.wt = s.wt := by rw [hframe]
      refine ⟨t, hexec.trans (congrArg _ hload), ?_, fun _ => ⟨hwt, hends⟩, fun h1 h2 h3 => ?_⟩
      · rw [hwt]
        exact hframe
      · rcases hbad with h | h | ⟨h0, h⟩
        · exact absurd h h1
        · exact absurd h2 (Nat.not_le.mpr h)
        · exact absurd (h3 h0) (Bool.eq_false_iff.mp h)
    · obtain ⟨t, hload, hframe, hall⟩ := State.load_allowed hr c hbad hlen
      exact ⟨t, hexec.trans (congrArg _ hload), hframe, fun h => absurd h hbad, fun _ _ _ => hall⟩

/-! #### WRITE_IMAGE -/

/-- Free values in a range of the NOR leave every byte outside it alone. -/
theorem State.norScramble_eq (s : State) (off n : Nat) : ∃ m, s.norScramble off n = { s with nor := m, freeIx := s.freeIx + n } ∧
    ∀ a, a < off ∨ off + n ≤ a → Sparse.get norBlank m a = Sparse.get norBlank s.nor a :=
  ⟨_, rfl, fun a ha => norWrite_out _ _ a _ (by simpa [State.freeBytes] using ha)⟩

/-- The state in which the write of a request's image runs. -/
def State.imageRuns (s : State) (r : Req) : State :=
  ({ s.norScramble r.e.norOffset r.e.length with norBusy := [⟨r.rid, r.e.norOffset, r.e.length⟩] } : State).updReq r.rid fun q => { q with stage := .waiting }

theorem exec_writeImage {s : State} {r : Req} (d : HostRead) (hr : s.req r.rid = some r) (ht : s.ticking = true) (hop : r.opcode = 0xF) (hk : r.takeable = true)
    (hgood : Entry.fieldsOk r.entry = true) : exec (.writeImage r.rid d) s = .next
      (if s.norBusy != [] || s.heldBefore r.rid (fun q => q.opcode == 0xF) then s.holdCmd r.rid
       else s.readData r r.e.length d fun _ s => s.imageRuns r) := by
  change execWriteImage r.rid d s = _
  rw [execWriteImage, State.decodeCmd_good _ hr ht hop hk hgood]
  rfl

/-- WRITE_IMAGE: held behind the write that runs or one that arrived earlier; otherwise it runs. -/
theorem writeImage_starts {s : State} {r : Req} {bs : List Byte} (hr : s.req r.rid = some r) (ht : s.ticking = true) (hk : r.takeable = true) (hop : r.opcode = 0xF)
    (hgood : Entry.fieldsOk r.entry = true) (hlen : bs.length = r.e.length) (hfree : s.norBusy = []) (hfirst : s.heldBefore r.rid (fun q => q.opcode == 0xF) = false) :
    ∃ t, exec (.writeImage r.rid (some bs)) s = .next t ∧
      t = { s with reqs := t.reqs, ctr := t.ctr, nor := t.nor, freeIx := t.freeIx, norBusy := [⟨r.rid, r.e.norOffset, r.e.length⟩] } ∧
      t.req r.rid = some { r with data := bs, dataRead := true, stage := .waiting } ∧
      ∀ a, a < r.e.norOffset ∨ r.e.norOffset + r.e.length ≤ a → Sparse.get norBlank t.nor a = Sparse.get norBlank s.nor a := by
  have hexec := exec_writeImage (some bs) hr ht hop hk hgood
  rw [hfree, hfirst, if_neg (by decide)] at hexec
  obtain ⟨c, hread⟩ := s.readData_some r (fun _ s => s.imageRuns r) hlen
  obtain ⟨m, hscramble, hout⟩ := (s.withRead r.rid bs c).norScramble_eq r.e.norOffset r.e.length
  rw [hread, State.imageRuns, hscramble] at hexec
  exact ⟨_, hexec, rfl, State.req_updReq (f := fun q => { q with stage := .waiting }) (fun _ => rfl) (State.req_withRead bs c hr), hout⟩

/-! #### NOR_PROGRAM_COMPLETE -/

section

variable {s : State} {w : NorWrite} {r : Req} (hbusy : s.norBusy = [w]) (hr : s.req w.rid = some r)

include hbusy hr

theorem exec_norProgramComplete_matched : exec (.norProgramComplete false) s = .next
    (({ s with nor := norWrite s.nor w.offset r.data, norBusy := [] } : State).updReq w.rid fun q =>
      { q with stage := .finishing, result0 := BitVec.ofNat 32 w.bytes, data := [] }) := by
  have hr' : ({ s with norBusy := [] } : State).req w.rid = some r := hr
  change execNorProgramComplete false s = _
  simp only [execNorProgramComplete, hbusy, hr', Bool.false_eq_true, if_false]

theorem exec_norProgramComplete_mismatch : ∃ v n, exec (.norProgramComplete true) s = .next
    (({ ({ s with norBusy := [] } : State).norScramble w.offset w.bytes with freeIx := n } : State).updReq w.rid fun q =>
      { q.fail 0x13 with result0 := v, data := [] }) := by
  have hr' : ({ s with norBusy := [] } : State).req w.rid = some r := hr
  change ∃ v n, execNorProgramComplete true s = _
  simp only [execNorProgramComplete, hbusy, hr', if_true]
  exact ⟨_, _, rfl⟩

theorem norProgramComplete_ends (hlen : r.data.length = w.bytes) : ∃ t, exec (.norProgramComplete false) s = .next t ∧
    t = { s with reqs := t.reqs, nor := t.nor, norBusy := [] } ∧ t.req w.rid = some { r with stage := .finishing, result0 := BitVec.ofNat 32 w.bytes, data := [] } ∧
    (∀ i b, r.data[i]? = some b → Sparse.get norBlank t.nor (w.offset + i) = b) ∧
    ∀ a, a < w.offset ∨ w.offset + w.bytes ≤ a → Sparse.get norBlank t.nor a = Sparse.get norBlank s.nor a := by
  refine ⟨_, exec_norProgramComplete_matched hbusy hr, rfl, ?_, fun i b hi => ?_, fun a ha => norWrite_out _ _ a _ (by rwa [hlen])⟩
  · exact State.req_updReq (f := fun q => { q with stage := .finishing, result0 := BitVec.ofNat 32 w.bytes, data := [] }) (fun _ => rfl) hr
  · obtain ⟨hlt, rfl⟩ := List.getElem?_eq_some_iff.mp hi
    exact Sparse.get_setList_in norBlank r.data s.nor w.offset i hlt

theorem norProgramComplete_fails : ∃ t, exec (.norProgramComplete true) s = .next t ∧
    t = { s with reqs := t.reqs, nor := t.nor, norBusy := [], freeIx := t.freeIx } ∧
    (∃ u, t.req w.rid = some u ∧ u = { r with stage := .finishing, status := 0x13, data := [], result0 := u.result0 }) ∧
    ∀ a, a < w.offset ∨ w.offset + w.bytes ≤ a → Sparse.get norBlank t.nor a = Sparse.get norBlank s.nor a := by
  obtain ⟨v, n, hexec⟩ := exec_norProgramComplete_mismatch hbusy hr
  obtain ⟨m, hscramble, hout⟩ := ({ s with norBusy := [] } : State).norScramble_eq w.offset w.bytes
  rw [hscramble] at hexec
  exact ⟨_, hexec, rfl, ⟨_, State.req_updReq (f := fun q => { q.fail 0x13 with result0 := v, data := [] }) (fun _ => rfl) hr, rfl⟩, hout⟩

end

theorem imageWrites : ImageWrites := by
  refine ⟨?_, fun s w r hbusy hr _ hlen => ⟨norProgramComplete_ends hbusy hr hlen, norProgramComplete_fails hbusy hr⟩, fun s mismatch hidle => ?_⟩
  · rintro s _ r bs hr rfl ht hk hop hgood hlen
    refine ⟨fun hwait => ?_, fun hfree hfirst => writeImage_starts hr ht hk hop hgood hlen hfree hfirst⟩
    rw [exec_writeImage (some bs) hr ht hop hk hgood, if_pos (by simpa using hwait)]
    rfl
  · change execNorProgramComplete mismatch s = _
    rw [execNorProgramComplete, hidle]

/-- Settles O23: a load is refused, held or written whole to both copies, and the one image write that runs touches its range alone. -/
theorem storedImages : Obligations.StoredImages := ⟨weightsLoad, imageWrites⟩

end Sys2Proof.Machine

end

/-! ### Edits of vector indexes -/

section

namespace Sys2Proof.Machine

/-! #### Where an index command goes -/

theorem State.onIndex_offline {s : State} {r : Req} (f : VIndex → State) (h : s.homeOf r.e.indexId = none) :
    s.onIndex r f = s.updReq r.rid fun q => q.fail 0xD := by
  rw [State.onIndex, h]

theorem State.onIndex_home {s : State} {r : Req} {x : VIndex} (f : VIndex → State) (hhome : s.homeOf r.e.indexId = some s.crew.coord)
    (hx : s.index r.e.indexId = some x) : s.onIndex r f = f x := by
  simp only [State.onIndex, hhome, hx, ne_eq, not_true_eq_false, if_false]

/-! #### What the row of an edit does -/

/-- An insertion into an index that this module homes (R457, R461). -/
def State.insertInto (s : State) (r : Req) (d : HostRead) (x : VIndex) : State :=
  if s.editWaits r.rid r.e.indexId x then s.holdCmd r.rid
  else s.readData r (4 * ixM x.record) d fun bs t => t.updReq r.rid fun q => { q with data := encodeSketch x.codebook bs (ixM x.record), stage := .staged }

/-- A deletion from an index that this module homes (R459, R461). -/
def State.deleteFrom (s : State) (r : Req) (x : VIndex) : State :=
  if s.editWaits r.rid r.e.indexId x then s.holdCmd r.rid else s.stageCmd r.rid

/-- A codebook reload of the index that arrived earlier still waits (R473). -/
def State.reloadHeld (s : State) (r : Req) : Bool := s.heldBefore r.rid fun q => q.opcode == 0xA && q.e.codebook && q.e.indexId == r.e.indexId

/-- A codebook reload of an index that this module homes (R471, R473). -/
def State.reloadOf (s : State) (r : Req) (d : HostRead) (x : VIndex) : State :=
  if x.merge.isSome || s.reloadHeld r then s.holdCmd r.rid else s.readData r (1024 * ixM x.record) d fun _ t => t.stageCmd r.rid

/-- Any edit of an index: FLASH_RO refuses it, and `f` is what the index's home does with it. -/
def State.editIndex (s : State) (r : Req) (f : VIndex → State) : State :=
  if s.sys.flashRo then s.updReq r.rid fun q => q.fail 0xC else s.onIndex r f

theorem State.editIndex_home {s : State} {r : Req} {x : VIndex} (f : VIndex → State) (hro : s.sys.flashRo = false)
    (hhome : s.homeOf r.e.indexId = some s.crew.coord) (hx : s.index r.e.indexId = some x) : s.editIndex r f = f x := by
  rw [State.editIndex, hro, if_neg Bool.false_ne_true, State.onIndex_home f hhome hx]

section

variable {s : State} {r : Req} (hr : s.req r.rid = some r) (ht : s.ticking = true) (hk : r.takeable = true) (hgood : Entry.fieldsOk r.entry = true)

include hr ht hk hgood

theorem exec_vecInsert (d : HostRead) (hop : r.opcode = 0xA) (hc : r.e.codebook = false) :
    exec (.vecInsert r.rid d) s = .next (s.editIndex r (s.insertInto r d)) := by
  change execVecInsert r.rid d s = _
  rw [execVecInsert, State.decodeCmd_good _ hr ht hop hk hgood, hc, if_neg Bool.false_ne_true]
  rfl

theorem exec_vecDelete (hop : r.opcode = 0xB) : exec (.vecDelete r.rid) s = .next (s.editIndex r (s.deleteFrom r)) := by
  change execVecDelete r.rid s = _
  rw [execVecDelete, State.decodeCmd_good _ hr ht hop hk hgood]
  rfl

theorem exec_codebookReload (d : HostRead) (hop : r.opcode = 0xA) (hc : r.e.codebook = true) :
    exec (.codebookReload r.rid d) s = .next (s.editIndex r (s.reloadOf r d)) := by
  change execCodebookReload r.rid d s = _
  rw [execCodebookReload, State.decodeCmd_good _ hr ht hop hk hgood, hc, if_neg (by decide)]
  rfl

/-- The three edits differ only in what the index's home does. -/
theorem exec_indexEdit (d : HostRead) {i : Instr} (hi : (i = .vecInsert r.rid d ∧ r.opcode = 0xA ∧ r.e.codebook = false) ∨
    (i = .vecDelete r.rid ∧ r.opcode = 0xB) ∨ (i = .codebookReload r.rid d ∧ r.opcode = 0xA ∧ r.e.codebook = true)) :
    ∃ f, exec i s = .next (s.editIndex r f) := by
  rcases hi with ⟨rfl, hop, hc⟩ | ⟨rfl, hop⟩ | ⟨rfl, hop, hc⟩
  · exact ⟨_, exec_vecInsert hr ht hk hgood d hop hc⟩
  · exact ⟨_, exec_vecDelete hr ht hk hgood hop⟩
  · exact ⟨_, exec_codebookReload hr ht hk hgood d hop hc⟩

end

section

variable {s : State} {r : Req} (hr : s.req r.rid = some r) {x : VIndex} {bs : List Byte}

theorem State.insertInto_held (d : HostRead) (hw : s.editWaits r.rid r.e.indexId x = true) : s.insertInto r d x = s.holdCmd r.rid := if_pos hw

theorem State.deleteFrom_eq (s : State) (r : Req) (x : VIndex) :
    s.deleteFrom r x = s.updReq r.rid fun q => { q with stage := if s.editWaits r.rid r.e.indexId x = true then .held else .staged } := by
  unfold State.deleteFrom
  split <;> rfl

theorem State.reloadOf_held (d : HostRead) (hw : x.merge.isSome = true ∨ s.reloadHeld r = true) : s.reloadOf r d x = s.holdCmd r.rid :=
  if_pos (Bool.or_eq_true_iff.mpr hw)

include hr

/-- Where reading its data only edits the request, the request holds the data and the edit, and nothing else is touched but counters. -/
theorem State.readData_edit {n : Nat} {f : List Byte → State → State} (g : Req → Req) (hg : ∀ q, (g q).rid = q.rid)
    (hf : ∀ c, f bs (s.withRead r.rid bs c) = (s.withRead r.rid bs c).updReq r.rid g) (hlen : bs.length = n) :
    ∃ t, s.readData r n (some bs) f = t ∧ t = { s with reqs := t.reqs, ctr := t.ctr } ∧ t.req r.rid = some (g { r with data := bs, dataRead := true }) := by
  obtain ⟨c, hread⟩ := s.readData_some r f hlen
  exact ⟨_, hread.trans (hf c), rfl, State.req_updReq hg (State.req_withRead bs c hr)⟩

theorem State.insertInto_staged (hw : s.editWaits r.rid r.e.indexId x = false) (hlen : bs.length = 4 * ixM x.record) :
    ∃ t, s.insertInto r (some bs) x = t ∧ t = { s with reqs := t.reqs, ctr := t.ctr } ∧
      t.req r.rid = some { r with data := encodeSketch x.codebook bs (ixM x.record), dataRead := true, stage := .staged } := by
  rw [State.insertInto, hw, if_neg Bool.false_ne_true]
  exact State.readData_edit hr (fun q => { q with data := encodeSketch x.codebook bs (ixM x.record), stage := .staged }) (fun _ => rfl) (fun _ => rfl) hlen

theorem State.reloadOf_staged (hm : x.merge = none) (hw : s.reloadHeld r = false) (hlen : bs.length = 1024 * ixM x.record) :
    ∃ t, s.reloadOf r (some bs) x = t ∧ t = { s with reqs := t.reqs, ctr := t.ctr } ∧
      t.req r.rid = some { r with data := bs, dataRead := true, stage := .staged } := by
  rw [State.reloadOf, hm, hw, if_neg (by decide)]
  exact State.readData_edit hr (fun q => { q with stage := .staged }) (fun _ => rfl) (fun _ => rfl) hlen

end

/-- Settles O21: FLASH_RO and a missing home end an edit; at its home each edit is held behind what the rules name, and otherwise staged with the index as it was. -/
theorem indexEdits : Obligations.IndexEdits := by
  rintro s _ r x bs hr rfl ht hk hgood
  refine ⟨fun hro i hi => ?_, fun hro hhome i hi => ?_, ?_, fun hro hhome hx => ?_⟩
  · obtain ⟨f, hexec⟩ := exec_indexEdit hr ht hk hgood (some bs) hi
    rw [hexec, State.editIndex, if_pos hro]
    rfl
  · obtain ⟨f, hexec⟩ := exec_indexEdit hr ht hk hgood (some bs) hi
    rw [hexec, State.editIndex, hro, if_neg Bool.false_ne_true, State.onIndex_offline f hhome]
    rfl
  · rw [State.editWaits, Bool.or_eq_true_iff, decide_eq_true_iff]
  · have home (f : VIndex → State) : s.editIndex r f = f x := State.editIndex_home f hro hhome hx
    refine ⟨fun hop hc hw hlen => ?_, fun hop hc hw => ?_, fun hop => ?_, fun hop hc hw => ?_, fun hop hc hm hw hlen => ?_⟩
    · rw [exec_vecInsert hr ht hk hgood _ hop hc, home]
      obtain ⟨t, hins, hstaged⟩ := State.insertInto_staged hr hw hlen
      exact ⟨t, congrArg _ hins, hstaged⟩
    · rw [exec_vecInsert hr ht hk hgood _ hop hc, home, State.insertInto_held _ hw]
      rfl
    · rw [exec_vecDelete hr ht hk hgood hop, home, State.deleteFrom_eq]
    · rw [exec_codebookReload hr ht hk hgood _ hop hc, home, State.reloadOf_held _ hw]
      rfl
    · rw [exec_codebookReload hr ht hk hgood _ hop hc, home]
      obtain ⟨t, hload, hstaged⟩ := State.reloadOf_staged hr hm hw hlen
      exact ⟨t, congrArg _ hload, hstaged⟩

end Sys2Proof.Machine

end

/-! ### Vector searches decoded and admitted -/

section

namespace Sys2Proof.Machine

/-! #### VEC_SEARCH -/

theorem exec_vecSearch {s : State} {r : Req} {x : VIndex} (hr : s.req r.rid = some r) (ht : s.ticking = true) (hk : r.takeable = true) (hop : r.opcode = 0xC)
    (hgood : Entry.fieldsOk r.entry = true) (hhome : s.homeOf r.e.indexId = some s.crew.coord) (hx : s.index r.e.indexId = some x) (d : HostRead) :
    exec (.vecSearch r.rid d) s = .next
      (if searchL r.e x < r.e.k then s.updReq r.rid fun q => q.fail 4
       else s.readData r (4 * ixM x.record) d fun _ t => t.updReq r.rid fun q => { q with stage := if t.tick.hold then .held else .waiting }) := by
  change execVecSearch r.rid d s = _
  rw [execVecSearch, State.decodeCmd_good _ hr ht hop hk hgood, State.onIndex_home _ hhome hx]

/-! #### SEARCH_ADMISSION -/

/-- A search of index `x` as its admission to slot `n` leaves it, before the start of its tick (R446, R447). -/
def Req.newSearch (r : Req) (n start : Nat) (x : VIndex) : Search :=
  { slot := n, rid := r.rid, index := r.e.indexId, start := start, k := r.e.k, l := searchL r.e x, maxHops := searchHops r.e x,
    table := [], graph := [], sideIns := [], deleted := [] }

/-- The state with a search admitted and counted. -/
def State.admitSearch (s : State) (r : Req) (n : Nat) (x : VIndex) : State :=
  (({ s with searches := s.searches ++ [r.newSearch n (s.tick.num + 1) x] } : State).updReq r.rid fun q => { q with stage := .admitted }).indexCount r.e.indexId 0

theorem exec_searchAdmission {s : State} {r w : Req} {x : VIndex} {n : Nat} (hr : s.req r.rid = some r) (hx : s.index r.e.indexId = some x)
    (hw : s.waitingSearch = some w) (hn : s.freeSearchSlot (ixM x.record) = some n) : exec (.searchAdmission r.rid) s = .next
      (if s.ticking && w.rid == r.rid && !s.tick.hold && !s.tick.planDone then s.admitSearch r n x else s) := by
  change execSearchAdmission r.rid s = _
  simp only [execSearchAdmission, hr, hx, hw, hn]
  rfl

/-- A search is admitted only by a plan that is still to be made, of a tick that is not held, and only the earliest one that waits. -/
theorem exec_searchAdmission_idle {s : State} {rid : Nat} (h : ∀ w, s.waitingSearch = some w → (s.ticking && w.rid == rid && !s.tick.hold && !s.tick.planDone) = false) :
    exec (.searchAdmission rid) s = .next s := by
  change execSearchAdmission rid s = _
  unfold execSearchAdmission
  split
  · rfl
  · split
    next w _ hw =>
      split
      · rw [when, h w hw, if_neg Bool.false_ne_true]
      · rfl
    next => rfl

/-- Settles O52: a search with L below K ends, any other reads its query and waits, and the plan admits the earliest one that waits. -/
theorem searchesStart : Obligations.SearchesStart := by
  refine ⟨?_, ?_, fun s rid w => ⟨fun hhold => ?_, fun hdone => ?_, fun hw hne => ?_⟩⟩
  · rintro s _ r x bs hr rfl ht hk hop hgood hhome hx hlen
    rw [exec_vecSearch hr ht hk hop hgood hhome hx]
    refine ⟨fun hlow => ?_, fun henough => ?_⟩
    · rw [if_pos hlow]
      rfl
    · rw [if_neg (Nat.not_lt.mpr henough)]
      obtain ⟨t, hread, hwaits⟩ := State.readData_edit hr (f := fun _ t => t.updReq r.rid fun q => { q with stage := if t.tick.hold then .held else .waiting })
        (fun q => { q with stage := if s.tick.hold then .held else .waiting }) (fun _ => rfl) (fun _ => rfl) hlen
      exact ⟨t, congrArg _ hread, hwaits⟩
  · rintro s _ n r x hr rfl hx hw hn ht hhold hdone
    rw [exec_searchAdmission hr hx hw hn, if_pos (by simp [ht, hhold, hdone])]
    exact ⟨_, rfl, rfl, State.req_updReq (f := fun q => { q with stage := .admitted }) (fun _ => rfl) hr⟩
  · exact exec_searchAdmission_idle fun w _ => by simp [hhold]
  · exact exec_searchAdmission_idle fun w _ => by simp [hdone]
  · exact exec_searchAdmission_idle fun v hv => by
      obtain rfl : w = v := Option.some.inj (hw.symm.trans hv)
      simp [hne]

end Sys2Proof.Machine

end

/-! ### Vector searches and indexes found by their numbers -/

section

namespace Sys2Proof.Machine

/-- An edit that does not change whether an element is the one looked for is found with it. -/
theorem find?_map_keeps {α : Type} {p : α → Bool} {f : α → α} (hf : ∀ y, p (f y) = p y) (l : List α) : (l.map f).find? p = (l.find? p).map f := by
  rw [List.find?_map]
  exact congrArg (fun p' => (l.find? p').map f) (funext hf)

section

variable {s t : State} {n id : Nat} {x : Search} {i : VIndex}

theorem State.search_slot (h : s.search n = some x) : x.slot = n := by simpa using List.find?_some h

theorem State.index_id (h : s.index id = some i) : ixId i.record = id := by simpa using List.find?_some h

/-- The search in a slot that an edit is for holds the edit. -/
theorem State.search_updSearch {f : Search → Search} (hf : ∀ y, y.slot = n → (f y).slot = n) (h : s.search n = some x) :
    (s.updSearch n f).search n = some (f x) := by
  have hkeep (y : Search) : ((if y.slot = n then f y else y).slot == n) = (y.slot == n) := by
    split
    next hy => rw [hf y hy, hy]
    next => rfl
  refine (find?_map_keeps hkeep s.searches).trans ?_
  rw [show s.searches.find? (fun y => y.slot == n) = some x from h, Option.map_some, if_pos (State.search_slot h)]

/-- The index that an edit is for holds the edit. -/
theorem State.index_updIndex {f : VIndex → VIndex} (hf : ∀ y, (f y).record = y.record) (h : s.index id = some i) :
    (s.updIndex id f).index id = some (f i) := by
  have hkeep (y : VIndex) : (ixId (if ixId y.record = id then f y else y).record == id) = (ixId y.record == id) := by
    split
    · rw [hf]
    · rfl
  refine (find?_map_keeps hkeep s.vidx).trans ?_
  rw [show s.vidx.find? (fun y => ixId y.record == id) = some i from h, Option.map_some, if_pos (State.index_id h)]

theorem State.counts.search_eq (h : s.counts t) (n : Nat) : t.search n = s.search n := by
  obtain ⟨c, rfl⟩ := h
  rfl

theorem State.counts.index_eq (h : s.counts t) (id : Nat) : t.index id = s.index id := by
  obtain ⟨c, rfl⟩ := h
  rfl

theorem State.counts.req_eq (h : s.counts t) (rid : Nat) : t.req rid = s.req rid := by
  obtain ⟨c, rfl⟩ := h
  rfl

theorem State.counts_indexCount (s : State) (id ev n : Nat) : s.counts (s.indexCount id ev n) := s.counts_count _ _ _ _

/-! #### Searches and indexes alone -/

/-- The two states differ at most in searches, vector indexes and counters. -/
def State.searching (s t : State) : Prop := ∃ xs vs c, t = { s with searches := xs, vidx := vs, ctr := c }

theorem State.searching.trans {u : State} (h1 : s.searching t) (h2 : t.searching u) : s.searching u := by
  obtain ⟨_, _, _, rfl⟩ := h1
  obtain ⟨xs, vs, c, rfl⟩ := h2
  exact ⟨xs, vs, c, rfl⟩

theorem State.searching.eq (h : s.searching t) : t = { s with searches := t.searches, vidx := t.vidx, ctr := t.ctr } := by
  obtain ⟨xs, vs, c, rfl⟩ := h
  rfl

theorem State.counts.searching (h : s.counts t) : s.searching t := by
  obtain ⟨c, rfl⟩ := h
  exact ⟨s.searches, s.vidx, c, rfl⟩

theorem State.searching_updSearch (s : State) (n : Nat) (f : Search → Search) : s.searching (s.updSearch n f) := ⟨_, s.vidx, s.ctr, rfl⟩

theorem State.searching_updIndex (s : State) (id : Nat) (f : VIndex → VIndex) : s.searching (s.updIndex id f) := ⟨s.searches, _, s.ctr, rfl⟩

/-! #### Lost nodes (R474) -/

theorem VIndex.loseNodes_eq (i : VIndex) (x : Search) (cs : List Nat) : i.loseNodes x cs = { i with lostNodes := (i.loseNodes x cs).lostNodes } := by
  unfold VIndex.loseNodes
  split <;> rfl

theorem VIndex.loseNodes_record (i : VIndex) (x : Search) (cs : List Nat) : (i.loseNodes x cs).record = i.record := by
  rw [VIndex.loseNodes_eq]

theorem VIndex.loseNodes_past {i : VIndex} {x : Search} (cs : List Nat) (h : i.gen ≠ x.gen) : i.loseNodes x cs = i := if_neg h

theorem VIndex.mem_loseNodes {i : VIndex} {x : Search} {cs : List Nat} {c : Nat} (hc : c ∈ cs) (h : i.gen = x.gen) : c ∈ (i.loseNodes x cs).lostNodes := by
  rw [VIndex.loseNodes, if_pos h]
  by_cases hk : c ∈ i.lostNodes <;> simp [hk, hc]

/-- The state in which the nodes that a search has found lost tell on its index. -/
def State.loseFor (s : State) (x : Search) (cs : List Nat) : State := s.updIndex x.index fun i => i.loseNodes x cs

theorem State.index_loseFor (cs : List Nat) (h : s.index x.index = some i) : (s.loseFor x cs).index x.index = some (i.loseNodes x cs) :=
  State.index_updIndex (fun y => y.loseNodes_record x cs) h

end

end Sys2Proof.Machine

end

/-! ### Steps of vector searches -/

section

namespace Sys2Proof.Machine

/-! #### RECORD_EXPANSION -/

/-- The record of node `c` can be followed: it was read, keeps R444 and is not known to be lost. -/
def Search.follows (x : Search) (i : VIndex) (c : Nat) (readable : Bool) : Bool :=
  readable && ((x.graph[c]?).map (nodeOk (ixDegree i.record) x.graph.length)).getD false && !(i.lostTo x c)

/-- Q once the neighbours of node `c` have been offered to it (R448). -/
def Search.offered (x : Search) (c : Nat) : List (Nat × Nat) :=
  (((x.graph[c]?).map (·.nbrs)).getD []).foldl (offer x.l (fun m => codeDist x.table (codeAt x.graph m)) (x.x ++ [c])) x.q

/-- What the expansion of node `c` by search `x`, followed where `ok`, makes of the search `y` in its slot (R448, R474). -/
def Search.expandInto (x : Search) (c : Nat) (ok : Bool) (y : Search) : Search :=
  { y with x := x.x ++ [c], hops := y.hops + 1, q := if ok then x.offered c else x.q, damaged := y.damaged || !ok,
           deleted := if ok then y.deleted else y.deleted ++ ((x.graph[c]?).map (·.entry)).toList }

/-- The search once it has expanded node `c`, and followed it where `ok`. -/
def Search.expand (x : Search) (c : Nat) (ok : Bool) : Search := x.expandInto c ok x

theorem Search.expand_followed {x : Search} {c : Nat} {n : Node} (hn : x.graph[c]? = some n) : x.expand c true =
    { x with x := x.x ++ [c], hops := x.hops + 1, q := n.nbrs.foldl (offer x.l (fun m => codeDist x.table (codeAt x.graph m)) (x.x ++ [c])) x.q } := by
  simp [Search.expand, Search.expandInto, Search.offered, hn]

theorem Search.expand_lost (x : Search) (c : Nat) : x.expand c false =
    { x with x := x.x ++ [c], hops := x.hops + 1, damaged := true, deleted := x.deleted ++ (x.graph[c]?.map Node.entry).toList } := by
  simp [Search.expand, Search.expandInto]

theorem Search.follows_eq_true {x : Search} {i : VIndex} {c : Nat} {n : Node} (hn : x.graph[c]? = some n)
    (hok : nodeOk (ixDegree i.record) x.graph.length n = true) (hl : i.lostTo x c = false) : x.follows i c true = true := by
  simp [Search.follows, hn, hok, hl]

theorem Search.follows_eq_false {x : Search} {i : VIndex} {c : Nat} {readable : Bool}
    (h : readable = false ∨ (∀ n, x.graph[c]? = some n → nodeOk (ixDegree i.record) x.graph.length n = false) ∨ i.lostTo x c = true) :
    x.follows i c readable = false := by
  rcases h with rfl | hbad | hl
  · simp [Search.follows]
  · cases hn : x.graph[c]? with
    | none => simp [Search.follows, hn]
    | some n => simp [Search.follows, hn, hbad n hn]
  · simp [Search.follows, hl]

/-- The state once the search in a slot, of which `x` is read, has expanded node `c`, and followed it where `ok`. -/
def State.expandNode (s : State) (slot c : Nat) (x : Search) (ok : Bool) : State :=
  let t := s.updSearch slot (x.expandInto c ok)
  if ok then t else t.loseFor x [c]

theorem State.expandNode_followed (s : State) (slot c : Nat) (x : Search) : (s.expandNode slot c x true).vidx = s.vidx := rfl

theorem State.searching_expandNode (s : State) (slot c : Nat) (x : Search) (ok : Bool) : s.searching (s.expandNode slot c x ok) := by
  cases ok with
  | true => exact s.searching_updSearch _ _
  | false => exact (s.searching_updSearch _ _).trans (State.searching_updIndex _ _ _)

theorem State.search_expandNode {s : State} {slot : Nat} {x : Search} (c : Nat) (ok : Bool) (hx : s.search slot = some x) :
    (s.expandNode slot c x ok).search slot = some (x.expand c ok) := by
  cases ok <;> exact State.search_updSearch (f := x.expandInto c _) (fun _ h => h) hx

theorem State.index_expandNode_lost {s : State} {x : Search} {i : VIndex} (slot c : Nat) (hi : s.index x.index = some i) :
    (s.expandNode slot c x false).index x.index = some (i.loseNodes x [c]) := State.index_loseFor [c] hi

/-- A neighbour offered leaves Q at most L long. -/
theorem length_offer_le {l : Nat} {dist : Nat → Nat} {xs : List Nat} {q : List (Nat × Nat)} (n : Nat) (h : q.length ≤ l) : (offer l dist xs q n).length ≤ l := by
  unfold offer
  split
  · exact h
  · exact List.length_take_le _ _

theorem length_foldl_offer_le {l : Nat} {dist : Nat → Nat} {xs : List Nat} (ns : List Nat) {q : List (Nat × Nat)} (h : q.length ≤ l) :
    (ns.foldl (offer l dist xs) q).length ≤ l := by
  induction ns generalizing q with
  | nil => exact h
  | cons n ns ih => exact ih (length_offer_le n h)

theorem Search.length_expand_q {x : Search} (c : Nat) (ok : Bool) (h : x.q.length ≤ x.l) : (x.expand c ok).q.length ≤ x.l := by
  cases ok with
  | true => exact length_foldl_offer_le _ h
  | false => exact h

section

variable {s : State} {slot c : Nat} {x : Search} {i : VIndex} (hx : s.search slot = some x) (hc : nextCandidate x.q x.x = some c) (hi : s.index x.index = some i)

include hx hc hi

theorem exec_recordExpansion (readable : Bool) : ∃ t, (s.expandNode slot c x (x.follows i c readable)).counts t ∧ exec (.recordExpansion slot readable) s =
    when (s.working && decide (x.start ≤ s.tick.num ∧ x.hops < x.maxHops) && x.result.isNone && x.read.contains c) s t := by
  have hcounts (u : State) (a b m : Nat) : u.counts ((((u.hubCount 3 a m).hubCount 3 b).indexCount x.index 1).indexCount x.index 2) :=
    ((State.counts_count _ _ _ _ _).trans (State.counts_count _ _ _ _ _)).trans ((State.counts_indexCount _ _ _ _).trans (State.counts_indexCount _ _ _ _))
  refine ⟨_, hcounts _ (recordChannel i c * 32 + 15) (recordChannel i c * 32 + 16) ((((x.graph[c]?).map (·.nbrs.length)).getD 0) * ixM i.record), ?_⟩
  change execRecordExpansion slot readable s = _
  unfold execRecordExpansion
  simp only [hx, hc, hi]
  rfl

/-- A candidate whose record is still being read is not expanded (R454). -/
theorem exec_recordExpansion_unread (readable : Bool) (hread : c ∉ x.read) : exec (.recordExpansion slot readable) s = .next s := by
  obtain ⟨t, -, hexec⟩ := exec_recordExpansion hx hc hi readable
  rw [hexec, when, if_neg (by simp [hread])]

/-- The candidate is expanded: the search takes the step, and a node that is not followed is lost to the index. -/
theorem exec_recordExpansion_read (readable : Bool) (hw : s.working = true) (hstart : x.start ≤ s.tick.num) (hhops : x.hops < x.maxHops) (hres : x.result = none)
    (hread : c ∈ x.read) : ∃ t, exec (.recordExpansion slot readable) s = .next t ∧ s.searching t ∧
      t.search slot = some (x.expand c (x.follows i c readable)) ∧ (x.follows i c readable = true → t.vidx = s.vidx) ∧
      (x.follows i c readable = false → t.index x.index = some (i.loseNodes x [c])) := by
  obtain ⟨t, hcounts, hexec⟩ := exec_recordExpansion hx hc hi readable
  refine ⟨t, ?_, (s.searching_expandNode _ _ _ _).trans hcounts.searching, ?_, fun hok => ?_, fun hlost => ?_⟩
  · rw [hexec, when, if_pos (by simp [hw, hstart, hhops, hres, hread])]
  · rw [hcounts.search_eq, State.search_expandNode c _ hx]
  · obtain ⟨k, rfl⟩ := hcounts
    rw [hok]
    exact s.expandNode_followed slot c x
  · rw [hcounts.index_eq, hlost, State.index_expandNode_lost slot c hi]

end

/-! #### SIDE_SCAN -/

/-- The entries that the inserts among side-list entries insert. -/
def insertedBy (es : List SideEnt) : List Nat := (es.filter SideEnt.isInsert).map SideEnt.entry

/-- The index without the side-list entries that it has lost (R475). -/
def VIndex.loseEntries (i : VIndex) (lost : List SideEnt) : VIndex :=
  { i with side := i.side.filter (fun e => !(lost.contains e)), live := i.live.filter (fun e => !((insertedBy lost).contains e.2)) }

/-- The search without the side-list entries that its index has lost (R475). -/
def Search.loseEntries (x : Search) (lost : List SideEnt) : Search := { x with sideIns := x.sideIns.filter fun e => !((insertedBy lost).contains e.entry) }

/-- The state in which an index and all its searches have lost side-list entries. -/
def State.loseEntries (s : State) (id : Nat) (lost : List SideEnt) : State :=
  { s.updIndex id fun y => y.loseEntries lost with searches := s.searches.map fun y => if y.index = id then y.loseEntries lost else y }

/-- The search once it has taken the K smallest pairs of the inserts that it sees (R450). -/
def Search.scan (x : Search) : Search :=
  { x with scanned := true
           side := bestPairs x.k ((x.sideIns.filter fun e => !(x.deleted.contains e.entry)).map fun e => (codeDist x.table e.code, e.vecId)) }

section

variable {s : State} {slot : Nat} {x : Search} {i : VIndex}

theorem State.search_loseEntries (lost : List SideEnt) (hx : s.search slot = some x) : (s.loseEntries x.index lost).search slot = some (x.loseEntries lost) := by
  refine (find?_map_keeps (fun y => ?_) s.searches).trans ?_
  · split <;> rfl
  · rw [show s.searches.find? (fun y => y.slot == slot) = some x from hx, Option.map_some, if_pos rfl]

theorem State.index_loseEntries (lost : List SideEnt) {id : Nat} (hi : s.index id = some i) : (s.loseEntries id lost).index id = some (i.loseEntries lost) :=
  State.index_updIndex (fun _ => rfl) hi

theorem State.loseSide_some (frames : List Nat) {id : Nat} (h : s.index id = some i) :
    (s.loseEntries id (lostEntries i.side frames)).counts (s.loseSide id frames) := by
  rw [State.loseSide, h]
  exact State.counts_ite _ _ (State.counts_refl _) (State.counts_crewCount _ _ _)

theorem State.searching_loseSide (s : State) (id : Nat) (frames : List Nat) : s.searching (s.loseSide id frames) := by
  cases h : s.index id with
  | none =>
    rw [State.loseSide, h]
    exact s.counts_refl.searching
  | some i => exact State.searching.trans ⟨_, _, s.ctr, rfl⟩ (State.loseSide_some frames h).searching

theorem State.search_loseSide (frames : List Nat) (hx : s.search slot = some x) : ∃ y, (s.loseSide x.index frames).search slot = some y := by
  cases h : s.index x.index with
  | none =>
    rw [State.loseSide, h]
    exact ⟨x, hx⟩
  | some i => exact ⟨_, ((State.loseSide_some frames h).search_eq slot).trans (State.search_loseEntries _ hx)⟩

theorem State.counts_countScan (s : State) (side : List SideEnt) : s.counts (s.countScan side) :=
  State.counts_foldl _ (fun s _ => s.counts_count _ _ _ _) _ s

/-- A search scans its side list once, in its start tick, after what its unreadable frames held is lost (R450, R475). -/
theorem exec_sideScan (frames : List Nat) (hx : s.search slot = some x) (hw : s.working = true) (hstart : x.start = s.tick.num) (hnew : x.scanned = false) :
    ∃ t, exec (.sideScan slot frames) s = .next t ∧ s.searching t ∧ ((s.loseSide x.index frames).updSearch slot Search.scan).counts t := by
  have hcounts (u : State) : u.counts ((u.countScan x.sideIns).indexCount x.index 3) := (u.counts_countScan _).trans (State.counts_indexCount _ _ _ _)
  have hframe := (s.searching_loseSide x.index frames).trans (State.searching_updSearch _ slot Search.scan)
  refine ⟨_, ?_, hframe.trans (hcounts _).searching, hcounts _⟩
  have hexec : exec (.sideScan slot frames) s = when (s.working && x.start == s.tick.num && !x.scanned) s
      ((((s.loseSide x.index frames).updSearch slot Search.scan).countScan x.sideIns).indexCount x.index 3) := by
    change execSideScan slot frames s = _
    unfold execSideScan
    simp only [hx]
    rfl
  rw [hexec, when, if_pos (by simp [hw, hstart, hnew])]

end

/-! #### RESULT_ASSEMBLY -/

/-- The candidates that the traversal did not expand (R451). -/
def Search.left (x : Search) : List Nat := (x.q.filter fun e => !(x.x.contains e.2)).map Prod.snd

/-- The candidates that count as deleted: known to be lost, or found lost now (R474). -/
def State.lostOf (s : State) (x : Search) (lostNodes : List Nat) : List Nat :=
  (x.q.map Prod.snd).filter fun c => s.knownLost x c || (x.left.contains c && lostNodes.contains c)

/-- The search that has met the lost nodes (R474). -/
def Search.meet (x : Search) (lost : List Nat) : Search := { x with damaged := x.damaged || lost != [] }

/-- The pair of a candidate that is neither lost nor deleted (R451). -/
def Search.pair (x : Search) (lost : List Nat) (e : Nat × Nat) : Option (Nat × W64) :=
  match x.graph[e.2]? with
  | some n => if lost.contains e.2 ∨ x.deleted.contains n.entry then none else some (e.1, n.vecId)
  | none => none

theorem Search.pair_eq (x : Search) (lost : List Nat) (e : Nat × Nat) :
    x.pair lost e = (x.graph[e.2]?).bind fun n => if lost.contains e.2 ∨ x.deleted.contains n.entry then none else some (e.1, n.vecId) := by
  unfold Search.pair
  cases x.graph[e.2]? <;> rfl

/-- The K best pairs of graph and side list (R451). -/
def Search.best (x : Search) (lost : List Nat) : List (Nat × W64) := bestPairs x.k (x.q.filterMap (x.pair lost) ++ x.side)

theorem Search.best_eq (x : Search) (lost : List Nat) : x.best lost = bestPairs x.k
    ((x.q.filterMap fun e => (x.graph[e.2]?).bind fun n => if lost.contains e.2 ∨ x.deleted.contains n.entry then none else some (e.1, n.vecId)) ++ x.side) := by
  rw [Search.best, funext (x.pair_eq lost)]

/-- The request of a search that has its result (R452). -/
def Req.takeResult (r : Req) (x : Search) (rs : List (Nat × W64)) : Req :=
  { r with stage := .finishing, data := resultBuffer x rs, result0 := BitVec.ofNat 32 rs.length }

/-- The state once a search has its result, uncounted. -/
def State.assembled (s : State) (slot : Nat) (x : Search) (lost : List Nat) : State :=
  let t := s.updSearch slot fun _ => { x.meet lost with result := some (x.best lost) }
  (if lost = [] then t else t.loseFor x lost).updReq x.rid fun r => r.takeResult (x.meet lost) (x.best lost)

theorem Search.mem_left {x : Search} {c : Nat} : c ∈ x.left ↔ ∃ e, e ∈ x.q ∧ e.2 ∉ x.x ∧ e.2 = c := by
  simp [Search.left, and_assoc]

theorem length_bestPairs_le (k : Nat) (ps : List (Nat × W64)) : (bestPairs k ps).length ≤ k := List.length_take_le _ _

section

variable {s : State} {slot : Nat} {x : Search} {r : Req} (lost : List Nat)

theorem State.assemble_counts (s : State) (slot : Nat) (x : Search) : (s.assembled slot x lost).counts (s.assemble slot x lost) := by
  have hevent (u : State) (p : Prop) [Decidable p] (ev : Nat) : u.counts (if p then u.indexCount x.index ev else u) :=
    u.counts_ite p (u.counts_indexCount _ _ _) u.counts_refl
  have hcounts := ((((s.assembled slot x lost).counts_indexCount x.index 4 1).trans (hevent _ ((decide (x.maxHops ≤ x.hops) && (nextCandidate x.q x.x).isSome) = true) 5)).trans
    (hevent _ ((x.best lost).length < x.k) 6)).trans (hevent _ ((x.meet lost).damaged = true) 7)
  exact hcounts

theorem State.assembled_eq (s : State) (slot : Nat) (x : Search) : ∃ vs, (s.assembled slot x lost) =
    { s.updReq x.rid fun r => r.takeResult (x.meet lost) (x.best lost) with
      searches := (s.updSearch slot fun _ => { x.meet lost with result := some (x.best lost) }).searches, vidx := vs } := by
  unfold State.assembled
  dsimp only
  split
  · exact ⟨s.vidx, rfl⟩
  · exact ⟨_, rfl⟩

/-- A search that takes its result touches searches, indexes, requests and counters alone. -/
theorem State.counts.assembled_frame {t : State} (h : (s.assembled slot x lost).counts t) :
    t = { s with searches := t.searches, vidx := t.vidx, reqs := t.reqs, ctr := t.ctr } := by
  obtain ⟨c, rfl⟩ := h
  obtain ⟨vs, he⟩ := s.assembled_eq lost slot x
  rw [he]
  rfl

theorem State.search_assembled (hx : s.search slot = some x) : (s.assembled slot x lost).search slot = some { x.meet lost with result := some (x.best lost) } := by
  obtain ⟨vs, he⟩ := s.assembled_eq lost slot x
  rw [he]
  exact State.search_updSearch (f := fun _ => { x.meet lost with result := some (x.best lost) }) (fun _ _ => show x.slot = slot from State.search_slot hx) hx

theorem State.req_assembled (slot : Nat) (hr : s.req x.rid = some r) :
    (s.assembled slot x lost).req x.rid = some (r.takeResult (x.meet lost) (x.best lost)) := by
  obtain ⟨vs, he⟩ := s.assembled_eq lost slot x
  rw [he]
  exact State.req_updReq (f := fun r => r.takeResult (x.meet lost) (x.best lost)) (fun _ => rfl) hr

theorem State.vidx_assembled_nil (s : State) (slot : Nat) (x : Search) : (s.assembled slot x []).vidx = s.vidx := rfl

theorem State.index_assembled {i : VIndex} (slot : Nat) (hl : lost ≠ []) (hi : s.index x.index = some i) :
    (s.assembled slot x lost).index x.index = some (i.loseNodes x lost) := by
  rw [State.assembled, if_neg hl]
  exact State.index_loseFor lost hi

end

section

variable {s : State} {slot : Nat} {x : Search} (hx : s.search slot = some x)

include hx

theorem exec_resultAssembly (lostNodes : List Nat) : exec (.resultAssembly slot lostNodes) s =
    when (s.working && decide (x.start ≤ s.tick.num) && x.scanned && x.result.isNone && (decide (x.maxHops ≤ x.hops) || (nextCandidate x.q x.x).isNone) &&
      x.left.all x.read.contains) s (s.assemble slot x (s.lostOf x lostNodes)) := by
  change execResultAssembly slot lostNodes s = _
  unfold execResultAssembly
  simp only [hx]
  rfl

/-- A search waits for the records of the candidates that it did not expand. -/
theorem exec_resultAssembly_waits (lostNodes : List Nat) {c : Nat} (hc : c ∈ x.left) (hread : c ∉ x.read) : exec (.resultAssembly slot lostNodes) s = .next s := by
  have hall : x.left.all x.read.contains = false := List.all_eq_false.mpr ⟨c, hc, by simpa using hread⟩
  rw [exec_resultAssembly hx, hall, Bool.and_false]
  rfl

theorem exec_resultAssembly_done (lostNodes : List Nat) (hw : s.working = true) (hstart : x.start ≤ s.tick.num) (hscan : x.scanned = true) (hres : x.result = none)
    (hstop : x.maxHops ≤ x.hops ∨ nextCandidate x.q x.x = none) (hread : ∀ c, c ∈ x.left → c ∈ x.read) :
    ∃ t, exec (.resultAssembly slot lostNodes) s = .next t ∧ (s.assembled slot x (s.lostOf x lostNodes)).counts t := by
  have hall : x.left.all x.read.contains = true := List.all_eq_true.mpr fun c hc => by simpa using hread c hc
  have hstop' : (decide (x.maxHops ≤ x.hops) || (nextCandidate x.q x.x).isNone) = true := by simpa using hstop
  refine ⟨_, ?_, State.assemble_counts _ _ _ _⟩
  rw [exec_resultAssembly hx, when, if_pos (by simp [hw, hstart, hscan, hres, hstop', hall])]

end

/-! #### MERGE_FINISH -/

/-- The index that holds the generation a merge from tick `m` builds (R465). -/
def VIndex.hold (m : Nat) (x : VIndex) : VIndex := { x with built := some (x.build m) }

theorem State.counts_indexBytes (s : State) (n : Nat) : s.counts (s.indexBytes n) :=
  ((s.counts_count _ _ _ _).trans (State.counts_count _ _ _ _ _)).trans (State.counts_count _ _ _ _ _)

theorem exec_mergeFinish {s : State} {id m : Nat} {x : VIndex} (hx : s.index id = some x) (hm : x.merge = some m) (hw : s.working = true) (hstart : m ≤ s.tick.num)
    (hb : x.built = none) (hro : s.sys.flashRo = false) (hbusy : s.areaBusy x = false) : ∃ t, exec (.mergeFinish id) s = .next t ∧ t = { s with vidx := t.vidx, ctr := t.ctr } ∧
      t.index id = some { x with built := some (x.build m) } := by
  have hcounts := (s.updIndex id (VIndex.hold m)).counts_indexBytes (recSize x.record * (x.drafts m).length)
  refine ⟨_, ?_, rfl, (hcounts.index_eq id).trans (State.index_updIndex (fun _ => rfl) hx)⟩
  change execMergeFinish id s = _
  simp only [execMergeFinish, hx, hm]
  exact congrArg _ (if_pos (by simp [hw, hstart, hb, hro, hbusy]))

/-! #### The four steps complete -/

/-- Settles O53: each step, where it may run, changes searches, indexes, requests and counters alone and leaves its mark on its search or index. -/
theorem searchCommandsComplete : Obligations.SearchCommandsComplete := by
  refine ⟨?_, ?_, ?_, ?_⟩
  · intro s slot c readable x i hw hx hi hstart hres hhops hc hread
    obtain ⟨t, hexec, hframe, hsearch, -⟩ := exec_recordExpansion_read hx hc hi readable hw hstart hhops hres hread
    exact ⟨t, hexec, hframe.eq, by rw [hsearch]; rfl⟩
  · intro s slot frames x hw hx hstart hnew
    obtain ⟨t, hexec, hframe, hcounts⟩ := exec_sideScan frames hx hw hstart hnew
    obtain ⟨y, hy⟩ := State.search_loseSide frames hx
    have hsearch := State.search_updSearch (f := Search.scan) (fun _ h => h) hy
    refine ⟨t, hexec, hframe.eq, ?_⟩
    rw [hcounts.search_eq, hsearch]
    rfl
  · intro s slot lostNodes x r hw hx hr hstart hscan hres hstop hread
    have hread' (c : Nat) (hc : c ∈ x.left) : c ∈ x.read := by
      obtain ⟨e, hq, hx, rfl⟩ := Search.mem_left.mp hc
      exact hread e hq hx
    obtain ⟨t, hexec, hcounts⟩ := exec_resultAssembly_done hx lostNodes hw hstart hscan hres hstop hread'
    refine ⟨t, hexec, ?_, ⟨_, _, (hcounts.search_eq slot).trans (State.search_assembled _ hx), rfl, length_bestPairs_le _ _⟩, ?_⟩
    · exact hcounts.assembled_frame
    · rw [hcounts.req_eq, State.req_assembled _ slot hr]
      rfl
  · intro s id m x hw hx hm hstart hb hro hbusy
    obtain ⟨t, hexec, hframe, hindex⟩ := exec_mergeFinish hx hm hw hstart hb hro hbusy
    exact ⟨t, hexec, hframe, by rw [hindex]; rfl⟩

/-! #### What the four steps compute -/

theorem searchSteps : SearchSteps := by
  refine ⟨?_, ?_⟩
  · intro s slot c ok x i hx hc hi hw hstart hhops hres
    refine ⟨fun hread => exec_recordExpansion_unread hx hc hi ok hread, fun hread => ?_⟩
    obtain ⟨t, hexec, hframe, hsearch, hfollow, hlose⟩ := exec_recordExpansion_read hx hc hi ok hw hstart hhops hres hread
    refine ⟨t, _, hexec, hframe.eq, hsearch, x.length_expand_q c _, ?_, fun hlost => ?_⟩
    · rintro n hn rfl hok hl
      have hf := Search.follows_eq_true hn hok hl
      refine ⟨hfollow hf, ?_⟩
      rw [hf, Search.expand_followed hn]
    · have hf := Search.follows_eq_false hlost
      rw [hf]
      exact ⟨Search.expand_lost x c, _, hlose hf, i.loseNodes_eq x [c], fun hg => VIndex.mem_loseNodes List.mem_cons_self hg, fun hg => VIndex.loseNodes_past [c] hg⟩
  · intro s slot frames x i hx hw hstart hnew hi
    obtain ⟨t, hexec, hframe, hcounts⟩ := exec_sideScan frames hx hw hstart hnew
    have hlost := State.loseSide_some frames hi
    have hsearch := (hlost.search_eq slot).trans (State.search_loseEntries _ hx)
    have hindex := (hlost.index_eq x.index).trans (State.index_loseEntries _ hi)
    refine ⟨t, hexec, hframe.eq, ?_, ?_⟩
    · exact (hcounts.search_eq slot).trans (State.search_updSearch (f := Search.scan) (fun _ h => h) hsearch)
    · exact (hcounts.index_eq _).trans hindex

theorem searchResults : SearchResults := by
  refine ⟨?_, fun s id m x hx hm hw hstart hb hro hbusy => exec_mergeFinish hx hm hw hstart hb hro hbusy⟩
  intro s slot lostNodes x r hx hr hw hstart hscan hres hstop left lost y rs
  refine ⟨fun ⟨c, hc, hread⟩ => exec_resultAssembly_waits hx lostNodes hc hread, fun hread => ?_⟩
  have hrs : x.best lost = rs := x.best_eq lost
  obtain ⟨t, hexec, (hcounts : (s.assembled slot x lost).counts t)⟩ := exec_resultAssembly_done hx lostNodes hw hstart hscan hres hstop hread
  refine ⟨t, hexec, hcounts.assembled_frame, ?_, ?_, fun hnil => ?_, fun i c hi hc => ?_⟩
  · rw [hcounts.search_eq, State.search_assembled lost hx, hrs]
    rfl
  · rw [hcounts.req_eq, State.req_assembled lost slot hr, hrs]
    rfl
  · obtain ⟨c, rfl⟩ := hcounts
    rw [hnil]
    exact s.vidx_assembled_nil slot x
  · exact ⟨_, (hcounts.index_eq _).trans (State.index_assembled lost slot (List.ne_nil_of_mem hc) hi), i.loseNodes_eq x lost, fun hg => VIndex.mem_loseNodes hc hg⟩

/-- Settles O54: what an expansion, a side scan, a result and a merge compute, and what lost records take from searches and index. -/
theorem searchProgress : Obligations.SearchProgress := ⟨searchSteps, searchResults⟩

end Sys2Proof.Machine

end

/-! ### Writes of status and hold registers -/

section

namespace Sys2Proof.Machine

/-! #### The two PCIe ports -/

theorem State.bar0Open_port {s : State} {p : Nat} (h : s.bar0Open p = true) : p < 2 := by
  simp only [State.bar0Open, Bool.and_eq_true, decide_eq_true_eq] at h
  exact h.1.2

/-- A PCIe port written changes that port of the host interface alone. -/
theorem State.setHostPort_changes (s : State) {p : Nat} (x : HostPort) (hp : p < 2) :
    s.setHostPort p x = { s with host := { s.host with port0 := (s.setHostPort p x).host.port0, port1 := (s.setHostPort p x).host.port1 } } ∧
      (s.setHostPort p x).hostPort (1 - p) = s.hostPort (1 - p) ∧ (s.setHostPort p x).hostPort p = x := by
  refine ⟨?_, ?_, ?_⟩
  · rw [State.setHostPort]
    split <;> rfl
  · rw [State.hostPort_setHostPort _ _ _ _ hp (by omega), if_neg (by omega)]
  · rw [State.hostPort_setHostPort _ _ _ _ hp hp, if_pos rfl]

/-! #### Writes of whole registers (R588) -/

/-- A write of an aligned register reaches it. -/
theorem exec_registerWrite {s : State} {port off : Nat} (v : W64) (hb : s.bar0Open port = true) (ho : off % 8 = 0) :
    exec (.registerWrite port off 8 v) s = .next (s.bar0Write port off 8 v) :=
  (when_pos hb).trans (congrArg Host.Outcome.next (if_pos (by simp [accessOk, ho])))

theorem State.bar0Write_hostErr (s : State) (p : Nat) (v : W64) : s.bar0Write p 0x40 8 v = s.clearHostErr p v := rfl

theorem State.bar0Write_tmux (s : State) (p : Nat) (v : W64) : s.bar0Write p 0x50 8 v = s.writeTmux v 0xFFFF_FFFF_FFFF_FFFF := rfl

theorem State.bar0Write_linkStatus (s : State) (p : Nat) {n : Nat} (hn : n < 12) (v : W64) : s.bar0Write p (0x1000 + 8 * n) 8 v = s.clearLinkStatus n v := by
  have hr : (0x1000 + 8 * n) / 8 * 8 = 0x1000 + 8 * n := by omega
  rw [State.bar0Write]
  simp only [hr]
  rw [if_neg (by omega), if_neg (by omega), if_neg (by omega), if_neg (by omega), if_pos (by omega), show (0x1000 + 8 * n - 0x1000) / 8 = n by omega]
  rfl

/-! #### The registers -/

/-- The field of all low bits is the word cut short. -/
theorem ofNat_fld_low {w k : Nat} (v : BitVec w) : BitVec.ofNat k (fld v 0 k) = v.setWidth k := by
  refine BitVec.eq_of_toNat_eq ?_
  rw [BitVec.toNat_ofNat, BitVec.toNat_setWidth, fld, Nat.shiftRight_zero, Nat.mod_mod]

theorem State.clearHostErr_eq (s : State) (p : Nat) (v : W64) :
    s.clearHostErr p v = s.setHostPort p { s.hostPort p with hostErr := (s.hostPort p).hostErr &&& ~~~(v.setWidth 6) } := by
  rw [State.clearHostErr, ofNat_fld_low]

/-- A hold leaves the window where it stands. -/
theorem State.window_hold (s : State) {p : Nat} (hp : p < 2) : (s.writeSnapHold p true).window p = s.window p := by
  have hport : (s.writeSnapHold p true).hostPort p = { s.hostPort p with snapHold := true } := (s.setHostPort_changes _ hp).2.2
  have hctr : (s.writeSnapHold p true).ctr = s.ctr := State.setHostPort_ctr s p _
  rw [State.window, hport, hctr]
  rfl

theorem statusWrites : StatusWrites := by
  refine ⟨fun s port v hb => ?_, fun s port n v hb hn => ?_, fun s port hb => ?_, fun s port hb => ?_⟩
  · refine ⟨s.clearHostErr port v, when_pos hb, by rw [exec_registerWrite v hb rfl, s.bar0Write_hostErr], ?_⟩
    rw [State.clearHostErr_eq]
    exact s.setHostPort_changes _ (State.bar0Open_port hb)
  · have hclear : exec (.linkStatusClear port n v) s = .next (s.clearLinkStatus n v) := (needPart_pos (decide_eq_true hn)).trans (when_pos hb)
    refine ⟨hclear, (exec_registerWrite v hb (by omega)).trans ?_⟩
    rw [s.bar0Write_linkStatus port hn, hclear]
  · obtain ⟨hframe, hother, hport⟩ := s.setHostPort_changes { s.hostPort port with snapHold := true } (State.bar0Open_port hb)
    exact ⟨s.writeSnapHold port true, when_pos hb, hframe, hother, hport, s.window_hold (State.bar0Open_port hb)⟩
  · exact ⟨s.writeSnapHold port false, when_pos hb, s.setHostPort_changes _ (State.bar0Open_port hb)⟩

/-! #### The test multiplexers (R715, R716) -/

/-- A pin whose selection changes from `a` to `b`: it shows the old one until the change reaches it, and a change on its way is not held up. -/
def TmuxPhase.select (a b : Byte) (p : TmuxPhase) : TmuxPhase :=
  if b = a then p
  else
    match p with
    | .steady => .old a
    | p => p

/-- The pins once pin `n` has taken its selection. -/
def selectPin (old new : W64) (ps : Sparse TmuxPhase) (n : Nat) : Sparse TmuxPhase :=
  if tmuxPin new n = tmuxPin old n then ps
  else
    match Sparse.get .steady ps n with
    | .steady => Sparse.set .steady ps n (.old (tmuxPin old n))
    | _ => ps

theorem get_selectPin (old new : W64) (ps : Sparse TmuxPhase) (n m : Nat) : Sparse.get .steady (selectPin old new ps n) m =
    if m = n then (Sparse.get .steady ps m).select (tmuxPin old m) (tmuxPin new m) else Sparse.get .steady ps m := by
  by_cases hm : m = n
  · subst hm
    rw [if_pos rfl]
    unfold selectPin TmuxPhase.select
    by_cases hsel : tmuxPin new m = tmuxPin old m
    · rw [if_pos hsel, if_pos hsel]
    · rw [if_neg hsel, if_neg hsel]
      cases hp : Sparse.get .steady ps m with
      | steady => exact Sparse.get_set_self ..
      | old a => exact hp
      | low => exact hp
  · rw [selectPin, if_neg hm]
    split
    · rfl
    · split
      · exact Sparse.get_set_ne _ _ _ _ _ hm
      · rfl

/-- Steps that each change their own key change every key once. -/
theorem Sparse.get_foldl_keys {α : Type} {d : α} {f : Sparse α → Nat → Sparse α} {g : Nat → α → α}
    (hf : ∀ m k n, Sparse.get d (f m k) n = if n = k then g n (Sparse.get d m n) else Sparse.get d m n) {ks : List Nat} (hnd : ks.Nodup) (m : Sparse α) (n : Nat) :
    Sparse.get d (ks.foldl f m) n = if n ∈ ks then g n (Sparse.get d m n) else Sparse.get d m n := by
  induction ks generalizing m with
  | nil => rfl
  | cons k ks ih =>
    obtain ⟨hk, hnd⟩ := List.nodup_cons.mp hnd
    rw [List.foldl_cons, ih hnd, hf]
    by_cases hn : n = k
    · subst hn
      simp [hk]
    · simp [hn]

/-- A whole register written is the value. -/
theorem merge64_ones (old v : W64) : merge64 old v 0xFFFF_FFFF_FFFF_FFFF = v := by
  have hones : (0xFFFF_FFFF_FFFF_FFFF : W64) = BitVec.allOnes 64 := rfl
  rw [merge64, hones, BitVec.not_allOnes, BitVec.and_zero, BitVec.zero_or, BitVec.and_allOnes]

theorem State.writeTmux_eq {s : State} (h : s.img.loaded = true) (v : W64) :
    s.writeTmux v 0xFFFF_FFFF_FFFF_FFFF = { s with tmux := { sel := v, pins := (List.range 8).foldl (selectPin s.tmux.sel v) s.tmux.pins } } := by
  rw [State.writeTmux, h, if_neg (by decide), merge64_ones]
  rfl

theorem testMultiplexers : TestMultiplexers := by
  refine ⟨fun s port v hb hl => ?_, fun s port v hl => ?_, fun s pin hp => ?_, fun s pin hp => needPart_neg (decide_eq_false (by omega))⟩
  · refine ⟨s.writeTmux v 0xFFFF_FFFF_FFFF_FFFF, when_pos hb, by rw [exec_registerWrite v hb rfl, s.bar0Write_tmux], ?_⟩
    rw [State.writeTmux_eq hl]
    refine ⟨rfl, rfl, fun n hn => ?_⟩
    have hget := Sparse.get_foldl_keys (get_selectPin s.tmux.sel v) (List.nodup_range (n := 8)) s.tmux.pins n
    rw [if_pos (List.mem_range.mpr hn)] at hget
    exact hget
  · have hsame : s.writeTmux v 0xFFFF_FFFF_FFFF_FFFF = s := by
      rw [State.writeTmux, hl]
      rfl
    change when _ s (s.writeTmux v 0xFFFF_FFFF_FFFF_FFFF) = _
    rw [hsame, when, ite_self]
  · have hexec : exec (.tmuxSwitch pin) s = _ := needPart_pos (decide_eq_true hp)
    rw [hexec]
    cases Sparse.get .steady s.tmux.pins pin <;> exact ⟨_, rfl, rfl⟩

end Sys2Proof.Machine

open Sys2Proof.Machine

/-- Settles O16: the status and hold registers change their own bits, and the multiplexer register and its pins change as R716 says. -/
theorem registerWrites : Obligations.RegisterWrites := ⟨statusWrites, testMultiplexers⟩

end

/-! ### Training of optical ports -/

section

namespace Sys2Proof.Machine

/-- Ten lanes that are all locked complete step 1. -/
theorem lanes_all_contained {lanes : List Nat} (h : ∀ l, l < 10 → l ∈ lanes) : (List.range 10).all lanes.contains = true :=
  List.all_eq_true.mpr fun l hl => List.contains_iff_mem.mpr (h l (List.mem_range.mp hl))

/-- A port that has taken a far end's valid record (R494, R498). -/
def LinkPort.meets (p : LinkPort) (own : Nat) (r : BitVec 1920) (now : W64) : LinkPort :=
  { p with echoId := BitVec.ofNat 64 (trModule r), tEcho := now, peer := some r, echoed := p.echoed || trEcho r == own,
           step := if p.step = 3 ∧ (p.echoed = true ∨ trEcho r = own) then 4 else p.step }

section

variable {s : State} {n : Nat} (hn : n < 12)

include hn

theorem exec_trainRecord (r : BitVec 1920) (now : W64) (hl : (s.port n).locked = true) (h2 : (s.port n).step ≠ 2) : exec (.trainRecord n r now) s =
    .next (if trainRecOk r = true then s.setPort n ((s.port n).meets s.ident.moduleId.toNat r now) else s.linkCount n 48) := by
  change execTrainRecord n r now s = _
  rw [execTrainRecord, needPart_pos (decide_eq_true hn)]
  dsimp only
  rw [if_neg (by simp [hl, h2])]
  cases trainRecOk r with
  | false => rfl
  | true =>
    simp only [LinkPort.meets, Bool.not_true, Bool.false_eq_true, if_false, if_true, Bool.or_eq_true, beq_iff_eq]
    split <;> rfl

theorem exec_laneLock (lanes : List Nat) (skew : Nat) : exec (.laneLock n lanes skew) s =
    when ((s.port n).state == .training && (s.port n).step == 1 && (s.port n).laser && (List.range 10).all lanes.contains && decide (lanes.length = 10) &&
      decide (skew ≤ 100)) s (s.setPort n { s.port n with step := 2 }) := needPart_pos (decide_eq_true hn)

theorem exec_laneLock_deskewed {lanes : List Nat} {skew : Nat} (ht : (s.port n).state = .training) (h1 : (s.port n).step = 1) (hl : (s.port n).laser = true)
    (hlen : lanes.length = 10) (hlanes : ∀ l, l < 10 → l ∈ lanes) (hskew : skew ≤ 100) :
    exec (.laneLock n lanes skew) s = .next (s.setPort n { s.port n with step := 2 }) :=
  (exec_laneLock hn lanes skew).trans (when_pos (by rw [ht, h1, hl, lanes_all_contained hlanes, hlen]; simpa using hskew))

theorem exec_flitLock (ht : (s.port n).state = .training) (h2 : (s.port n).step = 2) : exec (.flitLock n) s = .next (s.setPort n { s.port n with
    step := 3, echoId := 0, tEcho := 0, peer := none, echoed := false, lseq := 0, rxNext := 0, missing := [], replay := [], acked := 0,
    credits := [256, 256, 1024, 1024, 5120, 5120, 1792, 1792] }) :=
  (needPart_pos (decide_eq_true hn)).trans (when_pos (by simp [ht, h2]))

theorem exec_trainRecordSend (now : W64) (hoff : (s.port n).state ≠ .off) (h3 : (s.port n).step = 3) :
    exec (.trainRecordSend n now) s = .next (s.send (.trainRec n (s.trainRec n now))) :=
  (needPart_pos (decide_eq_true hn)).trans (when_pos (by simp [hoff, h3]))

theorem exec_trainingStepTimeout (hoff : (s.port n).state ≠ .off) (h1 : 1 ≤ (s.port n).step) : exec (.trainingStepTimeout n) s =
    .next ((s.setPort n ((s.port n).restart (if (s.port n).step = 1 then 1 else if (s.port n).step = 2 then 2 else (s.port n).reason))).linkCount n 30) :=
  (needPart_pos (decide_eq_true hn)).trans (when_pos (by simp [hoff, h1]))

theorem exec_trainingRetry (hst : (s.port n).state = .miswired ∨ (s.port n).state = .transit ∨ (s.port n).state = .down) (h0 : (s.port n).step = 0) :
    exec (.trainingRetry n) s = .next (s.setPort n { s.port n with step := 3, echoed := false }) :=
  (needPart_pos (decide_eq_true hn)).trans (when_pos (by rcases hst with h | h | h <;> simp [h, h0]))

theorem exec_laserOffExpiry (ht : (s.port n).state = .training) (hl : (s.port n).laser = false) :
    exec (.laserOffExpiry n) s = .next (s.setPort n { s.port n with laser := true, step := 1 }) :=
  (needPart_pos (decide_eq_true hn)).trans (when_pos (by simp [ht, hl]))

end

end Sys2Proof.Machine

open Sys2Proof.Machine

/-- Settles O55: each training command is carried out by the port that it names when the port stands at the command's step. -/
theorem linkTraining : Obligations.LinkTraining := by
  refine ⟨fun s n hn => ?_, fun s n hn => needPart_neg (decide_eq_false (by omega))⟩
  intro p
  refine ⟨fun lanes skew ht h1 hl hlen hlanes => ⟨fun hskew => ?_, fun hskew => ?_⟩, exec_flitLock hn, fun r now hl h2 => ⟨fun hok => ?_, fun hok => ?_⟩,
    exec_trainRecordSend hn, fun hoff h1 => ⟨_, exec_trainingStepTimeout hn hoff h1, rfl⟩, exec_trainingRetry hn, exec_laserOffExpiry hn⟩
  · exact exec_laneLock_deskewed hn ht h1 hl hlen hlanes hskew
  · exact (exec_laneLock hn lanes skew).trans (when_neg (by simp [hskew]))
  · exact ⟨_, (exec_trainRecord hn r now hl h2).trans (congrArg _ (if_neg (by simp [hok]))), rfl⟩
  · exact (exec_trainRecord hn r now hl h2).trans (congrArg _ (if_pos hok))

end

/-! ### Timestamp exchanges -/

section

namespace Sys2Proof.Machine

/-- What this module claims and decides does not look past the records that its ports hold. -/
theorem State.decidePort_setPort (s : State) {n : Nat} {q : LinkPort} (hq : q.peer = (s.port n).peer) (r : BitVec 1920) :
    (s.setPort n q).decidePort r = s.decidePort r := by
  have hpeer (m : Nat) : ((s.setPort n q).port m).peer = (s.port m).peer := by
    rw [State.port_setPort]
    split
    next h => rw [hq, h]
    next => rfl
  have hclaim : (s.setPort n q).claimNow = s.claimNow := by simp only [State.claimNow, State.implied, hpeer, State.setPort_crew]
  simp only [State.decidePort, hclaim, State.isMember, State.setPort_crew, State.setPort_img, State.setPort_ident, State.setPort_sys]
  rfl

/-- A port at step 5, once `d` has been decided of the far end whose record is `r` (R501). -/
def LinkPort.decided (p : LinkPort) (d : PortState × Nat × Nat) (r : BitVec 1920) (level : Byte) (changed : Bool) : LinkPort :=
  { p with state := d.1, reason := d.2.1, dim := d.2.2, step := 0, peerCoord := (trClaim r).getD 0, peerPort := trPort r, peerVariant := trVariant r,
           mapChanged := p.mapChanged || changed, minor := min (fld level 0 4) (trLinkMinor r) }

/-- The decided dimension is not the one that the port's hint names. -/
def LinkPort.redimensioned (p : LinkPort) (d : PortState × Nat × Nat) : Bool := d.1 == .ready && d.2.2 != 0xF && p.dimHint != 0xF && p.dimHint != d.2.2

/-- Step 5 sets the port and counts a changed dimension. -/
theorem State.counts_decideAt {s : State} {n : Nat} {r : BitVec 1920} (hp : (s.port n).peer = some r) :
    (s.setPort n ((s.port n).decided (s.decidePort r) r s.img.linkLevel ((s.port n).redimensioned (s.decidePort r)))).counts (s.decideAt n) := by
  have hdecide : s.decideAt n = if (s.port n).redimensioned (s.decidePort r) = true then
      ((s.setPort n ((s.port n).decided (s.decidePort r) r s.img.linkLevel ((s.port n).redimensioned (s.decidePort r)))).linkCount n 31).crewCount 47
      else s.setPort n ((s.port n).decided (s.decidePort r) r s.img.linkLevel ((s.port n).redimensioned (s.decidePort r))) := by
    rw [State.decideAt]
    dsimp only
    split
    next h => simp [hp] at h
    next x h =>
      obtain rfl : r = x := Option.some.inj (hp.symm.trans h)
      rfl
  rw [hdecide]
  exact State.counts_ite _ _ ((State.counts_linkCount _ _ _ _).trans (State.counts_crewCount _ _ _)) (State.counts_refl _)

/-- A port that has measured its delay (R495). -/
def LinkPort.measured (p : LinkPort) (d : Nat) : LinkPort := { p with delay := d, rttNs := d * 5 / 64 }

theorem exec_timestampExchange {s : State} {n : Nat} {xs : List (Nat × Nat × Nat × Nat)} (hn : n < 12) (hoff : (s.port n).state ≠ .off)
    (h4 : (s.port n).step = 4) (hlen : xs.length = 1024) :
    exec (.timestampExchange n xs) s = .next ((s.setPort n ((s.port n).measured (median (xs.map exchangeDelay)).toNat)).decideAt n) :=
  (needPart_pos (decide_eq_true hn)).trans (when_pos (by simp [hoff, h4, hlen]))

end Sys2Proof.Machine

open Sys2Proof.Machine

/-- Settles O56: the exchanges measure the delay, which leaves the far end's record as it was, and step 5 then decides by that record. -/
theorem timestampExchanges : Obligations.TimestampExchanges := by
  intro s n xs r hn hoff h4 hlen hpeer d
  have hport : (s.setPort n ((s.port n).measured d)).port n = (s.port n).measured d := (s.port_setPort n n _).trans (if_pos rfl)
  obtain ⟨c, ht⟩ := State.counts_decideAt (s := s.setPort n ((s.port n).measured d)) (n := n) (r := r) (by rw [hport]; exact hpeer)
  rw [hport, s.decidePort_setPort (q := (s.port n).measured d) rfl] at ht
  have hown : (((s.setPort n ((s.port n).measured d)).decideAt n).port n) = ((s.port n).measured d).decided (s.decidePort r) r s.img.linkLevel (((s.port n).measured d).redimensioned (s.decidePort r)) := by
    rw [ht]
    exact (State.port_setPort _ n n _).trans (if_pos rfl)
  refine ⟨_, exec_timestampExchange hn hoff h4 hlen, by rw [ht]; rfl, fun m hm => ?_, by rw [hown]; rfl, fun hmap => ?_⟩
  · rw [ht]
    exact (State.port_setPort_ne _ n m _ hm).trans (State.port_setPort_ne _ n m _ hm)
  · rw [hown]
    exact Bool.or_eq_true_iff.mpr (.inl hmap)

end

/-! ### Flits sent, replay and credits -/

section

namespace Sys2Proof.Machine

/-- The flit that goes next may be sent. -/
theorem LinkPort.sendable_nextFlit {p : LinkPort} {f : Flit} (h : p.nextFlit = some f) : p.sendable f = true := by
  obtain ⟨v, -, hf⟩ := List.mem_flatMap.mp (List.mem_of_head? h)
  exact (Bool.and_eq_true_iff.mp (List.mem_filter.mp hf).2).2

/-- A flit that may be sent has a credit (R492). -/
theorem LinkPort.credit_of_sendable {p : LinkPort} {f : Flit} (h : p.sendable f = true) : 0 < p.credits[creditIx f.hdr]?.getD 0 :=
  of_decide_eq_true (Bool.and_eq_true_iff.mp h).1

/-- What a port adds to a flit that it sends leaves the type alone. -/
theorem LinkPort.fhType_close (p : LinkPort) (f : Flit) : fhType (p.close f).hdr = fhType f.hdr := by
  simp only [LinkPort.close, fhType]
  repeat rw [fld_putFld_beside _ _ (by decide) (by decide)]

theorem LinkPort.fhType_idleFlit (p : LinkPort) : fhType p.idleFlit.hdr = 0 := p.fhType_close _

/-- A port that has sent a flit (R489, R490, R492). -/
def LinkPort.sent (p : LinkPort) (f : Flit) : LinkPort :=
  { p with txq := p.txq.erase f, replay := addReplay p.replay (p.stamp f), wire := p.wire ++ [p.stamp f], lseq := (p.lseq + 1) % 4096,
           credits := p.credits.modify (creditIx f.hdr) (· - 1) }

/-- One flit that the far end names missing (R491, R515). -/
def State.resend (n : Nat) (s : State) (q : Nat) : State :=
  match (s.port n).replay.find? fun f => fhLseq f.hdr == q with
  | some f => (s.setPort n { s.port n with wire := (s.port n).wire ++ [f] }).linkCount n 23
  | none => (s.linkCount n 24).lostInFlight n

section

variable {s : State} {n : Nat} (hn : n < 12)

include hn

theorem exec_flitSend : exec (.flitSend n) s =
    match (if ((s.port n).state == .up || (s.port n).state == .transit) && (s.port n).laser then (s.port n).nextFlit else none) with
    | none => when (s.port n).locked s (((s.setPort n { s.port n with wire := (s.port n).wire ++ [(s.port n).idleFlit] }).linkCount n 32).linkCount n 59)
    | some f => .next (((s.setPort n ((s.port n).sent f)).linkCount n (32 + fhVc f.hdr)).linkCount n (typeEvent (fhType f.hdr))) :=
  (needPart_pos (decide_eq_true hn)).trans rfl

theorem exec_flitSend_data {f : Flit} (hst : (s.port n).state = .up ∨ (s.port n).state = .transit) (hl : (s.port n).laser = true)
    (hf : (s.port n).nextFlit = some f) :
    exec (.flitSend n) s = .next (((s.setPort n ((s.port n).sent f)).linkCount n (32 + fhVc f.hdr)).linkCount n (typeEvent (fhType f.hdr))) := by
  rw [exec_flitSend hn, if_pos (by simp [hst, hl]), hf]

/-- A port with no flit to send sends IDLE when it is past lane lock. -/
theorem exec_flitSend_idle (hf : (s.port n).nextFlit = none ∨ ((s.port n).state ≠ .up ∧ (s.port n).state ≠ .transit)) : exec (.flitSend n) s =
    when (s.port n).locked s (((s.setPort n { s.port n with wire := (s.port n).wire ++ [(s.port n).idleFlit] }).linkCount n 32).linkCount n 59) := by
  have hnone : (if ((s.port n).state == .up || (s.port n).state == .transit) && (s.port n).laser then (s.port n).nextFlit else none) = none := by
    rcases hf with hf | ⟨hup, htr⟩
    · rw [hf, ite_self]
    · exact if_neg (by simp [hup, htr])
  rw [exec_flitSend hn, hnone]

theorem exec_nak (hl : (s.port n).locked = true) (q : Nat) : ∃ c, exec (.nak n [q]) s = .next (State.resend n (s.withCtr c) q) := by
  obtain ⟨c, hc⟩ := (s.counts_linkCount n 22 1).trans (State.counts_pulse _ (0x30 + n))
  refine ⟨c, ?_⟩
  change execNak n [q] s = _
  rw [execNak, needPart_pos (decide_eq_true hn), hl, hc]
  rfl

theorem exec_nak_held (hl : (s.port n).locked = true) {q : Nat} {f : Flit} (hf : (s.port n).replay.find? (fun f => fhLseq f.hdr == q) = some f) :
    ∃ t, exec (.nak n [q]) s = .next t ∧ (s.setPort n { s.port n with wire := (s.port n).wire ++ [f] }).counts t := by
  obtain ⟨c, hexec⟩ := exec_nak hn hl q
  have hfind : ((s.withCtr c).port n).replay.find? (fun f => fhLseq f.hdr == q) = some f := hf
  refine ⟨_, hexec, ?_⟩
  rw [State.resend, hfind]
  exact ⟨_, rfl⟩

theorem exec_nak_lost (hl : (s.port n).locked = true) {q : Nat} (hf : (s.port n).replay.find? (fun f => fhLseq f.hdr == q) = none) (ht : s.ticking = true) :
    ∃ t, exec (.nak n [q]) s = .next t ∧ (s.withFails (s.tick.fails ++ [failRecord s.crew.coord 2 4 n 0x1FF])).counts t := by
  obtain ⟨c, hexec⟩ := exec_nak hn hl q
  have hfind : ((s.withCtr c).port n).replay.find? (fun f => fhLseq f.hdr == q) = none := hf
  have hticks : ((s.withCtr c).linkCount n 24).ticking = true := ht
  refine ⟨_, hexec, ?_⟩
  rw [State.resend, hfind, State.lostInFlight_eq, hticks]
  exact ⟨_, rfl⟩

theorem exec_credit (hl : (s.port n).locked = true) (vc cls k : Nat) :
    exec (.credit n [(vc, cls, k)]) s = .next (s.setPort n { s.port n with credits := (s.port n).credits.modify (2 * vc + cls) (· + k) }) :=
  (needPart_pos (decide_eq_true hn)).trans (when_pos hl)

end

end Sys2Proof.Machine

open Sys2Proof.Machine

/-- Settles O58: a flit that goes out has a credit, a port with none ready sends IDLE, and a flit named missing is either held for replay or lost. -/
theorem flitsSent : Obligations.FlitsSent := by
  refine ⟨fun s n f hn hst hl hf => ?_, fun s n hn hf => ⟨fun hl => ?_, fun hl => ?_⟩, fun s n q hn hl => ⟨fun f hf => ?_, fun hf ht => ?_⟩,
    fun s n vc cls k hn hl => exec_credit hn hl vc cls k⟩
  · exact ⟨_, exec_flitSend_data hn hst hl hf, rfl, LinkPort.credit_of_sendable (LinkPort.sendable_nextFlit hf)⟩
  · exact ⟨_, (exec_flitSend_idle hn hf).trans (when_pos hl), rfl, LinkPort.fhType_idleFlit _⟩
  · exact (exec_flitSend_idle hn hf).trans (when_neg hl)
  · obtain ⟨t, hexec, c, rfl⟩ := exec_nak_held hn hl hf
    exact ⟨_, hexec, rfl⟩
  · obtain ⟨t, hexec, c, rfl⟩ := exec_nak_lost hn hl hf ht
    exact ⟨_, hexec, rfl⟩

end

/-! ### Records of the crew's links -/

section

namespace Sys2Proof.Machine

/-- What leaving the crew discards, and what it keeps. -/
theorem State.leaveToJoin_eq (s : State) : ∃ h c, s.leaveToJoin = { ({ s with host := h, ctr := c } : State).joinDiscard with
    sys := { s.sys with state := .join }
    crew := { epoch := s.crew.epoch, heldCoord := some s.crew.coord, claim := s.crew.claim, rseq := s.crew.rseq }
    tick := { crewTime := s.tick.crewTime, last := s.tick.last } } := by
  obtain ⟨h, rs, c, he⟩ := s.hosts_abortAll
  refine ⟨h, c, ?_⟩
  rw [State.leaveToJoin, he]
  rfl

/-! #### What a member does on the latest records (R690, R692) -/

/-- A FORM edge has been decided or waits for its time. -/
def State.reforming (s : State) : Bool := s.tick.decided.any (fun e => e.decision == 2) || s.tick.pending.any (fun e => e.decision == 2)

/-- The members lost are noted and the attempt fails with a change of membership. -/
def State.noteLost (s : State) : State :=
  { s with
    crew := { s.crew with lostNow := s.lostMembers, epoch := if s.reforming = true then s.crew.epoch + 1 else s.crew.epoch }
    tick := { s.tick with decided := none, pending := none, fails := s.tick.fails ++ [failRecord s.crew.coord 7 0 0 0x1FF] } }

section

variable {s : State}

theorem State.assessCrew_same (h : s.ticking = false ∨ s.lostMembers.all s.crew.lostNow.contains = true) : s.assessCrew = s := by
  rcases h with h | h
  · simp [State.assessCrew, h]
  · rw [State.assessCrew]
    split
    · rfl
    · exact if_pos (.inr h)

theorem State.assessCrew_lost (ht : s.ticking = true) (hl : s.lostMembers.all s.crew.lostNow.contains = false) :
    s.assessCrew = if s.continues = true then s.noteLost else s.leaveToJoin := by
  have hnew : ¬(s.lostMembers = [] ∨ s.lostMembers.all s.crew.lostNow.contains = true) := by
    rintro (h | h)
    · simp [h] at hl
    · simp [h] at hl
  rw [State.assessCrew, ht, if_neg (by decide)]
  dsimp only
  rw [if_neg hnew]
  cases s.continues <;> rfl

/-- A member stays as it is, notes who is lost, or leaves. -/
theorem State.assessCrew_cases (s : State) : s.assessCrew = s ∨ s.assessCrew = s.noteLost ∨ s.assessCrew = s.leaveToJoin := by
  by_cases h : s.ticking = false ∨ s.lostMembers.all s.crew.lostNow.contains = true
  · exact .inl (State.assessCrew_same h)
  · rw [not_or, Bool.not_eq_false, Bool.not_eq_true] at h
    rw [State.assessCrew_lost h.1 h.2]
    split
    · exact .inr (.inl rfl)
    · exact .inr (.inr rfl)

end

/-! #### LINK_STATE -/

/-- The state with a newer record, sent on over the other UP links (R516). -/
def State.holdRecord (s : State) (n : Nat) (rec : BitVec 512) : State :=
  { s with
    yard := { s.yard with records := Sparse.set 0 s.yard.records (lsOrigin rec) rec, stale := true, sent := s.yard.sent ++ [.linkState rec (some n)] }
    ports := Sparse.mapVals {} (fun k (p : LinkPort) => if p.state = .up ∧ k ≠ n then { p with txq := p.txq ++ [s.recordFlit rec p.peerCoord] } else p) s.ports }

/-- A record is newer than the one held of its origin (R517). -/
def State.newer (s : State) (rec : BitVec 512) : Bool :=
  match s.yard.records.find? fun e => e.1 == lsOrigin rec with
  | none => true
  | some e => decide (lsEpoch e.2 < lsEpoch rec) || (lsEpoch e.2 == lsEpoch rec && decide (lsSeq e.2 < lsSeq rec))

theorem State.newer_eq_false {s : State} {rec old : BitVec 512} (hheld : (s.yard.records.find? fun e => e.1 == lsOrigin rec) = some (lsOrigin rec, old))
    (hold : lsEpoch rec < lsEpoch old ∨ (lsEpoch rec = lsEpoch old ∧ lsSeq rec ≤ lsSeq old)) : s.newer rec = false := by
  rw [State.newer, hheld]
  simp only [Bool.or_eq_false_iff, Bool.and_eq_false_iff, decide_eq_false_iff_not, beq_eq_false_iff_ne]
  omega

theorem State.newer_eq_true {s : State} {rec : BitVec 512} (hnew : ∀ old, (s.yard.records.find? fun e => e.1 == lsOrigin rec) = some (lsOrigin rec, old) →
    lsEpoch old < lsEpoch rec ∨ (lsEpoch old = lsEpoch rec ∧ lsSeq old < lsSeq rec)) : s.newer rec = true := by
  rw [State.newer]
  split
  next => rfl
  next e he =>
    have horigin : e.1 = lsOrigin rec := by simpa using List.find?_some he
    have := hnew e.2 (by rw [he, ← horigin])
    simpa using this

theorem exec_linkState {s : State} {n : Nat} (hn : n < 12) (hup : (s.port n).state = .up) (hm : s.crew.member = true) (rec : BitVec 512) :
    exec (.linkState n rec) s = .next (if linkStateOk rec = false then s.linkCount n 25 else if s.newer rec = true then (s.holdRecord n rec).assessCrew else s) := by
  have hsend : (({ s with yard := { s.yard with records := Sparse.set 0 s.yard.records (lsOrigin rec) rec, stale := true } } : State).sendRecord rec (some n)) =
      s.holdRecord n rec := by
    simp only [State.sendRecord, State.holdRecord, ne_eq, Option.some.injEq]
    rfl
  change execLinkState n rec s = _
  rw [execLinkState, needPart_pos (decide_eq_true hn), if_neg (by simp [hup, hm])]
  dsimp only
  rw [hsend]
  cases linkStateOk rec <;> rfl

end Sys2Proof.Machine

open Sys2Proof.Machine

/-- Settles O60: a record that is sound and newer is taken and sent on, and the member then acts on whom the latest records show lost. -/
theorem linkStateRecords : Obligations.LinkStateRecords := by
  intro s n rec hn hup hm held
  have hexec := exec_linkState hn hup hm rec
  refine ⟨fun hbad => ?_, fun old hok hheld hold => ?_, fun hok hnew => ?_⟩
  · exact ⟨_, hexec.trans (by rw [if_pos hbad]), rfl⟩
  · rw [hexec, hok, if_neg (by decide), State.newer_eq_false hheld hold]
    rfl
  intro u
  have htake : exec (.linkState n rec) s = .next u.assessCrew := by
    rw [hexec, hok, if_neg (by decide), if_pos (State.newer_eq_true hnew)]
    rfl
  refine ⟨fun hsame => ?_, fun ht hl hc => ?_, fun ht hl hc => ?_⟩
  · exact htake.trans (congrArg _ (State.assessCrew_same hsame))
  · have hnote : u.assessCrew = u.noteLost := (State.assessCrew_lost (s := u) ht hl).trans (if_pos hc)
    exact ⟨u.noteLost, htake.trans (congrArg _ hnote), rfl, rfl, rfl⟩
  · have hleave : u.assessCrew = u.leaveToJoin := (State.assessCrew_lost (s := u) ht hl).trans (if_neg (by simp [hc]))
    obtain ⟨h, c, he⟩ := u.leaveToJoin_eq
    refine ⟨_, htake.trans (congrArg _ (hleave.trans he)), rfl, rfl, rfl, rfl, rfl, rfl⟩

end

/-! ### Links lost -/

section

namespace Sys2Proof.Machine

/-! #### What follows the loss of a link keeps -/

/-- From `s` to `t` port `n` has changed at most in its waiting flits, the weights at most in where they lie, and nothing sent has been taken back; NOR, power
and profile are as they were. -/
def State.keepsLoss (n : Nat) (s t : State) : Prop :=
  (∃ l, t.port n = { s.port n with txq := l }) ∧ (t.nor = s.nor ∧ t.pwr = s.pwr ∧ t.profile = s.profile) ∧
  (∃ sh hb re mi ma rg, t.wt = { s.wt with share := sh, inHbm := hb, remap := re, mirror := mi, mirrorAt := ma, rewriting := rg }) ∧
  ∀ m, m ∈ s.yard.sent → m ∈ t.yard.sent

theorem State.keepsLoss.trans {n : Nat} {s t u : State} (h1 : s.keepsLoss n t) (h2 : t.keepsLoss n u) : s.keepsLoss n u := by
  obtain ⟨⟨l, hp⟩, ⟨hnor, hpwr, hprof⟩, ⟨sh, hb, re, mi, ma, rg, hw⟩, hs⟩ := h1
  obtain ⟨⟨l', hp'⟩, ⟨hnor', hpwr', hprof'⟩, ⟨sh', hb', re', mi', ma', rg', hw'⟩, hs'⟩ := h2
  exact ⟨⟨l', by rw [hp', hp]⟩, ⟨hnor'.trans hnor, hpwr'.trans hpwr, hprof'.trans hprof⟩, ⟨sh', hb', re', mi', ma', rg', by rw [hw', hw]⟩, fun m hm => hs' m (hs m hm)⟩

/-- From `s` to `t` flits have been queued at ports, and an attempt may have failed. -/
def State.requeues (s t : State) : Prop := (∃ ps fs c, t = { s with ports := ps, tick := { s.tick with fails := fs }, ctr := c }) ∧ ∀ m, ∃ l, t.port m = { s.port m with txq := l }

theorem State.requeues.trans {s t u : State} (h1 : s.requeues t) (h2 : t.requeues u) : s.requeues u := by
  obtain ⟨⟨ps, fs, c, rfl⟩, hp⟩ := h1
  obtain ⟨⟨ps', fs', c', rfl⟩, hp'⟩ := h2
  refine ⟨⟨ps', fs', c', rfl⟩, fun m => ?_⟩
  obtain ⟨l, hl⟩ := hp m
  obtain ⟨l', hl'⟩ := hp' m
  exact ⟨l', by rw [hl', hl]⟩

theorem State.requeues_refl (s : State) : s.requeues s := ⟨⟨s.ports, s.tick.fails, s.ctr, rfl⟩, fun m => ⟨(s.port m).txq, rfl⟩⟩

theorem State.requeues_foldl {α : Type} {f : State → α → State} (hf : ∀ (s : State) x, s.requeues (f s x)) (l : List α) (s : State) : s.requeues (l.foldl f s) := by
  induction l generalizing s with
  | nil => exact s.requeues_refl
  | cons x l ih => exact (hf s x).trans (ih _)

theorem State.requeues_counts {s t : State} (h : s.counts t) : s.requeues t := by
  obtain ⟨c, rfl⟩ := h
  exact ⟨⟨s.ports, s.tick.fails, c, rfl⟩, fun m => ⟨(s.port m).txq, rfl⟩⟩

theorem State.requeues_withFails (s : State) (fs : List (BitVec 128)) : s.requeues (s.withFails fs) :=
  ⟨⟨s.ports, fs, s.ctr, rfl⟩, fun m => ⟨(s.port m).txq, rfl⟩⟩

theorem State.requeues_lostInFlight (s : State) (n : Nat) : s.requeues (s.lostInFlight n) := by
  rw [State.lostInFlight_eq]
  exact s.requeues_withFails _

theorem State.requeues_enqueue (s : State) (n : Nat) (f : Flit) : s.requeues (s.enqueue n f) := by
  refine ⟨⟨_, s.tick.fails, s.ctr, rfl⟩, fun m => ?_⟩
  rw [State.enqueue, State.port_setPort]
  split
  next h => exact ⟨_, by rw [h]⟩
  next => exact ⟨(s.port m).txq, rfl⟩

theorem State.requeues_reroute (lost : Nat) (s : State) (f : Flit) : s.requeues (s.reroute lost f) := by
  rw [State.reroute]
  split
  · split
    · exact s.requeues_refl
    · exact s.requeues_lostInFlight lost
  · exact (s.requeues_enqueue _ _).trans (State.requeues_counts (State.counts_ite _ _ (State.counts_linkCount _ _ _ _) (State.counts_refl _)))

theorem State.requeues_rerouteTransit (lost : Nat) (s : State) (f : Flit) : s.requeues (s.rerouteTransit lost f) := by
  rw [State.rerouteTransit]
  split
  · exact s.requeues_enqueue _ _
  · exact State.requeues_counts (s.counts_linkCount _ _ _)

/-- A foreign crew's flit is no part of the attempt. -/
theorem State.tick_rerouteTransit (lost : Nat) (s : State) (f : Flit) : (s.rerouteTransit lost f).tick = s.tick := by
  rw [State.rerouteTransit]
  split <;> rfl

theorem State.tick_foldl_rerouteTransit (lost : Nat) (l : List Flit) (s : State) : (l.foldl (fun s f => s.rerouteTransit lost f) s).tick = s.tick := by
  induction l generalizing s with
  | nil => rfl
  | cons f l ih => exact (ih _).trans (s.tick_rerouteTransit lost f)

theorem State.requeues.keepsLoss {s t : State} (n : Nat) (h : s.requeues t) : s.keepsLoss n t := by
  obtain ⟨⟨ps, fs, c, rfl⟩, hp⟩ := h
  exact ⟨hp n, ⟨rfl, rfl, rfl⟩, ⟨_, _, _, _, _, _, rfl⟩, fun m hm => hm⟩

/-- A listed value reads as mapped where it stays listed, whatever the order of the keys. -/
theorem Sparse.get_mapVals_listed {α : Type} [DecidableEq α] {d : α} {f : Nat → α → α} {m : Sparse α} {a : Nat} (h : Sparse.get d m a ≠ d)
    (hf : f a (Sparse.get d m a) ≠ d) : Sparse.get d (Sparse.mapVals d f m) a = f a (Sparse.get d m a) := by
  induction m with
  | nil => exact absurd rfl h
  | cons e m ih =>
    obtain ⟨k, x⟩ := e
    have hm : Sparse.mapVals d f ((k, x) :: m) = if f k x = d then Sparse.mapVals d f m else (k, f k x) :: Sparse.mapVals d f m := by
      by_cases hd : f k x = d <;> simp [Sparse.mapVals, hd]
    rw [Sparse.get_cons] at h hf ⊢
    by_cases hk : k = a
    · subst hk
      rw [if_pos rfl] at hf
      rw [hm, if_neg hf, Sparse.get_cons, if_pos rfl, if_pos rfl]
    · rw [if_neg hk] at h hf ⊢
      rw [hm]
      split
      · exact ih h hf
      · rw [Sparse.get_cons, if_neg hk, ih h hf]

theorem LinkPort.ne_default {p : LinkPort} (h : p.state ≠ .off) : p ≠ {} := fun he => h (congrArg LinkPort.state he)

/-- A record waits at every UP port but the one on which it came (R516). -/
def State.passOn (s : State) (r : BitVec 512) (except : Option Nat) (k : Nat) (p : LinkPort) : LinkPort :=
  if p.state = .up ∧ some k ≠ except then { p with txq := p.txq ++ [s.recordFlit r p.peerCoord] } else p

theorem State.passOn_txq (s : State) (r : BitVec 512) (except : Option Nat) (k : Nat) (p : LinkPort) : ∃ l, s.passOn r except k p = { p with txq := l } := by
  rw [State.passOn]
  split
  · exact ⟨_, rfl⟩
  · exact ⟨p.txq, rfl⟩

theorem State.keepsLoss_sendRecord {s : State} {n : Nat} (hn : (s.port n).state ≠ .off) (r : BitVec 512) (except : Option Nat) :
    s.keepsLoss n (s.sendRecord r except) := by
  refine ⟨?_, ⟨rfl, rfl, rfl⟩, ⟨_, _, _, _, _, _, rfl⟩, fun m hm => List.mem_append_left _ hm⟩
  have hport : (s.sendRecord r except).port n = Sparse.get {} (Sparse.mapVals {} (s.passOn r except) s.ports) n := rfl
  obtain ⟨l, hl⟩ := s.passOn_txq r except n (s.port n)
  have hlisted : s.passOn r except n (s.port n) ≠ {} := LinkPort.ne_default (by rw [hl]; exact hn)
  exact ⟨l, (hport.trans (Sparse.get_mapVals_listed (LinkPort.ne_default hn) hlisted)).trans hl⟩

theorem State.keepsLoss_flood {s : State} {n : Nat} (hn : (s.port n).state ≠ .off) : s.keepsLoss n s.flood := by
  rw [State.flood]
  split
  · exact (s.requeues_refl).keepsLoss n
  · exact State.keepsLoss_sendRecord (s := { s with crew := _, yard := _ }) hn _ _

theorem State.keepsLoss_assessCrew (s : State) (n : Nat) : s.keepsLoss n s.assessCrew := by
  rcases s.assessCrew_cases with h | h | h <;> rw [h]
  · exact (s.requeues_refl).keepsLoss n
  · exact ⟨⟨(s.port n).txq, rfl⟩, ⟨rfl, rfl, rfl⟩, ⟨_, _, _, _, _, _, rfl⟩, fun m hm => hm⟩
  · obtain ⟨h, c, he⟩ := s.leaveToJoin_eq
    rw [he]
    exact ⟨⟨(s.port n).txq, rfl⟩, ⟨rfl, rfl, rfl⟩, ⟨_, _, _, _, _, _, rfl⟩, fun m hm => hm⟩

/-! #### The loss -/

/-- A port whose link is lost (R513). -/
def LinkPort.cut (p : LinkPort) (reason : Nat) : LinkPort :=
  { p.restart reason with lost := true, laser := false, replay := [], txq := [], acked := p.lseq, missing := [] }

/-- The port's link is lost, and the far end is told. -/
def State.cutLink (s : State) (n reason : Nat) : State :=
  ((((s.setPort n ((s.port n).cut reason)).linkCount n 29).linkCount n 30).pulse (0x30 + n)).send (.downNotice n)

/-- A flit sent and neither acknowledged nor held has been lost with the link. -/
def State.cutFails (s : State) (n reason : Nat) : State :=
  if (s.port n).replay.length < seqDist (s.port n).acked (s.port n).lseq ∧ ((s.port n).state = .up ∨ (s.port n).state = .transit) then
    (s.cutLink n reason).lostInFlight n
  else s.cutLink n reason

theorem State.loseLink_eq (s : State) (n reason : Nat) : s.loseLink n reason =
    if (s.port n).state = .up then ((((s.port n).replay ++ (s.port n).txq).foldl (fun s f => s.reroute n f) (s.cutFails n reason)).flood).assessCrew
    else if (s.port n).state = .transit then ((s.port n).replay ++ (s.port n).txq).foldl (fun s f => s.rerouteTransit n f) (s.cutFails n reason)
    else s.cutFails n reason := rfl

section

variable (s : State) (n reason : Nat)

/-- The loss itself touches the port, the messages sent and the counters. -/
theorem State.cutLink_eq : ∃ c, s.cutLink n reason =
    { s with ports := Sparse.set {} s.ports n ((s.port n).cut reason), yard := { s.yard with sent := s.yard.sent ++ [.downNotice n] }, ctr := c } := by
  obtain ⟨c, hc⟩ := ((State.counts_linkCount (s.setPort n ((s.port n).cut reason)) n 29 1).trans (State.counts_linkCount _ n 30 1)).trans (State.counts_pulse _ (0x30 + n))
  refine ⟨c, ?_⟩
  rw [State.cutLink, hc]
  rfl

theorem State.port_cutLink (m : Nat) : (s.cutLink n reason).port m = if m = n then (s.port n).cut reason else s.port m := by
  obtain ⟨c, hcut⟩ := s.cutLink_eq n reason
  rw [hcut]
  exact Sparse.get_set _ _ _ _ _

theorem State.requeues_cutFails : (s.cutLink n reason).requeues (s.cutFails n reason) := by
  rw [State.cutFails]
  split
  · exact State.requeues_lostInFlight _ _
  · exact State.requeues_refl _

/-- Every further step of a loss keeps what the loss itself has left. -/
theorem State.keepsLoss_loseLink : (s.cutLink n reason).keepsLoss n (s.loseLink n reason) := by
  rw [State.loseLink_eq]
  split
  · have hq := (s.requeues_cutFails n reason).trans (State.requeues_foldl (State.requeues_reroute n) ((s.port n).replay ++ (s.port n).txq) _)
    refine (hq.keepsLoss n).trans ((State.keepsLoss_flood ?_).trans (State.keepsLoss_assessCrew _ n))
    obtain ⟨l, hl⟩ := hq.2 n
    rw [hl, State.port_cutLink, if_pos rfl]
    exact fun h => PortState.noConfusion h
  · split
    · exact ((s.requeues_cutFails n reason).trans (State.requeues_foldl (State.requeues_rerouteTransit n) _ _)).keepsLoss n
    · exact (s.requeues_cutFails n reason).keepsLoss n

/-- A port that leads to no other module of a crew has nothing to send again. -/
theorem State.loseLink_idle (hup : (s.port n).state ≠ .up) (htr : (s.port n).state ≠ .transit) : s.loseLink n reason = s.cutLink n reason := by
  rw [State.loseLink_eq, if_neg hup, if_neg htr, State.cutFails, if_neg (by tauto)]

theorem State.loseLink_transit (htr : (s.port n).state = .transit) : s.loseLink n reason =
    ((s.port n).replay ++ (s.port n).txq).foldl (fun s f => s.rerouteTransit n f) (s.cutFails n reason) := by
  rw [State.loseLink_eq, if_neg (by rw [htr]; decide), if_pos htr]

/-- What the loss of a TRANSIT port leaves. -/
theorem State.loseLink_transit_frame (htr : (s.port n).state = .transit) : ∃ ps fs c, s.loseLink n reason =
    { s with ports := ps, ctr := c, tick := { s.tick with fails := fs }, yard := { s.yard with sent := s.yard.sent ++ [.downNotice n] } } := by
  obtain ⟨⟨ps, fs, c, hframe⟩, -⟩ :=
    (s.requeues_cutFails n reason).trans (State.requeues_foldl (State.requeues_rerouteTransit n) ((s.port n).replay ++ (s.port n).txq) _)
  refine ⟨ps, fs, c, ?_⟩
  obtain ⟨c', hcut⟩ := s.cutLink_eq n reason
  rw [s.loseLink_transit n reason htr, hframe, hcut]

/-- Unheld flits of a TRANSIT port fail the attempt once. -/
theorem State.loseLink_transit_fails (htr : (s.port n).state = .transit) (ht : s.ticking = true)
    (hun : (s.port n).replay.length < seqDist (s.port n).acked (s.port n).lseq) :
    (s.loseLink n reason).tick.fails = s.tick.fails ++ [failRecord s.crew.coord 2 4 n 0x1FF] := by
  obtain ⟨c, hcut⟩ := s.cutLink_eq n reason
  rw [s.loseLink_transit n reason htr, State.tick_foldl_rerouteTransit, State.cutFails, if_pos ⟨hun, .inr htr⟩, State.lostInFlight_eq, hcut]
  exact if_pos ht

theorem State.loseLink_lost : linkLost s (s.loseLink n reason) n reason := by
  obtain ⟨⟨l, hport⟩, ⟨hnor, hpwr, hprof⟩, ⟨sh, hb, re, mi, ma, rg, hw⟩, hsent⟩ := s.keepsLoss_loseLink n reason
  rw [State.port_cutLink, if_pos rfl] at hport
  obtain ⟨c, hcut⟩ := s.cutLink_eq n reason
  rw [hcut] at hnor hpwr hprof hw hsent
  rw [linkLost, hport]
  refine ⟨rfl, rfl, rfl, rfl, rfl, rfl, hnor, hpwr, hprof, by rw [hw], hsent _ (List.mem_append_right _ (List.mem_singleton_self _)), fun hup htr => ?_, fun htr => ⟨?_, s.loseLink_transit_fails n reason htr⟩⟩
  · refine ⟨by rw [s.loseLink_idle n reason hup htr, hcut], fun m hm => ?_⟩
    rw [s.loseLink_idle n reason hup htr, State.port_cutLink, if_neg hm]
  · obtain ⟨ps, fs, c, hframe⟩ := s.loseLink_transit_frame n reason htr
    rw [hframe]

end

end Sys2Proof.Machine

open Sys2Proof.Machine

/-- Settles O59: the four causes lose the link of a port past lane lock, each with its own REASON. -/
theorem linksAreLost : Obligations.LinksAreLost := by
  intro s n lane hn hlane
  have hpart : decide (n < 12) = true := decide_eq_true hn
  have hparts : (decide (n < 12) && decide (lane < 10)) = true := by simp [hn, hlane]
  refine ⟨fun hl => ⟨?_, ?_, ?_, ?_⟩, fun hl => ⟨?_, ?_, ?_, ?_⟩⟩
  · exact ⟨_, (needPart_pos hpart).trans (when_pos hl), s.loseLink_lost n 0xD⟩
  · exact ⟨_, (needPart_pos hparts).trans (when_pos hl), s.loseLink_lost n 1⟩
  · exact ⟨_, (needPart_pos hpart).trans (when_pos hl), s.loseLink_lost n 3⟩
  · exact ⟨_, (needPart_pos hpart).trans (when_pos hl), s.loseLink_lost n 4⟩
  · exact (needPart_pos hpart).trans (when_neg hl)
  · exact (needPart_pos hparts).trans (when_neg hl)
  · exact (needPart_pos hpart).trans (when_neg hl)
  · exact (needPart_pos hpart).trans (when_neg hl)

end

/-! ### Chunks sent and credits returned -/

section

namespace Sys2Proof.Machine

/-- From `s` to `t` messages have been sent, their flits queued at ports and message numbers taken; nothing else has changed. -/
def State.posts (s t : State) (ms : List OutMsg) : Prop :=
  ∃ ps k, t = { s with ports := ps, yard := { s.yard with sent := s.yard.sent ++ ms, msgNext := k } }

theorem State.posts_refl (s : State) : s.posts s [] := ⟨s.ports, s.yard.msgNext, by rw [List.append_nil]⟩

theorem State.posts.trans {s t u : State} {ms ns : List OutMsg} (h1 : s.posts t ms) (h2 : t.posts u ns) : s.posts u (ms ++ ns) := by
  obtain ⟨ps, k, rfl⟩ := h1
  obtain ⟨ps', k', rfl⟩ := h2
  exact ⟨ps', k', by rw [List.append_assoc]⟩

theorem State.launches.posts {s t : State} (h : s.launches t) : s.posts t [] := by
  obtain ⟨⟨ps, k, rfl⟩, -⟩ := h
  exact ⟨ps, k, by rw [List.append_nil]⟩

theorem State.posts_sendChunk (vc : Nat) (h : BitVec 256) (p : List Byte) (s : State) (dest : Nat) :
    s.posts (s.sendChunk vc h p dest) [.chunk dest vc h p] := by
  have hsend : s.posts { s.send (.chunk dest vc h p) with yard := { (s.send (.chunk dest vc h p)).yard with msgNext := s.yard.msgNext + 1 } }
      [.chunk dest vc h p] := ⟨s.ports, s.yard.msgNext + 1, rfl⟩
  exact hsend.trans (State.launches_foldl _ State.launches_launch _ _).posts

/-- Steps that each send messages which what is sent before does not alter send them all, in order. -/
theorem State.posts_foldl {α : Type} {f : State → α → State} {g : State → α → List OutMsg} (hf : ∀ (s : State) x, s.posts (f s x) (g s x))
    (hg : ∀ (s t : State) ms x, s.posts t ms → g t x = g s x) (l : List α) (s : State) : s.posts (l.foldl f s) (l.flatMap (g s)) := by
  induction l generalizing s with
  | nil => exact s.posts_refl
  | cons x l ih =>
    have hsame : g (f s x) = g s := funext fun y => hg _ _ _ y (hf s x)
    exact hsame ▸ (hf s x).trans (ih (f s x))

theorem State.posts_sendChunks (vc : Nat) (h : BitVec 256) (p : List Byte) (dests : List Nat) (s : State) :
    s.posts (dests.foldl (State.sendChunk vc h p) s) (dests.map fun m => .chunk m vc h p) := by
  rw [List.map_eq_flatMap]
  exact State.posts_foldl (g := fun _ m => [.chunk m vc h p]) (State.posts_sendChunk vc h p) (fun _ _ _ _ _ => rfl) dests s

/-- The messages in which one chunk of words goes to the members of `d`, with the phase and the step that `d` gives. -/
def State.chunkMsgs (s : State) (c : CollPlan) (item chunk : Nat) (d : List Nat × Nat × Nat) (ws : List W32) : List OutMsg :=
  let payload := ws.flatMap fun w => leBytes 4 w.toNat
  d.1.map fun m => .chunk m c.vc (s.chunkHeader c d.2.1 d.2.2 item chunk payload) payload

/-- From `s` to `t` withheld credits have been returned, and counted. -/
def State.returns (s t : State) : Prop := ∃ ps c back, (∀ m, m ∈ back → ∃ n v b k, m = .creditReturn n v b k) ∧
  t = { s with ports := ps, yard := { s.yard with sent := s.yard.sent ++ back }, ctr := c }

theorem State.returns_refl (s : State) : s.returns s := ⟨s.ports, s.ctr, [], fun _ h => (List.not_mem_nil h).elim, by rw [List.append_nil]⟩

theorem State.returns.trans {s t u : State} (h1 : s.returns t) (h2 : t.returns u) : s.returns u := by
  obtain ⟨ps, c, back, hb, rfl⟩ := h1
  obtain ⟨ps', c', back', hb', rfl⟩ := h2
  exact ⟨ps', c', back ++ back', fun m hm => (List.mem_append.mp hm).elim (hb m) (hb' m), by rw [List.append_assoc]⟩

theorem State.returns_foldl {α : Type} {f : State → α → State} (hf : ∀ (s : State) x, s.returns (f s x)) (l : List α) (s : State) :
    s.returns (l.foldl f s) := by
  induction l generalizing s with
  | nil => exact s.returns_refl
  | cons x l ih => exact (hf s x).trans (ih _)

theorem State.returns_setPort (s : State) (n : Nat) (p : LinkPort) : s.returns (s.setPort n p) :=
  ⟨_, s.ctr, [], fun _ h => (List.not_mem_nil h).elim, by rw [List.append_nil]; rfl⟩

theorem State.returns_withCtr (s : State) (c : Counters) : s.returns (s.withCtr c) :=
  ⟨s.ports, c, [], fun _ h => (List.not_mem_nil h).elim, by rw [List.append_nil]; rfl⟩

theorem State.returns_credit (s : State) (n v b k : Nat) : s.returns ((s.send (.creditReturn n v b k)).linkCount n 60) :=
  ⟨s.ports, _, [.creditReturn n v b k], fun _ h => ⟨n, v, b, k, List.mem_singleton.mp h⟩, rfl⟩

theorem State.returns_releaseCredits (s : State) (n : Nat) : s.returns (s.releaseCredits n) := by
  rw [State.releaseCredits]
  split
  · exact s.returns_refl
  · refine (s.returns_setPort n _).trans (State.returns_foldl (fun s v => ?_) _ _)
    split
    · exact s.returns_refl
    · exact s.returns_credit _ _ _ _

end Sys2Proof.Machine

end

/-! ### Chunks landing -/

section

namespace Sys2Proof.Machine

/-- A chunk is noted as landed. -/
def State.noteLanded (s : State) (sender : Nat) (h : BitVec 256) : State :=
  { s with coll := { s.coll with landed := s.coll.landed ++ [⟨chColl h, sender, chStep h, chItem h, finalChunk h⟩] } }

/-- A chunk as reduction memory holds it, in a slot or staged on a stack. -/
def heldAs (sender : Nat) (h : BitVec 256) (p : List Byte) (slot : Option Nat) (stack : Nat) : Chunk :=
  ⟨chColl h, sender, chItem h, chStep h, chNum h, p, slot, stack, true⟩

section

variable (s : State) (c : CollPlan) (sender : Nat) (h : BitVec 256) (p : List Byte) (unit : Nat)

/-- Final data is kept as a combined chunk and goes on where the plan sends it. -/
theorem State.posts_takeFinal :
    State.posts { s with coll := { s.coll with sums := Sparse.set [] s.coll.sums (sumKey (chColl h) (chItem h) (chNum h)) (payloadWords p) } }
      (s.takeFinal c h p) ((s.onwardTo c (chItem h)).map fun m => .chunk m c.vc h p) :=
  State.posts_sendChunks _ _ _ _ _

/-- Data that is not final and finds a free slot takes the slot. -/
theorem State.placeChunk_takes_slot {n : Nat} (hslot : s.slotFor c sender (chStep h) = some n) (hfin : ¬finalChunk h = true) :
    ∃ k, s.placeChunk c sender h p unit = { s with
      ctr := k
      coll := { s.coll with
        landed := (s.noteLanded sender h).coll.landed, busy := s.coll.busy ++ [n]
        chunks := s.coll.chunks ++ [heldAs sender h p (some n) (4 * c.die + unit % 4)] } } := by
  rw [State.placeChunk, hslot]
  dsimp only
  rw [if_neg hfin]
  exact ⟨_, rfl⟩

/-- Data that is not final and finds no free slot is staged while there is room. -/
theorem State.placeChunk_stages (hslot : s.slotFor c sender (chStep h) = none) (hroom : s.stagedBytes (4 * c.die + unit % 4) + 32 + p.length ≤ 2 ^ 24)
    (hfin : ¬finalChunk h = true) : ∃ k, s.placeChunk c sender h p unit = { s with
      ctr := k
      coll := { s.coll with
        landed := (s.noteLanded sender h).coll.landed
        chunks := s.coll.chunks ++ [heldAs sender h p none (4 * c.die + unit % 4)] } } := by
  rw [State.placeChunk, hslot]
  dsimp only
  rw [if_neg (Nat.not_lt.mpr hroom), if_neg hfin]
  exact ⟨_, rfl⟩

/-- A chunk that finds no room lands nothing: credits are withheld from its sender. -/
theorem State.placeChunk_full (hslot : s.slotFor c sender (chStep h) = none) (hfull : 2 ^ 24 < s.stagedBytes (4 * c.die + unit % 4) + 32 + p.length) :
    ∃ k, s.placeChunk c sender h p unit = { s with ports := Sparse.mapVals {} (fun _ (q : LinkPort) => q.withhold sender c.vc) s.ports, ctr := k } := by
  rw [State.placeChunk, hslot]
  dsimp only
  rw [if_pos hfull]
  exact ⟨_, rfl⟩

/-- Final data that has room is noted, kept as a combined chunk and sent on; it takes up no reduction memory. -/
theorem State.placeChunk_final (hroom : s.slotFor c sender (chStep h) ≠ none ∨ s.stagedBytes (4 * c.die + unit % 4) + 32 + p.length ≤ 2 ^ 24)
    (hfin : finalChunk h = true) : ∃ ps k m, s.placeChunk c sender h p unit = { s with
      ports := ps, ctr := k
      coll := { s.coll with
        landed := (s.noteLanded sender h).coll.landed
        sums := Sparse.set [] s.coll.sums (sumKey (chColl h) (chItem h) (chNum h)) (payloadWords p) }
      yard := { s.yard with sent := s.yard.sent ++ (s.onwardTo c (chItem h)).map (fun m => .chunk m c.vc h p), msgNext := m } } := by
  obtain ⟨k, hk⟩ : ∃ k, s.placeChunk c sender h p unit = ((s.noteLanded sender h).withCtr k).takeFinal c h p := by
    cases hslot : s.slotFor c sender (chStep h) with
    | some n =>
      rw [State.placeChunk, hslot]
      dsimp only
      rw [if_pos hfin]
      exact ⟨_, rfl⟩
    | none =>
      rw [State.placeChunk, hslot]
      dsimp only
      rw [if_neg (Nat.not_lt.mpr (hroom.resolve_left (· hslot))), if_pos hfin]
      exact ⟨_, rfl⟩
  obtain ⟨ps, m, hpost⟩ := ((s.noteLanded sender h).withCtr k).posts_takeFinal c h p
  exact ⟨ps, k, m, hk.trans hpost⟩

/-- Whatever becomes of a chunk, it touches reduction memory, ports, messages sent and counters alone. -/
theorem State.placeChunk_frame : ∃ cl ps st m k, s.placeChunk c sender h p unit =
    { s with coll := cl, yard := { s.yard with sent := st, msgNext := m }, ports := ps, ctr := k } := by
  by_cases hroom : s.slotFor c sender (chStep h) ≠ none ∨ s.stagedBytes (4 * c.die + unit % 4) + 32 + p.length ≤ 2 ^ 24
  · by_cases hfin : finalChunk h = true
    · obtain ⟨ps, k, m, he⟩ := s.placeChunk_final c sender h p unit hroom hfin
      exact ⟨_, ps, _, m, k, he⟩
    · cases hslot : s.slotFor c sender (chStep h) with
      | some n =>
        obtain ⟨k, he⟩ := s.placeChunk_takes_slot c sender h p unit hslot hfin
        exact ⟨_, s.ports, s.yard.sent, s.yard.msgNext, k, he⟩
      | none =>
        obtain ⟨k, he⟩ := s.placeChunk_stages c sender h p unit hslot (hroom.resolve_left (· hslot)) hfin
        exact ⟨_, s.ports, s.yard.sent, s.yard.msgNext, k, he⟩
  · obtain ⟨hslot, hfull⟩ := not_or.mp hroom
    obtain ⟨k, he⟩ := s.placeChunk_full c sender h p unit (not_not.mp hslot) (Nat.lt_of_not_le hfull)
    exact ⟨s.coll, _, s.yard.sent, s.yard.msgNext, k, he⟩

/-- A chunk that has room is noted as landed. -/
theorem State.placeChunk_landed (hroom : s.slotFor c sender (chStep h) ≠ none ∨ s.stagedBytes (4 * c.die + unit % 4) + 32 + p.length ≤ 2 ^ 24) :
    (s.placeChunk c sender h p unit).coll.landed = (s.noteLanded sender h).coll.landed := by
  by_cases hfin : finalChunk h = true
  · obtain ⟨ps, k, m, he⟩ := s.placeChunk_final c sender h p unit hroom hfin
    rw [he]
  · cases hslot : s.slotFor c sender (chStep h) with
    | some n =>
      obtain ⟨k, he⟩ := s.placeChunk_takes_slot c sender h p unit hslot hfin
      rw [he]
    | none =>
      obtain ⟨k, he⟩ := s.placeChunk_stages c sender h p unit hslot (hroom.resolve_left (· hslot)) hfin
      rw [he]

end

section

variable {s : State} {sender stack : Nat} {h : BitVec 256} {p : List Byte}

/-- A corrupt chunk, or one whose RSUM does not match, is counted and fails the attempt. -/
theorem execChunkReceive_bad (hw : s.working = true) (hs : s.hasStack stack = true) (hbad : s.chunkFormOk h p = false ∨ rsum h p ≠ chRsum h) :
    ∃ k, execChunkReceive sender h p stack s = .next ((s.hubCount 6 k).failAttempt 1) := by
  rw [execChunkReceive, needPart_pos hs, when_pos hw]
  cases hform : s.chunkFormOk h p with
  | false => exact ⟨5, rfl⟩
  | true => exact ⟨4, by rw [Bool.not_true, if_neg Bool.false_ne_true, if_pos (hbad.resolve_left (by rw [hform]; exact Bool.noConfusion))]⟩

/-- A sound chunk is placed under the plan of its collective. -/
theorem execChunkReceive_sound {c : CollPlan} (hw : s.working = true) (hs : s.hasStack stack = true) (hform : s.chunkFormOk h p = true)
    (hsum : rsum h p = chRsum h) (hplan : (s.coll.plan.find? fun c => c.collId == chColl h) = some c) :
    execChunkReceive sender h p stack s = .next (s.placeChunk c sender h p stack) := by
  rw [execChunkReceive, needPart_pos hs, when_pos hw, hform, Bool.not_true, if_neg Bool.false_ne_true, if_neg (not_not.mpr hsum), State.landChunk, hplan]

end

theorem finalChunk_iff (h : BitVec 256) : finalChunk h = true ↔ chPhase h = 1 ∨ chProgram h = 5 ∨ chProgram h = 7 := decide_eq_true_iff

/-- A chunk is corrupt, or it is placed by the room that it finds. -/
theorem chunksLand : ChunksLand := by
  refine ⟨fun s sender stack h p hw hs => ⟨fun hbad => ?_, fun c hform hsum hplan => ?_⟩, fun s sender stack h p hs => needPart_neg hs⟩
  · obtain ⟨k, he⟩ := execChunkReceive_bad (sender := sender) hw hs hbad
    exact ⟨_, he, rfl, by rw [State.failAttempt_fails, List.length_append]; rfl⟩
  · refine ⟨_, execChunkReceive_sound hw hs hform hsum hplan, ?_, s.placeChunk_landed c sender h p stack, fun hroom hfin => ?_, fun n hslot hfin => ?_,
      fun hslot hroom hfin => ?_, fun hslot hfull => ?_⟩
    · obtain ⟨cl, ps, st, m, k, he⟩ := s.placeChunk_frame c sender h p stack
      rw [he]
    · obtain ⟨ps, k, m, he⟩ := s.placeChunk_final c sender h p stack hroom ((finalChunk_iff h).mpr hfin)
      rw [he]
      exact ⟨rfl, rfl, rfl, rfl⟩
    · obtain ⟨k, he⟩ := s.placeChunk_takes_slot c sender h p stack hslot (mt (finalChunk_iff h).mp hfin)
      rw [he]
      exact ⟨rfl, rfl, rfl, rfl, rfl⟩
    · obtain ⟨k, he⟩ := s.placeChunk_stages c sender h p stack hslot hroom (mt (finalChunk_iff h).mp hfin)
      rw [he]
      exact ⟨rfl, rfl⟩
    · obtain ⟨k, he⟩ := s.placeChunk_full c sender h p stack hslot hfull
      rw [he]
      exact ⟨rfl, rfl⟩

end Sys2Proof.Machine

end

/-! ### Combines -/

section

namespace Sys2Proof.Machine

/-- A list without the elements that it holds of some kind. -/
theorem filter_not_contains_filter {α : Type} [DecidableEq α] (l : List α) (f : α → Bool) :
    (l.filter fun x => !(l.filter f).contains x) = l.filter fun x => !f x := by
  refine List.filter_congr fun x hx => ?_
  rw [Bool.eq_iff_iff]
  simp [hx]

section

variable (s : State) (c : CollPlan) (coll item step chunk : Nat) (l r : List W32)

/-- The chunk is an operand, held for one of these items, of a combine. -/
def operandOf (coll step chunk : Nat) (items : List Nat) (x : Chunk) : Bool :=
  x.coll == coll && x.step == step && x.num == chunk && items.contains x.item

/-- Reduction memory without the chunks `used`, whose slots are free. -/
def Coll.without (k : Coll) (used : List Chunk) : Coll :=
  { k with busy := k.busy.filter fun n => !(used.filterMap (·.slot)).contains n, chunks := k.chunks.filter fun x => !used.contains x }

/-- The reads of staged chunks are counted. -/
def State.countReads (s : State) (used : List Chunk) : State :=
  used.foldl (fun (s : State) x => if x.slot.isNone then s.stackCount x.stack 15 else s) s

theorem State.counts_countReads (used : List Chunk) : s.counts (s.countReads used) :=
  State.counts_foldl _ (fun s _ => s.counts_ite _ (s.counts_count _ _ _ _) s.counts_refl) used s

/-- The chunks `used` leave reduction memory, and credits return where one of them was staged. -/
def State.dropChunks (s : State) (used : List Chunk) : State :=
  let t := { s.countReads used with coll := (s.countReads used).coll.without used }
  if used.any fun x => x.slot.isNone then (List.range 12).foldl State.releaseCredits t else t

theorem State.returns_dropChunks (used : List Chunk) : State.returns { s with coll := s.coll.without used } (s.dropChunks used) := by
  obtain ⟨k, hk⟩ := s.counts_countReads used
  rw [State.dropChunks, hk]
  refine State.returns.trans (State.returns_withCtr _ k) ?_
  dsimp only
  split
  · exact State.returns_foldl State.returns_releaseCredits _ _
  · exact State.returns_refl _

theorem State.consumeChunks_eq (items : List Nat) :
    s.consumeChunks coll step chunk items = s.dropChunks (s.coll.chunks.filter (operandOf coll step chunk items)) := rfl

/-- The chunks that a combine consumes leave, their slots are free, and credits may return. -/
theorem State.returns_consumeChunks (items : List Nat) : ∃ bs,
    State.returns { s with coll := { s.coll with busy := bs, chunks := s.coll.chunks.filter fun x => !operandOf coll step chunk items x } }
      (s.consumeChunks coll step chunk items) := by
  rw [State.consumeChunks_eq, ← filter_not_contains_filter]
  exact ⟨_, s.returns_dropChunks _⟩

/-- The combined words, as reduction memory keeps them. -/
def State.keepSum (ws : List W32) : State := { s with coll := { s.coll with sums := Sparse.set [] s.coll.sums (sumKey coll item chunk) ws } }

/-- What a combine makes of its words: they are kept, flags are raised, the chunks go, and the result is sent on. -/
def State.afterCombine (out : List W32 × Flags) : State :=
  ((((s.keepSum coll item chunk out.1).flagVec (coreNo c.die c.core) c.req out.2).consumeChunks coll step chunk [item, item + 2 ^ (step - 1)]).sendResult
    c item step chunk out.1)

/-- COMBINE by its conditions: one that may not run changes nothing, and a residue mismatch fails the attempt. -/
theorem execCombine_eq (ok : Bool) (hplan : (s.coll.plan.find? fun c => c.collId == coll) = some c) : execCombine coll item step chunk l r ok s =
    when (s.working && decide (l.length = r.length) && (c.program == 1 || c.program == 2 || c.program == 3 || c.program == 4 || c.program == 6) &&
        s.combineOk c item step chunk l r && (c.program != 6 || mergeOrdered s.headDim l r)) s
      (if !ok then (s.hubCount 6 6).failAttempt 1
       else s.afterCombine c coll item step chunk (s.combineWords (coreNo c.die c.core) c.program l r)) := by
  rw [execCombine, hplan]
  rfl

theorem State.combineWords_merge {core program : Nat} (h6 : program = 6) : (s.combineWords core program l r).1 = (mergeWords (s.envOf core) s.headDim l r).1 := by
  rw [State.combineWords, if_pos h6]

theorem State.combineWords_sum {core program : Nat} (h6 : program ≠ 6) : (s.combineWords core program l r).1 =
    (l.zip r).map fun p => BitVec.ofNat 32 (Fp.fp32.stored (add32 s.ovf p.1.toNat p.2.toNat).1) := by
  rw [State.combineWords, if_neg h6, sumWords, List.map_map]
  rfl

/-- The result goes as a chunk to the members that need it next. -/
theorem State.posts_sendResult (ws : List W32) :
    s.posts (s.sendResult c item step chunk ws) (s.chunkMsgs c item chunk (s.sendsTo c item step chunk) ws) :=
  State.posts_sendChunks _ _ _ _ _

/-- A combine touches the sums, chunks and slots of reduction memory, and besides them what it sends, raises and counts. -/
theorem State.afterCombine_eq (out : List W32 × Flags) : ∃ bs ps back m fl k, (∀ x, x ∈ back → ∃ n v b k, x = .creditReturn n v b k) ∧
    s.afterCombine c coll item step chunk out = { s with
      ports := ps, ctr := k, fore := { s.fore with flags := fl }
      coll := { s.coll with
        busy := bs, sums := Sparse.set [] s.coll.sums (sumKey coll item chunk) out.1
        chunks := s.coll.chunks.filter fun x => !operandOf coll step chunk [item, item + 2 ^ (step - 1)] x }
      yard := { s.yard with
        msgNext := m, sent := s.yard.sent ++ back ++ s.chunkMsgs c item chunk (s.sendsTo c item step chunk) out.1 } } := by
  obtain ⟨fl, k, hflags⟩ := (s.keepSum coll item chunk out.1).flagVec_flags (coreNo c.die c.core) c.req out.2
  obtain ⟨bs, ps, k', back, hback, hused⟩ :=
    ((s.keepSum coll item chunk out.1).withFlags fl k).returns_consumeChunks coll step chunk [item, item + 2 ^ (step - 1)]
  obtain ⟨ps', m, hsent⟩ := State.posts_sendResult
    (((s.keepSum coll item chunk out.1).withFlags fl k).consumeChunks coll step chunk [item, item + 2 ^ (step - 1)]) c item step chunk out.1
  rw [hused] at hsent
  refine ⟨bs, ps', back, m, fl, k', hback, ?_⟩
  rw [State.afterCombine, hflags, hused]
  exact hsent

end

/-- A combine changes nothing unless it is in its place; there it fails the attempt, or keeps its words, consumes its chunks and sends its result. -/
theorem combines : Combines := by
  intro s coll item step chunk l r c hw hplan hlen hprog
  have hprogs : (c.program == 1 || c.program == 2 || c.program == 3 || c.program == 4 || c.program == 6) = true := by simpa [or_assoc] using hprog
  have hrun {ok : Bool} (hok : s.combineOk c item step chunk l r = true) (hord : c.program ≠ 6 ∨ mergeOrdered s.headDim l r = true) :
      exec (.combine coll item step chunk l r ok) s = .next (if !ok then (s.hubCount 6 6).failAttempt 1
        else s.afterCombine c coll item step chunk (s.combineWords (coreNo c.die c.core) c.program l r)) := by
    refine (execCombine_eq s c coll item step chunk l r ok hplan).trans (when_pos ?_)
    simpa [hw, hlen, hprogs, hok] using hord
  refine ⟨fun hno b => ?_, fun h6 hno b => ?_, fun hok hord => ?_, fun hok hord => ?_⟩
  · exact (execCombine_eq s c coll item step chunk l r b hplan).trans (when_neg (by simp [hno]))
  · exact (execCombine_eq s c coll item step chunk l r b hplan).trans (when_neg (by simp [h6, hno]))
  · exact ⟨_, hrun hok hord, rfl, by simp⟩
  · obtain ⟨bs, ps, back, m, fl, k, hback, he⟩ := s.afterCombine_eq c coll item step chunk (s.combineWords (coreNo c.die c.core) c.program l r)
    refine ⟨_, hrun hok hord, ?_⟩
    rw [Bool.not_true, if_neg Bool.false_ne_true, he]
    refine ⟨⟨back, hback, rfl⟩, rfl, rfl, rfl, rfl, s.combineWords_merge l r, s.combineWords_sum l r, ?_⟩
    simp only [operandOf, List.contains_cons, List.contains_nil, Bool.or_false]

end Sys2Proof.Machine

end

/-! ### Own contributions -/

section

namespace Sys2Proof.Machine

/-- The messages in which one chunk of this member's own contribution goes out. -/
def State.ownChunk (s : State) (c : CollPlan) (item chunk : Nat) : List OutMsg :=
  match s.ownWords c item chunk with
  | none => []
  | some ws => s.chunkMsgs c item chunk (s.ownTo c item chunk) ws

theorem State.posts_sendOwnChunk (c : CollPlan) (item : Nat) (s : State) (chunk : Nat) :
    s.posts (s.sendOwnChunk c item chunk) (s.ownChunk c item chunk) := by
  rw [State.sendOwnChunk, State.ownChunk]
  cases s.ownWords c item chunk with
  | none => exact s.posts_refl
  | some ws => exact State.posts_sendChunks _ _ _ _ _

/-- What a contribution is does not hang on what has been sent. -/
theorem State.posts.ownChunk_eq {s t : State} {ms : List OutMsg} (h : s.posts t ms) (c : CollPlan) (item chunk : Nat) :
    t.ownChunk c item chunk = s.ownChunk c item chunk := by
  obtain ⟨ps, k, rfl⟩ := h
  rfl

/-- A contribution counts as gone. -/
def State.markBegun (s : State) (c : CollPlan) (p : OwnPart) : State := { s with coll := { s.coll with begun := s.coll.begun ++ [(c.collId, p.rank)] } }

/-- A contribution that goes out counts as gone, and its chunks are sent in order. -/
theorem State.posts_sendOwn (s : State) (c : CollPlan) (p : OwnPart) : (s.markBegun c p).posts (s.sendOwn c p)
    ((List.range (ceilDiv ((s.ownBytes c (s.ownItem c p)).getD []).length c.chunk)).flatMap (s.ownChunk c (s.ownItem c p))) :=
  State.posts_foldl (f := State.sendOwnChunk c (s.ownItem c p)) (g := fun t => t.ownChunk c (s.ownItem c p)) (State.posts_sendOwnChunk c _)
    (fun _ _ _ _ h => h.ownChunk_eq c _ _) _ (s.markBegun c p)

/-- On an empty queue a contribution that is due goes out. -/
theorem step_of_ownDue {s : State} {x : CollPlan × OwnPart} (hq : s.pending = []) (hw : s.working = true) (hdue : s.ownDue = some x) :
    step s = .next (s.sendOwn x.1 x.2) := by
  rw [step, hq]
  dsimp only
  rw [State.idle, if_pos hw, hdue]

/-- With no command waiting, a contribution that is due goes out. -/
theorem ownSent : OwnSent := by
  intro s c p hq hw hdue
  obtain ⟨ps, k, he⟩ := s.posts_sendOwn c p
  refine ⟨_, step_of_ownDue hq hw hdue, ?_⟩
  dsimp only
  rw [he]
  exact ⟨rfl, rfl⟩

end Sys2Proof.Machine

open Sys2Proof.Machine

/-- Settles O36: a sound chunk lands by the room that it finds, a combine in its place consumes its chunks and sends its result on, and an own contribution that is
due goes out chunk by chunk. -/
theorem collectiveChunks : Obligations.CollectiveChunks := ⟨chunksLand, combines, ownSent⟩

end

/-! ### What no access to BAR0 reaches -/

section

namespace Sys2Proof.Machine

/-- Identity, supply, SMBus, NOR and JTAG of a module: of the board, what no access through BAR0 changes but a write of the NOR or of ROM_HOLD. -/
def State.fixed (s : State) : Ident × Power × Smbus × Mem × Jtag := (s.ident, s.pwr, s.smb, s.nor, s.jtag)

theorem State.fixed_of_board {s t : State} (h : t.board = s.board) : t.fixed = s.fixed :=
  congrArg (fun b : Board => (b.ident, b.pwr, b.smb, b.nor, b.jtag)) h

theorem State.writeMailbox_fixed (s : State) (p off : Nat) (v m : W64) : (s.writeMailbox p off v m).fixed = s.fixed := by
  unfold State.writeMailbox
  split_ifs
  · rfl
  · exact State.fixed_of_board (State.hostErr_board s p 2)
  · rfl
  · rfl

theorem State.writeTmux_fixed (s : State) (v m : W64) : (s.writeTmux v m).fixed = s.fixed := by
  unfold State.writeTmux
  split <;> rfl

theorem State.romWork_fixed (s : State) : (s.romWork s.pwr.compatN).fixed = s.fixed := by
  unfold State.romWork
  dsimp only
  split <;> rfl

theorem State.resetToRom_fixed (s : State) : s.resetToRom.fixed = s.fixed := State.romWork_fixed s.moduleReset

/-- No write to BAR0 changes identity, supply, SMBus, NOR or JTAG. -/
theorem State.bar0Write_fixed (s : State) (p off size : Nat) (v : W64) : (s.bar0Write p off size v).fixed = s.fixed := by
  unfold State.bar0Write
  extract_lets r m w q u
  have hu : u.board = s.board := by
    rw [ite_board, State.ringSq_board, ite_self]
  split_ifs
  · exact s.resetToRom_fixed
  · rfl
  · exact State.fixed_of_board (State.clearHostErr_board ..)
  · exact State.fixed_of_board (State.writeSnapHold_board ..)
  · rfl
  · exact State.writeTmux_fixed ..
  · exact State.fixed_of_board (State.clearLinkStatus_board ..)
  · exact State.writeMailbox_fixed ..
  · exact State.fixed_of_board (State.writeMsix_board ..)
  · exact State.fixed_of_board (State.writeQueue_board ..)
  · exact State.fixed_of_board ((State.ringCq_board ..).trans hu)
  · exact State.fixed_of_board hu
  · rfl

end Sys2Proof.Machine

end

/-! ### Identity, boot storage, ROM_HOLD and JTAG -/

section

namespace Sys2Proof

/-- Commands of the supply and of power good: only they change the power domains (R727 to R733). -/
def Instr.movesPower : Instr → Bool
  | .standbyPowerUp _ | .pwrEnAssert _ | .powerGood _ | .pwrEnDeassert | .undervoltage _ | .overvoltage _ | .powerUpHoldoffExpiry => true
  | _ => false

end Sys2Proof

namespace Sys2Proof.Machine

/-- What a command may change of identity, NOR, ROM_HOLD, JTAG and supply. -/
structure BoardStep (i : Instr) (s t : State) : Prop where
  ident : t.ident = s.ident
  nor : i.writesNor = false → t.nor = s.nor
  romHold : i.writesRomHold = false → t.smb.romHold = s.smb.romHold
  jtag : i.writesJtag = false → t.jtag = s.jtag
  pwr : i.movesPower = false → t.pwr = s.pwr

theorem BoardStep.of_fixed {i : Instr} {s t : State} (h : t.fixed = s.fixed) : BoardStep i s t := by
  simp only [State.fixed, Prod.mk.injEq] at h
  obtain ⟨hident, hpwr, hsmb, hnor, hjtag⟩ := h
  exact ⟨hident, fun _ => hnor, fun _ => congrArg Smbus.romHold hsmb, fun _ => hjtag, fun _ => hpwr⟩

theorem BoardStep.refl (i : Instr) (s : State) : BoardStep i s s := .of_fixed rfl

/-- A meaning all of whose next states have the property `p` has the weaker `q`. -/
theorem Out.sat.imp {o : Out} {p q : State → Prop} (h : Out.sat o p) (hpq : ∀ t, p t → q t) : Out.sat o q := fun t ht => hpq t (h t ht)

/-- A command that leaves the board alone. -/
theorem Out.sat.of_board {i : Instr} {s : State} {o : Out} (h : Out.sat o fun t => t.board = s.board) : Out.sat o (BoardStep i s) :=
  h.imp fun _ ht => .of_fixed (State.fixed_of_board ht)

/-- A guarded command that is consumed without effect, or leaves a state with the property. -/
theorem Out.sat.of_when {c : Bool} {s f : State} {p : State → Prop} (hs : p s) (hf : p f) : Out.sat (when c s f) p := by
  rw [Out.sat_when]
  split
  · exact hf
  · exact hs

/-- A guarded command whose effect leaves what BAR0 does not reach. -/
theorem Out.sat.when_fixed {i : Instr} {c : Bool} {s f : State} (h : f.fixed = s.fixed) : Out.sat (when c s f) (BoardStep i s) :=
  .of_when (.refl i s) (.of_fixed h)

/-- A mailbox operation is ignored, refused while BUSY, or carried out. -/
theorem Out.sat.of_mailboxOp {i : Instr} {s f : State} {port : Nat} (hf : BoardStep i s f) : Out.sat (s.mailboxOp port f) (BoardStep i s) := by
  rw [State.mailboxOp, Out.sat_next]
  split_ifs
  · exact .refl i s
  · exact .of_fixed (State.fixed_of_board (State.hostErr_board s port 2))
  · exact hf

end Sys2Proof.Machine

end

/-! ### The board under every command -/

section

namespace Sys2Proof.Machine

/-! #### Supply and power -/

theorem State.powerDown_boardStep {i : Instr} {s : State} (p : Power) (hj : i.writesJtag = true) (hp : i.movesPower = true) :
    BoardStep i s (State.powerDown { s with pwr := p }) :=
  ⟨rfl, fun _ => rfl, fun _ => rfl, fun h => absurd (h.symm.trans hj) (by decide), fun h => absurd (h.symm.trans hp) (by decide)⟩

theorem BoardStep.of_pwr {i : Instr} {s : State} (p : Power) (hp : i.movesPower = true) : BoardStep i s { s with pwr := p } :=
  ⟨rfl, fun _ => rfl, fun _ => rfl, fun _ => rfl, fun h => absurd (h.symm.trans hp) (by decide)⟩

theorem State.inputLost_boardStep {i : Instr} (s : State) (sup : Supply) (vin : BitVec 16) (hj : i.writesJtag = true) (hp : i.movesPower = true) :
    BoardStep i s (s.inputLost sup vin) := by
  unfold State.inputLost
  extract_lets s'
  split_ifs
  · exact .of_pwr _ hp
  · exact State.powerDown_boardStep _ hj hp

theorem execStandbyPowerUp_boardStep (vin : BitVec 16) (s : State) : Out.sat (execStandbyPowerUp vin s) (BoardStep (.standbyPowerUp vin) s) :=
  .of_when (.refl _ s) ⟨rfl, fun _ => rfl, nofun, fun _ => rfl, nofun⟩

theorem execPwrEnAssert_boardStep (present : Bool) (s : State) : Out.sat (execPwrEnAssert present s) (BoardStep (.pwrEnAssert present) s) := by
  rw [execPwrEnAssert, Out.sat_next]
  exact .of_pwr _ rfl

theorem execPowerUpHoldoffExpiry_boardStep (s : State) : Out.sat (execPowerUpHoldoffExpiry s) (BoardStep .powerUpHoldoffExpiry s) := by
  rw [execPowerUpHoldoffExpiry, Out.sat_next]
  exact .of_pwr _ rfl

theorem execPwrEnDeassert_boardStep (s : State) : Out.sat (execPwrEnDeassert s) (BoardStep .pwrEnDeassert s) := by
  rw [execPwrEnDeassert, Out.sat_next]
  split_ifs
  · exact .of_pwr _ rfl
  · exact State.powerDown_boardStep _ rfl rfl

theorem execUndervoltage_boardStep (vin : BitVec 16) (s : State) : Out.sat (execUndervoltage vin s) (BoardStep (.undervoltage vin) s) :=
  .of_when (.refl _ s) (s.inputLost_boardStep _ _ rfl rfl)

theorem execOvervoltage_boardStep (vin : BitVec 16) (s : State) : Out.sat (execOvervoltage vin s) (BoardStep (.overvoltage vin) s) :=
  .of_when (.refl _ s) (s.inputLost_boardStep _ _ rfl rfl)

/-- The work of ROM leaves the board but the level sampled from COMPAT_N. -/
theorem State.romWork_board (s : State) (c : Bool) : (s.romWork c).board = { s.board with pwr := { s.pwr with compatN := c } } := by
  unfold State.romWork
  dsimp only
  split <;> rfl

theorem execPowerGood_boardStep (compatN : Bool) (s : State) : Out.sat (execPowerGood compatN s) (BoardStep (.powerGood compatN) s) := by
  have hrom (u : State) : (u.romWork compatN).ident = u.ident ∧ (u.romWork compatN).nor = u.nor ∧ (u.romWork compatN).smb = u.smb := by
    have h := u.romWork_board compatN
    exact ⟨congrArg Board.ident h, congrArg Board.nor h, congrArg Board.smb h⟩
  unfold execPowerGood
  split_ifs
  · rw [Out.sat_next]
    have h := (State.answerPort_board (((s.powerUp compatN).romWork compatN).answerPort 0) 1).trans (State.answerPort_board _ 0)
    obtain ⟨hi, hn, hs⟩ := hrom (s.powerUp compatN)
    exact ⟨(congrArg Board.ident h).trans hi, fun _ => (congrArg Board.nor h).trans hn,
      fun _ => congrArg Smbus.romHold ((congrArg Board.smb h).trans hs), nofun, nofun⟩
  · obtain ⟨hi, hn, hs⟩ := hrom s
    exact .of_when (.refl _ s) ⟨hi, fun _ => hn, fun _ => congrArg Smbus.romHold hs, nofun, nofun⟩

/-! #### Start-up, BAR0 and test access -/

theorem execLoadComplete_boardStep (s : State) : Out.sat (execLoadComplete s) (BoardStep .loadComplete s) := by
  unfold execLoadComplete
  split_ifs
  · rw [Out.sat_next]
    split_ifs <;> exact .of_fixed rfl
  · exact (Out.sat_next ..).mpr (.refl _ s)

theorem execHubControlReset_boardStep (port : Nat) (value : W64) (s : State) :
    Out.sat (execHubControlReset port value s) (BoardStep (.hubControlReset port value) s) := .when_fixed (s.bar0Write_fixed ..)

theorem execQueueEnable_boardStep (port qid : Nat) (value : W64) (s : State) :
    Out.sat (execQueueEnable port qid value s) (BoardStep (.queueEnable port qid value) s) := .when_fixed (s.bar0Write_fixed ..)

theorem execQueueDisable_boardStep (port qid : Nat) (value : W64) (s : State) :
    Out.sat (execQueueDisable port qid value s) (BoardStep (.queueDisable port qid value) s) := .when_fixed (s.bar0Write_fixed ..)

theorem execTmuxSelWrite_boardStep (port : Nat) (value : W64) (s : State) :
    Out.sat (execTmuxSelWrite port value s) (BoardStep (.tmuxSelWrite port value) s) := .when_fixed (s.writeTmux_fixed ..)

theorem execTmuxSwitch_boardStep (pin : Nat) (s : State) : Out.sat (execTmuxSwitch pin s) (BoardStep (.tmuxSwitch pin) s) := by
  rw [execTmuxSwitch, Out.sat_needPart]
  intro _
  cases Sparse.get .steady s.tmux.pins pin <;> exact (Out.sat_next ..).mpr (.of_fixed rfl)

theorem execRegisterWrite_boardStep (port offset size : Nat) (value : W64) (s : State) :
    Out.sat (execRegisterWrite port offset size value s) (BoardStep (.registerWrite port offset size value) s) := by
  refine .when_fixed ?_
  split_ifs
  · exact s.bar0Write_fixed ..
  · exact State.fixed_of_board (s.hostErr_board ..)

/-- A TAP that loads an instruction. -/
theorem State.tapLoad_boardStep {i : Instr} (s : State) (tap : Nat) (x : TapInstr) (hj : i.writesJtag = true) :
    Out.sat (s.tapLoad tap x) (BoardStep i s) := by
  rw [State.tapLoad, Out.sat_needPart]
  exact fun _ => .of_when (.refl _ s) ⟨rfl, fun _ => rfl, fun _ => rfl, fun h => absurd (h.symm.trans hj) (by decide), fun _ => rfl⟩

theorem execSamplePreload_boardStep (tap : Nat) (pins : List Bool) (s : State) :
    Out.sat (execSamplePreload tap pins s) (BoardStep (.samplePreload tap pins) s) := by
  rw [execSamplePreload, Out.sat_needPart]
  exact fun _ => .of_when (.refl _ s) ⟨rfl, fun _ => rfl, fun _ => rfl, nofun, fun _ => rfl⟩

theorem execTestLogicReset_boardStep (s : State) : Out.sat (execTestLogicReset s) (BoardStep .testLogicReset s) :=
  .of_when (.refl _ s) ⟨rfl, fun _ => rfl, fun _ => rfl, nofun, fun _ => rfl⟩

/-! #### The recovery mailbox, SMBus and the NOR -/

/-- A state of which only the NOR moved. -/
theorem BoardStep.of_norMoved {i : Instr} {s t : State} (n : Mem) (hi : i.writesNor = true) (h : t.fixed = { s with nor := n }.fixed) : BoardStep i s t := by
  simp only [State.fixed, Prod.mk.injEq] at h
  obtain ⟨hident, hpwr, hsmb, -, hjtag⟩ := h
  exact ⟨hident, fun h => absurd (h.symm.trans hi) (by decide), fun _ => congrArg Smbus.romHold hsmb, fun _ => hjtag, fun _ => hpwr⟩

theorem execMailboxRead_boardStep (port : Nat) (failUnit : Option Nat) (s : State) :
    Out.sat (execMailboxRead port failUnit s) (BoardStep (.mailboxRead port failUnit) s) := by
  refine .of_mailboxOp (.of_fixed ?_)
  split_ifs <;> rfl

theorem execMailboxWrite_boardStep (port : Nat) (data : List Byte) (failUnit badUnit : Option Nat) (s : State) :
    Out.sat (execMailboxWrite port data failUnit badUnit s) (BoardStep (.mailboxWrite port data failUnit badUnit) s) := by
  refine .of_mailboxOp ?_
  split_ifs
  · exact .of_fixed rfl
  · exact .of_norMoved _ rfl rfl

theorem execMailboxRestart_boardStep (port : Nat) (s : State) : Out.sat (execMailboxRestart port s) (BoardStep (.mailboxRestart port) s) := by
  refine .of_mailboxOp ?_
  have h := State.resetToRom_fixed { s.hubCount 7 7 with smb := { s.smb with romHold := false } }
  simp only [State.fixed, Prod.mk.injEq] at h
  obtain ⟨hident, hpwr, -, hnor, hjtag⟩ := h
  exact ⟨hident, fun _ => hnor, nofun, fun _ => hjtag, fun _ => hpwr⟩

theorem execMailboxReservedOp_boardStep (port : Nat) (op : Byte) (s : State) :
    Out.sat (execMailboxReservedOp port op s) (BoardStep (.mailboxReservedOp port op) s) := by
  refine .of_mailboxOp (.of_fixed ?_)
  split_ifs <;> rfl

theorem execMailboxDone_boardStep (s : State) : Out.sat (execMailboxDone s) (BoardStep .mailboxDone s) :=
  .of_when (.refl _ s) (.of_norMoved _ rfl rfl)

theorem execSmbusRecoveryWrite_boardStep (code value : Byte) (pec : Option Byte) (s : State) :
    Out.sat (execSmbusRecoveryWrite code value pec s) (BoardStep (.smbusRecoveryWrite code value pec) s) := by
  unfold execSmbusRecoveryWrite
  extract_lets good
  split_ifs <;> rw [Out.sat_next] <;> exact ⟨rfl, fun _ => rfl, nofun, fun _ => rfl, fun _ => rfl⟩

theorem execWriteImage_boardStep (rid : Nat) (data : HostRead) (s : State) : Out.sat (execWriteImage rid data s) (BoardStep (.writeImage rid data) s) := by
  unfold execWriteImage State.decodeCmd
  split
  · refine .of_when (.refl _ s) ?_
    split_ifs
    · exact .of_fixed (State.fixed_of_board (State.holdCmd_board ..))
    · cases data with
      | none => exact .of_fixed rfl
      | some bs =>
        dsimp only [State.readData]
        split_ifs <;> exact .of_norMoved _ rfl rfl
    · exact .of_fixed rfl
  · exact (Out.sat_next ..).mpr (.refl _ s)

theorem execNorProgramComplete_boardStep (mismatch : Bool) (s : State) :
    Out.sat (execNorProgramComplete mismatch s) (BoardStep (.norProgramComplete mismatch) s) := by
  unfold execNorProgramComplete
  split
  · exact (Out.sat_next ..).mpr (.refl _ s)
  · dsimp only
    split
    · exact (Out.sat_next ..).mpr (.of_fixed rfl)
    · split_ifs <;> exact (Out.sat_next ..).mpr (.of_norMoved _ rfl rfl)

end Sys2Proof.Machine

end

/-! ### The board stays its own: one case per row of the opcode table -/

section

namespace Sys2Proof.Machine

/-- What every command leaves of the board, each row by the lemma of its meaning. -/
theorem exec_boardStep (i : Instr) (s : State) : Out.sat (exec i s) (BoardStep i s) :=
  match i with
  | .standbyPowerUp vin => execStandbyPowerUp_boardStep vin s
  | .pwrEnAssert present => execPwrEnAssert_boardStep present s
  | .powerGood compatN => execPowerGood_boardStep compatN s
  | .imageLoad norResponds => .of_board (execImageLoad_board norResponds s)
  | .loadComplete => execLoadComplete_boardStep s
  | .verify => .of_board (execVerify_board s)
  | .trainTimeout => .of_board (execTrainTimeout_board s)
  | .pwrEnDeassert => execPwrEnDeassert_boardStep s
  | .undervoltage vin => execUndervoltage_boardStep vin s
  | .overvoltage vin => execOvervoltage_boardStep vin s
  | .powerUpHoldoffExpiry => execPowerUpHoldoffExpiry_boardStep s
  | .hubControlReset port value => execHubControlReset_boardStep port value s
  | .perstAssert port => .of_board (execPerstAssert_board port s)
  | .perstDeassert port => .of_board (execPerstDeassert_board port s)
  | .functionLevelReset port => .of_board (execFunctionLevelReset_board port s)
  | .bar0BadAccess port isWrite offset size => .of_board (execBar0BadAccess_board port isWrite offset size s)
  | .doorbellSq port qid value => .of_board (execDoorbellSq_board port qid value s)
  | .doorbellCq port qid value => .of_board (execDoorbellCq_board port qid value s)
  | .queueEnable port qid value => execQueueEnable_boardStep port qid value s
  | .queueDisable port qid value => execQueueDisable_boardStep port qid value s
  | .hostErrClear port value => .of_board (execHostErrClear_board port value s)
  | .snapHoldSet port => .of_board (execSnapHoldSet_board port s)
  | .snapHoldRelease port => .of_board (execSnapHoldRelease_board port s)
  | .tmuxSelWrite port value => execTmuxSelWrite_boardStep port value s
  | .tmuxSwitch pin => execTmuxSwitch_boardStep pin s
  | .linkStatusClear port n value => .of_board (execLinkStatusClear_board port n value s)
  | .registerWrite port offset size value => execRegisterWrite_boardStep port offset size value s
  | .mailboxRead port failUnit => execMailboxRead_boardStep port failUnit s
  | .mailboxWrite port data failUnit badUnit => execMailboxWrite_boardStep port data failUnit badUnit s
  | .mailboxRestart port => execMailboxRestart_boardStep port s
  | .mailboxReservedOp port op => execMailboxReservedOp_boardStep port op s
  | .mailboxDone => execMailboxDone_boardStep s
  | .smbusRecoveryWrite code value pec => execSmbusRecoveryWrite_boardStep code value pec s
  | .submissionFetch port qid entries pcieError => .of_board (execSubmissionFetch_board port qid entries pcieError s)
  | .openSeq rid => .of_board (execOpenSeq_board rid s)
  | .append rid data => .of_board (execAppend_board rid data s)
  | .generate rid drafts => .of_board (execGenerate_board rid drafts s)
  | .fork rid => .of_board (execFork_board rid s)
  | .abort rid => .of_board (execAbort_board rid s)
  | .close rid => .of_board (execClose_board rid s)
  | .loadWeights rid data => .of_board (execLoadWeights_board rid data s)
  | .setQuotaLot rid => .of_board (execSetQuotaLot_board rid s)
  | .setQuotaQueueMap rid => .of_board (execSetQuotaQueueMap_board rid s)
  | .setProfile rid => .of_board (execSetProfile_board rid s)
  | .vecInsert rid data => .of_board (execVecInsert_board rid data s)
  | .codebookReload rid data => .of_board (execCodebookReload_board rid data s)
  | .vecDelete rid => .of_board (execVecDelete_board rid s)
  | .vecSearch rid data => .of_board (execVecSearch_board rid data s)
  | .readCounters rid => .of_board (execReadCounters_board rid s)
  | .attest rid nonce => .of_board (execAttest_board rid nonce s)
  | .writeImage rid data => execWriteImage_boardStep rid data s
  | .norProgramComplete mismatch => execNorProgramComplete_boardStep mismatch s
  | .drain rid => .of_board (execDrain_board rid s)
  | .invalidOpcode rid => .of_board (execInvalidOpcode_board rid s)
  | .tickEdgeApply now writeErrors crew => .of_board (execTickEdgeApply_board now writeErrors crew s)
  | .snapshotTransfer => .of_board (execSnapshotTransfer_board s)
  | .edge hdr body => .of_board (execEdge_board hdr body s)
  | .cmdset hdr recs => .of_board (execCmdset_board hdr recs s)
  | .report child hdr rep bodyBytes whole => .of_board (execReport_board child hdr rep bodyBytes whole s)
  | .repeatMsg src hdr body => .of_board (execRepeatMsg_board src hdr body s)
  | .reportRepeatTimeout child => .of_board (execReportRepeatTimeout_board child s)
  | .checkAndCommitEntry => .of_board (execCheckAndCommitEntry_board s)
  | .checkReportSend now busy hotSeq hotShare => .of_board (execCheckReportSend_board now busy hotSeq hotShare s)
  | .masterDecision now => .of_board (execMasterDecision_board now s)
  | .edgeIssue now => .of_board (execEdgeIssue_board now s)
  | .throttleEvaluation r => .of_board (execThrottleEvaluation_board r s)
  | .throttleRaise r => .of_board (execThrottleRaise_board r s)
  | .thermalShutdown r => .of_board (execThermalShutdown_board r s)
  | .nandThrottle celsius10 => .of_board (execNandThrottle_board celsius10 s)
  | .plan p => .of_board (execPlan_board p s)
  | .layoutDelta entries => .of_board (execLayoutDelta_board entries s)
  | .deltaReceive version firstPlan entries => .of_board (execDeltaReceive_board version firstPlan entries s)
  | .taskIssue die core ctx => .of_board (execTaskIssue_board die core ctx s)
  | .standPortGrant die stand => .of_board (execStandPortGrant_board die stand s)
  | .tileLoadComplete die stand => .of_board (execTileLoadComplete_board die stand s)
  | .contextSwitch die core => .of_board (execContextSwitch_board die core s)
  | .haloCopy die core => .of_board (execHaloCopy_board die core s)
  | .tileDrain die core => .of_board (execTileDrain_board die core s)
  | .completionMessage task => .of_board (execCompletionMessage_board task s)
  | .separateChainPass die core => .of_board (execSeparateChainPass_board die core s)
  | .normalisation die core job => .of_board (execNormalisation_board die core job s)
  | .softMaximum die core job => .of_board (execSoftMaximum_board die core job s)
  | .rotaryRotation die core task addr rows positions => .of_board (execRotaryRotation_board die core task addr rows positions s)
  | .blockFold die core job => .of_board (execBlockFold_board die core job s)
  | .tokenChoice job logits => .of_board (execTokenChoice_board job logits s)
  | .functionTableFill die core => .of_board (execFunctionTableFill_board die core s)
  | .sketchTask die core seq v sK => .of_board (execSketchTask_board die core seq v sK s)
  | .pageRanking core rid layer head queries => .of_board (execPageRanking_board core rid layer head queries s)
  | .ringStepFold round ring step part => .of_board (execRingStepFold_board round ring step part s)
  | .streamGrant point => .of_board (execStreamGrant_board point s)
  | .walkRequest die ctx stream seq pages ask dst => .of_board (execWalkRequest_board die ctx stream seq pages ask dst s)
  | .tailAppend die core rid seq layer head pos key val sK sV => .of_board (execTailAppend_board die core rid seq layer head pos key val sK sV s)
  | .scatter die core rid seq layer head pos key val sK sV frame => .of_board (execScatter_board die core rid seq layer head pos key val sK sV frame s)
  | .pageCopy src dst => .of_board (execPageCopy_board src dst s)
  | .pageCopyComplete src dst => .of_board (execPageCopyComplete_board src dst s)
  | .cleaningWrite frame flashFrame complete => .of_board (execCleaningWrite_board frame flashFrame complete s)
  | .hbmUncorrectable frame => .of_board (execHbmUncorrectable_board frame s)
  | .scrub frame corrected => .of_board (execScrub_board frame corrected s)
  | .refresh stack row => .of_board (execRefresh_board stack row s)
  | .readDisturbRefresh stack row => .of_board (execReadDisturbRefresh_board stack row s)
  | .flashRead frame hardOk softRetry => .of_board (execFlashRead_board frame hardOk softRetry s)
  | .wearLevelling channel => .of_board (execWearLevelling_board channel s)
  | .readDisturbRelocation channel block => .of_board (execReadDisturbRelocation_board channel block s)
  | .programFailure channel block => .of_board (execProgramFailure_board channel block s)
  | .flashReadOnly => .of_board (execFlashReadOnly_board s)
  | .sramUncorrectable partKind partNum => .of_board (execSramUncorrectable_board partKind partNum s)
  | .searchAdmission rid => .of_board (execSearchAdmission_board rid s)
  | .recordExpansion slot readable => .of_board (execRecordExpansion_board slot readable s)
  | .sideScan slot lostFrames => .of_board (execSideScan_board slot lostFrames s)
  | .resultAssembly slot lostNodes => .of_board (execResultAssembly_board slot lostNodes s)
  | .mergeFinish index => .of_board (execMergeFinish_board index s)
  | .laneLock port lanes skewNs => .of_board (execLaneLock_board port lanes skewNs s)
  | .flitLock port => .of_board (execFlitLock_board port s)
  | .trainRecord port rec now => .of_board (execTrainRecord_board port rec now s)
  | .trainRecordSend port now => .of_board (execTrainRecordSend_board port now s)
  | .trainingStepTimeout port => .of_board (execTrainingStepTimeout_board port s)
  | .trainingRetry port => .of_board (execTrainingRetry_board port s)
  | .timestampExchange port samples => .of_board (execTimestampExchange_board port samples s)
  | .flitReceive port hdr payload => .of_board (execFlitReceive_board port hdr payload s)
  | .flitSend port => .of_board (execFlitSend_board port s)
  | .nak port seqs => .of_board (execNak_board port seqs s)
  | .credit port returns => .of_board (execCredit_board port returns s)
  | .downNotice port => .of_board (execDownNotice_board port s)
  | .laneAlignmentTimeout port lane => .of_board (execLaneAlignmentTimeout_board port lane s)
  | .flitSilenceTimeout port => .of_board (execFlitSilenceTimeout_board port s)
  | .nakRateLimit port => .of_board (execNakRateLimit_board port s)
  | .laserOffExpiry port => .of_board (execLaserOffExpiry_board port s)
  | .linkState port rec => .of_board (execLinkState_board port rec s)
  | .crewFormation members measure homes treeDelay => .of_board (execCrewFormation_board members measure homes treeDelay s)
  | .chunkReceive sender hdr payload stack => .of_board (execChunkReceive_board sender hdr payload stack s)
  | .combine coll item step chunk left right residueOk => .of_board (execCombine_board coll item step chunk left right residueOk s)
  | .extest tap => s.tapLoad_boardStep tap .extest rfl
  | .samplePreload tap pins => execSamplePreload_boardStep tap pins s
  | .idcode tap => s.tapLoad_boardStep tap .idcode rfl
  | .highz tap => s.tapLoad_boardStep tap .highz rfl
  | .clamp tap => s.tapLoad_boardStep tap .clamp rfl
  | .extestPulse tap => s.tapLoad_boardStep tap .extestPulse rfl
  | .extestTrain tap => s.tapLoad_boardStep tap .extestTrain rfl
  | .bypass tap opcode => s.tapLoad_boardStep tap (tapOpcode opcode) rfl
  | .testLogicReset => execTestLogicReset_boardStep s
  | .garbageCollection channel => .of_board (execGarbageCollection_board channel s)
  | .nandThrottleRelease celsius10 => .of_board (execNandThrottleRelease_board celsius10 s)

end Sys2Proof.Machine

open Sys2Proof.Machine

/-- Settles O6: each row's meaning keeps identity, and the NOR, ROM_HOLD and JTAG unless it is one of the rows named. -/
theorem boardWriters : Obligations.BoardWriters := by
  intro i s t ht
  obtain ⟨hident, hnor, hhold, hjtag, -⟩ := exec_boardStep i s t ht
  exact ⟨hident, hnor, hhold, hjtag⟩

end

/-! ### The classes of start-up failures -/

section

namespace Sys2Proof.Machine

/-- A failure, if there is one, is of a class of R592 that start-up reports. -/
def StartFault.classed (o : StartFault) : Prop := ∀ f, o = some f → 1 ≤ f.1 ∧ f.1 ≤ 8

theorem StartFault.classed.of_none : StartFault.classed none := fun _ h => nomatch h

theorem StartFault.classed.of_some {c d : Nat} (h : 1 ≤ c ∧ c ≤ 8) : StartFault.classed (some (c, d)) := by
  rintro _ ⟨⟩
  exact h

theorem StartFault.classed.of_faultIf {b : Bool} {c d : Nat} (h : 1 ≤ c ∧ c ≤ 8) : StartFault.classed (faultIf b c d) := by
  cases b
  · exact StartFault.classed.of_none
  · exact StartFault.classed.of_some h

theorem StartFault.classed.of_orFault {a b : StartFault} (ha : StartFault.classed a) (hb : StartFault.classed b) :
    StartFault.classed (orFault a b) := by
  unfold orFault
  split
  · exact ha
  · exact hb

theorem StartFault.classed.of_foldl {cs : List StartFault} {a : StartFault} (ha : StartFault.classed a) (hcs : ∀ x ∈ cs, StartFault.classed x) :
    StartFault.classed (cs.foldl orFault a) := by
  induction cs generalizing a with
  | nil => exact ha
  | cons x cs ih =>
    exact ih (StartFault.classed.of_orFault ha (hcs x List.mem_cons_self)) fun y hy => hcs y (List.mem_cons_of_mem x hy)

theorem StartFault.classed.of_firstFault {cs : List StartFault} (hcs : ∀ x ∈ cs, StartFault.classed x) : StartFault.classed (firstFault cs) :=
  StartFault.classed.of_foldl StartFault.classed.of_none hcs

theorem StartFault.classed.of_map {α : Type} {o : Option α} {c : Nat} {d : α → Nat} (h : 1 ≤ c ∧ c ≤ 8) :
    StartFault.classed (o.map fun x => (c, d x)) := by
  cases o with
  | none => exact StartFault.classed.of_none
  | some x => exact StartFault.classed.of_some h

theorem StartFault.classed.of_findSome {α : Type} {l : List α} {g : α → StartFault} (hg : ∀ x, StartFault.classed (g x)) :
    StartFault.classed (l.findSome? g) := by
  intro f hf
  obtain ⟨x, -, hx⟩ := List.exists_of_findSome?_eq_some hf
  exact hg x f hx

theorem StartFault.classed.of_ite {p : Prop} [Decidable p] {a b : StartFault} (ha : StartFault.classed a) (hb : StartFault.classed b) :
    StartFault.classed (if p then a else b) := by
  split
  · exact ha
  · exact hb

/-- A layout failure is of class 0x02 (R634). -/
theorem layoutFault_classed (nor : Mem) : StartFault.classed (layoutFault nor) := by
  refine StartFault.classed.of_ite (StartFault.classed.of_some (by decide)) (StartFault.classed.of_firstFault ?_)
  simp only [List.forall_mem_cons, List.not_mem_nil, false_implies, implies_true, and_true]
  exact ⟨.of_faultIf (by decide), .of_map (by decide), .of_map (by decide), .of_faultIf (by decide), .of_map (by decide),
    .of_map (by decide), .of_map (by decide)⟩

theorem signatureFault_classed (nor : Mem) (ss : List Section) (t : Nat) : StartFault.classed (signatureFault nor ss t) := by
  unfold signatureFault
  dsimp only
  split
  · exact .of_faultIf (by decide)
  · exact .of_some (by decide)

theorem mpWalk_classed (nor : Mem) (base len fuel off num : Nat) : StartFault.classed (mpWalk nor base len fuel off num).2 := by
  induction fuel generalizing off num with
  | zero => exact .of_none
  | succ fuel ih =>
    rw [mpWalk]
    dsimp only
    split
    · exact .of_none
    · split
      · exact .of_some (by decide)
      · exact ih _ _

theorem recordFault_classed (nor : Mem) (es : List MpEntry) : StartFault.classed (recordFault nor es) := by
  refine .of_firstFault ?_
  simp only [List.forall_mem_cons, List.not_mem_nil, false_implies, implies_true, and_true]
  exact ⟨.of_findSome fun _ => .of_map (by decide), .of_findSome fun _ => .of_ite (.of_some (by decide)) .of_none,
    .of_findSome fun _ => .of_ite (.of_some (by decide)) .of_none, .of_map (by decide), .of_faultIf (by decide)⟩

theorem collectiveFault_classed (es : List MpEntry) : StartFault.classed (collectiveFault es) :=
  .of_orFault (.of_findSome fun _ => .of_ite (.of_some (by decide)) .of_none) (.of_map (by decide))

theorem modelFault_classed (m : BitVec 1024) (finbath : Nat → Bool) : StartFault.classed (modelFault m finbath) := by
  unfold modelFault
  dsimp only
  split
  · exact .of_some (by decide)
  · split
    · exact .of_some (by decide)
    · exact .of_faultIf (by decide)

theorem profileFault_classed (p : BitVec 320) (kvHeads : Nat) : StartFault.classed (profileFault p kvHeads) := by
  unfold profileFault
  dsimp only
  split
  · exact .of_none
  · exact .of_some (by decide)

theorem descFault_classed (ps : List MicroProg) (table idx : Nat) (d : List W64) : StartFault.classed (descFault ps table idx d) := by
  unfold descFault
  dsimp only
  split
  · exact .of_some (by decide)
  · exact .of_faultIf (by decide)

theorem loopFault_classed (nor : Mem) (x : Section) (ps : List MicroProg) : StartFault.classed (loopFault nor x ps) := by
  refine .of_firstFault ?_
  simp only [List.forall_mem_cons, List.not_mem_nil, false_implies, implies_true, and_true]
  exact ⟨.of_map (by decide), .of_faultIf (by decide), .of_findSome fun _ => .of_findSome fun _ => descFault_classed _ _ _ _⟩

theorem quotaFault_classed (nor : Mem) (x : Section) : StartFault.classed (quotaFault nor x) := by
  refine .of_firstFault ?_
  simp only [List.forall_mem_cons, List.not_mem_nil, false_implies, implies_true, and_true]
  exact ⟨.of_faultIf (by decide), .of_map (by decide), .of_faultIf (by decide)⟩

theorem indexFault_classed (rs : List (BitVec 128)) (m : BitVec 1024) : StartFault.classed (indexFault rs m) :=
  .of_orFault (.of_map (by decide)) (.of_map (by decide))

/-- A failure of VERIFY is of one of the classes of R592. -/
theorem verifyFault_classed (nor : Mem) (g : Image) : StartFault.classed (verifyFault nor g) := by
  refine .of_firstFault ?_
  simp only [List.forall_mem_cons, List.not_mem_nil, false_implies, implies_true, and_true]
  exact ⟨signatureFault_classed _ _ _, signatureFault_classed _ _ _, mpWalk_classed _ _ _ _ _ _, recordFault_classed _ _, collectiveFault_classed _,
    modelFault_classed _ _, profileFault_classed _ _, loopFault_classed _ _ _, quotaFault_classed _ _, indexFault_classed _ _⟩

/-- A class that start-up reports fits its eight bits and is not zero. -/
theorem faultClass_ne_zero {c : Nat} (h : 1 ≤ c ∧ c ≤ 8) : BitVec.ofNat 8 c ≠ 0 := by
  intro hc
  have := congrArg BitVec.toNat hc
  rw [BitVec.toNat_ofNat] at this
  obtain ⟨h1, h8⟩ := h
  simp at this
  omega

end Sys2Proof.Machine

end

/-! ### What a command does to the module's status -/

section

namespace Sys2Proof.Machine

/-- What a command may do to the status: it stays consistent, the state moves only by the commands that may move it, and FAULT is left only for
FAULT, ROM and OFF. -/
structure StatusStep (i : Instr) (s t : State) : Prop where
  statusOk : s.statusOk → t.statusOk
  state : i.changesState = false → t.sys.state = s.sys.state
  fault : s.statusOk → s.sys.state = .fault → t.sys.state = .fault ∨ t.sys.state = .rom ∨ t.sys.state = .off

theorem StatusStep.of_frame {i : Instr} {s t : State} (hp : t.pwr = s.pwr) (hs : t.status = s.status) : StatusStep i s t := by
  have hst : t.sys.state = s.sys.state := congrArg (fun x : Sys × Bool => x.1.state) hs
  exact ⟨State.statusOk_congr hp hs, fun _ => hst, fun _ h => Or.inl (hst.trans h)⟩

theorem StatusStep.refl (i : Instr) (s : State) : StatusStep i s s := .of_frame rfl rfl

theorem StatusStep.of_board {i : Instr} {s t : State} (hb : t.board = s.board) (hs : t.status = s.status) : StatusStep i s t :=
  .of_frame (State.pwr_of_board hb) hs

/-- A command of a state other than FAULT that may move the state. -/
theorem StatusStep.of_moves {i : Instr} {s t : State} (hi : i.changesState = true) (hf : s.statusOk → s.sys.state ≠ .fault)
    (h : s.statusOk → t.statusOk) : StatusStep i s t :=
  ⟨h, fun h => absurd (h.symm.trans hi) (by decide), fun hok hs => absurd hs (hf hok)⟩

/-- A command that may move the state, and ends in FAULT, ROM or OFF. -/
theorem StatusStep.of_entry {i : Instr} {s t : State} (hi : i.changesState = true) (h : s.statusOk → t.statusOk)
    (hf : t.sys.state = .fault ∨ t.sys.state = .rom ∨ t.sys.state = .off) : StatusStep i s t :=
  ⟨h, fun h => absurd (h.symm.trans hi) (by decide), fun _ _ => hf⟩

theorem Out.sat.when_status {i : Instr} {c : Bool} {s f : State} (h : c = true → StatusStep i s f) : Out.sat (when c s f) (StatusStep i s) := by
  rw [Out.sat_when]
  split
  case isTrue hc => exact h hc
  case isFalse => exact .refl i s

/-- A command that is none of the supply and leaves the status. -/
theorem Out.sat.of_status {i : Instr} {s : State} (hi : i.movesPower = false) (h : Out.sat (exec i s) fun t => t.status = s.status) :
    Out.sat (exec i s) (StatusStep i s) :=
  fun t ht => .of_frame ((exec_boardStep i s t ht).pwr hi) (h t ht)

/-! #### States of a consistent status -/

/-- In FAULT there is no member. -/
theorem State.not_member_of_fault {s : State} (h : s.statusOk) (hf : s.sys.state = .fault) : s.crew.member = false := by
  obtain ⟨-, -, -, -, h5, -⟩ := h
  by_contra hm
  rcases h5 (by simpa using hm) with h | h | h <;> simp [hf] at h

/-- A module that takes part in ticks, or is a member, is not in FAULT. -/
theorem State.not_fault_of_member {s : State} (h : s.statusOk) (hm : s.crew.member = true) : s.sys.state ≠ .fault :=
  fun hf => by simp [State.not_member_of_fault h hf] at hm

/-- A module outside FAULT has FAULT_CLASS zero, and outside DRAIN it has not departed. -/
theorem State.statusOk_quiet {s : State} (h : s.statusOk) (hf : s.sys.state ≠ .fault) (hd : s.sys.state ≠ .drain) :
    s.sys.faultClass = 0 ∧ s.sys.departed = false := by
  obtain ⟨-, -, -, h4, -, h6⟩ := h
  refine ⟨by_contra fun hc => hf (h4.mpr hc), ?_⟩
  by_contra hdep
  exact hd (h6 (by simpa using hdep)).1

/-- A module moves from a state without a crew to another such state of its start-up. -/
theorem State.statusOk_start {s t : State} (h : s.statusOk) (hp : t.pwr = s.pwr) (hmember : t.crew.member = s.crew.member)
    (hclass : t.sys.faultClass = s.sys.faultClass) (hdep : t.sys.departed = s.sys.departed)
    (hfrom : s.sys.state = .rom ∨ s.sys.state = .load ∨ s.sys.state = .verify ∨ s.sys.state = .train)
    (hto : t.sys.state = .load ∨ t.sys.state = .verify ∨ t.sys.state = .train ∨ t.sys.state = .join) : t.statusOk := by
  have hne (x : ModState) (hx : x = .off ∨ x = .fault ∨ x = .join ∨ x = .run ∨ x = .drain) : s.sys.state ≠ x := by
    rintro rfl
    rcases hx with h | h | h | h | h <;> simp [h] at hfrom
  have hto' : t.sys.state ≠ .off ∧ t.sys.state ≠ .fault := by rcases hto with h | h | h | h <;> simp [h]
  obtain ⟨hc, hd⟩ := State.statusOk_quiet h (hne _ (by simp)) (hne _ (by simp))
  obtain ⟨h1, h2, h3, h4, h5, h6⟩ := h
  have hm : s.crew.member = false := by
    by_contra hm
    rcases h5 (by simpa using hm) with h | h | h <;> exact hne _ (by simp) h
  unfold State.statusOk
  rw [hp, hmember, hclass, hdep, hm, hc, hd]
  exact ⟨by simp [h1, hto'.1, hne .off (by simp)], h2, h3, by simp [hto'.2], by simp, by simp⟩

end Sys2Proof.Machine

end

/-! ### Commands that may move the status -/

section

namespace Sys2Proof.Machine

/-! #### Supply and power -/

/-- The main domain starts or stays as it is. -/
theorem Power.tryStart_eq (p : Power) : p.tryStart = p ∨
    p.tryStart = { p with main := .starting } ∧ p.main = .off ∧ p.pwrEn = true ∧ p.standby = true := by
  unfold Power.tryStart
  split
  case isTrue h =>
    simp only [Bool.and_eq_true, beq_iff_eq] at h
    exact .inr ⟨rfl, h.1.2, h.1.1.1.1.2, h.1.1.1.1.1⟩
  case isFalse => exact .inl rfl

/-- A start of the main domain keeps a consistent status, since only power good ends it. -/
theorem State.statusOk_tryStart {s : State} {p : Power} (h : ({ s with pwr := p } : State).statusOk) {t : State} (ht : t.pwr = p.tryStart)
    (hs : t.status = s.status) : t.statusOk := by
  rcases p.tryStart_eq with e | ⟨e, hoff, hen, hsb⟩
  · exact State.statusOk_congr (s := { s with pwr := p }) (ht.trans e) hs h
  · obtain ⟨h1, -, h3, h456⟩ := h
    refine State.statusOk_congr (s := { s with pwr := { p with main := .starting } }) (ht.trans e) hs ⟨?_, fun _ => ⟨hen, hsb⟩, h3, h456⟩
    simp only [hoff] at h1
    simpa using h1

theorem StatusStep.of_tryStart {i : Instr} {s t : State} {p : Power} (h : s.statusOk → ({ s with pwr := p } : State).statusOk)
    (ht : t.pwr = p.tryStart) (hs : t.status = s.status) : StatusStep i s t := by
  have hst : t.sys.state = s.sys.state := congrArg (fun x : Sys × Bool => x.1.state) hs
  exact ⟨fun hok => State.statusOk_tryStart (h hok) ht hs, fun _ => hst, fun _ h => Or.inl (hst.trans h)⟩

theorem execStandbyPowerUp_statusStep (vin : BitVec 16) (s : State) :
    Out.sat (execStandbyPowerUp vin s) (StatusStep (.standbyPowerUp vin) s) :=
  .when_status fun _ => .of_tryStart (p := { s.pwr with supply := .inRange, vin := vin, standby := true })
    (fun ⟨h1, h2, _, h456⟩ => ⟨h1, fun hm => ⟨(h2 hm).1, rfl⟩, by simp, h456⟩) rfl rfl

theorem execPwrEnAssert_statusStep (present : Bool) (s : State) :
    Out.sat (execPwrEnAssert present s) (StatusStep (.pwrEnAssert present) s) :=
  (Out.sat_next ..).mpr (.of_tryStart (p := { s.pwr with pwrEn := true, present := present })
    (fun ⟨h1, h2, h3, h456⟩ => ⟨h1, fun hm => ⟨rfl, (h2 hm).2⟩, h3, h456⟩) rfl rfl)

theorem execPowerUpHoldoffExpiry_statusStep (s : State) :
    Out.sat (execPowerUpHoldoffExpiry s) (StatusStep .powerUpHoldoffExpiry s) :=
  (Out.sat_next ..).mpr (.of_tryStart (p := { s.pwr with holdoff := false }) (fun h => h) rfl rfl)

/-- The module in ROM with a powered main domain. -/
theorem State.statusOk_rom {s t : State} (h : s.statusOk) (hm : s.pwr.main ≠ .off) (hon : t.pwr.main = .on)
    (hpwr : t.pwr = { s.pwr with main := t.pwr.main, compatN := t.pwr.compatN }) (hst : t.sys.state = .rom) (hclass : t.sys.faultClass = 0)
    (hdep : t.sys.departed = false) (hmember : t.crew.member = false) : t.statusOk := by
  obtain ⟨-, h2, h3, -⟩ := h
  unfold State.statusOk
  rw [hst, hclass, hdep, hmember, hon]
  rw [hpwr]
  exact ⟨by simp, fun _ => h2 hm, h3, by simp, by simp, by simp⟩

theorem execPowerGood_statusStep (compatN : Bool) (s : State) : Out.sat (execPowerGood compatN s) (StatusStep (.powerGood compatN) s) := by
  unfold execPowerGood
  split_ifs with hstart
  · rw [Out.sat_next]
    generalize hu : ((s.powerUp compatN).romWork compatN) = u
    have hb := (State.answerPort_board (u.answerPort 0) 1).trans (State.answerPort_board u 0)
    have hs := (State.answerPort_status (u.answerPort 0) 1).trans (State.answerPort_status u 0)
    have hp : u.pwr = { s.pwr with main := .on, compatN := compatN } := by rw [← hu, State.romWork_pwr]; rfl
    have hst := (s.powerUp compatN).romWork_status compatN
    rw [hu] at hst
    simp only [State.status, Prod.mk.injEq] at hst
    obtain ⟨hsys, hmember⟩ := hst
    refine StatusStep.of_moves rfl (fun hok hf => ?_) fun hok => State.statusOk_congr (State.pwr_of_board hb) hs ?_
    · exact absurd (hok.1.mpr (by simp [hf])) (by simp [hstart])
    · exact State.statusOk_rom hok (by simp [hstart]) (by rw [hp]) (by rw [hp]) (by rw [hsys]; rfl) (by rw [hsys]; rfl) (by rw [hsys]; rfl) hmember
  · refine .when_status fun hc => ?_
    simp only [Bool.and_eq_true, beq_iff_eq] at hc
    obtain ⟨hon, hrom⟩ := hc
    have hst := s.romWork_status compatN
    simp only [State.status, Prod.mk.injEq] at hst
    obtain ⟨hsys, hmember⟩ := hst
    refine .of_moves rfl (fun _ => by simp [hrom]) fun hok => ?_
    obtain ⟨hclass, hdep⟩ := State.statusOk_quiet hok (by simp [hrom]) (by simp [hrom])
    have hm : s.crew.member = false := by
      by_contra hm
      rcases hok.2.2.2.2.1 (by simpa using hm) with h | h | h <;> simp [hrom] at h
    refine State.statusOk_rom hok (by simp [hon]) ?_ ?_ (by rw [hsys]; exact hrom) (by rw [hsys]; exact hclass) (by rw [hsys]; exact hdep) (hmember.trans hm)
    · rw [State.romWork_pwr]; exact hon
    · rw [State.romWork_pwr]

/-- A module without power is OFF, and its status says so. -/
theorem State.statusOk_off {t : State} (hmain : t.pwr.main = .off)
    (hsup : t.pwr.standby = true ↔ t.pwr.supply = .inRange) (hs : t.status = ({ state := .off }, false)) :
    t.statusOk := by
  simp only [State.status, Prod.mk.injEq] at hs
  obtain ⟨hsys, hmember⟩ := hs
  unfold State.statusOk
  rw [hsys, hmember, hmain]
  exact ⟨by simp, by simp, hsup, by simp, by simp, by simp⟩

/-- A change of the supply's inputs that powers nothing down, with the main domain off. -/
theorem State.statusOk_inputs {s : State} {p : Power} (h : s.statusOk) (hmain : p.main = .off) (hoff : s.pwr.main = .off)
    (hsup : p.standby = true ↔ p.supply = .inRange) :
    ({ s with pwr := p } : State).statusOk := by
  obtain ⟨h1, -, -, h456⟩ := h
  refine ⟨?_, fun hm => absurd hmain hm, hsup, h456⟩
  rw [hoff] at h1
  simpa [hmain] using h1

theorem execPwrEnDeassert_statusStep (s : State) : Out.sat (execPwrEnDeassert s) (StatusStep .pwrEnDeassert s) := by
  rw [execPwrEnDeassert, Out.sat_next]
  split_ifs with hoff
  · exact .of_moves rfl (fun hok hf => absurd (hok.1.mpr (by simp [hf])) (by simp [hoff])) fun hok => State.statusOk_inputs hok hoff hoff hok.2.2.1
  · exact .of_entry rfl (fun hok => State.statusOk_off rfl hok.2.2.1 rfl) (.inr (.inr rfl))

theorem State.inputLost_statusStep {i : Instr} (s : State) (sup : Supply) (vin : BitVec 16) (hi : i.changesState = true) (hsup : sup ≠ .inRange) :
    StatusStep i s (s.inputLost sup vin) := by
  have hnone : false = true ↔ sup = .inRange := by simp [hsup]
  unfold State.inputLost
  dsimp only
  split_ifs with hoff
  · exact .of_moves hi (fun hok hf => absurd (hok.1.mpr (by simp [hf])) (by simp [hoff])) fun hok => State.statusOk_inputs hok hoff hoff hnone
  · exact .of_entry hi (fun hok => State.statusOk_off rfl hnone rfl) (.inr (.inr rfl))

theorem execUndervoltage_statusStep (vin : BitVec 16) (s : State) : Out.sat (execUndervoltage vin s) (StatusStep (.undervoltage vin) s) :=
  .when_status fun _ => s.inputLost_statusStep _ _ rfl (by decide)

theorem execOvervoltage_statusStep (vin : BitVec 16) (s : State) : Out.sat (execOvervoltage vin s) (StatusStep (.overvoltage vin) s) :=
  .when_status fun _ => s.inputLost_statusStep _ _ rfl (by decide)

/-! #### Start-up -/

/-- FAULT entered from a consistent status. -/
theorem StatusStep.of_enterFault {i : Instr} {s u : State} {c d : Nat} (hi : i.changesState = true) (hu : s.statusOk → u.statusOk ∧ u.sys.state ≠ .off)
    (hc : BitVec.ofNat 8 c ≠ 0) : StatusStep i s (u.enterFault c d) := by
  refine .of_entry hi (fun hok => State.enterFault_statusOk (hu hok).1 c d (hu hok).2 hc) (.inl ?_)
  exact congrArg (fun x : Sys × Bool => x.1.state) (u.enterFault_status c d)

theorem execImageLoad_statusStep (norResponds : Bool) (s : State) : Out.sat (execImageLoad norResponds s) (StatusStep (.imageLoad norResponds) s) := by
  unfold execImageLoad
  by_cases h : s.sys.state = .rom ∧ s.pwr.main = .on ∧ ¬s.smb.romHold
  · rw [if_pos h]
    have hload {u : State} (hok : s.statusOk) (hp : u.pwr = s.pwr) (hm : u.crew.member = s.crew.member) (hc : u.sys.faultClass = s.sys.faultClass)
        (hd : u.sys.departed = s.sys.departed) (hu : u.sys.state = .load) : u.statusOk ∧ u.sys.state ≠ .off :=
      ⟨State.statusOk_start hok hp hm hc hd (.inl h.1) (.inl hu), by simp [hu]⟩
    dsimp only
    by_cases hresp : (!norResponds) = true
    · rw [if_pos hresp]
      exact (Out.sat_next ..).mpr (.of_enterFault rfl (fun hok => hload hok rfl rfl rfl rfl rfl) (by decide))
    rw [if_neg hresp]
    by_cases hbad : headerBad (imgHeader s.nor) = true
    · rw [if_pos hbad]
      exact (Out.sat_next ..).mpr (.of_enterFault rfl (fun hok => hload hok rfl rfl rfl rfl rfl) (by decide))
    rw [if_neg hbad]
    cases hf : layoutFault s.nor with
    | some f =>
      exact (Out.sat_next ..).mpr (.of_enterFault rfl (fun hok => hload hok rfl rfl rfl rfl rfl) (faultClass_ne_zero (layoutFault_classed _ f hf)))
    | none => exact (Out.sat_next ..).mpr (.of_moves rfl (fun _ => by simp [h.1]) fun hok => And.left (hload hok rfl rfl rfl rfl rfl))
  · rw [if_neg h]
    exact (Out.sat_next ..).mpr (StatusStep.refl _ s)

theorem execLoadComplete_statusStep (s : State) : Out.sat (execLoadComplete s) (StatusStep .loadComplete s) := by
  unfold execLoadComplete
  split_ifs with h
  · rw [Out.sat_next]
    refine .of_moves rfl (fun _ => by simp [h.1]) fun hok => ?_
    split_ifs <;> exact State.statusOk_start hok rfl rfl rfl rfl (.inr (.inl h.1)) (.inr (.inl rfl))
  · exact (Out.sat_next ..).mpr (StatusStep.refl _ s)

theorem execVerify_statusStep (s : State) : Out.sat (execVerify s) (StatusStep .verify s) := by
  unfold execVerify
  split_ifs with h
  · split
    · rename_i c d hf
      dsimp only
      refine (Out.sat_next ..).mpr (.of_enterFault rfl (fun hok => ?_) (faultClass_ne_zero (verifyFault_classed _ _ _ hf)))
      split_ifs <;> exact ⟨hok, by simp [h]⟩
    · rw [Out.sat_next]
      exact .of_moves rfl (fun _ => by simp [h]) fun hok => State.statusOk_start hok rfl rfl rfl rfl (.inr (.inr (.inl h))) (.inr (.inr (.inl rfl)))
  · exact (Out.sat_next ..).mpr (StatusStep.refl _ s)

theorem execTrainTimeout_statusStep (s : State) : Out.sat (execTrainTimeout s) (StatusStep .trainTimeout s) := by
  refine .when_status fun h => ?_
  rw [beq_iff_eq] at h
  exact .of_moves rfl (fun _ => by simp [h]) fun hok => State.statusOk_start hok rfl rfl rfl rfl (.inr (.inr (.inr h))) (.inr (.inr (.inr rfl)))

end Sys2Proof.Machine

end

/-! ### Register writes, faults, links, crews and edges -/

section

namespace Sys2Proof.Machine

/-! #### Registers and the mailbox -/

theorem State.queueCtl_not_hubControl {qid : Nat} : queueCtl qid / 8 * 8 ≠ 0x18 := by unfold queueCtl; omega

/-- A write to BAR0 but HUB_CONTROL leaves the status; HUB_CONTROL may reset the module. -/
theorem State.bar0Write_reset_or (s : State) (p off size : Nat) (v : W64) :
    (s.bar0Write p off size v).status = s.status ∨ off / 8 * 8 = 0x18 ∧ s.bar0Write p off size v = s.resetToRom := by
  unfold State.bar0Write
  extract_lets r m w q u
  have hu : u.status = s.status := by
    rw [ite_status, State.ringSq_status, ite_self]
  split_ifs with hr
  · exact .inr ⟨hr, rfl⟩
  · exact .inl rfl
  · exact .inl (State.clearHostErr_status ..)
  · exact .inl (State.writeSnapHold_status ..)
  · exact .inl rfl
  · exact .inl (State.writeTmux_status ..)
  · exact .inl (State.clearLinkStatus_status ..)
  · exact .inl (State.writeMailbox_status ..)
  · exact .inl (State.writeMsix_status ..)
  · exact .inl (State.writeQueue_status ..)
  · exact .inl ((State.ringCq_status ..).trans hu)
  · exact .inl hu
  · exact .inl rfl

/-- A module reset of a module with a powered main domain. -/
theorem StatusStep.of_reset {i : Instr} {s u : State} (hi : i.changesState = true) (hon : s.pwr.main = .on) (hp : u.pwr = s.pwr) :
    StatusStep i s u.resetToRom := by
  have hst := u.resetToRom_status
  simp only [State.status, Prod.mk.injEq] at hst
  obtain ⟨hsys, hmember⟩ := hst
  have hpwr : u.resetToRom.pwr = s.pwr := u.resetToRom_pwr.trans hp
  have hrom : u.resetToRom.sys.state = .rom := by rw [hsys]
  refine .of_entry hi (fun hok => ?_) (.inr (.inl hrom))
  exact State.statusOk_rom hok (by simp [hon]) (by rw [hpwr, hon]) (by rw [hpwr]) hrom (by rw [hsys]) (by rw [hsys]) hmember

theorem State.bar0Open_on {s : State} {p : Nat} (h : s.bar0Open p = true) : s.pwr.main = .on := by
  simp only [State.bar0Open, Bool.and_eq_true, beq_iff_eq] at h
  exact h.1.1

/-- A write to BAR0 through an open port. -/
theorem State.bar0Write_statusStep {i : Instr} {s : State} (port off size : Nat) (v : W64) (hi : off / 8 * 8 = 0x18 → i.changesState = true)
    (hb : s.bar0Open port = true) : StatusStep i s (s.bar0Write port off size v) := by
  rcases s.bar0Write_reset_or port off size v with h | ⟨hoff, h⟩
  · exact .of_frame (congrArg (fun x : Ident × Power × Smbus × Mem × Jtag => x.2.1) (s.bar0Write_fixed port off size v)) h
  · rw [h]
    exact .of_reset (hi hoff) (State.bar0Open_on hb) rfl

theorem execHubControlReset_statusStep (port : Nat) (value : W64) (s : State) :
    Out.sat (execHubControlReset port value s) (StatusStep (.hubControlReset port value) s) :=
  .when_status fun hb => State.bar0Write_statusStep _ _ _ _ (fun _ => rfl) hb

theorem execQueueEnable_statusStep (port qid : Nat) (value : W64) (s : State) :
    Out.sat (execQueueEnable port qid value s) (StatusStep (.queueEnable port qid value) s) :=
  .when_status fun hb => State.bar0Write_statusStep _ _ _ _ (fun h => absurd h State.queueCtl_not_hubControl) (Bool.and_eq_true_iff.mp hb).1

theorem execQueueDisable_statusStep (port qid : Nat) (value : W64) (s : State) :
    Out.sat (execQueueDisable port qid value s) (StatusStep (.queueDisable port qid value) s) :=
  .when_status fun hb => State.bar0Write_statusStep _ _ _ _ (fun h => absurd h State.queueCtl_not_hubControl) (Bool.and_eq_true_iff.mp hb).1

theorem execRegisterWrite_statusStep (port offset size : Nat) (value : W64) (s : State) :
    Out.sat (execRegisterWrite port offset size value s) (StatusStep (.registerWrite port offset size value) s) := by
  refine .when_status fun hb => ?_
  split_ifs
  · exact State.bar0Write_statusStep _ _ _ _ (fun _ => rfl) hb
  · exact .of_board (s.hostErr_board ..) (s.hostErr_status ..)

theorem execMailboxRestart_statusStep (port : Nat) (s : State) : Out.sat (execMailboxRestart port s) (StatusStep (.mailboxRestart port) s) := by
  rw [execMailboxRestart, State.mailboxOp, Out.sat_next]
  split_ifs with hclosed
  · exact .refl _ s
  · exact .of_board (s.hostErr_board ..) (s.hostErr_status ..)
  · have hb : s.bar0Open port = true := by
      by_contra hb
      exact hclosed (by simp [hb])
    exact .of_reset rfl (State.bar0Open_on hb) rfl

/-! #### Thermal shutdown and worn flash -/

theorem execThermalShutdown_statusStep (r : SensorReadings) (s : State) :
    Out.sat (execThermalShutdown r s) (StatusStep (.thermalShutdown r) s) := by
  refine .when_status fun hc => ?_
  simp only [Bool.and_eq_true, bne_iff_ne] at hc
  obtain ⟨⟨-, hoff⟩, -⟩ := hc
  dsimp only
  generalize hu : ({ (if (s.shutdownParts r).length = 1 then s else s.freeWord.2) with therm := r } : State) = u
  have hframe : u.pwr = s.pwr ∧ u.status = s.status := by
    subst hu
    split_ifs <;> exact ⟨rfl, rfl⟩
  obtain ⟨hp, hs⟩ := hframe
  have hstep : StatusStep (.thermalShutdown r) s (u.enterFault 9 ((s.shutdownParts r)[s.freeWord.1.toNat % (s.shutdownParts r).length]?.getD 0)) :=
    .of_enterFault rfl (fun hok => ⟨State.statusOk_congr hp hs hok, by rw [State.sys_of_status hs]; exact hoff⟩) (by decide)
  exact ⟨hstep.1, hstep.2, hstep.3⟩

theorem execFlashReadOnly_statusStep (s : State) : Out.sat (execFlashReadOnly s) (StatusStep .flashReadOnly s) :=
  .when_status fun _ => ⟨fun h => h, fun _ => rfl, fun _ h => .inl h⟩

/-! #### Links (R690, R691) -/

/-- A module in FAULT takes no part in ticks, so it has no crew to assess. -/
theorem State.assessCrew_of_fault {s : State} (h : s.sys.state = .fault) : s.assessCrew = s :=
  State.assessCrew_same (.inl (by simp [State.ticking, h]))

theorem StatusStep.of_assessed {i : Instr} {s u : State} (hi : i.changesState = true) (hb : u.board = s.board) (hs : u.status = s.status) :
    StatusStep i s u.assessCrew := by
  have hst : u.sys.state = s.sys.state := congrArg (fun x : Sys × Bool => x.1.state) hs
  refine ⟨fun hok => State.assessCrew_statusOk (State.statusOk_congr (State.pwr_of_board hb) hs hok), fun h => absurd (h.symm.trans hi) (by decide), fun _ hf => ?_⟩
  rw [State.assessCrew_of_fault (hst.trans hf)]
  exact .inl (hst.trans hf)

theorem State.loseLink_statusStep {i : Instr} (s : State) (n reason : Nat) (hi : i.changesState = true) : StatusStep i s (s.loseLink n reason) := by
  unfold State.loseLink
  dsimp only
  split
  · refine .of_assessed hi ?_ ?_ <;> simp
  · refine .of_board ?_ ?_ <;> simp

theorem execDownNotice_statusStep (port : Nat) (s : State) : Out.sat (execDownNotice port s) (StatusStep (.downNotice port) s) := by
  rw [execDownNotice, Out.sat_needPart]
  exact fun _ => .when_status fun _ => s.loseLink_statusStep _ _ rfl

theorem execLaneAlignmentTimeout_statusStep (port lane : Nat) (s : State) :
    Out.sat (execLaneAlignmentTimeout port lane s) (StatusStep (.laneAlignmentTimeout port lane) s) := by
  rw [execLaneAlignmentTimeout, Out.sat_needPart]
  exact fun _ => .when_status fun _ => s.loseLink_statusStep _ _ rfl

theorem execFlitSilenceTimeout_statusStep (port : Nat) (s : State) : Out.sat (execFlitSilenceTimeout port s) (StatusStep (.flitSilenceTimeout port) s) := by
  rw [execFlitSilenceTimeout, Out.sat_needPart]
  exact fun _ => .when_status fun _ => s.loseLink_statusStep _ _ rfl

theorem execNakRateLimit_statusStep (port : Nat) (s : State) : Out.sat (execNakRateLimit port s) (StatusStep (.nakRateLimit port) s) := by
  rw [execNakRateLimit, Out.sat_needPart]
  exact fun _ => .when_status fun _ => s.loseLink_statusStep _ _ rfl

theorem execLinkState_statusStep (port : Nat) (rec : BitVec 512) (s : State) : Out.sat (execLinkState port rec s) (StatusStep (.linkState port rec) s) := by
  rw [execLinkState, Out.sat_needPart]
  intro _
  split_ifs
  · exact (Out.sat_next ..).mpr (StatusStep.refl _ s)
  · exact (Out.sat_next ..).mpr (.of_board (s.linkCount_board ..) (s.linkCount_status ..))
  · dsimp only
    refine .when_status fun _ => .of_assessed rfl ?_ ?_ <;> simp

/-! #### Crews and edges -/

/-- A module in JOIN becomes a member. -/
theorem State.statusOk_joined {s t : State} (h : s.statusOk) (hj : s.sys.state = .join) (hp : t.pwr = s.pwr) (hs : t.status = (s.sys, true)) : t.statusOk := by
  have hd := (State.statusOk_quiet h (by simp [hj]) (by simp [hj])).2
  simp only [State.status, Prod.mk.injEq] at hs
  obtain ⟨hsys, hmember⟩ := hs
  obtain ⟨h1, h2, h3, h4, -, -⟩ := h
  unfold State.statusOk
  rw [hp, hsys, hmember]
  exact ⟨h1, h2, h3, h4, fun _ => .inl hj, fun hdep => absurd hdep (by simp [hd])⟩

theorem State.join_of_formationOk {s : State} {ms : List Member} {c : Nat} (h : s.formationOk ms c = true) : s.sys.state = .join := by
  simp only [State.formationOk, Bool.and_eq_true, beq_iff_eq] at h
  exact h.1.1.1.1.1.1.1.1.1.1

theorem execCrewFormation_statusStep (members : List (Nat × W64 × Nat)) (measure : Option (List Byte)) (homes : List (Nat × Nat)) (treeDelay : Nat) (s : State) :
    Out.sat (execCrewFormation members measure homes treeDelay s) (StatusStep (.crewFormation members measure homes treeDelay) s) := by
  rw [execCrewFormation_eq]
  cases (membersOf members).find? fun m => m.moduleId == s.ident.moduleId with
  | none => exact (Out.sat_next ..).mpr (StatusStep.refl _ s)
  | some me =>
    refine .when_status fun hform => ?_
    have hj := State.join_of_formationOk hform
    obtain ⟨ps, y, hs, n, xs, w, k, hu⟩ := (s.formed (membersOf members) me.coord treeDelay).settles_withLinks (membersOf members) measure homes
    rw [hu]
    exact ⟨fun hok => State.statusOk_joined hok hj rfl rfl, fun _ => rfl, fun _ hf => .inl hf⟩

/-- What an edge does to a module that takes part in its crew. -/
theorem State.edge_statusOk {s u : State} {e : EdgeMsg} {now : Nat} {crew : EdgeInput} {bad : List Nat} (h : s.inTicks)
    (hu : u = s ∨ u = s.startCrew e now ∨ u = s.reform e now crew ∨ u = s.applyReplay e now crew ∨ u = s.askMaster 2 ∨ u = s.applyCommit e now crew bad) :
    u.statusOk := by
  rcases hu with rfl | rfl | rfl | rfl | rfl | rfl
  · exact h.1
  · exact State.startCrew_statusOk e now h
  · exact State.reform_statusOk e now crew h
  · exact State.applyReplay_statusOk e now crew h
  · exact State.statusOk_congr (State.pwr_of_board (s.askMaster_board 2)) (s.askMaster_status 2) h.1
  · exact State.applyCommit_statusOk e now crew bad h

theorem execTickEdgeApply_statusStep (now : W64) (writeErrors : List Nat) (crew : EdgeInput) (s : State) :
    Out.sat (execTickEdgeApply now writeErrors crew s) (StatusStep (.tickEdgeApply now writeErrors crew) s) := by
  unfold execTickEdgeApply
  split
  case h_1 => exact (Out.sat_next ..).mpr (StatusStep.refl _ s)
  case h_2 e he =>
    by_cases htime : now.toNat < e.edgeTime
    · rw [if_pos htime]
      exact (Out.sat_next ..).mpr (StatusStep.refl _ s)
    rw [if_neg htime]
    by_cases hjoin : s.sys.state = .join ∧ ¬s.crew.member
    · rw [if_pos hjoin]
      split
      · exact .when_status fun _ => .of_moves rfl (fun _ => by simp [hjoin.1]) fun hok => State.enterCrew_statusOk e _ _ _ hok hjoin.1
      · exact (Out.sat_next ..).mpr (.of_frame rfl rfl)
    rw [if_neg hjoin]
    by_cases hcrew : s.inCrew = true
    · have hm := State.member_of_inCrew hcrew
      have hstep {u : State} (hu : u = s ∨ u = s.startCrew e now.toNat ∨ u = s.reform e now.toNat crew ∨ u = s.applyReplay e now.toNat crew ∨
          u = s.askMaster 2 ∨ u = s.applyCommit e now.toNat crew writeErrors) : StatusStep (.tickEdgeApply now writeErrors crew) s u :=
        .of_moves rfl (fun hok => State.not_fault_of_member hok hm) fun hok => State.edge_statusOk ⟨hok, hm⟩ hu
      split_ifs <;> exact (Out.sat_next ..).mpr (hstep (by simp))
    · rw [if_pos (by simpa using hcrew)]
      exact (Out.sat_next ..).mpr (StatusStep.refl _ s)

end Sys2Proof.Machine

end

/-! ### The status under every command: one case per row of the opcode table -/

section

namespace Sys2Proof.Machine

/-- What every command does to the status, each row by the lemma of its meaning. -/
theorem exec_statusStep (i : Instr) (s : State) : Out.sat (exec i s) (StatusStep i s) :=
  match i with
  | .standbyPowerUp vin => execStandbyPowerUp_statusStep vin s
  | .pwrEnAssert present => execPwrEnAssert_statusStep present s
  | .powerGood compatN => execPowerGood_statusStep compatN s
  | .imageLoad norResponds => execImageLoad_statusStep norResponds s
  | .loadComplete => execLoadComplete_statusStep s
  | .verify => execVerify_statusStep s
  | .trainTimeout => execTrainTimeout_statusStep s
  | .pwrEnDeassert => execPwrEnDeassert_statusStep s
  | .undervoltage vin => execUndervoltage_statusStep vin s
  | .overvoltage vin => execOvervoltage_statusStep vin s
  | .powerUpHoldoffExpiry => execPowerUpHoldoffExpiry_statusStep s
  | .hubControlReset port value => execHubControlReset_statusStep port value s
  | .perstAssert port => .of_status rfl (execPerstAssert_status port s)
  | .perstDeassert port => .of_status rfl (execPerstDeassert_status port s)
  | .functionLevelReset port => .of_status rfl (execFunctionLevelReset_status port s)
  | .bar0BadAccess port isWrite offset size => .of_status rfl (execBar0BadAccess_status port isWrite offset size s)
  | .doorbellSq port qid value => .of_status rfl (execDoorbellSq_status port qid value s)
  | .doorbellCq port qid value => .of_status rfl (execDoorbellCq_status port qid value s)
  | .queueEnable port qid value => execQueueEnable_statusStep port qid value s
  | .queueDisable port qid value => execQueueDisable_statusStep port qid value s
  | .hostErrClear port value => .of_status rfl (execHostErrClear_status port value s)
  | .snapHoldSet port => .of_status rfl (execSnapHoldSet_status port s)
  | .snapHoldRelease port => .of_status rfl (execSnapHoldRelease_status port s)
  | .tmuxSelWrite port value => .of_status rfl (execTmuxSelWrite_status port value s)
  | .tmuxSwitch pin => .of_status rfl (execTmuxSwitch_status pin s)
  | .linkStatusClear port n value => .of_status rfl (execLinkStatusClear_status port n value s)
  | .registerWrite port offset size value => execRegisterWrite_statusStep port offset size value s
  | .mailboxRead port failUnit => .of_status rfl (execMailboxRead_status port failUnit s)
  | .mailboxWrite port data failUnit badUnit => .of_status rfl (execMailboxWrite_status port data failUnit badUnit s)
  | .mailboxRestart port => execMailboxRestart_statusStep port s
  | .mailboxReservedOp port op => .of_status rfl (execMailboxReservedOp_status port op s)
  | .mailboxDone => .of_status rfl (execMailboxDone_status s)
  | .smbusRecoveryWrite code value pec => .of_status rfl (execSmbusRecoveryWrite_status code value pec s)
  | .submissionFetch port qid entries pcieError => .of_status rfl (execSubmissionFetch_status port qid entries pcieError s)
  | .openSeq rid => .of_status rfl (execOpenSeq_status rid s)
  | .append rid data => .of_status rfl (execAppend_status rid data s)
  | .generate rid drafts => .of_status rfl (execGenerate_status rid drafts s)
  | .fork rid => .of_status rfl (execFork_status rid s)
  | .abort rid => .of_status rfl (execAbort_status rid s)
  | .close rid => .of_status rfl (execClose_status rid s)
  | .loadWeights rid data => .of_status rfl (execLoadWeights_status rid data s)
  | .setQuotaLot rid => .of_status rfl (execSetQuotaLot_status rid s)
  | .setQuotaQueueMap rid => .of_status rfl (execSetQuotaQueueMap_status rid s)
  | .setProfile rid => .of_status rfl (execSetProfile_status rid s)
  | .vecInsert rid data => .of_status rfl (execVecInsert_status rid data s)
  | .codebookReload rid data => .of_status rfl (execCodebookReload_status rid data s)
  | .vecDelete rid => .of_status rfl (execVecDelete_status rid s)
  | .vecSearch rid data => .of_status rfl (execVecSearch_status rid data s)
  | .readCounters rid => .of_status rfl (execReadCounters_status rid s)
  | .attest rid nonce => .of_status rfl (execAttest_status rid nonce s)
  | .writeImage rid data => .of_status rfl (execWriteImage_status rid data s)
  | .norProgramComplete mismatch => .of_status rfl (execNorProgramComplete_status mismatch s)
  | .drain rid => .of_status rfl (execDrain_status rid s)
  | .invalidOpcode rid => .of_status rfl (execInvalidOpcode_status rid s)
  | .tickEdgeApply now writeErrors crew => execTickEdgeApply_statusStep now writeErrors crew s
  | .snapshotTransfer => .of_status rfl (execSnapshotTransfer_status s)
  | .edge hdr body => .of_status rfl (execEdge_status hdr body s)
  | .cmdset hdr recs => .of_status rfl (execCmdset_status hdr recs s)
  | .report child hdr rep bodyBytes whole => .of_status rfl (execReport_status child hdr rep bodyBytes whole s)
  | .repeatMsg src hdr body => .of_status rfl (execRepeatMsg_status src hdr body s)
  | .reportRepeatTimeout child => .of_status rfl (execReportRepeatTimeout_status child s)
  | .checkAndCommitEntry => .of_status rfl (execCheckAndCommitEntry_status s)
  | .checkReportSend now busy hotSeq hotShare => .of_status rfl (execCheckReportSend_status now busy hotSeq hotShare s)
  | .masterDecision now => .of_status rfl (execMasterDecision_status now s)
  | .edgeIssue now => .of_status rfl (execEdgeIssue_status now s)
  | .throttleEvaluation r => .of_status rfl (execThrottleEvaluation_status r s)
  | .throttleRaise r => .of_status rfl (execThrottleRaise_status r s)
  | .thermalShutdown r => execThermalShutdown_statusStep r s
  | .nandThrottle celsius10 => .of_status rfl (execNandThrottle_status celsius10 s)
  | .plan p => .of_status rfl (execPlan_status p s)
  | .layoutDelta entries => .of_status rfl (execLayoutDelta_status entries s)
  | .deltaReceive version firstPlan entries => .of_status rfl (execDeltaReceive_status version firstPlan entries s)
  | .taskIssue die core ctx => .of_status rfl (execTaskIssue_status die core ctx s)
  | .standPortGrant die stand => .of_status rfl (execStandPortGrant_status die stand s)
  | .tileLoadComplete die stand => .of_status rfl (execTileLoadComplete_status die stand s)
  | .contextSwitch die core => .of_status rfl (execContextSwitch_status die core s)
  | .haloCopy die core => .of_status rfl (execHaloCopy_status die core s)
  | .tileDrain die core => .of_status rfl (execTileDrain_status die core s)
  | .completionMessage task => .of_status rfl (execCompletionMessage_status task s)
  | .separateChainPass die core => .of_status rfl (execSeparateChainPass_status die core s)
  | .normalisation die core job => .of_status rfl (execNormalisation_status die core job s)
  | .softMaximum die core job => .of_status rfl (execSoftMaximum_status die core job s)
  | .rotaryRotation die core task addr rows positions => .of_status rfl (execRotaryRotation_status die core task addr rows positions s)
  | .blockFold die core job => .of_status rfl (execBlockFold_status die core job s)
  | .tokenChoice job logits => .of_status rfl (execTokenChoice_status job logits s)
  | .functionTableFill die core => .of_status rfl (execFunctionTableFill_status die core s)
  | .sketchTask die core seq v sK => .of_status rfl (execSketchTask_status die core seq v sK s)
  | .pageRanking core rid layer head queries => .of_status rfl (execPageRanking_status core rid layer head queries s)
  | .ringStepFold round ring step part => .of_status rfl (execRingStepFold_status round ring step part s)
  | .streamGrant point => .of_status rfl (execStreamGrant_status point s)
  | .walkRequest die ctx stream seq pages ask dst => .of_status rfl (execWalkRequest_status die ctx stream seq pages ask dst s)
  | .tailAppend die core rid seq layer head pos key val sK sV => .of_status rfl (execTailAppend_status die core rid seq layer head pos key val sK sV s)
  | .scatter die core rid seq layer head pos key val sK sV frame => .of_status rfl (execScatter_status die core rid seq layer head pos key val sK sV frame s)
  | .pageCopy src dst => .of_status rfl (execPageCopy_status src dst s)
  | .pageCopyComplete src dst => .of_status rfl (execPageCopyComplete_status src dst s)
  | .cleaningWrite frame flashFrame complete => .of_status rfl (execCleaningWrite_status frame flashFrame complete s)
  | .hbmUncorrectable frame => .of_status rfl (execHbmUncorrectable_status frame s)
  | .scrub frame corrected => .of_status rfl (execScrub_status frame corrected s)
  | .refresh stack row => .of_status rfl (execRefresh_status stack row s)
  | .readDisturbRefresh stack row => .of_status rfl (execReadDisturbRefresh_status stack row s)
  | .flashRead frame hardOk softRetry => .of_status rfl (execFlashRead_status frame hardOk softRetry s)
  | .wearLevelling channel => .of_status rfl (execWearLevelling_status channel s)
  | .readDisturbRelocation channel block => .of_status rfl (execReadDisturbRelocation_status channel block s)
  | .programFailure channel block => .of_status rfl (execProgramFailure_status channel block s)
  | .flashReadOnly => execFlashReadOnly_statusStep s
  | .sramUncorrectable partKind partNum => .of_status rfl (execSramUncorrectable_status partKind partNum s)
  | .searchAdmission rid => .of_status rfl (execSearchAdmission_status rid s)
  | .recordExpansion slot readable => .of_status rfl (execRecordExpansion_status slot readable s)
  | .sideScan slot lostFrames => .of_status rfl (execSideScan_status slot lostFrames s)
  | .resultAssembly slot lostNodes => .of_status rfl (execResultAssembly_status slot lostNodes s)
  | .mergeFinish index => .of_status rfl (execMergeFinish_status index s)
  | .laneLock port lanes skewNs => .of_status rfl (execLaneLock_status port lanes skewNs s)
  | .flitLock port => .of_status rfl (execFlitLock_status port s)
  | .trainRecord port rec now => .of_status rfl (execTrainRecord_status port rec now s)
  | .trainRecordSend port now => .of_status rfl (execTrainRecordSend_status port now s)
  | .trainingStepTimeout port => .of_status rfl (execTrainingStepTimeout_status port s)
  | .trainingRetry port => .of_status rfl (execTrainingRetry_status port s)
  | .timestampExchange port samples => .of_status rfl (execTimestampExchange_status port samples s)
  | .flitReceive port hdr payload => .of_status rfl (execFlitReceive_status port hdr payload s)
  | .flitSend port => .of_status rfl (execFlitSend_status port s)
  | .nak port seqs => .of_status rfl (execNak_status port seqs s)
  | .credit port returns => .of_status rfl (execCredit_status port returns s)
  | .downNotice port => execDownNotice_statusStep port s
  | .laneAlignmentTimeout port lane => execLaneAlignmentTimeout_statusStep port lane s
  | .flitSilenceTimeout port => execFlitSilenceTimeout_statusStep port s
  | .nakRateLimit port => execNakRateLimit_statusStep port s
  | .laserOffExpiry port => .of_status rfl (execLaserOffExpiry_status port s)
  | .linkState port rec => execLinkState_statusStep port rec s
  | .crewFormation members measure homes treeDelay => execCrewFormation_statusStep members measure homes treeDelay s
  | .chunkReceive sender hdr payload stack => .of_status rfl (execChunkReceive_status sender hdr payload stack s)
  | .combine coll item step chunk left right residueOk => .of_status rfl (execCombine_status coll item step chunk left right residueOk s)
  | .extest tap => .of_status rfl (execExtest_status tap s)
  | .samplePreload tap pins => .of_status rfl (execSamplePreload_status tap pins s)
  | .idcode tap => .of_status rfl (execIdcode_status tap s)
  | .highz tap => .of_status rfl (execHighz_status tap s)
  | .clamp tap => .of_status rfl (execClamp_status tap s)
  | .extestPulse tap => .of_status rfl (execExtestPulse_status tap s)
  | .extestTrain tap => .of_status rfl (execExtestTrain_status tap s)
  | .bypass tap opcode => .of_status rfl (execBypass_status tap opcode s)
  | .testLogicReset => .of_status rfl (execTestLogicReset_status s)
  | .garbageCollection channel => .of_status rfl (execGarbageCollection_status channel s)
  | .nandThrottleRelease celsius10 => .of_status rfl (execNandThrottleRelease_status celsius10 s)

/-- A step keeps the status consistent: with an empty queue the block idles, otherwise it runs the front command. -/
theorem step_statusOk (s : State) (h : s.statusOk) : Out.sat (step s) State.statusOk := by
  unfold step
  split
  · rw [Out.sat_next]
    exact State.statusOk_congr (State.pwr_of_board s.idle_board) s.idle_status h
  · rename_i c cs hc
    exact (exec_statusStep c { s with pending := cs }).imp fun t ht => ht.statusOk h

end Sys2Proof.Machine

open Sys2Proof.Machine

/-- Settles O3: each meaning keeps the status consistent, and so does the block while it idles. -/
theorem stepKeepsStatus : Obligations.StepKeepsStatus := fun s t h hst => step_statusOk s h t hst

/-- Settles O7: each row's meaning keeps the state unless it is one of the rows named, and leaves FAULT only for ROM or OFF. -/
theorem stateChanges : Obligations.StateChanges := fun i s t ht => ⟨(exec_statusStep i s t ht).state, (exec_statusStep i s t ht).fault⟩

end

/-! ### Reset and the queue of commands -/

section

namespace Sys2Proof.Machine

/-- With nothing due, the block does nothing by itself. -/
theorem State.idle_of_nothing_due {s : State} (h : s.working = false ∨ s.ownDue = none) : s.idle = s := by
  unfold State.idle
  rcases h with h | h
  · simp [h]
  · split
    · rw [h]
    · rfl

theorem resetStatus : ResetStatus := by
  refine ⟨?_, ?_, ?_, ?_, ?_, ?_⟩ <;> decide

theorem resetMemories : ResetMemories := by
  refine ⟨rfl, rfl, rfl, rfl, rfl, rfl, rfl, rfl, rfl, rfl, rfl, rfl, rfl, rfl, rfl, rfl, rfl, rfl, rfl, rfl, rfl, rfl, rfl⟩

end Sys2Proof.Machine

open Sys2Proof.Machine

/-- Settles O1: a step is the front command with the queue's rest, and on an empty queue it is the idling of the block. -/
theorem stepRunsFrontCommand : Obligations.StepRunsFrontCommand := by
  refine ⟨fun s c cs h => ?_, fun s h hidle => ?_⟩
  · rw [step, h]
  · rw [step, h]
    exact congrArg Host.Outcome.next (State.idle_of_nothing_due hidle)

/-- Settles O2: reset is the state whose fields all have their defaults, and an empty table answers its default everywhere. -/
theorem resetState : Obligations.ResetState :=
  ⟨rfl, rfl, rfl, rfl, rfl, rfl, rfl, rfl, fun _ => ⟨rfl, rfl⟩, fun _ => rfl, fun _ => rfl, fun _ => rfl⟩

/-- Settles O5: the status and every memory at reset meet their invariants. -/
theorem resetInvariants : Obligations.ResetInvariants := ⟨resetStatus, resetMemories⟩

end

/-! ### The supply, PWR_EN and the hold-off -/

section

namespace Sys2Proof.Machine

/-- The main domain starts exactly when the supply, PWR_EN and MOD_PRSNT_N allow it and the hold-off has passed. -/
theorem Power.tryStart_main (p : Power) : p.tryStart = { p with main :=
    if p.main = .off ∧ p.standby = true ∧ p.pwrEn = true ∧ p.present = true ∧ p.holdoff = false ∧ p.supply = .inRange then .starting else p.main } := by
  have hcond : (p.standby && p.pwrEn && p.present && !p.holdoff && p.main == .off && p.supply == .inRange) = true ↔
      p.main = .off ∧ p.standby = true ∧ p.pwrEn = true ∧ p.present = true ∧ p.holdoff = false ∧ p.supply = .inRange := by
    simp only [Bool.and_eq_true, beq_iff_eq, Bool.not_eq_true']
    tauto
  rw [Power.tryStart, if_congr hcond rfl rfl]
  split <;> rfl

theorem powerUpInputs : PowerUpInputs := by
  refine ⟨fun s vin hout hlo hhi => ?_, fun s present => ?_, fun s => ?_⟩
  · have hgo : (s.pwr.supply != .inRange && decide (4800 ≤ vin.toNat) && decide (vin.toNat ≤ 5700)) = true := by simp [hout, hlo, hhi]
    refine ⟨_, when_pos hgo, rfl, ?_, ?_, fun h => ?_, fun h => ?_⟩
    · dsimp only
      rw [Power.tryStart_main]
    · dsimp only
      rw [Power.tryStart_main]
      simp
    · simp [h]
    · simp [h]
  · refine ⟨_, rfl, rfl, ?_, ?_⟩
    · dsimp only
      rw [Power.tryStart_main]
    · dsimp only
      rw [Power.tryStart_main]
      simp
  · refine ⟨_, rfl, rfl, ?_, ?_⟩
    · dsimp only
      rw [Power.tryStart_main]
    · dsimp only
      rw [Power.tryStart_main]
      simp

/-- A power-down of a module whose main domain is powered, whatever becomes of its inputs. -/
theorem State.powerDown_lost {s : State} (p : Power) (h : p.main ≠ .off) : mainDomainLost s (State.powerDown { s with pwr := p }) := by
  refine ⟨rfl, rfl, ?_, rfl, rfl, rfl, rfl, rfl, rfl, rfl, rfl, rfl, rfl, rfl, rfl, rfl, rfl, rfl, rfl, rfl, rfl, rfl, rfl, rfl, rfl, rfl⟩
  rw [State.powerDown_pwr]
  simp [h]

theorem State.inputLost_on {s : State} (sup : Supply) (vin : BitVec 16) (h : s.pwr.main ≠ .off) :
    s.inputLost sup vin = State.powerDown { s with pwr := { s.pwr with supply := sup, vin := vin, standby := false } } := if_neg h

theorem State.inputLost_off {s : State} (sup : Supply) (vin : BitVec 16) (h : s.pwr.main = .off) :
    s.inputLost sup vin = { s with pwr := { s.pwr with supply := sup, vin := vin, standby := false } } := if_pos h

theorem exec_undervoltage {vin : BitVec 16} (s : State) (h : vin.toNat ≤ 4550) : exec (.undervoltage vin) s = .next (s.inputLost .under vin) :=
  when_pos (decide_eq_true h)

theorem exec_overvoltage {vin : BitVec 16} (s : State) (h : 5850 ≤ vin.toNat) : exec (.overvoltage vin) s = .next (s.inputLost .over vin) :=
  when_pos (decide_eq_true h)

theorem powerLoss : PowerLoss := by
  refine ⟨fun s hon => ?_, fun s hoff => ?_, fun s vin hv hon => ?_, fun s vin hv hon => ?_, fun s vin hoff => ⟨fun hv => ?_, fun hv => ?_⟩⟩
  · exact ⟨_, congrArg Host.Outcome.next (if_neg hon), State.powerDown_lost _ hon, rfl, rfl, rfl⟩
  · exact congrArg Host.Outcome.next (if_pos hoff)
  · exact ⟨_, (exec_undervoltage s hv).trans (congrArg _ (State.inputLost_on _ _ hon)), State.powerDown_lost _ hon, rfl, rfl, rfl⟩
  · exact ⟨_, (exec_overvoltage s hv).trans (congrArg _ (State.inputLost_on _ _ hon)), State.powerDown_lost _ hon, rfl, rfl, rfl⟩
  · rw [exec_undervoltage s hv, State.inputLost_off _ _ hoff]
  · rw [exec_overvoltage s hv, State.inputLost_off _ _ hoff]

end Sys2Proof.Machine

open Sys2Proof.Machine

/-- Settles O8: the inputs start the main domain where they allow it, and its loss is the power-down of the module. -/
theorem powerInputs : Obligations.PowerInputs := ⟨powerUpInputs, powerLoss⟩

end

/-! ### PCIe ports that answer or are reset -/

section

namespace Sys2Proof.Machine

/-- What a port that leaves reset is: it answers, from boot ROM with retry status, and shows what its link negotiated (R582, R584). -/
def State.answered (s : State) (x : HostPort) : HostPort :=
  { x with link := if s.sys.state = .rom then .retry else .answering
           rate := (linkStatus s.freeWord.1).1, width := (linkStatus s.freeWord.1).2 }

theorem State.answerPort_ready {s : State} {p : Nat} (hon : s.pwr.main = .on) (hl : (s.hostPort p).link = .inReset) (hn : (s.hostPort p).perstN = true) :
    s.answerPort p = s.freeWord.2.setHostPort p (s.answered (s.hostPort p)) := if_pos ⟨hon, hl, hn⟩

theorem State.answerPort_waits {s : State} {p : Nat} (h : s.pwr.main ≠ .on ∨ (s.hostPort p).link ≠ .inReset ∨ (s.hostPort p).perstN = false) :
    s.answerPort p = s := by
  refine if_neg fun ⟨hon, hl, hn⟩ => ?_
  rcases h with h | h | h
  · exact h hon
  · exact h hl
  · simp [h] at hn

/-- A link negotiates one of the rates and widths of R582. -/
theorem linkStatus_range (w : W64) : 1 ≤ (linkStatus w).1 ∧ (linkStatus w).1 ≤ 6 ∧ (linkStatus w).2 ∈ [8, 4, 2, 1] := by
  have h : w.toNat / 6 % 4 < 4 := Nat.mod_lt _ (by decide)
  refine ⟨Nat.le_add_right .., ?_, ?_⟩
  · rw [linkStatus]
    omega
  · dsimp only [linkStatus]
    generalize w.toNat / 6 % 4 = k at h
    interval_cases k <;> simp

/-- The queues after a reset of one port: its own are disabled with nothing outstanding. -/
theorem State.queue_portReset {s : State} (p q : Nat) (hw : Sparse.wf {} s.host.queues = true) : (s.portReset p).queue q =
    if s.ownerPort q = p then { s.queue q with enable := false, stopping := false, outstanding := 0 } else s.queue q :=
  Sparse.get_mapVals _ (fun q (x : Queue) => if s.ownerPort q = p then { x with enable := false, stopping := false, outstanding := 0 } else x) _ _ hw
    (by dsimp only; split <;> rfl)

/-- A port reset, and a counter of it. -/
theorem State.portWasReset_count {s : State} (p i : Nat) (hw : Sparse.wf {} s.host.queues = true) : portWasReset s ((s.portReset p).pcieCount p i) p := by
  refine ⟨rfl, rfl, fun q hq => ?_, fun q hq => ?_, rfl⟩
  · have h := State.queue_portReset p q hw
    rw [if_pos hq] at h
    exact ⟨congrArg Queue.enable h, congrArg Queue.outstanding h⟩
  · exact (State.queue_portReset p q hw).trans (if_neg hq)

theorem portWasReset.setHostPort {s t : State} {p : Nat} (x : HostPort) (hp : p < 2) (h : portWasReset s t p) : portWasReset s (t.setHostPort p x) p := by
  obtain ⟨hframe, hother, hoff, hkept, hreqs⟩ := h
  obtain ⟨hset, hset', -⟩ := t.setHostPort_changes x hp
  have hq (q : Nat) : (t.setHostPort p x).queue q = t.queue q := by
    rw [hset]
    rfl
  refine ⟨?_, hset'.trans hother, fun q ho => ?_, fun q ho => ?_, ?_⟩
  · rw [hset, hframe]
  · rw [hq]
    exact hoff q ho
  · rw [hq]
    exact hkept q ho
  · rw [State.setHostPort_reqs]
    exact hreqs

/-- PERST_DEASSERT: the pin is high, and the port answers where it was in reset with the main domain on. -/
theorem exec_perstDeassert {p : Nat} (s : State) (hp : p < 2) :
    exec (.perstDeassert p) s = .next ((s.setHostPort p { s.hostPort p with perstN := true }).answerPort p) := needPart_pos (decide_eq_true hp)

theorem perstDeassert_answers {s : State} {p : Nat} (hp : p < 2) (hon : s.pwr.main = .on) (hl : (s.hostPort p).link = .inReset) :
    ∃ t, exec (.perstDeassert p) s = .next t ∧ t = { s with host := { s.host with port0 := t.host.port0, port1 := t.host.port1 }, freeIx := t.freeIx } ∧
      t.hostPort (1 - p) = s.hostPort (1 - p) ∧
      t.hostPort p = { s.hostPort p with
        perstN := true, link := if s.sys.state = .rom then .retry else .answering, rate := (t.hostPort p).rate, width := (t.hostPort p).width } ∧
      1 ≤ (t.hostPort p).rate ∧ (t.hostPort p).rate ≤ 6 ∧ (t.hostPort p).width ∈ [8, 4, 2, 1] := by
  obtain ⟨hframe, hother, hport⟩ := s.setHostPort_changes { s.hostPort p with perstN := true } hp
  generalize hu : s.setHostPort p { s.hostPort p with perstN := true } = u at hframe hother hport
  have hexec : exec (.perstDeassert p) s = .next (u.freeWord.2.setHostPort p (u.answered (u.hostPort p))) := by
    rw [exec_perstDeassert s hp, hu, State.answerPort_ready]
    · rw [hframe]
      exact hon
    · rw [hport]
      exact hl
    · rw [hport]
  obtain ⟨hframe', hother', hport'⟩ := u.freeWord.2.setHostPort_changes (u.answered (u.hostPort p)) hp
  have hsys : u.sys = s.sys := by rw [hframe]
  refine ⟨_, hexec, ?_, hother'.trans hother, ?_, ?_⟩
  · rw [hframe']
    show ({ u with host := _, freeIx := _ } : State) = _
    rw [hframe]
    rfl
  · rw [hport', State.answered, hport, hsys]
  · rw [hport']
    exact linkStatus_range _

theorem perstDeassert_waits {s : State} {p : Nat} (hp : p < 2) (h : s.pwr.main ≠ .on ∨ (s.hostPort p).link ≠ .inReset) :
    exec (.perstDeassert p) s = .next (s.setHostPort p { s.hostPort p with perstN := true }) := by
  obtain ⟨hframe, -, hport⟩ := s.setHostPort_changes { s.hostPort p with perstN := true } hp
  rw [exec_perstDeassert s hp, State.answerPort_waits]
  rcases h with h | h
  · left
    rw [hframe]
    exact h
  · right
    left
    rw [hport]
    exact h

end Sys2Proof.Machine

open Sys2Proof.Machine

/-- Settles O11: a reset acts on the queues and requests of its port, and a port leaves reset with what its link negotiates. -/
theorem pciePortEvents : Obligations.PciePortEvents := by
  refine ⟨fun s port hp hw => ?_, fun s port hb hw => ?_, fun s port hp hon hl => perstDeassert_answers hp hon hl, fun s port hp h => ?_,
    fun s port hp => needPart_neg (decide_eq_false (by omega))⟩
  · obtain ⟨-, -, hport⟩ := ((s.portReset port).pcieCount port 8).setHostPort_changes
      { ((s.portReset port).pcieCount port 8).hostPort port with link := .inReset, perstN := false, rate := 0, width := 0 } hp
    exact ⟨_, needPart_pos (decide_eq_true hp), (State.portWasReset_count port 8 hw).setHostPort _ hp, hport⟩
  · have hp := State.bar0Open_port hb
    exact ⟨_, (needPart_pos (decide_eq_true hp)).trans (when_pos hb), State.portWasReset_count port 7 hw, rfl⟩
  · obtain ⟨hframe, hother, hport⟩ := s.setHostPort_changes { s.hostPort port with perstN := true } hp
    exact ⟨_, perstDeassert_waits hp h, hframe, hother, hport⟩

end

/-! ### The ways into ROM -/

section

namespace Sys2Proof.Machine

/-- The work of ROM: COMPAT_N sampled, the identity derived, and its two counters, which are all that it counts. -/
theorem State.romWork_eq (s : State) (c : Bool) : ∃ lv, s.romWork c =
    { s with pwr := { s.pwr with compatN := c }, sec := securityOf s.nor s.ident.moduleId, ctr := { s.ctr with live := lv },
             sys := { s.sys with compatPin := c, compat := c, noIdentity := !(securityOf s.nor s.ident.moduleId).haveKey } } ∧
    ∀ a, a ≠ ctrAddr 8 7 5 → a ≠ ctrAddr 8 7 6 → Sparse.get 0 lv a = Sparse.get 0 s.ctr.live a := by
  unfold State.romWork
  dsimp only
  split
  · exact ⟨_, rfl, fun a h5 _ => Sparse.get_set_ne _ _ _ _ _ h5⟩
  · exact ⟨_, rfl, fun a h5 h6 => (Sparse.get_set_ne _ _ _ _ _ h6).trans (Sparse.get_set_ne _ _ _ _ _ h5)⟩

/-- A module reset leaves what R628 says, whatever its caller changed of counters, mailbox and ROM_HOLD. -/
theorem State.resetToRom_wasReset {s : State} (c : Counters) (b : Smbus)
    (hc : c.bank0 = s.ctr.bank0 ∧ c.bank1 = s.ctr.bank1 ∧ c.bank2 = s.ctr.bank2 ∧ c.latest = s.ctr.latest) :
    moduleWasReset s ({ s with ctr := c, smb := b } : State).resetToRom ∧ ({ s with ctr := c, smb := b } : State).resetToRom.smb = b := by
  obtain ⟨lv, hwork, -⟩ := ({ s with ctr := c, smb := b } : State).moduleReset.romWork_eq s.pwr.compatN
  obtain ⟨h0, h1, h2, hl⟩ := hc
  have heq : ({ s with ctr := c, smb := b } : State).resetToRom = _ := hwork
  rw [heq]
  exact ⟨⟨rfl, rfl, rfl, rfl, rfl, rfl, rfl, rfl, rfl, rfl, rfl, rfl, rfl, rfl, rfl, rfl, rfl, h0, h1, h2, hl, hl, hl⟩, rfl⟩

theorem bar0Write_hubControl (s : State) (p : Nat) (v : W64) : s.bar0Write p 0x18 8 v = if v.toNat % 256 = 0xA5 then s.resetToRom else s := by
  have hfld : (bitAt (writeMask 0x18 8) 0 && fld (writeVal 0x18 8 v) 0 8 == 0xA5) = true ↔ v.toNat % 256 = 0xA5 := by
    rw [show writeVal 0x18 8 v = v from rfl, show bitAt (writeMask 0x18 8) 0 = true from rfl, Bool.true_and, beq_iff_eq]
    rfl
  rw [State.bar0Write]
  dsimp only
  rw [if_pos rfl, if_congr hfld rfl rfl]

theorem moduleReset : ModuleReset := by
  refine ⟨fun s port v hb hv => ?_, fun s port v hv => ?_, fun s port hb hserve hidle => ?_⟩
  · obtain ⟨hreset, hsmb⟩ := State.resetToRom_wasReset (s := s) s.ctr s.smb ⟨rfl, rfl, rfl, rfl⟩
    exact ⟨_, (when_pos hb).trans (congrArg _ ((bar0Write_hubControl s port v).trans (if_pos hv))), hreset, hsmb⟩
  · change when _ s (s.bar0Write port 0x18 8 v) = _
    rw [bar0Write_hubControl s port v, if_neg hv, when, ite_self]
  · obtain ⟨hreset, hsmb⟩ := State.resetToRom_wasReset (s := s) (s.hubCount 7 7).ctr { s.smb with romHold := false } ⟨rfl, rfl, rfl, rfl⟩
    have hexec : exec (.mailboxRestart port) s = .next (({ s.hubCount 7 7 with smb := { s.smb with romHold := false } } : State).resetToRom) := by
      change State.mailboxOp s port _ = _
      rw [State.mailboxOp, hb, hserve, hidle]
      rfl
    exact ⟨_, hexec, hreset, congrArg Smbus.romHold hsmb⟩

/-- The module that ROM leaves after power good, before its ports answer. -/
def State.poweredUp (s : State) (c : Bool) : State := (s.powerUp c).romWork c

/-- A port answers from ROM where its pin is high, and the other port is not touched. -/
theorem State.answerPort_rom {s : State} {p : Nat} (hp : p < 2) (hon : s.pwr.main = .on) (hrom : s.sys.state = .rom) (hl : (s.hostPort p).link = .inReset) :
    (∃ (h : HostIf) (fi : Nat), s.answerPort p = { s with host := { s.host with port0 := h.port0, port1 := h.port1 }, freeIx := fi }) ∧
    (s.answerPort p).hostPort (1 - p) = s.hostPort (1 - p) ∧ ((s.answerPort p).hostPort p).perstN = (s.hostPort p).perstN ∧
    ((s.answerPort p).hostPort p).link = if (s.hostPort p).perstN then .retry else .inReset := by
  cases hn : (s.hostPort p).perstN
  · rw [State.answerPort_waits (.inr (.inr hn))]
    exact ⟨⟨s.host, s.freeIx, rfl⟩, rfl, hn, hl⟩
  · rw [State.answerPort_ready hon hl hn]
    obtain ⟨hframe, hother, hport⟩ := s.freeWord.2.setHostPort_changes (s.answered (s.hostPort p)) hp
    refine ⟨⟨(s.freeWord.2.setHostPort p (s.answered (s.hostPort p))).host, s.freeIx + 1, hframe⟩, hother, ?_, ?_⟩
    · rw [hport]
      exact hn
    · rw [hport]
      exact if_pos hrom

/-- The module has a key exactly when it has an identity. -/
theorem securityOf_haveKey (nor : Mem) (id : W64) : (!(securityOf nor id).haveKey) = (identityOf nor id).isNone := by
  unfold securityOf
  cases identityOf nor id <;> rfl

theorem powerGoodEntersRom : PowerGoodEntersRom := by
  intro s c hstart
  obtain ⟨lv, hwork, hlive⟩ := (s.powerUp c).romWork_eq c
  have hup : s.poweredUp c = _ := hwork
  obtain ⟨⟨h0, f0, he0⟩, hother0, hpin0, hlink0⟩ :=
    State.answerPort_rom (s := s.poweredUp c) (p := 0) (by decide) (by rw [hup]; rfl) (by rw [hup]; rfl) (by rw [hup]; rfl)
  have hone : (((s.poweredUp c).answerPort 0).hostPort 1) = { perstN := s.host.port1.perstN } := hother0.trans (by rw [hup]; rfl)
  have hzero : (s.poweredUp c).hostPort 0 = { perstN := s.host.port0.perstN } := by rw [hup]; rfl
  obtain ⟨⟨h1, f1, he1⟩, hother1, hpin1, hlink1⟩ := State.answerPort_rom (s := (s.poweredUp c).answerPort 0) (p := 1) (by decide) (by rw [he0, hup]; rfl)
    (by rw [he0, hup]; rfl) (by rw [hone])
  have hports : ∀ p, p < 2 → ((((s.poweredUp c).answerPort 0).answerPort 1).hostPort p).perstN = (s.hostPort p).perstN ∧
      ((((s.poweredUp c).answerPort 0).answerPort 1).hostPort p).link = if (s.hostPort p).perstN then .retry else .inReset := by
    intro p hp
    interval_cases p
    · rw [show (((s.poweredUp c).answerPort 0).answerPort 1).hostPort 0 = ((s.poweredUp c).answerPort 0).hostPort 0 from hother1, hpin0, hlink0, hzero]
      exact ⟨rfl, rfl⟩
    · rw [hpin1, hlink1, hone]
      exact ⟨rfl, rfl⟩
  refine ⟨((s.poweredUp c).answerPort 0).answerPort 1, if_pos hstart, ?_⟩
  generalize ((s.poweredUp c).answerPort 0).answerPort 1 = t at he1 hports
  rw [he0, hup] at he1
  rw [he1] at hports ⊢
  exact ⟨rfl, rfl, rfl, rfl, securityOf_haveKey .., rfl, rfl, rfl, rfl, rfl, hlive, rfl, rfl, rfl, rfl, hports⟩

end Sys2Proof.Machine

open Sys2Proof.Machine

/-- Settles O9: a module reset clears what R628 names and runs ROM, and power good runs ROM on a cleared module before its ports answer. -/
theorem romEntries : Obligations.RomEntries := ⟨moduleReset, powerGoodEntersRom⟩

end

/-! ### Errors of a port, and accesses to BAR0 -/

section

namespace Sys2Proof.Machine

/-- One bit put to 1 is that bit set. -/
theorem putFld_one {w : Nat} (x : BitVec w) (b : Nat) : putFld x b 1 1 = x ||| BitVec.ofNat w (2 ^ b) := by
  refine BitVec.eq_of_getLsbD_eq fun i hi => ?_
  rw [getLsbD_putFld _ _ _ _ _ hi, BitVec.getLsbD_or, BitVec.getLsbD_ofNat, Nat.testBit_two_pow]
  by_cases hb : b = i
  · subst hb
    simp [hi]
  · rw [if_neg (by omega)]
    simp [hb]

/-- Setting a bit of HOST_ERR sets that bit and counts it, and does nothing else. -/
theorem State.errorSet_hostErr (s : State) {p : Nat} (b : Nat) (hp : p < 2) : errorSet s (s.hostErr p b) p b := by
  obtain ⟨hframe, hother, hport⟩ := s.setHostPort_changes { s.hostPort p with hostErr := putFld (s.hostPort p).hostErr b 1 1 } hp
  have hcount : s.hostErr p b = (s.setHostPort p { s.hostPort p with hostErr := putFld (s.hostPort p).hostErr b 1 1 }).pcieCount p (17 + b) := rfl
  refine ⟨?_, hother, ?_⟩
  · rw [hcount, hframe]
    rfl
  · rw [← putFld_one]
    exact hport

theorem accessOk_iff {off size : Nat} : accessOk off size = true ↔ (size = 8 ∧ off % 8 = 0) ∨ (size = 4 ∧ off % 4 = 0) := by
  simp [accessOk]

theorem exec_bar0BadAccess_accepted {s : State} {p off size : Nat} (hb : s.bar0Open p = true) (ha : accessOk off size = true) :
    exec (.bar0BadAccess p false off size) s = .next { s with host := { s.host with lastRead := s.bar0Read p off size } } :=
  (when_pos hb).trans (congrArg Host.Outcome.next (if_pos ha))

theorem exec_bar0BadAccess_refused {s : State} {p off size : Nat} (write : Bool) (hb : s.bar0Open p = true) (ha : ¬accessOk off size = true) :
    exec (.bar0BadAccess p write off size) s =
      .next (if write then s.hostErr p 2 else { s.hostErr p 2 with host := { (s.hostErr p 2).host with lastRead := 0xFFFF_FFFF_FFFF_FFFF } }) :=
  (when_pos hb).trans (congrArg Host.Outcome.next (if_neg ha))

theorem exec_registerWrite_accepted {s : State} {p off size : Nat} (v : W64) (hb : s.bar0Open p = true) (ha : accessOk off size = true) :
    exec (.registerWrite p off size v) s = .next (s.bar0Write p off size v) :=
  (when_pos hb).trans (congrArg Host.Outcome.next (if_pos ha))

theorem exec_registerWrite_refused {s : State} {p off size : Nat} (v : W64) (hb : s.bar0Open p = true) (ha : ¬accessOk off size = true) :
    exec (.registerWrite p off size v) s = .next (s.hostErr p 2) :=
  (when_pos hb).trans (congrArg Host.Outcome.next (if_neg ha))

theorem State.bar0Read_whole (s : State) (p : Nat) {off : Nat} (h : off % 8 = 0) : s.bar0Read p off 8 = s.bar0Word p off := by
  rw [State.bar0Read, if_pos rfl, show off / 8 * 8 = off by omega]

theorem State.bar0Read_low (s : State) (p : Nat) {off : Nat} (h : off % 8 = 0) :
    s.bar0Read p off 4 = BitVec.ofNat 64 ((s.bar0Word p off).toNat % 2 ^ 32) := by
  rw [State.bar0Read, if_neg (by decide), show off / 8 * 8 = off by omega, h]
  rfl

theorem State.bar0Read_high (s : State) (p : Nat) {off : Nat} (h : off % 8 = 4) :
    s.bar0Read p off 4 = BitVec.ofNat 64 ((s.bar0Word p (off - 4)).toNat / 2 ^ 32) := by
  have hlt : (s.bar0Word p (off - 4)).toNat / 2 ^ 32 < 2 ^ 32 := by
    have := (s.bar0Word p (off - 4)).isLt
    omega
  rw [State.bar0Read, if_neg (by decide), show off / 8 * 8 = off - 4 by omega, h, fld, Nat.shiftRight_eq_div_pow, Nat.mod_eq_of_lt hlt]

end Sys2Proof.Machine

open Sys2Proof.Machine

/-- Settles O12: an access is carried out exactly when it is aligned and of 8 or 4 bytes; any other sets ACCESS. -/
theorem badAccess : Obligations.BadAccess := by
  refine ⟨fun s port off size v hb hbad => ?_, fun s port off v hb => ⟨fun h => ⟨?_, ?_⟩, fun h => ?_, fun h => ?_, fun h => ?_⟩⟩
  · have ha : ¬accessOk off size = true := fun h => hbad (accessOk_iff.mp h)
    have herr := s.errorSet_hostErr 2 (State.bar0Open_port hb)
    exact ⟨⟨_, exec_bar0BadAccess_refused true hb ha, herr⟩, ⟨_, exec_registerWrite_refused v hb ha, herr⟩,
      ⟨_, _, exec_bar0BadAccess_refused false hb ha, herr, rfl⟩⟩
  · rw [exec_bar0BadAccess_accepted hb (accessOk_iff.mpr (.inl ⟨rfl, h⟩)), s.bar0Read_whole port h]
  · exact exec_registerWrite_accepted v hb (accessOk_iff.mpr (.inl ⟨rfl, h⟩))
  · rw [exec_bar0BadAccess_accepted hb (accessOk_iff.mpr (.inr ⟨rfl, by omega⟩)), s.bar0Read_low port h]
  · rw [exec_bar0BadAccess_accepted hb (accessOk_iff.mpr (.inr ⟨rfl, by omega⟩)), s.bar0Read_high port h]
  · exact exec_registerWrite_accepted v hb (accessOk_iff.mpr (.inr ⟨rfl, h⟩))

end

/-! ### The snapshot transfer -/

section

namespace Sys2Proof.Machine

/-- The bank that a port holds. -/
def State.heldBank (s : State) (p : Nat) : Option Nat := if (s.hostPort p).snapHold then (s.hostPort p).shown else none

/-- The banks that no port holds and that are not being read. -/
def State.openBanks (s : State) : List Nat :=
  (List.range 3).filter fun b => s.heldBank 0 != some b && s.heldBank 1 != some b && s.ctr.reading != some b

theorem State.freeBank_eq (s : State) : s.freeBank = ((s.openBanks.find? fun b => s.ctr.latest != some b).orElse fun _ => s.openBanks.head?) := by
  change (match s.openBanks.find? fun b => s.ctr.latest != some b with | some b => some b | none => s.openBanks.head?) = _
  cases s.openBanks.find? fun b => s.ctr.latest != some b <;> rfl

/-- The bank that takes the next snapshot is one that is held by no port and not being read. -/
theorem State.freeBank_mem {s : State} {b : Nat} (h : s.freeBank = some b) : b ∈ s.openBanks := by
  rw [State.freeBank_eq] at h
  cases hf : s.openBanks.find? fun b => s.ctr.latest != some b with
  | some c =>
    rw [hf] at h
    exact (Option.some.inj h) ▸ List.mem_of_find?_eq_some hf
  | none =>
    rw [hf] at h
    exact List.mem_of_mem_head? h

theorem State.mem_openBanks {s : State} {b : Nat} (h : b ∈ s.openBanks) :
    b < 3 ∧ s.heldBank 0 ≠ some b ∧ s.heldBank 1 ≠ some b ∧ s.ctr.reading ≠ some b := by
  simpa [State.openBanks, and_assoc] using h

/-- A port that does not hold follows the snapshot to its bank. -/
def HostPort.follow (x : HostPort) (b : Nat) : HostPort := if x.snapHold then x else { x with shown := some b }

theorem HostPort.follow_shown (x : HostPort) (b : Nat) : (x.follow b).shown = if x.snapHold then x.shown else some b := by
  rw [HostPort.follow]
  split <;> rfl

/-- The state once the latched counters have filled a bank. -/
def State.snapTaken (s : State) (x : Snap) (b : Nat) : State :=
  { s with ctr := { s.ctr.setBank b (some x) with latched := none, latest := some b }
           host := { s.host with port0 := s.host.port0.follow b, port1 := s.host.port1.follow b } }

theorem exec_snapshotTransfer {s : State} {x : Snap} (h : s.ctr.latched = some x) :
    exec .snapshotTransfer s = .next (s.freeBank.elim s fun b => s.snapTaken x b) := by
  change execSnapshotTransfer s = _
  rw [execSnapshotTransfer, h]
  cases s.freeBank <;> rfl

theorem Counters.bank_setBank (c : Counters) {a b : Nat} (x : Option Snap) (ha : a < 3) (hb : b < 3) :
    (c.setBank b x).bank a = if a = b then x else c.bank a := by
  interval_cases a <;> interval_cases b <;> rfl

theorem Counters.setBank_live (c : Counters) (b : Nat) (x : Option Snap) : (c.setBank b x).live = c.live := by
  unfold Counters.setBank
  split_ifs <;> rfl

/-- What the transfer leaves, in the bank it fills, in the others and in the windows of the ports. -/
theorem State.snapTaken_moves (s : State) (x : Snap) {b : Nat} (hb : b < 3) :
    (s.snapTaken x b).ctr.bank b = some x ∧ (s.snapTaken x b).ctr.latest = some b ∧ (s.snapTaken x b).ctr.latched = none ∧
      (s.snapTaken x b).ctr.live = s.ctr.live ∧ (∀ c, c < 3 → c ≠ b → (s.snapTaken x b).ctr.bank c = s.ctr.bank c) ∧
      ∀ p, p < 2 → ((s.snapTaken x b).hostPort p).shown = if (s.hostPort p).snapHold then (s.hostPort p).shown else some b := by
  refine ⟨(Counters.bank_setBank s.ctr _ hb hb).trans (if_pos rfl), rfl, rfl, Counters.setBank_live .., fun c hc hne => ?_, fun p hp => ?_⟩
  · exact (Counters.bank_setBank s.ctr _ hc hb).trans (if_neg hne)
  · interval_cases p <;> exact HostPort.follow_shown _ b

end Sys2Proof.Machine

open Sys2Proof.Machine

/-- Settles O13: the transfer fills the bank that it finds open, and waits where it finds none. -/
theorem snapshotMoves : Obligations.SnapshotMoves := by
  refine ⟨fun s x hx => ⟨_, exec_snapshotTransfer hx, fun b hb => ?_, fun hnone => by rw [hnone]; rfl⟩, fun s b hb => ?_⟩
  · rw [hb]
    exact s.snapTaken_moves x (State.mem_openBanks (State.freeBank_mem hb)).1
  · obtain ⟨hlt, h0, h1, hread⟩ := State.mem_openBanks (State.freeBank_mem hb)
    refine ⟨hlt, hread, fun p hp hold hshown => ?_⟩
    have hheld : s.heldBank p = some b := by rw [State.heldBank, if_pos hold, hshown]
    interval_cases p
    · exact h0 hheld
    · exact h1 hheld

end

/-! ### Doorbells -/

section

namespace Sys2Proof.Machine

/-- A write to one half of a doorbell, with the depth field of its ring and the queue that takes the field rung. -/
def State.ring (s : State) (p qid : Nat) (v : W32) (size : BitVec 16) (q : Queue) : State :=
  let s := (s.pcieCount p 9).pulse (0x82 + p)
  if s.ownerPort qid ≠ p then (s.pcieCount p 10).hostErr p 1
  else if !(s.queue qid).enable then s.pcieCount p 10
  else if !bitAt v 16 then s
  else if size.toNat < fld v 0 16 then (s.pcieCount p 10).hostErr p 0
  else s.setQueue qid q

theorem State.ringSq_eq (s : State) (p qid : Nat) (v : W32) :
    s.ringSq p qid v = s.ring p qid v (s.queue qid).sqSize { s.queue qid with sqTail := v.toNat % 65536 } := rfl

section

variable (s : State) {p qid : Nat} (v : W32) (size : BitVec 16) (q : Queue)

theorem State.ring_foreign (h : s.ownerPort qid ≠ p) : ∃ c, s.ring p qid v size q = (s.withCtr c).hostErr p 1 := ⟨_, if_pos h⟩

theorem State.ring_idle (h : s.ownerPort qid = p) (hi : (s.queue qid).enable = false ∨ v.getLsbD 16 = false) : ∃ c, s.ring p qid v size q = s.withCtr c := by
  have hown : ¬((s.pcieCount p 9).pulse (0x82 + p)).ownerPort qid ≠ p := not_not.mpr h
  rw [State.ring, if_neg hown]
  cases he : (s.queue qid).enable
  · exact ⟨_, if_pos (by rw [show ((s.pcieCount p 9).pulse (0x82 + p)).queue qid = s.queue qid from rfl, he]; rfl)⟩
  · rw [if_neg (by rw [show ((s.pcieCount p 9).pulse (0x82 + p)).queue qid = s.queue qid from rfl, he]; decide)]
    have hv : v.getLsbD 16 = false := hi.resolve_left (by simp [he])
    exact ⟨_, if_pos (by rw [bitAt, hv]; rfl)⟩

/-- A doorbell of an enabled queue, rung by its owner with the valid bit set. -/
theorem State.ring_valid (h : s.ownerPort qid = p) (he : (s.queue qid).enable = true) (hv : v.getLsbD 16 = true) : ∃ c d,
    s.ring p qid v size q = if size.toNat < v.toNat % 65536 then (s.withCtr c).hostErr p 0 else (s.withCtr d).setQueue qid q := by
  have hown : ¬((s.pcieCount p 9).pulse (0x82 + p)).ownerPort qid ≠ p := not_not.mpr h
  rw [State.ring, if_neg hown, if_neg (by rw [show ((s.pcieCount p 9).pulse (0x82 + p)).queue qid = s.queue qid from rfl, he]; decide),
    if_neg (by rw [bitAt, hv]; decide)]
  exact ⟨_, _, rfl⟩

end

/-- The two states differ at most in the counters, the queues and the PCIe ports, and the port answers as before. -/
def State.rung (s t : State) (p : Nat) : Prop :=
  t = { s with ctr := t.ctr, host := { s.host with port0 := t.host.port0, port1 := t.host.port1, queues := t.host.queues } } ∧
    (t.hostPort p).link = (s.hostPort p).link

theorem State.rung_hostErr (s : State) (c : Counters) {p : Nat} (b : Nat) (hp : p < 2) : s.rung ((s.withCtr c).hostErr p b) p := by
  obtain ⟨hframe, -, hport⟩ := (s.withCtr c).errorSet_hostErr b hp
  refine ⟨?_, by rw [hport]; rfl⟩
  rw [hframe]
  rfl

/-- What a doorbell may change: the queues, HOST_ERR of its port and the counters. -/
theorem State.rung_ring (s : State) {p : Nat} (qid : Nat) (v : W32) (size : BitVec 16) (q : Queue) (hp : p < 2) : s.rung (s.ring p qid v size q) p := by
  by_cases hown : s.ownerPort qid = p
  · by_cases hi : (s.queue qid).enable = false ∨ v.getLsbD 16 = false
    · obtain ⟨c, he⟩ := s.ring_idle v size q hown hi
      rw [he]
      exact ⟨rfl, rfl⟩
    · simp only [not_or, Bool.not_eq_false] at hi
      obtain ⟨c, d, he⟩ := s.ring_valid v size q hown hi.1 hi.2
      rw [he]
      split
      · exact s.rung_hostErr c 0 hp
      · exact ⟨rfl, rfl⟩
  · obtain ⟨c, he⟩ := s.ring_foreign v size q hown
    rw [he]
    exact s.rung_hostErr c 1 hp

/-- A port that completes accesses completes them after a doorbell too. -/
theorem State.rung.bar0Open {s t : State} {p : Nat} (h : s.rung t p) (hb : s.bar0Open p = true) : t.bar0Open p = true := by
  obtain ⟨hframe, hlink⟩ := h
  rw [State.bar0Open, hlink, hframe]
  exact hb

/-- One half of a doorbell by R602: what it does to the queues and to HOST_ERR. -/
structure RingSpec (s t : State) (p qid : Nat) (v : W32) (size : BitVec 16) (q : Queue) : Prop where
  frame : t = { s with ctr := t.ctr, host := { s.host with port0 := t.host.port0, port1 := t.host.port1, queues := t.host.queues } }
  foreign : s.ownerPort qid ≠ p → t.host.queues = s.host.queues ∧ (t.hostPort p).hostErr = (s.hostPort p).hostErr ||| 2
  idle : s.ownerPort qid = p → (s.queue qid).enable = false ∨ v.getLsbD 16 = false → t.host = s.host
  beyond : s.ownerPort qid = p → (s.queue qid).enable = true → v.getLsbD 16 = true → size.toNat + 1 ≤ v.toNat % 65536 →
    t.host.queues = s.host.queues ∧ (t.hostPort p).hostErr = (s.hostPort p).hostErr ||| 1
  taken : s.ownerPort qid = p → (s.queue qid).enable = true → v.getLsbD 16 = true → v.toNat % 65536 < size.toNat + 1 →
    t.host = { s.host with queues := Sparse.set {} s.host.queues qid q }

theorem State.hostErr_queues (s : State) (p b : Nat) : (s.hostErr p b).host.queues = s.host.queues := by
  change (s.setHostPort p _).host.queues = _
  rw [State.setHostPort]
  split <;> rfl

theorem State.ringSpec (s : State) {p : Nat} (qid : Nat) (v : W32) (size : BitVec 16) (q : Queue) (hp : p < 2) :
    RingSpec s (s.ring p qid v size q) p qid v size q := by
  refine ⟨(s.rung_ring qid v size q hp).1, fun hown => ?_, fun hown hi => ?_, fun hown he hv hlt => ?_, fun hown he hv hlt => ?_⟩
  · obtain ⟨c, h⟩ := s.ring_foreign v size q hown
    rw [h]
    exact ⟨State.hostErr_queues .., congrArg HostPort.hostErr ((s.withCtr c).errorSet_hostErr 1 hp).2.2⟩
  · obtain ⟨c, h⟩ := s.ring_idle v size q hown hi
    rw [h]
    rfl
  · obtain ⟨c, d, h⟩ := s.ring_valid v size q hown he hv
    rw [h, if_pos (by omega)]
    exact ⟨State.hostErr_queues .., congrArg HostPort.hostErr ((s.withCtr c).errorSet_hostErr 0 hp).2.2⟩
  · obtain ⟨c, d, h⟩ := s.ring_valid v size q hown he hv
    rw [h, if_neg (by omega)]
    rfl

/-! #### The same writes as register writes -/

theorem bar0Write_doorbell (s : State) (p : Nat) {qid off size : Nat} (v : W64) (hq : qid < 8192) (hoff : off / 8 * 8 = 0x1000000 + 8 * qid) :
    s.bar0Write p off size v =
      let u := if bitAt (writeMask off size) 0 then s.ringSq p qid (BitVec.ofNat 32 (fld (writeVal off size v) 0 32)) else s
      if bitAt (writeMask off size) 32 then u.ringCq p qid (BitVec.ofNat 32 (fld (writeVal off size v) 32 32)) else u := by
  rw [State.bar0Write]
  simp only [hoff]
  rw [if_neg (by omega), if_neg (by omega), if_neg (by omega), if_neg (by omega), if_neg (by omega), if_neg (by omega), if_neg (by omega), if_neg (by omega),
    if_pos (by omega), show (0x1000000 + 8 * qid - 0x1000000) / 8 = qid by omega]

/-- The value of a 4-byte write stands in the half that it is for. -/
theorem fld_writeVal_half {off : Nat} (v : W64) (h : off % 4 = 0) : fld (writeVal off 4 v) (8 * (off % 8)) 32 = fld v 0 32 := by
  have hlo : 8 * (off % 8) = 0 ∨ 8 * (off % 8) = 32 := by omega
  have hv : fld v 0 32 < 2 ^ 32 := Nat.mod_lt _ (by decide)
  rw [writeVal, if_neg (by decide)]
  generalize 8 * (off % 8) = lo at hlo
  rw [fld, place, BitVec.toNat_ofNat, Nat.mod_eq_of_lt hv, Nat.shiftLeft_eq, Nat.shiftRight_eq_div_pow]
  rcases hlo with rfl | rfl <;> omega

/-- A 4-byte write is for one half of its register. -/
theorem writeMask_half {off : Nat} (h : off % 4 = 0) : bitAt (writeMask off 4) 0 = decide (off % 8 = 0) ∧ bitAt (writeMask off 4) 32 = decide (off % 8 = 4) := by
  have hoff : off % 8 = 0 ∨ off % 8 = 4 := by omega
  rw [writeMask, if_neg (by decide)]
  rcases hoff with h | h <;> rw [h] <;> decide

theorem writeMask_whole (off : Nat) : bitAt (writeMask off 8) 0 = true ∧ bitAt (writeMask off 8) 32 = true := by
  rw [writeMask, if_pos rfl]
  decide

theorem registerWrite_doorbellSq {s : State} {port qid : Nat} (v : W64) (hb : s.bar0Open port = true) (hq : qid < 8192) :
    exec (.registerWrite port (0x1000000 + 8 * qid) 4 v) s = exec (.doorbellSq port qid (v.setWidth 32)) s := by
  have hoff : (0x1000000 + 8 * qid) % 8 = 0 := by omega
  obtain ⟨h0, h32⟩ := writeMask_half (off := 0x1000000 + 8 * qid) (by omega)
  have hval := fld_writeVal_half (off := 0x1000000 + 8 * qid) v (by omega)
  rw [hoff] at h0 h32 hval
  rw [exec_registerWrite_accepted v hb (accessOk_iff.mpr (.inr ⟨rfl, by omega⟩)), bar0Write_doorbell s port v hq (by omega), h0, h32, hval, ofNat_fld_low v]
  exact (when_pos (c := s.bar0Open port && decide (qid < 8192)) (by simp [hb, hq])).symm

theorem registerWrite_doorbellCq {s : State} {port qid : Nat} (v : W64) (hb : s.bar0Open port = true) (hq : qid < 8192) :
    exec (.registerWrite port (0x1000000 + 8 * qid + 4) 4 v) s = exec (.doorbellCq port qid (v.setWidth 32)) s := by
  have hoff : (0x1000000 + 8 * qid + 4) % 8 = 4 := by omega
  obtain ⟨h0, h32⟩ := writeMask_half (off := 0x1000000 + 8 * qid + 4) (by omega)
  have hval := fld_writeVal_half (off := 0x1000000 + 8 * qid + 4) v (by omega)
  rw [hoff] at h0 h32 hval
  rw [exec_registerWrite_accepted v hb (accessOk_iff.mpr (.inr ⟨rfl, by omega⟩)), bar0Write_doorbell s port v hq (by omega), h0, h32, hval, ofNat_fld_low v]
  exact (when_pos (c := s.bar0Open port && decide (qid < 8192)) (by simp [hb, hq])).symm

/-- A whole doorbell written rings its submission half and then its completion half. -/
theorem registerWrite_doorbell {s : State} {port qid : Nat} (v : W64) (hb : s.bar0Open port = true) (hq : qid < 8192) :
    ∃ t, exec (.doorbellSq port qid (v.setWidth 32)) s = .next t ∧
      exec (.registerWrite port (0x1000000 + 8 * qid) 8 v) s = exec (.doorbellCq port qid (BitVec.ofNat 32 (v.toNat / 2 ^ 32))) t := by
  have hring := s.rung_ring qid (v.setWidth 32) (s.queue qid).sqSize { s.queue qid with sqTail := (v.setWidth 32).toNat % 65536 } (State.bar0Open_port hb)
  have hhigh : fld v 32 32 = v.toNat / 2 ^ 32 := by
    rw [fld, Nat.shiftRight_eq_div_pow, Nat.mod_eq_of_lt]
    have := v.isLt
    omega
  refine ⟨_, when_pos (c := s.bar0Open port && decide (qid < 8192)) (by simp [hb, hq]), ?_⟩
  rw [exec_registerWrite_accepted v hb (accessOk_iff.mpr (.inl ⟨rfl, by omega⟩)), bar0Write_doorbell s port v hq (by omega),
    show writeVal (0x1000000 + 8 * qid) 8 v = v from rfl, (writeMask_whole _).1, (writeMask_whole _).2, ofNat_fld_low, hhigh]
  refine (when_pos ?_).symm
  rw [show s.ringSq port qid (v.setWidth 32) = _ from s.ringSq_eq port qid _, hring.bar0Open hb]
  exact decide_eq_true hq

theorem bar0Word_doorbell (s : State) (p : Nat) {qid : Nat} (hq : qid < 8192) : s.bar0Word p (0x1000000 + 8 * qid) = 0 := by
  rw [State.bar0Word]
  simp (disch := omega) only [if_neg]

end Sys2Proof.Machine

open Sys2Proof.Machine

/-- Settles O14: each half of a doorbell acts on its own side of the queue, and a register write is the halves that it covers. -/
theorem doorbells : Obligations.Doorbells := by
  refine ⟨fun s port qid v hb hq => ?_, fun s port qid v hb hq => ?_⟩
  · have hp := State.bar0Open_port hb
    have hsq := s.ringSpec qid v (s.queue qid).sqSize { s.queue qid with sqTail := v.toNat % 65536 } hp
    have hcq := s.ringSpec qid v (s.queue qid).cqSize { s.queue qid with cqHead := v.toNat % 65536 } hp
    have hgo : (s.bar0Open port && decide (qid < 8192)) = true := by simp [hb, hq]
    exact ⟨_, _, when_pos hgo, when_pos hgo, hsq.frame, hcq.frame,
      fun hown => ⟨(hsq.foreign hown).1, (hcq.foreign hown).1, (hsq.foreign hown).2, (hcq.foreign hown).2⟩,
      fun hown hi => ⟨hsq.idle hown hi, hcq.idle hown hi⟩,
      fun hown he hv => ⟨hsq.beyond hown he hv, hsq.taken hown he hv, hcq.beyond hown he hv, hcq.taken hown he hv⟩⟩
  · exact ⟨registerWrite_doorbellSq v hb hq, registerWrite_doorbellCq v hb hq, registerWrite_doorbell v hb hq, bar0Word_doorbell s port hq⟩

end

/-! ### Enabling and disabling a queue -/

section

namespace Sys2Proof.Machine

/-- A field of a word, as the word cut at its place. -/
theorem ofNat_fld {w : Nat} (v : BitVec w) (lo k : Nat) : BitVec.ofNat k (fld v lo k) = BitVec.ofNat k (v.toNat / 2 ^ lo) := by
  refine BitVec.eq_of_toNat_eq ?_
  rw [BitVec.toNat_ofNat, BitVec.toNat_ofNat, fld, Nat.mod_mod, Nat.shiftRight_eq_div_pow]

/-- The configuration fields of a control word do not see its ENABLE bit (R599). -/
theorem Queue.configure_putFld (q : Queue) (v : W64) (x : Nat) : q.configure (putFld v 63 1 x) = q.configure v := by
  have hirq : bitAt (putFld v 63 1 x) 61 = bitAt v 61 := by
    rw [bitAt, getLsbD_putFld _ _ _ _ _ (by decide)]
    rfl
  rw [Queue.configure, Queue.configure, fld_putFld_beside v x (.inl (by decide)) (by decide), fld_putFld_beside v x (.inl (by decide)) (by decide),
    fld_putFld_beside v x (.inl (by decide)) (by decide), hirq]

/-- A disabled queue takes every configuration field of the control word (R600). -/
def Queue.configured (q : Queue) (v : W64) : Queue :=
  { q with progressIrq := v.getLsbD 61, msixVec := BitVec.ofNat 11 (v.toNat / 2 ^ 48), cqSize := BitVec.ofNat 16 (v.toNat / 2 ^ 32),
           sqSize := BitVec.ofNat 16 (v.toNat / 2 ^ 16) }

theorem Queue.configure_disabled {q : Queue} (v : W64) (h : q.enable = false) : q.configure v = (q.configured v, false) := by
  rw [Queue.configure, ofNat_fld, ofNat_fld, ofNat_fld, if_neg (by rw [h]; decide)]
  rfl

/-- An enabled queue whose other fields are written as they are takes PROGRESS_IRQ. -/
theorem Queue.configure_enabled {q : Queue} {v : W64} (h : q.enable = true) (hvec : BitVec.ofNat 11 (v.toNat / 2 ^ 48) = q.msixVec)
    (hcq : BitVec.ofNat 16 (v.toNat / 2 ^ 32) = q.cqSize) (hsq : BitVec.ofNat 16 (v.toNat / 2 ^ 16) = q.sqSize) :
    q.configure v = ({ q with progressIrq := v.getLsbD 61 }, false) := by
  rw [Queue.configure, ofNat_fld, ofNat_fld, ofNat_fld, hvec, hcq, hsq, h]
  simp [bitAt]

theorem bar0Write_queueCtl (s : State) (p : Nat) {qid : Nat} (v : W64) (hq : qid < 8192) :
    s.bar0Write p (queueCtl qid) 8 v = s.writeQueue p qid 0x10 v 0xFFFF_FFFF_FFFF_FFFF := by
  have hr : queueCtl qid / 8 * 8 = 0x800000 + 32 * qid + 0x10 := by
    rw [queueCtl]
    omega
  rw [State.bar0Write]
  simp only [hr]
  rw [if_neg (by omega), if_neg (by omega), if_neg (by omega), if_neg (by omega), if_neg (by omega), if_neg (by omega), if_neg (by omega), if_pos (by omega),
    show (0x800000 + 32 * qid + 0x10 - 0x800000) / 32 = qid by omega, show (0x800000 + 32 * qid + 0x10) % 32 = 0x10 by omega]
  rfl

theorem State.writeQueue_foreign {s : State} {p qid : Nat} (off : Nat) (v m : W64) (h : s.ownerPort qid ≠ p) : s.writeQueue p qid off v m = s := if_pos (.inl h)

/-- The control word written by the queue's owner, where no field of an enabled queue changes. -/
theorem State.writeQueue_control {s : State} {p qid : Nat} {q : Queue} (v : W64) (hq : qid < 8192) (hown : s.ownerPort qid = p)
    (hconf : (s.queue qid).configure v = (q, false)) : s.writeQueue p qid 0x10 v 0xFFFF_FFFF_FFFF_FFFF =
      if bitAt v 63 then
        if (s.sys.state = .run ∨ s.sys.state = .drain) ∧ q.sqSize ≠ 0 ∧ q.cqSize ≠ 0 then s.setQueue qid (if q.enable then q else q.start)
        else (s.setQueue qid q).hostErr p 5
      else s.setQueue qid q.stop := by
  have hguard : ¬(s.ownerPort qid ≠ p ∨ 8192 ≤ qid) := by simp [hown, hq]
  rw [State.writeQueue, if_neg hguard]
  dsimp only
  rw [merge64_ones, if_neg (by decide), if_neg (by decide), if_pos rfl, hconf]
  rfl

theorem exec_queueEnable {s : State} {p qid : Nat} (v : W64) (hb : s.bar0Open p = true) (hq : qid < 8192) :
    exec (.queueEnable p qid v) s = .next (s.writeQueue p qid 0x10 (putFld v 63 1 1) 0xFFFF_FFFF_FFFF_FFFF) := by
  rw [← bar0Write_queueCtl s p _ hq]
  exact when_pos (by simp [hb, hq])

theorem exec_queueDisable {s : State} {p qid : Nat} (v : W64) (hb : s.bar0Open p = true) (hq : qid < 8192) :
    exec (.queueDisable p qid v) s = .next (s.writeQueue p qid 0x10 (putFld v 63 1 0) 0xFFFF_FFFF_FFFF_FFFF) := by
  rw [← bar0Write_queueCtl s p _ hq]
  exact when_pos (by simp [hb, hq])

theorem enable_putFld (v : W64) (x : Nat) : bitAt (putFld v 63 1 x) 63 = x.testBit 0 := by
  rw [bitAt, getLsbD_putFld _ _ _ _ _ (by decide)]
  rfl

/-- Access through the other port is consumed without effect, whatever the queue number. -/
theorem when_bar0Write_foreign {s : State} {p qid : Nat} (v : W64) (h : s.ownerPort qid ≠ p) :
    when (s.bar0Open p && decide (qid < 8192)) s (s.bar0Write p (queueCtl qid) 8 v) = .next s := by
  by_cases hq : qid < 8192
  · rw [bar0Write_queueCtl s p v hq, State.writeQueue_foreign _ _ _ h, when, ite_self]
  · exact when_neg (by simp [hq])

end Sys2Proof.Machine

open Sys2Proof.Machine

/-- Settles O15: a write of the control word by the queue's owner, with ENABLE set or clear. -/
theorem queueEnables : Obligations.QueueEnables := by
  refine ⟨fun s port qid v hb hq hown hoff => ?_, fun s port qid v hb hq hown hon hvec hcq hsq => ?_,
    fun s port qid v hown => ⟨when_bar0Write_foreign _ hown, when_bar0Write_foreign _ hown⟩⟩
  · have hconf := (Queue.configure_putFld (s.queue qid) v 1).trans (Queue.configure_disabled v hoff)
    have hwrite := State.writeQueue_control _ hq hown hconf
    rw [enable_putFld, if_pos (by decide)] at hwrite
    refine ⟨_, (exec_queueEnable v hb hq).trans (congrArg _ hwrite), fun hrun hs hc => ?_, fun hno => ?_⟩
    · rw [if_pos ⟨hrun, hs, hc⟩, if_neg (by simp [Queue.configured, hoff])]
      rfl
    · have hno' : ¬((s.sys.state = .run ∨ s.sys.state = .drain) ∧ ((s.queue qid).configured v).sqSize ≠ 0 ∧ ((s.queue qid).configured v).cqSize ≠ 0) := hno
      rw [if_neg hno']
      obtain ⟨hframe, -, hport⟩ := (s.setQueue qid ((s.queue qid).configured v)).errorSet_hostErr 5 (State.bar0Open_port hb)
      have hqueues := State.hostErr_queues (s.setQueue qid ((s.queue qid).configured v)) port 5
      refine ⟨?_, hqueues, congrArg HostPort.hostErr hport⟩
      rw [hqueues]
      exact hframe
  · have hconf := Queue.configure_enabled hon hvec hcq hsq
    refine ⟨?_, fun hrun hs hc => ?_⟩
    · have hwrite := State.writeQueue_control _ hq hown ((Queue.configure_putFld (s.queue qid) v 0).trans hconf)
      rw [enable_putFld, if_neg (by decide)] at hwrite
      rw [exec_queueDisable v hb hq, hwrite, Queue.stop, if_neg (by simp [hon])]
    · have hwrite := State.writeQueue_control _ hq hown ((Queue.configure_putFld (s.queue qid) v 1).trans hconf)
      rw [enable_putFld, if_pos (by decide), if_pos ⟨hrun, hs, hc⟩, if_pos hon] at hwrite
      rw [exec_queueEnable v hb hq, hwrite]

end

/-! ### The JTAG instructions -/

section

namespace Sys2Proof.Machine

theorem Jtag.instr_load (j : Jtag) {tap n : Nat} (x : TapInstr) (ht : tap < 2) (hn : n < 2) : (j.load tap x).instr n = if n = tap then x else j.instr n := by
  interval_cases tap <;> interval_cases n <;> rfl

/-- Loading an instruction changes that TAP's instruction alone. -/
theorem Jtag.load_eq (j : Jtag) (tap : Nat) (x : TapInstr) : j.load tap x = { j with hub := (j.load tap x).hub, comp := (j.load tap x).comp } := by
  rw [Jtag.load]
  split <;> rfl

/-- A row that loads an instruction into a TAP. -/
theorem holdsInstr_of_load {i : Instr} {tap : Nat} {x : TapInstr} (ht : tap < 2) (h : ∀ s : State, exec i s = s.tapLoad tap x) : holdsInstr i tap x := by
  intro s hon
  refine ⟨_, (h s).trans ((needPart_pos (decide_eq_true ht)).trans (when_pos (by simp [hon]))), ?_, ?_, ?_⟩
  · dsimp only
    rw [← Jtag.load_eq]
  · exact (s.jtag.instr_load x ht ht).trans (if_pos rfl)
  · exact (s.jtag.instr_load x ht (by omega)).trans (if_neg (by omega))

/-- Every opcode above those of R720's table is BYPASS. -/
theorem tapOpcode_unlisted {op : Byte} (h : 6 < op.toNat) : tapOpcode op = .bypass := by
  have hne {x : Byte} (hx : x.toNat ≤ 6) : op ≠ x := by
    rintro rfl
    omega
  rw [tapOpcode, if_neg (hne (by decide)), if_neg (hne (by decide)), if_neg (hne (by decide)), if_neg (hne (by decide)), if_neg (hne (by decide)),
    if_neg (hne (by decide)), if_neg (hne (by decide))]

/-- A pin-taking instruction takes the pins only where it is permitted (R722). -/
theorem State.pinsTaken_of_forbidden {s : State} (tap : Nat) (h : s.testPermitted = false) : s.pinsTaken tap = false := by
  rw [State.pinsTaken, State.tapActs]
  split
  case isTrue => rfl
  case isFalse hc => simpa [h] using hc

theorem State.testPermitted_iff {s : State} : s.testPermitted = true ↔ s.sys.state = .fault ∨ (s.sys.state = .rom ∧ s.smb.romHold = true) := by
  simp [State.testPermitted]

end Sys2Proof.Machine

open Sys2Proof.Machine

/-- Settles O34: every row loads its TAP alone, and the pins follow what R722 permits. -/
theorem jtagInstructions : Obligations.JtagInstructions := by
  refine ⟨fun tap ht => ?_, fun s tap pins ht hon => ?_, fun s hon => when_pos (by simp [hon]), fun s tap hf hr => ?_, fun s tap h => ?_,
    fun s tap ht => needPart_neg (decide_eq_false (by omega))⟩
  · have hload {i : Sys2Proof.Instr} {x : TapInstr} (h : ∀ s : State, exec i s = s.tapLoad tap x) : holdsInstr i tap x := holdsInstr_of_load ht h
    exact ⟨hload fun _ => rfl, hload fun _ => rfl, hload fun _ => rfl, hload fun _ => rfl, hload fun _ => rfl, hload fun _ => rfl,
      fun op hop => hload fun s => congrArg (s.tapLoad tap) (tapOpcode_unlisted hop), hload fun _ => rfl, hload fun _ => rfl, hload fun _ => rfl,
      hload fun _ => rfl, hload fun _ => rfl, hload fun _ => rfl, hload fun _ => rfl⟩
  · refine ⟨_, (needPart_pos (decide_eq_true ht)).trans (when_pos (by simp [hon])), rfl, ?_⟩
    interval_cases tap <;> exact ⟨rfl, rfl, rfl, rfl⟩
  · refine State.pinsTaken_of_forbidden tap (Bool.eq_false_iff.mpr fun hp => ?_)
    rcases State.testPermitted_iff.mp hp with h | h
    · exact hf h
    · exact hr h
  · rw [State.tapActs, State.testPermitted_iff.mpr h]
    simp

end

/-! ### The recovery mailbox and SMBus -/

section

namespace Sys2Proof.Machine

theorem length_norBytes (m : Mem) (a n : Nat) : (norBytes m a n).length = n := by
  simp [norBytes, Sparse.getList]

theorem getElem_norBytes (m : Mem) (a n i : Nat) (hi : i < (norBytes m a n).length) : (norBytes m a n)[i] = Sparse.get norBlank m (a + i) := by
  simp [norBytes, Sparse.getList]

/-! #### Operations of the mailbox -/

section

variable {s : State} {port : Nat}

theorem State.mailboxOp_starts (f : State) (hb : s.bar0Open port = true) (hs : s.serving = true) (hi : s.mbx.busy = false) : s.mailboxOp port f = .next f := by
  rw [State.mailboxOp, hb, hs, hi]
  rfl

theorem State.mailboxOp_busy (f : State) (hb : s.bar0Open port = true) (hs : s.serving = true) (hi : s.mbx.busy = true) :
    s.mailboxOp port f = .next (s.hostErr port 2) := by
  rw [State.mailboxOp, hb, hs, hi]
  rfl

theorem State.mailboxOp_unserved (f : State) (hs : s.serving = false) : s.mailboxOp port f = .next s := by
  rw [State.mailboxOp, hs, if_pos (by simp)]

end

theorem Mailbox.rangeOk_iff (m : Mailbox) : m.rangeOk = true ↔ m.units ≠ 0 ∧ m.norOffset + 4096 * m.units ≤ 2 ^ 28 := by
  simp [Mailbox.rangeOk]

theorem Mailbox.rangeOk_false {m : Mailbox} (h : m.units = 0 ∨ 2 ^ 28 < m.norOffset + 4096 * m.units) : (!m.rangeOk) = true := by
  by_contra hr
  obtain ⟨h1, h2⟩ := m.rangeOk_iff.mp (by simpa using hr)
  rcases h with h | h
  · exact h1 h
  · omega

/-- A range outside the NOR, or of no unit, ends with MB_RESULT 0x01 and touches nothing. -/
theorem State.mailbox_outside {s : State} {port : Nat} (f : State) (hb : s.bar0Open port = true) (hs : s.serving = true) (hi : s.mbx.busy = false)
    (hr : s.mbx.units = 0 ∨ 2 ^ 28 < s.mbx.norOffset + 4096 * s.mbx.units) :
    ∃ t, s.mailboxOp port (if !s.mbx.rangeOk then s.startMailbox 1 0 0 [] else f) = .next t ∧ t = { s with mbx := t.mbx, ctr := t.ctr } ∧
      t.mbx = { s.mbx with busy := true, done := false, doneUnits := 0, nextResult := 1, nextDoneUnits := 0, nextOff := 0, nextData := [] } := by
  refine ⟨_, State.mailboxOp_starts _ hb hs hi, ?_⟩
  rw [if_pos (Mailbox.rangeOk_false hr)]
  exact ⟨rfl, rfl⟩

/-- The NOR range of a READ in host memory. -/
theorem read_norBytes_written (m nor : Mem) (key off n : Nat) :
    (∀ i, i < n → Mem.read (Mem.write m key (norBytes nor off n)) (key + i) = Sparse.get norBlank nor (off + i)) ∧
    ∀ a, a < key ∨ key + n ≤ a → Mem.read (Mem.write m key (norBytes nor off n)) a = Mem.read m a := by
  refine ⟨fun i hi => ?_, fun a ha => Mem.read_write_out m key a _ (by rwa [length_norBytes])⟩
  rw [Mem.read_write_in m key i _ (by rwa [length_norBytes]), getElem_norBytes]

theorem mailboxReads : MailboxReads := by
  refine ⟨fun s port fail hb hs hi hu hr => ?_, fun s port fail hb hs hi hr => ?_, fun s port fail hb hs hi => ?_,
    fun s port fail hs => State.mailboxOp_unserved _ hs⟩
  · obtain ⟨hin, hout⟩ := read_norBytes_written s.host.mem s.nor (hostKey port s.mbx.hostAddr.toNat) s.mbx.norOffset (4096 * min s.mbx.units (fail.getD s.mbx.units))
    refine ⟨_, State.mailboxOp_starts _ hb hs hi, ?_⟩
    rw [if_neg (by simp [s.mbx.rangeOk_iff.mpr ⟨hu, hr⟩])]
    exact ⟨rfl, rfl, rfl, hin, hout⟩
  · exact State.mailbox_outside _ hb hs hi hr
  · exact ⟨_, State.mailboxOp_busy _ hb hs hi, s.errorSet_hostErr 2 (State.bar0Open_port hb)⟩

theorem mailboxWrites : MailboxWrites := by
  refine ⟨fun s port data fail bad hb hs hi hu hr hlen => ?_, fun s port data fail bad hb hs hi hr => State.mailbox_outside _ hb hs hi hr,
    fun s port data fail bad hs => State.mailboxOp_unserved _ hs⟩
  obtain ⟨m, hscramble, hout⟩ := s.norScramble_eq s.mbx.norOffset (4096 * s.mbx.units)
  have htake (k : Nat) (hk : k ≤ s.mbx.units) : (data ++ List.replicate (4096 * k - data.length) 0).take (4096 * k) = data.take (4096 * k) :=
    List.take_append_of_le_length (by omega)
  refine ⟨_, State.mailboxOp_starts _ hb hs hi, ?_⟩
  rw [if_neg (by simp [s.mbx.rangeOk_iff.mpr ⟨hu, hr⟩])]
  dsimp only
  rw [htake _ (by omega), hscramble]
  exact ⟨rfl, rfl, rfl, hout⟩

theorem mailboxEnds : MailboxEnds := by
  refine ⟨fun s port op hb hs hi h1 h2 h3 => ?_, fun s hi => ?_, fun s hi => when_neg hi⟩
  · refine ⟨_, State.mailboxOp_starts _ hb hs hi, ?_⟩
    rw [if_neg (by rintro (h | h | h); exacts [h1 h, h2 h, h3 h])]
    refine ⟨rfl, ?_⟩
    dsimp only
    rw [hi]
  · refine ⟨_, when_pos hi, rfl, rfl, fun i b hb => ?_, fun a ha => norWrite_out _ _ a _ ha⟩
    obtain ⟨hlt, rfl⟩ := List.getElem?_eq_some_iff.mp hb
    exact Sparse.get_setList_in norBlank s.mbx.nextData s.nor s.mbx.nextOff i hlt

/-! #### The SMBus RECOVERY register -/

/-- A byte write is taken where it carries no PEC, or the right one (R737). -/
def pecGood (code value : Byte) (pec : Option Byte) : Bool :=
  match pec with
  | none => true
  | some p => p == smbusPec [0xB8, code, value]

theorem exec_smbusWrite {s : State} (code value : Byte) (pec : Option Byte) (h : s.pwr.standby = true) : exec (.smbusRecoveryWrite code value pec) s =
    if !pecGood code value pec then .next { s with smb := { s.smb with lastAck := false } }
    else if code = 0x40 then .next { s with smb := { romHold := value.getLsbD 0, lastAck := true } }
    else .next { s with smb := { s.smb with lastAck := smbusReadOnly code } } := by
  change execSmbusRecoveryWrite code value pec s = _
  unfold execSmbusRecoveryWrite
  rw [h]
  rfl

theorem smbusWrites : SmbusWrites := by
  refine ⟨fun s value pec h hpec => ?_, fun s code value p h hpec => ?_, fun s code value h hcode => ?_, fun s code value pec h => ?_⟩
  · have hgood : pecGood 0x40 value pec = true := by
      rcases hpec with rfl | rfl
      · rfl
      · exact beq_self_eq_true _
    rw [exec_smbusWrite _ _ _ h, hgood]
    rfl
  · have hbad : pecGood code value (some p) = false := beq_eq_false_iff_ne.mpr hpec
    rw [exec_smbusWrite _ _ _ h, hbad]
    rfl
  · rw [exec_smbusWrite _ _ _ h, show pecGood code value none = true from rfl, if_neg (by decide), if_neg hcode]
  · change execSmbusRecoveryWrite code value pec s = _
    unfold execSmbusRecoveryWrite
    rw [h]
    rfl

end Sys2Proof.Machine

open Sys2Proof.Machine

/-- Settles O17: an operation starts where the mailbox is served and idle, its end shows what it prepared, and SMBus loads ROM_HOLD. -/
theorem recoveryAccess : Obligations.RecoveryAccess := ⟨mailboxReads, mailboxWrites, mailboxEnds, smbusWrites⟩

end

/-! ### The tokens of APPEND and GENERATE -/

section

namespace Sys2Proof.Machine

/-- A request is found under its own identifier. -/
theorem State.rid_of_req {s : State} {rid : Nat} {r : Req} (hr : s.req rid = some r) : r.rid = rid := by
  simpa using List.find?_some hr

section

variable {s : State} {r : Req}

theorem Req.reading_of_admitted (ha : r.stage = .admitted) (hd : r.dataRead = false) : r.reading = true := by
  rw [Req.reading, ha, hd]
  rfl

theorem exec_append_reading (d : HostRead) (hr : s.req r.rid = some r) (ht : s.ticking = true) (hop : r.opcode = 2) (ha : r.stage = .admitted)
    (hd : r.dataRead = false) : exec (.append r.rid d) s = .next (s.appendTokens r d) := by
  change execAppend r.rid d s = _
  rw [execAppend, hr]
  dsimp only
  rw [hop, Req.reading_of_admitted ha hd]
  exact when_pos ht

theorem exec_generate_reading (d : HostRead) (hr : s.req r.rid = some r) (ht : s.ticking = true) (hop : r.opcode = 3) (ha : r.stage = .admitted)
    (hd : r.dataRead = false) (hn : r.e.drafts ≠ 0) : exec (.generate r.rid d) s = .next
      (s.readData r (4 * r.e.drafts) d fun bs s => if s.tokensOk bs then s else s.updReq r.rid fun q => q.fail 6) := by
  change execGenerate r.rid d s = _
  rw [execGenerate, hr]
  dsimp only
  rw [hop, Req.reading_of_admitted ha hd, if_neg hn]
  exact when_pos ht

/-- What APPEND does with the tokens read: BAD_TOKEN first, then LENGTH_EXCEEDED, else they stand staged (R615, log 37). -/
theorem State.appendTokens_read {q : Seq} {bs : List Byte} (hq : s.seq r.handle = some q) (hlen : bs.length = 4 * r.e.w4) :
    ∃ c, s.appendTokens r (some bs) =
      if !s.tokensOk bs then (s.withRead r.rid bs c).updReq r.rid fun x => x.fail 6
      else if q.lMax < q.log.length + r.e.w4 then (s.withRead r.rid bs c).updReq r.rid fun x => x.fail 8
      else ((s.withRead r.rid bs c).updSeq r.handle fun x => { x with logStaged := tokensOf bs }).updReq r.rid fun x =>
        { x with needed := q.log.length + x.e.w4 } := by
  obtain ⟨c, h⟩ := s.readData_some r _ hlen
  refine ⟨c, h.trans ?_⟩
  have hok : (s.withRead r.rid bs c).tokensOk bs = s.tokensOk bs := rfl
  rw [show (s.withRead r.rid bs c).seq r.handle = some q from hq]
  dsimp only
  rw [hok]

/-- Edits of a sequence that keep its handle, its mark and its log keep what is committed of every log. -/
theorem State.logs_updSeq (s : State) (h : W32) (f : Seq → Seq) (hf : ∀ q, (f q).handle = q.handle ∧ (f q).log = q.log) :
    ((s.updSeq h f).seqs.map fun x => (x.handle, x.log)) = s.seqs.map fun x => (x.handle, x.log) := by
  refine List.map_map.trans (List.map_congr_left fun q _ => ?_)
  dsimp only [Function.comp_apply]
  split
  · rw [(hf q).1, (hf q).2]
  · rfl

end

end Sys2Proof.Machine

open Sys2Proof.Machine

/-- Settles O20: the tokens of an APPEND and the drafts of a GENERATE, read, checked and kept. -/
theorem tokensRead : Obligations.TokensRead := by
  refine ⟨fun s rid r bs q hr hid ht hop ha hd hq hlen => ?_, fun s rid r bs hr hid ht hop ha hd hn hlen => ?_, fun s rid r hr ht hop ha hd => ?_⟩
  · subst hid
    obtain ⟨c, h⟩ := State.appendTokens_read hq hlen
    have hread := State.req_withRead bs c hr
    refine ⟨_, (exec_append_reading _ hr ht hop ha hd).trans (congrArg Host.Outcome.next h), ?_⟩
    split
    · next hbad =>
      rw [Bool.not_eq_true'] at hbad
      exact ⟨rfl, rfl, fun _ => ⟨rfl, _, State.req_updReq (fun _ => rfl) hread, rfl, rfl⟩, fun hok => (by simp [hbad] at hok), fun hok => (by simp [hbad] at hok)⟩
    · next hok =>
      rw [Bool.not_eq_true', Bool.not_eq_false] at hok
      split
      · next hlong =>
        exact ⟨rfl, rfl, fun hbad => (by simp [hok] at hbad), fun _ _ => ⟨rfl, _, State.req_updReq (fun _ => rfl) hread, rfl, rfl⟩, fun _ hfit => by omega⟩
      · next hfit =>
        refine ⟨rfl, State.logs_updSeq _ _ _ fun _ => ⟨rfl, rfl⟩, fun hbad => (by simp [hok] at hbad), fun _ hlong => absurd hlong hfit, fun _ _ => ?_⟩
        exact ⟨⟨_, State.seq_updSeq_self (s.withRead r.rid bs c) _ (fun x => { x with logStaged := tokensOf bs }) (fun _ => ⟨rfl, rfl⟩) hq, rfl⟩,
          _, State.req_updReq (fun _ => rfl) hread, rfl⟩
  · subst hid
    obtain ⟨c, h⟩ := s.readData_some r (fun bs s => if s.tokensOk bs then s else s.updReq r.rid fun q => q.fail 6) hlen
    have hread := State.req_withRead bs c hr
    have hsame : (s.withRead r.rid bs c).tokensOk bs = s.tokensOk bs := rfl
    refine ⟨_, (exec_generate_reading _ hr ht hop ha hd hn).trans (congrArg Host.Outcome.next h), ?_⟩
    rw [hsame]
    split
    · next hok => exact ⟨rfl, fun _ => hread, fun hbad => (by simp [hok] at hbad)⟩
    · next hbad => exact ⟨rfl, fun hok => absurd hok hbad, fun _ => ⟨_, State.req_updReq (fun _ => rfl) hread, rfl, rfl⟩⟩
  · obtain rfl := State.rid_of_req hr
    rcases hop with hop | ⟨hop, hn⟩
    · rw [if_pos hop]
      exact exec_append_reading none hr ht hop ha hd
    · rw [if_neg (by simp [hop])]
      exact exec_generate_reading none hr ht hop ha hd hn

end

/-! ### Counters read and reports signed -/

section

namespace Sys2Proof.Machine

section

variable {s : State} {r : Req}

/-- The addresses of a READ_COUNTERS all hold counters. -/
theorem State.rangeCounted_iff (s : State) (a n : Nat) :
    ((List.range n).map (a + ·)).all s.hasCounter = true ↔ ∀ i, i < n → s.hasCounter (a + i) = true := by
  simp

theorem execReadCounters_good (hr : s.req r.rid = some r) (ht : s.ticking = true) (hop : r.opcode = 0xD) (hk : r.takeable = true)
    (hgood : Entry.fieldsOk r.entry = true) : exec (.readCounters r.rid) s = .next
      (let as := (List.range r.e.w5).map (r.e.w4 + ·)
       if !as.all s.hasCounter then s.updReq r.rid fun q => q.fail 4
       else if s.ctr.latched.isSome then s
       else State.updReq { s with ctr := { s.ctr with reading := s.ctr.latest } } r.rid fun q =>
         { q with stage := .staged
                  data := as.flatMap fun a => leBytes 8 ((s.latestSnap.map fun x : Snap => x.value a).getD 0).toNat
                  result0 := BitVec.ofNat 32 r.e.w5 }) :=
  State.decodeCmd_good _ hr ht hop hk hgood

/-- A report is its body and the signature over it; the body begins with the header and the nonce (R662). -/
theorem State.attestReport_body (s : State) (nonce : List Byte) (h : nonce.length = 64) :
    ∃ body, s.attestReport nonce = body ++ fit 4627 (Config.mldsaSign s.sec.secretXi (sha3_512 body)) ∧
      body.take 128 = leBytes 64 s.reportHeader.toNat ++ nonce := by
  refine ⟨_, rfl, ?_⟩
  simp only [List.append_assoc]
  rw [← List.append_assoc, List.take_left' (by simp [h])]

/-- One more report is signed, and counted. -/
def State.withSigned (s : State) (c : Counters) : State := { s with ctr := c, sec := { s.sec with signed := s.sec.signed + 1 } }

/-- The report signed for a request (R621, R662). -/
def State.signReport (s : State) (rid : Nat) (bs : List Byte) : State :=
  (s.withSigned ((s.hubCount 7 2).crewCount 41).ctr).updReq rid fun q =>
    { q with stage := .staged, data := s.attestReport bs, result0 := BitVec.ofNat 32 (s.attestReport bs).length }

theorem execAttest_good (d : HostRead) (hr : s.req r.rid = some r) (ht : s.ticking = true) (hop : r.opcode = 0xE) (hk : r.takeable = true)
    (hgood : Entry.fieldsOk r.entry = true) : exec (.attest r.rid d) s = .next
      (if !s.sec.haveKey then (s.hubCount 7 3).updReq r.rid fun q => q.fail 0x11
       else if r.e.reportMax < s.reportBytes then s.updReq r.rid fun q => { q.fail 4 with result0 := BitVec.ofNat 32 s.reportBytes }
       else if 16 ≤ s.sec.signed || s.heldBefore r.rid (fun q => q.opcode == 0xE) then s.holdCmd r.rid
       else s.readData r 64 d fun bs s => s.signReport r.rid bs) :=
  State.decodeCmd_good _ hr ht hop hk hgood

end

end Sys2Proof.Machine

open Sys2Proof.Machine

/-- Settles O22: the counters of the latest snapshot and the signed report, each checked before it is taken. -/
theorem countersAndReports : Obligations.CountersAndReports := by
  refine ⟨fun s rid r hr hid ht hk hop hgood => ?_, fun s rid r bs hr hid ht hk hop hgood hlen => ?_⟩
  · subst hid
    rw [execReadCounters_good hr ht hop hk hgood]
    dsimp only
    refine ⟨fun ⟨i, hi, hnone⟩ => ?_, fun hall hidle => ?_⟩
    · have hbad : ((List.range r.e.w5).map (r.e.w4 + ·)).all s.hasCounter = false := by
        rw [← Bool.not_eq_true, s.rangeCounted_iff]
        exact fun h => absurd (h i hi) (by simp [hnone])
      rw [hbad]
      rfl
    · rw [(s.rangeCounted_iff _ _).mpr hall, hidle]
      exact ⟨_, rfl, rfl, _, State.req_updReq (fun _ => rfl) hr, rfl, List.flatMap_map ..⟩
  · subst hid
    rw [execAttest_good _ hr ht hop hk hgood]
    cases hkey : s.sec.haveKey
    case false =>
      refine ⟨_, rfl, rfl, _, State.req_updReq (fun _ => rfl) hr, fun _ => ⟨rfl, rfl⟩, nofun, nofun, nofun⟩
    case true =>
      rw [if_neg (by decide)]
      by_cases hsmall : r.e.reportMax < s.reportBytes
      · rw [if_pos hsmall]
        exact ⟨_, rfl, rfl, _, State.req_updReq (fun _ => rfl) hr, nofun, fun _ _ => ⟨rfl, rfl⟩, fun _ h => by omega, fun _ h => by omega⟩
      · rw [if_neg hsmall]
        by_cases hwait : 16 ≤ s.sec.signed ∨ s.heldBefore r.rid (fun q => q.opcode == 0xE) = true
        · rw [if_pos (by simpa using hwait)]
          refine ⟨_, rfl, rfl, _, State.req_updReq (fun _ => rfl) hr, nofun, fun _ h => absurd h hsmall, fun _ _ _ => ⟨rfl, rfl⟩, fun _ _ hlt hfree => ?_⟩
          rcases hwait with h | h
          · omega
          · exact absurd (hfree.symm.trans h) (by decide)
        · rw [if_neg (by simpa using hwait)]
          obtain ⟨c, h⟩ := s.readData_some r (fun bs s => s.signReport r.rid bs) hlen
          rw [h]
          refine ⟨_, rfl, rfl, _, State.req_updReq (fun _ => rfl) (State.req_withRead bs c hr), nofun, fun _ h => absurd h hsmall, fun _ _ h => absurd h hwait,
            fun _ _ _ _ => ⟨rfl, rfl, State.attestReport_body (s.withRead r.rid bs c) bs hlen⟩⟩

end

/-! ### The tokens of a step -/

section

namespace Sys2Proof.Machine

/-- The drafts that a GENERATE has read. -/
def Req.drafts (r : Req) : List W32 := if r.e.drafts = 0 then [] else tokensOf r.data

/-- The tokens of a step stand staged for the log of the sequence and for the request (R616). -/
def State.stageTokens (s : State) (h : W32) (rid : Nat) (u : List W32 × Option Nat) : State :=
  (s.updSeq h fun q => { q with logStaged := u.1 }).updReq rid fun r => { r with newTokens := u.1, endReason := u.2.getD 3 }

/-- What TOKEN_CHOICE waits for: the request's work is done in this attempt and its sequence may take tokens (R407, R616, R617). -/
structure State.choiceReady (s : State) (k : Nat) (r : Req) (q : Seq) (logits : List (List W32)) : Prop where
  working : s.working = true
  fns : (v32 r.e.w5).isZero = true ∨ (s.core k).hasFns [1] = true
  opcode : r.opcode = 3
  stage : r.stage = .admitted
  fresh : r.newTokens = []
  read : r.dataRead = true
  pieces : r.pieces = 0
  found : q.lost = false
  free : s.seqHeld r.handle = false
  stored : q.log.length ≤ q.kvStaged
  steps : logits.length = r.drafts.length + 1
  rows : ∀ l, l ∈ logits → l.length = s.vocab

/-- TOKEN_CHOICE that is ready stages its tokens, and else only raises flags. -/
theorem exec_tokenChoice_ready {s : State} {die core : Nat} {r : Req} {q : Seq} {logits : List (List W32)} (hc : s.hasCore die core = true)
    (hr : s.req r.rid = some r) (hq : s.seq r.handle = some q) (h : s.choiceReady (coreNo die core) r q logits) :
    let d := stepTokens (s.envOf (coreNo die core)) r.e logits r.drafts q.log.length
    ∃ fl c, exec (.tokenChoice ⟨die, core, r.rid⟩ logits) s =
      .next ((s.stageTokens r.handle r.rid (takeTokens r.e q.lMax r.tokens q.log.length d.1)).withFlags fl c) := by
  obtain ⟨fl, c, hfl⟩ := (s.stageTokens r.handle r.rid (takeTokens r.e q.lMax r.tokens q.log.length
    (stepTokens (s.envOf (coreNo die core)) r.e logits r.drafts q.log.length).1)).flagVec_flags (coreNo die core) (some r.rid)
    (stepTokens (s.envOf (coreNo die core)) r.e logits r.drafts q.log.length).2
  refine ⟨fl, c, Eq.trans ?_ (congrArg Host.Outcome.next hfl)⟩
  change s.onCore die core _ = _
  rw [State.onCore_pos hc, hr]
  dsimp only
  rw [hq]
  refine when_pos ?_
  have hsteps : logits.length = (if r.e.drafts = 0 then [] else execTokenChoice.tokensOf r.data).length + 1 := h.steps
  have hrows : (logits.all fun l => decide (l.length = s.vocab)) = true := by simpa using h.rows
  have hfns : ((v32 r.e.w5).isZero || (s.core (coreNo die core)).hasFns [1]) = true := by simpa using h.fns
  simp [h.working, hfns, h.opcode, h.stage, h.fresh, h.read, h.pieces, h.found, h.free, h.stored, hsteps, hrows]

end Sys2Proof.Machine

open Sys2Proof.Machine

/-- Settles O43: the tokens chosen are staged for the log and the request, and no committed log changes. -/
theorem tokensChosen : Obligations.TokensChosen := by
  intro s die core rid logits r q hc hw hr hq hop hst hnew hread hpieces hlost hheld hlog hfns drafts u hsteps hrows
  obtain rfl := State.rid_of_req hr
  obtain ⟨fl, c, h⟩ := exec_tokenChoice_ready hc hr hq ⟨hw, hfns, hop, hst, hnew, hread, hpieces, hlost, hheld, hlog, hsteps, hrows⟩
  refine ⟨_, h, rfl, State.req_updReq (s := s.updSeq r.handle fun x => { x with logStaged := u.1 }) (fun _ => rfl) hr,
    State.seq_updSeq_self s r.handle (fun x => { x with logStaged := u.1 }) (fun _ => ⟨rfl, rfl⟩) hq, State.logs_updSeq _ _ _ fun _ => ⟨rfl, rfl⟩⟩

end

/-! ### Layout deltas -/

section

namespace Sys2Proof.Machine

/-- The master's delta is held; what it has no room for is deferred (R559, R562). -/
def State.heldDelta (s : State) (all : List DeltaEntry) : State :=
  { s with fore := { s.fore with deltas := s.fore.deltas ++ [⟨s.lastVersion + 1, s.tick.num + 2, all.take deltaMax, false⟩], overflow := all.drop deltaMax } }

/-- What LAYOUT_DELTA waits for: the master plans, its delta of the tick is not made, and each entry may stand in it. -/
structure State.deltaReady (s : State) (es : List DeltaEntry) : Prop where
  ticking : s.ticking = true
  master : s.crew.master = s.crew.coord
  phase : s.tick.phase ≠ .none
  fresh : s.deltaDone = false
  unreported : s.tick.reported = false
  entries : ∀ e, e ∈ es → s.entryOk es e = true
  order : s.admitsInOrder es = true
  moves : s.movesFit es = true
  migration : s.migrationOk es = true

theorem exec_layoutDelta_ready {s : State} {es : List DeltaEntry} (h : s.deltaReady es) :
    let all := s.fore.overflow ++ es
    ∃ c, exec (.layoutDelta es) s =
      .next (((s.heldDelta all).withCtr c).send (.delta (s.lastVersion + 1) (s.tick.num + 2) (all.take deltaMax))) := by
  intro all
  have hall : es.all (s.entryOk es) = true := List.all_eq_true.mpr h.entries
  have hexec : exec (.layoutDelta es) s = .next
      (let x := if all.drop deltaMax = [] then s.heldDelta all else (s.heldDelta all).crewCount 25 (all.drop deltaMax).length
       x.send (.delta (s.lastVersion + 1) (x.tick.num + 2) (all.take deltaMax))) := by
    refine when_pos ?_
    simp [h.ticking, h.master, h.phase, h.fresh, h.unreported, hall, h.order, h.moves, h.migration]
  rw [hexec]
  split
  · exact ⟨s.ctr, rfl⟩
  · exact ⟨_, rfl⟩

theorem exec_deltaReceive {s : State} (v p : W64) (es : List DeltaEntry) (ht : s.ticking = true) (hm : s.crew.master ≠ s.crew.coord)
    (hp : s.tick.phase ≠ .none) : exec (.deltaReceive v p es) s = .next
      (if es.any reservedKind ∨ v.toNat ≠ s.lastVersion + 1 then (s.hubCount 6 5).failAttempt 1
       else { s with fore := { s.fore with deltas := s.fore.deltas ++ [⟨v.toNat, p.toNat, es, false⟩] } }) :=
  when_pos (by simp [ht, hm, hp])

end Sys2Proof.Machine

open Sys2Proof.Machine

/-- Settles O32: the master's delta takes the next VERSION, and a member holds a sound one and fails the attempt on any other. -/
theorem layoutDeltas : Obligations.LayoutDeltas := by
  refine ⟨fun s es ht hm hp hd hr he ho hf hg => ?_, fun s v p es ht hm hp => ?_⟩
  · obtain ⟨c, h⟩ := exec_layoutDelta_ready ⟨ht, hm, hp, hd, hr, he, ho, hf, hg⟩
    exact ⟨_, h, rfl, rfl, rfl, rfl⟩
  · rw [exec_deltaReceive v p es ht hm hp]
    refine ⟨fun hv hsound => ?_, fun hbad => ?_⟩
    · rw [if_neg]
      rw [not_or, not_not, List.any_eq_true]
      refine ⟨fun ⟨e, hmem, hkind⟩ => ?_, hv⟩
      simpa [hkind] using List.all_eq_true.mp hsound e hmem
    · rw [if_pos hbad.symm]
      exact ⟨_, rfl, rfl, List.length_append⟩

end

/-! ### Submission entries fetched -/

section

namespace Sys2Proof.Machine

/-- The place in a submission ring after a place (R603). -/
def nextPlace (size h : Nat) : Nat := if size < h + 1 then 0 else h + 1

/-- A queue that `n` entries have been fetched from (R603). -/
def Queue.fetched (q : Queue) (n : Nat) : Queue := { q with sqHead := (nextPlace q.sqSize.toNat)^[n] q.sqHead, outstanding := q.outstanding + n }

theorem Queue.fetched_fetched (q : Queue) (m n : Nat) : (q.fetched m).fetched n = q.fetched (m + n) := by
  simp only [Queue.fetched, ← Function.iterate_add_apply, Nat.add_comm n m, Nat.add_assoc]

/-- `r` is the command that the entry `e` becomes as the `i`-th to arrive from now (R82, R604). -/
structure State.becomes (s : State) (port qid i : Nat) (e : Entry) (r : Req) : Prop where
  entry : r.entry = e
  rid : r.rid = s.host.nextRid + i
  arrival : r.arrival = s.host.nextArrival + i
  port : r.port = port
  qid : r.qid = qid
  coord : r.coord = s.crew.coord
  owed : r.owed = true
  stage : r.stage = if s.tick.phase = .checkAndCommit then .next else .merge

/-- From `s` to `t` the entries `es` of a queue become commands, in their order, and nothing else changes but counters (R604). -/
structure State.fetches (s t : State) (port qid : Nat) (es : List Entry) : Prop where
  frame : t = { s with
    reqs := t.reqs, ctr := t.ctr
    host := { s.host with queues := t.host.queues, nextRid := s.host.nextRid + es.length, nextArrival := s.host.nextArrival + es.length } }
  commands : ∃ rs, t.reqs = s.reqs ++ rs ∧ rs.length = es.length ∧ ∀ i e, es[i]? = some e → ∃ r, rs[i]? = some r ∧ s.becomes port qid i e r
  queue : t.queue qid = (s.queue qid).fetched es.length
  others : ∀ q, q ≠ qid → t.queue q = s.queue q

section

variable {s t : State} {port qid : Nat}

/-- One entry arrives: its command is the last of the requests. -/
theorem State.arrive_becomes (s : State) (port qid : Nat) (e : Entry) : ∃ r, (s.arrive port qid e).reqs = s.reqs ++ [r] ∧ s.becomes port qid 0 e r :=
  ⟨_, rfl, rfl, rfl, rfl, rfl, rfl, rfl, rfl, rfl⟩

theorem State.queue_arrive (s : State) (port qid : Nat) (e : Entry) : (s.arrive port qid e).queue qid = (s.queue qid).fetched 1 :=
  (s.queue_setQueue qid qid _).trans (if_pos rfl)

theorem State.queue_arrive_ne (s : State) (port qid : Nat) (e : Entry) {q : Nat} (hq : q ≠ qid) : (s.arrive port qid e).queue q = s.queue q :=
  s.queue_setQueue_ne qid q _ hq

/-- What becomes of an entry after another has arrived is what becomes of it one place later. -/
theorem State.becomes_succ {i : Nat} {d e : Entry} {r : Req} (h : (s.arrive port qid d).becomes port qid i e r) : s.becomes port qid (i + 1) e r where
  entry := h.entry
  rid := h.rid.trans (by change s.host.nextRid + 1 + i = _; omega)
  arrival := h.arrival.trans (by change s.host.nextArrival + 1 + i = _; omega)
  port := h.port
  qid := h.qid
  coord := h.coord
  owed := h.owed
  stage := h.stage

theorem State.fetches_nil (s : State) (port qid : Nat) : s.fetches s port qid [] where
  frame := rfl
  commands := ⟨[], (List.append_nil _).symm, rfl, fun i e h => by simp at h⟩
  queue := rfl
  others := fun _ _ => rfl

theorem State.fetches_cons {e : Entry} {es : List Entry} (h : (s.arrive port qid e).fetches t port qid es) : s.fetches t port qid (e :: es) where
  frame := by
    have hrid : (s.arrive port qid e).host.nextRid + es.length = s.host.nextRid + (e :: es).length := Nat.add_right_comm s.host.nextRid 1 es.length
    have harr : (s.arrive port qid e).host.nextArrival + es.length = s.host.nextArrival + (e :: es).length :=
      Nat.add_right_comm s.host.nextArrival 1 es.length
    refine h.frame.trans ?_
    rw [hrid, harr]
    rfl
  commands := by
    obtain ⟨rs, hreqs, hlen, hrs⟩ := h.commands
    obtain ⟨r, harrive, hr⟩ := s.arrive_becomes port qid e
    refine ⟨r :: rs, ?_, congrArg (· + 1) hlen, fun i d hd => ?_⟩
    · rw [hreqs, harrive, List.append_assoc, List.singleton_append]
    · cases i with
      | zero =>
        obtain rfl : e = d := by simpa using hd
        exact ⟨r, rfl, hr⟩
      | succ i =>
        obtain ⟨x, hx, hb⟩ := hrs i d hd
        exact ⟨x, hx, State.becomes_succ hb⟩
  queue := by
    rw [h.queue, s.queue_arrive, Queue.fetched_fetched, Nat.add_comm]
    rfl
  others := fun q hq => (h.others q hq).trans (s.queue_arrive_ne port qid e hq)

theorem State.fetches_foldl (port qid : Nat) (es : List Entry) (s : State) : s.fetches (es.foldl (fun s e => s.arrive port qid e) s) port qid es := by
  induction es generalizing s with
  | nil => exact s.fetches_nil port qid
  | cons e es ih => exact State.fetches_cons (ih (s.arrive port qid e))

theorem State.hostPort_fetches {es : List Entry} (h : s.fetches t port qid es) (p : Nat) : t.hostPort p = s.hostPort p := by
  rw [h.frame]
  rfl

/-- The round robin of a port moves on, with the bytes that it read counted (R604). -/
def State.visited (s : State) (port qid bytes : Nat) : State := (s.setHostPort port { s.hostPort port with rr := qid + 1 }).pcieCount port 15 bytes

theorem State.visited_changes (s : State) (qid bytes : Nat) (hp : port < 2) :
    ∃ a b c, s.visited port qid bytes = { s with host := { s.host with port0 := a, port1 := b }, ctr := c } ∧
      (s.visited port qid bytes).hostPort port = { s.hostPort port with rr := qid + 1 } ∧
      (s.visited port qid bytes).hostPort (1 - port) = s.hostPort (1 - port) := by
  obtain ⟨hframe, hother, hport⟩ := s.setHostPort_changes { s.hostPort port with rr := qid + 1 } hp
  exact ⟨_, _, _, (congrArg (State.pcieCount · port 15 bytes) hframe).trans rfl, hport, hother⟩

/-- Entries that may be fetched have room in the completion ring (R603). -/
theorem Queue.fetchable_room {q : Queue} {n : Nat} (h1 : 1 ≤ n) (h : n ≤ q.fetchable) : q.outstanding + n ≤ q.freeEntries := by
  rw [Queue.fetchable] at h
  split at h <;> omega

theorem exec_submissionFetch {s : State} {port qid : Nat} (es : List (BitVec 512)) (err : Bool) (hs : s.sys.state = .run) (hm : s.crew.member = true)
    (hq : s.nextQueue port = some qid) : exec (.submissionFetch port qid es err) s = .next
      (if err then (s.setQueue qid { s.queue qid with error := true }).hostErr port 3
       else if 1 ≤ es.length ∧ es.length ≤ 8 ∧ es.length ≤ (s.queue qid).fetchable ∧ s.mergeCount + es.length ≤ 65536 then
         let u := es.foldl (fun s e => s.arrive port qid e) s
         u.visited port qid (64 * es.length)
       else s) :=
  when_pos (by simp [hs, hm, hq])

end

end Sys2Proof.Machine

open Sys2Proof.Machine

/-- Settles O18: the entries of the queue visited arrive in order, by induction on them, and an error takes nothing. -/
theorem submissionFetches : Obligations.SubmissionFetches := by
  refine ⟨fun s port qid es hs hm hp hq h1 h8 hf hc => ?_, fun s port qid es hs hm hp hq => ?_⟩
  · have hroom := Queue.fetchable_room h1 hf
    rw [exec_submissionFetch es false hs hm hq, if_neg (by decide), if_pos ⟨h1, h8, hf, hc⟩]
    have hfetch := s.fetches_foldl port qid es
    generalize es.foldl (fun s e => s.arrive port qid e) s = u at hfetch
    obtain ⟨rs, hreqs, hlen, hrs⟩ := hfetch.commands
    obtain ⟨a, b, c, hvisit, hport, hother⟩ := u.visited_changes qid (64 * es.length) hp
    have hqueues (q : Nat) : (u.visited port qid (64 * es.length)).queue q = u.queue q := by rw [hvisit]; rfl
    have hvreqs : (u.visited port qid (64 * es.length)).reqs = s.reqs ++ rs := by rw [hvisit]; exact hreqs
    refine ⟨_, rfl, ?_, ?_, ?_, fun i e he => ?_, ?_, ?_, ?_, fun q hne => ?_, ?_, ?_⟩
    · rw [hvisit]
      conv_lhs => rw [hfetch.frame]
    · rw [hvreqs, List.length_append, hlen]
    · rw [hvreqs, List.take_left']
      rfl
    · obtain ⟨r, hr, hb⟩ := hrs i e he
      refine ⟨r, ?_, hb.entry, hb.rid, hb.arrival, hb.port, hb.qid, hb.coord, hb.owed, hb.stage⟩
      rw [hvreqs, List.getElem?_append_right (by omega), Nat.add_sub_cancel_left, hr]
    · rw [hqueues, hfetch.queue]
      rfl
    · rw [hqueues, hfetch.queue]
      exact hroom
    · rw [hqueues, hfetch.queue]
      rfl
    · rw [hqueues, hfetch.others q hne]
    · rw [hport, State.hostPort_fetches hfetch]
    · rw [hother, State.hostPort_fetches hfetch]
  · rw [exec_submissionFetch es true hs hm hq]
    exact ⟨_, rfl, State.errorSet_hostErr _ 3 hp⟩

end
